-- ==== Sys2Proof/Word.lean ====
section
/-! DEFINITION. The word types of the machine. What is computed with them stands in Machine/Ops.lean. -/

namespace Sys2Proof

abbrev Byte := BitVec 8
abbrev Word := BitVec 64
abbrev Quad := BitVec 128
abbrev Vec := BitVec 256

/-- Data keyed by a natural number, kept sorted by key with no key twice and no entry equal to the default of its key. -/
abbrev SMap (β : Type) := List (Nat × β)

end Sys2Proof
end

