-- ==== Sys2Proof/Syntax.lean ====
section
/-! DEFINITION. The commands of the block: one constructor per row of the opcode table, with the operands the rules give it. -/

namespace Sys2Proof

/-- A unit ID (R12). -/
abbrev Uid := BitVec 16

/-- Why a unit fails (R25): the codes 0x04 to 0x07. -/
inductive FailCause where
  | fall | threshold | uncorrectable | unreachable
deriving DecidableEq, Repr

/-- A regulated domain: sheaves 0 to 23, field fabrics 24 to 27, engine stops 28 to 31 (R48). -/
abbrev DomId := Fin 32

/-- A reference clock input: false REFCLK_A, true REFCLK_B (R42). -/
abbrev RefClk := Bool

/-- What a sheaf's monitors show at an evaluation: its measured pace, and the current in mA that its logic would draw (R39, R59). -/
structure SheafMeter where
  pace : Nat
  load : Nat
deriving DecidableEq, Repr

/-- What a power distribution goes by (R56, R460): the sheaves' means in 0.125 W, and the domains base camp sets, each with a voltage
in mV and a share (R48, R58). -/
structure PowerSplit where
  means : List Nat
  sets  : List (DomId × Nat × Nat)
deriving DecidableEq, Repr

/-- What a poll of base camp finds (R459, R481): sensor readings; the currents that the logic of field fabrics and engine stops would
draw; the regulators whose phase monitor has shut a phase off; the flashes, true for B, that fail a read or their verification; and the
highest readings of field fabrics and engine stops (R61). -/
structure Polled where
  readings : List (Nat × Nat)
  loads    : List (DomId × Nat)
  phases   : List DomId
  flashes  : List Bool
  temps    : List (DomId × Nat)
deriving DecidableEq, Repr

/-- A virtual thread number, 0 to 383 (R29). -/
abbrev Tid := Fin 384

/-- A five-bit register field (R70). -/
abbrev RegNo := BitVec 5

/-- The payloads of the LIMM words that stand directly before an IMM-format instruction, first word first (R101). -/
abbrev Limm := List (BitVec 25)

/-- The lane width of a vector operation (R85). -/
inductive Lane where
  | b8 | b16 | b32 | b64
deriving DecidableEq, Repr

/-- What VINT performs per lane (R103). -/
inductive VIntOp where
  | add | sub | cmpEq | cmpLtS | cmpLtU | minS | maxS | minU | maxU
deriving DecidableEq, Repr

/-- Which part of each lane's product VMUL writes (R103). -/
inductive VMulOp where
  | low | highS | highU
deriving DecidableEq, Repr

/-- What VSHL performs: logic over the whole register, or a shift of each lane (R103). -/
inductive VLogOp where
  | and | or | xor | andn | sll | srl | sra
deriving DecidableEq, Repr

/-- What VPERM performs on lanes (R103). -/
inductive VPermOp where
  | permute | broadcast | mirror
deriving DecidableEq, Repr

/-- The floating-point element width (R105: fp64). -/
inductive FpW where
  | f32 | f64
deriving DecidableEq, Repr

/-- What FADD performs (R103). -/
inductive FAddOp where
  | add | sub | cmpEq | cmpLt | cmpLe
deriving DecidableEq, Repr

/-- What FDIV performs (R103). -/
inductive FDivOp where
  | div | sqrt
deriving DecidableEq, Repr

/-- What FCVT converts (R103): between floating and integer types and widths. -/
inductive FCvtOp where
  | toSigned (src : FpW) (dst : Lane)
  | toUnsigned (src : FpW) (dst : Lane)
  | fromSigned (src : Lane) (dst : FpW)
  | fromUnsigned (src : Lane) (dst : FpW)
  | width (src dst : FpW)
deriving DecidableEq, Repr

/-- What VMOV moves (R103): a lane between a general and a vector register, or a whole vector register. -/
inductive VMovOp where
  | insert (lane : Nat)
  | extract (lane : Nat)
  | vector
deriving DecidableEq, Repr

/-- What VRED reduces with (R103). -/
inductive VRedOp where
  | add | and | or | xor | minS | maxS | minU | maxU
deriving DecidableEq, Repr

/-- The AES round step of VAES (R103), on each 128-bit half. -/
inductive AesOp where
  | encRound | encLast | decRound | decLast
deriving DecidableEq, Repr

/-- The message digest step of VSHA2 (R103). -/
inductive Sha2Op where
  | sha256Round | sha256Schedule | sha512Round | sha512Schedule
deriving DecidableEq, Repr

/-- The step of VSHA3 on Keccak-f[1600] (R103). -/
inductive Sha3Op where
  | theta | rhoPi | chi | iota
deriving DecidableEq, Repr

/-- The block instruction an element belongs to, with its fn field (R121 to R125). -/
inductive BlkOp where
  | move (fn : BitVec 10)
  | fill (fn : BitVec 10)
  | cmp (fn : BitVec 10)
  | crc (fn : BitVec 10)
  | ntt (fn : BitVec 10)
deriving DecidableEq, Repr

/-- Why a precise fault is entered: one an instruction has raised, or words at the PCC that no command spells (R100, R101). -/
inductive FaultSource where
  | pending
  | words (ws : List (BitVec 32))
deriving DecidableEq, Repr

/-- Who makes an access to control space (R19): base camp, a thread through a CTRL capability, or an instance of a host port. -/
inductive Requester where
  | baseCamp
  | thread (t : Tid)
  | host (port : Fin 16) (inst : Fin 64)
deriving DecidableEq, Repr

/-- Why the standby management core takes over (R456). -/
inductive Takeover where
  | heartbeat | fall | sram | planned
deriving DecidableEq, Repr

/-- A management transport (R466): I3C, or PCIe messages on PF 0 of a host port. -/
inductive Transport where
  | i3c
  | vdm (port : Fin 16)
deriving DecidableEq, Repr

/-- What a PLDM request of R467 asks. -/
inductive PldmQuery where
  | numericSensor (id : Nat)
  | stateSensor (u : Uid)
  | limitW (w : Nat)
  | brakeW (w : Nat)
  | fru
  | events
  | base (cmd : Nat)
deriving DecidableEq, Repr

/-- What a management request asks of a unit (R473, R484), and of a memory stop the beginning or the end of a memory test (R441). -/
inductive UnitAsk where
  | start | drainOff | drainRetire | cancelDrain | restart | bivouac | powerDown
  | memTest (begin_ : Bool)
deriving DecidableEq, Repr

/-- A board input: those base camp samples (R475, R476), and the battery, fitted or removed, with the voltage in mV to which it has
charged the holdover capacitor (R64, R65). -/
inductive BoardInput where
  | pwrgdStby | pwrgdMain | resetIn | pwrBrake | bootSel
  | battery (mv : Nat)
deriving DecidableEq, Repr

/-- The resident boot image section (R495, R500). -/
structure BootImage where
  load   : Nat                 -- load address
  bytes  : List Byte
  entry  : Nat                 -- entry offset
  fault  : Nat                 -- fault entry offset
  wBase  : Nat                 -- window-stack region
  wSize  : Nat
  fBase  : Nat                 -- fault-stack region
  fSize  : Nat
deriving DecidableEq, Repr

/-- A configuration image as R494 to R496 describe it: what its checks find, and its sections. `settings` is section kind 2, as
control addresses and the values base camp writes there. -/
structure Image where
  formatOk  : Bool             -- the magic, no reserved byte set, kinds 1, 2 and 5 present
  digestOk  : Bool
  sigOk     : Bool             -- both signatures
  keysOk    : Bool             -- both key hashes match the fused ones
  version   : Nat
  svn       : Nat
  burn      : Bool
  fwVersion : Nat
  accepts   : Nat              -- oldest state-copy version it accepts (R469)
  settings  : List (Nat × Word)
  patch     : Option Nat       -- version of its core patch set
  trusted   : Option (List Byte)
  boot      : BootImage
  withdraw  : List Nat
  logRegion : Bool             -- it names a log flash region (R465)
  subsys    : Nat              -- the subsystem IDs its functions report (R338)
  spareRank : Bool             -- it asks for a spare rank in each channel (R323)
deriving DecidableEq, Repr

/-- What the fuses hold (R493): whether every group's check code passes, register values marked F, and the units fused out. -/
structure Fuses where
  ok     : Bool
  values : List (Nat × Word)
  out    : List Nat
  shifts : List (Nat × Nat)    -- first check shift of a core (R200)
deriving DecidableEq, Repr

/-- A channel's modules, as their SPD describes them (R303 to R305, R474). -/
structure Dimm where
  ranks  : Nat                 -- package ranks in all
  count  : Nat                 -- modules in the channel
  mrdimm : Bool                -- MRDIMM, otherwise RDIMM
  gib    : Nat                 -- GiB per rank
  x4     : Bool
  rate   : Nat                 -- highest data rate, MT/s
  serial : Nat                 -- CRC-32C over the serial numbers
  drfm   : Bool                -- SPD declares support for directed refresh management (R318)
  trains : Bool                -- training succeeds
  stack   : Nat                -- height of its 3DS stacks, 1 where none (R304)
  density : Nat                -- density of a die, in Gbit (R305)
  raa     : Nat                -- activates of a bank after which it requires a refresh management command, 0 none (R318)
deriving DecidableEq, Repr

/-- The class of a check mismatch, as last_class codes it (R207). -/
inductive SlipClass where
  | integer | muldiv | vector | capability | loadAddress | storeCompare | uopParity
deriving DecidableEq, Repr

/-- What a DRAM read finds (R308, R322, R330): on which device a correctable error lies. -/
inductive Ecc where
  | good
  | correctable (device : Nat)
  | uncorrectable
deriving DecidableEq, Repr

/-- The error pattern a DRAM read meets (R308): confined to one device, and there to one half of its lanes or not; confined to two
devices; an address mismatch; or any other, for which the code guarantees nothing. Where nothing is guaranteed, what the code makes
of it is the pattern's own. -/
inductive ErrPat where
  | none
  | device (d : Nat) (half : Bool)
  | twoDevices (x8 : Ecc)
  | address
  | other (e : Ecc)
deriving DecidableEq, Repr

/-- A command a subchannel may issue (R316 to R318): the read or write at a place of its queue, a refresh of a rank, or a
scheduled neighbour refresh. -/
inductive DramCmd where
  | read (i : Nat)
  | write (i : Nat)
  | refresh (rank : Nat)
  | neighbour
deriving DecidableEq, Repr

/-- Who sends a request to a home on behalf of I/O, an engine or base camp (R262). -/
inductive Writer where
  | engine (u : Uid)
  | host (p : Fin 16)
  | baseCamp
deriving DecidableEq, Repr

/-- An error of a cache array that is not corrected in place (R248): of a set's tags, with the lines that no way's check bits agree
with, or of a line's data. -/
inductive ArrayErr where
  | tag (lost : List Nat)
  | data (line : Nat)
deriving DecidableEq, Repr

/-- Who asks for RdOnce (R270): a privileged reader, or one that is not. -/
inductive Reader where
  | baseCamp
  | migration (c : Fin 16)
  | gleaner (c : Fin 16)
  | trace
  | foreign (u : Uid)
deriving DecidableEq, Repr

/-- A placement hint as sent (R268). -/
inductive HintArg where
  | none
  | thread (t : Nat)
  | tile (i : Nat)
deriving DecidableEq, Repr

/-- An atomic's operation (R113, R114). -/
inductive AmoOp where
  | fadd | swap | and | or | xor | smin | smax | umin | umax
deriving DecidableEq, Repr

/-- An atomic of an engine or a host (R271): an operation of R113, or a compare-and-swap with the value it expects. -/
inductive HomeAtomic where
  | amo (op : AmoOp)
  | cas (expect : BitVec 128)
deriving DecidableEq, Repr

/-- A message (R262), each of one plane; `read` and `write` are requests to a device, a host aperture or a controller, `ctrlRead` and
`ctrlWrite` those to control space, `interrupt` an interrupt message, and `response` every other response (R283). -/
inductive Msg where
  | rdS | rdO | upg | rdOnce | wrLine | wrPart | wb | notice | atom | read | write | ctrlRead | ctrlWrite | interrupt
  | snpS | snpO | snpInv | stash | dupUpd
  | data | ack | nack | stale | retry | noTarget | response
deriving DecidableEq, Repr

/-- A packet at its injection (R286): a request carries the address it asks for, and one that a home sends for another's write or atomic
the source and tag of that (R297). -/
structure Inject where
  stop : Fin 128
  msg  : Msg
  dest : Uid
  src  : Uid
  tag  : BitVec 10
  addr : Nat
  payload : List (BitVec 8)
  orig : Option (Uid × BitVec 10)
deriving DecidableEq, Repr

/-- A branch of a predicted path as it was predicted (R182, R183): a conditional one and its direction, J, one through a register,
CALL, CALLR or TRAP with the return address it pushes, or a return. -/
inductive PathOp where
  | cond (taken : Bool)
  | jump
  | indirect
  | call (ret : BitVec 64)
  | ret
deriving DecidableEq, Repr

/-- A misprediction (R183): the thread, the branch as it was predicted, and the branches of the younger path. -/
structure Mispredict where
  thread : Tid
  branch : PathOp
  path   : List PathOp
deriving DecidableEq, Repr

/-- Of a read of a line: an instruction fetch asks for it; and an expansion device would answer it with poison (R330). -/
structure LineRead where
  fetch  : Bool
  poison : Bool
deriving DecidableEq, Repr

/-- What a completion from a host brings (R345, R346). -/
inductive Cpl where
  | data (bytes : List (BitVec 8))
  | error
  | poisoned
  | malformed
deriving DecidableEq, Repr

/-- Why a host port is reset (R349). -/
inductive PortResetKind where
  | hot | linkDown | perst
deriving DecidableEq, Repr

/-- A containment cause that a port finds itself (R351). -/
inductive FreezeCause where
  | aer | linkDown | presence
deriving DecidableEq, Repr

/-- A write of configuration space that R337 to R343 and R355 give an effect (R339). -/
inductive CfgWrite where
  | numVfs (n : Nat)
  | vfEnable (b : Bool)
  | relaxedOrdering (b : Bool)
  | d3hot (b : Bool)
  | maxPayload (code : BitVec 3)
  | maxReadRequest (code : BitVec 3)
  | msixEnable (b : Bool)
  | functionMask (b : Bool)
  | tenBitTags (b : Bool)
deriving DecidableEq, Repr

/-- A frame's arrival at an external port (R418, R426): data, 802.3x pause with its time in ns, or PFC with a time per priority. -/
inductive RxFrame where
  | data (bytes : List (BitVec 8))
  | pause (ns : Nat)
  | pfc (times : List (Nat × Nat))
deriving DecidableEq, Repr

/-- What the core gathers about a tagged µop that retires (R515, R516). -/
structure Sampled where
  cursor  : BitVec 64
  va      : BitVec 64          -- 0 without a data access
  word    : BitVec 32
  mispredicted : Bool
  slipped : Bool
  source  : BitVec 4
  latency : Nat                -- in ns
  beats   : List Nat           -- the eight counts of beats
deriving DecidableEq, Repr

/-- A traced event (R528, R529). -/
inductive TraceKind where
  | transfer | trap | fault | interrupt | fret
deriving DecidableEq, Repr

structure Traced where
  kind   : TraceKind
  cursor : BitVec 64
  target : BitVec 64
  info   : BitVec 8            -- cause, vector or gate number
deriving DecidableEq, Repr

/-- What a scan of the data path leaves as it is updated (R521, R523): the boundary cells' values, and segment insertion bits. -/
structure TapScan where
  bits : List Bool
  segs : List (Nat × Bool)
deriving DecidableEq, Repr

inductive Instr where
  /-- REGISTER_WRITE: A control-space write to a register with no behaviour of its own sets the field, or is discarded as R22 and the owner-only rules state (R21). -/
  | registerWrite (r : Requester) (a : BitVec 40) (wide : Bool) (v : Word)
  /-- UNIT_START_COMMAND: Base camp start command moves a unit from off to starting (R25). -/
  | unitStartCommand (u : Uid)
  /-- PLACE_SPARE: Base camp moves a core or tile from off to bivouac (R25). -/
  | placeSpare (u : Uid)
  /-- BIVOUAC_POWER_DOWN: Base camp powers a bivouac unit down to off (R25). -/
  | bivouacPowerDown (u : Uid)
  /-- START_SEQUENCE_COMPLETE: A unit's start sequence completes and it moves from starting to in service (R25). -/
  | startSequenceComplete (u : Uid)
  /-- START_SEQUENCE_ERROR: A unit's start sequence fails and it moves from starting to failed with cause 0x06 (R25). -/
  | startSequenceError (u : Uid)
  /-- DRAIN_COMMAND: Base camp moves a unit from in service to draining (R25). -/
  | drainCommand (u : Uid)
  /-- DRAIN_COMPLETE: A drain completes and the unit moves to off or withdrawn with cause 0x03 (R25). -/
  | drainComplete (u : Uid) (retire : Bool)
  /-- DRAIN_CANCELLED: A drain is cancelled and the unit returns to in service with cause 0x0A (R25). -/
  | drainCancelled (u : Uid)
  /-- UNIT_FAILURE: A unit in service or draining moves to failed on an uncorrectable error, containment or unreachability (R25). -/
  | unitFailure (u : Uid) (why : FailCause)
  /-- CONTAINMENT_WITHDRAW: Base camp moves a contained failed unit to withdrawn and adds it to the withdrawal list (R25). -/
  | containmentWithdraw (u : Uid)
  /-- FAILED_RESTART: Base camp moves a failed unit to off for restart where its chapter permits (R25). -/
  | failedRestart (u : Uid)
  /-- STATE_MESSAGE: A unit's state message reaches base camp, which updates its unit table (R27). -/
  | stateMessage (k : Nat)
  /-- DROOP_PAUSE: A domain supply falls below 0.52 V and every handshake in the domain pauses (R36). -/
  | droopPause (d : DomId) (mv : Nat)
  /-- DROOP_RESUME: The domain supply rises above 0.54 V and the stages resume (R36). -/
  | droopResume (d : DomId) (mv : Nat)
  /-- REFERENCE_LOSS: A reference is declared lost and the timebase switches to the other reference or to holdover (R42). -/
  | referenceLoss (r : RefClk)
  /-- REFERENCE_RETURN: A reference returns and the timebase slews back into step with it (R43). -/
  | referenceReturn (r : RefClk)
  /-- REVERT_SWITCH: The preferred reference has been within limits for 1 ms and the timebase reverts to it (R44). -/
  | revertSwitch
  /-- GOVERNOR_EVALUATION: Every 1 µs the sheaf governor forms the requested pace, applies its limits and chooses a voltage (R52). -/
  | governorEvaluation (h : Fin 24) (x : SheafMeter) (t0 t1 t2 t3 : BitVec 10)
  /-- VOLTAGE_STEP: A regulator moves its output one 5 mV step toward its set point (R49). -/
  | voltageStep (d : DomId)
  /-- POWER_WINDOW: A 100 µs power window ends and its mean is reported in power_now (R53). -/
  | powerWindow (h : Fin 24) (mean : BitVec 12)
  /-- SENSOR_SELF_CHECK_FAIL: A sheaf thermal sensor fails its self-check and is ignored, or the sheaf is capped when two fail (R57). -/
  | sensorSelfCheckFail (h : Fin 24) (k : Fin 4)
  /-- DOMAIN_TRIP: A domain reading reaches 110 °C and the domain soft-stops (R62). -/
  | domainTrip (d : DomId) (reading : BitVec 10)
  /-- SOFT_STOP_RESUME: Every good sensor reads below trip less 10 °C and the domain ramps up and resumes (R62). -/
  | softStopResume (d : DomId) (readings : List (BitVec 10))
  /-- PACKAGE_CRITICAL: A sensor reaches 120 °C and every domain soft-stops together (R63). -/
  | packageCritical (d : DomId) (reading : BitVec 10)
  /-- THERM_TRIP: After the package-critical ramp completes the G9 drives THERM_TRIP_N low (R63). -/
  | thermTrip
  /-- HOLDOVER_CAPACITOR_LOW: With VBAT absent the holdover capacitor falls below 2.0 V and the vault clears the master key as a tamper (R65). -/
  | holdoverCapacitorLow (mv : Nat)
  /-- CALL: CALL waits for free window slots, writes the return capability to x7, advances the window and transfers (R109). -/
  | call (t : Tid) (disp : BitVec 25)
  /-- CALLR: CALLR calls through a capability in ra, or enters a gate entry capability (R109). -/
  | callr (t : Tid) (ra : RegNo)
  /-- RET: RET checks e7, retreats the window, filling when needed, and installs e7 as PCC (R110). -/
  | ret (t : Tid)
  /-- SPILL: The spill engine writes the oldest resident frame to WSTACK when res exceeds 13 (R74). -/
  | spill (t : Tid)
  /-- WINDOW_FILL: A fill reads the caller's frame block, or first a link block, from WSTACK into the window (R75). -/
  | windowFill (t : Tid)
  /-- RDTR: RDTR reads a thread register into rd (R86). -/
  | rdtr (t : Tid) (rd ra rb : RegNo) (fn : BitVec 10)
  /-- WRTR_WSTACK: WRTR to WSTACK spills resident frames, writes a link block and installs the new WSTACK (R80). -/
  | wrtrWstack (t : Tid) (rd ra rb : RegNo) (rsv : BitVec 6)
  /-- WRTR_FSTACK: WRTR to FSTACK installs a new fault stack under an authority operand (R87). -/
  | wrtrFstack (t : Tid) (rd ra rb : RegNo) (rsv : BitVec 6)
  /-- WRTR_FGATE: WRTR to FGATE installs a new fault gate under an authority operand (R87). -/
  | wrtrFgate (t : Tid) (rd ra rb : RegNo) (rsv : BitVec 6)
  /-- WRTR_GATETAB: WRTR to GATETAB installs a new gate table under an authority operand (R87). -/
  | wrtrGatetab (t : Tid) (rd ra rb : RegNo) (rsv : BitVec 6)
  /-- WRTR_TCTRL: WRTR to TCTRL acts as an ABAR and then sets the arithmetic controls (R168). -/
  | wrtrTctrl (t : Tid) (rd ra rb : RegNo) (rsv : BitVec 6)
  /-- WRTR_TSTATUS: WRTR to TSTATUS acts as an ABAR and then clears sticky status bits (R168). -/
  | wrtrTstatus (t : Tid) (rd ra rb : RegNo) (rsv : BitVec 6)
  /-- ADD: ALU fn 0 adds (R104). -/
  | add (t : Tid) (rd ra rb : RegNo)
  /-- SUB: ALU fn 1 subtracts (R104). -/
  | sub (t : Tid) (rd ra rb : RegNo)
  /-- AND: ALU fn 2 ANDs (R104). -/
  | and (t : Tid) (rd ra rb : RegNo)
  /-- OR: ALU fn 3 ORs (R104). -/
  | or (t : Tid) (rd ra rb : RegNo)
  /-- XOR: ALU fn 4 XORs (R104). -/
  | xor (t : Tid) (rd ra rb : RegNo)
  /-- ANDN: ALU fn 5 ANDs with the complement (R104). -/
  | andn (t : Tid) (rd ra rb : RegNo)
  /-- SLL: ALU fn 6 shifts left logically (R104). -/
  | sll (t : Tid) (rd ra rb : RegNo)
  /-- SRL: ALU fn 7 shifts right logically (R104). -/
  | srl (t : Tid) (rd ra rb : RegNo)
  /-- SRA: ALU fn 8 shifts right arithmetically (R104). -/
  | sra (t : Tid) (rd ra rb : RegNo)
  /-- ROL: ALU fn 9 rotates left (R104). -/
  | rol (t : Tid) (rd ra rb : RegNo)
  /-- ROR: ALU fn 10 rotates right (R104). -/
  | ror (t : Tid) (rd ra rb : RegNo)
  /-- CLZ: ALU fn 11 counts leading zeros (R104). -/
  | clz (t : Tid) (rd ra rb : RegNo)
  /-- CTZ: ALU fn 12 counts trailing zeros (R104). -/
  | ctz (t : Tid) (rd ra rb : RegNo)
  /-- POPC: ALU fn 13 counts set bits (R104). -/
  | popc (t : Tid) (rd ra rb : RegNo)
  /-- BSWAP: ALU fn 14 reverses byte order (R104). -/
  | bswap (t : Tid) (rd ra rb : RegNo)
  /-- SLT: ALU fn 15 sets on signed less-than (R104). -/
  | slt (t : Tid) (rd ra rb : RegNo)
  /-- SLTU: ALU fn 16 sets on unsigned less-than (R104). -/
  | sltu (t : Tid) (rd ra rb : RegNo)
  /-- MIN: ALU fn 17 takes the signed minimum (R104). -/
  | min (t : Tid) (rd ra rb : RegNo)
  /-- MAX: ALU fn 18 takes the signed maximum (R104). -/
  | max (t : Tid) (rd ra rb : RegNo)
  /-- MINU: ALU fn 19 takes the unsigned minimum (R104). -/
  | minu (t : Tid) (rd ra rb : RegNo)
  /-- MAXU: ALU fn 20 takes the unsigned maximum (R104). -/
  | maxu (t : Tid) (rd ra rb : RegNo)
  /-- ADDI: ADDI adds an immediate (R103). -/
  | addi (t : Tid) (limm : Limm) (rd ra : RegNo) (imm : BitVec 15)
  /-- ANDI: ANDI ANDs an immediate (R103). -/
  | andi (t : Tid) (limm : Limm) (rd ra : RegNo) (imm : BitVec 15)
  /-- ORI: ORI ORs an immediate (R103). -/
  | ori (t : Tid) (limm : Limm) (rd ra : RegNo) (imm : BitVec 15)
  /-- XORI: XORI XORs an immediate (R103). -/
  | xori (t : Tid) (limm : Limm) (rd ra : RegNo) (imm : BitVec 15)
  /-- SHI: SHI shifts or rotates by a constant (R103). -/
  | shi (t : Tid) (limm : Limm) (rd ra : RegNo) (imm : BitVec 15)
  /-- SLTI: SLTI sets on signed less-than an immediate (R103). -/
  | slti (t : Tid) (limm : Limm) (rd ra : RegNo) (imm : BitVec 15)
  /-- SLTIU: SLTIU sets on unsigned less-than an immediate (R103). -/
  | sltiu (t : Tid) (limm : Limm) (rd ra : RegNo) (imm : BitVec 15)
  /-- BITF: BITF extracts or inserts a bit field (R103). -/
  | bitf (t : Tid) (limm : Limm) (rd ra : RegNo) (imm : BitVec 15)
  /-- MUL_LOW: MUL fn 0 returns the low 64 bits of the product (R104). -/
  | mulLow (t : Tid) (rd ra rb : RegNo)
  /-- MUL_HIGH_SIGNED: MUL fn 1 returns the high signed product (R104). -/
  | mulHighSigned (t : Tid) (rd ra rb : RegNo)
  /-- MUL_HIGH_UNSIGNED: MUL fn 2 returns the high unsigned product (R104). -/
  | mulHighUnsigned (t : Tid) (rd ra rb : RegNo)
  /-- MUL_HIGH_SIGNED_UNSIGNED: MUL fn 3 returns the high signed-by-unsigned product (R104). -/
  | mulHighSignedUnsigned (t : Tid) (rd ra rb : RegNo)
  /-- DIV: DIV fn 0 divides signed without faulting (R104). -/
  | div (t : Tid) (rd ra rb : RegNo)
  /-- DIVU: DIV fn 1 divides unsigned (R104). -/
  | divu (t : Tid) (rd ra rb : RegNo)
  /-- REM: DIV fn 2 takes the signed remainder (R104). -/
  | rem (t : Tid) (rd ra rb : RegNo)
  /-- REMU: DIV fn 3 takes the unsigned remainder (R104). -/
  | remu (t : Tid) (rd ra rb : RegNo)
  /-- LONG_OP_COMPLETE: A long operation writes its result after later independent instructions have retired (R169). -/
  | longOpComplete (t : Tid) (k : Nat)
  /-- ADDT: ADDT adds and faults or sets ov on overflow (R112). -/
  | addt (t : Tid) (rd ra rb : RegNo)
  /-- SUBT: SUBT subtracts and faults or sets ov on overflow (R112). -/
  | subt (t : Tid) (rd ra rb : RegNo)
  /-- MULT: MULT multiplies and faults or sets ov on overflow (R112). -/
  | mult (t : Tid) (rd ra rb : RegNo)
  /-- DIVT_QUOTIENT: DIVT fn 0 divides with zero and overflow checks (R112). -/
  | divtQuotient (t : Tid) (rd ra rb : RegNo)
  /-- DIVT_REMAINDER: DIVT fn 1 takes the remainder with a zero check (R112). -/
  | divtRemainder (t : Tid) (rd ra rb : RegNo)
  /-- SEL: SEL writes ra or rb to rd by a condition on rc (R111). -/
  | sel (t : Tid) (rd ra rb rc : RegNo) (cond : BitVec 3) (rsv : BitVec 2)
  /-- CMOV: CMOV writes ra to rd when a condition on rc holds (R111). -/
  | cmov (t : Tid) (rd ra rb rc : RegNo) (cond : BitVec 3) (rsv : BitVec 2)
  /-- BEQ: BEQ branches when ra equals rb (R107). -/
  | beq (t : Tid) (ra rb : RegNo) (disp : BitVec 15)
  /-- BNE: BNE branches when ra differs from rb (R107). -/
  | bne (t : Tid) (ra rb : RegNo) (disp : BitVec 15)
  /-- BLT: BLT branches on signed less-than (R107). -/
  | blt (t : Tid) (ra rb : RegNo) (disp : BitVec 15)
  /-- BGE: BGE branches on signed greater-or-equal (R107). -/
  | bge (t : Tid) (ra rb : RegNo) (disp : BitVec 15)
  /-- BLTU: BLTU branches on unsigned less-than (R107). -/
  | bltu (t : Tid) (ra rb : RegNo) (disp : BitVec 15)
  /-- BGEU: BGEU branches on unsigned greater-or-equal (R107). -/
  | bgeu (t : Tid) (ra rb : RegNo) (disp : BitVec 15)
  /-- J: J jumps PC-relative (R107). -/
  | j (t : Tid) (disp : BitVec 25)
  /-- JR: JR installs the capability in ra as PCC (R107). -/
  | jr (t : Tid) (ra : RegNo)
  /-- TRAP: TRAP reads gate n, writes a sealed return capability, advances the window, may replace WSTACK and clear the predictor, and enters the gate (R145). -/
  | trap (t : Tid) (limm : Limm) (n : BitVec 15)
  /-- FRET: FRET checks the frame at FSTACK, restores registers and run_pri, pops the frame and resumes (R161). -/
  | fret (t : Tid) (rsv : BitVec 25)
  /-- WAIT: WAIT suspends the thread until an interrupt is deliverable or a timebase deadline is reached (R107). -/
  | wait (t : Tid) (ra : RegNo)
  /-- WAIT_DEADLINE: The timebase reaches the deadline of a WAIT and the thread resumes (R107). -/
  | waitDeadline (t : Tid)
  /-- LD_B: LD.B loads one byte sign-extended (R103). -/
  | ldB (t : Tid) (rd ra : RegNo) (am : BitVec 3) (imm : BitVec 12)
  /-- LD_BU: LD.BU loads one byte zero-extended (R103). -/
  | ldBu (t : Tid) (rd ra : RegNo) (am : BitVec 3) (imm : BitVec 12)
  /-- LD_H: LD.H loads two bytes sign-extended (R103). -/
  | ldH (t : Tid) (rd ra : RegNo) (am : BitVec 3) (imm : BitVec 12)
  /-- LD_HU: LD.HU loads two bytes zero-extended (R103). -/
  | ldHu (t : Tid) (rd ra : RegNo) (am : BitVec 3) (imm : BitVec 12)
  /-- LD_W: LD.W loads four bytes sign-extended (R103). -/
  | ldW (t : Tid) (rd ra : RegNo) (am : BitVec 3) (imm : BitVec 12)
  /-- LD_WU: LD.WU loads four bytes zero-extended (R103). -/
  | ldWu (t : Tid) (rd ra : RegNo) (am : BitVec 3) (imm : BitVec 12)
  /-- LD_D: LD.D loads eight bytes (R103). -/
  | ldD (t : Tid) (rd ra : RegNo) (am : BitVec 3) (imm : BitVec 12)
  /-- LD_C: LD.C loads 16 bytes with the tag where LOADCAP and world allow (R136). -/
  | ldC (t : Tid) (rd ra : RegNo) (am : BitVec 3) (imm : BitVec 12)
  /-- ST_B: ST.B stores one byte (R103). -/
  | stB (t : Tid) (rd ra : RegNo) (am : BitVec 3) (imm : BitVec 12)
  /-- ST_H: ST.H stores two bytes (R103). -/
  | stH (t : Tid) (rd ra : RegNo) (am : BitVec 3) (imm : BitVec 12)
  /-- ST_W: ST.W stores four bytes (R103). -/
  | stW (t : Tid) (rd ra : RegNo) (am : BitVec 3) (imm : BitVec 12)
  /-- ST_D: ST.D stores eight bytes (R103). -/
  | stD (t : Tid) (rd ra : RegNo) (am : BitVec 3) (imm : BitVec 12)
  /-- ST_C: ST.C stores 16 bytes with the tag or raises a capability fault (R137). -/
  | stC (t : Tid) (rd ra : RegNo) (am : BitVec 3) (imm : BitVec 12)
  /-- LD_V: LD.V loads 32 bytes into a vector register, discarding tags (R85). -/
  | ldV (t : Tid) (rd ra : RegNo) (am : BitVec 3) (imm : BitVec 12)
  /-- ST_V: ST.V stores 32 bytes from a vector register, clearing tags (R85). -/
  | stV (t : Tid) (rd ra : RegNo) (am : BitVec 3) (imm : BitVec 12)
  /-- LDX_B: LDX.B is an indexed byte load (R99). -/
  | ldxB (t : Tid) (rd ra rb : RegNo) (sh : BitVec 3) (w : BitVec 5) (m x : Bool)
  /-- LDX_H: LDX.H is an indexed halfword load (R99). -/
  | ldxH (t : Tid) (rd ra rb : RegNo) (sh : BitVec 3) (w : BitVec 5) (m x : Bool)
  /-- LDX_W: LDX.W is an indexed word load (R99). -/
  | ldxW (t : Tid) (rd ra rb : RegNo) (sh : BitVec 3) (w : BitVec 5) (m x : Bool)
  /-- LDX_D: LDX.D is an indexed doubleword load (R99). -/
  | ldxD (t : Tid) (rd ra rb : RegNo) (sh : BitVec 3) (w : BitVec 5) (m x : Bool)
  /-- LDX_C: LDX.C is an indexed capability load (R99). -/
  | ldxC (t : Tid) (rd ra rb : RegNo) (sh : BitVec 3) (w : BitVec 5) (m x : Bool)
  /-- LDX_V: LDX.V is an indexed vector load (R99). -/
  | ldxV (t : Tid) (rd ra rb : RegNo) (sh : BitVec 3) (w : BitVec 5) (m x : Bool)
  /-- STX_B: STX.B is an indexed byte store (R99). -/
  | stxB (t : Tid) (rd ra rb : RegNo) (sh : BitVec 3) (w : BitVec 5) (m x : Bool)
  /-- STX_H: STX.H is an indexed halfword store (R99). -/
  | stxH (t : Tid) (rd ra rb : RegNo) (sh : BitVec 3) (w : BitVec 5) (m x : Bool)
  /-- STX_W: STX.W is an indexed word store (R99). -/
  | stxW (t : Tid) (rd ra rb : RegNo) (sh : BitVec 3) (w : BitVec 5) (m x : Bool)
  /-- STX_D: STX.D is an indexed doubleword store (R99). -/
  | stxD (t : Tid) (rd ra rb : RegNo) (sh : BitVec 3) (w : BitVec 5) (m x : Bool)
  /-- STX_C: STX.C is an indexed capability store (R99). -/
  | stxC (t : Tid) (rd ra rb : RegNo) (sh : BitVec 3) (w : BitVec 5) (m x : Bool)
  /-- STX_V: STX.V is an indexed vector store (R99). -/
  | stxV (t : Tid) (rd ra rb : RegNo) (sh : BitVec 3) (w : BitVec 5) (m x : Bool)
  /-- AMO_FADD: AMO op 0 adds atomically (R113). -/
  | amoFadd (t : Tid) (rd ra rb : RegNo) (order : BitVec 2) (wide : Bool) (rsv : BitVec 3)
  /-- AMO_SWAP: AMO op 1 swaps atomically, moving tags at width 128 (R113). -/
  | amoSwap (t : Tid) (rd ra rb : RegNo) (order : BitVec 2) (wide : Bool) (rsv : BitVec 3)
  /-- AMO_AND: AMO op 2 ANDs atomically (R113). -/
  | amoAnd (t : Tid) (rd ra rb : RegNo) (order : BitVec 2) (wide : Bool) (rsv : BitVec 3)
  /-- AMO_OR: AMO op 3 ORs atomically (R113). -/
  | amoOr (t : Tid) (rd ra rb : RegNo) (order : BitVec 2) (wide : Bool) (rsv : BitVec 3)
  /-- AMO_XOR: AMO op 4 XORs atomically (R113). -/
  | amoXor (t : Tid) (rd ra rb : RegNo) (order : BitVec 2) (wide : Bool) (rsv : BitVec 3)
  /-- AMO_SMIN: AMO op 5 takes the signed minimum atomically (R113). -/
  | amoSmin (t : Tid) (rd ra rb : RegNo) (order : BitVec 2) (wide : Bool) (rsv : BitVec 3)
  /-- AMO_SMAX: AMO op 6 takes the signed maximum atomically (R113). -/
  | amoSmax (t : Tid) (rd ra rb : RegNo) (order : BitVec 2) (wide : Bool) (rsv : BitVec 3)
  /-- AMO_UMIN: AMO op 7 takes the unsigned minimum atomically (R113). -/
  | amoUmin (t : Tid) (rd ra rb : RegNo) (order : BitVec 2) (wide : Bool) (rsv : BitVec 3)
  /-- AMO_UMAX: AMO op 8 takes the unsigned maximum atomically (R113). -/
  | amoUmax (t : Tid) (rd ra rb : RegNo) (order : BitVec 2) (wide : Bool) (rsv : BitVec 3)
  /-- CAS: CAS compares the location with rd and writes rb on a match, returning the old value (R114). -/
  | cas (t : Tid) (rd ra rb : RegNo) (order width : BitVec 2) (rsv : BitVec 6)
  /-- FENCE_FULL: FENCE fn 0 orders all earlier loads and stores before all later ones (R116). -/
  | fenceFull (t : Tid)
  /-- FENCE_ACQ: FENCE fn 1 orders earlier loads before later accesses (R116). -/
  | fenceAcq (t : Tid)
  /-- FENCE_REL: FENCE fn 2 orders earlier accesses before later stores (R116). -/
  | fenceRel (t : Tid)
  /-- FENCE_SS: FENCE fn 3 orders earlier stores before later stores (R116). -/
  | fenceSs (t : Tid)
  /-- FENCE_IO: FENCE fn 4 orders memory, control-space and SE accesses (R116). -/
  | fenceIo (t : Tid)
  /-- LDA: LDA loads with acquire ordering (R117). -/
  | lda (t : Tid) (rd ra : RegNo) (size : BitVec 3) (rsv : BitVec 7)
  /-- STREL: STREL stores with release ordering (R117). -/
  | strel (t : Tid) (rd ra : RegNo) (size : BitVec 3) (rsv : BitVec 7)
  /-- ISYNC: ISYNC discards fetched instructions so execution follows memory as it stands at retirement (R118). -/
  | isync (t : Tid)
  /-- ABAR: ABAR waits for every earlier arithmetic instruction and takes any pending exception (R119). -/
  | abar (t : Tid)
  /-- CMO_CLEAN: CMO kind 0 writes any dirty copy of the line to memory (R246). -/
  | cmoClean (t : Tid) (ra : RegNo) (am : BitVec 3) (imm : BitVec 12)
  /-- CMO_FLUSH: CMO kind 1 cleans the line and removes every cached copy (R246). -/
  | cmoFlush (t : Tid) (ra : RegNo) (am : BitVec 3) (imm : BitVec 12)
  /-- CMO_ZERO: CMO kind 2 gains ownership and zeroes the line, clearing tags (R246). -/
  | cmoZero (t : Tid) (ra : RegNo) (am : BitVec 3) (imm : BitVec 12)
  /-- PRF: PRF fills the prefetch side buffer as a hint and never faults (R244). -/
  | prf (t : Tid) (ra : RegNo) (am : BitVec 3) (imm : BitVec 12)
  /-- CXBASE: CAP fn 0 returns the base (R139). -/
  | cxbase (t : Tid) (rd ra rb : RegNo)
  /-- CXLEN: CAP fn 1 returns the length (R139). -/
  | cxlen (t : Tid) (rd ra rb : RegNo)
  /-- CXPERM: CAP fn 2 returns the permissions (R139). -/
  | cxperm (t : Tid) (rd ra rb : RegNo)
  /-- CXTYPE: CAP fn 3 returns the otype (R139). -/
  | cxtype (t : Tid) (rd ra rb : RegNo)
  /-- CXTAG: CAP fn 4 returns the tag (R139). -/
  | cxtag (t : Tid) (rd ra rb : RegNo)
  /-- CXMOVE: CAP fn 5 sets the cursor, keeping the tag only when representable (R131). -/
  | cxmove (t : Tid) (rd ra rb : RegNo)
  /-- CXDROP: CAP fn 6 clears permissions (R140). -/
  | cxdrop (t : Tid) (rd ra rb : RegNo)
  /-- CXBOUND: CAP fn 7 sets rounded bounds from the cursor and a length (R132). -/
  | cxbound (t : Tid) (rd ra rb : RegNo)
  /-- CXBOUNDX: CAP fn 8 sets exact bounds or raises cause 0x14 (R132). -/
  | cxboundx (t : Tid) (rd ra rb : RegNo)
  /-- CXSEAL: CAP fn 9 seals ra with an otype from rb (R140). -/
  | cxseal (t : Tid) (rd ra rb : RegNo)
  /-- CXOPEN: CAP fn 10 unseals ra with rb (R140). -/
  | cxopen (t : Tid) (rd ra rb : RegNo)
  /-- CXSTRIP: CAP fn 11 clears the tag (R139). -/
  | cxstrip (t : Tid) (rd ra rb : RegNo)
  /-- CXWITHIN: CAP fn 12 compares bounds, permissions and otypes of two capabilities (R139). -/
  | cxwithin (t : Tid) (rd ra rb : RegNo)
  /-- CXFITLEN: CAP fn 13 returns the length CXBOUND would give (R139). -/
  | cxfitlen (t : Tid) (rd ra rb : RegNo)
  /-- CXFITBASE: CAP fn 14 returns the base CXBOUND would give (R139). -/
  | cxfitbase (t : Tid) (rd ra rb : RegNo)
  /-- CXADDI: CXADDI adds an immediate to the cursor (R139). -/
  | cxaddi (t : Tid) (limm : Limm) (rd ra : RegNo) (imm : BitVec 15)
  /-- CXBOUNDI: CXBOUNDI sets bounds from the cursor and an immediate length (R132). -/
  | cxboundi (t : Tid) (limm : Limm) (rd ra : RegNo) (imm : BitVec 15)
  /-- BLKMOVE: BLKMOVE copies a byte range element by element, copying tags where allowed (R121). -/
  | blkmove (t : Tid) (rd ra rb : RegNo) (fn : BitVec 10)
  /-- BLKFILL: BLKFILL fills a range with a 16-byte pattern (R122). -/
  | blkfill (t : Tid) (rd ra rb : RegNo) (fn : BitVec 10)
  /-- BLKCMP: BLKCMP compares two ranges and stops at the first difference (R123). -/
  | blkcmp (t : Tid) (rd ra rb : RegNo) (fn : BitVec 10)
  /-- CRCRANGE: CRCRANGE folds a range into a CRC-32C or CRC-64 remainder (R124). -/
  | crcrange (t : Tid) (rd ra rb : RegNo) (fn : BitVec 10)
  /-- NTTPASS: NTTPASS runs stages of a 256-point number-theoretic transform in place (R125). -/
  | nttpass (t : Tid) (rd ra rb : RegNo) (fn : BitVec 10)
  /-- BLOCK_ELEMENT: A block instruction checks and performs one element and records its progress in its operands (R120). -/
  | blockElement (t : Tid) (op : BlkOp) (rd ra rb : RegNo)
  /-- RDTIME: RDTIME reads the timebase count (R41). -/
  | rdtime (t : Tid) (rd : RegNo)
  /-- FEAT: FEAT reads a PX_FEATURES word (R105). -/
  | feat (t : Tid) (limm : Limm) (rd ra : RegNo) (imm : BitVec 15)
  /-- TLBI_VA_ASID: TLBI kind 0 removes entries of an asid, and global entries, for an address (R233). -/
  | tlbiVaAsid (t : Tid) (rd ra rb : RegNo) (pkg : Bool) (rsv : BitVec 5)
  /-- TLBI_VA: TLBI kind 1 removes entries of any asid for an address (R233). -/
  | tlbiVa (t : Tid) (rd ra rb : RegNo) (pkg : Bool) (rsv : BitVec 5)
  /-- TLBI_ASID: TLBI kind 2 removes all non-global entries of an asid (R233). -/
  | tlbiAsid (t : Tid) (rd ra rb : RegNo) (pkg : Bool) (rsv : BitVec 5)
  /-- TLBI_VMID_CURRENT: TLBI kind 3 removes all entries of the issuing thread's vmid (R233). -/
  | tlbiVmidCurrent (t : Tid) (rd ra rb : RegNo) (pkg : Bool) (rsv : BitVec 5)
  /-- TLBI_IPA: TLBI kind 4 removes entries of a vmid for an IPA (R233). -/
  | tlbiIpa (t : Tid) (rd ra rb : RegNo) (pkg : Bool) (rsv : BitVec 5)
  /-- TLBI_VMID: TLBI kind 5 removes all entries of a vmid (R233). -/
  | tlbiVmid (t : Tid) (rd ra rb : RegNo) (pkg : Bool) (rsv : BitVec 5)
  /-- TLBI_ALL: TLBI kind 6 removes all entries (R233). -/
  | tlbiAll (t : Tid) (rd ra rb : RegNo) (pkg : Bool) (rsv : BitVec 5)
  /-- TLBI_SYNC: TLBI kind 8 completes when every earlier invalidation has taken effect, and acts as FENCE FULL (R234). -/
  | tlbiSync (t : Tid) (rd ra rb : RegNo) (pkg : Bool) (rsv : BitVec 5)
  /-- VINT: VINT performs vector integer add, subtract, compare, minimum and maximum (R103). -/
  | vint (t : Tid) (vd va vb : RegNo) (op : VIntOp) (w : Lane)
  /-- VMUL: VMUL performs vector integer multiply (R103). -/
  | vmul (t : Tid) (vd va vb : RegNo) (op : VMulOp) (w : Lane)
  /-- VSHL: VSHL performs vector logic and shifts (R103). -/
  | vshl (t : Tid) (vd va vb : RegNo) (op : VLogOp) (w : Lane)
  /-- VPERM: VPERM permutes, broadcasts and mirrors lanes (R103). -/
  | vperm (t : Tid) (vd va vb : RegNo) (op : VPermOp) (w : Lane)
  /-- FADD: FADD performs floating add, subtract and compare (R103). -/
  | fadd (t : Tid) (vd va vb : RegNo) (op : FAddOp) (w : FpW) (scalar : Bool)
  /-- FMUL: FMUL performs floating multiply (R103). -/
  | fmul (t : Tid) (vd va vb : RegNo) (w : FpW) (scalar : Bool)
  /-- FMA: FMA performs fused multiply-add (R103). -/
  | fma (t : Tid) (vd va vb vc : RegNo) (w : FpW) (scalar : Bool)
  /-- FDIV: FDIV performs floating divide and square root (R103). -/
  | fdiv (t : Tid) (vd va vb : RegNo) (op : FDivOp) (w : FpW) (scalar : Bool)
  /-- FCVT: FCVT converts between floating and integer types (R103). -/
  | fcvt (t : Tid) (vd va : RegNo) (op : FCvtOp) (scalar : Bool)
  /-- VMOV: VMOV moves between general and vector registers (R103). -/
  | vmov (t : Tid) (rd ra : RegNo) (op : VMovOp) (w : Lane)
  /-- VRED: VRED performs vector reductions (R103). -/
  | vred (t : Tid) (vd va : RegNo) (op : VRedOp) (w : Lane)
  /-- VAES: VAES performs AES round steps (R103). -/
  | vaes (t : Tid) (vd va vb : RegNo) (op : AesOp)
  /-- VCLMUL: VCLMUL performs a carry-less multiply (R103). -/
  | vclmul (t : Tid) (vd va vb : RegNo)
  /-- VSHA2: VSHA2 performs SHA-2 steps (R103). -/
  | vsha2 (t : Tid) (vd va vb : RegNo) (op : Sha2Op)
  /-- VSHA3: VSHA3 performs Keccak round steps (R103). -/
  | vsha3 (t : Tid) (vd va vb : RegNo) (op : Sha3Op) (round : Fin 24)
  /-- VMODMA: VMODMA performs a per-lane modular multiply-add (R103). -/
  | vmodma (t : Tid) (vd va vb vc : RegNo)
  /-- VSEL: VSEL selects lanes by a mask (R103). -/
  | vsel (t : Tid) (vd va vb vc : RegNo) (w : Lane)
  /-- FAULT_ENTRY: A precise fault is taken: the G9 checks FSTACK and FGATE, writes the frame, advances the window and enters the fault gate (R158). -/
  | faultEntry (t : Tid) (src : FaultSource)
  /-- IMPRECISE_REPORT: An outstanding arithmetic exception is reported at a report point, at the latest the 64th instruction after its origin (R165). -/
  | impreciseReport (t : Tid)
  /-- INTERRUPT_ENTRY: At an instruction boundary the highest deliverable interrupt is taken and its handler entered (R172). -/
  | interruptEntry (t : Tid)
  /-- INTERRUPT_MESSAGE: An interrupt message reaches the router, which sets or merges the pending bit, holds it, or discards it (R171). -/
  | interruptMessage (k : Nat)
  /-- IRQ_SEND: A write to BC_IRQ_SEND_t sends a vector to thread t (R173). -/
  | irqSend (r : Requester) (t : Tid) (v : BitVec 6)
  /-- MISPREDICT_RECOVERY: A branch resolves mispredicted and the core restores its checkpoint and flushes the younger path (R183). -/
  | mispredictRecovery (x : Mispredict)
  /-- BULK_CLEAR: An address-space, world or gate crossing starts a bulk clear of predictor state (R184). -/
  | bulkClear (t : Tid)
  /-- BULK_CLEAR_DONE: A bulk clear completes and fetch resumes (R184). -/
  | bulkClearDone (t : Tid)
  /-- PRED_CLEAR_WRITE: A write of clear = 1 to BC_PRED_CTRL_t bulk-clears the thread's predictor (R185). -/
  | predClearWrite (r : Requester) (t : Tid) (v : Word)
  /-- HARDWARE_PREFETCH: A trained prefetcher issues a prefetch within the training page into the side buffer (R194). -/
  | hardwarePrefetch (t : Tid) (va : Word)
  /-- STORE_RELEASE: A retired and checked store leaves the core and requests ownership (R191). -/
  | storeRelease (t : Tid) (k : Nat)
  /-- PAGE_WALK: The walker reads table entries through one or two stages to find a leaf or fault (R227). -/
  | pageWalk (t : Tid) (va : Word)
  /-- ROOT_WRITE: A write to a thread's translation root switches its address space at retirement or its next boundary (R222). -/
  | rootWrite (r : Requester) (t : Tid) (second : Bool) (v : Word)
  /-- SLIP: A check mismatch discards unretired work and replays from the belay point with changed shift and rotation (R204). -/
  | slip (t : Tid) (c : SlipClass)
  /-- FALL: A repeated mismatch at one instruction freezes the core and moves it to failed with cause 0x04 (R209). -/
  | fall (t : Tid) (c : SlipClass)
  /-- SLIP_LIMIT_REACHED: A core reaches limit slips within window_ms and fails by error threshold (R207). -/
  | slipLimitReached (k : Fin 192)
  /-- CHECK_INJECT: A write to CORE_CHECK_INJECT forces a slip or a fall (R208). -/
  | checkInject (r : Requester) (k : Fin 192) (v : Word)
  /-- SPARE_CHOOSE: Base camp reserves a bivouac spare of the failed core's mode, or leaves the virtual core unbound (R210). -/
  | spareChoose (k : Fin 192)
  /-- SPARE_RAISE_DONE: The spare's header reaches the sheaf voltage (R209). -/
  | spareRaiseDone (k : Fin 192) (ok : Bool)
  /-- CAPTURE_DONE: The tile agent completes capture of the failed core's state (R209). -/
  | captureDone (k : Fin 192)
  /-- FLUSH_DONE: The tile agent completes the write-back of the failed core's caches (R209). -/
  | flushDone (k : Fin 192)
  /-- STATE_LOAD_DONE: Base camp completes loading the captured state into the spare (R209). -/
  | stateLoadDone (k : Fin 192)
  /-- REBIND_DONE: Routers and the core map switch the virtual core to the spare and BC_VCORE_MAP_n is written (R209). -/
  | rebindDone (k : Fin 192)
  /-- SPARE_RESUME: The spare enters in service, fetches at the belay point, and the sparing record and notice go out (R209). -/
  | spareResume (k : Fin 192)
  /-- SOLO_ARRAY_ERROR: A solo core detects an error in a non-architected structure and refetches the affected thread (R217). -/
  | soloArrayError (t : Tid)
  /-- SOLO_UNCORRECTABLE: An uncorrectable error in a solo core's architected state fails the core and stops both threads (R218). -/
  | soloUncorrectable (k : Fin 192)
  /-- RESERVE_RELEASE: A management request releases a bivouac core into service with a new virtual number (R216). -/
  | reserveRelease (x : Transport) (k : Fin 192) (seq : BitVec 8)
  /-- RESERVE_RETURN: A management request returns an unnumbered core to the reserve (R216). -/
  | reserveReturn (x : Transport) (k : Fin 192) (seq : BitVec 8)
  /-- TAG_RECOVERY: A tag parity error suspends one set while its tags are rebuilt from L2, directory or home queries (R248). -/
  | tagRecovery (u : Uid) (array : Fin 5) (set : Nat) (what : ArrayErr)
  /-- WAY_DISABLE: After eight correctable errors in a way, base camp removes its lines and disables it (R249). -/
  | wayDisable (u : Uid) (array : Fin 4) (way : Fin 12) (management : Bool)
  /-- SCRATCH_CFG_WRITE: A write to BC_SCRATCH_CFG grows or shrinks the scratch ways, or is refused (R253). -/
  | scratchCfgWrite (r : Requester) (v : Word)
  /-- SCRATCH_CHANGE_DONE: Every slice has applied a scratch change and busy clears (R253). -/
  | scratchChangeDone
  /-- SLICE_HOLD: A slice fails or drains; it moves to failed and its stop answers retry-later, and new homes are chosen (R256). -/
  | sliceHold (i : Fin 96) (drain : Bool)
  /-- DIRECTORY_TRANSFER_DONE: The buddy's duplicate directory entries are installed at the new homes (R256). -/
  | directoryTransferDone (i : Fin 96)
  /-- SLICE_MAP_COMMIT: Every stop's slice map copy is switched and BC_SLICE_MAP is updated (R256). -/
  | sliceMapCommit (i : Fin 96)
  /-- SLICE_RELEASE: Held requests go to the new homes and the slice moves to withdrawn (R256). -/
  | sliceRelease (i : Fin 96)
  /-- SUBSTITUTE_BUDDY_COPY_DONE: A home finishes copying its directory to its substitute buddy and dup_ok sets (R266). -/
  | substituteBuddyCopyDone (h : Fin 96)
  /-- RDS: A read request reaches its home, which snoops as needed and answers with data (R263). -/
  | rdS (k : Fin 192) (line : Nat) (prefetch : Bool) (x : LineRead)
  /-- RDO: A read-with-ownership request reaches its home, which invalidates every holder (R263). -/
  | rdO (k : Fin 192) (line : Nat)
  /-- UPG: An ownership upgrade reaches its home (R263). -/
  | upg (k : Fin 192) (line : Nat)
  /-- RDONCE: A non-allocating read reaches its home and is answered without changing any state, or refused (R270). -/
  | rdOnce (r : Reader) (line : Nat)
  /-- WRLINE: A whole-line write reaches its home and is performed, with any placement hint applied (R263). -/
  | wrLine (w : Writer) (line : Nat) (bytes : Vector (BitVec 8) 64) (hint : HintArg)
  /-- WRPART: A partial-line write reaches its home and is merged (R263). -/
  | wrPart (w : Writer) (pa : Nat) (bytes : List (BitVec 8))
  /-- WB: A write-back of an M or O victim reaches its home (R263). -/
  | wb (k : Fin 192) (line : Nat)
  /-- NOTICE: A replacement notice for an E victim reaches its home (R243). -/
  | notice (k : Fin 192) (line : Nat)
  /-- ATOM: An atomic request reaches its home or controller and is performed there (R271). -/
  | atom (w : Writer) (pa : Nat) (op : HomeAtomic) (wide : Bool) (v : BitVec 128)
  /-- SNPS: A downgrade snoop reaches an L2 and is answered (R263). -/
  | snpS (m : Nat)
  /-- SNPO: A read-without-downgrade snoop reaches an L2 and is answered (R263). -/
  | snpO (m : Nat)
  /-- SNPINV: An invalidating snoop reaches an L2 and is answered (R263). -/
  | snpInv (m : Nat)
  /-- STASH: A hinted line is offered to a target L2, which accepts it in E or declines (R268). -/
  | stash (m : Nat) (k : Fin 192)
  /-- DUPUPD: A directory duplicate update reaches the buddy and is applied (R265). -/
  | dupUpd (m : Nat)
  /-- DATA: A data response reaches its requester (R262). -/
  | data (m : Nat)
  /-- ACK: An acknowledgement reaches its requester or home (R262). -/
  | ack (m : Nat)
  /-- NACK: A decline reaches its home (R262). -/
  | nack (m : Nat)
  /-- STALE: A Stale response ends a crossed write-back (R281). -/
  | stale (m : Nat)
  /-- RETRY: A retry-later response ends an exchange and the requester holds and resends (R262). -/
  | retry (m : Nat)
  /-- NOTARGET: A no-target response reaches its requester, which faults, ends a descriptor or sets nt (R18). -/
  | noTarget (m : Nat)
  /-- PACKET_HOP: A packet reaches a stop, which forwards it by its route, delivers it, or discards it (R289). -/
  | packetHop (k : Nat) (fresh : Option Inject)
  /-- LINK_REPLAY: A receiver finds a CRC error and the sender replays from the failed flit (R294). -/
  | linkReplay (st : Fin 128) (d : Fin 4)
  /-- LIVENESS_TOKEN: An idle link sends a liveness token every 1 µs (R295). -/
  | livenessToken (st : Fin 128) (d : Fin 4)
  /-- LINK_DOWN: A link reads down after failed replays, 10 µs of silence or loss of lane lock (R295). -/
  | linkDown (st : Fin 128) (d : Fin 4) (lockLost : Bool)
  /-- LINK_OUT_OF_SERVICE: A link with 1,000 replays in 1 s is taken out of service after a route commit (R295). -/
  | linkOutOfService (st : Fin 128) (d : Fin 4)
  /-- ROUTE_COMMIT: Base camp checks a route set, writes inactive banks and quiets every stop (R292). -/
  | routeCommit (changes : List (Nat × Nat × BitVec 64))
  /-- QUIET_DRAINED: Every stop reports empty, or 20 µs pass, and stops discard held packets, flip banks and release (R292). -/
  | quietDrained
  /-- ALTERNATIVES_READY: Base camp finishes precomputing alternative route sets for single losses (R293). -/
  | alternativesReady (links stops : List (Nat × List (Nat × Nat × BitVec 64)))
  /-- REROUTE: On a link or stop loss base camp applies the stored alternative and commits it (R301). -/
  | reroute (isStop : Bool) (n : Nat)
  /-- ROUTE_RECOMPUTE: Base camp computes routes afresh, withdrawing stops until every pair is routable (R302). -/
  | routeRecompute
  /-- REQUEST_TIMEOUT: A request has no response for 100 µs and is resent with attempt + 1, or abandoned after attempt 8 (R296). -/
  | requestTimeout (k : Nat)
  /-- COMPLETER_RECORD_EXPIRY: A completer's record of a performed request expires (R297). -/
  | completerRecordExpiry (k : Nat)
  /-- MC_COMMAND_ISSUE: A subchannel issues its next DRAM command by the precedence of R316 (R316). -/
  | mcCommandIssue (c : Fin 16) (sub : Bool) (allowed : List DramCmd) (pat mpat : ErrPat) (draw : BitVec 16)
  /-- REFRESH_DUE: A rank's refresh interval expires and a refresh is owed or issued (R317). -/
  | refreshDue (c : Fin 16) (rank : Fin 4) (hot : Bool)
  /-- DRIFT_TRACKING: Every 100 ms base camp reads the DQS oscillator and writes new delays to the active set (R319). -/
  | driftTracking (c : Fin 16) (writes : List (Nat × Nat × BitVec 64))
  /-- FREQUENCY_CHANGE: A write of go to MC_FREQ_CTRL holds requests, enters self-refresh and switches sets, or is refused (R320). -/
  | frequencyChange (r : Requester) (c : Fin 16) (v : Word)
  /-- FREQUENCY_CHANGE_DONE: The channel exits self-refresh on the new set and serves held requests (R320). -/
  | frequencyChangeDone (c : Fin 16) (rate : BitVec 12)
  /-- CHANNEL_FAILURE: A channel fails; its mirrored ranges are served by the partner and held requests resent (R322). -/
  | channelFailure (c : Fin 16)
  /-- RANK_MIGRATION_START: Base camp starts migrating a rank to the spare, or records that no spare is left (R323). -/
  | rankMigrationStart (c : Fin 16) (rank : Fin 4)
  /-- MIGRATION_COPY: The migration engine copies one line to the spare and advances its pointer (R324). -/
  | migrationCopy (c : Fin 16) (pat mpat : ErrPat)
  /-- MIGRATION_DONE: The pointer reaches the end, the rank table switches and the mirror is restored (R324). -/
  | migrationDone (c : Fin 16)
  /-- GLEANER_READ: The gleaner reads the next line and corrects, poisons or triggers migration (R327). -/
  | gleanerRead (c : Fin 16) (pat mpat : ErrPat)
  /-- SPARE_RANK_TEST: Once per period the gleaner tests the spare rank and withdraws a failing one (R327). -/
  | spareRankTest (c : Fin 16) (good : Bool)
  /-- CXL_LINK_LOSS: An expansion link is lost; a mirror serves or its window returns poison (R329). -/
  | cxlLinkLoss (l : Fin 16)
  /-- CXL_LINK_TRAIN: A mode-X octet trains as a CXL link or is left down (R356). -/
  | cxlLinkTrain (o : Fin 32) (ok : Bool)
  /-- HOST_COMPLETION: A completion from the host is matched to its request or discarded (R345). -/
  | hostCompletion (p : Fin 16) (tag : Fin 1024) (count : Nat) (lower : BitVec 7) (c : Cpl)
  /-- COMPLETION_TIMEOUT: A non-posted host request times out, ends with 0x0302 and its tag is quarantined (R344). -/
  | completionTimeout (p : Fin 16) (tag : Fin 1024)
  /-- QUARANTINE_EXPIRY: Twice timeout_us passes and a quarantined tag is released (R345). -/
  | quarantineExpiry (p : Fin 16) (tag : Fin 1024)
  /-- TAG_WAIT_TIMEOUT: A read waiting for a tag longer than HP_CPL_TO ends with 0x0302 unsent (R343). -/
  | tagWaitTimeout (p : Fin 16) (k : Nat)
  /-- BUS_MASTER_DISABLE: A host clears Bus Master Enable and the instance issues no new requests (R347). -/
  | busMasterDisable (p : Fin 16) (i : Fin 64)
  /-- BUS_MASTER_ENABLE: Bus Master Enable returns and held completion entries and MSI-X messages are sent (R357). -/
  | busMasterEnable (p : Fin 16) (i : Fin 64)
  /-- FUNCTION_LEVEL_RESET: A function-level reset quiesces the function's channels, tags, MSI-X and configuration (R348). -/
  | functionLevelReset (p : Fin 16) (i : Fin 64) (finish : Bool)
  /-- PORT_RESET: A hot reset, link-down or HP_PERST_N resets every instance of the port (R349). -/
  | portReset (p : Fin 16) (why : PortResetKind)
  /-- PORT_READY: A reset port's configuration space becomes ready and channel service is signalled (R350). -/
  | portReady (p : Fin 16)
  /-- PORT_FREEZE: A containment cause freezes the port, ending requests and stopping its channels (R351). -/
  | portFreeze (p : Fin 16) (why : FreezeCause)
  /-- OUTBOUND_STALL: A host port's outbound queue makes no progress for 1 ms (R300). -/
  | outboundStall (p : Fin 16)
  /-- FREEZE_WRITE: A write of freeze = 1 to HP_PORT_CTRL freezes the port with cause 5 (R351). -/
  | freezeWrite (r : Requester) (p : Fin 16)
  /-- RELEASE_WRITE: A write of release = 1 releases a frozen port or sets release_refused (R352). -/
  | releaseWrite (r : Requester) (p : Fin 16)
  /-- AUTO_RELEASE: The data-link layer comes up after a removal freeze and auto_release releases the port (R353). -/
  | autoRelease (p : Fin 16)
  /-- MSIX_VECTOR_SEND: A vector becomes sendable with its pending bit set and one message is sent (R355). -/
  | msixVectorSend (p : Fin 16) (i : Fin 64) (v : Fin 1024)
  /-- DOORBELL_WRITE: A write to a doorbell slot sets sub_tail or cpl_head and wakes or polls the scheduler (R365). -/
  | doorbellWrite (r : Requester) (g : Fin 8192) (off : BitVec 6) (wide : Bool) (v : Word)
  /-- DOORBELL_POLL: The poll interval expires and the scheduler reads a polled doorbell word (R365). -/
  | doorbellPoll (g : Fin 8192)
  /-- REFRESH: Channel command 1 loads and checks the entry and sets stopped or off (R368). -/
  | refresh (r : Requester) (g : Fin 8192)
  /-- START: Channel command 2 sets the channel running (R367). -/
  | chanStart (r : Requester) (g : Fin 8192)
  /-- STOP: Channel command 3 sets the channel stopping (R367). -/
  | chanStop (r : Requester) (g : Fin 8192)
  /-- ABORT: Channel command 4 cancels in-flight descriptors with 0x0106 (R367). -/
  | abort (r : Requester) (g : Fin 8192)
  /-- FLUSH: Channel command 5 completes unstarted descriptors with 0x0107 (R367). -/
  | flush (r : Requester) (g : Fin 8192)
  /-- RESET: Channel command 6 zeroes the channel's indices and doorbell words (R367). -/
  | chanReset (r : Requester) (g : Fin 8192)
  /-- CHANNEL_STOPPED: A stopping channel has nothing in flight and no entry held, and reads stopped (R367). -/
  | channelStopped (g : Fin 8192)
  /-- DESCRIPTOR_START: The scheduler chooses a channel and starts its next descriptor on a unit (R370). -/
  | descriptorStart (f : Fin 4)
  /-- DESCRIPTOR_COMPLETE: A descriptor completes in ring order; its entry is written and counters advance (R370). -/
  | descriptorComplete (g : Fin 8192)
  /-- IRQ_TIME_TRIGGER: irq_time passes since the first unsignalled entry and the channel's interrupt is sent (R371). -/
  | irqTimeTrigger (g : Fin 8192)
  /-- LIVE_WORD_WRITE: The serving stop writes the live words back to the channel table (R362). -/
  | liveWordWrite (g : Fin 8192)
  /-- DESC_NOP: NOP completes at once (R372). -/
  | descNop (g : Fin 8192) (slot : Fin 32768)
  /-- DESC_FENCE: FENCE completes when earlier descriptors and any target condition are done (R374). -/
  | descFence (g : Fin 8192) (slot : Fin 32768)
  /-- DESC_WAIT: WAIT completes when its target channel's counter reaches a value (R374). -/
  | descWait (g : Fin 8192) (slot : Fin 32768)
  /-- EXECUTION_TIMEOUT: A descriptor's timeout expires and it completes with 0x0105 or 0x0108 (R375). -/
  | executionTimeout (g : Fin 8192) (slot : Fin 32768)
  /-- COPY: COPY copies a range (R381). -/
  | dCopy (g : Fin 8192) (slot : Fin 32768)
  /-- GATHER: GATHER copies listed ranges into one range (R381). -/
  | dGather (g : Fin 8192) (slot : Fin 32768)
  /-- SCATTER: SCATTER copies one range into listed ranges (R381). -/
  | dScatter (g : Fin 8192) (slot : Fin 32768)
  /-- FILL: FILL writes a pattern over a range (R381). -/
  | dFill (g : Fin 8192) (slot : Fin 32768)
  /-- CRC: CRC computes a CRC over a range (R381). -/
  | dCrc (g : Fin 8192) (slot : Fin 32768)
  /-- COMPARE: COMPARE finds the first differing byte of two ranges (R381). -/
  | dCompare (g : Fin 8192) (slot : Fin 32768)
  /-- COPYCRC: COPYCRC copies a range and computes its CRC (R381). -/
  | dCopyCrc (g : Fin 8192) (slot : Fin 32768)
  /-- MOVE_ELEMENT: A move engine performs one element of up to 4 KiB (R380). -/
  | moveElement (g : Fin 8192) (slot : Fin 32768)
  /-- ENGINE_MISMATCH: An engine check mismatches; the work is retried or moves to the other engine (R394). -/
  | engineMismatch (f : Fin 4) (key : Bool) (k : Fin 2)
  /-- MSG: MSG writes a payload from memory as an entry of a service queue (R386). -/
  | msg (g : Fin 8192) (slot : Fin 32768)
  /-- MSGI: MSGI writes an inline payload as an entry of a service queue (R386). -/
  | msgi (g : Fin 8192) (slot : Fin 32768)
  /-- QUEUE_HEAD_RECHECK: Every 1 µs the deliverer rereads the head word of a full service queue (R387). -/
  | queueHeadRecheck (f : Fin 4) (q : Fin 256)
  /-- SERVICE_QUEUE_ENABLE: A write setting en in CH_SQ_q resets tail and phase (R385). -/
  | serviceQueueEnable (r : Requester) (f : Fin 4) (q : Fin 256) (v : Word)
  /-- AES_ECB: Key opcode 0x40 runs AES-ECB (R390). -/
  | aesEcb (g : Fin 8192) (slot : Fin 32768)
  /-- AES_CBC: Key opcode 0x41 runs AES-CBC (R390). -/
  | aesCbc (g : Fin 8192) (slot : Fin 32768)
  /-- AES_CTR: Key opcode 0x42 runs AES-CTR (R390). -/
  | aesCtr (g : Fin 8192) (slot : Fin 32768)
  /-- AES_GCM: Key opcode 0x43 runs AES-GCM (R390). -/
  | aesGcm (g : Fin 8192) (slot : Fin 32768)
  /-- AES_CMAC: Key opcode 0x44 runs AES-CMAC (R390). -/
  | aesCmac (g : Fin 8192) (slot : Fin 32768)
  /-- TDEA: Key opcode 0x45 runs TDEA ECB or CBC (R390). -/
  | tdea (g : Fin 8192) (slot : Fin 32768)
  /-- SHA_2: Key opcode 0x48 computes a SHA-2 digest (R390). -/
  | sha2 (g : Fin 8192) (slot : Fin 32768)
  /-- SHA_3: Key opcode 0x49 computes a SHA-3 digest (R390). -/
  | sha3 (g : Fin 8192) (slot : Fin 32768)
  /-- HMAC: Key opcode 0x4A computes or verifies an HMAC (R390). -/
  | hmac (g : Fin 8192) (slot : Fin 32768)
  /-- RANDOM: Key opcode 0x4F writes bytes from the vault DRBG (R390). -/
  | random (g : Fin 8192) (slot : Fin 32768)
  /-- RSA_PRIVATE: Key opcode 0x50 runs the RSA private primitive (R390). -/
  | rsaPrivate (g : Fin 8192) (slot : Fin 32768)
  /-- RSA_PUBLIC: Key opcode 0x51 runs the RSA public primitive (R390). -/
  | rsaPublic (g : Fin 8192) (slot : Fin 32768)
  /-- ECDSA_SIGN: Key opcode 0x54 signs a digest with ECDSA (R390). -/
  | ecdsaSign (g : Fin 8192) (slot : Fin 32768)
  /-- ECDSA_VERIFY: Key opcode 0x55 verifies an ECDSA signature (R390). -/
  | ecdsaVerify (g : Fin 8192) (slot : Fin 32768)
  /-- ECDH: Key opcode 0x56 computes an ECDH shared X (R390). -/
  | ecdh (g : Fin 8192) (slot : Fin 32768)
  /-- ED25519_SIGN: Key opcode 0x57 signs with Ed25519 (R390). -/
  | ed25519Sign (g : Fin 8192) (slot : Fin 32768)
  /-- ED25519_VERIFY: Key opcode 0x58 verifies an Ed25519 signature (R390). -/
  | ed25519Verify (g : Fin 8192) (slot : Fin 32768)
  /-- X25519: Key opcode 0x59 computes an X25519 shared secret (R390). -/
  | x25519 (g : Fin 8192) (slot : Fin 32768)
  /-- ML_KEM_ENCAPSULATE: Key opcode 0x5C encapsulates with ML-KEM (R390). -/
  | mlKemEncapsulate (g : Fin 8192) (slot : Fin 32768)
  /-- ML_KEM_DECAPSULATE: Key opcode 0x5D decapsulates with ML-KEM (R390). -/
  | mlKemDecapsulate (g : Fin 8192) (slot : Fin 32768)
  /-- ML_DSA_SIGN: Key opcode 0x60 signs with ML-DSA (R390). -/
  | mlDsaSign (g : Fin 8192) (slot : Fin 32768)
  /-- ML_DSA_VERIFY: Key opcode 0x61 verifies an ML-DSA signature (R390). -/
  | mlDsaVerify (g : Fin 8192) (slot : Fin 32768)
  /-- PIN_TRANSLATE: Key opcode 0x68 translates a PIN block between slot keys (R390). -/
  | pinTranslate (g : Fin 8192) (slot : Fin 32768)
  /-- KEY_OPERATION_END: A key operation's fixed duration ends and it writes its outputs or reports refusal (R392). -/
  | keyOperationEnd (g : Fin 8192) (slot : Fin 32768)
  /-- ENGINE_RESTART: Base camp restarts a failed engine once through off and starting with a self-test (R394). -/
  | engineRestart (f : Fin 4) (key : Bool) (k : Fin 2) (selfTest : Option Bool)
  /-- UCODE_STAGE_WRITE: A trusted-world write places a word in KE_UCODE_STAGE, or is refused while pending (R395). -/
  | ucodeStageWrite (r : Requester) (f : Fin 4) (k : Fin 2) (w : Fin 8192) (v : Word)
  /-- UCODE_COMMIT: A write of commit = 1 starts hashing the staged image (R395). -/
  | ucodeCommit (r : Requester) (f : Fin 4) (k : Fin 2) (v : Word)
  /-- UCODE_DISCARD: A write of discard = 1 cancels a pending image (R395). -/
  | ucodeDiscard (r : Requester) (f : Fin 4) (k : Fin 2) (v : Word)
  /-- UCODE_CHECK_DONE: The staged image's hash is compared and pending or refused is set (R395). -/
  | ucodeCheckDone (f : Fin 4) (k : Fin 2)
  /-- UCODE_APPLY: At an operation boundary a pending image becomes active (R396). -/
  | ucodeApply (f : Fin 4) (k : Fin 2)
  /-- FLOOR_WINDOW: A 100 µs window ends and each instance's share against its floor is computed (R400). -/
  | floorWindow (p : Fin 16)
  /-- MBX_SEND: An instance sends its to-manager buffer, or is refused (R404). -/
  | mbxSend (p : Fin 16) (i : Fin 64)
  /-- MBX_ACK: An instance acknowledges the from-manager message (R404). -/
  | mbxAck (p : Fin 16) (i : Fin 64)
  /-- MGR_SEND: The manager sends the to-instance buffer, or is refused (R404). -/
  | mgrSend (r : Requester) (p : Fin 16) (i : Fin 64)
  /-- MGR_ACK: The manager acknowledges the from-instance message (R404). -/
  | mgrAck (r : Requester) (p : Fin 16) (i : Fin 64)
  /-- QUIESCE: Instance command 1 closes the gate, stops channels and drains by mode (R406). -/
  | quiesce (r : Requester) (p : Fin 16) (i : Fin 64) (drain : BitVec 2)
  /-- FREEZE: Instance command 2 stops the instance at descriptor boundaries and keeps its work (R407). -/
  | freeze (r : Requester) (p : Fin 16) (i : Fin 64) (drain : BitVec 2)
  /-- INSTANCE_RESET: Instance command 3 clears a quiesced or frozen instance's channels and state (R408). -/
  | instanceReset (r : Requester) (p : Fin 16) (i : Fin 64) (drain : BitVec 2)
  /-- SAVE: Instance command 4 writes the migration image (R411). -/
  | save (r : Requester) (p : Fin 16) (i : Fin 64) (drain : BitVec 2)
  /-- RESTORE: Instance command 5 checks and loads a migration image (R413). -/
  | restore (r : Requester) (p : Fin 16) (i : Fin 64) (drain : BitVec 2)
  /-- RESUME: Instance command 6 opens the gate, releases MSI-X and starts recorded channels (R409). -/
  | resume (r : Requester) (p : Fin 16) (i : Fin 64) (drain : BitVec 2)
  /-- QUIESCE_DONE: Every channel of the instance is stopped and empty, and it reads quiesced (R406). -/
  | quiesceDone (p : Fin 16) (i : Fin 64)
  /-- FREEZE_DONE: The freeze drain ends and the instance reads frozen (R407). -/
  | freezeDone (p : Fin 16) (i : Fin 64)
  /-- WRITE_LOG_ENTRY: A logged host write adds a page entry, or sets overflow (R410). -/
  | writeLogEntry (p : Fin 16) (i : Fin 64) (page : BitVec 52)
  /-- WRITE_LOG_HEAD_WRITE: A write to head advances the log and empties the filter (R410). -/
  | writeLogHeadWrite (r : Requester) (p : Fin 16) (i : Fin 64) (v : Word)
  /-- FRAME_RECEIVE: A frame arrives at a bridge port and is classified, filtered, learned, looked up and queued (R421). -/
  | frameReceive (b : Fin 64) (x : RxFrame) (fcsOk : Bool)
  /-- LEARN: A learn message reaches the bridge master, which applies it and sends the change to replicas (R422). -/
  | learn
  /-- FDB_CHANGE: A replica applies a change from the master (R422). -/
  | fdbChange (io : Fin 8)
  /-- FDB_AGING: A dynamic entry ages out and is removed (R422). -/
  | fdbAging (vid : BitVec 12) (mac : BitVec 48)
  /-- FDB_ADD_STATIC: FDB op 1 adds or replaces a static entry (R424). -/
  | fdbAddStatic (r : Requester) (v : Word)
  /-- FDB_DELETE: FDB op 2 deletes an entry (R424). -/
  | fdbDelete (r : Requester) (v : Word)
  /-- FDB_UNLOCK: FDB op 3 unlocks an entry (R424). -/
  | fdbUnlock (r : Requester) (v : Word)
  /-- FDB_FLUSH_PORT: FDB op 4 flushes every dynamic entry on a port (R424). -/
  | fdbFlushPort (r : Requester) (v : Word)
  /-- VLAN_RELOAD: FDB op 5 reloads a VLAN entry into the replicas (R424). -/
  | vlanReload (r : Requester) (v : Word)
  /-- MASTER_RELOAD: ES 0 returns and the master loads its table from IO 0's replica (R423). -/
  | masterReload
  /-- STATISTICS_WINDOW: A port statistics window ends and its counts are latched (R419). -/
  | statisticsWindow (b : Fin 64)
  /-- PFC_XON: Held lossless frames fall below 80 KiB and the port sends XON (R426). -/
  | pfcXon (b : Fin 64) (prio : Fin 8)
  /-- FRAME_TRANSMIT: An egress port sends the next frame of its highest unstopped queue (R426). -/
  | frameTransmit (b : Fin 64)
  /-- TX: Network opcode 0x90 sends a frame from a virtual port (R428). -/
  | tx (g : Fin 8192) (slot : Fin 32768)
  /-- RXBUF: Network opcode 0x91 offers a receive buffer (R429). -/
  | rxbuf (g : Fin 8192) (slot : Fin 32768)
  /-- TXSG: Network opcode 0x92 sends a gathered frame from a virtual port (R428). -/
  | txsg (g : Fin 8192) (slot : Fin 32768)
  /-- FRAME_DELIVER: Enough buffers and completion slots free and a held frame is written into RXBUF buffers (R429). -/
  | frameDeliver (v : Fin 960)
  /-- LOSSLESS_HOLD_EXPIRY: A lossless frame held 100 ms is dropped (R429). -/
  | losslessHoldExpiry (v : Fin 960)
  /-- NETWORK_LINK_DOWN: A port's link_up falls and its down-hold starts (R431). -/
  | networkLinkDown (b : Fin 64)
  /-- NETWORK_LINK_UP: The link returns and the port sends its held queues (R431). -/
  | networkLinkUp (b : Fin 64)
  /-- DOWN_HOLD_EXPIRY: The down-hold ends first and the port discards its queues and flushes its entries (R431). -/
  | downHoldExpiry (b : Fin 64)
  /-- WORLD_SWITCH: A write of go to VLT_WORLD_CMD switches a core's world, or is refused (R436). -/
  | worldSwitch (r : Requester) (v : Word)
  /-- WORLD_SWITCH_DONE: The core is drained and cleared, its world changed, and the notice sent (R436). -/
  | worldSwitchDone
  /-- HEARTBEAT: A write to VLT_TW_HB from the active group is a heartbeat (R444). -/
  | heartbeat (r : Requester) (v : Word)
  /-- TRUSTED_GROUP_FAILURE: A heartbeat timeout or unit loss fails the active group and the standby takes over (R444). -/
  | trustedGroupFailure
  /-- GROUP_RESTART: Base camp restarts a failed trusted group alone (R445). -/
  | groupRestart
  /-- GROUP_RESTART_DONE: The restarted group starts and stby_state becomes ready (R445). -/
  | groupRestartDone
  /-- MEASUREMENT_EXTEND: A write of k to the extend register extends measurement register k and logs it (R446). -/
  | measurementExtend (r : Requester) (v : Word)
  /-- LOAD: Slot op 1 loads a key from a secure buffer into a slot (R449). -/
  | load (r : Requester) (v : Word)
  /-- GENERATE: Slot op 2 generates a key from the DRBG (R449). -/
  | generate (r : Requester) (v : Word)
  /-- CLEAR: Slot op 3 empties a slot (R449). -/
  | clear (r : Requester) (v : Word)
  /-- PUBLIC: Slot op 4 writes a slot's public part (R449). -/
  | publicPart (r : Requester) (v : Word)
  /-- PROVISION: Slot op 5 creates a new master key and empties every slot (R449). -/
  | provision (r : Requester) (v : Word)
  /-- TAMPER_DETECT: A tamper input or detector fires and the vault clears the master key (R450). -/
  | tamperDetect (cause : BitVec 8)
  /-- COUNTER_INCREMENT: A write of k to VLT_COUNTER_INC adds one to a monotonic counter (R451). -/
  | counterIncrement (r : Requester) (v : Word)
  /-- BC_HEARTBEAT: The active management core sends its heartbeat to the standby (R456). -/
  | bcHeartbeat
  /-- BC_TAKEOVER: The standby fences the failed core, reconciles unit words and resumes sequences (R456). -/
  | bcTakeover (why : Takeover)
  /-- BC_CORE_REJOIN: A failed management core restarts and rejoins as standby, or is withdrawn (R458). -/
  | bcCoreRejoin (ok : Bool)
  /-- SENSOR_POLL: Every 1 ms base camp reads its sensor sources (R459). -/
  | sensorPoll (x : Polled)
  /-- POWER_DISTRIBUTION: Every 10 ms base camp divides the package limit into bc_power_cap values (R460). -/
  | powerDistribution (now other : Nat) (x : PowerSplit)
  /-- POWER_BRAKE: PWR_BRAKE_N asserts and every cap is set to the brake level (R460). -/
  | powerBrake
  /-- POWER_BRAKE_RELEASE: PWR_BRAKE_N releases and the caps are restored (R460). -/
  | powerBrakeRelease
  /-- LOG_RING_COPY: Base camp copies a record to the resident log ring, or counts it missed (R464). -/
  | logRingCopy
  /-- LOG_FLASH_APPEND: Base camp appends records to the log flash region (R465). -/
  | logFlashAppend
  /-- MCTP_CONTROL: An MCTP control message is served (R466). -/
  | mctpControl (x : Transport) (type : BitVec 8) (body : List Byte)
  /-- LOGBOOK_READ: A vendor-defined request reads logbook records from a sequence number (R465). -/
  | logbookRead (x : Transport) (seq count : Nat)
  /-- PLDM_REQUEST: A PLDM monitoring, FRU or base request is served (R467). -/
  | pldmRequest (x : Transport) (q : PldmQuery)
  /-- PLDM_RESET_REQUEST: A PLDM state effecter requests a device reset or orderly power-down (R467). -/
  | pldmResetRequest (x : Transport) (powerDown : Bool)
  /-- FIRMWARE_UPDATE: A PLDM update of base camp firmware is verified, written and applied by planned takeover (R469). -/
  | firmwareUpdate (x : Transport) (image : Image)
  /-- UPDATE_ROLLBACK: The new active core fails within 60 s and both cores restart from the old image (R469). -/
  | updateRollback
  /-- PATCH_SET_LOAD: A core patch set is verified and rolled out sheaf by sheaf (R470). -/
  | patchSetLoad (x : Transport) (version : Nat) (verifies : Bool) (compatibleWith : List Nat)
  /-- PATCH_APPLY: A core applies its patch at its next belay point (R470). -/
  | patchApply (k : Fin 192)
  /-- TRUSTED_COMPONENT_STAGE: Base camp stages a trusted component and sends vector 62 (R471). -/
  | trustedComponentStage (x : Transport) (cls : Nat) (version : Nat) (body : List Byte)
  /-- TRUSTED_OUTCOME: The trusted world writes an outcome, or 60 s pass, and base camp reports it (R471). -/
  | trustedOutcome
  /-- GET_VERSION: SPDM GET_VERSION is answered (R467). -/
  | getVersion (x : Transport)
  /-- GET_CAPABILITIES: SPDM GET_CAPABILITIES is answered (R467). -/
  | getCapabilities (x : Transport)
  /-- NEGOTIATE_ALGORITHMS: SPDM NEGOTIATE_ALGORITHMS is answered (R467). -/
  | negotiateAlgorithms (x : Transport)
  /-- GET_DIGESTS: SPDM GET_DIGESTS is answered (R467). -/
  | getDigests (x : Transport)
  /-- GET_CERTIFICATE: SPDM GET_CERTIFICATE is answered (R467). -/
  | getCertificate (x : Transport) (slot : Nat) (offset length : Nat)
  /-- CHALLENGE: SPDM CHALLENGE is answered with a vault signature (R467). -/
  | challenge (x : Transport) (slot : Nat) (nonce : List Byte)
  /-- GET_MEASUREMENTS: SPDM GET_MEASUREMENTS returns the measurement registers and log (R467). -/
  | getMeasurements (x : Transport) (block : Nat) (nonce : List Byte)
  /-- VIEW_SWEEP: Every 1 ms base camp compares its table with every state word and corrects skew (R472). -/
  | viewSweep
  /-- UNIT_COMMAND_REQUEST: A management request naming a unit is checked by seq and carried out or refused (R473). -/
  | unitCommandRequest (x : Transport) (u : Uid) (seq : BitVec 8) (ask : UnitAsk)
  /-- WITHDRAWAL_STORE_APPEND: Base camp appends a withdraw or reinstate entry to both flashes (R474). -/
  | withdrawalStoreAppend
  /-- REINSTATE_REQUEST: A management request reinstates a withdrawn unit from the next device reset (R474). -/
  | reinstateRequest (x : Transport) (u : Uid) (seq : BitVec 8)
  /-- BOARD_INPUT_CHANGE: A sampled board input holds a change for two samples and base camp acts on it (R476). -/
  | boardInputChange (i : BoardInput) (level : Bool)
  /-- HOST_PRESENCE_LOSS: HP_PRSNT_Np rises and the port freezes with cause 3 in hardware (R475). -/
  | hostPresenceLoss (p : Fin 16)
  /-- ENGINE_STOP_FAILURE: An engine stop leaves service and its channels and queues move to the substitute stop (R482). -/
  | engineStopFailure (f : Fin 4)
  /-- CHANNEL_RESTART: Base camp restarts a failed channel, trains it and resilvers from the partner (R485). -/
  | channelRestart (c : Fin 16)
  /-- RESILVER_DONE: The copy from the partner ends and the mirror is restored (R485). -/
  | resilverDone (c : Fin 16)
  /-- FLASH_REWRITE: Base camp rewrites a failed flash image from the other flash (R484). -/
  | flashRewrite
  /-- RESERVE_REFILL: A management request moves a tile from off to bivouac (R484). -/
  | reserveRefill (x : Transport) (i : Fin 96) (seq : BitVec 8)
  /-- POWER_GOOD_STANDBY: PWRGD_STBY is seen and stage S0 starts the timebase (R491). -/
  | powerGoodStandby
  /-- STAGE_S1: Fuses are loaded and unit state words set (R493). -/
  | stageS1
  /-- STAGE_S2: Base camp boots, verifies an image, applies the withdrawal list and extends measurements (R497). -/
  | stageS2 (aOk bOk : Bool)
  /-- STAGE_S3: Main power is raised, domains ramped, modes locked and default routes committed (R491). -/
  | stageS3 (doms : List DomId) (units : List Uid)
  /-- STAGE_S4: DRAM is checked, trained and mapped, the channel table zeroed and CXL links enumerated (R305). -/
  | stageS4
  /-- STAGE_S5: Watermarks and trusted firmware are loaded, channels move to mode 0 and trusted groups start (R439). -/
  | stageS5 (groupFails : Bool)
  /-- STAGE_S6: Network octets are configured, host instances marked ready and the boot image copied (R491). -/
  | stageS6
  /-- STAGE_S7: Reserve placed, cores numbered, configuration evaluated and the boot thread released (R500). -/
  | stageS7
  /-- MAIN_POWER_TIMEOUT: PWRGD_MAIN is not high 20 ms after PWR_EN_MAIN and start-up stops in S3 (R498). -/
  | mainPowerTimeout
  /-- MEMORY_TRANCHE: A 64 GiB tranche is initialised, limit_gib raised and the notice sent (R499). -/
  | memoryTranche
  /-- MIN_SVN_BURN: After 60 s of service base camp burns min_svn up to the image's svn (R496). -/
  | minSvnBurn
  /-- THREAD_START: A write of go to BC_THREAD_START_t loads a start block and runs thread t, or is refused (R501). -/
  | threadStart (r : Requester) (t : Tid) (v : Word)
  /-- DEVICE_RESET: A device reset soft-stops and power-gates every domain and restarts from S1 (R504). -/
  | deviceReset (cause : BitVec 4)
  /-- POWER_DOWN: A power-down request soft-stops, power-gates and drops PWR_EN_MAIN (R504). -/
  | powerDown
  /-- CORE_RESET: Base camp resets one core out of service (R503). -/
  | coreReset (k : Fin 192)
  /-- TILE_RESET: Base camp resets one tile (R503). -/
  | tileReset (i : Fin 96)
  /-- SHEAF_RESET: Base camp resets one sheaf (R503). -/
  | sheafReset (h : Fin 24)
  /-- FIELD_RESET: Base camp resets one field (R503). -/
  | fieldReset (f : Fin 4)
  /-- COUNTER_WINDOW: A counter window boundary latches counters, zeroes them and increases seq (R513). -/
  | counterWindow (u : Uid)
  /-- SAMPLE_RECORD: A tagged µop retires and a sample record is written or counted lost (R515). -/
  | sampleRecord (t : Tid) (x : Sampled)
  /-- TRACE_RECORD: A traced event retires and a record goes to the collector or is dropped (R528). -/
  | traceRecord (t : Tid) (x : Traced) (room : Bool)
  /-- BYPASS: TAP instruction BYPASS (R521). -/
  | tapBypass
  /-- IDCODE: TAP instruction IDCODE shifts out the IDCODE register (R521). -/
  | tapIdcode
  /-- SAMPLE: TAP instruction SAMPLE captures contact values (R521). -/
  | tapSample (pins : List Bool)
  /-- PRELOAD: TAP instruction PRELOAD loads the boundary register (R521). -/
  | tapPreload (x : TapScan)
  /-- EXTEST: TAP instruction EXTEST drives contacts, holding start-up at S3, or acts as BYPASS (R522). -/
  | tapExtest
  /-- CLAMP: TAP instruction CLAMP drives contacts from the boundary register (R522). -/
  | tapClamp
  /-- HIGHZ: TAP instruction HIGHZ places outputs at high impedance (R522). -/
  | tapHighz
  /-- EXTEST_PULSE: TAP instruction EXTEST_PULSE tests AC-coupled lanes (R522). -/
  | tapExtestPulse
  /-- EXTEST_TRAIN: TAP instruction EXTEST_TRAIN tests AC-coupled lanes with a pulse train (R522). -/
  | tapExtestTrain
  /-- NONCE_REQUEST: A requester asks for a nonce and base camp returns 32 DRBG bytes (R524). -/
  | nonceRequest (x : Transport)
  /-- DEBUG_TOKEN: A debug token is checked and replaces the enables, or is refused (R525). -/
  | debugToken (x : Transport) (body : List Byte) (sigOk keysOk : Bool)
  /-- DEBUG_CLEAR: A management request clears all debug enables (R525). -/
  | debugClear (x : Transport)
  /-- TOKEN_EXPIRY: A token's duration expires and the enables it set are cleared (R525). -/
  | tokenExpiry
  /-- OBSERVE_SELECT: Base camp writes DBG_OBS_SEL_k to route a signal to an observe pin (R526). -/
  | observeSelect (r : Requester) (k : Fin 32) (v : Word)
  /-- DATA_LINK_UP: A host port's link finishes training with the host, its data-link layer comes up, and link_up, width and speed are reported (R337). -/
  | dataLinkUp (p : Fin 16) (width : Fin 32) (speed : Fin 8) (flit : Bool)
  /-- PERST_DEASSERTION: HP_PERST_Np is deasserted and the host port begins link training, from which readiness under R350 is measured (R502). -/
  | perstDeassertion (p : Fin 16)
  /-- CONFIGURATION_WRITE: A host writes configuration space of a function, such as VF Enable, NumVFs, power state or the device control fields, and the port redivides its shares or changes its behaviour (R339). -/
  | configurationWrite (p : Fin 16) (i : Fin 64) (w : CfgWrite)
  /-- PAUSE_EXPIRY: The pause time of a received 802.3x pause or PFC frame runs out and the stopped egress queue resumes (R426). -/
  | pauseExpiry (b : Fin 64) (prio : Fin 8)
  /-- SLEW_COMPLETE: The timebase count comes back into step with the returned reference and slewing clears (R43). -/
  | slewComplete
  /-- STANDBY_POWER_LOSS: PWRGD_STBY falls or VDD_STBY is lost: everything but the vault island stops, THERM_TRIP_N is released and the vault runs from VBAT (R506). -/
  | standbyPowerLoss
  /-- VBAT_LOSS: VBAT is removed and the vault island runs on from VDD_STBY, or from its holdover capacitor when VDD_STBY is also absent (R65). -/
  | vbatLoss
deriving DecidableEq, Repr

end Sys2Proof
end

