-- ==== Sys2Proof/Config.lean ====
section
/-! DEFINITION. What the spec leaves open (notes/assumptions): constants with no body, so that nothing can be proved of their values. -/

namespace Sys2Proof

/-- The severity of a logbook record whose type's severity the spec does not state (R463; notes/assumptions/10.md). -/
opaque Config.recordSeverity : Nat → Nat

/-- The event code of a thermal or power record for a power cap that cannot be met, which R463 does not list (R57). -/
opaque Config.capUnmetEvent : Nat

/-- The voltage code a sheaf's governor steers to for a wanted pace, from the pace its monitor measures at the present code (R39, R52):
sheaf, wanted pace, measured pace, present code. -/
opaque Config.codeForPace : Nat → Nat → Nat → Nat → Nat

/-- The highest voltage code that keeps a sheaf's mean power at or below a cap (R52, R53): sheaf, cap, measured power, present code. -/
opaque Config.codeUnderPower : Nat → Nat → Nat → Nat → Nat

/-- The highest voltage code that keeps a sheaf's pace at or below a cap (R52): sheaf, cap, measured pace, present code. -/
opaque Config.codeUnderPace : Nat → Nat → Nat → Nat → Nat

/-- The highest voltage code that holds a sheaf's highest reading at a throttle threshold (R52, R61). -/
opaque Config.codeUnderTemp : Nat → Nat → Nat → Nat

/-- The voltage in mV that holds a field fabric's or an engine stop's reading at the throttle threshold (R61): domain, reading. -/
opaque Config.mvUnderTemp : Nat → Nat → Nat

/-- The highest voltage code the current-slew share allows while the domain's load would rise faster than it (R52, R58, R59). -/
opaque Config.codeUnderSlew : Nat → Nat → Nat

/-- What a BITF immediate selects (R103): a field of `width` bits at `pos`, taken out zero- or sign-extended, or put in. -/
inductive BitfKind where
  | extract | extractSigned | insert
deriving DecidableEq, Repr

structure Bitf where
  kind  : BitfKind
  pos   : Nat
  width : Nat
deriving DecidableEq, Repr

/-- How imm15 of BITF gives position, width and kind; none where the value is reserved (R103). -/
opaque Config.bitfDecode : BitVec 15 → Option Bitf

/-- The directory set of a line at its home, and which of its 16 entries a full set gives up (R261). -/
opaque Config.dirSet : Nat → Nat → Nat
opaque Config.dirVictim : Nat → Nat → Nat

/-- The victim that replacement picks among the ways that may give one up: of an L2 by core and line, of an L1 by core, array and line,
of an L3 slice by line. R240 says that the policies do not bind. -/
opaque Config.l2Victim : Nat → Nat → Nat
opaque Config.l1Victim : Nat → Nat → Nat → Nat
opaque Config.l3Victim : Nat → Nat

/-- The number of a message in a packet's header (R286): the spec numbers no types. -/
opaque Config.typeNo : Msg → BitVec 8

/-- The flits a VC's buffer holds at a receiver beyond one packet's two (R283): the spec gives no size. -/
opaque Config.vcSpare : Nat

/-! ### Vector and floating-point values the spec names and does not give (R103; notes/assumptions/12.md, 13.md) -/

/-- The fn field of a vector or floating-point instruction's form: an opcode and a number for the form. -/
opaque Config.vecFn : Nat → Nat → BitVec 10

/-- The lane a VPERM permute takes for an index beyond the last lane, and the lane a broadcast takes. -/
opaque Config.permLane : Lane → Nat → Nat

/-- A lane shifted by its width or more. -/
opaque Config.shiftBeyond : VLogOp → Lane → Nat → Nat → Nat

/-- A lane VSEL gives where its mask is neither all ones nor all zeros. -/
opaque Config.selMixed : Lane → Nat → Nat → Nat → Nat

/-- The sign and payload of a NaN result, from the operands. -/
opaque Config.nanPayload : FpW → List Nat → Nat

/-- Tininess is detected after rounding. -/
opaque Config.tinyAfter : Bool

/-- The integer an invalid conversion gives. -/
opaque Config.cvtInvalid : FpW → Nat → Nat → Nat

/-- One AES round step on a 128-bit block with a round key. -/
opaque Config.aesStep : AesOp → BitVec 128 → BitVec 128 → BitVec 128

/-- A SHA-256 or SHA-512 step on two vector operands and the old destination. -/
opaque Config.sha2Step : Sha2Op → BitVec 256 → BitVec 256 → BitVec 256 → BitVec 256

/-- A Keccak-f[1600] step on two vector operands and the old destination, in a round. -/
opaque Config.sha3Step : Sha3Op → Nat → BitVec 256 → BitVec 256 → BitVec 256 → BitVec 256

/-! ### Host ports, channels and engines (notes/assumptions/22.md) -/

/-- A virtual function implements Max Read Request Size itself (R343). -/
opaque Config.vfMrrs : Bool

/-- What a default timeout code above 26 of a channel gives, in µs: R361 and R369 give codes 1 to 26. -/
opaque Config.timeoutUs : Nat → Nat

/-- What a service-queue entry holds beyond its payload, by payload length and offset (R387). -/
opaque Config.msgPad : Nat → Nat → BitVec 8

/-- What a key operation computes from: opcode, variant, the decrypt or verify bit, aux_len, the randomness drawn, key, second
key and input. -/
structure KeyIn where
  op      : Nat
  variant : Nat
  flag    : Bool
  aux     : Nat
  rand    : Nat
  key     : List (BitVec 8)
  key2    : List (BitVec 8)
  src     : List (BitVec 8)
deriving DecidableEq, Repr

/-- The output of an operation: those of the standards R390 names, whose values are not in the spec. -/
opaque Config.keyOut : KeyIn → List (BitVec 8)

/-- The verdict of a verify operation, or of an AES-GCM tag. -/
opaque Config.keyVerdict : Nat → Nat → Nat → List (BitVec 8) → List (BitVec 8) → Bool

/-- A point is on its curve, not at infinity, its coordinates below the field prime (R391): by ECDSA variant. -/
opaque Config.pointOk : Nat → List (BitVec 8) → Bool

/-- The group order of a curve: ECDSA variants 0 to 2, and 3 for Ed25519. -/
opaque Config.groupOrder : Nat → Nat

/-- An Ed25519 encoding is canonical and on the curve. -/
opaque Config.edOk : List (BitVec 8) → Bool

/-- An ML-KEM encapsulation key has every coefficient below q; a decapsulation key passes the hash check of FIPS 203. -/
opaque Config.ekOk : Nat → List (BitVec 8) → Bool
opaque Config.dkOk : Nat → List (BitVec 8) → Bool

/-- A PIN block decodes under its input format: variant, key, input. -/
opaque Config.pinOk : Nat → List (BitVec 8) → List (BitVec 8) → Bool

/-- The PAN field's length for a pair of formats, and the length of an open HMAC key (R390 gives neither). -/
opaque Config.panLen : Nat → Nat
opaque Config.hmacKeyLen : Nat → Nat

/-- The public part of a key: slot type, key. -/
opaque Config.publicPart : Nat → List (BitVec 8) → List (BitVec 8)

/-- Byte `i` of a slot as the vault seals it under a generation of the table: a slot of a type, a usage and a key, or an empty one
(R448). -/
opaque Config.sealByte : Nat → Nat → Option (Nat × Nat × List (BitVec 8)) → Nat → BitVec 8

/-- Byte k of read n of the vault DRBG. -/
opaque Config.drbg : Nat → Nat → BitVec 8

/-- The SHA-384 digest. -/
opaque Config.sha384 : List (BitVec 8) → List (BitVec 8)

/-- A byte of a line whose only dirty copy a failed slice held (R258): what memory held before, at a time. -/
opaque Config.staleByte : Nat → Nat → BitVec 8

/-- The user tag of a flushed descriptor that could not be read (R367). -/
opaque Config.lostTag : Nat → Nat → BitVec 32

/-! ### The vault and base camp -/

/-- The event byte of a measurement record, by what made the extension: the spec gives the codes nowhere (R447). -/
opaque Config.measEvent : Nat → Nat

/-- How long a slot operation takes, by op and type, in ns (R449). -/
opaque Config.slotTime : Nat → Nat → Nat

/-- A key GENERATE makes: slot type, and which read of the vault DRBG. -/
opaque Config.newKey : Nat → Nat → List (BitVec 8)

/-- Where trusted firmware lies and starts, which its image says in no form the spec gives (R433, R500): 0 entry, 1 fault entry,
2 and 3 window-stack base and size, 4 and 5 fault-stack base and size, 6 and above where each group's copy is loaded. -/
opaque Config.trustedWord : Nat → Nat

/-- Caerquel's JEDEC code, which fuses hold (R521). -/
opaque Config.jedecCode : Nat

/-- A signal of the observe map is marked secure, or belongs to a core (R526, R527): by field and signal. -/
opaque Config.obsSecure : Nat → Nat → Bool
opaque Config.obsCore : Nat → Nat → Option Nat

/-- The instruments that the data file CQG9-192-ICL marks secure (R523). -/
opaque Config.instrSecure : Nat → Bool

/-- The digest a setting of a secure debug enable extends measurement register 0 with (R446). -/
opaque Config.debugDigest : List (BitVec 8) → List (BitVec 8)

/-- A sheaf's power cap under the power brake, from brake_w (R460): how the package level becomes a sheaf's is not stated. -/
opaque Config.brakeCap : Nat → Nat → Nat

/-- The VIN_CORE current in mA that a core's logic takes off its sheaf's load when its header opens (R50, R59): not stated. -/
opaque Config.coreLoad : Nat → Nat

/-- What a register of the vault island holds once its holdover capacitor has fallen below 2.0 V (R64, R65): not stated. -/
opaque Config.islandWord : Nat → BitVec 64

/-- A sheaf's cap when no sheaf drew any power, so that no proportion is defined (R460). -/
opaque Config.idleCap : Nat → Nat → Nat

/-- How long a failover took, in ns, by the record's sequence number (R463). -/
opaque Config.failoverNs : Nat → Nat

/-- Messages whose bytes a DMTF specification defines (R466, R467): the answer to an MCTP control message, the endpoint ID such a
message sets, a PLDM base answer, FRU data from the fuses, an SPDM answer by request and inputs, and a signature over bytes. -/
opaque Config.mctpReply : List (BitVec 8) → List (BitVec 8)
opaque Config.mctpEid : List (BitVec 8) → Option Nat
opaque Config.pldmBase : Nat → List (BitVec 8)
opaque Config.fruData : BitVec 64 → List (BitVec 8)
opaque Config.spdm : Nat → Nat → Nat → Nat → List (BitVec 8)
opaque Config.spdmSign : List (BitVec 8) → List (BitVec 8)

/-- The version of a trusted component before any update of it (R463). -/
opaque Config.componentVersion : Nat → Nat

/-- The digests that extend measurement registers 0 and 1 at S2, and what a channel's training finds: channel, set, rank, lane. -/
opaque Config.firmwareDigest : Image → List (BitVec 8)
opaque Config.imageDigest : Image → List (BitVec 8)
opaque Config.activateDraw : Nat → Nat → Nat → BitVec 16
opaque Config.trained : Nat → Nat → Nat → Nat → BitVec 64

/-- What a replica holds of a VLAN entry that could not be read (R420). -/
opaque Config.vlanUnread : Nat → Nat

/-- The µops that the instruction at a count of retired instructions retires as (R510). -/
opaque Config.uops : Nat → Nat

/-- The beats in which a core's pipeline advances for a thread in the nanosecond at a timebase count (R510). -/
opaque Config.beats : Nat → Nat → Nat

end Sys2Proof
end

