-- ==== Sys2Proof/Decode.lean ====
section
/-! DEFINITION. Words and the commands they spell. The opcode table gives its rows no bits, so no word of the table's spells one; but a
thread's instructions have words (R97 to R101), and what those spell is here. -/

namespace Sys2Proof

/-- The command a word of the table spells: none, since no row of the table has bits. -/
def decodeTableWord (_nbits _w : Nat) : Option Instr := none

/-! ### The fields of an instruction word (R98) -/

def wordOp (w : BitVec 32) : Nat := (w.extractLsb' 25 7).toNat
def wordRd (w : BitVec 32) : RegNo := w.extractLsb' 20 5
def wordRa (w : BitVec 32) : RegNo := w.extractLsb' 15 5
def wordRb (w : BitVec 32) : RegNo := w.extractLsb' 10 5
def wordRc (w : BitVec 32) : RegNo := w.extractLsb' 5 5
def wordFn (w : BitVec 32) : BitVec 10 := w.extractLsb' 0 10
def wordImm (w : BitVec 32) : BitVec 15 := w.extractLsb' 0 15

/-! ### Forms whose fn the spec leaves open (notes/assumptions/12.md) -/

def allLanes : List Lane := [.b8, .b16, .b32, .b64]
def allFpW : List FpW := [.f32, .f64]
def withLane {α : Type} (l : List α) : List (α × Lane) := l.flatMap (fun o => allLanes.map (fun w => (o, w)))
def withFp {α : Type} (l : List α) : List (α × FpW × Bool) :=
  l.flatMap (fun o => allFpW.flatMap (fun w => [(o, w, false), (o, w, true)]))

def allVInt : List VIntOp := [.add, .sub, .cmpEq, .cmpLtS, .cmpLtU, .minS, .maxS, .minU, .maxU]
def allVMul : List VMulOp := [.low, .highS, .highU]
def allVLog : List VLogOp := [.and, .or, .xor, .andn, .sll, .srl, .sra]
def allVPerm : List VPermOp := [.permute, .broadcast, .mirror]
def allVRed : List VRedOp := [.add, .and, .or, .xor, .minS, .maxS, .minU, .maxU]
def allFAdd : List FAddOp := [.add, .sub, .cmpEq, .cmpLt, .cmpLe]
def allFDiv : List FDivOp := [.div, .sqrt]
def allAes : List AesOp := [.encRound, .encLast, .decRound, .decLast]
def allSha2 : List Sha2Op := [.sha256Round, .sha256Schedule, .sha512Round, .sha512Schedule]
def allSha3 : List Sha3Op := [.theta, .rhoPi, .chi, .iota]
def allVMov : List VMovOp := (List.range 32).map .insert ++ (List.range 32).map .extract ++ [.vector]
def allFCvt : List FCvtOp :=
  allFpW.flatMap (fun w => allLanes.flatMap (fun l => [.toSigned w l, .toUnsigned w l, .fromSigned l w, .fromUnsigned l w])) ++
    allFpW.flatMap (fun a => allFpW.map (.width a))

/-- The number of a form of FADD, FMUL and FDIV; of FCVT; of VMOV. -/
def fpForm (form : Nat) (w : FpW) (scalar : Bool) : Nat := form * 4 + w.ctorIdx * 2 + scalar.toNat
def cvtForm : FCvtOp → Nat
  | .toSigned w l => w.ctorIdx * 4 + l.ctorIdx
  | .toUnsigned w l => 8 + w.ctorIdx * 4 + l.ctorIdx
  | .fromSigned l w => 16 + w.ctorIdx * 4 + l.ctorIdx
  | .fromUnsigned l w => 24 + w.ctorIdx * 4 + l.ctorIdx
  | .width a b => 32 + a.ctorIdx * 2 + b.ctorIdx
def movForm (op : VMovOp) (w : Lane) : Nat :=
  match op with
  | .insert i => 4 * (i % 32) + w.ctorIdx
  | .extract i => 128 + 4 * (i % 32) + w.ctorIdx
  | .vector => 256

/-- The form of an opcode whose fn a word holds; `m` is how many bits of it the format has. -/
def formOf {α : Type} (op : Nat) (l : List α) (code : α → Nat) (fn : BitVec 10) (m : Nat := 10) : Option α :=
  l.find? (fun f => (Config.vecFn op (code f)).toNat % 2 ^ m == fn.toNat % 2 ^ m)

/-! ### The instructions, by format -/

/-- Registers and fn of the ALU family (R104). -/
def decodeAlu (t : Tid) (rd ra rb : RegNo) (fn : Nat) : Option Instr :=
  match fn with
  | 0 => some (.add t rd ra rb) | 1 => some (.sub t rd ra rb) | 2 => some (.and t rd ra rb) | 3 => some (.or t rd ra rb)
  | 4 => some (.xor t rd ra rb) | 5 => some (.andn t rd ra rb) | 6 => some (.sll t rd ra rb) | 7 => some (.srl t rd ra rb)
  | 8 => some (.sra t rd ra rb) | 9 => some (.rol t rd ra rb) | 10 => some (.ror t rd ra rb) | 11 => some (.clz t rd ra rb)
  | 12 => some (.ctz t rd ra rb) | 13 => some (.popc t rd ra rb) | 14 => some (.bswap t rd ra rb)
  | 15 => some (.slt t rd ra rb) | 16 => some (.sltu t rd ra rb) | 17 => some (.min t rd ra rb)
  | 18 => some (.max t rd ra rb) | 19 => some (.minu t rd ra rb) | 20 => some (.maxu t rd ra rb)
  | _ => none

/-- Multiply, divide and their checked forms (R104, R112). -/
def decodeMulDiv (t : Tid) (op : Nat) (rd ra rb : RegNo) (fn : Nat) : Option Instr :=
  match op, fn with
  | 0x0A, 0 => some (.mulLow t rd ra rb) | 0x0A, 1 => some (.mulHighSigned t rd ra rb)
  | 0x0A, 2 => some (.mulHighUnsigned t rd ra rb) | 0x0A, 3 => some (.mulHighSignedUnsigned t rd ra rb)
  | 0x0B, 0 => some (.div t rd ra rb) | 0x0B, 1 => some (.divu t rd ra rb)
  | 0x0B, 2 => some (.rem t rd ra rb) | 0x0B, 3 => some (.remu t rd ra rb)
  | 0x0C, 0 => some (.addt t rd ra rb) | 0x0D, 0 => some (.subt t rd ra rb) | 0x0E, 0 => some (.mult t rd ra rb)
  | 0x0F, 0 => some (.divtQuotient t rd ra rb) | 0x0F, 1 => some (.divtRemainder t rd ra rb)
  | _, _ => none

/-- IMM format (R98, R101, R103). -/
def decodeImm (t : Tid) (limm : Limm) (op : Nat) (rd ra : RegNo) (imm : BitVec 15) : Option Instr :=
  match op with
  | 0x03 => some (.addi t limm rd ra imm) | 0x04 => some (.andi t limm rd ra imm) | 0x05 => some (.ori t limm rd ra imm)
  | 0x06 => some (.xori t limm rd ra imm) | 0x07 => some (.shi t limm rd ra imm) | 0x08 => some (.slti t limm rd ra imm)
  | 0x09 => some (.sltiu t limm rd ra imm) | 0x12 => some (.bitf t limm rd ra imm)
  | 0x23 => if rd = 0 ∧ ra = 0 then some (.trap t limm imm) else none
  | 0x51 => some (.cxaddi t limm rd ra imm) | 0x52 => some (.cxboundi t limm rd ra imm)
  | 0x5C => some (.feat t limm rd ra imm)
  | _ => none

/-- MEM format (R99, R103). -/
def decodeMem (t : Tid) (op : Nat) (rd ra : RegNo) (am : BitVec 3) (imm : BitVec 12) : Option Instr :=
  match op with
  | 0x28 => some (.ldB t rd ra am imm) | 0x29 => some (.ldBu t rd ra am imm) | 0x2A => some (.ldH t rd ra am imm)
  | 0x2B => some (.ldHu t rd ra am imm) | 0x2C => some (.ldW t rd ra am imm) | 0x2D => some (.ldWu t rd ra am imm)
  | 0x2E => some (.ldD t rd ra am imm) | 0x2F => some (.ldC t rd ra am imm)
  | 0x30 => some (.stB t rd ra am imm) | 0x31 => some (.stH t rd ra am imm) | 0x32 => some (.stW t rd ra am imm)
  | 0x33 => some (.stD t rd ra am imm) | 0x34 => some (.stC t rd ra am imm)
  | 0x35 => some (.ldV t rd ra am imm) | 0x36 => some (.stV t rd ra am imm)
  | 0x4B =>
    (match rd.toNat with
     | 0 => some (.cmoClean t ra am imm)
     | 1 => some (.cmoFlush t ra am imm)
     | 2 => some (.cmoZero t ra am imm)
     | _ => none)
  | 0x4C => if rd = 0 then some (.prf t ra am imm) else none
  | _ => none

/-- MIX format (R98, R99, R103). -/
def decodeMix (t : Tid) (op : Nat) (rd ra rb : RegNo) (sh : BitVec 3) (w : BitVec 5) (m x : Bool) : Option Instr :=
  match op with
  | 0x38 => some (.ldxB t rd ra rb sh w m x) | 0x39 => some (.ldxH t rd ra rb sh w m x) | 0x3A => some (.ldxW t rd ra rb sh w m x)
  | 0x3B => some (.ldxD t rd ra rb sh w m x) | 0x3C => some (.ldxC t rd ra rb sh w m x) | 0x3D => some (.ldxV t rd ra rb sh w m x)
  | 0x3E => some (.stxB t rd ra rb sh w m x) | 0x3F => some (.stxH t rd ra rb sh w m x) | 0x40 => some (.stxW t rd ra rb sh w m x)
  | 0x41 => some (.stxD t rd ra rb sh w m x) | 0x42 => some (.stxC t rd ra rb sh w m x) | 0x43 => some (.stxV t rd ra rb sh w m x)
  | _ => none

/-- BR and JMP formats, and the REG-format transfers, whose other fields are reserved (R98, R103, R107 to R110). -/
def decodeTransfer (t : Tid) (w : BitVec 32) : Option Instr :=
  let a := wordRd w
  let b := wordRa w
  let disp := wordImm w
  let alone := wordRd w = 0 ∧ wordRb w = 0 ∧ wordFn w = 0
  match wordOp w with
  | 0x18 => some (.beq t a b disp) | 0x19 => some (.bne t a b disp) | 0x1A => some (.blt t a b disp)
  | 0x1B => some (.bge t a b disp) | 0x1C => some (.bltu t a b disp) | 0x1D => some (.bgeu t a b disp)
  | 0x1E => some (.j t (w.extractLsb' 0 25)) | 0x20 => some (.call t (w.extractLsb' 0 25))
  | 0x1F => if alone then some (.jr t b) else none
  | 0x21 => if alone then some (.callr t b) else none
  | 0x22 => if alone ∧ b = 0 then some (.ret t) else none
  | 0x24 => some (.fret t (w.extractLsb' 0 25))
  | 0x25 => if alone then some (.wait t b) else none
  | _ => none

/-- AMO and CAS (R113, R114). -/
def decodeAtomic (t : Tid) (op : Nat) (rd ra rb : RegNo) (fn : BitVec 10) : Option Instr :=
  let order : BitVec 2 := fn.extractLsb' 8 2
  let wide := fn.getLsbD 7
  let rsv : BitVec 3 := fn.extractLsb' 0 3
  if op = 0x45 then some (.cas t rd ra rb order (fn.extractLsb' 6 2) (fn.extractLsb' 0 6))
  else
    match (fn.extractLsb' 3 4).toNat with
    | 0 => some (.amoFadd t rd ra rb order wide rsv) | 1 => some (.amoSwap t rd ra rb order wide rsv)
    | 2 => some (.amoAnd t rd ra rb order wide rsv) | 3 => some (.amoOr t rd ra rb order wide rsv)
    | 4 => some (.amoXor t rd ra rb order wide rsv) | 5 => some (.amoSmin t rd ra rb order wide rsv)
    | 6 => some (.amoSmax t rd ra rb order wide rsv) | 7 => some (.amoUmin t rd ra rb order wide rsv)
    | 8 => some (.amoUmax t rd ra rb order wide rsv)
    | _ => none

/-- Fences, acquire and release, barriers (R116 to R119). -/
def decodeOrder (t : Tid) (op : Nat) (rd ra rb : RegNo) (fn : BitVec 10) : Option Instr :=
  let alone := rd = 0 ∧ ra = 0 ∧ rb = 0
  match op with
  | 0x46 =>
    if alone then
      match fn.toNat with
      | 0 => some (.fenceFull t) | 1 => some (.fenceAcq t) | 2 => some (.fenceRel t) | 3 => some (.fenceSs t)
      | 4 => some (.fenceIo t)
      | _ => none
    else none
  | 0x47 => if rb = 0 then some (.lda t rd ra (fn.extractLsb' 0 3) (fn.extractLsb' 3 7)) else none
  | 0x48 => if rb = 0 then some (.strel t rd ra (fn.extractLsb' 0 3) (fn.extractLsb' 3 7)) else none
  | 0x49 => if alone ∧ fn = 0 then some (.isync t) else none
  | 0x4A => if alone ∧ fn = 0 then some (.abar t) else none
  | _ => none

/-- CAP (R139). -/
def decodeCap (t : Tid) (rd ra rb : RegNo) (fn : Nat) : Option Instr :=
  match fn with
  | 0 => some (.cxbase t rd ra rb) | 1 => some (.cxlen t rd ra rb) | 2 => some (.cxperm t rd ra rb)
  | 3 => some (.cxtype t rd ra rb) | 4 => some (.cxtag t rd ra rb) | 5 => some (.cxmove t rd ra rb)
  | 6 => some (.cxdrop t rd ra rb) | 7 => some (.cxbound t rd ra rb) | 8 => some (.cxboundx t rd ra rb)
  | 9 => some (.cxseal t rd ra rb) | 10 => some (.cxopen t rd ra rb) | 11 => some (.cxstrip t rd ra rb)
  | 12 => some (.cxwithin t rd ra rb) | 13 => some (.cxfitlen t rd ra rb) | 14 => some (.cxfitbase t rd ra rb)
  | _ => none

/-- WRTR, whose register number stands in fn (R86): PCC, WSTATE, VTID and the numbers from 9 on are not written. -/
def decodeWrtr (t : Tid) (rd ra rb : RegNo) (fn : BitVec 10) : Option Instr :=
  let rsv : BitVec 6 := fn.extractLsb' 4 6
  match (fn.extractLsb' 0 4).toNat with
  | 1 => some (.wrtrWstack t rd ra rb rsv) | 2 => some (.wrtrFstack t rd ra rb rsv) | 3 => some (.wrtrFgate t rd ra rb rsv)
  | 4 => some (.wrtrGatetab t rd ra rb rsv) | 6 => some (.wrtrTctrl t rd ra rb rsv) | 7 => some (.wrtrTstatus t rd ra rb rsv)
  | _ => none

/-- TLBI (R233). -/
def decodeTlbi (t : Tid) (rd ra rb : RegNo) (fn : BitVec 10) : Option Instr :=
  let pkg := fn.getLsbD 4
  let rsv : BitVec 5 := fn.extractLsb' 5 5
  match (fn.extractLsb' 0 4).toNat with
  | 0 => some (.tlbiVaAsid t rd ra rb pkg rsv) | 1 => some (.tlbiVa t rd ra rb pkg rsv) | 2 => some (.tlbiAsid t rd ra rb pkg rsv)
  | 3 => some (.tlbiVmidCurrent t rd ra rb pkg rsv) | 4 => some (.tlbiIpa t rd ra rb pkg rsv)
  | 5 => some (.tlbiVmid t rd ra rb pkg rsv) | 6 => some (.tlbiAll t rd ra rb pkg rsv) | 8 => some (.tlbiSync t rd ra rb pkg rsv)
  | _ => none

/-- Vector and floating-point instructions (R103). -/
def decodeVector (t : Tid) (op : Nat) (rd ra rb rc : RegNo) (fn : BitVec 10) : Option Instr :=
  match op with
  | 0x60 => (formOf op (withLane allVInt) (fun e => e.1.ctorIdx * 4 + e.2.ctorIdx) fn).map (fun e => .vint t rd ra rb e.1 e.2)
  | 0x61 => (formOf op (withLane allVMul) (fun e => e.1.ctorIdx * 4 + e.2.ctorIdx) fn).map (fun e => .vmul t rd ra rb e.1 e.2)
  | 0x62 => (formOf op (withLane allVLog) (fun e => e.1.ctorIdx * 4 + e.2.ctorIdx) fn).map (fun e => .vshl t rd ra rb e.1 e.2)
  | 0x63 => (formOf op (withLane allVPerm) (fun e => e.1.ctorIdx * 4 + e.2.ctorIdx) fn).map (fun e => .vperm t rd ra rb e.1 e.2)
  | 0x64 => (formOf op (withFp allFAdd) (fun e => fpForm e.1.ctorIdx e.2.1 e.2.2) fn).map (fun e => .fadd t rd ra rb e.1 e.2.1 e.2.2)
  | 0x65 => (formOf op (withFp [()]) (fun e => fpForm 0 e.2.1 e.2.2) fn).map (fun e => .fmul t rd ra rb e.2.1 e.2.2)
  | 0x66 => (formOf op (withFp [()]) (fun e => e.2.1.ctorIdx * 2 + e.2.2.toNat) fn 5).map (fun e => .fma t rd ra rb rc e.2.1 e.2.2)
  | 0x67 => (formOf op (withFp allFDiv) (fun e => fpForm e.1.ctorIdx e.2.1 e.2.2) fn).map (fun e => .fdiv t rd ra rb e.1 e.2.1 e.2.2)
  | 0x68 =>
    if rb = 0 then
      (formOf op (allFCvt.flatMap (fun o => [(o, false), (o, true)])) (fun e => cvtForm e.1 * 2 + e.2.toNat) fn).map
        (fun e => .fcvt t rd ra e.1 e.2)
    else none
  | 0x69 =>
    if rb = 0 then (formOf op (withLane allVMov) (fun e => movForm e.1 e.2) fn).map (fun e => .vmov t rd ra e.1 e.2) else none
  | 0x6A =>
    if rb = 0 then (formOf op (withLane allVRed) (fun e => e.1.ctorIdx * 4 + e.2.ctorIdx) fn).map (fun e => .vred t rd ra e.1 e.2)
    else none
  | 0x6B => (formOf op allAes (fun e => e.ctorIdx) fn).map (fun e => .vaes t rd ra rb e)
  | 0x6C => (formOf op [()] (fun _ => 0) fn).map (fun _ => .vclmul t rd ra rb)
  | 0x6D => (formOf op allSha2 (fun e => e.ctorIdx) fn).map (fun e => .vsha2 t rd ra rb e)
  | 0x6E =>
    (formOf op (allSha3.flatMap (fun o => (List.finRange 24).map (fun r => (o, r)))) (fun e => e.1.ctorIdx * 24 + e.2.val) fn).map
      (fun e => .vsha3 t rd ra rb e.1 e.2)
  | 0x6F => (formOf op [()] (fun _ => 0) fn 5).map (fun _ => .vmodma t rd ra rb rc)
  | 0x70 => (formOf op allLanes (fun w => w.ctorIdx) fn 5).map (fun w => .vsel t rd ra rb rc w)
  | _ => none

/-- REG and SEL formats, by opcode. -/
def decodeReg (t : Tid) (w : BitVec 32) : Option Instr :=
  let op := wordOp w
  let rd := wordRd w
  let ra := wordRa w
  let rb := wordRb w
  let fn := wordFn w
  if op = 0x02 then decodeAlu t rd ra rb fn.toNat
  else if op ≤ 0x0F then decodeMulDiv t op rd ra rb fn.toNat
  else if op = 0x10 then some (.sel t rd ra rb (wordRc w) (fn.extractLsb' 2 3) (fn.extractLsb' 0 2))
  else if op = 0x11 then some (.cmov t rd ra rb (wordRc w) (fn.extractLsb' 2 3) (fn.extractLsb' 0 2))
  else if op = 0x44 ∨ op = 0x45 then decodeAtomic t op rd ra rb fn
  else if 0x46 ≤ op ∧ op ≤ 0x4A then decodeOrder t op rd ra rb fn
  else if op = 0x50 then decodeCap t rd ra rb fn.toNat
  else if op = 0x54 then some (.blkmove t rd ra rb fn)
  else if op = 0x55 then some (.blkfill t rd ra rb fn)
  else if op = 0x56 then some (.blkcmp t rd ra rb fn)
  else if op = 0x57 then some (.crcrange t rd ra rb fn)
  else if op = 0x58 then some (.nttpass t rd ra rb fn)
  else if op = 0x59 then some (.rdtr t rd ra rb fn)
  else if op = 0x5A then decodeWrtr t rd ra rb fn
  else if op = 0x5B then (if ra = 0 ∧ rb = 0 ∧ fn = 0 then some (.rdtime t rd) else none)
  else if op = 0x5D then decodeTlbi t rd ra rb fn
  else if 0x60 ≤ op then decodeVector t op rd ra rb (wordRc w) fn
  else none

/-- An IMM-format opcode (R98, R103). -/
def opImm (op : Nat) : Bool :=
  (decide (0x03 ≤ op) && decide (op ≤ 0x09)) || op = 0x12 || op = 0x23 || op = 0x51 || op = 0x52 || op = 0x5C

/-- The instruction of a thread that the payloads of its LIMM words and its last word spell; none where no instruction defines the
encoding, or where the LIMM words stand before one they cannot widen (R98 to R101, R103). An instruction that a group does spell
and that R101 forbids one raises its fault itself. -/
def decodeGroup (t : Tid) (limm : Limm) (w : BitVec 32) : Option Instr :=
  let op := wordOp w
  if opImm op then (if limm.length ≤ 2 then decodeImm t limm op (wordRd w) (wordRa w) (wordImm w) else none)
  else if !limm.isEmpty then none
  else if (0x28 ≤ op ∧ op ≤ 0x36) ∨ op = 0x4B ∨ op = 0x4C then
    decodeMem t op (wordRd w) (wordRa w) (w.extractLsb' 12 3) (w.extractLsb' 0 12)
  else if 0x38 ≤ op ∧ op ≤ 0x43 then
    decodeMix t op (wordRd w) (wordRa w) (wordRb w) (w.extractLsb' 7 3) (w.extractLsb' 2 5) (w.getLsbD 1) (w.getLsbD 0)
  else if 0x18 ≤ op ∧ op ≤ 0x25 then decodeTransfer t w
  else decodeReg t w

/-- The payload of a LIMM word, where the word is one. -/
def limmOf (w : BitVec 32) : Option (BitVec 25) := if wordOp w = 1 then some (w.extractLsb' 0 25) else none

/-- The instruction that a thread's next words spell: up to two LIMM words and the instruction (R101). -/
def decodeWords (t : Tid) (ws : List (BitVec 32)) : Option Instr :=
  match ws with
  | [w] => decodeGroup t [] w
  | [a, w] => (limmOf a).bind (fun x => decodeGroup t [x] w)
  | [a, b, w] => (limmOf a).bind (fun x => (limmOf b).bind (fun y => decodeGroup t [x, y] w))
  | _ => none

/-- The words are the next instruction's: LIMM words, at most two, and then one that is none, or a third. -/
def wholeGroup (ws : List (BitVec 32)) : Bool :=
  match ws with
  | [w] => wordOp w != 1
  | [a, w] => wordOp a == 1 && wordOp w != 1
  | [a, b, _] => wordOp a == 1 && wordOp b == 1
  | _ => false

/-- The words at the PCC raise 0x01 before any instruction is formed: no instruction defines the encoding (R100, R101). -/
def wordsIllegal (ws : List (BitVec 32)) : Bool := wholeGroup ws && (decodeWords 0 ws).isNone

end Sys2Proof
end

