-- ==== Sys2Proof/Machine/State.lean ====
section
/-! DEFINITION. The state of the block: every register, queue, buffer, mode and pin the spec gives it, as plain data. -/

namespace Sys2Proof.Machine

/-- A bit range hi:lo of a 64-bit word (R5). -/
structure Fld where
  hi : Nat
  lo : Nat
deriving DecidableEq, Repr

/-- Who may write a register (R22, R141 and the chapter that gives it): `none` for words only hardware writes. -/
inductive RegOwner where
  | open_ | baseCamp | baseCampOrTrusted | trusted | none
deriving DecidableEq, Repr

/-- One register, or array of registers, of a block: its offset, the strides and counts of its array, its reset value, and the
masks of the bits that each access code of R7 covers; `lock` is the bit that locks the RWL bits. -/
structure RegRow where
  off   : Nat
  dims  : List (Nat × Nat)
  reset : Nat
  rw    : Nat
  w1c   : Nat
  w1s   : Nat
  wo    : Nat
  rwl   : Nat
  lock  : Option Nat
  owner : RegOwner
  fuse  : Nat               -- the bits whose reset value fuses hold (R8, R493)
  named : Nat               -- the bits of its fields: the others are reserved (R9)
deriving DecidableEq, Repr

/-- A regulated handshake domain: sheaves 0 to 23, field fabrics 24 to 27, engine stops 28 to 31 (R36, R48, R58). -/
structure Dom where
  paused   : Bool              -- a droop pause (R36)
  stopped  : Bool              -- a soft stop (R62, R63)
  powered  : Bool              -- its load has ramped up (R58, R491)
  mv       : Nat               -- regulator output, mV
  setMv    : Nat               -- its set point, mV
  lastStep : Nat               -- when it last moved a step
  droops   : Nat               -- droop pauses, for the domains whose count no register of the map holds
  share    : Nat               -- slew share in 0.1 A/µs of a field fabric or an engine stop (R58)
  window   : Nat               -- start of the present 100 µs power window (R53)
  floorLow : Bool              -- the condition of floor_unmet, as last evaluated (R54)
  paceLow  : Bool              -- the condition of target_unmet, as last evaluated
  capLow   : Bool              -- a power cap below the power at vmin_code, as last evaluated (R57)
  want     : Nat               -- the VIN_CORE current the domain's logic would draw, mA (R59)
  drawn    : Nat               -- what it drew at `loadAt`, ballast included, mA
  loadAt   : Nat
  thinned  : Bool              -- its redundant regulator phase is shut off, or was never fitted (R1, R481)
  burnt    : Nat               -- what its ballast has drawn in the present power window, up to `loadAt`, mA·ns (R53, R59)
  wasMv    : Nat               -- its set point before the soft stop, mV (R62)
  wasWant  : Nat               -- its load before the soft stop, mA (R62)
deriving DecidableEq, Repr

/-- The timebase beyond its registers (R40 to R44). -/
structure TimeBase where
  counting : Bool
  okSince  : Nat × Nat         -- since when REFCLK_A and REFCLK_B have been within limits without a break
  acc      : Nat               -- progress towards the next 32.768 kHz tick of the real-time counter, in units of 1/32,768,000,000,000 s
deriving DecidableEq, Repr

def Dom.init : Dom where
  paused := false
  stopped := false
  powered := false
  mv := 0
  setMv := 0
  lastStep := 0
  droops := 0
  share := 0
  window := 0
  floorLow := false
  paceLow := false
  capLow := false
  want := 0
  drawn := 0
  loadAt := 0
  thinned := false
  burnt := 0
  wasMv := 0
  wasWant := 0

def TimeBase.init : TimeBase where
  counting := false
  okSince := (0, 0)
  acc := 0

/-- A general register: 128 data bits and a tag (R67). -/
structure GReg where
  data : Quad
  tag  : Bool
deriving DecidableEq, Repr

/-- Where a thread stands between its instructions. -/
inductive RunState where
  | unstarted   -- never started (R89, R501)
  | running
  | waiting     -- suspended by WAIT (R107)
  | stopped     -- fault entry could not complete (R163)
  | halted      -- stopped by base camp when the device is reported failed (R258), or by a reset of its core (R503)
deriving DecidableEq, Repr

/-- A precise fault an instruction has raised and fault entry has not yet taken (R152 to R158). -/
structure FaultInfo where
  cause  : Nat
  detail : Word
  report : Word                -- cursor of the instruction
  acc    : Option Word         -- access address, where the cause has one
  cap    : GReg                -- capability the access or transfer used
  words  : List (BitVec 32)    -- the instruction's words
  noTgt  : Option Nat          -- the address whose no-target response the fault reports, where R18 has it recorded
deriving DecidableEq, Repr

/-- An outstanding arithmetic exception (R165, R166). -/
structure ArithExc where
  cause : Nat
  orig  : Word                 -- originating address
  known : Bool                 -- clear after a fall moved the thread (R170)
  age   : Nat                  -- instructions retired since the originating one
deriving DecidableEq, Repr

/-- A register an instruction writes: a window or global register by its place, or a vector register. -/
inductive Dest where
  | general (place : Nat)
  | vector (n : Nat)
deriving DecidableEq, Repr

/-- A long operation whose result later instructions have overtaken (R169). -/
structure LongOp where
  dest  : Dest
  gval  : GReg
  vval  : Vec
  excs  : List ArithExc
  flags : Word                 -- sticky TSTATUS bits the operation sets
deriving DecidableEq, Repr

/-- What a store-queue entry does when it leaves the core (R191, R247). -/
inductive SqKind where
  | data | clean | flush | zero
deriving DecidableEq, Repr

/-- A retired store or CMO that has not yet left the core (R191, R274). -/
structure StoreEnt where
  kind  : SqKind
  pa    : Nat                  -- physical address of its first byte
  bytes : List Byte
  tag   : Option Bool          -- for a 16-byte capability store, the tag it writes; otherwise every granule's tag is cleared
  world : Bool                 -- made through a capability carrying WORLD
  epoch : Nat                  -- stores of a later epoch wait for those of earlier ones (R116: REL, SS)
  rel   : Bool                 -- a STREL, ordered before a later LDA (R275)
  cached : Bool                -- its page may be cached (R229)
  se    : Option Nat           -- its SE page (R278)
deriving DecidableEq, Repr

/-- An interrupt message on its way to the router (R171). -/
structure IrqMsg where
  thread : Nat                 -- virtual thread number as addressed
  vector : Nat
  source : Nat                 -- unit ID of the sender
deriving DecidableEq, Repr

/-- A state message on its way to base camp (R27). -/
structure StateMsg where
  unit : Nat
  word : Word
  time : Nat
deriving DecidableEq, Repr

/-- Register g0's value, and the default of every register that nothing has written (R69, notes/assumptions/2.md). -/
def GReg.zero : GReg where
  data := 0
  tag := false

/-- The states of a cached copy other than invalid (R260). -/
inductive Moesi where
  | m | o | e | s
deriving DecidableEq, Repr

/-- Which private structure of a core holds a line (R240, R243, R244). -/
inductive CPlace where
  | l2 | evict | sent | side
deriving DecidableEq, Repr

/-- A line in a core's private caches; an L2 line may be in the L1s as well, in the ways named (R240, R241). An eviction entry is
`sent` once its write-back has left and until the home acknowledges it (R243). -/
structure CLine where
  st    : Moesi
  place : CPlace
  way   : Nat                  -- of the L2
  l1i   : Option Nat
  l1d   : Option Nat
  order : Nat                  -- of entry into a buffer
deriving DecidableEq, Repr

/-- A line in an L3 slice (R240, R241). -/
structure L3Line where
  dirty : Bool
  way   : Nat
deriving DecidableEq, Repr

/-- What a core asked its home for (R262, R263). -/
inductive Miss where
  | read | fetch | prefetch | own | upgrade
deriving DecidableEq, Repr

/-- The predictor state of a thread that outlives an instruction (R182). -/
structure Pred where
  hist   : List Bool           -- at most 640 branch outcomes, newest first
  slots  : SMap Word           -- the return stack, a ring
  top    : Nat                 -- the slot of its newest entry
  depth  : Nat
deriving DecidableEq, Repr

def Pred.init : Pred where
  hist := []
  slots := []
  top := 0
  depth := 0

/-- An entry of the direction predictor: what a branch did under a path history (R182), tagged with its thread (R186). -/
structure DirPred where
  thread : Nat
  pc     : Word
  hist   : List Bool
  taken  : Bool
deriving DecidableEq, Repr

/-- An entry of the target buffer or of the next-block predictor: where a thread went from an address (R182, R186). -/
structure NextPred where
  thread : Nat
  pc     : Word
  next   : Word
deriving DecidableEq, Repr

/-- A TLB entry: one page, both stages combined (R232). -/
structure TlbEnt where
  vmid  : Nat
  asid  : Nat
  glob  : Bool
  base  : Nat                  -- first input address
  size  : Nat                  -- log2 of the page size, the smaller of the two stages'
  pa    : Nat
  ipa   : Nat                  -- first address of the second-stage page
  isize : Nat                  -- log2 of the second-stage page
  leaf1 : Word                 -- the leaves as read; with a stage off, one that permits all (R221)
  leaf2 : Word
  at1   : Option Nat           -- physical address of the first-stage leaf
  at2   : Option Nat
  w12   : Bool                 -- the second stage lets the page of the first-stage leaf be written (R230)
  l12   : Nat                  -- the level of the second-stage leaf that maps that page
deriving DecidableEq, Repr

/-- A walk-cache entry: a table entry and the input addresses it serves (R228). -/
structure WalkEnt where
  vmid   : Nat
  asid   : Nat
  stage2 : Bool
  level  : Nat
  region : Nat                 -- input address above the bits this level resolves
  entry  : Word
deriving DecidableEq, Repr

/-- Who a request to a host was made for (R342, R343). -/
inductive ReqFor where
  | core (t : Tid)             -- a core load, atomic or fetch on the host aperture
  | fill (t : Tid)             -- a granule of a window fill (R84)
  | desc (g slot : Nat)        -- data of the descriptor in submission slot `slot` of channel g
  | fetch (g slot : Nat)       -- the descriptor in that slot itself (R366)
  | image (i : Nat)            -- the migration image of instance i (R413)
  | poll (g : Nat)             -- the polled doorbell word of channel g (R365)
deriving DecidableEq, Repr

/-- An atomic that a host carries out, on 8 or 16 bytes: a PCIe AtomicOp (R115). -/
inductive HostAtom where
  | op (op : AmoOp) (n v : Nat)
  | cas (n expect new : Nat)
deriving DecidableEq, Repr

/-- A non-posted request of a host port (R343, R344). -/
structure HostReq where
  tag    : Option Nat          -- none while it waits for a tag
  inst   : Nat
  for_   : ReqFor
  addr   : Nat
  len    : Nat
  since  : Nat                 -- when it was sent, or began to wait for a tag
  limit  : Nat                 -- timeout_us in force when it was sent (R353)
  got    : List Byte           -- data of the completions that have arrived
  endAs  : Option Nat          -- the status it will end with whatever arrives (R347)
  dropped : Bool               -- its descriptor has ended; data is discarded and the tag freed (R375)
  atom   : Option HostAtom     -- an AtomicOp; otherwise a read
deriving DecidableEq, Repr

/-- A tag in quarantine, or released at its second limit, with the request that expired (R345). -/
structure QTag where
  tag  : Nat
  till : Nat
  addr : Nat
  len  : Nat
deriving DecidableEq, Repr

/-- An MSI-X table entry (R355). -/
structure MsixEnt where
  addr : Word
  data : BitVec 32
  mask : Bool
deriving DecidableEq, Repr

/-- The configuration space of one function and its MSI-X state (R337 to R339, R355). -/
structure Fn where
  bme     : Bool               -- Bus Master Enable
  ro      : Bool               -- Enable Relaxed Ordering
  d3hot   : Bool
  fmask   : Bool               -- MSI-X Function Mask
  msixEn  : Bool
  mps     : Nat                -- Max Payload Size
  mrrs    : Nat                -- Max Read Request Size
  table   : SMap MsixEnt
  pba     : SMap Bool
  aer     : Nat                -- AER error bits the port has recorded: 1 completion timeout, 2 unexpected completion, 4 malformed, 8 unsupported request, 16 fatal or non-fatal, 32 Completer Abort
  resetting : Bool             -- configuration reads return reset values during a function-level reset
deriving DecidableEq, Repr

/-- The tag values a port may use (R337). -/
inductive TagMode where
  | flit | ten | eight
deriving DecidableEq, Repr

/-- What the port keeps for an instance beyond its registers (chapter 17). -/
structure Inst where
  filter  : List Nat           -- pages logged last, newest first, at most 64 (R410)
  wphase  : Bool               -- phase of the write log's present pass
  bytes   : Nat                -- bytes sent for it in the present window (R400)
  wanted  : Bool               -- it had a startable descriptor in the present window
  low     : Bool               -- in the last window it wanted service and received less than its share
  rank1   : Bool               -- rank 1 of R376 has served it in the present window
  frozenAt : Nat               -- when its freeze ended (R411)
  imgWaits : Nat               -- reads of its migration image outstanding, and which part: 1 the header, 2 the records
  imgPart : Nat
  imgBad  : Bool
deriving DecidableEq, Repr

/-- What a function of a host port reports of itself in its configuration space (R338). -/
structure FnId where
  vendor    : Nat
  device    : Nat
  classCode : Nat
  revision  : Nat
  subsys    : Nat
deriving DecidableEq, Repr

/-- A request the port has sent to its host (R342, R343): a memory write of at most Max Payload Size, or a non-posted request with its
tag. `inst` is the instance whose requester ID it carries; `ro` its Relaxed Ordering. -/
structure Tlp where
  write : Bool
  inst  : Nat
  addr  : Nat
  len   : Nat
  ro    : Bool
  tag   : Option Nat
deriving DecidableEq, Repr

/-- A host port's own state (chapter 14): what its registers do not hold. -/
structure Port where
  numVfs    : Nat
  vfEnable  : Bool
  share     : Nat              -- n of R339
  tagMode   : TagMode
  fns       : SMap Fn
  reqs      : List HostReq     -- outstanding and waiting, oldest first
  quar      : List QTag
  spent     : List QTag        -- tags released at the second limit of R345
  progress  : Nat              -- when the outbound queue last made progress
  cfgReady  : Bool             -- configuration space answers (R350)
  ident     : Option FnId      -- what PF 0 reports, once configuration space answers (R338)
  perst     : Bool             -- HP_PERST_Np asserted
  autoArmed : Bool             -- a freeze of cause 2 or 3 has not yet seen the data-link layer come up (R353)
  busy      : SMap Bool        -- instances a function-level reset runs on (R348)
  insts     : SMap Inst
  winAt     : Nat              -- start of the present 100 µs window (R400)
  sent      : List (Nat × Word × BitVec 32)  -- MSI-X messages sent: instance, address and data of one table write (R355)
  tlps      : List Tlp         -- requests sent to the host, oldest first (R342, R343)
deriving DecidableEq, Repr

/-- What a host answered to a core's aperture request, kept for the access that asked (R192, R202, R346). -/
inductive HostAns where
  | data (bytes : List Byte)
  | error (status : Nat)
  | poison
  | lost (dest : Nat)             -- the request was abandoned (R296)
deriving DecidableEq, Repr

def Fn.init : Fn where
  bme := false
  ro := false
  d3hot := false
  fmask := false
  msixEn := false
  mps := 128
  mrrs := 512
  table := []
  pba := []
  aer := 0
  resetting := false

def Inst.init : Inst where
  filter := []
  wphase := true
  bytes := 0
  wanted := false
  low := false
  rank1 := false
  frozenAt := 0
  imgWaits := 0
  imgPart := 0
  imgBad := false

def MsixEnt.init : MsixEnt where
  addr := 0
  data := 0
  mask := true

def Port.init : Port where
  numVfs := 0
  vfEnable := false
  share := 1
  tagMode := .ten
  fns := []
  reqs := []
  quar := []
  spent := []
  progress := 0
  cfgReady := false
  ident := none
  perst := true
  autoArmed := false
  busy := []
  insts := []
  winAt := 0
  sent := []
  tlps := []

/-- A hardware thread, by its virtual number: the architected state of R66 and what the core holds for it. -/
structure Thread where
  run      : RunState
  deadline : Option Nat        -- timebase deadline of a WAIT
  regs     : SMap GReg         -- globals at 0-7; e_i of slot n at 16 + 16 n + i, l_i at 24 + 16 n + i
  vregs    : SMap Vec
  pcc      : GReg
  wstack   : GReg
  fstack   : GReg
  fgate    : GReg
  gatetab  : GReg
  wstate   : Word
  tctrl    : Word
  tstatus  : Word
  fault    : Option FaultInfo  -- raised, not yet taken
  excs     : List ArithExc     -- outstanding, oldest first
  longOps  : List LongOp
  stores   : List StoreEnt     -- the store queue, oldest first
  epoch    : Nat
  clearing : Bool              -- a bulk clear is under way and fetch waits for it (R184)
  retired  : Nat               -- instructions retired since the thread started
  hostWait : Option Nat        -- the port a load or atomic waits on for its completion (R344)
  replay   : List HostAns      -- the answers kept for the accesses of the instruction when it executes again (R202)
  lastPc   : Word              -- cursor of the last instruction retired, the report address of R165
  lastWords : List (BitVec 32) -- its words
  fetchAns : List HostAns      -- the answers to the fetch of its words, where they stand in a host aperture
  inFetch  : Bool              -- the request it waits on is of its fetch
  heldX    : List TlbEnt       -- the translations its requests went through, which it uses when it executes again (R237)
  fillAns  : List HostAns      -- the answers to the reads of a window fill under way (R84)
  fillWait : Option Nat        -- the port that fill waits on
  inFill   : Bool              -- the accesses being made are of a window fill
  inFlight : Bool              -- a clear began with the next instruction fetched already (R184, R195)
  tlbiWide : Bool              -- a broadcast TLBI has had no SYNC since (R234)
  rootReq  : List (Bool × Word)  -- root writes of other requesters, the second root's marked, that wait for its boundary (R222)
  pred     : Pred              -- predictor state (R182)
deriving DecidableEq, Repr

def Thread.init : Thread where
  run := .unstarted
  deadline := none
  regs := []
  vregs := []
  pcc := GReg.zero
  wstack := GReg.zero
  fstack := GReg.zero
  fgate := GReg.zero
  gatetab := GReg.zero
  wstate := 0x10
  tctrl := 0
  tstatus := 0
  fault := none
  excs := []
  longOps := []
  stores := []
  epoch := 0
  clearing := false
  retired := 0
  hostWait := none
  replay := []
  lastPc := 0
  lastWords := []
  fetchAns := []
  inFetch := false
  heldX := []
  fillAns := []
  fillWait := none
  inFill := false
  inFlight := false
  tlbiWide := false
  rootReq := []
  pred := Pred.init

/-- A core's own state: caches, translation caches, checking and sparing (chapters 7 to 10). -/
structure Core where
  itlb     : List TlbEnt       -- the L1s (R232)
  dtlb     : List TlbEnt
  tlb      : List TlbEnt       -- the L2
  walks    : List WalkEnt
  lines    : SMap CLine        -- by line number
  misses   : SMap Miss         -- requests outstanding at a home
  filled   : Nat               -- lines that have entered a buffer so far (R240: in order of entry)
  lost     : SMap Nat          -- lines whose last request was abandoned, and the destination it named (R296), until an access meets it
  spoiled  : List Nat          -- scratch lines whose request under way ended with poison (R253), until an access meets them
  dirs     : List DirPred      -- newest first (R182)
  targets  : List NextPred
  blocks   : List NextPred
  pages    : List (Nat × Bool) -- 4 KiB pages the prefetchers have trained on, and whether through WORLD (R194, R437)
  clearEnd : Nat               -- when the bulk clear under way completes (R184)
  shift    : Nat               -- k of R200
  rot      : Nat               -- the unit rotation (R199)
  mism     : List (Tid × Nat × Word)  -- the instructions that mismatched and are to be replayed: thread, entries taken since and not returned from, address (R206)
  inject   : Nat               -- mismatches still to inject (R208)
  slips    : List Nat          -- times of slips and counted errors, newest first (R207, R217)
deriving DecidableEq, Repr

def Core.init : Core where
  itlb := []
  dtlb := []
  tlb := []
  walks := []
  lines := []
  misses := []
  filled := 0
  lost := []
  spoiled := []
  dirs := []
  targets := []
  blocks := []
  pages := []
  clearEnd := 0
  shift := 1
  rot := 0
  mism := []
  inject := 0
  slips := []

/-- A sparing sequence under way (R209 to R211). -/
structure Sparing where
  core     : Nat               -- the failed core
  vcore    : Nat
  cause    : Nat               -- of the state word: 0x04, 0x05, or 0x01 for a management drain
  since    : Nat               -- timebase count at the fall
  inject   : Bool
  company  : Nat               -- sequences under way at its start, itself included
  spare    : Option Nat
  raised   : Bool
  captured : Bool
  flushed  : Bool
  loaded   : Bool
  rebound  : Bool
deriving DecidableEq, Repr

/-- A slice retirement under way (R255 to R257). -/
structure Retire where
  slice  : Nat
  homes  : List (Nat × Nat)    -- map entry and its new home
  since  : Nat
  drain  : Bool
  moved  : Bool                -- step 3 has ended
  mapped : Bool                -- step 4 has ended
  noticed : Bool               -- the hold notice has gone out with a route commit (R257)
deriving DecidableEq, Repr

/-- The home's view of a line (R261). -/
inductive DirView where
  | none | shared | owned | exclusive
deriving DecidableEq, Repr

structure DirEnt where
  view    : DirView
  owner   : Nat                -- core number
  sharers : List Nat           -- tile indices, rising
  bcast   : Bool
deriving DecidableEq, Repr

/-- Who sends a request to a home (R262, R268, R270). -/
inductive Party where
  | core (k : Nat)
  | engine (u : Nat)
  | host (p : Nat)
  | baseCamp
  | migration (c : Nat)
  | gleaner (c : Nat)
  | trace
deriving DecidableEq, Repr

/-- What a placement hint names (R268). -/
inductive Hint where
  | thread (t : Nat)
  | tile (i : Nat)
deriving DecidableEq, Repr

/-- A request at a home (R262). `recall` is the home's own, for the victim of a full directory set (R261); `coreAtom` is a core's
atomic, at the home or at the controller, with whether it writes and the tag written, its result being the request's bytes (R271). -/
inductive ReqKind where
  | rdS | rdO | upg | rdOnce | wb | notice | recall
  | wrLine (hint : Option Hint)
  | wrPart (off : Nat)
  | atom (op : HomeAtomic) (off n : Nat)
  | coreAtom (home : Bool) (off : Nat) (wr tag : Bool)
deriving DecidableEq, Repr

structure HomeReq where
  kind  : ReqKind
  who   : Party
  line  : Nat
  bytes : List Byte
deriving DecidableEq, Repr

/-- How far a transaction is: waiting for a directory way that the victim at `line` holds (R261), for snoops and memory, for the buddy
once its entry has changed (R265), or for the target of a hinted line (R268). -/
inductive TxnStage where
  | room (line : Nat)
  | gather | settled | offer
deriving DecidableEq, Repr

/-- The one transaction a home runs on a line (R264). -/
structure Txn where
  req    : HomeReq
  waits  : List Nat            -- snooped cores or tiles still to answer
  memory : Bool                -- it waits for memory
  buddy  : Bool                -- it waits for the buddy
  data   : Bool                -- an owner has given its data
  dirty  : Bool                -- and memory has not got them
  fill   : Bool                -- the data came from memory
  stage  : TxnStage
deriving DecidableEq, Repr

/-- Messages of plane FWD (R262). -/
inductive FwdKind where
  | snpS | snpO | snpInv | stash | dupUpd
deriving DecidableEq, Repr

structure Fwd where
  kind   : FwdKind
  line   : Nat
  target : Nat                 -- a core for SnpS, SnpO and Stash, a tile for SnpInv, a slice for DupUpd
  ent    : Option DirEnt       -- the entry of a DupUpd
  posted : Bool                -- the home does not wait for the answer (R265)
deriving DecidableEq, Repr

/-- Messages of plane RSP (R262). -/
inductive RspKind where
  | data | ack | nack | stale | retry | noTarget
deriving DecidableEq, Repr

structure Rsp where
  kind  : RspKind
  line  : Nat
  src   : Nat                  -- who answers: a core, tile or slice, as the message it answers names it
  home  : Bool                 -- it goes to the home; otherwise to the requester
  who   : Party                -- the requester
  grant : Option Moesi
  what  : ReqKind
  refusal : Bool               -- a NoTarget that is a refusal of R150 (R18)
  bytes : List Byte            -- the data of a RdOnce or an atomic (R270, R271), or of the request that is to be sent again (R256)
  dirty : Bool                 -- an owner's data that memory has not got
  poison : Bool                -- the data are poison (R253)
deriving DecidableEq, Repr

/-- The planes of a link (R283). -/
inductive Plane where
  | req | fwd | rsp
deriving DecidableEq, Repr

/-- A packet in the fabric (R286): its header and payload, and the stop that holds it. -/
structure Packet where
  stop    : Nat
  msg     : Msg
  dest    : Nat
  src     : Nat
  attempt : Nat
  tag     : Nat
  io      : Bool               -- REQ class (R284)
  after   : Bool               -- on the after-dateline VC (R285)
  axis    : Option Bool        -- axis of its last hop: false along a row, true along a column
  inp     : Nat                -- the input that holds it: the code of the hop that brought it, 4 the local interface
  payload : List Byte
  orig    : Option (Nat × Nat) -- the source and tag of the request that a home passes on to a controller (R297)
  flying  : Bool               -- sent, and in the replay buffer of the link it takes until the receiver acknowledges it (R294)
  route   : Word
deriving DecidableEq, Repr

/-- A request that waits for its response (R296). -/
structure EReq where
  src     : Nat
  tag     : Nat
  dest    : Nat
  addr    : Nat
  attempt : Nat
  since   : Nat
  msg     : Msg
  payload : List Byte
  orig    : Option (Nat × Nat)
  line    : Option Nat         -- the line of a memory request, whose home is computed again at a retry
deriving DecidableEq, Repr

/-- A completer's record of a performed request (R297). -/
structure DoneRec where
  stop  : Nat
  src   : Nat
  tag   : Nat
  till  : Nat
  host  : Bool                 -- of a request to a host aperture
  resp  : Option (Msg × List Byte)  -- the response, once it has been sent
deriving DecidableEq, Repr

/-- What an alternative route set covers (R293). -/
inductive Loss where
  | link (stop dir : Nat)
  | stop (n : Nat)
deriving DecidableEq, Repr

/-- A route commit under way (R292): the changes, (source stop, destination stop, word). -/
structure Commit where
  changes : List (Nat × Nat × Word)
  since   : Nat
deriving DecidableEq, Repr

/-- The fabric beyond its registers (chapter 12). -/
structure Fabric where
  packets : List Packet
  reqs    : List EReq
  recs    : List DoneRec
  abandoned : List (Nat × Nat)   -- source and tag of abandoned requests
  late    : SMap Nat             -- late responses discarded, by stop (R296)
  commit  : Option Commit
  alts    : List (Loss × List (Nat × Nat × Word))
  altsOk  : Bool
  token   : SMap Nat             -- when a link last carried a flit or a token: key 4 × stop + direction
  replays : SMap Nat             -- consecutive replays of one flit, by link
  window  : SMap (List Nat)      -- times of a link's latest replays, newest first, at most 1,000 (R295)
  grants  : SMap Nat             -- the input each VC of an output granted last (R286)
  vcs     : SMap Nat             -- the VC each plane of an output granted last (R286)
  heldAt  : Option Nat           -- when the requesters' timers were suspended (R298)
  held    : List EReq            -- requests held at their sources (R256, R257)
deriving DecidableEq, Repr

def Fabric.init : Fabric where
  packets := []
  reqs := []
  recs := []
  abandoned := []
  late := []
  commit := none
  alts := []
  altsOk := false
  token := []
  replays := []
  window := []
  grants := []
  vcs := []
  heldAt := none
  held := []

/-- An entry of a memory controller queue (R314). -/
structure McReq where
  line   : Nat                 -- channel-local line
  pa     : Nat
  cls    : Nat                 -- 0 to 5
  since  : Nat
  rank   : Nat
  bank   : Nat                 -- rank, 3DS logical rank, bank group and bank together
  row    : Nat
  col    : Nat
  target : Nat                 -- its class target in ns, and software priority, as they stood at its admission (R315)
  pri    : Nat
  home   : Bool                -- the home waits for its data
deriving DecidableEq, Repr

/-- One subchannel (R314 to R318). -/
structure SubCh where
  reads  : List McReq
  writes : List McReq
  drain  : Bool
  rows   : SMap Nat            -- open row + 1 by bank
  hits   : SMap Nat            -- row hits issued while another request waited, by bank
  acts   : SMap Nat            -- activates by bank, as its module counts them (R318)
  nref   : List (Nat × Option Nat)  -- refresh management due: bank, and the row where the command names it (R318)
deriving DecidableEq, Repr

def SubCh.init : SubCh where
  reads := []
  writes := []
  drain := false
  rows := []
  hits := []
  acts := []
  nref := []

/-- A memory stop's own state (chapter 13). -/
structure Mc where
  sub0   : SubCh
  sub1   : SubCh
  owed   : SMap Nat            -- refreshes owed by rank (R317)
  hot    : SMap Bool           -- rank above 85 °C
  lastRef : SMap Nat           -- when a rank's last refresh came due
  heldTrain : List (Nat × Nat × Word)  -- active-set training writes held: rank, address, value (R319)
  freq   : Bool                -- a frequency change is under way (R320)
  rates  : SMap Nat            -- the data rate of each set, in 100 MT/s (R320)
  driftAt : Nat                -- when drift was last tracked (R319)
  ranks  : List Nat            -- the rank table: physical rank of each logical rank (R313)
  gone   : List Nat            -- physical ranks withdrawn
  errs   : List (Nat × Nat × Nat × Nat)  -- correctable errors: rank, device, line, time (R323)
  counts : SMap Nat            -- errors by rank × 256 + device, 255 where no device is named (R322, R330)
  partner : List Nat           -- physical ranks whose mirrored ranges the partner serves alone (R325)
  migrLeft : Nat               -- lines poisoned by the migration under way
  migrAt : Nat                 -- the migration's next local address (R324)
  glean  : Nat                 -- the gleaner's next local line
  gleanAt : Nat                -- when the gleaner last read (R327)
  passAt : Option Nat          -- when its pass began (R327)
  spareTested : Bool
  resilver : Option Nat        -- the copy from the partner: next line (R485)
  lastFail : Option Nat
  spareOf : List Nat           -- the rank kept as spare, while it is good
deriving DecidableEq, Repr

def Mc.init : Mc where
  sub0 := SubCh.init
  sub1 := SubCh.init
  owed := []
  hot := []
  lastRef := []
  heldTrain := []
  freq := false
  rates := []
  driftAt := 0
  ranks := [0, 1, 2, 3]
  gone := []
  errs := []
  counts := []
  partner := []
  migrLeft := 0
  migrAt := 0
  glean := 0
  gleanAt := 0
  passAt := none
  spareTested := false
  resilver := none
  lastFail := none
  spareOf := []

/-- The translation cache of an engine stop (R232). -/
structure XCache where
  tlb   : List TlbEnt
  walks : List WalkEnt
deriving DecidableEq, Repr

def XCache.init : XCache where
  tlb := []
  walks := []

/-- A descriptor of a channel that has been started, or flushed, and has not completed (R370). -/
structure Desc where
  slot    : Nat
  words   : List Word          -- its eight words, as read (R366)
  started : Nat                -- when it started (R375)
  flushed : Bool               -- it completes without execution (R367)
  unit    : Option Nat         -- the engine that runs it (R378)
  base    : Nat                -- the engine stop whose queues and engines its channel names (R358)
  status  : Option (Nat × Nat) -- once it has ended: status and result
  done    : Nat                -- bytes of the elements done (R380)
  acc     : Nat                -- remainder of a CRC so far
  list    : List (Nat × Nat)   -- its scatter-gather list once read: address and length (R382)
  stage   : Nat                -- reads made: 0 none, 1 asked, 2 all arrived; a key operation is computed at 3
  waits   : Nat                -- host reads outstanding for it
  bad     : Nat                -- the first status such a read ended with, 0 none
  endAs   : Option Nat         -- it ends with this status at its next element boundary (R367, R375)
  noEntry : Bool               -- its completion entry is not written (R377, R406)
  counted : Bool               -- a message that has counted in full_waits (R387)
  tries   : Nat                -- check mismatches of the present element or operation (R394)
  keys    : Option (List Byte × List Byte)  -- the slot keys read at the start, none where refused (R389, R449)
  outs    : List Byte          -- outputs a key operation holds back (R390)
  result  : Nat                -- result and status of a key operation at its end
  verdict : Nat
deriving DecidableEq, Repr

/-- The read of a submitted descriptor (R366). -/
inductive Fetch where
  | asked                      -- a host read is outstanding
  | ready (words : List Word)
  | failed (status : Nat)
deriving DecidableEq, Repr

/-- A channel as its serving engine stop holds it (chapter 15). -/
structure Chan where
  words    : List Word         -- the ten words 0x00 to 0x48 of its entry as last loaded (R363)
  state    : Nat               -- 0 off, 1 stopped, 2 running, 3 stopping, 4 halted
  cause    : Nat
  cmdSeq   : Nat
  subHead  : Nat
  cplTail  : Nat
  phase    : Bool
  lastErr  : Nat
  errors   : Nat
  completed : Nat
  subTail  : Nat               -- the doorbell slot's words (R364)
  cplHead  : Nat
  pollTail : Nat               -- the words of the polled doorbell as last read (R365)
  pollHead : Nat
  pollAt   : Nat               -- when the next poll falls due, and the interval
  pollEvery : Nat
  polling  : Bool              -- a host read of the polled word is outstanding
  flight   : List Desc         -- started and not completed, in ring order
  fetch    : List Fetch        -- the descriptors read from sub_head on
  flushTo  : Option Nat        -- a FLUSH completes descriptors up to this slot
  sinceIrq : Nat               -- entries written since the last interrupt, and when the first was (R371)
  firstAt  : Nat
  served   : Nat               -- when a descriptor of it last started
  turn     : Nat               -- descriptors left of its present turn
  order    : Nat               -- round-robin order of its last turn
  ranBefore : Bool             -- it was running before its instance stopped, or its stop failed (R406, R482)
  heldCmds : List (Nat × Bool) -- commands its stop holds while it passes no handshake, and whether their reserved bits are zero (R36, R62)
deriving DecidableEq, Repr

def Chan.init : Chan where
  words := []
  state := 0
  cause := 0
  cmdSeq := 0
  subHead := 0
  cplTail := 0
  phase := false
  lastErr := 0
  errors := 0
  completed := 0
  subTail := 0
  cplHead := 0
  pollTail := 0
  pollHead := 0
  pollAt := 0
  pollEvery := 100
  polling := false
  flight := []
  fetch := []
  flushTo := none
  sinceIrq := 0
  firstAt := 0
  served := 0
  turn := 0
  order := 0
  ranBefore := false
  heldCmds := []

/-- An entry of the forwarding database (R422, R425). -/
structure FdbEnt where
  port   : Nat
  static : Bool
  last   : Nat                 -- of its last learning
  flaps  : Nat
  flapAt : Nat
  locked : Bool
deriving DecidableEq, Repr

/-- A frame in the bridge, classified (R421): its octets from the destination address to the last before the FCS, without tag. -/
structure Frame where
  id     : Nat
  bytes  : List Byte
  vid    : Nat
  pcp    : Nat
  dei    : Bool
  tagged : Bool                -- it arrived with a tag
  inPort : Nat
  stop   : Nat                 -- the I/O stop whose frame buffer holds it
  since  : Nat                 -- when it was queued
  held   : Bool := false       -- a virtual port of a lossless priority has found no buffers for it (R429)
deriving DecidableEq, Repr

/-- A change the master sends to the replicas (R422): a key, and its entry or removal; `op` says that a command made it (R424). -/
structure FdbChange where
  key  : Nat
  ent  : Option FdbEnt
  op   : Bool
deriving DecidableEq, Repr

/-- An external port's own state (R419, R426, R431). -/
structure NetPort where
  stopped  : SMap Nat          -- until when each priority's queue is stopped
  counts   : List Nat          -- the present window's nine counts, in register order
  boundary : Nat               -- when the present window began
  xoff     : List Nat          -- priorities for which XOFF has been sent
  sent     : List (List Byte)  -- frames put on the wire, newest first
  control  : List (Nat × Bool) -- PFC and pause sent: priority and whether to stop, newest first
  holdAt   : Nat               -- when a down-hold ends
deriving DecidableEq, Repr

def NetPort.init : NetPort where
  stopped := []
  counts := []
  boundary := 0
  xoff := []
  sent := []
  control := []
  holdAt := 0

/-- The bridge (chapter 18): the master's table, the eight replicas, and the frames queued. -/
structure Bridge where
  fdb      : SMap FdbEnt       -- by vid × 2^48 + mac
  replicas : SMap (SMap FdbEnt)  -- the tables of the I/O stops
  changes  : SMap (List FdbChange)  -- not yet applied, at each I/O stop
  learns   : List (Nat × Nat)  -- learn messages: key, port
  vlans    : SMap Nat          -- the replicas' copies of VLAN entries, as 2,048-bit numbers
  queue    : List (Frame × Nat)  -- frames and the bridge port each waits for
  nextId   : Nat
  ports    : SMap NetPort
  lost     : Bool              -- ES 0 has left service and the master's table with it (R423)
deriving DecidableEq, Repr

def Bridge.init : Bridge where
  fdb := []
  replicas := []
  changes := []
  learns := []
  vlans := []
  queue := []
  nextId := 0
  ports := []
  lost := false

/-- A key engine's program store (R395). -/
structure Ucode where
  staged  : SMap Word          -- the staging window
  pending : Option (List Word)
  check   : Bool               -- a commit's hash runs
  active  : List Word          -- the program it runs, none of a commit's since reset
deriving DecidableEq, Repr

def Ucode.init : Ucode where
  staged := []
  pending := none
  check := false
  active := []

/-- A logbook record (R462). -/
structure LogRec where
  seq        : Nat
  time       : Nat
  unit       : Nat
  type       : Nat
  sev        : Nat
  injected   : Bool
  writer     : Nat
  lostBefore : Bool
  cause      : Nat
  p0         : Word
  p1         : Word
  p2         : Word
  p3         : Word
deriving DecidableEq, Repr

/-- The logbook and how far its copies have come (R461, R464, R465). -/
structure Logbook where
  records   : List LogRec      -- newest first, at most 16,384
  next      : Nat              -- sequence number of the next record
  ringNext  : Nat              -- next record to copy to the log ring
  flashNext : Nat              -- next record to append to the log flash region
  flash     : List LogRec      -- the log flash region, newest first
deriving DecidableEq, Repr

def Logbook.init : Logbook where
  records := []
  next := 0
  ringNext := 0
  flashNext := 0
  flash := []

/-- A configuration flash: its image, whether it reads well, and its withdrawal store, newest entry first: unit, withdraw or
reinstate, the serial-number CRC for a memory stop, and the record it answers (R474, R494). -/
structure Flash where
  image : Option Image
  reads : Bool
  store : List (Nat × Bool × Nat × Nat)
deriving DecidableEq, Repr

/-- What base camp answered on a management transport (R465 to R467, R473). -/
inductive Reply where
  | records (rs : List LogRec)
  | bytes (what : Nat) (bs : List Byte)   -- an answer whose content a DMTF specification defines; `what` names the request
  | value (v : Nat)
  | range (present lowest highest : Nat)  -- a sensor (R459)
  | stateWord (w : Word)
  | refused (w : Word)                    -- refused with the unit's present word (R473)
  | busy                                  -- an update is in progress (R468)
  | badType
  | done (outcome : Nat)
deriving DecidableEq, Repr

/-- A management core (R454 to R458). -/
inductive MgmtCore where
  | out | active | standby | restarting | fenced | withdrawn
deriving DecidableEq, Repr

/-- An update under way (R467 to R471). -/
inductive Update where
  | none
  | firmware (old : Image)             -- applied; the new core is within its 60 s (R469)
  | trusted (cls version since : Nat)  -- staged for the trusted world (R471)
deriving DecidableEq, Repr

/-- The instruction the test access port holds (R521). -/
inductive TapInstr where
  | bypass | idcode | sample | preload | extest | clamp | highz | extestPulse | extestTrain
deriving DecidableEq, Repr

/-- The boot path and the board (R475, R491 to R506). -/
structure Board where
  pwrgdStby : Bool
  pwrgdMain : Bool
  resetIn   : Bool             -- RESET_IN_N high
  pwrBrake  : Bool             -- PWR_BRAKE_N low
  bootSel   : Bool
  pwrEnMain : Bool
  thermTrip : Bool             -- THERM_TRIP_N low
  prsnt     : List Nat         -- ports with HP_PRSNT_Np low
  tap       : TapInstr
  tapOut    : Nat              -- what the selected data register captured
  boundary  : List Bool        -- the boundary register, and the values its update stage drives
  drives    : List Bool
  segs      : List Nat         -- IEEE 1687 segments open in the data path (R523)
  tapHold   : Bool             -- an instruction that drives contacts was loaded in time to hold start-up at S3 (R522)
  enSince   : Nat              -- when PWR_EN_MAIN rose
  stopped   : Bool             -- start-up has stopped (R498)
  fuseOwed  : Bool             -- a fuse failure base camp has not recorded yet (R493)
  powerOff  : Bool             -- a power-down request stands (R504)
  down      : Bool             -- a device reset or power-down has taken the device down; start-up has not begun again
  critical  : Bool             -- a package critical has stopped every domain (R63)
deriving DecidableEq, Repr

/-- Base camp's own state (chapters 20 to 22). -/
structure Mgmt where
  bcA        : MgmtCore
  bcB        : MgmtCore
  lastBeat   : Nat             -- of the active core (R456)
  fails      : List (Bool × Nat)  -- failures of management cores, true for BC-B, and their times (R458)
  flashA     : Flash
  flashB     : Flash
  running    : Option Image
  fromB      : Bool            -- the running image came from flash B
  loadedAt   : Nat             -- when the running image started (R496)
  update     : Update
  patch      : Nat             -- the core patch set in force, 0 for none (R470)
  patched    : List Nat        -- cores that still have to apply it
  appends    : List (Nat × Bool × Nat)  -- withdrawal-store entries to append: unit, withdraw, record seq
  outbox     : List (Transport × Reply)
  eids       : List (Transport × Nat)   -- MCTP endpoint IDs
  sensors    : SMap (Nat × Nat × Nat)   -- present, lowest, highest (R459)
  pldmSeen   : Nat             -- records from here on have not been read through PLDM (R475)
  versions   : SMap Nat        -- versions of trusted components applied, by class (R471)
  twOutcome  : Option Nat      -- what the trusted world has written of the component staged (R471)
  caps       : SMap Word       -- bc_power_cap values to restore after the brake (R460)
  failed     : Bool            -- the device is reported failed (R258)
  degraded   : Bool            -- base camp reports the device as degraded (R3, R57)
  mirrorBroken : List Nat      -- channels out of their mirror (R322, R485)
  restartAt  : SMap Nat        -- last restart of a channel (R484)
  engRestart : List Nat        -- engines restarted once (R484)
  seenProtected : Bool         -- mode has read 2 since the device reset (R544)
  lostRows   : Nat             -- rows of R1 that have stopped holding and hold not again, as a mask (R3)
  allowance  : Nat             -- base camp's allowance for the domains that are no sheaf, 0.125 W (R56, R460)
  nonce      : Option (List Byte)       -- debug nonce outstanding (R524)
  tokenEnd   : Option Nat      -- when the debug enables end (R525)
  wayErrs    : List (Nat × Nat × Nat × Nat)  -- correctable errors: unit, array, way, time (R248, R249)
  wayOffs    : List (Nat × Nat × Nat)  -- way error thresholds met: unit, array, time (R249)
  nextVcore  : Nat             -- lowest virtual core number never assigned (R28)
  reserved   : List Nat        -- spares reserved by running sequences (R210)
deriving DecidableEq, Repr

def Mgmt.init : Mgmt where
  bcA := .out
  bcB := .out
  lastBeat := 0
  fails := []
  flashA := ⟨none, true, []⟩
  flashB := ⟨none, true, []⟩
  running := none
  fromB := false
  loadedAt := 0
  update := .none
  patch := 0
  patched := []
  appends := []
  outbox := []
  eids := []
  sensors := []
  pldmSeen := 0
  versions := []
  twOutcome := none
  caps := []
  failed := false
  degraded := false
  mirrorBroken := []
  restartAt := []
  engRestart := []
  seenProtected := false
  lostRows := 0
  allowance := 0
  nonce := none
  tokenEnd := none
  wayErrs := []
  wayOffs := []
  nextVcore := 0
  reserved := []

def Board.init : Board where
  pwrgdStby := false
  pwrgdMain := false
  resetIn := true
  pwrBrake := false
  bootSel := true
  pwrEnMain := false
  thermTrip := false
  prsnt := []
  tap := .bypass
  tapOut := 0
  boundary := []
  drives := []
  segs := []
  tapHold := false
  enSince := 0
  stopped := false
  fuseOwed := false
  powerOff := false
  down := false
  critical := false

/-- A vault slot: its type, usage bits and key (R448, R449). -/
structure Slot where
  type  : Nat
  usage : Nat
  key   : List Byte
deriving DecidableEq, Repr

/-- A record of the measurement log (R447). -/
structure MeasRec where
  k      : Nat
  event  : Nat
  time   : Nat
  digest : List Byte
deriving DecidableEq, Repr

/-- The vault beyond its registers (chapter 19). The sealed form of a slot lies in memory, at VLT_SLOT_BASE. -/
structure Vault where
  mkValid  : Bool              -- a master key is present
  gen      : Nat               -- table generation
  slots    : SMap Slot         -- of the present generation
  opened   : List Nat          -- slots whose keys the vault holds opened, newest first, at most 64 (R448)
  log      : List MeasRec      -- newest first, at most 1,024
  drbg     : Nat               -- reads of the DRBG so far
  busyTill : Nat               -- a slot operation runs until this time
  lastBeat : Nat               -- of the active trusted group (R444)
  sw       : Option (Nat × Bool)  -- the world switch under way: virtual core, to the trusted world (R436)
  active   : Bool              -- the trusted groups have started (R443)
  activeFailed : Bool          -- the active group has failed with no standby (R444)
  hold     : Nat               -- holdover capacitor, mV (R65)
  vbat     : Bool              -- VBAT present
  unlogged : Bool              -- a tamper response base camp has not recorded yet (R450)
deriving DecidableEq, Repr

def Vault.init : Vault where
  mkValid := false
  gen := 0
  slots := []
  opened := []
  log := []
  drbg := 0
  busyTill := 0
  lastBeat := 0
  sw := none
  active := false
  activeFailed := false
  hold := 3000
  vbat := true
  unlogged := false

def fusesNone : Fuses where
  ok := true
  values := []
  out := []
  shifts := []

/-- The faults a step may end in: none. A memory access to an address that does not exist is answered by the machine itself
(R18, R22), so no command stops the block. Safe: nothing is claimed of a stop that cannot happen. -/
inductive Fault where
  /-- Raised by no command: the block answers every access (R18, R22). Safe. -/
  | none
deriving DecidableEq, Repr

/-- Commands the block does not carry out. -/
inductive Refusal where
  /-- Answered by exec for a command that has no meaning in this model yet. Safe: no claim reaches past it. -/
  | notModelled (mnemonic : String)
deriving DecidableEq, Repr

/-- The state of the G9. -/
structure State where
  pending   : List Instr   -- commands waiting, first in first out
  time      : Nat   -- timebase count, ns (R40)
  tb        : TimeBase
  regs      : SMap Word   -- control space: registers away from their reset values (R19, R8)
  mem       : List Host.Cell   -- physical memory bytes (R16)
  tags      : SMap Bool   -- tag bits by granule (R134)
  poison    : SMap Bool   -- poisoned lines (R248)
  hostMem   : SMap Byte   -- host memory, by port and address (R379)
  threads   : SMap Thread   -- by virtual thread number
  cores     : SMap Core   -- by core number
  doms      : SMap Dom   -- regulated handshake domains
  ports     : SMap Port   -- host ports
  log       : Logbook
  irqMsgs   : List IrqMsg   -- interrupt messages on their way
  stateMsgs : List StateMsg   -- state messages on their way
  bcTable   : SMap StateMsg   -- base camp's unit table (R27)
  withdrawn : List Nat   -- the withdrawal list (R474)
  cxlLost   : SMap Bool   -- expansion links lost (R329)
  cxlUp     : SMap Bool   -- expansion links that have trained: those present (R328)
  mgmt      : Mgmt
  board     : Board   -- board signals and the boot path
  vault     : Vault
  fuses     : Fuses   -- (R493)
  dimms     : SMap Dimm   -- installed modules by channel (R303)
  dir       : SMap DirEnt   -- directories of the homes, by line (R261)
  dup       : SMap DirEnt   -- their duplicates (R265)
  l3        : SMap L3Line   -- lines in the L3 (R240, R241)
  txns      : SMap Txn   -- transactions under way, by line (R264)
  homeQ     : List HomeReq   -- requests waiting on a busy line, in admission order (R264)
  heldReqs  : List HomeReq   -- requests answered Retry or held at their sources, until the map names another home (R256, R257)
  fwd       : List Fwd   -- FWD messages in flight
  rsp       : List Rsp   -- RSP messages in flight
  sparings  : List Sparing   -- sparing sequences under way, then those waiting to start (R211)
  retires   : List Retire   -- slice retirements under way
  subCopy   : List Nat   -- homes copying their directory to a substitute buddy (R266)
  scratchNew : Option Nat   -- the scratch ways a change under way gives (R253)
  fabric    : Fabric
  mcs       : SMap Mc   -- memory stops by channel
  irqDiscards : Nat   -- messages the router discarded (R32)
  pmTrusted : SMap Bool   -- counter selections last written by a trusted-world thread, by address (R508)
  engXlat   : SMap XCache   -- translation caches of the engine stops (R232)
  chans     : SMap Chan   -- channels (chapter 15)
  sqOrder   : List (Nat × Nat × Nat)   -- messages under way in start order: queue 256 × stop + q, channel, slot (R386)
  ucode     : SMap Ucode   -- program stores of the key engines, by 2 × stop + engine
  bridge    : Bridge
  bw        : SMap Nat   -- present counts of the fixed counters (R514), by 256 × block + offset
  pmAt      : SMap Nat   -- when a counter block's present window began, by unit ID (R513)
deriving DecidableEq, Repr

/-- The machine right after a device reset: every register at its reset value, memory with nothing written, no command waiting. -/
def State.reset : State where
  pending := []
  time := 0
  tb := TimeBase.init
  regs := []
  mem := []
  tags := []
  poison := []
  hostMem := []
  threads := []
  cores := []
  doms := []
  ports := []
  log := Logbook.init
  irqMsgs := []
  stateMsgs := []
  bcTable := []
  withdrawn := []
  cxlLost := []
  cxlUp := []
  mgmt := Mgmt.init
  board := Board.init
  vault := Vault.init
  fuses := fusesNone
  dimms := []
  dir := []
  dup := []
  l3 := []
  txns := []
  homeQ := []
  heldReqs := []
  fwd := []
  rsp := []
  sparings := []
  retires := []
  subCopy := []
  scratchNew := none
  fabric := Fabric.init
  mcs := []
  irqDiscards := 0
  pmTrusted := []
  engXlat := []
  chans := []
  sqOrder := []
  ucode := []
  bridge := Bridge.init
  bw := []
  pmAt := []

end Sys2Proof.Machine
end

