-- ==== Sys2Proof/Machine/RegTable.lean ====
section
/-! DEFINITION. The registers of control space as the field maps of spec/ give them (R7, R19-R23): one field definition per field,
one address function per register, and one table that says, for every register, its reset value and which bits a write sets,
clears or ignores. A field whose reset the spec marks F or U is zero in the table (notes/assumptions/2.md). -/

namespace Sys2Proof.Machine

/-- Where the BAR0 registers of instance i of host port p stand in the register map: above the 36-bit control space, since a host reaches them and no control-space access does (R340). -/
def bar0Base (p i : Nat) : Nat := 0x1000000000 + (p * 64 + i) * 0x10000

def UnitState.unit_id : Fld := ⟨63, 48⟩
def UnitState.seq : Fld := ⟨47, 40⟩
def UnitState.cause : Fld := ⟨31, 24⟩
def UnitState.prev_state : Fld := ⟨19, 16⟩
def UnitState.state : Fld := ⟨3, 0⟩
/-- prefix_STATE — offset 0x0_0000 (R23): in the block whose unit ID is `u`. -/
def rUnitState (u : Nat) : Nat := u * 0x100000 + 0x0

def UnitStateTime.time_ns : Fld := ⟨63, 0⟩
/-- prefix_STATE_TIME — offset 0x0_0008 (R23): in the block whose unit ID is `u`. -/
def rUnitStateTime (u : Nat) : Nat := u * 0x100000 + 0x8

def BcVcoreMap.phys_unit : Fld := ⟨39, 24⟩
def BcVcoreMap.gen : Fld := ⟨23, 16⟩
def BcVcoreMap.world : Fld := ⟨3, 3⟩
def BcVcoreMap.solo : Fld := ⟨2, 2⟩
def BcVcoreMap.bound : Fld := ⟨1, 1⟩
def BcVcoreMap.valid : Fld := ⟨0, 0⟩
/-- BC_VCORE_MAP_n — offset 0x0_1000 + 8n (R30). -/
def rBcVcoreMap (i0 : Nat) : Nat := 0x3F1001000 + 8 * i0

def BcTbNow.count_ns : Fld := ⟨63, 0⟩
/-- BC_TB_NOW — offset 0x0_8000 (R43). -/
def rBcTbNow : Nat := 0xFF1008000

def BcTbStatus.switch_count : Fld := ⟨63, 32⟩
def BcTbStatus.slewing : Fld := ⟨5, 5⟩
def BcTbStatus.holdover : Fld := ⟨4, 4⟩
def BcTbStatus.lost_seen : Fld := ⟨3, 3⟩
def BcTbStatus.ref_b_ok : Fld := ⟨2, 2⟩
def BcTbStatus.ref_a_ok : Fld := ⟨1, 1⟩
def BcTbStatus.active : Fld := ⟨0, 0⟩
/-- BC_TB_STATUS — offset 0x0_8008 (R43). -/
def rBcTbStatus : Nat := 0xFF1008008

def BcTbCtrl.lock : Fld := ⟨8, 8⟩
def BcTbCtrl.revert : Fld := ⟨1, 1⟩
def BcTbCtrl.preferred : Fld := ⟨0, 0⟩
/-- BC_TB_CTRL — offset 0x0_8010 (R43). -/
def rBcTbCtrl : Nat := 0xFF1008010

def CorePaceReq.req_rate : Fld := ⟨9, 0⟩
/-- CORE_PACE_REQ — offset 0x0_0100 (R55): in the block whose unit ID is `u`. -/
def rCorePaceReq (u : Nat) : Nat := u * 0x100000 + 0x100

def ShfPacePolicy.gov_irq_thread_hi : Fld := ⟨57, 48⟩
def ShfPacePolicy.gov_irq_en : Fld := ⟨47, 47⟩
def ShfPacePolicy.gov_irq_vector : Fld := ⟨46, 41⟩
def ShfPacePolicy.eff_mode : Fld := ⟨40, 40⟩
def ShfPacePolicy.pace_cap : Fld := ⟨39, 30⟩
def ShfPacePolicy.pace_floor : Fld := ⟨29, 20⟩
def ShfPacePolicy.pace_target : Fld := ⟨19, 10⟩
/-- SHF_PACE_POLICY — offset 0x0_0100 (R55): in the block whose unit ID is `u`. -/
def rShfPacePolicy (u : Nat) : Nat := u * 0x100000 + 0x100

def ShfPowerCap.sw_power_cap : Fld := ⟨11, 0⟩
/-- SHF_POWER_CAP — offset 0x0_0108 (R55): in the block whose unit ID is `u`. -/
def rShfPowerCap (u : Nat) : Nat := u * 0x100000 + 0x108

def ShfBcLimits.slew_share : Fld := ⟨63, 56⟩
def ShfBcLimits.bc_power_cap : Fld := ⟨55, 44⟩
def ShfBcLimits.vmax_code : Fld := ⟨43, 37⟩
def ShfBcLimits.vmin_code : Fld := ⟨36, 30⟩
def ShfBcLimits.therm_throttle : Fld := ⟨29, 20⟩
def ShfBcLimits.eff_point : Fld := ⟨19, 10⟩
/-- SHF_BC_LIMITS — offset 0x0_0110 (R55): in the block whose unit ID is `u`. -/
def rShfBcLimits (u : Nat) : Nat := u * 0x100000 + 0x110

def ShfGovStatus.pace_now : Fld := ⟨63, 54⟩
def ShfGovStatus.vset_code : Fld := ⟨53, 47⟩
def ShfGovStatus.vnow_code : Fld := ⟨46, 40⟩
def ShfGovStatus.power_now : Fld := ⟨39, 28⟩
def ShfGovStatus.droop_count : Fld := ⟨27, 16⟩
def ShfGovStatus.soft_stopped : Fld := ⟨11, 11⟩
def ShfGovStatus.floor_unmet : Fld := ⟨10, 10⟩
def ShfGovStatus.target_unmet : Fld := ⟨9, 9⟩
def ShfGovStatus.limit : Fld := ⟨3, 0⟩
/-- SHF_GOV_STATUS — offset 0x0_0118 (R55): in the block whose unit ID is `u`. -/
def rShfGovStatus (u : Nat) : Nat := u * 0x100000 + 0x118

def ShfTherm.sensor_bad : Fld := ⟨63, 60⟩
def ShfTherm.t_max : Fld := ⟨59, 50⟩
def ShfTherm.t3 : Fld := ⟨49, 40⟩
def ShfTherm.t2 : Fld := ⟨39, 30⟩
def ShfTherm.t1 : Fld := ⟨29, 20⟩
def ShfTherm.t0 : Fld := ⟨19, 10⟩
/-- SHF_THERM — offset 0x0_0120 (R55): in the block whose unit ID is `u`. -/
def rShfTherm (u : Nat) : Nat := u * 0x100000 + 0x120

def Wstate.wcause : Fld := ⟨63, 56⟩
def Wstate.wfault : Fld := ⟨55, 54⟩
def Wstate.spill_blocked : Fld := ⟨53, 53⟩
def Wstate.linked : Fld := ⟨52, 52⟩
def Wstate.seg_frames : Fld := ⟨51, 32⟩
def Wstate.res : Fld := ⟨7, 4⟩
def Wstate.cwp : Fld := ⟨3, 0⟩

def Tctrl.fp_en : Fld := ⟨11, 7⟩
def Tctrl.rm : Fld := ⟨6, 5⟩
def Tctrl.ov_en : Fld := ⟨2, 2⟩
def Tctrl.dz_en : Fld := ⟨1, 1⟩
def Tctrl.precise_arith : Fld := ⟨0, 0⟩

def Tstatus.fp_flags : Fld := ⟨9, 5⟩
def Tstatus.nt : Fld := ⟨2, 2⟩
def Tstatus.ov : Fld := ⟨1, 1⟩
def Tstatus.dz : Fld := ⟨0, 0⟩

def Vtid.world : Fld := ⟨15, 15⟩
def Vtid.solo : Fld := ⟨14, 14⟩
def Vtid.vthread : Fld := ⟨8, 0⟩

def PxFeatures.px_major : Fld := ⟨55, 48⟩
def PxFeatures.px_minor : Fld := ⟨47, 40⟩
def PxFeatures.impl_step : Fld := ⟨39, 32⟩
def PxFeatures.nttpass : Fld := ⟨15, 15⟩
def PxFeatures.crc64 : Fld := ⟨14, 14⟩
def PxFeatures.crc32c : Fld := ⟨13, 13⟩
def PxFeatures.blk : Fld := ⟨12, 12⟩
def PxFeatures.vsha3 : Fld := ⟨11, 11⟩
def PxFeatures.vsha2 : Fld := ⟨10, 10⟩
def PxFeatures.vclmul : Fld := ⟨9, 9⟩
def PxFeatures.vaes : Fld := ⟨8, 8⟩
def PxFeatures.vmodma : Fld := ⟨7, 7⟩
def PxFeatures.am_bitrev : Fld := ⟨6, 6⟩
def PxFeatures.am_modulo : Fld := ⟨5, 5⟩
def PxFeatures.cas129 : Fld := ⟨4, 4⟩
def PxFeatures.fp64 : Fld := ⟨3, 3⟩
def PxFeatures.limm2 : Fld := ⟨2, 2⟩
def PxFeatures.px2 : Fld := ⟨1, 1⟩
def PxFeatures.valid : Fld := ⟨0, 0⟩

def Info.fmt : Fld := ⟨63, 56⟩
def Info.prev_pri : Fld := ⟨50, 46⟩
def Info.vector : Fld := ⟨45, 40⟩
def Info.orig_valid : Fld := ⟨33, 33⟩
def Info.acc_valid : Fld := ⟨32, 32⟩
def Info.kind : Fld := ⟨9, 8⟩
def Info.cause : Fld := ⟨7, 0⟩

def BcFaultSup.en : Fld := ⟨15, 15⟩
def BcFaultSup.thread : Fld := ⟨14, 6⟩
def BcFaultSup.vector : Fld := ⟨5, 0⟩
/-- BC_FAULT_SUP — offset 0x0_0800 (R164). -/
def rBcFaultSup : Nat := 0x3F1000800

def BcThreadStop.cause : Fld := ⟨63, 56⟩
def BcThreadStop.reason : Fld := ⟨55, 52⟩
def BcThreadStop.vector : Fld := ⟨51, 46⟩
def BcThreadStop.stopped : Fld := ⟨0, 0⟩
/-- BC_THREAD_STOP_t — offset 0x3_0000 + 0x40 × t + 0x20 (R164). -/
def rBcThreadStop (i0 : Nat) : Nat := 0x3F1030020 + 64 * i0

def BcThreadStopPc.pc : Fld := ⟨63, 0⟩
/-- BC_THREAD_STOP_PC_t — offset 0x3_0000 + 0x40 × t + 0x28 (R164). -/
def rBcThreadStopPc (i0 : Nat) : Nat := 0x3F1030028 + 64 * i0

def BcIrqPend.pend : Fld := ⟨63, 0⟩
/-- BC_IRQ_PEND_t — offset 0x3_0000 + 0x40 × t (R171). -/
def rBcIrqPend (i0 : Nat) : Nat := 0x3F1030000 + 64 * i0

def BcIrqEn.en : Fld := ⟨63, 0⟩
/-- BC_IRQ_EN_t — offset 0x3_0000 + 0x40 × t + 0x08 (R171). -/
def rBcIrqEn (i0 : Nat) : Nat := 0x3F1030008 + 64 * i0

def BcIrqCtrl.ie : Fld := ⟨5, 5⟩
def BcIrqCtrl.run_pri : Fld := ⟨4, 0⟩
/-- BC_IRQ_CTRL_t — offset 0x3_0000 + 0x40 × t + 0x10 (R171). -/
def rBcIrqCtrl (i0 : Nat) : Nat := 0x3F1030010 + 64 * i0

def BcIrqSend.vector : Fld := ⟨5, 0⟩
/-- BC_IRQ_SEND_t — offset 0x3_0000 + 0x40 × t + 0x18 (R171). -/
def rBcIrqSend (i0 : Nat) : Nat := 0x3F1030018 + 64 * i0

def BcPredCtrl.clear_count : Fld := ⟨47, 32⟩
def BcPredCtrl.no_indirect : Fld := ⟨3, 3⟩
def BcPredCtrl.clr_fault : Fld := ⟨2, 2⟩
def BcPredCtrl.clr_gates : Fld := ⟨1, 1⟩
def BcPredCtrl.clear : Fld := ⟨0, 0⟩
/-- BC_PRED_CTRL_t — offset 0x3_0000 + 0x40 × t + 0x30 (R185). -/
def rBcPredCtrl (i0 : Nat) : Nat := 0x3F1030030 + 64 * i0

def ShfCheckMode.lock : Fld := ⟨8, 8⟩
def ShfCheckMode.trusted : Fld := ⟨1, 1⟩
def ShfCheckMode.solo : Fld := ⟨0, 0⟩
/-- SHF_CHECK_MODE — offset 0x0_0200 (R196): in the block whose unit ID is `u`. -/
def rShfCheckMode (u : Nat) : Nat := u * 0x100000 + 0x200

def CoreCheckStatus.slip_count : Fld := ⟨63, 48⟩
def CoreCheckStatus.last_class : Fld := ⟨42, 40⟩
def CoreCheckStatus.replaying : Fld := ⟨1, 1⟩
def CoreCheckStatus.solo : Fld := ⟨0, 0⟩
/-- CORE_CHECK_STATUS — offset 0x0_0200 (R207): in the block whose unit ID is `u`. -/
def rCoreCheckStatus (u : Nat) : Nat := u * 0x100000 + 0x200

def CoreCheckLast.time_ns : Fld := ⟨63, 0⟩
/-- CORE_CHECK_LAST — offset 0x0_0208 (R207): in the block whose unit ID is `u`. -/
def rCoreCheckLast (u : Nat) : Nat := u * 0x100000 + 0x208

def CoreCheckInject.inject : Fld := ⟨2, 0⟩
/-- CORE_CHECK_INJECT — offset 0x0_0210 (R207): in the block whose unit ID is `u`. -/
def rCoreCheckInject (u : Nat) : Nat := u * 0x100000 + 0x210

def BcSlipLimit.window_ms : Fld := ⟨63, 32⟩
def BcSlipLimit.limit : Fld := ⟨15, 0⟩
/-- BC_SLIP_LIMIT — offset 0x0_0920, block 0x3F10 (R207). -/
def rBcSlipLimit : Nat := 0x3F1000920

def BcSpareNotify.en : Fld := ⟨15, 15⟩
def BcSpareNotify.thread : Fld := ⟨14, 6⟩
def BcSpareNotify.vector : Fld := ⟨5, 0⟩
/-- BC_SPARE_NOTIFY — offset 0x0_0910, block 0x3F10 (R213). -/
def rBcSpareNotify : Nat := 0x3F1000910

def BcWithdrawNotify.en : Fld := ⟨15, 15⟩
def BcWithdrawNotify.thread : Fld := ⟨14, 6⟩
def BcWithdrawNotify.vector : Fld := ⟨5, 0⟩
/-- BC_WITHDRAW_NOTIFY — offset 0x0_0918, block 0x3F10 (R213). -/
def rBcWithdrawNotify : Nat := 0x3F1000918

def BcSpareCfg.lock : Fld := ⟨8, 8⟩
def BcSpareCfg.f3_tiles : Fld := ⟨7, 6⟩
def BcSpareCfg.f2_tiles : Fld := ⟨5, 4⟩
def BcSpareCfg.f1_tiles : Fld := ⟨3, 2⟩
def BcSpareCfg.f0_tiles : Fld := ⟨1, 0⟩
/-- BC_SPARE_CFG — offset 0x0_0900, block 0x3F10 (R214). -/
def rBcSpareCfg : Nat := 0x3F1000900

def BcSpareStatus.bivouac_cores : Fld := ⟨63, 56⟩
def BcSpareStatus.sparings : Fld := ⟨55, 48⟩
def BcSpareStatus.no_spare : Fld := ⟨47, 40⟩
def BcSpareStatus.in_progress : Fld := ⟨34, 32⟩
/-- BC_SPARE_STATUS — offset 0x0_0908, block 0x3F10 (R214). -/
def rBcSpareStatus : Nat := 0x3F1000908

def BcXlatRoot1.asid : Fld := ⟨63, 48⟩
def BcXlatRoot1.node : Fld := ⟨47, 8⟩
def BcXlatRoot1.top : Fld := ⟨1, 1⟩
def BcXlatRoot1.en : Fld := ⟨0, 0⟩
/-- BC_XLAT_ROOT1_t — offset 0x5_0000 + 0x20 × t (R220). -/
def rBcXlatRoot1 (i0 : Nat) : Nat := 0x3F1050000 + 32 * i0

def BcXlatRoot2.vmid : Fld := ⟨63, 48⟩
def BcXlatRoot2.node : Fld := ⟨47, 8⟩
def BcXlatRoot2.top : Fld := ⟨1, 1⟩
def BcXlatRoot2.en : Fld := ⟨0, 0⟩
/-- BC_XLAT_ROOT2_t — offset 0x5_0000 + 0x20 × t + 0x08 (R220). -/
def rBcXlatRoot2 (i0 : Nat) : Nat := 0x3F1050008 + 32 * i0

def Leaf.sz : Fld := ⟨63, 58⟩
def Leaf.sw : Fld := ⟨57, 52⟩
def Leaf.pa : Fld := ⟨51, 12⟩
def Leaf.d : Fld := ⟨10, 10⟩
def Leaf.a : Fld := ⟨9, 9⟩
def Leaf.g : Fld := ⟨8, 8⟩
def Leaf.mt : Fld := ⟨7, 6⟩
def Leaf.se : Fld := ⟨5, 5⟩
def Leaf.x : Fld := ⟨4, 4⟩
def Leaf.w : Fld := ⟨3, 3⟩
def Leaf.r : Fld := ⟨2, 2⟩
def Leaf.leaf : Fld := ⟨1, 1⟩
def Leaf.v : Fld := ⟨0, 0⟩

def TblEntry.next : Fld := ⟨51, 12⟩
def TblEntry.leaf : Fld := ⟨1, 1⟩
def TblEntry.v : Fld := ⟨0, 0⟩

def CoreCacheWays.l2_dis : Fld := ⟨23, 16⟩
def CoreCacheWays.l1d_dis : Fld := ⟨15, 8⟩
def CoreCacheWays.l1i_dis : Fld := ⟨3, 0⟩
/-- CORE_CACHE_WAYS — offset 0x0_0300 (R249): in the block whose unit ID is `u`. -/
def rCoreCacheWays (u : Nat) : Nat := u * 0x100000 + 0x300

def TileL3Ways.lock : Fld := ⟨28, 28⟩
def TileL3Ways.way_dis : Fld := ⟨27, 16⟩
def TileL3Ways.secure_ways : Fld := ⟨9, 8⟩
def TileL3Ways.scratch_ways : Fld := ⟨7, 4⟩
def TileL3Ways.general_ways : Fld := ⟨3, 0⟩
/-- TILE_L3_WAYS — offset 0x0_0100, slice block 0x81 (R250): in the block whose unit ID is `u`. -/
def rTileL3Ways (u : Nat) : Nat := u * 0x100000 + 0x100

def BcScratchCfg.busy : Fld := ⟨15, 15⟩
def BcScratchCfg.refused : Fld := ⟨14, 14⟩
def BcScratchCfg.ways : Fld := ⟨3, 0⟩
/-- BC_SCRATCH_CFG — offset 0x0_0B80, block 0x3F10 (R252). -/
def rBcScratchCfg : Nat := 0x3F1000B80

def BcSliceMap.slice_0 : Fld := ⟨6, 0⟩
def BcSliceMap.slice_1 : Fld := ⟨14, 8⟩
def BcSliceMap.slice_2 : Fld := ⟨22, 16⟩
def BcSliceMap.slice_3 : Fld := ⟨30, 24⟩
def BcSliceMap.slice_4 : Fld := ⟨38, 32⟩
def BcSliceMap.slice_5 : Fld := ⟨46, 40⟩
def BcSliceMap.slice_6 : Fld := ⟨54, 48⟩
def BcSliceMap.slice_7 : Fld := ⟨62, 56⟩
/-- BC_SLICE_MAP_n — offset 0x0_0A00 + 8n, block 0x3F10, n = 0–47 (R254). -/
def rBcSliceMap (i0 : Nat) : Nat := 0x3F1000A00 + 8 * i0

def BcSliceMapGen.gen : Fld := ⟨31, 0⟩
/-- BC_SLICE_MAP_GEN — offset 0x0_0B88, block 0x3F10 (R254). -/
def rBcSliceMapGen : Nat := 0x3F1000B88

def TileDirCfg.lock : Fld := ⟨8, 8⟩
def TileDirCfg.buddy_en : Fld := ⟨0, 0⟩
/-- TILE_DIR_CFG — offset 0x0_0200, slice block 0x81 (R266): in the block whose unit ID is `u`. -/
def rTileDirCfg (u : Nat) : Nat := u * 0x100000 + 0x200

def TileDirStatus.dup_ok : Fld := ⟨57, 57⟩
def TileDirStatus.substitute : Fld := ⟨56, 56⟩
def TileDirStatus.buddy : Fld := ⟨55, 49⟩
def TileDirStatus.bcast_entries : Fld := ⟨47, 32⟩
def TileDirStatus.dir_evictions : Fld := ⟨31, 0⟩
/-- TILE_DIR_STATUS — offset 0x0_0208, slice block 0x81 (R266): in the block whose unit ID is `u`. -/
def rTileDirStatus (u : Nat) : Nat := u * 0x100000 + 0x208

def RouteWord.hops : Fld := ⟨60, 56⟩
def RouteWord.code : Fld := ⟨55, 0⟩

def FabRouteSel.gen : Fld := ⟨63, 32⟩
def FabRouteSel.quiet : Fld := ⟨1, 1⟩
def FabRouteSel.active : Fld := ⟨0, 0⟩
/-- FAB_ROUTE_SEL — offset 0x0_0100 (R289): in the block whose unit ID is `u`. -/
def rFabRouteSel (u : Nat) : Nat := u * 0x100000 + 0x100

def FabLinkStatus.retries : Fld := ⟨63, 32⟩
def FabLinkStatus.lost : Fld := ⟨31, 16⟩
def FabLinkStatus.misroutes : Fld := ⟨15, 8⟩
def FabLinkStatus.lstate : Fld := ⟨2, 1⟩
def FabLinkStatus.wrap : Fld := ⟨0, 0⟩
/-- FAB_LINK_STATUS_d — offset 0x0_0200 + 8d, d = hop code 0–3 (R295): in the block whose unit ID is `u`. -/
def rFabLinkStatus (u : Nat) (i0 : Nat) : Nat := u * 0x100000 + 0x200 + 8 * i0

def BcChanMap.chan_0 : Fld := ⟨3, 0⟩
def BcChanMap.chan_1 : Fld := ⟨7, 4⟩
def BcChanMap.chan_2 : Fld := ⟨11, 8⟩
def BcChanMap.chan_3 : Fld := ⟨15, 12⟩
def BcChanMap.chan_4 : Fld := ⟨19, 16⟩
def BcChanMap.chan_5 : Fld := ⟨23, 20⟩
def BcChanMap.chan_6 : Fld := ⟨27, 24⟩
def BcChanMap.chan_7 : Fld := ⟨31, 28⟩
def BcChanMap.chan_8 : Fld := ⟨35, 32⟩
def BcChanMap.chan_9 : Fld := ⟨39, 36⟩
def BcChanMap.chan_10 : Fld := ⟨43, 40⟩
def BcChanMap.chan_11 : Fld := ⟨47, 44⟩
def BcChanMap.chan_12 : Fld := ⟨51, 48⟩
def BcChanMap.chan_13 : Fld := ⟨55, 52⟩
def BcChanMap.chan_14 : Fld := ⟨59, 56⟩
def BcChanMap.chan_15 : Fld := ⟨63, 60⟩
/-- BC_CHAN_MAP_n — offset 0x0_0C00 + 8n, block 0x3F10, n = 0–3 (R310). -/
def rBcChanMap (i0 : Nat) : Nat := 0x3F1000C00 + 8 * i0

def BcDramRgn.local_base : Fld := ⟨47, 32⟩
def BcDramRgn.size : Fld := ⟨31, 16⟩
def BcDramRgn.mirror : Fld := ⟨1, 1⟩
def BcDramRgn.valid : Fld := ⟨0, 0⟩
/-- BC_DRAM_RGN_k — offset 0x0_0C20 + 8k, block 0x3F10, k = 0–3 (R311). -/
def rBcDramRgn (i0 : Nat) : Nat := 0x3F1000C20 + 8 * i0

def McQosTarget.t_migr : Fld := ⟨59, 50⟩
def McQosTarget.t_mgmt : Fld := ⟨49, 40⟩
def McQosTarget.t_eng : Fld := ⟨39, 30⟩
def McQosTarget.t_io : Fld := ⟨29, 20⟩
def McQosTarget.t_pref : Fld := ⟨19, 10⟩
def McQosTarget.t_dem : Fld := ⟨9, 0⟩
/-- MC_QOS_TARGET — offset 0x0_0200 (R314): in the block whose unit ID is `u`. -/
def rMcQosTarget (u : Nat) : Nat := u * 0x100000 + 0x200

def McQosPri.p_migr : Fld := ⟨11, 10⟩
def McQosPri.p_mgmt : Fld := ⟨9, 8⟩
def McQosPri.p_eng : Fld := ⟨7, 6⟩
def McQosPri.p_io : Fld := ⟨5, 4⟩
def McQosPri.p_pref : Fld := ⟨3, 2⟩
def McQosPri.p_dem : Fld := ⟨1, 0⟩
/-- MC_QOS_PRI — offset 0x0_0208 (R314): in the block whose unit ID is `u`. -/
def rMcQosPri (u : Nat) : Nat := u * 0x100000 + 0x208

def McNrefP.p : Fld := ⟨15, 0⟩
/-- MC_NREF_P — offset 0x0_0210 (R318): in the block whose unit ID is `u`. -/
def rMcNrefP (u : Nat) : Nat := u * 0x100000 + 0x210

def McTrain.rx_vref : Fld := ⟨38, 32⟩
def McTrain.rx_delay : Fld := ⟨26, 16⟩
def McTrain.tx_delay : Fld := ⟨10, 0⟩
/-- MC_TRAIN_s_r_l — offset 0x1_0000 + 0x1_0000 × s + 0x400 × r + 8 × l; set s 0 (A) or 1 (B), rank r 0–3, lane l 0–79 (R319): in the block whose unit ID is `u`. -/
def rMcTrain (u : Nat) (i0 : Nat) (i1 : Nat) (i2 : Nat) : Nat := u * 0x100000 + 0x10000 + 65536 * i0 + 1024 * i1 + 8 * i2

def McFreqCtrl.rate_mts_div : Fld := ⟨15, 4⟩
def McFreqCtrl.refused : Fld := ⟨3, 3⟩
def McFreqCtrl.busy : Fld := ⟨2, 2⟩
def McFreqCtrl.go : Fld := ⟨1, 1⟩
def McFreqCtrl.active : Fld := ⟨0, 0⟩
/-- MC_FREQ_CTRL — offset 0x0_0220 (R320): in the block whose unit ID is `u`. -/
def rMcFreqCtrl (u : Nat) : Nat := u * 0x100000 + 0x220

def McMigrStatus.pointer : Fld := ⟨63, 24⟩
def McMigrStatus.spare_rank : Fld := ⟨15, 12⟩
def McMigrStatus.src_rank : Fld := ⟨11, 8⟩
def McMigrStatus.done : Fld := ⟨1, 1⟩
def McMigrStatus.active : Fld := ⟨0, 0⟩
/-- MC_MIGR_STATUS — offset 0x0_0400 (R324): in the block whose unit ID is `u`. -/
def rMcMigrStatus (u : Nat) : Nat := u * 0x100000 + 0x400

def McRegion.limit : Fld := ⟨47, 34⟩
def McRegion.base : Fld := ⟨33, 20⟩
def McRegion.wr : Fld := ⟨5, 5⟩
def McRegion.bc : Fld := ⟨4, 4⟩
def McRegion.migr : Fld := ⟨3, 3⟩
def McRegion.secure : Fld := ⟨2, 2⟩
def McRegion.normal : Fld := ⟨1, 1⟩
def McRegion.en : Fld := ⟨0, 0⟩
/-- MC_REGION_k — offset 0x0_0500 + 8k, k = 0–7 (R326): in the block whose unit ID is `u`. -/
def rMcRegion (u : Nat) (i0 : Nat) : Nat := u * 0x100000 + 0x500 + 8 * i0

def McProt.mode : Fld := ⟨0, 0⟩
/-- MC_PROT — offset 0x0_0580 (R326): in the block whose unit ID is `u`. -/
def rMcProt (u : Nat) : Nat := u * 0x100000 + 0x580

def McGleanCfg.en : Fld := ⟨16, 16⟩
def McGleanCfg.period_h : Fld := ⟨15, 0⟩
/-- MC_GLEAN_CFG — offset 0x0_0300 (R327): in the block whose unit ID is `u`. -/
def rMcGleanCfg (u : Nat) : Nat := u * 0x100000 + 0x300

def McGleanStatus.passes : Fld := ⟨63, 40⟩
def McGleanStatus.corrected : Fld := ⟨39, 20⟩
def McGleanStatus.poisoned : Fld := ⟨19, 0⟩
/-- MC_GLEAN_STATUS — offset 0x0_0308 (R327): in the block whose unit ID is `u`. -/
def rMcGleanStatus (u : Nat) : Nat := u * 0x100000 + 0x308

def BcCxlWin.size_4g : Fld := ⟨63, 44⟩
def BcCxlWin.base_4g : Fld := ⟨43, 24⟩
def BcCxlWin.mirror_link : Fld := ⟨13, 10⟩
def BcCxlWin.link : Fld := ⟨9, 6⟩
def BcCxlWin.mirror : Fld := ⟨1, 1⟩
def BcCxlWin.valid : Fld := ⟨0, 0⟩
/-- BC_CXL_WIN_n — offset 0x0_0C40 + 8n, block 0x3F10, n = 0–15 (R328). -/
def rBcCxlWin (i0 : Nat) : Nat := 0x3F1000C40 + 8 * i0

def HpOctCfg.lock : Fld := ⟨16, 16⟩
def HpOctCfg.xlink : Fld := ⟨15, 12⟩
def HpOctCfg.width : Fld := ⟨5, 4⟩
def HpOctCfg.mode : Fld := ⟨1, 0⟩
/-- HP_OCT_CFG — offset 0x0_0000, octet block 0x10–0x13 (R334): in the block whose unit ID is `u`. -/
def rHpOctCfg (u : Nat) : Nat := u * 0x100000 + 0x0

def HpInstStatus.tag_count : Fld := ⟨63, 53⟩
def HpInstStatus.vec_count : Fld := ⟨52, 42⟩
def HpInstStatus.chan_count : Fld := ⟨41, 33⟩
def HpInstStatus.chan_first : Fld := ⟨32, 25⟩
def HpInstStatus.port : Fld := ⟨19, 16⟩
def HpInstStatus.n_log2 : Fld := ⟨10, 8⟩
def HpInstStatus.reset_busy : Fld := ⟨5, 5⟩
def HpInstStatus.me : Fld := ⟨4, 4⟩
def HpInstStatus.quiesced : Fld := ⟨3, 3⟩
def HpInstStatus.frozen : Fld := ⟨2, 2⟩
def HpInstStatus.ready : Fld := ⟨1, 1⟩
def HpInstStatus.valid : Fld := ⟨0, 0⟩
/-- HP_INST_STATUS — BAR0 offset 0x0000 (R341): BAR0 of instance `i` of host port `p`. -/
def rHpInstStatus (p i : Nat) : Nat := bar0Base p i + 0x0

def HpPortCtrl.lock : Fld := ⟨9, 9⟩
def HpPortCtrl.mgr : Fld := ⟨8, 8⟩
def HpPortCtrl.auto_release : Fld := ⟨2, 2⟩
def HpPortCtrl.freeze : Fld := ⟨1, 1⟩
def HpPortCtrl.release : Fld := ⟨0, 0⟩
/-- HP_PORT_CTRL — offset 0x0_0000, port block (R353): in the block whose unit ID is `u`. -/
def rHpPortCtrl (u : Nat) : Nat := u * 0x100000 + 0x0

def HpPortStatus.freeze_count : Fld := ⟨47, 40⟩
def HpPortStatus.freeze_cause : Fld := ⟨39, 36⟩
def HpPortStatus.width : Fld := ⟨29, 25⟩
def HpPortStatus.speed : Fld := ⟨20, 18⟩
def HpPortStatus.flit : Fld := ⟨17, 17⟩
def HpPortStatus.link_up : Fld := ⟨16, 16⟩
def HpPortStatus.release_refused : Fld := ⟨1, 1⟩
def HpPortStatus.frozen : Fld := ⟨0, 0⟩
/-- HP_PORT_STATUS — offset 0x0_0008, port block; BAR4 0x8008 (R353): in the block whose unit ID is `u`. -/
def rHpPortStatus (u : Nat) : Nat := u * 0x100000 + 0x8

def HpCplTo.timeout_us : Fld := ⟨25, 0⟩
/-- HP_CPL_TO — offset 0x0_0010, port block; BAR4 0x8010 (R353): in the block whose unit ID is `u`. -/
def rHpCplTo (u : Nat) : Nat := u * 0x100000 + 0x10

def HpErrCount.unexpected_cpl : Fld := ⟨63, 48⟩
def HpErrCount.cpl_timeouts : Fld := ⟨47, 32⟩
def HpErrCount.quarantined : Fld := ⟨26, 16⟩
def HpErrCount.poisoned_cpl : Fld := ⟨15, 0⟩
/-- HP_ERR_COUNT — offset 0x0_0018, port block; BAR4 0x8018 (R353): in the block whose unit ID is `u`. -/
def rHpErrCount (u : Nat) : Nat := u * 0x100000 + 0x18

def ChTableBase.base : Fld := ⟨51, 20⟩
def ChTableBase.lock : Fld := ⟨0, 0⟩
/-- CH_TABLE_BASE — offset 0x0_0000, channel block 0x30 (R359): in the block whose unit ID is `u`. -/
def rChTableBase (u : Nat) : Nat := u * 0x100000 + 0x0

def ChControl.en : Fld := ⟨63, 63⟩
def ChControl.group : Fld := ⟨55, 48⟩
def ChControl.max_inflight : Fld := ⟨43, 40⟩
def ChControl.weight : Fld := ⟨39, 36⟩
def ChControl.prio : Fld := ⟨33, 32⟩
def ChControl.es : Fld := ⟨17, 16⟩
def ChControl.err_stop : Fld := ⟨8, 8⟩
def ChControl.db_mode : Fld := ⟨4, 4⟩
def ChControl.kinds : Fld := ⟨3, 0⟩

def ChRing.base : Fld := ⟨63, 12⟩
def ChRing.log2 : Fld := ⟨3, 0⟩

def ChPollAddr.addr : Fld := ⟨63, 3⟩

def ChIrq.irq_en : Fld := ⟨63, 63⟩
def ChIrq.irq_time : Fld := ⟨52, 43⟩
def ChIrq.irq_count : Fld := ⟨42, 35⟩
def ChIrq.msix : Fld := ⟨25, 16⟩
def ChIrq.thread : Fld := ⟨15, 7⟩
def ChIrq.vector : Fld := ⟨5, 0⟩

def ChTiming.poll_max : Fld := ⟨46, 40⟩
def ChTiming.wait_default : Fld := ⟨31, 24⟩
def ChTiming.to_default : Fld := ⟨23, 16⟩

def ChKeyWin.ks_count : Fld := ⟨45, 32⟩
def ChKeyWin.ks_base : Fld := ⟨12, 0⟩

def ChLive.sub_head : Fld := ⟨62, 48⟩
def ChLive.in_flight : Fld := ⟨44, 40⟩
def ChLive.cmd_seq : Fld := ⟨39, 32⟩
def ChLive.cause : Fld := ⟨31, 24⟩
def ChLive.state : Fld := ⟨3, 0⟩

def ChCompleted.completed : Fld := ⟨63, 0⟩

def ChLiveCpl.cpl_tail : Fld := ⟨62, 48⟩
def ChLiveCpl.phase : Fld := ⟨32, 32⟩
def ChLiveCpl.last_err : Fld := ⟨31, 16⟩
def ChLiveCpl.errors : Fld := ⟨15, 0⟩

def ChCmd.cmd : Fld := ⟨2, 0⟩
/-- CH_CMD_g — offset 0x1_0000 + 8g, channel block 0x30 (R367): in the block whose unit ID is `u`. -/
def rChCmd (u : Nat) (i0 : Nat) : Nat := u * 0x100000 + 0x10000 + 8 * i0

def Desc.user_tag : Fld := ⟨63, 32⟩
def Desc.to_code : Fld := ⟨31, 24⟩
def Desc.irq : Fld := ⟨15, 15⟩
def Desc.fence : Fld := ⟨14, 14⟩
def Desc.quiet : Fld := ⟨13, 13⟩
def Desc.opcode : Fld := ⟨7, 0⟩

def CplEntry.result : Fld := ⟨127, 64⟩
def CplEntry.user_tag : Fld := ⟨63, 32⟩
def CplEntry.status : Fld := ⟨31, 16⟩
def CplEntry.slot : Fld := ⟨15, 1⟩
def CplEntry.phase : Fld := ⟨0, 0⟩

def ChSq0.base : Fld := ⟨51, 12⟩
def ChSq0.esz : Fld := ⟨11, 8⟩
def ChSq0.log2 : Fld := ⟨7, 4⟩
def ChSq0.hint : Fld := ⟨1, 1⟩
def ChSq0.en : Fld := ⟨0, 0⟩
/-- CH_SQ_q word 0 — offset 0x2_0000 + 32q (R385): in the block whose unit ID is `u`. -/
def rChSq0 (u : Nat) (i0 : Nat) : Nat := u * 0x100000 + 0x20000 + 32 * i0

def ChSq1.head_addr : Fld := ⟨51, 3⟩
/-- CH_SQ_q word 1 — offset 0x2_0000 + 32q + 0x08 (R385): in the block whose unit ID is `u`. -/
def rChSq1 (u : Nat) (i0 : Nat) : Nat := u * 0x100000 + 0x20008 + 32 * i0

def ChSq2.ports : Fld := ⟨63, 48⟩
def ChSq2.group : Fld := ⟨47, 40⟩
def ChSq2.res_ok : Fld := ⟨39, 39⟩
def ChSq2.irq_en : Fld := ⟨16, 16⟩
def ChSq2.thread : Fld := ⟨15, 7⟩
def ChSq2.vector : Fld := ⟨5, 0⟩
/-- CH_SQ_q word 2 — offset 0x2_0000 + 32q + 0x10 (R385): in the block whose unit ID is `u`. -/
def rChSq2 (u : Nat) (i0 : Nat) : Nat := u * 0x100000 + 0x20010 + 32 * i0

def ChSq3.full_waits : Fld := ⟨63, 48⟩
def ChSq3.phase : Fld := ⟨16, 16⟩
def ChSq3.tail : Fld := ⟨14, 0⟩
/-- CH_SQ_q word 3 — offset 0x2_0000 + 32q + 0x18 (R385): in the block whose unit ID is `u`. -/
def rChSq3 (u : Nat) (i0 : Nat) : Nat := u * 0x100000 + 0x20018 + 32 * i0

def KeUcodeStage.word : Fld := ⟨63, 0⟩
/-- KE_UCODE_STAGE — offset 0x1_0000 + 8w, w = 0–8,191 (R395): in the block whose unit ID is `u`. -/
def rKeUcodeStage (u : Nat) (i0 : Nat) : Nat := u * 0x100000 + 0x10000 + 8 * i0

def KeUcodeCtrl.version : Fld := ⟨63, 32⟩
def KeUcodeCtrl.len_words : Fld := ⟨29, 16⟩
def KeUcodeCtrl.apply_both : Fld := ⟨2, 2⟩
def KeUcodeCtrl.discard : Fld := ⟨1, 1⟩
def KeUcodeCtrl.commit : Fld := ⟨0, 0⟩
/-- KE_UCODE_CTRL — offset 0x0_0100 (R395): in the block whose unit ID is `u`. -/
def rKeUcodeCtrl (u : Nat) : Nat := u * 0x100000 + 0x100

def KeUcodeDigest.digest : Fld := ⟨63, 0⟩
/-- KE_UCODE_DIGEST_k — offset 0x0_0108 + 8k, k = 0–5 (R395): in the block whose unit ID is `u`. -/
def rKeUcodeDigest (u : Nat) (i0 : Nat) : Nat := u * 0x100000 + 0x108 + 8 * i0

def KeUcodeStatus.active_version : Fld := ⟨63, 32⟩
def KeUcodeStatus.gen : Fld := ⟨31, 24⟩
def KeUcodeStatus.pending : Fld := ⟨3, 3⟩
def KeUcodeStatus.refused : Fld := ⟨2, 2⟩
def KeUcodeStatus.reason : Fld := ⟨1, 0⟩
/-- KE_UCODE_STATUS — offset 0x0_0140 (R395): in the block whose unit ID is `u`. -/
def rKeUcodeStatus (u : Nat) : Nat := u * 0x100000 + 0x140

def HpMbxCtrl.vector : Fld := ⟨25, 16⟩
def HpMbxCtrl.irq_en : Fld := ⟨8, 8⟩
def HpMbxCtrl.send_refused : Fld := ⟨4, 4⟩
def HpMbxCtrl.in_full : Fld := ⟨3, 3⟩
def HpMbxCtrl.out_full : Fld := ⟨2, 2⟩
def HpMbxCtrl.ack : Fld := ⟨1, 1⟩
def HpMbxCtrl.send : Fld := ⟨0, 0⟩
/-- HP_MBX_CTRL — BAR0 offset 0x1080 (R403): BAR0 of instance `i` of host port `p`. -/
def rHpMbxCtrl (p i : Nat) : Nat := bar0Base p i + 0x1080

def HpMbxMgrCtrl.send_refused : Fld := ⟨4, 4⟩
def HpMbxMgrCtrl.in_full : Fld := ⟨3, 3⟩
def HpMbxMgrCtrl.out_full : Fld := ⟨2, 2⟩
def HpMbxMgrCtrl.ack : Fld := ⟨1, 1⟩
def HpMbxMgrCtrl.send : Fld := ⟨0, 0⟩
/-- HP_MBX_MGR_CTRL_i — manager window 0x100 × i + 0x80 (R403): in the block whose unit ID is `u`. -/
def rHpMbxMgrCtrl (u : Nat) (i0 : Nat) : Nat := u * 0x100000 + 0x10080 + 256 * i0

def HpMbxPend.pend : Fld := ⟨63, 0⟩
/-- HP_MBX_PEND (R403): in the block whose unit ID is `u`. -/
def rHpMbxPend (u : Nat) : Nat := u * 0x100000 + 0x14000

def HpMbxNotify.msix : Fld := ⟨25, 16⟩
def HpMbxNotify.en : Fld := ⟨15, 15⟩
def HpMbxNotify.thread : Fld := ⟨14, 6⟩
def HpMbxNotify.vector : Fld := ⟨5, 0⟩
/-- HP_MBX_NOTIFY (R403): in the block whose unit ID is `u`. -/
def rHpMbxNotify (u : Nat) : Nat := u * 0x100000 + 0x14008

def HpInstMgmt.reason : Fld := ⟨39, 36⟩
def HpInstMgmt.refused : Fld := ⟨35, 35⟩
def HpInstMgmt.state : Fld := ⟨34, 32⟩
def HpInstMgmt.cmd : Fld := ⟨11, 8⟩
def HpInstMgmt.drain : Fld := ⟨7, 6⟩
def HpInstMgmt.gate_closed : Fld := ⟨1, 1⟩
def HpInstMgmt.irq_held : Fld := ⟨0, 0⟩
/-- HP_INST_MGMT_i — manager window 0x100 × i + 0x88 (R404): in the block whose unit ID is `u`. -/
def rHpInstMgmt (u : Nat) (i0 : Nat) : Nat := u * 0x100000 + 0x10088 + 256 * i0

def HpWlogBase.base : Fld := ⟨63, 12⟩
def HpWlogBase.log2 : Fld := ⟨6, 2⟩
def HpWlogBase.en : Fld := ⟨0, 0⟩
/-- HP_WLOG_BASE_i — manager window 0x100 × i + 0x98 (R409): in the block whose unit ID is `u`. -/
def rHpWlogBase (u : Nat) (i0 : Nat) : Nat := u * 0x100000 + 0x10098 + 256 * i0

def HpWlogPtr.overflow : Fld := ⟨63, 63⟩
def HpWlogPtr.head : Fld := ⟨51, 32⟩
def HpWlogPtr.tail : Fld := ⟨19, 0⟩
/-- HP_WLOG_PTR_i — manager window 0x100 × i + 0xA0 (R409): in the block whose unit ID is `u`. -/
def rHpWlogPtr (u : Nat) (i0 : Nat) : Nat := u * 0x100000 + 0x100A0 + 256 * i0

def HpInstImg.addr : Fld := ⟨63, 12⟩
/-- HP_INST_IMG_i — manager window 0x100 × i + 0x90 (R410): in the block whose unit ID is `u`. -/
def rHpInstImg (u : Nat) (i0 : Nat) : Nat := u * 0x100000 + 0x10090 + 256 * i0

def NetOctLanes.lock : Fld := ⟨32, 32⟩
def NetOctLanes.lane_0 : Fld := ⟨3, 0⟩
def NetOctLanes.lane_1 : Fld := ⟨7, 4⟩
def NetOctLanes.lane_2 : Fld := ⟨11, 8⟩
def NetOctLanes.lane_3 : Fld := ⟨15, 12⟩
def NetOctLanes.lane_4 : Fld := ⟨19, 16⟩
def NetOctLanes.lane_5 : Fld := ⟨23, 20⟩
def NetOctLanes.lane_6 : Fld := ⟨27, 24⟩
def NetOctLanes.lane_7 : Fld := ⟨31, 28⟩
/-- NET_OCT_LANES — offset 0x0_0100, octet block 0x10–0x13 (R417): in the block whose unit ID is `u`. -/
def rNetOctLanes (u : Nat) : Nat := u * 0x100000 + 0x100

def NetPortCfg.down_hold_ms : Fld := ⟨56, 50⟩
def NetPortCfg.pvid : Fld := ⟨49, 38⟩
def NetPortCfg.default_prio : Fld := ⟨37, 35⟩
def NetPortCfg.pfc_mask : Fld := ⟨34, 27⟩
def NetPortCfg.pause_en : Fld := ⟨26, 26⟩
def NetPortCfg.win : Fld := ⟨22, 20⟩
def NetPortCfg.learn : Fld := ⟨1, 1⟩
def NetPortCfg.en : Fld := ⟨0, 0⟩
/-- NET_PORT_CFG — port offset 0x00 (R417): in the block whose unit ID is `u`. -/
def rNetPortCfg (u : Nat) (i0 : Nat) : Nat := u * 0x100000 + 0x1000 + 256 * i0

def NetPortStatus.fec_uncorr : Fld := ⟨63, 32⟩
def NetPortStatus.port : Fld := ⟨31, 26⟩
def NetPortStatus.link_downs : Fld := ⟨15, 8⟩
def NetPortStatus.speed : Fld := ⟨7, 4⟩
def NetPortStatus.holding : Fld := ⟨3, 3⟩
def NetPortStatus.link_up : Fld := ⟨1, 1⟩
/-- NET_PORT_STATUS — port offset 0x08 (R417): in the block whose unit ID is `u`. -/
def rNetPortStatus (u : Nat) (i0 : Nat) : Nat := u * 0x100000 + 0x1008 + 256 * i0

def NetBrCfg.age_s : Fld := ⟨63, 52⟩
def NetBrCfg.vlan_base : Fld := ⟨51, 20⟩
def NetBrCfg.flap_action : Fld := ⟨19, 18⟩
def NetBrCfg.flap_limit : Fld := ⟨17, 15⟩
def NetBrCfg.thread : Fld := ⟨14, 6⟩
def NetBrCfg.vector : Fld := ⟨5, 0⟩
/-- NET_BR_CFG — offset 0x0_0000, ES 0 block 0x40 (R423). -/
def rNetBrCfg : Nat := 0x3E4000000

def NetFdbKey.vid : Fld := ⟨59, 48⟩
def NetFdbKey.mac : Fld := ⟨47, 0⟩
/-- NET_FDB_KEY — offset 0x0_0008 (R423). -/
def rNetFdbKey : Nat := 0x3E4000008

def NetFdbCmd.entries : Fld := ⟨63, 45⟩
def NetFdbCmd.full_drops : Fld := ⟨44, 37⟩
def NetFdbCmd.flaps : Fld := ⟨36, 29⟩
def NetFdbCmd.refused : Fld := ⟨28, 28⟩
def NetFdbCmd.busy : Fld := ⟨27, 27⟩
def NetFdbCmd.port : Fld := ⟨25, 16⟩
def NetFdbCmd.op : Fld := ⟨3, 0⟩
/-- NET_FDB_CMD — offset 0x0_0010 (R423). -/
def rNetFdbCmd : Nat := 0x3E4000010

def NetVport0.en : Fld := ⟨63, 63⟩
def NetVport0.rx_chan : Fld := ⟨62, 50⟩
def NetVport0.tx_chan : Fld := ⟨49, 37⟩
def NetVport0.pvid : Fld := ⟨36, 25⟩
def NetVport0.default_prio : Fld := ⟨24, 22⟩
def NetVport0.pfc_mask : Fld := ⟨21, 14⟩
def NetVport0.home_io : Fld := ⟨13, 11⟩
def NetVport0.learn : Fld := ⟨10, 10⟩
/-- NET_VPORT_v word 0 — offset 0x1_0000 + 16v (R427). -/
def rNetVport0 (i0 : Nat) : Nat := 0x3E4010000 + 16 * i0

def NetVport1.rx_nobuf : Fld := ⟨63, 32⟩
def NetVport1.tx_filtered : Fld := ⟨31, 0⟩
/-- NET_VPORT_v word 1 — offset 0x1_0000 + 16v + 0x08 (R427). -/
def rNetVport1 (i0 : Nat) : Nat := 0x3E4010008 + 16 * i0

def VltWorldCmd.busy : Fld := ⟨63, 63⟩
def VltWorldCmd.refused : Fld := ⟨62, 62⟩
def VltWorldCmd.reason : Fld := ⟨61, 59⟩
def VltWorldCmd.notify_thread : Fld := ⟨58, 50⟩
def VltWorldCmd.notify_vector : Fld := ⟨49, 44⟩
def VltWorldCmd.vcore : Fld := ⟨35, 28⟩
def VltWorldCmd.to_world : Fld := ⟨1, 1⟩
def VltWorldCmd.go : Fld := ⟨0, 0⟩
/-- VLT_WORLD_CMD — offset 0x0_0100 (R434). -/
def rVltWorldCmd : Nat := 0x7F1000100

def VltWatermark.valid : Fld := ⟨63, 63⟩
def VltWatermark.lock : Fld := ⟨62, 62⟩
def VltWatermark.scr_wm_mib : Fld := ⟨47, 40⟩
def VltWatermark.sec_wm_gib : Fld := ⟨38, 24⟩
/-- VLT_WATERMARK — offset 0x0_0200 (R436). -/
def rVltWatermark : Nat := 0x7F1000200

def VltTwCfg.act_first : Fld := ⟨63, 57⟩
def VltTwCfg.stby_first : Fld := ⟨56, 50⟩
def VltTwCfg.tiles : Fld := ⟨49, 48⟩
def VltTwCfg.stby_en : Fld := ⟨47, 47⟩
def VltTwCfg.hb_timeout_us : Fld := ⟨40, 32⟩
def VltTwCfg.lock : Fld := ⟨0, 0⟩
/-- VLT_TW_CFG — offset 0x0_0300 (R442). -/
def rVltTwCfg : Nat := 0x7F1000300

def VltTwStatus.takeovers : Fld := ⟨63, 56⟩
def VltTwStatus.restarts : Fld := ⟨55, 48⟩
def VltTwStatus.act_now : Fld := ⟨47, 41⟩
def VltTwStatus.stby_now : Fld := ⟨40, 34⟩
def VltTwStatus.stby_state : Fld := ⟨1, 0⟩
/-- VLT_TW_STATUS — offset 0x0_0308 (R442). -/
def rVltTwStatus : Nat := 0x7F1000308

def VltTwHb.beat : Fld := ⟨63, 0⟩
/-- VLT_TW_HB — offset 0x0_0310 (R442). -/
def rVltTwHb : Nat := 0x7F1000310

def VltSlotCmd.slot : Fld := ⟨63, 51⟩
def VltSlotCmd.type : Fld := ⟨50, 46⟩
def VltSlotCmd.usage : Fld := ⟨45, 39⟩
def VltSlotCmd.busy : Fld := ⟨38, 38⟩
def VltSlotCmd.refused : Fld := ⟨37, 37⟩
def VltSlotCmd.mk_valid : Fld := ⟨36, 36⟩
def VltSlotCmd.op : Fld := ⟨3, 0⟩
/-- VLT_SLOT_CMD — offset 0x0_0400 (R448). -/
def rVltSlotCmd : Nat := 0x7F1000400

def VltTamper.tamper_time : Fld := ⟨63, 32⟩
def VltTamper.cause : Fld := ⟨15, 8⟩
def VltTamper.latched : Fld := ⟨0, 0⟩
/-- VLT_TAMPER — offset 0x0_0500 (R449). -/
def rVltTamper : Nat := 0x7F1000500

def VltDbgEn.tokens : Fld := ⟨15, 8⟩
def VltDbgEn.sec_inv : Fld := ⟨3, 3⟩
def VltDbgEn.sec_noninv : Fld := ⟨2, 2⟩
def VltDbgEn.norm_inv : Fld := ⟨1, 1⟩
def VltDbgEn.norm_noninv : Fld := ⟨0, 0⟩
/-- VLT_DBG_EN — offset 0x0_0700 (R451). -/
def rVltDbgEn : Nat := 0x7F1000700

def BcStatus.fw_version : Fld := ⟨63, 32⟩
def BcStatus.failovers : Fld := ⟨31, 24⟩
def BcStatus.mode : Fld := ⟨9, 8⟩
def BcStatus.standby_ok : Fld := ⟨2, 2⟩
def BcStatus.bcb_ok : Fld := ⟨1, 1⟩
def BcStatus.active : Fld := ⟨0, 0⟩
/-- BC_STATUS — offset 0x0_0100 (R458). -/
def rBcStatus : Nat := 0x3F1000100

def BcPkgPower.power_now : Fld := ⟨51, 40⟩
def BcPkgPower.brake_w : Fld := ⟨35, 24⟩
def BcPkgPower.limit_w : Fld := ⟨11, 0⟩
/-- BC_PKG_POWER — offset 0x0_0118 (R460). -/
def rBcPkgPower : Nat := 0x3F1000118

def BcLogRing.base : Fld := ⟨51, 12⟩
def BcLogRing.log2 : Fld := ⟨4, 1⟩
def BcLogRing.en : Fld := ⟨0, 0⟩
/-- BC_LOG_RING — offset 0x0_0140 (R464). -/
def rBcLogRing : Nat := 0x3F1000140

def BcLogPtr.missed : Fld := ⟨63, 48⟩
def BcLogPtr.head : Fld := ⟨47, 32⟩
def BcLogPtr.tail : Fld := ⟨15, 0⟩
/-- BC_LOG_PTR — offset 0x0_0148 (R464). -/
def rBcLogPtr : Nat := 0x3F1000148

def BcErrNotify.min_sev : Fld := ⟨19, 16⟩
def BcErrNotify.en : Fld := ⟨15, 15⟩
def BcErrNotify.thread : Fld := ⟨14, 6⟩
def BcErrNotify.vector : Fld := ⟨5, 0⟩
/-- BC_ERR_NOTIFY — offset 0x0_0928, block 0x3F10 (R487). -/
def rBcErrNotify : Nat := 0x3F1000928

def BcFuseId.vendor_id : Fld := ⟨63, 48⟩
def BcFuseId.impl_step : Fld := ⟨47, 40⟩
def BcFuseId.serial : Fld := ⟨39, 0⟩
/-- BC_FUSE_ID — offset 0x0_0000 (R493). -/
def rBcFuseId : Nat := 0xFF1000000

def BcFuseOpt.min_svn : Fld := ⟨63, 56⟩
def BcFuseOpt.test_allowed : Fld := ⟨55, 55⟩
def BcFuseOpt.bcb_out : Fld := ⟨54, 54⟩
def BcFuseOpt.bca_out : Fld := ⟨53, 53⟩
/-- BC_FUSE_OPT — offset 0x0_0008 (R493). -/
def rBcFuseOpt : Nat := 0xFF1000008

def BcFuseKeyhash.hash : Fld := ⟨63, 0⟩
/-- BC_FUSE_KEYHASH_k_w — offset 0x0_0100 + 0x40k + 8w; k 0 ML-DSA-87, 1 ECDSA P-384; w 0–5 (R493). -/
def rBcFuseKeyhash (i0 : Nat) (i1 : Nat) : Nat := 0xFF1000100 + 64 * i0 + 8 * i1

def BcMemInit.limit_gib : Fld := ⟨47, 32⟩
def BcMemInit.total_gib : Fld := ⟨31, 16⟩
def BcMemInit.done : Fld := ⟨0, 0⟩
/-- BC_MEM_INIT — offset 0x0_0D00, block 0x3F10 (R499). -/
def rBcMemInit : Nat := 0x3F1000D00

def BcMemInitNotify.en : Fld := ⟨15, 15⟩
def BcMemInitNotify.thread : Fld := ⟨14, 6⟩
def BcMemInitNotify.vector : Fld := ⟨5, 0⟩
/-- BC_MEM_INIT_NOTIFY — offset 0x0_0D08, block 0x3F10 (R499). -/
def rBcMemInitNotify : Nat := 0x3F1000D08

def BcThreadStart.refused : Fld := ⟨63, 63⟩
def BcThreadStart.block : Fld := ⟨51, 7⟩
def BcThreadStart.go : Fld := ⟨0, 0⟩
/-- BC_THREAD_START_t — offset 0x3_0000 + 0x40 × t + 0x38 (R501). -/
def rBcThreadStart (i0 : Nat) : Nat := 0x3F1030038 + 64 * i0

def BcBootStatus.svn : Fld := ⟨47, 40⟩
def BcBootStatus.reset_cause : Fld := ⟨39, 36⟩
def BcBootStatus.image : Fld := ⟨32, 32⟩
def BcBootStatus.stop_stage : Fld := ⟨31, 28⟩
def BcBootStatus.stage : Fld := ⟨27, 24⟩
/-- BC_BOOT_STATUS — offset 0x0_0D10, block 0x3F10 (R504). -/
def rBcBootStatus : Nat := 0x3F1000D10

def PmSel.en : Fld := ⟨63, 63⟩
def PmSel.legacy : Fld := ⟨62, 62⟩
def PmSel.count_normal : Fld := ⟨61, 61⟩
def PmSel.count_trusted : Fld := ⟨60, 60⟩
def PmSel.thread : Fld := ⟨59, 58⟩
def PmSel.addr_en : Fld := ⟨57, 57⟩
def PmSel.vmid_en : Fld := ⟨56, 56⟩
def PmSel.vmid : Fld := ⟨55, 40⟩
def PmSel.asid : Fld := ⟨39, 24⟩
def PmSel.asid_en : Fld := ⟨23, 23⟩
def PmSel.bad : Fld := ⟨22, 22⟩
def PmSel.event : Fld := ⟨11, 0⟩
/-- PM_SEL_k — core block offset 0x080 + 8k (R508): in the block whose unit ID is `u`. -/
def rPmSel (u : Nat) (i0 : Nat) : Nat := u * 0x100000 + 0x80 + 8 * i0

def PmWin.seq : Fld := ⟨63, 48⟩
def PmWin.sat : Fld := ⟨47, 32⟩
def PmWin.windowed : Fld := ⟨3, 3⟩
def PmWin.win : Fld := ⟨2, 0⟩
/-- PM_WIN — core block offset 0x0C0; uncore block 0x180 (R512): in the block whose unit ID is `u`. -/
def rPmWin (u : Nat) : Nat := u * 0x100000 + 0xC0

def PmSampleCfg.en : Fld := ⟨63, 63⟩
def PmSampleCfg.thread : Fld := ⟨62, 61⟩
def PmSampleCfg.count_trusted : Fld := ⟨60, 60⟩
def PmSampleCfg.log2_n : Fld := ⟨59, 56⟩
def PmSampleCfg.irq_en : Fld := ⟨23, 23⟩
def PmSampleCfg.irq_thread : Fld := ⟨22, 14⟩
def PmSampleCfg.vector : Fld := ⟨13, 8⟩
/-- PM_SAMPLE_CFG — core block offset 0x100 (R514): in the block whose unit ID is `u`. -/
def rPmSampleCfg (u : Nat) : Nat := u * 0x100000 + 0x100

def DbgAccess.remaining_s : Fld := ⟨63, 32⟩
def DbgAccess.forever : Fld := ⟨2, 2⟩
def DbgAccess.trace_en : Fld := ⟨1, 1⟩
def DbgAccess.obs_en : Fld := ⟨0, 0⟩
/-- DBG_ACCESS — offset 0x0_0000 (R525). -/
def rDbgAccess : Nat := 0xBF1000000

def DbgObsSel.suppressed : Fld := ⟨16, 16⟩
def DbgObsSel.en : Fld := ⟨15, 15⟩
def DbgObsSel.field : Fld := ⟨14, 13⟩
def DbgObsSel.signal : Fld := ⟨11, 0⟩
/-- DBG_OBS_SEL_k — offset 0x0_0100 + 8k, k = 0–31 (R526). -/
def rDbgObsSel (i0 : Nat) : Nat := 0xBF1000100 + 8 * i0

def DbgTraceCtrl.thread : Fld := ⟨2, 1⟩
def DbgTraceCtrl.en : Fld := ⟨0, 0⟩
/-- DBG_TRACE_CTRL — offset 0x0_0000, core sub-block 0x02 (R528): in the block whose unit ID is `u`. -/
def rDbgTraceCtrl (u : Nat) : Nat := u * 0x100000 + 0x0

def VltSlotArg.pa : Fld := ⟨51, 0⟩
/-- VltSlotArg (R448). -/
def rVltSlotArg : Nat := 0x7F1000408

def VltSlotBase.base : Fld := ⟨51, 26⟩
/-- VltSlotBase (R448). -/
def rVltSlotBase : Nat := 0x7F1000418

def VltCounter.count : Fld := ⟨63, 0⟩
/-- VltCounter (R451). -/
def rVltCounter (i0 : Nat) : Nat := 0x7F1000600 + 8 * i0

def VltCounterInc.k : Fld := ⟨3, 0⟩
/-- VltCounterInc (R451). -/
def rVltCounterInc : Nat := 0x7F1000680

def VltRtc.ticks : Fld := ⟨47, 0⟩
/-- VltRtc (R451). -/
def rVltRtc : Nat := 0x7F1000690

def VltMeas.word : Fld := ⟨63, 0⟩
/-- VltMeas (R446). -/
def rVltMeas (i0 : Nat) (i1 : Nat) : Nat := 0x7F1001000 + 64 * i0 + 8 * i1

def VltMeasExt.word : Fld := ⟨63, 0⟩
/-- VltMeasExt (R446). -/
def rVltMeasExt (i0 : Nat) : Nat := 0x7F1001200 + 8 * i0

def VltMeasExtCmd.k : Fld := ⟨2, 0⟩
/-- VltMeasExtCmd (R446). -/
def rVltMeasExtCmd : Nat := 0x7F1001230

def BcCfgStatus.rows : Fld := ⟨9, 0⟩
/-- BcCfgStatus (R477). -/
def rBcCfgStatus : Nat := 0x3F1000108

def BcCfgNotify.en : Fld := ⟨15, 15⟩
def BcCfgNotify.thread : Fld := ⟨14, 6⟩
def BcCfgNotify.vector : Fld := ⟨5, 0⟩
/-- BcCfgNotify (R477). -/
def rBcCfgNotify : Nat := 0x3F1000110

def BcTwStage.addr : Fld := ⟨51, 12⟩
def BcTwStage.outcome : Fld := ⟨11, 8⟩
def BcTwStage.valid : Fld := ⟨0, 0⟩
/-- BcTwStage (R471). -/
def rBcTwStage : Nat := 0x3F1000188

def PmCtr.count : Fld := ⟨63, 0⟩
/-- PmCtr (R508): in the block whose unit ID is `u`. -/
def rPmCtr (u : Nat) (i0 : Nat) : Nat := u * 0x100000 + 0x0 + 8 * i0

def PmLast.count : Fld := ⟨63, 0⟩
/-- PmLast (R508): in the block whose unit ID is `u`. -/
def rPmLast (u : Nat) (i0 : Nat) : Nat := u * 0x100000 + 0x40 + 8 * i0

def PmAddrBase.addr : Fld := ⟨63, 0⟩
/-- PmAddrBase (R508): in the block whose unit ID is `u`. -/
def rPmAddrBase (u : Nat) : Nat := u * 0x100000 + 0xC8

def PmAddrLimit.addr : Fld := ⟨63, 0⟩
/-- PmAddrLimit (R508): in the block whose unit ID is `u`. -/
def rPmAddrLimit (u : Nat) : Nat := u * 0x100000 + 0xD0

def PmSampleRing.base : Fld := ⟨51, 12⟩
def PmSampleRing.log2 : Fld := ⟨4, 1⟩
def PmSampleRing.en : Fld := ⟨0, 0⟩
/-- PmSampleRing (R517): in the block whose unit ID is `u`. -/
def rPmSampleRing (u : Nat) : Nat := u * 0x100000 + 0x108

def PmSamplePtr.missed : Fld := ⟨63, 48⟩
def PmSamplePtr.head : Fld := ⟨47, 32⟩
def PmSamplePtr.tail : Fld := ⟨15, 0⟩
/-- PmSamplePtr (R517): in the block whose unit ID is `u`. -/
def rPmSamplePtr (u : Nat) : Nat := u * 0x100000 + 0x110

def PmUctr.count : Fld := ⟨63, 0⟩
/-- PmUctr (R508): in the block whose unit ID is `u`. -/
def rPmUctr (u : Nat) (i0 : Nat) : Nat := u * 0x100000 + 0x0 + 8 * i0

def PmUlast.count : Fld := ⟨63, 0⟩
/-- PmUlast (R508): in the block whose unit ID is `u`. -/
def rPmUlast (u : Nat) (i0 : Nat) : Nat := u * 0x100000 + 0x80 + 8 * i0

def PmUsel.en : Fld := ⟨63, 63⟩
def PmUsel.legacy : Fld := ⟨62, 62⟩
def PmUsel.count_normal : Fld := ⟨61, 61⟩
def PmUsel.count_trusted : Fld := ⟨60, 60⟩
def PmUsel.stop : Fld := ⟨59, 55⟩
def PmUsel.addr_en : Fld := ⟨54, 54⟩
def PmUsel.req_id : Fld := ⟨53, 38⟩
def PmUsel.req_mask : Fld := ⟨37, 22⟩
def PmUsel.bad : Fld := ⟨21, 21⟩
def PmUsel.event : Fld := ⟨11, 0⟩
/-- PmUsel (R511): in the block whose unit ID is `u`. -/
def rPmUsel (u : Nat) (i0 : Nat) : Nat := u * 0x100000 + 0x100 + 8 * i0

def PmUwin.seq : Fld := ⟨63, 48⟩
def PmUwin.sat : Fld := ⟨47, 32⟩
def PmUwin.windowed : Fld := ⟨3, 3⟩
def PmUwin.win : Fld := ⟨2, 0⟩
/-- PmUwin (R512): in the block whose unit ID is `u`. -/
def rPmUwin (u : Nat) : Nat := u * 0x100000 + 0x180

def PmUaddrBase.addr : Fld := ⟨63, 0⟩
/-- PmUaddrBase (R508): in the block whose unit ID is `u`. -/
def rPmUaddrBase (u : Nat) : Nat := u * 0x100000 + 0x188

def PmUaddrLimit.addr : Fld := ⟨63, 0⟩
/-- PmUaddrLimit (R508): in the block whose unit ID is `u`. -/
def rPmUaddrLimit (u : Nat) : Nat := u * 0x100000 + 0x190

def DbgTraceRing.base : Fld := ⟨51, 12⟩
def DbgTraceRing.log2 : Fld := ⟨4, 1⟩
def DbgTraceRing.en : Fld := ⟨0, 0⟩
/-- DbgTraceRing (R528). -/
def rDbgTraceRing : Nat := 0xBF1000200

def DbgTracePtr.missed : Fld := ⟨63, 48⟩
def DbgTracePtr.head : Fld := ⟨47, 32⟩
def DbgTracePtr.tail : Fld := ⟨15, 0⟩
/-- DbgTracePtr (R528). -/
def rDbgTracePtr : Nat := 0xBF1000208

def FabRouteA.hops : Fld := ⟨60, 56⟩
def FabRouteA.code : Fld := ⟨55, 0⟩
/-- FabRouteA (R289): in the block whose unit ID is `u`. -/
def rFabRouteA (u : Nat) (i0 : Nat) : Nat := u * 0x100000 + 0x1000 + 8 * i0

def FabRouteB.hops : Fld := ⟨60, 56⟩
def FabRouteB.code : Fld := ⟨55, 0⟩
/-- FabRouteB (R289): in the block whose unit ID is `u`. -/
def rFabRouteB (u : Nat) (i0 : Nat) : Nat := u * 0x100000 + 0x1400 + 8 * i0

def NetPortCount.count : Fld := ⟨63, 0⟩
/-- NetPortCount (R419): in the block whose unit ID is `u`. -/
def rNetPortCount (u : Nat) (i0 : Nat) (i1 : Nat) : Nat := u * 0x100000 + 0x1040 + 256 * i0 + 8 * i1

def MbxToManager.bytes : Fld := ⟨63, 0⟩
/-- MbxToManager (R402): BAR0 of instance `i` of host port `p`. -/
def rMbxToManager (p i : Nat) (i0 : Nat) : Nat := bar0Base p i + 0x1000 + 8 * i0

def MbxFromManager.bytes : Fld := ⟨63, 0⟩
/-- MbxFromManager (R402): BAR0 of instance `i` of host port `p`. -/
def rMbxFromManager (p i : Nat) (i0 : Nat) : Nat := bar0Base p i + 0x1040 + 8 * i0

def MbxFromInstance.bytes : Fld := ⟨63, 0⟩
/-- MbxFromInstance (R403): in the block whose unit ID is `u`. -/
def rMbxFromInstance (u : Nat) (i0 : Nat) (i1 : Nat) : Nat := u * 0x100000 + 0x10000 + 256 * i0 + 8 * i1

def MbxToInstance.bytes : Fld := ⟨63, 0⟩
/-- MbxToInstance (R403): in the block whose unit ID is `u`. -/
def rMbxToInstance (u : Nat) (i0 : Nat) (i1 : Nat) : Nat := u * 0x100000 + 0x10040 + 256 * i0 + 8 * i1

def InstCounter.count : Fld := ⟨63, 0⟩
/-- InstCounter (R414): in the block whose unit ID is `u`. -/
def rInstCounter (u : Nat) (i0 : Nat) (i1 : Nat) : Nat := u * 0x100000 + 0x100C0 + 256 * i0 + 8 * i1

/-- The registers of a anyState block. -/
def regsAnyState : List RegRow := [
  ⟨0x0, [], 0x0, 0x0, 0x0, 0x0, 0x0, 0x0, none, .none, 0x0, 0xFFFFFF00FF0F000F⟩,
  ⟨0x8, [], 0x0, 0x0, 0x0, 0x0, 0x0, 0x0, none, .none, 0x0, 0xFFFFFFFFFFFFFFFF⟩]

/-- The registers of a baseCamp block. -/
def regsBaseCamp : List RegRow := [
  ⟨0x1000, [(8, 192)], 0x0, 0x0, 0x0, 0x0, 0x0, 0x0, none, .open_, 0x0, 0xFFFFFF000F⟩,
  ⟨0x800, [], 0x0, 0xFFFF, 0x0, 0x0, 0x0, 0x0, none, .open_, 0x0, 0xFFFF⟩,
  ⟨0x30020, [(64, 384)], 0x0, 0x0, 0x0, 0x0, 0x0, 0x0, none, .open_, 0x0, 0xFFFFC00000000001⟩,
  ⟨0x30028, [(64, 384)], 0x0, 0x0, 0x0, 0x0, 0x0, 0x0, none, .open_, 0x0, 0xFFFFFFFFFFFFFFFF⟩,
  ⟨0x30000, [(64, 384)], 0x0, 0x0, 0xFFFFFFFFFFFFFFFF, 0x0, 0x0, 0x0, none, .open_, 0x0, 0xFFFFFFFFFFFFFFFF⟩,
  ⟨0x30008, [(64, 384)], 0x0, 0xFFFFFFFFFFFFFFFF, 0x0, 0x0, 0x0, 0x0, none, .open_, 0x0, 0xFFFFFFFFFFFFFFFF⟩,
  ⟨0x30010, [(64, 384)], 0x0, 0x3F, 0x0, 0x0, 0x0, 0x0, none, .open_, 0x0, 0x3F⟩,
  ⟨0x30018, [(64, 384)], 0x0, 0x0, 0x0, 0x0, 0x3F, 0x0, none, .open_, 0x0, 0x3F⟩,
  ⟨0x30030, [(64, 384)], 0x0, 0xE, 0x0, 0x0, 0x1, 0x0, none, .open_, 0x0, 0xFFFF0000000F⟩,
  ⟨0x920, [], 0x3E800000010, 0xFFFFFFFF0000FFFF, 0x0, 0x0, 0x0, 0x0, none, .open_, 0x0, 0xFFFFFFFF0000FFFF⟩,
  ⟨0x910, [], 0x0, 0xFFFF, 0x0, 0x0, 0x0, 0x0, none, .open_, 0x0, 0xFFFF⟩,
  ⟨0x918, [], 0x0, 0xFFFF, 0x0, 0x0, 0x0, 0x0, none, .open_, 0x0, 0xFFFF⟩,
  ⟨0x900, [], 0x55, 0x0, 0x0, 0x0, 0x0, 0x1FF, some 8, .baseCamp, 0x0, 0x1FF⟩,
  ⟨0x908, [], 0x0, 0x0, 0x0, 0x0, 0x0, 0x0, none, .open_, 0x0, 0xFFFFFF0700000000⟩,
  ⟨0x50000, [(32, 384)], 0x0, 0xFFFFFFFFFFFFFF03, 0x0, 0x0, 0x0, 0x0, none, .open_, 0x0, 0xFFFFFFFFFFFFFF03⟩,
  ⟨0x50008, [(32, 384)], 0x0, 0xFFFFFFFFFFFFFF03, 0x0, 0x0, 0x0, 0x0, none, .open_, 0x0, 0xFFFFFFFFFFFFFF03⟩,
  ⟨0xB80, [], 0x0, 0xF, 0x4000, 0x0, 0x0, 0x0, none, .open_, 0x0, 0xC00F⟩,
  ⟨0xA00, [(8, 48)], 0x0, 0x0, 0x0, 0x0, 0x0, 0x0, none, .open_, 0x0, 0x7F7F7F7F7F7F7F7F⟩,
  ⟨0xB88, [], 0x0, 0x0, 0x0, 0x0, 0x0, 0x0, none, .open_, 0x0, 0xFFFFFFFF⟩,
  ⟨0xC00, [(8, 4)], 0x0, 0x0, 0x0, 0x0, 0x0, 0x0, none, .open_, 0x0, 0xFFFFFFFFFFFFFFFF⟩,
  ⟨0xC20, [(8, 4)], 0x0, 0x0, 0x0, 0x0, 0x0, 0x0, none, .open_, 0x0, 0xFFFFFFFF0003⟩,
  ⟨0xC40, [(8, 16)], 0x0, 0x0, 0x0, 0x0, 0x0, 0x0, none, .open_, 0x0, 0xFFFFFFFFFF003FC3⟩,
  ⟨0x100, [], 0x0, 0x0, 0x0, 0x0, 0x0, 0x0, none, .open_, 0x0, 0xFFFFFFFFFF000307⟩,
  ⟨0x118, [], 0x19000047E, 0xFFF000FFF, 0x0, 0x0, 0x0, 0x0, none, .open_, 0x0, 0xFFF0FFF000FFF⟩,
  ⟨0x140, [], 0x0, 0xFFFFFFFFFF01F, 0x0, 0x0, 0x0, 0x0, none, .open_, 0x0, 0xFFFFFFFFFF01F⟩,
  ⟨0x148, [], 0x0, 0xFFFF00000000, 0xFFFF000000000000, 0x0, 0x0, 0x0, none, .open_, 0x0, 0xFFFFFFFF0000FFFF⟩,
  ⟨0x928, [], 0x20000, 0xFFFFF, 0x0, 0x0, 0x0, 0x0, none, .open_, 0x0, 0xFFFFF⟩,
  ⟨0xD00, [], 0x0, 0x0, 0x0, 0x0, 0x0, 0x0, none, .open_, 0x0, 0xFFFFFFFF0001⟩,
  ⟨0xD08, [], 0x0, 0xFFFF, 0x0, 0x0, 0x0, 0x0, none, .open_, 0x0, 0xFFFF⟩,
  ⟨0x30038, [(64, 384)], 0x0, 0x0, 0x8000000000000000, 0x0, 0xFFFFFFFFFFF81, 0x0, none, .open_, 0x0, 0x800FFFFFFFFFFF81⟩,
  ⟨0xD10, [], 0x0, 0x0, 0x0, 0x0, 0x0, 0x0, none, .open_, 0x0, 0xFFF1FF000000⟩,
  ⟨0x108, [], 0x0, 0x0, 0x0, 0x0, 0x0, 0x0, none, .open_, 0x0, 0x3FF⟩,
  ⟨0x110, [], 0x0, 0xFFFF, 0x0, 0x0, 0x0, 0x0, none, .open_, 0x0, 0xFFFF⟩,
  ⟨0x188, [], 0x0, 0xFFFFFFFFFFF01, 0x0, 0x0, 0x0, 0x0, none, .trusted, 0x0, 0xFFFFFFFFFFF01⟩]

/-- The registers of a fuseTime block. -/
def regsFuseTime : List RegRow := [
  ⟨0x8000, [], 0x0, 0x0, 0x0, 0x0, 0x0, 0x0, none, .open_, 0x0, 0xFFFFFFFFFFFFFFFF⟩,
  ⟨0x8008, [], 0x0, 0x0, 0x8, 0x0, 0x0, 0x0, none, .open_, 0x0, 0xFFFFFFFF0000003F⟩,
  ⟨0x8010, [], 0x2, 0x0, 0x0, 0x0, 0x0, 0x103, some 8, .baseCamp, 0x0, 0x103⟩,
  ⟨0x0, [], 0x0, 0x0, 0x0, 0x0, 0x0, 0x0, none, .open_, 0xFFFFFFFFFFFFFFFF, 0xFFFFFFFFFFFFFFFF⟩,
  ⟨0x8, [], 0x0, 0x0, 0x0, 0x0, 0x0, 0x0, none, .open_, 0xFFE0000000000000, 0xFFE0000000000000⟩,
  ⟨0x100, [(64, 2), (8, 6)], 0x0, 0x0, 0x0, 0x0, 0x0, 0x0, none, .open_, 0xFFFFFFFFFFFFFFFF, 0xFFFFFFFFFFFFFFFF⟩]

/-- The registers of a core block. -/
def regsCore : List RegRow := [
  ⟨0x100, [], 0x0, 0x3FF, 0x0, 0x0, 0x0, 0x0, none, .open_, 0x0, 0x3FF⟩,
  ⟨0x200, [], 0x0, 0x0, 0x0, 0x0, 0x0, 0x0, none, .open_, 0x0, 0xFFFF070000000003⟩,
  ⟨0x208, [], 0x0, 0x0, 0x0, 0x0, 0x0, 0x0, none, .open_, 0x0, 0xFFFFFFFFFFFFFFFF⟩,
  ⟨0x210, [], 0x0, 0x0, 0x0, 0x0, 0x7, 0x0, none, .baseCamp, 0x0, 0x7⟩,
  ⟨0x300, [], 0x0, 0xFFFF0F, 0x0, 0x0, 0x0, 0x0, none, .baseCamp, 0xFFFF0F, 0xFFFF0F⟩]

/-- The registers of a sheaf block. -/
def regsSheaf : List RegRow := [
  ⟨0x100, [], 0x6E00055000, 0x3FFFFFFFFFFFC00, 0x0, 0x0, 0x0, 0x0, none, .open_, 0x0, 0x3FFFFFFFFFFFC00⟩,
  ⟨0x108, [], 0xFFF, 0xFFF, 0x0, 0x0, 0x0, 0x0, none, .open_, 0x0, 0xFFF⟩,
  ⟨0x110, [], 0x14000A0021C00000, 0xFFFFFFFFFFF00000, 0x0, 0x0, 0x0, 0x0, none, .baseCamp, 0xFFF000000FFC00, 0xFFFFFFFFFFFFFC00⟩,
  ⟨0x118, [], 0x0, 0x0, 0x600, 0x0, 0x0, 0x0, none, .open_, 0x0, 0xFFFFFFFFFFFF0E0F⟩,
  ⟨0x120, [], 0x0, 0x0, 0x0, 0x0, 0x0, 0x0, none, .open_, 0x0, 0xFFFFFFFFFFFFFC00⟩,
  ⟨0x200, [], 0x0, 0x0, 0x0, 0x0, 0x0, 0x101, some 8, .baseCamp, 0x0, 0x103⟩]

/-- The registers of a slice block. -/
def regsSlice : List RegRow := [
  ⟨0x100, [], 0x100, 0xFFF0000, 0x0, 0x0, 0x0, 0x10000300, some 28, .baseCamp, 0xFFF0000, 0x1FFF03FF⟩,
  ⟨0x200, [], 0x0, 0x0, 0x0, 0x0, 0x0, 0x101, some 8, .baseCamp, 0x0, 0x101⟩,
  ⟨0x208, [], 0x0, 0x0, 0x0, 0x0, 0x0, 0x0, none, .open_, 0x0, 0x3FEFFFFFFFFFFFF⟩]

/-- The registers of a fabric block. -/
def regsFabric : List RegRow := [
  ⟨0x100, [], 0x0, 0x1, 0x0, 0x0, 0x0, 0x0, none, .baseCamp, 0x0, 0xFFFFFFFF00000003⟩,
  ⟨0x200, [(8, 4)], 0x0, 0x0, 0x0, 0x0, 0x0, 0x0, none, .open_, 0x1, 0xFFFFFFFFFFFFFF07⟩,
  ⟨0x1000, [(8, 128)], 0x0, 0x1FFFFFFFFFFFFFFF, 0x0, 0x0, 0x0, 0x0, none, .baseCamp, 0x0, 0x1FFFFFFFFFFFFFFF⟩,
  ⟨0x1400, [(8, 128)], 0x0, 0x1FFFFFFFFFFFFFFF, 0x0, 0x0, 0x0, 0x0, none, .baseCamp, 0x0, 0x1FFFFFFFFFFFFFFF⟩]

/-- The registers of a memCtl block. -/
def regsMemCtl : List RegRow := [
  ⟨0x200, [], 0x7D0C80C8280F00F, 0xFFFFFFFFFFFFFFF, 0x0, 0x0, 0x0, 0x0, none, .open_, 0x0, 0xFFFFFFFFFFFFFFF⟩,
  ⟨0x208, [], 0x1A7, 0xFFF, 0x0, 0x0, 0x0, 0x0, none, .open_, 0x0, 0xFFF⟩,
  ⟨0x210, [], 0x40, 0xFFFF, 0x0, 0x0, 0x0, 0x0, none, .baseCamp, 0x0, 0xFFFF⟩,
  ⟨0x10000, [(65536, 2), (1024, 4), (8, 80)], 0x0, 0x7F07FF07FF, 0x0, 0x0, 0x0, 0x0, none, .baseCamp, 0x0, 0x7F07FF07FF⟩,
  ⟨0x220, [], 0x0, 0x0, 0x8, 0x0, 0x2, 0x0, none, .baseCamp, 0x0, 0xFFFF⟩,
  ⟨0x400, [], 0x0, 0x0, 0x2, 0x0, 0x0, 0x0, none, .open_, 0x0, 0xFFFFFFFFFF00FF03⟩,
  ⟨0x500, [(8, 8)], 0x0, 0xFFFFFFF0003F, 0x0, 0x0, 0x0, 0x0, none, .baseCampOrTrusted, 0x0, 0xFFFFFFF0003F⟩,
  ⟨0x580, [], 0x1, 0x1, 0x0, 0x0, 0x0, 0x0, none, .baseCampOrTrusted, 0x0, 0x1⟩,
  ⟨0x300, [], 0x10018, 0x1FFFF, 0x0, 0x0, 0x0, 0x0, none, .baseCamp, 0x0, 0x1FFFF⟩,
  ⟨0x308, [], 0x0, 0x0, 0x0, 0x0, 0x0, 0x0, none, .open_, 0x0, 0xFFFFFFFFFFFFFFFF⟩]

/-- The registers of a octet block. -/
def regsOctet : List RegRow := [
  ⟨0x0, [], 0x0, 0x0, 0x0, 0x0, 0x0, 0x10033, some 16, .baseCamp, 0x0, 0x1F033⟩,
  ⟨0x100, [], 0x0, 0x0, 0x0, 0x0, 0x0, 0x1FFFFFFFF, some 32, .baseCamp, 0x0, 0x1FFFFFFFF⟩,
  ⟨0x1000, [(256, 8)], 0x28004000600002, 0x1FFFFFFFC700003, 0x0, 0x0, 0x0, 0x0, none, .open_, 0x0, 0x1FFFFFFFC700003⟩,
  ⟨0x1008, [(256, 8)], 0x0, 0x0, 0x0, 0x0, 0x0, 0x0, none, .open_, 0x0, 0xFFFFFFFFFC00FFFA⟩,
  ⟨0x1040, [(256, 8), (8, 10)], 0x0, 0x0, 0x0, 0x0, 0x0, 0x0, none, .open_, 0x0, 0xFFFFFFFFFFFFFFFF⟩]

/-- The registers of a bar0 block. -/
def regsBar0 : List RegRow := [
  ⟨0x0, [], 0x1, 0x0, 0x0, 0x0, 0x0, 0x0, none, .open_, 0x0, 0xFFFFFFFFFE0F073F⟩,
  ⟨0x1080, [], 0x0, 0x3FF0100, 0x10, 0x0, 0x3, 0x0, none, .open_, 0x0, 0x3FF011F⟩,
  ⟨0x1000, [(8, 8)], 0x0, 0xFFFFFFFFFFFFFFFF, 0x0, 0x0, 0x0, 0x0, none, .open_, 0x0, 0xFFFFFFFFFFFFFFFF⟩,
  ⟨0x1040, [(8, 8)], 0x0, 0x0, 0x0, 0x0, 0x0, 0x0, none, .open_, 0x0, 0xFFFFFFFFFFFFFFFF⟩]

/-- The registers of a hostPort block. -/
def regsHostPort : List RegRow := [
  ⟨0x0, [], 0x0, 0x4, 0x0, 0x0, 0x3, 0x300, some 9, .open_, 0x0, 0x307⟩,
  ⟨0x8, [], 0x0, 0x0, 0x2, 0x0, 0x0, 0x0, none, .open_, 0x0, 0xFFF03E1F0003⟩,
  ⟨0x10, [], 0xC350, 0x3FFFFFF, 0x0, 0x0, 0x0, 0x0, none, .open_, 0x0, 0x3FFFFFF⟩,
  ⟨0x18, [], 0x0, 0x0, 0x0, 0x0, 0x0, 0x0, none, .open_, 0x0, 0xFFFFFFFF07FFFFFF⟩,
  ⟨0x10080, [(256, 64)], 0x0, 0x0, 0x10, 0x0, 0x3, 0x0, none, .open_, 0x0, 0x1F⟩,
  ⟨0x14000, [], 0x0, 0x0, 0x0, 0x0, 0x0, 0x0, none, .open_, 0x0, 0xFFFFFFFFFFFFFFFF⟩,
  ⟨0x14008, [], 0x0, 0x3FFFFFF, 0x0, 0x0, 0x0, 0x0, none, .open_, 0x0, 0x3FFFFFF⟩,
  ⟨0x10088, [(256, 64)], 0x0, 0xC0, 0x800000000, 0x0, 0xF00, 0x0, none, .open_, 0x0, 0xFF00000FC3⟩,
  ⟨0x10098, [(256, 64)], 0x0, 0xFFFFFFFFFFFFF07D, 0x0, 0x0, 0x0, 0x0, none, .open_, 0x0, 0xFFFFFFFFFFFFF07D⟩,
  ⟨0x100A0, [(256, 64)], 0x0, 0xFFFFF00000000, 0x8000000000000000, 0x0, 0x0, 0x0, none, .open_, 0x0, 0x800FFFFF000FFFFF⟩,
  ⟨0x10090, [(256, 64)], 0x0, 0xFFFFFFFFFFFFF000, 0x0, 0x0, 0x0, 0x0, none, .open_, 0x0, 0xFFFFFFFFFFFFF000⟩,
  ⟨0x10000, [(256, 64), (8, 8)], 0x0, 0x0, 0x0, 0x0, 0x0, 0x0, none, .open_, 0x0, 0xFFFFFFFFFFFFFFFF⟩,
  ⟨0x10040, [(256, 64), (8, 8)], 0x0, 0xFFFFFFFFFFFFFFFF, 0x0, 0x0, 0x0, 0x0, none, .open_, 0x0, 0xFFFFFFFFFFFFFFFF⟩,
  ⟨0x100C0, [(256, 64), (8, 6)], 0x0, 0x0, 0x0, 0x0, 0x0, 0x0, none, .open_, 0x0, 0xFFFFFFFFFFFFFFFF⟩]

/-- The registers of a chanSched block. -/
def regsChanSched : List RegRow := [
  ⟨0x0, [], 0x0, 0x0, 0x0, 0x0, 0x0, 0xFFFFFFFF00001, some 0, .baseCamp, 0x0, 0xFFFFFFFF00001⟩,
  ⟨0x10000, [(8, 8192)], 0x0, 0x0, 0x0, 0x0, 0x7, 0x0, none, .open_, 0x0, 0x7⟩,
  ⟨0x20000, [(32, 256)], 0x0, 0xFFFFFFFFFFFF3, 0x0, 0x0, 0x0, 0x0, none, .open_, 0x0, 0xFFFFFFFFFFFF3⟩,
  ⟨0x20008, [(32, 256)], 0x0, 0xFFFFFFFFFFFF8, 0x0, 0x0, 0x0, 0x0, none, .open_, 0x0, 0xFFFFFFFFFFFF8⟩,
  ⟨0x20010, [(32, 256)], 0x0, 0xFFFFFF800001FFBF, 0x0, 0x0, 0x0, 0x0, none, .open_, 0x0, 0xFFFFFF800001FFBF⟩,
  ⟨0x20018, [(32, 256)], 0x0, 0x0, 0x0, 0x0, 0x0, 0x0, none, .open_, 0x0, 0xFFFF000000017FFF⟩]

/-- The registers of a keyEngine block. -/
def regsKeyEngine : List RegRow := [
  ⟨0x10000, [(8, 8192)], 0x0, 0x0, 0x0, 0x0, 0xFFFFFFFFFFFFFFFF, 0x0, none, .trusted, 0x0, 0xFFFFFFFFFFFFFFFF⟩,
  ⟨0x100, [], 0x0, 0xFFFFFFFF3FFF0004, 0x0, 0x0, 0x3, 0x0, none, .trusted, 0x0, 0xFFFFFFFF3FFF0007⟩,
  ⟨0x108, [(8, 6)], 0x0, 0xFFFFFFFFFFFFFFFF, 0x0, 0x0, 0x0, 0x0, none, .trusted, 0x0, 0xFFFFFFFFFFFFFFFF⟩,
  ⟨0x140, [], 0x0, 0x0, 0x4, 0x0, 0x0, 0x0, none, .open_, 0x0, 0xFFFFFFFFFF00000F⟩]

/-- The registers of a bridgeMaster block. -/
def regsBridgeMaster : List RegRow := [
  ⟨0x0, [], 0x12C0000000000000, 0xFFFFFFFFFFFFFFFF, 0x0, 0x0, 0x0, 0x0, none, .open_, 0x0, 0xFFFFFFFFFFFFFFFF⟩,
  ⟨0x8, [], 0x0, 0xFFFFFFFFFFFFFFF, 0x0, 0x0, 0x0, 0x0, none, .open_, 0x0, 0xFFFFFFFFFFFFFFF⟩,
  ⟨0x10, [], 0x0, 0x3FF0000, 0x10000000, 0x0, 0xF, 0x0, none, .open_, 0x0, 0xFFFFFFFFFBFF000F⟩,
  ⟨0x10000, [(16, 960)], 0x2000400, 0xFFFFFFFFFFFFFC00, 0x0, 0x0, 0x0, 0x0, none, .open_, 0x0, 0xFFFFFFFFFFFFFC00⟩,
  ⟨0x10008, [(16, 960)], 0x0, 0x0, 0x0, 0x0, 0x0, 0x0, none, .open_, 0x0, 0xFFFFFFFFFFFFFFFF⟩]

/-- The registers of a vault block. -/
def regsVault : List RegRow := [
  ⟨0x100, [], 0x0, 0x7FFF00FF0000002, 0x4000000000000000, 0x0, 0x1, 0x0, none, .open_, 0x0, 0xFFFFF00FF0000003⟩,
  ⟨0x200, [], 0x4000000, 0x0, 0x0, 0x0, 0x0, 0x4000FF7FFF000000, some 62, .open_, 0x0, 0xC000FF7FFF000000⟩,
  ⟨0x300, [], 0x3120812C00000000, 0x0, 0x0, 0x0, 0x0, 0xFFFF81FF00000001, some 0, .open_, 0x0, 0xFFFF81FF00000001⟩,
  ⟨0x308, [], 0x0, 0x0, 0x0, 0x0, 0x0, 0x0, none, .open_, 0x0, 0xFFFFFFFC00000003⟩,
  ⟨0x310, [], 0x0, 0x0, 0x0, 0x0, 0xFFFFFFFFFFFFFFFF, 0x0, none, .open_, 0x0, 0xFFFFFFFFFFFFFFFF⟩,
  ⟨0x400, [], 0x0, 0xFFFFFF8000000000, 0x2000000000, 0x0, 0xF, 0x0, none, .open_, 0x0, 0xFFFFFFF00000000F⟩,
  ⟨0x500, [], 0x0, 0x0, 0x1, 0x0, 0x0, 0x0, none, .open_, 0x0, 0xFFFFFFFF0000FF01⟩,
  ⟨0x700, [], 0x0, 0x0, 0x0, 0x0, 0x0, 0x0, none, .open_, 0x0, 0xFF0F⟩,
  ⟨0x408, [], 0x0, 0xFFFFFFFFFFFFF, 0x0, 0x0, 0x0, 0x0, none, .open_, 0x0, 0xFFFFFFFFFFFFF⟩,
  ⟨0x418, [], 0x0, 0xFFFFFFC000000, 0x0, 0x0, 0x0, 0x0, none, .open_, 0x0, 0xFFFFFFC000000⟩,
  ⟨0x600, [(8, 16)], 0x0, 0x0, 0x0, 0x0, 0x0, 0x0, none, .open_, 0x0, 0xFFFFFFFFFFFFFFFF⟩,
  ⟨0x680, [], 0x0, 0x0, 0x0, 0x0, 0xF, 0x0, none, .open_, 0x0, 0xF⟩,
  ⟨0x690, [], 0x0, 0x0, 0x0, 0x0, 0x0, 0x0, none, .open_, 0x0, 0xFFFFFFFFFFFF⟩,
  ⟨0x1000, [(64, 8), (8, 6)], 0x0, 0x0, 0x0, 0x0, 0x0, 0x0, none, .open_, 0x0, 0xFFFFFFFFFFFFFFFF⟩,
  ⟨0x1200, [(8, 6)], 0x0, 0x0, 0x0, 0x0, 0xFFFFFFFFFFFFFFFF, 0x0, none, .open_, 0x0, 0xFFFFFFFFFFFFFFFF⟩,
  ⟨0x1230, [], 0x0, 0x0, 0x0, 0x0, 0x7, 0x0, none, .open_, 0x0, 0x7⟩]

/-- The registers of a corePerf block. -/
def regsCorePerf : List RegRow := [
  ⟨0x80, [(8, 8)], 0x0, 0xFFFFFFFFFF800FFF, 0x0, 0x0, 0x0, 0x0, none, .open_, 0x0, 0xFFFFFFFFFFC00FFF⟩,
  ⟨0xC0, [], 0x6, 0xF, 0xFFFF00000000, 0x0, 0x0, 0x0, none, .open_, 0x0, 0xFFFFFFFF0000000F⟩,
  ⟨0x100, [], 0x0, 0xFF00000000FFFF00, 0x0, 0x0, 0x0, 0x0, none, .open_, 0x0, 0xFF00000000FFFF00⟩,
  ⟨0x0, [(8, 8)], 0x0, 0xFFFFFFFFFFFFFFFF, 0x0, 0x0, 0x0, 0x0, none, .open_, 0x0, 0xFFFFFFFFFFFFFFFF⟩,
  ⟨0x40, [(8, 8)], 0x0, 0x0, 0x0, 0x0, 0x0, 0x0, none, .open_, 0x0, 0xFFFFFFFFFFFFFFFF⟩,
  ⟨0xC8, [], 0x0, 0xFFFFFFFFFFFFFFFF, 0x0, 0x0, 0x0, 0x0, none, .open_, 0x0, 0xFFFFFFFFFFFFFFFF⟩,
  ⟨0xD0, [], 0x0, 0xFFFFFFFFFFFFFFFF, 0x0, 0x0, 0x0, 0x0, none, .open_, 0x0, 0xFFFFFFFFFFFFFFFF⟩,
  ⟨0x108, [], 0x0, 0xFFFFFFFFFF01F, 0x0, 0x0, 0x0, 0x0, none, .open_, 0x0, 0xFFFFFFFFFF01F⟩,
  ⟨0x110, [], 0x0, 0xFFFF00000000, 0xFFFF000000000000, 0x0, 0x0, 0x0, none, .open_, 0x0, 0xFFFFFFFF0000FFFF⟩]

/-- The registers of a debugTrace block. -/
def regsDebugTrace : List RegRow := [
  ⟨0x0, [], 0x0, 0x0, 0x0, 0x0, 0x0, 0x0, none, .baseCamp, 0x0, 0xFFFFFFFF00000007⟩,
  ⟨0x100, [(8, 32)], 0x0, 0xEFFF, 0x0, 0x0, 0x0, 0x0, none, .baseCamp, 0x0, 0x1EFFF⟩,
  ⟨0x200, [], 0x0, 0xFFFFFFFFFF01F, 0x0, 0x0, 0x0, 0x0, none, .open_, 0x0, 0xFFFFFFFFFF01F⟩,
  ⟨0x208, [], 0x0, 0xFFFF00000000, 0xFFFF000000000000, 0x0, 0x0, 0x0, none, .open_, 0x0, 0xFFFFFFFF0000FFFF⟩]

/-- The registers of a coreDebug block. -/
def regsCoreDebug : List RegRow := [
  ⟨0x0, [], 0x0, 0x7, 0x0, 0x0, 0x0, 0x0, none, .open_, 0x0, 0x7⟩]

/-- The registers of a uncorePerf block. -/
def regsUncorePerf : List RegRow := [
  ⟨0x0, [(8, 16)], 0x0, 0xFFFFFFFFFFFFFFFF, 0x0, 0x0, 0x0, 0x0, none, .open_, 0x0, 0xFFFFFFFFFFFFFFFF⟩,
  ⟨0x80, [(8, 16)], 0x0, 0x0, 0x0, 0x0, 0x0, 0x0, none, .open_, 0x0, 0xFFFFFFFFFFFFFFFF⟩,
  ⟨0x100, [(8, 16)], 0x0, 0xFFFFFFFFFFC00FFF, 0x0, 0x0, 0x0, 0x0, none, .open_, 0x0, 0xFFFFFFFFFFE00FFF⟩,
  ⟨0x180, [], 0x6, 0xF, 0xFFFF00000000, 0x0, 0x0, 0x0, none, .open_, 0x0, 0xFFFFFFFF0000000F⟩,
  ⟨0x188, [], 0x0, 0xFFFFFFFFFFFFFFFF, 0x0, 0x0, 0x0, 0x0, none, .open_, 0x0, 0xFFFFFFFFFFFFFFFF⟩,
  ⟨0x190, [], 0x0, 0xFFFFFFFFFFFFFFFF, 0x0, 0x0, 0x0, 0x0, none, .open_, 0x0, 0xFFFFFFFFFFFFFFFF⟩]

end Sys2Proof.Machine
end

