-- ==== Sys2Proof/Machine/Ops.lean ====
section
/-! DEFINITION. The named operations every meaning is written over: sorted maps, bit fields, byte order (R5), the register map
of control space, memory bytes and tags, and the places of the units (R10 to R15). -/

namespace Sys2Proof.Machine

/-! ### Sorted maps -/

/-- The entry at key `k`, if one is listed. -/
def mfind {β : Type} : SMap β → Nat → Option β
  | [], _ => none
  | (k, v) :: m, i => if i = k then some v else mfind m i

/-- The value at key `k`: the listed one, or the default. -/
def mget {β : Type} (d : β) (m : SMap β) (k : Nat) : β := (mfind m k).getD d

/-- The map without key `k`. -/
def mdel {β : Type} : SMap β → Nat → SMap β
  | [], _ => []
  | (k, v) :: m, i => if i = k then mdel m i else (k, v) :: mdel m i

/-- The map with `v` at key `k`, in its place by key. -/
def mins {β : Type} : SMap β → Nat → β → SMap β
  | [], i, v => [(i, v)]
  | (k, w) :: m, i, v =>
    if i = k then (k, v) :: m else if i < k then (i, v) :: (k, w) :: m else (k, w) :: mins m i v

/-- Set key `k` to `v`; `d` is the default of that key, which is never listed. -/
def mput {β : Type} [DecidableEq β] (d : β) (m : SMap β) (k : Nat) (v : β) : SMap β :=
  if v = d then mdel m k else mins m k v

/-- Keys strictly rising, from above `lo`. -/
def mrising {β : Type} : Option Nat → SMap β → Bool
  | _, [] => true
  | none, (k, _) :: m => mrising (some k) m
  | some l, (k, _) :: m => decide (l < k) && mrising (some k) m

/-- The canonical form of a map whose key `k` has default `d k`: keys strictly rising, and no entry equal to its default. -/
def mwf {β : Type} [DecidableEq β] (d : Nat → β) (m : SMap β) : Bool :=
  mrising none m && m.all (fun e => decide (e.2 ≠ d e.1))

/-! ### Bit fields and byte order -/

def Fld.width (f : Fld) : Nat := f.hi - f.lo + 1

/-- The value of a field of a word. -/
def fld (w : Word) (f : Fld) : Nat := (w.toNat >>> f.lo) % 2 ^ f.width

/-- The word with a field set to `n`, cut to the field's width. -/
def setFld (w : Word) (f : Fld) (n : Nat) : Word :=
  let mask : Word := BitVec.ofNat 64 ((2 ^ f.width - 1) <<< f.lo)
  (w &&& ~~~mask) ||| BitVec.ofNat 64 ((n % 2 ^ f.width) <<< f.lo)

def fldB (w : Word) (f : Fld) : Bool := fld w f != 0

def ofBool (b : Bool) : Nat := if b then 1 else 0

/-- A count held in a field that saturates. -/
def satInc (w : Word) (f : Fld) (n : Nat) : Word := setFld w f (min (fld w f + n) (2 ^ f.width - 1))

/-- A count held in a field that wraps. -/
def wrapInc (w : Word) (f : Fld) : Word := setFld w f (fld w f + 1)

/-- The `n` bytes of a number, least significant first (R5). -/
def toBytes : Nat → Nat → List Byte
  | 0, _ => []
  | n + 1, v => BitVec.ofNat 8 v :: toBytes n (v / 256)

/-- The number whose bytes these are, least significant first (R5). -/
def ofBytes : List Byte → Nat
  | [] => 0
  | b :: bs => b.toNat + 256 * ofBytes bs

/-- A number of `n` bits read as two's complement. -/
def sextNat (n v : Nat) : Int := if v < 2 ^ (n - 1) then (v : Int) else (v : Int) - 2 ^ n

def alignDown (a n : Nat) : Nat := a / n * n
def alignUp (a n : Nat) : Nat := (a + n - 1) / n * n

/-- The bytes of consecutive 64-bit words (R5). -/
def wordsBytes (ws : List Word) : List Byte := ws.flatMap (fun w => toBytes 8 w.toNat)

/-- Cut a list into pieces of `n`. -/
def chunks {α : Type} (n : Nat) : Nat → List α → List (List α)
  | 0, _ => []
  | k + 1, l => l.take n :: chunks n k (l.drop n)

/-- A list with its entry at `i` replaced. -/
def lset {α : Type} (l : List α) (i : Nat) (v : α) : List α := l.set i v

/-- A list without its entry at `i`. -/
def ldel {α : Type} (l : List α) (i : Nat) : List α := l.eraseIdx i

/-! ### Units (R10 to R15) -/

/-- The unit ID of core `c` of tile index `i` (R11, R12). -/
def tileBits (i : Nat) : Nat := (i / 24) * 0x4000 + (i / 4 % 6) * 0x800 + (i % 4) * 0x200

/-- The unit ID of core number `k` = 2 × tile index + core bit, its control block (R12, R14). -/
def coreUid (k : Nat) : Nat := tileBits (k / 2) + (k % 2) * 0x100
def tileUid (i : Nat) : Nat := tileBits i + 0x80
def sliceUid (i : Nat) : Nat := tileBits i + 0x81
def tileFabUid (i : Nat) : Nat := tileBits i + 0x82
/-- The unit ID of sheaf number `h` = 6 × field + sheaf. -/
def sheafUid (h : Nat) : Nat := (h / 6) * 0x4000 + (h % 6) * 0x800 + 0xC0
def mcUid (c : Nat) : Nat := (c / 4) * 0x4000 + 0x3800 + (c % 4) * 0x100
def ioUid (s : Nat) : Nat := (s / 2) * 0x4000 + 0x3C00 + (s % 2) * 0x100
def esUid (f : Nat) : Nat := f * 0x4000 + 0x3E00
def ssUid (f : Nat) : Nat := f * 0x4000 + 0x3F00
/-- Move engine `m` = 2 × engine stop + k (R14, R378). -/
def meUid (m : Nat) : Nat := esUid (m / 2) + 0x10 + m % 2
def keUid (m : Nat) : Nat := esUid (m / 2) + 0x20 + m % 2
/-- The channel scheduler of engine stop `f`. -/
def chUid (f : Nat) : Nat := esUid f + 0x30
/-- Octet `o` = 4 × I/O stop + octet of the stop (R14). -/
def octUid (o : Nat) : Nat := ioUid (o / 4) + 0x10 + o % 4
/-- The port block of host port `p` (R333). -/
def portUid (p : Nat) : Nat := ioUid (p / 2) + 0x20 + 2 * (p % 2)
/-- The core number of a core's unit ID. -/
def coreOfUid (u : Nat) : Nat := 2 * ((u / 0x4000) * 24 + (u / 0x800 % 8) * 4 + u / 0x200 % 4) + u / 0x100 % 2
/-- The tile index of any block of a tile. -/
def tileOfUid (u : Nat) : Nat := (u / 0x4000) * 24 + (u / 0x800 % 8) * 4 + u / 0x200 % 4
def sheafOfCore (k : Nat) : Nat := k / 8
def sheafOfTile (i : Nat) : Nat := i / 4

/-- The fabric stop of a unit (R15). -/
def stopOfTile (i : Nat) : Nat := (i / 4 % 6 + 1) * 16 + 4 * (i / 24) + i % 4
def stopOfMc (c : Nat) : Nat := c
def stopOfIo (s : Nat) : Nat := 112 + 4 * (s / 2) + 3 * (s % 2)
def stopOfEs (f : Nat) : Nat := 112 + 4 * f + 1
def stopOfSs (f : Nat) : Nat := 112 + 4 * f + 2

/-- The unit ID of the fabric interface block at a stop (R14, R15). -/
def fabUidOfStop (st : Nat) : Nat :=
  if st < 16 then mcUid st + 1
  else if st < 112 then tileFabUid ((st % 16 / 4) * 24 + (st / 16 - 1) * 4 + st % 4)
  else
    let f := (st - 112) / 4
    match (st - 112) % 4 with
    | 0 => ioUid (2 * f) + 1
    | 1 => esUid f + 1
    | 2 => ssUid f + 1
    | _ => ioUid (2 * f + 1) + 1

/-- The unit whose state word a stop's own state is: the tile fabric stop, the memory stop, or the field-level stop (R23). -/
def stateUidOfStop (st : Nat) : Nat :=
  let u := fabUidOfStop st
  if 16 ≤ st ∧ st < 112 then u else u - 1

/-- The stop of a unit ID, by its field, sheaf and tile bits. -/
def stopOfUid (u : Nat) : Nat :=
  if u / 0x800 % 8 = 7 then
    let f := u / 0x4000
    match u / 0x100 % 8 with
    | 4 => stopOfIo (2 * f)
    | 5 => stopOfIo (2 * f + 1)
    | 6 => stopOfEs f
    | 7 => stopOfSs f
    | v => stopOfMc (4 * f + v)
  else stopOfTile (tileOfUid u)

def uidBaseCamp : Nat := 0x3F10
def uidVault : Nat := 0x7F10
def uidDebug : Nat := 0xBF10
def uidFuse : Nat := 0xFF10
/-- The unit field of a record about the device (R462). -/
def uidDevice : Nat := 0xFFFF

/-- The buddy slice (R11). -/
def buddyOf (i : Nat) : Nat := (i + 48) % 96

/-! ### The register map -/

/-- Does a distance `d` from a row's first register fall on one of its registers: dimensions outermost first. -/
def dimsHit : List (Nat × Nat) → Nat → Bool
  | [], d => d == 0
  | (st, n) :: [], d => d % st == 0 && decide (d / st < n)
  | (st, n) :: e :: ds, d => decide (d / st < n) && dimsHit (e :: ds) (d % st)

def rowHit (r : RegRow) (o : Nat) : Bool := decide (r.off ≤ o) && dimsHit r.dims (o - r.off)

def rowFind : List RegRow → Nat → Option RegRow
  | [], _ => none
  | r :: rs, o => if rowHit r o then some r else rowFind rs o

/-- The stop performance block of a memory stop or I/O stop (R514): its window register and its fixed last-window counts. -/
def regsBandwidth (sel : Nat) : List RegRow :=
  let win : RegRow := ⟨0xC0, [], 0x6, 0xF, 0xFFFF00000000, 0x0, 0x0, 0x0, none, .open_, 0, 0xFFFFFFFF0000000F⟩
  let count (off n : Nat) : RegRow := ⟨off, [(8, n)], 0x0, 0x0, 0x0, 0x0, 0x0, 0x0, none, .open_, 0, 0xFFFFFFFFFFFFFFFF⟩
  if sel < 4 then [win, count 0 3] else if sel < 6 then [win, count 0x20 3, count 0x40 3] else []

/-- The registers of the block that a unit ID names: none where R14 leaves the combination unassigned. -/
def blockRows (u : Nat) : List RegRow :=
  let sheaf := u / 0x800 % 8
  let sel := u / 0x100 % 8
  let sub := u % 0x100
  if sheaf = 7 then
    if sub = 0x01 then regsFabric
    else if sub = 0x02 then (if sel = 7 then regsUncorePerf else regsBandwidth sel)
    else if sel < 4 then (if sub = 0 then regsAnyState ++ regsMemCtl else [])
    else if sub = 0 then regsAnyState
    else if sel = 4 ∨ sel = 5 then
      if 0x10 ≤ sub ∧ sub < 0x14 then regsOctet
      else if sub = 0x20 ∨ sub = 0x22 then regsHostPort
      else []
    else if sel = 6 then
      if sub = 0x10 ∨ sub = 0x11 then regsAnyState
      else if sub = 0x20 ∨ sub = 0x21 then regsAnyState ++ regsKeyEngine
      else if sub = 0x30 then regsChanSched
      else if sub = 0x40 ∧ u / 0x4000 = 0 then regsBridgeMaster
      else []
    else if sub = 0x10 then
      match u / 0x4000 with
      | 0 => regsBaseCamp
      | 1 => regsVault
      | 2 => regsDebugTrace
      | _ => regsFuseTime
    else []
  else if sheaf = 6 then []
  else if sub = 0x00 then regsAnyState ++ regsCore
  else if sub = 0x01 then regsCorePerf
  else if sub = 0x02 then regsCoreDebug
  else if sel % 2 = 0 ∧ sub = 0x80 then regsAnyState
  else if sel % 2 = 0 ∧ sub = 0x81 then regsAnyState ++ regsSlice
  else if sel % 2 = 0 ∧ sub = 0x82 then regsAnyState ++ regsFabric
  else if sel = 0 ∧ sub = 0xC0 then regsAnyState ++ regsSheaf
  else []

/-- The register row at a control address, if the block defines a register there (R22). -/
def regRow (a : Nat) : Option RegRow :=
  if a < 0x1000000000 then rowFind (blockRows (a / 0x100000)) (a / 8 * 8 % 0x100000)
  else rowFind regsBar0 (a / 8 * 8 % 0x10000)

/-- The value a register holds after the reset of its unit (R8). A state word holds its own unit ID, and off until stage S1
loads it (R23, R24); HP_INST_STATUS holds its port number (R341). -/
def resetVal (a : Nat) : Word :=
  match regRow a with
  | none => 0
  | some r =>
    if a < 0x1000000000 ∧ a % 0x100000 = 0 ∧ r.owner = .none then
      BitVec.ofNat 64 ((a / 0x100000) * 0x1000000000000 + 1)
    else if 0x1000000000 ≤ a ∧ a % 0x10000 = 0 then
      BitVec.ofNat 64 (r.reset + ((a - 0x1000000000) / 0x400000) * 0x10000)
    else BitVec.ofNat 64 r.reset

/-- The stored value of the register at a control address. -/
def State.getR (s : State) (a : Nat) : Word := (mfind s.regs a).getD (resetVal a)

/-- Set the stored value of a register. -/
def State.putR (s : State) (a : Nat) (v : Word) : State := { s with regs := mput (resetVal a) s.regs a v }

/-- A field of a register. -/
def State.getF (s : State) (a : Nat) (f : Fld) : Nat := fld (s.getR a) f

def State.getB (s : State) (a : Nat) (f : Fld) : Bool := s.getF a f != 0

/-- Set one field of a register, the others as they were. -/
def State.putF (s : State) (a : Nat) (f : Fld) (n : Nat) : State := s.putR a (setFld (s.getR a) f n)

def State.putB (s : State) (a : Nat) (f : Fld) (b : Bool) : State := s.putF a f (ofBool b)

/-- A register back at its reset value. -/
def State.resetR (s : State) (a : Nat) : State := { s with regs := mdel s.regs a }

/-! ### Writes by the access codes of R7 -/

def rowLocked (s : State) (a : Nat) (x : RegRow) : Bool :=
  match x.lock with
  | some b => (s.getR a).toNat.testBit b
  | none => false

/-- The bits a write sets as written. -/
def setMask (s : State) (a : Nat) (x : RegRow) : Word :=
  BitVec.ofNat 64 x.rw ||| (if rowLocked s a x then 0 else BitVec.ofNat 64 x.rwl)

/-- A register after a write, by its access codes. -/
def plainValue (s : State) (a : Nat) (x : RegRow) (v : Word) : Word :=
  let m := setMask s a x
  let w := (s.getR a &&& ~~~m) ||| (v &&& m)
  (w &&& ~~~(v &&& BitVec.ofNat 64 x.w1c)) ||| (v &&& BitVec.ofNat 64 x.w1s)

def plainWrite (s : State) (a : Nat) (x : RegRow) (v : Word) : State := s.putR a (plainValue s a x v)

/-- The region and window registers, read-only to software, which base camp writes from the image (R311, R329). -/
def isWindowReg (a : Nat) : Bool :=
  (List.range 4).any (fun k => a == rBcDramRgn k) || (List.range 16).any (fun n => a == rBcCxlWin n)

/-- Base camp sets a register as its image asks: every field of a region or window register, and of any other by the field's access
code (R7, R9). -/
def setReg (s : State) (a : Nat) (v : Word) : State :=
  match regRow a with
  | some x => if isWindowReg a then s.putR a (v &&& BitVec.ofNat 64 x.named) else plainWrite s a x v
  | none => s

/-- The value a register has from its fuses: theirs in the fields the fuses hold, the exact reset value elsewhere (R8, R493). -/
def fusedVal (s : State) (a : Nat) : Word :=
  match s.fuses.values.find? (fun e => e.1 == a), regRow a with
  | some e, some x => (resetVal a &&& ~~~(BitVec.ofNat 64 x.fuse)) ||| (e.2 &&& BitVec.ofNat 64 x.fuse)
  | _, _ => resetVal a

end Sys2Proof.Machine
end

