-- ==== Sys2Proof/Machine/Mem.lean ====
section
/-! DEFINITION. Physical memory: the map of R16 to R18, interleave and local addresses (R310 to R312), which requests a home and
a controller admits (R326, R437, R438), bytes, tags (R134, R135) and poison (R248, R309). A line's bytes are held once, as the
coherent value every observer reads (R276); which caches hold the line is kept apart, in Machine/Coherence.lean. -/

namespace Sys2Proof.Machine

/-- The class of a requester, as homes and controllers tell them apart (R326, R437). -/
inductive ReqClass where
  | normal | trusted | baseCamp | migration
deriving DecidableEq, Repr

/-- Where a physical address leads (R16). -/
inductive PClass where
  | dram
  | scratch (slice way : Nat)
  | device (off : Nat)
  | hostAp (port : Nat) (addr : Nat)
  | expansion (win : Nat)
  | none
deriving DecidableEq, Repr

def dramEndGib (s : State) : Nat :=
  (List.range 4).foldl (fun n k =>
    if s.getB (rBcDramRgn k) BcDramRgn.valid then n + s.getF (rBcDramRgn k) BcDramRgn.size else n) 0

/-- Bytes of local DRAM that answer now: the regions, as far as they are initialised (R18, R311, R499). -/
def dramLimit (s : State) : Nat :=
  min (dramEndGib s) (s.getF rBcMemInit BcMemInit.limit_gib) * 0x40000000

def stateOf (s : State) (u : Nat) : Nat := s.getF (rUnitState u) UnitState.state

/-- A unit reads in service or draining. -/
def serving (s : State) (u : Nat) : Bool := stateOf s u == 4 || stateOf s u == 5

/-- Scratch ways in force; 9 to 15 act as 8 (R252). -/
def scratchWays (s : State) : Nat := min 8 (s.getF rBcScratchCfg BcScratchCfg.ways)

def hostPortMode (s : State) (p : Nat) : Bool := s.getF (rHpOctCfg (octUid (2 * p))) HpOctCfg.mode == 1

/-- The expansion window that holds an address (R328). -/
def expWindow (s : State) (pa : Nat) : Option Nat :=
  (List.range 16).find? (fun n =>
    s.getB (rBcCxlWin n) BcCxlWin.valid &&
      decide (s.getF (rBcCxlWin n) BcCxlWin.base_4g * 0x100000000 ≤ pa) &&
      decide (pa < (s.getF (rBcCxlWin n) BcCxlWin.base_4g + s.getF (rBcCxlWin n) BcCxlWin.size_4g) * 0x100000000))

/-- The decoding of a physical address (R16 to R18, R252, R311, R328). -/
def physClass (s : State) (pa : Nat) : PClass :=
  if pa < 0x100000000000 then (if pa < dramLimit s then .dram else .none)
  else if pa < 0x110000000000 then
    let off := pa - 0x100000000000
    let i := off / 0x200000 % 128
    let j := off / 0x40000 % 8
    if off < 0xC000000 ∧ j < min (scratchWays s) (s.getF (rTileL3Ways (sliceUid i)) TileL3Ways.scratch_ways) ∧ serving s (sliceUid i) then .scratch i j else .none
  else if pa < 0x200000000000 then .none
  else if pa < 0x300000000000 then .device (pa - 0x200000000000)
  else if pa < 0x400000000000 then .none
  else if pa < 0x800000000000 then
    let p := (pa - 0x400000000000) / 0x40000000000
    if hostPortMode s p then .hostAp p ((pa - 0x400000000000) % 0x40000000000) else .none
  else if pa < 0x1000000000000 then .none
  else if pa < 0x10000000000000 then
    match expWindow s pa with
    | some n => .expansion n
    | none => .none
  else .none

/-- The octet a CXL link starts at (R333). -/
def linkOctet (s : State) (l : Nat) : Option Nat :=
  (List.range 32).find? (fun o =>
    s.getF (rHpOctCfg (octUid o)) HpOctCfg.mode == 3 && s.getF (rHpOctCfg (octUid o)) HpOctCfg.width != 2 &&
      s.getF (rHpOctCfg (octUid o)) HpOctCfg.xlink == l)

/-- The I/O stop of a CXL link. -/
def linkIo (s : State) (l : Nat) : Nat := (linkOctet s l).getD 0 / 4

/-- A class of address that holds cacheable bytes and is homed at a slice. -/
def PClass.isMem : PClass → Bool
  | .dram => true
  | .scratch _ _ => true
  | .expansion _ => true
  | _ => false

/-- A class of address whose granules hold tags (R134). -/
def PClass.hasTags : PClass → Bool
  | .dram => true
  | .scratch _ _ => true
  | _ => false

/-- A class of address to which no tag can be stored (R137). -/
def PClass.refusesTags : PClass → Bool
  | .hostAp _ _ => true
  | .expansion _ => true
  | _ => false

/-! ### Interleave (R310 to R312) -/

def chanIdx (pa : Nat) : Nat :=
  let g := pa / 256
  (g ^^^ (g / 64) ^^^ (g / 4096) ^^^ (g / 262144) ^^^ (g / 16777216) ^^^ (g / 1073741824)) % 64

/-- Entry `i` of the channel map (R310). -/
def chanMap (s : State) (i : Nat) : Nat := fld (s.getR (rBcChanMap (i / 16))) ⟨4 * (i % 16) + 3, 4 * (i % 16)⟩

def primaryChan (s : State) (pa : Nat) : Nat := chanMap s (chanIdx pa)
def mirrorChan (c : Nat) : Nat := c ^^^ 8

/-- The interleave region of a local DRAM address: its number and its base. -/
def dramRegionGo (s : State) (pa : Nat) : List Nat → Nat → Option (Nat × Nat)
  | [], _ => none
  | k :: ks, base =>
    if s.getB (rBcDramRgn k) BcDramRgn.valid then
      let top := base + s.getF (rBcDramRgn k) BcDramRgn.size * 0x40000000
      if pa < top then some (k, base) else dramRegionGo s pa ks top
    else dramRegionGo s pa ks base

def dramRegion (s : State) (pa : Nat) : Option (Nat × Nat) := dramRegionGo s pa [0, 1, 2, 3] 0

def regionMirrored (s : State) (k : Nat) : Bool := s.getB (rBcDramRgn k) BcDramRgn.mirror

/-- A local DRAM line lies in a mirrored region (R311). -/
def mirrored (s : State) (pa : Nat) : Bool :=
  match dramRegion s pa with
  | some (k, _) => regionMirrored s k
  | none => false

/-- Populated channels, P of R310. -/
def populated (s : State) : Nat := ((List.range 16).filter (fun c => stateOf s (mcUid c) != 0)).length

/-- The channel-local address of a local DRAM address (R312). -/
def localAddr (s : State) (pa : Nat) : Nat :=
  match dramRegion s pa with
  | none => 0
  | some (k, base) =>
    let off := pa - base
    let p := populated s
    let idx := chanIdx pa
    let c := chanMap s idx
    let mir := regionMirrored s k
    let n := if mir then 2 * (64 / p) else 64 / p
    let j := ((List.range idx).filter (fun e => chanMap s e == c || (mir && chanMap s e == mirrorChan c))).length
    s.getF (rBcDramRgn k) BcDramRgn.local_base * 0x40000000 + (off / 0x4000 * n + j) * 256 + pa % 256

/-- Bytes of one logical rank of a channel, from its modules (R313); 64 GiB where none is known. -/
def rankSize (s : State) (c : Nat) : Nat :=
  match mfind s.dimms c with
  | some d => max 1 d.gib * 0x40000000
  | none => 64 * 0x40000000

/-- The logical rank of a channel-local address (R313). -/
def logicalRank (s : State) (c loc : Nat) : Nat := loc / rankSize s c

/-! ### Admission -/

/-- A secure line while the watermarks are valid (R437). -/
def isSecure (s : State) (pa : Nat) : Bool :=
  s.getB rVltWatermark VltWatermark.valid &&
    ((decide (pa < 0x100000000000) && decide (pa < s.getF rVltWatermark VltWatermark.sec_wm_gib * 0x40000000)) ||
     (decide (0x100000000000 ≤ pa) && decide (pa < 0x110000000000) &&
      decide (pa - 0x100000000000 < s.getF rVltWatermark VltWatermark.scr_wm_mib * 0x100000)))

/-- The home's check of R437. -/
def homeAdmits (s : State) (q : ReqClass) (pa : Nat) : Bool :=
  !isSecure s pa || q == .trusted || q == .migration

/-- One region register admits a request at a local address (R326). -/
def regionAdmits (s : State) (c k : Nat) (q : ReqClass) (write : Bool) (loc : Nat) : Bool :=
  let r := rMcRegion (mcUid c) k
  s.getB r McRegion.en &&
    decide (s.getF r McRegion.base ≤ loc / 0x4000000) && decide (loc / 0x4000000 ≤ s.getF r McRegion.limit) &&
    (match q with
     | .baseCamp => s.getB r McRegion.bc
     | .migration => s.getB r McRegion.migr
     | .trusted => s.getB r McRegion.secure
     | .normal => s.getB r McRegion.normal) &&
    (!write || s.getB r McRegion.wr)

/-- The controller's check of a request at channel `c` (R326, R438). -/
def chanAdmits (s : State) (c : Nat) (q : ReqClass) (write : Bool) (pa : Nat) : Bool :=
  if s.getF (rMcProt (mcUid c)) McProt.mode = 1 then
    (List.range 8).any (fun k => regionAdmits s c k q write (localAddr s pa))
  else homeAdmits s q pa

/-- A channel answers requests: it is in service or draining. -/
def chanUp (s : State) (c : Nat) : Bool := serving s (mcUid c)

/-- The channels that hold a local DRAM line (R310, R321). -/
def lineChans (s : State) (pa : Nat) : List Nat :=
  let c := primaryChan s pa
  if mirrored s pa then [c, mirrorChan c] else [c]

/-- A request of class `q` to a line passes the home and every controller it reaches (R326, R437, R438). -/
def admits (s : State) (q : ReqClass) (write : Bool) (pa : Nat) : Bool :=
  homeAdmits s q pa &&
    (match physClass s pa with
     | .dram => ((lineChans s pa).filter (chanUp s)).all (fun c => chanAdmits s c q write pa)
     | _ => true)

/-- No copy of the line can be read: an unmirrored channel has failed (R330), both mirror channels have, or an expansion link is
lost with no mirror (R329). -/
def lineDead (s : State) (pa : Nat) : Bool :=
  match physClass s pa with
  | .dram => ((lineChans s pa).filter (chanUp s)).isEmpty
  | .expansion n =>
    let l := s.getF (rBcCxlWin n) BcCxlWin.link
    let m := s.getF (rBcCxlWin n) BcCxlWin.mirror_link
    mget false s.cxlLost l && (!s.getB (rBcCxlWin n) BcCxlWin.mirror || mget false s.cxlLost m)
  | _ => false

/-- A cache of the G9 holds the line: a read of it asks nothing of the channel or the link. -/
def cachedLine (s : State) (line : Nat) : Bool :=
  (mfind s.l3 line).isSome || s.cores.any (fun e => (mfind e.2.lines line).isSome)

/-- A read of the line returns poison (R248, R309, R329, R330): it is held poisoned, or no copy of it is left. -/
def poisoned (s : State) (pa : Nat) : Bool := mget false s.poison (pa / 64) || (lineDead s pa && !cachedLine s (pa / 64))

/-- The unit a poison read names in the detail word (R157): the controller or I/O stop that returned it. -/
def poisonUnit (s : State) (pa : Nat) : Nat :=
  match physClass s pa with
  | .dram => mcUid (primaryChan s pa)
  | .scratch i _ => sliceUid i
  | .expansion n => ioUid (linkIo s (s.getF (rBcCxlWin n) BcCxlWin.link))
  | _ => uidDevice

/-! ### Bytes, tags and poison -/

/-- The canonical form of memory: addresses strictly rising, and no byte listed that is zero, which an unlisted address reads as
(notes/assumptions/3.md). -/
def Memory.wf (m : List Host.Cell) : Bool := mwf (fun _ => 0) m

def readByte (s : State) (pa : Nat) : Byte := mget 0 s.mem pa

def readBytes (s : State) : Nat → Nat → List Byte
  | _, 0 => []
  | pa, n + 1 => readByte s pa :: readBytes s (pa + 1) n

def writeCells (m : List Host.Cell) : Nat → List Byte → List Host.Cell
  | _, [] => m
  | pa, b :: bs => writeCells (mput 0 m pa b) (pa + 1) bs

def readTag (s : State) (pa : Nat) : Bool := mget false s.tags (pa / 16)

/-- The granules that a range of bytes touches. -/
def granules (pa n : Nat) : List Nat := (List.range ((pa + n + 15) / 16 - pa / 16)).map (· + pa / 16)

/-- The lines that a range of bytes touches. -/
def linesOf (pa n : Nat) : List Nat := (List.range ((pa + n + 63) / 64 - pa / 64)).map (· + pa / 64)

def clearTags (s : State) (pa n : Nat) : State :=
  { s with tags := (granules pa n).foldl (fun m g => mput false m g false) s.tags }

def setTag (s : State) (pa : Nat) (t : Bool) : State := { s with tags := mput false s.tags (pa / 16) t }

def setPoison (s : State) (line : Nat) (p : Bool) : State := { s with poison := mput false s.poison line p }

/-- Write bytes as the home serialises them: tags of every granule touched are cleared (R135). A line covered whole loses its
poison; a poisoned line that the write covers in part keeps it (R248). -/
def writeBytes (s : State) (pa : Nat) (bs : List Byte) : State :=
  let n := bs.length
  let s := { s with mem := writeCells s.mem pa bs }
  let s := clearTags s pa n
  { s with poison := (linesOf pa n).foldl (fun m l =>
      if pa ≤ l * 64 ∧ l * 64 + 64 ≤ pa + n then mput false m l false else m) s.poison }

/-- Some line of a range stays poisoned under a write that does not cover it whole (R248). -/
def mergesPoison (s : State) (pa n : Nat) : Bool :=
  (linesOf pa n).any (fun l => mget false s.poison l && !(decide (pa ≤ l * 64) && decide (l * 64 + 64 ≤ pa + n)))

def read64 (s : State) (pa : Nat) : Word := BitVec.ofNat 64 (ofBytes (readBytes s pa 8))
def read128 (s : State) (pa : Nat) : Quad := BitVec.ofNat 128 (ofBytes (readBytes s pa 16))
def write64 (s : State) (pa : Nat) (w : Word) : State := writeBytes s pa (toBytes 8 w.toNat)

/-- Host memory, by port and address (R379); what a host never wrote reads as zero (notes/assumptions/3.md). -/
def hostKey (p a : Nat) : Nat := p * 0x10000000000000000 + a % 0x10000000000000000
def readHost (s : State) (p a n : Nat) : List Byte := (List.range n).map (fun i => mget 0 s.hostMem (hostKey p (a + i)))
def writeHostCells (m : SMap Byte) (p : Nat) : Nat → List Byte → SMap Byte
  | _, [] => m
  | a, b :: bs => writeHostCells (mput 0 m (hostKey p a) b) p (a + 1) bs
def writeHost (s : State) (p a : Nat) (bs : List Byte) : State := { s with hostMem := writeHostCells s.hostMem p a bs }

end Sys2Proof.Machine
end

