-- ==== Sys2Proof/Machine/Base.lean ====
section
/-! DEFINITION. Operations every chapter shares: the logbook and its notices (R461 to R463, R487), interrupt messages (R171, R173),
unit state words and their transitions (R23 to R27), and the binding of virtual threads to cores (R28 to R32). -/

namespace Sys2Proof.Machine

/-- Base camp is there to act: one management core is active (R454, R458). -/
def bcUp (s : State) : Bool := s.mgmt.bcA == .active || s.mgmt.bcB == .active

/-! ### Interrupt messages -/

/-- Send an interrupt message to the router (R171). -/
def sendIrq (s : State) (thread vector source : Nat) : State :=
  { s with irqMsgs := s.irqMsgs ++ [⟨thread, vector, source⟩] }

/-- Send the vector of a notice register laid out as en 15, thread 14:6, vector 5:0, when en = 1 and the thread number is at
most 383 (R164, R213, R477, R487, R499). -/
def notify (s : State) (r : Nat) : State :=
  { s with irqMsgs :=
      if bcUp s && s.getB r BcFaultSup.en && decide (s.getF r BcFaultSup.thread ≤ 383) then
        s.irqMsgs ++ [⟨s.getF r BcFaultSup.thread, s.getF r BcFaultSup.vector, uidBaseCamp⟩]
      else s.irqMsgs }

/-! ### The logbook -/

/-- The severity of a record: as the spec states it where it does (R463; 0x11 in the worked example; set-up errors R462), and
otherwise left open (notes/assumptions/10.md). -/
def recSeverity (type : Nat) : Nat :=
  if type = 0x15 ∨ type = 0x35 then 0
  else if type = 0x39 then 2
  else if type = 0x11 then 1
  else if type = 0x49 then 4
  else Config.recordSeverity type

/-- Base camp, while it is there, writes a logbook record with the next sequence number; the logbook holds 16,384, the oldest replaced (R461). A record at or
above min_sev sends the BC_ERR_NOTIFY vector (R487). -/
def logRecord (s : State) (type unit cause : Nat) (p0 p1 p2 p3 : Nat) (injected : Bool := false) : State :=
  let sev := recSeverity type
  let rec0 : LogRec := {
    seq := s.log.next, time := s.time, unit := unit, type := type, sev := sev, injected := injected,
    writer := s.getF rBcStatus BcStatus.active, lostBefore := decide (16384 ≤ s.log.records.length), cause := cause,
    p0 := BitVec.ofNat 64 p0, p1 := BitVec.ofNat 64 p1, p2 := BitVec.ofNat 64 p2, p3 := BitVec.ofNat 64 p3 }
  { s with
    log := if bcUp s then { s.log with records := (rec0 :: s.log.records).take 16384, next := s.log.next + 1 } else s.log
    irqMsgs :=
      if bcUp s && s.getB rBcErrNotify BcErrNotify.en && decide (s.getF rBcErrNotify BcErrNotify.thread ≤ 383) &&
          decide (min 4 (s.getF rBcErrNotify BcErrNotify.min_sev) ≤ sev) then
        s.irqMsgs ++ [⟨s.getF rBcErrNotify BcErrNotify.thread, s.getF rBcErrNotify BcErrNotify.vector, uidBaseCamp⟩]
      else s.irqMsgs }

/-- A set-up error record: the register or image offset, and the value refused (R463). -/
def setupError (s : State) (reg val : Nat) : State := logRecord s 0x49 uidDevice 0 reg val 0 0

/-! ### Unit state words -/

/-- Codes of the state field (R23). -/
def usAbsent : Nat := 0
def usOff : Nat := 1
def usBivouac : Nat := 2
def usStarting : Nat := 3
def usInService : Nat := 4
def usDraining : Nat := 5
def usWithdrawn : Nat := 6
def usFailed : Nat := 7

/-- Write a unit's state word pair in one update: new state and cause, the previous state, seq + 1 and the time (R23, R24). -/
def writeState (s : State) (u dst cause : Nat) : State :=
  let w := s.getR (rUnitState u)
  let w' := setFld (setFld (setFld (wrapInc w UnitState.seq) UnitState.prev_state (fld w UnitState.state))
    UnitState.cause cause) UnitState.state dst
  (s.putR (rUnitState u) w').putR (rUnitStateTime u) (BitVec.ofNat 64 s.time)

/-- A transition of R25: the word pair is written, and the unit sends its state message (R27). -/
def setUnit (s : State) (u dst cause : Nat) : State :=
  let s' := writeState s u dst cause
  { s' with stateMsgs := s'.stateMsgs ++ [⟨u, s'.getR (rUnitState u), s'.time⟩] }

/-- The units of R23, each with a state word. -/
def isStateUnit (u : Nat) : Bool :=
  match blockRows u with
  | [] => false
  | r :: _ => r.owner == .none && r.off == 0 && decide (u < 0x10000)

/-- The unit whose state word governs the block of a unit ID (R22, R23). -/
def ownerUnit (u : Nat) : Nat :=
  let sub := u % 0x100
  if u / 0x800 % 8 = 7 then
    (if u / 0x100 % 8 = 6 ∧ (sub = 0x10 ∨ sub = 0x11 ∨ sub = 0x20 ∨ sub = 0x21) then u else u - sub)
  else if sub < 0x80 then u - sub
  else u

/-- A block answers accesses: its unit reads neither absent, off, bivouac, withdrawn nor failed (R22). -/
def blockUp (s : State) (u : Nat) : Bool :=
  let st := stateOf s (ownerUnit u)
  st == 3 || st == 4 || st == 5

/-- Add a unit to the withdrawal list, with its entry for the withdrawal stores (R25, R474). -/
def addWithdrawn (s : State) (u : Nat) : State :=
  if s.withdrawn.contains u then s
  else { s with withdrawn := s.withdrawn ++ [u], mgmt := { s.mgmt with appends := s.mgmt.appends ++ [(u, true, s.log.next - 1)] } }

/-! ### Threads and cores -/

def getT (s : State) (t : Tid) : Thread := mget Thread.init s.threads t.val
def putT (s : State) (t : Tid) (x : Thread) : State := { s with threads := mput Thread.init s.threads t.val x }
def updT (s : State) (t : Tid) (f : Thread → Thread) : State := putT s t (f (getT s t))

def getC (s : State) (k : Nat) : Core := mget Core.init s.cores k
def putC (s : State) (k : Nat) (x : Core) : State := { s with cores := mput Core.init s.cores k x }
def updC (s : State) (k : Nat) (f : Core → Core) : State := putC s k (f (getC s k))

/-- The virtual core of a thread (R29). -/
def vcoreOf (t : Tid) : Nat := t.val / 2

def vmapB (s : State) (v : Nat) (f : Fld) : Bool := s.getB (rBcVcoreMap v) f

/-- The physical core number bound to a virtual core, while bound = 1 (R30). -/
def boundCore (s : State) (v : Nat) : Option Nat :=
  if vmapB s v BcVcoreMap.bound then some (coreOfUid (s.getF (rBcVcoreMap v) BcVcoreMap.phys_unit)) else none

/-- The core number a thread runs on, or the one its map entry last named. -/
def coreOf (s : State) (t : Tid) : Nat := coreOfUid (s.getF (rBcVcoreMap (vcoreOf t)) BcVcoreMap.phys_unit)

/-- The thread belongs to the trusted world (VTID.world, R88). -/
def trusted (s : State) (t : Tid) : Bool := vmapB s (vcoreOf t) BcVcoreMap.world
def soloThread (s : State) (t : Tid) : Bool := vmapB s (vcoreOf t) BcVcoreMap.solo

/-- The thread number exists: its virtual core is assigned, and thread h = 1 only on a solo core (R29). -/
def threadAssigned (s : State) (n : Nat) : Bool :=
  decide (n < 384) && vmapB s (n / 2) BcVcoreMap.valid && (n % 2 == 0 || vmapB s (n / 2) BcVcoreMap.solo)

/-- The other thread of a virtual core. -/
def sibling (t : Tid) : Tid := if h : t.val % 2 = 0 then ⟨t.val + 1, by omega⟩ else ⟨t.val - 1, by omega⟩

def tidOf (n : Nat) : Tid := Fin.ofNat 384 n

/-- The virtual core that a physical core carries. -/
def vcoreOfCore (s : State) (k : Nat) : Option Nat :=
  (List.range 192).find? (fun v => vmapB s v BcVcoreMap.valid &&
    s.getF (rBcVcoreMap v) BcVcoreMap.phys_unit == coreUid k)

/-! ### The configuration of R1 -/

def allSlices : List Nat := List.range 96
def allSheaves : List Nat := List.range 24

/-- Tiles of the trusted group that is active now, and of the standby (R443). -/
def groupTiles (s : State) (first : Nat) : List Nat :=
  (List.range (s.getF rVltTwCfg VltTwCfg.tiles + 1)).map (· + first)
def trustedTiles (s : State) : List Nat := groupTiles s (s.getF rVltTwStatus VltTwStatus.act_now)
def standbyTiles (s : State) : List Nat := groupTiles s (s.getF rVltTwStatus VltTwStatus.stby_now)

/-- Both management cores are in service, active and standby. -/
def bcPair (s : State) : Bool :=
  (s.mgmt.bcA == .active && s.mgmt.bcB == .standby) || (s.mgmt.bcA == .standby && s.mgmt.bcB == .active)

/-- Base camp accepts an image (R496). -/
def imageOk (s : State) (i : Image) : Bool :=
  i.formatOk && i.digestOk && i.sigOk && i.keysOk && decide (s.getF rBcFuseOpt BcFuseOpt.min_svn ≤ i.svn)
def flashValid (s : State) (f : Flash) : Bool :=
  f.reads && (match f.image with
    | some i => imageOk s i
    | none => false)

/-- A sheaf holds the active trusted group (R1, R443). -/
def holdsActive (s : State) (h : Nat) : Bool :=
  (trustedTiles s).any (fun i => sheafOfTile i == h)

/-- The rows of R1 in its protected column, in order from core checking (R477). -/
def cxlUsed (s : State) (l : Nat) : Bool :=
  (List.range 16).any (fun n => s.getB (rBcCxlWin n) BcCxlWin.valid && (s.getF (rBcCxlWin n) BcCxlWin.link == l ||
    (s.getB (rBcCxlWin n) BcCxlWin.mirror && s.getF (rBcCxlWin n) BcCxlWin.mirror_link == l)))

/-- Every window of a link, and one at least, is mirrored across a pair of which neither link is lost (R1, R329). -/
def cxlPaired (s : State) (l : Nat) : Bool :=
  cxlUsed s l && (List.range 16).all (fun n =>
    let w := s.getR (rBcCxlWin n)
    !fldB w BcCxlWin.valid || (fld w BcCxlWin.link != l && fld w BcCxlWin.mirror_link != l) ||
      (fldB w BcCxlWin.mirror && !mget false s.cxlLost (fld w BcCxlWin.link) && !mget false s.cxlLost (fld w BcCxlWin.mirror_link)))

/-- Every regulator's redundant phase is fitted and enabled (R1). -/
def phasesOk (s : State) : Bool := s.doms.all (fun e => !e.2.thinned)

/-- The rows of R1 for the protected column, in the order of the table. -/
def protectedRows (s : State) : List Bool := [
  allSheaves.all (fun h => !s.getB (rShfCheckMode (sheafUid h)) ShfCheckMode.solo),
  s.getF rBcSpareCfg BcSpareCfg.f0_tiles != 0 && s.getF rBcSpareCfg BcSpareCfg.f1_tiles != 0 &&
    s.getF rBcSpareCfg BcSpareCfg.f2_tiles != 0 && s.getF rBcSpareCfg BcSpareCfg.f3_tiles != 0 &&
    (List.range 192).any (fun k => stateOf s (coreUid k) == usBivouac),
  (List.range 4).all (fun k => !s.getB (rBcDramRgn k) BcDramRgn.valid || s.getB (rBcDramRgn k) BcDramRgn.mirror) &&
    s.dimms.all (fun d => d.2.x4) && s.mgmt.mirrorBroken.isEmpty,
  (List.range 16).all (fun l => !(mget false s.cxlUp l || cxlUsed s l) || cxlPaired s l),
  allSlices.all (fun i => !serving s (sliceUid i) ||
    (s.getB (rTileDirCfg (sliceUid i)) TileDirCfg.buddy_en && s.getB (rTileDirStatus (sliceUid i)) TileDirStatus.dup_ok)),
  (s.vault.active && !s.vault.activeFailed) && s.getF rVltTwStatus VltTwStatus.stby_state == 2,
  bcPair s,
  s.getB rBcTbStatus BcTbStatus.ref_a_ok && s.getB rBcTbStatus BcTbStatus.ref_b_ok,
  flashValid s s.mgmt.flashA && flashValid s s.mgmt.flashB,
  phasesOk s]

/-- The rows of R1 in its performance column. -/
def performanceRows (s : State) : List Bool := [
  allSheaves.all (fun h => s.getB (rShfCheckMode (sheafUid h)) ShfCheckMode.solo != holdsActive s h),
  s.getF rBcSpareCfg ⟨7, 0⟩ == 0,
  (List.range 4).all (fun k => !s.getB (rBcDramRgn k) BcDramRgn.valid || !s.getB (rBcDramRgn k) BcDramRgn.mirror),
  (List.range 16).all (fun n => !s.getB (rBcCxlWin n) BcCxlWin.valid || !s.getB (rBcCxlWin n) BcCxlWin.mirror),
  allSlices.all (fun i => !serving s (sliceUid i) || !s.getB (rTileDirCfg (sliceUid i)) TileDirCfg.buddy_en),
  (s.vault.active && !s.vault.activeFailed) && s.getF rVltTwStatus VltTwStatus.stby_state == 0,
  bcPair s,
  s.getB rBcTbStatus BcTbStatus.ref_a_ok && s.getB rBcTbStatus BcTbStatus.ref_b_ok,
  flashValid s s.mgmt.flashA && flashValid s s.mgmt.flashB,
  phasesOk s]

/-- Two sensors of a sheaf have failed: base camp reports the device as degraded (R57). -/
def sensorsBad (s : State) : Bool :=
  allSheaves.any (fun h => decide (2 ≤ ((List.range 4).filter (fun i => (s.getF (rShfTherm (sheafUid h)) ShfTherm.sensor_bad).testBit i)).length))

def rowMask (rows : List Bool) : Nat := (rows.zipIdx).foldl (fun n (b, i) => n + ofBool b * 2 ^ i) 0

/-- The mode of R544. -/
def modeOf (s : State) (seen : Bool) : Nat :=
  if (protectedRows s).all id then 2
  else if (performanceRows s).all id then 1
  else if seen then 3
  else 0

/-- Base camp evaluates the configuration (R3), from stage S7 on and while it acts at all: the row mask, the mode, and on a change a
record and the notice (R477, R544). It reports the device as degraded while a row that held before does not hold, in any configuration, while the mode says so, and
where R57 asks it. -/
def configEval (s : State) : State :=
  if !bcUp s || s.getF rBcBootStatus BcBootStatus.stage != 7 then s
  else
  let old := s.getF rBcCfgStatus BcCfgStatus.rows
  let new := rowMask (protectedRows s)
  let mode := modeOf s s.mgmt.seenProtected
  let s := (s.putF rBcCfgStatus BcCfgStatus.rows new).putF rBcStatus BcStatus.mode mode
  let lost := (s.mgmt.lostRows ||| old) &&& (new ^^^ 0x3FF)
  let s := { s with mgmt := { s.mgmt with
    seenProtected := s.mgmt.seenProtected || mode == 2, lostRows := lost, degraded := mode == 3 || lost != 0 || sensorsBad s } }
  if old = new then s else notify (logRecord s 0x48 uidDevice 0 old new 0 0) rBcCfgNotify

/-! ### Kinds of unit (R12, R23) -/

inductive UnitKind where
  | core (k : Nat)
  | tile (i : Nat)
  | slice (i : Nat)
  | tileStop (i : Nat)
  | sheaf (h : Nat)
  | mem (c : Nat)
  | io (n : Nat)
  | engStop (f : Nat)
  | service (f : Nat)
  | engine (f : Nat)
  | other
deriving DecidableEq, Repr

def unitKind (u : Nat) : UnitKind :=
  let sub := u % 0x100
  let f := u / 0x4000
  if !isStateUnit u then .other
  else if u / 0x800 % 8 = 7 then
    let sel := u / 0x100 % 8
    if sub ≠ 0 then .engine f
    else if sel < 4 then .mem (4 * f + sel)
    else if sel = 4 then .io (2 * f)
    else if sel = 5 then .io (2 * f + 1)
    else if sel = 6 then .engStop f
    else .service f
  else if sub = 0x80 then .tile (tileOfUid u)
  else if sub = 0x81 then .slice (tileOfUid u)
  else if sub = 0x82 then .tileStop (tileOfUid u)
  else if sub = 0xC0 then .sheaf (f * 6 + u / 0x800 % 8)
  else .core (coreOfUid u)

def isUp (s : State) (u : Nat) : Bool := stateOf s u == usInService || stateOf s u == usDraining

/-- The units a unit reads in service with all have to read in service or draining (R26). -/
def holdersUp (s : State) (u : Nat) : Bool :=
  match unitKind u with
  | .core k => isUp s (tileUid (k / 2)) && isUp s (tileFabUid (k / 2)) && isUp s (sheafUid (k / 8))
  | .tile i => isUp s (tileFabUid i) && isUp s (sheafUid (i / 4))
  | .engine f => isUp s (esUid f)
  | _ => true

/-! ### Resets of a block (R503) -/

/-- The offsets of a row's registers. -/
def rowOffs (r : RegRow) : List Nat :=
  r.dims.foldl (fun os e => os.flatMap (fun o => (List.range e.2).map (fun i => o + e.1 * i))) [r.off]

/-- A register's value after a reset of its unit: RWL fields and their locks stay; fused reset values are loaded again (R493, R503). -/
def softValue (s : State) (u : Nat) (r : RegRow) (o : Nat) : Word :=
  let a := u * 0x100000 + o
  let init := fusedVal s a
  let keep : Word := BitVec.ofNat 64 r.rwl
  (init &&& ~~~keep) ||| (s.getR a &&& keep)

/-- The registers of a block reset, but for the state word pair and those named. -/
def softReset (s : State) (u : Nat) (keep : List Nat) : State :=
  (blockRows u).foldl (fun s r =>
    if r.owner == .none then s
    else (rowOffs r).foldl (fun s o => if keep.contains o then s else s.putR (u * 0x100000 + o) (softValue s u r o)) s) s

end Sys2Proof.Machine
end

