-- ==== Sys2Proof/Machine/Lines.lean ====
section
/-! DEFINITION. Where a line's copies are (R240 to R263): home slices (R252, R254), the directory, the private caches, and what
a store, an atomic, a device write and a CMO leave of them. Values are those of Machine/Mem.lean: every copy holds them. -/

namespace Sys2Proof.Machine

def dirNone : DirEnt := ⟨.none, 0, [], false⟩
def dirAt (s : State) (line : Nat) : DirEnt := mget dirNone s.dir line
def dupAt (s : State) (line : Nat) : DirEnt := mget dirNone s.dup line

/-- The map entry of a physical address (R254). -/
def homeIdx (pa : Nat) : Nat :=
  let h := (pa / 64 % 65536) ^^^ (pa / 4194304 % 65536) ^^^ (pa / 274877906944 % 16384)
  h * 384 / 65536

/-- Entry `n` of the slice map. -/
def sliceMap (s : State) (n : Nat) : Nat := fld (s.getR (rBcSliceMap (n / 8))) ⟨8 * (n % 8) + 6, 8 * (n % 8)⟩

/-- The home slice of an address: the scratch slice itself, or by the slice map (R252, R254). -/
def homeSlice (s : State) (pa : Nat) : Nat :=
  match physClass s pa with
  | .scratch i _ => i
  | _ => sliceMap s (homeIdx pa)

def buddyOn (s : State) (h : Nat) : Bool := s.getB (rTileDirCfg (sliceUid h)) TileDirCfg.buddy_en

/-- The slice that holds a home's duplicate (R265, R266). -/
def buddySlice (s : State) (h : Nat) : Nat :=
  if s.getB (rTileDirStatus (sliceUid h)) TileDirStatus.substitute then
    s.getF (rTileDirStatus (sliceUid h)) TileDirStatus.buddy
  else buddyOf h

def setDir (s : State) (line : Nat) (e : DirEnt) : State := { s with dir := mput dirNone s.dir line e }
def setDup (s : State) (line : Nat) (e : DirEnt) : State := { s with dup := mput dirNone s.dup line e }

/-- Entries of a home with the broadcast flag (R265). -/
def bcastFix (s : State) (h : Nat) : State :=
  s.putF (rTileDirStatus (sliceUid h)) TileDirStatus.bcast_entries
    (min 0xFFFF ((s.dir.filter (fun e => e.2.bcast && homeSlice s (e.1 * 64) == h)).length))

/-- The directory with its duplicate kept current: what a change leaves once the buddy has acknowledged it, and every earlier one
(R265). -/
def setDirBoth (s : State) (line : Nat) (e : DirEnt) : State :=
  let had := (dirAt s line).bcast
  let s := { s with fwd := s.fwd.filter (fun f => !(f.kind == .dupUpd && f.line == line && f.posted)) }
  let s := setDir s line e
  let s := if had then bcastFix s (homeSlice s (line * 64)) else s
  if buddyOn s (homeSlice s (line * 64)) then setDup s line e else s

def lineOf (s : State) (k line : Nat) : Option CLine := mfind (getC s k).lines line
def setLine (s : State) (k line : Nat) (c : CLine) : State := updC s k (fun x => { x with lines := mins x.lines line c })
def dropLine (s : State) (k line : Nat) : State := updC s k (fun x => { x with lines := mdel x.lines line })

/-- The cores that hold a copy of a line. -/
def holders (s : State) (line : Nat) : List Nat :=
  (s.cores.filter (fun e => (mfind e.2.lines line).isSome)).map (·.1)

/-- Every private copy of a line removed. -/
def dropCopies (s : State) (line : Nat) : State := (holders s line).foldl (fun s k => dropLine s k line) s

def setL3 (s : State) (line : Nat) (v : Option L3Line) : State :=
  { s with l3 := match v with
      | some d => mins s.l3 line d
      | none => mdel s.l3 line }

/-- A write at the home that no requester keeps: every copy is invalidated (R263: WrLine, WrPart; R271). -/
def recallLine (s : State) (line : Nat) : State := setDirBoth (dropCopies s line) line dirNone

/-- The unit a poison read of a core names in the detail word (R157): the one that returned the first poisoned line of the range,
whether its own caches, the line's home, or what stands behind the home. -/
def poisonSource (s : State) (k pa n : Nat) : Nat :=
  match (linesOf pa n).find? (fun l => poisoned s (l * 64)) with
  | none => uidDevice
  | some l =>
    if (lineOf s k l).isSome then coreUid k
    else if (mfind s.l3 l).isSome || !(holders s l).isEmpty then sliceUid (homeSlice s (l * 64))
    else poisonUnit s (l * 64)

/-- A tile holds some copy of a line. -/
def tileHolds (s : State) (i line : Nat) : Bool := (lineOf s (2 * i) line).isSome || (lineOf s (2 * i + 1) line).isSome

end Sys2Proof.Machine
end

