-- ==== Sys2Proof/Machine/Perf.lean ====
section
/-! DEFINITION. Counting events (R507 to R513): which counter of a core's block an event reaches, and saturation. -/

namespace Sys2Proof.Machine

/-- The native code an event field selects: itself, or that of a forerunner number (R512); none where it is unknown. -/
def pmCode (legacy : Bool) (ev : Nat) : Option Nat :=
  if legacy then
    match ev with
    | 0x000 => some 0x01
    | 0x001 => some 0x03
    | 0x002 => some 0x12
    | 0x003 => some 0x04
    | 0x010 => some 0x05
    | 0x011 => some 0x07
    | 0x012 => some 0x06
    | 0x020 => some 0x08
    | 0x030 => some 0x0A
    | 0x080 => some 0x110
    | 0x090 => some 0x120
    | _ => none
  else some ev

/-- A core block counts the code (R510). -/
def pmCoreCode (c : Nat) : Bool := decide (1 ≤ c) && decide (c ≤ 0x12)

/-- An uncore block counts the code at a stop (R511): home codes at tile stops, DRAM codes at memory stops, 0x130 and 0x131 at
I/O stops, fabric codes anywhere. -/
def pmUncoreCode (stop c : Nat) : Bool :=
  (decide (0x110 ≤ c) && decide (c ≤ 0x114)) ||
    (decide (16 ≤ stop) && decide (stop < 112) && decide (0x100 ≤ c) && decide (c ≤ 0x105)) ||
    (decide (stop < 16) && decide (0x120 ≤ c) && decide (c ≤ 0x124)) ||
    (decide (112 ≤ stop) && (stop % 4 == 0 || stop % 4 == 3) && (c == 0x130 || c == 0x131))

/-- count_trusted has effect in the selection at an address (R508). -/
def pmTrustedOk (s : State) (sel : Nat) : Bool :=
  mget false s.pmTrusted sel || s.getB rVltDbgEn VltDbgEn.sec_noninv

/-- The thread a block's selection names (PM_SEL_k.thread); a roped core has one. -/
def threadSel (s : State) (n : Nat) (t : Tid) : Bool := !soloThread s t || n == 0 || n == 3 || n == t.val % 2 + 1

/-- The domain and guest of a thread: zero with translation off (R509). -/
def asidOf (s : State) (t : Tid) : Nat :=
  let w := s.getR (rBcXlatRoot1 t.val)
  if fldB w BcXlatRoot1.en then fld w BcXlatRoot1.asid else 0
def vmidOf (s : State) (t : Tid) : Nat :=
  let w := s.getR (rBcXlatRoot2 t.val)
  if fldB w BcXlatRoot2.en then fld w BcXlatRoot2.vmid else 0

/-- The context of an event: the thread, and the data address where it has one (R509). -/
def pmMatches (s : State) (t : Tid) (sel : Nat) (code : Nat) (addr : Option Nat) : Bool :=
  let w := s.getR sel
  let base := sel - sel % 0x100000
  fldB w PmSel.en && !fldB w PmSel.bad && pmCode (fldB w PmSel.legacy) (fld w PmSel.event) == some code &&
    (if trusted s t then fldB w PmSel.count_trusted && pmTrustedOk s sel else fldB w PmSel.count_normal) &&
    threadSel s (fld w PmSel.thread) t &&
    (!fldB w PmSel.vmid_en || fld w PmSel.vmid == vmidOf s t) &&
    (!fldB w PmSel.asid_en || fld w PmSel.asid == asidOf s t) &&
    (match addr with
     | none => true
     | some a => !fldB w PmSel.addr_en ||
        (decide ((s.getR (base + 0xC8)).toNat ≤ a) && decide (a < (s.getR (base + 0xD0)).toNat)))

/-- Add to counter `i` of a counter block, holding at 2^64 − 1 with its sat bit (R513). -/
def pmAdd (s : State) (ctr win i n : Nat) : State :=
  let v := (s.getR ctr).toNat
  let s := s.putR ctr (BitVec.ofNat 64 (min (v + n) 0xFFFFFFFFFFFFFFFF))
  if 0xFFFFFFFFFFFFFFFF ≤ v + n then s.putR win (setFld (s.getR win) ⟨32 + i, 32 + i⟩ 1) else s

/-- Count an event of a thread in its core's block, `n` times. -/
def pmEvent (s : State) (t : Tid) (code : Nat) (addr : Option Nat := none) (n : Nat := 1) : State :=
  let u := coreUid (coreOf s t) + 1
  (List.range 8).foldl (fun s i =>
    if pmMatches s t (rPmSel u i) code addr then pmAdd s (rPmCtr u i) (rPmWin u) i n else s) s

/-- Count an uncore event at a stop: `req` is the requester's unit ID and the address, for the events marked Q (R511). -/
def pmUncore (s : State) (stop code : Nat) (world : Bool) (req : Option (Nat × Nat)) (n : Nat := 1) : State :=
  let f := if stop < 112 then stop % 16 / 4 else (stop - 112) / 4
  let local_ := stop / 16 * 4 + (stop % 16 - 4 * f)
  let u := ssUid f + 2
  (List.range 16).foldl (fun s i =>
    let sel := rPmUsel u i
    let w := s.getR sel
    if fldB w PmUsel.en && !fldB w PmUsel.bad && pmCode (fldB w PmUsel.legacy) (fld w PmUsel.event) == some code &&
        fld w PmUsel.stop == local_ &&
        (if world then fldB w PmUsel.count_trusted && pmTrustedOk s sel else fldB w PmUsel.count_normal) &&
        (match req with
         | none => true
         | some (q, a) => (q &&& fld w PmUsel.req_mask) == (fld w PmUsel.req_id &&& fld w PmUsel.req_mask) &&
            (!fldB w PmUsel.addr_en || (decide ((s.getR (rPmUaddrBase u)).toNat ≤ a) &&
              decide (a < (s.getR (rPmUaddrLimit u)).toNat)))) then
      pmAdd s (rPmUctr u i) (rPmUwin u) i n
    else s) s

/-- Add to a fixed count of a stop performance block, its last-window register at `off` (R514); `u` is the stop's unit ID. -/
def bwAdd (s : State) (u off n : Nat) : State :=
  let k := (u + 2) * 0x100 + off
  { s with bw := mput 0 s.bw k (mget 0 s.bw k + n) }

end Sys2Proof.Machine
end

