-- ==== Sys2Proof/Machine/Memctl.lean ====
section
/-! DEFINITION. The memory controllers (R310 to R327): queues, the choice of the next command, refresh, errors and rank
migration. Bytes are written where a home serialises them; what a controller adds is when a read's data come, and poison. -/

namespace Sys2Proof.Machine

def getM (s : State) (c : Nat) : Mc := mget Mc.init s.mcs c
def updM (s : State) (c : Nat) (f : Mc → Mc) : State := { s with mcs := mput Mc.init s.mcs c (f (getM s c)) }
def Mc.sub (m : Mc) (b : Bool) : SubCh := if b then m.sub1 else m.sub0
def Mc.setSub (m : Mc) (b : Bool) (x : SubCh) : Mc := if b then { m with sub1 := x } else { m with sub0 := x }

/-! ### Coordinates (R313) -/

/-- The physical rank that serves a channel-local address; during a migration the copy pointer decides (R313, R324). -/
def physRank (s : State) (c loc : Nat) : Nat :=
  let w := s.getR (rMcMigrStatus (mcUid c))
  let p := (getM s c).ranks.getD (logicalRank s c loc) 0
  if fldB w McMigrStatus.active && p == fld w McMigrStatus.src_rank && decide (loc < (getM s c).migrAt)
  then fld w McMigrStatus.spare_rank else p

/-- Bytes of one 3DS logical rank; a package rank without stacks is one. -/
def stackSize (s : State) (c : Nat) : Nat := max 1 (rankSize s c / max 1 (((mfind s.dimms c).map (·.stack)).getD 1))

/-- The 3DS logical rank, above the row. -/
def stackOf (s : State) (c loc : Nat) : Nat := loc % rankSize s c / stackSize s c

def rowOf (s : State) (c loc : Nat) : Nat := loc % rankSize s c % stackSize s c / 262144

def columnOf (loc : Nat) : Nat := loc / 1024 % 64 * 16

/-- Rank, 3DS logical rank, bank group and bank of a channel-local address, as one number. -/
def bankOf (s : State) (c loc : Nat) : Nat :=
  let row := rowOf s c loc
  physRank s c loc * 512 + stackOf s c loc * 32 + ((loc / 128 % 8) ^^^ (row % 8)) * 4 + ((loc / 65536 % 4) ^^^ (row / 8 % 4))

/-- The target in ns and the software priority of a class (R314). -/
def qosTarget (s : State) (c cls : Nat) : Nat :=
  let w := s.getR (rMcQosTarget (mcUid c))
  10 * (match cls with
    | 0 => max 1 (fld w McQosTarget.t_dem)
    | 1 => fld w McQosTarget.t_pref
    | 2 => fld w McQosTarget.t_io
    | 3 => fld w McQosTarget.t_eng
    | 4 => fld w McQosTarget.t_mgmt
    | _ => fld w McQosTarget.t_migr)

def swPri (s : State) (c cls : Nat) : Nat := fld (s.getR (rMcQosPri (mcUid c))) ⟨2 * cls + 1, 2 * cls⟩

/-- A queue entry for a channel-local line, admitted now, and its subchannel. -/
def mcEntryAt (s : State) (c loc pa cls : Nat) (home : Bool) : Bool × McReq :=
  (loc / 64 % 2 == 1, ⟨loc / 64, pa, cls, s.time, physRank s c loc, bankOf s c loc, rowOf s c loc, columnOf loc, qosTarget s c cls,
    swPri s c cls, home⟩)

/-- The queue entry of a request for the line at `pa` in channel `c`, and its subchannel. -/
def mcEntry (s : State) (c pa cls : Nat) (home : Bool) : Bool × McReq := mcEntryAt s c (localAddr s pa) pa cls home

/-- The coordinates of the waiting requests follow the copy pointer and the rank table (R313, R324). -/
def remapRanks (s : State) (c : Nat) : State :=
  let at_ (q : McReq) : McReq := { q with rank := physRank s c (q.line * 64), bank := bankOf s c (q.line * 64) }
  let both (x : SubCh) : SubCh := { x with reads := x.reads.map at_, writes := x.writes.map at_ }
  updM s c (fun m => { m with sub0 := both m.sub0, sub1 := both m.sub1 })

/-- The physical address of a channel-local address, where a region covers it: R312 read backwards. -/
def paOfLocal (s : State) (c loc : Nat) : Option Nat :=
  let p := populated s
  let try_ (k base : Nat) : Option Nat :=
    let mir := regionMirrored s k
    let lb := s.getF (rBcDramRgn k) BcDramRgn.local_base * 0x40000000
    let n := if mir then 2 * (64 / p) else 64 / p
    if loc < lb ∨ n = 0 then none
    else
      let blk := (loc - lb) / 256 / n
      let j := (loc - lb) / 256 % n
      let ents := (List.range 64).filter (fun e => chanMap s e == c || (mir && chanMap s e == mirrorChan c))
      match ents[j]? with
      | none => none
      | some idx =>
        if s.getF (rBcDramRgn k) BcDramRgn.size * 0x40000000 ≤ blk * 0x4000 then none
        else (List.range 64).findSome? (fun g =>
          let pa := base + blk * 0x4000 + g * 256 + loc % 256
          if chanIdx pa = idx then some pa else none)
  let base (k : Nat) : Nat := ((List.range k).filter (fun i => s.getB (rBcDramRgn i) BcDramRgn.valid)).foldl
    (fun a i => a + s.getF (rBcDramRgn i) BcDramRgn.size * 0x40000000) 0
  ([0, 1, 2, 3].filter (fun k => s.getB (rBcDramRgn k) BcDramRgn.valid)).findSome? (fun k => try_ k (base k))

/-! ### Queues (R314, R321) -/

/-- The entries a queue holds; those beyond wait at their homes for a credit (R280, R314). -/
def inReads (x : SubCh) : List McReq := x.reads.take 64
def inWrites (x : SubCh) : List McReq := x.writes.take 48

/-- An entry leaves a queue of `cap`; the first that waited at its home arrives, and its class is read now (R314, R315). -/
def leaveQueue (s : State) (c cap i : Nat) (l : List McReq) : List McReq :=
  (l.eraseIdx i).modify (cap - 1) (fun q => (mcEntryAt s c (q.line * 64) q.pa q.cls q.home).2)

/-- A subchannel's write drain after its queue changed (R316). -/
def drainFix (x : SubCh) : SubCh :=
  let n := (inWrites x).length
  { x with drain := if 40 ≤ n then true else if n ≤ 16 then false else x.drain }

/-- Another request waits for the bank of an access, for another row. -/
def bankWaits (x : SubCh) (q : McReq) : Bool := (inReads x ++ inWrites x).any (fun o => o.bank == q.bank && o.row != q.row)

def openHit (x : SubCh) (q : McReq) : Bool := mget 0 x.rows q.bank == q.row + 1

/-- An access opens its row: an activate, with its draw and the module's own count (R318), or a row hit, counted while another request
waits for the bank (R316). -/
def openRow (s : State) (c : Nat) (b : Bool) (q : McReq) (draw : Nat) : State :=
  let x := (getM s c).sub b
  let drfm := ((mfind s.dimms c).map (·.drfm)).getD false
  let raa := ((mfind s.dimms c).map (·.raa)).getD 0
  if openHit x q then
    updM s c (fun m => m.setSub b { x with
      hits := if bankWaits x q then mput 0 x.hits q.bank (mget 0 x.hits q.bank + 1) else mdel x.hits q.bank })
  else
    let n := mget 0 x.acts q.bank + 1
    let own := raa != 0 && decide (raa ≤ n)
    let drawn := decide (draw < s.getF (rMcNrefP (mcUid c)) McNrefP.p)
    let s := updM s c (fun m => m.setSub b { x with
      rows := mput 0 x.rows q.bank (q.row + 1)
      hits := mdel x.hits q.bank
      acts := mput 0 x.acts q.bank (if own then 0 else n)
      nref := x.nref ++ (if drawn then [(q.bank, if drfm then some q.row else none)] else []) ++
        (if own then [(q.bank, none)] else []) })
    pmUncore s (stopOfMc c) 0x122 false none

/-- A burst of 64 bytes moves over a subchannel's 32 data bits: its time in ps at the channel's rate (R514). -/
def busTime (s : State) (c : Nat) : State :=
  bwAdd s (mcUid c) 0x10 (160000 / max 1 (s.getF (rMcFreqCtrl (mcUid c)) McFreqCtrl.rate_mts_div))

/-- The unit whose request an entry is: the line's home, or the memory stop itself for the migration engine and the gleaner. -/
def mcSource (s : State) (c : Nat) (q : McReq) : Nat := if 4 ≤ q.cls then mcUid c else sliceUid (homeSlice s q.pa)

/-- A read or a write of one line moves over the channel (R507, R514). -/
def burst (s : State) (c : Nat) (q : McReq) (write : Bool) : State :=
  pmUncore (busTime (bwAdd s (mcUid c) (if write then 8 else 0) 64) c) (stopOfMc c) (if write then 0x121 else 0x120)
    (isSecure s q.pa) (some (mcSource s c q, q.pa))

/-- A write of a queue is issued (R316). -/
def issueWrite (s : State) (c : Nat) (b : Bool) (i draw : Nat) : State :=
  match (inWrites ((getM s c).sub b))[i]? with
  | none => s
  | some q =>
    let s := openRow s c b q draw
    burst (updM s c (fun m => m.setSub b (drainFix { m.sub b with writes := leaveQueue s c 48 i (m.sub b).writes }))) c q true

/-- The channel's commands move: it is up, changes no frequency, and its field's domain is neither paused nor stopped (R36, R62,
R320). -/
def mcRuns (s : State) (c : Nat) : Bool :=
  chanUp s c && !(getM s c).freq && !(mget Dom.init s.doms (24 + c / 4)).paused && !(mget Dom.init s.doms (24 + c / 4)).stopped

/-- A controller accepts a write; a full queue issues its oldest first (DESIGN CHOICE, log entry 61). -/
def acceptWrite (s : State) (c : Nat) (b : Bool) (e : McReq) : State :=
  let s := if 48 ≤ ((getM s c).sub b).writes.length ∧ mcRuns s c then issueWrite s c b 0 (Config.activateDraw c s.time e.line).toNat else s
  updM s c (fun m => m.setSub b { m.sub b with writes := (m.sub b).writes ++ [e] })

/-- The partner alone serves a line of channel `c` where the line's rank is due for a migration it cannot have (R325). -/
def partnerOnly (s : State) (c pa : Nat) : Bool := (getM s c).partner.contains (physRank s c (localAddr s pa))

/-- The channel a read goes to: the primary, unless its read queue holds 8 or more entries beyond the mirror's, it changes
frequency, it is gone, or the partner alone serves the line (R321, R322, R325). -/
def readChan (s : State) (pa : Nat) : Nat :=
  let c := primaryChan s pa
  let m := mirrorChan c
  if !mirrored s pa || !chanUp s m || (getM s m).resilver.isSome || partnerOnly s m pa then c
  else if partnerOnly s c pa then m
  else
    let sub := localAddr s pa / 64 % 2 == 1
    if !chanUp s c || (getM s c).freq || (getM s c).resilver.isSome ||
        decide (((getM s m).sub sub).reads.length + 8 ≤ ((getM s c).sub sub).reads.length) then m else c

/-- A home's read of a line reaches its controller. True where a queued write answers it at once (R316), or no channel is there to
read and poison returns (R330). -/
def mcRead (s : State) (pa cls : Nat) : State × Bool :=
  let c := readChan s pa
  let (sub, e) := mcEntry s c pa cls true
  if !chanUp s c || ((getM s c).sub sub).writes.any (fun w => w.line == e.line) then (s, true)
  else (updM s c (fun m => m.setSub sub { m.sub sub with reads := (m.sub sub).reads ++ [e] }), false)

/-- The controllers that take a write of a line (R321, R325). -/
def writeChans (s : State) (pa : Nat) : List Nat :=
  (lineChans s pa).filter (fun c => chanUp s c && !(mirrored s pa && chanUp s (mirrorChan c) && partnerOnly s c pa))

/-- A home's write of a line reaches every controller that holds it (R321). -/
def mcWrite (s : State) (pa cls : Nat) : State :=
  (writeChans s pa).foldl (fun s c =>
    let (sub, e) := mcEntry s c pa cls false
    acceptWrite s c sub e) s

/-- An atomic that a controller executes occupies a read entry at the primary, or at the partner where that alone serves the line, and a
write entry wherever the line is held (R271, R314, R321, R322, R325). -/
def mcAtomic (s : State) (pa cls : Nat) : State :=
  let c := (writeChans s pa).headD (primaryChan s pa)
  let (sub, e) := mcEntry s c pa cls false
  let s := if chanUp s c then updM s c (fun m => m.setSub sub { m.sub sub with reads := (m.sub sub).reads ++ [e] }) else s
  mcWrite s pa cls

/-- The controller writes one line of its own channel anew: a corrected line, or a copy taken from the mirror (R322, R327, R330). -/
def mcRewrite (s : State) (c pa cls : Nat) : State :=
  let (sub, e) := mcEntry s c pa cls false
  acceptWrite s c sub e

/-- An access of the memory stop's own, by its gleaner or its migration engine: admitted and issued at once (R314, R324, R327; DESIGN
CHOICE, log entry 61). -/
def ownAccess (s : State) (c loc cls : Nat) (write : Bool) : State :=
  let (sub, e) := mcEntryAt s c loc ((paOfLocal s c loc).getD 0) cls false
  burst (openRow s c sub e (Config.activateDraw c s.time e.line).toNat) c e write

/-- A read entry is free for it. -/
def readFree (s : State) (c loc : Nat) : Bool := decide (((getM s c).sub (loc / 64 % 2 == 1)).reads.length < 64)

/-! ### Urgency and choice (R315, R316) -/

def urgency (s : State) (_c : Nat) (q : McReq) : Nat :=
  let a := s.time - q.since
  let t := q.target
  if 2 * a < t then 0 else if a < t then 1 else if a < 2 * t then 2 else 3

/-- A row hit that may not issue: 16 have, and another request waits for the bank. -/
def hitSpent (x : SubCh) (q : McReq) : Bool := openHit x q && bankWaits x q && decide (16 ≤ mget 0 x.hits q.bank)

/-- A rank's refresh is owed and may not be postponed further: no read of urgency waits for the rank in either subchannel (R317). -/
def refreshForced (s : State) (c r : Nat) : Bool :=
  let m := getM s c
  let owed := mget 0 m.owed r
  decide (0 < owed) && (decide (8 ≤ owed) ||
    !((inReads m.sub0 ++ inReads m.sub1).any (fun q => q.rank == r && decide (1 ≤ urgency s c q))))

/-- The place of a command in the precedence of R316, lower first; none where it may not issue now. -/
def cmdKey (s : State) (c : Nat) (x : SubCh) (readReady : Bool) : DramCmd → Option Nat
  | .refresh r => if refreshForced s c r then some 0 else none
  | .neighbour => if x.nref.isEmpty then none else some 0
  | .read i => ((inReads x)[i]?).bind (fun q =>
      let u := urgency s c q
      let among := (3 - q.pri) * 10 ^ 26 + (if openHit x q then 0 else 10 ^ 25) + q.since
      if hitSpent x q then none else some (if u = 3 then 10 ^ 30 + among else 3 * 10 ^ 30 + (3 - u) * 10 ^ 28 + among))
  | .write i => ((inWrites x)[i]?).bind (fun q =>
      if hitSpent x q then none else if x.drain then some (2 * 10 ^ 30 + q.since) else if readReady then none else some (9 * 10 ^ 30 + q.since))

def cmdBest (s : State) (c : Nat) (x : SubCh) (allowed : List DramCmd) : Option DramCmd :=
  let isRead : DramCmd → Bool
    | .read i => ((inReads x)[i]?).any (fun q => !hitSpent x q)
    | _ => false
  let keyed := allowed.filterMap (fun d => (cmdKey s c x (allowed.any isRead) d).map (fun k => (k, d)))
  (keyed.foldl (fun b e => match b with
    | none => some e
    | some o => if e.1 < o.1 then some e else some o) none).map (·.2)

/-! ### Errors (R308, R309, R322, R323, R330) -/

/-- A record of a memory error (R463). -/
def memoryRecord (s : State) (c loc rank dev : Nat) (unc poi : Bool) (pa : Nat) : State :=
  logRecord s 0x20 (mcUid c) 0 loc (rank + dev * 16 + ofBool unc * 4096 + ofBool poi * 8192) pa 0

/-- A mirror breaks or is restored, by channel or link (R463). -/
def mirrorRecord (s : State) (unit chan : Nat) (broken : Bool) : State :=
  logRecord s 0x22 unit 0 chan (ofBool broken) 0 0

def setBroken (s : State) (c : Nat) (b : Bool) : State :=
  { s with mgmt := { s.mgmt with mirrorBroken :=
      if b then (if s.mgmt.mirrorBroken.contains c then s.mgmt.mirrorBroken else s.mgmt.mirrorBroken ++ [c])
      else s.mgmt.mirrorBroken.filter (· != c) } }

/-- The channel holds part of a mirrored region. -/
def chanMirrored (s : State) : Bool :=
  [0, 1, 2, 3].any (fun k => s.getB (rBcDramRgn k) BcDramRgn.valid && regionMirrored s k)

/-- Channel-local GiB a region takes of each of `p` channels (R312). -/
def regionLocal (s : State) (k p : Nat) : Nat :=
  let n := s.getF (rBcDramRgn k) BcDramRgn.size * (if regionMirrored s k then 2 else 1)
  (n + p - 1) / max 1 p

/-- A logical rank holds part of a mirrored region (R323, R325). -/
def rankMirrored (s : State) (c l : Nat) : Bool :=
  [0, 1, 2, 3].any (fun k =>
    let lb := s.getF (rBcDramRgn k) BcDramRgn.local_base
    s.getB (rBcDramRgn k) BcDramRgn.valid && regionMirrored s k && decide (lb * 0x40000000 < (l + 1) * rankSize s c) &&
      decide (l * rankSize s c < (lb + regionLocal s k (populated s)) * 0x40000000))

/-- Bytes a channel's ranks in service hold. -/
def chanBytes (s : State) (c : Nat) : Nat :=
  (match mfind s.dimms c with
   | some d => min d.ranks (getM s c).ranks.length
   | none => 0) * rankSize s c

/-- The channel-local secure limit L (R438). -/
def secureLimit (s : State) : Nat :=
  s.getF rVltWatermark VltWatermark.sec_wm_gib * 0x40000000 * (if regionMirrored s 0 then 2 else 1) / max 1 (populated s)

/-- Base camp places a channel in region mode with the recovery set (R440); with no secure range its first region is empty. -/
def recoverySet (s : State) (c : Nat) : State :=
  let u := mcUid c
  let l := secureLimit s / 0x4000000
  let w0 := [(McRegion.limit, l - 1), (McRegion.wr, 1), (McRegion.migr, 1), (McRegion.secure, 1), (McRegion.en, 1)].foldl
    (fun w (f, n) => setFld w f n) 0
  let w1 := [(McRegion.base, l), (McRegion.limit, chanBytes s c / 0x4000000 - 1), (McRegion.wr, 1), (McRegion.bc, 1),
    (McRegion.migr, 1), (McRegion.secure, 1), (McRegion.normal, 1), (McRegion.en, 1)].foldl (fun w (f, n) => setFld w f n) 0
  let s := (s.putR (rMcRegion u 0) (if l = 0 then 0 else w0)).putR (rMcRegion u 1) w1
  let s := [2, 3, 4, 5, 6, 7].foldl (fun s k => s.putR (rMcRegion u k) 0) s
  s.putF (rMcProt u) McProt.mode 1

/-- Base camp starts the migration of a physical rank, where it is due and the channel has its spare (R323 to R325). -/
def startMigration (s : State) (c rank : Nat) : State :=
  let u := mcUid c
  let w := s.getR (rMcMigrStatus u)
  if fldB w McMigrStatus.active || !bcUp s || !chanUp s c then s
  else
    match (getM s c).spareOf, (getM s c).ranks.findIdx? (· == rank) with
    | [], some l =>
      let s := logRecord s 0x21 u 0 (rank + 0xF0) 0 0 0
      if rankMirrored s c l then
        configEval (mirrorRecord (setBroken (updM s c (fun m => { m with partner := if m.partner.contains rank then m.partner else m.partner ++ [rank] }))
          c true) u c true)
      else configEval s
    | sp :: _, some l =>
      let w' := [(McMigrStatus.active, 1), (McMigrStatus.src_rank, rank), (McMigrStatus.spare_rank, sp),
        (McMigrStatus.pointer, l * rankSize s c / 0x1000000)].foldl (fun w (f, n) => setFld w f n) w
      let s := updM (s.putR (rMcMigrStatus u) w') c
        (fun m => { m with migrLeft := 0, migrAt := l * rankSize s c })
      let s := recoverySet s c
      if rankMirrored s c l then configEval (mirrorRecord (setBroken s c true) u c true) else s
    | _, none => s

/-- What the code makes of a pattern, by the width of a channel's devices (R308). -/
def eccOf (s : State) (c : Nat) : ErrPat → Ecc
  | .none => .good
  | .device d half => if ((mfind s.dimms c).map (·.x4)).getD true || half then .correctable d else .uncorrectable
  | .twoDevices e => if ((mfind s.dimms c).map (·.x4)).getD true then .uncorrectable else e
  | .address => .uncorrectable
  | .other e => e

/-- The partner holds a good copy of what the channel holds: it serves, and does not itself resilver (R322, R485). -/
def copyUp (s : State) (c : Nat) : Bool := chanUp s (mirrorChan c) && (getM s (mirrorChan c)).resilver.isNone

/-- An error of a rank is counted, by device (R322, R330). -/
def countErr (s : State) (c rank dev : Nat) : State :=
  updM s c (fun m => { m with counts := mput 0 m.counts (rank * 256 + dev) (mget 0 m.counts (rank * 256 + dev) + 1) })

/-- What a read finds, at a channel-local address: the state it leaves. A corrected line and a bad mirror copy are written anew (R322,
R323, R330). -/
def readError (s : State) (c loc : Nat) (ecc mirror : Ecc) : State :=
  let pa := paOfLocal s c loc
  let rank := physRank s c loc
  match ecc with
  | .good => s
  | .correctable dev =>
    let s := countErr s c rank dev
    let s := match pa with
      | some a => mcRewrite s c (a / 64 * 64) 4
      | none => s
    let s := updM s c (fun m => { m with errs := (rank, dev, loc / 64, s.time) :: m.errs.filter (fun e =>
      decide (s.time < e.2.2.2 + 86400000000000) && !(e.1 == rank && e.2.1 == dev && e.2.2.1 == loc / 64)) })
    if 16 ≤ ((getM s c).errs.filter (fun e => e.1 == rank && e.2.1 == dev)).length then startMigration s c rank else s
  | .uncorrectable =>
    let both := match pa with
      | some a => mirrored s a && mirror != .uncorrectable && copyUp s c
      | none => false
    let s := countErr s c rank 255
    let s := match pa with
      | some a => if both then mcRewrite s c (a / 64 * 64) 4 else mcWrite (setPoison s (a / 64) true) (a / 64 * 64) 4
      | none => s
    startMigration (memoryRecord s c loc rank 0xFF true (!both) (pa.getD 0)) c rank

/-- A subchannel after a rank's refresh: its rows are closed, its activates counted anew. -/
def SubCh.refreshed (x : SubCh) (r : Nat) : SubCh :=
  { x with rows := x.rows.filter (fun e => e.1 / 512 != r), acts := x.acts.filter (fun e => e.1 / 512 != r) }

/-- A rank is refreshed: what it owes falls by one, and its held training writes are applied (R317, R319). -/
def refreshRank (s : State) (c r : Nat) : State :=
  let now := (getM s c).heldTrain.filter (fun e => e.1 == r)
  let s := now.foldl (fun s e => s.putR e.2.1 e.2.2) s
  updM s c (fun m => { m with
    owed := mput 0 m.owed r (mget 0 m.owed r - 1)
    heldTrain := m.heldTrain.filter (fun e => e.1 != r)
    sub0 := m.sub0.refreshed r
    sub1 := m.sub1.refreshed r })

end Sys2Proof.Machine
end

