-- ==== Sys2Proof/Machine/Copies.lean ====
section
/-! DEFINITION. The caches as arrays (R240 to R251): ways and their groups, the L3 slices and what they write back, and the directory's
view of a line. -/

namespace Sys2Proof.Machine

/-! ### Ways (R240, R249, R250) -/

def bitCount (n w : Nat) : Nat := ((List.range w).filter (fun i => n.testBit i)).length

/-- The field of disabled ways of a core array (0 L1I, 1 L1D, 2 L2), and how many ways it has. -/
def wayField : Nat → Fld × Nat
  | 0 => (CoreCacheWays.l1i_dis, 4)
  | 1 => (CoreCacheWays.l1d_dis, 8)
  | _ => (CoreCacheWays.l2_dis, 8)

/-- The sets of a core array (R240). -/
def arraySets : Nat → Nat
  | 0 => 256
  | 1 => 128
  | _ => 2048

def coreWays (s : State) (k array : Nat) : List Nat :=
  let d := s.getF (rCoreCacheWays (coreUid k)) (wayField array).1
  (List.range (wayField array).2).filter (fun w => !d.testBit w)

def sliceWays (s : State) (i : Nat) : List Nat :=
  let d := s.getF (rTileL3Ways (sliceUid i)) TileL3Ways.way_dis
  (List.range 12).filter (fun w => !d.testBit w)

def secureWays (s : State) (i : Nat) : Nat := min 2 (s.getF (rTileL3Ways (sliceUid i)) TileL3Ways.secure_ways)
def enabledWays (s : State) (i : Nat) : Nat := 12 - bitCount (s.getF (rTileL3Ways (sliceUid i)) TileL3Ways.way_dis) 12

/-- The ways a line may stand in at its home: secure lines in the secure ways, counted upwards; normal ones in those that are neither
secure nor scratch, the scratch ways counted downwards (R250). -/
def waysFor (s : State) (line : Nat) : List Nat :=
  let i := homeSlice s (line * 64)
  let ws := sliceWays s i
  if isSecure s (line * 64) then ws.take (secureWays s i)
  else (ws.drop (secureWays s i)).take (ws.length - secureWays s i - s.getF (rTileL3Ways (sliceUid i)) TileL3Ways.scratch_ways)

/-! ### The L3 -/

/-- A line leaves its slice, a dirty one to memory (R241). -/
def l3Out (s : State) (cls line : Nat) : State :=
  match mfind s.l3 line with
  | none => s
  | some e =>
    let s := setL3 s line none
    if e.dirty && physClass s (line * 64) == .dram then mcWrite s (line * 64) cls else s

/-- Lines of a slice in the set of another line. -/
def l3Mates (s : State) (line : Nat) : SMap L3Line :=
  s.l3.filter (fun e => e.1 != line && e.1 % 4096 == line % 4096 && homeSlice s (e.1 * 64) == homeSlice s (line * 64))

/-- A line stands in its home slice: where it stood, in a free way of its group, or in that of a victim. With no way for it, it goes
to memory (R241, R250, R251). -/
def putL3 (s : State) (line : Nat) (dirty : Bool) (cls : Nat) : State :=
  match mfind s.l3 line with
  | some e => setL3 s line (some { e with dirty := dirty })
  | none =>
    let ways := waysFor s line
    let mates := l3Mates s line
    let w : Option Nat := match ways.find? (fun w => mates.all (fun e => e.2.way != w)) with
      | some w => some w
      | none => ways[Config.l3Victim line % ways.length]?
    match w with
    | some w => setL3 ((mates.filter (fun e => e.2.way == w)).foldl (fun s e => l3Out s cls e.1) s) line (some ⟨dirty, w⟩)
    | none => if dirty && physClass s (line * 64) == .dram then mcWrite s (line * 64) cls else s

/-- Lines of a slice that stand in no way of their group leave: the partition or the enabled ways have changed (R249, R250, R253). -/
def l3Settle (s : State) (i : Nat) : State :=
  ((s.l3.filter (fun e => homeSlice s (e.1 * 64) == i && !(waysFor s e.1).contains e.2.way)).map (·.1)).foldl (fun s l => l3Out s 4 l) s

/-- general_ways follows the partition, and the lines follow both (R250). -/
def fixGeneral (s : State) (i : Nat) : State :=
  let r := rTileL3Ways (sliceUid i)
  l3Settle (s.putF r TileL3Ways.general_ways (enabledWays s i - secureWays s i - s.getF r TileL3Ways.scratch_ways)) i

/-- The line leaves its dirty holder for the home: to memory and clean with buddy directories on, else to the slice alone (R241);
scratch keeps its bytes where they are (R252). -/
def writeBack (s : State) (line cls : Nat) : State :=
  let on := buddyOn s (homeSlice s (line * 64))
  match physClass s (line * 64) with
  | .scratch _ _ => s
  | .dram => if on then putL3 (mcWrite s (line * 64) cls) line false cls else putL3 s line true cls
  | _ => putL3 s line (!on) cls

/-! ### Entries of the directory -/

def CLine.dirty (c : CLine) : Bool := c.st == .m || c.st == .o

/-- The core an entry holds for the owner (R261). -/
def entOwner (e : DirEnt) : Option Nat :=
  match e.view with
  | .owned => some e.owner
  | .exclusive => some e.owner
  | _ => none

/-- A line's entry once a core holds no copy of it. -/
def entWithout (s : State) (k line : Nat) : DirEnt :=
  let e := dirAt s line
  let others := e.sharers.filter (fun i => i != k / 2 || (lineOf s (2 * i + 1 - k % 2) line).isSome)
  if entOwner e = some k then (if others.isEmpty then dirNone else ⟨.shared, 0, others, e.bcast⟩)
  else if others.isEmpty ∧ e.view = .shared then dirNone
  else { e with sharers := others }

def insSorted (l : List Nat) (n : Nat) : List Nat := l.filter (· < n) ++ [n] ++ l.filter (n < ·)

end Sys2Proof.Machine
end

