-- ==== Sys2Proof/Machine/Home.lean ====
section
/-! DEFINITION. The home protocol (R260 to R265, R268 to R272, R280, R281): the messages, the one transaction a home runs on a line,
what each message does where it arrives, and a transaction taken whole. A line's bytes are those of Machine/Mem.lean; this file moves the
right to them. -/

namespace Sys2Proof.Machine

def partyClass (s : State) : Party → ReqClass
  | .core k =>
    (match vcoreOfCore s k with
     | some v => if vmapB s v BcVcoreMap.world then .trusted else .normal
     | none => .normal)
  | .baseCamp => .baseCamp
  | .migration _ => .migration
  | .gleaner _ => .migration
  | _ => .normal

/-- The unit ID a party sends under. -/
def partyUid : Party → Nat
  | .core k => coreUid k
  | .engine u => u
  | .host p => portUid p
  | .baseCamp => uidBaseCamp
  | .migration c => mcUid c
  | .gleaner c => mcUid c
  | .trace => uidDebug

/-- The class of R314. -/
def partyMcClass (prefetch : Bool) : Party → Nat
  | .core _ => if prefetch then 1 else 0
  | .engine _ => 3
  | .host _ => 2
  | .baseCamp => 4
  | .migration _ => 5
  | .gleaner _ => 4
  | .trace => 4

/-! ### Messages (R262) -/

def pushRsp (s : State) (r : Rsp) : State := { s with rsp := s.rsp ++ [r] }
def pushFwd (s : State) (f : List Fwd) : State := { s with fwd := s.fwd ++ f }

/-- The home answers a requester. -/
def answer (s : State) (q : HomeReq) (k : RspKind) (g : Option Moesi) (refusal : Bool := false) (bytes : List Byte := []) : State :=
  pushRsp s ⟨k, q.line, homeSlice s (q.line * 64), false, q.who, g, q.kind, refusal, bytes, false, false⟩

def setTxn (s : State) (line : Nat) (t : Option Txn) : State :=
  { s with txns := match t with
      | some x => mins s.txns line x
      | none => mdel s.txns line }

/-- Snoops are counted at the home (R511). -/
def sendFwd (s : State) (home : Nat) (f : List Fwd) : State :=
  pmUncore (pushFwd s f) (stopOfTile home) 0x102 false none f.length

def tileOfCore (k : Nat) : Nat := k / 2

/-- Tiles that an entry says may hold the line; with the broadcast flag, every tile (R265). -/
def entTiles (e : DirEnt) : List Nat :=
  if e.bcast then List.range 96
  else
    match e.view with
    | .none => []
    | .shared => e.sharers
    | _ => if e.sharers.contains (e.owner / 2) then e.sharers else e.sharers ++ [e.owner / 2]

/-! ### Directory changes (R265) -/

/-- The home's duplicate is kept: buddy directories are on, and the slice that holds it serves. -/
def dupLive (s : State) (h : Nat) : Bool := buddyOn s h && serving s (sliceUid (buddySlice s h))

def setDirFix (s : State) (line : Nat) (e : DirEnt) : State :=
  let had := (dirAt s line).bcast
  let s := setDir s line e
  if had then bcastFix s (homeSlice s (line * 64)) else s

/-- A directory change that moves ownership or removes sharers goes to the buddy, and the line's transaction waits for it (R265). -/
def changeDir (s : State) (line : Nat) (e : DirEnt) : State :=
  if dirAt s line = e then s
  else
    let h := homeSlice s (line * 64)
    let s := setDirFix s line e
    if dupLive s h then
      let s := pushFwd s [⟨.dupUpd, line, buddySlice s h, some e, false⟩]
      match mfind s.txns line with
      | some x => setTxn s line (some { x with buddy := true })
      | none => s
    else s

/-- An update that only adds a sharer is posted (R265). -/
def addSharer (s : State) (line : Nat) (e : DirEnt) : State :=
  if dirAt s line = e then s
  else
    let h := homeSlice s (line * 64)
    let s := setDirFix s line e
    if dupLive s h then pushFwd s [⟨.dupUpd, line, buddySlice s h, some e, true⟩] else s

/-! ### A transaction begins (R261, R263, R264) -/

/-- What a request sends before it can be answered: snoops, and the tiles or cores they go to. -/
def snoopsFor (e : DirEnt) (q : HomeReq) : List Fwd :=
  let inv (ts : List Nat) : List Fwd := ts.map (fun i => ⟨.snpInv, q.line, i, none, false⟩)
  match q.kind with
  | .rdS =>
    (match e.view with
     | .exclusive => [⟨.snpS, q.line, e.owner, none, false⟩]
     | .owned => [⟨.snpO, q.line, e.owner, none, false⟩]
     | _ => [])
  | .rdOnce => (entOwner e).toList.map (fun k => ⟨.snpO, q.line, k, none, false⟩)
  | .wb => []
  | .notice => []
  | _ => inv (entTiles e)

/-- The request is answered with the line's data, or merges with them. -/
def ReqKind.reads : ReqKind → Bool
  | .rdS => true
  | .rdO => true
  | .rdOnce => true
  | .wrPart _ => true
  | .atom _ _ _ => true
  | .coreAtom _ _ _ _ => true
  | _ => false

/-- The request writes at the home, whose answer is then due only for the write (R263). -/
def ReqKind.writes : ReqKind → Bool
  | .wrLine _ => true
  | .wrPart _ => true
  | .atom _ _ _ => true
  | .coreAtom _ _ _ _ => true
  | _ => false

/-- The request gives its sender a copy, so that the directory needs an entry for the line (R261, R268). -/
def ReqKind.enters : ReqKind → Bool
  | .rdS => true
  | .rdO => true
  | .upg => true
  | .wrLine h => h.isSome
  | _ => false

/-- The data must come from memory: no owner has them, nor the slice. -/
def fromMemory (s : State) (q : HomeReq) : Bool :=
  q.kind.reads && (mfind s.l3 q.line).isNone && physClass s (q.line * 64) == .dram

/-- The directory set of a line, within its home (R261). -/
def dirSet (s : State) (line : Nat) : Nat := Config.dirSet (homeSlice s (line * 64)) line % 4096

/-- The entry that a new line's must displace, where its set of the directory is full: those of transactions under way count (R261). -/
def dirVictim (s : State) (line : Nat) : Option Nat :=
  let h := homeSlice s (line * 64)
  let here := s.dir.filter (fun e => homeSlice s (e.1 * 64) == h)
  let due := s.txns.filter (fun e => e.1 != line && e.2.req.kind.enters && (mfind s.dir e.1).isNone && homeSlice s (e.1 * 64) == h &&
    (match e.2.stage with
     | .room _ => false
     | _ => true))
  if (mfind s.dir line).isSome || decide (here.length + due.length < 16) then none
  else
    let es := here.filter (fun e => dirSet s e.1 == dirSet s line)
    if es.length + (due.filter (fun e => dirSet s e.1 == dirSet s line)).length < 16 then none
    else (es[Config.dirVictim h line % es.length]?).map (·.1)

/-- The home still has the writer of a write-back as the line's owner, and the entry stands (R281). -/
def wbCurrent (s : State) (q : HomeReq) : Bool :=
  match q.who with
  | .core k => entOwner (dirAt s q.line) == some k && (lineOf s k q.line).any (·.dirty)
  | _ => false

/-- The memory class of a request (R314): a prefetch is told by its core's request outstanding. -/
def reqMcClass (s : State) (q : HomeReq) : Nat :=
  partyMcClass (q.kind == .rdS && (match q.who with
    | .core k => mfind (getC s k).misses q.line == some .prefetch
    | _ => false)) q.who

/-- The read of memory of a transaction leaves for its controller. -/
def askMemory (s : State) (line : Nat) (x : Txn) : State :=
  let (s, done) := mcRead s (line * 64) (reqMcClass s x.req)
  setTxn s line (some { x with memory := !done, fill := true })

/-- Snoops go out, and the read of memory. -/
def beginTxn (s : State) (q : HomeReq) : State :=
  let e := dirAt s q.line
  let fs := snoopsFor e q
  let s := sendFwd s (homeSlice s (q.line * 64)) fs
  let x : Txn := ⟨q, fs.map (·.target), false, false, false, false, false, .gather⟩
  if (entOwner e).isNone && fromMemory s q then askMemory s q.line x else setTxn s q.line (some x)

/-- An Upg whose sender the home no longer has as a holder is served as RdO (R263, R281). -/
def asServed (s : State) (q : HomeReq) : HomeReq :=
  match q.kind, q.who with
  | .upg, .core k => if (entTiles (dirAt s q.line)).contains (k / 2) && (lineOf s k q.line).isSome then q else { q with kind := .rdO }
  | _, _ => q

/-- A request is taken up on an idle line; its line waits where the directory has no room for it, the victim's copies being recalled
first (R261). A write-back whose line has moved on is answered Stale (R281). -/
def startTxn (s : State) (q : HomeReq) : State :=
  let q := asServed s q
  if q.kind = .wb ∧ !wbCurrent s q then answer s q .stale none
  else
    match (if q.kind.enters then dirVictim s q.line else none) with
    | none => beginTxn s q
    | some v =>
      let s := setTxn s q.line (some ⟨q, [], false, false, false, false, false, .room v⟩)
      if (mfind s.txns v).isSome then s
      else
        let h := homeSlice s (q.line * 64)
        let r := rTileDirStatus (sliceUid h)
        let s := pmUncore (s.putR r (satInc (s.getR r) TileDirStatus.dir_evictions 1)) (stopOfTile h) 0x101 false none
        beginTxn s ⟨.recall, .baseCamp, v, []⟩

/-! ### A transaction settles -/

/-- A demand fill from memory allocates in the home slice (R241). -/
def fillL3 (s : State) (line : Nat) (x : Txn) : State :=
  let demand := match x.req.kind, x.req.who with
    | .rdS, .core k => mfind (getC s k).misses line != some .prefetch
    | .rdO, .core _ => true
    | _, _ => false
  let read := x.fill || (match physClass s (line * 64) with
    | .expansion _ => (entOwner (dirAt s line)).isNone
    | _ => false)
  if demand && read && (mfind s.l3 line).isNone then putL3 s line false 0 else s

/-- The slice's copy of a line whose ownership a core takes is no longer the newest (R241, R263). -/
def l3Stale (s : State) (line : Nat) : State := setL3 s line ((mfind s.l3 line).map (fun e => { e with dirty := false }))

/-- The entry of a hinted target (R268, R269): its core, where the hint stands. -/
def hintCore (s : State) (line : Nat) (h : Hint) : Option Nat :=
  let k : Option Nat := match h with
    | .thread t =>
      if threadAssigned s t then boundCore s (t / 2) else none
    | .tile i => if i < 96 then some (2 * i) else none
  match k with
  | none => none
  | some k =>
    if stateOf s (coreUid k) != usInService then none
    else if isSecure s (line * 64) && partyClass s (.core k) != .trusted then none
    else
      match physClass s (line * 64) with
      | .dram => some k
      | .expansion _ => some k
      | _ => none

def demoted (s : State) (tile : Nat) : State := pmUncore s (stopOfTile tile) 0x105 false none

/-- The state a core is about to hold a line in: a grant is under way to it. -/
def grantTo (s : State) (k line : Nat) : Option Moesi :=
  (s.rsp.find? (fun r => !r.home && r.line == line && r.who == .core k && r.grant.isSome)).bind (·.grant)

/-- The grant under way to a core becomes another, or none. -/
def regrant (s : State) (k line : Nat) (g : Option Moesi) : State :=
  { s with rsp := s.rsp.map (fun r => if !r.home && r.line == line && r.who == .core k && r.grant.isSome then { r with grant := g } else r) }

/-- The state of a core's copy, a grant under way counting as one. -/
def copyOf (s : State) (k line : Nat) : Option Moesi :=
  match grantTo s k line with
  | some g => some g
  | none => (lineOf s k line).map (·.st)

/-- The entry after a read by core `k` of a line with the entry `e` (R263): an owner that has no copy any more is forgotten. -/
def entRead (s : State) (k line : Nat) (e : DirEnt) : DirEnt :=
  match entOwner e with
  | some o =>
    (match copyOf s o line with
     | some g => if g = .o then { e with view := .owned, sharers := insSorted e.sharers (k / 2) }
         else { e with view := .shared, sharers := insSorted (insSorted e.sharers (o / 2)) (k / 2) }
     | none => { e with view := .shared, sharers := insSorted e.sharers (k / 2) })
  | none => if e.view = .none then ⟨.exclusive, k, [], false⟩ else { e with sharers := insSorted e.sharers (k / 2) }

/-- The write-back of core `k` has been served: the entry stands where the core has taken the line back meanwhile (R243). -/
def entWrittenBack (s : State) (k line : Nat) : DirEnt :=
  match lineOf s k line with
  | some c => if c.place = .sent then entWithout s k line else dirAt s line
  | none => entWithout s k line

/-- Snoops and memory are in: the entry takes its new form, and the buddy hears of it first where R265 asks. -/
def settleTxn (s : State) (line : Nat) (x : Txn) : State :=
  let q := x.req
  let e := dirAt s line
  let s := fillL3 s line x
  match q.kind, q.who with
  | .rdS, .core k =>
    let e' := entRead s k line e
    if e'.view = e.view then addSharer s line e' else changeDir s line e'
  | .rdO, .core k => changeDir (l3Stale s line) line ⟨.exclusive, k, [], false⟩
  | .upg, .core k => changeDir (l3Stale s line) line ⟨.exclusive, k, [], false⟩
  | .rdOnce, _ => s
  | .wb, .core k => changeDir (writeBack s line 0) line (entWrittenBack s k line)
  | .notice, .core k => if entOwner e = some k ∧ (lineOf s k line).isNone then changeDir s line (entWithout s k line) else s
  | .recall, _ => changeDir (if x.dirty then writeBack s line 0 else s) line dirNone
  | _, _ => changeDir s line dirNone

/-- The atomic's result on `n` bits (R113). -/
def amoFn (op : AmoOp) (n old v : Nat) : Nat :=
  let lt := decide (sextNat n old < sextNat n v)
  (match op with
    | .fadd => old + v
    | .swap => v
    | .and => old &&& v
    | .or => old ||| v
    | .xor => old ^^^ v
    | .smin => if lt then old else v
    | .smax => if lt then v else old
    | .umin => min old v
    | .umax => max old v) % 2 ^ n

/-- What an engine's or host's atomic on `n` bytes writes (R113, R114, R271): none where the compare fails. -/
def atomResult (a : HomeAtomic) (n old v : Nat) : Option Nat :=
  match a with
  | .amo op => some (amoFn op (8 * n) old v)
  | .cas expect => if old = expect.toNat % 2 ^ (8 * n) then some (v % 2 ^ (8 * n)) else none

/-- Where an atomic has been performed (R271, R272): its line stays in the slice, or the controller has written it. -/
def atomLine (s : State) (q : HomeReq) (home : Bool) : State :=
  if home || physClass s (q.line * 64) != .dram then writeBack s q.line (reqMcClass s q)
  else mcAtomic (setL3 s q.line none) (q.line * 64) (reqMcClass s q)

/-- The write or atomic of a transaction is performed by the home, which has serialised it and holds no other copy of the line, or by the
controller (R263, R268, R271, R274). A core's uncached write goes to memory alone. -/
def performHome (s : State) (q : HomeReq) : State :=
  let cls := reqMcClass s q
  let settle (s : State) : State := match q.who with
    | .core _ => if physClass s (q.line * 64) == .dram then mcWrite (setL3 s q.line none) (q.line * 64) cls else setL3 s q.line none
    | _ => writeBack s q.line cls
  let count (s : State) (pa : Nat) : State :=
    pmUncore s (stopOfTile (homeSlice s (q.line * 64))) 0x104 (partyClass s q.who == .trusted) (some (partyUid q.who, pa))
  match q.kind with
  | .wrLine _ => settle (setL3 (writeBytes s (q.line * 64) q.bytes) q.line none)
  | .wrPart off => settle (writeBytes s (q.line * 64 + off) q.bytes)
  | .atom a off n =>
    let pa := q.line * 64 + off
    let s := match atomResult a n (ofBytes (readBytes s pa n)) (ofBytes q.bytes) with
      | some r => writeBytes s pa (toBytes n r)
      | none => s
    count (atomLine s q false) pa
  | .coreAtom home off wr tag =>
    let pa := q.line * 64 + off
    let s := if wr then setTag (writeBytes s pa q.bytes) pa tag else s
    count (atomLine s q home) pa
  | _ => s

/-- What the requester is granted (R263). -/
def grantOf (s : State) (q : HomeReq) : RspKind × Option Moesi :=
  match q.kind, q.who with
  | .rdS, .core k => (.data, some (if (dirAt s q.line).view = .exclusive ∧ (dirAt s q.line).owner = k then .e else .s))
  | .rdO, _ => (.data, some .m)
  | .upg, _ => (.ack, some .m)
  | .rdOnce, _ => (.data, none)
  | .atom _ _ _, _ => (.data, none)
  | .coreAtom _ _ _ _, _ => (.data, none)
  | _, _ => (.ack, none)

/-- The data of the answer: for a RdOnce and an atomic the values held at the moment of the home's response and before the atomic
(R270, R271); a core's grant names its line. -/
def answerBytes (s : State) (q : HomeReq) : List Byte :=
  match q.kind with
  | .rdOnce => readBytes s (q.line * 64) 64
  | .atom _ off n => readBytes s (q.line * 64 + off) n
  | .coreAtom _ off _ _ => readBytes s (q.line * 64 + off) q.bytes.length
  | _ => []

/-- The transaction's write is made and its answer sent; a notice and the home's own recall have none. A hinted line is then offered to
its target, whose answer the transaction waits for (R268). -/
def respond (s : State) (line : Nat) (x : Txn) : State :=
  let bs := answerBytes s x.req
  let s := performHome s x.req
  let g := grantOf s x.req
  let s := match x.req.kind with
    | .notice => s
    | .recall => s
    | _ => answer s x.req g.1 g.2 false bs
  let h := homeSlice s (line * 64)
  match x.req.kind with
  | .wrLine (some hint) =>
    (match hintCore s line hint with
     | some k => setTxn (sendFwd s h [⟨.stash, line, k, none, false⟩]) line (some { x with stage := .offer, waits := [k] })
     | none => setTxn (demoted s h) line none)
  | _ => setTxn s line none

/-! ### The order of requests (R264, R279) -/

/-- A posted write of a host port. -/
def HomeReq.posted (q : HomeReq) (p : Nat) : Bool := q.who == .host p && q.kind.writes

/-- An earlier posted write of the same host port is not yet performed, so that this one waits (R279). -/
def portEarlier (s : State) (i : Nat) (q : HomeReq) : Bool :=
  match q.who with
  | .host p => q.kind.writes && (s.txns.any (fun e => e.2.req.posted p && e.2.stage != .offer) || (s.homeQ.take i).any (fun r => r.posted p))
  | _ => false

/-- The first request that waits on a line, where it may be taken up. -/
def nextHome (s : State) (line : Nat) : Option (HomeReq × State) :=
  match s.homeQ.findIdx? (fun r => r.line == line) with
  | none => none
  | some i => (s.homeQ[i]?).bind (fun r => if portEarlier s i r then none else some (r, { s with homeQ := s.homeQ.eraseIdx i }))

/-- The lines that may go on once a line's transaction has ended: those that wait for its directory way, and that of the next posted
write of the same port. -/
def wakes (s : State) (line : Nat) (q : HomeReq) : List Nat :=
  (s.txns.filter (fun e => e.2.stage == .room line)).map (·.1) ++
    (match q.who with
     | .host p => ((s.homeQ.find? (fun r => r.posted p)).map (·.line)).toList
     | _ => [])

/-- Transactions go on as far as they can, each of a line after the one before it (R264). -/
def runLines : Nat → State → List Nat → State
  | 0, s, _ => s
  | _, s, [] => s
  | n + 1, s, line :: ls =>
    match mfind s.txns line with
    | none =>
      (match nextHome s line with
       | some (q, s) => runLines n (startTxn s q) (line :: ls)
       | none => runLines n s ls)
    | some x =>
      if !x.waits.isEmpty || x.memory || x.buddy then runLines n s ls
      else
        match x.stage with
        | .room v =>
          if (mfind s.txns v).isSome then runLines n s (if (mfind s.txns v).any (fun y => y.waits.isEmpty) then v :: ls else ls)
          else runLines n (startTxn (setTxn s line none) x.req) (line :: ls)
        | .gather =>
          runLines n (settleTxn (setTxn s line (some { x with stage := .settled })) line { x with stage := .settled }) (line :: ls)
        | .settled =>
          let s := respond s line x
          runLines n s (line :: wakes s line x.req ++ ls)
        | .offer => runLines n (setTxn s line none) (line :: wakes (setTxn s line none) line x.req ++ ls)

def advanceTxn (s : State) (line : Nat) : State := runLines (8 * (s.homeQ.length + s.txns.length) + 16) s [line]

/-- A request is admitted, and served as soon as its line is idle (R264, R280: its entry blocks no other). The spec gives no number of
admission credits: the model's homes never lack one (DESIGN CHOICE, notes/assumptions/60.md). -/
def admitReq (s : State) (q : HomeReq) : State :=
  let pa := q.line * 64
  let s := pmUncore s (stopOfTile (homeSlice s pa)) 0x100 (partyClass s q.who == .trusted) (some (partyUid q.who, pa))
  advanceTxn { s with homeQ := s.homeQ ++ [q] } q.line

/-- Local DRAM beyond the initialised limit answers base camp and the migration engines only (R499). -/
def earlyMem (s : State) (pa : Nat) : Bool := decide (pa < dramEndGib s * 0x40000000)

/-- The home's slice takes requests: it serves, and is not between the move of its directory and the new map (R256). -/
def homeOpen (s : State) (line : Nat) : Bool :=
  let h := homeSlice s (line * 64)
  serving s (sliceUid h) && !s.retires.any (fun r => r.slice == h && r.drain && r.moved && !r.mapped)

/-- A request is kept to be sent again once the map names another home (R256, R257). -/
def holdReq (s : State) (q : HomeReq) : State := { s with heldReqs := s.heldReqs ++ [q] }

/-- A request reaches its home: answered with no target or retry, or admitted (R18, R256, R264). Where the home's own stop is lost
nothing answers, and the request waits at its source (R257). -/
def toHome (s : State) (q : HomeReq) : State :=
  let pa := q.line * 64
  if !(physClass s pa).isMem && !(earlyMem s pa && partyClass s q.who != .normal && partyClass s q.who != .trusted) then
    answer s q .noTarget none
  else
    let h := homeSlice s pa
    if !serving s (stateUidOfStop (stopOfTile h)) then holdReq s q
    else if !homeOpen s q.line then
      pmUncore (answer s q .retry none false q.bytes) (stopOfTile h) 0x103 false none
    else
      let write := q.kind.writes || q.kind == .rdO || q.kind == .upg
      if q.kind != .wb && q.kind != .notice && !admits s (partyClass s q.who) write pa then answer s q .noTarget none true
      else admitReq s q

/-- Memory has answered a home's read. -/
def memoryDone (s : State) (line : Nat) : State :=
  match mfind s.txns line with
  | none => s
  | some x => if x.memory then advanceTxn (setTxn s line (some { x with memory := false })) line else s

/-- A snooped holder has answered, with data or without: where the owner that was asked had none, they are read from memory. -/
def snoopDone (s : State) (line src : Nat) (data dirty : Bool) : State :=
  match mfind s.txns line with
  | none => s
  | some x =>
    if !x.waits.contains src then s
    else
      let x := { x with waits := x.waits.erase src, data := x.data || data, dirty := x.dirty || dirty }
      if x.waits.isEmpty && !x.data && !x.fill && x.stage == .gather && (entOwner (dirAt s line)).isSome && fromMemory s x.req then
        advanceTxn (askMemory s line x) line
      else advanceTxn (setTxn s line (some x)) line

/-- The buddy has answered: the transaction whose entry it holds goes on. -/
def buddyDone (s : State) (line : Nat) : State :=
  match mfind s.txns line with
  | none => s
  | some x => if x.buddy then advanceTxn (setTxn s line (some { x with buddy := false })) line else s

/-! ### Lines leaving a core (R243, R244) -/

/-- A clean E victim's replacement notice goes to the home (R243). -/
def tellHome (s : State) (k line : Nat) : State :=
  let q : HomeReq := ⟨.notice, .core k, line, []⟩
  if homeOpen s line then admitReq s q else holdReq s q

/-- A clean line leaves: an E line with a notice, an S line silently (R243, R244). -/
def leaveClean (s : State) (k line : Nat) (c : CLine) : State :=
  let s := dropLine s k line
  if c.st = .e then tellHome s k line else s

/-- A line enters a buffer, in order of entry (R240). -/
def buffer (s : State) (k line : Nat) (c : CLine) : State :=
  let n := (getC s k).filled
  updC (setLine s k line { c with l1i := none, l1d := none, order := n }) k (fun x => { x with filled := n + 1 })

/-- An L2 victim: a dirty one to the eviction buffer, a clean one away (R243). -/
def leaveL2 (s : State) (k line : Nat) (c : CLine) : State :=
  if c.dirty then buffer s k line { c with place := .evict } else leaveClean s k line c

/-! ### Fills -/

/-- The first of some lines to have entered their buffer. -/
def oldest (l : List (Nat × CLine)) : Option (Nat × CLine) :=
  l.foldl (fun o e => match o with
    | none => some e
    | some b => if e.2.order < b.2.order then some e else some b) none

def evictions (s : State) (k : Nat) : List (Nat × CLine) :=
  (getC s k).lines.filter (fun e => e.2.place == .evict || e.2.place == .sent)

def l2Mates (s : State) (k line : Nat) : List (Nat × CLine) :=
  (getC s k).lines.filter (fun e => e.1 != line && e.2.place == .l2 && e.1 % 2048 == line % 2048)

/-- A way a line keeps: one with a request outstanding, or dirty while the eviction buffer is full (R242 rank 2, R243). -/
def l2Held (s : State) (k : Nat) (e : Nat × CLine) : Bool :=
  (mfind (getC s k).misses e.1).isSome || (e.2.dirty && decide (16 ≤ (evictions s k).length))

/-- The L2 way a fill takes: a free one, or one whose line may leave, as replacement chooses (R240, R242). -/
def l2Way (s : State) (k line : Nat) : Option Nat :=
  let ways := coreWays s k 2
  let mates := l2Mates s k line
  match ways.find? (fun w => mates.all (fun e => e.2.way != w)) with
  | some w => some w
  | none =>
    let ok := ways.filter (fun w => mates.all (fun e => e.2.way != w || !l2Held s k e))
    ok[Config.l2Victim k line % ok.length]?

/-- A line enters the L2 in a state; none while rank 2 of R242 forbids every way. -/
def enterL2 (s : State) (k line : Nat) (g : Moesi) : Option State :=
  match lineOf s k line with
  | some ⟨_, .l2, w, i, d, n⟩ => some (setLine s k line ⟨g, .l2, w, i, d, n⟩)
  | _ =>
    (l2Way s k line).map (fun w =>
      setLine (((l2Mates s k line).filter (fun e => e.2.way == w)).foldl (fun s e => leaveL2 s k e.1 e.2) s) k line ⟨g, .l2, w, none, none, 0⟩)

/-- The way of an L1 that a line in the L2 takes: array 0 L1I, 1 L1D. -/
def l1At (array : Nat) (c : CLine) : Option Nat := if array = 0 then c.l1i else c.l1d
def withL1 (array : Nat) (c : CLine) (w : Option Nat) : CLine := if array = 0 then { c with l1i := w } else { c with l1d := w }

/-- A line of the L2 enters an L1; the line whose way it takes stays in the L2 (R241). -/
def l1Fill (s : State) (k line array : Nat) : State :=
  match lineOf s k line with
  | none => s
  | some c =>
    if (l1At array c).isSome then s
    else
      let ways := coreWays s k array
      let mates := (getC s k).lines.filter (fun e => (l1At array e.2).isSome && e.1 % arraySets array == line % arraySets array)
      let w := match ways.find? (fun w => mates.all (fun e => l1At array e.2 != some w)) with
        | some w => some w
        | none => ways[Config.l1Victim k array line % ways.length]?
      let s := (mates.filter (fun e => l1At array e.2 == w)).foldl (fun s e => setLine s k e.1 (withL1 array e.2 none)) s
      setLine s k line (withL1 array c w)

/-- A demand access finds a line its core holds: one of a buffer moves into the L2, in place of its write-back, and into the L1 that made
the access (R243, R244). A write-back that has left goes on to the home, which then keeps the core as the owner (`entWrittenBack`). -/
def touchLine (s : State) (k array line : Nat) : State :=
  match lineOf s k line with
  | none => s
  | some c =>
    match enterL2 s k line c.st with
    | some s => l1Fill s k line array
    | none => s

/-- Every line of a range, as a demand access touches it. -/
def touch (s : State) (k array pa n : Nat) : State := (linesOf pa n).foldl (fun s l => touchLine s k array l) s

/-- A prefetched line enters the side buffer; from a full one the oldest leaves (R244). -/
def putSide (s : State) (k line : Nat) (g : Moesi) : State :=
  let side := (getC s k).lines.filter (fun e => e.2.place == .side)
  let s := if side.length < 32 then s else
    match oldest side with
    | some e => leaveClean s k e.1 e.2
    | none => s
  buffer s k line ⟨g, .side, 0, none, none, 0⟩

/-- A core takes the line it was granted: a prefetch into the side buffer (R244), any other into the L2 and the L1 that missed. None
while no way of the L2 can take it (R242, R243). -/
def install (s : State) (k line : Nat) (g : Moesi) : Option State :=
  let m := mfind (getC s k).misses line
  let s := updC s k (fun c => { c with misses := mdel c.misses line })
  if m = some .prefetch then some (putSide s k line g)
  else (enterL2 s k line g).map (fun s => l1Fill s k line (if m = some .fetch then 0 else 1))

/-! ### Messages arriving (R263, R280) -/

/-- A snooped holder's answer to the home. -/
def ackFwd (s : State) (f : Fwd) (k : RspKind) (dirty : Bool := false) : State :=
  pushRsp s ⟨k, f.line, f.target, true, .baseCamp, none, .rdS, f.posted, [], dirty, false⟩

/-- The answers to a Stash and to a DupUpd are told apart by what they answer. -/
def ackOf (s : State) (f : Fwd) (k : RspKind) (what : ReqKind) : State :=
  pushRsp s ⟨k, f.line, f.target, true, .baseCamp, none, what, f.posted, [], false, false⟩

/-- What a downgrade leaves of a copy: M to O, E to S (R263). -/
def downgraded (g : Moesi) : Moesi := if g = .m ∨ g = .o then .o else .s

/-- A read downgrades its owner (R263); a copy under way to it is downgraded there, so that the answer waits for no other message
(R280). -/
def snpS (s : State) (f : Fwd) : State :=
  match grantTo s f.target f.line with
  | some g => ackFwd (regrant s f.target f.line (some (downgraded g))) f .data (g == .m || g == .o)
  | none =>
    match lineOf s f.target f.line with
    | some c => ackFwd (setLine s f.target f.line { c with st := downgraded c.st }) f .data c.dirty
    | none => ackFwd s f .ack

/-- A read without downgrade: the owner gives its data and stays as it is (R263, R270). -/
def snpO (s : State) (f : Fwd) : State := ackFwd s f (if (copyOf s f.target f.line).isSome then .data else .ack)

/-- The core whose upgrade the home is serving keeps its copy. -/
def upgrader (s : State) (line : Nat) : Option Nat :=
  match mfind s.txns line with
  | some x =>
    (match x.req.kind, x.req.who with
     | .upg, .core k => some k
     | _, _ => none)
  | none => none

/-- Every copy in a tile is removed; an owner's data go to the home (R263). -/
def snpInv (s : State) (f : Fwd) : State :=
  let keep := upgrader s f.line
  let ks := [2 * f.target, 2 * f.target + 1].filter (fun k => keep != some k)
  let has (p : Moesi → Bool) : Bool := ks.any (fun k => (copyOf s k f.line).any p)
  ackFwd (ks.foldl (fun s k => regrant (dropLine s k f.line) k f.line none) s) f (if has (· != .s) then .data else .ack)
    (has (fun g => g == .m || g == .o))

/-- A hinted line is offered to its target L2, which takes it in E in the way replacement gives it, or declines (R242, R268). -/
def stash (s : State) (f : Fwd) : State :=
  if stateOf s (coreUid f.target) != usInService then ackOf s f .nack (.wrLine none)
  else
    match enterL2 s f.target f.line .e with
    | some s => ackOf s f .ack (.wrLine none)
    | none => ackOf s f .nack (.wrLine none)

/-- The buddy keeps an entry as the home sent it (R265). -/
def dupUpd (s : State) (f : Fwd) : State := ackOf (setDup s f.line (f.ent.getD dirNone)) f .ack .rdOnce

/-- A message of plane FWD arrives. -/
def takeSnoop (s : State) (f : Fwd) : State :=
  match f.kind with
  | .snpS => snpS s f
  | .snpO => snpO s f
  | .snpInv => snpInv s f
  | .stash => stash s f
  | .dupUpd => dupUpd s f

/-- The target of a hinted line has answered: it holds the line in E, or the line stays in the home slice, the hint counted (R268). -/
def offered (s : State) (line core : Nat) (took : Bool) : State :=
  match mfind s.txns line with
  | some x =>
    if x.stage != .offer || x.waits.isEmpty then s
    else
      let s := setTxn s line (some { x with waits := [] })
      let s := if !took then demoted s (homeSlice s (line * 64))
        else if (lineOf s core line).isSome then changeDir s line ⟨.exclusive, core, [], false⟩ else s
      advanceTxn s line
  | none => s

/-- A response arrives at the home. -/
def atHome (s : State) (r : Rsp) : State :=
  match r.what with
  | .rdOnce => if r.refusal then s else buddyDone s r.line
  | .wrLine _ => offered s r.line r.src (r.kind == .ack)
  | _ => snoopDone s r.line r.src (r.kind == .data) r.dirty

/-- The request is over for its requester; a Retry has it sent again once the map has changed, a write-back from its entry (R256, R280). -/
def released (s : State) (r : Rsp) : State :=
  match r.who with
  | .core k =>
    if r.what = .wb then
      (match lineOf s k r.line with
       | some c => if c.place != .sent then s
           else if r.kind = .retry then setLine s k r.line { c with place := .evict } else dropLine s k r.line
       | none => s)
    else if r.kind = .retry then holdReq s ⟨r.what, r.who, r.line, r.bytes⟩
    else updC s k (fun c => { c with misses := mdel c.misses r.line })
  | _ => if r.kind = .retry then holdReq s ⟨r.what, r.who, r.line, r.bytes⟩ else s

/-- What an answer of Data or Ack does at its requester; none while a granted line has no way to enter. -/
def granted (s : State) (r : Rsp) : Option State :=
  match r.who, r.grant with
  | .core k, some g => install s k r.line g
  | _, _ => some (released s r)

/-- The requests that were to wait for the map go to their homes (R256, R257). -/
def resendHeld (s : State) : State :=
  s.heldReqs.foldl (fun s q => toHome s q) { s with heldReqs := [] }

/-! ### A transaction taken whole

An access that the model performs within one step runs its transaction from the request to the answer in that step (DESIGN CHOICE,
notes/assumptions/60.md): it comes after whatever its line was admitted before, each earlier message of the line being delivered first. -/

/-- No controller answers a home for the line any more: the read under way serves it where it stands. -/
def unhook (s : State) (line : Nat) : State :=
  let off (l : List McReq) : List McReq := l.map (fun e => if e.pa / 64 = line then { e with home := false } else e)
  (lineChans s (line * 64)).foldl (fun s c => updM s c (fun m => { m with
    sub0 := { m.sub0 with reads := off m.sub0.reads }, sub1 := { m.sub1 with reads := off m.sub1.reads } })) s

/-- A granted line arrives; where no way can take it, it passes by. -/
def takeGrant (s : State) (k : Nat) (r : Rsp) : State :=
  match r.grant with
  | some g => (install s k r.line g).getD (updC s k (fun c => { c with misses := mdel c.misses r.line }))
  | none => released s r

/-- A response that a line's messages go on with: one to the home, or a core's. -/
def Rsp.moves (r : Rsp) (line : Nat) : Bool :=
  r.line == line && (r.home || (r.kind != .retry && r.kind != .noTarget && (match r.who with
    | .core _ => true
    | _ => false)))

/-- The next message of a line is delivered, or the line it waits for is named; none where nothing is under way. -/
def finishStep (s : State) (line : Nat) : Option (State × Option Nat) :=
  match s.fwd.findIdx? (fun f => f.line == line) with
  | some i => (s.fwd[i]?).map (fun f => (takeSnoop { s with fwd := s.fwd.eraseIdx i } f, none))
  | none =>
    match s.rsp.findIdx? (fun r => r.moves line) with
    | some i => (s.rsp[i]?).map (fun r =>
        let s := { s with rsp := s.rsp.eraseIdx i }
        (if r.home then atHome s r else match r.who with
          | .core k => takeGrant s k r
          | _ => s, none))
    | none =>
      match mfind s.txns line with
      | some x =>
        if x.memory then some (memoryDone (unhook s line) line, none)
        else
          (match x.stage with
           | .room v => if (mfind s.txns v).isSome then some (s, some v) else some (advanceTxn s line, none)
           | _ => none)
      | none =>
        match s.homeQ.find? (fun r => r.line == line) with
        | some q =>
          (match q.who with
           | .host p =>
             (match s.txns.find? (fun e => e.2.req.posted p && e.2.stage != .offer) with
              | some e => some (s, some e.1)
              | none => (s.homeQ.find? (fun r => r.posted p)).map (fun r => (advanceTxn s r.line, some r.line)))
           | _ => none)
        | none => none

/-- The transactions of lines run to their ends, the first line's first. -/
def finishGo : Nat → State → List Nat → State
  | 0, s, _ => s
  | _, s, [] => s
  | n + 1, s, line :: ls =>
    match finishStep s line with
    | none => finishGo n s ls
    | some (s, none) => finishGo n s (line :: ls)
    | some (s, some v) => finishGo n s (v :: line :: ls)

/-- Whatever is under way on a line ends. -/
def finishLine (s : State) (line : Nat) : State := finishGo (1024 + 8 * (s.fwd.length + s.rsp.length + s.homeQ.length)) s [line]

/-- The newest response to a party about a line is taken off. -/
def dropAnswer (s : State) (q : HomeReq) : State :=
  { s with rsp := (s.rsp.reverse.eraseP (fun r => !r.home && r.who == q.who && r.line == q.line)).reverse }

/-- A request's whole transaction; none while its home takes no requests. -/
def homeDo (s : State) (q : HomeReq) : Option State :=
  let s := finishLine s q.line
  if !homeOpen s q.line || (mfind s.txns q.line).isSome then none
  else some (dropAnswer (finishLine (admitReq s q) q.line) q)

/-- A line leaves a core whose structures are emptied, and its home hears of it: written back where dirty (R209, R241, R245, R249). -/
def letGo (s : State) (k cls line : Nat) : State :=
  let s := finishLine s line
  match lineOf s k line with
  | none => s
  | some c =>
    if !c.dirty then finishLine (leaveClean s k line c) line
    else
      match homeDo (setLine s k line { c with place := .sent }) ⟨.wb, .core k, line, []⟩ with
      | some s => dropLine s k line
      | none => setDirBoth (dropLine (writeBack s line cls) k line) line (entWithout s k line)

/-- The core's private structures emptied, dirty lines written back (R245, R209). -/
def emptyCaches (s : State) (k : Nat) : State :=
  updC (((getC s k).lines.map (·.1) ++ (getC s k).misses.map (·.1)).foldl (fun s l => letGo s k 0 l) s) k (fun x => { x with lines := [], misses := [] })

/-- A store gains its line (R263, R274): its core then holds M and every other copy is invalid, by an Upg or a RdO where it does not
hold E or M already (R260). With no way free, its fill waits for the oldest eviction entry to be acknowledged; where requests outstanding
hold every way, the line goes on to its home. -/
def ownLine (s : State) (k line : Nat) : State :=
  let s := touchLine (finishLine s line) k 1 line
  match lineOf s k line with
  | some ⟨.e, p, w, i, d, n⟩ => setLine s k line ⟨.m, p, w, i, d, n⟩
  | some ⟨.m, _, _, _, _, _⟩ => s
  | c =>
    let s := if c.isSome || (enterL2 s k line .m).isSome then s else
      match oldest (evictions s k) with
      | some e => letGo s k 0 e.1
      | none => s
    let ask (m : Miss) (kind : ReqKind) : Option State :=
      homeDo (updC s k (fun c => { c with misses := mins c.misses line m })) ⟨kind, .core k, line, []⟩
    let s' := (if c.isSome then ask .upgrade .upg else ask .own .rdO).getD s
    if (lineOf s' k line).any (fun c => c.st == .m) then s' else writeBack (recallLine s' line) line 0

/-- Bytes cut at line boundaries, each piece with its address. -/
def linePieces : Nat → Nat → List Byte → List (Nat × List Byte)
  | 0, _, _ => []
  | n + 1, pa, bs =>
    if bs.isEmpty then [] else
      let k := 64 - pa % 64
      (pa, bs.take k) :: linePieces n (pa + k) (bs.drop k)

/-- A write of bytes of one line as a message to its home (R262): WrLine for the whole of it, with its hint, or WrPart. -/
def writeReq (who : Party) (hint : Option Hint) (p : Nat × List Byte) : HomeReq :=
  ⟨if p.1 % 64 = 0 ∧ p.2.length = 64 then .wrLine hint else .wrPart (p.1 % 64), who, p.1 / 64, p.2⟩

/-- A device's write, as its homes serialise it (R263, R268, R274): line by line, copies invalid, tags cleared, poison by R248. -/
def homeWriteBy (s : State) (who : Party) (hint : Option Hint) (pa : Nat) (bs : List Byte) : State :=
  (linePieces (bs.length / 64 + 2) pa bs).foldl (fun s p =>
    (homeDo s (writeReq who hint p)).getD (writeBytes (recallLine (finishLine s (p.1 / 64)) (p.1 / 64)) p.1 p.2)) s

def homeWrite (s : State) (pa : Nat) (bs : List Byte) : State := homeWriteBy s .baseCamp none pa bs

/-- A core's atomic, or a walker's update of a leaf, at its home or controller, with what it writes (R230, R271, R272). -/
def homeAtom (s : State) (who : Party) (home : Bool) (pa : Nat) (bs : List Byte) (wr tag : Bool) : State :=
  match homeDo s ⟨.coreAtom home (pa % 64) wr tag, who, pa / 64, bs⟩ with
  | some s => s
  | none =>
    let s := if wr then setTag (writeBytes s pa bs) pa tag else s
    recallLine (finishLine s (pa / 64)) (pa / 64)

/-- Lines in a way that is not enabled leave their array: an L1 line stays in the L2, an L2 line goes to its home (R249). -/
def emptyWays (s : State) (k : Nat) : State :=
  let out (array : Nat) (w : Option Nat) : Bool := w.any (fun w => !(coreWays s k array).contains w)
  let gone := (getC s k).lines.filter (fun e => e.2.place == .l2 && out 2 (some e.2.way))
  let s := updC s k (fun x => { x with lines := x.lines.map (fun (e : Nat × CLine) =>
    (e.1, { e.2 with l1i := if out 0 e.2.l1i then none else e.2.l1i, l1d := if out 1 e.2.l1d then none else e.2.l1d })) })
  (gone.map (·.1)).foldl (fun s l => letGo s k 4 l) s

/-! ### Cache maintenance (R246, R247) -/

/-- Any dirty copy of a line is written to every controller that holds it, and each copy stays, clean. -/
def cleanLine (s : State) (line : Nat) : State :=
  let s := finishLine s line
  let dirty := (holders s line).any (fun k => (lineOf s k line).any (·.dirty)) || (mfind s.l3 line).any (·.dirty)
  let clean (c : CLine) : CLine := { c with st := match c.st with
    | .m => .e
    | .o => .s
    | g => g }
  let s := (holders s line).foldl (fun s k => updC s k (fun x => { x with
    lines := x.lines.map (fun (e : Nat × CLine) => if e.1 = line then (e.1, clean e.2) else e) })) s
  let e := dirAt s line
  let s := if e.view = .owned then changeDir s line ⟨.shared, 0, insSorted e.sharers (e.owner / 2), e.bcast⟩ else s
  let s := l3Stale s line
  finishLine (if dirty && physClass s (line * 64) == .dram then mcWrite s (line * 64) 0 else s) line

/-- FLUSH: as CLEAN, and then every copy leaves every cache. -/
def flushLine (s : State) (line : Nat) : State :=
  let s := cleanLine s line
  finishLine (setL3 (changeDir (dropCopies s line) line dirNone) line none) line

end Sys2Proof.Machine
end

