-- ==== Sys2Proof/Machine/HostPort.lean ====
section
/-! DEFINITION. Host port state shared by every path to a host: shares and tags (R339, R343), Bus Master Enable (R347), the freeze
(R351), and core accesses to a host aperture (R17, R342, R487). -/

namespace Sys2Proof.Machine

def getP (s : State) (p : Nat) : Port := mget Port.init s.ports p
def putP (s : State) (p : Nat) (x : Port) : State := { s with ports := mput Port.init s.ports p x }
def updP (s : State) (p : Nat) (f : Port → Port) : State := putP s p (f (getP s p))

def Port.fn (x : Port) (i : Nat) : Fn := mget Fn.init x.fns i
def Port.setFn (x : Port) (i : Nat) (f : Fn) : Port := { x with fns := mput Fn.init x.fns i f }

/-- timeout_us as it acts: 50 to 64,000,000 (R353). -/
def cplTimeoutUs (s : State) (p : Nat) : Nat := max 50 (min 64000000 (s.getF (rHpCplTo (portUid p)) HpCplTo.timeout_us))

/-- The smallest power of two at or above `v + 1`, up to 64 (R339). -/
def shareOf (v : Nat) : Nat :=
  ([1, 2, 4, 8, 16, 32, 64].find? (fun n => decide (v + 1 ≤ n))).getD 64

/-- The instance a port channel belongs to (R339). -/
def instOfChan (x : Port) (c : Nat) : Nat := c / (256 / x.share)

/-- First usable tag value and the number of usable values, S (R337). -/
def tagBase : TagMode → Nat
  | .flit => 0
  | .ten => 256
  | .eight => 0
def tagTotal : TagMode → Nat
  | .flit => 1024
  | .ten => 768
  | .eight => 256

/-- The tags of an instance's share (R339). -/
def instTags (x : Port) (i : Nat) : List Nat :=
  let n := tagTotal x.tagMode / x.share
  (List.range n).map (fun k => tagBase x.tagMode + i * n + k)

/-- A tag that may be issued to a request: free, out of quarantine, and not one whose expired request it could be taken for
(R343, R345). -/
def freeTag (x : Port) (i addr len : Nat) : Option Nat :=
  (instTags x i).find? (fun t =>
    !x.reqs.any (fun r => r.tag == some t) && !x.quar.any (fun q => q.tag == t) &&
      !x.spent.any (fun q => q.tag == t && q.len == len && q.addr / 4 % 32 == addr / 4 % 32))

def portFrozen (s : State) (p : Nat) : Bool := s.getB (rHpPortStatus (portUid p)) HpPortStatus.frozen
def portLinkUp (s : State) (p : Nat) : Bool := s.getB (rHpPortStatus (portUid p)) HpPortStatus.link_up

/-- The instance may issue requests: Bus Master Enable set and not in D3hot (R347). -/
def masterOn (s : State) (p i : Nat) : Bool := ((getP s p).fn i).bme && !((getP s p).fn i).d3hot

/-- Add to counter `k` of an instance (R414: 0 bytes read, 1 bytes written, 2 completed, 3 errors, 4 rank 1, 5 mailbox). -/
def rInstCtr (p i k : Nat) : Nat := portUid p * 0x100000 + 0x100C0 + 256 * i + 8 * k
def instCount (s : State) (p i k n : Nat) : State :=
  s.putR (rInstCtr p i k) (BitVec.ofNat 64 (min ((s.getR (rInstCtr p i k)).toNat + n) 0xFFFFFFFFFFFFFFFF))

def getI (s : State) (p i : Nat) : Inst := mget Inst.init (getP s p).insts i
def updI (s : State) (p i : Nat) (f : Inst → Inst) : State :=
  updP s p (fun x => { x with insts := mput Inst.init x.insts i (f (mget Inst.init x.insts i)) })

/-- Bytes a port sends for an instance count towards its window (R400). -/
def sentBytes (s : State) (p i n : Nat) : State := updI s p i (fun x => { x with bytes := x.bytes + n })

def ioOfPort (p : Nat) : Nat := ioUid (p / 2)

/-- A read request leaves the port under its tag: counted in the read arbiter, and in the I/O stop's counters (R399, R514). -/
def readSent (s : State) (p i a n : Nat) (tag : Option Nat) : State :=
  let s := sentBytes s p i n
  let s := updP s p (fun x => { x with progress := s.time, tlps := x.tlps ++ [⟨false, i, a, n, false, tag⟩] })
  bwAdd s (ioOfPort p) (0x30 + 0x20 * (p % 2)) 1

/-- Stage S6 has ended (R350, R491). -/
def servicesUp (s : State) : Bool := s.getF rBcBootStatus BcBootStatus.stage == 7

/-- HP_INST_STATUS.ready: configuration space answers, no function-level reset runs, and channels can be served (R350). -/
def instReady (s : State) (p i : Nat) : Bool := (getP s p).cfgReady && servicesUp s && !mget false (getP s p).busy i

/-- Queue a non-posted request: with a tag of its share when one is free, waiting for one when none is (R343). -/
def hostRequest (s : State) (p i : Nat) (who : ReqFor) (addr len : Nat) (atom : Option HostAtom := none) : State :=
  let x := getP s p
  let t := freeTag x i addr len
  let s := putP s p { x with reqs := x.reqs ++ [⟨t, i, who, addr, len, s.time, cplTimeoutUs s p, [], none, false, atom⟩] }
  if t.isSome then readSent s p i addr len t else s

/-- The key of a line of control space among the lines whose request was abandoned. -/
def ctrlLine (a : Nat) : Nat := 0x100000000000000 + a / 64

/-- An answer reaches the instruction that waits for it, or its fetch; and the fill that waits for it (R84). -/
def Thread.heard (x : Thread) (a : HostAns) : Thread :=
  if x.inFetch then { x with hostWait := none, fetchAns := x.fetchAns ++ [a] } else { x with hostWait := none, replay := x.replay ++ [a] }
def Thread.filled (x : Thread) (a : HostAns) : Thread := { x with fillWait := none, fillAns := x.fillAns ++ [a] }

/-- Requests that wait take the tags that have become free, oldest first; one that has waited too long is not sent (R343). -/
def assignTags (s : State) (p : Nat) : State :=
  (List.range (getP s p).reqs.length).foldl (fun s k =>
    let x := getP s p
    match x.reqs[k]? with
    | none => s
    | some r =>
      match r.tag, freeTag x r.inst r.addr r.len with
      | none, some t =>
        if r.since + cplTimeoutUs s p * 1000 < s.time then s
        else
          readSent (putP s p { x with reqs := x.reqs.set k { r with tag := some t, since := s.time, limit := cplTimeoutUs s p } })
            p r.inst r.addr r.len (some t)
      | _, _ => s) s

/-- The requests a range is split into: at most `m` bytes each, and crossing no 4 KiB boundary (R343). -/
def readPieces (m : Nat) : Nat → Nat → Nat → List (Nat × Nat)
  | 0, _, _ => []
  | f + 1, a, n =>
    if n = 0 then []
    else
      let k := min n (min (max 1 m) (4096 - a % 4096))
      (a, k) :: readPieces m f (a + k) (n - k)

/-- Max Read Request Size of an instance (R343). -/
def mrrsOf (s : State) (p i : Nat) : Nat :=
  let x := getP s p
  if i = 0 ∨ Config.vfMrrs then (x.fn i).mrrs else (x.fn 0).mrrs

def piecesOf (s : State) (p i a n : Nat) : List (Nat × Nat) := readPieces (mrrsOf s p i) (n / 64 + 2) a n

/-- Resident software manages the port (R354). -/
def mgrRes (s : State) (p : Nat) : Bool := s.getB (rHpPortCtrl (portUid p)) HpPortCtrl.mgr

/-- An entry of the write log goes to the manager's memory: local DRAM that admits the normal world, or PF 0's (R403, R437). -/
def logEntry (s : State) (p at_ : Nat) (e : List Byte) : State :=
  if mgrRes s p then (if physClass s at_ == .dram && admits s .normal true at_ then homeWrite s at_ e else s) else writeHost s p at_ e

/-- A logged write enters the write log: a page not in the filter adds an entry, and a full ring sets overflow (R410). -/
def logPage (s : State) (p i page : Nat) : State :=
  let b := s.getR (rHpWlogBase (portUid p) i)
  let r := rHpWlogPtr (portUid p) i
  let w := s.getR r
  if !fldB b HpWlogBase.en || (getI s p i).filter.contains page || fldB w HpWlogPtr.overflow then s
  else
    let size := 2 ^ fld b HpWlogBase.log2
    let tail := fld w HpWlogPtr.tail
    if (tail + 1) % size = fld w HpWlogPtr.head then s.putR r (setFld w HpWlogPtr.overflow 1)
    else
      let at_ := fld b HpWlogBase.base * 4096 + 8 * tail
      let e := toBytes 8 (page * 4096 + ofBool (getI s p i).wphase)
      let s := logEntry s p at_ e
      let s := s.putR r (setFld w HpWlogPtr.tail ((tail + 1) % size))
      updI s p i (fun x => { x with filter := (page :: x.filter).take 64, wphase := if tail + 1 = size then !x.wphase else x.wphase })

/-- A posted write an instance makes to its host: logged, sent and counted (R399, R410, R414, R514). -/
def hostWrite (s : State) (p i a : Nat) (bs : List Byte) (data : Bool := false) : State :=
  let n := bs.length
  let s := updP s p (fun x => { x with tlps := x.tlps ++ (readPieces (x.fn 0).mps (n / 64 + 2) a n).map (fun e =>
    ⟨true, i, e.1, e.2, data && (x.fn i).ro, none⟩) })
  let s := ((List.range ((a % 4096 + n + 4095) / 4096)).map (· + a / 4096)).foldl (fun s g => logPage s p i g) s
  let s := writeHost s p a bs
  let s := instCount (sentBytes s p i n) p i 1 n
  let s := updP s p (fun x => { x with progress := s.time })
  bwAdd s (ioOfPort p) (0x20 + 0x20 * (p % 2)) n

/-! ### MSI-X (R355) -/

def vecCount (x : Port) : Nat := 1024 / x.share
def instIrqHeld (s : State) (p i : Nat) : Bool := s.getB (rHpInstMgmt (portUid p) i) HpInstMgmt.irq_held

/-- The vector may be sent. -/
def msixCanSend (s : State) (p i v : Nat) : Bool :=
  let f := (getP s p).fn i
  masterOn s p i && !portFrozen s p && f.msixEn && !f.fmask && !(mget MsixEnt.init f.table v).mask && !instIrqHeld s p i

def setPba (s : State) (p i v : Nat) (b : Bool) : State :=
  updP s p (fun x => x.setFn i { x.fn i with pba := mput false (x.fn i).pba v b })

/-- One message, with the address and data of one write of the table. -/
def msixMessage (s : State) (p i v : Nat) : State :=
  let e := mget MsixEnt.init ((getP s p).fn i).table v
  setPba (updP s p (fun x => { x with
    sent := x.sent ++ [(i, e.addr, e.data)], tlps := x.tlps ++ [⟨true, i, e.addr.toNat, 4, false, none⟩] })) p i v false

/-- An event on a vector: sent, or its pending bit set. -/
def msixEvent (s : State) (p i v : Nat) : State :=
  if vecCount (getP s p) ≤ v then s
  else if msixCanSend s p i v then msixMessage s p i v
  else setPba s p i v true

/-- Every pending vector that can be sent is. -/
def msixRelease (s : State) (p i : Nat) : State :=
  ((getP s p).fn i).pba.foldl (fun s e => if e.2 && msixCanSend s p i e.1 then msixMessage s p i e.1 else s) s

/-- A core's posted store to a host aperture: performed once sent, or discarded with its record (R347, R351, R487). -/
def hostStore (s : State) (t : Tid) (p a : Nat) (bs : List Byte) : State :=
  if portFrozen s p then logRecord s 0x39 (coreUid (coreOf s t)) 0 p 1 a 0
  else if !masterOn s p 0 then logRecord s 0x39 (coreUid (coreOf s t)) 0 p 2 a 0
  else hostWrite s p 0 a bs

/-- What a core's non-posted access to a host aperture meets at the port before it is sent: an error status, or none (R347, R351). -/
def hostRefusal (s : State) (p : Nat) : Option Nat :=
  if portFrozen s p then some 0x0303
  else if !masterOn s p 0 then some 0x0304
  else none

end Sys2Proof.Machine
end

