-- ==== Sys2Proof/Machine/Rings.lean ====
section
/-! DEFINITION. Channels (chapter 15): who serves them, their words and rings, doorbell values, and how a descriptor ends. -/

namespace Sys2Proof.Machine

def getCh (s : State) (g : Nat) : Chan := mget Chan.init s.chans g
def putCh (s : State) (g : Nat) (c : Chan) : State := { s with chans := mput Chan.init s.chans g c }
def updCh (s : State) (g : Nat) (f : Chan → Chan) : State := putCh s g (f (getCh s g))

/-- Word `k` of the entry as loaded. -/
def Chan.word (c : Chan) (k : Nat) : Word := c.words.getD k 0

/-- A host channel, and its port and instance (R339, R358). -/
def isHostChan (g : Nat) : Bool := decide (g < 4096)
def chanPort (g : Nat) : Nat := g / 256
def chanInst (s : State) (g : Nat) : Nat := instOfChan (getP s (chanPort g)) (g % 256)

/-- The engine stop whose channel it is, and the one that serves it: the substitute while that is out of service (R358, R482). -/
def homeEs (s : State) (g : Nat) : Nat := if isHostChan g then chanPort g / 4 else fld ((getCh s g).word 0) ChControl.es
def servingEs (s : State) (g : Nat) : Nat :=
  let f := homeEs s g
  if serving s (esUid f) then f else (f + 2) % 4

/-- The global channels of an instance's share (R339). -/
def instChans (s : State) (p i : Nat) : List Nat :=
  let n := 256 / (getP s p).share
  (List.range n).map (· + 256 * p + i * n)

def Chan.subSize (c : Chan) : Nat := 2 ^ fld (c.word 1) ChRing.log2
def Chan.cplSize (c : Chan) : Nat := 2 ^ fld (c.word 2) ChRing.log2
def Chan.polled (c : Chan) : Bool := fldB (c.word 0) ChControl.db_mode
def Chan.tail (c : Chan) : Nat := if c.polled then c.pollTail else c.subTail
def Chan.head (c : Chan) : Nat := if c.polled then c.pollHead else c.cplHead
def Chan.inFlight (c : Chan) : Nat := (c.flight.filter (fun d => !d.flushed)).length

/-- The completion ring has no free slot (R366). -/
def Chan.cplFull (c : Chan) : Bool := (c.cplTail + 1) % c.cplSize == c.head

/-- Free completion slots (R366). -/
def Chan.cplFree (c : Chan) : Nat := (c.head + c.cplSize - 1 - c.cplTail % c.cplSize) % c.cplSize

/-! ### Live words (R361, R362) -/

def Chan.liveWord (c : Chan) : Word :=
  setFld (setFld (setFld (setFld (setFld 0 ChLive.sub_head c.subHead) ChLive.in_flight c.inFlight) ChLive.cmd_seq c.cmdSeq)
    ChLive.cause c.cause) ChLive.state c.state

def Chan.completedWord (c : Chan) : Word := BitVec.ofNat 64 c.completed

def Chan.liveCpl (c : Chan) : Word :=
  setFld (setFld (setFld (setFld 0 ChLiveCpl.cpl_tail c.cplTail) ChLiveCpl.phase (ofBool c.phase)) ChLiveCpl.last_err c.lastErr)
    ChLiveCpl.errors c.errors

/-! ### Where entries lie (R359) -/

def chTable (s : State) (f : Nat) : Nat := s.getF (rChTableBase (chUid f)) ChTableBase.base * 0x100000
def entryAddr (s : State) (g : Nat) : Nat := chTable s (servingEs s g) + 128 * g

/-! ### Descriptors -/

def Desc.word (d : Desc) (k : Nat) : Word := d.words.getD k 0
def Desc.num (d : Desc) (k : Nat) : Nat := (d.word k).toNat
def Desc.op (d : Desc) : Nat := fld (d.word 0) Desc.opcode

def newDesc (slot : Nat) (ws : List Word) (now base : Nat) : Desc where
  slot := slot
  words := ws
  started := now
  flushed := false
  unit := none
  base := base
  status := none
  done := 0
  acc := 0
  list := []
  stage := 0
  waits := 0
  bad := 0
  endAs := none
  noEntry := false
  counted := false
  tries := 0
  keys := none
  outs := []
  result := 0
  verdict := 0

/-- The descriptor in flight from a slot. -/
def descAt (s : State) (g slot : Nat) : Option Desc := (getCh s g).flight.find? (fun d => d.slot == slot)

def updDesc (s : State) (g slot : Nat) (f : Desc → Desc) : State :=
  updCh s g (fun c => { c with flight := c.flight.map (fun d => if d.slot = slot then f d else d) })

/-- Host reads made for a descriptor that has ended: their data is discarded on arrival, and reads still waiting for a tag are
not sent (R375). -/
def dropReads (s : State) (g slot : Nat) : State :=
  if isHostChan g then
    updP s (chanPort g) (fun x => { x with
      reqs := (x.reqs.filter (fun r => !(r.for_ == .desc g slot && r.tag.isNone))).map (fun r =>
        if r.for_ = .desc g slot then { r with dropped := true } else r) })
  else (List.range 16).foldl (fun s p =>
    if (getP s p).reqs.any (fun r => r.for_ == .desc g slot) then
      updP s p (fun x => { x with
        reqs := (x.reqs.filter (fun r => !(r.for_ == .desc g slot && r.tag.isNone))).map (fun r =>
          if r.for_ = .desc g slot then { r with dropped := true } else r) })
    else s) s

/-- A descriptor ends: it has its status and result, leaves its engine, and waits for its completion (R370). -/
def endDesc (s : State) (g slot st res : Nat) : State :=
  let s := dropReads s g slot
  let s := updDesc s g slot (fun d =>
    if d.status.isSome then d else { d with status := some (st, res), unit := none, waits := 0 })
  { s with sqOrder := s.sqOrder.filter (fun e => !(e.2.1 == g && e.2.2 == slot)) }

def isKeyOp (op : Nat) : Bool := decide (0x40 ≤ op) && decide (op < 0x80)
/-- The operation uses a key; its key is open (R388). -/
def usesKey (op : Nat) : Bool := !(op == 0x48 || op == 0x49 || op == 0x4F)
def kOpen (d : Desc) : Bool := fldB (d.word 4) ⟨63, 63⟩
def isMoveOp (op : Nat) : Bool := decide (0x10 ≤ op) && decide (op < 0x40)
def isMsgOp (op : Nat) : Bool := decide (0x80 ≤ op) && decide (op < 0x90)
def isNetOp (op : Nat) : Bool := decide (0x90 ≤ op) && decide (op < 0xA0)

/-- End a descriptor at its next element boundary (R367, R375, R406): a key operation first runs to its end (R392); any other has
written nothing of the element it may be in, and ends with the bytes of those before it (R380). -/
def cutDesc (s : State) (g : Nat) (d : Desc) (st : Nat) : State :=
  if d.status.isSome then s
  else if isKeyOp d.op then updDesc s g d.slot (fun d => if d.endAs.isNone then { d with endAs := some st } else d)
  else endDesc s g d.slot st (if isMoveOp d.op then d.done else 0)

def cutAll (s : State) (g st : Nat) : State := (getCh s g).flight.foldl (fun s d => cutDesc s g d st) s

/-- The descriptor an engine runs, which ends when the engine's request is abandoned (R296, R373). -/
def endUnit (s : State) (u st : Nat) : State :=
  match s.chans.findSome? (fun e => (e.2.flight.find? (fun d => d.unit == some u && d.status.isNone)).map (fun d => (e.1, d))) with
  | some (g, d) => endDesc s g d.slot st d.done
  | none => s

/-- An engine stop's domain passes handshakes (R36, R62). -/
def esPasses (s : State) (f : Nat) : Bool :=
  let d := mget Dom.init s.doms (28 + f)
  !d.paused && !d.stopped

/-! ### States (R367) -/

def chanSet (s : State) (g st cause : Nat) : State := updCh s g (fun c => { c with state := st, cause := cause, turn := 0 })

/-- The events of causes 12 to 15: a channel that reads off stays off, its cause as it was. -/
def chanStopAs (s : State) (g cause : Nat) : State := if (getCh s g).state = 0 then s else chanSet s g 1 cause

/-- The channel halts with a cause 9, 10, 11 or 16, in the states the table of R367 names. -/
def chanHalt (s : State) (g cause : Nat) : State :=
  let st := (getCh s g).state
  if (if cause = 9 then st = 2 ∨ st = 3 else if cause = 16 then st ≠ 0 else st = 2) then chanSet s g 4 cause else s

/-- Doorbells of the channel wake its scheduler: its instance is ready and its gate open (R350, R406). -/
def chanAwake (s : State) (g : Nat) : Bool :=
  !isHostChan g ||
    (instReady s (chanPort g) (chanInst s g) &&
      !s.getB (rHpInstMgmt (portUid (chanPort g)) (chanInst s g)) HpInstMgmt.gate_closed)

/-- The scheduler looks at the doorbell values of a running channel: an index beyond its ring halts it, and so does a tail that
retreats over a descriptor already read (R367). -/
def checkDoorbell (s : State) (g : Nat) : State :=
  let c := getCh s g
  if c.state ≠ 2 || !chanAwake s g then s
  else if c.subSize ≤ c.tail || c.cplSize ≤ c.head then chanHalt s g 10
  else if (c.tail + c.subSize - c.subHead) % c.subSize < c.fetch.length then chanHalt s g 11
  else s

/-- A write of the doorbell slot (R364): its two words, the others discarded. A write of a polled channel's slot makes it poll at
once (R365). -/
def slotWrite (s : State) (g off : Nat) (wide : Bool) (v : Word) : State :=
  let lo := v.toNat % 0x8000
  let hi := v.toNat / 0x100000000 % 0x8000
  let woke (s : State) : State :=
    if (getCh s g).polled then updCh s g (fun c => { c with pollAt := s.time }) else checkDoorbell s g
  if off = 0 then
    woke (updCh s g (fun c => if wide then { c with subTail := lo, cplHead := hi } else { c with subTail := lo }))
  else if off = 4 ∧ !wide then woke (updCh s g (fun c => { c with cplHead := lo }))
  else s

/-- The slot's contents as an 8-byte word at an offset (R364). -/
def slotWord (s : State) (g off : Nat) : Word :=
  let c := getCh s g
  if off = 0 then BitVec.ofNat 64 (c.subTail + c.cplHead * 0x100000000)
  else if off = 8 then c.liveWord
  else 0

/-- The channel's interrupt: its MSI-X vector, or its vector to its thread (R371). -/
def chanIrq (s : State) (g : Nat) : State :=
  let w := (getCh s g).word 4
  let s := updCh s g (fun c => { c with sinceIrq := 0 })
  if isHostChan g then msixEvent s (chanPort g) (chanInst s g) (fld w ChIrq.msix)
  else sendIrq s (fld w ChIrq.thread) (fld w ChIrq.vector) (chUid (servingEs s g))

/-- Timeout of a code in ns (R369). -/
def codeNs (code : Nat) : Nat := (if code ≤ 26 then 2 ^ code else Config.timeoutUs code) * 1000

/-- The execution timeout of a descriptor in ns, none without one (R361, R375). -/
def descLimit (c : Chan) (d : Desc) : Option Nat :=
  let own := fld (d.word 0) Desc.to_code
  if own ≠ 0 then some (codeNs own)
  else if d.op = 1 ∨ d.op = 2 then
    let w := fld (c.word 5) ChTiming.wait_default
    some (codeNs (if w = 0 then 20 else w))
  else
    let w := fld (c.word 5) ChTiming.to_default
    if w = 0 then none else some (codeNs w)

end Sys2Proof.Machine
end

