-- ==== Sys2Proof/Machine/Measure.lean ====
section
/-! DEFINITION. Who may write the vault (R433, R443), and the measurement registers with their log (R446, R447). -/

namespace Sys2Proof.Machine

/-- The core belongs to the trusted group that is active now. -/
def inActive (s : State) (t : Tid) : Bool := trusted s t && (trustedTiles s).contains (coreOf s t / 2)

/-- A writer of vault registers, key slots and microprograms: a thread of the active group. -/
def mayVault (s : State) (r : Requester) : Bool :=
  match r with
  | .thread t => inActive s t
  | _ => false

/-- The bytes of measurement register `k`, in digest order. -/
def measBytes (s : State) (k : Nat) : List Byte := wordsBytes ((List.range 6).map (fun w => s.getR (rVltMeas k w)))

/-- The words of a 48-byte digest. -/
def digestWord (bs : List Byte) (w : Nat) : Word := BitVec.ofNat 64 (ofBytes ((bs.drop (8 * w)).take 8))

/-- Register `k` is extended by a digest, and the extension logged; a record that replaces an older one has bit 7 of its event set. -/
def measExtend (s : State) (k event : Nat) (digest : List Byte) : State :=
  let new := Config.sha384 (measBytes s k ++ digest)
  let s := (List.range 6).foldl (fun s w => s.putR (rVltMeas k w) (digestWord new w)) s
  let full := decide (1024 ≤ s.vault.log.length)
  let ev := Config.measEvent event % 128 + ofBool full * 128
  { s with vault := { s.vault with log := (⟨k, ev, s.time, digest⟩ :: s.vault.log).take 1024 } }

end Sys2Proof.Machine
end

