-- ==== Sys2Proof/Machine/Operands.lean ====
section
/-! DEFINITION. Register operands (R67 to R71), the long immediates (R101), effective addresses (R90, R91) and the instruction
words a frame records (R98). -/

namespace Sys2Proof.Machine

/-! ### General registers -/

/-- Where a register field leads with window pointer `cwp` (R70): globals at 0 to 7, then 16 places per slot. -/
def place (cwp : Nat) (r : RegNo) : Nat :=
  let n := r.toNat
  if n < 8 then n
  else if n < 16 then 16 + 16 * cwp + (n - 8)
  else if n < 24 then 24 + 16 * cwp + (n - 16)
  else 16 + 16 * ((cwp + 1) % 16) + (n - 24)

def Thread.cwp (x : Thread) : Nat := fld x.wstate Wstate.cwp
def Thread.res (x : Thread) : Nat := fld x.wstate Wstate.res
/-- Free slots (R71). -/
def Thread.free (x : Thread) : Nat := 15 - x.res

/-- The register at a place; place 0 is g0 and reads 129 zero bits (R69). -/
def Thread.at_ (x : Thread) (p : Nat) : GReg := if p = 0 then GReg.zero else mget GReg.zero x.regs p

/-- Write a place; a write to g0 is discarded (R69). -/
def Thread.setAt (x : Thread) (p : Nat) (v : GReg) : Thread :=
  if p = 0 then x else { x with regs := mput GReg.zero x.regs p v }

def Thread.greg (x : Thread) (r : RegNo) : GReg := x.at_ (place x.cwp r)
def Thread.setGreg (x : Thread) (r : RegNo) (v : GReg) : Thread := x.setAt (place x.cwp r) v

/-- Bits 63:0 of a register, whatever its tag (R68). -/
def GReg.int (v : GReg) : Word := v.data.setWidth 64
/-- An integer result: bits 127:64 zero and the tag clear (R68). -/
def GReg.ofInt (w : Word) : GReg := ⟨w.setWidth 128, false⟩
def Thread.int (x : Thread) (r : RegNo) : Word := (x.greg r).int
def Thread.setInt (x : Thread) (r : RegNo) (w : Word) : Thread := x.setGreg r (GReg.ofInt w)

def Thread.vec (x : Thread) (r : RegNo) : Vec := mget 0 x.vregs r.toNat
def Thread.setVec (x : Thread) (r : RegNo) (v : Vec) : Thread := { x with vregs := mput 0 x.vregs r.toNat v }

/-- The cursor of the program counter capability. -/
def Thread.pc (x : Thread) : Word := x.pcc.int

/-- A capability with another cursor. -/
def GReg.setCursor (v : GReg) (c : Word) : GReg :=
  { v with data := (v.data &&& ~~~(0xFFFFFFFFFFFFFFFF : Quad)) ||| c.setWidth 128 }

def e0 : RegNo := 8
def e1 : RegNo := 9
def e7 : RegNo := 15
def x7 : RegNo := 31

/-! ### Immediates -/

/-- The immediate of an IMM-format instruction under its LIMM words, or none where the group is defective (R101): a third LIMM,
or bit 24 of the first of two. -/
def immOf (limm : Limm) (imm : BitVec 15) : Option Word :=
  match limm with
  | [] => some (imm.signExtend 64)
  | [a] => some ((a ++ imm : BitVec 40).signExtend 64)
  | [a, b] => if a.getLsbD 24 then none else some ((a.setWidth 24 ++ b ++ imm : BitVec 64))
  | _ => none

/-! ### Instruction words (R98) -/

def wREG (op : Nat) (rd ra rb : RegNo) (fn : BitVec 10) : BitVec 32 := BitVec.ofNat 7 op ++ rd ++ ra ++ rb ++ fn
def wSEL (op : Nat) (rd ra rb rc : RegNo) (fn : BitVec 5) : BitVec 32 := BitVec.ofNat 7 op ++ rd ++ ra ++ rb ++ rc ++ fn
def wIMM (op : Nat) (rd ra : RegNo) (imm : BitVec 15) : BitVec 32 := BitVec.ofNat 7 op ++ rd ++ ra ++ imm
def wMEM (op : Nat) (rd ra : RegNo) (am : BitVec 3) (imm : BitVec 12) : BitVec 32 :=
  BitVec.ofNat 7 op ++ rd ++ ra ++ am ++ imm
def wMIX (op : Nat) (rd ra rb : RegNo) (s : BitVec 3) (w : BitVec 5) (m x : Bool) : BitVec 32 :=
  BitVec.ofNat 7 op ++ rd ++ ra ++ rb ++ s ++ w ++ BitVec.ofBool m ++ BitVec.ofBool x
def wBR (op : Nat) (ra rb : RegNo) (disp : BitVec 15) : BitVec 32 := BitVec.ofNat 7 op ++ ra ++ rb ++ disp
def wJMP (op : Nat) (disp : BitVec 25) : BitVec 32 := BitVec.ofNat 7 op ++ disp
/-- The words of a LIMM group: the LIMM words and the instruction they widen. -/
def wGroup (limm : Limm) (w : BitVec 32) : List (BitVec 32) :=
  limm.map (fun p => (BitVec.ofNat 7 1 ++ p : BitVec 32)) ++ [w]

def opOf (w : BitVec 32) : Nat := wordOp w

/-! ### Effective addresses (R90, R91) -/

/-- The low `w` bits of `v` in reverse order, the others as they are (R91). -/
def bitRev (v : Word) (w : Nat) : Word :=
  BitVec.ofNat 64 ((v.toNat / 2 ^ w) * 2 ^ w +
    (List.range w).foldl (fun n i => n + ofBool (v.getLsbD i) * 2 ^ (w - 1 - i)) 0)

/-- The displacement of the indexed modes (R91). -/
def indexDisp (ix : Word) (s : BitVec 3) (w : BitVec 5) : Word := (if w = 0 then ix else bitRev ix w.toNat) <<< s.toNat

/-- A cursor moved within bounds by at most one wrap (R91), or none where it raises the bounds fault. -/
def wrapAddr (base top : Nat) (cur d : Word) : Option Word :=
  if cur.toNat < base ∨ top ≤ cur.toNat then none
  else
    let len : Int := (top : Int) - base
    let off : Int := (cur - BitVec.ofNat 64 base).toInt + d.toInt
    let off := if len ≤ off then off - len else if off < 0 then off + len else off
    if off < 0 ∨ len ≤ off then none else some (BitVec.ofInt 64 ((base : Int) + off))

/-- The access address of a mode and the cursor it writes back, or none at a bounds fault (R90, R91). -/
def effAddr (am : Nat) (base top : Nat) (cur d : Word) : Option (Word × Option Word) :=
  match am with
  | 0 | 3 => some (cur + d, none)
  | 1 => some (cur + d, some (cur + d))
  | 2 => some (cur, some (cur + d))
  | 4 | 7 => (wrapAddr base top cur d).map (fun a => (a, none))
  | 5 => (wrapAddr base top cur d).map (fun a => (a, some a))
  | _ => (wrapAddr base top cur d).map (fun a => (cur, some a))

end Sys2Proof.Machine
end

