-- ==== Sys2Proof/Machine/Flags.lean ====
section
/-! DEFINITION. The sticky status of trapping arithmetic and floating point, and the enables that turn a condition into a fault
(R88, R112, R152, R165 to R169). -/

namespace Sys2Proof.Machine

/-- The arithmetic conditions, in cause order (R152): 0x30, 0x31, and 0x33 to 0x37. -/
inductive ArithCond where
  | intDz | intOv | fpInvalid | fpDz | fpOv | fpUnder | fpInexact
deriving DecidableEq, Repr

def ArithCond.cause : ArithCond → Nat
  | .intDz => 0x30
  | .intOv => 0x31
  | .fpInvalid => 0x33
  | .fpDz => 0x34
  | .fpOv => 0x35
  | .fpUnder => 0x36
  | .fpInexact => 0x37

/-- The enable bit of TCTRL for a condition: fp_en bit 11 invalid to bit 7 inexact (R88). -/
def ArithCond.enabled (c : ArithCond) (tctrl : Word) : Bool :=
  match c with
  | .intDz => fldB tctrl Tctrl.dz_en
  | .intOv => fldB tctrl Tctrl.ov_en
  | .fpInvalid => fldB tctrl ⟨11, 11⟩
  | .fpDz => fldB tctrl ⟨10, 10⟩
  | .fpOv => fldB tctrl ⟨9, 9⟩
  | .fpUnder => fldB tctrl ⟨8, 8⟩
  | .fpInexact => fldB tctrl ⟨7, 7⟩

/-- The sticky bit of TSTATUS for a condition: fp_flags in the bit order of fp_en (R88). -/
def ArithCond.flag : ArithCond → Word
  | .intDz => 0x1
  | .intOv => 0x2
  | .fpInvalid => 0x200
  | .fpDz => 0x100
  | .fpOv => 0x80
  | .fpUnder => 0x40
  | .fpInexact => 0x20

/-- Of the conditions an instruction met, those that raise a fault (R112, R152). -/
def condFaults (tctrl : Word) (cs : List ArithCond) : List ArithCond := cs.filter (fun c => c.enabled tctrl)

/-- The sticky bits set: those of the disabled conditions. A condition that raises a fault leaves TSTATUS unchanged (R112). -/
def condFlags (tctrl : Word) (cs : List ArithCond) : Word :=
  (cs.filter (fun c => !c.enabled tctrl)).foldl (fun w c => w ||| c.flag) 0

/-- The signed range check of trapping arithmetic (R112). -/
def sOverflow (v : Int) : Bool := decide (v < -9223372036854775808) || decide (9223372036854775807 < v)

/-- Quotient rounded toward zero and a remainder with the dividend's sign (R104). -/
def divS (a b : Word) : Word :=
  if b = 0 then 0xFFFFFFFFFFFFFFFF else BitVec.ofInt 64 (Int.tdiv a.toInt b.toInt)
def remS (a b : Word) : Word := if b = 0 then a else BitVec.ofInt 64 (Int.tmod a.toInt b.toInt)
def divU (a b : Word) : Word := if b = 0 then 0xFFFFFFFFFFFFFFFF else BitVec.ofNat 64 (a.toNat / b.toNat)
def remU (a b : Word) : Word := if b = 0 then a else BitVec.ofNat 64 (a.toNat % b.toNat)

/-- The conditions of select and conditional move (R111); values 6 and 7 are reserved. -/
def selCond (c : BitVec 3) (v : Word) : Option Bool :=
  match c.toNat with
  | 0 => some (v == 0)
  | 1 => some (v != 0)
  | 2 => some (decide (v.toInt < 0))
  | 3 => some (decide (0 ≤ v.toInt))
  | 4 => some (decide (0 < v.toInt))
  | 5 => some (decide (v.toInt ≤ 0))
  | _ => none

end Sys2Proof.Machine
end

