-- ==== Sys2Proof/Machine/CapFormat.lean ====
section
/-! DEFINITION. Capabilities: the format and its bounds (R128 to R130), representability (R131), setting bounds (R132), the
permissions (R133) and the checks of a use, in the order of R149. -/

namespace Sys2Proof.Machine

/-! ### Fields (R128) -/

def capPerms (v : GReg) : Nat := (v.data >>> 116).toNat % 4096
def capOtype (v : GReg) : Nat := (v.data >>> 104).toNat % 4096
def capE (v : GReg) : Nat := (v.data >>> 98).toNat % 64
def capB (v : GReg) : Nat := (v.data >>> 81).toNat % 131072
def capT (v : GReg) : Nat := (v.data >>> 64).toNat % 131072

/-- A 128-bit capability from its fields (R128). -/
def capPack (perms otype e b t : Nat) (cursor : Word) : Quad :=
  BitVec.ofNat 12 perms ++ BitVec.ofNat 12 otype ++ BitVec.ofNat 6 e ++ BitVec.ofNat 17 b ++ BitVec.ofNat 17 t ++ cursor

/-! ### Permissions (R133), as bits of the 12-bit field -/

def pLOAD : Nat := 0
def pSTORE : Nat := 1
def pEXEC : Nat := 2
def pLOADCAP : Nat := 3
def pSTORECAP : Nat := 4
def pSEAL : Nat := 5
def pUNSEAL : Nat := 6
def pGATE : Nat := 7
def pCTRL : Nat := 8
def pATOMIC : Nat := 9
def pWORLD : Nat := 10
def pGLOBAL : Nat := 11

def hasPerm (v : GReg) (p : Nat) : Bool := (capPerms v).testBit p
def hasPerms (v : GReg) (ps : List Nat) : Bool := ps.all (hasPerm v)

/-- Sealed: tagged, with an otype other than 0 (R140). -/
def sealed (v : GReg) : Bool := v.tag && capOtype v != 0

def setOtype (v : GReg) (o : Nat) : GReg := ⟨capPack (capPerms v) o (capE v) (capB v) (capT v) v.int, v.tag⟩
def setPerms (v : GReg) (p : Nat) : GReg := ⟨capPack p (capOtype v) (capE v) (capB v) (capT v) v.int, v.tag⟩

/-! ### Bounds (R129) -/

/-- The base, exact: negative where the window lies below zero. -/
def capBase (v : GReg) : Int :=
  let e := capE v
  let win := 2 ^ (e + 17)
  let a := alignDown v.int.toNat win
  let cm := v.int.toNat / 2 ^ e % 131072
  (a + capB v * 2 ^ e : Int) - (if cm < capB v then win else 0)

def capTop (v : GReg) : Int := capBase v + (capT v + 1) * 2 ^ capE v

/-- The capability of the whole 64-bit space (R130). -/
def wholeSpace (v : GReg) : Bool := capT v == 0x1FFFF && capE v == 47 && capB v == 0

/-- Well formed (R130). -/
def capWf (v : GReg) : Bool :=
  decide (capE v ≤ 47) && decide (0 ≤ capBase v) && decide (capTop v ≤ 18446744073709551616) &&
    (capT v != 0x1FFFF || wholeSpace v)

/-- A tag never stands on a value that is not well formed (R130). -/
def tagIf (d : Quad) (t : Bool) : GReg := ⟨d, t && capWf ⟨d, true⟩⟩

/-- Set the cursor: the tag is kept only where the new cursor is representable (R131). -/
def moveCursor (v : GReg) (c : Word) : GReg :=
  let w := v.setCursor c
  { w with tag := v.tag && (wholeSpace v || (capBase w == capBase v && capTop w == capTop v)) }

/-- The bounds as natural numbers, for a well-formed capability. -/
def boundsOf (v : GReg) : Nat × Nat := ((capBase v).toNat, (capTop v).toNat)

/-- The range [a, a + n) lies within bounds. -/
def inBounds (v : GReg) (a n : Nat) : Bool :=
  decide (capBase v ≤ (a : Int)) && decide ((a + n : Int) ≤ capTop v)

/-! ### Setting bounds (R132) -/

/-- The rounded range at exponent `e`. -/
def roundBounds (rb rt e : Nat) : Nat × Nat := (alignDown rb (2 ^ e), alignUp rt (2 ^ e))

/-- The loop of R132 from exponent `e`, with `k` exponents left to 47. -/
def fitLoop (rb rt : Nat) : Nat → Nat → Nat × Nat × Nat
  | 0, e => (e, roundBounds rb rt e)
  | k + 1, e =>
    let (b, t) := roundBounds rb rt e
    if (t - b) / 2 ^ e ≤ 0x1FFFF then (e, b, t) else fitLoop rb rt k (e + 1)

/-- The exponent, base and top that bounds of length `n` at cursor `c` take (R132). -/
def fitBounds (c n : Nat) : Nat × Nat × Nat := fitLoop c (if n = 0 then c + 1 else c + n) 47 0

/-- The capability with those bounds; none where they exceed the source's (cause 0x15). -/
def setBounds (v : GReg) (n : Nat) : Option GReg :=
  let (e, b, t) := fitBounds v.int.toNat n
  if (b : Int) < capBase v ∨ capTop v < (t : Int) then none
  else some (tagIf (capPack (capPerms v) (capOtype v) e (b / 2 ^ e) ((t - b) / 2 ^ e - 1) v.int) v.tag)

/-- The bounds are the requested range exactly (R132, CXBOUNDX). -/
def boundsExact (v : GReg) (n : Nat) : Bool :=
  let (_, b, t) := fitBounds v.int.toNat n
  b == v.int.toNat && t == v.int.toNat + n

/-! ### Checks of a use, in the order of R149 -/

/-- Tag, world and seal of a use (R138, R149). -/
def useCause (tw : Bool) (v : GReg) : Option Nat :=
  if !v.tag then some 0x10
  else if hasPerm v pWORLD && !tw then some 0x18
  else if capOtype v != 0 then some 0x11
  else none

/-- A use that needs permissions over a range of bytes. -/
def accessCause (tw : Bool) (v : GReg) (perms : List Nat) (a n : Nat) : Option Nat :=
  match useCause tw v with
  | some c => some c
  | none =>
    if !hasPerms v perms then some 0x12
    else if !inBounds v a n then some 0x13
    else none

/-- A use that a capability for control space does not serve: fetch, atomics, block and vector accesses, CMO (R141, R246). -/
def dataCause (tw : Bool) (v : GReg) (perms : List Nat) (a n : Nat) : Option Nat :=
  match useCause tw v with
  | some c => some c
  | none =>
    if !hasPerms v perms || hasPerm v pCTRL then some 0x12
    else if !inBounds v a n then some 0x13
    else none

/-- An authority operand covers the 8-byte word at control address `w` (R142): 0x1A, whichever requirement failed. -/
def authorityCause (tw : Bool) (v : GReg) (w : Nat) : Option Nat :=
  if v.tag && capOtype v == 0 && hasPerm v pCTRL && inBounds v w 8 && (tw || !hasPerm v pWORLD) then none
  else if v.tag && hasPerm v pWORLD && !tw && capOtype v == 0 && hasPerm v pCTRL && inBounds v w 8 then some 0x18
  else some 0x1A

/-- A store of a tagged register (R137): permission, local store, untagged destination. `plain` is the spill engine's, the
link block's and fault entry's exemption from the GLOBAL rule. -/
def tagStoreCause (auth v : GReg) (exempt noTags : Bool) : Option Nat :=
  if !v.tag then none
  else if !hasPerm auth pSTORECAP then some 0x12
  else if !exempt && !hasPerm v pGLOBAL && hasPerm auth pGLOBAL then some 0x17
  else if noTags then some 0x19
  else none

/-- A capability that may be installed as PCC (R107): tagged, usable, unsealed, carrying EXEC. -/
def pccCause (tw : Bool) (v : GReg) : Option Nat :=
  match useCause tw v with
  | some c => some c
  | none => if hasPerm v pEXEC then none else some 0x12

end Sys2Proof.Machine
end

