-- ==== Sys2Proof/Machine/Power.lean ====
section
/-! DEFINITION. Pace, timebase and power (R33 to R65): droop pauses, references, the pace governor, regulators, soft stops, and the
vault island's supply. -/

namespace Sys2Proof.Machine

/-! ### Domains (R48) -/

def getD (s : State) (d : Nat) : Dom := mget Dom.init s.doms d
def updD (s : State) (d : Nat) (f : Dom → Dom) : State := { s with doms := mput Dom.init s.doms d (f (getD s d)) }

/-- The unit a record about a domain names: its sheaf, its engine stop, or the device for a field fabric. -/
def domUnit (d : Nat) : Nat := if d < 24 then sheafUid d else if d < 28 then uidDevice else esUid (d - 28)

/-- The lowest output of a domain in mV: vmin_code of a sheaf (R62), otherwise the bottom of its range (R48). -/
def domFloor (s : State) (d : Nat) : Nat :=
  if d < 24 then 550 + 5 * min 80 (s.getF (rShfBcLimits (sheafUid d)) ShfBcLimits.vmin_code) else if d < 28 then 700 else 650

/-- The top of a domain's range in mV (R48). -/
def domTop (d : Nat) : Nat := if d < 24 then 950 else 900

/-- A domain's slew share in 0.1 A/µs: slew_share of a sheaf, and base camp's own setting of the others (R58). -/
def slewShare (s : State) (d : Nat) : Nat :=
  if d < 24 then s.getF (rShfBcLimits (sheafUid d)) ShfBcLimits.slew_share
  else if (getD s d).powered then (getD s d).share else if d < 28 then 20 else 10

/-- The sum of the shares (R58). -/
def shareSum (s : State) : Nat := (List.range 32).foldl (fun n d => n + slewShare s d) 0

/-- The VIN_CORE current a domain draws now, in mA (R58, R59): what its logic would draw, reached from what it drew no faster than its
share. The admission limiter holds a rise back, and the ballast draws what a fall leaves. -/
def drawOf (s : State) (d : Nat) : Nat :=
  let x := getD s d
  let n := slewShare s d * (s.time - x.loadAt) / 10
  if x.want ≤ x.drawn then max x.want (x.drawn - n) else min x.want (x.drawn + n)

/-- What the ballast draws. -/
def ballastOf (s : State) (d : Nat) : Nat := drawOf s d - (getD s d).want

/-- The admission limiter delays handshakes at pipeline entry. -/
def limited (s : State) (d : Nat) : Bool := decide (drawOf s d < (getD s d).want)

/-- What the ballast has drawn since the load last changed, in mA·ns: it starts at the difference and decays at the share (R59). -/
def ballastSince (s : State) (d : Nat) : Nat :=
  let x := getD s d
  let gap := x.drawn - x.want
  let share := slewShare s d
  let t := if share = 0 then s.time - x.loadAt else min (s.time - x.loadAt) (gap * 10 / share)
  gap * t - share * t * t / 20

/-- From now on the domain's logic would draw `w` mA. -/
def askLoad (s : State) (d w : Nat) : State :=
  updD s d (fun x => { x with drawn := drawOf s d, loadAt := s.time, want := w, burnt := x.burnt + ballastSince s d })

/-- The ballast's mean power over the window that ends now, in 0.125 W at the 1.8 V of VIN_CORE (R53, R59). -/
def ballastMean (s : State) (d : Nat) : Nat :=
  ((getD s d).burnt + ballastSince s d) * 144 / (10000 * max 1 (s.time - (getD s d).window))

/-- A domain's handshakes move: it is neither paused by a droop nor in a soft stop (R36, R62). -/
def domUp (s : State) (d : Nat) : Bool := !(getD s d).paused && !(getD s d).stopped

/-- The field fabric and L3 domain of a slice (R38, R48). -/
def sliceUp (s : State) (i : Nat) : Bool := domUp s (24 + i / 24)

/-- Main power has been raised (R491). -/
def anyPowered (s : State) : Bool := s.doms.any (fun e => e.2.powered)

/-! ### Core headers (R50) -/

/-- A core's supply in mV by its header's position: none, 0.40 V in bivouac, or its sheaf's rail, to which base camp raises it at
10 mV/µs. -/
def coreMv (s : State) (k : Nat) : Nat :=
  let w := s.getR (rUnitState (coreUid k))
  let rail := (getD s (sheafOfCore k)).mv
  let st := fld w UnitState.state
  if st = usBivouac then 400
  else if st = usStarting ∧ fld w UnitState.prev_state = usBivouac then
    min rail (400 + (s.time - (s.getR (rUnitStateTime (coreUid k))).toNat) / 100)
  else if st = usStarting ∨ st = usInService ∨ st = usDraining then rail
  else 0

/-- A core raised from bivouac stands at its sheaf's voltage, and its rail has settled for 5 µs. -/
def coreRaised (s : State) (k : Nat) : Bool :=
  let w := s.getR (rUnitState (coreUid k))
  let since := (s.getR (rUnitStateTime (coreUid k))).toNat
  fld w UnitState.prev_state != usBivouac || decide (since + ((getD s (sheafOfCore k)).mv - 400) * 100 + 5000 ≤ s.time)

/-- Some field fabric domain is paused or in a soft stop (R298). -/
def timersHeld (s : State) : Bool := [24, 25, 26, 27].any (fun d => !domUp s d)

/-- The requesters' timers are suspended while a field fabric domain is held, and resume where they stopped (R298). -/
def syncTimers (s : State) : State :=
  match s.fabric.heldAt, timersHeld s with
  | none, true => { s with fabric := { s.fabric with heldAt := some s.time } }
  | some a, false =>
    { s with fabric := { s.fabric with
        heldAt := none
        reqs := s.fabric.reqs.map (fun e => { e with since := e.since + (s.time - max a e.since) }) } }
  | _, _ => s

/-- A voltage code of an output, as SHF_GOV_STATUS shows it (R55). -/
def codeOfMv (mv : Nat) : Nat := (mv - 550) / 5

/-- A thermal or power record (R463). -/
def powerRecord (s : State) (d event reading : Nat) : State := logRecord s 0x40 (domUnit d) 0 event reading 0 0

def execDroopPause (d : DomId) (mv : Nat) (s : State) : Host.Outcome State Fault Refusal :=
  .next (if 520 ≤ mv ∨ !(getD s d).powered ∨ (getD s d).paused then s
    else
      let s := updD s d (fun x => { x with paused := true, droops := x.droops + 1 })
      let s := if d.val < 24 then
          s.putR (rShfGovStatus (sheafUid d)) (satInc (s.getR (rShfGovStatus (sheafUid d))) ShfGovStatus.droop_count 1)
        else s
      syncTimers (powerRecord s d 5 0))

/-! ### References (R42 to R44) -/

def refOk (r : RefClk) : Fld := if r then BcTbStatus.ref_b_ok else BcTbStatus.ref_a_ok

def tbSet (s : State) (f : Fld) (b : Bool) : State := s.putB rBcTbStatus f b

/-- The timebase turns to a reference, and the switch is counted (R42, R44). -/
def tbSwitch (s : State) (r : RefClk) : State :=
  let s := tbSet s BcTbStatus.active r
  s.putR rBcTbStatus (satInc (s.getR rBcTbStatus) BcTbStatus.switch_count 1)

def tbRecord (s : State) : State := logRecord s 0x41 uidDevice 0 (s.getR rBcTbStatus).toNat 0 0 0

def execReferenceLoss (r : RefClk) (s : State) : Host.Outcome State Fault Refusal :=
  .next (if !s.getB rBcTbStatus (refOk r) then s
    else
      let s := tbSet (tbSet s (refOk r) false) BcTbStatus.lost_seen true
      let drove := !s.getB rBcTbStatus BcTbStatus.holdover && s.getB rBcTbStatus BcTbStatus.active == r
      let s := if !drove then s
        else if s.getB rBcTbStatus (refOk (!r)) then tbSwitch s (!r)
        else tbSet (tbSet s BcTbStatus.holdover true) BcTbStatus.slewing false
      configEval (tbRecord s))

/-- A reference within limits again; in holdover it drives the timebase, which slews into step with it (R43). Leaving holdover is no
reference switch: switch_count counts those from one reference to the other (DESIGN CHOICE, notes/assumptions/51.md). -/
def execReferenceReturn (r : RefClk) (s : State) : Host.Outcome State Fault Refusal :=
  .next (if s.getB rBcTbStatus (refOk r) then s
    else
      let s := { s with tb := { s.tb with okSince := if r then (s.tb.okSince.1, s.time) else (s.time, s.tb.okSince.2) } }
      let s := tbSet s (refOk r) true
      let s := if s.getB rBcTbStatus BcTbStatus.holdover then
          tbSet (tbSet (tbSet s BcTbStatus.holdover false) BcTbStatus.slewing true) BcTbStatus.active r
        else s
      configEval s)

def execRevertSwitch (s : State) : Host.Outcome State Fault Refusal :=
  let r := s.getB rBcTbCtrl BcTbCtrl.preferred
  let since := if r then s.tb.okSince.2 else s.tb.okSince.1
  .next (if s.getB rBcTbCtrl BcTbCtrl.revert && s.getB rBcTbStatus (refOk r) && !s.getB rBcTbStatus BcTbStatus.holdover &&
      s.getB rBcTbStatus BcTbStatus.active != r && decide (since + 1000000 ≤ s.time) then tbSwitch s r else s)

/-- The count is in step with the reference again (R43). -/
def execSlewComplete (s : State) : Host.Outcome State Fault Refusal :=
  .next (tbSet s BcTbStatus.slewing false)

/-! ### The governor (R51 to R57) -/

/-- The cores of a sheaf that read in service. -/
def sheafCores (s : State) (h : Nat) : List Nat :=
  ((List.range 8).map (fun i => 8 * h + i)).filter (fun k => stateOf s (coreUid k) == usInService)

/-- The highest request of a sheaf's cores in service; values above 440 act as 440 (R51, R55). -/
def maxRequest (s : State) (h : Nat) : Nat :=
  ((sheafCores s h).map (fun k => min 440 (s.getF (rCorePaceReq (coreUid k)) CorePaceReq.req_rate))).foldl max 0

/-- Good sensors' readings, highest (R55). -/
def tMax (bad : Nat) (ts : List Nat) : Nat := ((ts.zipIdx.filter (fun (_, i) => !bad.testBit i)).map (·.1)).foldl max 0

def badCount (bad : Nat) : Nat := ((List.range 4).filter (fun i => bad.testBit i)).length

/-- What an evaluation chooses: a voltage code and the limit that holds it there. -/
structure GovChoice where
  code  : Nat
  limit : Nat
  /-- the power caps lie below the sheaf's power at vmin_code (R57) -/
  unmet : Bool
deriving DecidableEq, Repr

/-- The code the loop steers to for a wanted pace (R39): above the present code while the measured pace lies below it, and no higher
than it otherwise. -/
def paceCode (h want pace now : Nat) : Nat :=
  let c := Config.codeForPace h want pace now
  if pace < want then max c (now + 1) else min c now

/-- The ceiling of pace_cap: below the present code while the measured pace lies above the cap, and no higher than it at the cap. -/
def paceTop (h cap pace now : Nat) : Nat :=
  let c := Config.codeUnderPace h cap pace now
  if cap < pace then min c (now - 1) else if cap = pace then min c now else c

/-- The ceiling of a power cap (R53): below the present code while the measured mean lies above the cap, and no higher than it when
the mean has reached the cap. -/
def powerTop (h cap power now : Nat) : Nat :=
  let c := Config.codeUnderPower h cap power now
  if cap < power then min c (now - 1) else if cap = power then min c now else c

/-- The ceiling of the thermal throttle (R61): the reading is held at the threshold, so the code goes no higher than it stands when the
reading has reached it, and lower when the reading is over it. -/
def tempTop (h thr tmax now : Nat) : Nat :=
  let c := Config.codeUnderTemp h thr tmax
  if thr < tmax then min c (now - 1) else min c now

/-- vmin_code and vmax_code as they act: no code lies above 0.95 V (R48, R55). -/
def vminOf (s : State) (h : Nat) : Nat := s.getF (rShfBcLimits (sheafUid h)) ShfBcLimits.vmin_code
def vmaxOf (s : State) (h : Nat) : Nat := min 80 (s.getF (rShfBcLimits (sheafUid h)) ShfBcLimits.vmax_code)

/-- A power cap lies below the sheaf's power though the sheaf stands at vmin_code (R57). -/
def capUnmet (s : State) (h now : Nat) : Bool :=
  let p := s.getF (rShfGovStatus (sheafUid h)) ShfGovStatus.power_now
  decide (now ≤ vminOf s h) && (decide (s.getF (rShfBcLimits (sheafUid h)) ShfBcLimits.bc_power_cap < p) ||
    decide (s.getF (rShfPowerCap (sheafUid h)) ShfPowerCap.sw_power_cap < p))

/-- The limits that hold from above, highest rank first, with their codes (R52): thermal, slew, range, then the caps; `now` is the
present code and `pace` the measured pace. A therm_throttle below 70 °C acts as written: R61 clamps its top alone
(DESIGN CHOICE, notes/assumptions/51.md). -/
def govCeilings (s : State) (h tmax now pace : Nat) : List (Nat × Nat) :=
  let u := sheafUid h
  let bad := badCount (s.getF (rShfTherm u) ShfTherm.sensor_bad)
  let thr := min 0x230 (s.getF (rShfBcLimits u) ShfBcLimits.therm_throttle)
  let thr := if 2 ≤ bad then min thr 0x1F4 else thr
  let power := s.getF (rShfGovStatus u) ShfGovStatus.power_now
  let bc := s.getF (rShfBcLimits u) ShfBcLimits.bc_power_cap
  let sw := s.getF (rShfPowerCap u) ShfPowerCap.sw_power_cap
  (if thr ≤ tmax then [(tempTop h thr tmax now, 7)] else []) ++ (if 2 ≤ bad then [(40, 7)] else []) ++
  (if limited s h then [(Config.codeUnderSlew h (slewShare s h), 6)] else []) ++
  [(vmaxOf s h, 5), (powerTop h bc power now, 4), (powerTop h sw power now, 3),
   (paceTop h (s.getF (rShfPacePolicy u) ShfPacePolicy.pace_cap) pace now, 2)]

/-- The choice of R52 for a wanted code; `floorCode` is the code of the pace floor. A domain in a soft stop stays at vmin_code under
its thermal trip (R62). Where the spec leaves two of its cases to meet, vmax_code below vmin_code holds over an idle sheaf, and
vmin_code over a thermal or slew ceiling that lies below it (DESIGN CHOICE, notes/assumptions/51.md). -/
def govChoose (s : State) (h tmax now pace want floorCode : Nat) (idle : Bool) : GovChoice :=
  let lo := vminOf s h
  let tops := govCeilings s h tmax now pace
  let v := (tops.map (·.1)).foldl min want
  let unmet := !idle && capUnmet s h now
  if vmaxOf s h < lo then ⟨vmaxOf s h, 5, unmet⟩
  else if (getD s h).stopped then ⟨lo, 7, false⟩
  else if idle then ⟨lo, 0, false⟩
  else if unmet ∨ v < lo then ⟨lo, 5, unmet⟩
  else if v < want then ⟨v, ((tops.find? (fun e => e.1 == v)).map (·.2)).getD 0, unmet⟩
  else ⟨v, if v = floorCode ∧ floorCode ≠ 0 then 1 else 0, unmet⟩

/-- The governor interrupt of a sheaf (R54). -/
def govIrq (s : State) (h : Nat) (b : Bool) : State :=
  let p := rShfPacePolicy (sheafUid h)
  { s with irqMsgs :=
      if b && s.getB p ShfPacePolicy.gov_irq_en && decide (s.getF p ShfPacePolicy.gov_irq_thread_hi ≤ 383) then
        s.irqMsgs ++ [⟨s.getF p ShfPacePolicy.gov_irq_thread_hi, s.getF p ShfPacePolicy.gov_irq_vector, sheafUid h⟩]
      else s.irqMsgs }

/-- A record of an unmet cap: the event code is one R463 does not list (notes/assumptions/10.md). -/
def capRecord (s : State) (h tmax : Nat) : State := powerRecord s h Config.capUnmetEvent tmax

/-- An evaluation (R52): what the sheaf's monitors show, and its sensors' temperatures. -/
def execGovernorEvaluation (h : Fin 24) (x : SheafMeter) (t0 t1 t2 t3 : BitVec 10) (s : State) :
    Host.Outcome State Fault Refusal :=
  let pace := x.pace
  let u := sheafUid h
  let bad := s.getF (rShfTherm u) ShfTherm.sensor_bad
  let tmax := tMax bad [t0.toNat, t1.toNat, t2.toNat, t3.toNat]
  let s := s.putR (rShfTherm u) ([(ShfTherm.t_max, tmax), (ShfTherm.t0, t0.toNat), (ShfTherm.t1, t1.toNat),
    (ShfTherm.t2, t2.toNat), (ShfTherm.t3, t3.toNat)].foldl (fun w (f, n) => setFld w f n) (s.getR (rShfTherm u)))
  let s := s.putF (rShfGovStatus u) ShfGovStatus.pace_now pace
  .next (if !(getD s h).powered then s
    else
      let s := if (getD s h).stopped then s else askLoad s h x.load
      let now := codeOfMv (getD s h).mv
      let idle := (sheafCores s h).isEmpty
      let target := if idle then 0 else s.getF (rShfPacePolicy u) ShfPacePolicy.pace_target
      let floor := if idle then 0 else s.getF (rShfPacePolicy u) ShfPacePolicy.pace_floor
      let req := max target (maxRequest s h)
      let floorCode := if floor = 0 then 0 else paceCode h floor pace now
      let reqCode := if req = 0 then 0 else paceCode h req pace now
      let want :=
        if req = 0 ∧ floor = 0 then
          (if s.getB (rShfPacePolicy u) ShfPacePolicy.eff_mode then 40 else s.getF (rShfBcLimits u) ShfBcLimits.eff_point)
        else max floorCode reqCode
      let c := govChoose s h tmax now pace want (if reqCode < floorCode then floorCode else 0) idle
      let floorLow := decide (floor ≠ 0) && (decide (pace < floor) ||
        decide (s.getF (rShfPacePolicy u) ShfPacePolicy.pace_cap < floor))
      let paceLow := decide (pace < req) || c.unmet
      let old := getD s h
      let s := updD s h (fun x => { x with setMv := 550 + 5 * c.code, floorLow := floorLow, paceLow := paceLow, capLow := c.unmet })
      let s := (s.putF (rShfGovStatus u) ShfGovStatus.vset_code c.code).putF (rShfGovStatus u) ShfGovStatus.limit c.limit
      let s := if floorLow then s.putF (rShfGovStatus u) ShfGovStatus.floor_unmet 1 else s
      let s := if paceLow then s.putF (rShfGovStatus u) ShfGovStatus.target_unmet 1 else s
      let s := govIrq s h ((floorLow && !old.floorLow) || (paceLow && !old.paceLow))
      let s := if floorLow && !old.floorLow then powerRecord s h 3 tmax else s
      if c.unmet && !old.capLow then capRecord s h tmax else s)

/-- One 5 mV step towards the set point, at most 10 mV/µs (R49). -/
def execVoltageStep (d : DomId) (s : State) : Host.Outcome State Fault Refusal :=
  let x := getD s d
  .next (if !x.powered ∨ x.mv = x.setMv ∨ s.time < x.lastStep + 500 then s
    else
      let mv := if x.mv < x.setMv then min x.setMv (x.mv + 5) else max x.setMv (x.mv - 5)
      let s := updD s d (fun x => { x with mv := mv, lastStep := s.time })
      if d.val < 24 then s.putF (rShfGovStatus (sheafUid d)) ShfGovStatus.vnow_code (codeOfMv mv) else s)

/-- A 100 µs window ends (R53): `mean` is what the sheaf's logic drew, and the ballast counts beside it (R59). -/
def execPowerWindow (h : Fin 24) (mean : BitVec 12) (s : State) : Host.Outcome State Fault Refusal :=
  .next (if s.time < (getD s h).window + 100000 then s
    else (updD (askLoad s h (getD s h).want) h (fun x => { x with window := s.time, burnt := 0 })).putF
      (rShfGovStatus (sheafUid h)) ShfGovStatus.power_now (min 0xFFF (mean.toNat + ballastMean s h)))

/-- A sensor fails its self-check: it is ignored (R57); two and the governor's limits of R57 apply. -/
def execSensorSelfCheckFail (h : Fin 24) (k : Fin 4) (s : State) : Host.Outcome State Fault Refusal :=
  let u := sheafUid h
  let w := s.getR (rShfTherm u)
  .next (if (fld w ShfTherm.sensor_bad).testBit k then s
    else
      let bad := fld w ShfTherm.sensor_bad ||| 2 ^ k.val
      let ts := [fld w ShfTherm.t0, fld w ShfTherm.t1, fld w ShfTherm.t2, fld w ShfTherm.t3]
      let s := s.putR (rShfTherm u) (setFld (setFld w ShfTherm.sensor_bad bad) ShfTherm.t_max (tMax bad ts))
      configEval (powerRecord s h 4 (ts.getD k 0)))

/-! ### Soft stops (R61 to R63) -/

/-- Readings in 0.25 °C above −40 °C. -/
def tripLevel : Nat := 600      -- 110 °C
def criticalLevel : Nat := 640  -- 120 °C

/-- A domain stops softly: its handshakes stop, its load ramps down through its ballast (R59), and its voltage falls to the floor. -/
def softStop (s : State) (d : Nat) : State :=
  let x := getD s d
  let s := if x.stopped then s else updD s d (fun x => { x with wasMv := x.setMv, wasWant := x.want })
  let s := askLoad (syncTimers (updD s d (fun x => { x with stopped := true, setMv := domFloor s d }))) d 0
  if d < 24 then
    (s.putF (rShfGovStatus (sheafUid d)) ShfGovStatus.soft_stopped 1).putF (rShfGovStatus (sheafUid d)) ShfGovStatus.vset_code
      (codeOfMv (domFloor s d))
  else s

/-- The load of every domain has ramped down (R63). -/
def rampedDown (s : State) : Bool := (List.range 32).all (fun d => !(getD s d).powered || decide (drawOf s d = 0))

def execDomainTrip (d : DomId) (reading : BitVec 10) (s : State) : Host.Outcome State Fault Refusal :=
  .next (if reading.toNat < tripLevel ∨ !(getD s d).powered ∨ (getD s d).stopped then s
    else powerRecord (softStop s d) d 1 reading.toNat)

/-- Every domain stops together, and base camp records it (R63). -/
def packageCritical (s : State) (d reading : Nat) : State :=
  let s := ((List.range 32).filter (fun d => (getD s d).powered)).foldl softStop s
  powerRecord { s with board := { s.board with critical := true } } d 6 reading

def execPackageCritical (d : DomId) (reading : BitVec 10) (s : State) : Host.Outcome State Fault Refusal :=
  .next (if reading.toNat < criticalLevel ∨ s.board.critical ∨ !(getD s d).powered then s
    else packageCritical s d reading.toNat)

/-- THERM_TRIP_N falls once the ramp has completed, and stays low until VDD_STBY is cycled (R63). -/
def execThermTrip (s : State) : Host.Outcome State Fault Refusal :=
  .next (if s.board.critical && rampedDown s then { s with board := { s.board with thermTrip := true } } else s)

/-! ### The vault island's supply (R64, R65) and its tamper response (R450) -/

/-- The enable an IEEE 1687 instrument needs is set (R523). -/
def segAllowed (s : State) (n : Nat) : Bool := s.getB rVltDbgEn (if Config.instrSecure n then VltDbgEn.sec_inv else VltDbgEn.norm_inv)

/-- The debug enables take a value, and a segment whose enable is gone closes (R452, R523). -/
def setDbgEn (s : State) (bits : Nat) : State :=
  let s := s.putF rVltDbgEn ⟨3, 0⟩ bits
  { s with board := { s.board with segs := s.board.segs.filter (segAllowed s) } }

/-- The tamper record (R463). -/
def tamperRecord (s : State) : State :=
  logRecord { s with vault := { s.vault with unlogged := false } } 0x50 uidVault 0 (s.getR rVltTamper).toNat 0 0 0

/-- Key operations in flight on a slot complete with 0x0401 and no output (R453). -/
def cutSlotKeys (s : State) : State :=
  { s with chans := s.chans.map (fun e => (e.1, { e.2 with flight := e.2.flight.map (fun d =>
      if isKeyOp d.op && usesKey d.op && !kOpen d && d.status.isNone then
        { d with result := 0x0401, verdict := 0, outs := [], keys := none }
      else d) })) }

/-- The tamper response: the master key is gone, and with main power present the debug enables and the record follow at once. -/
def tamper (s : State) (cause : Nat) : State :=
  let w := setFld (setFld (setFld (s.getR rVltTamper) VltTamper.latched 1) VltTamper.cause cause) VltTamper.tamper_time
    (s.getF rVltRtc VltRtc.ticks / 32768)
  let s := s.putR rVltTamper w
  let s := cutSlotKeys { s with vault := { s.vault with mkValid := false, slots := [], opened := [], unlogged := true } }
  if s.board.pwrgdMain then
    let s := (s.putF rDbgAccess ⟨1, 0⟩ 0)
    tamperRecord { setDbgEn s 0 with mgmt := { s.mgmt with tokenEnd := none } }
  else s

/-- What the vault island holds in registers, which a device reset leaves as they are (R64, R450, R451). -/
def islandRegs : List Nat := [rVltTamper, rVltRtc] ++ (List.range 16).map rVltCounter

/-- The island's supply is spent (R65): the master key is cleared as by a tamper, and the island's logic stops, its counters no longer
kept. -/
def islandOut (s : State) : State := (islandRegs.drop 1).foldl (fun s r => s.putR r (Config.islandWord r)) (tamper s 0x40)

/-- The capacitor, the island's only supply, falls below 2.0 V (R65). -/
def execHoldoverCapacitorLow (mv : Nat) (s : State) : Host.Outcome State Fault Refusal :=
  .next (if s.vault.vbat ∨ s.board.pwrgdStby ∨ 2000 ≤ mv ∨ s.vault.hold < 2000 then s
    else
      islandOut { s with vault := { s.vault with hold := mv } })

/-- VBAT removed, the island running on from VDD_STBY or from its holdover capacitor, or stopping where that is spent already; or a
battery fitted, which has charged the capacitor (R64, R65). -/
def setBattery (s : State) (back : Option Nat) : State :=
  match back with
  | none =>
    let s := { s with vault := { s.vault with vbat := false } }
    if s.board.pwrgdStby ∨ 2000 ≤ s.vault.hold then s else islandOut s
  | some mv => { s with vault := { s.vault with vbat := true, hold := mv } }

def execVbatLoss (s : State) : Host.Outcome State Fault Refusal := .next (setBattery s none)

end Sys2Proof.Machine
end

