-- ==== Sys2Proof/Machine/Xlat.lean ====
section
/-! DEFINITION. Address translation (R220 to R239): the walk, permissions and attributes, accessed and dirty bits, and the entries
an invalidation removes. The same functions serve cores and engines (R238). -/

namespace Sys2Proof.Machine

/-- What an access asks of the leaf (R229, R246). -/
inductive XKind where
  | fetch | load | store | atomic
deriving DecidableEq, Repr

/-- A translation fault: its cause, and the detail word's level, stage, write and fetch bits (R157). For 0x42, a walker's read of an
entry abandoned (R296), `level` is the destination's unit ID. -/
structure XFault where
  cause  : Nat
  level  : Nat
  stage2 : Bool
  write  : Bool
deriving DecidableEq, Repr

/-- The level of a leaf, which its size gives (R225, R226). -/
def leafLevel (e : Word) : Nat := fld e Leaf.sz / 9

/-- What a translation reads: the two roots, the class of its requests, the stores of its own thread it observes, and its
caches (R220, R228, R232, R238). -/
structure XCtx where
  root1  : Word
  root2  : Word
  cls    : ReqClass
  stores : List StoreEnt
  tlb    : List TlbEnt   -- the TLB asked first: an L1 of a core, or an engine stop's cache
  tlb2   : List TlbEnt   -- the L2 of a core, asked where the L1 misses (R232)
  walks  : List WalkEnt
  lost   : SMap Nat      -- lines whose request was abandoned, and the destination it named (R296)
deriving DecidableEq, Repr

/-- The tags of the entries a translation fills and finds (R232): vmid 0 with the second stage off (R233). -/
def XCtx.vmid (c : XCtx) : Nat := if fldB c.root2 BcXlatRoot2.en then fld c.root2 BcXlatRoot2.vmid else 0
def XCtx.asid (c : XCtx) : Nat := fld c.root1 BcXlatRoot1.asid

/-- The bytes a store-queue entry gives address `pa`, over `b` (R276). -/
def StoreEnt.over (e : StoreEnt) (pa : Nat) (b : Byte) : Byte :=
  match e.kind with
  | .data => if e.pa ≤ pa ∧ pa < e.pa + e.bytes.length then e.bytes.getD (pa - e.pa) 0 else b
  | .zero => if e.pa / 64 = pa / 64 then 0 else b
  | _ => b

/-- The byte its own thread reads: memory, overlaid by the thread's queued stores in order (R276). -/
def viewByte (s : State) (q : List StoreEnt) (pa : Nat) : Byte :=
  q.foldl (fun b e => e.over pa b) (readByte s pa)

def viewBytes (s : State) (q : List StoreEnt) (pa n : Nat) : List Byte :=
  (List.range n).map (fun i => viewByte s q (pa + i))

/-- The tag its own thread reads for the granule of `pa`. -/
def viewTag (s : State) (q : List StoreEnt) (pa : Nat) : Bool :=
  q.foldl (fun t e =>
    match e.kind with
    | .data =>
      if e.pa / 16 * 16 < pa / 16 * 16 + 16 ∧ pa / 16 * 16 < e.pa + e.bytes.length then
        (match e.tag with
         | some g => g
         | none => false)
      else t
    | .zero => if e.pa / 64 = pa / 64 then false else t
    | _ => t) (readTag s pa)

/-- The natural size of a level's entry, as log2 (R224). -/
def lvlShift (lvl : Nat) : Nat := 12 + 9 * lvl

/-- The index of an input address at a level: nine bits, or bits 51:48 at level 4 of the second stage (R224). -/
def ptIndex (s2 : Bool) (inp lvl : Nat) : Nat :=
  if s2 && lvl == 4 then inp / 2 ^ lvlShift lvl % 16 else inp / 2 ^ lvlShift lvl % 512

/-- An entry the G9 treats as invalid (R226). -/
def ptInvalid (e : Word) (lvl : Nat) (s2 : Bool) : Bool :=
  !fldB e Leaf.v ||
    (if fldB e Leaf.leaf then
      let sz := fld e Leaf.sz
      fldB e ⟨11, 11⟩ || decide (2 ≤ fld e Leaf.mt) || (fldB e Leaf.w && !fldB e Leaf.r) ||
        !(decide (9 * lvl ≤ sz) && decide (sz < 9 * lvl + 9) && decide (sz ≤ 40)) ||
        decide (fld e Leaf.pa * 4096 % 2 ^ (12 + sz) ≠ 0) || (s2 && fldB e Leaf.g)
    else fld e ⟨63, 52⟩ != 0 || fld e ⟨11, 2⟩ != 0 || lvl == 0)

/-- A leaf that permits everything: what a stage that is off contributes (R221). -/
def openLeaf : Word := 0x1F

def leafSize (e : Word) : Nat := 12 + fld e Leaf.sz

/-- The physical address a leaf gives an input address (R225). -/
def leafAddr (e : Word) (inp : Nat) : Nat := fld e Leaf.pa * 4096 + inp % 2 ^ leafSize e

/-- One indivisible read of a table entry (R228): 0x24 outside memory, when refused, or when poisoned; 0x42 where its request was
abandoned (R152, R296). -/
def readEntry (s : State) (c : XCtx) (lvl : Nat) (s2 : Bool) (pa : Nat) : Except XFault Word :=
  if !(physClass s pa).isMem || !admits s c.cls false pa then .error ⟨0x24, lvl, s2, false⟩
  else
    match mfind c.lost (pa / 64) with
    | some d => .error ⟨0x42, d, s2, false⟩
    | none => if poisoned s pa then .error ⟨0x24, lvl, s2, false⟩ else .ok (BitVec.ofNat 64 (ofBytes (viewBytes s c.stores pa 8)))

def findWalk (c : XCtx) (s2 : Bool) (lvl inp : Nat) : Option Word :=
  (c.walks.find? (fun w => w.stage2 == s2 && w.level == lvl && w.vmid == c.vmid &&
    (s2 || w.asid == c.asid) && w.region == inp / 2 ^ lvlShift lvl)).map (·.entry)

/-- What a walk found: the leaf, where it stands (as the walk addresses its node, and physically), its level, and the table
entries passed on the way. -/
structure Walked where
  leaf   : Word
  node   : Nat
  place  : Nat
  level  : Nat
  tables : List (Nat × Word)
deriving DecidableEq, Repr

/-- The walk from level `lvl` down (R227); `xl` translates a node's address by the other stage. -/
def walkFrom (s : State) (c : XCtx) (s2 : Bool) (xl : Nat → Nat → Except XFault Nat) (inp : Nat) :
    Nat → Nat → Except XFault Walked
  | 0, node => do
    let na ← xl node 0
    let place := na + 8 * ptIndex s2 inp 0
    let e ← readEntry s c 0 s2 place
    if ptInvalid e 0 s2 then .error ⟨if s2 then 0x25 else 0x20, 0, s2, false⟩
    else .ok ⟨e, node + 8 * ptIndex s2 inp 0, place, 0, []⟩
  | l + 1, node =>
    match findWalk c s2 (l + 1) inp with
    | some e => do
      let w ← walkFrom s c s2 xl inp l (fld e TblEntry.next * 4096)
      .ok w
    | none => do
      let na ← xl node (l + 1)
      let place := na + 8 * ptIndex s2 inp (l + 1)
      let e ← readEntry s c (l + 1) s2 place
      if ptInvalid e (l + 1) s2 then .error ⟨if s2 then 0x25 else 0x20, l + 1, s2, false⟩
      else if fldB e Leaf.leaf then .ok ⟨e, node + 8 * ptIndex s2 inp (l + 1), place, l + 1, []⟩
      else do
        let w ← walkFrom s c s2 xl inp l (fld e TblEntry.next * 4096)
        .ok { w with tables := (l + 1, e) :: w.tables }

/-- The second-stage walk of an IPA (R227); with the stage off the IPA is the physical address. -/
def walk2 (s : State) (c : XCtx) (ipa : Nat) : Except XFault Walked :=
  if fldB c.root2 BcXlatRoot2.en then
    let top := fldB c.root2 BcXlatRoot2.top
    if (if top then 0x10000000000000 else 0x1000000000000) ≤ ipa then .error ⟨0x25, 7, true, false⟩
    else walkFrom s c true (fun n _ => .ok n) ipa (if top then 4 else 3) (fld c.root2 BcXlatRoot2.node * 4096)
  else .ok ⟨setFld openLeaf Leaf.sz 40, 0, 0, 0, []⟩

/-- The physical address of an IPA under a second-stage leaf. -/
def ipaAddr (c : XCtx) (e : Word) (ipa : Nat) : Nat := if fldB c.root2 BcXlatRoot2.en then leafAddr e ipa else ipa

/-- A first-stage node's physical address (R227). -/
def nodeAddr (s : State) (c : XCtx) (node _lvl : Nat) : Except XFault Nat := do
  let w ← walk2 s c node
  .ok (ipaAddr c w.leaf node)

/-- The first-stage walk of a virtual address (R227); with the stage off the address is the IPA. -/
def walk1 (s : State) (c : XCtx) (va : Nat) : Except XFault Walked :=
  if fldB c.root1 BcXlatRoot1.en then
    let top := fldB c.root1 BcXlatRoot1.top
    if (if top then 0x200000000000000 else 0x1000000000000) ≤ va then .error ⟨0x20, 7, false, false⟩
    else walkFrom s c false (nodeAddr s c) va (if top then 4 else 3) (fld c.root1 BcXlatRoot1.node * 4096)
  else .ok ⟨setFld openLeaf Leaf.sz 52, 0, 0, 0, []⟩

/-- A full translation by walking, and the walk-cache entries it found (R227 to R232). -/
def xlatWalk (s : State) (c : XCtx) (va : Nat) : Except XFault (TlbEnt × List WalkEnt) := do
  let on1 := fldB c.root1 BcXlatRoot1.en
  let on2 := fldB c.root2 BcXlatRoot2.en
  let vmid := c.vmid
  let asid := c.asid
  let w1 ← walk1 s c va
  let ipa := if on1 then leafAddr w1.leaf va else va
  let w2 ← walk2 s c ipa
  let s1 := if on1 then leafSize w1.leaf else 64
  let s2 := if on2 then leafSize w2.leaf else 64
  let size := min s1 s2
  let pa := ipaAddr c w2.leaf ipa
  -- the page of the first-stage leaf itself, for the a and d updates of R230
  let (w12, l12) ← (if on1 && on2 then do
      let q ← walk2 s c w1.node
      .ok (fldB q.leaf Leaf.w, leafLevel q.leaf)
    else .ok (true, 0))
  let ent : TlbEnt := {
    vmid := vmid, asid := asid, glob := on1 && fldB w1.leaf Leaf.g,
    base := alignDown va (2 ^ size), size := size, pa := alignDown pa (2 ^ size),
    ipa := alignDown ipa (2 ^ s2), isize := s2,
    leaf1 := if on1 then w1.leaf else openLeaf, leaf2 := if on2 then w2.leaf else openLeaf,
    at1 := if on1 then some w1.place else none, at2 := if on2 then some w2.place else none, w12 := w12, l12 := l12 }
  let ws := w1.tables.map (fun (l, e) => (⟨vmid, asid, false, l, va / 2 ^ lvlShift l, e⟩ : WalkEnt)) ++
    w2.tables.map (fun (l, e) => (⟨vmid, asid, true, l, ipa / 2 ^ lvlShift l, e⟩ : WalkEnt))
  .ok (ent, ws)

def TlbEnt.hits (e : TlbEnt) (c : XCtx) (va : Nat) : Bool :=
  e.vmid == c.vmid && (e.glob || e.asid == c.asid) &&
    decide (e.base ≤ va) && decide (va < e.base + 2 ^ e.size)

/-- The permission check of R229: the second stage first, then the first. -/
def xlatPerm (k : XKind) (e : TlbEnt) : Option Nat :=
  let ok (l : Word) : Bool :=
    match k with
    | .fetch => fldB l Leaf.x && !fldB l Leaf.se
    | .load => fldB l Leaf.r
    | .store => fldB l Leaf.w
    | .atomic => fldB l Leaf.r && fldB l Leaf.w
  if !ok e.leaf2 then some 0x26
  else if !ok e.leaf1 then
    some (match k with
      | .fetch => 0x23
      | .load => 0x21
      | .store => 0x22
      | .atomic => if fldB e.leaf1 Leaf.r then 0x22 else 0x21)
  else none

/-- What a translation gives an access: the physical address, whether the page is SE and whether it may be cached (R229). -/
structure Xl where
  pa     : Nat
  se     : Bool
  cached : Bool
  ent    : Option TlbEnt       -- none with both stages off
deriving DecidableEq, Repr

def TlbEnt.xl (e : TlbEnt) (va : Nat) : Xl :=
  ⟨e.pa + (va - e.base), fldB e.leaf1 Leaf.se || fldB e.leaf2 Leaf.se,
    fld e.leaf1 Leaf.mt == 0 && fld e.leaf2 Leaf.mt == 0, some e⟩

/-- The outcome of a lookup: a hit, an entry to fill with its walk-cache entries, or a fault; `multi` marks the conflict of
two matching entries (R237). -/
structure XRes where
  xl   : Xl
  fill : Option (TlbEnt × List WalkEnt)
deriving DecidableEq, Repr

/-- The fault of an entry that a permission check or a leaf update of an access refuses (R157, R229, R230): the level is that of
the leaf that refuses. -/
def entFault (k : XKind) (e : TlbEnt) (cause : Nat) : XFault :=
  let w := k == .store || k == .atomic
  if cause = 0x26 then ⟨0x26, leafLevel e.leaf2, true, w⟩ else ⟨cause, leafLevel e.leaf1, false, w⟩

/-- A leaf of the entry still lacks its d bit (R230). -/
def TlbEnt.clean (e : TlbEnt) : Bool :=
  (e.at1.isSome && !fldB e.leaf1 Leaf.d) || (e.at2.isSome && !fldB e.leaf2 Leaf.d)

/-- What refuses an access that an entry serves: its permissions (R229), or a page of the first-stage leaf that the second stage
does not let be written, where the access must set the a bit (`fill`) or the d bit there (R230). -/
def entCheck (k : XKind) (e : TlbEnt) (fill : Bool) : Option XFault :=
  if fill && e.at1.isSome && !fldB e.leaf1 Leaf.a && !e.w12 then some ⟨0x26, e.l12, true, true⟩
  else
    match xlatPerm k e with
    | some cause => some (entFault k e cause)
    | none =>
      if (k == .store || k == .atomic) && e.at1.isSome && !fldB e.leaf1 Leaf.d && !e.w12 then some ⟨0x26, e.l12, true, true⟩
      else none

/-- The entries a lookup finds: those of the L1, or of the L2 where the L1 misses (R232). -/
def XCtx.matches_ (c : XCtx) (va : Nat) : List TlbEnt :=
  match c.tlb.filter (fun e => e.hits c va) with
  | [] => c.tlb2.filter (fun e => e.hits c va)
  | es => es

/-- Translate one address for an access of kind `k` (R227 to R237): a refusal keeps where the address would lead. A walk whose entry
the permission check refuses fills nothing and sets no accessed bit, which R230 ties to the fill (DESIGN CHOICE,
notes/assumptions/53.md). -/
def xlat (s : State) (c : XCtx) (k : XKind) (va : Nat) : Except (XFault × Option Xl) XRes :=
  if !fldB c.root1 BcXlatRoot1.en && !fldB c.root2 BcXlatRoot2.en then
    .ok ⟨⟨va, false, true, none⟩, none⟩
  else
    match c.matches_ va with
    | [] =>
      (match xlatWalk s c va with
       | .error f => .error (f, none)
       | .ok (e, ws) =>
         match entCheck k e true with
         | some f => .error (f, some (e.xl va))
         | none => .ok ⟨e.xl va, some (e, ws)⟩)
    | [e] =>
      (match entCheck k e false with
       | some f => .error (f, some (e.xl va))
       | none => .ok ⟨e.xl va, none⟩)
    | e :: _ => .error (entFault k e 0x2F, none)

/-- The detail word of a translation fault (R157). -/
def XFault.detail (f : XFault) (k : XKind) : Word :=
  if f.cause = 0x42 then BitVec.ofNat 64 f.level
  else BitVec.ofNat 64 (f.level % 16 + 16 * ofBool f.stage2 +
    32 * ofBool (f.write || k == .store || k == .atomic) + 64 * ofBool (k == .fetch))

/-- The compare-and-swap of a leaf at its home (R230, R272): it expects the value the walker read and writes it with bit `f` set;
none where the compare fails. A leaf that has the bit takes no update. -/
def casLeaf (s : State) (who : Party) (place : Option Nat) (leaf : Word) (f : Fld) : Option State :=
  match place with
  | none => some s
  | some p =>
    if fldB leaf f then some s
    else
      let s := finishLine s (p / 64)
      if (physClass s p).isMem && !poisoned s p && read64 s p == leaf then
        some (homeAtom s who true p (toBytes 8 (setFld leaf f 1).toNat) true false)
      else none

/-- A bit set in both leaves of an entry; none where a compare fails (R230, R231). -/
def casLeaves (s : State) (who : Party) (e : TlbEnt) (f : Fld) : Option State :=
  match casLeaf s who e.at1 e.leaf1 f with
  | none => none
  | some s1 => casLeaf s1 who e.at2 e.leaf2 f

/-- The entry once a bit is set in its leaves. -/
def TlbEnt.withBit (e : TlbEnt) (f : Fld) : TlbEnt :=
  { e with leaf1 := if e.at1.isSome then setFld e.leaf1 f 1 else e.leaf1
           leaf2 := if e.at2.isSome then setFld e.leaf2 f 1 else e.leaf2 }

/-- Does a walk-cache entry stand for the same node entry as one of a list. -/
def WalkEnt.same (w v : WalkEnt) : Bool :=
  v.stage2 == w.stage2 && v.level == w.level && v.region == w.region && v.vmid == w.vmid && v.asid == w.asid

/-- The walk cache with the entries a walk found: 64 at most, the oldest leaving (R228). -/
def fillWalks (old ws : List WalkEnt) : List WalkEnt := (ws ++ old.filter (fun w => !ws.any w.same)).take 64

/-! ### Invalidation (R233) -/

/-- Does TLBI of a kind remove an entry: `vmid` is that of the issuing thread, `a` and `b` the operands. -/
def tlbiHits (kind vmid a b : Nat) (e : TlbEnt) : Bool :=
  match kind with
  | 0 => e.vmid == vmid && (e.glob || e.asid == b % 65536) && decide (e.base ≤ a) && decide (a < e.base + 2 ^ e.size)
  | 1 => e.vmid == vmid && decide (e.base ≤ a) && decide (a < e.base + 2 ^ e.size)
  | 2 => e.vmid == vmid && !e.glob && e.asid == b % 65536
  | 3 => e.vmid == vmid
  | 4 => e.vmid == b % 65536 && decide (e.ipa ≤ a) && decide (a < e.ipa + 2 ^ e.isize)
  | 5 => e.vmid == b % 65536
  | 6 => true
  | _ => false

/-- Does it remove a walk-cache entry: for kinds 0, 1 and 4 those on the path to the address, and for kind 4 every first-stage
one of the vmid; for the others every one of the core or stop (R233). The second-stage entries on the path to a virtual address are found by no
address kept, so kinds 0 and 1 remove every second-stage entry of the vmid. -/
def tlbiWalkHits (kind vmid a b : Nat) (w : WalkEnt) : Bool :=
  match kind with
  | 0 => w.vmid == vmid && (w.stage2 || (w.asid == b % 65536 && w.region == a / 2 ^ lvlShift w.level))
  | 1 => w.vmid == vmid && (w.stage2 || w.region == a / 2 ^ lvlShift w.level)
  | 2 => true
  | 3 => true
  | 4 => w.vmid == b % 65536 && (!w.stage2 || w.region == a / 2 ^ lvlShift w.level)
  | 5 => true
  | 6 => true
  | _ => false

end Sys2Proof.Machine
end

