-- ==== Sys2Proof/Machine/Stores.lean ====
section
/-! DEFINITION. The store queue (R191, R274 to R276): what an entry does when it leaves the core, and which may leave next. -/

namespace Sys2Proof.Machine

/-- The bytes an entry covers. -/
def StoreEnt.span (e : StoreEnt) : Nat × Nat :=
  match e.kind with
  | .data => (e.pa, e.bytes.length)
  | _ => (e.pa / 64 * 64, 64)

def StoreEnt.overlaps (e : StoreEnt) (pa n : Nat) : Bool :=
  decide (e.span.1 < pa + n) && decide (pa < e.span.1 + e.span.2)

/-- The thread's TSTATUS.nt (R154). -/
def setNt (s : State) (t : Tid) : State := updT s t (fun x => { x with tstatus := x.tstatus ||| 0x4 })

/-- The record of a store into a poisoned line that does not replace it (R248, R487). -/
def poisonedStoreRecord (s : State) (t : Tid) (pa : Nat) : State :=
  let dram := physClass s pa == .dram
  logRecord s 0x20 (coreUid (coreOf s t)) 0 (if dram then localAddr s pa else 0)
    (0x6FF0 + (if dram then logicalRank s (primaryChan s pa) (localAddr s pa) else 0)) pa 0

/-- A store or CMO that has left the core performs (R274), or is refused (R154): by the home or a controller silently but for
TSTATUS.nt, and with a record where R18 gives its address no target. `last` is false for a piece of a store whose rest is to follow. -/
def performStore (s : State) (t : Tid) (e : StoreEnt) (last : Bool := true) : State :=
  let k := coreOf s t
  let cls : ReqClass := if e.world then .trusted else .normal
  if !(physClass s e.pa).isMem then setNt (logRecord s 0x35 uidDevice 0 e.pa (coreUid k) 0 0) t
  else if !admits s cls (e.kind != .clean && e.kind != .flush) e.pa then setNt s t
  else
    match e.kind with
    | .data =>
      let n := e.bytes.length
      let bad := last && mergesPoison s e.pa n
      let s := if e.cached then writeBytes ((linesOf e.pa n).foldl (fun s l => ownLine s k l) s) e.pa e.bytes
        else homeWriteBy s (.core k) none e.pa e.bytes
      let s := match e.tag with
        | some g => setTag s e.pa (g && (physClass s e.pa).hasTags)
        | none => s
      if bad then poisonedStoreRecord s t e.pa else s
    | .clean => cleanLine s (e.pa / 64)
    | .flush => flushLine s (e.pa / 64)
    | .zero =>
      let z := List.replicate 64 0
      if e.cached then writeBytes (ownLine s k (e.pa / 64)) (e.pa / 64 * 64) z else homeWriteBy s (.core k) none (e.pa / 64 * 64) z

def setStores (s : State) (t : Tid) (q : List StoreEnt) : State := updT s t (fun x => { x with stores := q })

/-- The oldest `n` entries leave, in order. -/
def drainN : Nat → State → Tid → State
  | 0, s, _ => s
  | n + 1, s, t =>
    match (getT s t).stores with
    | [] => s
    | e :: q => drainN n (performStore (setStores s t q) t e) t

def drainAll (s : State) (t : Tid) : State := drainN (getT s t).stores.length s t

/-- Entries leave up to the last that touches a range or that a fence put before later stores, so that an access made at once
finds them performed. -/
def drainFor (s : State) (t : Tid) (pa n : Nat) : State :=
  let q := (getT s t).stores
  let last := (q.zipIdx.filter (fun (e, _) => e.overlaps pa n || decide (e.epoch < (getT s t).epoch))).map (·.2 + 1)
  drainN (last.foldl max 0) s t

/-- An access of an SE page waits besides for the page's earlier stores (R278). -/
def drainPage (s : State) (t : Tid) (page : Option Nat) (pa n : Nat) : State :=
  let q := (getT s t).stores
  let last := (q.zipIdx.filter (fun (e, _) => page.isSome && e.se == page)).map (·.2 + 1)
  drainFor (drainN (last.foldl max 0) s t) t pa n

/-- STREL entries, and what is older than the last of them, leave (R275, rule 5). -/
def drainRel (s : State) (t : Tid) : State :=
  let q := (getT s t).stores
  let last := (q.zipIdx.filter (fun (e, _) => e.rel)).map (·.2 + 1)
  drainN (last.foldl max 0) s t

/-- What a store made at once waits for: with release order, every older one (R117, R275). -/
def drainBefore (s : State) (t : Tid) (pa n : Nat) (rel : Bool) : State := if rel then drainAll s t else drainFor s t pa n

/-- Entry `k` may leave now: no older entry overlaps it, is of its SE page, or must go first (R275, R278). -/
def mayRelease (q : List StoreEnt) (k : Nat) : Bool :=
  match q[k]? with
  | none => false
  | some e => (q.take k).all (fun o => !e.rel && decide (e.epoch ≤ o.epoch) && !o.overlaps e.span.1 e.span.2 &&
      !(e.se.isSome && o.se == e.se))

/-- The bytes of an entry that are performed together (R273): a naturally aligned store of up to 16 bytes whole, a wider one by its
naturally aligned 16-byte halves, any other byte by byte. -/
def StoreEnt.unit (e : StoreEnt) : Nat :=
  let n := e.bytes.length
  if [1, 2, 4, 8, 16].contains n && e.pa % n == 0 then n else if 16 ≤ n ∧ e.pa % 16 = 0 then 16 else 1

/-- An entry's next piece, and what is left of it. -/
def StoreEnt.cut (e : StoreEnt) : StoreEnt × List StoreEnt :=
  if e.kind == .data && decide (e.unit < e.bytes.length) then
    ({ e with bytes := e.bytes.take e.unit }, [{ e with pa := e.pa + e.unit, bytes := e.bytes.drop e.unit }])
  else (e, [])

/-- Entries of a thread's store queue, retired stores included: half on a solo core (R177, R186). -/
def storeQueueSize (s : State) (t : Tid) : Nat := if soloThread s t then 64 else 128

/-- An entry joins the store queue; a full one first lets its oldest leave (R177). -/
def pushStore (s : State) (t : Tid) (e : StoreEnt) : State :=
  updT (drainN ((getT s t).stores.length + 1 - storeQueueSize s t) s t) t (fun x => { x with stores := x.stores ++ [e] })

end Sys2Proof.Machine
end

