-- ==== Sys2Proof/Machine/Coherence.lean ====
section
/-! DEFINITION. The commands of the home protocol (R260 to R272, R280, R281): requests, and the messages of planes FWD and RSP as they are
taken. What they do at the home and in the caches is Machine/Home.lean's. -/

namespace Sys2Proof.Machine

/-! ### Requests (R262) -/

/-- The home of a line takes and gives messages: its slice's domain is neither paused nor stopped (R36, R38, R62). -/
def homeUp (s : State) (line : Nat) : Bool := sliceUp s (homeSlice s (line * 64))

/-- A core's caches give and take messages: its domain is not paused (R36). -/
def coreTakes (s : State) (k : Nat) : Bool := !(getD s (sheafOfCore k)).paused

/-- A core sends a request only with a buffer reserved for the answer (R280). -/
def coreAsks (s : State) (k line : Nat) (m : Miss) (kind : ReqKind) : State :=
  if !serving s (coreUid k) || !domUp s (sheafOfCore k) || !homeUp s line || (mfind (getC s k).misses line).isSome then s
  else toHome (updC s k (fun c => { c with misses := mins c.misses line m })) ⟨kind, .core k, line, []⟩

/-- May a translated address be prefetched: a cacheable page of memory that is not SE (R192, R194). -/
def prefetchable (s : State) (x : Xl) : Bool := !x.se && x.cached && (physClass s x.pa).isMem

/-- A prefetch of the line an address leads to, dropped where the core holds it or the home would refuse it (R194, R244). -/
def prefetchAt (s : State) (t : Tid) (world : Bool) (x : Xl) : State :=
  let k := coreOf s t
  if !prefetchable s x || (lineOf s k (x.pa / 64)).isSome || !admits s (if world then .trusted else .normal) false x.pa then s
  else coreAsks s k (x.pa / 64) .prefetch .rdS

/-- The capabilities a thread holds in its registers. -/
def Thread.caps (x : Thread) : List GReg := x.pcc :: x.wstack :: x.fstack :: x.gatetab :: x.regs.map (·.2)

/-- Some capability of the thread lets an access reach one of `n` bytes from a virtual address, of a secure line one that carries WORLD
(R138, R150, R190). -/
def capReaches (s : State) (t : Tid) (secure : Bool) (va n : Nat) : Bool :=
  (getT s t).caps.any (fun v => (useCause (trusted s t) v).isNone && (!secure || hasPerm v pWORLD) && !hasPerm v pCTRL &&
    (hasPerm v pEXEC || hasPerm v pLOAD || hasPerm v pSTORE) &&
    decide (capBase v < (va + n : Nat)) && decide ((va : Int) < capTop v))

/-- A line of the table nodes the core's walkers read: those of the roots, of the walk cache and of the leaves held (R227). -/
def walkLine (s : State) (t : Tid) (line : Nat) : Bool :=
  let c := getC s (coreOf s t)
  let r1 := s.getR (rBcXlatRoot1 t.val)
  let r2 := s.getR (rBcXlatRoot2 t.val)
  (fldB r1 BcXlatRoot1.en && fld r1 BcXlatRoot1.node == line / 64) || (fldB r2 BcXlatRoot2.en && fld r2 BcXlatRoot2.node == line / 64) ||
    c.walks.any (fun w => fld w.entry TblEntry.next == line / 64) ||
    c.tlb.any (fun e => (e.at1.toList ++ e.at2.toList).any (fun p => p / 64 == line))

/-- A read of a line by a core, on the predicted path or off it, has a capability and a translation behind it, to no SE page (R150,
R190, R192); or it is the walker's. -/
def mayTouch (s : State) (k line : Nat) : Bool :=
  match vcoreOfCore s k with
  | none => false
  | some v => [tidOf (2 * v), tidOf (2 * v + 1)].any (fun t =>
      walkLine s t line ||
      (if !s.getB (rBcXlatRoot1 t.val) BcXlatRoot1.en && !s.getB (rBcXlatRoot2 t.val) BcXlatRoot2.en then
        capReaches s t (isSecure s (line * 64)) (line * 64) 64
      else
        let c := getC s k
        (c.itlb ++ c.dtlb ++ c.tlb).any (fun e => !fldB e.leaf1 Leaf.se && !fldB e.leaf2 Leaf.se &&
          decide (e.pa ≤ line * 64) && decide (line * 64 < e.pa + 2 ^ e.size) && 
            capReaches s t (isSecure s (line * 64)) (e.base + (line * 64 - e.pa)) 64)))

/-- An expansion device answers a read with CXL.mem poison: the line is poisoned (R328, R330). In a mirrored window whose other
link serves, the other copy is returned and the bad one rewritten, with a record (R322, R329). -/
def cxlPoison (s : State) (line : Nat) : State :=
  match physClass s (line * 64) with
  | .expansion n =>
    let l := s.getF (rBcCxlWin n) BcCxlWin.link
    let m := s.getF (rBcCxlWin n) BcCxlWin.mirror_link
    if cachedLine s line then s
    else if s.getB (rBcCxlWin n) BcCxlWin.mirror && !mget false s.cxlLost l && !mget false s.cxlLost m then
      logRecord s 0x20 (ioUid (linkIo s l)) 0 0 (0xFF * 16 + 4096) (line * 64) 0
    else setPoison s line true
  | _ => s

/-- A load, fetch, walk or prefetch misses; a prefetch never leaves the ranges a cache may hold (R192, R244). -/
def execRdS (k : Fin 192) (line : Nat) (prefetch : Bool) (x : LineRead) (s : State) : Host.Outcome State Fault Refusal :=
  .next (if (lineOf s k line).isSome || !(physClass s (line * 64)).isMem || !mayTouch s k line then s
    else coreAsks (if x.poison then cxlPoison s line else s) k line (if x.fetch then .fetch else if prefetch then .prefetch else .read) .rdS)

/-- A retired store of the core waits for this line (R191). -/
def storeWaits (s : State) (k line : Nat) : Bool :=
  match vcoreOfCore s k with
  | none => false
  | some v => [2 * v, 2 * v + 1].any (fun t =>
      (getT s (tidOf t)).stores.any (fun e => (e.kind == .data || e.kind == .zero) && e.overlaps (line * 64) 64))

def execRdO (k : Fin 192) (line : Nat) (s : State) : Host.Outcome State Fault Refusal :=
  .next (if (lineOf s k line).isSome || !storeWaits s k line then s else coreAsks s k line .own .rdO)

def execUpg (k : Fin 192) (line : Nat) (s : State) : Host.Outcome State Fault Refusal :=
  .next (match lineOf s k line with
    | some c => if (c.st = .s ∨ c.st = .o) ∧ storeWaits s k line then coreAsks s k line .upgrade .upg else s
    | none => s)

/-- RdOnce is for privileged readers, the trace collector's for a debugger holding norm_noninv (R530); any other is answered no
target, and base camp records it (R270). -/
def execRdOnce (r : Reader) (line : Nat) (s : State) : Host.Outcome State Fault Refusal :=
  .next (
    let ask (p : Party) : State := toHome s ⟨.rdOnce, p, line, []⟩
    if !homeUp s line then s
    else
    match r with
    | .baseCamp => ask .baseCamp
    | .migration c => ask (.migration c)
    | .gleaner c => ask (.gleaner c)
    | .trace => if s.getB rVltDbgEn VltDbgEn.norm_noninv then ask .trace else s
    | .foreign u =>
      let q : HomeReq := ⟨.rdOnce, .engine u.toNat, line, []⟩
      logRecord (answer s q .noTarget none) 0x33 (sliceUid (homeSlice s (line * 64))) 0 u.toNat
        (sliceUid (homeSlice s (line * 64))) 0 0)

def writerParty : Writer → Party
  | .engine u => .engine u.toNat
  | .host p => .host p
  | .baseCamp => .baseCamp

def hintOf : HintArg → Option Hint
  | .none => none
  | .thread t => some (.thread t)
  | .tile i => some (.tile i)

def execWrLine (w : Writer) (line : Nat) (bytes : Vector (BitVec 8) 64) (hint : HintArg) (s : State) :
    Host.Outcome State Fault Refusal :=
  .next (if homeUp s line then toHome s ⟨.wrLine (hintOf hint), writerParty w, line, bytes.toList⟩ else s)

/-- A write of part of one line. -/
def execWrPart (w : Writer) (pa : Nat) (bytes : List (BitVec 8)) (s : State) : Host.Outcome State Fault Refusal :=
  .next (if bytes.isEmpty ∨ 64 < pa % 64 + bytes.length ∨ !homeUp s (pa / 64) then s
    else toHome s ⟨.wrPart (pa % 64), writerParty w, pa / 64, bytes⟩)

/-- A dirty line's write-back leaves the eviction buffer, an L2 line passing through a free entry; the entry stands until the home
answers (R243, R263, R281). -/
def execWb (k : Fin 192) (line : Nat) (s : State) : Host.Outcome State Fault Refusal :=
  .next (match lineOf s k line with
    | none => s
    | some c =>
      if !c.dirty || c.place == .sent || (mfind (getC s k).misses line).isSome || !coreTakes s k || !homeUp s line then s
      else if c.place == .l2 && decide (16 ≤ (evictions s k).length) then s
      else toHome (buffer s k line { c with place := .sent }) ⟨.wb, .core k, line, []⟩)

/-- A clean E victim leaves, and sends its notice (R243). -/
def execNotice (k : Fin 192) (line : Nat) (s : State) : Host.Outcome State Fault Refusal :=
  .next (match lineOf s k line with
    | none => s
    | some c =>
      if c.st ≠ .e ∨ (mfind (getC s k).misses line).isSome ∨ !coreTakes s k ∨ !homeUp s line then s
      else toHome (dropLine s k line) ⟨.notice, .core k, line, []⟩)

/-! ### Atomics (R271, R272) -/

/-- An engine's or host's atomic, a compare-and-swap among them; tags are cleared (R113, R114, R271). One that an engine sends to the
device aperture range ends its descriptor with status 0x0204. -/
def execAtom (w : Writer) (pa : Nat) (op : HomeAtomic) (wide : Bool) (v : BitVec 128) (s : State) :
    Host.Outcome State Fault Refusal :=
  let n := if wide then 16 else 8
  .next (if pa % n ≠ 0 ∨ !homeUp s (pa / 64) then s
    else
      match physClass s pa, w with
      | .device _, .engine u => endUnit s u.toNat 0x0204
      | _, _ => toHome s ⟨.atom op (pa % 64) n, writerParty w, pa / 64, toBytes n v.toNat⟩)

/-! ### Forwarded messages (R262, R280) -/

/-- The target of a message can answer it: a core's or a tile's caches, or the slice of a DupUpd (R36, R62). -/
def fwdUp (s : State) (f : Fwd) : Bool :=
  match f.kind with
  | .dupUpd => sliceUp s f.target && serving s (sliceUid f.target)
  | .snpInv => coreTakes s (2 * f.target)
  | _ => coreTakes s f.target

/-- A message of plane FWD is taken: DupUpds of one line in the order they were sent (R265). -/
def takeFwd (s : State) (m : Nat) (k : FwdKind) : Option (Fwd × State) :=
  match s.fwd[m]? with
  | some f =>
    if f.kind = k ∧ fwdUp s f ∧ !(k == .dupUpd && (s.fwd.take m).any (fun g => g.kind == .dupUpd && g.line == f.line)) then
      some (f, { s with fwd := s.fwd.eraseIdx m })
    else none
  | none => none

def execSnpS (m : Nat) (s : State) : Host.Outcome State Fault Refusal :=
  .next (match takeFwd s m .snpS with
    | none => s
    | some (f, s) => snpS s f)

def execSnpO (m : Nat) (s : State) : Host.Outcome State Fault Refusal :=
  .next (match takeFwd s m .snpO with
    | none => s
    | some (f, s) => snpO s f)

def execSnpInv (m : Nat) (s : State) : Host.Outcome State Fault Refusal :=
  .next (match takeFwd s m .snpInv with
    | none => s
    | some (f, s) => snpInv s f)

/-- A hinted line is offered to the L2 of core `k` (R268). -/
def execStash (m : Nat) (k : Fin 192) (s : State) : Host.Outcome State Fault Refusal :=
  .next (match takeFwd s m .stash with
    | none => s
    | some (f, z) => if f.target != k.val then s else stash z f)

def execDupUpd (m : Nat) (s : State) : Host.Outcome State Fault Refusal :=
  .next (match takeFwd s m .dupUpd with
    | none => s
    | some (f, s) => dupUpd s f)

/-! ### Responses -/

/-- Who takes a response can: the line's home, or the requesting core (R36, R62). -/
def rspUp (s : State) (r : Rsp) : Bool :=
  if r.home then homeUp s r.line
  else
    match r.who with
    | .core k => coreTakes s k
    | _ => true

def takeRsp (s : State) (m : Nat) (k : RspKind) : Option (Rsp × State) :=
  match s.rsp[m]? with
  | some r => if r.kind = k ∧ rspUp s r then some (r, { s with rsp := s.rsp.eraseIdx m }) else none
  | none => none

/-- Data arrives: at the home from a snooped owner, or at the requester, who takes the line. Poison ends an engine's descriptor with
0x0201 (R253). -/
def execData (m : Nat) (s : State) : Host.Outcome State Fault Refusal :=
  .next (match takeRsp s m .data with
    | none => s
    | some (r, s1) =>
      if r.home then atHome s1 r
      else
        match r.who with
        | .engine u => if r.poison then endUnit s1 u 0x0201 else (granted s1 r).getD s
        | _ => (granted s1 r).getD s)

/-- Ack: of a snoop, a Stash or a DupUpd at the home, or the end of a request at its requester. -/
def execAck (m : Nat) (s : State) : Host.Outcome State Fault Refusal :=
  .next (match takeRsp s m .ack with
    | none => s
    | some (r, s1) => if r.home then atHome s1 r else (granted s1 r).getD s)

/-- A declined Stash: the line stays in the home slice, and the hint is counted as demoted (R268). -/
def execNack (m : Nat) (s : State) : Host.Outcome State Fault Refusal :=
  .next (match takeRsp s m .nack with
    | none => s
    | some (r, s) => if r.home then atHome s r else s)

/-- A write-back that crossed a snoop is discarded (R281). -/
def execStale (m : Nat) (s : State) : Host.Outcome State Fault Refusal :=
  .next (match takeRsp s m .stale with
    | none => s
    | some (r, s) => released s r)

/-- Retry ends the exchange; the requester keeps its buffer and sends again once the map has changed (R256, R280). -/
def execRetry (m : Nat) (s : State) : Host.Outcome State Fault Refusal :=
  .next (match takeRsp s m .retry with
    | none => s
    | some (r, s) => released s r)

/-- NoTarget ends the exchange with no access (R18, R150); base camp records one that is not a refusal and reaches an effect: a
device's write or atomic. -/
def execNoTarget (m : Nat) (s : State) : Host.Outcome State Fault Refusal :=
  .next (match takeRsp s m .noTarget with
    | none => s
    | some (r, s) =>
      let s := released s r
      let effect := match r.who, r.what with
        | .core _, _ => false
        | _, .rdOnce => false
        | _, _ => true
      if effect && !r.refusal then logRecord s 0x35 uidDevice 0 (r.line * 64) (partyUid r.who) 0 0 else s)

end Sys2Proof.Machine
end

