-- ==== Sys2Proof/Machine/EngMem.lean ====
section
/-! DEFINITION. What engines, the message deliverer and the bridge do to memory for a channel (R238, R268, R379): translation through
the channel's roots, host reads and writes, and the status an access ends with. -/

namespace Sys2Proof.Machine

/-- A result, or the completion status of R373 that ends the descriptor, with the state left. -/
abbrev E (α : Type) := Except (Nat × State) α

/-- Where an address of a channel leads: bytes homed at a slice, or an address of a host port's memory for an instance. -/
inductive EPlace where
  | mem (pa : Nat) (plain : Bool)   -- `plain`: its page is cacheable and not SE
  | host (p i a : Nat)
deriving DecidableEq, Repr

def getX (s : State) (f : Nat) : XCache := mget XCache.init s.engXlat f

/-- The context of a resident channel's translations: its roots and its stop's cache (R232, R238). -/
def engCtx (s : State) (g : Nat) : XCtx where
  root1 := (getCh s g).word 8
  root2 := (getCh s g).word 9
  cls := .normal
  stores := []
  tlb := (getX s (servingEs s g)).tlb
  tlb2 := []
  walks := (getX s (servingEs s g)).walks
  lost := []

/-- A new entry displaces the oldest beyond the 1,024 of the stop's cache (R232). -/
def fillX (s : State) (f : Nat) (e : TlbEnt) (ws : List WalkEnt) : State :=
  let x := getX s f
  { s with engXlat := mput XCache.init s.engXlat f { tlb := (e :: x.tlb).take 1024, walks := fillWalks x.walks ws } }

/-- The entries that caused a fault leave the stop's cache (R232, R237). -/
def dropX (s : State) (g va : Nat) : State :=
  let f := servingEs s g
  let c := engCtx s g
  let x := getX s f
  { s with engXlat := mput XCache.init s.engXlat f {
      tlb := x.tlb.filter (fun e => !e.hits c va)
      walks := x.walks.filter (fun w => !(w.vmid == c.vmid &&
        (w.stage2 || (w.asid == c.asid && w.region == va / 2 ^ lvlShift w.level)))) } }

/-- An entry replaced in the stop's cache. -/
def putX (s : State) (g : Nat) (e e' : TlbEnt) : State :=
  let f := servingEs s g
  let x := getX s f
  { s with engXlat := mput XCache.init s.engXlat f { x with tlb := x.tlb.map (fun y => if y = e then e' else y) } }

/-- Translate for a channel as a core does (R230, R231, R238). A leaf update that loses its compare four times ends with 0x2F. -/
def engWalk : Nat → State → Nat → XKind → Nat → Except (Nat × State) (Xl × State)
  | 0, s, g, _, a => .error (0x2F, dropX s g a)
  | n + 1, s, g, k, a =>
    match xlat s (engCtx s g) k a with
    | .error (f, _) => .error (f.cause, if f.cause = 0x20 then s else dropX s g a)
    | .ok ⟨x, none⟩ => .ok (x, s)
    | .ok ⟨x, some (e, ws)⟩ =>
      match casLeaves s (.engine (esUid (servingEs s g))) e Leaf.a with
      | some s1 => .ok ({ x with ent := some (e.withBit Leaf.a) }, fillX s1 (servingEs s g) (e.withBit Leaf.a) ws)
      | none => engWalk n s g k a

/-- The d bits of a write's leaves (R230, R238). -/
def engDirty (g a : Nat) : Nat → State → Xl → Except (Nat × State) (Xl × State)
  | 0, s, _ => .error (0x2F, dropX s g a)
  | n + 1, s, x =>
    match x.ent with
    | none => .ok (x, s)
    | some e =>
      if !e.clean then .ok (x, s)
      else
        match casLeaves s (.engine (esUid (servingEs s g))) e Leaf.d with
        | some s1 => .ok ({ x with ent := some (e.withBit Leaf.d) }, putX s1 g e (e.withBit Leaf.d))
        | none =>
          match engWalk 4 (dropX s g a) g .store a with
          | .error f => .error f
          | .ok (y, s1) => engDirty g a n s1 y

/-- The record of a no-target response that ends a descriptor (R18); `u` is the unit that asked. -/
def engNoTarget (s : State) (u pa : Nat) : State := logRecord s 0x35 uidDevice 0 pa u 0 0

/-- One address of a channel: its place, or the status of the access that fails (R238, R364, R379). -/
def engXlat (s : State) (g u : Nat) (write : Bool) (a : Nat) : E (State × EPlace) :=
  if isHostChan g then .ok (s, .host (chanPort g) (chanInst s g) a)
  else
    match engWalk 4 s g (if write then .store else .load) a with
    | .error (c, s) => .error (0x0200 + c, s)
    | .ok (x, s) =>
      if x.se then .error (0x0227, s)
      else
        match physClass s x.pa with
        | .device _ => .error (0x0227, s)
        | .none => .error (0x0203, engNoTarget s u x.pa)
        | _ =>
          match (if write then engDirty g a 4 s x else .ok (x, s)) with
          | .error (c, s) => .error (0x0200 + c, s)
          | .ok (x, s) =>
            match physClass s x.pa with
            | .hostAp p b => .ok (s, .host p 0 b)
            | _ => .ok (s, .mem x.pa (x.cached && !x.se))

/-- A range cut at 4 KiB boundaries. -/
def pagesOf : Nat → Nat → Nat → List (Nat × Nat)
  | 0, _, _ => []
  | f + 1, a, n =>
    if n = 0 then []
    else
      let k := min n (4096 - a % 4096)
      (a, k) :: pagesOf f (a + k) (n - k)

/-- The places of a list of ranges, in order (R379: a wrap ends 0x0202). -/
def engPlaces (s : State) (g u : Nat) (write : Bool) : List (Nat × Nat) → E (State × List (EPlace × Nat))
  | [] => .ok (s, [])
  | (a, n) :: rs => do
    let (s, q) ← engXlat s g u write a
    let (s, qs) ← engPlaces s g u write rs
    .ok (s, (q, n) :: qs)

def rangesPages (rs : List (Nat × Nat)) : List (Nat × Nat) := rs.flatMap (fun r => pagesOf (r.2 / 4096 + 2) r.1 r.2)

/-- A request of an instance to its host may be sent now, or the status that it ends with (R347, R351). -/
def hostGo (s : State) (p i : Nat) : E Unit :=
  if portFrozen s p then .error (0x0303, s) else if !masterOn s p i then .error (0x0301, s) else .ok ()

/-- Ask the host for the places that lie with it; the number of requests. -/
def askHost (s : State) (g slot : Nat) : List (EPlace × Nat) → E (State × Nat)
  | [] => .ok (s, 0)
  | (.mem _ _, _) :: qs => askHost s g slot qs
  | (.host p i a, n) :: qs => do
    hostGo s p i
    let ps := piecesOf s p i a n
    let s := ps.foldl (fun s q => hostRequest s p i (.desc g slot) q.1 q.2) s
    let (s, k) ← askHost s g slot qs
    .ok (s, ps.length + k)

/-- Read one place: refused or poisoned, or its bytes. -/
def readPlace (s : State) (q : EPlace) (n : Nat) : E (List Byte) :=
  match q with
  | .host p _ a => .ok (readHost s p a n)
  | .mem pa _ =>
    if !admits s .normal false pa then .error (0x0203, s)
    else if (linesOf pa n).any (fun l => poisoned s (l * 64)) then .error (0x0201, s)
    else .ok (readBytes s pa n)

def readPlaces (s : State) : List (EPlace × Nat) → E (List Byte)
  | [] => .ok []
  | (q, n) :: qs => do
    let b ← readPlace s q n
    let bs ← readPlaces s qs
    .ok (b ++ bs)

/-- The bytes of a descriptor's ranges: none while the host's answers are awaited, a failed answer's status, or the bytes. -/
def gather (s : State) (g : Nat) (d : Desc) (u : Nat) (rs : List (Nat × Nat)) : E (State × Option (List Byte)) :=
  if d.stage = 1 ∧ d.waits ≠ 0 then .ok (s, none)
  else if d.bad ≠ 0 then .error (d.bad, s)
  else do
    let (s, qs) ← engPlaces s g u false (rangesPages rs)
    if d.stage = 0 ∧ qs.any (fun q => match q.1 with
        | .host _ _ _ => true
        | .mem _ _ => false) then do
      let (s, k) ← askHost s g d.slot qs
      .ok (updDesc s g d.slot (fun d => { d with stage := 1, waits := k, bad := 0 }), none)
    else do
      let bs ← readPlaces s qs
      .ok (s, some bs)

/-- The write of one place would be refused. -/
def writeCheck (s : State) : List (EPlace × Nat) → E Unit
  | [] => .ok ()
  | (.host p i _, _) :: qs => do
    hostGo s p i
    writeCheck s qs
  | (.mem pa _, _) :: qs => if !admits s .normal true pa then .error (0x0203, s) else writeCheck s qs

/-- The hint word at offset 0x30 (R381), and the hint a service queue gives. -/
def hintOfWord (w : Word) : Option Hint :=
  if !fldB w ⟨63, 63⟩ then none
  else if fldB w ⟨62, 62⟩ then some (.tile (fld w ⟨8, 0⟩))
  else some (.thread (fld w ⟨8, 0⟩))

/-- The lines that a write covers whole. -/
def wholeLines (pa n : Nat) : List Nat :=
  (linesOf pa n).filter (fun l => decide (pa ≤ l * 64) && decide (l * 64 + 64 ≤ pa + n))

/-- Hints that are dropped, each counted at its line's tile (R269). -/
def dropHints (s : State) (hint : Option Hint) (pa n : Nat) : State :=
  match hint with
  | none => s
  | some _ => (wholeLines pa n).foldl (fun s l => demoted s (homeSlice s (l * 64))) s

/-- The address of a byte of a host aperture (R16). -/
def hostApAddr (p a : Nat) : Nat := 0x400000000000 + p * 0x40000000000 + a

/-- Bytes written at their home by a unit that keeps none (R379), with a hint on the lines they cover whole: one to a host, an uncached
or an SE page is dropped (R268, R269). -/
def placeWrite (s : State) (u : Nat) (q : EPlace) (hint : Option Hint) (bs : List Byte) : State :=
  match q with
  | .host p i a => dropHints (hostWrite s p i a bs true) hint (hostApAddr p a) bs.length
  | .mem pa plain =>
    if plain then homeWriteBy s (.engine u) hint pa bs else dropHints (homeWriteBy s (.engine u) none pa bs) hint pa bs.length

def writePlaces (s : State) (u : Nat) (hint : Option Hint) : List (EPlace × Nat) → List Byte → State
  | [], _ => s
  | (q, n) :: qs, bs => writePlaces (placeWrite s u q hint (bs.take n)) u hint qs (bs.drop n)

/-- Write bytes to a range of a channel's addresses: every access is checked before any is made. -/
def scatter (s : State) (g u : Nat) (hint : Option Hint) (rs : List (Nat × Nat)) (bs : List Byte) : E State := do
  let (s, qs) ← engPlaces s g u true (rangesPages rs)
  writeCheck s qs
  .ok (writePlaces s u hint qs bs)

/-- A range runs past the top of its address space (R379). -/
def wraps (a n : Nat) : Bool := decide (0x10000000000000000 < a + n)

/-- The outcome of an attempt at a descriptor: its own end with a status, as the access it met leaves the state. -/
def orEnd (g : Nat) (d : Desc) (x : E State) : State :=
  match x with
  | .ok s => s
  | .error (st, s) => endDesc s g d.slot st (if isMoveOp d.op then d.done else 0)

end Sys2Proof.Machine
end

