-- ==== Sys2Proof/Machine/Sched.lean ====
section
/-! DEFINITION. The channel scheduler (R362 to R376): entries and their check, commands, polls, the start of a descriptor, and its
completion. -/

namespace Sys2Proof.Machine

/-! ### Entries (R363, R368) -/

/-- The set-up words of an entry, where its lines can be read. -/
def entryWords (s : State) (g : Nat) : Option (List Word) :=
  let a := entryAddr s g
  if (physClass s a).isMem && admits s .normal false a && !poisoned s a && !poisoned s (a + 64) then
    some ((List.range 10).map (fun k => read64 s (a + 8 * k)))
  else none

/-- The bits of each set-up word that are not reserved. -/
def entryMasks : List Word := [
  0x80FF0FF30003011F, 0xFFFFFFFFFFFFF00F, 0xFFFFFFFFFFFFF00F, 0xFFFFFFFFFFFFFFF8, 0x801FFFF803FFFFBF,
  0x00007F00FFFF0000, 0x00003FFF00001FFF]

/-- The bits of a root that are not reserved (R220). -/
def rootMask : Word := 0xFFFFFFFFFFFFFF03

/-- An entry passes REFRESH (R368). -/
def entryOk (s : State) (g : Nat) (ws : List Word) : Bool :=
  let w (k : Nat) : Word := ws.getD k 0
  let logOk (k : Nat) : Bool := decide (4 ≤ fld (w k) ChRing.log2)
  (entryMasks.zipIdx).all (fun (m, k) => w k &&& ~~~m == 0) &&
    logOk 1 && logOk 2 && fld (w 0) ChControl.kinds != 0 &&
    (!fldB (w 0) ChControl.db_mode || fld (w 3) ChPollAddr.addr != 0) &&
    decide (fld (w 6) ChKeyWin.ks_base + fld (w 6) ChKeyWin.ks_count ≤ 8192) &&
    (!fldB (w 4) ChIrq.irq_en ||
      (if isHostChan g then decide (fld (w 4) ChIrq.msix < vecCount (getP s (chanPort g)))
       else decide (fld (w 4) ChIrq.thread ≤ 383))) &&
    (isHostChan g || (w 8 &&& ~~~rootMask == 0 && w 9 &&& ~~~rootMask == 0))

/-! ### Reading descriptors (R366) -/

/-- Reads of descriptors still outstanding are no longer waited for. -/
def dropFetch (s : State) (g : Nat) : State :=
  let s := updCh s g (fun c => { c with fetch := [] })
  let gone (r : HostReq) : Bool := match r.for_ with
    | .fetch h _ => h == g
    | _ => false
  (List.range 16).foldl (fun s p =>
    if (getP s p).reqs.any gone then
      updP s p (fun x => { x with
        reqs := (x.reqs.filter (fun r => !(gone r && r.tag.isNone))).map (fun r => if gone r then { r with dropped := true } else r) })
    else s) s

def wordsOf (bs : List Byte) : List Word := (chunks 8 8 bs).map (fun b => BitVec.ofNat 64 (ofBytes b))

/-- Read the next descriptor not yet read: at once from the G9's own memory, by a host read otherwise. -/
def fetchNext (s : State) (g : Nat) : State :=
  let c := getCh s g
  let slot := (c.subHead + c.fetch.length) % c.subSize
  let a := fld (c.word 1) ChRing.base * 4096 + 64 * slot
  let add (s : State) (f : Fetch) : State := updCh s g (fun c => { c with fetch := c.fetch ++ [f] })
  match engXlat s g (chUid (servingEs s g)) false a with
  | .error (st, s) => add s (.failed st)
  | .ok (s, .host p i b) =>
    (match hostGo s p i with
     | .error (st, s) => add s (.failed st)
     | .ok _ => add (hostRequest s p i (.fetch g slot) b 64) .asked)
  | .ok (s, .mem pa h) =>
    (match readPlace s (.mem pa h) 64 with
     | .error (st, s) => add s (.failed st)
     | .ok bs => add s (.ready (wordsOf bs)))

/-- Slots submitted and not yet started. -/
def Chan.waitingSlots (c : Chan) : Nat := (c.tail % c.subSize + c.subSize - c.subHead % c.subSize) % c.subSize

/-- A descriptor leaves the submission ring: in flight, or ended at once. -/
def pushDesc (s : State) (g : Nat) (f : Desc → Desc) : State :=
  let c := getCh s g
  let ws := match c.fetch.head? with
    | some (.ready ws) => ws
    | _ => [setFld 0 Desc.user_tag (Config.lostTag g c.subHead).toNat]
  let d := f (newDesc c.subHead ws s.time (homeEs s g))
  putCh s g { c with flight := c.flight ++ [d], fetch := c.fetch.tail, subHead := (c.subHead + 1) % c.subSize, served := s.time }

/-- A FLUSH goes on: each submitted descriptor, once read, completes with 0x0107 (R367). -/
def flushGo : Nat → State → Nat → State
  | 0, s, _ => s
  | n + 1, s, g =>
    let c := getCh s g
    match c.flushTo with
    | none => s
    | some t =>
      if c.subHead = t then updCh s g (fun c => { c with flushTo := none })
      else
        let s := if c.fetch.isEmpty then fetchNext s g else s
        match (getCh s g).fetch.head? with
        | some .asked => s
        | _ => flushGo n (pushDesc s g (fun d => { d with flushed := true, status := some (0x0107, 0) })) g

/-- The data of a host read of a descriptor, or the status it ended with. -/
def fetchDone (s : State) (g slot : Nat) (f : Fetch) : State :=
  let c := getCh s g
  let j := (slot + c.subSize - c.subHead % c.subSize) % c.subSize
  let s := match c.fetch[j]? with
    | some .asked => putCh s g { c with fetch := c.fetch.set j f }
    | _ => s
  flushGo (c.subSize + 1) s g

/-! ### Commands (R367) -/

/-- The command may be given in the state. -/
def cmdAllowed (cmd st : Nat) : Bool :=
  match cmd with
  | 1 => st == 0 || st == 1 || st == 4
  | 2 => st == 1 || st == 4
  | 3 => st == 2
  | 4 => st == 2 || st == 3 || st == 4
  | 5 => st == 1 || st == 4
  | 6 => st == 0 || st == 1 || st == 4
  | _ => false

def refreshChan (s : State) (g : Nat) : State :=
  (entryWords s g).elim (chanSet s g 0 7) (fun ws =>
    let s := dropFetch s g
    let s := updCh s g (fun c => { c with words := ws, pollAt := s.time, pollEvery := 100, ranBefore := false })
    if !entryOk s g ws then chanSet s g 0 7
    else if fldB (ws.getD 0 0) ChControl.en then chanSet s g 1 1
    else chanSet s g 0 1)

def resetIndices (s : State) (g : Nat) : State :=
  updCh (dropFetch s g) g (fun c => { c with
    subHead := 0, cplTail := 0, phase := true, subTail := 0, cplHead := 0, pollTail := 0, pollHead := 0, flushTo := none })

/-- A command at the serving stop: counted, and applied or refused; `clean` says that its reserved bits are zero. -/
def chanAct (s : State) (g cmd : Nat) (clean : Bool) : State :=
  let s := updCh s g (fun c => { c with cmdSeq := (c.cmdSeq + 1) % 256 })
  let c := getCh s g
  if !clean || !cmdAllowed cmd c.state then updCh s g (fun c => { c with cause := 8 })
  else
    match cmd with
    | 1 => refreshChan s g
    | 2 => checkDoorbell (chanSet s g 2 2) g
    | 3 => chanSet s g 3 3
    | 4 =>
      let s := cutAll s g 0x0106
      chanSet s g (if (getCh s g).flight.all (fun d => d.status.isSome) then 1 else 3) 4
    | 5 =>
      let s := updCh s g (fun c => { c with cause := 5, flushTo := some (c.tail % c.subSize) })
      flushGo (c.subSize + 1) s g
    | _ => updCh (resetIndices s g) g (fun c => { c with cause := 6 })

/-- A command reaches the serving stop, which acts on it, or holds it while its domain passes no handshake (R36, R62). -/
def chanCommand (s : State) (g cmd : Nat) (clean : Bool) : State :=
  if esPasses s (servingEs s g) then chanAct s g cmd clean
  else updCh s g (fun c => { c with heldCmds := c.heldCmds ++ [(cmd, clean)] })

/-- A channel's held commands, in their order, at a stop that passes handshakes. -/
def heldGo (s : State) (g : Nat) : State :=
  if !esPasses s (servingEs s g) then s
  else (getCh s g).heldCmds.foldl (fun s e => chanAct s g e.1 e.2) (updCh s g (fun c => { c with heldCmds := [] }))

/-- Every channel of an engine stop acts on the commands it holds. -/
def heldAll (s : State) (f : Nat) : State :=
  ((s.chans.map (·.1)).filter (fun g => servingEs s g == f && !(getCh s g).heldCmds.isEmpty)).foldl heldGo s

/-- Who may command a channel (R367): base camp and CTRL holders through CH_CMD_g while an engine stop answers, and PF 0 through
BAR4 for its own port while mgr = 0 and outside a freeze. -/
def mayCommand (s : State) (r : Requester) (g : Nat) : Bool :=
  serving s (esUid (servingEs s g)) &&
    (match r with
     | .host p i => i == 0 && isHostChan g && chanPort g == p && !mgrRes s p && !portFrozen s p && !mget false (getP s p).busy 0
     | _ => true)

def command (s : State) (r : Requester) (g cmd : Nat) : State := if mayCommand s r g then chanCommand s g cmd true else s

def execRefresh (r : Requester) (g : Fin 8192) (s : State) : Host.Outcome State Fault Refusal := .next (command s r g 1)
def execChanStart (r : Requester) (g : Fin 8192) (s : State) : Host.Outcome State Fault Refusal := .next (command s r g 2)
def execChanStop (r : Requester) (g : Fin 8192) (s : State) : Host.Outcome State Fault Refusal := .next (command s r g 3)
def execAbort (r : Requester) (g : Fin 8192) (s : State) : Host.Outcome State Fault Refusal := .next (command s r g 4)
def execFlush (r : Requester) (g : Fin 8192) (s : State) : Host.Outcome State Fault Refusal := .next (command s r g 5)
def execChanReset (r : Requester) (g : Fin 8192) (s : State) : Host.Outcome State Fault Refusal := .next (command s r g 6)

/-- A stopping channel has nothing in flight and no entry to write; one that ABORT stops has only descriptors that have ended. -/
def execChannelStopped (g : Fin 8192) (s : State) : Host.Outcome State Fault Refusal :=
  let c := getCh s g
  .next (if c.state = 3 ∧ (c.flight.isEmpty ∨ c.cause = 4 ∧ c.flight.all (fun d => d.status.isSome)) then updCh s g (fun c => { c with state := 1 }) else s)

/-! ### Doorbells (R364, R365) -/

/-- A host writes its own slots, outside a freeze and a function-level reset (R348, R351). -/
def mayRing (s : State) (r : Requester) (g : Nat) : Bool :=
  match r with
  | .host p i => isHostChan g && chanPort g == p && chanInst s g == i && !portFrozen s p && !mget false (getP s p).busy i
  | _ => true

def execDoorbellWrite (r : Requester) (g : Fin 8192) (off : BitVec 6) (wide : Bool) (v : Word) (s : State) :
    Host.Outcome State Fault Refusal :=
  .next (if mayRing s r g then slotWrite s g off.toNat wide v else s)

/-- The longest poll interval in ns (R361). -/
def pollMax (c : Chan) : Nat :=
  let m := fld (c.word 5) ChTiming.poll_max
  (if m = 0 ∨ 100 < m then 100 else m) * 1000

/-- A poll has read the doorbell word, or its read has failed, which finds no change. -/
def pollDone (s : State) (g : Nat) (w : Option Nat) : State :=
  let c := getCh s g
  let tail := match w with
    | some v => v % 0x8000
    | none => c.pollTail
  let head := match w with
    | some v => v / 0x100000000 % 0x8000
    | none => c.pollHead
  let every := if tail ≠ c.pollTail ∨ head ≠ c.pollHead then 100 else min (2 * c.pollEvery) (pollMax c)
  checkDoorbell (putCh s g { c with
    pollTail := tail, pollHead := head, pollEvery := every, pollAt := s.time + every, polling := false }) g

/-- The scheduler reads a polled channel's word. -/
def execDoorbellPoll (g : Fin 8192) (s : State) : Host.Outcome State Fault Refusal :=
  let c := getCh s g
  let a := fld (c.word 3) ChPollAddr.addr * 8
  .next (if !esPasses s (servingEs s g) || !c.polled || c.polling || s.time < c.pollAt || (c.state ≠ 2 && c.state ≠ 3) || !chanAwake s g then s
    else
      match engXlat s g (chUid (servingEs s g)) false a with
      | .error (_, s) => pollDone s g none
      | .ok (s, .host p i b) =>
        (match hostGo s p i with
         | .error (_, s) => pollDone s g none
         | .ok _ => updCh (hostRequest s p i (.poll g) b 8) g (fun c => { c with polling := true }))
      | .ok (s, .mem pa h) =>
        (match readPlace s (.mem pa h) 8 with
         | .error (_, s) => pollDone s g none
         | .ok bs => pollDone s g (some (ofBytes bs))))

/-! ### The screen of a descriptor (R369, R372) -/

/-- The bits of operand words 1 to 7 that an opcode names. -/
def operandMasks (op : Nat) : Option (List Word) :=
  let hint : Word := 0xC0000000000001FF
  let all : Word := 0xFFFFFFFFFFFFFFFF
  match op with
  | 0x00 => some [0, 0, 0, 0, 0, 0, 0]
  | 0x01 => some [0x8000000000001FFF, all, 0, 0, 0, 0, 0]
  | 0x02 => some [0x8000000000001FFF, all, 0, 0, 0, 0, 0]
  | 0x10 => some [all, all, 0xFFFFFFFF, 0, 0, hint, 0]
  | 0x11 => some [all, all, 0xFFFF00000000, 0, 0, hint, 0]
  | 0x12 => some [all, all, 0xFFFF00000000, 0, 0, hint, 0]
  | 0x13 => some [0, all, 0xFFFFFFFF, all, all, hint, 0]
  | 0x14 => some [all, 0, 0x1FFFFFFFF, all, 0, 0, 0]
  | 0x15 => some [all, all, 0xFFFFFFFF, 0, 0, 0, 0]
  | 0x16 => some [all, all, 0x1FFFFFFFF, all, 0, hint, 0]
  | 0x80 => some [0xFFFF00FF, all, 0, 0, 0, 0, 0]
  | 0x81 => some [0xFFFF00FF, all, all, all, all, all, all]
  | 0x90 => some [all, 0, 0x3FFF, 0, 0, 0, 0]
  | 0x91 => some [all, 0, 0, 0, 0, 0, 0]
  | 0x92 => some [all, 0, 0xFFFF00000000, 0, 0, 0, 0]
  | _ =>
    if [0x40, 0x41, 0x42, 0x43, 0x44, 0x45, 0x48, 0x49, 0x4A, 0x4F, 0x50, 0x51, 0x54, 0x55, 0x56, 0x57, 0x58, 0x59, 0x5C, 0x5D,
        0x60, 0x61, 0x68].contains op then
      some [all, all, all, 0x8000000000001FFF, all, 0xFFFF03FF, 0x1FFF]
    else none

/-- The kind bit of an opcode (R361); none for NOP, FENCE and WAIT. -/
def kindBit (op : Nat) : Option Nat :=
  if isMoveOp op then some 0 else if isKeyOp op then some 1 else if isMsgOp op then some 2 else if isNetOp op then some 3 else none

/-- The status with which a descriptor ends without executing: a reserved field of the control word or a bad to_code, an opcode
unassigned or of a kind not allowed, a reserved field of its operands. -/
def screen (c : Chan) (ws : List Word) : Option Nat :=
  let w := ws.getD 0 0
  let op := fld w Desc.opcode
  if fld w ⟨23, 16⟩ ≠ 0 ∨ fld w ⟨12, 8⟩ ≠ 0 ∨ 26 < fld w Desc.to_code then some 0x0101
  else
    match operandMasks op with
    | none => some 0x0102
    | some ms =>
      if (match kindBit op with
          | some k => !(fld (c.word 0) ChControl.kinds).testBit k
          | none => false) then some 0x0102
      else if (ms.zipIdx).any (fun (m, k) => ws.getD (k + 1) 0 &&& ~~~m != 0) then some 0x0101
      else none

/-! ### The choice of R376 -/

/-- A FENCE or WAIT of the channel has not completed (R370). -/
def Chan.barrier (c : Chan) : Bool := c.flight.any (fun d => !d.flushed && (d.op == 1 || d.op == 2))

/-- The channel may start a descriptor, whatever it is (R347, R366, R370). -/
def chanReady (s : State) (g : Nat) : Bool :=
  let c := getCh s g
  c.state == 2 && chanAwake s g && !c.barrier && decide (c.inFlight ≤ fld (c.word 0) ChControl.max_inflight) &&
    decide (c.waitingSlots ≠ 0) && !c.cplFull && c.fetch.head? != some .asked &&
    (!isHostChan g || (masterOn s (chanPort g) (chanInst s g) && !portFrozen s (chanPort g)))

/-- An engine runs a descriptor. -/
def engBusy (s : State) (u : Nat) : Bool := s.chans.any (fun e => e.2.flight.any (fun d => d.unit == some u))

/-- The engines of a kind in a stop that read in service. -/
def engsUp (s : State) (f : Nat) (key : Bool) : List Nat :=
  ([0, 1].map (fun k => if key then keUid (2 * f + k) else meUid (2 * f + k))).filter (fun u => stateOf s u == usInService)

/-- The stop of a key engine starts no key operation while both its engines wait to swap programs (R396). -/
def swapHeld (s : State) (u : Nat) : Bool :=
  [u - u % 2, u - u % 2 + 1].any (fun e =>
    s.getB (rKeUcodeStatus e) KeUcodeStatus.pending && s.getB (rKeUcodeCtrl e) KeUcodeCtrl.apply_both)

/-- Where an opcode runs: none needed, none in service, all busy, or the first idle engine (R378, R394). -/
inductive EngPick where
  | noUnit | out | busy | on (u : Nat)
deriving DecidableEq, Repr

def engPick (s : State) (f op : Nat) : EngPick :=
  if !isKeyOp op && !isMoveOp op then .noUnit
  else
    match engsUp s f (isKeyOp op) with
    | [] => .out
    | us =>
      match us.find? (fun u => !engBusy s u && !(isKeyOp op && swapHeld s u)) with
      | some u => .on u
      | none => .busy

/-- The virtual ports bound to a channel as tx_chan or rx_chan (R427). -/
def vportsOf (s : State) (g : Nat) (rx : Bool) : List Nat :=
  (List.range 960).filter (fun v => s.getB (rNetVport0 v) NetVport0.en &&
    s.getF (rNetVport0 v) (if rx then NetVport0.rx_chan else NetVport0.tx_chan) == g)

/-- The screen, and on a receive channel any descriptor that is not RXBUF (R429). -/
def screenAt (s : State) (g : Nat) (ws : List Word) : Option Nat :=
  match screen (getCh s g) ws with
  | some st => some st
  | none => if fld (ws.getD 0 0) Desc.opcode ≠ 0x91 ∧ !(vportsOf s g true).isEmpty then some 0x0102 else none

/-- A descriptor that has been read may start now: an RXBUF of a receive channel waits for a frame (R370, R378, R429). -/
def descReady (s : State) (f g : Nat) : Bool :=
  let c := getCh s g
  match c.fetch.head? with
  | some (.ready ws) =>
    let w := ws.getD 0 0
    (!fldB w Desc.fence || c.flight.isEmpty) &&
      ((screenAt s g ws).isSome ||
        (engPick s f (fld w Desc.opcode) != .busy && !(fld w Desc.opcode == 0x91 && !(vportsOf s g true).isEmpty)))
  | _ => true

/-- Rank 1 of R376: the instance received less than its share (R400). -/
def rankOne (s : State) (g : Nat) : Bool := isHostChan g && (getI s (chanPort g) (chanInst s g)).low

/-- Standing of a channel: its rank 1, then its priority, 3 when it has not been served for 100 µs. -/
def standing (s : State) (g : Nat) : Nat :=
  let c := getCh s g
  ofBool (rankOne s g) * 4 + (if c.served + 100000 ≤ s.time then 3 else fld (c.word 0) ChControl.prio)

/-- The channel served next: one whose turn goes on, else the highest standing, the longest unserved first among equals. -/
def pickChan (s : State) (f : Nat) : Option Nat :=
  let cs := (s.chans.map (·.1)).filter (fun g => servingEs s g == f && chanReady s g && descReady s f g)
  match cs.find? (fun g => (getCh s g).turn != 0) with
  | some g => some g
  | none => cs.foldl (fun b g =>
      match b with
      | none => some g
      | some h =>
        if standing s h < standing s g ∨ (standing s h = standing s g ∧ (getCh s g).order < (getCh s h).order) then some g
        else b) none

/-- A turn that begins ends the one another channel of the stop was in (R376). -/
def endTurns (s : State) (g : Nat) : State :=
  ((s.chans.filter (fun e => e.1 != g && e.2.turn != 0 && servingEs s e.1 == servingEs s g)).map (·.1)).foldl
    (fun s h => updCh s h (fun c => { c with turn := 0 })) s

/-- The channel's turn begins or goes on: `weight` descriptors, then behind the others (R376, R400). -/
def takeTurn (s : State) (g : Nat) : State :=
  let c := getCh s g
  let s := if c.turn = 0 then endTurns s g else s
  let last := s.chans.foldl (fun n e => max n e.2.order) 0
  let t := if c.turn = 0 then fld (c.word 0) ChControl.weight else c.turn - 1
  let s := putCh s g { c with turn := t, order := last + 1 }
  if rankOne s g then updI s (chanPort g) (chanInst s g) (fun x => { x with rank1 := true }) else s

/-- The next descriptor of a channel starts, or ends at once. -/
def startDesc (s : State) (f g : Nat) : State :=
  let c := getCh s g
  match c.fetch.head? with
  | some (.failed st) => pushDesc s g (fun d => { d with status := some (st, 0) })
  | some (.ready ws) =>
    let op := fld (ws.getD 0 0) Desc.opcode
    let slot := c.subHead
    (match screenAt s g ws with
     | some st => pushDesc s g (fun d => { d with status := some (st, 0) })
     | none =>
       match engPick s f op with
       | .out => pushDesc s g (fun d => { d with status := some (0x0502, 0) })
       | .busy => s
       | .on u => pushDesc s g (fun d => { d with unit := some u })
       | .noUnit =>
         let s := pushDesc s g id
         if isMsgOp op then { s with sqOrder := s.sqOrder ++ [(homeEs s g * 256 + fld (ws.getD 1 0) ⟨7, 0⟩, g, slot)] } else s)
  | _ => s

/-- Instances with a startable descriptor, for the floors (R400). -/
def markWanted (s : State) (f : Nat) : State :=
  (s.chans.map (·.1)).foldl (fun s g =>
    if isHostChan g && servingEs s g == f && chanReady s g then
      updI s (chanPort g) (chanInst s g) (fun x => { x with wanted := true })
    else s) s

def execDescriptorStart (f : Fin 4) (s : State) : Host.Outcome State Fault Refusal :=
  .next (if (!serving s (esUid f) && !serving s (esUid ((f.val + 2) % 4))) || !esPasses s (if serving s (esUid f) then f.val else (f.val + 2) % 4) then s
    else
      let s := (s.chans.map (·.1)).foldl (fun s g => if servingEs s g = f.val then checkDoorbell s g else s) s
      let s := markWanted s f
      match pickChan s f with
      | none => s
      | some g =>
        let s := if (getCh s g).fetch.isEmpty then fetchNext s g else s
        if (getCh s g).fetch.head? = some .asked ∨ !descReady s f g then s
        else startDesc (takeTurn s g) f g)

/-! ### Completion (R370, R371) -/

/-- The 16 bytes of a completion entry. -/
def cplEntry (c : Chan) (d : Desc) (st res : Nat) : List Byte :=
  toBytes 8 (ofBool c.phase + d.slot * 2 + st * 0x10000 + fld (d.word 0) Desc.user_tag * 0x100000000) ++ toBytes 8 res

/-- Write a completion entry; the status of a write that the G9 learns has failed. -/
def writeEntry (s : State) (g : Nat) (bs : List Byte) : E State :=
  let c := getCh s g
  let a := fld (c.word 2) ChRing.base * 4096 + 16 * c.cplTail
  match engXlat s g (chUid (servingEs s g)) true a with
  | .error e => .error e
  | .ok (s, .host p i b) => (hostGo s p i).bind (fun _ => .ok (hostWrite s p i b bs))
  | .ok (s, .mem pa _) =>
    if !admits s .normal true pa then .error (0x0203, s)
    else if poisoned s pa then .error (0x0201, s)
    else .ok (homeWrite s pa bs)

/-- cpl_tail moves on, the phase toggling at the wrap. -/
def advanceCpl (s : State) (g : Nat) : State :=
  updCh s g (fun c =>
    let t := (c.cplTail + 1) % c.cplSize
    { c with cplTail := t, phase := if t = 0 then !c.phase else c.phase })

/-- Steps 3 and 4 of R370, and what a status or a failed entry write leaves: `entry` as the write of step 2 went. -/
def countCompletion (s : State) (g st : Nat) (advance : Bool) (lost : Option Nat) : State :=
  let s := if advance then advanceCpl s g else s
  let err := st ≠ 0
  let s := updCh s g (fun c =>
    let c := { c with flight := c.flight.tail, completed := (c.completed + 1) % 2 ^ 64, pollEvery := 100, pollAt := min c.pollAt (s.time + 100) }
    let c := if err then { c with lastErr := st, errors := min (c.errors + 1) 0xFFFF } else c
    match lost with
    | some l => { c with lastErr := l, errors := min (c.errors + 1) 0xFFFF }
    | none => c)
  let s := if isHostChan g then
      instCount (if err then instCount s (chanPort g) (chanInst s g) 3 1 else s) (chanPort g) (chanInst s g) 2 1
    else s
  let s := if err && fldB ((getCh s g).word 0) ChControl.err_stop then chanHalt s g 9 else s
  if lost.isSome then chanHalt s g 16 else s

/-- After an entry the channel's interrupt is sent, by its bit, its status or the count (R371). -/
def entryIrq (s : State) (g st : Nat) (irq : Bool) : State :=
  let s := updCh s g (fun c => { c with firstAt := if c.sinceIrq = 0 then s.time else c.firstAt, sinceIrq := c.sinceIrq + 1 })
  let c := getCh s g
  if fldB (c.word 4) ChIrq.irq_en && (irq || st != 0 || decide (max 1 (fld (c.word 4) ChIrq.irq_count) ≤ c.sinceIrq)) then chanIrq s g
  else s

/-- The oldest descriptor completes, where it has ended and its entry need not wait. -/
def completeOne (s : State) (g : Nat) : State :=
  let c := getCh s g
  match c.flight with
  | [] => s
  | d :: _ =>
    match d.status with
    | none => s
    | some (st, res) =>
      let p := chanPort g
      if st = 0 && fldB (d.word 0) Desc.quiet then countCompletion s g st false none
      else if d.noEntry || (isHostChan g && portFrozen s p) then countCompletion s g st true none
      else if c.cplFull || (isHostChan g && !masterOn s p (chanInst s g)) then s
      else
        match writeEntry s g (cplEntry c d st res) with
        | .error (l, s) => countCompletion s g st true (some l)
        | .ok s => entryIrq (countCompletion s g st true none) g st (fldB (d.word 0) Desc.irq)

/-- Every completion that can go. -/
def completeGo : Nat → State → Nat → State
  | 0, s, _ => s
  | n + 1, s, g =>
    let s' := completeOne s g
    if (getCh s' g).flight.length = (getCh s g).flight.length then s else completeGo n s' g

def completeAll (s : State) (g : Nat) : State := completeGo (getCh s g).flight.length s g

def execDescriptorComplete (g : Fin 8192) (s : State) : Host.Outcome State Fault Refusal :=
  .next (if esPasses s (servingEs s g) then completeOne s g else s)

def execIrqTimeTrigger (g : Fin 8192) (s : State) : Host.Outcome State Fault Refusal :=
  let c := getCh s g
  let t := fld (c.word 4) ChIrq.irq_time
  .next (if esPasses s (servingEs s g) && fldB (c.word 4) ChIrq.irq_en && t != 0 && c.sinceIrq != 0 && decide (c.firstAt + t * 1000 ≤ s.time) then chanIrq s g else s)

/-- The serving stop writes the live words to the table; a write that fails is lost (R362). -/
def execLiveWordWrite (g : Fin 8192) (s : State) : Host.Outcome State Fault Refusal :=
  let a := entryAddr s g + 0x60
  let c := getCh s g
  .next (if esPasses s (servingEs s g) && (physClass s a).isMem && admits s .normal true a && !poisoned s a then
      homeWrite s a (wordsBytes [c.liveWord, c.completedWord, c.liveCpl])
    else s)

/-! ### NOP, FENCE and WAIT (R372, R374), and the execution timeout (R375) -/

/-- The descriptor in flight from a slot, of an opcode, that has not ended, its stop passing handshakes (R36, R62). -/
def running? (s : State) (g slot op : Nat) : Option Desc :=
  match descAt s g slot with
  | some d => if d.op = op ∧ d.status = none ∧ esPasses s (servingEs s g) then some d else none
  | none => none

def execDescNop (g : Fin 8192) (slot : Fin 32768) (s : State) : Host.Outcome State Fault Refusal :=
  .next (match running? s g slot 0x00 with
    | some d => endDesc s g d.slot 0 0
    | none => s)

/-- A target a wait may name: of the same instance, or of the same group (R374). -/
def waitTarget (s : State) (g t : Nat) : Bool :=
  if isHostChan g then isHostChan t && chanPort t == chanPort g && chanInst s t == chanInst s g
  else !isHostChan t && fld ((getCh s t).word 0) ChControl.group == fld ((getCh s g).word 0) ChControl.group

/-- The target condition of a FENCE or WAIT: not permitted, not yet, or met. -/
def waitMet (s : State) (g : Nat) (d : Desc) : Option Bool :=
  if !fldB (d.word 1) ⟨63, 63⟩ then some true
  else
    let t := fld (d.word 1) ⟨12, 0⟩
    if !waitTarget s g t then none else some (decide (d.num 2 ≤ (getCh s t).completed))

def execDescFence (g : Fin 8192) (slot : Fin 32768) (s : State) : Host.Outcome State Fault Refusal :=
  .next (match running? s g slot 0x01 with
    | some d =>
      (match waitMet s g d with
       | none => endDesc s g d.slot 0x0103 0
       | some met => if met && (getCh s g).flight.head? == some d then endDesc s g d.slot 0 0 else s)
    | none => s)

def execDescWait (g : Fin 8192) (slot : Fin 32768) (s : State) : Host.Outcome State Fault Refusal :=
  .next (match running? s g slot 0x02 with
    | some d =>
      if !fldB (d.word 1) ⟨63, 63⟩ then endDesc s g d.slot 0x0101 0
      else
        (match waitMet s g d with
         | none => endDesc s g d.slot 0x0103 0
         | some met => if met then endDesc s g d.slot 0 0 else s)
    | none => s)

def execExecutionTimeout (g : Fin 8192) (slot : Fin 32768) (s : State) : Host.Outcome State Fault Refusal :=
  .next (match descAt s g slot with
    | none => s
    | some d =>
      match descLimit (getCh s g) d with
      | none => s
      | some n =>
        if d.status.isSome || s.time < d.started + n || !esPasses s (servingEs s g) then s
        else if d.op = 1 ∨ d.op = 2 then endDesc s g d.slot 0x0105 0
        else cutDesc s g d 0x0108)

end Sys2Proof.Machine
end

