-- ==== Sys2Proof/Machine/Ports.lean ====
section
/-! DEFINITION. Host ports (R337 to R357): completions and timeouts, Bus Master Enable, resets, readiness, the freeze and its
release, MSI-X, and the configuration writes that have an effect. -/

namespace Sys2Proof.Machine

/-! ### The end of a request -/

/-- What an AtomicOp writes over the old value: nothing where a compare fails (R113 to R115). -/
def HostAtom.result : HostAtom → Nat → Option (List Byte)
  | .op o n v, old => some (toBytes n (amoFn o (8 * n) old v))
  | .cas n e w, old => if old = e then some (toBytes n w) else none

/-- The host answers with what its memory held, and in one action makes an AtomicOp's write over it (R115, R271). -/
def hostServes (s : State) (p : Nat) (r : HostReq) (bs : List Byte) : State :=
  let s := writeHost s p r.addr bs
  match r.atom.bind (fun a => a.result (ofBytes bs)) with
  | some w => writeHost s p r.addr w
  | none => s

/-- A request ends: its data reaches who it was made for, or a status (R344, R346). -/
def answerReq (s : State) (p : Nat) (r : HostReq) (x : Except Nat (List Byte)) : State :=
  let s := match x with
    | .ok bs =>
      let s := bwAdd (hostServes s p r bs) (ioOfPort p) (0x28 + 0x20 * (p % 2)) bs.length
      instCount s p r.inst 0 bs.length
    | .error _ => s
  if r.dropped then s
  else
    match r.for_ with
    | .core t =>
      let ans : HostAns := match x with
        | .ok bs => .data bs
        | .error st => if st = 0x0201 then .poison else .error st
      updT s t (fun y => if y.hostWait.isNone then y else y.heard ans)
    | .fill t =>
      let ans : HostAns := match x with
        | .ok bs => .data bs
        | .error st => if st = 0x0201 then .poison else .error st
      updT s t (fun y => if y.fillWait.isNone then y else y.filled ans)
    | .desc g slot =>
      let st := match x with
        | .ok _ => 0
        | .error e => e
      updDesc s g slot (fun d => { d with waits := d.waits - 1, bad := if d.bad = 0 then st else d.bad })
    | .fetch g slot =>
      (match x with
       | .ok bs => fetchDone s g slot (.ready (wordsOf bs))
       | .error st => fetchDone s g slot (.failed st))
    | .image i =>
      updI s p i (fun y => { y with imgWaits := y.imgWaits - 1, imgBad := y.imgBad || (match x with
        | .ok _ => false
        | .error _ => true) })
    | .poll g =>
      (match x with
       | .ok bs => pollDone s g (some (ofBytes bs))
       | .error _ => pollDone s g none)

def errCount (s : State) (p : Nat) (f : Fld) : State :=
  s.putR (rHpErrCount (portUid p)) (satInc (s.getR (rHpErrCount (portUid p))) f 1)

/-- Set the quarantine, and the count of it that HP_ERR_COUNT shows. -/
def setQuar (s : State) (p : Nat) (q : List QTag) : State :=
  (updP s p (fun x => { x with quar := q })).putF (rHpErrCount (portUid p)) HpErrCount.quarantined q.length

/-- AER records an error of a function (R344 to R346). -/
def aer (s : State) (p i bit : Nat) : State := 
  updP s p (fun x =>
    let f := x.fn i
    x.setFn i { f with aer := f.aer ||| bit })

/-- A completion that matches nothing (R345). -/
def unexpected (s : State) (p i : Nat) : State := aer (errCount s p HpErrCount.unexpected_cpl) p i 2

/-- The instance whose share holds a tag. -/
def instOfTag (x : Port) (t : Nat) : Nat := (t - tagBase x.tagMode) / (tagTotal x.tagMode / x.share)

def dropReq (s : State) (p k : Nat) : State := updP s p (fun x => { x with reqs := x.reqs.eraseIdx k })

/-- A request ends with its last completion, and its tag is free again. -/
def finishReq (s : State) (p k : Nat) (r : HostReq) (x : Except Nat (List Byte)) : State :=
  let x := match r.endAs with
    | some st => .error st
    | none => x
  assignTags (answerReq (dropReq s p k) p r x) p

/-- A completion agrees with an outstanding request (R345, R346). -/
def cplAgrees (r : HostReq) (count lower n : Nat) : Bool :=
  count == r.len - r.got.length && lower == (r.addr + r.got.length) % 128 && decide (1 ≤ n) && decide (n ≤ count)

/-- A request that was sent ends without its completions, its tag in quarantine. -/
def expireReq (s : State) (p k : Nat) (r : HostReq) (st : Nat) : State :=
  let s := dropReq s p k
  let s := match r.tag with
    | some t => setQuar s p ((getP s p).quar ++ [⟨t, r.since + 2 * r.limit * 1000, r.addr, r.len⟩])
    | none => s
  answerReq s p r (.error st)

/-- A completion timeout (R344). -/
def timeOut (s : State) (p k : Nat) (r : HostReq) : State :=
  expireReq (aer (errCount s p HpErrCount.cpl_timeouts) p r.inst 1) p k r (r.endAs.getD 0x0302)

/-- The port has detected the timeout by now: no later than `timeout_us` × 1.01 + 1 µs (R344). -/
def overdue (s : State) (r : HostReq) : Bool := decide (r.since + r.limit * 1010 + 1000 < s.time)

/-- A completion that no outstanding request awaits is discarded, and ends its tag's quarantine (R345). -/
def strayCompletion (s : State) (p tag : Nat) : State :=
  let s := unexpected s p (instOfTag (getP s p) tag)
  if (getP s p).quar.any (fun q => q.tag == tag) then assignTags (setQuar s p ((getP s p).quar.filter (fun q => q.tag != tag))) p else s

def execHostCompletion (p : Fin 16) (tag : Fin 1024) (count : Nat) (lower : BitVec 7) (c : Cpl) (s : State) :
    Host.Outcome State Fault Refusal :=
  let x := getP s p
  .next (match x.reqs.findIdx? (fun r => r.tag == some tag.val) with
    | none => strayCompletion s p tag
    | some k =>
      match x.reqs[k]? with
      | none => s
      | some r =>
        if overdue s r then strayCompletion (timeOut s p k r) p tag
        else match c with
        | .malformed => finishReq (aer s p r.inst 4) p k r (.error 0x0304)
        | .data bs =>
          if !cplAgrees r count lower.toNat bs.length then unexpected s p r.inst
          else
            let got := r.got ++ bs
            let s := updP s p (fun x => { x with progress := s.time })
            if got.length = r.len then finishReq s p k r (.ok got)
            else updP s p (fun x => { x with reqs := x.reqs.set k { r with got := got } })
        | .error =>
          if !cplAgrees r count lower.toNat 1 then unexpected s p r.inst else finishReq s p k r (.error 0x0304)
        | .poisoned =>
          if !cplAgrees r count lower.toNat 1 then unexpected s p r.inst
          else finishReq (errCount s p HpErrCount.poisoned_cpl) p k r (.error 0x0201))

/-! ### Timeouts and quarantine (R343 to R345) -/

def execCompletionTimeout (p : Fin 16) (tag : Fin 1024) (s : State) : Host.Outcome State Fault Refusal :=
  let x := getP s p
  .next (match x.reqs.findIdx? (fun r => r.tag == some tag.val) with
    | none => s
    | some k =>
      match x.reqs[k]? with
      | none => s
      | some r =>
        if s.time < r.since + r.limit * 1000 then s
        else timeOut s p k r)

def execQuarantineExpiry (p : Fin 16) (tag : Fin 1024) (s : State) : Host.Outcome State Fault Refusal :=
  let x := getP s p
  .next (match x.quar.find? (fun q => q.tag == tag.val) with
    | none => s
    | some q =>
      if s.time < q.till then s
      else
        let s := setQuar s p (x.quar.filter (fun q => q.tag != tag.val))
        assignTags (updP s p (fun x => { x with spent := x.spent ++ [q] })) p)

def execTagWaitTimeout (p : Fin 16) (k : Nat) (s : State) : Host.Outcome State Fault Refusal :=
  .next (match (getP s p).reqs[k]? with
    | none => s
    | some r =>
      if r.tag.isSome || s.time ≤ r.since + cplTimeoutUs s p * 1000 then s
      else answerReq (dropReq s p k) p r (.error 0x0302))

/-- Every request of a port for which `f` holds ends with a status, those that were sent with their tags in quarantine. -/
def endReqsGo : Nat → State → Nat → (HostReq → Bool) → Nat → State
  | 0, s, _, _, _ => s
  | n + 1, s, p, f, st =>
    match (getP s p).reqs.findIdx? f with
    | none => s
    | some k =>
      match (getP s p).reqs[k]? with
      | none => s
      | some r => endReqsGo n (expireReq s p k r st) p f st

def endReqs (s : State) (p : Nat) (f : HostReq → Bool) (st : Nat) : State := endReqsGo (getP s p).reqs.length s p f st

/-! ### Bus Master Enable (R347) -/

def ReqFor.isCore : ReqFor → Bool
  | .core _ => true
  | .fill _ => true
  | _ => false

/-- Nothing more is issued for an instance: requests that were not sent end now, those that were end 0x0301, or 0x0304 for a core,
whatever arrives. -/
def masterOff (s : State) (p i : Nat) : State :=
  let s := (instChans s p i).foldl (fun s g => if (getCh s g).fetch.isEmpty then s else dropFetch s g) s
  let ends (core : Bool) : Nat := if core then 0x0304 else 0x0301
  let s := endReqs s p (fun r => r.inst == i && r.tag.isNone && r.for_.isCore) (ends true)
  let s := endReqs s p (fun r => r.inst == i && r.tag.isNone) (ends false)
  updP s p (fun x => { x with reqs := x.reqs.map (fun r =>
    if r.inst = i ∧ r.endAs = none then { r with endAs := some (ends r.for_.isCore) } else r) })

/-- Entries held while the instance could not write go out in their channels, then its held messages (R357). -/
def masterBack (s : State) (p i : Nat) : State :=
  msixRelease ((instChans s p i).foldl completeAll s) p i

def execBusMasterDisable (p : Fin 16) (i : Fin 64) (s : State) : Host.Outcome State Fault Refusal :=
  .next (if !hostPortMode s p then s
    else masterOff (updP s p (fun x => x.setFn i { x.fn i with bme := false })) p i)

def execBusMasterEnable (p : Fin 16) (i : Fin 64) (s : State) : Host.Outcome State Fault Refusal :=
  .next (if !hostPortMode s p || mget false (getP s p).busy i then s
    else
      let s := updP s p (fun x => x.setFn i { x.fn i with bme := true })
      if masterOn s p i then masterBack s p i else s)

/-! ### Resets (R348, R349) -/

/-- The mailbox of an instance is cleared (R404). -/
def clearMailbox (s : State) (p i : Nat) : State :=
  let u := portUid p
  let s := (List.range 8).foldl (fun s k =>
    let s := (s.resetR (bar0Base p i + 0x1000 + 8 * k)).resetR (bar0Base p i + 0x1040 + 8 * k)
    (s.resetR (u * 0x100000 + 0x10000 + 256 * i + 8 * k)).resetR (u * 0x100000 + 0x10040 + 256 * i + 8 * k)) s
  let s := ((s.putB (rHpMbxCtrl p i) HpMbxCtrl.in_full false).putB (rHpMbxCtrl p i) HpMbxCtrl.out_full false)
  let s := (s.putB (rHpMbxMgrCtrl u i) HpMbxMgrCtrl.in_full false).putB (rHpMbxMgrCtrl u i) HpMbxMgrCtrl.out_full false
  s.putF (rHpMbxPend u) ⟨i, i⟩ 0

/-- Steps 1 to 4 of R348 for one instance. A quiesce or freeze under way ends quiesced, its channels off (R415). -/
def resetInst (s : State) (p i : Nat) : State :=
  let chans := instChans s p i
  let r := rHpInstMgmt (portUid p) i
  let st := s.getF r HpInstMgmt.state
  let cmd := st = 1 ∨ st = 7
  let s := endReqs s p (fun r => r.inst == i && r.for_.isCore) 0x0304
  let s := endReqs s p (fun r => r.inst == i) 0x0301
  let s := chans.foldl (fun s g =>
    let s := cutAll (dropFetch s g) g 0x0301
    let s := updCh s g (fun c => { c with flight := c.flight.map (fun d => { d with noEntry := true }) })
    let s := completeAll s g
    if cmd then (if (getCh s g).state = 0 then s else chanSet s g 0 13) else chanStopAs s g 13) s
  let s := if cmd then (s.putF r HpInstMgmt.state 2).putB r HpInstMgmt.irq_held true else s
  let s := updP s p (fun x => x.setFn i { Fn.init with resetting := true, aer := (x.fn i).aer })
  clearMailbox s p i

def setBusy (s : State) (p i : Nat) (b : Bool) : State := updP s p (fun x => { x with busy := mput false x.busy i b })

/-- The instances a reset of a function covers: PF 0 takes every VF with it. -/
def resetSet (s : State) (p i : Nat) : List Nat := if i = 0 then List.range (getP s p).share else [i]

/-- A function-level reset begins, or ends (R348). -/
def execFunctionLevelReset (p : Fin 16) (i : Fin 64) (finish : Bool) (s : State) : Host.Outcome State Fault Refusal :=
  .next (if !hostPortMode s p then s
    else if finish then
      if !mget false (getP s p).busy i then s
      else
        let s := (if i.val = 0 then (getP s p).busy.map (·.1) else [i.val]).foldl (fun s k =>
          updP (setBusy s p k false) p (fun x => x.setFn k { x.fn k with resetting := false })) s
        if i.val = 0 then updP s p (fun x => { x with vfEnable := false, numVfs := 0, share := 1 }) else s
    else if mget false (getP s p).busy i || (getP s p).share ≤ i.val then s
    else (resetSet s p i).foldl (fun s k => resetInst (setBusy s p k true) p k) s)

/-! ### The freeze (R351 to R353) -/

/-- The record of a freeze cause; `further` marks a cause that arose during a freeze. -/
def freezeRecord (s : State) (p cause : Nat) (further : Bool) : State :=
  logRecord s 0x38 (portUid p) 0 p (cause + 16 * ofBool further) 0 0

def portFreeze (s : State) (p cause : Nat) : State :=
  let r := rHpPortStatus (portUid p)
  if portFrozen s p then freezeRecord s p cause true
  else
    let s := s.putR r (setFld (setFld (satInc (s.getR r) HpPortStatus.freeze_count 1) HpPortStatus.freeze_cause cause)
      HpPortStatus.frozen 1)
    let s := updP s p (fun x => { x with autoArmed := cause == 2 || cause == 3 })
    let s := endReqs s p (fun _ => true) 0x0303
    let s := ((List.range 256).map (· + 256 * p)).foldl (fun s g =>
      chanStopAs (if (getCh s g).fetch.isEmpty then s else dropFetch s g) g 12) s
    freezeRecord s p cause false

def execPortFreeze (p : Fin 16) (why : FreezeCause) (s : State) : Host.Outcome State Fault Refusal :=
  let c := match why with
    | .aer => 1
    | .linkDown => 2
    | .presence => 3
  .next (if !hostPortMode s p then s
    else portFreeze (if why = .aer then aer s p 0 16 else s) p c)

/-- A request towards the port is still held in the fabric (R300, R352). -/
def heldInFabric (s : State) (p : Nat) : Bool :=
  s.fabric.reqs.any (fun e => match physClass s e.addr with
    | .hostAp q _ => q == p
    | _ => false)

def execOutboundStall (p : Fin 16) (s : State) : Host.Outcome State Fault Refusal :=
  .next (if hostPortMode s p && (heldInFabric s p || !(getP s p).reqs.isEmpty) &&
      decide ((getP s p).progress + 1000000 ≤ s.time) then portFreeze s p 4 else s)

/-- Base camp and CTRL holders write HP_PORT_CTRL (R354). -/
def notHost : Requester → Bool
  | .host _ _ => false
  | _ => true

def execFreezeWrite (r : Requester) (p : Fin 16) (s : State) : Host.Outcome State Fault Refusal :=
  .next (if notHost r && hostPortMode s p && blockUp s (portUid p) then portFreeze s p 5 else s)

/-- The port is released, and vectors still pending are sent (R351, R352). -/
def releasePort (s : State) (p : Nat) : State :=
  let s := s.putB (rHpPortStatus (portUid p)) HpPortStatus.frozen false
  let s := updP s p (fun x => { x with autoArmed := false, progress := s.time })
  (List.range (getP s p).share).foldl (fun s i => msixRelease s p i) s

def releaseWrite (s : State) (p : Nat) : State :=
  if !portFrozen s p then s
  else if portLinkUp s p && !heldInFabric s p then releasePort s p
  else s.putB (rHpPortStatus (portUid p)) HpPortStatus.release_refused true

def execReleaseWrite (r : Requester) (p : Fin 16) (s : State) : Host.Outcome State Fault Refusal :=
  .next (if notHost r && blockUp s (portUid p) then releaseWrite s p else s)

/-- The data-link layer has first come up after a freeze of cause 2 or 3 (R353). -/
def execAutoRelease (p : Fin 16) (s : State) : Host.Outcome State Fault Refusal :=
  .next (if !portFrozen s p || !(getP s p).autoArmed || !portLinkUp s p then s
    else if s.getB (rHpPortCtrl (portUid p)) HpPortCtrl.auto_release then releasePort s p
    else updP s p (fun x => { x with autoArmed := false }))

/-- A reset of the port: every instance, the link's part of its status, and its readiness (R349). A link-down freezes it first. -/
def portReset (s : State) (p : Nat) (why : PortResetKind) : State :=
  let s := if why = .linkDown then portFreeze s p 2 else s
  let s := (List.range (getP s p).share).foldl (fun s i => resetInst s p i) s
  let r := rHpPortStatus (portUid p)
  let s := s.putR r (setFld (setFld (setFld (setFld (setFld (s.getR r) HpPortStatus.width 0) HpPortStatus.speed 0)
    HpPortStatus.flit 0) HpPortStatus.link_up 0) HpPortStatus.release_refused 0)
  updP s p (fun x => { x with
    numVfs := 0, vfEnable := false, share := 1, busy := [], cfgReady := false, ident := none, perst := x.perst || why == .perst
    fns := x.fns.map (fun e => (e.1, { e.2 with resetting := false })) |>.filter (fun e => e.2 != Fn.init) })

def execPortReset (p : Fin 16) (why : PortResetKind) (s : State) : Host.Outcome State Fault Refusal :=
  .next (if hostPortMode s p then portReset s p why else s)

/-- What PF 0 of every host port reports: the fused Vendor ID and stepping, and the running image's subsystem IDs (R338, R543). -/
def pfId (s : State) : FnId where
  vendor := s.getF rBcFuseId BcFuseId.vendor_id
  device := 0x9192
  classCode := 0x0B4000
  revision := s.getF rBcFuseId BcFuseId.impl_step
  subsys := (s.mgmt.running.map (·.subsys)).getD 0

/-- What function `i` of a port reports: PF 0 its own, a VF that exists the same but for its Device ID (R338, R339). -/
def fnId (s : State) (p i : Nat) : Option FnId :=
  let x := getP s p
  x.ident.bind (fun d =>
    if i = 0 then some d else if x.vfEnable ∧ i ≤ x.numVfs then some { d with device := 0x9193 } else none)

/-- Configuration space is ready, and the instances with it once stage S6 has ended (R350). -/
def execPortReady (p : Fin 16) (s : State) : Host.Outcome State Fault Refusal :=
  .next (if !hostPortMode s p || (getP s p).perst || s.getF rBcBootStatus BcBootStatus.stage < 3 then s
    else updP s p (fun x => { x with cfgReady := true, ident := some (pfId s) }))

def execPerstDeassertion (p : Fin 16) (s : State) : Host.Outcome State Fault Refusal :=
  .next (if (getP s p).perst then updP s p (fun x => { x with perst := false }) else s)

/-- Widths and speeds a link reaches, within what its octets give (R336, R337). -/
def widthOk (s : State) (p w : Nat) : Bool :=
  [1, 2, 4, 8].contains w || (w == 16 && s.getF (rHpOctCfg (octUid (2 * p))) HpOctCfg.width == 1)

def execDataLinkUp (p : Fin 16) (width : Fin 32) (speed : Fin 8) (flit : Bool) (s : State) : Host.Outcome State Fault Refusal :=
  let r := rHpPortStatus (portUid p)
  .next (if !hostPortMode s p || (getP s p).perst || portLinkUp s p || !widthOk s p width || speed.val = 0 || speed.val = 7 ||
      (speed.val = 6 && !flit) then s
    else
      let auto := s.getB (rHpPortCtrl (portUid p)) HpPortCtrl.auto_release
      let s := s.putR r (setFld (setFld (setFld (setFld (s.getR r) HpPortStatus.width width) HpPortStatus.speed speed)
        HpPortStatus.flit (ofBool flit)) HpPortStatus.link_up 1)
      updP s p (fun x => { x with
        tagMode := if flit then .flit else if x.tagMode = .ten then .ten else .eight, progress := s.time
        autoArmed := x.autoArmed && auto }))

/-! ### MSI-X and configuration writes -/

def execMsixVectorSend (p : Fin 16) (i : Fin 64) (v : Fin 1024) (s : State) : Host.Outcome State Fault Refusal :=
  .next (if mget false ((getP s p).fn i).pba v && msixCanSend s p i v then msixMessage s p i v else s)

/-- Bytes of a PCIe size code. -/
def sizeOf3 (c : BitVec 3) : Nat := 128 * 2 ^ c.toNat

/-- A configuration write (R337, R339, R343, R347, R355): NumVFs only while VF Enable = 0, and the shares follow VF Enable. -/
def execConfigurationWrite (p : Fin 16) (i : Fin 64) (w : CfgWrite) (s : State) : Host.Outcome State Fault Refusal :=
  let x := getP s p
  let fn (f : Fn → Fn) : State := updP s p (fun x => x.setFn i (f (x.fn i)))
  .next (if !hostPortMode s p || !x.cfgReady || (x.fn i).resetting || (i.val ≠ 0 && x.share ≤ i.val) then s
    else
      match w with
      | .numVfs n => if i.val = 0 ∧ !x.vfEnable ∧ n ≤ 63 then updP s p (fun x => { x with numVfs := n }) else s
      | .vfEnable b =>
        if i.val ≠ 0 || b == x.vfEnable then s
        else if b then updP s p (fun x => { x with vfEnable := true, share := shareOf x.numVfs })
        else
          let s := ((List.range x.share).filter (· ≠ 0)).foldl (fun s k => resetInst s p k) s
          updP s p (fun x => { x with vfEnable := false, share := 1, fns := x.fns.filter (fun e => e.1 == 0) })
      | .relaxedOrdering b => fn (fun f => { f with ro := b })
      | .d3hot b =>
        let s' := fn (fun f => { f with d3hot := b })
        if b then masterOff s' p i else if masterOn s' p i then masterBack s' p i else s'
      | .maxPayload c => if c.toNat ≤ 2 then fn (fun f => { f with mps := sizeOf3 c }) else s
      | .maxReadRequest c => if c.toNat ≤ 5 then fn (fun f => { f with mrrs := sizeOf3 c }) else s
      | .msixEnable b => msixRelease (fn (fun f => { f with msixEn := b })) p i
      | .functionMask b => msixRelease (fn (fun f => { f with fmask := b })) p i
      | .tenBitTags b =>
        if i.val = 0 ∧ x.tagMode ≠ .flit ∧ x.reqs.isEmpty then updP s p (fun x => { x with tagMode := if b then .ten else .eight }) else s)

end Sys2Proof.Machine
end

