-- ==== Sys2Proof/Machine/Move.lean ====
section
/-! DEFINITION. The move engines (R380 to R384, R394): elements, the move opcodes, scatter-gather lists, and check mismatches of
either kind of engine. -/

namespace Sys2Proof.Machine

/-! ### CRC (R124, R381) -/

/-- The reflected polynomial of a CRC kind: 0 CRC-32C, 1 CRC-64. -/
def crcPoly (k : Bool) : Nat := if k then 0xC96C5795D7870F42 else 0x82F63B78

def crcBits (poly : Nat) : Nat → Nat → Nat
  | 0, c => c
  | n + 1, c => crcBits poly n (if c % 2 = 1 then c / 2 ^^^ poly else c / 2)

/-- Fold bytes into a remainder, least significant bit first. -/
def crcFold (k : Bool) (c : Nat) (bs : List Byte) : Nat := bs.foldl (fun c b => crcBits (crcPoly k) 8 (c ^^^ b.toNat)) c

/-! ### Engines that run (R36, R62, R378) -/

/-- An engine stop serves, and its domain passes handshakes. -/
def esRuns (s : State) (f : Nat) : Bool :=
  serving s (esUid f) && esPasses s f

/-- The descriptor has its engine: the one it was given, or another of its kind once that one has left service (R394). -/
def withUnit (s : State) (g : Nat) (d : Desc) : Option (State × Nat) :=
  let f := servingEs s g
  if !esRuns s f then none
  else
    match d.unit with
    | some u => some (s, u)
    | none =>
      if !isKeyOp d.op && !isMoveOp d.op then some (s, chUid f)
      else
        match engPick s f d.op with
        | .on u => some (updDesc s g d.slot (fun d => { d with unit := some u }), u)
        | _ => none

/-- Both engines of a kind are out of service (R394). -/
def noEngine (s : State) (g : Nat) (d : Desc) : Bool :=
  d.unit.isNone && engPick s (servingEs s g) d.op == .out

/-! ### Operands -/

def dSrc (d : Desc) : Nat := d.num 1
def dDst (d : Desc) : Nat := d.num 2
def dEntries (d : Desc) : Nat := fld (d.word 3) ⟨47, 32⟩
def dKind (d : Desc) : Bool := fldB (d.word 3) ⟨32, 32⟩

/-- The length a descriptor moves: its own, or its list's sum. -/
def dLen (d : Desc) : Nat := if d.op = 0x11 ∨ d.op = 0x12 then (d.list.map (·.2)).foldl (· + ·) 0 else fld (d.word 3) ⟨31, 0⟩

def overlap (a n b m : Nat) : Bool := decide (a < b + m) && decide (b < a + n)

/-- What is checked before any data access (R379, R383). -/
def moveCheck (d : Desc) : Option Nat :=
  let n := dLen d
  match d.op with
  | 0x10 => if n = 0 then some 0x0104 else if wraps (dSrc d) n || wraps (dDst d) n then some 0x0202
      else if overlap (dSrc d) n (dDst d) n then some 0x0104 else none
  | 0x16 => if n = 0 then some 0x0104 else if wraps (dSrc d) n || wraps (dDst d) n then some 0x0202
      else if overlap (dSrc d) n (dDst d) n then some 0x0104 else none
  | 0x13 => if n = 0 then some 0x0104 else if wraps (dDst d) n then some 0x0202 else none
  | 0x14 => if n = 0 then some 0x0104 else if wraps (dSrc d) n then some 0x0202 else none
  | 0x15 => if n = 0 then some 0x0104 else if wraps (dSrc d) n || wraps (dDst d) n then some 0x0202 else none
  | _ => none

/-- The list's place: of GATHER and TXSG at 0x08, of SCATTER at 0x10. -/
def listAddr (d : Desc) : Nat := if d.op = 0x12 then d.num 2 else d.num 1

def isListOp (op : Nat) : Bool := op == 0x11 || op == 0x12

/-- Entries of a scatter-gather list (R382): address, length, reserved. -/
def listEntries (bs : List Byte) (n : Nat) : List (Nat × Nat × Nat) :=
  (chunks 16 n bs).map (fun e => (ofBytes (e.take 8), ofBytes ((e.drop 8).take 4), ofBytes (e.drop 12)))

/-- A list entry is well formed (R383). -/
def entryGood (e : Nat × Nat × Nat) : Bool := decide (1 ≤ e.2.1) && decide (e.2.1 ≤ 0x1000000) && e.2.2 == 0

/-- The checks of a list and its contiguous range (R379, R383). -/
def listCheck (d : Desc) (es : List (Nat × Nat × Nat)) : Option Nat :=
  let n := (es.map (fun e => e.2.1)).foldl (· + ·) 0
  let c := if d.op = 0x12 then d.num 1 else d.num 2
  if !es.all entryGood then some 0x0104
  else if wraps c n || es.any (fun e => wraps e.1 e.2.1) then some 0x0202
  else if es.any (fun e => overlap e.1 e.2.1 c n) then some 0x0104
  else none

/-- The pieces of a list from an offset, `n` bytes of them. -/
def listSlice : List (Nat × Nat) → Nat → Nat → List (Nat × Nat)
  | [], _, _ => []
  | (a, m) :: es, off, n =>
    if n = 0 then []
    else if m ≤ off then listSlice es (off - m) n
    else
      let k := min n (m - off)
      (a + off, k) :: listSlice es 0 (n - k)

/-- The next element (R380): the ranges it reads and the range it writes. -/
structure Element where
  reads  : List (Nat × Nat)
  writes : List (Nat × Nat)
  len    : Nat
deriving DecidableEq, Repr

def nextElement (d : Desc) : Element :=
  let left := dLen d - d.done
  let at_ (a : Nat) : Nat := min left (4096 - (a + d.done) % 4096)
  match d.op with
  | 0x11 =>
    let n := at_ (dDst d)
    ⟨listSlice d.list d.done n, [(dDst d + d.done, n)], n⟩
  | 0x12 =>
    let (a, m) := (listSlice d.list d.done left).headD (0, 0)
    let n := min m (4096 - a % 4096)
    ⟨[(dSrc d + d.done, n)], [(a, n)], n⟩
  | 0x13 =>
    let n := at_ (dDst d)
    ⟨[], [(dDst d + d.done, n)], n⟩
  | 0x14 =>
    let n := at_ (dSrc d)
    ⟨[(dSrc d + d.done, n)], [], n⟩
  | 0x15 =>
    let n := at_ (dSrc d)
    ⟨[(dSrc d + d.done, n), (dDst d + d.done, n)], [], n⟩
  | _ =>
    let n := at_ (dDst d)
    ⟨[(dSrc d + d.done, n)], [(dDst d + d.done, n)], n⟩

/-- The bytes a FILL writes from an address (R381). -/
def fillBytes (d : Desc) (a n : Nat) : List Byte :=
  let p := toBytes 8 (d.num 4) ++ toBytes 8 (d.num 5)
  (List.range n).map (fun i => p.getD ((a + i) % 16) 0)

/-- The first place two strings differ. -/
def firstDiff : List Byte → List Byte → Nat → Option Nat
  | a :: as, b :: bs, i => if a = b then firstDiff as bs (i + 1) else some i
  | _, _, _ => none

/-- The remainder so far of a CRC descriptor: its initial one before the first element. -/
def crcNow (d : Desc) : Nat :=
  if d.done = 0 then (if dKind d then d.num 4 else d.num 4 % 2 ^ 32) else d.acc

/-- The result of a move that has ended (R381). -/
def moveResult (d : Desc) : Nat :=
  match d.op with
  | 0x14 => d.acc
  | 0x15 => 0xFFFFFFFFFFFFFFFF
  | 0x16 => d.acc
  | _ => d.done

/-- An element is done: the next begins, or the descriptor ends. -/
def elementDone (s : State) (g slot n acc : Nat) : State :=
  let s := updDesc s g slot (fun d => { d with done := d.done + n, acc := acc, stage := 0, tries := 0 })
  match descAt s g slot with
  | some d => if d.done = dLen d then endDesc s g slot 0 (moveResult d) else s
  | none => s

/-- The scatter-gather list is read and checked (R382, R383). -/
def readList (s : State) (g : Nat) (d : Desc) (u lo hi : Nat) : E State :=
  let n := dEntries d
  if n < lo ∨ hi < n then .error (0x0104, s)
  else if wraps (listAddr d) (16 * n) then .error (0x0202, s)
  else do
    match ← gather s g d u [(listAddr d, 16 * n)] with
    | (s, none) => .ok s
    | (s, some bs) =>
      let es := listEntries bs n
      match listCheck d es with
      | some st => .error (st, s)
      | none => .ok (updDesc s g d.slot (fun d => { d with list := es.map (fun e => (e.1, e.2.1)), stage := 0 }))

/-- One element, or the wait for the host's data (R380): an access that fails ends the descriptor before anything of the element
is written. -/
def moveElement (s : State) (g : Nat) (d : Desc) (u : Nat) : E State :=
  if isListOp d.op ∧ d.list.isEmpty then readList s g d u 1 256
  else
    match moveCheck d with
    | some st => .error (st, s)
    | none => do
      let e := nextElement d
      match ← gather s g d u e.reads with
      | (s, none) => .ok s
      | (s, some bs) =>
        match d.op with
        | 0x14 => .ok (elementDone s g d.slot e.len (crcFold (dKind d) (crcNow d) bs))
        | 0x15 =>
          (match firstDiff (bs.take e.len) (bs.drop e.len) 0 with
           | some i => .ok (endDesc s g d.slot 0 (d.done + i))
           | none => .ok (elementDone s g d.slot e.len 0))
        | 0x13 => do
          let s ← scatter s g u (hintOfWord (d.word 6)) e.writes (fillBytes d (dDst d + d.done) e.len)
          .ok (elementDone s g d.slot e.len 0)
        | 0x16 => do
          let s ← scatter s g u (hintOfWord (d.word 6)) e.writes bs
          .ok (elementDone s g d.slot e.len (crcFold (dKind d) (crcNow d) bs))
        | _ => do
          let s ← scatter s g u (hintOfWord (d.word 6)) e.writes bs
          .ok (elementDone s g d.slot e.len 0)

/-- One element of the move descriptor in a slot, on its engine. -/
def moveStep (s : State) (g slot : Nat) : State :=
  match descAt s g slot with
  | none => s
  | some d =>
    if d.status.isSome || !isMoveOp d.op then s
    else if noEngine s g d then endDesc s g slot 0x0502 d.done
    else
      match withUnit s g d with
      | none => s
      | some (s, u) => orEnd g d (moveElement s g d u)

/-- Elements until the descriptor ends or waits. -/
def moveGo : Nat → State → Nat → Nat → State
  | 0, s, _, _ => s
  | n + 1, s, g, slot =>
    match descAt s g slot with
    | none => s
    | some d => if d.status.isSome || (d.stage = 1 && d.waits ≠ 0) then s else moveGo n (moveStep s g slot) g slot

/-- A move descriptor of an opcode runs to its end, or until the host's data is awaited. -/
def moveRun (s : State) (g slot op : Nat) : State :=
  match running? s g slot op with
  | none => s
  | some d => moveGo ((dLen d + fld (d.word 3) ⟨31, 0⟩) / 4096 + 2 * dEntries d + 0x1000 * dEntries d + 4) s g slot

def execDCopy (g : Fin 8192) (slot : Fin 32768) (s : State) : Host.Outcome State Fault Refusal := .next (moveRun s g slot 0x10)
def execDGather (g : Fin 8192) (slot : Fin 32768) (s : State) : Host.Outcome State Fault Refusal := .next (moveRun s g slot 0x11)
def execDScatter (g : Fin 8192) (slot : Fin 32768) (s : State) : Host.Outcome State Fault Refusal := .next (moveRun s g slot 0x12)
def execDFill (g : Fin 8192) (slot : Fin 32768) (s : State) : Host.Outcome State Fault Refusal := .next (moveRun s g slot 0x13)
def execDCrc (g : Fin 8192) (slot : Fin 32768) (s : State) : Host.Outcome State Fault Refusal := .next (moveRun s g slot 0x14)
def execDCompare (g : Fin 8192) (slot : Fin 32768) (s : State) : Host.Outcome State Fault Refusal := .next (moveRun s g slot 0x15)
def execDCopyCrc (g : Fin 8192) (slot : Fin 32768) (s : State) : Host.Outcome State Fault Refusal := .next (moveRun s g slot 0x16)
def execMoveElement (g : Fin 8192) (slot : Fin 32768) (s : State) : Host.Outcome State Fault Refusal := .next (moveStep s g slot)

/-! ### Mismatches (R394) -/

/-- The engine of a stop. -/
def engUid (f : Nat) (key : Bool) (k : Nat) : Nat := if key then keUid (2 * f + k) else meUid (2 * f + k)

/-- The descriptor an engine runs. -/
def engDesc (s : State) (u : Nat) : Option (Nat × Desc) :=
  s.chans.findSome? (fun e => (e.2.flight.find? (fun d => d.unit == some u)).map (fun d => (e.1, d)))

/-- An engine leaves service, for good when it has been restarted before: its program waiting is lost, and its descriptor goes on elsewhere, a move from its last element
boundary and a key operation from its start (R394, R396). -/
def engineOut (s : State) (u cause : Nat) : State :=
  let s := setUnit s u usFailed cause
  let s := if bcUp s && s.mgmt.engRestart.contains u then addWithdrawn (setUnit s u usWithdrawn 0x01) u else s
  let s := { s.putB (rKeUcodeStatus u) KeUcodeStatus.pending false with
    ucode := mput Ucode.init s.ucode u { mget Ucode.init s.ucode u with pending := none, check := false } }
  match engDesc s u with
  | none => s
  | some (g, d) =>
    let s := dropReads s g d.slot
    updDesc s g d.slot (fun d => { d with
      unit := none, stage := 0, waits := 0, bad := 0, tries := 0
      outs := [], result := 0, verdict := 0 })

/-- A check of an element or operation mismatches: it runs once more on the same engine, and a second mismatch takes the engine out
of service. -/
def execEngineMismatch (f : Fin 4) (key : Bool) (k : Fin 2) (s : State) : Host.Outcome State Fault Refusal :=
  let u := engUid f key k
  .next (match engDesc s u with
    | none => s
    | some (g, d) =>
      let s := logRecord s 0x5A u 0 u d.op 0 0
      if d.tries = 0 then updDesc s g d.slot (fun d => { d with tries := 1 })
      else engineOut s u 0x04)

end Sys2Proof.Machine
end

