-- ==== Sys2Proof/Machine/Messages.lean ====
section
/-! DEFINITION. The message deliverer and its service queues (R385 to R387). -/

namespace Sys2Proof.Machine

/-- A service queue as its four words describe it. -/
structure Queue where
  base  : Nat
  esize : Nat                  -- bytes of an entry
  size  : Nat                  -- entries
  tail  : Nat
  phase : Bool
deriving DecidableEq, Repr

def queueOf (s : State) (f q : Nat) : Queue :=
  let u := chUid f
  let w := s.getR (rChSq0 u q)
  ⟨fld w ChSq0.base * 4096, 64 * 2 ^ min 6 (fld w ChSq0.esz), 2 ^ max 4 (fld w ChSq0.log2),
    s.getF (rChSq3 u q) ChSq3.tail, s.getB (rChSq3 u q) ChSq3.phase⟩

/-- The queue is enabled and admits the sender (R385, R386). -/
def queueAdmits (s : State) (f q g : Nat) : Bool :=
  let w := s.getR (rChSq2 (chUid f) q)
  s.getB (rChSq0 (chUid f) q) ChSq0.en &&
    (if isHostChan g then (fld w ChSq2.ports).testBit (chanPort g)
     else fldB w ChSq2.res_ok && fld w ChSq2.group == fld ((getCh s g).word 0) ChControl.group)

def msgQueue (d : Desc) : Nat := fld (d.word 1) ⟨7, 0⟩
def msgLen (d : Desc) : Nat := fld (d.word 1) ⟨31, 16⟩

/-- The payload of MSGI: descriptor bytes 0x10 to 0x3F. -/
def inlineBytes (d : Desc) : List Byte := wordsBytes ((List.range 6).map (fun k => d.word (k + 2)))

/-- The header of an entry (R387). -/
def msgHeader (s : State) (g : Nat) (d : Desc) (phase : Bool) : List Byte :=
  toBytes 8 (ofBool phase + (if isHostChan g then chanInst s g else 0) * 2 ^ 48) ++
    toBytes 8 (g + msgLen d * 0x10000 + fld (d.word 0) Desc.user_tag * 0x100000000)

/-- The bytes of a whole entry. -/
def msgEntry (s : State) (g : Nat) (d : Desc) (x : Queue) (payload : List Byte) : List Byte :=
  let b := msgHeader s g d x.phase ++ payload
  b ++ (List.range (x.esize - b.length)).map (fun i => Config.msgPad payload.length (b.length + i))

/-- The consumer's head word. -/
def queueHead (s : State) (f q : Nat) : E Nat :=
  let a := s.getF (rChSq1 (chUid f) q) ChSq1.head_addr * 8
  if !(physClass s a).isMem then .error (0x0203, engNoTarget s (chUid f) a)
  else (readPlace s (.mem a true) 8).map (fun bs => ofBytes bs % 0x8000)

/-- The entry is written, its first line last; tail moves on and the consumer is woken (R387). -/
def writeMessage (s : State) (f q : Nat) (x : Queue) (bs : List Byte) : E State :=
  let a := x.base + x.esize * x.tail
  if !(physClass s a).isMem then .error (0x0203, engNoTarget s (chUid f) a)
  else if !admits s .normal true a then .error (0x0203, s)
  else
    let w2 := s.getR (rChSq2 (chUid f) q)
    let s := if x.esize = 64 then s else homeWriteBy s (.engine (chUid f)) none (a + 64) (bs.drop 64)
    let hint := if s.getB (rChSq0 (chUid f) q) ChSq0.hint then some (Hint.thread (fld w2 ChSq2.thread)) else none
    let s := placeWrite s (chUid f) (.mem a true) hint (bs.take 64)
    let t := (x.tail + 1) % x.size
    let s := (s.putF (rChSq3 (chUid f) q) ChSq3.tail t).putB (rChSq3 (chUid f) q) ChSq3.phase (if t = 0 then !x.phase else x.phase)
    .ok (if fldB w2 ChSq2.irq_en then sendIrq s (fld w2 ChSq2.thread) (fld w2 ChSq2.vector) (chUid f) else s)

/-- A message that waits for space counts once (R387). -/
def countFull (s : State) (g : Nat) (d : Desc) (f q : Nat) : State :=
  if d.counted then s
  else
    let r := rChSq3 (chUid f) q
    updDesc (s.putR r (satInc (s.getR r) ChSq3.full_waits 1)) g d.slot (fun d => { d with counted := true })

/-- A message whose payload is at hand: refused, held behind earlier messages of its queue or by a full queue, or written. -/
def sendMessage (s : State) (g : Nat) (d : Desc) (payload : List Byte) : E State :=
  let f := d.base
  let q := msgQueue d
  if !queueAdmits s f q g then .error (0x0203, s)
  else
    let x := queueOf s f q
    let first := (s.sqOrder.find? (fun e => e.1 == f * 256 + q)).map (·.2) == some (g, d.slot)
    match queueHead s f q with
    | .error e => if first then .error e else .ok s
    | .ok head =>
      if (x.tail + 1) % x.size = head then .ok (countFull s g d f q)
      else if !first then .ok s
      else (writeMessage s f q x (msgEntry s g d x payload)).map (fun s => endDesc s g d.slot 0 0)

/-- One attempt at a message. -/
def msgAttempt (s : State) (g : Nat) (d : Desc) : E State := do
  let u := chUid (servingEs s g)
  let n := msgLen d
  let limit := if d.op = 0x80 then (queueOf s d.base (msgQueue d)).esize - 16 else 48
  if n = 0 ∨ limit < n then .error (0x0104, s)
  else if d.op = 0x81 then sendMessage s g d ((inlineBytes d).take n)
  else if wraps (d.num 2) n then .error (0x0202, s)
  else
    match ← gather s g d u [(d.num 2, n)] with
    | (s, none) => .ok s
    | (s, some bs) => sendMessage s g d bs

/-- The message descriptor of an opcode in a slot goes on. -/
def msgRun (s : State) (g slot op : Nat) : State :=
  match running? s g slot op with
  | none => s
  | some d => if !esRuns s (servingEs s g) then s else orEnd g d (msgAttempt s g d)

def execMsg (g : Fin 8192) (slot : Fin 32768) (s : State) : Host.Outcome State Fault Refusal := .next (msgRun s g slot 0x80)
def execMsgi (g : Fin 8192) (slot : Fin 32768) (s : State) : Host.Outcome State Fault Refusal := .next (msgRun s g slot 0x81)

/-- The oldest message of a full queue looks at the head word again. -/
def execQueueHeadRecheck (f : Fin 4) (q : Fin 256) (s : State) : Host.Outcome State Fault Refusal :=
  .next (match s.sqOrder.find? (fun e => e.1 == f.val * 256 + q.val) with
    | none => s
    | some (_, g, slot) =>
      match descAt s g slot with
      | some d => if d.counted then msgRun s g slot d.op else s
      | none => s)

/-- A write of word 0 of CH_SQ_q: one that sets en starts the queue afresh (R385). -/
def writeQueue0 (s : State) (f q : Nat) (v : Word) : State :=
  let s := s.putR (rChSq0 (chUid f) q) (v &&& 0x000FFFFFFFFFFFF3)
  if fldB v ChSq0.en then
    (s.putF (rChSq3 (chUid f) q) ChSq3.tail 0).putB (rChSq3 (chUid f) q) ChSq3.phase true
  else s

def execServiceQueueEnable (r : Requester) (f : Fin 4) (q : Fin 256) (v : Word) (s : State) : Host.Outcome State Fault Refusal :=
  .next (if notHost r && blockUp s (chUid f) && fldB v ChSq0.en then writeQueue0 s f q v else s)

end Sys2Proof.Machine
end

