-- ==== Sys2Proof/Machine/Keys.lean ====
section
/-! DEFINITION. The key engines (R388 to R397): operands and their limits, slot and open keys, the checks of R391, the operations, and
program stores. The functions of the standards R390 names are Config constants; RSA is computed. -/

namespace Sys2Proof.Machine

/-! ### Operands (R388) -/

def kSrcLen (d : Desc) : Nat := fld (d.word 3) ⟨31, 0⟩
def kDstLen (d : Desc) : Nat := fld (d.word 3) ⟨63, 32⟩
def kSlot (d : Desc) : Nat := fld (d.word 4) ⟨12, 0⟩
def kAux (d : Desc) : Nat := fld (d.word 6) ⟨31, 16⟩
def kVerify (d : Desc) : Bool := fldB (d.word 6) ⟨9, 9⟩
def kDec (d : Desc) : Bool := fldB (d.word 6) ⟨8, 8⟩
def kVar (d : Desc) : Nat := fld (d.word 6) ⟨7, 0⟩
def kSlot2 (d : Desc) : Nat := fld (d.word 7) ⟨12, 0⟩

/-! ### Sizes of R390 -/

def hashLen (v : Nat) : Nat := [28, 32, 48, 64].getD v 0
def modLen (v : Nat) : Nat := [256, 384, 512].getD v 0
def fieldLen (v : Nat) : Nat := [32, 48, 66].getD v 0
def ekLen (v : Nat) : Nat := [1184, 1568].getD v 0
def dkLen (v : Nat) : Nat := [2400, 3168].getD v 0
def ctLen (v : Nat) : Nat := [1088, 1568].getD v 0
def pkLen (v : Nat) : Nat := [1952, 2592].getD v 0
def skLen (v : Nat) : Nat := [4032, 4896].getD v 0
def sigLen (v : Nat) : Nat := [3309, 4627].getD v 0
/-- The block of an ISO 9564 format. -/
def pinBlock (fmt : Nat) : Nat := if fmt = 4 then 16 else 8

/-- The bytes an operation writes; none where its lengths or variant lie outside the limits of R390. -/
def outLen (d : Desc) : Option Nat :=
  let n := kSrcLen d
  let v := kVar d
  let if_ (c : Bool) (x : Nat) : Option Nat := if c then some x else none
  match d.op with
  | 0x40 => if_ (decide (v ≤ 2) && n % 16 == 0) n
  | 0x41 => if_ (decide (v ≤ 2) && decide (16 ≤ n) && n % 16 == 0) (n - 16)
  | 0x42 => if_ (decide (v ≤ 2) && decide (16 ≤ n)) (n - 16)
  | 0x43 =>
    let fixed := 12 + kAux d + (if kDec d then 16 else 0)
    if_ (decide (v ≤ 2) && decide (fixed ≤ n)) (n - fixed + (if kDec d then 0 else 16))
  | 0x44 => if_ (decide (v ≤ 2) && (!kVerify d || decide (16 ≤ n))) (if kVerify d then 0 else 16)
  | 0x45 => if_ (decide (v ≤ 1) && n % 8 == 0 && (v == 0 || decide (8 ≤ n))) (if v = 1 then n - 8 else n)
  | 0x48 => if_ (decide (v ≤ 3)) (hashLen v)
  | 0x49 => if_ (decide (v ≤ 3)) (hashLen v)
  | 0x4A => if_ (decide (1 ≤ v) && decide (v ≤ 3) && (!kVerify d || decide (hashLen v ≤ n))) (if kVerify d then 0 else hashLen v)
  | 0x4F => if_ (v == 0 && n == 0 && decide (1 ≤ kDstLen d) && decide (kDstLen d ≤ 65536)) (kDstLen d)
  | 0x50 => if_ (decide (v ≤ 2) && n == modLen v) (modLen v)
  | 0x51 => if_ (decide (v ≤ 2) && n == modLen v) (modLen v)
  | 0x54 => if_ (decide (v ≤ 2) && decide (1 ≤ n) && decide (n ≤ 64)) (2 * fieldLen v)
  | 0x55 => if_ (decide (v ≤ 2) && decide (2 * fieldLen v < n) && decide (n ≤ 2 * fieldLen v + 64)) 0
  | 0x56 => if_ (decide (v ≤ 2) && n == 1 + 2 * fieldLen v) (fieldLen v)
  | 0x57 => if_ (v == 0) 64
  | 0x58 => if_ (v == 0 && decide (64 ≤ n)) 0
  | 0x59 => if_ (v == 0 && n == 32) 32
  | 0x5C => if_ (decide (v ≤ 1) && n == 0) (ctLen v + 32)
  | 0x5D => if_ (decide (v ≤ 1) && n == ctLen v) 32
  | 0x60 => if_ (decide (v ≤ 1) && decide (kAux d ≤ 255) && decide (kAux d ≤ n)) (sigLen v)
  | 0x61 => if_ (decide (v ≤ 1) && decide (kAux d ≤ 255) && decide (sigLen v + kAux d ≤ n)) 0
  | 0x68 => if_ ([0, 1, 3, 4].contains (v % 16) && [0, 1, 3, 4].contains (v / 16) &&
      n == pinBlock (v % 16) + Config.panLen v) (pinBlock (v / 16))
  | _ => none

/-- The operation writes an output. -/
def writesDst (op : Nat) : Bool := !(op == 0x55 || op == 0x58 || op == 0x61)

/-- A field that the opcode does not use is not zero (R388). -/
def unusedSet (d : Desc) : Bool :=
  let op := d.op
  (!usesKey op && (kOpen d || kSlot d != 0 || d.num 5 != 0)) ||
    (!writesDst op && (d.num 2 != 0 || kDstLen d != 0)) ||
    ((op == 0x4F || op == 0x5C) && d.num 1 != 0) ||
    (!([0x43, 0x60, 0x61].contains op) && kAux d != 0) ||
    (!([0x44, 0x4A].contains op) && kVerify d) ||
    (!([0x40, 0x41, 0x42, 0x43, 0x45].contains op) && kDec d) ||
    (op != 0x68 && kSlot2 d != 0)

/-- Length of the open key (R390). -/
def openLen (d : Desc) : Nat :=
  let v := kVar d
  if 0x40 ≤ d.op ∧ d.op ≤ 0x44 then 16 + 8 * v
  else
    match d.op with
    | 0x45 => 24
    | 0x4A => max 16 (min 128 (Config.hmacKeyLen v))
    | 0x50 => 5 * (modLen v / 2)
    | 0x51 => modLen v + 4
    | 0x54 => fieldLen v
    | 0x55 => 1 + 2 * fieldLen v
    | 0x56 => fieldLen v
    | 0x57 => 64
    | 0x58 => 32
    | 0x59 => 32
    | 0x5C => ekLen v
    | 0x5D => dkLen v
    | 0x60 => skLen v
    | 0x61 => pkLen v
    | _ => 0

/-- What is checked at the start, from the descriptor alone (R379, R391). -/
def keyBefore (d : Desc) : Option Nat :=
  if unusedSet d then some 0x0101
  else
    match outLen d with
    | none => some 0x0104
    | some n =>
      if writesDst d.op && decide (kDstLen d < n) then some 0x0104
      else if wraps (d.num 1) (kSrcLen d) || wraps (d.num 2) n || (kOpen d && wraps (d.num 5) (openLen d)) then some 0x0202
      else none

/-! ### Slots (R389, R449) -/

/-- The slot type an operation's key has. -/
def slotType (d : Desc) : Nat :=
  let v := kVar d
  if 0x40 ≤ d.op ∧ d.op ≤ 0x44 then 1 + v
  else
    match d.op with
    | 0x45 => 4
    | 0x4A => 5
    | 0x50 => 8 + v
    | 0x51 => 8 + v
    | 0x54 => 12 + v
    | 0x55 => 12 + v
    | 0x56 => 12 + v
    | 0x57 => 16
    | 0x58 => 16
    | 0x59 => 17
    | 0x5C => 20 + v
    | 0x5D => 20 + v
    | 0x60 => 24 + v
    | _ => 24 + v

/-- The usage bit an operation needs (R449). -/
def usageBit (d : Desc) : Nat :=
  if [0x40, 0x41, 0x42, 0x43, 0x45].contains d.op then (if kDec d then 1 else 0)
  else if d.op = 0x44 ∨ d.op = 0x4A then (if kVerify d then 3 else 2)
  else if [0x50, 0x54, 0x57, 0x60].contains d.op then 2
  else if [0x51, 0x55, 0x58, 0x61].contains d.op then 3
  else if [0x56, 0x59, 0x5D].contains d.op then 4
  else if d.op = 0x68 then 5
  else 0

/-- The operation works on the public part of its key. -/
def publicOp (op : Nat) : Bool := [0x51, 0x55, 0x58, 0x5C, 0x61].contains op

/-- Where a slot lies: 8 KiB of the table in secure local DRAM (R448). -/
def slotPlace (s : State) (n : Nat) : Nat := s.getF rVltSlotBase VltSlotBase.base * 0x4000000 + 0x2000 * n

/-- A slot as it is sealed. -/
def sealedBytes (s : State) (n : Nat) (x : Option Slot) : List Byte :=
  (List.range 0x2000).map (Config.sealByte s.vault.gen n (x.map (fun k => (k.type, k.usage, k.key))))

/-- The vault opens a slot: from the keys it holds opened, or from memory where the sealed form still stands (R448). -/
def openSlot (s : State) (n : Nat) : Option Slot :=
  (mfind s.vault.slots n).filter (fun k =>
    s.vault.opened.contains n ||
      ((linesOf (slotPlace s n) 0x2000).all (fun l => !poisoned s (l * 64)) &&
        readBytes s (slotPlace s n) 0x2000 == sealedBytes s n (some k)))

/-- The slots of a descriptor are among those the vault holds opened. -/
def keepOpen (s : State) (g : Nat) (d : Desc) : State :=
  let base := fld ((getCh s g).word 6) ChKeyWin.ks_base
  let ns := if kOpen d || !usesKey d.op then [] else if d.op = 0x68 then [base + kSlot d, base + kSlot2 d] else [base + kSlot d]
  let ns := ns.filter (fun n => (openSlot s n).isSome)
  { s with vault := { s.vault with opened := (ns ++ s.vault.opened.filter (fun n => !ns.contains n)).take 64 } }

/-- The key of a slot of the channel's window, for a type and a usage bit; none where it is refused. -/
def slotKey (s : State) (g n : Nat) (type : Nat → Bool) (use : Nat) : Option (List Byte) :=
  let w := (getCh s g).word 6
  if fld w ChKeyWin.ks_count ≤ n ∨ !s.vault.mkValid ∨ s.getB rVltDbgEn VltDbgEn.sec_inv ∨ !blockUp s uidVault then none
  else
    match openSlot s (fld w ChKeyWin.ks_base + n) with
    | none => none
    | some k => if type k.type && k.usage.testBit use then some k.key else none

/-- The slot types of a PIN format: TDEA, or AES for format 4 (R390). -/
def pinType (fmt t : Nat) : Bool := if fmt = 4 then t == 1 || t == 2 || t == 3 else t == 4

/-- The slot keys of an operation; none where one is refused, or a PIN translation names an open key. -/
def slotKeys (s : State) (g : Nat) (d : Desc) : Option (List Byte × List Byte) :=
  if d.op = 0x68 then
    if kOpen d then none
    else
      match slotKey s g (kSlot d) (pinType (kVar d % 16)) 5, slotKey s g (kSlot2 d) (pinType (kVar d / 16)) 6 with
      | some a, some b => some (a, b)
      | _, _ => none
  else if kOpen d || !usesKey d.op then some ([], [])
  else
    (slotKey s g (kSlot d) (· == slotType d) (usageBit d)).map (fun k =>
      (if publicOp d.op then Config.publicPart (slotType d) k else k, []))

/-! ### RSA (R390) -/

/-- A big-endian integer and its bytes. -/
def beNat (bs : List Byte) : Nat := ofBytes bs.reverse
def beBytes (n v : Nat) : List Byte := (toBytes n v).reverse

/-- b^e mod m over the bits of e, `n` of them. -/
def powMod (b m : Nat) : Nat → Nat → Nat → Nat
  | 0, _, acc => acc
  | n + 1, e, acc => powMod b m n e (let a := acc * acc % m; if e.testBit n then a * b % m else a)

def rsaParts (v : Nat) (k : List Byte) : List Nat := (chunks (modLen v / 2) 5 k).map beNat

/-- An RSA private key that is refused: p or q even, or a component at or above its modulus (R391). -/
def rsaBad (v : Nat) (k : List Byte) : Bool :=
  match rsaParts v k with
  | [p, q, dp, dq, qi] => p % 2 == 0 || q % 2 == 0 || decide (p ≤ dp) || decide (q ≤ dq) || decide (p ≤ qi)
  | _ => true

def rsaModulus (v : Nat) (k : List Byte) : Nat :=
  match rsaParts v k with
  | p :: q :: _ => p * q
  | _ => 0

/-- RSADP by the two primes. -/
def rsaPrivate (v : Nat) (k : List Byte) (c : Nat) : Nat :=
  match rsaParts v k with
  | [p, q, dp, dq, qi] =>
    let bits := 4 * modLen v
    let m1 := powMod (c % p) p bits dp 1
    let m2 := powMod (c % q) q bits dq 1
    let h := qi * (m1 + p - m2 % p) % p
    m2 + q * h
  | _ => 0

/-! ### The checks reported at the end (R391) -/

def zeroOrAbove (n v : Nat) : Bool := v == 0 || decide (n ≤ v)

/-- A list cut or filled with zero to a length. -/
def fitLen (n : Nat) (l : List Byte) : List Byte := (l ++ List.replicate n 0).take n

/-- Public values that make the input invalid, 0x0410. -/
def publicBad (d : Desc) (key src : List Byte) (haveKey : Bool) : Bool :=
  let v := kVar d
  let n := fieldLen v
  match d.op with
  | 0x50 => haveKey && !rsaBad v key && decide (rsaModulus v key ≤ beNat src)
  | 0x51 => haveKey && decide (beNat (key.take (modLen v)) ≤ beNat src)
  | 0x55 => zeroOrAbove (Config.groupOrder v) (beNat (src.take n)) ||
      zeroOrAbove (Config.groupOrder v) (beNat ((src.drop n).take n)) || (haveKey && !Config.pointOk v key)
  | 0x56 => !Config.pointOk v src
  | 0x58 => !Config.edOk (src.take 32) || (haveKey && !Config.edOk key) ||
      decide (Config.groupOrder 3 ≤ ofBytes ((src.drop 32).take 32))
  | 0x59 => haveKey && (fitLen 32 (Config.keyOut ⟨d.op, 0, false, 0, 0, key, [], src⟩)).all (· == 0)
  | 0x5C => haveKey && !Config.ekOk v key
  | _ => false

/-- A key or PIN block that is refused, 0x0401. -/
def keyRefused (d : Desc) (key src : List Byte) : Bool :=
  let v := kVar d
  match d.op with
  | 0x50 => rsaBad v key
  | 0x54 => zeroOrAbove (Config.groupOrder v) (beNat key)
  | 0x56 => zeroOrAbove (Config.groupOrder v) (beNat key)
  | 0x5D => !Config.dkOk v key
  | 0x68 => !Config.pinOk v key src
  | _ => false

/-! ### The operations (R390, R392) -/

/-- The operation draws on the vault DRBG. -/
def drawsRandom (op : Nat) : Bool := op == 0x4F || op == 0x54 || op == 0x5C || op == 0x60

/-- Symmetric and hash operations write dst as they go (R390). -/
def streams (op : Nat) : Bool := decide (0x40 ≤ op) && decide (op ≤ 0x4A)

/-- The output of an operation on a key and input that pass. -/
def keyOutput (s : State) (d : Desc) (n : Nat) (key key2 src : List Byte) : List Byte :=
  let v := kVar d
  match d.op with
  | 0x4F => (List.range n).map (fun i => Config.drbg s.vault.drbg i)
  | 0x50 => beBytes n (rsaPrivate v key (beNat src))
  | 0x51 =>
    let m := beNat (key.take (modLen v))
    beBytes n (powMod (beNat src % m) m 32 (beNat (key.drop (modLen v))) 1)
  | _ => fitLen n (Config.keyOut ⟨d.op, v, kDec d || kVerify d, kAux d, if drawsRandom d.op then s.vault.drbg else 0, key, key2, src⟩)

/-- A verify operation, or the tag check of AES-GCM decryption. -/
def verifies (d : Desc) : Bool := kVerify d || [0x55, 0x58, 0x61].contains d.op || (d.op == 0x43 && kDec d)

/-- The inputs are read: the operation computes, and keeps its outcome for its end (R391, R392). -/
def keyCompute (s : State) (g : Nat) (d : Desc) (src openKey : List Byte) : State :=
  let n := (outLen d).getD 0
  let have_ := d.keys.isSome
  let k := d.keys.getD ([], [])
  let key := if kOpen d then openKey else k.1
  let done (s : State) (st verdict : Nat) (out : List Byte) : State :=
    updDesc s g d.slot (fun d => { d with stage := 3, waits := 0, result := st, verdict := verdict, outs := out })
  if publicBad d key src have_ then done s 0x0410 0 []
  else if !have_ || keyRefused d key src then done s 0x0401 0 []
  else
    let out := keyOutput s d n key k.2 src
    let ok := Config.keyVerdict d.op (kVar d) (kAux d) key src
    let out := if d.op = 0x43 ∧ kDec d ∧ !ok then List.replicate n 0 else out
    let s := if drawsRandom d.op then { s with vault := { s.vault with drbg := s.vault.drbg + 1 } } else s
    done s 0 (ofBool (verifies d && ok)) out

/-- A key operation begins, or goes on once its inputs are in: an input that cannot be read is reported at its end. -/
def keyAttempt (s : State) (g : Nat) (d : Desc) (u : Nat) : State :=
  if d.stage = 3 then s
  else
    match (if d.stage = 0 then keyBefore d else none) with
    | some st => endDesc s g d.slot st 0
    | none =>
      let ks := if d.stage = 0 then slotKeys s g d else d.keys
      let s := updDesc (if d.stage = 0 then keepOpen s g d else s) g d.slot (fun d => { d with keys := ks })
      let d := { d with keys := ks }
      let rs := [(d.num 1, kSrcLen d)] ++ (if kOpen d ∧ d.op ≠ 0x68 then [(d.num 5, openLen d)] else [])
      match gather s g d u rs with
      | .error (st, s) => updDesc s g d.slot (fun d => { d with stage := 3, waits := 0, result := st, verdict := 0, outs := [] })
      | .ok (s, none) => s
      | .ok (s, some bs) => keyCompute s g d (bs.take (kSrcLen d)) (bs.drop (kSrcLen d))

/-- The key descriptor of an opcode in a slot, on its engine. -/
def keyRun (s : State) (g slot op : Nat) : State :=
  match running? s g slot op with
  | none => s
  | some d =>
    if noEngine s g d then endDesc s g slot 0x0502 0
    else
      match withUnit s g d with
      | none => s
      | some (s, u) => keyAttempt s g d u

def execAesEcb (g : Fin 8192) (slot : Fin 32768) (s : State) : Host.Outcome State Fault Refusal := .next (keyRun s g slot 0x40)
def execAesCbc (g : Fin 8192) (slot : Fin 32768) (s : State) : Host.Outcome State Fault Refusal := .next (keyRun s g slot 0x41)
def execAesCtr (g : Fin 8192) (slot : Fin 32768) (s : State) : Host.Outcome State Fault Refusal := .next (keyRun s g slot 0x42)
def execAesGcm (g : Fin 8192) (slot : Fin 32768) (s : State) : Host.Outcome State Fault Refusal := .next (keyRun s g slot 0x43)
def execAesCmac (g : Fin 8192) (slot : Fin 32768) (s : State) : Host.Outcome State Fault Refusal := .next (keyRun s g slot 0x44)
def execTdea (g : Fin 8192) (slot : Fin 32768) (s : State) : Host.Outcome State Fault Refusal := .next (keyRun s g slot 0x45)
def execSha2 (g : Fin 8192) (slot : Fin 32768) (s : State) : Host.Outcome State Fault Refusal := .next (keyRun s g slot 0x48)
def execSha3 (g : Fin 8192) (slot : Fin 32768) (s : State) : Host.Outcome State Fault Refusal := .next (keyRun s g slot 0x49)
def execHmac (g : Fin 8192) (slot : Fin 32768) (s : State) : Host.Outcome State Fault Refusal := .next (keyRun s g slot 0x4A)
def execRandom (g : Fin 8192) (slot : Fin 32768) (s : State) : Host.Outcome State Fault Refusal := .next (keyRun s g slot 0x4F)
def execRsaPrivate (g : Fin 8192) (slot : Fin 32768) (s : State) : Host.Outcome State Fault Refusal := .next (keyRun s g slot 0x50)
def execRsaPublic (g : Fin 8192) (slot : Fin 32768) (s : State) : Host.Outcome State Fault Refusal := .next (keyRun s g slot 0x51)
def execEcdsaSign (g : Fin 8192) (slot : Fin 32768) (s : State) : Host.Outcome State Fault Refusal := .next (keyRun s g slot 0x54)
def execEcdsaVerify (g : Fin 8192) (slot : Fin 32768) (s : State) : Host.Outcome State Fault Refusal := .next (keyRun s g slot 0x55)
def execEcdh (g : Fin 8192) (slot : Fin 32768) (s : State) : Host.Outcome State Fault Refusal := .next (keyRun s g slot 0x56)
def execEd25519Sign (g : Fin 8192) (slot : Fin 32768) (s : State) : Host.Outcome State Fault Refusal := .next (keyRun s g slot 0x57)
def execEd25519Verify (g : Fin 8192) (slot : Fin 32768) (s : State) : Host.Outcome State Fault Refusal :=
  .next (keyRun s g slot 0x58)
def execX25519 (g : Fin 8192) (slot : Fin 32768) (s : State) : Host.Outcome State Fault Refusal := .next (keyRun s g slot 0x59)
def execMlKemEncapsulate (g : Fin 8192) (slot : Fin 32768) (s : State) : Host.Outcome State Fault Refusal :=
  .next (keyRun s g slot 0x5C)
def execMlKemDecapsulate (g : Fin 8192) (slot : Fin 32768) (s : State) : Host.Outcome State Fault Refusal :=
  .next (keyRun s g slot 0x5D)
def execMlDsaSign (g : Fin 8192) (slot : Fin 32768) (s : State) : Host.Outcome State Fault Refusal := .next (keyRun s g slot 0x60)
def execMlDsaVerify (g : Fin 8192) (slot : Fin 32768) (s : State) : Host.Outcome State Fault Refusal :=
  .next (keyRun s g slot 0x61)
def execPinTranslate (g : Fin 8192) (slot : Fin 32768) (s : State) : Host.Outcome State Fault Refusal :=
  .next (keyRun s g slot 0x68)

/-- The fixed duration ends: outputs are written, or the refusal is reported (R390 to R392). An operation that was cut writes none of
what it holds back; a symmetric or hash operation has written as it went. -/
def keyEnd (s : State) (g : Nat) (d : Desc) (u : Nat) : State :=
  let st := d.endAs.getD d.result
  if d.result ≠ 0 ∨ (d.endAs.isSome ∧ !streams d.op) then endDesc s g d.slot st 0
  else
    match scatter s g u none [(d.num 2, d.outs.length)] d.outs with
    | .error (e, s) => endDesc s g d.slot (d.endAs.getD e) 0
    | .ok s => endDesc s g d.slot st (d.outs.length + d.verdict * 0x100000000)

def execKeyOperationEnd (g : Fin 8192) (slot : Fin 32768) (s : State) : Host.Outcome State Fault Refusal :=
  .next (match descAt s g slot with
    | none => s
    | some d =>
      if d.status.isSome || !isKeyOp d.op || d.stage ≠ 3 then s
      else
        match withUnit s g d with
        | none => s
        | some (s, u) => keyEnd s g d u)

/-! ### Engine restart (R394, R484) -/

/-- Base camp restarts a failed engine, once: off, then starting; its self-test then ends well, or withdraws it. -/
def execEngineRestart (f : Fin 4) (key : Bool) (k : Fin 2) (selfTest : Option Bool) (s : State) : Host.Outcome State Fault Refusal :=
  let u := engUid f key k
  let st := stateOf s u
  .next (match selfTest with
    | none =>
      if !bcUp s || st ≠ usFailed || s.getF (rUnitState u) UnitState.cause ≠ 0x04 || !serving s (esUid f) then s
      else if s.mgmt.engRestart.contains u then addWithdrawn (setUnit s u usWithdrawn 0x01) u
      else
        let s := { s with mgmt := { s.mgmt with engRestart := s.mgmt.engRestart ++ [u] } }
        setUnit (setUnit s u usOff 0x01) u usStarting 0x01
    | some ok =>
      if st ≠ usStarting || !s.mgmt.engRestart.contains u then s
      else if ok && holdersUp s u then setUnit s u usInService 0x02
      else addWithdrawn (setUnit (setUnit s u usFailed 0x06) u usWithdrawn 0x01) u)

/-! ### Program stores (R395, R396) -/

def getU (s : State) (u : Nat) : Ucode := mget Ucode.init s.ucode u
def updU (s : State) (u : Nat) (f : Ucode → Ucode) : State := { s with ucode := mput Ucode.init s.ucode u (f (getU s u)) }

/-- Writes of KE_UCODE registers are accepted only from trusted-world threads, those of the active group (R395, R443). -/
def mayUcode (s : State) (r : Requester) (u : Nat) : Bool := blockUp s u && mayVault s r

def ucodeRefuse (s : State) (u reason : Nat) : State :=
  (s.putB (rKeUcodeStatus u) KeUcodeStatus.refused true).putF (rKeUcodeStatus u) KeUcodeStatus.reason reason

def ucodeStage (s : State) (u w : Nat) (v : Word) : State :=
  if (getU s u).pending.isSome then ucodeRefuse s u 3 else updU s u (fun x => { x with staged := mput 0 x.staged w v })

def ucodeDiscard (s : State) (u : Nat) : State :=
  (updU s u (fun x => { x with pending := none })).putB (rKeUcodeStatus u) KeUcodeStatus.pending false

/-- A write of KE_UCODE_CTRL: its fields, then discard, then commit. -/
def writeUcodeCtrl (s : State) (u : Nat) (v : Word) : State :=
  let s := s.putR (rKeUcodeCtrl u) (v &&& 0xFFFFFFFF3FFF0004)
  let s := if fldB v KeUcodeCtrl.discard then ucodeDiscard s u else s
  if !fldB v KeUcodeCtrl.commit then s
  else
    let n := fld v KeUcodeCtrl.len_words
    if n = 0 ∨ 8192 < n then ucodeRefuse s u 2 else updU s u (fun x => { x with check := true })

def execUcodeStageWrite (r : Requester) (f : Fin 4) (k : Fin 2) (w : Fin 8192) (v : Word) (s : State) :
    Host.Outcome State Fault Refusal :=
  .next (if mayUcode s r (engUid f true k) then ucodeStage s (engUid f true k) w v else s)

def execUcodeCommit (r : Requester) (f : Fin 4) (k : Fin 2) (v : Word) (s : State) : Host.Outcome State Fault Refusal :=
  .next (if mayUcode s r (engUid f true k) && fldB v KeUcodeCtrl.commit then writeUcodeCtrl s (engUid f true k) v else s)

def execUcodeDiscard (r : Requester) (f : Fin 4) (k : Fin 2) (v : Word) (s : State) : Host.Outcome State Fault Refusal :=
  .next (if mayUcode s r (engUid f true k) && fldB v KeUcodeCtrl.discard then writeUcodeCtrl s (engUid f true k) v else s)

/-- The staged image's words. -/
def stagedWords (s : State) (u : Nat) : List Word :=
  (List.range (s.getF (rKeUcodeCtrl u) KeUcodeCtrl.len_words)).map (fun i => mget 0 (getU s u).staged i)

def execUcodeCheckDone (f : Fin 4) (k : Fin 2) (s : State) : Host.Outcome State Fault Refusal :=
  let u := engUid f true k
  .next (if !(getU s u).check then s
    else
      let s := updU s u (fun x => { x with check := false })
      let ws := stagedWords s u
      let digest := wordsBytes ((List.range 6).map (fun i => s.getR (rKeUcodeDigest u i)))
      if Config.sha384 (wordsBytes ws) = digest then
        (updU s u (fun x => { x with pending := some ws })).putB (rKeUcodeStatus u) KeUcodeStatus.pending true
      else ucodeRefuse s u 1)

/-- An engine takes a program: its version, and one more applied. -/
def takeProgram (s : State) (u version : Nat) (ws : List Word) : State :=
  let r := rKeUcodeStatus u
  let s := updU s u (fun x => { x with active := ws })
  s.putR r (setFld (wrapInc (s.getR r) KeUcodeStatus.gen) KeUcodeStatus.active_version version)

/-- At an operation boundary of the engine, or of both engines of the stop. -/
def execUcodeApply (f : Fin 4) (k : Fin 2) (s : State) : Host.Outcome State Fault Refusal :=
  let u := engUid f true k
  .next (match (getU s u).pending with
    | none => s
    | some ws =>
      let both := s.getB (rKeUcodeCtrl u) KeUcodeCtrl.apply_both
      let us := if both then [engUid f true 0, engUid f true 1] else [u]
      if us.any (engBusy s) then s
      else
        let v := s.getF (rKeUcodeCtrl u) KeUcodeCtrl.version
        us.foldl (fun s e => measExtend (takeProgram s e v ws) 4 4 (Config.sha384 (wordsBytes ws))) (ucodeDiscard s u))

end Sys2Proof.Machine
end

