-- ==== Sys2Proof/Machine/Instances.lean ====
section
/-! DEFINITION. Host instances (chapter 17): floors, the mailbox, quiesce, freeze, reset and resume, the write log, and the migration
image. -/

namespace Sys2Proof.Machine

/-- HP_INST_STATUS as read (R341). -/
def instStatus (s : State) (p i : Nat) : Word :=
  let x := getP s p
  let held := i < x.share
  let st := s.getF (rHpInstMgmt (portUid p) i) HpInstMgmt.state
  let f (w : Word) (a : Fld) (v : Nat) : Word := setFld w a v
  let w : Word := 1
  let w := f w HpInstStatus.tag_count (if held then tagTotal x.tagMode / x.share else 0)
  let w := f w HpInstStatus.vec_count (if held then vecCount x else 0)
  let w := f w HpInstStatus.chan_count (if held then 256 / x.share else 0)
  let w := f w HpInstStatus.chan_first (if held then i * (256 / x.share) else 0)
  let w := f w HpInstStatus.port p
  let w := f w HpInstStatus.n_log2 (x.share.log2)
  let w := f w HpInstStatus.reset_busy (ofBool (mget false x.busy i || st == 4))
  let w := f w HpInstStatus.me (ofBool (masterOn s p i))
  let w := f w HpInstStatus.quiesced (ofBool (st == 2 || st == 3 || st == 5 || st == 6))
  let w := f w HpInstStatus.frozen (ofBool (portFrozen s p))
  f w HpInstStatus.ready (ofBool (instReady s p i))

/-! ### Floors (R400) -/

/-- A 100 µs window ends: who received less than its share while it wanted service, and who rank 1 served (R414). -/
def execFloorWindow (p : Fin 16) (s : State) : Host.Outcome State Fault Refusal :=
  let x := getP s p
  .next (if s.time < x.winAt + 100000 then s
    else
      let is_ := List.range x.share
      let total := is_.foldl (fun n i => n + (getI s p i).bytes) 0
      let s := is_.foldl (fun s i =>
        let y := getI s p i
        let want := y.wanted || (instChans s p i).any (chanReady s)
        let s := if y.rank1 then instCount s p i 4 1 else s
        updI s p i (fun y => { y with bytes := 0, wanted := false, rank1 := false, low := want && decide (y.bytes * x.share < total) })) s
      updP s p (fun x => { x with winAt := s.time }))

/-! ### The mailbox (R402 to R404) -/

/-- The manager is told of a message or an acknowledgement. -/
def mgrNotify (s : State) (p : Nat) : State :=
  let w := s.getR (rHpMbxNotify (portUid p))
  if !fldB w HpMbxNotify.en then s
  else if mgrRes s p then
    if fld w HpMbxNotify.thread ≤ 383 then sendIrq s (fld w HpMbxNotify.thread) (fld w HpMbxNotify.vector) (portUid p) else s
  else msixEvent s p 0 (fld w HpMbxNotify.msix)

/-- The instance is told. -/
def instNotify (s : State) (p i : Nat) : State :=
  let w := s.getR (rHpMbxCtrl p i)
  if fldB w HpMbxCtrl.irq_en then msixEvent s p i (fld w HpMbxCtrl.vector) else s

/-- Eight words copied from one buffer to its receiver's side: the bytes that stand at the send (R404). -/
def copyBuffer (s : State) (from_ to_ : Nat) : State :=
  (List.range 8).foldl (fun s k => s.putR (to_ + 8 * k) (s.getR (from_ + 8 * k))) s

def winBase (p i : Nat) : Nat := portUid p * 0x100000 + 0x10000 + 256 * i

/-- The instance may write its BAR0: the port is not frozen and no function-level reset runs. -/
def instWrites (s : State) (p i : Nat) : Bool :=
  hostPortMode s p && decide (i < (getP s p).share) && !portFrozen s p && !mget false (getP s p).busy i

def mbxSend (s : State) (p i : Nat) : State :=
  let c := rHpMbxCtrl p i
  if s.getB c HpMbxCtrl.out_full || (i == 0 && !mgrRes s p) then s.putB c HpMbxCtrl.send_refused true
  else
    let s := copyBuffer s (bar0Base p i + 0x1000) (winBase p i)
    let s := (s.putB c HpMbxCtrl.out_full true).putB (rHpMbxMgrCtrl (portUid p) i) HpMbxMgrCtrl.in_full true
    mgrNotify (instCount (s.putF (rHpMbxPend (portUid p)) ⟨i, i⟩ 1) p i 5 1) p

def mbxAck (s : State) (p i : Nat) : State :=
  if !s.getB (rHpMbxCtrl p i) HpMbxCtrl.in_full then s
  else mgrNotify ((s.putB (rHpMbxCtrl p i) HpMbxCtrl.in_full false).putB (rHpMbxMgrCtrl (portUid p) i) HpMbxMgrCtrl.out_full false) p

def execMbxSend (p : Fin 16) (i : Fin 64) (s : State) : Host.Outcome State Fault Refusal :=
  .next (if instWrites s p i then mbxSend s p i else s)

def execMbxAck (p : Fin 16) (i : Fin 64) (s : State) : Host.Outcome State Fault Refusal :=
  .next (if instWrites s p i then mbxAck s p i else s)

/-- The manager of an instance (R403): PF 0 for the VFs while mgr = 0, CTRL holders for all while mgr = 1. -/
def isManager (s : State) (r : Requester) (p i : Nat) : Bool :=
  hostPortMode s p && blockUp s (portUid p) &&
    (match r with
     | .host q j => q == p && j == 0 && i != 0 && !mgrRes s p && !portFrozen s p && !mget false (getP s p).busy 0
     | _ => mgrRes s p)

def mgrSend (s : State) (p i : Nat) : State :=
  let c := rHpMbxMgrCtrl (portUid p) i
  if s.getB c HpMbxMgrCtrl.out_full then s.putB c HpMbxMgrCtrl.send_refused true
  else
    let s := copyBuffer s (winBase p i + 0x40) (bar0Base p i + 0x1040)
    let s := (s.putB c HpMbxMgrCtrl.out_full true).putB (rHpMbxCtrl p i) HpMbxCtrl.in_full true
    instNotify (instCount s p i 5 1) p i

def mgrAck (s : State) (p i : Nat) : State :=
  let c := rHpMbxMgrCtrl (portUid p) i
  if !s.getB c HpMbxMgrCtrl.in_full then s
  else
    let s := (s.putB c HpMbxMgrCtrl.in_full false).putB (rHpMbxCtrl p i) HpMbxCtrl.out_full false
    instNotify (s.putF (rHpMbxPend (portUid p)) ⟨i, i⟩ 0) p i

def execMgrSend (r : Requester) (p : Fin 16) (i : Fin 64) (s : State) : Host.Outcome State Fault Refusal :=
  .next (if isManager s r p i then mgrSend s p i else s)

def execMgrAck (r : Requester) (p : Fin 16) (i : Fin 64) (s : State) : Host.Outcome State Fault Refusal :=
  .next (if isManager s r p i then mgrAck s p i else s)

/-! ### Instance commands (R405 to R409) -/

def instState (s : State) (p i : Nat) : Nat := s.getF (rHpInstMgmt (portUid p) i) HpInstMgmt.state
def setInstState (s : State) (p i st : Nat) : State := s.putF (rHpInstMgmt (portUid p) i) HpInstMgmt.state st

def instRefuse (s : State) (p i reason : Nat) : State :=
  (s.putB (rHpInstMgmt (portUid p) i) HpInstMgmt.refused true).putF (rHpInstMgmt (portUid p) i) HpInstMgmt.reason reason

/-- The gate closes, and every channel stops with cause 14, its running recorded (R406). -/
def stopInst (s : State) (p i : Nat) : State :=
  let s := s.putB (rHpInstMgmt (portUid p) i) HpInstMgmt.gate_closed true
  (instChans s p i).foldl (fun s g =>
    chanStopAs (updCh s g (fun c => { c with ranBefore := c.state == 2 })) g 14) s

/-- Drain by mode: 0 complete, 1 cut, 2 and 3 discard (R406). -/
def drainInst (s : State) (p i mode : Nat) : State :=
  (instChans s p i).foldl (fun s g =>
    let s := if mode = 0 then s else cutAll s g 0x0501
    if 2 ≤ mode then updCh s g (fun c => { c with flight := c.flight.map (fun d => { d with noEntry := true }) }) else s) s

/-- A WAIT or FENCE in flight is returned unstarted (R407). -/
def returnWaits (s : State) (g : Nat) : State :=
  updCh s g (fun c =>
    match c.flight.getLast? with
    | some d =>
      if (d.op = 1 ∨ d.op = 2) ∧ !d.flushed ∧ d.status = none then
        { c with flight := c.flight.dropLast, subHead := d.slot, fetch := .ready d.words :: c.fetch }
      else c
    | none => c)

/-- Set-up words cleared in the table, and the channel off with its indices at zero (R408). -/
def clearChan (s : State) (g : Nat) : State :=
  let a := entryAddr s g
  let s := if (physClass s a).isMem then
      homeWrite (homeWrite s a (List.replicate 56 0)) (a + 0x40) (List.replicate 16 0)
    else s
  let s := resetIndices s g
  updCh s g (fun c => { c with words := List.replicate 10 0, state := 0, ranBefore := false })

def resetInstance (s : State) (p i : Nat) : State :=
  let u := portUid p
  let s := endReqs s p (fun r => r.inst == i && r.for_.isCore) 0x0304
  let s := endReqs s p (fun r => r.inst == i) 0x0301
  let s := (instChans s p i).foldl clearChan s
  let s := updP s p (fun x => x.setFn i { x.fn i with table := [], pba := [] })
  let s := clearMailbox s p i
  let s := (s.resetR (rHpWlogBase u i)).resetR (rHpWlogPtr u i)
  let s := (List.range 6).foldl (fun s k => s.resetR (rInstCtr p i k)) s
  setInstState s p i 2

def resumeInst (s : State) (p i : Nat) : State :=
  let r := rHpInstMgmt (portUid p) i
  let s := setInstState ((s.putB r HpInstMgmt.gate_closed false).putB r HpInstMgmt.irq_held false) p i 0
  let s := msixRelease s p i
  (instChans s p i).foldl (fun s g =>
    let c := getCh s g
    if c.ranBefore ∧ c.state = 1 then checkDoorbell (updCh (chanSet s g 2 2) g (fun c => { c with ranBefore := false })) g
    else s) s

/-! ### The migration image (R411 to R413) -/

/-- PBA bits 0 to 1,023. -/
def pbaBytes (f : Fn) : List Byte := toBytes 128 (f.pba.foldl (fun n e => if e.2 then n + 2 ^ e.1 else n) 0)

def regBytes (s : State) (a n : Nat) : List Byte := wordsBytes ((List.range n).map (fun k => s.getR (a + 8 * k)))

def zeros (n : Nat) : List Byte := List.replicate n 0

/-- The header, with a given crc (R411). -/
def imageHeader (s : State) (p i crc : Nat) : List Byte :=
  let x := getP s p
  let b := toBytes 8 0x54534E4939475143 ++ toBytes 2 1 ++ zeros 2 ++ toBytes 4 crc ++ toBytes 4 (256 / x.share) ++
    toBytes 2 (vecCount x) ++ toBytes 1 x.share.log2 ++ toBytes 1 (s.getF rBcFuseId BcFuseId.impl_step) ++ toBytes 1 p ++
    toBytes 1 i ++ zeros 6 ++ toBytes 8 (getI s p i).frozenAt ++ zeros 24
  let b := b ++ regBytes s (bar0Base p i + 0x1000) 8 ++ regBytes s (bar0Base p i + 0x1040) 8 ++ regBytes s (rHpMbxCtrl p i) 1 ++
    zeros 56 ++ regBytes s (rInstCtr p i 0) 6 ++ zeros 208 ++ pbaBytes (x.fn i)
  b ++ zeros (4096 - b.length)

/-- A channel record (R412). -/
def chanRecord (s : State) (g : Nat) : List Byte :=
  let c := getCh s g
  let since := if c.sinceIrq = 0 then 0 else min 1023 ((s.time - c.firstAt) / 1000)
  let b := readBytes s (entryAddr s g) 96 ++ wordsBytes [c.liveWord, c.completedWord, c.liveCpl, 0] ++
    toBytes 8 (slotWord s g 0).toNat ++ toBytes 8 (c.sinceIrq % 256 + since * 2 ^ 32) ++ toBytes 8 (ofBool c.ranBefore)
  b ++ zeros (256 - b.length)

/-- CRC-32C with all ones to start and inverted at the end (R411, R462). -/
def crc32c (bs : List Byte) : Nat := crcFold false 0xFFFFFFFF bs ^^^ 0xFFFFFFFF

def saveImage (s : State) (p i : Nat) : List Byte :=
  let recs := (instChans s p i).flatMap (chanRecord s)
  imageHeader s p i (crc32c (imageHeader s p i 0 ++ recs)) ++ recs

/-- Write to the manager's address space; none where a write fails. -/
def mgrWrite (s : State) (p a : Nat) (bs : List Byte) : Option State :=
  if mgrRes s p then
    if (linesOf a bs.length).all (fun l => physClass s (l * 64) == .dram && admits s .normal true (l * 64)) then some (homeWrite s a bs)
    else none
  else
    match hostGo s p 0 with
    | .ok _ => some (hostWrite s p 0 a bs)
    | .error _ => none

def imgAddr (s : State) (p i : Nat) : Nat := s.getF (rHpInstImg (portUid p) i) HpInstImg.addr * 4096

def saveInst (s : State) (p i : Nat) : State :=
  match mgrWrite s p (imgAddr s p i) (saveImage s p i) with
  | some s => s
  | none => instRefuse s p i 6

/-- A number in an image. -/
def imgNum (b : List Byte) (off n : Nat) : Nat := ofBytes ((b.drop off).take n)
def imgZero (b : List Byte) (off n : Nat) : Bool := ((b.drop off).take n).all (· == 0)

/-- Magic, version, reserved bytes and CRC of a whole image (R413). -/
def imageOkay (b : List Byte) : Bool :=
  let n := imgNum b 0x10 4
  imgNum b 0 8 == 0x54534E4939475143 && imgNum b 8 2 == 1 && decide (n ≤ 256) && b.length == 4096 + 256 * n &&
    imgZero b 0x0A 2 && imgZero b 0x1A 6 && imgZero b 0x28 24 && imgZero b 0xC8 56 && imgZero b 0x130 208 && imgZero b 0x280 3456 &&
    (List.range n).all (fun j =>
      let o := 4096 + 256 * j
      imgZero b (o + 0x78) 8 && imgZero b (o + 0x89) 3 && imgZero b (o + 0x8E) 2 && imgZero b (o + 0x91) 7 && imgZero b (o + 0x98) 104) &&
    imgNum b 0x0C 4 == crc32c (b.take 0x0C ++ zeros 4 ++ b.drop 0x10)

/-- A channel takes its record: its set-up words, refreshed, then its indices, counter, doorbells and moderation state. -/
def loadRecord (s : State) (g : Nat) (r : List Byte) : State :=
  let a := entryAddr s g
  let s := if (physClass s a).isMem then homeWrite (homeWrite s a (r.take 56)) (a + 0x40) ((r.drop 0x40).take 16) else s
  let s := refreshChan s g
  let live : Word := BitVec.ofNat 64 (imgNum r 0x60 8)
  let cpl : Word := BitVec.ofNat 64 (imgNum r 0x70 8)
  let n := imgNum r 0x88 1
  let us := imgNum r 0x88 8 / 2 ^ 32 % 1024
  updCh s g (fun c => { c with
    subHead := fld live ChLive.sub_head
    cplTail := fld cpl ChLiveCpl.cpl_tail
    phase := fldB cpl ChLiveCpl.phase
    completed := imgNum r 0x68 8
    subTail := imgNum r 0x80 4 % 0x8000
    cplHead := imgNum r 0x84 4 % 0x8000
    sinceIrq := n
    firstAt := s.time - us * 1000
    ranBefore := imgNum r 0x90 1 % 2 == 1 })

/-- The image is loaded (R413). -/
def loadImage (s : State) (p i : Nat) (b : List Byte) : State :=
  let s := ((instChans s p i).zipIdx).foldl (fun s (g, j) => loadRecord s g ((b.drop (4096 + 256 * j)).take 256)) s
  let word (off : Nat) : Word := BitVec.ofNat 64 (imgNum b off 8)
  let s := (List.range 8).foldl (fun s k =>
    let s := (s.putR (bar0Base p i + 0x1000 + 8 * k) (word (0x40 + 8 * k))).putR (bar0Base p i + 0x1040 + 8 * k) (word (0x80 + 8 * k))
    (s.putR (winBase p i + 8 * k) (word (0x40 + 8 * k))).putR (winBase p i + 0x40 + 8 * k) (word (0x80 + 8 * k))) s
  let m := word 0xC0 &&& 0x3FF011C
  let s := s.putR (rHpMbxCtrl p i) m
  let c := rHpMbxMgrCtrl (portUid p) i
  let s := (s.putB c HpMbxMgrCtrl.in_full (fldB m HpMbxCtrl.out_full)).putB c HpMbxMgrCtrl.out_full (fldB m HpMbxCtrl.in_full)
  let s := s.putF (rHpMbxPend (portUid p)) ⟨i, i⟩ (fld m HpMbxCtrl.out_full)
  let s := (List.range 6).foldl (fun s k => s.putR (rInstCtr p i k) (word (0x100 + 8 * k))) s
  let pba := imgNum b 0x200 128
  updP s p (fun x => x.setFn i { x.fn i with pba := ((List.range 1024).filter (fun v => pba.testBit v)).map (fun v => (v, true)) })

/-- The whole image is at hand: checked, and loaded or refused. -/
def restoreWith (s : State) (p i : Nat) (b : List Byte) : State :=
  let x := getP s p
  let s := setInstState s p i 2
  if !imageOkay b then instRefuse s p i 3
  else if imgNum b 0x10 4 ≠ 256 / x.share ∨ imgNum b 0x14 2 ≠ vecCount x then instRefuse s p i 4
  else loadImage s p i b

/-- Channels an image says it holds, as far as an image can. -/
def imgChans (b : List Byte) : Nat := min 256 (imgNum b 0x10 4)

/-- Ask the host for a part of the image. -/
def askImage (s : State) (p i part off n : Nat) : State :=
  match hostGo s p 0 with
  | .error _ => instRefuse (setInstState s p i 2) p i 3
  | .ok _ =>
    let ps := piecesOf s p 0 (imgAddr s p i + off) n
    let s := ps.foldl (fun s q => hostRequest s p 0 (.image i) q.1 q.2) s
    updI (setInstState s p i 6) p i (fun y => { y with imgWaits := ps.length, imgPart := part, imgBad := false })

/-- RESTORE begins: from local DRAM at once, from PF 0's memory by host reads, the header first. -/
def restoreInst (s : State) (p i : Nat) : State :=
  if mgrRes s p then
    let a := imgAddr s p i
    let readable (n : Nat) : Bool := (linesOf a n).all (fun l => physClass s (l * 64) == .dram && admits s .normal false (l * 64) &&
      !poisoned s (l * 64))
    if !readable 4096 then instRefuse s p i 3
    else
      let n := 4096 + 256 * imgChans (readBytes s a 4096)
      if !readable n then instRefuse s p i 3 else restoreWith s p i (readBytes s a n)
  else askImage s p i 1 0 4096

/-- The image's reads go on: after the header the records, then the load. -/
def restoreGo (s : State) (p i : Nat) : State :=
  let y := getI s p i
  if instState s p i ≠ 6 ∨ y.imgWaits ≠ 0 then s
  else if y.imgBad then instRefuse (setInstState s p i 2) p i 3
  else
    let n := imgChans (readHost s p (imgAddr s p i) 4096)
    if y.imgPart = 1 ∧ n ≠ 0 then askImage s p i 2 4096 (256 * n)
    else restoreWith s p i (readHost s p (imgAddr s p i) (4096 + 256 * n))

/-! ### The commands -/

/-- What R405 makes of a command in a state: a refusal's reason, or none where it is allowed. QUIESCE with discard is also allowed while
quiescing (R415). -/
def cmdReason (cmd st mode : Nat) : Option Nat :=
  match cmd with
  | 1 => if st = 0 ∨ (st = 1 ∧ 2 ≤ mode) then none else some 5
  | 2 => if st = 0 then none else some 5
  | 3 => if st = 2 ∨ st = 3 then none else if st = 0 ∨ st = 1 ∨ st = 7 then some 1 else some 5
  | 4 => if st = 3 then none else some 5
  | 5 => if st = 2 then none else some 5
  | 6 => if st = 2 ∨ st = 3 then none else some 5
  | _ => some 5

/-- The instance's command is carried out. -/
def instDo (s : State) (p i cmd mode : Nat) : State :=
  match cmd with
  | 1 =>
    let s := if instState s p i = 0 then stopInst s p i else s
    drainInst (setInstState s p i 1) p i mode
  | 2 =>
    let s := stopInst s p i
    setInstState ((instChans s p i).foldl returnWaits s) p i 7
  | 3 => resetInstance s p i
  | 4 => saveInst s p i
  | 5 => restoreInst s p i
  | _ => resumeInst s p i

/-- A write of HP_INST_MGMT with a command. -/
def instCommand (s : State) (p i cmd mode : Nat) : State :=
  let s := s.putF (rHpInstMgmt (portUid p) i) HpInstMgmt.drain mode
  if mget false (getP s p).busy i then instRefuse s p i 2
  else
    match cmdReason cmd (instState s p i) mode with
    | some r => instRefuse s p i r
    | none => instDo s p i cmd mode

def instOrder (s : State) (r : Requester) (p i cmd : Nat) (drain : BitVec 2) : State :=
  if isManager s r p i && decide (i < (getP s p).share) then instCommand s p i cmd drain.toNat else s

def execQuiesce (r : Requester) (p : Fin 16) (i : Fin 64) (drain : BitVec 2) (s : State) : Host.Outcome State Fault Refusal :=
  .next (instOrder s r p i 1 drain)
def execFreeze (r : Requester) (p : Fin 16) (i : Fin 64) (drain : BitVec 2) (s : State) : Host.Outcome State Fault Refusal :=
  .next (instOrder s r p i 2 drain)
def execInstanceReset (r : Requester) (p : Fin 16) (i : Fin 64) (drain : BitVec 2) (s : State) : Host.Outcome State Fault Refusal :=
  .next (instOrder s r p i 3 drain)
def execSave (r : Requester) (p : Fin 16) (i : Fin 64) (drain : BitVec 2) (s : State) : Host.Outcome State Fault Refusal :=
  .next (instOrder s r p i 4 drain)

/-- RESTORE; while its reads of the host run, the command goes on with what has arrived. -/
def execRestore (r : Requester) (p : Fin 16) (i : Fin 64) (drain : BitVec 2) (s : State) : Host.Outcome State Fault Refusal :=
  .next (if instState s p i = 6 then restoreGo s p i else instOrder s r p i 5 drain)
def execResume (r : Requester) (p : Fin 16) (i : Fin 64) (drain : BitVec 2) (s : State) : Host.Outcome State Fault Refusal :=
  .next (instOrder s r p i 6 drain)

/-- Nothing of the instance is in flight or held. -/
def instQuiet (s : State) (p i : Nat) : Bool :=
  (instChans s p i).all (fun g => decide ((getCh s g).state ≤ 1) && (getCh s g).flight.isEmpty)

/-- Its interrupts are withdrawn and it reads quiesced (R406). -/
def execQuiesceDone (p : Fin 16) (i : Fin 64) (s : State) : Host.Outcome State Fault Refusal :=
  .next (if instState s p i = 1 ∧ instQuiet s p i then
      let s := s.putB (rHpInstMgmt (portUid p) i) HpInstMgmt.irq_held true
      setInstState (updP s p (fun x => x.setFn i { x.fn i with pba := [] })) p i 2
    else s)

/-- Its interrupts are held and it reads frozen (R407). -/
def execFreezeDone (p : Fin 16) (i : Fin 64) (s : State) : Host.Outcome State Fault Refusal :=
  .next (if instState s p i = 7 ∧ instQuiet s p i then
      let s := s.putB (rHpInstMgmt (portUid p) i) HpInstMgmt.irq_held true
      setInstState (updI s p i (fun y => { y with frozenAt := s.time })) p i 3
    else s)

/-! ### The write log (R410) -/

def execWriteLogEntry (p : Fin 16) (i : Fin 64) (page : BitVec 52) (s : State) : Host.Outcome State Fault Refusal :=
  .next (logPage s p i page.toNat)

/-- A write of HP_WLOG_PTR: head moves and the filter is emptied; writing 1 clears overflow. -/
def writeWlogPtr (s : State) (p i : Nat) (v : Word) : State :=
  let r := rHpWlogPtr (portUid p) i
  let s := s.putF r HpWlogPtr.head (fld v HpWlogPtr.head)
  let s := if fldB v HpWlogPtr.overflow then s.putB r HpWlogPtr.overflow false else s
  updI s p i (fun y => { y with filter := [] })

def execWriteLogHeadWrite (r : Requester) (p : Fin 16) (i : Fin 64) (v : Word) (s : State) : Host.Outcome State Fault Refusal :=
  .next (if isManager s r p i then writeWlogPtr s p i v else s)

/-- A write of HP_WLOG_BASE: setting en starts the log afresh; a size outside 2^8 to 2^20 refuses the enable. -/
def writeWlogBase (s : State) (p i : Nat) (v : Word) : State :=
  let n := fld v HpWlogBase.log2
  let on := fldB v HpWlogBase.en && decide (8 ≤ n) && decide (n ≤ 20)
  let s := s.putR (rHpWlogBase (portUid p) i) (setFld (v &&& 0xFFFFFFFFFFFFF07D) HpWlogBase.en (ofBool on))
  if on then
    let r := rHpWlogPtr (portUid p) i
    updI ((s.putF r HpWlogPtr.tail 0).putF r HpWlogPtr.head 0) p i (fun y => { y with filter := [], wphase := true })
  else s

end Sys2Proof.Machine
end

