-- ==== Sys2Proof/Machine/Check.lean ====
section
/-! DEFINITION. Roped checking (R198 to R218): slips, falls, slip limits, and the start of a sparing sequence. -/

namespace Sys2Proof.Machine

/-- last_class of CORE_CHECK_STATUS (R207). -/
def slipCode : SlipClass → Nat
  | .integer => 1
  | .muldiv => 2
  | .vector => 3
  | .capability => 4
  | .loadAddress => 5
  | .storeCompare => 6
  | .uopParity => 7

/-- The opcodes whose check is an integer one (R199). -/
def opInteger (op : Nat) : Bool :=
  (decide (0x02 ≤ op) && decide (op ≤ 0x09)) || op == 0x0C || op == 0x0D || (decide (0x10 ≤ op) && decide (op ≤ 0x12)) ||
    (decide (0x18 ≤ op) && decide (op ≤ 0x1D))

/-- The opcodes whose check pass advances the shift: integer, multiply and address µops, one to an instruction here (R200). -/
def opShifts (op : Nat) : Bool :=
  opInteger op || op == 0x0A || op == 0x0E || (decide (0x28 ≤ op) && decide (op ≤ 0x45)) || op == 0x47 || op == 0x48 ||
    op == 0x4B || (decide (0x54 ≤ op) && decide (op ≤ 0x58))

/-- The opcode of an instruction's words: of the last, which its LIMM words widen. -/
def opOfWords (ws : List (BitVec 32)) : Nat := (ws.getLast?.map opOf).getD 0

/-- The shift moved on by `n` within 1 to 8 (R200, R204). -/
def shiftBy (k n : Nat) : Nat := (k + 7 + n) % 8 + 1

/-- A core whose caches and checker stand as after its reset: the shift starts where its fuses say (R200). -/
def freshCore (s : State) (k : Nat) : Core :=
  { Core.init with shift := max 1 (min 8 (((s.fuses.shifts.find? (fun e => e.1 == k)).map (·.2)).getD 1)) }

/-! ### The sparing list (R209, R211) -/

/-- Sequences under way: those started. -/
def running (s : State) : List Sparing := s.sparings.filter (fun q => q.company != 0)

/-- Waiting sequences start while fewer than four are under way (R211). -/
def startSparings : Nat → State → State
  | 0, s => s
  | n + 1, s =>
    if 4 ≤ (running s).length then s
    else
      match s.sparings.findIdx? (fun q => q.company == 0) with
      | none => s
      | some i =>
        startSparings n { s with sparings := s.sparings.modify i (fun q => { q with company := (running s).length + 1 }) }

/-- The withdrawal of a core that carries a virtual number: the list, the notice and the record (R213, R463). -/
def withdrawNotice (s : State) (v k : Nat) (unbound : Bool) (inj : Bool := false) : State :=
  notify (logRecord s 0x12 (coreUid k) 0 (v + ofBool unbound * 512) 0 0 0 inj) rBcWithdrawNotify

/-- A unit moves to withdrawn, from failed or from draining (R25), and joins the list; a core that carries a virtual number has its
withdrawal notice, whatever the cause (R213). -/
def withdrawUnit (s : State) (u : Nat) : State :=
  let s := addWithdrawn (setUnit s u usWithdrawn (if stateOf s u = usDraining then 0x03 else 0x01)) u
  match unitKind u with
  | .core k =>
    (match vcoreOfCore s k with
     | some v => withdrawNotice s v k (!vmapB s v BcVcoreMap.bound)
     | none => s)
  | _ => s

/-- A core with no spare: its virtual core stays unbound, and it is withdrawn (R213, R218). -/
def leaveUnbound (s : State) (v k : Nat) (inj : Bool := false) : State :=
  let s := addWithdrawn (setUnit s (coreUid k) usWithdrawn (if stateOf s (coreUid k) = usDraining then 0x03 else 0x01)) (coreUid k)
  let s := s.putR rBcSpareStatus (satInc (s.getR rBcSpareStatus) BcSpareStatus.no_spare 1)
  configEval (withdrawNotice s v k true inj)

/-- A core freezes and leaves service, and base camp starts or queues its sparing: not for a trusted-world core, whose group fails
over, nor for one with no virtual number (R209, R211); a solo core is spared only for its slip limit (R218). -/
def failCore (s : State) (k cause : Nat) (inj : Bool := false) : State :=
  let st := stateOf s (coreUid k)
  if st ≠ usInService ∧ st ≠ usDraining then s
  else
    let s := setUnit s (coreUid k) usFailed cause
    match vcoreOfCore s k with
    | none => s
    | some v =>
      if !bcUp s then s
      else
        let s := s.putB (rBcVcoreMap v) BcVcoreMap.bound false
        if vmapB s v BcVcoreMap.world then s
        else if vmapB s v BcVcoreMap.solo ∧ cause ≠ 0x05 then leaveUnbound s v k inj
        else startSparings 4 { s with sparings := s.sparings ++ [⟨k, v, cause, s.time, inj, 0, none, false, false, false, false, false⟩] }

/-! ### Slips (R203 to R207) -/

def slipWindowNs (s : State) : Nat := (max 1 (min 60000 (s.getF rBcSlipLimit BcSlipLimit.window_ms))) * 1000000

/-- Slips of a core within the window. -/
def slipsIn (s : State) (k : Nat) : Nat :=
  ((getC s k).slips.filter (fun a => decide (s.time < a + slipWindowNs s))).length

/-- A core at its limit fails by error threshold (R207). -/
def slipLimit (s : State) (k : Nat) : State :=
  let lim := s.getF rBcSlipLimit BcSlipLimit.limit
  if lim = 0 ∨ slipsIn s k < lim ∨ !bcUp s then s
  else failCore (logRecord s 0x13 (coreUid k) 0x05 (slipsIn s k) (slipWindowNs s / 1000000) 0 0) k 0x05

/-- A slip (R204): the core returns to its belay point, which is where the thread stands, with another shift and rotation. -/
def slip (s : State) (t : Tid) (c : SlipClass) (inj : Bool) : State :=
  let k := coreOf s t
  let u := coreUid k
  let w := satInc (s.getR (rCoreCheckStatus u)) CoreCheckStatus.slip_count 1
  let w := setFld (setFld w CoreCheckStatus.last_class (slipCode c)) CoreCheckStatus.replaying 1
  let s := (s.putR (rCoreCheckStatus u) w).putR (rCoreCheckLast u) (BitVec.ofNat 64 s.time)
  let s := updC s k (fun x => { x with
    shift := shiftBy x.shift 4, rot := 1 - x.rot, mism := (t, 0, (getT s t).pc) :: x.mism.filter (fun m => m != (t, 0, (getT s t).pc)), slips := s.time :: x.slips,
    inject := x.inject - ofBool inj })
  logRecord (pmEvent s t 0x0A) 0x10 u 0 (getT s t).pc.toNat (slipCode c + fld w CoreCheckStatus.slip_count * 65536) 0 0 inj

/-- The instruction at the belay point has mismatched once already (R206), entries taken in between having been returned from. -/
def replayed (s : State) (t : Tid) : Bool := (getC s (coreOf s t)).mism.contains (t, 0, (getT s t).pc)

/-- The instruction retiring is the one that mismatched, at its replay or, an entry having come between, after the return. -/
def replayEnds (s : State) (t : Tid) (pc : Word) : Bool := (getC s (coreOf s t)).mism.contains (t, 0, pc)

/-- An entry of the thread is taken, or one is returned from: what mismatched before it stands one entry deeper, or comes back (R206). -/
def deeper (s : State) (t : Tid) : State :=
  updC s (coreOf s t) (fun x => { x with mism := x.mism.map (fun m => if m.1 = t then (m.1, m.2.1 + 1, m.2.2) else m) })
def shallower (s : State) (t : Tid) : State :=
  updC s (coreOf s t) (fun x => { x with mism := x.mism.map (fun m => if m.1 = t then (m.1, m.2.1 - 1, m.2.2) else m) })

/-- A mismatch: a slip, or at the replay of the same instruction a fall (R204, R206, R209). -/
def mismatch (s : State) (t : Tid) (c : SlipClass) (inj : Bool) : State :=
  if replayed s t then
    let k := coreOf s t
    failCore (updC s k (fun x => { x with mism := [], inject := x.inject - ofBool inj })) k 0x04 inj
  else slip s t c inj

/-- An injected mismatch stands at the next integer check (R208). -/
def injectDue (s : State) (t : Tid) (words : List (BitVec 32)) : Bool :=
  decide (0 < (getC s (coreOf s t)).inject) && opInteger (opOfWords words) && !soloThread s t

/-- `n` address µops beyond the one an instruction is counted with: each moves the shift on (R200). -/
def checkAddrs (s : State) (t : Tid) (n : Nat) : State :=
  if soloThread s t then s else updC s (coreOf s t) (fun x => { x with shift := shiftBy x.shift (3 * n) })

/-- The checks of an instruction, or of an element of a block instruction, that move the shift (R200): an element's accesses are an
address µop each, and an NTTPASS element has eight multiplies besides. -/
def shiftUops (op : Nat) : Nat := if op = 0x54 ∨ op = 0x56 then 2 else if op = 0x58 then 48 else if opShifts op then 1 else 0

/-- What retiring an instruction, or an element of a block instruction, does to the checker: the replay has passed (R206), and the
shift moves on (R200). -/
def checkElement (s : State) (t : Tid) (pc : Word) (words : List (BitVec 32)) : State :=
  let k := coreOf s t
  let s := if replayEnds s t pc then
      updC (s.putF (rCoreCheckStatus (coreUid k)) CoreCheckStatus.replaying 0) k (fun x => { x with mism := x.mism.filter (fun m => m != (t, 0, pc)) })
    else s
  checkAddrs s t (shiftUops (opOfWords words))

/-- An instruction's last check, its words kept for a report that names it (R155). -/
def checkRetired (s : State) (t : Tid) (pc : Word) (words : List (BitVec 32)) : State :=
  updT (checkElement s t pc words) t (fun x => { x with lastWords := words })

end Sys2Proof.Machine
end

