-- ==== Sys2Proof/Machine/Reach.lean ====
section
/-! DEFINITION. One access of a thread, from its address to memory: the causes and their order (R94, R149 to R153), translation with
its caches and leaf updates (R227 to R237), reads and stores of memory and of host apertures (R18, R192, R202, R248), and the
16-byte granules of windows, gates and frames (R77, R136, R137). -/

namespace Sys2Proof.Machine

/-- A precise fault as an instruction finds it. `noTgt` is the address whose no-target response a taken 0x41 has recorded (R18). -/
structure Flt where
  cause  : Nat
  detail : Word
  acc    : Option Word
  cap    : GReg
  noTgt  : Option Nat
deriving DecidableEq, Repr

/-- What an instruction answers: a value, or a fault and the state it leaves. -/
abbrev R (α : Type) := Except (Flt × State) α

def faultAt {α : Type} (s : State) (cause : Nat) (a : Option Word) (cap : GReg) (detail : Word := 0) : R α :=
  .error (⟨cause, detail, a, cap, none⟩, s)

/-- No fault: the instruction did not complete, a window fill being under way, and executes again (R84). -/
def notYet : Flt := ⟨0x100, 0, none, GReg.zero, none⟩

/-- No target (R18): the record is due when the fault is taken. -/
def noTarget {α : Type} (s : State) (a : Word) (cap : GReg) (pa : Nat) : R α := .error (⟨0x41, 0, some a, cap, some pa⟩, s)

/-- Illegal instruction (R100). -/
def illegal {α : Type} (s : State) : R α := faultAt s 0x01 none GReg.zero

/-- A capability cause, where there is one. -/
def guardCap (s : State) (a : Option Word) (cap : GReg) (c : Option Nat) : R Unit :=
  match c with
  | some c => faultAt s c a cap
  | none => .ok ()

/-! ### Translation -/

/-- The L1 TLB that serves an access (R232). -/
def Core.l1 (c : Core) (k : XKind) : List TlbEnt := if k == .fetch then c.itlb else c.dtlb

/-- What the thread's translations of a kind read (R220): the L1 of the kind, and the L2 behind it. -/
def xctxFor (s : State) (t : Tid) (k : XKind) : XCtx where
  root1 := s.getR (rBcXlatRoot1 t.val)
  root2 := s.getR (rBcXlatRoot2 t.val)
  cls := if trusted s t then .trusted else .normal
  stores := (getT s t).stores
  tlb := (getC s (coreOf s t)).l1 k
  tlb2 := (getC s (coreOf s t)).tlb
  walks := (getC s (coreOf s t)).walks
  lost := (getC s (coreOf s t)).lost

/-- The same for a data access. -/
def xctx (s : State) (t : Tid) : XCtx := xctxFor s t .load

/-- An entry joins the L1 that met it, the oldest of its 64 or 96 leaving (R232). -/
def fillL1 (s : State) (k : Nat) (x : XKind) (e : TlbEnt) : State :=
  if ((getC s k).l1 x).contains e then s
  else updC s k (fun c => if x == .fetch then { c with itlb := (e :: c.itlb).take 64 } else { c with dtlb := (e :: c.dtlb).take 96 })

/-- A new entry displaces the oldest beyond the 4,096 of the L2 TLB (R232). -/
def fillTlb (s : State) (k : Nat) (x : XKind) (e : TlbEnt) (ws : List WalkEnt) : State :=
  fillL1 (updC s k (fun c => { c with tlb := (e :: c.tlb).take 4096, walks := fillWalks c.walks ws })) k x e

/-- Every TLB of a core filtered. -/
def Core.keepTlb (c : Core) (p : TlbEnt → Bool) : Core :=
  { c with itlb := c.itlb.filter p, dtlb := c.dtlb.filter p, tlb := c.tlb.filter p }

/-- An entry replaced wherever the core holds it. -/
def Core.putTlb (c : Core) (e e' : TlbEnt) : Core :=
  let f (x : TlbEnt) : TlbEnt := if x = e then e' else x
  { c with itlb := c.itlb.map f, dtlb := c.dtlb.map f, tlb := c.tlb.map f }

/-- The entries that caused a fault leave the core (R232, R237): those of the address, and the walk-cache entries on the way to it. -/
def dropXlat (s : State) (t : Tid) (va : Nat) : State :=
  let c := xctx s t
  updC s (coreOf s t) (fun x =>
    let y := x.keepTlb (fun e => !e.hits c va)
    { y with walks := x.walks.filter (fun w => !(w.vmid == c.vmid &&
      (w.stage2 || (w.asid == c.asid && w.region == va / 2 ^ lvlShift w.level)))) })

/-- A demand access to a cacheable page misses its L1 (0 the L1I, 1 the L1D) or the L2 (R510), a line of the prefetch side buffer being
served as an L2 hit (R244). -/
def missEvents (s : State) (t : Tid) (x : Xl) (array : Nat) (va : Option Nat) (n : Nat) : State :=
  if !x.cached || x.se then s
  else
    let at_ (l : Nat) : Option CLine := lineOf s (coreOf s t) l
    let s' := if (linesOf x.pa n).all (fun l => (at_ l).any (fun c => (l1At array c).isSome)) then s
      else pmEvent s t (if array = 0 then 0x07 else 0x05) va
    if (linesOf x.pa n).all (fun l => (at_ l).any (fun c => c.place == .l2 || c.place == .side)) then s' else pmEvent s' t 0x06 va

/-- What the thread has stored to an entry's leaves leaves its queue, so that an update at their home meets it (R228, R230). -/
def drainLeaves (s : State) (t : Tid) (e : TlbEnt) : State :=
  (e.at1.toList ++ e.at2.toList).foldl (fun s p => drainFor s t p 8) s

/-- The walker's reads that a walk which fails at a level of the first stage or the second has made in that stage (R199, R200). -/
def failedReads (c : XCtx) (f : XFault) : Nat :=
  let root := if f.stage2 then c.root2 else c.root1
  let top := if f.stage2 then fldB root BcXlatRoot2.top else fldB root BcXlatRoot1.top
  (if top then 5 else 4) - min 4 f.level

/-- The translation an instruction that executes again has used for an address already (R237). -/
def usedEntry (s : State) (t : Tid) (va : Nat) : Option TlbEnt :=
  if (getT s t).inFill then none
  else (getT s t).heldX.find? (fun e => decide (e.base ≤ va) && decide (va < e.base + 2 ^ e.size))

/-- A walk counts, and with it the L2 TLB miss that began it, where they occur: a walk that ends in a fault too (R510). -/
def walkEvents (s : State) (t : Tid) (va : Nat) : State := pmEvent (pmEvent s t 0x08 (some va)) t 0x09 (some va)

/-- Translate for the thread. A filled entry has its accessed bits set, the walk repeated while that update loses its compare, four
times at most (R231); a fault 0x21 to 0x26 or 0x2F drops the entries it met, and 0x42 reports the abandoned read of an entry. -/
def xlateGo : Nat → State → Tid → XKind → Nat → Except ((XFault × Option Xl) × State) (Xl × State)
  | 0, s, t, k, va => .error ((⟨0x2F, 0, false, k == .store || k == .atomic⟩, none), dropXlat s t va)
  | n + 1, s, t, k, va =>
    match xlat s (xctxFor s t k) k va with
    | .error (f, x) =>
      let s := if f.cause != 0x20 && ((xctxFor s t k).matches_ va).isEmpty then walkEvents s t va else s
      let s := if x.isNone && f.cause != 0x2F then checkAddrs s t (failedReads (xctxFor s t k) f) else s
      .error ((f, x), if f.cause = 0x20 then s
        else if f.cause = 0x42 then updC s (coreOf s t) (fun c => { c with lost := c.lost.filter (fun l => l.2 != f.level) })
        else dropXlat s t va)
    | .ok ⟨x, none⟩ =>
      .ok (x, match x.ent with
        | some e => fillL1 s (coreOf s t) k e
        | none => s)
    | .ok ⟨x, some (e, ws)⟩ =>
      let s1 := drainLeaves s t e
      match casLeaves s1 (.core (coreOf s t)) e Leaf.a with
      | some s2 =>
        let e' := e.withBit Leaf.a
        .ok ({ x with ent := some e' },
          walkEvents (fillTlb (checkAddrs s2 t (ws.length + (e.at1.toList ++ e.at2.toList).length)) (coreOf s t) k e' ws) t va)
      | none => xlateGo n s1 t k va

/-- Translate for the thread, by the translation the instruction has used already where it executes again (R237). -/
def xlate (n : Nat) (s : State) (t : Tid) (k : XKind) (va : Nat) : Except ((XFault × Option Xl) × State) (Xl × State) :=
  match usedEntry s t va with
  | some e => .ok (e.xl va, s)
  | none => xlateGo n s t k va

def xlFault (f : XFault) (k : XKind) (a : Word) (cap : GReg) : Flt := ⟨f.cause, f.detail k, some a, cap, none⟩

def translate (s : State) (t : Tid) (k : XKind) (va : Word) (cap : GReg) : R (Xl × State) :=
  match xlate 4 s t k va.toNat with
  | .ok r => .ok r
  | .error ((f, _), s1) => .error (xlFault f k va cap, s1)

/-! ### Alignment and the order of R153 -/

/-- Misaligned by address alone (R94): a strict access off its natural alignment, another that crosses a page. -/
def misaligned (strict : Bool) (a n : Nat) : Bool :=
  if strict then a % n != 0 else decide (4096 < a % 4096 + n)

def PClass.isDevice : PClass → Bool
  | .device _ => true
  | _ => false

/-- Misaligned for where it leads (R94): SE pages, and the device aperture range. -/
def misplaced (s : State) (x : Xl) (a n : Nat) : Bool :=
  (x.se && a % n != 0) || ((physClass s x.pa).isDevice && (a % n != 0 || (n != 4 && n != 8)))

/-- The causes of R153 before the translation causes, for an access that leads to `x`: 0x19 where a tag would be stored (R137), 0x02,
and 0x04 where `cannot` says the place carries no such atomic (R115). -/
def placeCause (s : State) (a n : Nat) (strict tag : Bool) (cannot : PClass → Bool) (x : Option Xl) : Option Nat :=
  if tag && x.any (fun x => (physClass s x.pa).refusesTags) then some 0x19
  else if misaligned strict a n || x.any (fun x => misplaced s x a n) then some 0x02
  else if x.any (fun x => cannot (physClass s x.pa)) then some 0x04
  else none

/-- Translate an access whose capability checks have passed, its causes in the order of R153. -/
def reachP (s : State) (t : Tid) (k : XKind) (v : GReg) (a : Word) (n : Nat) (strict tag : Bool) (cannot : PClass → Bool) :
    R (Xl × State) :=
  match xlate 4 s t k a.toNat with
  | .error ((f, x), s1) =>
    (match placeCause s1 a.toNat n strict tag cannot x with
     | some c => faultAt s1 c (some a) v
     | none => .error (xlFault f k a v, s1))
  | .ok (x, s1) =>
    match placeCause s1 a.toNat n strict tag cannot (some x) with
    | some c => faultAt s1 c (some a) v
    | none => .ok (x, s1)

/-- The class of a cause in the order of R153. -/
def classRank (c : Nat) : Nat :=
  if c = 0x01 then 0 else if 0x10 ≤ c ∧ c ≤ 0x1A then 1 else if c = 0x02 then 2 else if c = 0x04 then 3
  else if 0x20 ≤ c ∧ c ≤ 0x2F then 4 else if c = 0x32 then 5 else if 0x40 ≤ c ∧ c ≤ 0x43 then 6 else 7

/-- Several accesses of one instruction checked together: the first cause of R153 is reported, whichever access meets it. -/
def reachAll {α : Type} : List (State → R (α × State)) → State → R (List α × State)
  | [], s => .ok ([], s)
  | f :: fs, s =>
    match f s with
    | .ok (x, s1) =>
      (match reachAll fs s1 with
       | .ok (xs, s2) => .ok (x :: xs, s2)
       | .error e => .error e)
    | .error e =>
      match reachAll fs s with
      | .error e2 => if classRank e2.1.cause < classRank e.1.cause then .error e2 else .error e
      | .ok _ => .error e

def reach (s : State) (t : Tid) (k : XKind) (v : GReg) (a : Word) (n : Nat) (strict tag : Bool) : R (Xl × State) :=
  reachP s t k v a n strict tag (fun _ => false)

/-- The channel a doorbell slot belongs to (R364). -/
def slotChan (off : Nat) : Option Nat := if off / 64 < 8192 then some (off / 64) else none

/-- Something answers at the address (R18). -/
def answers (s : State) (pa : Nat) : Bool :=
  match physClass s pa with
  | .none => false
  | .device off => (slotChan off).isSome
  | _ => true

/-- The d bits of a store or atomic that retires, set before it leaves the core (R230): a compare that fails drops the entry and
walks again by `again`, and after four failures the access raises 0x2F (R231). -/
def settleDirty (again : State → R (Xl × State)) (t : Tid) (v : GReg) (a : Word) : Nat → State → Xl → R (Xl × State)
  | 0, s, _ => faultAt (dropXlat s t a.toNat) 0x2F (some a) v (BitVec.ofNat 64 32)
  | n + 1, s, x =>
    match x.ent with
    | none => .ok (x, s)
    | some e =>
      if !e.clean || !answers s x.pa then .ok (x, s)
      else
        let s1 := drainLeaves s t e
        match casLeaves s1 (.core (coreOf s t)) e Leaf.d with
        | some s2 =>
          let e' := e.withBit Leaf.d
          .ok ({ x with ent := some e' }, updC s2 (coreOf s t) (fun c => c.putTlb e e'))
        | none =>
          match again (dropXlat s1 t a.toNat) with
          | .ok (y, s2) => settleDirty again t v a n s2 y
          | .error e => .error e

/-- A store's translation with its d bits set. -/
def reachStore (s : State) (t : Tid) (v : GReg) (a : Word) (n : Nat) (strict tag : Bool) : R (Xl × State) := do
  let (x, s) ← reach s t .store v a n strict tag
  settleDirty (fun s => reach s t .store v a n strict tag) t v a 4 s x

/-! ### Memory and host apertures -/

/-- The first line of a range whose last request of this core was abandoned, and the destination it named (R152, R296). -/
def lostLine (s : State) (k pa n : Nat) : Option (Nat × Nat) :=
  (linesOf pa n).findSome? (fun l => (mfind (getC s k).lost l).map (fun d => (l, d)))

/-- A read of memory: a request lost with its scratch, no target, a refusal at the home, a request abandoned, or poison; else the bytes and their granule tag as the
thread sees them (R18, R150, R152). -/
def memRead (s : State) (t : Tid) (v : GReg) (a : Word) (pa n : Nat) : R (List Byte × Bool) :=
  let k := coreOf s t
  if (linesOf pa n).any (fun l => (getC s k).spoiled.contains l) then
    faultAt (updC s k (fun c => { c with spoiled := c.spoiled.filter (fun l => !(linesOf pa n).contains l) })) 0x40 (some a) v
      (BitVec.ofNat 64 (sliceUid ((pa - 0x100000000000) / 0x200000 % 128)))
  else if !(physClass s pa).isMem then noTarget s a v pa
  else if !admits s (if hasPerm v pWORLD then .trusted else .normal) false pa then faultAt s 0x41 (some a) v
  else
    match lostLine s k pa n with
    | some (l, d) => faultAt (updC s k (fun c => { c with lost := mdel c.lost l })) 0x42 (some a) v (BitVec.ofNat 64 d)
    | none =>
      if (linesOf pa n).any (fun l => poisoned s (l * 64)) then
        faultAt s 0x40 (some a) v (BitVec.ofNat 64 (poisonSource s k pa n))
      else .ok (viewBytes s (getT s t).stores pa n, (physClass s pa).hasTags && viewTag s (getT s t).stores pa)

/-- A tag as a load returns it (R136, R138). -/
def tagSeen (s : State) (t : Tid) (v : GReg) (d : Quad) (g : Bool) : GReg :=
  let r := tagIf d (g && hasPerm v pLOADCAP)
  { r with tag := r.tag && (!hasPerm r pWORLD || trusted s t) }

/-- An access that memory does not serve meets its request's abandonment (R152, R296). -/
def guardLost (s : State) (t : Tid) (v : GReg) (a : Word) (l : Nat) : R Unit :=
  let k := coreOf s t
  match mfind (getC s k).lost l with
  | some d => faultAt (updC s k (fun c => { c with lost := mdel c.lost l })) 0x42 (some a) v (BitVec.ofNat 64 d)
  | none => .ok ()

/-- The answers an access finds: those of the instruction's fetch, or of its other accesses. -/
def Thread.answers (x : Thread) : List HostAns := if x.inFetch && !x.inFill then x.fetchAns else x.replay

/-- A request on a host aperture that must be answered (R192, R202, R344, R346): the `k`-th of its instruction, a read, or an atomic
that the host carries out (R115). Its answer is used where it has come; else it is sent, and the instruction waits, the translation
`e` it went through being kept for it (R237). -/
def hostAsk (s : State) (t : Tid) (v : GReg) (a : Word) (p off n k : Nat) (atom : Option HostAtom) (e : Option TlbEnt) :
    R (Option (List Byte) × State) :=
  match (getT s t).answers[k]? with
  | some (.data bs) => .ok (some bs, s)
  | some .poison => faultAt s 0x40 (some a) v (BitVec.ofNat 64 (ioOfPort p))
  | some (.error st) => faultAt s 0x43 (some a) v (BitVec.ofNat 64 st)
  | some (.lost d) => faultAt s 0x42 (some a) v (BitVec.ofNat 64 d)
  | none =>
    match hostRefusal s p with
    | some st => faultAt s 0x43 (some a) v (BitVec.ofNat 64 st)
    | none =>
      let fill := (getT s t).inFill
      .ok (none, updT (hostRequest s p 0 (if fill then .fill t else .core t) off n atom) t (fun x => { x with
        hostWait := some p, heldX := if fill then x.heldX else x.heldX ++ e.toList }))

def hostRead (s : State) (t : Tid) (v : GReg) (a : Word) (p off n k : Nat) (e : Option TlbEnt) : R (Option (List Byte) × State) :=
  hostAsk s t v a p off n k none e

/-- The SE page a translation leads to. -/
def Xl.sePage (x : Xl) : Option Nat := if x.se then some ((x.ent.map (·.base)).getD 0) else none

/-- A store whose target has been decoded joins the queue (R154, R191, R192, R278). -/
def queueStore (s : State) (t : Tid) (v : GReg) (x : Xl) (bs : List Byte) (tag : Option Bool) (rel : Bool) : State :=
  let e : StoreEnt := {
    kind := .data, pa := x.pa, bytes := bs, tag := tag, world := hasPerm v pWORLD, epoch := (getT s t).epoch, rel := rel,
    cached := x.cached && !x.se, se := x.sePage }
  pushStore s t e

/-- Queue a store to memory. -/
def memWrite (s : State) (t : Tid) (v : GReg) (a : Word) (x : Xl) (bs : List Byte) (tag : Option Bool)
    (rel : Bool := false) : R State :=
  if !(physClass s x.pa).isMem then noTarget s a v x.pa else .ok (queueStore s t v x bs tag rel)

/-! ### Granules -/

/-- Read in turn where granules lead, each as a capability load (R77, R136, R162); `k` host reads of the instruction have been made
before. None while a host answers. -/
def readGranules (t : Tid) (v : GReg) : List (Word × Xl) → Nat → State → R (Option (List GReg) × Nat × State)
  | [], k, s => .ok (some [], k, s)
  | (a, x) :: xs, k, s => do
    let (r, k, s) ← (match physClass s x.pa with
      | .hostAp p off => (do
        let (bs, s) ← hostRead s t v a p off 16 k x.ent
        .ok (bs.map (fun b => (b, false)), k + 1, if bs.isSome then checkAddrs s t 1 else s))
      | _ => (do
        let s := if x.se then drainPage s t x.sePage x.pa 16 else s
        let r ← memRead s t v a x.pa 16
        .ok (some r, k, checkAddrs (touch s (coreOf s t) 1 x.pa 16) t 1)) : R (Option (List Byte × Bool) × Nat × State))
    match r with
    | none => .ok (none, k, s)
    | some (bs, g) =>
      let (more, k, s) ← readGranules t v xs k s
      .ok (more.map (tagSeen s t v (BitVec.ofNat 128 (ofBytes bs)) g :: ·), k, s)

/-- Read `n` granules from `a` through a capability: every one translated before any is read (R153). -/
def loadGranules (s : State) (t : Tid) (v : GReg) (a : Word) (k n : Nat) : R (Option (List GReg) × Nat × State) :=
  if hasPerm v pCTRL then faultAt s 0x02 (some a) v
  else do
    let (xs, s) ← reachAll ((List.range n).map (fun i => fun s => (do
      let b := a + BitVec.ofNat 64 (16 * i)
      let (x, s) ← reach s t .load v b 16 true false
      .ok ((b, x), s) : R ((Word × Xl) × State)))) s
    readGranules t v xs k s

/-- Read a 64-byte line in one indivisible read, as four granules (R145); none while a host answers. -/
def loadLine (s : State) (t : Tid) (v : GReg) (a : Word) : R (Option (List GReg) × State) :=
  if hasPerm v pCTRL then faultAt s 0x02 (some a) v
  else do
    let (x, s) ← reach s t .load v a 64 true false
    let cut (bs : List Byte) (g : Nat → Bool) : List GReg :=
      (List.range 4).map (fun i => tagSeen s t v (BitVec.ofNat 128 (ofBytes ((bs.drop (16 * i)).take 16))) (g i))
    match physClass s x.pa with
    | .hostAp p off => do
      let (bs, s) ← hostRead s t v a p off 64 0 x.ent
      .ok (bs.map (fun b => cut b (fun _ => false)), if bs.isSome then checkAddrs s t 1 else s)
    | _ => do
      let s := if x.se then drainPage s t x.sePage x.pa 64 else s
      let (bs, _) ← memRead s t v a x.pa 64
      let g (i : Nat) : Bool := (physClass s x.pa).hasTags && viewTag s (getT s t).stores (x.pa + 16 * i)
      .ok (some (cut bs g), checkAddrs (touch s (coreOf s t) 1 x.pa 64) t 1)

/-- A granule's store as an ordinary capability store, exempt from the GLOBAL rule (R77, R80, R137, R158): where it leads. -/
def granReach (s : State) (t : Tid) (v : GReg) (a : Word) (g : GReg) : R (Xl × State) := do
  if hasPerm v pCTRL then faultAt s 0x02 (some a) v
  else
    let (x, s) ← reach s t .store v a 16 true g.tag
    if answers s x.pa then .ok (x, s) else noTarget s a v x.pa

/-- The d bits of a granule's page (R230). -/
def granDirty (s : State) (t : Tid) (v : GReg) (a : Word) (g : GReg) (x : Xl) : R (Xl × State) :=
  settleDirty (fun s => reach s t .store v a 16 true g.tag) t v a 4 s x

/-- The d bits of several: where one cannot be set, none is, and the entry met is dropped (R193, R232). -/
def granDirties (t : Tid) (v : GReg) : List (Word × GReg × Xl) → State → R (List (Xl × GReg) × State)
  | [], s => .ok ([], s)
  | (a, g, x) :: xs, s =>
    match granDirty s t v a g x with
    | .error e => .error (e.1, dropXlat s t a.toNat)
    | .ok (x, s1) =>
      match granDirties t v xs s1 with
      | .error e => .error (e.1, s)
      | .ok (r, s2) => .ok ((x, g) :: r, s2)

/-- Every granule reached, nothing written and no d bit set before all of them can be stored (R193). -/
def granReaches (s : State) (t : Tid) (v : GReg) (a : Word) (gs : List GReg) : R (List (Xl × GReg) × State) := do
  let (xs, s) ← reachAll ((gs.zipIdx).map (fun (g, i) => fun s => (do
    let b := a + BitVec.ofNat 64 (16 * i)
    let (x, s) ← granReach s t v b g
    .ok ((b, g, x), s) : R ((Word × GReg × Xl) × State)))) s
  granDirties t v xs s

def writeGranule (s : State) (t : Tid) (v : GReg) (x : Xl) (g : GReg) : State :=
  let bs := toBytes 16 g.data.toNat
  let s := checkAddrs s t 1
  match physClass s x.pa with
  | .hostAp p off => hostStore (drainBefore s t x.pa 16 false) t p off bs
  | _ => queueStore s t v x bs (some g.tag) false

/-- Store granules from `a`: all of them, or none where one cannot be stored. -/
def storeGranules (s : State) (t : Tid) (v : GReg) (a : Word) (gs : List GReg) : R State := do
  let (xs, s) ← granReaches s t v a gs
  .ok (xs.foldl (fun s (x, g) => writeGranule s t v x g) s)

/-- Store the granules of a fault frame in turn: those before one that cannot be written, or that would merge into a poisoned line,
stand (R163, R176). The flag says that all of them were written. -/
def storeFrame (s : State) (t : Tid) (v : GReg) (a : Word) : List GReg → State × Bool
  | [] => (s, true)
  | g :: gs =>
    match granReach s t v a g with
    | .error (_, s1) => (s1, false)
    | .ok (x, s1) =>
      if mergesPoison s1 x.pa 16 then (s1, false)
      else
        match granDirty s1 t v a g x with
        | .error (_, s2) => (s2, false)
        | .ok (x, s2) => storeFrame (writeGranule s2 t v x g) t v (a + 16) gs

end Sys2Proof.Machine
end

