-- ==== Sys2Proof/Machine/Thread.lean ====
section
/-! DEFINITION. One thread between and across its instructions: when it may execute (R172, R191), fetch (R180), the window engine
(R71 to R82), fault entry (R158 to R163) and arithmetic exceptions (R165 to R170). -/

namespace Sys2Proof.Machine

/-! ### Readiness -/

/-- The sheaf of a core runs: no droop pause and no soft stop (R36, R62). -/
def sheafRuns (s : State) (k : Nat) : Bool :=
  !(mget Dom.init s.doms (sheafOfCore k)).paused && !(mget Dom.init s.doms (sheafOfCore k)).stopped

/-- The vectors deliverable to a thread (R172): not between the two halves of an access performed once (R202). -/
def deliverable (s : State) (t : Tid) (v : Nat) : Bool :=
  (getT s t).replay.isEmpty && s.getB (rBcIrqCtrl t.val) BcIrqCtrl.ie && (s.getR (rBcIrqEn t.val)).getLsbD v &&
    (s.getR (rBcIrqPend t.val)).getLsbD v && decide (min 16 (s.getF (rBcIrqCtrl t.val) BcIrqCtrl.run_pri) ≤ v / 4)

/-- The vector taken next: highest priority, and within it the lowest number (R172). -/
def nextVector (s : State) (t : Tid) : Option Nat :=
  ([15, 14, 13, 12, 11, 10, 9, 8, 7, 6, 5, 4, 3, 2, 1, 0].flatMap
    (fun p => [4 * p, 4 * p + 1, 4 * p + 2, 4 * p + 3])).find? (deliverable s t)

/-- The thread's core carries it and runs: bound, in service or draining, its sheaf neither paused nor stopped. -/
def coreRuns (s : State) (t : Tid) : Bool :=
  vmapB s (vcoreOf t) BcVcoreMap.bound && serving s (coreUid (coreOf s t)) && sheafRuns s (coreOf s t) &&
    (t.val % 2 == 0 || soloThread s t)

/-- The thread stands at an instruction boundary where an entry may be taken. -/
def atBoundary (s : State) (t : Tid) : Bool :=
  (getT s t).run == .running && coreRuns s t && (getT s t).hostWait.isNone

/-- Its next instruction is at hand: no bulk clear runs, or one that began when the instruction had been fetched (R184, R195). -/
def fetches (s : State) (t : Tid) : Bool := !(getT s t).clearing || (getT s t).inFlight

/-- The thread executes its next instruction: at a boundary, nothing to be taken first, and fetch not held (R172, R184). -/
def ready (s : State) (t : Tid) : Bool :=
  atBoundary s t && (getT s t).fault.isNone && fetches s t && (nextVector s t).isNone

/-- A WAIT may execute although an interrupt is deliverable, which then ends it (R107). -/
def readyWait (s : State) (t : Tid) : Bool := atBoundary s t && (getT s t).fault.isNone && fetches s t

/-! ### The window engine -/

def Thread.setWs (x : Thread) (f : Fld) (n : Nat) : Thread := { x with wstate := setFld x.wstate f n }

/-- The permissions of a window or fault stack (R77, R158). -/
def stackPerms : List Nat := [pLOAD, pSTORE, pLOADCAP, pSTORECAP]

/-- The frame of a slot: e0 to e7, then l0 to l7 (R76). -/
def frameOf (x : Thread) (slot : Nat) : List GReg := (List.range 16).map (fun i => x.at_ (16 + 16 * slot + i))

def setFrame (x : Thread) (slot : Nat) (gs : List GReg) : Thread :=
  (gs.zipIdx).foldl (fun x (g, i) => x.setAt (16 + 16 * slot + i) g) x

/-- A fill under way is given up: what it has asked for is dropped when it comes. -/
def dropFill (s : State) (t : Tid) : State :=
  match (getT s t).fillWait with
  | none => updT s t (fun x => { x with fillAns := [] })
  | some p => updT (updP s p (fun y => { y with reqs := y.reqs.map (fun r => if r.for_ = .fill t then { r with dropped := true } else r) })) t
      (fun x => { x with fillAns := [], fillWait := none })

/-- Spill the oldest resident frame (R74, R77): the store fault of its cause, or the state after. -/
def spillOne (s : State) (t : Tid) : R State := do
  let x := getT s t
  let slot := (x.cwp + 17 - x.res) % 16
  let v := x.wstack
  let a := v.int - 256
  guardCap s (some a) v (accessCause (trusted s t) v stackPerms a.toNat 256)
  let s1 ← storeGranules s t v a (frameOf x slot)
  let s2 := updT (dropFill s1 t) t (fun y =>
    ({ y with wstack := moveCursor v a }.setWs Wstate.seg_frames (fld y.wstate Wstate.seg_frames + 1)).setWs Wstate.res
      (y.res - 1))
  .ok (pmEvent s2 t 0x0D)

/-- A spill that cannot be performed leaves its window status (R78). -/
def spillBlocked (s : State) (t : Tid) (cause : Nat) : State :=
  updT s t (fun y => ((y.setWs Wstate.spill_blocked 1).setWs Wstate.wcause cause).setWs Wstate.wfault 1)

/-- The spill engine while it has work: until res is at most 13, or a spill is blocked (R74, R78). A spill that fails writes none
of its granules (notes/assumptions/49.md). -/
def spillEngine : Nat → State → Tid → State
  | 0, s, _ => s
  | n + 1, s, t =>
    let x := getT s t
    if x.res ≤ 13 ∨ fldB x.wstate Wstate.spill_blocked then s
    else
      match spillOne s t with
      | .ok s1 => spillEngine n s1 t
      | .error (f, s1) => spillBlocked s1 t f.cause

/-- The 0x50 fault with the window status it records (R79, R157). -/
def fault50 {α : Type} (s : State) (t : Tid) (wfault wcause : Nat) (cap : GReg) : R α :=
  let s' := updT s t (fun y => { y with wstate := setFld (setFld y.wstate Wstate.wfault wfault) Wstate.wcause wcause })
  .error (⟨0x50, BitVec.ofNat 64 (wcause * 2 ^ 56 + wfault * 2 ^ 54), none, cap, none⟩, s')

/-- Wait for `n` free slots, the spill engine running (R72, R78). -/
def waitFree (s : State) (t : Tid) (n : Nat) : R State :=
  let s1 := spillEngine 3 s t
  if n ≤ (getT s1 t).free then .ok s1
  else
    let w := (getT s1 t).wstate
    fault50 s1 t (fld w Wstate.wfault) (fld w Wstate.wcause) (getT s1 t).wstack

/-- A read of a fill that fails is a fault 0x50 with its cause in wcause (R79, R82). -/
def wrap50 {α : Type} (t : Tid) (cap : GReg) (r : R α) : R α :=
  match r with
  | .error (f, s1) => fault50 s1 t 2 f.cause cap
  | .ok v => .ok v

/-- The 256 bytes at the WSTACK cursor, as capability loads (R77); none while a host answers. -/
def stackBlock (s : State) (t : Tid) (k : Nat) : R (Option (List GReg) × Nat × State) := do
  let v := (getT s t).wstack
  guardCap s (some v.int) v (accessCause (trusted s t) v stackPerms v.int.toNat 256)
  loadGranules s t v v.int k 16

/-- The old WSTACK, seg_frames and linked come back from a link block (R82). They stay where the fill that follows fails
(notes/assumptions/49.md). -/
def reinstate (s : State) (t : Tid) (b : List GReg) : State :=
  let ws := (b.getD 1 GReg.zero).int
  updT s t (fun y =>
    ({ y with wstack := b.getD 0 GReg.zero }.setWs Wstate.seg_frames (fld ws ⟨19, 0⟩)).setWs Wstate.linked (fld ws ⟨63, 63⟩))

/-- Link blocks followed to a segment that holds frames (R79, R82); `k` host reads have been made. False while a host answers; the
chain is given up as underflow after 4,096 links (notes/assumptions/49.md). -/
def followLinks (t : Tid) : Nat → Nat → State → R (Bool × Nat × State)
  | 0, _, s => fault50 s t 3 0 (getT s t).wstack
  | n + 1, k, s =>
    let x := getT s t
    if fld x.wstate Wstate.seg_frames ≠ 0 then .ok (true, k, s)
    else if !fldB x.wstate Wstate.linked then fault50 s t 3 0 x.wstack
    else
      match wrap50 t x.wstack (stackBlock s t k) with
      | .error e => .error e
      | .ok (none, k, s) => .ok (false, k, s)
      | .ok (some b, k, s) =>
        if !(b.getD 0 GReg.zero).tag then fault50 s t 2 0x10 (b.getD 0 GReg.zero)
        else followLinks t n k (reinstate s t b)

/-- The thread's accesses are those of its fill, or again its own (R84). -/
def swapFill (x : Thread) : Thread :=
  { x with replay := x.fillAns, fillAns := x.replay, hostWait := x.fillWait, fillWait := x.hostWait, inFill := !x.inFill }

/-- Fill the frame below the oldest resident one, through link blocks where the segment is at its end (R75, R79, R82); false while a
host answers. -/
def fillRead (s : State) (t : Tid) : R (Bool × State) := do
  let (go, k, s1) ← followLinks t 4096 0 s
  let x := getT s t
  let back (s : State) : State := updT s t (fun z => { z with wstack := x.wstack, wstate := x.wstate })
  if !go then .ok (false, back s1)
  else
    let v := (getT s1 t).wstack
    let (fr, _, s2) ← wrap50 t v (stackBlock s1 t k)
    match fr with
    | none => .ok (false, back s2)
    | some fr =>
      let y := getT s1 t
      let slot := (y.cwp + 16 - y.res) % 16
      .ok (true, updT s2 t (fun z =>
        (((setFrame z slot fr).setWs Wstate.seg_frames (fld z.wstate Wstate.seg_frames - 1)).setWs Wstate.res (z.res + 1))
          |> fun z => { z with wstack := moveCursor v (v.int + 256) }))

/-- A fill goes on with the answers it has (R84): false while a host answers. The fill is its own, and goes on when an entry comes
before the instruction that began it; one that fails begins again with the next. -/
def fillOne (s : State) (t : Tid) : R (Bool × State) :=
  if (getT s t).fillWait.isSome then .ok (false, s)
  else
    match fillRead (updT s t swapFill) t with
    | .error (f, s1) => .error (f, updT s1 t (fun x => { swapFill x with fillAns := [] }))
    | .ok (true, s1) => .ok (true, updT s1 t (fun x => { swapFill x with fillAns := [] }))
    | .ok (false, s1) => .ok (false, updT s1 t swapFill)

/-- The window advances: the new frame's locals and exits are zero (R72). -/
def advance (x : Thread) : Thread :=
  let c := (x.cwp + 1) % 16
  let y := (List.range 8).foldl (fun y i => (y.setAt (24 + 16 * c + i) GReg.zero).setAt (16 + 16 * ((c + 1) % 16) + i)
    GReg.zero) x
  { y with wstate := setFld (setFld y.wstate Wstate.cwp c) Wstate.res (x.res + 1) }

/-- The window retreats (R73). -/
def retreat (x : Thread) : Thread :=
  { x with wstate := setFld (setFld x.wstate Wstate.cwp ((x.cwp + 15) % 16)) Wstate.res (x.res - 1) }

/-- RET and FRET fill the caller's frame when only the current one is resident (R73); while a host answers, the instruction does not
complete. -/
def fillForReturn (s : State) (t : Tid) : R State :=
  if (getT s t).res ≤ 1 then do
    let (full, s) ← fillOne s t
    if full then .ok s else .error (notYet, s)
  else .ok s

/-- Spill every resident frame but the current one (R80, step 1). -/
def spillOthers : Nat → State → Tid → R State
  | 0, s, _ => .ok s
  | n + 1, s, t =>
    if (getT s t).res ≤ 1 then .ok s
    else
      match spillOne s t with
      | .ok s1 => spillOthers n s1 t
      | .error (f, s1) => fault50 (spillBlocked s1 t f.cause) t 1 f.cause (getT s t).wstack

/-- Replace WSTACK (R80, R81, R88). -/
def replaceWstack (s : State) (t : Tid) (v : GReg) : R State := do
  let s1 ← spillOthers 15 s t
  let x := getT s1 t
  let a := v.int - 256
  guardCap s1 (some a) v (accessCause (trusted s1 t) v stackPerms a.toNat 256)
  let link : List GReg := [x.wstack,
    ⟨BitVec.ofNat 128 (fld x.wstate Wstate.seg_frames + ofBool (fldB x.wstate Wstate.linked) * 2 ^ 63), false⟩] ++
    List.replicate 14 GReg.zero
  match storeGranules s1 t v a link with
  | .error e => .error e
  | .ok s2 =>
    .ok (updT (dropFill s2 t) t (fun y => { y with
      wstack := moveCursor v a
      wstate := [(Wstate.seg_frames, 0), (Wstate.linked, 1), (Wstate.spill_blocked, 0), (Wstate.wfault, 0),
        (Wstate.wcause, 0)].foldl (fun w (f, n) => setFld w f n) y.wstate }))

/-! ### Long operations and arithmetic exceptions -/

/-- Outstanding exceptions joined by others, oldest first (R166). -/
def byAge (l : List ArithExc) (es : List ArithExc) : List ArithExc :=
  l.filter (fun o => es.any (fun e => decide (e.age ≤ o.age))) ++ es ++ l.filter (fun o => !es.any (fun e => decide (e.age ≤ o.age)))

/-- The result of a long operation reaches its register, and its exceptions become outstanding (R165, R169). -/
def applyLong (x : Thread) (o : LongOp) : Thread :=
  let y := match o.dest with
    | .general p => x.setAt p o.gval
    | .vector n => { x with vregs := mput 0 x.vregs n o.vval }
  { y with tstatus := y.tstatus ||| o.flags, excs := byAge y.excs o.excs }

/-- Every long operation under way completes, oldest first. -/
def settleAll (x : Thread) : Thread := { x.longOps.foldl applyLong x with longOps := [] }

/-- The long operations that write a register complete, with those before them (R169). -/
def settle (x : Thread) (d : Dest) : Thread :=
  if x.longOps.any (fun o => o.dest == d) then settleAll x else x

/-! ### Predictor crossings -/

/-- The threads a bulk clear concerns: both of a solo core (R186). -/
def clearScope (s : State) (t : Tid) : List Tid := if soloThread s t then [t, sibling t] else [t]

/-- A crossing starts a bulk clear: the thread fetches nothing until it completes, and its sibling only what it has fetched already
(R184 to R186). A clear under way is joined by the new one (R195). -/
def startClear (s : State) (t : Tid) : State :=
  let s := updC s (coreOf s t) (fun c => { c with clearEnd := 0 })
  (clearScope s t).foldl (fun s u =>
    let s := updT s u (fun x => { x with clearing := true, inFlight := u != t })
    pmEvent (s.putR (rBcPredCtrl u.val) (satInc (s.getR (rBcPredCtrl u.val)) BcPredCtrl.clear_count 1)) u 0x0F) s

def clearWhen (s : State) (t : Tid) (b : Bool) : State := if b then startClear s t else s

/-- Write a root register and begin the clear of R184 (R222). -/
def putRoot (s : State) (t : Tid) (second : Bool) (v : Word) : State :=
  startClear (s.putR (if second then rBcXlatRoot2 t.val else rBcXlatRoot1 t.val) (v &&& 0xFFFFFFFFFFFFFF03)) t

/-- The thread's next boundary comes: root writes of other requesters that waited for it take effect (R222). -/
def takeRoots (s : State) (t : Tid) : State :=
  (getT s t).rootReq.foldl (fun s q => putRoot s t q.1 q.2) (updT s t (fun x => { x with rootReq := [] }))

/-! ### Fault entry -/

/-- What an entry records (R155, R157). -/
structure Entry where
  kind   : Nat
  cause  : Nat
  vector : Nat
  detail : Word
  report : Word
  orig   : Option Word
  acc    : Option Word
  words  : List (BitVec 32)
  cap    : GReg
deriving DecidableEq, Repr

/-- The info word (R155, R156). -/
def infoWord (e : Entry) (pri : Nat) : Word :=
  BitVec.ofNat 64 (0x01 * 2 ^ 56 + pri * 2 ^ 46 + e.vector * 2 ^ 40 + ofBool e.orig.isSome * 2 ^ 33 +
    ofBool e.acc.isSome * 2 ^ 32 + e.kind * 2 ^ 8 + e.cause)

/-- A granule of two words, the lower first. -/
def pairG (lo hi : Word) : GReg := ⟨hi ++ lo, false⟩

/-- The fault frame, granule by granule (R155). -/
def frameImage (x : Thread) (e : Entry) (info : Word) (time : Nat) : List GReg :=
  let w (i : Nat) : Nat := ((e.words[i]?).map BitVec.toNat).getD 0
  [x.pcc, pairG info e.detail, pairG e.report (e.orig.getD 0), pairG (e.acc.getD 0) (BitVec.ofNat 64 time),
    pairG (BitVec.ofNat 64 (w 0 + w 1 * 2 ^ 32)) (BitVec.ofNat 64 (w 2)), pairG x.tstatus x.wstate, e.cap, GReg.zero] ++
  (List.range 7).map (fun i => x.at_ (i + 1)) ++ [GReg.zero] ++
  (List.range 8).map (fun i => x.at_ (16 + 16 * ((x.cwp + 1) % 16) + i)) ++ List.replicate 8 GReg.zero

/-- FSTACK as step 2 of R158 checks it, for the 512-byte block at `a`. -/
def fstackOk (v : GReg) (a : Word) : Bool :=
  v.tag && !sealed v && hasPerms v stackPerms && v.int.toNat % 16 == 0 && inBounds v a.toNat 512

/-- FGATE as step 2 of R158 checks it. -/
def fgateOk (v : GReg) : Bool := v.tag && capOtype v == 4095 && hasPerm v pEXEC

/-- The capability for the frame, its bounds exactly 512 bytes (R159, R132). -/
def frameCapAt (fs : GReg) (a : Word) : GReg :=
  let perms := 2 ^ pLOAD + 2 ^ pSTORE + 2 ^ pLOADCAP + 2 ^ pSTORECAP + ofBool (hasPerm fs pWORLD) * 2 ^ pWORLD
  let (e, b, t) := fitBounds a.toNat 512
  tagIf (capPack perms 0 e (b / 2 ^ e) ((t - b) / 2 ^ e - 1) a) true

/-- A thread stops: fault entry could not complete (R163). -/
def stopThread (s : State) (t : Tid) (cause reason : Nat) (vector : Option Nat) : State :=
  let pc := (getT s t).pc
  let s := updT s t (fun x => { x with run := .stopped, fault := none })
  let w := setFld (setFld (setFld (setFld 0 BcThreadStop.cause cause) BcThreadStop.reason reason) BcThreadStop.vector
    (vector.getD 0)) BcThreadStop.stopped 1
  let s := (s.putR (rBcThreadStop t.val) w).putR (rBcThreadStopPc t.val) pc
  let s := match vector with
    | some v => s.putF (rBcIrqPend t.val) ⟨v, v⟩ 1
    | none => s
  notify (logRecord s 0x14 (coreUid (coreOf s t)) 0x60 ((t.val ||| cause * 256) + reason * 65536) pc.toNat 0 0) rBcFaultSup

/-- Take a fault, a report or an interrupt (R158): the frame, the window, e0 and e1, and FGATE; or stop the thread (R163). -/
def enter (s : State) (t : Tid) (e : Entry) : State :=
  let vec := if e.kind = 2 then some e.vector else none
  let s := spillEngine 3 (updT s t settleAll) t
  let x := getT s t
  if x.free = 0 then stopThread s t e.cause 3 vec
  else
    let a := x.fstack.int - 512
    if !fstackOk x.fstack a then stopThread s t e.cause 1 vec
    else if !fgateOk x.fgate then stopThread s t e.cause 4 vec
    else
      let pri := s.getF (rBcIrqCtrl t.val) BcIrqCtrl.run_pri
      let info := infoWord e (min 16 pri)
      match storeFrame s t x.fstack a (frameImage x e info s.time) with
      | (s1, false) => stopThread s1 t e.cause 2 vec
      | (s1, true) =>
          let s2 := updT s1 t (fun y =>
            let y := advance y
            let c := y.cwp
            let y := (List.range 8).foldl (fun y i => y.setAt (16 + 16 * c + i)
              (if i = 0 then frameCapAt y.fstack a else if i = 1 then GReg.ofInt info else GReg.zero)) y
            { y with
              fstack := moveCursor y.fstack a
              wstate := setFld (setFld y.wstate Wstate.wfault 0) Wstate.wcause 0
              pcc := setOtype y.fgate 0
              fault := none
              run := .running })
          let s2 := deeper s2 t
          let s3 := if e.kind = 2 then s2.putF (rBcIrqCtrl t.val) BcIrqCtrl.run_pri (e.vector / 4 + 1) else s2
          pmEvent (clearWhen s3 t (s3.getB (rBcPredCtrl t.val) BcPredCtrl.clr_fault)) t (if e.kind = 2 then 0x0C else 0x0B)

/-- The mask of further arithmetic causes (R157, R166). -/
def excMask (cs : List Nat) : Nat := cs.foldl (fun m c => m ||| 2 ^ (c - 0x30)) 0

/-- Report the oldest outstanding arithmetic exception, the others merged (R165, R166, R170). -/
def reportExcs (s : State) (t : Tid) : State :=
  let s := updT s t settleAll
  let x := getT s t
  match x.excs with
  | [] => s
  | o :: more =>
    enter (updT s t (fun y => { y with excs := [] })) t {
      kind := 1, cause := o.cause, vector := 0, detail := BitVec.ofNat 64 (excMask (more.map (·.cause))),
      report := x.lastPc, orig := if o.known then some o.orig else none, acc := none, words := x.lastWords, cap := GReg.zero }

/-- A report is due at this boundary: the 64th instruction after its origin has retired (R165), an age counting the origin too. -/
def reportDue (x : Thread) : Bool :=
  x.excs.any (fun o => decide (65 ≤ o.age)) || x.longOps.any (fun o => o.excs.any (fun e => decide (65 ≤ e.age)))

/-! ### Executing one instruction -/

/-- Raise a precise fault: it is taken next (R154). -/
def raise (s : State) (t : Tid) (words : List (BitVec 32)) (f : Flt) : State :=
  takeRoots (updT s t (fun x => { x with replay := [], fetchAns := [], inFetch := false, heldX := [], inFlight := false, fault := some ⟨f.cause, f.detail, x.pc, f.acc, f.cap, words, f.noTgt⟩ })) t

/-- One word of a fetch: its page's translation, and where it leads (R154, R180). -/
def fetchWord (s : State) (t : Tid) (v : GReg) (a : Word) : R (Xl × State) := do
  let (x, s) ← translate s t .fetch a v
  match physClass s x.pa with
  | .device _ => faultAt (dropXlat s t a.toNat) 0x23 (some a) v (BitVec.ofNat 64 64)
  | _ => .ok (x, s)

/-- The words of a fetch are read in turn where they lead, a host aperture's by requests of 4 bytes (R152): `k` have been made. -/
def readWords (t : Tid) (v : GReg) : List (Word × Xl) → Nat → State → R State
  | [], _, s => .ok (updT s t (fun y => { y with inFetch := false }))
  | (a, x) :: xs, k, s =>
    match physClass s x.pa with
    | .hostAp p off =>
      (match hostRead (updT s t (fun y => { y with inFetch := true })) t v a p off 4 k x.ent with
       | .error e => .error e
       | .ok (none, s) => .ok s
       | .ok (some _, s) => readWords t v xs (k + 1) s)
    | _ =>
      match memRead s t v a x.pa 4 with
      | .error e => .error e
      | .ok _ => readWords t v xs k (touch (missEvents s t x 0 none 4) (coreOf s t) 0 x.pa 4)

/-- Fetch of `n` words at PCC: bounds and permission (R150, R180), then each word's translation, then their bytes (R153). The fetch waits
while a host answers. -/
def fetchCheck (s : State) (t : Tid) (n : Nat) : R State := do
  let v := (getT s t).pcc
  let a := v.int
  guardCap s (some a) v (dataCause (trusted s t) v [pEXEC] a.toNat (4 * n))
  let (xs, s) ← reachAll ((List.range n).map (fun i => fun s => (do
    let b := a + BitVec.ofNat 64 (4 * i)
    let (x, s) ← fetchWord s t v b
    .ok ((b, x), s) : R ((Word × Xl) × State)))) s
  readWords t v xs 0 s

/-- The opcode of a transfer of control, and of a conditional branch (R107 to R110). -/
def opTransfer (op : Nat) : Bool := decide (0x18 ≤ op) && decide (op ≤ 0x24)
def opBranch (op : Nat) : Bool := decide (0x18 ≤ op) && decide (op ≤ 0x1D)

/-- The predictors learn of the instruction at `pc` (R182): what a branch did under its history, where a taken transfer went, and
which block followed. Each entry is its thread's own (R186); the target buffer holds 8,192. -/
def learn (c : Core) (t : Tid) (x : Thread) (pc : Word) : Core :=
  let op := opOfWords x.lastWords
  let next (l : List NextPred) (a b : Word) : List NextPred :=
    ⟨t.val, a, b⟩ :: l.filter (fun e => !(e.thread == t.val && e.pc == a))
  let block (a : Word) : Word := a &&& 0xFFFFFFFFFFFFFFE0
  { c with
    dirs := if opBranch op then
        ⟨t.val, pc, x.pred.hist.tail, x.pred.hist.headD false⟩ ::
          c.dirs.filter (fun e => !(e.thread == t.val && e.pc == pc && e.hist == x.pred.hist.tail))
      else c.dirs
    targets := if opTransfer op && x.pc != pc + 4 then (next c.targets pc x.pc).take 8192 else c.targets
    blocks := if block x.pc != block pc then next c.blocks (block pc) (block x.pc) else c.blocks }

/-- An instruction has retired (R165, R172, R510). -/
def retire (s : State) (t : Tid) (pc : Word) : State :=
  let s := updC s (coreOf s t) (fun c => learn c t (getT s t) pc)
  takeRoots (pmEvent (pmEvent (updT s t (fun x => { x with
    lastPc := pc
    retired := x.retired + 1
    replay := []
    fetchAns := []
    heldX := []
    inFlight := false
    excs := x.excs.map (fun o => { o with age := o.age + 1 })
    longOps := x.longOps.map (fun o => { o with excs := o.excs.map (fun e => { e with age := e.age + 1 }) }) })) t 0x03)
    t 0x02 none (Config.uops (getT s t).retired)) t

/-- Execute one instruction of a thread that may (`ok`), `words` being its words: a due report is taken in its place; a fault leaves
nothing but what R79 and R232 name; an injected mismatch makes it slip or fall (R208); otherwise its effect stands and it retires. `body` gets the state after the fetch. -/
def instrIf (ok : Bool) (s : State) (t : Tid) (words : List (BitVec 32)) (body : State → R State) : State :=
  if !ok then s
  else if reportDue (getT s t) then reportExcs s t
  else if injectDue s t words then mismatch s t .integer true
  else
    let pc := (getT s t).pc
    match (do
      let s1 ← fetchCheck s t words.length
      if (getT s1 t).hostWait.isSome then .ok s1 else body s1) with
    | .ok s1 =>
      if (getT s1 t).hostWait.isSome then s1
      else retire (checkRetired s1 t pc words) t pc
    | .error (f, s1) => if f = notYet then s1 else raise s1 t words f

def instr (s : State) (t : Tid) (words : List (BitVec 32)) (body : State → R State) : State := instrIf (ready s t) s t words body

/-- The PCC cursor moves past the instruction. -/
def stepPc (s : State) (t : Tid) (n : Nat) : State :=
  updT s t (fun x => { x with pcc := x.pcc.setCursor (x.pc + BitVec.ofNat 64 (4 * n)) })

/-- What an instruction that falls through does: its effect, and past it. -/
def thenNext (t : Tid) (words : List (BitVec 32)) (body : State → R State) (s1 : State) : R State := do
  let s2 ← body s1
  .ok (if (getT s2 t).hostWait.isSome then s2 else stepPc s2 t words.length)

/-- An instruction that falls through. -/
def instrNext (s : State) (t : Tid) (words : List (BitVec 32)) (body : State → R State) : Host.Outcome State Fault Refusal :=
  .next (instr s t words (thenNext t words body))

/-- An instruction that sets PCC itself. -/
def instrJump (s : State) (t : Tid) (words : List (BitVec 32)) (body : State → R State) : Host.Outcome State Fault Refusal :=
  .next (instr s t words body)

/-- An instruction that is a report point: what is outstanding is reported in its place (R165, R168). -/
def atReportPoint (s : State) (t : Tid) (run : State → Host.Outcome State Fault Refusal) :
    Host.Outcome State Fault Refusal :=
  if ready s t then
    let s1 := updT s t settleAll
    if (getT s1 t).excs.isEmpty then run s1 else .next (reportExcs s1 t)
  else .next s

end Sys2Proof.Machine
end

