-- ==== Sys2Proof/Machine/IntOps.lean ====
section
/-! DEFINITION. Integer instructions (R103, R104, R111, R112): ALU, immediates, multiply, divide, trapping arithmetic, select. -/

namespace Sys2Proof.Machine

/-- Long operations that write a register named by the instruction complete first (R169). -/
def useRegs (s : State) (t : Tid) (rs : List RegNo) : State :=
  updT s t (fun x => rs.foldl (fun x r => settle x (.general (place x.cwp r))) x)

/-- Write rd of a thread with an integer result (R68). -/
def putInt (s : State) (t : Tid) (rd : RegNo) (w : Word) : State := updT s t (fun x => x.setInt rd w)

/-- An integer operation of two registers (R68, R103). -/
def regOp (s : State) (t : Tid) (op : Nat) (rd ra rb : RegNo) (fn : BitVec 10) (f : Word → Word → Word) :
    Host.Outcome State Fault Refusal :=
  instrNext s t [wREG op rd ra rb fn] (fun s =>
    let s := useRegs s t [rd, ra, rb]
    let x := getT s t
    .ok (putInt s t rd (f (x.int ra) (x.int rb))))

/-- An integer operation of a register and an immediate that LIMM words may widen (R101, R103). -/
def immOp (s : State) (t : Tid) (op : Nat) (limm : Limm) (rd ra : RegNo) (imm : BitVec 15) (f : Word → Word → Word) :
    Host.Outcome State Fault Refusal :=
  instrNext s t (wGroup limm (wIMM op rd ra imm)) (fun s =>
    match immOf limm imm with
    | none => illegal s
    | some i =>
      let s := useRegs s t [rd, ra]
      .ok (putInt s t rd (f ((getT s t).int ra) i)))

/-! ### The functions -/

def shAmt (b : Word) : Nat := b.toNat % 64
def sllW (a b : Word) : Word := a <<< shAmt b
def srlW (a b : Word) : Word := a >>> shAmt b
def sraW (a b : Word) : Word := a.sshiftRight (shAmt b)
def rolW (a b : Word) : Word := a.rotateLeft (shAmt b)
def rorW (a b : Word) : Word := a.rotateRight (shAmt b)

/-- Leading zeros of 64 bits; 64 for zero (R104). -/
def clzW (a : Word) : Word := BitVec.ofNat 64 (((List.range 64).find? (fun i => a.getLsbD (63 - i))).getD 64)
/-- Trailing zeros of 64 bits; 64 for zero (R104). -/
def ctzW (a : Word) : Word := BitVec.ofNat 64 (((List.range 64).find? (fun i => a.getLsbD i)).getD 64)
def popcW (a : Word) : Word := BitVec.ofNat 64 ((List.range 64).countP (fun i => a.getLsbD i))
def bswapW (a : Word) : Word := BitVec.ofNat 64 (ofBytes (toBytes 8 a.toNat).reverse)
def boolW (b : Bool) : Word := if b then 1 else 0
def sltW (a b : Word) : Word := boolW (a.slt b)
def sltuW (a b : Word) : Word := boolW (a.ult b)
def minS (a b : Word) : Word := if a.slt b then a else b
def maxS (a b : Word) : Word := if a.slt b then b else a
def minU (a b : Word) : Word := if a.ult b then a else b
def maxU (a b : Word) : Word := if a.ult b then b else a

/-- The high 64 bits of an exact product. -/
def highW (p : Int) : Word := BitVec.ofInt 64 (p >>> 64)
def mulHighSS (a b : Word) : Word := highW (a.toInt * b.toInt)
def mulHighUU (a b : Word) : Word := highW ((a.toNat : Int) * b.toNat)
def mulHighSU (a b : Word) : Word := highW (a.toInt * (b.toNat : Int))

/-! ### ALU -/

def execAdd (t : Tid) (rd ra rb : RegNo) (s : State) := regOp s t 0x02 rd ra rb 0 (· + ·)
def execSub (t : Tid) (rd ra rb : RegNo) (s : State) := regOp s t 0x02 rd ra rb 1 (· - ·)
def execAnd (t : Tid) (rd ra rb : RegNo) (s : State) := regOp s t 0x02 rd ra rb 2 (· &&& ·)
def execOr (t : Tid) (rd ra rb : RegNo) (s : State) := regOp s t 0x02 rd ra rb 3 (· ||| ·)
def execXor (t : Tid) (rd ra rb : RegNo) (s : State) := regOp s t 0x02 rd ra rb 4 (· ^^^ ·)
def execAndn (t : Tid) (rd ra rb : RegNo) (s : State) := regOp s t 0x02 rd ra rb 5 (fun a b => a &&& ~~~b)
def execSll (t : Tid) (rd ra rb : RegNo) (s : State) := regOp s t 0x02 rd ra rb 6 sllW
def execSrl (t : Tid) (rd ra rb : RegNo) (s : State) := regOp s t 0x02 rd ra rb 7 srlW
def execSra (t : Tid) (rd ra rb : RegNo) (s : State) := regOp s t 0x02 rd ra rb 8 sraW
def execRol (t : Tid) (rd ra rb : RegNo) (s : State) := regOp s t 0x02 rd ra rb 9 rolW
def execRor (t : Tid) (rd ra rb : RegNo) (s : State) := regOp s t 0x02 rd ra rb 10 rorW
def execClz (t : Tid) (rd ra rb : RegNo) (s : State) := regOp s t 0x02 rd ra rb 11 (fun a _ => clzW a)
def execCtz (t : Tid) (rd ra rb : RegNo) (s : State) := regOp s t 0x02 rd ra rb 12 (fun a _ => ctzW a)
def execPopc (t : Tid) (rd ra rb : RegNo) (s : State) := regOp s t 0x02 rd ra rb 13 (fun a _ => popcW a)
def execBswap (t : Tid) (rd ra rb : RegNo) (s : State) := regOp s t 0x02 rd ra rb 14 (fun a _ => bswapW a)
def execSlt (t : Tid) (rd ra rb : RegNo) (s : State) := regOp s t 0x02 rd ra rb 15 sltW
def execSltu (t : Tid) (rd ra rb : RegNo) (s : State) := regOp s t 0x02 rd ra rb 16 sltuW
def execMin (t : Tid) (rd ra rb : RegNo) (s : State) := regOp s t 0x02 rd ra rb 17 minS
def execMax (t : Tid) (rd ra rb : RegNo) (s : State) := regOp s t 0x02 rd ra rb 18 maxS
def execMinu (t : Tid) (rd ra rb : RegNo) (s : State) := regOp s t 0x02 rd ra rb 19 minU
def execMaxu (t : Tid) (rd ra rb : RegNo) (s : State) := regOp s t 0x02 rd ra rb 20 maxU

/-! ### Immediates -/

def execAddi (t : Tid) (limm : Limm) (rd ra : RegNo) (imm : BitVec 15) (s : State) := immOp s t 0x03 limm rd ra imm (· + ·)
def execAndi (t : Tid) (limm : Limm) (rd ra : RegNo) (imm : BitVec 15) (s : State) := immOp s t 0x04 limm rd ra imm (· &&& ·)
def execOri (t : Tid) (limm : Limm) (rd ra : RegNo) (imm : BitVec 15) (s : State) := immOp s t 0x05 limm rd ra imm (· ||| ·)
def execXori (t : Tid) (limm : Limm) (rd ra : RegNo) (imm : BitVec 15) (s : State) := immOp s t 0x06 limm rd ra imm (· ^^^ ·)
def execSlti (t : Tid) (limm : Limm) (rd ra : RegNo) (imm : BitVec 15) (s : State) := immOp s t 0x08 limm rd ra imm sltW
def execSltiu (t : Tid) (limm : Limm) (rd ra : RegNo) (imm : BitVec 15) (s : State) := immOp s t 0x09 limm rd ra imm sltuW

/-- The operation of SHI by imm15 bits 14:12 (R103); bits 11:6 are taken as reserved (notes/assumptions/11.md). -/
def shiOp (imm : BitVec 15) (a : Word) : Option Word :=
  let n : Word := BitVec.ofNat 64 (imm.toNat % 64)
  if imm.toNat / 64 % 64 ≠ 0 then none
  else
    match imm.toNat / 4096 with
    | 0 => some (sllW a n)
    | 1 => some (srlW a n)
    | 2 => some (sraW a n)
    | 3 => some (rolW a n)
    | 4 => some (rorW a n)
    | _ => none

def execShi (t : Tid) (limm : Limm) (rd ra : RegNo) (imm : BitVec 15) (s : State) : Host.Outcome State Fault Refusal :=
  instrNext s t (wGroup limm (wIMM 0x07 rd ra imm)) (fun s =>
    let s := useRegs s t [rd, ra]
    match (if limm.isEmpty then shiOp imm ((getT s t).int ra) else none) with
    | none => illegal s
    | some w => .ok (putInt s t rd w))

/-- A bit-field operation on the old rd and ra (R103). -/
def bitfOp (b : Bitf) (old a : Word) : Word :=
  match b.kind with
  | .extract => BitVec.ofNat 64 (a.toNat / 2 ^ b.pos % 2 ^ b.width)
  | .extractSigned => BitVec.ofInt 64 (sextNat b.width (a.toNat / 2 ^ b.pos % 2 ^ b.width))
  | .insert =>
    let m : Word := BitVec.ofNat 64 ((2 ^ b.width - 1) * 2 ^ b.pos)
    (old &&& ~~~m) ||| ((a <<< b.pos) &&& m)

def execBitf (t : Tid) (limm : Limm) (rd ra : RegNo) (imm : BitVec 15) (s : State) : Host.Outcome State Fault Refusal :=
  instrNext s t (wGroup limm (wIMM 0x12 rd ra imm)) (fun s =>
    let s := useRegs s t [rd, ra]
    match (if limm.isEmpty then Config.bitfDecode imm else none) with
    | none => illegal s
    | some b => .ok (putInt s t rd (bitfOp b ((getT s t).int rd) ((getT s t).int ra))))

/-! ### Results with conditions -/

/-- A result and the arithmetic conditions its instruction met, as they reach the thread: at once, in order, with precise_arith = 1
(R167); otherwise the exceptions stay outstanding, and a long operation's result and exceptions wait (R165, R169). -/
def arith (s : State) (t : Tid) (words : List (BitVec 32)) (d : Dest) (g : GReg) (v : Vec) (cs : List ArithCond)
    (long : Bool) : State :=
  let x := getT s t
  let faults := condFaults x.tctrl cs
  let flags := condFlags x.tctrl cs
  if fldB x.tctrl Tctrl.precise_arith then
    updT s t (fun x =>
      let y := applyLong x ⟨d, g, v, [], flags⟩
      match faults with
      | [] => y
      | c :: more => { y with
          fault := some ⟨c.cause, BitVec.ofNat 64 (excMask (more.map ArithCond.cause)), x.pc, none, GReg.zero, words, none⟩ })
  else
    let op : LongOp := ⟨d, g, v, faults.map (fun c => ⟨c.cause, x.pc, true, 0⟩), flags⟩
    updT s t (fun x => if long then { x with longOps := x.longOps ++ [op] } else applyLong x op)

/-- An arithmetic instruction on two registers that may meet conditions. -/
def arithOp (s : State) (t : Tid) (op : Nat) (rd ra rb : RegNo) (fn : BitVec 10) (long : Bool)
    (f : Word → Word → Word × List ArithCond) : Host.Outcome State Fault Refusal :=
  let ws := [wREG op rd ra rb fn]
  instrNext s t ws (fun s =>
    let s := useRegs s t [rd, ra, rb]
    let x := getT s t
    let r := f (x.int ra) (x.int rb)
    .ok (arith s t ws (.general (place x.cwp rd)) (GReg.ofInt r.1) 0 r.2 long))

/-! ### Multiply and divide (R104, R169) -/

def execMulLow (t : Tid) (rd ra rb : RegNo) (s : State) := regOp s t 0x0A rd ra rb 0 (· * ·)
def execMulHighSigned (t : Tid) (rd ra rb : RegNo) (s : State) :=
  arithOp s t 0x0A rd ra rb 1 true (fun a b => (mulHighSS a b, []))
def execMulHighUnsigned (t : Tid) (rd ra rb : RegNo) (s : State) :=
  arithOp s t 0x0A rd ra rb 2 true (fun a b => (mulHighUU a b, []))
def execMulHighSignedUnsigned (t : Tid) (rd ra rb : RegNo) (s : State) :=
  arithOp s t 0x0A rd ra rb 3 true (fun a b => (mulHighSU a b, []))
def execDiv (t : Tid) (rd ra rb : RegNo) (s : State) := arithOp s t 0x0B rd ra rb 0 true (fun a b => (divS a b, []))
def execDivu (t : Tid) (rd ra rb : RegNo) (s : State) := arithOp s t 0x0B rd ra rb 1 true (fun a b => (divU a b, []))
def execRem (t : Tid) (rd ra rb : RegNo) (s : State) := arithOp s t 0x0B rd ra rb 2 true (fun a b => (remS a b, []))
def execRemu (t : Tid) (rd ra rb : RegNo) (s : State) := arithOp s t 0x0B rd ra rb 3 true (fun a b => (remU a b, []))

/-- A long operation under way writes its result (R169). -/
def execLongOpComplete (t : Tid) (k : Nat) (s : State) : Host.Outcome State Fault Refusal :=
  .next (if !coreRuns s t then s
    else updT s t (fun x =>
      match x.longOps[k]? with
      | none => x
      | some o => { applyLong x o with longOps := x.longOps.eraseIdx k }))

/-! ### Trapping arithmetic (R112) -/

/-- An exact signed result and its overflow condition. -/
def trapW (v : Int) : Word × List ArithCond := (BitVec.ofInt 64 v, if sOverflow v then [.intOv] else [])

def minInt64 : Word := 0x8000000000000000

def execAddt (t : Tid) (rd ra rb : RegNo) (s : State) :=
  arithOp s t 0x0C rd ra rb 0 false (fun a b => trapW (a.toInt + b.toInt))
def execSubt (t : Tid) (rd ra rb : RegNo) (s : State) :=
  arithOp s t 0x0D rd ra rb 0 false (fun a b => trapW (a.toInt - b.toInt))
def execMult (t : Tid) (rd ra rb : RegNo) (s : State) :=
  arithOp s t 0x0E rd ra rb 0 false (fun a b => trapW (a.toInt * b.toInt))
def execDivtQuotient (t : Tid) (rd ra rb : RegNo) (s : State) :=
  arithOp s t 0x0F rd ra rb 0 true (fun a b =>
    (divS a b, if b = 0 then [.intDz] else if a = minInt64 ∧ b = -1 then [.intOv] else []))
def execDivtRemainder (t : Tid) (rd ra rb : RegNo) (s : State) :=
  arithOp s t 0x0F rd ra rb 1 true (fun a b => (remS a b, if b = 0 then [.intDz] else []))

/-! ### Select (R111) -/

def execSel (t : Tid) (rd ra rb rc : RegNo) (cond : BitVec 3) (rsv : BitVec 2) (s : State) :
    Host.Outcome State Fault Refusal :=
  instrNext s t [wSEL 0x10 rd ra rb rc (cond ++ rsv)] (fun s =>
    let s := useRegs s t [rd, ra, rb, rc]
    let x := getT s t
    match (if rsv = 0 then selCond cond (x.int rc) else none) with
    | none => illegal s
    | some c => .ok (updT s t (fun y => y.setGreg rd (if c then x.greg ra else x.greg rb))))

def execCmov (t : Tid) (rd ra rb rc : RegNo) (cond : BitVec 3) (rsv : BitVec 2) (s : State) :
    Host.Outcome State Fault Refusal :=
  instrNext s t [wSEL 0x11 rd ra rb rc (cond ++ rsv)] (fun s =>
    let s := useRegs s t [rd, ra, rc]
    let x := getT s t
    match (if rsv = 0 ∧ rb = 0 then selCond cond (x.int rc) else none) with
    | none => illegal s
    | some c => .ok (updT s t (fun y => if c then y.setGreg rd (x.greg ra) else y)))

end Sys2Proof.Machine
end

