-- ==== Sys2Proof/Machine/CapOps.lean ====
section
/-! DEFINITION. Capability instructions (R132, R139, R140). -/

namespace Sys2Proof.Machine

/-- A capability operation of two registers whose result, or cause and the operand it is laid to, is `f`. -/
def capOp (s : State) (t : Tid) (rd ra rb : RegNo) (fn : BitVec 10) (f : Bool → GReg → GReg → Except Nat GReg) :
    Host.Outcome State Fault Refusal :=
  instrNext s t [wREG 0x50 rd ra rb fn] (fun s =>
    let s := useRegs s t [rd, ra, rb]
    let x := getT s t
    match f (trusted s t) (x.greg ra) (x.greg rb) with
    | .error c => faultAt s c none (x.greg ra)
    | .ok g => .ok (updT s t (fun y => y.setGreg rd g)))

def okInt (w : Word) : Except Nat GReg := .ok (GReg.ofInt w)

/-- A length as the capability instructions give it: 2^64 − 1 for 2^64, and also for the greater length of an untagged value whose fields
are ill-formed, of which R139 says nothing (DESIGN CHOICE, notes/assumptions/59.md). -/
def lenWord (n : Int) : Word := if 18446744073709551616 ≤ n then 0xFFFFFFFFFFFFFFFF else BitVec.ofInt 64 n

/-- World and seal of a source that may be untagged (R138, R140). -/
def moveCause (tw : Bool) (v : GReg) : Option Nat :=
  if v.tag && hasPerm v pWORLD && !tw then some 0x18 else if sealed v then some 0x11 else none

/-- The second operand of a derivation is used too (R138): a capability carrying WORLD there raises 0x18 in a normal-world thread,
after a missing tag of the first where that is asked for, and before its seal (R149). -/
def withRb (tw : Bool) (a b : GReg) (needTag : Bool) (r : Except Nat GReg) : Except Nat GReg :=
  if b.tag && hasPerm b pWORLD && !tw then (if needTag && !a.tag then .error 0x10 else .error 0x18) else r

/-- The cursor of a source moved to `c` (R131, R140). -/
def moveOp (tw : Bool) (v : GReg) (c : Word) : Except Nat GReg :=
  match moveCause tw v with
  | some k => .error k
  | none => .ok (moveCursor v c)

/-- Bounds set at the cursor (R132): `exact` as CXBOUNDX, `neg` where CXBOUNDI has a negative immediate. -/
def boundOp (tw : Bool) (v : GReg) (n : Nat) (exact neg : Bool) : Except Nat GReg :=
  match useCause tw v with
  | some k => .error k
  | none =>
    if neg || (exact && !boundsExact v n) then .error 0x14
    else
      match setBounds v n with
      | none => .error 0x15
      | some g => .ok g

def execCxbase (t : Tid) (rd ra rb : RegNo) (s : State) :=
  capOp s t rd ra rb 0 (fun _ a _ => okInt (BitVec.ofInt 64 (capBase a)))
def execCxlen (t : Tid) (rd ra rb : RegNo) (s : State) :=
  capOp s t rd ra rb 1 (fun _ a _ => okInt (lenWord (capTop a - capBase a)))
def execCxperm (t : Tid) (rd ra rb : RegNo) (s : State) :=
  capOp s t rd ra rb 2 (fun _ a _ => okInt (BitVec.ofNat 64 (capPerms a)))
def execCxtype (t : Tid) (rd ra rb : RegNo) (s : State) :=
  capOp s t rd ra rb 3 (fun _ a _ => okInt (BitVec.ofNat 64 (capOtype a)))
def execCxtag (t : Tid) (rd ra rb : RegNo) (s : State) := capOp s t rd ra rb 4 (fun _ a _ => okInt (boolW a.tag))
def execCxmove (t : Tid) (rd ra rb : RegNo) (s : State) := capOp s t rd ra rb 5 (fun tw a b => withRb tw a b false (moveOp tw a b.int))

/-- Permissions kept where their bit of the mask is clear (R139). -/
def execCxdrop (t : Tid) (rd ra rb : RegNo) (s : State) :=
  capOp s t rd ra rb 6 (fun tw a b => withRb tw a b true (
    match useCause tw a with
    | some k => .error k
    | none => .ok (setPerms a (capPerms a &&& (4095 - b.int.toNat % 4096)))))

def execCxbound (t : Tid) (rd ra rb : RegNo) (s : State) :=
  capOp s t rd ra rb 7 (fun tw a b => withRb tw a b true (boundOp tw a b.int.toNat false false))
def execCxboundx (t : Tid) (rd ra rb : RegNo) (s : State) :=
  capOp s t rd ra rb 8 (fun tw a b => withRb tw a b true (boundOp tw a b.int.toNat true false))

/-- CXSEAL (R140), its causes in the order of R149. -/
def sealOp (tw : Bool) (a b : GReg) : Except Nat GReg :=
  let o := b.int.toNat
  if !a.tag || !b.tag then .error 0x10
  else if (hasPerm a pWORLD || hasPerm b pWORLD) && !tw then .error 0x18
  else if sealed a || sealed b then .error 0x11
  else if !hasPerm b pSEAL || (o == 4095 && (!hasPerm b pGATE || !hasPerm a pEXEC)) then .error 0x12
  else if !((decide (1 ≤ o) && decide (o ≤ 4092)) || o == 4095) || !inBounds b o 1 then .error 0x16
  else .ok (setOtype a o)

/-- CXOPEN (R140). -/
def openOp (tw : Bool) (a b : GReg) : Except Nat GReg :=
  let o := capOtype a
  if !a.tag || !b.tag then .error 0x10
  else if (hasPerm a pWORLD || hasPerm b pWORLD) && !tw then .error 0x18
  else if sealed b then .error 0x11
  else if !hasPerm b pUNSEAL then .error 0x12
  else if !(decide (1 ≤ o) && decide (o ≤ 4092)) || b.int.toNat != o || !inBounds b o 1 then .error 0x16
  else
    let g := setOtype a 0
    .ok (if hasPerm a pGLOBAL && hasPerm b pGLOBAL then g else setPerms g (capPerms g &&& 0x7FF))

def execCxseal (t : Tid) (rd ra rb : RegNo) (s : State) := capOp s t rd ra rb 9 sealOp
def execCxopen (t : Tid) (rd ra rb : RegNo) (s : State) := capOp s t rd ra rb 10 openOp
def execCxstrip (t : Tid) (rd ra rb : RegNo) (s : State) := capOp s t rd ra rb 11 (fun _ a _ => .ok { a with tag := false })

/-- CXWITHIN (R139). -/
def withinW (a b : GReg) : Word :=
  if !a.tag || !b.tag then 0
  else BitVec.ofNat 64 (ofBool (decide (capBase b ≤ capBase a) && decide (capTop a ≤ capTop b)) +
    2 * ofBool (capPerms a &&& capPerms b == capPerms a) + 4 * ofBool (capOtype a == capOtype b))

def execCxwithin (t : Tid) (rd ra rb : RegNo) (s : State) := capOp s t rd ra rb 12 (fun _ a b => okInt (withinW a b))
/-- CXFITLEN (R139): where c + n passes 2^64 it gives 2^64 − 1 as R139 says, also where R132's t − b of the wrapped top is less
(DESIGN CHOICE, notes/assumptions/59.md). -/
def execCxfitlen (t : Tid) (rd ra rb : RegNo) (s : State) :=
  capOp s t rd ra rb 13 (fun _ a b =>
    let (_, bs, tp) := fitBounds a.int.toNat b.int.toNat
    okInt (if 18446744073709551616 < a.int.toNat + b.int.toNat then 0xFFFFFFFFFFFFFFFF else lenWord ((tp : Int) - bs)))
def execCxfitbase (t : Tid) (rd ra rb : RegNo) (s : State) :=
  capOp s t rd ra rb 14 (fun _ a b => okInt (BitVec.ofNat 64 (fitBounds a.int.toNat b.int.toNat).2.1))

/-- A capability operation of a register and an immediate (R101, R139). -/
def capImm (s : State) (t : Tid) (op : Nat) (limm : Limm) (rd ra : RegNo) (imm : BitVec 15)
    (f : Bool → GReg → Word → Except Nat GReg) : Host.Outcome State Fault Refusal :=
  instrNext s t (wGroup limm (wIMM op rd ra imm)) (fun s =>
    match immOf limm imm with
    | none => illegal s
    | some i =>
      let s := useRegs s t [rd, ra]
      let x := getT s t
      match f (trusted s t) (x.greg ra) i with
      | .error c => faultAt s c none (x.greg ra)
      | .ok g => .ok (updT s t (fun y => y.setGreg rd g)))

def execCxaddi (t : Tid) (limm : Limm) (rd ra : RegNo) (imm : BitVec 15) (s : State) :=
  capImm s t 0x51 limm rd ra imm (fun tw a i => moveOp tw a (a.int + i))
def execCxboundi (t : Tid) (limm : Limm) (rd ra : RegNo) (imm : BitVec 15) (s : State) :=
  capImm s t 0x52 limm rd ra imm (fun tw a i => boundOp tw a i.toNat false (i.slt 0))

end Sys2Proof.Machine
end

