-- ==== Sys2Proof/Machine/Interrupts.lean ====
section
/-! DEFINITION. The interrupt router (R32, R171 to R173). -/

namespace Sys2Proof.Machine

/-- A message reaches the router: discarded where its thread number is not assigned, or its core is switching worlds (R32, R436);
otherwise its pending bit is set, and held while the core is unbound. -/
def routeIrq (s : State) (m : IrqMsg) : State :=
  let gone : Bool := match s.vault.sw with
    | some (v, _) => v == m.thread / 2
    | none => false
  if !threadAssigned s m.thread || gone then
    let s := { s with irqDiscards := s.irqDiscards + 1 }
    if m.source = uidBaseCamp then s else logRecord s 0x15 uidDevice 0 (m.thread % 512 + m.vector * 1024) m.source 0 0
  else
    let v := m.thread / 2
    let s := s.putF (rBcIrqPend m.thread) ⟨m.vector, m.vector⟩ 1
    if vmapB s v BcVcoreMap.bound || s.sparings.any (fun q => q.vcore == v) then s
    else notify (logRecord s 0x12 (s.getF (rBcVcoreMap v) BcVcoreMap.phys_unit) 0 (v + 512) 0 0 0) rBcWithdrawNotify

def execInterruptMessage (k : Nat) (s : State) : Host.Outcome State Fault Refusal :=
  .next (match s.irqMsgs[k]? with
    | none => s
    | some m => routeIrq { s with irqMsgs := s.irqMsgs.eraseIdx k } m)

/-- The unit an interrupt a requester sends comes from. -/
def requesterUid (s : State) : Requester → Nat
  | .baseCamp => uidBaseCamp
  | .thread t => coreUid (coreOf s t)
  | .host p _ => portUid p

/-- A write of BC_IRQ_SEND_t (R173). -/
def execIrqSend (r : Requester) (t : Tid) (v : BitVec 6) (s : State) : Host.Outcome State Fault Refusal :=
  .next (match r with
    | .host _ _ => s
    | _ => if blockUp s uidBaseCamp then sendIrq s t.val v.toNat (requesterUid s r) else s)

end Sys2Proof.Machine
end

