-- ==== Sys2Proof/Machine/Control.lean ====
section
/-! DEFINITION. Control transfer (R107 to R110), gates (R144 to R147), the fault gate (R161, R162), and WAIT. -/

namespace Sys2Proof.Machine

/-- Bounds and alignment of a transfer target under the capability that becomes PCC (R97, R108). -/
def targetCause (v : GReg) (a : Word) : Option Nat :=
  if !inBounds v a.toNat 4 then some 0x13 else if a.toNat % 4 ≠ 0 then some 0x02 else none

/-- Install a capability as PCC at a target. -/
def setPcc (s : State) (t : Tid) (v : GReg) (a : Word) : State := updT s t (fun x => { x with pcc := v.setCursor a })

/-- A transfer of this thread retires (R510): its outcome enters the path history (R182), an unconditional one (J, JR, CALL, CALLR, RET,
TRAP, FRET) as taken, where the spec says only that branch outcomes do (DESIGN CHOICE, notes/assumptions/20.md). -/
def transferred (s : State) (t : Tid) (taken : Bool) : State :=
  pmEvent (updT s t (fun x => { x with pred := { x.pred with hist := (taken :: x.pred.hist).take 640 } })) t 0x12

/-- Entries of the return stack: 64, or 32 on a solo core (R182, R186). -/
def returnSlots (s : State) (t : Tid) : Nat := if soloThread s t then 32 else 64

/-- A push on a ring of `n` overwrites its oldest entry when it is full (R182). -/
def Pred.push (p : Pred) (n : Nat) (a : Word) : Pred :=
  let i := (p.top + 1) % n
  { p with slots := mput 0 p.slots i a, top := i, depth := min n (p.depth + 1) }

def Pred.pop (p : Pred) (n : Nat) : Pred :=
  if p.depth = 0 then p else { p with top := (p.top + n - 1) % n, depth := p.depth - 1 }

/-- CALL, CALLR and TRAP push their return address (R182). -/
def pushReturn (s : State) (t : Tid) (a : Word) : State :=
  updT s t (fun x => { x with pred := x.pred.push (returnSlots s t) a })

def popReturn (s : State) (t : Tid) : State :=
  updT s t (fun x => { x with pred := x.pred.pop (returnSlots s t) })

/-- A branch to the instruction's own address plus four times the displacement (R98, R107, R108). -/
def relTarget (x : Thread) (disp : Word) : Word := x.pc + (disp <<< 2)

def branch (s : State) (t : Tid) (op : Nat) (ra rb : RegNo) (disp : BitVec 15) (c : Word → Word → Bool) :
    Host.Outcome State Fault Refusal :=
  instrJump s t [wBR op ra rb disp] (fun s => do
    let s := useRegs s t [ra, rb]
    let x := getT s t
    if c (x.int ra) (x.int rb) then
      let a := relTarget x (disp.signExtend 64)
      guardCap s (some a) x.pcc (targetCause x.pcc a)
      .ok (transferred (setPcc s t x.pcc a) t true)
    else .ok (transferred (stepPc s t 1) t false))

def execBeq (t : Tid) (ra rb : RegNo) (disp : BitVec 15) (s : State) := branch s t 0x18 ra rb disp (fun a b => a == b)
def execBne (t : Tid) (ra rb : RegNo) (disp : BitVec 15) (s : State) := branch s t 0x19 ra rb disp (fun a b => a != b)
def execBlt (t : Tid) (ra rb : RegNo) (disp : BitVec 15) (s : State) := branch s t 0x1A ra rb disp (fun a b => a.slt b)
def execBge (t : Tid) (ra rb : RegNo) (disp : BitVec 15) (s : State) := branch s t 0x1B ra rb disp (fun a b => !a.slt b)
def execBltu (t : Tid) (ra rb : RegNo) (disp : BitVec 15) (s : State) := branch s t 0x1C ra rb disp (fun a b => a.ult b)
def execBgeu (t : Tid) (ra rb : RegNo) (disp : BitVec 15) (s : State) := branch s t 0x1D ra rb disp (fun a b => !a.ult b)

def execJ (t : Tid) (disp : BitVec 25) (s : State) : Host.Outcome State Fault Refusal :=
  instrJump s t [wJMP 0x1E disp] (fun s => do
    let x := getT s t
    let a := relTarget x (disp.signExtend 64)
    guardCap s (some a) x.pcc (targetCause x.pcc a)
    .ok (transferred (setPcc s t x.pcc a) t true))

def execJr (t : Tid) (ra : RegNo) (s : State) : Host.Outcome State Fault Refusal :=
  instrJump s t [wREG 0x1F 0 ra 0 0] (fun s => do
    let s := useRegs s t [ra]
    let v := (getT s t).greg ra
    guardCap s (some v.int) v (pccCause (trusted s t) v)
    guardCap s (some v.int) v (targetCause v v.int)
    .ok (transferred (setPcc s t v v.int) t true))

/-- The return capability: PCC at the next instruction, sealed with `o` (R109, R145). -/
def returnCap (x : Thread) (n o : Nat) : GReg :=
  let v := moveCursor x.pcc (x.pc + BitVec.ofNat 64 (4 * n))
  if o = 0 then v else setOtype v o

/-- Steps 3 to 5 of R109: x7, the window, PCC. -/
def doCall (s : State) (t : Tid) (n o : Nat) (v : GReg) (a : Word) : State :=
  let r := returnCap (getT s t) n o
  let s := updT s t (fun x => advance (x.setGreg x7 r))
  transferred (pushReturn (setPcc s t v a) t r.int) t true

def execCall (t : Tid) (disp : BitVec 25) (s : State) : Host.Outcome State Fault Refusal :=
  atReportPoint s t (fun s => instrJump s t [wJMP 0x20 disp] (fun s => do
    let x := getT s t
    let a := relTarget x (disp.signExtend 64)
    guardCap s (some a) x.pcc (targetCause x.pcc a)
    let s ← waitFree s t 2
    .ok (doCall s t 1 0 x.pcc a)))

/-- What CALLR may transfer to: an unsealed capability, or a sealed entry (R109, R146). -/
def callCause (tw : Bool) (v : GReg) : Option Nat :=
  if !v.tag then some 0x10
  else if hasPerm v pWORLD && !tw then some 0x18
  else if capOtype v ≠ 0 ∧ capOtype v ≠ 4095 then some 0x11
  else if !hasPerm v pEXEC then some 0x12
  else none

def execCallr (t : Tid) (ra : RegNo) (s : State) : Host.Outcome State Fault Refusal :=
  atReportPoint s t (fun s => instrJump s t [wREG 0x21 0 ra 0 0] (fun s => do
    let s := useRegs s t [ra]
    let v := (getT s t).greg ra
    guardCap s (some v.int) v (callCause (trusted s t) v)
    guardCap s (some v.int) v (targetCause v v.int)
    let s ← waitFree s t 2
    let gate := capOtype v == 4095
    let s := doCall s t 1 (if gate then 4094 else 0) (setOtype v 0) v.int
    .ok (clearWhen s t (gate && s.getB (rBcPredCtrl t.val) BcPredCtrl.clr_gates))))

/-- What RET may return through (R110, R147). -/
def retCause (tw : Bool) (v : GReg) : Option Nat :=
  if !v.tag then some 0x10
  else if hasPerm v pWORLD && !tw then some 0x18
  else if capOtype v ≠ 0 ∧ capOtype v ≠ 4093 ∧ capOtype v ≠ 4094 then some 0x11
  else if !hasPerm v pEXEC then some 0x12
  else none

def execRet (t : Tid) (s : State) : Host.Outcome State Fault Refusal :=
  atReportPoint s t (fun s => instrJump s t [wREG 0x22 0 0 0 0] (fun s => do
    let v := (getT s t).greg e7
    guardCap s (some v.int) v (retCause (trusted s t) v)
    guardCap s (some v.int) v (targetCause v v.int)
    let s ← fillForReturn s t
    let s := popReturn (setPcc (updT s t retreat) t (setOtype v 0) v.int) t
    let o := capOtype v
    .ok (clearWhen (transferred s t true) t
      (o == 4093 || (o == 4094 && s.getB (rBcPredCtrl t.val) BcPredCtrl.clr_gates)))))

/-- The spill engine acts: it spills the oldest frame while res is above 13 and no spill is blocked (R74). -/
def execSpill (t : Tid) (s : State) : Host.Outcome State Fault Refusal :=
  .next (if coreRuns s t then spillEngine 1 s t else s)

/-- A fill started early by a speculative RET, or one already issued that goes on although an entry came first: the filled frame stays
resident (R75, R84). -/
def execWindowFill (t : Tid) (s : State) : Host.Outcome State Fault Refusal :=
  .next (if coreRuns s t ∧ ((getT s t).res = 1 ∨ (getT s t).fillAns ≠ []) then
      match fillOne s t with
      | .ok (_, s1) => s1
      | .error _ => s
    else s)

/-! ### Gates -/

/-- GATETAB as TRAP checks it (R145). -/
def gatetabOk (v : GReg) (n : Nat) : Bool :=
  v.tag && !sealed v && hasPerms v [pLOAD, pLOADCAP] && decide (capBase v % 64 = 0) &&
    decide (capBase v + 64 * n + 64 ≤ capTop v)

/-- A gate descriptor as TRAP checks it (R144, R145). -/
def gateOk (d : List GReg) : Bool :=
  let e := d.getD 0 GReg.zero
  let w := d.getD 1 GReg.zero
  let c := (d.getD 2 GReg.zero).data
  c.getLsbD 0 && (c >>> 2) == 0 && (d.getD 3 GReg.zero).data == 0 &&
    e.tag && capOtype e == 4095 && hasPerm e pEXEC &&
    (!w.tag || (capOtype w == 0 && hasPerms w stackPerms))

/-- The return to the caller's frame when the WSTACK replacement of a TRAP fails (R145): `old` is the thread before the TRAP. -/
def trapUndo (old y : Thread) : Thread :=
  let z := { y.setAt (place old.cwp x7) (old.greg x7) with pcc := old.pcc, wstate := setFld y.wstate Wstate.cwp old.cwp }
  if y.res ≥ 2 then z.setWs Wstate.res (y.res - 1)
  else
    { (z.setWs Wstate.res 1).setWs Wstate.seg_frames (fld z.wstate Wstate.seg_frames - 1) with
      wstack := moveCursor z.wstack (z.wstack.int + 256) }

def execTrap (t : Tid) (limm : Limm) (n : BitVec 15) (s : State) : Host.Outcome State Fault Refusal :=
  atReportPoint s t (fun s => instrJump s t (wGroup limm (wIMM 0x23 0 0 n)) (fun s => do
    if !limm.isEmpty then illegal s
    else
      let gt := (getT s t).gatetab
      let f70 : R Unit := faultAt s 0x70 none GReg.zero (BitVec.ofNat 64 n.toNat)
      if gt.tag && hasPerm gt pWORLD && !trusted s t then faultAt s 0x18 none gt
      else if !gatetabOk gt n.toNat then
        let _ ← f70
        .ok s
      else
        let a : Word := BitVec.ofInt 64 (capBase gt + 64 * n.toNat)
        let (d, s) ← loadLine s t gt a
        match d with
        | none => .ok s
        | some d =>
        if !gateOk d then faultAt s 0x70 none GReg.zero (BitVec.ofNat 64 n.toNat)
        else
          let e := d.getD 0 GReg.zero
          let w := d.getD 1 GReg.zero
          let iso := (d.getD 2 GReg.zero).data.getLsbD 1
          guardCap s (some e.int) e (targetCause e e.int)
          let s ← waitFree s t 2
          let old := getT s t
          let s1 := updT s t (fun x => advance (x.setGreg x7 (returnCap x 1 (if iso then 4093 else 4094))))
          match (if w.tag then replaceWstack s1 t w else .ok s1) with
          | .error (f, s2) => .error (f, updT s2 t (trapUndo old))
          | .ok s2 =>
            let s3 := transferred (pushReturn (setPcc s2 t (setOtype e 0) e.int) t (old.pc + 4)) t true
            .ok (clearWhen s3 t (iso || s3.getB (rBcPredCtrl t.val) BcPredCtrl.clr_gates))))

/-! ### FRET -/

/-- The info word of a frame as FRET checks it (R155, R162). -/
def infoOk (w : Word) : Bool :=
  fld w ⟨63, 56⟩ == 1 && fld w ⟨9, 8⟩ != 3 && decide (fld w ⟨50, 46⟩ ≤ 16) && fld w ⟨55, 51⟩ == 0 &&
    fld w ⟨39, 34⟩ == 0 && fld w ⟨31, 10⟩ == 0

def execFret (t : Tid) (rsv : BitVec 25) (s : State) : Host.Outcome State Fault Refusal :=
  atReportPoint s t (fun s => instrJump s t [(BitVec.ofNat 7 0x24 ++ rsv : BitVec 32)] (fun s => do
    if rsv ≠ 0 then illegal s
    else
      let fs := (getT s t).fstack
      if !fstackOk fs fs.int then faultAt s 0x05 none GReg.zero
      else
        let (g, _, s) ← loadGranules s t fs fs.int 0 32
        match g with
        | none => .ok s
        | some g =>
        let at_ (i : Nat) : GReg := g.getD i GReg.zero
        let v := at_ 0
        let info := (at_ 1).int
        if !infoOk info || !v.tag || sealed v || !hasPerm v pEXEC then faultAt s 0x05 none GReg.zero
        else
          guardCap s (some v.int) v (targetCause v v.int)
          let s ← fillForReturn s t
          let s := updT s t (fun x =>
            let x := retreat x
            let x := (List.range 8).foldl (fun x i => x.setGreg (BitVec.ofNat 5 (24 + i)) (at_ (16 + i))) x
            let x := (List.range 7).foldl (fun x i => x.setGreg (BitVec.ofNat 5 (1 + i)) (at_ (8 + i))) x
            { x with fstack := moveCursor x.fstack (x.fstack.int + 512) })
          let s := s.putF (rBcIrqCtrl t.val) BcIrqCtrl.run_pri (fld info ⟨50, 46⟩)
          let s := shallower (transferred (popReturn (setPcc s t v v.int) t) t true) t
          .ok (clearWhen s t (s.getB (rBcPredCtrl t.val) BcPredCtrl.clr_fault))))

/-! ### Waiting, entries and reports -/

def execWait (t : Tid) (ra : RegNo) (s : State) : Host.Outcome State Fault Refusal :=
  let ws := [wREG 0x25 0 ra 0 0]
  .next (instrIf (readyWait s t) s t ws (thenNext t ws (fun s =>
    let s := useRegs s t [ra]
    let d := ((getT s t).int ra).toNat
    -- a deliverable interrupt, like a deadline that has passed, ends the WAIT at once
    .ok (if (d ≠ 0 ∧ d ≤ s.time) ∨ (nextVector s t).isSome then s
      else updT s t (fun x => { x with run := .waiting, deadline := if d = 0 then none else some d })))))

/-- The timebase reaches a waiting thread's deadline (R107). -/
def execWaitDeadline (t : Tid) (s : State) : Host.Outcome State Fault Refusal :=
  .next (updT s t (fun x =>
    match x.run, x.deadline with
    | .waiting, some d => if d ≤ s.time then { x with run := .running, deadline := none } else x
    | _, _ => x))

/-- A fault raised after its instruction, in order (R167): one of the arithmetic causes. -/
def arithCause (c : Nat) : Bool := decide (0x30 ≤ c) && decide (c ≤ 0x37) && c != 0x32

/-- The entry of a precise fault (R155, R158). -/
def faultEntryOf (f : FaultInfo) : Entry where
  kind := 0
  cause := f.cause
  vector := 0
  detail := f.detail
  report := f.report
  orig := none
  acc := f.acc
  words := f.words
  cap := f.cap

/-- A fault 0x41 is taken: base camp records the no-target response it reports (R18). -/
def takenRecord (s : State) (t : Tid) (f : FaultInfo) : State :=
  match f.noTgt with
  | some pa => logRecord s 0x35 uidDevice 0 pa (coreUid (coreOf s t)) 0 0
  | none => s

/-- A precise fault is taken (R158): the one the thread's instruction raised, or that of words no command spells (R100, R101). A
report outstanding is taken first (R165), the instruction then executing again on return. -/
def execFaultEntry (t : Tid) (src : FaultSource) (s : State) : Host.Outcome State Fault Refusal :=
  .next (
    match src with
    | .pending =>
      if !atBoundary s t then s
      else
        match (getT s t).fault with
        | none => s
        | some f =>
          if (settleAll (getT s t)).excs.isEmpty || arithCause f.cause then enter (takenRecord s t f) t (faultEntryOf f)
          else reportExcs (updT s t (fun x => { x with fault := none })) t
    | .words ws =>
      if !ready s t || !wordsIllegal ws then s
      else if !(settleAll (getT s t)).excs.isEmpty then reportExcs s t
      else
        match fetchCheck s t ws.length with
        | .error (f, s1) => raise s1 t ws f
        | .ok s1 => enter s1 t (faultEntryOf ⟨0x01, 0, (getT s1 t).pc, none, GReg.zero, ws, none⟩))

/-- An outstanding arithmetic exception is reported at a boundary, some later instruction having retired (R165, R166). -/
def execImpreciseReport (t : Tid) (s : State) : Host.Outcome State Fault Refusal :=
  .next (if atBoundary s t ∧ (getT s t).fault.isNone ∧ (settleAll (getT s t)).excs.any (fun o => decide (2 ≤ o.age)) then
      reportExcs s t
    else s)

/-- A fault of an instruction that has retired stands at this boundary (R167). -/
def afterFault (x : Thread) : Bool :=
  match x.fault with
  | some f => arithCause f.cause
  | none => false

/-- The deliverable interrupt of highest priority is taken (R172); a WAIT completes first (R107, R176), and a report outstanding
is taken before it (R165). A fault found by an instruction that has not retired is found again on return (R176). -/
def execInterruptEntry (t : Tid) (s : State) : Host.Outcome State Fault Refusal :=
  .next (
    let x := getT s t
    if !coreRuns s t || (x.run != .running && x.run != .waiting) || x.hostWait.isSome || afterFault x then s
    else
      match nextVector s t with
      | none => s
      | some v =>
        let s := updT s t (fun x => { x with run := .running, deadline := none, fault := none })
        if !(settleAll x).excs.isEmpty then reportExcs s t
        else
          let s := s.putF (rBcIrqPend t.val) ⟨v, v⟩ 0
          enter s t ⟨2, 0, v, 0, x.pc, none, none, [], GReg.zero⟩)

end Sys2Proof.Machine
end

