-- ==== Sys2Proof/Machine/Spec.lean ====
section
/-! DEFINITION. Prediction and speculation (R177 to R195), the walker on its own (R193, R227), retired stores leaving the core
(R191), and the roots (R220 to R222). -/

namespace Sys2Proof.Machine

/-! ### Prediction (R182, R183) -/

/-- Branch checkpoints: 128, half of them on a solo core (R177, R186). -/
def checkpoints (s : State) (t : Tid) : Nat := if soloThread s t then 64 else 128

/-- The direction predicted for the thread's next branch under its history, where an entry holds one (R182). -/
def predictDir (s : State) (t : Tid) : Option Bool :=
  let x := getT s t
  ((getC s (coreOf s t)).dirs.find? (fun e => e.thread == t.val && e.pc == x.pc && e.hist == x.pred.hist)).map (·.taken)

/-- The target buffer's prediction for the thread's next instruction. -/
def predictTarget (s : State) (t : Tid) : Option Word :=
  ((getC s (coreOf s t)).targets.find? (fun e => e.thread == t.val && e.pc == (getT s t).pc)).map (·.next)

/-- The target predicted for a return: the top of the return stack, or with an empty one the target buffer's (R182, R195). -/
def predictReturn (s : State) (t : Tid) : Option Word :=
  let p := (getT s t).pred
  if p.depth = 0 then predictTarget s t else some (mget 0 p.slots p.top)

/-- The next-block predictor's prediction for a block. -/
def predictBlock (s : State) (t : Tid) (a : Word) : Option Word :=
  ((getC s (coreOf s t)).blocks.find? (fun e => e.thread == t.val && e.pc == a)).map (·.next)

/-- The branch was predicted: an indirect one only where BC_PRED_CTRL_t lets it be (R185), a return only where something predicts
it. -/
def wasPredicted (s : State) (t : Tid) (b : PathOp) : Bool :=
  let direct := !s.getB (rBcPredCtrl t.val) BcPredCtrl.no_indirect
  match b with
  | .cond _ => true
  | .jump => true
  | .call _ => true
  | .indirect => direct && (predictTarget s t).isSome
  | .ret => direct && (predictReturn s t).isSome

/-- What the wrong path does to the predictor state (R182). -/
def Pred.follow (n : Nat) (p : Pred) (b : PathOp) : Pred :=
  let q := { p with hist := ((match b with
    | .cond taken => taken
    | _ => true) :: p.hist).take 640 }
  match b with
  | .call a => q.push n a
  | .ret => q.pop n
  | _ => q

/-- The checkpoint of a branch restored (R183): the history, the top pointer and the top entry; entries below it may have changed. -/
def Pred.restore (old new : Pred) : Pred :=
  { hist := old.hist, top := old.top, depth := old.depth, slots := mput 0 new.slots old.top (mget 0 old.slots old.top) }

/-- A branch resolves mispredicted (R183); of the younger path, the branches for which a checkpoint was free were followed. The history
and the return stack are restored, and what the wrong path lost changes no fault (R178); the outcome itself enters the history as the
branch retires. -/
def execMispredictRecovery (m : Mispredict) (s : State) : Host.Outcome State Fault Refusal :=
  let t := m.thread
  .next (if atBoundary s t && wasPredicted s t m.branch then
      let n := returnSlots s t
      let s := updC s (coreOf s t) (fun c => { c with lost := [] })
      pmEvent (updT s t (fun x => { x with
        pred := x.pred.restore ((m.branch :: m.path.take (checkpoints s t - 1)).foldl (Pred.follow n) x.pred) })) t 0x04
    else s)

/-- Predictors and prefetcher training at their reset values, for every thread in scope; the clear ends within 20 ns (R184, R186). -/
def clearPredictors (s : State) (t : Tid) : State :=
  let s := (clearScope s t).foldl (fun s u => updT s u (fun x => { x with pred := Pred.init })) s
  updC s (coreOf s t) (fun c => { c with dirs := [], targets := [], blocks := [], pages := [], clearEnd := s.time + 20 })

/-- The clear of a crossing (R184 to R186): predictor and prefetcher training state at their reset values. -/
def execBulkClear (t : Tid) (s : State) : Host.Outcome State Fault Refusal :=
  .next (if !(getT s t).clearing then s
    else
      clearPredictors s t)

/-- The clear has completed, and fetch resumes. -/
def execBulkClearDone (t : Tid) (s : State) : Host.Outcome State Fault Refusal :=
  .next (if !(getT s t).clearing || (getC s (coreOf s t)).clearEnd == 0 then s
    else
      let s := (clearScope s t).foldl (fun s u => updT s u (fun x => { x with clearing := false })) s
      updC s (coreOf s t) (fun c => { c with clearEnd := 0 }))

/-- A write of BC_PRED_CTRL_t (R185). -/
def writePredCtrl (s : State) (t : Tid) (v : Word) : State :=
  let r := rBcPredCtrl t.val
  let s := s.putR r (setFld (s.getR r) ⟨3, 1⟩ (fld v ⟨3, 1⟩))
  clearWhen s t (fldB v BcPredCtrl.clear)

def execPredClearWrite (r : Requester) (t : Tid) (v : Word) (s : State) : Host.Outcome State Fault Refusal :=
  .next (match r with
    | .host _ _ => s
    | _ => if blockUp s uidBaseCamp then writePredCtrl s t v else s)

/-- A write of a root (R220, R222), with the clear of R184: at the thread's next boundary, so while an access of its present
instruction is under way it waits. -/
def writeRoot (s : State) (t : Tid) (second : Bool) (v : Word) : State :=
  let x := getT s t
  if x.hostWait.isSome || !x.replay.isEmpty || !x.rootReq.isEmpty then updT s t (fun x => { x with rootReq := x.rootReq ++ [(second, v)] })
  else putRoot s t second v

def execRootWrite (r : Requester) (t : Tid) (second : Bool) (v : Word) (s : State) : Host.Outcome State Fault Refusal :=
  .next (match r with
    | .host _ _ => s
    | _ => if blockUp s uidBaseCamp then writeRoot s t second v else s)

/-- An access trains the prefetchers on its page (R194), through a capability with WORLD or without (R437). The spec gives the training
state no form or size: the model keeps the 64 pages last trained (DESIGN CHOICE, notes/assumptions/20.md). -/
def train (s : State) (k : Nat) (world : Bool) (x : Xl) : State :=
  if prefetchable s x && !(getC s k).pages.contains (x.pa / 4096, world) then
    updC s k (fun c => { c with pages := ((x.pa / 4096, world) :: c.pages).take 64 })
  else s

/-- A prefetch stays within a trained page and uses the translation the training access had (R194). -/
def execHardwarePrefetch (t : Tid) (va : Word) (s : State) : Host.Outcome State Fault Refusal :=
  .next (if !coreRuns s t then s
    else
      let k := coreOf s t
      match xlat s (xctx s t) .load va.toNat with
      | .ok ⟨x, none⟩ =>
        let p := x.pa / 4096
        if (getC s k).pages.contains (p, true) then prefetchAt s t true x
        else if (getC s k).pages.contains (p, false) then prefetchAt s t false x
        else s
      | _ => s)

/-- The walker runs for an access that may yet be squashed (R193, R227): what it finds stays, what it meets raises nothing. -/
def execPageWalk (t : Tid) (va : Word) (s : State) : Host.Outcome State Fault Refusal :=
  .next (if !coreRuns s t || !capReaches s t false va.toNat 1 then s
    else
      match xlate 4 s t .load va.toNat with
      | .ok (_, s1) => s1
      | .error _ => s)

/-- A line's home would serve a request at once: it takes requests, its fabric runs, and no request is under way or waits. -/
def lineIdle (s : State) (line : Nat) : Bool :=
  homeUp s line && homeOpen s line && (mfind s.txns line).isNone && !s.homeQ.any (fun q => q.line == line)

/-- A retired store leaves the core (R191, R274), piece by piece where it is not single-copy atomic (R273): not while its line is the
subject of another's transaction. -/
def execStoreRelease (t : Tid) (k : Nat) (s : State) : Host.Outcome State Fault Refusal :=
  let q := (getT s t).stores
  .next (match q[k]? with
    | none => s
    | some e =>
      let c := e.cut
      if !mayRelease q k || !serving s (coreUid (coreOf s t)) || !sheafRuns s (coreOf s t) ||
          !(linesOf c.1.span.1 c.1.span.2).all (lineIdle s) then s
      else performStore (setStores s t (q.take k ++ c.2 ++ q.drop (k + 1))) t c.1 c.2.isEmpty)

end Sys2Proof.Machine
end

