-- ==== Sys2Proof/Machine/Bridge.lean ====
section
/-! DEFINITION. The network bridge (chapter 18): external ports, the forwarding path, the forwarding database and its replicas,
priorities, virtual ports and the down-hold. -/

namespace Sys2Proof.Machine

/-! ### External ports (R416 to R419) -/

def laneCode (s : State) (l : Nat) : Nat :=
  let u := octUid (l / 8)
  if s.getF (rHpOctCfg u) HpOctCfg.mode = 2 then s.getF (rNetOctLanes u) ⟨4 * (l % 8) + 3, 4 * (l % 8)⟩ else 0

/-- First lanes of the ports, in the order base camp numbers them (R417). -/
def netLanes (s : State) : List Nat := ((List.range 256).filter (fun l => 1 ≤ laneCode s l ∧ laneCode s l ≤ 5)).take 64

def netLane (s : State) (b : Nat) : Option Nat := (netLanes s)[b]?

def rPortCfg (l : Nat) : Nat := rNetPortCfg (octUid (l / 8)) (l % 8)
def rPortStatus (l : Nat) : Nat := rNetPortStatus (octUid (l / 8)) (l % 8)

/-- A field of the configuration of external port `b`; zero without one. -/
def portCfg (s : State) (b : Nat) (f : Fld) : Nat :=
  match netLane s b with
  | some l => s.getF (rPortCfg l) f
  | none => 0

def portStat (s : State) (b : Nat) (f : Fld) : Nat :=
  match netLane s b with
  | some l => s.getF (rPortStatus l) f
  | none => 0

def setPortStat (s : State) (b : Nat) (f : Fld) (n : Nat) : State :=
  match netLane s b with
  | some l => s.putF (rPortStatus l) f n
  | none => s

def getNet (s : State) (b : Nat) : NetPort := mget NetPort.init s.bridge.ports b
def updNet (s : State) (b : Nat) (f : NetPort → NetPort) : State :=
  { s with bridge := { s.bridge with ports := mput NetPort.init s.bridge.ports b (f (getNet s b)) } }

/-- The I/O stop of an external port. -/
def stopOfNet (s : State) (b : Nat) : Nat := (netLane s b).getD 0 / 32

/-- A port forwards: en = 1 and link_up = 1 (R418). -/
def portUp (s : State) (b : Nat) : Bool := portCfg s b NetPortCfg.en == 1 && portStat s b NetPortStatus.link_up == 1
def portHolding (s : State) (b : Nat) : Bool := portStat s b NetPortStatus.holding == 1

/-- Add to count `k` of the present window: the registers 0x40 to 0x80 in order (R419). -/
def netCount (s : State) (b k n : Nat) : State :=
  updNet s b (fun x =>
    let c := (List.range 9).map (fun i => x.counts.getD i 0)
    { x with counts := c.set k (c.getD k 0 + n) })

/-! ### Virtual ports (R427) -/

def vpB (s : State) (v : Nat) (f : Fld) : Bool := s.getB (rNetVport0 v) f
def vpF (s : State) (v : Nat) (f : Fld) : Nat := s.getF (rNetVport0 v) f
def vpSat (s : State) (v : Nat) (f : Fld) : State := s.putR (rNetVport1 v) (satInc (s.getR (rNetVport1 v)) f 1)

/-! ### VLANs (R420) -/

def vlanAt (s : State) (vid : Nat) : Nat := s.getF rNetBrCfg NetBrCfg.vlan_base * 0x100000 + 256 * vid

/-- The entry as memory holds it now. -/
def vlanRead (s : State) (vid : Nat) : Nat :=
  match readPlace s (.mem (vlanAt s vid) true) 256 with
  | .ok bs => ofBytes bs
  | .error _ => Config.vlanUnread vid

/-- The replicas hold a copy of the entry, made at its first use. -/
def vlanLoad (s : State) (vid : Nat) : State :=
  if (mfind s.bridge.vlans vid).isSome then s
  else { s with bridge := { s.bridge with vlans := mins s.bridge.vlans vid (vlanRead s vid) } }

def vlanEntry (s : State) (vid : Nat) : Nat := (mfind s.bridge.vlans vid).getD (vlanRead s vid)

/-- Bridge port `b` is a member of a VLAN; VID 4,095 is never forwarded. -/
def vlanMember (s : State) (vid b : Nat) : Bool := vid != 4095 && (vlanEntry s vid).testBit b
def vlanUntagged (s : State) (vid b : Nat) : Bool := (vlanEntry s vid).testBit (1024 + b)

/-! ### The database (R422 to R425) -/

def fdbKey (vid mac : Nat) : Nat := vid * 0x1000000000000 + mac

/-- The master works: ES 0 reads in service and its table has been loaded (R423). -/
def masterUp (s : State) : Bool := stateOf s (esUid 0) == usInService && !s.bridge.lost

/-- The master sets or removes an entry, counts entries, and sends the change to all eight replicas. -/
def fdbSet (s : State) (op : Bool) (key : Nat) (e : Option FdbEnt) : State :=
  let b := s.bridge
  let fdb := match e with
    | some x => mins b.fdb key x
    | none => mdel b.fdb key
  let s := { s with bridge := { b with
    fdb := fdb
    changes := (List.range 8).foldl (fun (m : SMap (List FdbChange)) io =>
      mput [] m io (mget [] m io ++ [({ key := key, ent := e, op := op } : FdbChange)])) b.changes } }
  s.putF rNetFdbCmd NetFdbCmd.entries fdb.length

def fdbCountSat (s : State) (f : Fld) : State := s.putR rNetFdbCmd (satInc (s.getR rNetFdbCmd) f 1)

/-- Every dynamic entry on a port is removed (op 4 of R424; R431). -/
def fdbFlush (s : State) (op : Bool) (port : Nat) : State :=
  (s.bridge.fdb.filter (fun e => e.2.port == port && !e.2.static)).foldl (fun s e => fdbSet s op e.1 none) s

/-- The flap interrupt. -/
def flapIrq (s : State) : State :=
  if s.getF rNetBrCfg NetBrCfg.thread ≤ 383 then
    sendIrq s (s.getF rNetBrCfg NetBrCfg.thread) (s.getF rNetBrCfg NetBrCfg.vector) (esUid 0 + 0x40)
  else s

/-- A learning reaches an entry that is there. -/
def relearn (s : State) (key port : Nat) (e : FdbEnt) : State :=
  if e.static then s
  else if e.port = port then fdbSet s false key (some { e with last := s.time })
  else if e.locked then s
  else if s.time ≤ e.last + 1000000 then
    let n := (if e.flapAt + 1000000000 ≤ s.time then 0 else e.flaps) + 1
    let hit := s.getF rNetBrCfg NetBrCfg.flap_limit == n
    let act := s.getF rNetBrCfg NetBrCfg.flap_action
    let s := fdbSet s false key (some { e with
      port := port, last := s.time, flaps := n, flapAt := s.time, locked := hit && decide (2 ≤ act) })
    let s := fdbCountSat s NetFdbCmd.flaps
    if hit && act != 0 then flapIrq s else s
  else fdbSet s false key (some { e with port := port, last := s.time })

/-- The master applies a learning. -/
def learnKey (s : State) (key port : Nat) : State :=
  match mfind s.bridge.fdb key with
  | some e => relearn s key port e
  | none =>
    if s.bridge.fdb.length < 262144 then fdbSet s false key (some ⟨port, false, s.time, 0, 0, false⟩)
    else fdbCountSat s NetFdbCmd.full_drops

/-- The oldest learn message reaches the master, or is discarded while that is out of service. -/
def execLearn (s : State) : Host.Outcome State Fault Refusal :=
  .next (match s.bridge.learns with
    | [] => s
    | (key, port) :: rest =>
      let s := { s with bridge := { s.bridge with learns := rest } }
      if masterUp s then learnKey s key port else s)

/-- A replica applies the oldest change it has not applied. A command is no longer busy once every replica has applied it. -/
def execFdbChange (io : Fin 8) (s : State) : Host.Outcome State Fault Refusal :=
  .next (match mget [] s.bridge.changes io.val with
    | [] => s
    | c :: rest =>
      let b := s.bridge
      let t := mget [] b.replicas io.val
      let t := match c.ent with
        | some e => mins t c.key e
        | none => mdel t c.key
      let s := { s with bridge := { b with
        replicas := mput [] b.replicas io.val t, changes := mput [] b.changes io.val rest } }
      if s.bridge.changes.any (fun e => e.2.any (fun c => c.op)) then s else s.putB rNetFdbCmd NetFdbCmd.busy false)

def execFdbAging (vid : BitVec 12) (mac : BitVec 48) (s : State) : Host.Outcome State Fault Refusal :=
  let key := fdbKey vid.toNat mac.toNat
  let age := s.getF rNetBrCfg NetBrCfg.age_s
  .next (match mfind s.bridge.fdb key with
    | none => s
    | some e =>
      if !masterUp s || e.static || age == 0 || decide (s.time < e.last + age * 1000000000) then s else fdbSet s false key none)

/-- A write of NET_FDB_CMD that reaches the master, by resident software with authority or base camp (R424). -/
def fdbMay (s : State) (r : Requester) : Bool :=
  masterUp s && (match r with
    | .host _ _ => false
    | _ => true)

/-- An op is refused: nothing changes but the flag. -/
def fdbRefuse (s : State) : State := s.putB rNetFdbCmd NetFdbCmd.refused true

/-- An op that is performed: its port is kept, and busy reads 1 until its changes are everywhere. -/
def fdbAccept (s : State) (v : Word) (f : State → State) : State :=
  let s := f (s.putF rNetFdbCmd NetFdbCmd.port (fld v NetFdbCmd.port))
  s.putB rNetFdbCmd NetFdbCmd.busy (s.bridge.changes.any (fun e => e.2.any (fun c => c.op)))

/-- The op of a write of NET_FDB_CMD, on the key of NET_FDB_KEY. -/
def fdbOp (s : State) (op : Nat) (v : Word) : State :=
  let s := if fldB v NetFdbCmd.refused then s.putB rNetFdbCmd NetFdbCmd.refused false else s
  let key := fdbKey (s.getF rNetFdbKey NetFdbKey.vid) (s.getF rNetFdbKey NetFdbKey.mac)
  let port := fld v NetFdbCmd.port
  if op = 0 then s.putF rNetFdbCmd NetFdbCmd.port port
  else if s.getB rNetFdbCmd NetFdbCmd.busy then fdbRefuse s
  else
    match op, mfind s.bridge.fdb key with
    | 1, _ =>
      if 262144 ≤ s.bridge.fdb.length then fdbRefuse s
      else fdbAccept s v (fun s => fdbSet s true key (some ⟨port, true, s.time, 0, 0, false⟩))
    | 2, some _ => fdbAccept s v (fun s => fdbSet s true key none)
    | 3, some e => fdbAccept s v (fun s => if e.locked then fdbSet s true key (some { e with locked := false }) else s)
    | 4, _ => fdbAccept s v (fun s => fdbFlush s true port)
    | 5, _ => fdbAccept s v (fun s =>
        let vid := s.getF rNetFdbKey NetFdbKey.vid
        { s with bridge := { s.bridge with vlans := mins s.bridge.vlans vid (vlanRead s vid) } })
    | _, _ => fdbRefuse s

def fdbCommand (s : State) (r : Requester) (op : Nat) (v : Word) : State := if fdbMay s r then fdbOp s op v else s

def execFdbAddStatic (r : Requester) (v : Word) (s : State) : Host.Outcome State Fault Refusal := .next (fdbCommand s r 1 v)
def execFdbDelete (r : Requester) (v : Word) (s : State) : Host.Outcome State Fault Refusal := .next (fdbCommand s r 2 v)
def execFdbUnlock (r : Requester) (v : Word) (s : State) : Host.Outcome State Fault Refusal := .next (fdbCommand s r 3 v)
def execFdbFlushPort (r : Requester) (v : Word) (s : State) : Host.Outcome State Fault Refusal := .next (fdbCommand s r 4 v)
def execVlanReload (r : Requester) (v : Word) (s : State) : Host.Outcome State Fault Refusal := .next (fdbCommand s r 5 v)

/-- ES 0 is back: the master takes the table of IO 0's replica and resumes (R423). -/
def execMasterReload (s : State) : Host.Outcome State Fault Refusal :=
  .next (if s.bridge.lost && stateOf s (esUid 0) == usInService then
      let t := mget [] s.bridge.replicas 0
      { s with bridge := { s.bridge with fdb := t, lost := false } }.putF rNetFdbCmd NetFdbCmd.entries t.length
    else s)

/-- ES 0 leaves service: the master's table is lost, and learn messages are discarded (R423). -/
def bridgeLost (s : State) : State := { s with bridge := { s.bridge with lost := true, learns := [] } }

/-! ### Frames (R418, R421) -/

/-- Octets of a frame as R418 counts them, tag and FCS included. -/
def Frame.size (f : Frame) : Nat := f.bytes.length + 4 + (if f.tagged then 4 else 0)

/-- The octets before the FCS that leave through a port: with the tag unless the port sends the VLAN untagged. -/
def Frame.out (f : Frame) (untagged : Bool) : List Byte :=
  if untagged then f.bytes
  else
    let tci := f.pcp * 0x2000 + ofBool f.dei * 0x1000 + f.vid
    f.bytes.take 12 ++ [0x81, 0x00, BitVec.ofNat 8 (tci / 256), BitVec.ofNat 8 tci] ++ f.bytes.drop 12

/-- A number from octets in the order they are sent. -/
def netNat (bs : List Byte) : Nat := bs.foldl (fun n b => n * 256 + b.toNat) 0

/-- Classification of a frame's octets before the FCS, with the port's VLAN and priority. -/
def classify (s : State) (bs : List Byte) (inPort stop pvid prio : Nat) : Frame :=
  let tci := netNat ((bs.drop 14).take 2)
  if netNat ((bs.drop 12).take 2) = 0x8100 then
    { id := s.bridge.nextId, bytes := bs.take 12 ++ bs.drop 16, vid := if tci % 4096 = 0 then pvid else tci % 4096
      pcp := tci / 8192 % 8, dei := tci.testBit 12, tagged := true, inPort := inPort, stop := stop, since := s.time }
  else
    { id := s.bridge.nextId, bytes := bs, vid := pvid, pcp := prio, dei := false, tagged := false
      inPort := inPort, stop := stop, since := s.time }

def Frame.dest (f : Frame) : Nat := netNat (f.bytes.take 6)
def Frame.source (f : Frame) : Nat := netNat ((f.bytes.drop 6).take 6)

/-- Group addresses have bit 40 set: the first bit sent. -/
def isGroup (mac : Nat) : Bool := mac.testBit 40

/-- The ingress replica looks up the source, and sends a learn message where it misses or the entry names another port (R422). -/
def learnSource (s : State) (f : Frame) (on : Bool) : State :=
  let key := fdbKey f.vid f.source
  let known := (mfind (mget [] s.bridge.replicas f.stop) key).map (fun e => e.port)
  if on && masterUp s && !isGroup f.source && known != some f.inPort then
    { s with bridge := { s.bridge with learns := s.bridge.learns ++ [(key, f.inPort)] } }
  else s

/-- A flood reaches a port: virtual and enabled, or external and up or in its down-hold (R431). -/
def floodable (s : State) (b : Nat) : Bool :=
  if b < 64 then portUp s b || (portCfg s b NetPortCfg.en == 1 && portHolding s b) else vpB s (b - 64) NetVport0.en

/-- The egress ports of a frame (R421 steps 4 and 5). -/
def egress (s : State) (f : Frame) : List Nat :=
  let hit := (mfind (mget [] s.bridge.replicas f.stop) (fdbKey f.vid f.dest)).filter (fun _ => f.dest != 0xFFFFFFFFFFFF)
  let ps := match hit with
    | some e => [e.port]
    | none => (List.range 1024).filter (floodable s)
  ps.filter (fun b => b != f.inPort && vlanMember s f.vid b)

/-- The priority is lossless at an egress port (R426, R427). -/
def losslessAt (s : State) (b prio : Nat) : Bool :=
  (if b < 64 then portCfg s b NetPortCfg.pfc_mask else vpF s (b - 64) NetVport0.pfc_mask).testBit prio

/-- The frames a stop's frame buffer holds, each once. -/
def heldFrames (s : State) (stop : Nat) : List Frame :=
  ((s.bridge.queue.map (·.1)).filter (fun f => f.stop == stop)).foldl
    (fun l f => if l.any (fun x => x.id == f.id) then l else l ++ [f]) []

def sizeSum (fs : List Frame) : Nat := (fs.map Frame.size).foldl (· + ·) 0

/-- The frame fits in its stop's 8 MiB. -/
def frameRoom (s : State) (f : Frame) : Bool := decide (sizeSum (heldFrames s f.stop) + f.size ≤ 0x800000)

/-- Bytes held for an ingress external port and a priority (R426). -/
def heldFor (s : State) (b prio : Nat) : Nat :=
  sizeSum ((heldFrames s (stopOfNet s b)).filter (fun f => f.inPort == b && f.pcp == prio))

/-- PFC XOFF is sent for a lossless priority of an external port, once. -/
def sendXoff (s : State) (b prio : Nat) : State :=
  if (portCfg s b NetPortCfg.pfc_mask).testBit prio && !(getNet s b).xoff.contains prio then
    updNet s b (fun x => { x with xoff := prio :: x.xoff, control := (prio, true) :: x.control })
  else s

/-- XOFF is sent when the frames held for a lossless priority exceed 160 KiB (R426). -/
def checkXoff (s : State) (b prio : Nat) : State := if 160 * 1024 < heldFor s b prio then sendXoff s b prio else s

/-- A lossless frame of a priority that came in at a port is held for want of buffers (R429). -/
def heldBack (s : State) (inPort prio : Nat) : Bool :=
  s.bridge.queue.any (fun e => e.1.held && e.1.inPort == inPort && e.1.pcp == prio)

/-- A virtual port has no buffers for a lossless frame: it waits, with PFC back to the external port it came in at (R429). -/
def holdFrame (s : State) (f : Frame) (b : Nat) : State :=
  let s := { s with bridge := { s.bridge with queue := s.bridge.queue.map (fun e =>
    if e.1.id = f.id ∧ e.2 = b then ({ e.1 with held := true }, e.2) else e) } }
  if f.inPort < 64 then sendXoff s f.inPort f.pcp else s

/-- A frame is queued for a port, or discarded and counted where that external port is down and in no hold (R431). -/
def enqueue (s : State) (f : Frame) (b : Nat) : State :=
  if floodable s b then { s with bridge := { s.bridge with queue := s.bridge.queue ++ [(f, b)] } }
  else if b < 64 then netCount s b 7 1
  else s

/-- Steps 3 to 5 of R421, once the frame is held: learned, looked up and queued. -/
def forward (s : State) (f : Frame) (learn : Bool) (dst : List Nat) : State :=
  let s := learnSource s f learn
  let s := { s with bridge := { s.bridge with nextId := s.bridge.nextId + 1 } }
  dst.foldl (fun s b => enqueue s f b) s

/-- The path of a good frame of an external port: without room for it only its lossless copies are kept (R426). -/
def receive (s : State) (b : Nat) (bs : List Byte) : State :=
  let f := classify s bs b (stopOfNet s b) (portCfg s b NetPortCfg.pvid) (portCfg s b NetPortCfg.default_prio)
  let s := vlanLoad s f.vid
  if !vlanMember s f.vid b then netCount s b 6 1
  else
    let dst := egress s f
    let kept := if frameRoom s f then dst else dst.filter (fun p => losslessAt s p f.pcp)
    let s := if frameRoom s f || decide (kept.length = dst.length) && !dst.isEmpty then s else netCount s b 5 1
    if !frameRoom s f && kept.isEmpty then s
    else checkXoff (forward s f (portCfg s b NetPortCfg.learn == 1) kept) b f.pcp

/-- A priority's queue is stopped for a time; a time of 0 lets it go on. -/
def pauseQueue (s : State) (b prio ns : Nat) : State :=
  updNet s b (fun x => { x with
    stopped := if ns = 0 then mdel x.stopped prio else mins x.stopped prio (s.time + ns) })

/-- A frame arrives at an external port: its octets from the destination address to the FCS. -/
def execFrameReceive (b : Fin 64) (x : RxFrame) (fcsOk : Bool) (s : State) : Host.Outcome State Fault Refusal :=
  let p := b.val
  .next (if !portUp s p then s
    else if !fcsOk then netCount s p 4 1
    else
      match x with
      | .pause ns =>
        let s := netCount s p 8 1
        if portCfg s p NetPortCfg.pause_en == 1 && portCfg s p NetPortCfg.pfc_mask == 0 then
          (List.range 8).foldl (fun s i => pauseQueue s p i ns) s
        else s
      | .pfc times =>
        times.foldl (fun s e =>
          if e.1 < 8 && (portCfg s p NetPortCfg.pfc_mask).testBit e.1 then pauseQueue s p e.1 e.2 else s) (netCount s p 8 1)
      | .data bytes =>
        if bytes.length < 64 ∨ 9216 < bytes.length then netCount s p 4 1
        else receive (netCount (netCount s p 0 1) p 1 bytes.length) p (bytes.take (bytes.length - 4)))

/-! ### Queues (R426) -/

/-- The frame a port sends next, of those a predicate allows: the highest priority, the oldest first. -/
def nextFrame (s : State) (b : Nat) (ok : Nat → Bool) : Option Frame :=
  (s.bridge.queue.filter (fun e => e.2 == b && ok e.1.pcp)).foldl (fun o e =>
    match o with
    | none => some e.1
    | some f => if f.pcp < e.1.pcp then some e.1 else some f) none

/-- A frame's copy for a port leaves the buffer. -/
def unqueue (s : State) (f : Frame) (b : Nat) : State :=
  { s with bridge := { s.bridge with queue := s.bridge.queue.filter (fun e => !(e.1.id == f.id && e.2 == b)) } }

def execFrameTransmit (b : Fin 64) (s : State) : Host.Outcome State Fault Refusal :=
  let p := b.val
  .next (if !portUp s p then s
    else
      match nextFrame s p (fun i => (mfind (getNet s p).stopped i).isNone) with
      | none => s
      | some f =>
        let bs := f.out (vlanUntagged s f.vid p)
        let s := updNet (unqueue s f p) p (fun x => { x with sent := bs :: x.sent })
        netCount (netCount s p 2 1) p 3 (bs.length + 4))

def execPfcXon (b : Fin 64) (prio : Fin 8) (s : State) : Host.Outcome State Fault Refusal :=
  .next (if (getNet s b.val).xoff.contains prio.val && decide (heldFor s b.val prio.val < 80 * 1024) && !heldBack s b.val prio.val then
      updNet s b.val (fun x => { x with xoff := x.xoff.filter (· != prio.val), control := (prio.val, false) :: x.control })
    else s)

def execPauseExpiry (b : Fin 64) (prio : Fin 8) (s : State) : Host.Outcome State Fault Refusal :=
  .next (match mfind (getNet s b.val).stopped prio.val with
    | some t => if t ≤ s.time then updNet s b.val (fun x => { x with stopped := mdel x.stopped prio.val }) else s
    | none => s)

/-- A window ends at a multiple of its length: each count goes to its last-window register and restarts (R419). -/
def execStatisticsWindow (b : Fin 64) (s : State) : Host.Outcome State Fault Refusal :=
  let x := getNet s b.val
  .next (match netLane s b.val with
    | none => s
    | some l =>
      let n := 10 ^ min 6 (portCfg s b.val NetPortCfg.win) * 1000
      if s.time < (x.boundary / n + 1) * n then s
      else
        let r (k : Nat) : Nat := rNetPortCount (octUid (l / 8)) (l % 8) k
        let s := (List.range 9).foldl (fun s k => s.putR (r k) (BitVec.ofNat 64 (x.counts.getD k 0))) s
        let s := s.putR (r 9) (s.getR (r 9) + 1)
        updNet s b.val (fun x => { x with counts := [], boundary := s.time }))

/-! ### Port down and the down-hold (R431) -/

/-- What a port does when its hold ends first. -/
def holdEnds (s : State) (b : Nat) : State :=
  let n := (s.bridge.queue.filter (fun e => e.2 == b)).length
  let s := netCount { s with bridge := { s.bridge with queue := s.bridge.queue.filter (fun e => e.2 != b) } } b 7 n
  let s := if masterUp s then fdbFlush s false b else s
  setPortStat s b NetPortStatus.holding 0

/-- link_up falls on a port. -/
def netDown (s : State) (b : Nat) : State :=
  if portStat s b NetPortStatus.link_up = 0 then s
  else
    let s := setPortStat s b NetPortStatus.link_up 0
    let s := setPortStat s b NetPortStatus.link_downs (min 255 (portStat s b NetPortStatus.link_downs + 1))
    let ms := min 100 (portCfg s b NetPortCfg.down_hold_ms)
    if ms = 0 then holdEnds s b
    else updNet (setPortStat s b NetPortStatus.holding 1) b (fun x => { x with holdAt := s.time + ms * 1000000 })

def execNetworkLinkDown (b : Fin 64) (s : State) : Host.Outcome State Fault Refusal := .next (netDown s b.val)

/-- The PCS is aligned and FEC locked on a port that trains. -/
def execNetworkLinkUp (b : Fin 64) (s : State) : Host.Outcome State Fault Refusal :=
  .next (if portCfg s b.val NetPortCfg.en = 1 ∧ blockUp s (ioUid (stopOfNet s b.val)) then
      setPortStat (setPortStat s b.val NetPortStatus.link_up 1) b.val NetPortStatus.holding 0
    else s)

def execDownHoldExpiry (b : Fin 64) (s : State) : Host.Outcome State Fault Refusal :=
  .next (if portHolding s b.val && decide ((getNet s b.val).holdAt ≤ s.time) then holdEnds s b.val else s)

/-! ### Sending through a virtual port (R428) -/

/-- The virtual port a channel sends on, or the status of a channel that may not. -/
def txPort (s : State) (g : Nat) : Except Nat Nat :=
  match vportsOf s g false with
  | v :: _ => .ok v
  | [] => if (vportsOf s g true).isEmpty then .error 0x0603 else .error 0x0102

/-- A frame of a descriptor enters the bridge: filtered, held when there is room, and forwarded. While a lossless frame of its priority
that the port sent before waits for buffers, the descriptor waits (R429). -/
def sendFrame (s : State) (g : Nat) (d : Desc) (v : Nat) (bs : List Byte) : State :=
  let f := classify s bs (64 + v) (vpF s v NetVport0.home_io) (vpF s v NetVport0.pvid) (vpF s v NetVport0.default_prio)
  let s := vlanLoad s f.vid
  if !vlanMember s f.vid (64 + v) then endDesc (vpSat s v NetVport1.tx_filtered) g d.slot 0x0602 0
  else if !frameRoom s f || !blockUp s (ioUid f.stop) || heldBack s (64 + v) f.pcp then s
  else endDesc (forward s f (vpB s v NetVport0.learn) (egress s f)) g d.slot 0 bs.length

/-- TX: its frame, or the wait for it. -/
def txFrame (s : State) (g : Nat) (d : Desc) (u v : Nat) (rs : List (Nat × Nat)) : E State := do
  match ← gather s g d u rs with
  | (s, none) => .ok s
  | (s, some bs) => .ok (sendFrame s g d v bs)

def txLength (n : Nat) : Bool := decide (60 ≤ n) && decide (n ≤ 9212)

def txStep (s : State) (g : Nat) (d : Desc) (u v : Nat) : E State :=
  let n := fld (d.word 3) ⟨13, 0⟩
  if !txLength n then .error (0x0601, s)
  else if wraps (d.num 1) n then .error (0x0202, s)
  else txFrame s g d u v [(d.num 1, n)]

/-- TXSG reads its list, in the format of R382, then its pieces. -/
def txsgStep (s : State) (g : Nat) (d : Desc) (u v : Nat) : E State :=
  let n := dEntries d
  if d.list.isEmpty then
    if n < 1 ∨ 8 < n then .error (0x0104, s)
    else if wraps (d.num 1) (16 * n) then .error (0x0202, s)
    else do
      match ← gather s g d u [(d.num 1, 16 * n)] with
      | (s, none) => .ok s
      | (s, some bs) =>
        let es := listEntries bs n
        if !es.all entryGood then .error (0x0104, s)
        else if es.any (fun e => wraps e.1 e.2.1) then .error (0x0202, s)
        else if !txLength ((es.map (fun e => e.2.1)).foldl (· + ·) 0) then .error (0x0601, s)
        else .ok (updDesc s g d.slot (fun d => { d with list := es.map (fun e => (e.1, e.2.1)), stage := 0 }))
  else txFrame s g d u v d.list

/-- A send in flight goes on: once for its list, once for its frame. -/
def txRun (s : State) (g slot op : Nat) (f : State → Desc → Nat → Nat → E State) : State :=
  match running? s g slot op with
  | none => s
  | some d =>
    match txPort s g with
    | .error st => endDesc s g slot st 0
    | .ok v => if esRuns s (servingEs s g) then orEnd g d (f s d (chUid (servingEs s g)) v) else s

def execTx (g : Fin 8192) (slot : Fin 32768) (s : State) : Host.Outcome State Fault Refusal :=
  .next (txRun s g slot 0x90 (fun s d u v => txStep s g d u v))

def execTxsg (g : Fin 8192) (slot : Fin 32768) (s : State) : Host.Outcome State Fault Refusal :=
  .next (txRun s g slot 0x92 (fun s d u v => txsgStep s g d u v))

/-! ### Delivery (R429, R430) -/

/-- The receive channel reads running, and its engine stop may write for it. -/
def rxOpen (s : State) (g : Nat) : Bool :=
  (getCh s g).state == 2 && chanAwake s g && esRuns s (servingEs s g) &&
    (!isHostChan g || (masterOn s (chanPort g) (chanInst s g) && !portFrozen s (chanPort g)))

/-- Descriptors read until `k` are, or none is left or a read is awaited. -/
def fetchUpTo : Nat → Nat → State → Nat → State
  | 0, _, s, _ => s
  | n + 1, k, s, g =>
    let c := getCh s g
    if k ≤ c.fetch.length ∨ c.waitingSlots ≤ c.fetch.length then s else fetchUpTo n k (fetchNext s g) g

/-- An RXBUF descriptor that waits on a receive channel is read, with those before it, and its buffer is free (R366, R429). One that has
started stands on the wrong channel (R428). -/
def execRxbuf (g : Fin 8192) (slot : Fin 32768) (s : State) : Host.Outcome State Fault Refusal :=
  let c := getCh s g
  let i := (slot.val + c.subSize - c.subHead) % c.subSize
  .next (match running? s g slot 0x91 with
    | some _ => endDesc s g slot (if (vportsOf s g false).isEmpty then 0x0603 else 0x0102) 0
    | none =>
      if !(vportsOf s g true).isEmpty && rxOpen s g && decide (i < c.waitingSlots) then fetchUpTo (i + 1) (i + 1) s g else s)

/-- Free buffers: the RXBUF descriptors from sub_head on that have been read. -/
def freeBuffers (c : Chan) : List (List Word) :=
  ((c.fetch.take c.waitingSlots).map (fun f => match f with
    | .ready ws => if fld (ws.getD 0 0) Desc.opcode = 0x91 ∧ (screen c ws).isNone then some ws else none
    | _ => none)).takeWhile Option.isSome |>.filterMap id

/-- The result of a buffer (R430): which of `k` it is, its bytes, the frame's and its length. -/
def rxResult (f : Frame) (len k i n : Nat) : Nat :=
  (f.pcp * 0x2000 + ofBool f.dei * 0x1000 + f.vid) * 2 ^ 48 + ofBool f.tagged * 2 ^ 47 + f.inPort * 2 ^ 32 + len * 2 ^ 16 +
    ofBool (i + 1 == k) * 2 ^ 15 + ofBool (i == 0) * 2 ^ 14 + n

/-- The frame goes into its buffers; where an access fails nothing is written and each of them ends with its status. -/
def deliverTo (s : State) (g : Nat) (f : Frame) (bs : List Byte) (bufs : List (List Word)) : State :=
  let k := bufs.length
  let ps := (bufs.zip (chunks 2048 k bs)).map (fun (ws, b) => ((ws.getD 1 0).toNat, b.length))
  let x : E State := if ps.any (fun p => wraps p.1 p.2) then .error (0x0202, s) else scatter s g (chUid (servingEs s g)) none ps bs
  match x with
  | .ok s => ((ps.zipIdx).foldl (fun s (p, i) =>
      pushDesc s g (fun d => { d with status := some (0, rxResult f bs.length k i p.2) })) s)
  | .error (st, s) => (List.range k).foldl (fun s _ => pushDesc s g (fun d => { d with status := some (st, 0) })) s

def execFrameDeliver (v : Fin 960) (s : State) : Host.Outcome State Fault Refusal :=
  let b := 64 + v.val
  let g := vpF s v.val NetVport0.rx_chan
  .next (if !vpB s v.val NetVport0.en then s
    else
      match nextFrame s b (fun _ => true) with
      | none => s
      | some f =>
        let bs := f.out (vlanUntagged s f.vid b)
        let k := (bs.length + 2047) / 2048
        let s := if rxOpen s g then fetchUpTo k k s g else s
        let c := getCh s g
        let bufs := freeBuffers c
        if rxOpen s g && decide (k ≤ bufs.length) && decide (k ≤ c.cplFree) then
          completeAll (deliverTo (unqueue s f b) g f bs (bufs.take k)) g
        else if rxOpen s g && decide (k ≤ c.cplFree) && (c.fetch.take k).contains .asked then s
        else if losslessAt s b f.pcp then holdFrame s f b
        else vpSat (unqueue s f b) v.val NetVport1.rx_nobuf)

/-- A lossless frame held for 100 ms is dropped and counted. -/
def execLosslessHoldExpiry (v : Fin 960) (s : State) : Host.Outcome State Fault Refusal :=
  let b := 64 + v.val
  .next (match s.bridge.queue.find? (fun e => e.2 == b && losslessAt s b e.1.pcp && decide (e.1.since + 100000000 ≤ s.time)) with
    | some e => vpSat (unqueue s e.1 b) v.val NetVport1.rx_nobuf
    | none => s)

end Sys2Proof.Machine
end

