-- ==== Sys2Proof/Machine/Channels.lean ====
section
/-! DEFINITION. The commands of the memory stops (R314 to R330, R356, R485): what each controller issues, refreshes, trains, fails
and migrates. -/

namespace Sys2Proof.Machine

/-- The command of R316 is issued: of those DRAM timing allows, the first in precedence. -/
def execMcCommandIssue (c : Fin 16) (sub : Bool) (allowed : List DramCmd) (pat mpat : ErrPat) (draw : BitVec 16) (s : State) :
    Host.Outcome State Fault Refusal :=
  .next (if !mcRuns s c then s
    else
      let s := updM s c (fun m => m.setSub sub (drainFix (m.sub sub)))
      let x := (getM s c).sub sub
      match cmdBest s c x allowed with
      | none => s
      | some (.refresh r) => refreshRank s c r
      | some .neighbour => pmUncore (updM s c (fun m => m.setSub sub { m.sub sub with nref := (m.sub sub).nref.tail })) (stopOfMc c) 0x123 false none
      | some (.write i) => issueWrite s c sub i draw.toNat
      | some (.read i) =>
        (match (inReads x)[i]? with
         | none => s
         | some q =>
           let u := urgency s c q
           let s := openRow s c sub q draw.toNat
           let s := burst (updM s c (fun m => m.setSub sub { m.sub sub with reads := leaveQueue s c 64 i (m.sub sub).reads })) c q false
           let s := if u = 3 then pmUncore s (stopOfMc c) 0x124 false none else s
           let s := readError s c (q.line * 64) (eccOf s c pat) (eccOf s (mirrorChan c) mpat)
           if q.home then memoryDone s (q.pa / 64) else s))

/-- A rank's refresh comes due; the eighth owed was mandatory, and is issued before a ninth (R316, R317; DESIGN CHOICE, log entry 61).
None comes due in self-refresh. -/
def execRefreshDue (c : Fin 16) (rank : Fin 4) (hot : Bool) (s : State) : Host.Outcome State Fault Refusal :=
  let m := getM s c
  .next (if !chanUp s c || m.freq || decide (s.time < mget 0 m.lastRef rank + (if hot then 975 else 1950)) then s
    else updM (if 8 ≤ mget 0 m.owed rank then refreshRank s c rank else s) c (fun m => { m with
      hot := mput false m.hot rank hot
      lastRef := mput 0 m.lastRef rank s.time
      owed := mput 0 m.owed rank (mget 0 m.owed rank + 1) }))

/-- Base camp's new delays of the active set, every 100 ms, are held for the rank's next refresh (R319): rank, lane and value. -/
def execDriftTracking (c : Fin 16) (writes : List (Nat × Nat × BitVec 64)) (s : State) : Host.Outcome State Fault Refusal :=
  let set := s.getF (rMcFreqCtrl (mcUid c)) McFreqCtrl.active
  .next (if !bcUp s || !chanUp s c || decide (s.time < (getM s c).driftAt + 100000000) then s
    else updM s c (fun m => { m with driftAt := s.time, heldTrain := m.heldTrain ++
      (writes.filter (fun w => decide (w.1 < 4) && decide (w.2.1 < 80))).map (fun w =>
        (w.1, rMcTrain (mcUid c) set w.1 w.2.1, w.2.2 &&& 0x7F07FF07FF)) }))

/-- Base camp changes at most two channels at once, and never both of a mirror pair (R320). -/
def mayChange (s : State) (c : Nat) : Bool :=
  let busy := (List.range 16).filter (fun k => (getM s k).freq)
  decide (busy.length < 2) && !busy.contains (mirrorChan c)

/-- A write of MC_FREQ_CTRL (R320, R327): the refused bit clears by one; a go is refused during a migration, and base camp makes none
while others bar it. -/
def writeFreqCtrl (s : State) (c : Nat) (v : Word) : State :=
  let r := rMcFreqCtrl (mcUid c)
  let s := if fldB v McFreqCtrl.refused then s.putF r McFreqCtrl.refused 0 else s
  if !fldB v McFreqCtrl.go || !mayChange s c then s
  else if s.getB (rMcMigrStatus (mcUid c)) McMigrStatus.active || s.getB r McFreqCtrl.busy then s.putF r McFreqCtrl.refused 1
  else
    let s := (List.range 4).foldl (fun s k => refreshRank s c k) s
    updM (s.putF r McFreqCtrl.busy 1) c (fun m => { m with freq := true, owed := [] })

def execFrequencyChange (r : Requester) (c : Fin 16) (v : Word) (s : State) : Host.Outcome State Fault Refusal :=
  .next (if r = .baseCamp ∧ bcUp s ∧ chanUp s c ∧ (!fldB v McFreqCtrl.go ∨ mayChange s c) then writeFreqCtrl s c v else s)

/-- The PHY runs from the other set (R320): `rate` is the data rate in 100 MT/s for which base camp wrote it. -/
def execFrequencyChangeDone (c : Fin 16) (rate : BitVec 12) (s : State) : Host.Outcome State Fault Refusal :=
  let r := rMcFreqCtrl (mcUid c)
  .next (if !s.getB r McFreqCtrl.busy then s
    else
      let set := 1 - s.getF r McFreqCtrl.active
      let s := ((s.putF r McFreqCtrl.busy 0).putF r McFreqCtrl.active set).putF r McFreqCtrl.rate_mts_div rate.toNat
      updM s c (fun m => { m with
        freq := false
        rates := mput 0 m.rates set rate.toNat
        sub0 := { m.sub0 with rows := [], hits := [] }
        sub1 := { m.sub1 with rows := [], hits := [] } }))

/-! ### Failure, migration and the gleaner -/

/-- A channel's queues after it failed: reads of mirrored lines go to the partner, the others return poison (R322, R330). -/
def resend (s : State) (c : Nat) : State :=
  let m := getM s c
  let qs := m.sub0.reads ++ m.sub1.reads
  let s := updM s c (fun m => { m with sub0 := SubCh.init, sub1 := SubCh.init, resilver := none, freq := false })
  qs.foldl (fun s q =>
    if !q.home then s
    else
      let (s, done) := mcRead s q.pa q.cls
      if done then memoryDone s (q.pa / 64) else s) s

/-- A migration that its channel's failure stops, with its migration and memory records (R489). -/
def migrationCut (s : State) (c : Nat) : State :=
  let r := rMcMigrStatus (mcUid c)
  let src := s.getF r McMigrStatus.src_rank
  let at_ := (getM s c).migrAt
  let s := logRecord s 0x21 (mcUid c) 0 (src + s.getF r McMigrStatus.spare_rank * 16) (getM s c).migrLeft 0 0
  (memoryRecord s c at_ src 0xFF true false ((paOfLocal s c at_).getD 0)).putF r McMigrStatus.active 0

/-- A channel fails (R322, R330): its mirror breaks, its partner serves alone. -/
def failChannel (s : State) (c cause : Nat) : State :=
  let u := mcUid c
  let st := stateOf s u
  if st ≠ usInService ∧ st ≠ usDraining then s
  else
    let s := setUnit s u usFailed cause
    let s := if s.getB (rMcMigrStatus u) McMigrStatus.active then migrationCut s c else s
    let s := resend s c
    let s := updM s c (fun m => { m with lastFail := some s.time })
    if chanMirrored s then configEval (mirrorRecord (setBroken s c true) u c true) else configEval s

def execChannelFailure (c : Fin 16) (s : State) : Host.Outcome State Fault Refusal := .next (failChannel s c 0x06)

/-- A migration starts: at its trigger, or at a management request (R323). -/
def execRankMigrationStart (c : Fin 16) (rank : Fin 4) (s : State) : Host.Outcome State Fault Refusal :=
  .next (startMigration s c rank)

/-- The copy moves one line on (R324): a correctable read is written corrected, an uncorrectable one from the mirror or poisoned. -/
def execMigrationCopy (c : Fin 16) (pat mpat : ErrPat) (s : State) : Host.Outcome State Fault Refusal :=
  let ecc := eccOf s c pat
  let mirror := eccOf s (mirrorChan c) mpat
  let u := mcUid c
  let w := s.getR (rMcMigrStatus u)
  let m := getM s c
  let at_ := m.migrAt
  let l := (m.ranks.findIdx? (· == fld w McMigrStatus.src_rank)).getD 0
  .next (if !fldB w McMigrStatus.active || !mcRuns s c || !readFree s c at_ || decide ((l + 1) * rankSize s c ≤ at_) then s
    else
      let pa := paOfLocal s c at_
      let lost := ecc == .uncorrectable && (match pa with
        | some a => !mirrored s a || mirror == .uncorrectable || !copyUp s c
        | none => false)
      let s := ownAccess s c at_ 5 false
      let s := match pa with
        | some a => if lost then setPoison s (a / 64) true else s
        | none => s
      let s := updM s c (fun m => { m with migrAt := at_ + 64, migrLeft := m.migrLeft + ofBool lost })
      let s := ownAccess s c at_ 5 true
      remapRanks (s.putR (rMcMigrStatus u) (setFld w McMigrStatus.pointer ((at_ + 64) / 0x1000000))) c)

/-- The copy has reached the end (R324): the spare serves the logical rank, the source is withdrawn, the mirror is restored. -/
def execMigrationDone (c : Fin 16) (s : State) : Host.Outcome State Fault Refusal :=
  let u := mcUid c
  let w := s.getR (rMcMigrStatus u)
  let m := getM s c
  let src := fld w McMigrStatus.src_rank
  let sp := fld w McMigrStatus.spare_rank
  .next (match m.ranks.findIdx? (· == src) with
    | none => s
    | some l =>
      if !fldB w McMigrStatus.active || decide (m.migrAt < (l + 1) * rankSize s c) then s
      else
        let s := updM s c (fun m => { m with
          ranks := m.ranks.set l sp
          gone := m.gone ++ [src]
          spareOf := []
          errs := m.errs.filter (fun e => e.1 != src) })
        let w := [(McMigrStatus.active, 0), (McMigrStatus.done, 1), (McMigrStatus.spare_rank, 0xF)].foldl
          (fun w (f, n) => setFld w f n) w
        let s := remapRanks ((s.putR (rMcMigrStatus u) w).putF (rMcProt u) McProt.mode 0) c
        let s := logRecord s 0x21 u 0 (src + sp * 16 + 256) (getM s c).migrLeft 0 0
        if s.mgmt.mirrorBroken.contains c.val then configEval (mirrorRecord (setBroken s c false) u c false) else s)

/-- The gleaner's next read is due: at most 1 GB/s, one pass a period, the first once all memory is initialised (R327, R499). -/
def gleanDue (s : State) (c : Nat) : Bool :=
  let m := getM s c
  s.getB rBcMemInit BcMemInit.done && decide (m.gleanAt + 64 ≤ s.time) &&
    (m.glean != 0 || (match m.passAt with
      | none => true
      | some t => decide (t + max 1 (s.getF (rMcGleanCfg (mcUid c)) McGleanCfg.period_h) * 3600000000000 ≤ s.time)))

/-- The gleaner's read is made: its time, and where a pass begins, the pass's. -/
def gleanStamp (s : State) (c : Nat) : State :=
  updM s c (fun m => { m with gleanAt := s.time, passAt := if m.glean = 0 then some s.time else m.passAt })

/-- The gleaner reads its next line (R327). -/
def execGleanerRead (c : Fin 16) (pat mpat : ErrPat) (s : State) : Host.Outcome State Fault Refusal :=
  let ecc := eccOf s c pat
  let mirror := eccOf s (mirrorChan c) mpat
  let u := mcUid c
  let m := getM s c
  .next (if !mcRuns s c || !s.getB (rMcGleanCfg u) McGleanCfg.en || s.getB (rMcMigrStatus u) McMigrStatus.active ||
      decide (chanBytes s c = 0) || !readFree s c m.glean || !gleanDue s c then s
    else
      let loc := m.glean
      let pa := paOfLocal s c loc
      let lost := ecc == .uncorrectable && (match pa with
        | some a => !mirrored s a || mirror == .uncorrectable || !copyUp s c
        | none => false)
      let s := readError (ownAccess (gleanStamp s c) c loc 4 false) c loc ecc mirror
      let r := rMcGleanStatus u
      let s := match ecc with
        | .correctable _ => s.putR r (satInc (s.getR r) McGleanStatus.corrected 1)
        | _ => s
      let s := if lost then s.putR r (satInc (s.getR r) McGleanStatus.poisoned 1) else s
      if loc + 64 < chanBytes s c then updM s c (fun m => { m with glean := loc + 64 })
      else
        let s := s.putR r (satInc (s.getR r) McGleanStatus.passes 1)
        updM s c (fun m => { m with glean := 0, spareTested := false }))

/-- The spare is tested once per pass; one that fails is withdrawn (R327). -/
def execSpareRankTest (c : Fin 16) (good : Bool) (s : State) : Host.Outcome State Fault Refusal :=
  let u := mcUid c
  .next (match (getM s c).spareOf with
    | [] => s
    | sp :: _ =>
      if !mcRuns s c || (getM s c).spareTested || s.getB (rMcMigrStatus u) McMigrStatus.active then s
      else
        let s := updM s c (fun m => { m with spareTested := true })
        if good then s
        else
          let s := updM s c (fun m => { m with spareOf := [], gone := m.gone ++ [sp] })
          memoryRecord (s.putF (rMcMigrStatus u) McMigrStatus.spare_rank 0xF) c 0 sp 0xFF true false 0)

/-! ### Expansion links (R328, R329) -/

/-- The windows a link serves, as its primary or its mirror. -/
def windowsOf (s : State) (l : Nat) : List Nat :=
  (List.range 16).filter (fun n => s.getB (rBcCxlWin n) BcCxlWin.valid &&
    (s.getF (rBcCxlWin n) BcCxlWin.link == l ||
      (s.getB (rBcCxlWin n) BcCxlWin.mirror && s.getF (rBcCxlWin n) BcCxlWin.mirror_link == l)))

/-- A link that windows use is lost: the other link of a mirror serves (R329). -/
def linkLost (s : State) (l : Nat) : State :=
  if mget false s.cxlLost l || (windowsOf s l).isEmpty then s
  else
    let s := { s with cxlLost := mput false s.cxlLost l true }
    configEval (mirrorRecord s (ioUid (linkIo s l)) l true)

def execCxlLinkLoss (l : Fin 16) (s : State) : Host.Outcome State Fault Refusal := .next (linkLost s l)

/-- A link in mode X has trained, or has failed to (R356). -/
def execCxlLinkTrain (o : Fin 32) (ok : Bool) (s : State) : Host.Outcome State Fault Refusal :=
  let u := octUid o
  let l := s.getF (rHpOctCfg u) HpOctCfg.xlink
  .next (if s.getF (rHpOctCfg u) HpOctCfg.mode ≠ 3 ∨ s.getF (rHpOctCfg u) HpOctCfg.width = 2 then s
    else if ok then
      let s := { s with cxlUp := mput false s.cxlUp l true }
      (if mget false s.cxlLost l then
        configEval (mirrorRecord { s with cxlLost := mput false s.cxlLost l false } (ioUid (o / 4)) l false)
      else configEval s)
    else if mget false s.cxlLost l then s
    else configEval (mirrorRecord { s with cxlLost := mput false s.cxlLost l true } (ioUid (o / 4)) l true))

/-- The copy from the partner ends: the channel returns to mode 0 and the mirror is restored (R485). -/
def execResilverDone (c : Fin 16) (s : State) : Host.Outcome State Fault Refusal :=
  .next (match (getM s c).resilver with
    | none => s
    | some _ =>
      let s := updM s c (fun m => { m with resilver := none })
      let s := s.putF (rMcProt (mcUid c)) McProt.mode 0
      configEval (mirrorRecord (setBroken s c false) (mcUid c) c false))

end Sys2Proof.Machine
end

