-- ==== Sys2Proof/Machine/Fabric.lean ====
section
/-! DEFINITION. The Ubsor fabric (R282 to R303): links, packets and their route words, the check and commit of route sets, and
end-to-end retry. -/

namespace Sys2Proof.Machine

/-! ### Topology (R282) -/

/-- The stop a hop code leads to. -/
def nextStop (st d : Nat) : Nat :=
  match d with
  | 0 => st / 16 * 16 + (st % 16 + 1) % 16
  | 1 => st / 16 * 16 + (st % 16 + 15) % 16
  | 2 => (st / 16 + 1) % 8 * 16 + st % 16
  | _ => (st / 16 + 7) % 8 * 16 + st % 16

/-- The link a hop code takes from a stop is a wrap link. -/
def isWrap (st d : Nat) : Bool :=
  match d with
  | 0 => st % 16 == 15
  | 1 => st % 16 == 0
  | 2 => st / 16 == 7
  | _ => st / 16 == 0

/-- A hop code moves along a column. -/
def colHop (d : Nat) : Bool := decide (2 ≤ d)

def linkReg (st d : Nat) : Nat := rFabLinkStatus (fabUidOfStop st) d
def linkState (s : State) (st d : Nat) : Nat := s.getF (linkReg st d) FabLinkStatus.lstate
def linkUp (s : State) (st d : Nat) : Bool := linkState s st d == 0
def stopUp (s : State) (st : Nat) : Bool := serving s (stateUidOfStop st)

def linkRecord (s : State) (st d : Nat) : State :=
  logRecord s 0x30 (fabUidOfStop st) 0 (st + d * 256 + linkState s st d * 1024) (s.getF (linkReg st d) FabLinkStatus.retries) 0 0

/-- A packet is discarded at an output and counted (R289, R292). -/
def countLost (s : State) (st d : Nat) : State :=
  pmUncore (s.putR (linkReg st d) (satInc (s.getR (linkReg st d)) FabLinkStatus.lost 1)) st 0x114 false none

/-! ### Route words (R288) -/

def hopsOf (w : Word) : Nat := fld w FabRouteA.hops
def codeOf (w : Word) (i : Nat) : Nat := fld w FabRouteA.code / 4 ^ i % 4

def routeOfCodes (cs : List Nat) : Word :=
  BitVec.ofNat 64 (cs.length * 2 ^ 56 + (cs.zipIdx).foldl (fun n (c, i) => n + c * 4 ^ i) 0)

/-- Zero in the reserved field and beyond the hops, and at most 28 hops (R288, R291). -/
def routeFormOk (w : Word) : Bool :=
  fld w ⟨63, 61⟩ == 0 && decide (hopsOf w ≤ 28) && fld w FabRouteA.code / 4 ^ hopsOf w == 0

/-- The hops of a route from a stop: each link, as its stop and hop code. -/
def routeLinks (w : Word) : Nat → Nat → Nat → List (Nat × Nat)
  | 0, _, _ => []
  | n + 1, i, st => (st, codeOf w i) :: routeLinks w n (i + 1) (nextStop st (codeOf w i))

def linksOf (w : Word) (st : Nat) : List (Nat × Nat) := routeLinks w (hopsOf w) 0 st
def routeEnd (w : Word) (st : Nat) : Nat := (linksOf w st).foldl (fun a l => nextStop a l.2) st

/-- The VC after a hop: past the dateline from a wrap link until the route turns (R285). -/
def afterHop (st d : Nat) (axis : Option Bool) (after : Bool) : Bool := isWrap st d || (after && axis == some (colHop d))

/-- The channels of a route: link and VC, as numbers. -/
def routeChans : List (Nat × Nat) → Option Bool → Bool → List Nat
  | [], _, _ => []
  | (st, d) :: ls, ax, af =>
    let a := afterHop st d ax af
    ((st * 4 + d) * 2 + ofBool a) :: routeChans ls (some (colHop d)) a

/-- A bank of a stop's route table. -/
def bankReg (st bank n : Nat) : Nat := if bank = 0 then rFabRouteA (fabUidOfStop st) n else rFabRouteB (fabUidOfStop st) n
def activeBank (s : State) (st : Nat) : Nat := s.getF (rFabRouteSel (fabUidOfStop st)) FabRouteSel.active
def routeTo (s : State) (st n : Nat) : Word := s.getR (bankReg st (activeBank s st) n)

/-- The default route (R290). -/
def legCodes (src dst size up down : Nat) : List Nat :=
  let fwd := (dst + size - src) % size
  let bwd := (src + size - dst) % size
  if fwd < bwd ∨ (fwd = bwd ∧ src % 2 = 0) then List.replicate fwd up else List.replicate bwd down

def defaultCodes (a b : Nat) : List Nat := legCodes (a % 16) (b % 16) 16 0 1 ++ legCodes (a / 16) (b / 16) 8 2 3
def defaultRoute (a b : Nat) : Word := routeOfCodes (defaultCodes a b)

/-! ### The check of R291 -/

abbrev RouteSet := List (Nat × Nat × Word)

/-- The committed set with changes over it. -/
def routeIn (s : State) (ch : RouteSet) (a b : Nat) : Word :=
  match ch.find? (fun e => e.1 == a && e.2.1 == b) with
  | some e => e.2.2
  | none => routeTo s a b

def upStops (s : State) : List Nat := (List.range 128).filter (stopUp s)

/-- One route passes the first and third conditions. -/
def routeOk (s : State) (a b : Nat) (w : Word) : Bool :=
  routeFormOk w && routeEnd w a == b && (linksOf w a).all (fun l => linkUp s l.1 l.2 && stopUp s (nextStop l.1 l.2))

def edgesOf (a : Nat) (w : Word) : List (Nat × Nat) :=
  let c := routeChans (linksOf w a) none false
  List.zip c c.tail

/-- Channels that nothing leads to, or that lead nowhere, are taken out until none is left, or cycles stand with what lies between them. -/
def trimGo : Nat → List (Nat × Nat) → List (Nat × Nat)
  | 0, es => es
  | n + 1, es =>
    let fs := es.filter (fun e => es.any (fun f => f.2 == e.1) && es.any (fun f => f.1 == e.2))
    if fs.length = es.length then es else trimGo n fs

def trim (es : List (Nat × Nat)) : List (Nat × Nat) := trimGo (es.length + 1) es
def acyclic (es : List (Nat × Nat)) : Bool := (trim es).isEmpty

/-- The first link of what is left: of the lowest channel number, as the stops at its ends. -/
def cycleAt (es : List (Nat × Nat)) : Nat × Nat :=
  match (trim es).map (·.1) with
  | [] => (0, 0)
  | c :: cs =>
    let m := cs.foldl min c
    (m / 8, nextStop (m / 8) (m / 2 % 4))

/-- What fails first: a route, or a cycle, which the record names by the first link on it (DESIGN CHOICE, notes/assumptions/18.md). -/
def routeCheck (s : State) (ch : RouteSet) : Option (Nat × Nat × Bool) :=
  let st := upStops s
  let pairs := st.flatMap (fun a => st.filterMap (fun b => if a = b then none else some (a, b)))
  match pairs.find? (fun (a, b) => !routeOk s a b (routeIn s ch a b)) with
  | some (a, b) => some (a, b, false)
  | none =>
    let es := (pairs.flatMap (fun (a, b) => edgesOf a (routeIn s ch a b))).eraseDups
    if !acyclic es then some ((cycleAt es).1, (cycleAt es).2, true)
    else
      match ch.find? (fun e => !routeFormOk e.2.2 || (e.1 == e.2.1 && hopsOf e.2.2 != 0)) with
      | some e => some (e.1, e.2.1, false)
      | none => none

/-! ### Commits (R292) -/

def setQuiet (s : State) (q : Bool) : State :=
  (List.range 128).foldl (fun s st => s.putB (rFabRouteSel (fabUidOfStop st)) FabRouteSel.quiet q) s

/-- Base camp checks a set and, where it passes, writes the inactive banks and quiets the fabric (R291, R292). -/
def startCommit (s : State) (ch : RouteSet) : State :=
  if !bcUp s || s.fabric.commit.isSome then s
  else
    match routeCheck s ch with
    | some (a, b, cyc) => logRecord s 0x32 uidDevice 0 (a + b * 256) (ofBool cyc * 4) 0 0
    | none =>
      let changed := (ch.map (·.1)).eraseDups
      let s := changed.foldl (fun s a =>
        let dst := 1 - activeBank s a
        (List.range 128).foldl (fun s b => s.putR (bankReg a dst b) (routeIn s ch a b)) s) s
      let s := setQuiet s true
      { s with fabric := { s.fabric with commit := some ⟨ch, s.time⟩ } }

def execRouteCommit (changes : List (Nat × Nat × BitVec 64)) (s : State) : Host.Outcome State Fault Refusal :=
  .next (startCommit s changes)

/-- The output a packet waits for. -/
def Packet.out (p : Packet) : Nat := codeOf p.route 0

def dropPacket (s : State) (p : Packet) : State := countLost s p.stop p.out

/-- The state with a link or a stop lost, as the check of an alternative takes it (R293). -/
def lossState (s : State) : Loss → State
  | .link st d => s.putF (linkReg st d) FabLinkStatus.lstate 1
  | .stop n => s.putF (rUnitState (stateUidOfStop n)) UnitState.state usFailed

/-- A link that is in service: up, between stops that serve. -/
def linkServes (s : State) (st d : Nat) : Bool := linkUp s st d && stopUp s st && stopUp s (nextStop st d)

/-- Alternatives cover the loss of each single link and stop in service, and each passes the check (R291, R293). -/
def altsGood (s : State) (alts : List (Loss × RouteSet)) : Bool :=
  (List.range 128).all (fun st =>
    (!stopUp s st || alts.any (fun a => a.1 == .stop st)) &&
      [0, 1, 2, 3].all (fun d => !linkServes s st d || alts.any (fun a => a.1 == .link st d))) &&
    alts.all (fun a => (routeCheck (lossState s a.1) a.2).isNone)

/-- Base camp's alternatives, each a difference from the committed set: for links 4 × stop + code, and stops. -/
def altsOf (links stops : List (Nat × List (Nat × Nat × BitVec 64))) : List (Loss × RouteSet) :=
  links.map (fun e => (Loss.link (e.1 / 4) (e.1 % 4), e.2)) ++ stops.map (fun e => (Loss.stop e.1, e.2))

/-- Base camp has precomputed its alternatives and checked them (R293). -/
def execAlternativesReady (links stops : List (Nat × List (Nat × Nat × BitVec 64))) (s : State) :
    Host.Outcome State Fault Refusal :=
  .next (if !bcUp s || s.fabric.commit.isSome || !altsGood s (altsOf links stops) then s
    else { s with fabric := { s.fabric with altsOk := true, alts := altsOf links stops } })

/-- What an alternative stands for is lost: a link that is not up, a stop that reads failed with cause 0x07 (R301). -/
def lossGone (s : State) : Loss → Bool
  | .link st d => !linkUp s st d
  | .stop n => stateOf s (stateUidOfStop n) == usFailed && s.getF (rUnitState (stateUidOfStop n)) UnitState.cause == 0x07

/-- A stored alternative is applied for the loss of a link or a stop (R301). -/
def execReroute (isStop : Bool) (n : Nat) (s : State) : Host.Outcome State Fault Refusal :=
  let l := if isStop then Loss.stop n else Loss.link (n / 4) (n % 4)
  .next (if !lossGone s l || !s.fabric.altsOk then s
    else
      match s.fabric.alts.find? (fun e => e.1 == l) with
      | some e => startCommit s e.2
      | none => s)

/-! ### Fresh routes (R302) -/

/-- The default or column-first route, with each tied leg's direction as given. -/
def legWith (src dst size up down : Nat) (flip : Bool) : List Nat :=
  let fwd := (dst + size - src) % size
  let bwd := (src + size - dst) % size
  if fwd = bwd ∧ flip then (if src % 2 = 0 then List.replicate bwd down else List.replicate fwd up)
  else legCodes src dst size up down

def candidates (a b : Nat) : List Word :=
  let row (f : Bool) : List Nat := legWith (a % 16) (b % 16) 16 0 1 f
  let col (f : Bool) : List Nat := legWith (a / 16) (b / 16) 8 2 3 f
  let fs := [(true, false), (false, true), (true, true)]
  ([row false ++ col false, col false ++ row false] ++ fs.map (fun (r, c) => row r ++ col c) ++
    fs.map (fun (r, c) => col c ++ row r)).map routeOfCodes

/-- Distances to a stop over what is up, after `n` rounds. -/
def distances (s : State) (b : Nat) : Nat → SMap Nat
  | 0 => [(b, 0)]
  | n + 1 =>
    let m := distances s b n
    (List.range 128).foldl (fun m' a =>
      if (mfind m a).isSome || !stopUp s a then m'
      else if [0, 1, 2, 3].any (fun d => linkUp s a d && mfind m (nextStop a d) == some n) then mins m' a (n + 1) else m') m

/-- The shortest route over what is up, lower hop codes first. -/
def shortestGo (s : State) (m : SMap Nat) : Nat → Nat → Option (List Nat)
  | 0, _ => none
  | n + 1, a =>
    match mfind m a with
    | none => none
    | some 0 => some []
    | some (k + 1) =>
      match [0, 1, 2, 3].find? (fun d => linkUp s a d && mfind m (nextStop a d) == some k) with
      | some d => (shortestGo s m n (nextStop a d)).map (d :: ·)
      | none => none

def shortest (s : State) (a b : Nat) : Option Word := (shortestGo s (distances s b 28) 29 a).map routeOfCodes

/-- Routes for each pair in order, keeping the first candidate that leaves the graph acyclic; and the pairs left without one. -/
def freshRoutes (s : State) : List (Nat × Nat) → RouteSet → List (Nat × Nat) → List (Nat × Nat) → RouteSet × List (Nat × Nat)
  | [], out, _, bad => (out, bad)
  | (a, b) :: ps, out, es, bad =>
    let cs := (candidates a b ++ (shortest s a b).toList).filter (routeOk s a b)
    match cs.find? (fun w => acyclic ((es ++ edgesOf a w).eraseDups)) with
    | some w => freshRoutes s ps (out ++ [(a, b, w)]) ((es ++ edgesOf a w).eraseDups) bad
    | none => freshRoutes s ps out es (bad ++ [(a, b)])

/-! ### Links (R294, R295) -/

def linkKey (st d : Nat) : Nat := st * 4 + d
def updFab (s : State) (f : Fabric → Fabric) : State := { s with fabric := f s.fabric }

/-- A packet lies in the replay buffer of a link (R294). -/
def Packet.onLink (p : Packet) (st d : Nat) : Bool := p.flying && p.stop == st && p.out == d

/-- A link leaves service: the packets in its replay buffers are lost (R295). -/
def takeDown (s : State) (st d state : Nat) : State :=
  let gone := s.fabric.packets.filter (fun p => p.onLink st d)
  let s := gone.foldl dropPacket (updFab s (fun f => { f with packets := f.packets.filter (fun p => !p.onLink st d) }))
  linkRecord (s.putF (linkReg st d) FabLinkStatus.lstate state) st d

/-- The hop code of the way back. -/
def opposite (d : Nat) : Nat := if d % 2 = 0 then d + 1 else d - 1

/-- A stop is lost: the packets it holds are, and every link of its own and into it reads down (R295, R301). -/
def stopLost (s : State) (st : Nat) : State :=
  let gone := s.fabric.packets.filter (fun p => p.stop == st && !p.flying)
  let s := gone.foldl dropPacket (updFab s (fun f => { f with packets := f.packets.filter (fun p => !(p.stop == st && !p.flying)) }))
  [0, 1, 2, 3].foldl (fun s d =>
    let n := nextStop st d
    let s := if linkUp s st d then takeDown s st d 1 else s
    if linkUp s n (opposite d) then takeDown s n (opposite d) 1 else s) s

/-- A CRC error makes the sender replay what its buffer holds, from the flit that failed; eight replays of one flit take the link down
(R294, R295). The flit is the oldest that the receiver has not acknowledged. -/
def execLinkReplay (st : Fin 128) (d : Fin 4) (s : State) : Host.Outcome State Fault Refusal :=
  .next (if !linkUp s st d then s
    else
      let k := linkKey st d
      let s := s.putR (linkReg st d) (satInc (s.getR (linkReg st d)) FabLinkStatus.retries 1)
      let s := pmUncore s st 0x113 false none
      let w := (s.time :: mget [] s.fabric.window k).take 1000
      let n := mget 0 s.fabric.replays k + 1
      let s := updFab s (fun f => { f with replays := mput 0 f.replays k n, window := mput [] f.window k w })
      if 8 ≤ n then takeDown s st d 1 else s)

def execLivenessToken (st : Fin 128) (d : Fin 4) (s : State) : Host.Outcome State Fault Refusal :=
  .next (if linkUp s st d then updFab s (fun f => { f with token := mput 0 f.token (linkKey st d) s.time }) else s)

/-- A link reads down: its receiver lost lane lock, or nothing crossed it for 10 µs. -/
def execLinkDown (st : Fin 128) (d : Fin 4) (lockLost : Bool) (s : State) : Host.Outcome State Fault Refusal :=
  .next (if linkUp s st d && (lockLost || decide (mget 0 s.fabric.token (linkKey st d) + 10000 ≤ s.time)) then takeDown s st d 1
    else s)

/-- A committed route uses a link. -/
def linkUsed (s : State) (st d : Nat) : Bool :=
  let us := upStops s
  us.any (fun a => us.any (fun b => a != b && (linksOf (routeTo s a b) a).contains (st, d)))

/-- 1,000 replays within 1 s: base camp takes the link out of service, its routes having left it. -/
def execLinkOutOfService (st : Fin 128) (d : Fin 4) (s : State) : Host.Outcome State Fault Refusal :=
  let w := mget [] s.fabric.window (linkKey st d)
  .next (if bcUp s && linkUp s st d && (w[999]?).any (fun a => decide (s.time ≤ a + 1000000000)) && !linkUsed s st d then takeDown s st d 2
    else s)

/-! ### Packets (R283 to R289) -/

/-- The plane of a message (R262, R283). -/
def msgPlane : Msg → Plane
  | .snpS => .fwd
  | .snpO => .fwd
  | .snpInv => .fwd
  | .stash => .fwd
  | .dupUpd => .fwd
  | .data => .rsp
  | .ack => .rsp
  | .nack => .rsp
  | .stale => .rsp
  | .retry => .rsp
  | .noTarget => .rsp
  | .response => .rsp
  | _ => .req

/-- A message carries a whole line, or part of one with its mask (R286). -/
def msgLine : Msg → Bool
  | .wrLine => true
  | .wrPart => true
  | .wb => true
  | .data => true
  | _ => false

/-- A request that reads and changes nothing where it is performed (R297). -/
def msgReads : Msg → Bool
  | .rdS => true
  | .rdOnce => true
  | .read => true
  | .ctrlRead => true
  | _ => false

def Packet.plane (p : Packet) : Plane := msgPlane p.msg

/-- A second flit follows: a line, or more payload than the first flit's 48 bytes (R286). -/
def Packet.two (p : Packet) : Bool := msgLine p.msg || decide (48 < p.payload.length)
def Packet.flits (p : Packet) : Nat := if p.two then 2 else 1

/-- The header of a packet (R286). -/
def Packet.header (p : Packet) : BitVec 128 :=
  BitVec.ofNat 128 (p.dest * 2 ^ 112 + ofBool p.two * 2 ^ 111 + p.attempt * 2 ^ 106 + p.tag * 2 ^ 96 + p.src * 2 ^ 80 +
    ofBool p.io * 2 ^ 73 + ofBool p.after * 2 ^ 72 + (Config.typeNo p.msg).toNat * 2 ^ 64 + p.route.toNat)

def isIoStop (st : Nat) : Bool := decide (112 ≤ st) && (st - 112) % 4 != 2

/-- The unit that holds a line's home, as the map stands (R254). -/
def lineHomeUid (s : State) (line : Nat) : Nat := sliceUid (homeSlice s (line * 64))

/-- A stop holds requests for the entries of a slice whose own stop is gone, from the hold notice until the map changes (R257). -/
def heldAtSource (s : State) (line : Option Nat) : Bool :=
  match line with
  | none => false
  | some l =>
    let h := homeSlice s (l * 64)
    s.retires.any (fun r => r.slice == h && r.noticed && !r.mapped) && !stopUp s (stopOfTile h)

/-- Where a request goes as the slice map and the channel maps stand (R296): a line's home, or for a controller's request the channel
that a read of its line goes to. -/
def destOf (s : State) (e : EReq) : Nat :=
  match e.line, unitKind e.dest with
  | some l, _ => lineHomeUid s l
  | none, .mem _ => if physClass s e.addr == .dram then mcUid (readChan s e.addr) else e.dest
  | none, _ => e.dest

/-- A packet enters the fabric at a stop, its route word copied from the active bank (R284 to R286, R289). -/
def inject (s : State) (stop : Nat) (msg : Msg) (dest src tag attempt : Nat) (payload : List Byte) (orig : Option (Nat × Nat)) : State :=
  let d := stopOfUid dest
  let p : Packet := {
    stop := stop, msg := msg, dest := dest, src := src, attempt := attempt, tag := tag,
    io := msgPlane msg == .req && (isIoStop stop || isIoStop d), after := false, axis := none, inp := 4, payload := payload, orig := orig
    flying := false, route := routeTo s stop d }
  let s := updFab s (fun f => { f with packets := f.packets ++ [p] })
  if isIoStop stop && stop % 4 != 1 then pmUncore s stop 0x130 false none p.flits else s

def stopQuiet (s : State) (stop : Nat) : Bool := s.getB (rFabRouteSel (fabUidOfStop stop)) FabRouteSel.quiet

/-- The line a request names, where it asks memory: its home is its destination. -/
def memLine (s : State) (dest addr : Nat) : Option Nat :=
  if (physClass s addr).isMem && dest == lineHomeUid s (addr / 64) then some (addr / 64) else none

/-- The response of a request that a completer has recorded joins the record (R297). -/
def recordResp (s : State) (stop dest tag : Nat) (msg : Msg) (payload : List Byte) : State :=
  updFab s (fun f => { f with recs := f.recs.map (fun r =>
    if r.stop = stop ∧ r.src = dest ∧ r.tag = tag then { r with resp := some (msg, payload) } else r) })

def injectNew (s : State) (i : Inject) : State :=
  if !stopUp s i.stop || stopQuiet s i.stop then s
  else
    let src := i.src.toNat
    let tag := i.tag.toNat
    let orig := i.orig.map (fun o => (o.1.toNat, o.2.toNat))
    match msgPlane i.msg with
    | .fwd => inject s i.stop i.msg i.dest.toNat src tag 0 i.payload orig
    | .rsp => inject (recordResp s i.stop i.dest.toNat tag i.msg i.payload) i.stop i.msg i.dest.toNat src tag 0 i.payload none
    | .req =>
      if s.fabric.reqs.any (fun e => e.src == src && e.tag == tag) then s
      else
        let line := memLine s i.dest.toNat i.addr
        let e : EReq := ⟨src, tag, i.dest.toNat, i.addr, 0, s.time, i.msg, i.payload, orig, line⟩
        if heldAtSource s line then updFab s (fun f => { f with held := f.held ++ [e] })
        else inject (updFab s (fun f => { f with reqs := f.reqs ++ [e] })) i.stop i.msg i.dest.toNat src tag 0 i.payload orig

/-- An I/O stop that hosts ports. -/
def isPortStop (st : Nat) : Bool := isIoStop st && st % 4 != 1

/-- The port whose aperture a request names. -/
def hostPortOf (s : State) (e : Option EReq) : Option Nat :=
  match e.map (fun e => physClass s e.addr) with
  | some (.hostAp p _) => some p
  | _ => none

/-- How long a completer keeps a record (R297): an I/O stop for nine times its port's limit. -/
def recKeep (s : State) (st : Nat) (port : Option Nat) : Nat :=
  match port with
  | some p => if isPortStop st then max 2000000 (9 * (cplTimeoutUs s p + 100) * 1000) else 2000000
  | none => 2000000

/-- A completer's response goes back to the requester. -/
def respondTo (s : State) (p : Packet) (msg : Msg) (payload : List Byte) : State :=
  inject s p.stop msg p.src p.dest p.tag p.attempt payload none

/-- The record that answers a request (R297, R303): the completer's own, or where a new home receives a retry, the controller's. -/
def recordFor (s : State) (p : Packet) (e : Option EReq) (fresh : Bool) : Option DoneRec :=
  let key := p.orig.getD (p.src, p.tag)
  let at_ (st : Nat) : Option DoneRec := s.fabric.recs.find? (fun r => r.stop == st && r.src == key.1 && r.tag == key.2)
  if fresh then none
  else
    match at_ p.stop with
    | some r => some r
    | none =>
      match e.bind (·.line) with
      | some l => if 0 < p.attempt && physClass s (l * 64) == .dram then at_ (stopOfMc (primaryChan s (l * 64))) else none
      | none => none

/-- A request is delivered: it is performed once, and recorded unless it reads ordinary memory; a retry that matches a record is
answered from it, and so is a first copy that comes late. A frozen port answers with the frozen status, and an I/O stop whose 4,096
records are in use with Retry (R297, R300, R303). -/
def deliverReq (s : State) (p : Packet) : State :=
  let e := s.fabric.reqs.find? (fun e => e.src == p.src && e.tag == p.tag)
  let fresh := p.attempt = 0 && (p.orig.isSome || e.any (fun e => e.attempt == 0))
  let port := if isPortStop p.stop then hostPortOf s e else none
  if msgReads p.msg && e.any (fun e => e.line.isSome) then s
  else
    match recordFor s p e fresh with
    | some r => (r.resp.map (fun m => respondTo s p m.1 m.2)).getD s
    | none =>
      if port.any (portFrozen s) then respondTo s p .response (toBytes 2 0x0303)
      else if port.isSome && (msgReads p.msg || p.msg == .atom) &&
          decide (4096 ≤ (s.fabric.recs.filter (fun r => r.stop == p.stop && r.host)).length) then respondTo s p .retry []
      else
        let key := p.orig.getD (p.src, p.tag)
        updFab s (fun f => { f with recs := f.recs.filter (fun r => !(r.stop == p.stop && r.src == key.1 && r.tag == key.2)) ++
          [⟨p.stop, key.1, key.2, s.time + recKeep s p.stop port, port.isSome, none⟩] })

/-- A response reaches its requester (R296): the first for its tag ends the request, or with Retry has it sent anew (R280); a later one
is counted late. -/
def deliverRsp (s : State) (p : Packet) : State :=
  match s.fabric.reqs.find? (fun e => e.src == p.dest && e.tag == p.tag) with
  | none => updFab s (fun f => { f with late := mput 0 f.late p.stop (mget 0 f.late p.stop + 1) })
  | some e =>
    if p.msg = .retry then
      inject (updFab s (fun f => { f with reqs := f.reqs.map (fun x =>
        if x.src == p.dest && x.tag == p.tag then { x with attempt := 0, since := s.time } else x) })) p.stop e.msg (destOf s e) e.src e.tag 0
        e.payload e.orig
    else updFab s (fun f => { f with reqs := f.reqs.filter (fun e => !(e.src == p.dest && e.tag == p.tag)) })

def deliver (s : State) (p : Packet) : State :=
  let s := if isPortStop p.stop then pmUncore s p.stop 0x131 false none p.flits else s
  if stopOfUid p.dest ≠ p.stop then
    let r := linkReg p.stop 0
    logRecord (s.putR r (satInc (s.getR r) FabLinkStatus.misroutes 1)) 0x33 (fabUidOfStop p.stop) 0 p.src p.dest 0 0
  else
    match p.plane with
    | .req => deliverReq s p
    | .rsp => deliverRsp s p
    | .fwd => s

def fieldHeld (s : State) (f : Nat) : Bool := !domUp s (24 + f)
def fieldOfStop (st : Nat) : Nat := st % 16 / 4

/-- The VC of its plane that a packet is on, or would be on after the hop it waits for (R283, R285). -/
def Packet.vc (p : Packet) : Nat := ofBool p.io * 2 + ofBool p.after
def Packet.nextVc (p : Packet) : Nat := ofBool p.io * 2 + ofBool (afterHop p.stop p.out p.axis p.after)

def planeNo : Plane → Nat
  | .req => 0
  | .fwd => 1
  | .rsp => 2

/-- Two packets wait in one VC of one input. -/
def Packet.behind (p q : Packet) : Bool := p.stop == q.stop && p.plane == q.plane && p.vc == q.vc && p.inp == q.inp && !q.flying

/-- Nothing is before packet `k` in its input's VC (R286: the packets of a VC follow each other). -/
def atHead (s : State) (k : Nat) (p : Packet) : Bool := (s.fabric.packets.take k).all (fun q => !p.behind q)

/-- A plane of an output, and a VC of it, as one number. -/
def Packet.planeKey (p : Packet) : Nat := (p.stop * 4 + p.out) * 3 + planeNo p.plane
def Packet.outKey (p : Packet) : Nat := p.planeKey * 4 + p.nextVc

/-- Flits that fill, or are on their way to, the buffer a packet would enter at the receiver (R283). -/
def vcFill (s : State) (p : Packet) : Nat :=
  ((s.fabric.packets.filter (fun q => q.plane == p.plane &&
    (if q.flying then q.planeKey == p.planeKey && q.nextVc == p.nextVc
      else q.stop == nextStop p.stop p.out && q.inp == p.out && q.vc == p.nextVc))).map Packet.flits).foldl (· + ·) 0

/-- The VC downstream has a credit for the packet (R283), and the replay buffer of the link's plane room for its flits (R294). -/
def hasCredit (s : State) (p : Packet) : Bool :=
  decide (vcFill s p + p.flits ≤ Config.vcSpare + 2) &&
    decide (((s.fabric.packets.filter (fun q => q.flying && q.planeKey == p.planeKey)).map Packet.flits).foldl (· + ·) 0 + p.flits ≤ 64)

/-- The packets ready for the plane of an output: first in their VC, with a credit. -/
def ready_ (s : State) (p : Packet) : List Packet :=
  (s.fabric.packets.zipIdx.filter (fun e => !e.1.flying && e.1.stop == p.stop && hopsOf e.1.route != 0 && e.1.planeKey == p.planeKey &&
    atHead s e.2 e.1 && hasCredit s e.1)).map (·.1)

/-- The first of `n` round robin after the one granted last (R46). -/
def nextTurn (n last : Nat) (waits : List Nat) : Option Nat := ((List.range n).map (fun i => (last + 1 + i) % n)).find? (fun i => waits.contains i)

/-- It is the packet's turn (R46, R286): its VC among those of the plane that are ready, and its input among the five of that VC. -/
def itsTurn (s : State) (p : Packet) : Bool :=
  let rs := ready_ s p
  nextTurn 4 (mget 3 s.fabric.vcs p.planeKey) (rs.map Packet.nextVc) == some p.nextVc &&
    nextTurn 5 (mget 4 s.fabric.grants p.outKey) ((rs.filter (fun q => q.nextVc == p.nextVc)).map (·.inp)) == some p.inp

/-- Packet `k` is the first of its link's plane that the receiver has not acknowledged. -/
def firstFlying (s : State) (k : Nat) (p : Packet) : Bool :=
  (s.fabric.packets.take k).all (fun q => !(q.flying && q.planeKey == p.planeKey))

/-- A packet as the receiver of its link holds it. -/
def Packet.landed (p : Packet) : Packet :=
  { p with
    stop := nextStop p.stop p.out
    after := afterHop p.stop p.out p.axis p.after
    axis := some (colHop p.out)
    inp := p.out
    flying := false
    route := BitVec.ofNat 64 ((hopsOf p.route - 1) * 2 ^ 56 + fld p.route FabRouteA.code / 4) }

/-- A packet is sent on its link at its turn, its flits counted; the link's replay buffer keeps it. -/
def sendHop (s : State) (k : Nat) (p : Packet) : State :=
  let s := updFab s (fun f => { f with
    packets := f.packets.eraseIdx k ++ [{ p with flying := true }]
    grants := mput 4 f.grants p.outKey p.inp
    vcs := mput 3 f.vcs p.planeKey p.nextVc })
  pmUncore s p.stop (0x110 + planeNo p.plane) false none p.flits

/-- The receiver acknowledges a packet: it holds it, and the replays of its flits are over (R294, R295). -/
def landHop (s : State) (k : Nat) (p : Packet) : State :=
  let key := linkKey p.stop p.out
  let oldest := (s.fabric.packets.take k).all (fun q => !q.onLink p.stop p.out)
  updFab s (fun f => { f with
    packets := f.packets.eraseIdx k ++ [p.landed]
    token := mput 0 f.token key s.time
    replays := if oldest then mput 0 f.replays key 0 else f.replays })

/-- A packet that has come to its end is delivered; one whose delivery injects another waits while its stop is quiet (R292). -/
def takeOut (s : State) (k : Nat) (p : Packet) : State :=
  let rest := updFab s (fun f => { f with packets := f.packets.eraseIdx k })
  let t := deliver rest p
  if stopQuiet s p.stop && decide (rest.fabric.packets.length < t.fabric.packets.length) then s else t

/-- A packet is injected, or packet `k` goes on: it is delivered, sent on its link, or taken by the link's receiver. -/
def execPacketHop (k : Nat) (fresh : Option Inject) (s : State) : Host.Outcome State Fault Refusal :=
  .next (match fresh with
    | some i => if fieldHeld s (fieldOfStop i.stop) then s else injectNew s i
    | none =>
      match s.fabric.packets[k]? with
      | none => s
      | some p =>
        if fieldHeld s (fieldOfStop p.stop) || !stopUp s p.stop then s
        else if p.flying then (if firstFlying s k p then landHop s k p else s)
        else if !atHead s k p then s
        else if hopsOf p.route = 0 then takeOut s k p
        else if !linkUp s p.stop p.out then dropPacket (updFab s (fun f => { f with packets := f.packets.eraseIdx k })) p
        else if hasCredit s p && itsTurn s p then sendHop s k p else s)

/-! ### Retry (R296 to R298) -/

/-- The time a request may take: 100 µs, or for a host aperture its port's completion timeout plus that (R298). -/
def reqLimit (s : State) (e : EReq) : Nat :=
  match physClass s e.addr with
  | .hostAp p _ => (cplTimeoutUs s p + 100) * 1000
  | _ => 100000

/-- The threads of a core. -/
def threadsOf (s : State) (k : Nat) : List Tid :=
  match vcoreOfCore s k with
  | some v => [tidOf (2 * v), tidOf (2 * v + 1)]
  | none => []

/-- A core's read is abandoned (R152, R296): the access that needs its line raises 0x42 when it meets it, and a thread that waits for
a host has that for its answer. -/
def abandonRead (s : State) (k : Nat) (e : EReq) : State :=
  match physClass s e.addr with
  | .hostAp p _ =>
    (match (threadsOf s k).find? (fun t => (getT s t).hostWait == some p || (getT s t).fillWait == some p) with
     | some t => updT s t (fun x => if x.hostWait == some p then x.heard (.lost e.dest) else x.filled (.lost e.dest))
     | none => s)
  | _ =>
    let l := e.addr / 64
    let demand := !(mfind (getC s k).misses l).any (fun m => m == .prefetch)
    let key := if e.msg == .ctrlRead then ctrlLine e.addr else l
    updC s k (fun c => { c with misses := mdel c.misses l, lost := if demand then mins c.lost key e.dest else c.lost })

/-- The requester gives up after attempt 8 (R296): a core's load, fetch, atomic, walk or window fill raises 0x42, an engine's or the
message deliverer's descriptor ends 0x0205, a host has a Completer Abort, and the others leave a record. -/
def abandon (s : State) (e : EReq) : State :=
  let s := updFab s (fun f => { f with abandoned := (e.src, e.tag) :: f.abandoned })
  let record (s : State) : State := logRecord s 0x34 e.src 0 e.dest e.addr 0 0
  match unitKind e.src with
  | .core k => if msgReads e.msg || e.msg == .atom then abandonRead s k e else record s
  | .engine _ => endUnit s e.src 0x0205
  | .engStop _ => endUnit s e.src 0x0205
  | _ =>
    match (List.range 16).find? (fun p => portUid p == e.src) with
    | some p => aer s p 0 32
    | none => if e.src / 0x800 % 8 = 7 ∧ e.src / 0x100 % 8 = 6 then endUnit s e.src 0x0205 else record s

def execRequestTimeout (k : Nat) (s : State) : Host.Outcome State Fault Refusal :=
  .next (match s.fabric.reqs[k]? with
    | none => s
    | some e =>
      if timersHeld s || heldAtSource s e.line || stopQuiet s (stopOfUid e.src) || decide (s.time < e.since + reqLimit s e) then s
      else if 8 ≤ e.attempt then abandon (updFab s (fun f => { f with reqs := f.reqs.eraseIdx k })) e
      else
        let e' := { e with attempt := e.attempt + 1, since := s.time, dest := destOf s e }
        let s := updFab s (fun f => { f with reqs := f.reqs.set k e' })
        inject s (stopOfUid e.src) e.msg e'.dest e.src e.tag e'.attempt e.payload e.orig)

/-- The requests held at their sources whose entries the map has moved are sent to their homes (R257, step 3), but from no stop that
holds injection (R292). -/
def releaseHeld (s : State) : State :=
  let stays (e : EReq) : Bool := heldAtSource s e.line || stopQuiet s (stopOfUid e.src)
  (s.fabric.held.filter (fun e => !stays e)).foldl (fun s e =>
    let e := { e with dest := destOf s e, since := s.time }
    inject (updFab s (fun f => { f with reqs := f.reqs ++ [e] })) (stopOfUid e.src) e.msg e.dest e.src e.tag 0 e.payload e.orig)
    (updFab s (fun f => { f with held := f.held.filter stays }))

/-- With a route commit the stops have the hold notice of each slice whose stop is lost (R257). -/
def sendNotices (s : State) : State :=
  { s with retires := s.retires.map (fun r => { r with noticed := r.noticed || !stopUp s (stopOfTile r.slice) }) }

/-- Every stop is empty, or 20 µs have passed: what is left is discarded, the banks flip and injection resumes (R292). -/
def execQuietDrained (s : State) : Host.Outcome State Fault Refusal :=
  .next (if !bcUp s then s else match s.fabric.commit with
    | none => s
    | some c =>
      if !s.fabric.packets.isEmpty && decide (s.time < c.since + 20000) then s
      else
        let s := s.fabric.packets.foldl dropPacket s
        let changed := (c.changes.map (·.1)).eraseDups
        let s := changed.foldl (fun s a =>
          let r := rFabRouteSel (fabUidOfStop a)
          (s.putF r FabRouteSel.active (1 - activeBank s a)).putF r FabRouteSel.gen (s.getF r FabRouteSel.gen + 1)) s
        let s := setQuiet s false
        let s := { s with fabric := { s.fabric with packets := [], commit := none, altsOk := false, alts := [] } }
        releaseHeld (sendNotices (logRecord s 0x31 uidDevice 0 (s.getF (rFabRouteSel (fabUidOfStop 0)) FabRouteSel.gen) (s.time - c.since) 0 0)))

/-- A completer's record ends (R297). -/
def execCompleterRecordExpiry (k : Nat) (s : State) : Host.Outcome State Fault Refusal :=
  .next (match s.fabric.recs[k]? with
    | none => s
    | some r => if r.till ≤ s.time then updFab s (fun f => { f with recs := f.recs.eraseIdx k }) else s)

end Sys2Proof.Machine
end

