-- ==== Sys2Proof/Machine/Sparing.lean ====
section
/-! DEFINITION. Slips, falls and core sparing (R202 to R219): the commands of chapter 8. -/

namespace Sys2Proof.Machine

/-! ### Mismatches -/

/-- A mismatch is found in the instruction at the belay point of a roped core; at the replay of the same instruction it is a fall
(R204, R206). -/
def execSlip (t : Tid) (c : SlipClass) (s : State) : Host.Outcome State Fault Refusal :=
  .next (if !atBoundary s t || soloThread s t then s else mismatch s t c false)

/-- The replay mismatches again (R206, R209). -/
def execFall (t : Tid) (c : SlipClass) (s : State) : Host.Outcome State Fault Refusal :=
  .next (if !atBoundary s t || soloThread s t || !replayed s t then s else mismatch s t c false)

def execSlipLimitReached (k : Fin 192) (s : State) : Host.Outcome State Fault Refusal := .next (slipLimit s k)

/-- A write of CORE_CHECK_INJECT (R208): base camp's alone, and only under the normal invasive debug enable. -/
def writeCheckInject (s : State) (k : Nat) (v : Word) : State :=
  if !serving s (coreUid k) || !s.getB rVltDbgEn VltDbgEn.norm_inv then s
  else
    match fld v CoreCheckInject.inject with
    | 1 => updC s k (fun x => { x with inject := 1 })
    | 2 => updC s k (fun x => { x with inject := 2 })
    | _ => s

def execCheckInject (r : Requester) (k : Fin 192) (v : Word) (s : State) : Host.Outcome State Fault Refusal :=
  .next (if r = .baseCamp then writeCheckInject s k v else s)

/-- An error in a structure of a solo core that holds no architected state (R217): refetched, recorded, and counted as a slip. R217 names
no record: the model writes a slip's, type 0x10 with p1 = 0 (DESIGN CHOICE, notes/assumptions/59.md). -/
def execSoloArrayError (t : Tid) (s : State) : Host.Outcome State Fault Refusal :=
  .next (if !atBoundary s t || !soloThread s t then s
    else
      let k := coreOf s t
      let s := updC s k (fun x => { x with slips := s.time :: x.slips })
      logRecord s 0x10 (coreUid k) 0 (getT s t).pc.toNat 0 0 0)

/-- An uncorrectable error in a solo core's architected state (R218): both threads stop without a frame, with no sparing. -/
def execSoloUncorrectable (k : Fin 192) (s : State) : Host.Outcome State Fault Refusal :=
  let u := coreUid k
  .next (if !(serving s u) ∨ !s.getB (rShfCheckMode (sheafUid (sheafOfCore k))) ShfCheckMode.solo then s
    else
      let s := setUnit s u usFailed 0x06
      match vcoreOfCore s k with
      | none => s
      | some v =>
        let s := [2 * v, 2 * v + 1].foldl (fun s n => updT s (tidOf n) (fun x => { x with run := .halted, fault := none })) s
        if bcUp s then leaveUnbound (s.putB (rBcVcoreMap v) BcVcoreMap.bound false) v k else s)

/-! ### The sparing sequence (R209 to R213) -/

/-- The sequence under way for a failed core. -/
def sparingOf (s : State) (k : Nat) : Option Sparing := (running s).find? (fun q => q.core == k)

def updSparing (s : State) (k : Nat) (f : Sparing → Sparing) : State :=
  { s with sparings := s.sparings.map (fun q => if q.core = k ∧ q.company ≠ 0 then f q else q) }

/-- A sequence ends, and a waiting one may start (R211). -/
def endSparing (s : State) (k : Nat) : State :=
  startSparings 4 { s with sparings := s.sparings.filter (fun q => !(q.core == k && q.company != 0)) }

def sameMode (s : State) (a b : Nat) : Bool :=
  s.getB (rShfCheckMode (sheafUid (sheafOfCore a))) ShfCheckMode.solo ==
    s.getB (rShfCheckMode (sheafUid (sheafOfCore b))) ShfCheckMode.solo

/-- Candidates of the failed core's mode, in the order of R210. -/
def spareOrder (s : State) (k : Nat) : List Nat :=
  let cs := (List.range 192).filter (fun c => stateOf s (coreUid c) == usBivouac && sameMode s c k &&
    !s.mgmt.reserved.contains c)
  let own := cs.filter (fun c => c / 48 == k / 48)
  let hops (c : Nat) : Nat := hopsOf (defaultRoute (stopOfTile (k / 2)) (stopOfTile (c / 2)))
  let other := cs.filter (fun c => c / 48 != k / 48)
  own ++ (List.range 16).flatMap (fun h => other.filter (fun c => hops c == h))

/-- The threads a virtual core carries. -/
def vthreads (s : State) (v : Nat) : List Tid := if vmapB s v BcVcoreMap.solo then [tidOf (2 * v), tidOf (2 * v + 1)] else [tidOf (2 * v)]

/-- Step 2: base camp reserves a spare, or leaves the virtual core unbound (R210, R213). -/
def execSpareChoose (k : Fin 192) (s : State) : Host.Outcome State Fault Refusal :=
  .next (match sparingOf s k with
    | none => s
    | some q =>
      if q.spare.isSome || !bcUp s then s
      else
        match spareOrder s k with
        | c :: _ =>
          let s := updSparing s k (fun q => { q with spare := some c })
          let s := { s with mgmt := { s.mgmt with reserved := s.mgmt.reserved ++ [c] } }
          let s := if stateOf s (tileUid (c / 2)) = usBivouac then setUnit s (tileUid (c / 2)) usStarting 0x01 else s
          setUnit s (coreUid c) usStarting 0x01
        | [] => endSparing (leaveUnbound s q.vcore k q.inject) k)

/-- A reserved spare has failed its start: base camp chooses the next one, and the sequence's steps from there on run again (R219). -/
def spareLost (s : State) (c : Nat) : State :=
  let back (q : Sparing) : Sparing := { q with spare := none, raised := false, loaded := false, rebound := false }
  let s := (s.sparings.filter (fun q => q.spare == some c && q.rebound)).foldl (fun s q => s.putB (rBcVcoreMap q.vcore) BcVcoreMap.bound false) s
  { s with
    sparings := s.sparings.map (fun q => if q.spare = some c then back q else q)
    mgmt := { s.mgmt with reserved := s.mgmt.reserved.filter (· != c) } }

/-- Step 3: the spare's header is at its sheaf voltage and has settled (R50); or the spare fails its start (R209, R219). -/
def execSpareRaiseDone (k : Fin 192) (ok : Bool) (s : State) : Host.Outcome State Fault Refusal :=
  .next (match sparingOf s k with
    | some q =>
      (match q.spare with
       | some c =>
         if q.raised then s
         else if stateOf s (coreUid c) ≠ usStarting then s
         else if !ok then spareLost (setUnit s (coreUid c) usFailed 0x06) c
         else if coreRaised s c then updSparing s k (fun q => { q with raised := true })
         else s
       | none => s)
    | none => s)

/-- What the tile agent captures of one thread (R209, R170): its stores released, its results settled, its exceptions carried
without their address. -/
def captureThread (s : State) (t : Tid) : State :=
  updT (drainAll s t) t (fun x =>
    let y := settleAll x
    { y with excs := y.excs.map (fun e => { e with known := false }) })

/-- Step 4. -/
def execCaptureDone (k : Fin 192) (s : State) : Host.Outcome State Fault Refusal :=
  .next (match sparingOf s k with
    | some q =>
      if q.captured then s
      else updSparing ((vthreads s q.vcore).foldl captureThread s) k (fun q => { q with captured := true })
    | none => s)

/-- Step 5. -/
def execFlushDone (k : Fin 192) (s : State) : Host.Outcome State Fault Refusal :=
  .next (match sparingOf s k with
    | some q => if !q.captured || q.flushed then s else updSparing (emptyCaches s k) k (fun q => { q with flushed := true })
    | none => s)

/-- The registers of one block copied to another of the same layout: the performance counters of R210. -/
def copyBlock (s : State) (a b : Nat) : State :=
  ((blockRows a).flatMap rowOffs).foldl (fun s o => s.putR (b * 0x100000 + o) (s.getR (a * 0x100000 + o))) s

/-- A core's header opens: its logic keeps no state (R50), and its load falls through the sheaf's ballast (R59). -/
def gateCore (s : State) (k : Nat) : State :=
  let u := coreUid k
  let s := [u, u + 1, u + 2].foldl (fun s b => softReset s b []) s
  let s := (getC s k).lines.foldl (fun s e => dropLine s k e.1) s
  let s := putC s k (freshCore s k)
  askLoad s (sheafOfCore k) ((getD s (sheafOfCore k)).want - Config.coreLoad k)

/-- Step 6: the captured state is in the spare; predictor state starts at its reset values (R210, R195). -/
def execStateLoadDone (k : Fin 192) (s : State) : Host.Outcome State Fault Refusal :=
  .next (match sparingOf s k with
    | some q =>
      (match q.spare with
       | some c =>
         if !(q.raised && q.captured) || q.loaded then s
         else
           let s := copyBlock s (coreUid k + 1) (coreUid c + 1)
           let s := s.putR (rCorePaceReq (coreUid c)) (s.getR (rCorePaceReq (coreUid k)))
           let s := (vthreads s q.vcore).foldl (fun s t => updT s t (fun x => { x with pred := Pred.init })) s
           updSparing (putC s c (freshCore s c)) k (fun q => { q with loaded := true })
       | none => s)
    | none => s)

/-- Step 7: the routers and the core map switch, and BC_VCORE_MAP_n is written whole (R31); the counters go as the alias left them (R518). -/
def execRebindDone (k : Fin 192) (s : State) : Host.Outcome State Fault Refusal :=
  .next (match sparingOf s k with
    | some q =>
      (match q.spare with
       | some c =>
         if !(q.flushed && q.loaded) || q.rebound then s
         else
           let r := rBcVcoreMap q.vcore
           let s := copyBlock s (coreUid k + 1) (coreUid c + 1)
           let w := setFld (setFld (wrapInc (s.getR r) BcVcoreMap.gen) BcVcoreMap.phys_unit (coreUid c)) BcVcoreMap.bound 1
           updSparing (s.putR r w) k (fun q => { q with rebound := true })
       | none => s)
    | none => s)

/-- A core enters service: its check status starts again (R207). -/
def coreStarts (s : State) (c : Nat) : State :=
  let u := coreUid c
  let solo := s.getB (rShfCheckMode (sheafUid (sheafOfCore c))) ShfCheckMode.solo
  (s.putR (rCoreCheckStatus u) (setFld 0 CoreCheckStatus.solo (ofBool solo))).putR (rCoreCheckLast u) 0

/-- Step 8: the spare runs from the belay point; the record and the notice go out (R209, R463). -/
def execSpareResume (k : Fin 192) (s : State) : Host.Outcome State Fault Refusal :=
  .next (match sparingOf s k with
    | some q =>
      (match q.spare with
       | some c =>
         let s := if stateOf s (tileUid (c / 2)) = usStarting && holdersUp s (tileUid (c / 2)) then
             setUnit s (tileUid (c / 2)) usInService 0x02 else s
         if !q.rebound || stateOf s (coreUid c) != usStarting || !holdersUp s (coreUid c) || (getD s (sheafOfCore c)).stopped then s
         else
           let s := setUnit (coreStarts s c) (coreUid c) usInService 0x02
           let gen := s.getF (rBcVcoreMap q.vcore) BcVcoreMap.gen
           let s := s.putR rBcSpareStatus (satInc (s.getR rBcSpareStatus) BcSpareStatus.sparings 1)
           let s := { s with mgmt := { s.mgmt with reserved := s.mgmt.reserved.filter (· != c) } }
           let s := logRecord s 0x11 (coreUid k) q.cause
             (coreUid k + coreUid c * 2 ^ 16 + q.vcore * 2 ^ 32 + gen * 2 ^ 48) q.since
             ((s.time - q.since) % 2 ^ 32 + q.company * 2 ^ 32) (getT s (tidOf (2 * q.vcore))).pc.toNat q.inject
           endSparing (configEval (notify s rBcSpareNotify)) k
       | none => s)
    | none => s)

end Sys2Proof.Machine
end

