-- ==== Sys2Proof/Machine/Caches.lean ====
section
/-! DEFINITION. Array errors, ways, scratch, slice retirement and substitute buddies (R248 to R258, R266): chapter 10's commands. -/

namespace Sys2Proof.Machine

/-! ### Device failure -/

/-- Base camp reports the device failed, and stops every normal-world thread at its next boundary (R258). -/
def reportFailed (s : State) : State :=
  { s with
    mgmt := { s.mgmt with failed := true }
    threads := s.threads.map (fun e =>
      if trusted s (tidOf e.1) || e.2.run == .unstarted then e else (e.1, { e.2 with run := .halted })) }

/-! ### Scratch contents -/

/-- A physical address of a scratch way at or above `j`. -/
def scratchFrom (j pa : Nat) : Bool :=
  decide (0x100000000000 ≤ pa) && decide (pa < 0x100000000000 + 0xC000000) && decide (j ≤ (pa - 0x100000000000) / 0x40000 % 8)

/-- A physical address of a slice's scratch. -/
def scratchOf (i pa : Nat) : Bool := scratchFrom 0 pa && (pa - 0x100000000000) / 0x200000 == i

/-- The scratch bytes at the addresses given are zero, their tags clear, and no copy stands (R253). -/
def wipeScratch (s : State) (at_ : Nat → Bool) : State :=
  let lines := ((s.dir.map (·.1)) ++ s.cores.flatMap (fun c => c.2.lines.map (·.1))).filter (fun l => at_ (l * 64))
  let s := lines.eraseDups.foldl recallLine s
  { s with
    mem := s.mem.filter (fun c => !at_ c.1)
    tags := s.tags.filter (fun e => !at_ (e.1 * 16))
    poison := s.poison.filter (fun e => !at_ (e.1 * 64)) }

/-! ### Slice retirement (R255 to R258) -/

/-- Map entries that name a slice. -/
def entriesOf (s : State) (i : Nat) : List Nat := (List.range 384).filter (fun n => sliceMap s n == i)

/-- The slice for one entry: of those in service but the retiring slice and its buddy, the fewest entries, then the fewest hops, then the
lowest index (R255, R266). -/
def newHome (s : State) (i : Nat) (counts : SMap Nat) : Option Nat :=
  let cs := allSlices.filter (fun c => stateOf s (sliceUid c) == usInService && c != i && c != buddySlice s i)
  let key (c : Nat) : Nat :=
    mget 0 counts c * 100000 + hopsOf (routeTo s (stopOfTile i) (stopOfTile c)) * 1000 + c
  cs.foldl (fun b c => match b with
    | none => some c
    | some o => if key c < key o then some c else some o) none

/-- The new homes of a slice's entries, taken in ascending order. -/
def newHomes (s : State) (i : Nat) : List Nat → SMap Nat → List (Nat × Nat)
  | [], _ => []
  | n :: ns, counts =>
    match newHome s i counts with
    | none => []
    | some c => (n, c) :: newHomes s i ns (mput 0 counts c (mget 0 counts c + 1))

def mapCounts (s : State) : SMap Nat :=
  (List.range 384).foldl (fun m n => mput 0 m (sliceMap s n) (mget 0 m (sliceMap s n) + 1)) []

/-- Requests that have reached some lines and are not yet answered are taken off, with the messages of their transactions. -/
def dropTxns (s : State) (here : Nat → Bool) : State :=
  { s with
    txns := s.txns.filter (fun e => !here e.1)
    homeQ := s.homeQ.filter (fun q => !here q.line)
    fwd := s.fwd.filter (fun f => !here f.line || f.kind == .dupUpd)
    rsp := s.rsp.filter (fun r => !(here r.line && r.home)) }

/-- The requests that `dropTxns` takes off. -/
def pendingReqs (s : State) (here : Nat → Bool) : List HomeReq :=
  ((s.txns.filter (fun e => here e.1 && e.2.stage != .offer)).map (·.2.req) ++ s.homeQ.filter (fun q => here q.line)).filter
    (fun q => q.kind != .recall)

/-- What waited behind them goes on (R279). -/
def wakeQueue (s : State) : State := s.homeQ.foldl (fun s q => advanceTxn s q.line) s

/-- Transactions and waiting requests of a slice that no longer answers go back to their requesters: with Retry, or where its stop is
lost too they wait at their sources (R256, R257). A notice, which has no answer, is kept by its sender. -/
def retryAll (s : State) (i : Nat) : State :=
  let here (line : Nat) : Bool := homeSlice s (line * 64) == i
  let up := serving s (stateUidOfStop (stopOfTile i))
  wakeQueue ((pendingReqs s here).foldl (fun s q => if up && q.kind != .notice then answer s q .retry none false q.bytes else holdReq s q)
    (dropTxns s here))

/-- The request of an access under way to a failed slice's scratch ends with poison (R253): a core's access meets it there, a prefetch
is given up. -/
def spoil (s : State) (q : HomeReq) : State :=
  match q.who with
  | .core k =>
    if q.kind = .wb ∨ q.kind = .notice then s
    else
      let demand := mfind (getC s k).misses q.line != some .prefetch
      updC s k (fun c => { c with misses := mdel c.misses q.line, spoiled := if demand then c.spoiled ++ [q.line] else c.spoiled })
  | _ => pushRsp s ⟨.data, q.line, homeSlice s (q.line * 64), false, q.who, none, q.kind, false, [], false, true⟩

/-- A failed slice's scratch is lost: requests under way end with poison, later accesses meet no target (R253). -/
def loseScratch (s : State) (i : Nat) : State :=
  let here (line : Nat) : Bool := scratchOf i (line * 64)
  wipeScratch ((pendingReqs s here).foldl spoil (dropTxns s here)) (scratchOf i)

/-- Homes whose duplicates a slice holds. -/
def duplicatesAt (s : State) (c : Nat) : List Nat :=
  allSlices.filter (fun h => h != c && serving s (sliceUid h) && buddySlice s h == c)

/-- A slice no longer keeps duplicates: the homes it kept them for read dup_ok 0, and none waits for it (R265, R266). -/
def buddyLost (s : State) (i : Nat) : State :=
  let hs := (duplicatesAt s i).filter (buddyOn s)
  let s := hs.foldl (fun s h => s.putF (rTileDirStatus (sliceUid h)) TileDirStatus.dup_ok 0) s
  let s := { s with fwd := s.fwd.filter (fun (f : Fwd) => !(f.kind == FwdKind.dupUpd && f.target == i)) }
  ((s.txns.filter (fun (e : Nat × Txn) => e.2.buddy && hs.contains (homeSlice s (e.1 * 64)))).map Prod.fst).foldl buddyDone s

/-- Lines whose only dirty copy a failed slice held are lost: memory holds what it held before (R258). -/
def loseDirty (s : State) (i : Nat) : State :=
  let gone := (s.l3.filter (fun e => e.2.dirty && homeSlice s (e.1 * 64) == i && (holders s e.1).isEmpty)).map (·.1)
  gone.foldl (fun s l => { setL3 s l none with
    mem := writeCells s.mem (l * 64) ((List.range 64).map (fun b => Config.staleByte s.time (l * 64 + b))) }) s

/-- A slice's retirement joins those under way, of which the first goes on; one that fails in its drain retires in the drain's place
(R25, R259). -/
def joinRetires (s : State) (i : Nat) (drain : Bool) : State :=
  let first := (s.retires.head?).all (fun r => r.slice == i)
  let r : Retire := ⟨i, if first then newHomes s i (entriesOf s i) (mapCounts s) else [], s.time, drain, false, false, false⟩
  let rest := s.retires.filter (fun r => r.slice != i)
  { s with retires := if first then r :: rest else rest ++ [r] }

/-- A retirement has ended, and the next begins with the choice of its homes (R255, R259). -/
def leaveRetires (s : State) (i : Nat) : State :=
  match s.retires.filter (fun r => r.slice != i) with
  | [] => { s with retires := [] }
  | r :: rs => { s with retires := { r with homes := newHomes s r.slice (entriesOf s r.slice) (mapCounts s) } :: rs }

/-- The retirement under way, where it is this slice's. -/
def retireOf (s : State) (i : Nat) : Option Retire := (s.retires.head?).filter (fun r => r.slice == i)

/-- A slice fails, with the cause of its state word: it retires, or with buddy directories off the device is failed (R256, R258). -/
def failSlice (s : State) (i cause : Nat) : State :=
  let u := sliceUid i
  if !(serving s u) then s
  else
    let s := buddyLost (setUnit (loseScratch s i) u usFailed cause) i
    if !bcUp s then s
    else if !buddyOn s i then reportFailed (logRecord (loseDirty s i) 0x2A u cause i 0 0 0)
    else configEval (joinRetires (retryAll s i) i false)

/-- A slice drains: the same steps, its own directory moving (R256). -/
def drainSlice (s : State) (i : Nat) : State :=
  if stateOf s (sliceUid i) ≠ usInService ∨ !bcUp s then s
  else joinRetires (setUnit s (sliceUid i) usDraining 0x01) i true

def execSliceHold (i : Fin 96) (drain : Bool) (s : State) : Host.Outcome State Fault Refusal :=
  .next (if drain then drainSlice s i else failSlice s i 0x06)

def updRetire (s : State) (i : Nat) (f : Retire → Retire) : State :=
  { s with retires := s.retires.map (fun r => if r.slice = i then f r else r) }

/-- What the new home installs from the buddy: the duplicate, flagged where it records sharers (R265). -/
def fromBuddy (e : DirEnt) : DirEnt :=
  match e.view with
  | .shared => { e with bcast := true }
  | .owned => { e with bcast := true }
  | _ => e

/-- Step 3 ends: the entries stand at the new homes and their buddies; the slice's L3 lines are dropped, or were written back by a
draining slice (R256). -/
def execDirectoryTransferDone (i : Fin 96) (s : State) : Host.Outcome State Fault Refusal :=
  .next (match retireOf s i with
    | none => s
    | some r =>
      if r.moved then s
      else
        let here (line : Nat) : Bool := homeSlice s (line * 64) == i.val
        let s := if r.drain then ((s.l3.filter (fun e => here e.1)).map (·.1)).foldl (fun s l => l3Out s 4 l) s else s
        let moved : SMap DirEnt := if r.drain then s.dir.filter (fun e => here e.1)
          else (s.dup.filter (fun e => here e.1)).map (fun e => (e.1, fromBuddy e.2))
        let put (m : SMap DirEnt) : SMap DirEnt :=
          moved.foldl (fun m (e : Nat × DirEnt) => mput dirNone m e.1 e.2) (m.filter (fun e => !here e.1))
        let s := { s with dir := put s.dir, dup := if buddyOn s i then put s.dup else s.dup, l3 := s.l3.filter (fun e => !here e.1) }
        updRetire s i (fun r => { r with moved := true }))

/-- Step 4: every stop's copy of the map is switched, and the published one with it (R256); not before the route commit of the
fault that took the stop (R292). -/
def execSliceMapCommit (i : Fin 96) (s : State) : Host.Outcome State Fault Refusal :=
  .next (match retireOf s i with
    | none => s
    | some r =>
      if !r.moved || r.mapped || s.fabric.commit.isSome then s
      else
        let s := r.homes.foldl (fun s (n, c) =>
          s.putF (rBcSliceMap (n / 8)) ⟨8 * (n % 8) + 6, 8 * (n % 8)⟩ c) s
        let s := s.putF rBcSliceMapGen BcSliceMapGen.gen (s.getF rBcSliceMapGen BcSliceMapGen.gen + 1)
        let s := r.homes.foldl (fun s (_, c) => bcastFix s c) s
        updRetire s i (fun r => { r with mapped := true }))

/-- Base camp's substitute for a home whose buddy was slice `i` (R266). -/
def substituteFor (s : State) (i h : Nat) : Option Nat :=
  let cs := allSlices.filter (fun c => c / 24 == i / 24 && c != h && c != i && stateOf s (sliceUid c) == usInService &&
    decide ((duplicatesAt s c).length < 2))
  let key (c : Nat) : Nat := (duplicatesAt s c).length * 100 + c
  cs.foldl (fun b c => match b with
    | none => some c
    | some o => if key c < key o then some c else some o) none

def startSubstitute (s : State) (i h : Nat) : State :=
  let r := rTileDirStatus (sliceUid h)
  let s := { s with dup := s.dup.filter (fun e => homeSlice s (e.1 * 64) != h) }
  let s := s.putF r TileDirStatus.dup_ok 0
  match substituteFor s i h with
  | none => s
  | some c =>
    let s := (s.putF r TileDirStatus.substitute 1).putF r TileDirStatus.buddy c
    { s with subCopy := s.subCopy ++ [h] }

/-- Step 5: held requests go to the new homes, the slice is withdrawn, the record is written, and its duplicates get substitute
buddies (R256, R266). -/
def execSliceRelease (i : Fin 96) (s : State) : Host.Outcome State Fault Refusal :=
  .next (match retireOf s i with
    | none => s
    | some r =>
      if !r.mapped then s
      else
        let u := sliceUid i
        let homes := duplicatesAt s i
        let s := resendHeld (releaseHeld (leaveRetires s i))
        let cause := s.getF (rUnitState u) UnitState.cause
        let s := addWithdrawn (setUnit s u usWithdrawn (if r.drain then 0x03 else 0x01)) u
        let p1 := (r.homes.zipIdx).foldl (fun n (h, k) => n + h.2 * 256 ^ k) 0
        let s := logRecord s 0x2A u cause i p1 (s.time - r.since) 0
        configEval ((if buddyOn s i then homes else []).foldl (fun s h => startSubstitute s i h) s))

/-- A home has copied its whole directory to its substitute (R266). -/
def execSubstituteBuddyCopyDone (h : Fin 96) (s : State) : Host.Outcome State Fault Refusal :=
  .next (if !s.subCopy.contains h.val then s
    else
      let here (line : Nat) : Bool := homeSlice s (line * 64) == h.val
      let s := { s with
        subCopy := s.subCopy.filter (· != h.val)
        dup := (s.dir.filter (fun (e : Nat × DirEnt) => here e.1)).foldl (fun m (e : Nat × DirEnt) => mput dirNone m e.1 e.2) (s.dup.filter (fun (e : Nat × DirEnt) => !here e.1)) }
      configEval (s.putF (rTileDirStatus (sliceUid h)) TileDirStatus.dup_ok 1))

/-! ### Array errors (R248, R249) -/

/-- The core of a core block, or the slice of a slice block. -/
def coreOfArray (u : Nat) : Option Nat := if coreUid (coreOfUid u) = u then some (coreOfUid u) else none
def sliceOfArray (u : Nat) : Option Nat := if sliceUid (tileOfUid u) = u then some (tileOfUid u) else none

/-- A line whose data recovery could not place is poisoned in memory, and recorded (R248). -/
def loseLine (s : State) (u line : Nat) : State :=
  let pa := line * 64
  let dram := physClass s pa == .dram
  logRecord (setPoison (setL3 (recallLine s line) line none) line true) 0x20 u 0 (if dram then localAddr s pa else 0)
    (0x2FF0 + (if dram then logicalRank s (primaryChan s pa) (localAddr s pa) else 0)) pa 0

/-- Lines of a core that an array holds in one set: arrays 0 L1I, 1 L1D, 2 L2, 4 eviction and side buffers. -/
def inArray (array set : Nat) (e : Nat × CLine) : Bool :=
  match array with
  | 0 => e.2.l1i.isSome && e.1 % 256 == set
  | 1 => e.2.l1d.isSome && e.1 % 128 == set
  | 2 => e.2.place == .l2 && e.1 % 2048 == set
  | _ => e.2.place != .l2

/-- Recovery of one set of a core's array (R248): an L1I set is invalidated, an L1D set rebuilt from the L2's records; of the others
S lines and side-buffer lines are dropped, an E line that no way matches leaves with its notice, and an M or O one is lost. -/
def recoverCore (s : State) (k array set : Nat) (lost : List Nat) : State :=
  let u := coreUid k
  let here := (getC s k).lines.filter (inArray array set)
  let gone := here.filter (fun e => 2 ≤ array && e.2.dirty && lost.contains e.1)
  let s :=
    if array = 0 then
      updC s k (fun x => { x with lines := x.lines.map (fun (e : Nat × CLine) => if inArray 0 set e then (e.1, { e.2 with l1i := none }) else e) })
    else if array = 1 then s
    else
      let s := (here.filter (fun e => e.2.st == .s || e.2.place == .side)).foldl (fun s e => dropLine s k e.1) s
      let s := (here.filter (fun e => e.2.st == .e && lost.contains e.1)).foldl (fun s e => leaveClean s k e.1 e.2) s
      gone.foldl (fun s e => loseLine s u e.1) s
  logRecord s 0x28 u 0 (array + set % 4096 * 16) gone.length 0 0

/-- Recovery of one set of a slice (R248): lines that no way matches are dropped, and a dirty one is lost. -/
def recoverSlice (s : State) (i set : Nat) (lost : List Nat) : State :=
  let u := sliceUid i
  let here := s.l3.filter (fun e => e.1 % 4096 == set % 4096 && homeSlice s (e.1 * 64) == i && lost.contains e.1)
  let gone := here.filter (fun e => e.2.dirty)
  let s := here.foldl (fun s e => setL3 s e.1 none) s
  let s := gone.foldl (fun s e => loseLine s u e.1) s
  logRecord s 0x28 u 0 (3 + set % 4096 * 16) gone.length 0 0

/-- The access that met the error replays as for a slip on a roped core, with the next shift and rotation, and is no slip (R204, R248). -/
def replayAccess (s : State) (k : Nat) : State :=
  match vcoreOfCore s k with
  | none => s
  | some v =>
    if soloThread s (tidOf (2 * v)) then s else updC s k (fun x => { x with shift := shiftBy x.shift 4, rot := 1 - x.rot })

/-- An array error that is not corrected in place (R248): a tag parity error, whose set is recovered, or an uncorrectable data error,
which poisons the line the array holds. Arrays 0 L1I, 1 L1D, 2 L2, 3 L3 slice, 4 eviction and side buffers. -/
def execTagRecovery (u : Uid) (array : Fin 5) (set : Nat) (what : ArrayErr) (s : State) : Host.Outcome State Fault Refusal :=
  let uid := u.toNat
  .next (if !serving s uid then s
    else
      match coreOfArray uid, sliceOfArray uid, what with
      | some k, _, .tag lost => if array.val = 3 then s else replayAccess (recoverCore s k array set lost) k
      | some k, _, .data line =>
        if array.val ≠ 3 ∧ ((getC s k).lines.any (fun e => e.1 == line && inArray array set e)) then setPoison s line true else s
      | none, some i, .tag lost => if array.val = 3 then recoverSlice s i set lost else s
      | none, some i, .data line =>
        if array.val = 3 ∧ line % 4096 = set ∧ (scratchOf i (line * 64) ∧ (physClass s (line * 64)).isMem ∨
            (mfind s.l3 line).isSome ∧ homeSlice s (line * 64) = i) then setPoison s line true else s
      | none, none, _ => s)

/-! ### Ways (R249 to R251) -/

def wayRecord (s : State) (u array way : Nat) : State := logRecord s 0x29 u 0 (array + way * 16) 0 0 0

/-- An hour, in which way errors are counted (R249). -/
def hourNs : Nat := 3600000000000

/-- Correctable errors of a way within the hour, this one counted; and the thresholds its cache has met within it (R249). -/
def wayCount (s : State) (u array way : Nat) : Nat :=
  (s.mgmt.wayErrs.filter (fun e => e.1 == u && e.2.1 == array && e.2.2.1 == way && decide (s.time < e.2.2.2 + hourNs))).length
def wayThird (s : State) (u array : Nat) : Bool :=
  decide (3 ≤ (s.mgmt.wayOffs.filter (fun e => e.1 == u && e.2.1 == array && decide (s.time < e.2.2 + hourNs))).length)

/-- A correctable error is counted; the eighth of its way within the hour is one of the kind that disables the way, and its count
begins again. The flag says so. -/
def countWay (s : State) (u array way : Nat) : State × Bool :=
  let recent := s.mgmt.wayErrs.filter (fun e => decide (s.time < e.2.2.2 + hourNs))
  let s := { s with mgmt := { s.mgmt with wayErrs := (u, array, way, s.time) :: recent } }
  if wayCount s u array way < 8 then (s, false)
  else ({ s with mgmt := { s.mgmt with
      wayErrs := s.mgmt.wayErrs.filter (fun e => !(e.1 == u && e.2.1 == array && e.2.2.1 == way))
      wayOffs := (u, array, s.time) :: s.mgmt.wayOffs.filter (fun e => decide (s.time < e.2.2 + hourNs)) } }, true)

/-- A way of a core's array is disabled, its lines leaving first; not where fewer than two would be left (R249). -/
def coreWayOff (s : State) (k array way : Nat) : State :=
  let u := coreUid k
  let (f, n) := wayField array
  let dis := s.getF (rCoreCacheWays u) f
  if n ≤ way ∨ dis.testBit way then s
  else if n - bitCount dis n ≤ 2 then wayRecord s u array way
  else wayRecord (emptyWays (s.putF (rCoreCacheWays u) f (dis + 2 ^ way)) k) u array way

/-- A way of a slice is disabled, its lines leaving, and a scratch way it held taking a general one in its place; not where fewer than
two general ways would be left (R249, R253). -/
def sliceWayOff (s : State) (i way : Nat) : State :=
  let u := sliceUid i
  let dis := s.getF (rTileL3Ways u) TileL3Ways.way_dis
  if dis.testBit way then s
  else if enabledWays s i ≤ secureWays s i + s.getF (rTileL3Ways u) TileL3Ways.scratch_ways + 2 then wayRecord s u 3 way
  else wayRecord (fixGeneral (s.putF (rTileL3Ways u) TileL3Ways.way_dis (dis + 2 ^ way)) i) u 3 way

/-- A correctable error in a way, which base camp counts, disabling the way at the eighth within an hour and withdrawing the unit at
the third such threshold; or the disabling of a way through management (R248, R249): arrays 0 L1I, 1 L1D, 2 L2, 3 L3 slice. -/
def execWayDisable (u : Uid) (array : Fin 4) (way : Fin 12) (management : Bool) (s : State) : Host.Outcome State Fault Refusal :=
  let uid := u.toNat
  .next (if !bcUp s || !serving s uid then s
    else
      match coreOfArray uid, sliceOfArray uid with
      | some k, _ =>
        if array.val = 3 ∨ (wayField array).2 ≤ way.val then s
        else if management then coreWayOff s k array way
        else
          let (s, off) := countWay s uid array way
          if !off then s else if wayThird s uid array then failCore s k 0x05 else coreWayOff s k array way
      | none, some i =>
        if array.val ≠ 3 then s
        else if management then sliceWayOff s i way
        else
          let (s, off) := countWay s uid 3 way
          if !off then s else if wayThird s uid 3 then drainSlice s i else sliceWayOff s i way
      | none, none => s)

/-! ### Scratch (R252, R253) -/

/-- Scratch ways at or above `j`. -/
def clearScratch (s : State) (j : Nat) : State := wipeScratch s (scratchFrom j)

/-- Every slice applies the number of scratch ways. -/
def applyScratch (s : State) (n : Nat) : State :=
  allSlices.foldl (fun s i => fixGeneral (s.putF (rTileL3Ways (sliceUid i)) TileL3Ways.scratch_ways n) i) s

/-- A write of BC_SCRATCH_CFG (R253). -/
def writeScratchCfg (s : State) (v : Word) : State :=
  let r := rBcScratchCfg
  let s := if fldB v BcScratchCfg.refused then s.putF r BcScratchCfg.refused 0 else s
  let raw := fld v BcScratchCfg.ways
  let n := min 8 raw
  let old := min 8 (s.getF r BcScratchCfg.ways)
  let breaks := allSlices.any (fun i => serving s (sliceUid i) && decide (enabledWays s i < secureWays s i + n + 2))
  if s.getB r BcScratchCfg.busy || breaks then s.putF r BcScratchCfg.refused 1
  else if n = old then s.putF r BcScratchCfg.ways raw
  else
    let s := (s.putF r BcScratchCfg.ways raw).putF r BcScratchCfg.busy 1
    if n < old then clearScratch { s with scratchNew := some n } n else { s with scratchNew := some n }

def execScratchCfgWrite (r : Requester) (v : Word) (s : State) : Host.Outcome State Fault Refusal :=
  .next (match r with
    | .host _ _ => s
    | _ => if blockUp s uidBaseCamp then writeScratchCfg s v else s)

/-- Every slice has applied the change: new ways are zero before they answer (R253). -/
def execScratchChangeDone (s : State) : Host.Outcome State Fault Refusal :=
  .next (match s.scratchNew with
    | none => s
    | some n =>
      let old := (allSlices.map (fun i => s.getF (rTileL3Ways (sliceUid i)) TileL3Ways.scratch_ways)).foldl max 0
      let s := if old < n then clearScratch s old else s
      (applyScratch { s with scratchNew := none } n).putF rBcScratchCfg BcScratchCfg.busy 0)

end Sys2Proof.Machine
end

