-- ==== Sys2Proof/Machine/Units.lean ====
section
/-! DEFINITION. The transitions of unit state words (R23 to R27), what leaves service with a unit (R26, R481 to R483), and base camp's
unit table. -/

namespace Sys2Proof.Machine

/-! ### Failures (R26, R481 to R483) -/

/-- A unit that reads in service or draining moves to failed. -/
def failWord (s : State) (u cause : Nat) : State := if isUp s u then setUnit s u usFailed cause else s

/-- A tile leaves service, with its cores and, where its stop is gone, its slice. -/
def failTile (s : State) (i cause : Nat) (slice : Bool) : State :=
  let s := failWord s (tileUid i) cause
  let s := if slice then failSlice s i cause else s
  failCore (failCore s (2 * i) cause) (2 * i + 1) cause

def failTileStop (s : State) (i cause : Nat) : State :=
  if isUp s (tileFabUid i) then failTile (stopLost (failWord s (tileFabUid i) cause) (stopOfTile i)) i 0x07 true else s

/-- The loss of a sheaf's domain: every core of it falls (R483). -/
def failSheaf (s : State) (h cause : Nat) : State :=
  if isUp s (sheafUid h) then
    [0, 1, 2, 3].foldl (fun s i => failTile s (4 * h + i) 0x04 false) (failWord s (sheafUid h) cause)
  else s

/-- Network ports of an I/O stop. -/
def netPortsOf (s : State) (n : Nat) : List Nat :=
  ((netLanes s).zipIdx.filter (fun e => e.1 / 32 == n)).map (·.2)

/-- An I/O stop fails: its host ports freeze with cause 2, its network ports go down, and its expansion links are lost (R329, R483). -/
def failIo (s : State) (n cause : Nat) : State :=
  let s := failWord s (ioUid n) cause
  let s := [2 * n, 2 * n + 1].foldl (fun s p => if hostPortMode s p then portFreeze s p 2 else s) s
  let s := (netPortsOf s n).foldl netDown s
  ((List.range 16).filter (fun l => !(windowsOf s l).isEmpty && linkIo s l == n)).foldl linkLost s

/-- A channel of a failed engine stop stops, its descriptors in flight ending with 0x0205 and their host reads as timed out; it was
running, or not (R482 steps 2 to 4). -/
def moveChan (s : State) (g : Nat) : State :=
  let run := (getCh s g).state == 2
  let s := chanStopAs s g 15
  let s := updCh s g (fun c => { c with ranBefore := run })
  let s := (getCh s g).flight.foldl (fun s d => if d.status.isSome then s else endDesc s g d.slot 0x0205 (if isMoveOp d.op then d.done else 0)) s
  let s := dropFetch s g
  let mine (r : HostReq) : Bool := match r.for_ with
    | .desc h _ => r.dropped && h == g
    | .fetch h _ => r.dropped && h == g
    | .poll h => h == g
    | _ => false
  let s := if isHostChan g then endReqs s (chanPort g) mine 0x0302
    else (List.range 16).foldl (fun s p => if (getP s p).reqs.any mine then endReqs s p mine 0x0302 else s) s
  completeAll s g

/-- Base camp issues START for a channel that was running (R482 step 5). -/
def restartChan (s : State) (g : Nat) : State :=
  if (getCh s g).ranBefore && bcUp s then
    updCh (chanCommand s g 2 true) g (fun c => { c with ranBefore := false })
  else s

/-- An engine stop leaves service: its channels and queues move to the substitute, which goes on with them unless it is out of
service itself (R482, R489). -/
def failEngStop (s : State) (f cause : Nat) : State :=
  if !isUp s (esUid f) then s
  else
    let gs := (s.chans.map (·.1)).filter (fun g => servingEs s g == f && (getCh s g).state != 0)
    let s := failWord s (esUid f) cause
    let s := [meUid (2 * f), meUid (2 * f + 1), keUid (2 * f), keUid (2 * f + 1)].foldl (fun s u => failWord s u 0x07) s
    let s := [keUid (2 * f), keUid (2 * f + 1)].foldl (fun s u =>
      (updU s u (fun x => { x with pending := none, check := false })).putB (rKeUcodeStatus u) KeUcodeStatus.pending false) s
    let s := if f = 0 then bridgeLost s else s
    let s := gs.foldl moveChan s
    if serving s (esUid ((f + 2) % 4)) then gs.foldl (fun s g => heldGo (restartChan s g) g) s else s

/-- A field-level unit that its stop's loss has made unreachable takes the stop's links down (R301). -/
def unitLost (s : State) (u cause : Nat) : State :=
  if cause = 0x07 ∧ stateUidOfStop (stopOfUid u) = u ∧ isUp s u then stopLost s (stopOfUid u) else s

/-- A unit fails with a cause (R25), and what its failure takes with it; with SS 3 the timebase stops at its last value (R483). -/
def failUnit (s : State) (u cause : Nat) : State :=
  if !isUp s u then s
  else
    match unitKind u with
    | .core k => failCore s k cause
    | .tile i => failTile s i cause false
    | .slice i => failSlice s i cause
    | .tileStop i => failTileStop s i cause
    | .sheaf h => failSheaf s h cause
    | .mem c => failChannel (unitLost s u cause) c cause
    | .io n => failIo (unitLost s u cause) n cause
    | .engStop f => failEngStop (unitLost s u cause) f cause
    | .service f =>
      let s := failWord (unitLost s u cause) u cause
      if f = 3 then
        let s := { s with tb := { s.tb with counting := false } }
        if bcUp s then reportFailed s else s
      else s
    | .engine _ => engineOut s u cause
    | .other => s

/-! ### Routes that reach no stop (R302) -/

/-- A stop base camp withdraws because no routes reach it, and what it holds with it (R25, R302). -/
def withdrawStop (s : State) (st : Nat) : State :=
  let u := stateUidOfStop st
  let s := failUnit s u 0x07
  logRecord (if stateOf s u = usFailed then withdrawUnit s u else s) 0x12 u 0x07 0 0 0 0

def recomputeGo : Nat → State → State
  | 0, s => s
  | n + 1, s =>
    let st := upStops s
    let pairs := st.flatMap (fun a => st.filterMap (fun b => if a = b then none else some (a, b)))
    match freshRoutes s pairs [] [] [] with
    | (ch, []) => startCommit s ch
    | (_, bad) =>
      let count (x : Nat) : Nat := (bad.filter (fun p => p.1 == x || p.2 == x)).length
      let worst := (st.filter (fun x => stateOf s (stateUidOfStop x) == usInService)).foldl (fun w x => match w with
        | none => some x
        | some y => if count y < count x then some x else some y) none
      match worst with
      | some x => recomputeGo n (withdrawStop s x)
      | none => s

/-- A stored alternative applies to what is lost: it passes the check as the links and stops now stand (R301). -/
def altApplies (s : State) : Bool :=
  s.fabric.altsOk && s.fabric.alts.any (fun a => lossGone s a.1 && (routeCheck s a.2).isNone)

/-- No stored alternative applies: base camp computes routes afresh (R302). -/
def execRouteRecompute (s : State) : Host.Outcome State Fault Refusal :=
  .next (if !bcUp s || s.fabric.commit.isSome || (routeCheck s []).isNone || altApplies s then s else recomputeGo 128 s)

def failCode : FailCause → Nat
  | .fall => 0x04
  | .threshold => 0x05
  | .uncorrectable => 0x06
  | .unreachable => 0x07

def execUnitFailure (u : Uid) (why : FailCause) (s : State) : Host.Outcome State Fault Refusal :=
  .next (failUnit s u.toNat (failCode why))

def execEngineStopFailure (f : Fin 4) (s : State) : Host.Outcome State Fault Refusal := .next (failEngStop s f.val 0x07)

/-! ### Commands of base camp (R25) -/

/-- The units that a unit holds, none of which may read in service or draining once it leaves service (R26). -/
def heldUnits (u : Nat) : List Nat :=
  match unitKind u with
  | .tile i => [coreUid (2 * i), coreUid (2 * i + 1)]
  | .tileStop i => [tileUid i, coreUid (2 * i), coreUid (2 * i + 1)]
  | .sheaf h => (List.range 4).map (fun j => tileUid (4 * h + j)) ++ (List.range 8).map (fun j => coreUid (8 * h + j))
  | .engStop f => [meUid (2 * f), meUid (2 * f + 1), keUid (2 * f), keUid (2 * f + 1)]
  | _ => []

/-- The transition of a command, where the unit's present state allows it (R25, R472). -/
def commandUnit (s : State) (u from_ dst cause : Nat) : State :=
  if bcUp s && isStateUnit u && stateOf s u == from_ then setUnit s u dst cause else s

def execUnitStartCommand (u : Uid) (s : State) : Host.Outcome State Fault Refusal :=
  .next (commandUnit s u.toNat usOff usStarting 0x01)

/-- Bivouac applies to cores and tiles (R24), and to no core whose number is bound to it (R216). -/
def mayBivouac (s : State) (u : Nat) : Bool :=
  match unitKind u with
  | .core k => (vcoreOfCore s k).isNone
  | .tile _ => true
  | _ => false

def execPlaceSpare (u : Uid) (s : State) : Host.Outcome State Fault Refusal :=
  .next (if mayBivouac s u.toNat then configEval (commandUnit s u.toNat usOff usBivouac 0x01) else s)

def execBivouacPowerDown (u : Uid) (s : State) : Host.Outcome State Fault Refusal :=
  .next (configEval (commandUnit s u.toNat usBivouac usOff 0x01))

/-- A core in service that carries a number is bound to it again; one that carries none, and starts after numbering, receives the
lowest never assigned (R28). -/
def numberCore (s : State) (k : Nat) : State :=
  match vcoreOfCore s k with
  | some v => s.putB (rBcVcoreMap v) BcVcoreMap.bound true
  | none =>
    let n := s.mgmt.nextVcore
    if n = 0 ∨ 192 ≤ n ∨ !bcUp s then s
    else
      let tw := (trustedTiles s ++ standbyTiles s).contains (k / 2) && s.vault.active
      let w := [(BcVcoreMap.phys_unit, coreUid k), (BcVcoreMap.world, ofBool tw),
        (BcVcoreMap.solo, ofBool (s.getB (rShfCheckMode (sheafUid (k / 8))) ShfCheckMode.solo)),
        (BcVcoreMap.bound, 1), (BcVcoreMap.valid, 1)].foldl (fun w (f, x) => setFld w f x) (0 : Word)
      { s.putR (rBcVcoreMap n) w with mgmt := { s.mgmt with nextVcore := n + 1 } }

/-- A channel is copied from its partner in region mode before its mirror is whole (R485). -/
def startResilver (s : State) (c : Nat) : State :=
  let s := recoverySet s c
  if chanMirrored s then updM s c (fun m => { m with resilver := some 0 }) else s.putF (rMcProt (mcUid c)) McProt.mode 0

/-- A start sequence is complete: the unit reads in service, where those it depends on do and its supply has settled (R25, R26, R50).
A core that a sparing holds enters service at its resume. -/
def startDone (s : State) (u : Nat) : State :=
  let raised := match unitKind u with
    | .core k => coreRaised s k
    | _ => true
  if stateOf s u ≠ usStarting ∨ !isStateUnit u ∨ !holdersUp s u ∨ !raised then s
  else
    let s' := setUnit s u usInService 0x02
    match unitKind u with
    | .core k => if s.mgmt.reserved.contains k then s else configEval (numberCore (coreStarts s' k) k)
    | .mem c => if (getM s c).lastFail.isSome then startResilver s' c else s'
    | _ => s'

def execStartSequenceComplete (u : Uid) (s : State) : Host.Outcome State Fault Refusal := .next (startDone s u.toNat)

/-- A start sequence fails; a channel that fails its training after a restart is withdrawn (R485), and the place of a spare is taken by
the next (R219). -/
def execStartSequenceError (u : Uid) (s : State) : Host.Outcome State Fault Refusal :=
  .next (if stateOf s u.toNat ≠ usStarting ∨ !isStateUnit u.toNat then s
    else
      let s := setUnit s u.toNat usFailed 0x06
      match unitKind u.toNat with
      | .mem c => if (getM s c).lastFail.isSome && bcUp s then withdrawUnit s u.toNat else s
      | .core k => spareLost s k
      | _ => s)

/-- A domain moves again: its engine stop acts on the commands it held. -/
def domMoves (s : State) (d : Nat) : State := if 28 ≤ d then heldAll (syncTimers s) (d - 28) else syncTimers s

def execDroopResume (d : DomId) (mv : Nat) (s : State) : Host.Outcome State Fault Refusal :=
  .next (if 540 < mv then domMoves (updD s d (fun x => { x with paused := false })) d else s)

/-- Every good sensor below the trip threshold less 10 °C: the domain ramps up and resumes, a field fabric or an engine stop at the
voltage it had (R62). -/
def execSoftStopResume (d : DomId) (readings : List (BitVec 10)) (s : State) : Host.Outcome State Fault Refusal :=
  .next (if !(getD s d).stopped ∨ s.board.critical ∨ readings.isEmpty ∨
      readings.any (fun r => decide (tripLevel - 40 ≤ r.toNat)) then s
    else
      let s := updD s d (fun x => { x with stopped := false, setMv := if d.val < 24 then x.setMv else x.wasMv })
      let s := domMoves (askLoad s d (getD s d).wasWant) d
      let s := if d.val < 24 then s.putF (rShfGovStatus (sheafUid d)) ShfGovStatus.soft_stopped 0 else s
      powerRecord s d 2 ((readings.map BitVec.toNat).foldl max 0))

/-- A drain of a core that carries a number is its sparing, which needs a spare of its mode (R473). -/
def drainCore (s : State) (k : Nat) : State :=
  match vcoreOfCore s k with
  | none => setUnit s (coreUid k) usDraining 0x01
  | some v =>
    if (spareOrder s k).isEmpty ∨ s.getB (rShfCheckMode (sheafUid (sheafOfCore k))) ShfCheckMode.solo then s
    else
      let s := setUnit s (coreUid k) usDraining 0x01
      let s := s.putB (rBcVcoreMap v) BcVcoreMap.bound false
      startSparings 4 { s with sparings := s.sparings ++ [⟨k, v, 0x01, s.time, false, 0, none, false, false, false, false, false⟩] }

def drainUnit (s : State) (u : Nat) : State :=
  if !bcUp s || !isStateUnit u || stateOf s u != usInService then s
  else
    match unitKind u with
    | .core k => drainCore s k
    | .slice i => drainSlice s i
    | _ => setUnit s u usDraining 0x01

def execDrainCommand (u : Uid) (s : State) : Host.Outcome State Fault Refusal := .next (drainUnit s u.toNat)

/-- The work a drain waits for is done: the core's sparing and the slice's retirement have ended, and nothing that the unit holds is in
service (R26). -/
def drained (s : State) (u : Nat) : Bool :=
  match unitKind u with
  | .core k => !s.sparings.any (fun q => q.core == k)
  | .slice i => !s.retires.any (fun r => r.slice == i)
  | _ => (heldUnits u).all (fun v => !isUp s v)

/-- A drain is complete: power-down, or retirement to the withdrawal list. -/
def drainEnds (s : State) (u : Nat) (retire : Bool) : State :=
  if stateOf s u ≠ usDraining ∨ !isStateUnit u ∨ !drained s u then s
  else
    let s := match unitKind u with
      | .core k => emptyCaches s k
      | _ => s
    if retire then (if bcUp s then withdrawUnit s u else s)
    else
      match unitKind u with
      | .core k => gateCore (setUnit s u usOff 0x03) k
      | _ => setUnit s u usOff 0x03

def execDrainComplete (u : Uid) (retire : Bool) (s : State) : Host.Outcome State Fault Refusal :=
  .next (configEval (drainEnds s u.toNat retire))

/-- A drain is cancelled, before a spare has been chosen or an entry moved. -/
def cancelDrain (s : State) (u : Nat) : State :=
  if !bcUp s || !isStateUnit u || stateOf s u != usDraining || !holdersUp s u then s
  else
    match unitKind u with
    | .core k =>
      (match s.sparings.find? (fun q => q.core == k) with
       | none => setUnit s u usInService 0x0A
       | some q =>
         if q.spare.isSome then s
         else
           let s := { s with sparings := s.sparings.filter (fun q => q.core != k) }
           setUnit (s.putB (rBcVcoreMap q.vcore) BcVcoreMap.bound true) u usInService 0x0A)
    | .slice i =>
      if s.retires.any (fun r => r.slice == i && r.moved) then s
      else setUnit { s with retires := s.retires.filter (fun r => r.slice != i) } u usInService 0x0A
    | _ => setUnit s u usInService 0x0A

def execDrainCancelled (u : Uid) (s : State) : Host.Outcome State Fault Refusal := .next (cancelDrain s u.toNat)

/-- A contained unit is withdrawn and enters the withdrawal list: not while its sparing or retirement runs. -/
def execContainmentWithdraw (u : Uid) (s : State) : Host.Outcome State Fault Refusal :=
  .next (if bcUp s && isStateUnit u.toNat && stateOf s u.toNat == usFailed && drained s u.toNat then
      configEval (withdrawUnit s u.toNat)
    else s)

/-- A restart the unit's chapter permits: a channel failed with cause 0x06 or 0x07, once in 24 hours; an engine failed with cause
0x04, once; a core of a trusted group under restart that did not fall (R445, R484). -/
def restartAllowed (s : State) (u : Nat) : Bool :=
  let cause := fld (s.getR (rUnitState u)) UnitState.cause
  match unitKind u with
  | .mem c =>
    (cause == 6 || cause == 7) && (match mfind s.mgmt.restartAt c with
      | none => true
      | some t => decide (t + 86400000000000 ≤ s.time))
  | .engine _ => cause == 4 && !s.mgmt.engRestart.contains u
  | .core k => cause != 4 && s.getF rVltTwStatus VltTwStatus.stby_state == 1 && (standbyTiles s).contains (k / 2)
  | _ => false

def noteRestart (s : State) (u : Nat) : State :=
  match unitKind u with
  | .mem c => { s with mgmt := { s.mgmt with restartAt := mins s.mgmt.restartAt c s.time } }
  | .engine _ => { s with mgmt := { s.mgmt with engRestart := s.mgmt.engRestart ++ [u] } }
  | _ => s

def restartUnit (s : State) (u : Nat) : State :=
  if bcUp s && stateOf s u == usFailed && restartAllowed s u then
    let s := noteRestart (setUnit s u usOff 0x01) u
    match unitKind u with
    | .core k => gateCore s k
    | _ => s
  else s

def execFailedRestart (u : Uid) (s : State) : Host.Outcome State Fault Refusal := .next (restartUnit s u.toNat)

/-! ### Base camp's unit table (R27, R455) -/

/-- A transition as a record (R463). -/
def stateRecord (s : State) (m : StateMsg) : State :=
  logRecord s 0x01 m.unit (fld m.word UnitState.cause)
    (fld m.word UnitState.state + fld m.word UnitState.prev_state * 16 + fld m.word UnitState.seq * 256) m.time 0 0

/-- A state message reaches base camp, which takes its word unless its table holds a later one. -/
def execStateMessage (k : Nat) (s : State) : Host.Outcome State Fault Refusal :=
  .next (match s.stateMsgs[k]? with
    | none => s
    | some m =>
      let s := { s with stateMsgs := s.stateMsgs.eraseIdx k }
      if !bcUp s then s
      else
        let old := (mfind s.bcTable m.unit).map (fun o => o.time)
        let s := if (old.getD 0) ≤ m.time then { s with bcTable := mins s.bcTable m.unit m } else s
        stateRecord s m)

end Sys2Proof.Machine
end

