-- ==== Sys2Proof/Machine/Trusted.lean ====
section
/-! DEFINITION. The trusted world and the vault (chapter 19): world switches, the trusted pair, key slots, counters and tamper; and
thread start (R89, R143, R500). -/

namespace Sys2Proof.Machine

/-! ### Thread start (R89, R143, R500) -/

def permMask (ps : List Nat) : Nat := ps.foldl (fun n p => n ||| 2 ^ p) 0

/-- The roots of R143, with WORLD for the trusted world (R433). -/
def rootPerms (ps : List Nat) (world : Bool) : Nat := permMask (if world then pWORLD :: ps else ps)
def memoryRoot (world : Bool) : GReg :=
  ⟨capPack (rootPerms [pLOAD, pSTORE, pEXEC, pLOADCAP, pSTORECAP, pATOMIC, pGLOBAL] world) 0 47 0 0x1FFFF 0, true⟩
def controlRoot (world : Bool) : GReg := ⟨capPack (rootPerms [pLOAD, pSTORE, pCTRL, pGLOBAL] world) 0 20 0 0xFFFF 0, true⟩
def sealingRoot (world : Bool) : GReg := ⟨capPack (rootPerms [pSEAL, pUNSEAL, pGATE, pGLOBAL] world) 0 0 0 0xFFF 0, true⟩

/-- The memory root bounded to a region, its cursor at the top. -/
def stackCap (world : Bool) (base size : Nat) : GReg :=
  match setBounds ((memoryRoot world).setCursor (BitVec.ofNat 64 base)) size with
  | some v => v.setCursor (BitVec.ofNat 64 (base + size))
  | none => GReg.zero

/-- The five capabilities a thread starts with. -/
structure StartCaps where
  pcc     : GReg
  wstack  : GReg
  fstack  : GReg
  fgate   : GReg
  gatetab : GReg
deriving DecidableEq, Repr

/-- A thread starts: registers zero, WSTATE reset, the five capabilities loaded, stopped and
clear_count cleared (R89, R164, R185, R501). -/
def startThread (s : State) (t : Tid) (c : StartCaps) (regs : SMap GReg) : State :=
  let s := putT s t { Thread.init with
    run := .running, pcc := c.pcc, wstack := c.wstack, fstack := c.fstack, fgate := c.fgate, gatetab := c.gatetab
    regs := regs, pred := (getT s t).pred, lastPc := c.pcc.int }
  (s.putF (rBcThreadStop t.val) BcThreadStop.stopped 0).putF (rBcPredCtrl t.val) BcPredCtrl.clear_count 0

/-- The boot thread's state (R500), and the trusted world's first thread's (R433). -/
def bootCaps (world : Bool) (entry fault wBase wSize fBase fSize : Nat) : StartCaps where
  pcc := (memoryRoot world).setCursor (BitVec.ofNat 64 entry)
  wstack := stackCap world wBase wSize
  fstack := stackCap world fBase fSize
  fgate := setOtype ((memoryRoot world).setCursor (BitVec.ofNat 64 fault)) 4095
  gatetab := GReg.zero

/-- Boot state for a thread: the roots in g1 to g3 where it receives them, translation off, interrupts off. -/
def bootThread (s : State) (t : Tid) (c : StartCaps) (world roots : Bool) : State :=
  let regs : SMap GReg := if roots then [(1, memoryRoot world), (2, controlRoot world), (3, sealingRoot world)] else []
  let s := startThread s t c regs
  ((s.putR (rBcXlatRoot1 t.val) 0).putR (rBcXlatRoot2 t.val) 0).putR (rBcIrqCtrl t.val) 0

/-! ### World switches (R435, R436) -/

def sw (s : State) (f : Fld) (n : Nat) : State := s.putF rVltWorldCmd f n

/-- The writer belongs to the trusted world (R434). -/
def writerWorld (s : State) : Requester → Bool
  | .thread t => trusted s t
  | _ => false

/-- The core of a virtual core belongs to a group. -/
def inGroup (s : State) (v : Nat) : Bool :=
  match boundCore s v with
  | some k => (trustedTiles s ++ (if s.getB rVltTwCfg VltTwCfg.stby_en then standbyTiles s else [])).contains (k / 2)
  | none => false

/-- Why a switch is refused, in the order of R435. -/
def switchReason (s : State) (w : Bool) (v : Nat) (dst : Bool) : Option Nat :=
  let solo := match boundCore s v with
    | some k => s.getB (rShfCheckMode (sheafUid (k / 8))) ShfCheckMode.solo
    | none => false
  if vmapB s v BcVcoreMap.world ≠ w then some 1
  else if dst && solo then some 2
  else if s.getB rVltWorldCmd VltWorldCmd.busy then some 3
  else
    match boundCore s v with
    | none => some 4
    | some k => if stateOf s (coreUid k) ≠ usInService then some 4 else if s.vault.active && inGroup s v then some 5 else none

/-- Step 1: the core's threads stop at their next boundary, with what was pending discarded. -/
def switchStops (s : State) (v : Nat) : State :=
  [2 * v, 2 * v + 1].foldl (fun s n =>
    let s := updT s (tidOf n) (fun x => { x with run := .halted, deadline := none, fault := none, excs := [] })
    (s.putR (rBcIrqEn n) 0).putR (rBcIrqPend n) 0) s

/-- A write of VLT_WORLD_CMD, by either world. -/
def writeWorldCmd (s : State) (r : Requester) (v : Word) : State :=
  let s := if fldB v VltWorldCmd.refused then sw s VltWorldCmd.refused 0 else s
  let vc := fld v VltWorldCmd.vcore
  let dst := fldB v VltWorldCmd.to_world
  let keep (s : State) : State :=
    [VltWorldCmd.notify_thread, VltWorldCmd.notify_vector, VltWorldCmd.vcore, VltWorldCmd.to_world].foldl
      (fun s f => sw s f (fld v f)) s
  if !fldB v VltWorldCmd.go then (if s.getB rVltWorldCmd VltWorldCmd.busy then s else keep s)
  else
    match switchReason s (writerWorld s r) vc dst with
    | some n =>
      let s := if s.getB rVltWorldCmd VltWorldCmd.busy then s else keep s
      sw (sw s VltWorldCmd.refused 1) VltWorldCmd.reason n
    | none =>
      let s := sw (keep s) VltWorldCmd.busy 1
      switchStops { s with vault := { s.vault with sw := some (vc, dst) } } vc

def execWorldSwitch (r : Requester) (v : Word) (s : State) : Host.Outcome State Fault Refusal :=
  .next (match r with
    | .host _ _ => s
    | _ => if blockUp s uidVault then writeWorldCmd s r v else s)

/-- The sheaf's trusted field: it holds trusted-world cores (R196). -/
def sheafTrusted (s : State) (h : Nat) : State :=
  s.putB (rShfCheckMode (sheafUid h)) ShfCheckMode.trusted
    ((List.range 8).any (fun i => match vcoreOfCore s (8 * h + i) with
      | some v => vmapB s v BcVcoreMap.world
      | none => false))

/-- A virtual core's thread is as at its reset: no value of the world it leaves stays (R436 step 3). -/
def clearThread (s : State) (n : Nat) : State :=
  let s := putT s (tidOf n) { Thread.init with wstate := 0 }
  [rBcXlatRoot1 n, rBcXlatRoot2 n, rBcIrqCtrl n, rBcIrqEn n, rBcIrqPend n, rBcThreadStop n, rBcThreadStopPc n].foldl
    (fun s r => s.putR r 0) s

/-- Every register of a block back at its reset value. -/
def resetBlock (s : State) (u : Nat) : State :=
  ((blockRows u).flatMap rowOffs).foldl (fun s o => s.resetR (u * 0x100000 + o)) s

/-- Steps 2 to 4: drained and cleared, the world changed, the notice sent. -/
def execWorldSwitchDone (s : State) : Host.Outcome State Fault Refusal :=
  .next (match s.vault.sw with
    | none => s
    | some (v, dst) =>
      let ts := [2 * v, 2 * v + 1]
      if ts.any (fun n => (getT s (tidOf n)).hostWait.isSome) then s
      else
        let s := ts.foldl (fun s n => dropFill s (tidOf n)) s
        let k := coreOfUid (s.getF (rBcVcoreMap v) BcVcoreMap.phys_unit)
        let s := ts.foldl (fun s n => drainAll s (tidOf n)) s
        let s := emptyCaches s k
        let s := clearPredictors (startClear s (tidOf (2 * v))) (tidOf (2 * v))
        let s := updC s k (fun x => { x.keepTlb (fun _ => false) with walks := [], clearEnd := 0 })
        let s := ts.foldl clearThread s
        let s := resetBlock s (coreUid k + 1)
        let s := s.putB (rBcVcoreMap v) BcVcoreMap.world dst
        let s := sheafTrusted s (k / 8)
        let s := sw { s with vault := { s.vault with sw := none } } VltWorldCmd.busy 0
        let n := s.getF rVltWorldCmd VltWorldCmd.notify_thread
        if n ≤ 383 then sendIrq s n (s.getF rVltWorldCmd VltWorldCmd.notify_vector) uidVault else s)

/-! ### The trusted pair (R443 to R445) -/

def execHeartbeat (r : Requester) (_v : Word) (s : State) : Host.Outcome State Fault Refusal :=
  .next (if mayVault s r && blockUp s uidVault then { s with vault := { s.vault with lastBeat := s.time } } else s)

def tileCores (ts : List Nat) : List Nat := ts.flatMap (fun i => [2 * i, 2 * i + 1])

/-- A core of the group has failed, or its tile, sheaf or fabric stop has left service (R444). -/
def groupLost (s : State) (ts : List Nat) : Bool :=
  (tileCores ts).any (fun k => stateOf s (coreUid k) == usFailed) ||
    ts.any (fun i => !isUp s (tileUid i) || !isUp s (tileFabUid i) || !isUp s (sheafUid (i / 4)))

/-- The heartbeat timeout in ns (VLT_TW_CFG). -/
def beatLimit (s : State) : Nat :=
  let t := s.getF rVltTwCfg VltTwCfg.hb_timeout_us
  (if 50 ≤ t ∧ t ≤ 300 then t else 300) * 1000

/-- Step 1 of a takeover: every core of the group stops; its word moves to failed. -/
def contain (s : State) (ts : List Nat) : State :=
  (tileCores ts).foldl (fun s k =>
    let s := failWord s (coreUid k) 0x06
    match vcoreOfCore s k with
    | none => s
    | some v =>
      let s := s.putB (rBcVcoreMap v) BcVcoreMap.bound false
      [2 * v, 2 * v + 1].foldl (fun s n => updT s (tidOf n) (fun x => { x with run := .halted, fault := none })) s) s

/-- The lowest virtual thread of a group. -/
def lowestThread (s : State) (ts : List Nat) : Option Nat :=
  ((List.range 192).find? (fun v => vmapB s v BcVcoreMap.valid &&
    (tileCores ts).contains (coreOfUid (s.getF (rBcVcoreMap v) BcVcoreMap.phys_unit)))).map (· * 2)

def twRecord (s : State) (event : Nat) : State := logRecord s 0x52 uidVault 0 event (s.getR rVltTwStatus).toNat 0 0

/-- The takeover: contain, switch, notify; or, without a standby, no trusted service until a restart. -/
def takeover (s : State) : State :=
  let ready := s.getF rVltTwStatus VltTwStatus.stby_state == 2
  let s := contain s (trustedTiles s)
  if ready then
    let a := s.getF rVltTwStatus VltTwStatus.act_now
    let b := s.getF rVltTwStatus VltTwStatus.stby_now
    let w := satInc (s.getR rVltTwStatus) VltTwStatus.takeovers 1
    let s := s.putR rVltTwStatus (setFld (setFld (setFld w VltTwStatus.act_now b) VltTwStatus.stby_now a) VltTwStatus.stby_state 0)
    let s := { s with vault := { s.vault with lastBeat := s.time } }
    let s := match lowestThread s (trustedTiles s) with
      | some n => sendIrq s n 63 uidBaseCamp
      | none => s
    configEval (twRecord s 1)
  else
    configEval ({ s with vault := { s.vault with activeFailed := true } }.putF rVltTwStatus VltTwStatus.stby_state 0)

/-- Base camp finds the active group failed, or the standby group. -/
def execTrustedGroupFailure (s : State) : Host.Outcome State Fault Refusal :=
  .next (if !s.vault.active || !bcUp s then s
    else if !s.vault.activeFailed && (decide (s.vault.lastBeat + beatLimit s ≤ s.time) || groupLost s (trustedTiles s)) then takeover s
    else if s.getF rVltTwStatus VltTwStatus.stby_state == 2 && groupLost s (standbyTiles s) then
      configEval ((contain s (standbyTiles s)).putF rVltTwStatus VltTwStatus.stby_state 0)
    else s)

/-- The group that needs a restart: the active one where it failed with no standby, otherwise the standby's. -/
def failedTiles (s : State) : List Nat := if s.vault.activeFailed then trustedTiles s else standbyTiles s

/-- A core of the group may run again: it did not fall, and its tile stands. -/
def restartable (s : State) (k : Nat) : Bool :=
  stateOf s (coreUid k) == usFailed && fld (s.getR (rUnitState (coreUid k))) UnitState.cause != 4 && holdersUp s (coreUid k)

/-- The highest reserve tile of a field whose cores are both in bivouac (R445), in a roped sheaf (R196, R218). -/
def reserveTile (s : State) (f : Nat) : Option Nat :=
  ((List.range 24).map (fun j => f * 24 + 23 - j)).find? (fun i =>
    stateOf s (coreUid (2 * i)) == usBivouac && stateOf s (coreUid (2 * i + 1)) == usBivouac &&
      !s.getB (rShfCheckMode (sheafUid (i / 4))) ShfCheckMode.solo)

/-- A core takes over from a failed one and carries its number (R28, R31), in the world it belongs to (R30). -/
def moveNumber (s : State) (v c : Nat) : State :=
  let r := rBcVcoreMap v
  s.putR r (setFld (setFld (wrapInc (s.getR r) BcVcoreMap.gen) BcVcoreMap.phys_unit (coreUid c)) BcVcoreMap.bound 0)

/-- A reserve tile becomes the group: its cores carry the numbers of the failed group's (R28). -/
def adoptReserve (s : State) (ts : List Nat) : State :=
  match reserveTile s ((ts.headD 0) / 24) with
  | none => s
  | some i =>
    let s := s.putF rVltTwStatus (if s.vault.activeFailed then VltTwStatus.act_now else VltTwStatus.stby_now) i
    let s := if stateOf s (tileUid i) = usBivouac then setUnit s (tileUid i) usStarting 0x01 else s
    let s := (((tileCores ts).filterMap (vcoreOfCore s)).zip [2 * i, 2 * i + 1]).foldl (fun s e => moveNumber s e.1 e.2) s
    let s := sheafTrusted (sheafTrusted s (i / 4)) (ts.headD 0 / 4)
    setUnit (setUnit s (coreUid (2 * i)) usStarting 0x01) (coreUid (2 * i + 1)) usStarting 0x01

/-- Steps 1 to 3 of R445; the key engines' DRBG instances are reseeded from the vault's, which is read once more. -/
def execGroupRestart (s : State) : Host.Outcome State Fault Refusal :=
  let ts := failedTiles s
  .next (if !s.vault.active || !bcUp s || s.getF rVltTwStatus VltTwStatus.stby_state != 0 ||
      !(s.vault.activeFailed || s.getB rVltTwCfg VltTwCfg.stby_en) then s
    else
      let s := (tileCores ts).foldl emptyCaches s
      let s := ((s.l3.filter (fun e => isSecure s (e.1 * 64) && ts.contains (homeSlice s (e.1 * 64)))).map (·.1)).foldl (fun s l => l3Out s 4 l) s
      let s := { s with vault := { s.vault with drbg := s.vault.drbg + 1 } }
      let any := (tileCores ts).any (restartable s)
      let s := (tileCores ts).foldl (fun s k =>
        let u := coreUid k
        if restartable s k then setUnit (setUnit s u usOff 0x01) u usStarting 0x01
        else if stateOf s u = usFailed then withdrawUnit s u
        else s) s
      let s := if any then s else adoptReserve s ts
      let s := s.putR rVltTwStatus (setFld (satInc (s.getR rVltTwStatus) VltTwStatus.restarts 1) VltTwStatus.stby_state 1)
      configEval (twRecord s 2))

/-- The trusted firmware image that runs. -/
def trustedImage (s : State) : List Byte :=
  match s.mgmt.running with
  | some i => i.trusted.getD []
  | none => []

/-- Where a group's copy of the image lies: below the watermark. -/
def trustedBase (s : State) (first : Nat) : Nat :=
  Config.trustedWord (6 + first) % max 1 (s.getF rVltWatermark VltWatermark.sec_wm_gib * 0x40000000)

/-- A group's lowest thread starts in the form of the boot thread; the active group's receives the trusted roots (R433, R500). -/
def startGroup (s : State) (ts : List Nat) (roots : Bool) : State :=
  match lowestThread s ts with
  | none => s
  | some n => bootThread s (tidOf n) (bootCaps true (Config.trustedWord 0) (Config.trustedWord 1) (Config.trustedWord 2)
      (Config.trustedWord 3) (Config.trustedWord 4) (Config.trustedWord 5)) true roots

/-- Steps 4 and 5 of R445: the image is copied and measured, and the group starts. -/
def execGroupRestartDone (s : State) : Host.Outcome State Fault Refusal :=
  let ts := failedTiles s
  .next (if s.getF rVltTwStatus VltTwStatus.stby_state != 1 || !bcUp s then s
    else
      let img := trustedImage s
      let s := homeWrite s (trustedBase s (ts.headD 0)) img
      let s := measExtend s 3 3 (Config.sha384 img)
      let s := (ts.map tileUid ++ (tileCores ts).map coreUid).foldl startDone s
      let was := s.vault.activeFailed
      let s := s.putF rVltTwStatus VltTwStatus.stby_state (if was then 0 else 2)
      let s := if was then { s with vault := { s.vault with activeFailed := false, lastBeat := s.time } } else s
      configEval (twRecord (startGroup s ts was) 3))

/-! ### Measurement by the trusted world (R446) -/

/-- A write of k to the extend register. -/
def writeMeasExt (s : State) (k : Nat) : State :=
  if 5 ≤ k ∧ k ≤ 7 then measExtend s k k (wordsBytes ((List.range 6).map (fun w => s.getR (rVltMeasExt w)))) else s

def execMeasurementExtend (r : Requester) (v : Word) (s : State) : Host.Outcome State Fault Refusal :=
  .next (if mayVault s r && blockUp s uidVault then writeMeasExt s v.toNat else s)

/-! ### Key slots (R448, R449) -/

def slotTypes : List Nat := [1, 2, 3, 4, 5, 8, 9, 10, 12, 13, 14, 16, 17, 20, 21, 24, 25]

/-- Bytes of a key in the open-key layout of R390. -/
def slotKeyLen (t : Nat) : Nat :=
  if t ≤ 3 then 8 + 8 * t
  else if t = 4 then 24
  else if t = 5 then max 16 (min 128 (Config.hmacKeyLen 0))
  else if t ≤ 10 then 5 * (modLen (t - 8) / 2)
  else if t ≤ 14 then fieldLen (t - 12)
  else if t = 16 then 64
  else if t = 17 then 32
  else if t ≤ 21 then dkLen (t - 20)
  else skLen (t - 24)

/-- A key that fails the End rows of R391. -/
def slotKeyBad (t : Nat) (key : List Byte) : Bool :=
  if 8 ≤ t ∧ t ≤ 10 then rsaBad (t - 8) key
  else if 12 ≤ t ∧ t ≤ 14 then zeroOrAbove (Config.groupOrder (t - 12)) (beNat key)
  else if t = 20 ∨ t = 21 then !Config.dkOk (t - 20) key
  else false

def slotAddr (s : State) : Nat := (s.getR rVltSlotArg).toNat % 0x10000000000000

/-- A buffer wholly in secure local DRAM, as its bytes. -/
def secureBuffer (s : State) (a n : Nat) : Option (List Byte) :=
  if (linesOf a n).all (fun l => decide (l * 64 < 0x100000000000) && isSecure s (l * 64) && !poisoned s (l * 64)) then
    some (readBytes s a n)
  else none

def slotRefuse (s : State) : State := s.putB rVltSlotCmd VltSlotCmd.refused true

/-- A slot takes its contents, sealed in its place of the table. -/
def setSlot (s : State) (n : Nat) (x : Option Slot) : State :=
  let s := homeWrite s (slotPlace s n) (sealedBytes s n x)
  { s with vault := { s.vault with
    opened := s.vault.opened.filter (· != n)
    slots := match x with
      | some k => mins s.vault.slots n k
      | none => mdel s.vault.slots n } }

/-- The effect of an accepted slot operation, none where it is refused. -/
def slotEffect (s : State) (op n t usage : Nat) : Option State :=
  let len := slotKeyLen t
  match op with
  | 1 => (secureBuffer s (slotAddr s) len).bind (fun key =>
      if slotKeyBad t key then none else some (setSlot s n (some ⟨t, usage, key⟩)))
  | 2 =>
    let key := fitLen len (Config.newKey t s.vault.drbg)
    let s := { s with vault := { s.vault with drbg := s.vault.drbg + 1 } }
    some (setSlot s n (some ⟨t, usage, key⟩))
  | 3 => some (setSlot s n none)
  | 4 =>
    (match openSlot s n with
     | some k =>
       let pub := Config.publicPart k.type k.key
       if 8 ≤ k.type then
         some (if (linesOf (slotAddr s) pub.length).all (fun l => (physClass s (l * 64)).isMem) then homeWrite s (slotAddr s) pub else s)
       else none
     | none => none)
  | 5 => some { s with vault := { s.vault with mkValid := true, gen := s.vault.gen + 1, slots := [], opened := [] } }
  | _ => none

/-- A write of VLT_SLOT_CMD by the active group. -/
def writeSlotCmd (s : State) (v : Word) : State :=
  let s := if fldB v VltSlotCmd.refused then s.putB rVltSlotCmd VltSlotCmd.refused false else s
  let op := fld v VltSlotCmd.op
  let t := fld v VltSlotCmd.type
  if s.time < s.vault.busyTill then (if op = 0 then s else slotRefuse s)
  else
    let s := [VltSlotCmd.slot, VltSlotCmd.type, VltSlotCmd.usage].foldl (fun s f => s.putF rVltSlotCmd f (fld v f)) s
    if op = 0 then s
    else if 5 < op then slotRefuse s
    else
      let s := { s with vault := { s.vault with busyTill := s.time + Config.slotTime op t } }
      if !slotTypes.contains t || s.getB rVltDbgEn VltDbgEn.sec_inv || (s.vault.mkValid == (op == 5)) then slotRefuse s
      else (slotEffect s op (fld v VltSlotCmd.slot) t (fld v VltSlotCmd.usage)).getD (slotRefuse s)

/-- A slot command with the op of its row. -/
def slotCommand (s : State) (r : Requester) (op : Nat) (v : Word) : State :=
  if mayVault s r && blockUp s uidVault then writeSlotCmd s (setFld v VltSlotCmd.op op) else s

def execLoad (r : Requester) (v : Word) (s : State) : Host.Outcome State Fault Refusal := .next (slotCommand s r 1 v)
def execGenerate (r : Requester) (v : Word) (s : State) : Host.Outcome State Fault Refusal := .next (slotCommand s r 2 v)
def execClear (r : Requester) (v : Word) (s : State) : Host.Outcome State Fault Refusal := .next (slotCommand s r 3 v)
def execPublicPart (r : Requester) (v : Word) (s : State) : Host.Outcome State Fault Refusal := .next (slotCommand s r 4 v)
def execProvision (r : Requester) (v : Word) (s : State) : Host.Outcome State Fault Refusal := .next (slotCommand s r 5 v)

/-! ### Tamper and counters (R450, R451) -/

/-- A detector fires while the island has a supply. -/
def execTamperDetect (cause : BitVec 8) (s : State) : Host.Outcome State Fault Refusal :=
  .next (if cause = 0 ∨ !(s.vault.vbat || s.board.pwrgdStby || decide (2000 ≤ s.vault.hold)) then s else tamper s cause.toNat)

/-- A write of k to VLT_COUNTER_INC: the count stops at 2^64 − 1. -/
def incCounter (s : State) (k : Nat) : State :=
  let w := s.getR (rVltCounter k)
  if w = 0xFFFFFFFFFFFFFFFF then s else s.putR (rVltCounter k) (w + 1)

def execCounterIncrement (r : Requester) (v : Word) (s : State) : Host.Outcome State Fault Refusal :=
  .next (if mayVault s r && blockUp s uidVault then incCounter s (v.toNat % 16) else s)

end Sys2Proof.Machine
end

