-- ==== Sys2Proof/Machine/Monitor.lean ====
section
/-! DEFINITION. Performance windows, samples and trace (R513 to R519, R528, R529), the test access port (R520 to R523), debug tokens and
observe pins (R524 to R527). -/

namespace Sys2Proof.Machine

/-! ### Windows (R513, R514) -/

/-- The window length of a PM_WIN register in ns. -/
def winNs (w : Word) : Nat := 10 ^ min 6 (fld w PmWin.win) * 1000

/-- A boundary of a window: a multiple of its length that has not been latched. -/
def atWindow (s : State) (u : Nat) (w : Word) : Bool :=
  fldB w PmWin.windowed && decide (s.time % winNs w = 0) && decide (mget 0 s.pmAt u < s.time)

/-- One whole update of a counter block: counters copied, zeroed, and seq increased. -/
def latchBlock (s : State) (n : Nat) (ctr last : Nat → Nat) (win : Nat) : State :=
  let s := (List.range n).foldl (fun s k => (s.putR (last k) (s.getR (ctr k))).putR (ctr k) 0) s
  s.putR win (wrapInc (s.getR win) PmWin.seq)

/-- The offsets of the fixed counts of a stop performance block (R514). -/
def fixedOffs (io : Bool) : List Nat := if io then [0x20, 0x28, 0x30, 0x40, 0x48, 0x50] else [0, 8, 0x10]

/-- The fixed counts of a stop are latched; the time of a data bus is kept in ps and read in ns. -/
def latchFixed (s : State) (u : Nat) (io : Bool) : State :=
  let b := u + 2
  let s := (fixedOffs io).foldl (fun s o =>
    let n := mget 0 s.bw (b * 0x100 + o)
    { s with bw := mdel s.bw (b * 0x100 + o) }.putR (b * 0x100000 + o) (BitVec.ofNat 64 (if !io && o == 0x10 then n / 1000 else n))) s
  s.putR (b * 0x100000 + 0xC0) (wrapInc (s.getR (b * 0x100000 + 0xC0)) PmWin.seq)

def stampWindow (s : State) (u : Nat) : State := { s with pmAt := mput 0 s.pmAt u s.time }

/-- A boundary of the block of a core, a service stop, a memory stop or an I/O stop. -/
def execCounterWindow (u : Uid) (s : State) : Host.Outcome State Fault Refusal :=
  let u := u.toNat
  let go (win : Nat) (f : State → State) : State := if atWindow s u (s.getR win) then stampWindow (f s) u else s
  .next (match unitKind u with
    | .core _ => go (rPmWin (u + 1)) (fun s => latchBlock s 8 (rPmCtr (u + 1)) (rPmLast (u + 1)) (rPmWin (u + 1)))
    | .service _ => go (rPmUwin (u + 2)) (fun s => latchBlock s 16 (rPmUctr (u + 2)) (rPmUlast (u + 2)) (rPmUwin (u + 2)))
    | .mem _ => go ((u + 2) * 0x100000 + 0xC0) (fun s => latchFixed s u false)
    | .io _ => go ((u + 2) * 0x100000 + 0xC0) (fun s => latchFixed s u true)
    | _ => s)

/-! ### Rings of records (R517, R529) -/

def ringSize (w : Word) : Nat := 2 ^ (min 9 (fld w PmSampleRing.log2) + 6)

/-- Some record of a ring would lie in secure memory. -/
def ringSecure (s : State) (w : Word) (n : Nat) : Bool :=
  let base := fld w PmSampleRing.base * 4096
  isSecure s base || isSecure s (base + n * ringSize w - 1)

/-- A record is written where the ring has room, or counted in `lost`. -/
def ringAdd (s : State) (ring ptr : Nat) (bs : List Byte) : State :=
  let w := s.getR ring
  let p := s.getR ptr
  let tail := fld p PmSamplePtr.tail
  if (tail + 1) % ringSize w = fld p PmSamplePtr.head then s.putR ptr (satInc p PmSamplePtr.missed 1)
  else
    let a := fld w PmSampleRing.base * 4096 + bs.length * tail
    let s := if (physClass s a).isMem && admits s .normal true a then homeWrite s a bs else engNoTarget s uidDevice a
    s.putR ptr (setFld p PmSamplePtr.tail ((tail + 1) % ringSize w))

/-- A ring that lies in secure memory is refused: its en is cleared, and a set-up error recorded. -/
def ringRefuse (s : State) (ring : Nat) : State :=
  setupError (s.putB ring PmSampleRing.en false) ring (s.getR ring).toNat

/-! ### Samples (R515 to R517) -/

/-- The 64 bytes of a sample record (R516). -/
def sampleBytes (s : State) (t : Tid) (x : Sampled) : List Byte :=
  let flags := t.val + ofBool (trusted s t) * 2 ^ 9 + ofBool x.mispredicted * 2 ^ 10 + ofBool x.slipped * 2 ^ 11 +
    x.source.toNat * 2 ^ 12 + min x.latency 0xFFFF * 2 ^ 16
  toBytes 8 s.time ++ toBytes 8 x.cursor.toNat ++ toBytes 8 x.va.toNat ++ toBytes 4 x.word.toNat ++ toBytes 4 flags ++
    ((List.range 8).flatMap (fun i => toBytes 2 (x.beats.getD i 0))) ++
    toBytes 2 (asidOf s t) ++ toBytes 2 (vmidOf s t) ++
    List.replicate 12 0

/-- A tagged µop of a selected thread retires. -/
def execSampleRecord (t : Tid) (x : Sampled) (s : State) : Host.Outcome State Fault Refusal :=
  let u := coreUid (coreOf s t) + 1
  let c := s.getR (rPmSampleCfg u)
  let w := s.getR (rPmSampleRing u)
  .next (if !fldB c PmSampleCfg.en || !threadSel s (fld c PmSampleCfg.thread) t || !fldB w PmSampleRing.en ||
      (trusted s t && !(fldB c PmSampleCfg.count_trusted && pmTrustedOk s (rPmSampleCfg u))) then s
    else if ringSecure s w 64 && !mget false s.pmTrusted (rPmSampleRing u) then ringRefuse s (rPmSampleRing u)
    else
      let s := ringAdd s (rPmSampleRing u) (rPmSamplePtr u) (sampleBytes s t x)
      let p := s.getR (rPmSamplePtr u)
      let held := (fld p PmSamplePtr.tail + ringSize w - fld p PmSamplePtr.head) % ringSize w
      if fldB c PmSampleCfg.irq_en && decide (ringSize w / 2 ≤ held) && decide (fld c PmSampleCfg.irq_thread ≤ 383) then
        sendIrq s (fld c PmSampleCfg.irq_thread) (fld c PmSampleCfg.vector) (coreUid (coreOf s t))
      else s)

/-! ### Trace (R528, R529) -/

def traceCode : TraceKind → Nat
  | .transfer => 0
  | .trap => 1
  | .fault => 2
  | .interrupt => 3
  | .fret => 4

def traceBytes (s : State) (t : Tid) (x : Traced) : List Byte :=
  toBytes 8 s.time ++ toBytes 8 x.cursor.toNat ++ toBytes 8 x.target.toNat ++
    toBytes 8 (t.val + traceCode x.kind * 2 ^ 9 + x.info.toNat * 2 ^ 12)

/-- An event of a traced thread: `room` says that the collector can accept its record. -/
def execTraceRecord (t : Tid) (x : Traced) (room : Bool) (s : State) : Host.Outcome State Fault Refusal :=
  let c := s.getR (rDbgTraceCtrl (coreUid (coreOf s t) + 2))
  let w := s.getR rDbgTraceRing
  let world := s.getB rVltDbgEn (if trusted s t then VltDbgEn.sec_noninv else VltDbgEn.norm_noninv)
  .next (if !s.getB rDbgAccess DbgAccess.trace_en || !fldB c DbgTraceCtrl.en || !threadSel s (fld c DbgTraceCtrl.thread) t ||
      !world || !fldB w PmSampleRing.en then s
    else if ringSecure s w 32 then ringRefuse s rDbgTraceRing
    else if room then ringAdd s rDbgTraceRing rDbgTracePtr (traceBytes s t x)
    else s.putR rDbgTracePtr (satInc (s.getR rDbgTracePtr) PmSamplePtr.missed 1))

/-! ### The test access port (R520 to R522) -/

def tapLoad (s : State) (i : TapInstr) : State := { s with board := { s.board with tap := i } }

/-- A segment insertion bit is written: that of a closed instrument ignores it and reads 0 (R523). -/
def segWrite (s : State) (n : Nat) (b : Bool) : State :=
  let segs := s.board.segs.filter (· != n)
  { s with board := { s.board with segs := if b && segAllowed s n then n :: segs else segs } }

def execTapBypass (s : State) : Host.Outcome State Fault Refusal := .next (tapLoad s .bypass)

/-- The IDCODE register (R521). -/
def idcode (s : State) : Nat :=
  (s.getF rBcFuseId BcFuseId.impl_step % 16) * 2 ^ 28 + 0x9192 * 2 ^ 12 + (Config.jedecCode % 2 ^ 11) * 2 + 1

def execTapIdcode (s : State) : Host.Outcome State Fault Refusal :=
  let s := tapLoad s .idcode
  .next { s with board := { s.board with tapOut := idcode s } }

/-- The boundary register captures the contacts' values. -/
def execTapSample (pins : List Bool) (s : State) : Host.Outcome State Fault Refusal :=
  let s := tapLoad s .sample
  .next { s with board := { s.board with boundary := pins } }

/-- Values are shifted into the boundary register and held by its update stage, driving nothing yet; and the scan writes the segment
insertion bits that stand in its path (R521, R523; notes/assumptions/52.md). -/
def execTapPreload (x : TapScan) (s : State) : Host.Outcome State Fault Refusal :=
  let s := x.segs.foldl (fun s e => segWrite s e.1 e.2) (tapLoad s .preload)
  .next { s with board := { s.board with boundary := x.bits, drives := x.bits } }

/-- An instruction that drives contacts: loaded in stages 0 to 2 it holds start-up at S3, and later it acts as BYPASS, except in the
test state itself. -/
def tapDrive (s : State) (i : TapInstr) : State :=
  if s.board.tapHold then tapLoad s i
  else if s.getF rBcBootStatus BcBootStatus.stage ≤ 2 ∧ !s.board.stopped then
    tapLoad { s with board := { s.board with tapHold := true } } i
  else tapLoad s .bypass

def execTapExtest (s : State) : Host.Outcome State Fault Refusal := .next (tapDrive s .extest)
def execTapClamp (s : State) : Host.Outcome State Fault Refusal := .next (tapDrive s .clamp)
def execTapHighz (s : State) : Host.Outcome State Fault Refusal := .next (tapDrive s .highz)
def execTapExtestPulse (s : State) : Host.Outcome State Fault Refusal := .next (tapDrive s .extestPulse)
def execTapExtestTrain (s : State) : Host.Outcome State Fault Refusal := .next (tapDrive s .extestTrain)

/-! ### Requests on a management transport (R466, R468) -/

/-- Base camp serves the transport: PCIe messages not while the port is frozen or its link down. -/
def served (s : State) : Transport → Bool
  | .i3c => bcUp s
  | .vdm p => bcUp s && hostPortMode s p.val && portLinkUp s p.val && !portFrozen s p.val

def reply (s : State) (x : Transport) (a : Reply) : State :=
  { s with mgmt := { s.mgmt with outbox := s.mgmt.outbox ++ [(x, a)] } }

/-- Serve a request: an action, and its answer. -/
def serve (s : State) (x : Transport) (f : State → State × Reply) : State :=
  if served s x then
    let (s, a) := f s
    reply s x a
  else s

/-! ### Debug tokens (R524, R525) -/

/-- Each new nonce voids the last. -/
def execNonceRequest (x : Transport) (s : State) : Host.Outcome State Fault Refusal :=
  .next (serve s x (fun s =>
    let n := (List.range 32).map (fun i => Config.drbg s.vault.drbg i)
    ({ s with
        vault := { s.vault with drbg := s.vault.drbg + 1 }
        mgmt := { s.mgmt with nonce := some n } }, .bytes 0x7E n)))

/-- The pairs of R452 added. -/
def closeEnables (n : Nat) : Nat :=
  let n := if n.testBit 3 then n ||| 0b0110 else n
  let n := if n.testBit 2 then n ||| 0b0001 else n
  if n.testBit 1 then n ||| 0b0001 else n

def tokenField (b : List Byte) (off n : Nat) : Nat := ofBytes ((b.drop off).take n)

/-- "CQG9DBGT" as a number. -/
def tokenMagic : Nat := ofBytes [0x43, 0x51, 0x47, 0x39, 0x44, 0x42, 0x47, 0x54]

/-- Base camp accepts the token (R525). -/
def tokenOk (s : State) (b : List Byte) (sigOk keysOk : Bool) : Bool :=
  b.length == 64 && tokenField b 0 8 == tokenMagic && tokenField b 8 2 == 1 && decide (tokenField b 0x0A 1 < 64) &&
    tokenField b 0x0B 1 == 0 && tokenField b 0x18 8 == s.getF rBcFuseId BcFuseId.serial &&
    s.mgmt.nonce == some (b.drop 0x20) && sigOk && keysOk &&
    (!(tokenField b 0x0A 1).testBit 4 || s.getB rBcFuseOpt BcFuseOpt.test_allowed)

/-- The six enables become exactly these, until a time or until device reset. -/
def setEnables (s : State) (dbg access : Nat) (forever : Bool) (till : Option Nat) : State :=
  let s := setDbgEn s dbg
  let s := (s.putF rDbgAccess ⟨1, 0⟩ access).putB rDbgAccess DbgAccess.forever forever
  { s with mgmt := { s.mgmt with tokenEnd := till } }

/-- An accepted token's enables: a newly set secure enable extends measurement register 0 (R452). -/
def applyToken (s : State) (b : List Byte) : State :=
  let bits := tokenField b 0x0A 1
  let old := s.getF rVltDbgEn ⟨3, 0⟩
  let new := closeEnables (bits % 16)
  let n := tokenField b 0x0C 4
  let s := setEnables s new (bits / 16 % 4) (n == 0) (if n = 0 then none else some (s.time + n * 1000000000))
  let s := s.putR rVltDbgEn (satInc (s.getR rVltDbgEn) VltDbgEn.tokens 1)
  if new / 4 % 4 &&& (15 - old / 4 % 4) != 0 then measExtend s 0 0 (Config.debugDigest b) else s

/-- A token is checked with the nonce outstanding, which is used once. -/
def execDebugToken (x : Transport) (body : List Byte) (sigOk keysOk : Bool) (s : State) : Host.Outcome State Fault Refusal :=
  .next (serve s x (fun s =>
    let ok := tokenOk s body sigOk keysOk
    let used := s.mgmt.nonce == some (body.drop 0x20)
    let s := { s with mgmt := { s.mgmt with nonce := if used then none else s.mgmt.nonce } }
    let s := if ok then applyToken s body else s
    (logRecord s 0x51 uidDevice 0 (s.getR rVltDbgEn).toNat (tokenField body 0x10 8) 0 0, .done (ofBool (!ok)))))

/-- A management request without a token clears all six enables. -/
def execDebugClear (x : Transport) (s : State) : Host.Outcome State Fault Refusal :=
  .next (serve s x (fun s => (setEnables s 0 0 false none, .done 0)))

def execTokenExpiry (s : State) : Host.Outcome State Fault Refusal :=
  .next (match s.mgmt.tokenEnd with
    | some n => if bcUp s && decide (n ≤ s.time) then setEnables s 0 0 false none else s
    | none => s)

/-! ### Observe pins (R526, R527) -/

/-- Base camp writes a selection, for a requester holding obs_en. -/
def execObserveSelect (r : Requester) (k : Fin 32) (v : Word) (s : State) : Host.Outcome State Fault Refusal :=
  .next (if r = .baseCamp ∧ s.getB rDbgAccess DbgAccess.obs_en then s.putR (rDbgObsSel k.val) (v &&& 0xEFFF) else s)

/-- OBSk is held low (R527). -/
def obsHeld (s : State) (k : Nat) : Bool :=
  let w := s.getR (rDbgObsSel k)
  let f := fld w DbgObsSel.field
  let n := fld w DbgObsSel.signal
  let sec := s.getB rVltDbgEn VltDbgEn.sec_noninv
  !s.getB rBcFuseOpt BcFuseOpt.test_allowed || !s.getB rDbgAccess DbgAccess.obs_en || !fldB w DbgObsSel.en ||
    (Config.obsSecure f n && !sec) ||
    (match Config.obsCore f n with
     | some c => (match vcoreOfCore s c with
        | some v => (vmapB s v BcVcoreMap.world || s.vault.sw == some (v, true)) && !sec
        | none => false)
     | none => false)

end Sys2Proof.Machine
end

