-- ==== Sys2Proof/Machine/Manage.lean ====
section
/-! DEFINITION. Base camp (chapter 20) and repair in service (R484, R485): the management cores, telemetry and power, the logbook's
copies, the management interfaces, updates, views, the withdrawal store. -/

namespace Sys2Proof.Machine

def updG (s : State) (f : Mgmt → Mgmt) : State := { s with mgmt := f s.mgmt }

/-! ### The two management cores (R454 to R458) -/

def Mgmt.core (m : Mgmt) (b : Bool) : MgmtCore := if b then m.bcB else m.bcA
def Mgmt.setCore (m : Mgmt) (b : Bool) (c : MgmtCore) : Mgmt := if b then { m with bcB := c } else { m with bcA := c }

/-- The active core: BC-B or not. -/
def activeB (s : State) : Bool := s.mgmt.bcB == .active

/-- BC_STATUS shows the cores as they are. -/
def showCores (s : State) : State :=
  let up (c : MgmtCore) : Bool := c == .active || c == .standby
  ((s.putB rBcStatus BcStatus.active (activeB s)).putB rBcStatus BcStatus.bcb_ok (up s.mgmt.bcB)).putB rBcStatus
    BcStatus.standby_ok (s.mgmt.bcA == .standby || s.mgmt.bcB == .standby)

def execBcHeartbeat (s : State) : Host.Outcome State Fault Refusal :=
  .next (if bcUp s then updG s (fun m => { m with lastBeat := s.time }) else s)

/-- Every unit with a state word. -/
def allUnits : List Nat :=
  (List.range 192).map coreUid ++ (List.range 96).map tileUid ++ (List.range 96).map sliceUid ++ (List.range 96).map tileFabUid ++
    (List.range 24).map sheafUid ++ (List.range 16).map mcUid ++ (List.range 8).map ioUid ++ (List.range 4).map esUid ++
    (List.range 4).map ssUid ++ (List.range 8).map meUid ++ (List.range 8).map keUid

/-- The table's copy of a word. -/
def tableWord (s : State) (u : Nat) : Word :=
  match mfind s.bcTable u with
  | some m => m.word
  | none => resetVal (rUnitState u)

/-- A word that differs from its copy in state or seq: a skew record, the copy replaced, and the transition acted on (R472). -/
def reconcile (s : State) (u : Nat) : State :=
  let w := s.getR (rUnitState u)
  let o := tableWord s u
  if fld w UnitState.state = fld o UnitState.state ∧ fld w UnitState.seq = fld o UnitState.seq then s
  else
    let m : StateMsg := ⟨u, w, (s.getR (rUnitStateTime u)).toNat⟩
    let s := logRecord s 0x02 u 0 o.toNat w.toNat 0 0
    stateRecord { s with bcTable := mins s.bcTable u m } m

def sweep (s : State) : State := allUnits.foldl reconcile s

def execViewSweep (s : State) : Host.Outcome State Fault Refusal := .next (if bcUp s then sweep s else s)

def takeoverCode : Takeover → Nat
  | .heartbeat => 1
  | .fall => 2
  | .sram => 3
  | .planned => 4

/-- The standby becomes active; `left` is what becomes of the other core. -/
def failover (s : State) (code : Nat) (left : MgmtCore) : State :=
  let b := activeB s
  let s := updG s (fun m => { (m.setCore b left).setCore (!b) .active with lastBeat := s.time })
  let s := s.putR rBcStatus (satInc (s.getR rBcStatus) BcStatus.failovers 1)
  let s := sweep (showCores s)
  configEval (logRecord s 0x59 uidDevice 0 code (Config.failoverNs s.log.next) 0 0)

/-- The active core fails, or a planned takeover is commanded; with no standby all base camp action stops (R456, R458). -/
def execBcTakeover (why : Takeover) (s : State) : Host.Outcome State Fault Refusal :=
  let b := activeB s
  let due := match why with
    | .heartbeat => decide (s.mgmt.lastBeat + 100000 ≤ s.time) && s.mgmt.core (!b) == .standby
    | .planned => s.mgmt.core (!b) == .standby
    | _ => true
  .next (if !bcUp s || !due then s
    else
      let s := if why = .planned then s else updG s (fun m => { m with fails := (b, s.time) :: m.fails })
      if s.mgmt.core (!b) = .standby then failover s (takeoverCode why) (if why = .planned then .restarting else .fenced)
      else showCores (updG s (fun m => m.setCore b .fenced)))

/-- A core out of service restarts from flash: it rejoins as standby, or is withdrawn when its start test fails or it has failed twice
within an hour (R458). -/
def execBcCoreRejoin (ok : Bool) (s : State) : Host.Outcome State Fault Refusal :=
  let b := !activeB s
  let c := s.mgmt.core b
  .next (if !bcUp s || !(c == .fenced || c == .restarting) then s
    else
      let late := (s.mgmt.fails.filter (fun f => f.1 == b && decide (s.time < f.2 + 3600000000000))).length
      configEval (showCores (updG s (fun m => m.setCore b (if ok && decide (late ≤ 1) then .standby else .withdrawn)))))

/-! ### Sensors and power (R459, R460) -/

/-- A reading: the present value, and the lowest and highest since the last PLDM read. -/
def noteReading (m : SMap (Nat × Nat × Nat)) (r : Nat × Nat) : SMap (Nat × Nat × Nat) :=
  let (k, v) := r
  match mfind m k with
  | some (_, lo, hi) => mins m k (v, min lo v, max hi v)
  | none => mins m k (v, v, v)

/-- A regulator shuts a phase off (R481): the redundant one carries the load, and the row of R1 no longer holds. With no redundant
phase left the domain is lost: a sheaf with its cores (R483, R486); the slices, stops and engines of another domain become unreachable
(DESIGN CHOICE, notes/assumptions/51.md). -/
def phaseLoss (s : State) (d : Nat) : State :=
  if !(getD s d).thinned then updD s d (fun x => { x with thinned := true })
  else if d < 24 then failSheaf s d 0x07
  else if d < 28 then (List.range 24).foldl (fun s j => failTileStop s (24 * (d - 24) + j) 0x07) s
  else failEngStop s (d - 28) 0x07

def setFlash (s : State) (b : Bool) (f : Flash → Flash) : State :=
  updG s (fun m => if b then { m with flashB := f m.flashB } else { m with flashA := f m.flashA })

/-- Base camp finds a flash to fail a read or its verification (R481). -/
def flashFails (s : State) (b : Bool) : State := if bcUp s then setFlash s b (fun f => { f with reads := false }) else s

/-- The throttle of a field fabric or an engine stop (R61), at the default threshold of 95 °C, since no register gives it another: its
voltage goes no higher, and over the threshold lower, than where it stands (DESIGN CHOICE, notes/assumptions/51.md). -/
def throttleDom (s : State) (d t : Nat) : State :=
  let x := getD s d
  if d < 24 ∨ t < 0x21C ∨ !x.powered ∨ x.stopped then s
  else
    let top := min (Config.mvUnderTemp d t) (if 0x21C < t then x.mv - 5 else x.mv)
    updD s d (fun x => { x with setMv := max (domFloor s d) (min x.setMv top) })

/-- A poll (R459): readings are kept, ballast and limiters follow the loads (R59), and phases and flashes that fail leave the rows of
R1. -/
def execSensorPoll (x : Polled) (s : State) : Host.Outcome State Fault Refusal :=
  let s := x.loads.foldl (fun s e => if e.1.val < 24 || !(getD s e.1).powered || (getD s e.1).stopped then s else askLoad s e.1 e.2) s
  let s := configEval (x.flashes.foldl flashFails (x.phases.foldl (fun s d => phaseLoss s d) s))
  let s := x.temps.foldl (fun s e => throttleDom s e.1 e.2) s
  .next (if bcUp s then updG s (fun m => { m with sensors := x.readings.foldl noteReading m.sensors }) else s)

/-- limit_w as it acts. -/
def pkgLimit (s : State) : Nat := max 200 (min 1150 (s.getF rBcPkgPower BcPkgPower.limit_w))

/-- Shares of `rest` in proportion to means, those whose share lies below a floor receiving the floor. All in 0.125 W. -/
def shares (low : List Bool) : Nat → Nat → List (Option Nat) → List Nat → List Nat
  | 0, _, fixed, means => (fixed.zip means).map (fun (f, m) => f.getD m)
  | n + 1, rest, fixed, means =>
    let taken := (fixed.map (·.getD 0)).foldl (· + ·) 0
    let sum := ((fixed.zip means).map (fun (f, m) => if f.isSome then 0 else m)).foldl (· + ·) 0
    let share := (fixed.zip means).map (fun (f, m) => f.getD ((rest - taken) * m / max 1 sum))
    let under := (share.zip (low.zip fixed)).map (fun (x, (l, f)) => if f.isSome then f else if l && decide (x < 40) then some 40 else none)
    if under = fixed then share else shares low n rest under means

def putCap (s : State) (h n : Nat) : State := s.putF (rShfBcLimits (sheafUid h)) ShfBcLimits.bc_power_cap (min n 0xFFF)

/-- Caps that sum to no more than what they divide: as computed, or where the 5 W floors or an unstated share exceed it, in equal parts
(R56; DESIGN CHOICE, notes/assumptions/51.md). -/
def capsFit (rest : Nat) (caps : List Nat) : List Nat :=
  if caps.foldl (· + ·) 0 ≤ rest then caps else caps.map (fun _ => rest / 24)

/-- What the package limit leaves the sheaves beside base camp's allowance, in 0.125 W (R56, R460). -/
def sheafBudget (s : State) : Nat := pkgLimit s * 8 - s.mgmt.allowance

/-- Base camp sets a field fabric or an engine stop: its voltage within its range in 5 mV steps, and its share, which it rejects where
the sum would exceed 60 A/µs (R48, R58). -/
def setDomain (s : State) (d mv share : Nat) : State :=
  if d < 24 ∨ !(getD s d).powered then s
  else
    let v := max (domFloor s d) (min (domTop d) (mv / 5 * 5))
    let s := if (getD s d).stopped then s else updD s d (fun x => { x with setMv := v })
    if 600 < shareSum s - slewShare s d + share then s
    else updD (askLoad s d (getD s d).want) d (fun x => { x with share := share })

/-- The package limit divided among the sheaves: `now` is the package mean in W, `other` the fixed domains' in 0.125 W. Nothing is
divided while the brake holds the caps. -/
def execPowerDistribution (now other : Nat) (x : PowerSplit) (s : State) : Host.Outcome State Fault Refusal :=
  .next (if !bcUp s then s
    else
      let s := s.putF rBcPkgPower BcPkgPower.power_now (min now 0xFFF)
      let s := x.sets.foldl (fun s e => setDomain s e.1 e.2.1 e.2.2) s
      let s := updG s (fun m => { m with allowance := (other * 11 + 9) / 10 })
      if s.board.pwrBrake then s
      else
        let rest := sheafBudget s
        let ms := allSheaves.map (fun h => x.means.getD h 0)
        let low := allSheaves.map (fun h => !(sheafCores s h).isEmpty)
        let caps := if ms.all (· == 0) then allSheaves.map (Config.idleCap rest)
          else shares low 24 rest (allSheaves.map (fun _ => none)) ms
        ((capsFit rest caps).zipIdx).foldl (fun s (n, h) => putCap s h n) s)

/-- PWR_BRAKE_N is low: every cap goes to the brake level, within what the package limit leaves the sheaves (R56), its value kept. -/
def brakeOn (s : State) : State :=
  if !bcUp s || !s.mgmt.caps.isEmpty then s
  else
    let w := s.getF rBcPkgPower BcPkgPower.brake_w
    let s := updG s (fun m => { m with
      caps := allSheaves.map (fun h => (h, BitVec.ofNat 64 (s.getF (rShfBcLimits (sheafUid h)) ShfBcLimits.bc_power_cap))) })
    ((capsFit (min (w * 8) (sheafBudget s)) (allSheaves.map (Config.brakeCap w))).zipIdx).foldl (fun s (n, h) => putCap s h n) s

/-- The signal is released: the caps are restored, within the limit as it stands by then (R56). -/
def brakeOff (s : State) : State :=
  if !bcUp s then s
  else if s.mgmt.caps.isEmpty then s
  else
    let caps := capsFit (sheafBudget s) (s.mgmt.caps.map (fun e => e.2.toNat))
    updG ((caps.zip (s.mgmt.caps.map (·.1))).foldl (fun s e => putCap s e.2 e.1) s) (fun m => { m with caps := [] })

def execPowerBrake (s : State) : Host.Outcome State Fault Refusal := .next (if s.board.pwrBrake then brakeOn s else s)
def execPowerBrakeRelease (s : State) : Host.Outcome State Fault Refusal := .next (if s.board.pwrBrake then s else brakeOff s)

/-! ### Copies of the logbook (R462, R464, R465) -/

/-- A record's first 60 bytes, and the record with its crc. -/
def recHead (r : LogRec) : List Byte :=
  let w := r.cause * 2 ^ 24 + ofBool r.lostBefore * 2 ^ 33 + r.writer * 2 ^ 34 + ofBool r.injected * 2 ^ 35 + r.sev * 2 ^ 36 +
    r.type * 2 ^ 40 + r.unit * 2 ^ 48
  toBytes 8 r.seq ++ toBytes 8 r.time ++ toBytes 8 w ++ wordsBytes [r.p0, r.p1, r.p2, r.p3] ++ toBytes 4 0
def recBytes (r : LogRec) : List Byte := recHead r ++ toBytes 4 (crc32c (recHead r))

/-- The record of a sequence number, while the logbook holds it. -/
def recordOf (s : State) (n : Nat) : Option LogRec := s.log.records.find? (fun r => r.seq == n)

/-- Base camp copies the next record to the resident ring, or counts it missed. -/
def execLogRingCopy (s : State) : Host.Outcome State Fault Refusal :=
  let w := s.getR rBcLogRing
  let p := s.getR rBcLogPtr
  let step (s : State) : State := { s with log := { s.log with ringNext := s.log.ringNext + 1 } }
  .next (if !bcUp s || !fldB w BcLogRing.en || s.log.next ≤ s.log.ringNext then s
    else if ringSecure s w 64 then ringRefuse s rBcLogRing
    else
      match recordOf s s.log.ringNext with
      | none => step s
      | some r =>
        if (fld p BcLogPtr.tail + 1) % ringSize w = fld p BcLogPtr.head then step (s.putR rBcLogPtr (satInc p BcLogPtr.missed 1))
        else step (ringAdd s rBcLogRing rBcLogPtr (recBytes r)))

/-- The next record in seq order goes to the log flash region, which loses its oldest sector when it is full. -/
def execLogFlashAppend (s : State) : Host.Outcome State Fault Refusal :=
  let named := match s.mgmt.running with
    | some i => i.logRegion
    | none => false
  .next (if !bcUp s || !named || s.log.next ≤ s.log.flashNext then s
    else
      let l := s.log
      match recordOf s l.flashNext with
      | none => { s with log := { l with flashNext := l.flashNext + 1 } }
      | some r =>
        let old := if 262144 ≤ l.flash.length then l.flash.take 261120 else l.flash
        { s with log := { l with flash := r :: old, flashNext := l.flashNext + 1 } })

/-! ### Management interfaces (R466 to R468) -/

/-- An MCTP message of type 0x00 is answered, and may set the endpoint ID; the PLDM, SPDM and vendor-defined requests of the supported
types have rows of their own, and any other body of theirs only an answer; a type base camp does not support is answered as such. -/
def execMctpControl (x : Transport) (type : BitVec 8) (body : List Byte) (s : State) : Host.Outcome State Fault Refusal :=
  .next (serve s x (fun s =>
    if type = 0 then
      let s := match Config.mctpEid body with
        | some e => updG s (fun m => { m with eids := (x, e) :: m.eids.filter (fun p => p.1 != x) })
        | none => s
      (s, .bytes 0 (Config.mctpReply body))
    else if type = 1 ∨ type = 5 ∨ type = 0x7E then (s, .bytes type.toNat (Config.mctpReply body))
    else (s, .badType)))

/-- Records from a sequence number on, as many as asked for. -/
def execLogbookRead (x : Transport) (seq count : Nat) (s : State) : Host.Outcome State Fault Refusal :=
  .next (serve s x (fun s => (s, .records (((s.log.records.filter (fun r => decide (seq ≤ r.seq))).reverse).take count))))

/-- Records of severity 2 or more that have not been read through PLDM; BC_ALERT_N is low while there is one (R475). -/
def unreadEvents (s : State) : List LogRec :=
  (s.log.records.filter (fun r => decide (s.mgmt.pldmSeen ≤ r.seq) && decide (2 ≤ r.sev))).reverse

def pldmAnswer (s : State) : PldmQuery → State × Reply
  | .numericSensor id =>
    (match mfind s.mgmt.sensors id with
     | some (v, lo, hi) => (updG s (fun m => { m with sensors := mins m.sensors id (v, v, v) }), .range v lo hi)
     | none => (s, .badType))
  | .stateSensor u =>
    if u.toNat = uidDevice then
      (s, .stateWord (setFld (s.getR rBcStatus) BcStatus.mode (if s.mgmt.degraded then 3 else s.getF rBcStatus BcStatus.mode)))
    else (s, .stateWord (s.getR (rUnitState u.toNat)))
  | .limitW w => (s.putF rBcPkgPower BcPkgPower.limit_w (max 200 (min 1150 w)), .done 0)
  | .brakeW w => (s.putF rBcPkgPower BcPkgPower.brake_w (min w 0xFFF), .done 0)
  | .fru => (s, .bytes 1 (Config.fruData (s.getR rBcFuseId)))
  | .events => (updG s (fun m => { m with pldmSeen := s.log.next }), .records (unreadEvents s))
  | .base cmd => (s, .bytes 1 (Config.pldmBase cmd))

def execPldmRequest (x : Transport) (q : PldmQuery) (s : State) : Host.Outcome State Fault Refusal :=
  .next (serve s x (fun s => pldmAnswer s q))

/-! ### SPDM (R467) -/

def spdmReply (s : State) (x : Transport) (what a b c : Nat) (signed : Bool) (body : List Byte) : State :=
  serve s x (fun s =>
    let bs := Config.spdm what a b c ++ body
    (s, .bytes what (bs ++ (if signed then Config.spdmSign bs else []))))

def execGetVersion (x : Transport) (s : State) : Host.Outcome State Fault Refusal := .next (spdmReply s x 0x84 0 0 0 false [])
def execGetCapabilities (x : Transport) (s : State) : Host.Outcome State Fault Refusal := .next (spdmReply s x 0xE1 0 0 0 false [])
def execNegotiateAlgorithms (x : Transport) (s : State) : Host.Outcome State Fault Refusal :=
  .next (spdmReply s x 0xE3 0 0 0 false [])
def execGetDigests (x : Transport) (s : State) : Host.Outcome State Fault Refusal := .next (spdmReply s x 0x81 0 0 0 false [])
def execGetCertificate (x : Transport) (slot offset length : Nat) (s : State) : Host.Outcome State Fault Refusal :=
  .next (spdmReply s x 0x82 slot offset length false [])

def execChallenge (x : Transport) (slot : Nat) (nonce : List Byte) (s : State) : Host.Outcome State Fault Refusal :=
  .next (spdmReply s x 0x83 slot 0 0 true nonce)

/-- The 64 bytes of a measurement record (R447). -/
def measRecBytes (r : MeasRec) : List Byte :=
  toBytes 1 r.k ++ toBytes 1 r.event ++ List.replicate 6 0 ++ toBytes 8 r.time ++ fitLen 48 r.digest

/-- Measurement blocks 1 to 8 carry the registers, block 9 the log. -/
def measBlock (s : State) (n : Nat) : List Byte :=
  if 1 ≤ n ∧ n ≤ 8 then measBytes s (n - 1)
  else if n = 9 then s.vault.log.reverse.flatMap measRecBytes
  else []

def execGetMeasurements (x : Transport) (block : Nat) (nonce : List Byte) (s : State) : Host.Outcome State Fault Refusal :=
  .next (spdmReply s x 0xE0 block 0 0 true (nonce ++ measBlock s block))

/-! ### Updates (R469 to R471) -/

/-- An update record (R463): component class, old and new version, outcome. -/
def updateRecord (s : State) (cls old new outcome : Nat) : State := logRecord s 0x58 uidDevice 0 cls old new outcome

def runVersion (s : State) : Nat :=
  match s.mgmt.running with
  | some i => i.fwVersion
  | none => 0

/-- The image base camp runs from now on. -/
def runImage (s : State) (i : Image) (fromB : Bool) : State :=
  let s := updG s (fun m => { m with running := some i, fromB := fromB, loadedAt := s.time })
  let s := s.putF rBcStatus BcStatus.fw_version i.fwVersion
  (s.putF rBcBootStatus BcBootStatus.svn i.svn).putB rBcBootStatus BcBootStatus.image fromB

/-- A flash is written with an image: its row of R1 does not hold while it is (R469). -/
def writeFlash (s : State) (b : Bool) (i : Image) : State :=
  setFlash (configEval (setFlash s b (fun f => { f with reads := false }))) b (fun f => { f with image := some i, reads := true })

/-- One update at a time (R467). -/
def updating (s : State) : Bool := s.mgmt.update != .none

/-- Base camp's own firmware: verified, written to the flash that does not hold the running image, accepted by the standby, and
applied by a planned takeover; where the standby rejects it, the flash is restored from the other copy. -/
def execFirmwareUpdate (x : Transport) (image : Image) (s : State) : Host.Outcome State Fault Refusal :=
  .next (serve s x (fun s =>
    if updating s then (s, .busy)
    else
      let old := runVersion s
      match s.mgmt.running with
      | some was =>
        let b := !s.mgmt.fromB
        if !imageOk s image || !bcPair s || !(flashValid s s.mgmt.flashA || flashValid s s.mgmt.flashB) then
          (updateRecord s 1 old image.fwVersion 1, .done 1)
        else if old < image.accepts then
          (configEval (updateRecord (writeFlash (writeFlash s b image) b was) 1 old image.fwVersion 1), .done 1)
        else
          let s := writeFlash s b image
          let s := failover s 4 .standby
          let s := runImage (updG s (fun m => { m with update := .firmware was })) image b
          (configEval (updateRecord (showCores s) 1 old image.fwVersion 0), .done 0)
      | none => (updateRecord s 1 old image.fwVersion 1, .done 1)))

/-- The new active core fails within 60 s: both cores go back to the old image, which the second flash still holds. -/
def execUpdateRollback (s : State) : Host.Outcome State Fault Refusal :=
  .next (match s.mgmt.update with
    | .firmware old =>
      if !bcUp s || s.mgmt.loadedAt + 60000000000 ≤ s.time then s
      else
        let new := runVersion s
        let b := s.mgmt.fromB
        let s := failover s 2 .standby
        let s := setFlash s b (fun f => { f with image := some old })
        let s := runImage (updG s (fun m => { m with update := .none })) old (!b)
        configEval (updateRecord (showCores s) 1 old.fwVersion new 2)
    | _ => s)

/-- A core patch set: verified as an image is, and compatible with the set that runs. -/
def execPatchSetLoad (x : Transport) (version : Nat) (verifies : Bool) (compatibleWith : List Nat) (s : State) :
    Host.Outcome State Fault Refusal :=
  .next (serve s x (fun s =>
    let old := s.mgmt.patch
    if updating s then (s, .busy)
    else if !verifies || !compatibleWith.contains old then (updateRecord s 2 old version 1, .done 1)
    else
      let store (f : Flash) : Flash := { f with image := f.image.map (fun i => { i with patch := some version }) }
      let s := setFlash (setFlash s false store) true store
      let cores := (List.range 192).filter (fun k => stateOf s (coreUid k) == usInService)
      let s := updG s (fun m => { m with patch := version, patched := cores, running := m.running.map (fun i => { i with patch := some version }) })
      (updateRecord s 2 old version 0, .done 0)))

/-- A core applies the patch at its next belay point. -/
def execPatchApply (k : Fin 192) (s : State) : Host.Outcome State Fault Refusal :=
  .next (updG s (fun m => { m with patched := m.patched.filter (· != k.val) }))

/-- A component for the trusted world is written to its staging buffer, and vector 62 sent. -/
def execTrustedComponentStage (x : Transport) (cls version : Nat) (body : List Byte) (s : State) :
    Host.Outcome State Fault Refusal :=
  .next (serve s x (fun s =>
    let w := s.getR rBcTwStage
    let a := fld w BcTwStage.addr * 4096
    let old := (mfind s.mgmt.versions cls).getD (Config.componentVersion cls)
    if updating s then (s, .busy)
    else if !fldB w BcTwStage.valid || (linesOf a body.length).any (fun l => isSecure s (l * 64) || physClass s (l * 64) != .dram) ||
        !(cls == 3 || cls == 4) then
      (updateRecord s cls old version 1, .done 1)
    else
      let s := homeWrite s a body
      let s := updG s (fun m => { m with update := .trusted cls version s.time, twOutcome := none })
      match lowestThread s (trustedTiles s) with
      | some n => (sendIrq s n 62 uidBaseCamp, .value 0)
      | none => (s, .value 0)))

/-- The trusted world has written an outcome, or 60 s have passed: the update ends. -/
def execTrustedOutcome (s : State) : Host.Outcome State Fault Refusal :=
  let finish (cls version outcome : Nat) : State :=
    let old := (mfind s.mgmt.versions cls).getD (Config.componentVersion cls)
    let s := updG s (fun m => { m with
      update := .none, twOutcome := none, versions := if outcome = 0 then mins m.versions cls version else m.versions })
    reply (updateRecord s cls old version (min outcome 1)) .i3c (.done outcome)
  .next (match s.mgmt.update with
    | .trusted cls version since =>
      if !bcUp s then s
      else
        (match s.mgmt.twOutcome with
         | some n => finish cls version n
         | none => if since + 60000000000 ≤ s.time then finish cls version 1 else s)
    | _ => s)

/-! ### Requests that name a unit (R473, R216, R484) -/

/-- The unit's word, where its seq is the request's; otherwise the answer is the present word. -/
def unitRequest (s : State) (x : Transport) (u : Nat) (seq : BitVec 8) (f : State → State) : State :=
  serve s x (fun s =>
    let w := s.getR (rUnitState u)
    if fld w UnitState.seq ≠ seq.toNat then (s, .refused w)
    else
      let s' := f s
      if s'.getR (rUnitState u) = w then (s', .refused w) else (s', .done 0))

/-- A channel restart: failed to off to starting, once in 24 hours; a channel whose ranks are all withdrawn is refused (R484, R489). -/
def chanRestart (s : State) (c : Nat) : State :=
  let u := mcUid c
  if !bcUp s || stateOf s u ≠ usFailed then s
  else if (getM s c).gone.length + (if (getM s c).spareOf.isEmpty then 0 else 1) ≥ (getM s c).ranks.length + (getM s c).spareOf.length then
    setupError s (rUnitState u) (s.getR (rUnitState u)).toNat
  else if restartAllowed s u then setUnit (restartUnit s u) u usStarting 0x01
  else addWithdrawn (setUnit s u usWithdrawn 0x01) u

def execChannelRestart (c : Fin 16) (s : State) : Host.Outcome State Fault Refusal := .next (chanRestart s c.val)

/-- A memory test of a channel may begin, or end (R441): the channel serves and nothing else has its mode. -/
def testOk (s : State) (c : Nat) (begin_ : Bool) : Bool :=
  bcUp s && serving s (mcUid c) && s.getF (rMcProt (mcUid c)) McProt.mode == ofBool (!begin_) && (getM s c).resilver.isNone &&
    !s.getB (rMcMigrStatus (mcUid c)) McMigrStatus.active

/-- A memory test: base camp switches the channel to region mode, or back; a channel with a secure range is refused, with a record
(R441, R453). -/
def memTest (s : State) (c : Nat) (begin_ : Bool) : State × Bool :=
  if !testOk s c begin_ then (s, false)
  else if !begin_ then (s.putF (rMcProt (mcUid c)) McProt.mode 0, true)
  else if secureLimit s ≠ 0 then (setupError s (rMcProt (mcUid c)) (secureLimit s), false)
  else (recoverySet s c, true)

/-- What a management request asks of a unit. -/
def askUnit (s : State) (u : Nat) : UnitAsk → State
  | .start => commandUnit s u usOff usStarting 0x01
  | .drainOff => drainUnit s u
  | .drainRetire => drainUnit s u
  | .cancelDrain => cancelDrain s u
  | .restart =>
    (match unitKind u with
     | .mem c => chanRestart s c
     | _ => restartUnit s u)
  | .bivouac => if mayBivouac s u then commandUnit s u usOff usBivouac 0x01 else s
  | .powerDown => commandUnit s u usBivouac usOff 0x01
  | .memTest _ => s

def execUnitCommandRequest (x : Transport) (u : Uid) (seq : BitVec 8) (ask : UnitAsk) (s : State) :
    Host.Outcome State Fault Refusal :=
  .next (match ask, unitKind u.toNat with
    | .memTest b, .mem c => serve s x (fun s =>
        let w := s.getR (rUnitState u.toNat)
        if fld w UnitState.seq ≠ seq.toNat then (s, .refused w)
        else
          let (z, done) := memTest s c b
          (z, if done then .done 0 else .refused w))
    | _, _ => unitRequest s x u.toNat seq (fun s => if isStateUnit u.toNat then configEval (askUnit s u.toNat ask) else s))

/-- A core of the reserve is released into service; its number follows at its start (R216, R28). -/
def execReserveRelease (x : Transport) (k : Fin 192) (seq : BitVec 8) (s : State) : Host.Outcome State Fault Refusal :=
  .next (unitRequest s x (coreUid k) seq (fun s =>
    if stateOf s (coreUid k) ≠ usBivouac ∨ s.mgmt.reserved.contains k.val then s
    else
      let t := tileUid (k.val / 2)
      let s := if stateOf s t = usBivouac then setUnit s t usStarting 0x01 else s
      configEval (setUnit s (coreUid k) usStarting 0x01)))

/-- A core with no virtual number returns to the reserve, through draining and off. -/
def execReserveReturn (x : Transport) (k : Fin 192) (seq : BitVec 8) (s : State) : Host.Outcome State Fault Refusal :=
  .next (unitRequest s x (coreUid k) seq (fun s =>
    let u := coreUid k
    if stateOf s u ≠ usInService ∨ (vcoreOfCore s k).isSome then s
    else configEval (setUnit (setUnit (gateCore (emptyCaches (setUnit s u usDraining 0x01) k) k) u usOff 0x03) u usBivouac 0x01)))

/-- A tile and its cores move from off to bivouac (R484). -/
def execReserveRefill (x : Transport) (i : Fin 96) (seq : BitVec 8) (s : State) : Host.Outcome State Fault Refusal :=
  .next (unitRequest s x (tileUid i) seq (fun s =>
    let cs := [coreUid (2 * i.val), coreUid (2 * i.val + 1)]
    if stateOf s (tileUid i) ≠ usOff ∨ cs.any (fun u => stateOf s u != usOff) then s
    else configEval ((tileUid i :: cs).foldl (fun s u => setUnit s u usBivouac 0x01) s)))

/-! ### The withdrawal list (R474) -/

/-- The serial-number CRC of a memory stop's entry. -/
def entrySerial (s : State) (u : Nat) : Nat :=
  match unitKind u with
  | .mem c => (match mfind s.dimms c with
    | some d => d.serial
    | none => 0)
  | _ => 0

/-- The entries of the store, newest first, after one more; a full sector is rewritten with one entry for each unit on the list. -/
def storeAppend (list : List (Nat × Bool × Nat × Nat)) (e : Nat × Bool × Nat × Nat) (units : List (Nat × Bool × Nat × Nat)) :
    List (Nat × Bool × Nat × Nat) :=
  if 2048 ≤ list.length then e :: units else e :: list

/-- The next entry goes to flash A and then flash B, with its record. -/
def appendNext (s : State) : State :=
  match s.mgmt.appends with
  | [] => s
  | (u, w, rec0) :: rest =>
    let e := (u, w, entrySerial s u, rec0)
    let kept (f : Flash) (v : Nat) : Nat × Bool × Nat × Nat :=
      (f.store.find? (fun e => e.1 == v && e.2.1)).getD (v, true, entrySerial s v, rec0)
    let units := (s.withdrawn.filter (· != u)).map (kept s.mgmt.flashA)
    let s := setFlash s false (fun f => { f with store := storeAppend f.store e units })
    let s := setFlash s true (fun f => { f with store := storeAppend f.store e units })
    let s := updG s (fun m => { m with appends := rest })
    logRecord s 0x5B uidDevice 0 (u + (if w then 1 else 2) * 65536) s.mgmt.flashA.store.length 0 0

def execWithdrawalStoreAppend (s : State) : Host.Outcome State Fault Refusal := .next (if bcUp s then appendNext s else s)

/-- A withdrawn unit, or one absent by the list, is to come back at the next device reset. -/
def execReinstateRequest (x : Transport) (u : Uid) (seq : BitVec 8) (s : State) : Host.Outcome State Fault Refusal :=
  .next (serve s x (fun s =>
    let w := s.getR (rUnitState u.toNat)
    let st := fld w UnitState.state
    if fld w UnitState.seq ≠ seq.toNat || !isStateUnit u.toNat ||
        !(st == usWithdrawn || (st == usAbsent && fld w UnitState.cause == 8)) then (s, .refused w)
    else (updG s (fun m => { m with appends := m.appends ++ [(u.toNat, false, s.log.next - 1)] }), .done 0)))

/-! ### Board signals and flashes (R475, R484) -/

/-- HP_PRSNT_Np rises: the port freezes in hardware. -/
def execHostPresenceLoss (p : Fin 16) (s : State) : Host.Outcome State Fault Refusal :=
  let s := { s with board := { s.board with prsnt := s.board.prsnt.filter (· != p.val) } }
  .next (if hostPortMode s p.val then portFreeze s p.val 3 else s)

/-- An update has run 60 s, and the flash it has not yet reached takes the running image (R469). -/
def updateSettles (s : State) : Bool :=
  match s.mgmt.update with
  | .firmware _ => decide (s.mgmt.loadedAt + 60000000000 ≤ s.time)
  | _ => false

/-- The flash that a rewrite is for, true for B: the one an update has not reached, else one that does not verify. -/
def rewriteB (s : State) : Bool := if updateSettles s then !s.mgmt.fromB else flashValid s s.mgmt.flashA

/-- A flash that does not verify is rewritten from the other (R484); or, once an update has run 60 s, the second one from the running
image (R469). -/
def execFlashRewrite (s : State) : Host.Outcome State Fault Refusal :=
  .next (match s.mgmt.running with
    | none => s
    | some i =>
      let b := rewriteB s
      let f := if b then s.mgmt.flashB else s.mgmt.flashA
      let other := if b then s.mgmt.flashA else s.mgmt.flashB
      let updated := updateSettles s
      if !bcUp s || !servicesUp s || !(updated || (!updating s && !flashValid s f && flashValid s other)) then s
      else
        let s := writeFlash s b (if updated then i else other.image.getD i)
        configEval (updG s (fun m => { m with update := if updated then .none else m.update })))

end Sys2Proof.Machine
end

