-- ==== Sys2Proof/Machine/Startup.lean ====
section
/-! DEFINITION. Start-up (chapter 22): the stages S0 to S7, what stops them, memory made available in tranches, and thread start. -/

namespace Sys2Proof.Machine

/-! ### Stages (R491, R498) -/

def stageOf (s : State) : Nat := s.getF rBcBootStatus BcBootStatus.stage
def toStage (s : State) (n : Nat) : State := s.putF rBcBootStatus BcBootStatus.stage n
def updB (s : State) (f : Board → Board) : State := { s with board := f s.board }

/-- Start-up stops at a stage until a device reset. -/
def stopAt (s : State) (n : Nat) : State := updB (s.putF rBcBootStatus BcBootStatus.stop_stage n) (fun b => { b with stopped := true })

/-- Stage n follows the stage in force, and start-up has not stopped. -/
def mayStage (s : State) (n : Nat) : Bool :=
  s.board.pwrgdStby && !s.board.stopped && !s.board.down && stageOf s + 1 == n

/-- FAULT_N is low: mode 0 or 3 with a row of R1 failing, the device failed, or start-up stopped where R493 and R497 say so (R475). -/
def faultLow (s : State) : Bool :=
  s.mgmt.failed ||
  (s.board.stopped && decide (s.getF rBcBootStatus BcBootStatus.stop_stage ≤ 2)) ||
  (servicesUp s && (s.getF rBcStatus BcStatus.mode == 0 || s.getF rBcStatus BcStatus.mode == 3) && (protectedRows s).any (fun r => !r))

/-- BC_ALERT_N is low: a record of severity 2 or more is unread through PLDM (R475). -/
def alertLow (s : State) : Bool := !(unreadEvents s).isEmpty

/-- S0: PWRGD_STBY is seen, and after power-on the timebase starts (R40, R491). -/
def powerGood (s : State) : State :=
  if s.board.pwrgdStby then s
  else
    let s := updB s (fun b => { b with pwrgdStby := true })
    let s := { s with time := 0, tb := { s.tb with counting := true } }
    let a := s.getB rBcTbStatus BcTbStatus.ref_a_ok
    let b := s.getB rBcTbStatus BcTbStatus.ref_b_ok
    let s := tbSet (tbSet s BcTbStatus.holdover (!a && !b)) BcTbStatus.active (!a && b)
    s.putF rBcBootStatus BcBootStatus.reset_cause 1

def execPowerGoodStandby (s : State) : Host.Outcome State Fault Refusal := .next (powerGood s)

/-! ### S1 (R24, R493) -/

/-- The state word a device reset loads: absent for a unit fused out or not populated, otherwise off. The load is no transition: the time
word has its reset value. -/
def loadState (s : State) (u : Nat) : State :=
  let gone := s.fuses.out.contains u || (match unitKind u with
    | .mem c => (mfind s.dimms c).isNone
    | _ => false)
  let w := resetVal (rUnitState u)
  let w := setFld (setFld w UnitState.state (if gone then usAbsent else usOff)) UnitState.cause (if gone then 0x09 else 0x00)
  (s.putR (rUnitState u) w).putR (rUnitStateTime u) 0

/-- The fused reset values, and each core's first check shift. -/
def loadFuses (s : State) : State :=
  let s := s.fuses.values.foldl (fun s e => s.putR e.1 (fusedVal s e.1)) s
  let s := (List.range 128).foldl (fun s st => ([0, 1, 2, 3].filter (isWrap st)).foldl (fun s d =>
    s.putB (linkReg st d) FabLinkStatus.wrap true) s) s
  s.fuses.shifts.foldl (fun s e => updC s e.1 (fun x => { x with shift := max 1 (min 8 e.2) })) s

/-- After a device reset S1 begins once RESET_IN_N is high and no power-down request stands, and the timebase with it (R40, R504). -/
def mayS1 (s : State) : Bool :=
  s.board.pwrgdStby && s.board.resetIn && !s.board.powerOff && !s.board.stopped && stageOf s == 0

def execStageS1 (s : State) : Host.Outcome State Fault Refusal :=
  .next (if !mayS1 s then s
    else
      let s := updB s (fun b => { b with down := false })
      let s := { s with tb := { s.tb with counting := true } }
      let s := toStage s 1
      if !s.fuses.ok then updB (stopAt s 1) (fun b => { b with fuseOwed := true })
      else allSlices.foldl fixGeneral (allUnits.foldl loadState (loadFuses s)))

/-! ### S2 (R24, R215, R454, R474, R496, R497, R500) -/

/-- A value the image gives a register, or the value it holds. -/
def settingOf (s : State) (i : Image) (r : Nat) : Word := ((i.settings.find? (fun e => e.1 == r)).map (·.2)).getD (s.getR r)

/-- Base camp rejects a set of shares that sums above 60 A/µs (R58): the sheaves keep their reset shares. -/
def fixShares (s : State) : State :=
  let total := allSheaves.foldl (fun n h => n + s.getF (rShfBcLimits (sheafUid h)) ShfBcLimits.slew_share) 120
  if total ≤ 600 then s
  else allSheaves.foldl (fun s h => s.putF (rShfBcLimits (sheafUid h)) ShfBcLimits.slew_share 0x14)
    (setupError s (rShfBcLimits (sheafUid 0)) total)

def applySettings (s : State) (i : Image) (p : Nat → Bool) : State :=
  fixShares ((i.settings.filter (fun e => p e.1)).foldl (fun s e => setReg s e.1 e.2) s)

/-- GiB the image's regions define (R311). -/
def imageGib (s : State) (i : Image) : Nat :=
  ([0, 1, 2, 3].map (fun k =>
    let w := settingOf s i (rBcDramRgn k)
    if fldB w BcDramRgn.valid then fld w BcDramRgn.size else 0)).foldl (· + ·) 0

def imageWm (s : State) (i : Image) : Nat := fld (settingOf s i rVltWatermark) VltWatermark.sec_wm_gib

/-- The memory limit at S7, in GiB (R499). -/
def firstLimit (total wm : Nat) : Nat := min total (max 64 (wm + 16))

/-- CH_TABLE_BASE as the image gives it (R359). -/
def imageTable (i : Image) : Nat :=
  match i.settings.find? (fun e => e.1 == rChTableBase (chUid 0)) with
  | some e => fld e.2 ChTableBase.base * 0x100000
  | none => 0x100000000

/-- What base camp refuses an image for beside R496: registers or image offsets, and the value refused (R359, R437, R500). -/
def imageErrors (s : State) (i : Image) : List (Nat × Nat) :=
  let w := settingOf s i rVltWatermark
  let wm := imageWm s i
  let low := wm * 0x40000000
  let high := firstLimit (imageGib s i) wm * 0x40000000
  let r0 := settingOf s i (rBcDramRgn 0)
  let inside (a n : Nat) : Bool := decide (low ≤ a) && decide (a + n ≤ high)
  let b := i.boot
  (if (if fldB r0 BcDramRgn.valid then fld r0 BcDramRgn.size else 0) < wm then [(0x200, w.toNat)] else []) ++
  (if imageTable i < low then [(0, imageTable i)] else []) ++
  (if 192 < fld w VltWatermark.scr_wm_mib then [(0x200, w.toNat)] else []) ++
  (if inside b.load b.bytes.length && inside (b.load + b.entry) 4 && inside (b.load + b.fault) 4 && inside b.wBase b.wSize &&
      inside b.fBase b.fSize then [] else [(0x5000, b.load)])

/-- A flash's image, and whether base camp accepts it. -/
def candidate (s : State) (f : Flash) : Option (Image × Bool) :=
  if !f.reads then none else f.image.map (fun i => (i, imageOk s i && (imageErrors s i).isEmpty))

/-- The records of the images refused (R437, R500). -/
def refuseImages (s : State) (cs : List (Option (Image × Bool))) : State :=
  cs.foldl (fun s c => match c with
    | some (i, _) => if imageOk s i then (imageErrors s i).foldl (fun s e => setupError s e.1 e.2) s else s
    | none => s) s

/-- The image to run and its flash: with BOOT_SEL low flash A only; otherwise the valid one of the higher version, A where equal. -/
def chooseImage (a b : Option (Image × Bool)) : Option (Image × Bool) :=
  match a, b with
  | some (x, true), some (y, true) => if x.version < y.version then some (y, true) else some (x, false)
  | some (x, true), _ => some (x, false)
  | _, some (y, true) => some (y, true)
  | _, _ => none

/-- The image that would have run had it verified (R506). -/
def passedOver (a b : Option (Image × Bool)) : Option Image :=
  match a, b with
  | some (x, false), some (y, true) => if y.version ≤ x.version then some x else none
  | some (x, true), some (y, false) => if x.version < y.version then some y else none
  | _, _ => none

/-- The withdrawal list: the image's section, then the store, whose last entry for a unit decides; entries still to be appended count
as later ones (R474). -/
def buildList (s : State) (i : Image) : List Nat :=
  let decide_ (u : Nat) : Bool :=
    match s.mgmt.appends.reverse.find? (fun e => e.1 == u) with
    | some (_, w, _) => w
    | none =>
      match s.mgmt.flashA.store.find? (fun e => e.1 == u) with
      | some (_, w, _, _) => w
      | none => i.withdraw.contains u
  allUnits.filter decide_

/-- The management cores after their start tests (R454). -/
def bootCores (s : State) (aOk bOk : Bool) : State :=
  let out (fuse ok : Bool) : MgmtCore := if fuse then .out else if ok then .standby else .withdrawn
  let a := out (s.getB rBcFuseOpt BcFuseOpt.bca_out) aOk
  let b := out (s.getB rBcFuseOpt BcFuseOpt.bcb_out) bOk
  let s := updG s (fun m =>
    if a == .standby then { m with bcA := .active, bcB := b } else { m with bcA := a, bcB := if b == .standby then .active else b })
  showCores (updG s (fun m => { m with lastBeat := s.time }))

/-- Base camp's table as the words stand when it starts. -/
def readTable (s : State) : State :=
  { s with
    bcTable := allUnits.foldl (fun m u => mins m u ⟨u, s.getR (rUnitState u), (s.getR (rUnitStateTime u)).toNat⟩) s.bcTable
    stateMsgs := [] }

/-- What an earlier start-up or the vault owes the logbook (R450, R493). -/
def oweRecords (s : State) : State :=
  let s := if s.board.fuseOwed then setupError (updB s (fun b => { b with fuseOwed := false })) rBcFuseId 0 else s
  if s.vault.unlogged then tamperRecord s else s

/-- The image runs: withdrawal list applied, the spare reserve set, measurement registers 0 and 1 extended. -/
def runBoot (s : State) (i : Image) (fromB : Bool) : State :=
  let s := runImage s i fromB
  let list := buildList s i
  let s := { s with withdrawn := list }
  let s := list.foldl (fun s u => if stateOf s u = usOff then setUnit s u usAbsent 0x08 else s) s
  let s := (setReg s rBcSpareCfg (settingOf s i rBcSpareCfg)).putB rBcSpareCfg BcSpareCfg.lock true
  measExtend (measExtend s 0 0 (Config.firmwareDigest i)) 1 1 (Config.imageDigest i)

def execStageS2 (aOk bOk : Bool) (s : State) : Host.Outcome State Fault Refusal :=
  .next (if !mayStage s 2 then s
    else
      let s := bootCores (toStage s 2) aOk bOk
      if !bcUp s then stopAt s 2
      else
        let s := oweRecords (readTable s)
        let a := candidate s s.mgmt.flashA
        let b := if s.board.bootSel then candidate s s.mgmt.flashB else none
        let s := refuseImages s [a, b]
        match chooseImage a b with
        | none => stopAt s 2
        | some (i, fromB) =>
          let s := match passedOver a b with
            | some o => updateRecord s 1 i.fwVersion o.fwVersion 1
            | none => s
          runBoot s i fromB)

/-! ### S3 (R58, R196, R254, R267, R290, R332 to R334, R417, R443, R491) -/

/-- The stage whose rule names a register; every other setting is written at S3. -/
def settingStage (r : Nat) : Nat :=
  let u := r / 0x100000
  let o := r % 0x100000
  if r = rBcSpareCfg then 2
  else if (List.range 4).any (fun k => r == rBcDramRgn k) || (List.range 16).any (fun n => r == rBcCxlWin n) then 4
  else if r = rVltWatermark ∨ r = rVltSlotBase ∨ (sliceUid (tileOfUid u) = u ∧ o = 0x100) then 5
  else if (List.range 32).any (fun n => octUid n == u) && decide (0x1000 ≤ o) then 6
  else 3

/-- A domain's regulator starts, its share the default of R58: it ramps to the bottom of its range, where a field fabric or an engine
stop is then set to its nominal voltage (R48). The stage command stands for the end of S3, which the ramp lies within (R491). -/
def rampDom (s : State) (d : Nat) : State :=
  let s := updD s d (fun x => { x with
    powered := true, stopped := false, paused := false, mv := domFloor s d, setMv := if d < 24 then domFloor s d else 800
    lastStep := s.time, share := if d < 24 then 0 else if d < 28 then 20 else 10, drawn := drawOf s d, want := 0, loadAt := s.time })
  if d < 24 then
    (s.putF (rShfGovStatus (sheafUid d)) ShfGovStatus.vnow_code (codeOfMv (domFloor s d))).putF (rShfGovStatus (sheafUid d))
      ShfGovStatus.vset_code (codeOfMv (domFloor s d))
  else s

/-- Both groups' tiles (R443). -/
def allGroupTiles (s : State) : List Nat :=
  groupTiles s (s.getF rVltTwCfg VltTwCfg.act_first) ++
    (if s.getB rVltTwCfg VltTwCfg.stby_en then groupTiles s (s.getF rVltTwCfg VltTwCfg.stby_first) else [])

/-- A sheaf's checking mode is locked; one that holds trusted-world cores is roped (R196). -/
def lockCheckMode (s : State) (h : Nat) : State :=
  let r := rShfCheckMode (sheafUid h)
  let tw := (allGroupTiles s).any (fun i => i / 4 == h)
  let s := if tw && s.getB r ShfCheckMode.solo then setupError (s.putB r ShfCheckMode.solo false) r 1 else s
  (s.putB r ShfCheckMode.trusted tw).putB r ShfCheckMode.lock true

/-- An octet's mode and width break R332 or R333. -/
def octBreaks (s : State) (o : Nat) : Bool :=
  let m := s.getF (rHpOctCfg (octUid o)) HpOctCfg.mode
  let w (n : Nat) : Nat := s.getF (rHpOctCfg (octUid n)) HpOctCfg.width
  let md (n : Nat) : Nat := s.getF (rHpOctCfg (octUid n)) HpOctCfg.mode
  w o == 3 ||
  (m == 1 && w o == 0 && o % 2 == 1) ||
  ((m == 1 || m == 3) && ((w o == 1 && (o % 2 == 1 || md (o + 1) != m || w (o + 1) != 2)) ||
    (w o == 2 && (o % 2 == 0 || md (o - 1) != m || w (o - 1) != 1)))) ||
  ((m == 0 || m == 2) && w o != 0)

/-- CXL links in ascending order of their first octet (R333). -/
def cxlFirsts (s : State) : List Nat :=
  (List.range 32).filter (fun o => s.getF (rHpOctCfg (octUid o)) HpOctCfg.mode == 3 && s.getF (rHpOctCfg (octUid o)) HpOctCfg.width != 2)

/-- The highest octet that offends: by its own form, or a CXL link above the sixteenth. -/
def worstOctet (s : State) : Option Nat :=
  ((List.range 32).map (fun k => 31 - k)).find? (fun o => octBreaks s o || ((cxlFirsts s).drop 16).contains o)

/-- Offending octets become mode D, in descending order, until the rules hold (R334). -/
def fixOctets : Nat → State → State
  | 0, s => s
  | n + 1, s =>
    match worstOctet s with
    | none => s
    | some o =>
      let r := rHpOctCfg (octUid o)
      let old := s.getR r
      fixOctets n (setupError (s.putR r 0) r old.toNat)

/-- Octets are locked, and each CXL octet shows its link's number. -/
def lockOctets (s : State) : State :=
  let s := ((cxlFirsts s).zipIdx).foldl (fun s (o, n) =>
    let s := s.putF (rHpOctCfg (octUid o)) HpOctCfg.xlink n
    if s.getF (rHpOctCfg (octUid o)) HpOctCfg.width = 1 then s.putF (rHpOctCfg (octUid (o + 1))) HpOctCfg.xlink n else s) s
  (List.range 32).foldl (fun s o =>
    (s.putB (rHpOctCfg (octUid o)) HpOctCfg.lock true).putF (rNetOctLanes (octUid o)) ⟨32, 32⟩ 1) s

def laneField (l : Nat) : Fld := ⟨4 * (l % 8) + 3, 4 * (l % 8)⟩
def clearLane (s : State) (l : Nat) : State :=
  let r := rNetOctLanes (octUid (l / 8))
  setupError (s.putF r (laneField l) 0) r (s.getR r).toNat

/-- A lane code at a place its rule does not allow: a 200 Gb/s port on an odd lane, a 400 Gb/s port elsewhere than lane 0 or 4 (R417). -/
def laneBreaks (s : State) (l : Nat) : Bool :=
  let c := laneCode s l
  (c == 4 && l % 2 == 1) || (c == 5 && l % 4 != 0)

/-- Network lanes: misplaced codes and ports above 63 are set to 0, and the ports numbered (R417). -/
def setLanes (s : State) : State :=
  let s := ((List.range 256).filter (laneBreaks s)).foldl clearLane s
  let firsts := (List.range 256).filter (fun l => 1 ≤ laneCode s l ∧ laneCode s l ≤ 5)
  let s := (firsts.drop 64).foldl clearLane s
  ((netLanes s).zipIdx).foldl (fun s (l, b) =>
    (s.putF (rPortStatus l) NetPortStatus.port b).putF (rPortStatus l) NetPortStatus.speed (laneCode s l)) s

/-- The default route set in bank A of every stop, committed (R290). -/
def defaultRoutes (s : State) : State :=
  (List.range 128).foldl (fun s a =>
    let s := (List.range 128).foldl (fun s b => if a = b then s else s.putR (bankReg a 0 b) (defaultRoute a b)) s
    s.putR (rFabRouteSel (fabUidOfStop a)) (setFld 0 FabRouteSel.gen 1)) s

def putMap (s : State) (n i : Nat) : State := s.putF (rBcSliceMap (n / 8)) ⟨8 * (n % 8) + 6, 8 * (n % 8)⟩ i

/-- The slice map: entries n, n + 96, … name slice n; those of an absent slice go by the choice rule (R254, R255). -/
def buildMap (s : State) : State :=
  let s := (List.range 384).foldl (fun s n => putMap s n (n % 96)) s
  allSlices.foldl (fun s i =>
    if stateOf s (sliceUid i) = usInService then s
    else (newHomes s i (entriesOf s i) (mapCounts s)).foldl (fun s e => putMap s e.1 e.2) s) s

/-- One unit's start: from off through starting to in service, or failed where its start test or its domain's fails (R25, R498). -/
def bootUnit (bad : Nat → Bool) (s : State) (u : Nat) : State :=
  if stateOf s u ≠ usOff then s
  else
    let s := setUnit s u usStarting 0x01
    if bad u || !holdersUp s u then setUnit s u usFailed 0x06 else setUnit s u usInService 0x02

/-- A unit's domain is one of those that fail. -/
def domFails (doms : List Nat) (u : Nat) : Bool :=
  match unitKind u with
  | .core k => doms.contains (k / 8) || doms.contains (24 + k / 48)
  | .tile i => doms.contains (i / 4) || doms.contains (24 + i / 24)
  | .sheaf h => doms.contains h
  | .slice i => doms.contains (24 + i / 24)
  | .tileStop i => doms.contains (24 + i / 24)
  | .engStop f => doms.contains (28 + f)
  | .engine f => doms.contains (28 + f)
  | _ => false

/-- The tiles a field keeps for its reserve: descending, past sheaves of the trusted group, tiles with a core that fails its start
test, and tiles that are not whole (R214). -/
def reserveTiles (s : State) (bad : Nat → Bool) (f : Nat) : List Nat :=
  let n := min 2 (s.getF rBcSpareCfg ⟨2 * f + 1, 2 * f⟩)
  (((List.range 24).map (fun j => f * 24 + 23 - j)).filter (fun i =>
    !(allGroupTiles s).any (fun t => t / 4 == i / 4) &&
      [tileUid i, coreUid (2 * i), coreUid (2 * i + 1)].all (fun u => stateOf s u == usOff && !bad u))).take n

/-- Units start: everything but memory stops, key engines, and the tiles and cores kept for the reserve. -/
def startUnits (s : State) (doms units : List Nat) : State :=
  let bad (u : Nat) : Bool := units.contains u || domFails doms u
  let kept := [0, 1, 2, 3].flatMap (reserveTiles s bad)
  let tiles := (List.range 96).filter (fun i => !kept.contains i)
  let order := (List.range 24).map sheafUid ++ (List.range 96).map tileFabUid ++ (List.range 96).map sliceUid ++
    (List.range 8).map ioUid ++ (List.range 4).map esUid ++ (List.range 4).map ssUid ++ (List.range 8).map meUid ++
    tiles.map tileUid ++ tiles.flatMap (fun i => [coreUid (2 * i), coreUid (2 * i + 1)])
  order.foldl (bootUnit bad) s

/-- The registers S3 sets and locks. -/
def setS3 (s : State) (i : Image) : State :=
  let s := applySettings s i (fun r => settingStage r == 3)
  let s := s.putB rVltTwCfg VltTwCfg.lock true
  let s := allSheaves.foldl lockCheckMode s
  let dir := settingOf s i (rTileDirCfg (sliceUid 0))
  let s := allSlices.foldl (fun s k => (setReg s (rTileDirCfg (sliceUid k)) dir).putB (rTileDirCfg (sliceUid k)) TileDirCfg.lock true) s
  let s := setLanes (lockOctets (fixOctets 32 s))
  let base := imageTable i / 0x100000
  [0, 1, 2, 3].foldl (fun s f =>
    (s.putF (rChTableBase (chUid f)) ChTableBase.base base).putB (rChTableBase (chUid f)) ChTableBase.lock true) s

/-- Main power is good: the domains ramp, units start, routes and the slice map are written. -/
def rampAll (s : State) (doms units : List Nat) : State :=
  match s.mgmt.running with
  | none => s
  | some i =>
    if s.board.tapHold then stopAt s 3
    else
      let s := setS3 s i
      let s := ((List.range 32).filter (fun d => !doms.contains d)).foldl rampDom s
      let s := startUnits s doms units
      let s := buildMap (defaultRoutes s)
      let on := s.getB (rTileDirCfg (sliceUid 0)) TileDirCfg.buddy_en
      allSlices.foldl (fun s k => s.putR (rTileDirStatus (sliceUid k)) ([(TileDirStatus.buddy, buddyOf k),
        (TileDirStatus.dup_ok, ofBool on)].foldl (fun w (f, n) => setFld w f n) (0 : Word))) s

/-- S3 raises PWR_EN_MAIN, and goes on once PWRGD_MAIN is high: a second command then finds S3 waiting. -/
def execStageS3 (doms : List DomId) (units : List Uid) (s : State) : Host.Outcome State Fault Refusal :=
  let ds := doms.map (·.val)
  let us := units.map (·.toNat)
  .next (if mayStage s 3 && bcUp s then
      let s := toStage s 3
      let s := updB s (fun b => { b with pwrEnMain := true, enSince := if b.pwrEnMain then b.enSince else s.time })
      if s.board.pwrgdMain then rampAll s ds us else s
    else if mayStage s 4 && bcUp s && s.board.pwrgdMain && !anyPowered s then rampAll s ds us
    else s)

/-- PWRGD_MAIN is not high within 20 ms of PWR_EN_MAIN: it is dropped, and start-up stops (R498). -/
def execMainPowerTimeout (s : State) : Host.Outcome State Fault Refusal :=
  .next (if stageOf s == 3 && !s.board.stopped && s.board.pwrEnMain && !s.board.pwrgdMain && bcUp s &&
      decide (s.board.enSince + 20000000 ≤ s.time) then
      stopAt (updB s (fun b => { b with pwrEnMain := false })) 3
    else s)

/-! ### S4 (R305, R306, R310, R311, R319, R328, R359, R474, R499) -/

/-- The data rate at which a channel's modules run, in MT/s: the highest that R304 and they allow. -/
def dimmRate (d : Dimm) : Nat := min d.rate (if d.mrdimm then 8800 else if d.count = 1 then 8000 else 6400)

/-- A channel's modules are of a kind that R304 accepts. -/
def dimmAccepted (d : Dimm) : Bool :=
  let size := d.ranks * d.gib / max 1 d.count
  (d.count == 1 || (d.count == 2 && !d.mrdimm)) && decide (1 ≤ d.ranks) && decide (d.ranks ≤ 4) && d.ranks % max 1 d.count == 0 &&
    decide (1 ≤ d.stack) && decide (d.stack ≤ 8) &&
    (if d.mrdimm then d.x4 && (dimmRate d == 8000 || dimmRate d == 8800) && decide (64 ≤ size) && decide (size ≤ 512)
     else decide (d.ranks ≤ 2 * d.count) && decide (4800 ≤ dimmRate d) && decide (32 ≤ size) && decide (size ≤ 512))

/-- The modules of two channels agree (R305). -/
def alike (a b : Dimm) : Bool :=
  a.count == b.count && a.mrdimm == b.mrdimm && a.x4 == b.x4 && a.ranks == b.ranks && a.gib == b.gib &&
    a.stack == b.stack && a.density == b.density && a.rate == b.rate

/-- Channels that may be used: populated and accepted, not withdrawn, training well, and like the lowest of them. -/
def goodChans (s : State) : List Nat :=
  let up := (List.range 16).filter (fun c => stateOf s (mcUid c) == usOff && (match mfind s.dimms c with
    | some d => d.trains && dimmAccepted d
    | none => false))
  match up with
  | [] => []
  | c :: _ => up.filter (fun k => match mfind s.dimms c, mfind s.dimms k with
    | some a, some b => alike a b
    | _, _ => false)

/-- All sixteen, or the eight even channels (R305). -/
def population (s : State) : Option (List Nat) :=
  let up := goodChans s
  let even := [0, 2, 4, 6, 8, 10, 12, 14]
  if up.length = 16 then some up else if even.all (fun c => up.contains c) then some even else none

/-- A withdrawn channel whose modules have been replaced: their serial-number CRC differs from its withdraw entry's (R474). -/
def replaced (s : State) : List Nat :=
  (List.range 16).filter (fun c =>
    s.withdrawn.contains (mcUid c) &&
      (match s.mgmt.flashA.store.find? (fun e => e.1 == mcUid c), mfind s.dimms c with
       | some (_, true, crc, _), some d => crc != d.serial
       | _, _ => false))

/-- The channel map with the populated channels in turn (R310). -/
def writeChanMap (s : State) (cs : List Nat) : State :=
  (List.range 64).foldl (fun s e => s.putF (rBcChanMap (e / 16)) ⟨4 * (e % 16) + 3, 4 * (e % 16)⟩ (cs.getD (e % max 1 cs.length) 0)) s

/-- Ranks of a channel in service: the highest is kept as the spare where the image asks and there are two at least (R323). -/
def ranksInUse (s : State) (spare : Bool) (c : Nat) : Nat :=
  match mfind s.dimms c with
  | some d => if spare && decide (2 ≤ d.ranks) then d.ranks - 1 else d.ranks
  | none => 0

/-- GiB of a channel's ranks in service. -/
def chanGib (s : State) (spare : Bool) (c : Nat) : Nat := ranksInUse s spare c * rankSize s c / 0x40000000

/-- Usable capacity in GiB: what the ranks in service hold, less half of every mirrored region, 16 TiB at most (R306). -/
def usableGib (s : State) (spare : Bool) (cs : List Nat) : Nat :=
  let half := (([0, 1, 2, 3].filter (fun k => s.getB (rBcDramRgn k) BcDramRgn.valid && regionMirrored s k)).map
    (fun k => s.getF (rBcDramRgn k) BcDramRgn.size)).sum
  min 16384 ((cs.map (chanGib s spare)).sum - half)

/-- The regions need no more than the channels hold, each and together, and what they make addressable is usable (R306, R311). -/
def regionsFit (s : State) (spare : Bool) (cs : List Nat) : Bool :=
  let cap := (cs.map (chanGib s spare)).foldl min 1048576
  let valid := [0, 1, 2, 3].filter (fun k => s.getB (rBcDramRgn k) BcDramRgn.valid)
  valid.all (fun k => decide (s.getF (rBcDramRgn k) BcDramRgn.local_base + regionLocal s k cs.length ≤ cap)) &&
    decide ((valid.map (fun k => regionLocal s k cs.length)).sum ≤ cap) && decide (dramEndGib s ≤ usableGib s spare cs)

/-- The highest data rate R304 and the modules allow, in 100 MT/s. -/
def chanRate (s : State) (c : Nat) : Nat :=
  match mfind s.dimms c with
  | some d => dimmRate d / 100
  | none => 0

/-- A channel is trained: its set A holds what training found, its ranks and spare are as its modules give them (R313, R319, R323). -/
def trainChan (spare : Bool) (s : State) (c : Nat) : State :=
  let n := ranksInUse s spare c
  let sp := if spare && decide (2 ≤ ((mfind s.dimms c).map (·.ranks)).getD 0) then [n] else []
  let s := (List.range (n + sp.length)).foldl (fun s r => (List.range 80).foldl (fun s l =>
    s.putR (rMcTrain (mcUid c) 0 r l) (Config.trained c 0 r l &&& 0x7F07FF07FF)) s) s
  let s := s.putF (rMcFreqCtrl (mcUid c)) McFreqCtrl.rate_mts_div (chanRate s c)
  let s := s.putF (rMcMigrStatus (mcUid c)) McMigrStatus.spare_rank (sp.headD 0xF)
  let s := updM s c (fun m => { m with ranks := List.range n, spareOf := sp, rates := mput 0 m.rates 0 (chanRate s c), driftAt := s.time })
  setUnit (setUnit s (mcUid c) usStarting 0x01) (mcUid c) usInService 0x02

/-- Zero bytes of memory: what nothing lists reads as zero. -/
def zeroRange (s : State) (a n : Nat) : State :=
  { s with mem := s.mem.filter (fun e => decide (e.1 < a) || decide (a + n ≤ e.1)) }

/-- The channels are up: regions, map and windows are written, the table zeroed, initialisation begun. -/
def mapMemory (s : State) (i : Image) (cs : List Nat) : State :=
  let s := applySettings s i (fun r => settingStage r == 4)
  if !regionsFit s i.spareRank cs then
    stopAt ([0, 1, 2, 3].foldl (fun s k => s.putR (rBcDramRgn k) 0)
      (setupError s (rBcDramRgn 0) (s.getR (rBcDramRgn 0)).toNat)) 4
  else
    let s := cs.foldl (trainChan i.spareRank) s
    let s := writeChanMap s cs
    let s := s.putF rBcMemInit BcMemInit.total_gib (dramEndGib s)
    { zeroRange s (imageTable i) 0x100000 with chans := [] }

/-- Channels that break a rule become absent, each with its record (R24, R305). -/
def keepChans (s : State) (cs : List Nat) : State :=
  (List.range 16).foldl (fun s c =>
    if cs.contains c || stateOf s (mcUid c) != usOff then s else setUnit (setupError s (rBcChanMap 0) c) (mcUid c) usAbsent 0x09) s

def stageS4Work (s : State) (i : Image) : State :=
  match population s with
  | none =>
    let n := (goodChans s).length
    stopAt (setupError (keepChans s (goodChans s)) (rBcChanMap 0) n) 4
  | some cs => mapMemory (keepChans s cs) i cs

/-! ### S5 (R251, R437 to R443, R448) -/

/-- The trusted firmware is copied for both groups below the watermark and measured (R439, R446). -/
def loadTrusted (s : State) (img : List Byte) : State :=
  let firsts := s.getF rVltTwCfg VltTwCfg.act_first ::
    (if s.getB rVltTwCfg VltTwCfg.stby_en then [s.getF rVltTwCfg VltTwCfg.stby_first] else [])
  firsts.foldl (fun s f => measExtend (writeBytes s (trustedBase s f) img) 2 2 (Config.sha384 img)) s

def chansUp (s : State) : List Nat := (List.range 16).filter (chanUp s)

/-- Watermarks, trusted firmware, the recovery set and mode 0, in the order of R439; secure ways locked (R251). -/
def secureMemory (s : State) (i : Image) : State :=
  let s := applySettings s i (fun r => settingStage r == 5)
  let s := (s.putB rVltWatermark VltWatermark.valid true).putB rVltWatermark VltWatermark.lock true
  let s := match i.trusted with
    | some img => loadTrusted s img
    | none => s
  let s := (chansUp s).foldl recoverySet s
  let s := (chansUp s).foldl (fun s c => s.putF (rMcProt (mcUid c)) McProt.mode 0) s
  let ways := s.getF (rTileL3Ways (sliceUid 0)) TileL3Ways.secure_ways
  allSlices.foldl (fun s k => fixGeneral ((s.putF (rTileL3Ways (sliceUid k)) TileL3Ways.secure_ways ways).putB
    (rTileL3Ways (sliceUid k)) TileL3Ways.lock true) k) s

/-- Both groups start, and the key engines enter service; an active group that fails to start is taken over (R443, R498). -/
def startTrusted (s : State) (groupFails : Bool) : State :=
  let stby := s.getB rVltTwCfg VltTwCfg.stby_en
  let s := [(VltTwStatus.act_now, s.getF rVltTwCfg VltTwCfg.act_first), (VltTwStatus.stby_now, s.getF rVltTwCfg VltTwCfg.stby_first),
    (VltTwStatus.stby_state, if stby then 2 else 0)].foldl (fun s (f, n) => s.putF rVltTwStatus f n) s
  let s := { s with vault := { s.vault with active := true, lastBeat := s.time } }
  let s := ((List.range 8).map keUid).foldl (bootUnit (fun _ => false)) s
  if groupFails then takeover s else s

def execStageS5 (groupFails : Bool) (s : State) : Host.Outcome State Fault Refusal :=
  .next (if !mayStage s 5 || !bcUp s then s
    else
      match s.mgmt.running with
      | none => s
      | some i =>
        let s := secureMemory (toStage s 5) i
        let s := updG s (fun m => { m with patch := i.patch.getD 0 })
        if i.trusted.isSome then startTrusted s groupFails else s)

/-! ### S6 and S7 (R28, R214, R215, R499, R500) -/

def execStageS6 (s : State) : Host.Outcome State Fault Refusal :=
  .next (if !mayStage s 6 || !bcUp s then s
    else
      match s.mgmt.running with
      | none => s
      | some i => writeBytes (applySettings (toStage s 6) i (fun r => settingStage r == 6)) i.boot.load i.boot.bytes)

/-- The reserve of a field is placed; one smaller than its count is recorded (R214, R215). -/
def placeReserve (s : State) (f : Nat) : State :=
  let n := min 2 (s.getF rBcSpareCfg ⟨2 * f + 1, 2 * f⟩)
  let tiles := reserveTiles s (fun _ => false) f
  let s := tiles.foldl (fun s i =>
    [coreUid (2 * i), coreUid (2 * i + 1), tileUid i].foldl (fun s u => setUnit s u usBivouac 0x01) s) s
  if tiles.length < n then logRecord s 0x49 uidDevice 0 0x900 (n + tiles.length * 256 + f * 65536) 0 0 else s

/-- Every core in service is numbered, in ascending order (R28). -/
def numberAll (s : State) : State :=
  let cs := (List.range 192).filter (fun k => stateOf s (coreUid k) == usInService)
  let s := (cs.zipIdx).foldl (fun s (k, n) =>
    let tw := (allGroupTiles s).contains (k / 2) && s.vault.active
    let w := [(BcVcoreMap.phys_unit, coreUid k), (BcVcoreMap.world, ofBool tw),
      (BcVcoreMap.solo, ofBool (s.getB (rShfCheckMode (sheafUid (k / 8))) ShfCheckMode.solo)),
      (BcVcoreMap.bound, 1), (BcVcoreMap.valid, 1)].foldl (fun w (f, x) => setFld w f x) (0 : Word)
    coreStarts (s.putR (rBcVcoreMap n) w) k) s
  updG s (fun m => { m with nextVcore := cs.length })

/-- The thread R500 starts: thread 0 of the lowest-numbered virtual core outside the trusted world. -/
def bootVcore (s : State) : Option Nat :=
  (List.range 192).find? (fun v => vmapB s v BcVcoreMap.valid && !vmapB s v BcVcoreMap.world)

def releaseBoot (s : State) (b : BootImage) : State :=
  match bootVcore s with
  | none => s
  | some v => bootThread s (tidOf (2 * v)) (bootCaps false (b.load + b.entry) (b.load + b.fault) b.wBase b.wSize b.fBase b.fSize)
      false true

def setLimit (s : State) (n : Nat) : State :=
  let total := s.getF rBcMemInit BcMemInit.total_gib
  s.putR rBcMemInit (setFld (setFld (s.getR rBcMemInit) BcMemInit.limit_gib n) BcMemInit.done (ofBool (decide (n = total))))

/-- The gleaner's first pass begins when all memory is initialised (R499). -/
def gleanBegins (s : State) : State :=
  if s.getB rBcMemInit BcMemInit.done then
    (chansUp s).foldl (fun s c => updM s c (fun m => { m with glean := 0, passAt := none })) s
  else s

/-- The trusted groups' threads, which S5 started, run on their numbers. -/
def startGroups (s : State) : State :=
  if !s.vault.active then s
  else
    let s := startGroup s (trustedTiles s) true
    if s.getF rVltTwStatus VltTwStatus.stby_state = 2 then startGroup s (standbyTiles s) false else s

def execStageS7 (s : State) : Host.Outcome State Fault Refusal :=
  .next (if !mayStage s 7 || !bcUp s then s
    else
      match s.mgmt.running with
      | none => s
      | some i =>
        let s := toStage s 7
        let s := setLimit s (firstLimit (s.getF rBcMemInit BcMemInit.total_gib) (s.getF rVltWatermark VltWatermark.sec_wm_gib))
        let s := gleanBegins s
        let s := numberAll ([0, 1, 2, 3].foldl placeReserve s)
        releaseBoot (startGroups (configEval s)) i.boot)

/-- A tranche of 64 GiB is handed over, and its notice sent (R499). -/
def execMemoryTranche (s : State) : Host.Outcome State Fault Refusal :=
  .next (if stageOf s != 7 || !bcUp s || s.getB rBcMemInit BcMemInit.done then s
    else
      let n := min (s.getF rBcMemInit BcMemInit.total_gib) (s.getF rBcMemInit BcMemInit.limit_gib + 64)
      notify (gleanBegins (setLimit s n)) rBcMemInitNotify)

/-- The running image asks for it, and has run 60 s without a failover: min_svn is burnt up to its svn (R496). -/
def execMinSvnBurn (s : State) : Host.Outcome State Fault Refusal :=
  .next (match s.mgmt.running with
    | none => s
    | some i =>
      let quiet := s.mgmt.fails.all (fun f => decide (f.2 + 60000000000 ≤ s.time))
      if !bcUp s || !i.burn || s.time < s.mgmt.loadedAt + 60000000000 || !quiet ||
          decide (i.svn ≤ s.getF rBcFuseOpt BcFuseOpt.min_svn) then s
      else
        let s := s.putF rBcFuseOpt BcFuseOpt.min_svn i.svn
        let w := s.getR rBcFuseOpt
        { s with fuses := { s.fuses with values := (rBcFuseOpt, w) :: s.fuses.values.filter (fun e => e.1 != rBcFuseOpt) } })

/-! ### Thread start (R501) -/

/-- A capability of a start block, with its tag. -/
def blockCap (s : State) (a : Nat) : GReg := ⟨read128 s a, readTag s a⟩

def blockCaps (s : State) (a : Nat) : StartCaps :=
  ⟨blockCap s a, blockCap s (a + 0x10), blockCap s (a + 0x20), blockCap s (a + 0x30), blockCap s (a + 0x40)⟩

/-- A virtual core is bound, or its sparing will bind it again (R32, R219). -/
def coreComes (s : State) (v : Nat) : Bool := vmapB s v BcVcoreMap.bound || s.sparings.any (fun q => q.vcore == v)

/-- Thread t has never run, is stopped, or a world switch has released it. -/
def startable (s : State) (t : Tid) : Bool :=
  threadAssigned s t.val && coreComes s (vcoreOf t) && ((getT s t).run == .unstarted || (getT s t).run == .stopped)

/-- The block lies in local DRAM, in the starter's world. -/
def blockOk (s : State) (world : Bool) (a : Nat) : Bool :=
  (linesOf a 128).all (fun l => physClass s (l * 64) == .dram && isSecure s (l * 64) == world && !poisoned s (l * 64))

/-- A capability carries WORLD exactly when its thread's world does; an untagged value is no capability. -/
def worldOk (world : Bool) (c : StartCaps) : Bool :=
  [c.pcc, c.wstack, c.fstack, c.fgate, c.gatetab].all (fun v => !v.tag || hasPerm v pWORLD == world)

/-- A write of BC_THREAD_START_t. -/
def writeThreadStart (s : State) (r : Requester) (t : Tid) (v : Word) : State :=
  let reg := rBcThreadStart t.val
  let s := if fldB v BcThreadStart.refused then s.putB reg BcThreadStart.refused false else s
  if !fldB v BcThreadStart.go then s
  else
    let a := fld v BcThreadStart.block * 128
    if !startable s t || !blockOk s (writerWorld s r) a || !worldOk (trusted s t) (blockCaps s a) then
      let s := s.putB reg BcThreadStart.refused true
      if threadAssigned s t.val && !coreComes s (vcoreOf t) then notify s rBcWithdrawNotify else s
    else
      let r1 := read64 s (a + 0x50)
      let r2 := read64 s (a + 0x58)
      let s := startThread s t (blockCaps s a) []
      (s.putR (rBcXlatRoot1 t.val) (r1 &&& 0xFFFFFFFFFFFFFF03)).putR (rBcXlatRoot2 t.val) (r2 &&& 0xFFFFFFFFFFFFFF03)

def execThreadStart (r : Requester) (t : Tid) (v : Word) (s : State) : Host.Outcome State Fault Refusal :=
  .next (if blockUp s uidBaseCamp then writeThreadStart s r t v else s)

end Sys2Proof.Machine
end

