-- ==== Sys2Proof/Machine/Reset.lean ====
section
/-! DEFINITION. Resets (R503 to R506), the board's signals (R475, R476), power-down and the loss of standby power. -/

namespace Sys2Proof.Machine

/-! ### Device resets (R503, R504) -/

/-- What the vault island keeps: the master key and its generation, the tamper latch's debt, and its supplies. Key slots lie in DRAM,
whose contents are lost (R448, R504). -/
def islandVault (v : Vault) : Vault :=
  { Vault.init with mkValid := v.mkValid, gen := v.gen, drbg := v.drbg, hold := v.hold, vbat := v.vbat, unlogged := v.unlogged }

/-- A domain once its power gate has opened: its load goes on down through the ballast at its share (R59, R504), on a timebase that
starts again at zero; a regulator phase shut off stays so. -/
def gatedDom (s : State) (d : Nat) : Dom := { Dom.init with drawn := drawOf s d, share := slewShare s d, thinned := (getD s d).thinned }

/-- Everything outside the islands as after reset; the host's memory, the modules, fuses and flashes are not the G9's to reset. -/
def freshState (s : State) : State :=
  let m := s.mgmt
  let base : State := { State.reset with
    pending := s.pending, hostMem := s.hostMem, fuses := s.fuses, dimms := s.dimms, vault := islandVault s.vault
    log := s.log
    ports := s.ports.foldl (fun ps e => mput Port.init ps e.1 { Port.init with perst := e.2.perst }) []
    doms := s.doms.foldl (fun ds e => mput Dom.init ds e.1 (gatedDom s e.1)) []
    mgmt := { Mgmt.init with
      flashA := m.flashA, flashB := m.flashB, appends := m.appends, outbox := m.outbox, pldmSeen := m.pldmSeen, versions := m.versions } }
  islandRegs.foldl (fun t r => t.putR r (s.getR r)) base

/-- The board's side after a device reset: the rails stay on, but for RESET_IN_N low or a power-down (R504). -/
def freshBoard (b : Board) : Board :=
  let keep := b.resetIn && !b.powerOff
  { b with pwrEnMain := b.pwrEnMain && keep, stopped := false, down := true, critical := false, tapHold := false, segs := [] }

/-- The references go on through a reset: their state is read again. -/
def keepRefs (s t : State) : State :=
  let a := s.getB rBcTbStatus BcTbStatus.ref_a_ok
  let b := s.getB rBcTbStatus BcTbStatus.ref_b_ok
  let t := (t.putB rBcTbStatus BcTbStatus.ref_a_ok a).putB rBcTbStatus BcTbStatus.ref_b_ok b
  tbSet (tbSet t BcTbStatus.holdover (!a && !b)) BcTbStatus.active (!a && b)

/-- A device reset: every domain stops and is gated, and start-up runs again from S1. -/
def deviceReset (s : State) (cause : Nat) : State :=
  let t := keepRefs s { freshState s with board := freshBoard s.board }
  t.putF rBcBootStatus BcBootStatus.reset_cause cause

/-- The reset has its trigger (R503, R506): RESET_IN_N low, a PLDM request's, base camp's own, or a package critical. -/
def resetDue (s : State) (cause : Nat) : Bool :=
  s.board.pwrgdStby &&
    (match cause with
     | 2 => !s.board.resetIn
     | 3 => bcUp s
     | 4 => bcUp s
     | 5 => s.board.critical
     | _ => false)

def execDeviceReset (cause : BitVec 4) (s : State) : Host.Outcome State Fault Refusal :=
  .next (if resetDue s cause.toNat then deviceReset s cause.toNat else s)

/-- A power-down request stands: the device goes down, and PWR_EN_MAIN with it. -/
def execPowerDown (s : State) : Host.Outcome State Fault Refusal :=
  .next (if s.board.powerOff && !s.board.down then deviceReset s 3 else s)

/-- A request for a device reset, or for an orderly power-down, which then stands (R467). -/
def execPldmResetRequest (x : Transport) (powerDown : Bool) (s : State) : Host.Outcome State Fault Refusal :=
  .next (if !bcUp s then s
    else
      let s := serve s x (fun s => (s, .done 0))
      if powerDown then updB s (fun b => { b with powerOff := true }) else deviceReset s 3)

/-- S4; a withdrawn channel with new modules is reinstated, which takes a device reset before S5 (R474). -/
def execStageS4 (s : State) : Host.Outcome State Fault Refusal :=
  .next (if !mayStage s 4 || !bcUp s || !anyPowered s then s
    else
      match s.mgmt.running with
      | none => s
      | some i =>
        let s := toStage s 4
        match replaced s with
        | [] => stageS4Work s i
        | cs =>
          let s := updG s (fun m => { m with appends := m.appends ++ cs.map (fun c => (mcUid c, false, s.log.next - 1)) })
          deviceReset (cs.foldl (fun s _ => appendNext s) s) 4)

/-! ### The board (R475, R476, R506) -/

/-- VDD_STBY is lost: everything but the vault island stops, and the logbook with it; THERM_TRIP_N is released (R63, R461, R506). -/
def standbyLoss (s : State) : State :=
  let s := if s.vault.vbat ∨ 2000 ≤ s.vault.hold then s else islandOut s
  let t := freshState s
  { t with
    log := { Logbook.init with flash := s.log.flash }
    mgmt := { t.mgmt with appends := [], outbox := [], pldmSeen := 0 }
    board := { s.board with
      pwrgdStby := false, pwrEnMain := false, thermTrip := false, stopped := false, powerOff := false, down := false, critical := false
      tapHold := false, segs := [], tap := .bypass, tapOut := 0, boundary := [], drives := [], fuseOwed := false } }

def execStandbyPowerLoss (s : State) : Host.Outcome State Fault Refusal :=
  .next (if s.board.pwrgdStby then standbyLoss s else s)

/-- PWRGD_MAIN falls after S3 while PWR_EN_MAIN is high: a package critical (R475). -/
def mainPower (s : State) (level : Bool) : State :=
  let fell := s.board.pwrgdMain && !level
  let s := updB s (fun b => { b with pwrgdMain := level })
  if fell && s.board.pwrEnMain && decide (3 ≤ stageOf s) && !s.board.critical then packageCritical s 0 0 else s

/-- RESET_IN_N: low asks for a device reset and ends a power-down request; start-up waits until it is high (R504, R506). -/
def resetInput (s : State) (level : Bool) : State :=
  let s := updB s (fun b => { b with resetIn := level })
  if level || !s.board.pwrgdStby then s
  else updB (deviceReset s 2) (fun b => { b with powerOff := false })

def execBoardInputChange (i : BoardInput) (level : Bool) (s : State) : Host.Outcome State Fault Refusal :=
  .next (match i with
    | .pwrgdStby => if level then powerGood s else if s.board.pwrgdStby then standbyLoss s else s
    | .pwrgdMain => mainPower s level
    | .resetIn => resetInput s level
    | .pwrBrake =>
      let s := updB s (fun b => { b with pwrBrake := !level })
      if level then brakeOff s else brakeOn s
    | .bootSel => updB s (fun b => { b with bootSel := level })
    | .battery mv => setBattery s (if level then some mv else none))

/-! ### Resets below device level (R503, R505) -/

def setupRefusal (s : State) (u : Nat) : State := setupError s (rUnitState u) (s.getR (rUnitState u)).toNat

/-- A core: registers, caches, TLBs, predictor and buffers; the per-thread registers of block 0x3F10 stay. -/
def resetCore (s : State) (k : Nat) : State :=
  let s := gateCore s k
  match vcoreOfCore s k with
  | none => s
  | some v => [2 * v, 2 * v + 1].foldl (fun s n =>
      if (getT s (tidOf n)).run == .unstarted then s else putT s (tidOf n) { Thread.init with run := .halted }) s

def coreResetOk (s : State) (k : Nat) : Bool :=
  let st := stateOf s (coreUid k)
  st == usOff || st == usBivouac || st == usFailed

def execCoreReset (k : Fin 192) (s : State) : Host.Outcome State Fault Refusal :=
  .next (if !bcUp s then s else if coreResetOk s k then resetCore s k else setupRefusal s (coreUid k))

/-- A slice's lines and directory. -/
def resetSlice (s : State) (i : Nat) : State :=
  let here (line : Nat) : Bool := homeSlice s (line * 64) == i
  let t := softReset s (sliceUid i) []
  { t with
    l3 := t.l3.filter (fun e => !here e.1), dir := t.dir.filter (fun e => !here e.1)
    txns := t.txns.filter (fun e => !here e.1), homeQ := t.homeQ.filter (fun q => !here q.line) }

def resetTile (s : State) (i : Nat) : State :=
  resetSlice (resetCore (resetCore (softReset s (tileUid i) []) (2 * i)) (2 * i + 1)) i

def outState (s : State) (u : Nat) : Bool :=
  let st := stateOf s u
  st == usOff || st == usFailed || st == usWithdrawn

def execTileReset (i : Fin 96) (s : State) : Host.Outcome State Fault Refusal :=
  .next (if !bcUp s then s
    else if outState s (tileUid i) && outState s (sliceUid i) then resetTile s i
    else setupRefusal s (tileUid i))

/-- A sheaf's regulator and governor: SHF_CHECK_MODE and the thermal history stay. -/
def resetSheaf (s : State) (h : Nat) : State :=
  let s := [0, 1, 2, 3].foldl (fun s j => resetTile s (4 * h + j)) s
  let s := askLoad s h (getD s h).want
  let old := s.getF (rShfBcLimits (sheafUid h)) ShfBcLimits.slew_share
  let s := softReset s (sheafUid h) [0x120, 0x200]
  let s := if 600 < shareSum s then s.putF (rShfBcLimits (sheafUid h)) ShfBcLimits.slew_share old else s
  updD s h (fun x => { x with stopped := false, setMv := domFloor s h })

def execSheafReset (h : Fin 24) (s : State) : Host.Outcome State Fault Refusal :=
  .next (if !bcUp s then s
    else if (List.range 8).all (fun j => !isUp s (coreUid (8 * h.val + j))) then resetSheaf s h
    else setupRefusal s (sheafUid h))

def unitsOfField (f : Nat) : List Nat := allUnits.filter (fun u => u / 0x4000 == f)

/-- Every unit of a field; its service stop's standby islands are outside the scope (R503). -/
def resetField (s : State) (f : Nat) : State :=
  let s := (List.range 6).foldl (fun s j => resetSheaf s (6 * f + j)) s
  let stops := (List.range 128).filter (fun st => stateUidOfStop st / 0x4000 == f)
  let s := stops.foldl (fun s st => [0, 1, 2, 3].foldl (fun z d => z.putF (linkReg st d) FabLinkStatus.lstate (linkState s st d))
    (softReset s (fabUidOfStop st) [])) s
  let s := (List.range 4).foldl (fun s j => updM (softReset s (mcUid (4 * f + j)) []) (4 * f + j) (fun _ => Mc.init)) s
  let blocks := [2 * f, 2 * f + 1].flatMap (fun n =>
      (List.range 4).map (fun o => octUid (4 * n + o)) ++ [portUid (2 * n), portUid (2 * n + 1)]) ++
    [meUid (2 * f), meUid (2 * f + 1), keUid (2 * f), keUid (2 * f + 1), chUid f, esUid f, ssUid f + 2,
      ioUid (2 * f) + 2, ioUid (2 * f + 1) + 2] ++ (List.range 4).map (fun j => mcUid (4 * f + j) + 2) ++
    (if f = 0 then [0x3E40] else [])
  let s := blocks.foldl (fun s u => softReset s u []) s
  let bar (a : Nat) : Bool := decide (bar0Base (4 * f) 0 ≤ a) && decide (a < bar0Base (4 * f + 4) 0)
  { s with
    regs := s.regs.filter (fun e => !bar e.1)
    ports := s.ports.foldl (fun ps e =>
      mput Port.init ps e.1 (if e.1 / 4 == f then { Port.init with perst := e.2.perst } else e.2)) []
    engXlat := mdel s.engXlat f
    fabric := { s.fabric with packets := s.fabric.packets.filter (fun p => !stops.contains p.stop) } }

def execFieldReset (f : Fin 4) (s : State) : Host.Outcome State Fault Refusal :=
  .next (if !bcUp s then s
    else if (unitsOfField f).all (fun u => stateOf s u != usInService) then resetField s f
    else setupRefusal s (ssUid f))

end Sys2Proof.Machine
end

