-- ==== Sys2Proof/Machine/CtrlRegs.lean ====
section
/-! DEFINITION. Control space (R19 to R22, R141, R150) and the BARs a host sees (R340, R341, R403): what a read of a register returns,
and what a write does. A host's BARs are given addresses of the model above control space: BAR0 of instance i of port p at
`bar0Base p i`, BAR2 and BAR4 as below. -/

namespace Sys2Proof.Machine

def bar2Base (p i : Nat) : Nat := 0x1100000000 + (p * 64 + i) * 0x4000
def bar4Base (p : Nat) : Nat := 0x1200000000 + p * 0x10000

/-- The index of an address in an array of registers. -/
def arrIdx (a base st n : Nat) : Option Nat :=
  if base ≤ a ∧ (a - base) % st = 0 ∧ (a - base) / st < n then some ((a - base) / st) else none

/-- A word with one half replaced by the low 32 bits of another. -/
def halfWord (old v : Word) (hi : Bool) : Word :=
  if hi then (old &&& 0xFFFFFFFF) ||| (v <<< 32) else (old &&& 0xFFFFFFFF00000000) ||| (v &&& 0xFFFFFFFF)

/-- The half of a word that a 4-byte access at an address reads. -/
def readHalf (w : Word) (a : Nat) (wide : Bool) : Word :=
  if wide then w else if a % 8 = 4 then w >>> 32 else w &&& 0xFFFFFFFF

/-! ### Reads -/

/-- A core's counter block by virtual core (R507): the block of the core bound to it. -/
def resolveCtrl (s : State) (a : Nat) : Option Nat :=
  let o := a % 0x100000
  if a / 0x100000 = uidBaseCamp ∧ 0x60000 ≤ o ∧ o < 0x78000 then
    (boundCore s ((o - 0x60000) / 0x200)).map (fun k => (coreUid k + 1) * 0x100000 + o % 0x200)
  else some a

/-- Fields a register shows of state kept elsewhere. -/
def overlay (s : State) (a : Nat) (w : Word) : Word :=
  if a = rBcTbNow then BitVec.ofNat 64 s.time
  else if a = rVltSlotCmd then
    setFld (setFld w VltSlotCmd.busy (ofBool (decide (s.time < s.vault.busyTill)))) VltSlotCmd.mk_valid (ofBool s.vault.mkValid)
  else if a = rDbgAccess then
    setFld w DbgAccess.remaining_s (match s.mgmt.tokenEnd with
      | some n => (n - s.time + 999999999) / 1000000000
      | none => 0)
  else if a = rBcSpareStatus then
    setFld (setFld w BcSpareStatus.bivouac_cores ((List.range 192).filter (fun k => stateOf s (coreUid k) == usBivouac)).length)
      BcSpareStatus.in_progress ((s.sparings.filter (fun q => q.company != 0)).length)
  else
    match arrIdx a (rDbgObsSel 0) 8 32 with
    | some k => setFld w DbgObsSel.suppressed (ofBool (obsHeld s k))
    | none => w

/-- The port whose manager window lies at a control address. -/
def windowPort (a : Nat) : Option Nat :=
  (List.range 16).find? (fun p => a / 0x100000 == portUid p && decide (0x10000 ≤ a % 0x100000))

/-- The register at a control address, as a requester other than a host reads it. -/
def ctrlReadWord (s : State) (a : Nat) : Word :=
  match resolveCtrl s a with
  | none => 0
  | some a =>
    let u := a / 0x100000
    let o := a % 0x100000
    if 0x1000000000 ≤ a then 0
    else if !blockUp s u && !(isStateUnit u && decide (o < 16)) then 0
    else if (match windowPort a with
      | some p => !mgrRes s p
      | none => false) then 0
    else
      match [0, 1, 2, 3].findSome? (fun f => arrIdx a (chUid f * 0x100000 + 0x30000) 8 8192) with
      | some g => (getCh s g).liveWord
      | none =>
        match regRow a with
        | some x => overlay s a (s.getR a) &&& ~~~(BitVec.ofNat 64 x.wo)
        | none => 0

/-- An MSI-X table entry's words (R355). -/
def msixWord (s : State) (p i v : Nat) (second : Bool) : Word :=
  let e := mget MsixEnt.init ((getP s p).fn i).table v
  if second then BitVec.ofNat 64 (e.data.toNat + ofBool e.mask * 2 ^ 32) else e.addr

def pbaWord (s : State) (p i k : Nat) : Word :=
  (List.range 64).foldl (fun w b => setFld w ⟨b, b⟩ (ofBool (mget false ((getP s p).fn i).pba (64 * k + b)))) 0

/-- Where offset o of PF 0's window lies in the port block: the two port-wide registers take the slot of instance 0 (R403). -/
def windowAt (p o : Nat) : Nat :=
  portUid p * 0x100000 + 0x10000 + (if o = 0 then 0x4000 else if o = 8 then 0x4008 else o)

/-- Offsets the window serves for PF 0: the port-wide pair, and instances 1 to n − 1. -/
def windowServes (s : State) (p o : Nat) : Bool :=
  o == 0 || o == 8 || (decide (1 ≤ o / 0x100) && decide (o / 0x100 < (getP s p).share))

/-- BAR0 of an instance, by 8-byte word (R340). -/
def bar0Read (s : State) (p i o : Nat) : Word :=
  let n := vecCount (getP s p)
  if o = 0 then instStatus s p i
  else if 0x1000 ≤ o ∧ o < 0x1088 then s.getR (bar0Base p i + o)
  else if 0x1100 ≤ o ∧ o < 0x1130 then s.getR (rInstCtr p i ((o - 0x1100) / 8))
  else if 0x2000 ≤ o ∧ o < 0x6000 then
    if i = 0 ∧ !mgrRes s p ∧ windowServes s p (o - 0x2000) then
      (if (regRow (windowAt p (o - 0x2000))).isSome then s.getR (windowAt p (o - 0x2000)) else 0)
    else 0
  else if 0x8000 ≤ o ∧ o < 0x8000 + 16 * n then msixWord s p i ((o - 0x8000) / 16) (o % 16 == 8)
  else if 0xC000 ≤ o ∧ o < 0xC000 + n / 8 then pbaWord s p i ((o - 0xC000) / 8)
  else 0

/-- A word of a channel's entry through BAR4: its live words are the present ones (R362). -/
def bar4Entry (s : State) (g o : Nat) : Word :=
  let c := getCh s g
  if o = 0x60 then c.liveWord
  else if o = 0x68 then c.completedWord
  else if o = 0x70 then c.liveCpl
  else if (physClass s (entryAddr s g + o)).isMem then read64 s (entryAddr s g + o) else 0

def bar4Read (s : State) (p o : Nat) : Word :=
  if o < 0x8000 then bar4Entry s (256 * p + o / 128) (o % 128)
  else if o = 0x8008 then s.getR (rHpPortStatus (portUid p))
  else if o = 0x8010 then s.getR (rHpCplTo (portUid p))
  else if o = 0x8018 then s.getR (rHpErrCount (portUid p))
  else 0

/-- A host's read: of its own BARs, which show reset values until S6 ends (R502). -/
def hostCtrlRead (s : State) (p i a : Nat) : Word :=
  if !hostPortMode s p || decide ((getP s p).share ≤ i) then 0
  else if bar0Base p i ≤ a ∧ a < bar0Base p i + 0x10000 then
    (if servicesUp s then bar0Read s p i (a - bar0Base p i) else if (regRow a).isSome then resetVal a else 0)
  else if bar2Base p i ≤ a ∧ a < bar2Base p i + 0x4000 then
    let j := (a - bar2Base p i) / 64
    let n := 256 / (getP s p).share
    (if j < n then slotWord s (256 * p + i * n + j) (a % 64) else 0)
  else if i = 0 ∧ bar4Base p ≤ a ∧ a < bar4Base p + 0x10000 then bar4Read s p (a - bar4Base p)
  else 0

/-- What a naturally aligned read of 4 or 8 bytes returns. -/
def ctrlRead (s : State) (r : Requester) (a : Nat) (wide : Bool) : Word :=
  let w := match r with
    | .host p i => hostCtrlRead s p i (a / 8 * 8)
    | _ => ctrlReadWord s (a / 8 * 8)
  readHalf w a wide

/-! ### Plain writes (R7, R22) -/

/-- The owner-only rules. -/
def ownerOk (s : State) (r : Requester) (x : RegRow) : Bool :=
  match x.owner with
  | .open_ => notHost r
  | .baseCamp => r == .baseCamp
  | .baseCampOrTrusted => r == .baseCamp || writerWorld s r
  | .trusted => writerWorld s r
  | .none => false

/-- What a register holds once the writes that wait for it have been applied: of a translation root (R222), or of training (R319). -/
def soonHeld (s : State) (a : Nat) : Word :=
  let root (t : Tid) (second : Bool) : Option Word := ((getT s t).rootReq.reverse.find? (fun q => q.1 == second)).map (·.2)
  let held : Option Word :=
    match arrIdx a (rBcXlatRoot1 0) 32 384, arrIdx a (rBcXlatRoot2 0) 32 384 with
    | some t, _ => root (tidOf t) false
    | _, some t => root (tidOf t) true
    | _, _ =>
      match unitKind (a / 0x100000) with
      | .mem c => ((getM s c).heldTrain.reverse.find? (fun e => e.2.1 == a)).map (·.2.2)
      | _ => none
  held.getD (s.getR a)

/-- The 8-byte write that a 4-byte one stands for: the other half as it is where it holds its value, and with no effect elsewhere. -/
def expand (s : State) (a : Nat) (x : RegRow) (wide : Bool) (hi : Bool) (v : Word) : Word :=
  if wide then v else halfWord (soonHeld s a &&& (BitVec.ofNat 64 x.rw ||| BitVec.ofNat 64 x.rwl)) v hi

/-! ### Registers whose write does more -/

/-- SHF_BC_LIMITS: the shares may not sum above 60 A/µs (R58); a vmin above vmax is recorded (R52, R57). -/
def writeBcLimits (s : State) (u : Nat) (x : RegRow) (v : Word) : State :=
  let a := rShfBcLimits u
  let d := match unitKind u with
    | .sheaf h => h
    | _ => 0
  let s' := plainWrite (askLoad s d (getD s d).want) a x v
  if 600 < shareSum s' then s
  else if s'.getF a ShfBcLimits.vmax_code < s'.getF a ShfBcLimits.vmin_code then setupError s' a (s'.getR a).toNat
  else s'

/-- CORE_CACHE_WAYS leaves a field whose new value would leave fewer than two ways (R249). -/
def writeCacheWays (s : State) (a : Nat) (v : Word) : State :=
  let put (w : Word) (f : Fld) : Word := if f.width < bitCount (fld v f) f.width + 2 then w else setFld w f (fld v f)
  emptyWays (s.putR a ([CoreCacheWays.l2_dis, CoreCacheWays.l1d_dis, CoreCacheWays.l1i_dis].foldl put (s.getR a))) (coreOfUid (a / 0x100000))

/-- BC_PKG_POWER: resident software only lowers a field; a write that would raise either is discarded (R460). -/
def writePkgPower (s : State) (r : Requester) (x : RegRow) (v : Word) : State :=
  let a := rBcPkgPower
  let up (f : Fld) : Bool := decide (s.getF a f < fld v f)
  if r != .baseCamp && (up BcPkgPower.limit_w || up BcPkgPower.brake_w) then s
  else
    let s := plainWrite s a x v
    s.putF a BcPkgPower.limit_w (max 200 (min 1150 (fld v BcPkgPower.limit_w)))

/-- A ring register: a write that sets en starts the ring at its beginning (R464, R517, R529). -/
def writeRing (s : State) (a ptr : Nat) (x : RegRow) (v : Word) : State :=
  let s := plainWrite s a x v
  if fldB v PmSampleRing.en then (s.putF ptr PmSamplePtr.head 0).putF ptr PmSamplePtr.tail 0 else s

def writeLogRing (s : State) (x : RegRow) (v : Word) : State :=
  let s := writeRing s rBcLogRing rBcLogPtr x v
  if fldB v BcLogRing.en then { s with log := { s.log with ringNext := s.log.next } } else s

/-- BC_TW_STAGE: the trusted world names its buffer, and writes the outcome of what was staged (R471). -/
def writeTwStage (s : State) (x : RegRow) (v : Word) : State :=
  let s := plainWrite s rBcTwStage x v
  match s.mgmt.update with
  | .trusted _ _ _ => updG s (fun m => { m with twOutcome := some (fld v BcTwStage.outcome) })
  | _ => s

/-- A selection, with its bad bit and who wrote it last (R508, R511, R512). -/
def writeSel (s : State) (r : Requester) (a : Nat) (x : RegRow) (v : Word) (bad : Fld) (known : Nat → Bool) : State :=
  let s := plainWrite s a x v
  let w := s.getR a
  let ok := match pmCode (fldB w PmSel.legacy) (fld w PmSel.event) with
    | some c => known c
    | none => false
  let s := s.putB a bad (!ok)
  { s with pmTrusted := mput false s.pmTrusted a (writerWorld s r) }

/-- The stop an uncore selection of field f names. -/
def uselStop (f : Nat) (v : Word) : Nat := let n := fld v PmUsel.stop; n / 4 * 16 + 4 * f + n % 4

/-- Counter blocks (R507, R508, R517). -/
def writePerf (s : State) (r : Requester) (a : Nat) (x : RegRow) (v : Word) : State :=
  let u := a / 0x100000
  if u % 0x100 = 1 ∧ u / 0x800 % 8 ≠ 7 then
    if (arrIdx a (rPmSel u 0) 8 8).isSome then writeSel s r a x v PmSel.bad pmCoreCode
    else if a = rPmSampleRing u then
      let s := writeRing s a (rPmSamplePtr u) x v
      { s with pmTrusted := mput false s.pmTrusted a (writerWorld s r) }
    else plainWrite s a x v
  else if (arrIdx a (rPmUsel u 0) 8 16).isSome then writeSel s r a x v PmUsel.bad (pmUncoreCode (uselStop (u / 0x4000) v))
  else plainWrite s a x v

/-- A training value: held until the rank's next refresh in the active set, at once in the other (R319). -/
def writeTrain (s : State) (c a : Nat) (x : RegRow) (v : Word) : State :=
  let o := a % 0x100000 - 0x10000
  if o / 0x10000 = s.getF (rMcFreqCtrl (mcUid c)) McFreqCtrl.active then
    updM s c (fun m => { m with heldTrain := m.heldTrain ++ [(o / 0x400 % 64, a, plainValue s a x v)] })
  else plainWrite s a x v

/-- Memory stops. -/
def writeMc (s : State) (c a : Nat) (x : RegRow) (v : Word) : State :=
  let u := mcUid c
  if a = rMcFreqCtrl u then writeFreqCtrl s c v
  else if a = rMcNrefP u then
    let s := plainWrite s a x v
    if fld v McNrefP.p = 0 then setupError s a 0 else s
  else if 0x10000 ≤ a % 0x100000 then writeTrain s c a x v
  else plainWrite s a x v

/-- CH_CMD_g: reserved bits set refuse the command; all zero is none (R367). -/
def writeChCmd (s : State) (r : Requester) (g : Nat) (v : Word) : State :=
  if v = 0 ∨ !mayCommand s r g then s
  else chanCommand s g (fld v ⟨2, 0⟩) (fld v ⟨63, 3⟩ == 0)

/-- Service-queue set-up changes only while en = 0, but for the write that clears en (R385). -/
def writeSq (s : State) (f q k : Nat) (x : RegRow) (a : Nat) (v : Word) : State :=
  let on := s.getB (rChSq0 (chUid f) q) ChSq0.en
  if k = 0 then
    (if on then (if fldB v ChSq0.en then s else s.putB a ChSq0.en false) else writeQueue0 s f q v)
  else if on then s
  else plainWrite s a x v

/-- A channel block. -/
def writeChan (s : State) (r : Requester) (f : Nat) (a : Nat) (x : RegRow) (v : Word) : State :=
  (arrIdx a (rChCmd (chUid f) 0) 8 8192).elim
    ((arrIdx a (rChSq0 (chUid f) 0) 8 1024).elim (plainWrite s a x v) (fun n => writeSq s f (n / 4) (n % 4) x a v))
    (fun g => writeChCmd s r g v)

/-- The port-wide and per-instance registers of a manager window, at their place in the port block (R403 to R410). -/
def writeWindow (s : State) (p o : Nat) (x : RegRow) (v : Word) : State :=
  let a := portUid p * 0x100000 + o
  let i := (o - 0x10000) / 0x100
  let k := o % 0x100
  if 0x14000 ≤ o then plainWrite s a x v
  else if k = 0x80 then
    let s := plainWrite s a x v
    let s := if fldB v HpMbxMgrCtrl.send then mgrSend s p i else s
    if fldB v HpMbxMgrCtrl.ack then mgrAck s p i else s
  else if k = 0x88 then
    let s := plainWrite s a x v
    if fld v HpInstMgmt.cmd = 0 then s else instCommand s p i (fld v HpInstMgmt.cmd) (fld v HpInstMgmt.drain)
  else if k = 0x98 then writeWlogBase s p i v
  else if k = 0xA0 then writeWlogPtr s p i v
  else if 0x40 ≤ k ∧ k < 0x80 then
    (if s.getB (rHpMbxMgrCtrl (portUid p) i) HpMbxMgrCtrl.out_full then s else plainWrite s a x v)
  else plainWrite s a x v

/-- A port block (R351, R354). -/
def writePort (s : State) (r : Requester) (p a : Nat) (x : RegRow) (v : Word) : State :=
  let u := portUid p
  if a = rHpPortCtrl u then
    let x := if r = .baseCamp then x else { x with rwl := 0 }
    let s := plainWrite s a x v
    let s := if fldB v HpPortCtrl.freeze && hostPortMode s p then portFreeze s p 5 else s
    if fldB v HpPortCtrl.release then releaseWrite s p else s
  else if 0x10000 ≤ a % 0x100000 then
    (if isManager s r p 1 && (decide (0x14000 ≤ a % 0x100000) || decide ((a % 0x100000 - 0x10000) / 0x100 < (getP s p).share)) then
       writeWindow s p (a % 0x100000) x v
     else s)
  else plainWrite s a x v

/-- A key engine block (R395): of the active group alone, commits and stages by their rules. -/
def writeKe (s : State) (r : Requester) (u a : Nat) (x : RegRow) (v : Word) : State :=
  if a = rKeUcodeStatus u then plainWrite s a x v
  else if !mayUcode s r u then s
  else
    match arrIdx a (rKeUcodeStage u 0) 8 8192 with
    | some w => ucodeStage s u w v
    | none => if a = rKeUcodeCtrl u then writeUcodeCtrl s u v else plainWrite s a x v

/-- The bridge (R424, R427). -/
def writeBridge (s : State) (a : Nat) (x : RegRow) (v : Word) : State :=
  if a = rNetFdbCmd then (if masterUp s then fdbOp s (fld v NetFdbCmd.op) v else s)
  else
    match arrIdx a (rNetVport0 0) 16 960 with
    | some _ =>
      if s.getB a NetVport0.en then (if fldB v NetVport0.en then s else s.putB a NetVport0.en false) else plainWrite s a x v
    | none => plainWrite s a x v

/-- The vault (R433, R435, R443 to R451). -/
def writeVault (s : State) (r : Requester) (a : Nat) (x : RegRow) (v : Word) : State :=
  if a = rVltWorldCmd then writeWorldCmd s r v
  else if a = rVltWatermark ∨ a = rVltTwCfg ∨ a = rVltSlotBase then (if r = .baseCamp then plainWrite s a x v else s)
  else if !mayVault s r then s
  else if a = rVltTwHb then { s with vault := { s.vault with lastBeat := s.time } }
  else if a = rVltSlotCmd then writeSlotCmd s v
  else if a = rVltMeasExtCmd then writeMeasExt s (fld v ⟨2, 0⟩)
  else if a = rVltCounterInc then incCounter s (fld v ⟨3, 0⟩)
  else if (arrIdx a (rVltMeasExt 0) 8 6).isSome then s.putR a v
  else plainWrite s a x v

/-- Block 0x3F10. -/
def writeBaseCamp (s : State) (r : Requester) (a : Nat) (wide : Bool) (x : RegRow) (v : Word) : State :=
  if a = rBcScratchCfg then writeScratchCfg s v
  else if a = rBcPkgPower then writePkgPower s r x v
  else if a = rBcLogRing then writeLogRing s x v
  else if a = rBcTwStage then writeTwStage s x v
  else
    match arrIdx a (rBcIrqSend 0) 64 384, arrIdx a (rBcPredCtrl 0) 64 384, arrIdx a (rBcThreadStart 0) 64 384 with
    | some t, _, _ => sendIrq s t (fld v ⟨5, 0⟩) (requesterUid s r)
    | _, some t, _ => writePredCtrl s (tidOf t) v
    | _, _, some t => writeThreadStart s r (tidOf t) (if wide then v else setFld v BcThreadStart.go 0)
    | _, _, _ =>
      match arrIdx a (rBcXlatRoot1 0) 32 384, arrIdx a (rBcXlatRoot2 0) 32 384 with
      | some t, _ => writeRoot s (tidOf t) false v
      | _, some t => writeRoot s (tidOf t) true v
      | _, _ => plainWrite s a x v

/-- A write that its owner-only rule admits, to a register of a block that answers. -/
def ctrlApply (s : State) (r : Requester) (a : Nat) (wide : Bool) (x : RegRow) (v : Word) : State :=
  let u := a / 0x100000
  if u = uidBaseCamp then writeBaseCamp s r a wide x v
  else if u = uidVault then writeVault s r a x v
  else
    match unitKind u with
    | .mem c => writeMc s c a x v
    | .core k =>
      if a = rCoreCheckInject u then writeCheckInject s k v
      else if a = rCoreCacheWays u then writeCacheWays s a v
      else plainWrite s a x v
    | .sheaf _ => if a = rShfBcLimits u then writeBcLimits s u x v else plainWrite s a x v
    | .slice i => if a = rTileL3Ways u then fixGeneral (plainWrite s a x v) i else plainWrite s a x v
    | .engine _ => writeKe s r u a x v
    | _ =>
      match (List.range 16).find? (fun p => portUid p == u), [0, 1, 2, 3].find? (fun f => chUid f == u) with
      | some p, _ => writePort s r p a x v
      | _, some f => writeChan s r f a x v
      | _, _ =>
        if u = 0x3E40 then writeBridge s a x v
        else if a = rDbgTraceRing then writeRing s a rDbgTracePtr x v
        else if u = uidDebug ∧ (arrIdx a (rDbgObsSel 0) 8 32).isSome ∧ !s.getB rDbgAccess DbgAccess.obs_en then s
        else if (u % 0x100 = 1 ∧ u / 0x800 % 8 ≠ 7) ∨ u % 0x100 = 2 then writePerf s r a x v
        else plainWrite s a x v

/-- A write of control space by base camp or a thread. -/
def ctrlWriteWord (s : State) (r : Requester) (a : Nat) (wide hi : Bool) (v : Word) : State :=
  match resolveCtrl s a with
  | none => s
  | some a =>
    if 0x1000000000 ≤ a then s
    else if !blockUp s (a / 0x100000) then s
    else
      match regRow a with
      | none => s
      | some x =>
        if !ownerOk s r x then s
        else
          let chan := (List.range 4).any (fun f => (arrIdx a (rChCmd (chUid f) 0) 8 8192).isSome)
          ctrlApply s r a wide x (if chan && !wide then halfWord 0 v hi else expand s a x wide hi v)

/-! ### A host's writes (R340, R341, R351) -/

def writeMsix (s : State) (p i v : Nat) (second wide hi : Bool) (d : Word) : State :=
  let w := if wide then d else halfWord (msixWord s p i v second) d hi
  let s := updP s p (fun x =>
    let e := mget MsixEnt.init (x.fn i).table v
    let e := if second then { e with data := BitVec.ofNat 32 w.toNat, mask := w.toNat.testBit 32 } else { e with addr := w &&& 0xFFFFFFFFFFFFFFFC }
    x.setFn i { x.fn i with table := mput MsixEnt.init (x.fn i).table v e })
  msixRelease s p i

/-- HP_MBX_CTRL: its fields, then send, then ack; the buffer takes writes while out_full = 0 (R404). -/
def bar0Write (s : State) (p i o : Nat) (wide hi : Bool) (v : Word) : State :=
  let a := bar0Base p i + o
  match regRow a with
  | some x =>
    if !(o == 0x1080 || (decide (0x1000 ≤ o) && decide (o < 0x1040))) then s
    else
      let d := expand s a x wide hi v
      if o = 0x1080 then
        let s := plainWrite s a x d
        let s := if fldB d HpMbxCtrl.send then mbxSend s p i else s
        if fldB d HpMbxCtrl.ack then mbxAck s p i else s
      else if s.getB (rHpMbxCtrl p i) HpMbxCtrl.out_full then s
      else plainWrite s a x d
  | none =>
    if 0x2000 ≤ o ∧ o < 0x6000 then
      (if i = 0 ∧ !mgrRes s p ∧ windowServes s p (o - 0x2000) then
         match regRow (windowAt p (o - 0x2000)) with
         | some x => writeWindow s p (windowAt p (o - 0x2000) % 0x100000) x (expand s (windowAt p (o - 0x2000)) x wide hi v)
         | none => s
       else s)
    else if 0x8000 ≤ o ∧ o < 0x8000 + 16 * vecCount (getP s p) then writeMsix s p i ((o - 0x8000) / 16) (o % 16 == 8) wide hi v
    else s

/-- BAR4: set-up words go to the table in memory, live words are discarded, and offset 0x78 commands the channel (R361, R367). -/
def bar4Write (s : State) (p o : Nat) (wide hi : Bool) (v : Word) : State :=
  if mgrRes s p then s
  else if o = 0x8010 then
    match regRow (rHpCplTo (portUid p)) with
    | some x => plainWrite s (rHpCplTo (portUid p)) x (expand s (rHpCplTo (portUid p)) x wide hi v)
    | none => s
  else if 0x8000 ≤ o then s
  else
    let g := 256 * p + o / 128
    let k := o % 128
    if k = 0x78 then writeChCmd s (.host (Fin.ofNat 16 p) 0) g (if wide then v else halfWord 0 v hi)
    else if 0x60 ≤ k then s
    else
      let pa := entryAddr s g + k
      if (physClass s pa).isMem then
        homeWrite s (if wide then pa else if hi then pa + 4 else pa) (toBytes (if wide then 8 else 4) v.toNat)
      else s

/-- A host's write to its own BARs; a frozen port and a function under reset discard it (R348, R351). -/
def hostCtrlWrite (s : State) (p i a : Nat) (wide hi : Bool) (v : Word) : State :=
  if !instWrites s p i then s
  else if bar0Base p i ≤ a ∧ a < bar0Base p i + 0x10000 then bar0Write s p i (a - bar0Base p i) wide hi v
  else if bar2Base p i ≤ a ∧ a < bar2Base p i + 0x4000 then
    let j := (a - bar2Base p i) / 64
    let n := 256 / (getP s p).share
    (if j < n then slotWrite s (256 * p + i * n + j) (a % 64 + (if hi then 4 else 0)) wide v else s)
  else if i = 0 ∧ bar4Base p ≤ a ∧ a < bar4Base p + 0x10000 then bar4Write s p (a - bar4Base p) wide hi v
  else s

/-- A naturally aligned write of 4 or 8 bytes. -/
def ctrlWrite (s : State) (r : Requester) (a : Nat) (wide : Bool) (v : Word) : State :=
  let hi := !wide && a % 8 == 4
  match r with
  | .host p i => hostCtrlWrite s p i (a / 8 * 8) wide hi v
  | _ => ctrlWriteWord s r (a / 8 * 8) wide hi v

/-- A write of a register; an access of another alignment has no effect here (R20, R341). -/
def execRegisterWrite (r : Requester) (a : BitVec 40) (wide : Bool) (v : Word) (s : State) : Host.Outcome State Fault Refusal :=
  .next (if a.toNat % (if wide then 8 else 4) = 0 then ctrlWrite s r a.toNat wide v else s)

end Sys2Proof.Machine
end

