-- ==== Sys2Proof/Machine/Access.lean ====
section
/-! DEFINITION. The accesses of an instruction: several checks in one pass (R149, R153), reads and writes wherever an address leads
(R16, R18, R192, R364), and accesses through a capability for control space (R141). -/

namespace Sys2Proof.Machine

/-! ### Order of causes -/

/-- The place of a capability cause in the order of R149. -/
def causeRank (c : Nat) : Nat := [0x1A, 0x10, 0x18, 0x11, 0x12, 0x16, 0x13, 0x14, 0x15, 0x17, 0x19].idxOf c

/-- One check of an instruction: its cause where it fails, the address it names, and the capability. -/
structure Chk where
  cause : Option Nat
  addr  : Option Word
  cap   : GReg
deriving DecidableEq, Repr

/-- The first cause of several checks made in one pass (R149, R150). -/
def worst (cs : List Chk) : Option (Nat × Chk) :=
  cs.foldl (fun o k =>
    match k.cause, o with
    | none, _ => o
    | some c, none => some (c, k)
    | some c, some (d, _) => if causeRank c < causeRank d then some (c, k) else o) none

def guardAll (s : State) (cs : List Chk) : R Unit :=
  match worst cs with
  | some (c, k) => faultAt s c k.addr k.cap
  | none => .ok ()

/-- A use over `n` bytes at an address, or at none where the address mode raised its bounds fault (R91); `ctrl` where a capability
for control space serves it. -/
def useAt (tw : Bool) (v : GReg) (perms : List Nat) (ctrl : Bool) (a : Option Word) (n : Nat) : Option Nat :=
  match useCause tw v with
  | some c => some c
  | none =>
    if !hasPerms v perms || (hasPerm v pCTRL && !ctrl) then some 0x12
    else
      match a with
      | none => some 0x13
      | some a => if inBounds v a.toNat n then none else some 0x13

/-! ### Two accesses -/

/-- Two accesses checked together: the first cause of R153 is reported. -/
def reach2 (s : State) (f g : State → R (Xl × State)) : R (Xl × Xl × State) :=
  match f s with
  | .ok (x, s1) =>
    (match g s1 with
     | .ok (y, s2) => .ok (x, y, s2)
     | .error e => .error e)
  | .error e =>
    match g s with
    | .error e2 => if classRank e2.1.cause < classRank e.1.cause then .error e2 else .error e
    | .ok _ => .error e

/-! ### Reads -/

/-- Read where a translation leads: bytes and the tag of their granule, or none while a host answers. -/
def loadAt (s : State) (t : Tid) (v : GReg) (a : Word) (x : Xl) (n k : Nat) : R (Option (List Byte × Bool) × State) :=
  match physClass s x.pa with
  | .hostAp p off =>
    (match hostRead s t v a p off n k x.ent with
     | .error e => .error e
     | .ok (bs, s) => .ok (bs.map (·, false), s))
  | .device off =>
    (match guardLost s t v a (x.pa / 64) with
     | .error e => .error e
     | .ok _ =>
     match slotChan off with
     | some g => .ok (some (toBytes n (readHalf (slotWord s g (off % 64 / 8 * 8)) off (n == 8)).toNat, false), s)
     | none => noTarget s a v x.pa)
  | _ =>
    let s := if x.se then drainPage s t x.sePage x.pa n else s
    match memRead s t v a x.pa n with
    | .error e => .error e
    | .ok r => .ok (some r, touch (missEvents (train s (coreOf s t) (hasPerm v pWORLD) x) t x 1 (some a.toNat) n) (coreOf s t) 1 x.pa n)

/-- A register read through a capability for control space (R20, R141). -/
def loadCtrl (s : State) (t : Tid) (v : GReg) (a : Word) (n : Nat) : R (List Byte) :=
  if (n = 4 ∨ n = 8) ∧ a.toNat % n = 0 then do
    guardLost s t v a (ctrlLine a.toNat)
    .ok (toBytes n (ctrlRead s (.thread t) a.toNat (n == 8)).toNat)
  else faultAt s 0x02 (some a) v

/-- A load whose capability checks have passed. -/
def loadBytes (s : State) (t : Tid) (v : GReg) (a : Word) (n : Nat) (strict : Bool) :
    R (Option (List Byte × Bool) × State) :=
  if hasPerm v pCTRL then
    match loadCtrl s t v a n with
    | .error e => .error e
    | .ok bs => .ok (some (bs, false), s)
  else
    match reach s t .load v a n strict false with
    | .error e => .error e
    | .ok (x, s) => loadAt s t v a x n 0

/-! ### Writes -/

/-- Write where a translation leads. A store to memory joins the store queue; one to a host or a doorbell is made at once, after
what must precede it (R192, R275, R278). -/
def storeAt (s : State) (t : Tid) (v : GReg) (a : Word) (x : Xl) (bs : List Byte) (tag : Option Bool) (rel : Bool) :
    R State :=
  match physClass s x.pa with
  | .hostAp p off => .ok (hostStore (drainBefore s t x.pa bs.length rel) t p off bs)
  | .device off =>
    (match slotChan off with
     | some g => .ok (slotWrite (drainBefore s t x.pa bs.length rel) g (off % 64) (bs.length == 8)
         (BitVec.ofNat 64 (ofBytes bs)))
     | none => noTarget s a v x.pa)
  | _ => memWrite s t v a x bs tag rel

/-- A register write through a capability for control space (R20, R141); only FENCE kind 4 orders it against memory (R278). -/
def storeCtrl (s : State) (t : Tid) (v : GReg) (a : Word) (bs : List Byte) : R State :=
  let n := bs.length
  if (n = 4 ∨ n = 8) ∧ a.toNat % n = 0 then
    .ok (ctrlWrite s (.thread t) a.toNat (n == 8) (BitVec.ofNat 64 (ofBytes bs)))
  else faultAt s 0x02 (some a) v

/-- A store whose capability checks have passed; `tag` is given for a capability store. -/
def storeBytes (s : State) (t : Tid) (v : GReg) (a : Word) (bs : List Byte) (strict : Bool) (tag : Option Bool) (rel : Bool) :
    R State :=
  if hasPerm v pCTRL then storeCtrl s t v a bs
  else
    match reachStore s t v a bs.length strict (tag == some true) with
    | .error e => .error e
    | .ok (x, s) => storeAt s t v a x bs tag rel

end Sys2Proof.Machine
end

