-- ==== Sys2Proof/Machine/SysOps.lean ====
section
/-! DEFINITION. Thread registers (R86 to R88), time and features (R41, R105), fences and barriers (R116 to R119), and TLB
invalidation (R233, R234). -/

namespace Sys2Proof.Machine

/-! ### Thread registers -/

/-- VTID (R88). -/
def vtidW (s : State) (t : Tid) : Word :=
  BitVec.ofNat 64 (ofBool (trusted s t) * 2 ^ 15 + ofBool (soloThread s t) * 2 ^ 14 + t.val)

/-- A thread register as RDTR reads it (R86). -/
def threadReg (s : State) (t : Tid) (n : Nat) : Option GReg :=
  let x := getT s t
  match n with
  | 0 => some x.pcc
  | 1 => some x.wstack
  | 2 => some x.fstack
  | 3 => some x.fgate
  | 4 => some x.gatetab
  | 5 => some (GReg.ofInt x.wstate)
  | 6 => some (GReg.ofInt x.tctrl)
  | 7 => some (GReg.ofInt x.tstatus)
  | 8 => some (GReg.ofInt (vtidW s t))
  | _ => none

def execRdtr (t : Tid) (rd ra rb : RegNo) (fn : BitVec 10) (s : State) : Host.Outcome State Fault Refusal :=
  instrNext s t [wREG 0x59 rd ra rb fn] (fun s =>
    let s := useRegs s t [rd]
    match (if fn.toNat < 16 ∧ ra = 0 ∧ rb = 0 then threadReg s t fn.toNat else none) with
    | none => illegal s
    | some g => .ok (updT s t (fun x => x.setGreg rd g)))

/-- The authority word of a thread register (R87). -/
def tauthAddr (t : Tid) (n : Nat) : Nat := 0x3F1010000 + 0x40 * t.val + 8 * n

/-- A WRTR, a report point (R165, R168): its reserved fields, its authority (R87), then the world of the value (R138). Registers 5 and up,
TCTRL and TSTATUS among them, take a 64-bit value and hold no capability: writing a tagged value there is no installation, and raises no
0x18 (DESIGN CHOICE, notes/assumptions/59.md). -/
def wrtr (s : State) (t : Tid) (n : Nat) (auth : Bool) (rd ra rb : RegNo) (rsv : BitVec 6)
    (f : State → GReg → R State) : Host.Outcome State Fault Refusal :=
  atReportPoint s t (fun s => instrNext s t [wREG 0x5A rd ra rb (rsv ++ BitVec.ofNat 4 n)] (fun s => do
    if rsv ≠ 0 ∨ rd ≠ 0 ∨ (!auth ∧ rb ≠ 0) then illegal s
    else
      let s := useRegs s t (if auth then [ra, rb] else [ra])
      let x := getT s t
      let v := x.greg ra
      let au := x.greg rb
      if auth then guardCap s none au (authorityCause (trusted s t) au (tauthAddr t n))
      if v.tag && hasPerm v pWORLD && !trusted s t && n ≤ 4 then faultAt s 0x18 none v
      else f s v))

/-- What WRTR to WSTACK asks of the value (R84). -/
def wstackCause (v : GReg) : Option Nat :=
  if !v.tag then some 0x10 else if capOtype v ≠ 0 then some 0x11 else if !hasPerms v stackPerms then some 0x12 else none

def execWrtrWstack (t : Tid) (rd ra rb : RegNo) (rsv : BitVec 6) (s : State) :=
  wrtr s t 1 false rd ra rb rsv (fun s v => do
    guardCap s none v (wstackCause v)
    replaceWstack s t v)
def execWrtrFstack (t : Tid) (rd ra rb : RegNo) (rsv : BitVec 6) (s : State) :=
  wrtr s t 2 true rd ra rb rsv (fun s v => .ok (updT s t (fun x => { x with fstack := v })))
def execWrtrFgate (t : Tid) (rd ra rb : RegNo) (rsv : BitVec 6) (s : State) :=
  wrtr s t 3 true rd ra rb rsv (fun s v => .ok (updT s t (fun x => { x with fgate := v })))
def execWrtrGatetab (t : Tid) (rd ra rb : RegNo) (rsv : BitVec 6) (s : State) :=
  wrtr s t 4 true rd ra rb rsv (fun s v => .ok (updT s t (fun x => { x with gatetab := v })))
/-- The writable fields of TCTRL: fp_en, rm, ov_en, dz_en, precise_arith (R88). -/
def tctrlMask : Word := 0xFE7
/-- The fields of TSTATUS cleared by writing one (R88). -/
def tstatusMask : Word := 0x3E7
def execWrtrTctrl (t : Tid) (rd ra rb : RegNo) (rsv : BitVec 6) (s : State) :=
  wrtr s t 6 false rd ra rb rsv (fun s v => .ok (updT s t (fun x => { x with tctrl := v.int &&& tctrlMask })))
def execWrtrTstatus (t : Tid) (rd ra rb : RegNo) (rsv : BitVec 6) (s : State) :=
  wrtr s t 7 false rd ra rb rsv (fun s v =>
    .ok (updT s t (fun x => { x with tstatus := x.tstatus &&& ~~~(v.int &&& tstatusMask) })))

/-! ### Time and features -/

def execRdtime (t : Tid) (rd : RegNo) (s : State) : Host.Outcome State Fault Refusal :=
  instrNext s t [wREG 0x5B rd 0 0 0] (fun s =>
    .ok (putInt (useRegs s t [rd]) t rd (BitVec.ofNat 64 s.time)))

/-- PX_FEATURES word 0 (R105). -/
def featureW (s : State) : Word :=
  BitVec.ofNat 64 (0x03 * 2 ^ 48 + s.getF rBcFuseId BcFuseId.impl_step * 2 ^ 32 + 0xFFFF)

def execFeat (t : Tid) (limm : Limm) (rd ra : RegNo) (imm : BitVec 15) (s : State) : Host.Outcome State Fault Refusal :=
  instrNext s t (wGroup limm (wIMM 0x5C rd ra imm)) (fun s =>
    if !limm.isEmpty ∨ ra ≠ 0 then illegal s
    else .ok (putInt (useRegs s t [rd]) t rd (if imm = 0 then featureW s else 0)))

/-! ### Fences and barriers (R116 to R119): loads are performed when they execute, so what a fence orders is the store queue -/

/-- Later stores wait for earlier ones. -/
def bumpEpoch (s : State) (t : Tid) : State := updT s t (fun x => { x with epoch := x.epoch + 1 })

def execFenceFull (t : Tid) (s : State) := instrNext s t [wREG 0x46 0 0 0 0] (fun s => .ok (drainAll s t))
def execFenceAcq (t : Tid) (s : State) := instrNext s t [wREG 0x46 0 0 0 1] (fun s => .ok s)
def execFenceRel (t : Tid) (s : State) := instrNext s t [wREG 0x46 0 0 0 2] (fun s => .ok (bumpEpoch s t))
def execFenceSs (t : Tid) (s : State) := instrNext s t [wREG 0x46 0 0 0 3] (fun s => .ok (bumpEpoch s t))
def execFenceIo (t : Tid) (s : State) := instrNext s t [wREG 0x46 0 0 0 4] (fun s => .ok (drainAll s t))
def execIsync (t : Tid) (s : State) := instrNext s t [wREG 0x49 0 0 0 0] (fun s => .ok s)
def execAbar (t : Tid) (s : State) : Host.Outcome State Fault Refusal :=
  atReportPoint s t (fun s => instrNext s t [wREG 0x4A 0 0 0 0] (fun s => .ok s))

/-- The line a PRF names, asked for where its capability, its translation and its place allow (R190, R192, R244, R437); the base is
written as its mode says (R90) where the capability's checks pass (R91, R92). -/
def prefetchLine (s : State) (t : Tid) (am : BitVec 3) (ra : RegNo) (imm : BitVec 12) : State :=
  let s := useRegs s t [ra]
  let v := (getT s t).greg ra
  match effAddr am.toNat (boundsOf v).1 (boundsOf v).2 v.int (imm.signExtend 64) with
  | none => s
  | some (a, wb) =>
    if (dataCause (trusted s t) v [pLOAD] a.toNat 1).isSome then s
    else
    let s := match xlate 4 s t .load a.toNat with
      | .error _ => s
      | .ok (x, s) => prefetchAt s t (hasPerm v pWORLD) x
    match wb with
    | none => s
    | some c => updT s t (fun x =>
        x.setGreg ra (if am = 5 ∨ am = 6 then (x.greg ra).setCursor c else moveCursor (x.greg ra) c))

/-- A prefetch hint never faults, but for the modes that MEM format has not (R99, R103, R194, R244). -/
def execPrf (t : Tid) (ra : RegNo) (am : BitVec 3) (imm : BitVec 12) (s : State) :=
  instrNext s t [wMEM 0x4C 0 ra am imm] (fun s =>
    if am = 3 ∨ am = 7 then illegal s else .ok (prefetchLine s t am ra imm))

/-! ### TLBI (R233, R234) -/

/-- Remove what a kind selects from a core's TLBs and walk cache. -/
def tlbiCore (c : Core) (kind vmid a b : Nat) : Core :=
  { c.keepTlb (fun e => !tlbiHits kind vmid a b e) with
           walks := c.walks.filter (fun w => !tlbiWalkHits kind vmid a b w) }

def tlbiEngine (c : XCache) (kind vmid a b : Nat) : XCache :=
  { tlb := c.tlb.filter (fun e => !tlbiHits kind vmid a b e)
    walks := c.walks.filter (fun w => !tlbiWalkHits kind vmid a b w) }

/-- Within the scope: this core, or every core and engine stop (R233). -/
def tlbiAll (s : State) (t : Tid) (pkg : Bool) (kind vmid a b : Nat) : State :=
  if pkg then
    let s := (s.cores.map (·.1)).foldl (fun s k => updC s k (fun c => tlbiCore c kind vmid a b)) s
    { s with engXlat := [0, 1, 2, 3].foldl (fun m f =>
        mput XCache.init m f (tlbiEngine (mget XCache.init m f) kind vmid a b)) s.engXlat }
  else updC s (coreOf s t) (fun c => tlbiCore c kind vmid a b)

/-- The threads a SYNC concerns (R233, R234): those of this core, or every one where it or an earlier TLBI of the thread is broadcast. -/
def syncScope (s : State) (t : Tid) (pkg : Bool) : List Tid :=
  if pkg || (getT s t).tlbiWide then s.threads.map (fun e => tidOf e.1) else [t, sibling t]

/-- Every access in the scope that may have used a removed entry is performed (R234): no other thread waits for a host, and in the
package no descriptor of a resident channel does, and no core that is spared still holds its checked stores (R209, R239). -/
def syncClear (s : State) (t : Tid) (pkg : Bool) : Bool :=
  (syncScope s t pkg).all (fun u => u == t || (getT s u).hostWait.isNone && (getT s u).fillWait.isNone) &&
    (!(pkg || (getT s t).tlbiWide) || (s.chans.all (fun e => e.1 < 4096 || e.2.flight.all (fun d => d.waits == 0)) &&
      s.sparings.all (fun q => q.captured)))

/-- The stores of the scope leave their queues. -/
def syncDrain (s : State) (t : Tid) (pkg : Bool) : State := (syncScope s t pkg).foldl drainAll s

/-- A TLBI: reserved bits, the authority operand (R142), then the removal, which takes effect at once in its scope. -/
def tlbi (s : State) (t : Tid) (kind : Nat) (rd ra rb : RegNo) (pkg : Bool) (rsv : BitVec 5) :
    Host.Outcome State Fault Refusal :=
  instrNext s t [wREG 0x5D rd ra rb (rsv ++ BitVec.ofBool pkg ++ BitVec.ofNat 4 kind)] (fun s => do
    if rsv ≠ 0 then illegal s
    else
      let s := useRegs s t [rd, ra, rb]
      let x := getT s t
      let au := x.greg rd
      let word := if 4 ≤ kind ∧ kind ≤ 6 then rBcXlatRoot2 t.val else rBcXlatRoot1 t.val
      guardCap s none au (authorityCause (trusted s t) au word)
      -- the stores before it are performed first, so that no walk finds again what it removes (R235)
      let s := drainAll s t
      if kind = 8 then .ok (updT (syncDrain s t pkg) t (fun x => { x with tlbiWide := false }))
      else .ok (updT (tlbiAll s t pkg kind (xctx s t).vmid (x.int ra).toNat (x.int rb).toNat) t (fun x => { x with
        tlbiWide := x.tlbiWide || pkg })))

def execTlbiVaAsid (t : Tid) (rd ra rb : RegNo) (pkg : Bool) (rsv : BitVec 5) (s : State) := tlbi s t 0 rd ra rb pkg rsv
def execTlbiVa (t : Tid) (rd ra rb : RegNo) (pkg : Bool) (rsv : BitVec 5) (s : State) := tlbi s t 1 rd ra rb pkg rsv
def execTlbiAsid (t : Tid) (rd ra rb : RegNo) (pkg : Bool) (rsv : BitVec 5) (s : State) := tlbi s t 2 rd ra rb pkg rsv
def execTlbiVmidCurrent (t : Tid) (rd ra rb : RegNo) (pkg : Bool) (rsv : BitVec 5) (s : State) :=
  tlbi s t 3 rd ra rb pkg rsv
def execTlbiIpa (t : Tid) (rd ra rb : RegNo) (pkg : Bool) (rsv : BitVec 5) (s : State) := tlbi s t 4 rd ra rb pkg rsv
def execTlbiVmid (t : Tid) (rd ra rb : RegNo) (pkg : Bool) (rsv : BitVec 5) (s : State) := tlbi s t 5 rd ra rb pkg rsv
def execTlbiAll (t : Tid) (rd ra rb : RegNo) (pkg : Bool) (rsv : BitVec 5) (s : State) := tlbi s t 6 rd ra rb pkg rsv

/-- A SYNC completes once nothing in its scope is left to be performed (R234); until then it waits. One that faults does not wait. -/
def execTlbiSync (t : Tid) (rd ra rb : RegNo) (pkg : Bool) (rsv : BitVec 5) (s : State) : Host.Outcome State Fault Refusal :=
  if rsv = 0 ∧ (authorityCause (trusted s t) ((getT (useRegs s t [rd]) t).greg rd) (rBcXlatRoot1 t.val)).isNone ∧
      !syncClear s t pkg then .next s
  else tlbi s t 8 rd ra rb pkg rsv

end Sys2Proof.Machine
end

