-- ==== Sys2Proof/Machine/MemOps.lean ====
section
/-! DEFINITION. Loads and stores (R90 to R94, R99, R103), load-acquire and store-release (R117), and cache maintenance (R246,
R247). -/

namespace Sys2Proof.Machine

/-- What a load makes of its bytes. -/
inductive LdKind where
  | sext (n : Nat) | zext (n : Nat) | cap | vec
deriving DecidableEq, Repr

def LdKind.size : LdKind → Nat
  | .sext n => n
  | .zext n => n
  | .cap => 16
  | .vec => 32

/-- What a store takes its bytes from. -/
inductive StKind where
  | int (n : Nat) | cap | vec
deriving DecidableEq, Repr

/-- Write a load's destination (R68, R85, R103, R136). -/
def putLoad (s : State) (t : Tid) (v : GReg) (k : LdKind) (rd : RegNo) (bs : List Byte) (g : Bool) : State :=
  match k with
  | .sext n => putInt s t rd (BitVec.ofInt 64 (sextNat (8 * n) (ofBytes bs)))
  | .zext _ => putInt s t rd (BitVec.ofNat 64 (ofBytes bs))
  | .cap => updT s t (fun x => x.setGreg rd (tagSeen s t v (BitVec.ofNat 128 (ofBytes bs)) g))
  | .vec => updT s t (fun x => x.setVec rd (BitVec.ofNat 256 (ofBytes bs)))

/-- Bytes of a store, and for a capability store the tag (R68, R85). -/
def storeValue (x : Thread) (k : StKind) (rd : RegNo) : List Byte × Option Bool :=
  match k with
  | .int n => (toBytes n (x.int rd).toNat, none)
  | .cap => (toBytes 16 (x.greg rd).data.toNat, some (x.greg rd).tag)
  | .vec => (toBytes 32 (x.vec rd).toNat, none)

/-- Long operations that write the data register complete first (R169). -/
def useData (s : State) (t : Tid) (vec : Bool) (rd : RegNo) : State :=
  if vec then updT s t (fun x => settle x (.vector rd.toNat)) else useRegs s t [rd]

/-- The base's cursor after the access (R90, R92): the modulo modes keep the tag. -/
def baseBack (s : State) (t : Tid) (am : Nat) (ra : RegNo) (wb : Option Word) : State :=
  match wb with
  | none => s
  | some c => updT s t (fun x =>
      let v := x.greg ra
      x.setGreg ra (if am = 5 ∨ am = 6 then v.setCursor c else moveCursor v c))

/-- The mode writes its base (R90). -/
def amWrites (am : Nat) : Bool := am = 1 || am = 2 || am = 5 || am = 6

/-- A load: reserved forms and R93, the checks in order, the access, then the destination and the base. -/
def loadOp (s : State) (t : Tid) (words : List (BitVec 32)) (k : LdKind) (rd ra : RegNo) (more : List RegNo) (bad : Bool)
    (am : Nat) (disp : Thread → Word) : Host.Outcome State Fault Refusal :=
  instrNext s t words (fun s =>
    if bad || (amWrites am && k != .vec && rd == ra) then illegal s
    else do
      let s := useRegs (useData s t (k == .vec) rd) t (ra :: more)
      let x := getT s t
      let v := x.greg ra
      let ea := effAddr am (boundsOf v).1 (boundsOf v).2 v.int (disp x)
      let a := ((ea.map (·.1)).getD 0)
      guardCap s (ea.map (·.1)) v (useAt (trusted s t) v [pLOAD] (k != .vec) (ea.map (·.1)) k.size)
      let (r, s) ← loadBytes s t v a k.size (k == .cap)
      match r with
      | none => .ok s
      | some (bs, g) => .ok (putLoad (baseBack s t am ra (ea.bind (·.2))) t v k rd bs g))

/-- What a store of this register needs of its capability (R133, R137). -/
def storePerms (tag : Option Bool) : List Nat := if tag = some true then [pSTORE, pSTORECAP] else [pSTORE]

/-- The GLOBAL rule of a capability store (R137). -/
def localCause (auth v : GReg) (tag : Option Bool) : Option Nat :=
  if tag = some true ∧ !hasPerm v pGLOBAL ∧ hasPerm auth pGLOBAL then some 0x17 else none

/-- A store: reserved forms, the checks in order, the access, then the base. -/
def storeOp (s : State) (t : Tid) (words : List (BitVec 32)) (k : StKind) (rd ra : RegNo) (more : List RegNo) (bad : Bool)
    (am : Nat) (disp : Thread → Word) : Host.Outcome State Fault Refusal :=
  instrNext s t words (fun s =>
    if bad then illegal s
    else do
      let s := useRegs (useData s t (k == .vec) rd) t (ra :: more)
      let x := getT s t
      let v := x.greg ra
      let (bs, tag) := storeValue x k rd
      let ea := effAddr am (boundsOf v).1 (boundsOf v).2 v.int (disp x)
      let a := ((ea.map (·.1)).getD 0)
      guardCap s (ea.map (·.1)) v (useAt (trusted s t) v (storePerms tag) (k != .vec) (ea.map (·.1)) bs.length)
      guardCap s (some a) v (localCause v (x.greg rd) tag)
      let s ← storeBytes s t v a bs (k == .cap) tag false
      .ok (baseBack s t am ra (ea.bind (·.2))))

/-- The displacement of format MEM; am 3 and 7 are not its modes (R99). -/
def memLoad (s : State) (t : Tid) (op : Nat) (k : LdKind) (rd ra : RegNo) (am : BitVec 3) (imm : BitVec 12) :=
  loadOp s t [wMEM op rd ra am imm] k rd ra [] (am == 3 || am == 7) am.toNat (fun _ => imm.signExtend 64)

def memStore (s : State) (t : Tid) (op : Nat) (k : StKind) (rd ra : RegNo) (am : BitVec 3) (imm : BitVec 12) :=
  storeOp s t [wMEM op rd ra am imm] k rd ra [] (am == 3 || am == 7) am.toNat (fun _ => imm.signExtend 64)

/-- Reserved values of format MIX (R90, R103). -/
def mixBad (sh : BitVec 3) (w : BitVec 5) : Bool := decide (5 ≤ sh.toNat) || decide (25 ≤ w.toNat)
def mixMode (m : Bool) : Nat := if m then 7 else 3

def mixLoad (s : State) (t : Tid) (op : Nat) (k : LdKind) (rd ra rb : RegNo) (sh : BitVec 3) (w : BitVec 5) (m x : Bool)
    (xr : Bool) :=
  loadOp s t [wMIX op rd ra rb sh w m x] k rd ra [rb] (mixBad sh w || (xr && x)) (mixMode m)
    (fun y => indexDisp (y.int rb) sh w)

def mixStore (s : State) (t : Tid) (op : Nat) (k : StKind) (rd ra rb : RegNo) (sh : BitVec 3) (w : BitVec 5) (m x : Bool) :=
  storeOp s t [wMIX op rd ra rb sh w m x] k rd ra [rb] (mixBad sh w || x) (mixMode m) (fun y => indexDisp (y.int rb) sh w)

/-- The extension that bit x selects (R103). -/
def ldx (n : Nat) (x : Bool) : LdKind := if x then .zext n else .sext n

def execLdB (t : Tid) (rd ra : RegNo) (am : BitVec 3) (imm : BitVec 12) (s : State) := memLoad s t 0x28 (.sext 1) rd ra am imm
def execLdBu (t : Tid) (rd ra : RegNo) (am : BitVec 3) (imm : BitVec 12) (s : State) := memLoad s t 0x29 (.zext 1) rd ra am imm
def execLdH (t : Tid) (rd ra : RegNo) (am : BitVec 3) (imm : BitVec 12) (s : State) := memLoad s t 0x2A (.sext 2) rd ra am imm
def execLdHu (t : Tid) (rd ra : RegNo) (am : BitVec 3) (imm : BitVec 12) (s : State) := memLoad s t 0x2B (.zext 2) rd ra am imm
def execLdW (t : Tid) (rd ra : RegNo) (am : BitVec 3) (imm : BitVec 12) (s : State) := memLoad s t 0x2C (.sext 4) rd ra am imm
def execLdWu (t : Tid) (rd ra : RegNo) (am : BitVec 3) (imm : BitVec 12) (s : State) := memLoad s t 0x2D (.zext 4) rd ra am imm
def execLdD (t : Tid) (rd ra : RegNo) (am : BitVec 3) (imm : BitVec 12) (s : State) := memLoad s t 0x2E (.zext 8) rd ra am imm
def execLdC (t : Tid) (rd ra : RegNo) (am : BitVec 3) (imm : BitVec 12) (s : State) := memLoad s t 0x2F .cap rd ra am imm
def execLdV (t : Tid) (rd ra : RegNo) (am : BitVec 3) (imm : BitVec 12) (s : State) := memLoad s t 0x35 .vec rd ra am imm
def execStB (t : Tid) (rd ra : RegNo) (am : BitVec 3) (imm : BitVec 12) (s : State) := memStore s t 0x30 (.int 1) rd ra am imm
def execStH (t : Tid) (rd ra : RegNo) (am : BitVec 3) (imm : BitVec 12) (s : State) := memStore s t 0x31 (.int 2) rd ra am imm
def execStW (t : Tid) (rd ra : RegNo) (am : BitVec 3) (imm : BitVec 12) (s : State) := memStore s t 0x32 (.int 4) rd ra am imm
def execStD (t : Tid) (rd ra : RegNo) (am : BitVec 3) (imm : BitVec 12) (s : State) := memStore s t 0x33 (.int 8) rd ra am imm
def execStC (t : Tid) (rd ra : RegNo) (am : BitVec 3) (imm : BitVec 12) (s : State) := memStore s t 0x34 .cap rd ra am imm
def execStV (t : Tid) (rd ra : RegNo) (am : BitVec 3) (imm : BitVec 12) (s : State) := memStore s t 0x36 .vec rd ra am imm

def execLdxB (t : Tid) (rd ra rb : RegNo) (sh : BitVec 3) (w : BitVec 5) (m x : Bool) (s : State) :=
  mixLoad s t 0x38 (ldx 1 x) rd ra rb sh w m x false
def execLdxH (t : Tid) (rd ra rb : RegNo) (sh : BitVec 3) (w : BitVec 5) (m x : Bool) (s : State) :=
  mixLoad s t 0x39 (ldx 2 x) rd ra rb sh w m x false
def execLdxW (t : Tid) (rd ra rb : RegNo) (sh : BitVec 3) (w : BitVec 5) (m x : Bool) (s : State) :=
  mixLoad s t 0x3A (ldx 4 x) rd ra rb sh w m x false
def execLdxD (t : Tid) (rd ra rb : RegNo) (sh : BitVec 3) (w : BitVec 5) (m x : Bool) (s : State) :=
  mixLoad s t 0x3B (.zext 8) rd ra rb sh w m x true
def execLdxC (t : Tid) (rd ra rb : RegNo) (sh : BitVec 3) (w : BitVec 5) (m x : Bool) (s : State) :=
  mixLoad s t 0x3C .cap rd ra rb sh w m x true
def execLdxV (t : Tid) (rd ra rb : RegNo) (sh : BitVec 3) (w : BitVec 5) (m x : Bool) (s : State) :=
  mixLoad s t 0x3D .vec rd ra rb sh w m x true
def execStxB (t : Tid) (rd ra rb : RegNo) (sh : BitVec 3) (w : BitVec 5) (m x : Bool) (s : State) :=
  mixStore s t 0x3E (.int 1) rd ra rb sh w m x
def execStxH (t : Tid) (rd ra rb : RegNo) (sh : BitVec 3) (w : BitVec 5) (m x : Bool) (s : State) :=
  mixStore s t 0x3F (.int 2) rd ra rb sh w m x
def execStxW (t : Tid) (rd ra rb : RegNo) (sh : BitVec 3) (w : BitVec 5) (m x : Bool) (s : State) :=
  mixStore s t 0x40 (.int 4) rd ra rb sh w m x
def execStxD (t : Tid) (rd ra rb : RegNo) (sh : BitVec 3) (w : BitVec 5) (m x : Bool) (s : State) :=
  mixStore s t 0x41 (.int 8) rd ra rb sh w m x
def execStxC (t : Tid) (rd ra rb : RegNo) (sh : BitVec 3) (w : BitVec 5) (m x : Bool) (s : State) :=
  mixStore s t 0x42 .cap rd ra rb sh w m x
def execStxV (t : Tid) (rd ra rb : RegNo) (sh : BitVec 3) (w : BitVec 5) (m x : Bool) (s : State) :=
  mixStore s t 0x43 .vec rd ra rb sh w m x

/-! ### LDA and STREL (R117) -/

def execLda (t : Tid) (rd ra : RegNo) (size : BitVec 3) (rsv : BitVec 7) (s : State) : Host.Outcome State Fault Refusal :=
  instrNext s t [wREG 0x47 rd ra 0 (rsv ++ size)] (fun s =>
    if rsv ≠ 0 ∨ 5 ≤ size.toNat then illegal s
    else do
      let k := if size = 4 then LdKind.cap else .zext (2 ^ size.toNat)
      let s := useRegs s t [rd, ra]
      let v := (getT s t).greg ra
      guardCap s (some v.int) v (useAt (trusted s t) v [pLOAD] true (some v.int) k.size)
      -- an earlier STREL comes first (R275, rule 5)
      let (r, s) ← loadBytes (drainRel s t) t v v.int k.size true
      match r with
      | none => .ok s
      | some (bs, g) => .ok (putLoad s t v k rd bs g))

def execStrel (t : Tid) (rd ra : RegNo) (size : BitVec 3) (rsv : BitVec 7) (s : State) : Host.Outcome State Fault Refusal :=
  instrNext s t [wREG 0x48 rd ra 0 (rsv ++ size)] (fun s =>
    if rsv ≠ 0 ∨ 5 ≤ size.toNat then illegal s
    else do
      let k := if size = 4 then StKind.cap else .int (2 ^ size.toNat)
      let s := useRegs s t [rd, ra]
      let x := getT s t
      let v := x.greg ra
      let (bs, tag) := storeValue x k rd
      guardCap s (some v.int) v (useAt (trusted s t) v (storePerms tag) true (some v.int) bs.length)
      guardCap s (some v.int) v (localCause v (x.greg rd) tag)
      storeBytes s t v v.int bs true tag true)

/-! ### CMO (R246, R247) -/

/-- The queue entry of a CMO on a line. -/
def cmoEntry (s : State) (t : Tid) (k : SqKind) (v : GReg) (x : Xl) : StoreEnt where
  kind := k
  pa := x.pa / 64 * 64
  bytes := []
  tag := none
  world := hasPerm v pWORLD
  epoch := (getT s t).epoch
  rel := false
  cached := x.cached && !x.se
  se := x.sePage

/-- ZERO on an SE page: eight 8-byte stores in ascending order (R247). -/
def zeroEight (s : State) (t : Tid) (v : GReg) (a : Word) (x : Xl) : List Nat → R State
  | [] => .ok s
  | i :: is =>
    match storeAt s t v (a + BitVec.ofNat 64 (8 * i)) { x with pa := x.pa + 8 * i } (toBytes 8 0) none false with
    | .error e => .error e
    | .ok s => zeroEight s t v a x is

/-- What a CMO whose checks have passed does once retired. CLEAN and FLUSH of an uncached line, or of one that no cache of the G9
holds, do nothing beyond their order. -/
def cmoAct (s : State) (t : Tid) (k : SqKind) (v : GReg) (a : Word) (x : Xl) : R State :=
  let line : Xl := { x with pa := x.pa / 64 * 64 }
  match physClass s x.pa with
  | .none => noTarget s a v x.pa
  | .device _ => if k == .zero then zeroEight s t v a line [0, 1, 2, 3, 4, 5, 6, 7] else .ok s
  | .hostAp _ _ =>
    if k == .zero then
      (if x.se then zeroEight s t v a line [0, 1, 2, 3, 4, 5, 6, 7] else storeAt s t v a line (toBytes 64 0) none false)
    else .ok s
  | _ =>
    if k == .zero && x.se then zeroEight s t v a line [0, 1, 2, 3, 4, 5, 6, 7]
    else if k != .zero && (x.se || !x.cached) then .ok s
    else .ok (pushStore s t (cmoEntry s t k v x))

def cmo (s : State) (t : Tid) (kind : Nat) (k : SqKind) (perms : List Nat) (xk : XKind) (ra : RegNo) (am : BitVec 3)
    (imm : BitVec 12) : Host.Outcome State Fault Refusal :=
  instrNext s t [wMEM 0x4B (BitVec.ofNat 5 kind) ra am imm] (fun s =>
    if am ≠ 0 then illegal s
    else do
      let s := useRegs s t [ra]
      let v := (getT s t).greg ra
      let b := v.int + imm.signExtend 64
      let zero := k == .zero
      let a := if zero then b &&& 0xFFFFFFFFFFFFFFC0 else b
      guardCap s (some a) v (useAt (trusted s t) v perms false (some a) (if zero then 64 else 1))
      let (x, s) ← translate s t xk a v
      -- a ZERO is a store, and sets d as one (R230, R247)
      let (x, s) ← (if zero then settleDirty (fun s => translate s t xk a v) t v a 4 s x else .ok (x, s))
      cmoAct s t k v a x)

def execCmoClean (t : Tid) (ra : RegNo) (am : BitVec 3) (imm : BitVec 12) (s : State) :=
  cmo s t 0 .clean [pLOAD] .load ra am imm
def execCmoFlush (t : Tid) (ra : RegNo) (am : BitVec 3) (imm : BitVec 12) (s : State) :=
  cmo s t 1 .flush [pLOAD, pSTORE] .store ra am imm
def execCmoZero (t : Tid) (ra : RegNo) (am : BitVec 3) (imm : BitVec 12) (s : State) :=
  cmo s t 2 .zero [pSTORE] .store ra am imm

end Sys2Proof.Machine
end

