-- ==== Sys2Proof/Machine/Atomics.lean ====
section
/-! DEFINITION. Atomics (R113 to R115, R271, R272): performed at once, at the place R271 names. -/

namespace Sys2Proof.Machine

/-- What an atomic makes of the old value as loaded: what it writes and the tag written, or nothing written. -/
abbrev AmoF := GReg → Option (Quad × Bool)

/-- An atomic where a translation leads, in `n` bytes: the old value, the line left where R272 says, and the write. `again` walks
anew where the update of a d bit loses its compare (R231). -/
def amoMem (s : State) (t : Tid) (v : GReg) (a : Word) (x : Xl) (n : Nat) (f : AmoF)
    (again : State → R (Xl × State)) : R (GReg × State) :=
  let s := (linesOf x.pa n).foldl finishLine s
  match memRead s t v a x.pa n with
  | .error e => .error e
  | .ok (bs, g) =>
    let old := if n = 16 then tagSeen s t v (BitVec.ofNat 128 (ofBytes bs)) g else GReg.ofInt (BitVec.ofNat 64 (ofBytes bs))
    if !admits s (if hasPerm v pWORLD then .trusted else .normal) true x.pa then faultAt s 0x41 (some a) v
    else
     match settleDirty again t v a 4 s x with
     | .error e => .error e
     | .ok (x, s) =>
      let w := (f old).map (fun r => (toBytes n r.1.toNat, r.2))
      .ok (old, homeAtom s (.core (coreOf s t)) (x.cached && !x.se) x.pa ((w.map (·.1)).getD bs) w.isSome (w.any (·.2)))

/-- An atomic on a host aperture, which the host carries out in one action (R115, R271): the old value once it has answered. -/
def amoHost (s : State) (t : Tid) (v : GReg) (a : Word) (p off n : Nat) (h : HostAtom) (e : Option TlbEnt) : R (Option GReg × State) :=
  match hostAsk s t v a p off n 0 (some h) e with
  | .error e => .error e
  | .ok (bs, s) => .ok (bs.map (fun bs => ⟨BitVec.ofNat 128 (ofBytes bs), false⟩), s)

/-- The port turns the request away before it is sent, so that the atomic does not retire and sets no d bit (R193, R347). -/
def turnedAway (s : State) (t : Tid) (x : Xl) : Bool :=
  match physClass s x.pa with
  | .hostAp p _ => (getT s t).replay.isEmpty && (hostRefusal s p).isSome
  | _ => false

/-- A place that carries no such atomic (R115): the device aperture range, and a host aperture where the host has none. -/
def cannotAtomic (onHost : Bool) : PClass → Bool
  | .device _ => true
  | .hostAp _ _ => !onHost
  | _ => false

/-- An atomic: capability causes, alignment, what the place can carry (0x04), translation, then the access in its order. `tag`: it
would store a set tag; `host`: what a host carries out, where it can; `fin` writes rd. -/
def amoOp (s : State) (t : Tid) (words : List (BitVec 32)) (rd ra rb : RegNo) (bad : Bool) (order : BitVec 2) (n : Nat)
    (tag : Bool) (host : Option (Thread → HostAtom)) (f : Thread → AmoF) (fin : GReg → GReg) : Host.Outcome State Fault Refusal :=
  instrNext s t words (fun s =>
    if bad then illegal s
    else do
      let s := useRegs s t [rd, ra, rb]
      let y := getT s t
      let v := y.greg ra
      let a := v.int
      let stores := tag && (y.greg rb).tag
      guardCap s (some a) v (useAt (trusted s t) v ([pLOAD, pSTORE, pATOMIC] ++ if stores then [pSTORECAP] else []) false
        (some a) n)
      guardCap s (some a) v (localCause v (y.greg rb) (some stores))
      let again (s : State) : R (Xl × State) := reachP s t .atomic v a n true stores (cannotAtomic host.isSome)
      let (x, s) ← again s
      let s := if order.getLsbD 0 then drainRel s t else s
      let s := drainBefore s t x.pa n (order.getLsbD 1)
      let (x, s) ← (if (physClass s x.pa).isMem || turnedAway s t x then .ok (x, s) else settleDirty again t v a 4 s x)
      match physClass s x.pa, host with
      | .hostAp p off, some h => do
        let (r, s) ← amoHost s t v a p off n (h y) x.ent
        .ok (match r with
          | none => s
          | some old => updT s t (fun z => z.setGreg rd (fin old)))
      | _, _ => do
        let (old, s) ← amoMem s t v a x n (f y) again
        .ok (updT s t (fun z => z.setGreg rd (fin old))))

/-- The old value with its tag clear. -/
def untagged (g : GReg) : GReg := { g with tag := false }

/-- The fn field of an AMO (R113). -/
def amoFnBits (order : BitVec 2) (wide : Bool) (op : Nat) (rsv : BitVec 3) : BitVec 10 :=
  order ++ BitVec.ofBool wide ++ BitVec.ofNat 4 op ++ rsv

/-- An AMO: SWAP at width 128 moves tags both ways, every other clears them (R113). -/
def amo (s : State) (t : Tid) (code : Nat) (op : AmoOp) (rd ra rb : RegNo) (order : BitVec 2) (wide : Bool) (rsv : BitVec 3) :
    Host.Outcome State Fault Refusal :=
  let swap := op == .swap && wide
  let n := if wide then 16 else 8
  amoOp s t [wREG 0x44 rd ra rb (amoFnBits order wide code rsv)] rd ra rb (rsv != 0) order n swap
    (if !wide && (op == .fadd || op == .swap) then some (fun y => .op op n (y.int rb).toNat) else none)
    (fun y old =>
      let v := if wide then (y.greg rb).data.toNat else (y.int rb).toNat
      some (BitVec.ofNat 128 (amoFn op (8 * n) (old.data.toNat % 2 ^ (8 * n)) v), swap && (y.greg rb).tag))
    (fun old => if swap then old else untagged old)

def execAmoFadd (t : Tid) (rd ra rb : RegNo) (order : BitVec 2) (wide : Bool) (rsv : BitVec 3) (s : State) :=
  amo s t 0 .fadd rd ra rb order wide rsv
def execAmoSwap (t : Tid) (rd ra rb : RegNo) (order : BitVec 2) (wide : Bool) (rsv : BitVec 3) (s : State) :=
  amo s t 1 .swap rd ra rb order wide rsv
def execAmoAnd (t : Tid) (rd ra rb : RegNo) (order : BitVec 2) (wide : Bool) (rsv : BitVec 3) (s : State) :=
  amo s t 2 .and rd ra rb order wide rsv
def execAmoOr (t : Tid) (rd ra rb : RegNo) (order : BitVec 2) (wide : Bool) (rsv : BitVec 3) (s : State) :=
  amo s t 3 .or rd ra rb order wide rsv
def execAmoXor (t : Tid) (rd ra rb : RegNo) (order : BitVec 2) (wide : Bool) (rsv : BitVec 3) (s : State) :=
  amo s t 4 .xor rd ra rb order wide rsv
def execAmoSmin (t : Tid) (rd ra rb : RegNo) (order : BitVec 2) (wide : Bool) (rsv : BitVec 3) (s : State) :=
  amo s t 5 .smin rd ra rb order wide rsv
def execAmoSmax (t : Tid) (rd ra rb : RegNo) (order : BitVec 2) (wide : Bool) (rsv : BitVec 3) (s : State) :=
  amo s t 6 .smax rd ra rb order wide rsv
def execAmoUmin (t : Tid) (rd ra rb : RegNo) (order : BitVec 2) (wide : Bool) (rsv : BitVec 3) (s : State) :=
  amo s t 7 .umin rd ra rb order wide rsv
def execAmoUmax (t : Tid) (rd ra rb : RegNo) (order : BitVec 2) (wide : Bool) (rsv : BitVec 3) (s : State) :=
  amo s t 8 .umax rd ra rb order wide rsv

/-- CAS (R114): the old value as loaded is compared with rd, and rb written where they are equal. -/
def execCas (t : Tid) (rd ra rb : RegNo) (order width : BitVec 2) (rsv : BitVec 6) (s : State) :
    Host.Outcome State Fault Refusal :=
  let n := if width = 0 then 8 else 16
  let tags := width == 2
  amoOp s t [wREG 0x45 rd ra rb (order ++ width ++ rsv)] rd ra rb (rsv != 0 || width == 3) order n tags
    (if tags then none else some (fun y => if width = 0 then .cas n (y.int rd).toNat (y.int rb).toNat
      else .cas n (y.greg rd).data.toNat (y.greg rb).data.toNat))
    (fun y old =>
      let e := y.greg rd
      let new := y.greg rb
      let equal := if width = 0 then old.int == e.int else if tags then old == e else old.data == e.data
      if equal then some (if width = 0 then new.int.setWidth 128 else new.data, tags && new.tag) else none)
    (fun old => if tags then old else untagged old)

end Sys2Proof.Machine
end

