-- ==== Sys2Proof/Machine/Block.lean ====
section
/-! DEFINITION. Block instructions (R120 to R126): one element at a time, its checks before it and its progress in the operands. -/

namespace Sys2Proof.Machine

/-- How an element leaves its instruction: complete, with work left, or waiting for a host. -/
inductive Blk where
  | done | more | wait
deriving DecidableEq, Repr

/-- The address lies on an SE page or in the device aperture range, as far as it translates. -/
def looksSe (s : State) (t : Tid) (k : XKind) (v : GReg) (a : Word) : Bool :=
  let se (x : Xl) : Bool := x.se || (physClass s x.pa).isDevice
  v.tag && (match usedEntry s t a.toNat with
    | some e => se (e.xl a.toNat)
    | none =>
      match xlat s (xctx s t) k a.toNat with
      | .ok r => se r.xl
      | .error _ => false)

/-- The length of an element (R120): up to the limits, and on SE pages one naturally aligned access of at most 8 bytes. -/
def elemLen (rem lim : Nat) (se : List Nat) : Nat :=
  let n := min rem lim
  if se.isEmpty then n
  else ([8, 4, 2].find? (fun k => decide (k ≤ n) && se.all (fun a => a % k == 0))).getD 1

/-- The bytes up to the next multiple of `m`, or down to the last. -/
def roomUp (a m : Nat) : Nat := m - a % m
def roomDown (a m : Nat) : Nat := (a + m - 1) % m + 1

/-- A cursor operand advanced, its tag kept (R120). -/
def moveTo (s : State) (t : Tid) (r : RegNo) (a : Word) : State := updT s t (fun x => x.setGreg r ((x.greg r).setCursor a))

/-- The count operand written: bits 127:64 zero, and its tag kept by R120 also where the cursor it then holds is not representable under
R131 (DESIGN CHOICE, notes/assumptions/49.md). -/
def putCount (s : State) (t : Tid) (rb : RegNo) (n : Nat) : State :=
  updT s t (fun x => x.setGreg rb ⟨BitVec.ofNat 128 n, (x.greg rb).tag⟩)

/-- What follows an element: complete at a count of zero. The answers of its host reads are used up. -/
def elemEnd (s : State) (t : Tid) (rb : RegNo) (n : Nat) : State × Blk :=
  (updT (putCount s t rb n) t (fun x => { x with replay := [], heldX := [] }), if n = 0 then .done else .more)

/-- Bytes from `a` cut at granules: offset and length of each piece. -/
def granulePieces (a n : Nat) : List (Nat × Nat) :=
  (granules a n).map (fun g =>
    let lo := max a (16 * g)
    (lo - a, min (a + n) (16 * g + 16) - lo))

/-- Store an element's bytes: in memory, granule by granule, with the tags given; elsewhere in one access. -/
def storeElem (s : State) (t : Tid) (v : GReg) (a : Word) (x : Xl) (bs : List Byte) (tags : List Bool) : R State :=
  if (physClass s x.pa).isMem then
    ((granulePieces a.toNat bs.length).zipIdx).foldlM (fun s ((o, n), i) =>
      storeAt s t v (a + BitVec.ofNat 64 o) { x with pa := x.pa + o } ((bs.drop o).take n)
        (if n = 16 then some (tags.getD i false) else none) false) s
  else storeAt s t v a x bs none false

/-! ### BLKMOVE (R121) -/

/-- Does each granule of the destination receive a tag: whole, from a granule equally aligned, through LOADCAP and STORECAP. -/
def movedTags (s : State) (t : Tid) (src dst : GReg) (sa da : Word) (x : Xl) (bs : List Byte) : List GReg :=
  (granulePieces da.toNat bs.length).map (fun (o, n) =>
    let d : Quad := BitVec.ofNat 128 (ofBytes ((bs.drop o).take n))
    let g := n == 16 && sa.toNat % 16 == da.toNat % 16 && hasPerm dst pSTORECAP && (physClass s x.pa).hasTags &&
      viewTag s (getT s t).stores (x.pa + o)
    if n = 16 then tagSeen s t src d g else ⟨d, false⟩)

def blkMove (s : State) (t : Tid) (rd ra rb : RegNo) (fn : BitVec 10) : R (State × Blk) := do
  let y := getT s t
  let dst := y.greg rd
  let src := y.greg ra
  let rem := (y.int rb).toNat
  let down := fn.getLsbD 0
  let lim := if down then min (roomDown dst.int.toNat 64) (roomDown src.int.toNat 4096)
    else min (roomUp dst.int.toNat 64) (roomUp src.int.toNat 4096)
  let first (a : Word) : Word := if down then a - 1 else a
  let se := (if looksSe s t .load src (first src.int) then [src.int.toNat] else []) ++
    (if looksSe s t .store dst (first dst.int) then [dst.int.toNat] else [])
  let n := elemLen rem lim se
  let w := BitVec.ofNat 64 n
  let sa := if down then src.int - w else src.int
  let da := if down then dst.int - w else dst.int
  let tw := trusted s t
  guardAll s [⟨useAt tw src [pLOAD] false (some sa) n, some sa, src⟩, ⟨useAt tw dst [pSTORE] false (some da) n, some da, dst⟩]
  let (xs, xd, s) ← reach2 s (fun s => reach s t .load src sa n false false) (fun s => reach s t .store dst da n false false)
  let (r, s) ← loadAt s t src sa xs n 0
  match r with
  | none => .ok (s, .wait)
  | some (bs, _) => do
    let gs := movedTags s t src dst sa da xs bs
    guardCap s (some da) dst (if gs.any (fun g => g.tag && !hasPerm g pGLOBAL) && hasPerm dst pGLOBAL then some 0x17
      else if gs.any (·.tag) && (physClass s xd.pa).refusesTags then some 0x19 else none)
    let (xd, s) ← settleDirty (fun s => reach s t .store dst da n false false) t dst da 4 s xd
    let s ← storeElem s t dst da xd bs (gs.map (·.tag))
    let s := moveTo s t ra (if down then sa else sa + w)
    let s := moveTo s t rd (if down then da else da + w)
    .ok (elemEnd s t rb (rem - n))

/-! ### BLKFILL, BLKCMP, CRCRANGE (R122 to R124) -/

def blkFill (s : State) (t : Tid) (rd ra rb : RegNo) : R (State × Blk) := do
  let y := getT s t
  let dst := y.greg rd
  let rem := (y.int rb).toNat
  let a := dst.int
  let n := elemLen rem (roomUp a.toNat 64) (if looksSe s t .store dst a then [a.toNat] else [])
  guardCap s (some a) dst (useAt (trusted s t) dst [pSTORE] false (some a) n)
  let (x, s) ← reachStore s t dst a n false false
  let pat := toBytes 16 (y.greg ra).data.toNat
  let s ← storeElem s t dst a x ((List.range n).map (fun i => pat.getD ((a.toNat + i) % 16) 0)) []
  .ok (elemEnd (moveTo s t rd (a + BitVec.ofNat 64 n)) t rb (rem - n))

/-- Bytes that agree from the start. -/
def agreeing : List Byte → List Byte → Nat
  | a :: as, b :: bs => if a = b then agreeing as bs + 1 else 0
  | _, _ => 0

/-- Host reads an access has used, to number the next. -/
def hostUsed (s : State) (x : Xl) : Nat :=
  match physClass s x.pa with
  | .hostAp _ _ => 1
  | _ => 0

def blkCmp (s : State) (t : Tid) (rd ra rb : RegNo) : R (State × Blk) := do
  let y := getT s t
  let p := y.greg rd
  let q := y.greg ra
  let rem := (y.int rb).toNat
  let se := (if looksSe s t .load p p.int then [p.int.toNat] else []) ++
    (if looksSe s t .load q q.int then [q.int.toNat] else [])
  let n := elemLen rem (min (roomUp p.int.toNat 64) (roomUp q.int.toNat 4096)) se
  let tw := trusted s t
  guardAll s [⟨useAt tw p [pLOAD] false (some p.int) n, some p.int, p⟩, ⟨useAt tw q [pLOAD] false (some q.int) n, some q.int, q⟩]
  let (xp, xq, s) ← reach2 s (fun s => reach s t .load p p.int n false false) (fun s => reach s t .load q q.int n false false)
  let (r, s) ← loadAt s t p p.int xp n 0
  match r with
  | none => .ok (s, .wait)
  | some (bs, _) => do
    let (r, s) ← loadAt s t q q.int xq n (hostUsed s xp)
    match r with
    | none => .ok (s, .wait)
    | some (cs, _) =>
      let k := agreeing bs cs
      let s := moveTo (moveTo s t rd (p.int + BitVec.ofNat 64 k)) t ra (q.int + BitVec.ofNat 64 k)
      let (s, e) := elemEnd s t rb (rem - k)
      .ok (s, if k < n then .done else e)

def crcRange (s : State) (t : Tid) (rd ra rb : RegNo) (fn : BitVec 10) : R (State × Blk) := do
  let y := getT s t
  let src := y.greg ra
  let rem := (y.int rb).toNat
  let a := src.int
  let n := elemLen rem (roomUp a.toNat 64) (if looksSe s t .load src a then [a.toNat] else [])
  guardCap s (some a) src (useAt (trusted s t) src [pLOAD] false (some a) n)
  let (x, s) ← reach s t .load src a n false false
  let (r, s) ← loadAt s t src a x n 0
  match r with
  | none => .ok (s, .wait)
  | some (bs, _) =>
    let wide := fn.getLsbD 0
    let c := crcFold wide ((y.int rd).toNat % (if wide then 2 ^ 64 else 2 ^ 32)) bs
    .ok (elemEnd (moveTo (putInt s t rd (BitVec.ofNat 64 c)) t ra (a + BitVec.ofNat 64 n)) t rb (rem - n))

/-! ### NTTPASS (R125, R126) -/

/-- The control word of NTTPASS. -/
structure NttW where
  q    : Nat
  inv  : Bool
  last : Nat
  stage : Nat
  b    : Nat
deriving DecidableEq, Repr

def nttWord (w : Word) : NttW :=
  ⟨fld w ⟨63, 40⟩, fldB w ⟨32, 32⟩, fld w ⟨26, 24⟩, fld w ⟨19, 16⟩, fld w ⟨7, 0⟩⟩

/-- The control word raises the modular-operand fault (R126); a b that is not a multiple of 8 below 128 is taken with it. -/
def nttBad (w : Word) : Bool :=
  let c := nttWord w
  c.q % 2 == 0 || decide (c.q < 3) || decide (2 ^ 23 ≤ c.q) || fld w ⟨39, 33⟩ != 0 || fld w ⟨31, 27⟩ != 0 ||
    fld w ⟨23, 20⟩ != 0 || fld w ⟨15, 8⟩ != 0 || c.b % 8 != 0 || decide (128 ≤ c.b)

def NttW.len (c : NttW) : Nat := if c.inv then 2 ^ c.stage else 128 / 2 ^ c.stage

/-- Indices of butterfly `i`: j, j + len, and its twiddle. -/
def NttW.idx (c : NttW) (i : Nat) : Nat × Nat × Nat :=
  let blk := i / c.len
  let j := blk * 2 * c.len + i % c.len
  (j, j + c.len, if c.inv then 256 / 2 ^ c.stage - 1 - blk else 2 ^ c.stage + blk)

/-- A butterfly of two coefficients and a twiddle. -/
def NttW.fly (c : NttW) (x y z : Nat) : Nat × Nat :=
  if c.inv then ((x + y) % c.q, (c.q - z) * ((x + c.q - y) % c.q) % c.q)
  else
    let t := z * y % c.q
    ((x + t) % c.q, (x + c.q - t) % c.q)

/-- The control word after an element: b rises by 8, and after 128 the stage by 1 (R125). -/
def nttNext (w : Word) : Word :=
  let c := nttWord w
  if c.b + 8 = 128 then setFld (setFld w ⟨7, 0⟩ 0) ⟨19, 16⟩ (c.stage + 1) else setFld w ⟨7, 0⟩ (c.b + 8)

/-- The translation of a 4-byte access of an element. -/
def nttReach (t : Tid) (k : XKind) (v : GReg) (i : Nat) (s : State) : R ((Nat × Xl) × State) :=
  match reach s t k v (v.int + BitVec.ofNat 64 (4 * i)) 4 false false with
  | .error e => .error e
  | .ok (x, s) => .ok ((i, x), s)

/-- Read them in turn, `k` host reads having been used. -/
def nttRead (t : Tid) (v : GReg) : List (Nat × Xl) → Nat → State → R (Option (List (Nat × Nat)) × Nat × State)
  | [], k, s => .ok (some [], k, s)
  | (i, x) :: r, k, s =>
    match loadAt s t v (v.int + BitVec.ofNat 64 (4 * i)) x 4 k with
    | .error e => .error e
    | .ok (none, s) => .ok (none, k, s)
    | .ok (some (bs, _), s) =>
      match nttRead t v r (k + hostUsed s x) s with
      | .error e => .error e
      | .ok (m, k, s) => .ok (m.map ((i, ofBytes bs) :: ·), k, s)

/-- The d bits of the pages an element writes (R230). -/
def nttDirty (t : Tid) (v : GReg) : List (Nat × Xl) → State → R (List (Nat × Xl) × State)
  | [], s => .ok ([], s)
  | (i, x) :: r, s => do
    let a := v.int + BitVec.ofNat 64 (4 * i)
    let (x, s) ← settleDirty (fun s => reach s t .store v a 4 false false) t v a 4 s x
    let (r, s) ← nttDirty t v r s
    .ok ((i, x) :: r, s)

def nttWrite (t : Tid) (v : GReg) (m : List (Nat × Nat)) : List (Nat × Xl) → State → R State
  | [], s => .ok s
  | (i, x) :: r, s =>
    match storeAt s t v (v.int + BitVec.ofNat 64 (4 * i)) x (toBytes 4 ((m.lookup i).getD 0)) none false with
    | .error e => .error e
    | .ok s => nttWrite t v m r s

/-- Both arrays read. A modular operand among the values read comes before the memory cause of a later read (R153). -/
def nttReadAll (t : Tid) (arr tw : GReg) (xa xz : List (Nat × Xl)) (q : Nat) (s : State) :
    R (Option (List (Nat × Nat)) × Option (List (Nat × Nat)) × State) :=
  let early (m : List (Nat × Nat)) : Bool := m.any (fun e => decide (q ≤ e.2))
  let known (v : GReg) (xs : List (Nat × Xl)) : List (Nat × Nat) :=
    xs.filterMap (fun (i, x) => match nttRead t v [(i, x)] 0 s with
      | .ok (some [e], _, _) => if hostUsed s x = 0 then some e else none
      | _ => none)
  match nttRead t arr xa 0 s with
  | .error e => if early (known arr xa ++ known tw xz) then faultAt s 0x32 none GReg.zero else .error e
  | .ok (none, _, s) => .ok (none, none, s)
  | .ok (some av, k, s1) =>
    match nttRead t tw xz k s1 with
    | .error e => if early (av ++ known tw xz) then faultAt s1 0x32 none GReg.zero else .error e
    | .ok (zv, _, s2) => .ok (some av, zv, s2)

/-- An element of NTTPASS (R125, R126). Of rb it writes the control word: bits 127:64, which R120 makes zero for a count only, stay as
they were, and the tag stays by R120 also where the cursor is not representable under R131 (DESIGN CHOICE, notes/assumptions/49.md). -/
def nttPass (s : State) (t : Tid) (rd ra rb : RegNo) : R (State × Blk) := do
  let y := getT s t
  let arr := y.greg rd
  let tw := y.greg ra
  let w := y.int rb
  let c := nttWord w
  let ix := (List.range 8).map (fun i => c.idx (c.b + i))
  let js := ix.flatMap (fun (j, k, _) => [j, k])
  let zs := ix.map (fun (_, _, z) => z)
  let wd := trusted s t
  guardAll s (js.map (fun i => (let a := arr.int + BitVec.ofNat 64 (4 * i); ⟨useAt wd arr [pLOAD, pSTORE] false (some a) 4, some a, arr⟩ : Chk)) ++
    zs.map (fun i => (let a := tw.int + BitVec.ofNat 64 (4 * i); ⟨useAt wd tw [pLOAD] false (some a) 4, some a, tw⟩ : Chk)))
  let (xs, s) ← reachAll (js.map (nttReach t .load arr) ++ zs.map (nttReach t .load tw) ++ js.map (nttReach t .store arr)) s
  let xa := xs.take 16
  let xz := (xs.drop 16).take 8
  let (av, zv, s) ← nttReadAll t arr tw xa xz c.q s
  match av with
  | none => .ok (s, .wait)
  | some av => do
    match zv with
    | none => .ok (s, .wait)
    | some zv =>
      if (av ++ zv).any (fun e => decide (c.q ≤ e.2)) then faultAt s 0x32 none GReg.zero
      else do
        let get (m : List (Nat × Nat)) (i : Nat) : Nat := (m.lookup i).getD 0
        let out := ix.flatMap (fun (j, l, z) => (let r := c.fly (get av j) (get av l) (get zv z); [(j, r.1), (l, r.2)]))
        let (xa, s) ← nttDirty t arr xa s
        let s ← nttWrite t arr out xa s
        let n := nttNext w
        .ok (updT s t (fun x => { (x.setGreg rb ((x.greg rb).setCursor n)) with replay := [], heldX := [] }),
          if fld n ⟨26, 24⟩ < fld n ⟨19, 16⟩ then .done else .more)

/-! ### The instructions -/

/-- The words of a block instruction. -/
def blkWords (op : BlkOp) (rd ra rb : RegNo) : List (BitVec 32) :=
  match op with
  | .move fn => [wREG 0x54 rd ra rb fn]
  | .fill fn => [wREG 0x55 rd ra rb fn]
  | .cmp fn => [wREG 0x56 rd ra rb fn]
  | .crc fn => [wREG 0x57 rd ra rb fn]
  | .ntt fn => [wREG 0x58 rd ra rb fn]

/-- Illegal forms (R120 to R125): registers that are g0 or not all different, and reserved fn bits. -/
def blkIllegal (op : BlkOp) (rd ra rb : RegNo) : Bool :=
  rd == 0 || ra == 0 || rb == 0 || rd == ra || rd == rb || ra == rb ||
    (match op with
     | .move fn => decide (2 ≤ fn.toNat)
     | .fill fn => fn != 0
     | .cmp fn => fn != 0
     | .crc fn => decide (2 ≤ fn.toNat)
     | .ntt fn => fn != 0)

def blkElem (s : State) (t : Tid) (op : BlkOp) (rd ra rb : RegNo) : R (State × Blk) :=
  match op with
  | .move fn => blkMove s t rd ra rb fn
  | .fill _ => blkFill s t rd ra rb
  | .cmp _ => blkCmp s t rd ra rb
  | .crc fn => crcRange s t rd ra rb fn
  | .ntt _ => nttPass s t rd ra rb

/-- Before the first element: the forms, the control word, and whether the work is complete already (R120, R126). -/
def blkStart (s : State) (t : Tid) (op : BlkOp) (rd ra rb : RegNo) : R (State × Bool) :=
  if blkIllegal op rd ra rb then illegal s
  else
    let s := useRegs s t [rd, ra, rb]
    let w := (getT s t).int rb
    match op with
    | .ntt _ => if nttBad w then faultAt s 0x32 none GReg.zero else .ok (s, decide (fld w ⟨26, 24⟩ < fld w ⟨19, 16⟩))
    | _ => .ok (s, w == 0)

/-- Elements until the work is complete, each boundary a retirement point for the checker (R120). -/
def blkLoop (t : Tid) (op : BlkOp) (rd ra rb : RegNo) : Nat → State → R State
  | 0, s => .ok s
  | n + 1, s =>
    match blkElem s t op rd ra rb with
    | .error e => .error e
    | .ok (s, .more) => blkLoop t op rd ra rb n (checkElement s t (getT s t).pc (blkWords op rd ra rb))
    | .ok (s, _) => .ok s

/-- Elements left at most: every one moves a byte, or eight butterflies of eight stages. -/
def blkFuel (op : BlkOp) (w : Word) : Nat :=
  match op with
  | .ntt _ => 128
  | _ => w.toNat

/-- Every element in one step. -/
def blkWhole (s : State) (t : Tid) (op : BlkOp) (rd ra rb : RegNo) : Host.Outcome State Fault Refusal :=
  instrNext s t (blkWords op rd ra rb) (fun s => do
    let (s, fin) ← blkStart s t op rd ra rb
    if fin then .ok s else blkLoop t op rd ra rb (blkFuel op ((getT s t).int rb)) s)

/-- One element (R120): the PCC stays while work is left, and the boundary is one at which an interrupt may be taken and waiting root
writes take effect (R222). -/
def elementStep (s : State) (t : Tid) (op : BlkOp) (rd ra rb : RegNo) : State :=
  let ws := blkWords op rd ra rb
  if !ready s t then s
  else if reportDue (getT s t) then reportExcs s t
  else if injectDue s t ws then mismatch s t .integer true
  else
    let pc := (getT s t).pc
    match (do
      let s ← fetchCheck s t 1
      if (getT s t).hostWait.isSome then .ok (s, Blk.wait)
      else
        let (s, fin) ← blkStart s t op rd ra rb
        if fin then .ok (s, Blk.done) else blkElem s t op rd ra rb) with
    | .ok (s1, .done) => retire (checkRetired (stepPc s1 t 1) t pc ws) t pc
    | .ok (s1, .more) => takeRoots (updT (checkElement s1 t pc ws) t (fun x => { x with fetchAns := [], inFlight := false })) t
    | .ok (s1, .wait) => s1
    | .error (f, s1) => raise s1 t ws f

/-- A block instruction: its elements in turn, or where a root write waits for its next boundary, the element before it (R222). -/
def blkInstr (s : State) (t : Tid) (op : BlkOp) (rd ra rb : RegNo) : Host.Outcome State Fault Refusal :=
  if (getT s t).rootReq.isEmpty then blkWhole s t op rd ra rb else .next (elementStep s t op rd ra rb)

def execBlkmove (t : Tid) (rd ra rb : RegNo) (fn : BitVec 10) (s : State) := blkInstr s t (.move fn) rd ra rb
def execBlkfill (t : Tid) (rd ra rb : RegNo) (fn : BitVec 10) (s : State) := blkInstr s t (.fill fn) rd ra rb
def execBlkcmp (t : Tid) (rd ra rb : RegNo) (fn : BitVec 10) (s : State) := blkInstr s t (.cmp fn) rd ra rb
def execCrcrange (t : Tid) (rd ra rb : RegNo) (fn : BitVec 10) (s : State) := blkInstr s t (.crc fn) rd ra rb
def execNttpass (t : Tid) (rd ra rb : RegNo) (fn : BitVec 10) (s : State) := blkInstr s t (.ntt fn) rd ra rb

/-- One element of a block instruction (R120). -/
def execBlockElement (t : Tid) (op : BlkOp) (rd ra rb : RegNo) (s : State) : Host.Outcome State Fault Refusal :=
  .next (elementStep s t op rd ra rb)

end Sys2Proof.Machine
end

