-- ==== Sys2Proof/Machine/Float.lean ====
section
/-! DEFINITION. Floating-point values and their rounding: IEEE 754 binary32 and binary64, presumed (R88, R103, R152;
notes/assumptions/13.md). Every result is computed exactly and rounded once. -/

namespace Sys2Proof.Machine

/-- A decoded value: `fin` is (−1)^neg × m × 2^e. -/
inductive Fp where
  | nan (signalling : Bool)
  | inf (neg : Bool)
  | fin (neg : Bool) (m : Nat) (e : Int)
deriving DecidableEq, Repr

def FpBits : FpW → Nat
  | .f32 => 32
  | .f64 => 64
/-- Fraction bits. -/
def fpFrac : FpW → Nat
  | .f32 => 23
  | .f64 => 52
/-- The exponent of the smallest subnormal. -/
def fpMinE : FpW → Int
  | .f32 => -149
  | .f64 => -1074
/-- The encoding of positive infinity. -/
def fpInf (w : FpW) : Nat := 2 ^ (FpBits w - 1) - 2 ^ fpFrac w

def fpDecode (w : FpW) (n : Nat) : Fp :=
  let f := fpFrac w
  let neg := decide (2 ^ (FpBits w - 1) ≤ n % 2 ^ FpBits w)
  let a := n % 2 ^ (FpBits w - 1)
  if fpInf w < a then .nan (decide (a % 2 ^ f < 2 ^ (f - 1)))
  else if a = fpInf w then .inf neg
  else if a < 2 ^ f then .fin neg a (fpMinE w)
  else .fin neg (2 ^ f + a % 2 ^ f) (fpMinE w + (a / 2 ^ f : Nat) - 1)

def signBit (w : FpW) (neg : Bool) : Nat := if neg then 2 ^ (FpBits w - 1) else 0

/-- A quiet NaN; its sign and payload are left open. -/
def fpNan (w : FpW) (ops : List Nat) : Nat :=
  let p := Config.nanPayload w ops
  signBit w (p % 2 == 1) + fpInf w + 2 ^ (fpFrac w - 1) + p / 2 % 2 ^ (fpFrac w - 1)

/-- A result and the conditions met. -/
abbrev FpRes := Nat × List ArithCond

/-- A value of sign `neg` rounds away from zero in mode `rm`, given its last kept bit, half bit and whether more is lost. -/
def roundsUp (rm : Nat) (neg odd half more : Bool) : Bool :=
  match rm with
  | 0 => half && (more || odd)
  | 1 => false
  | 2 => neg && (half || more)
  | _ => !neg && (half || more)

/-- Split `m` at `d` bits: what is kept, the half bit, and whether more is lost. -/
def splitAt (m d : Nat) (sticky : Bool) : Nat × Bool × Bool :=
  (m / 2 ^ d, decide (0 < d) && (m / 2 ^ (d - 1) % 2 == 1), sticky || (decide (0 < d) && m % 2 ^ (d - 1) != 0))

/-- Round (m + something below one where `sticky`) × 2^e once (R88). -/
def fpRound (w : FpW) (rm : Nat) (neg : Bool) (m : Nat) (e : Int) (sticky : Bool) : FpRes :=
  if m = 0 ∧ !sticky then (signBit w neg, [])
  else
    let n : Int := (Nat.log2 m : Int) + 1
    let at_ (u : Int) : Nat × Bool :=
      if u ≤ e then (m * 2 ^ (e - u).toNat, sticky)
      else
        let (q, h, r) := splitAt m (u - e).toNat sticky
        (q + ofBool (roundsUp rm neg (q % 2 == 1) h r), h || r)
    let f := fpFrac w
    let free := e + n - (f + 1)
    let u := max free (fpMinE w)
    let (q, inexact) := at_ u
    let bits := (u - fpMinE w).toNat * 2 ^ f + q
    let tiny :=
      if Config.tinyAfter then decide (free < fpMinE w) &&
        decide ((at_ free).1 < 2 ^ (f + 1) ∨ free + 1 < fpMinE w)
      else decide (free < fpMinE w)
    if fpInf w ≤ bits then
      let toInf := rm = 0 ∨ (rm = 2 ∧ neg) ∨ (rm = 3 ∧ !neg)
      (signBit w neg + (if toInf then fpInf w else fpInf w - 1), [.fpOv, .fpInexact])
    else (signBit w neg + bits, (if tiny && inexact then [.fpUnder] else []) ++ (if inexact then [.fpInexact] else []))

/-- Signed sum of two finite values, exactly: a mantissa and an exponent. -/
def fpSum (n1 : Bool) (m1 : Nat) (e1 : Int) (n2 : Bool) (m2 : Nat) (e2 : Int) : Int × Int :=
  let e := min e1 e2
  let v (n : Bool) (m : Nat) (k : Int) : Int := (if n then -1 else 1) * (m * 2 ^ (k - e).toNat : Nat)
  (v n1 m1 e1 + v n2 m2 e2, e)

def fpSumRes (w : FpW) (rm : Nat) (n1 : Bool) (m1 : Nat) (e1 : Int) (n2 : Bool) (m2 : Nat) (e2 : Int) : FpRes :=
  let (v, e) := fpSum n1 m1 e1 n2 m2 e2
  if v = 0 then (signBit w (if n1 = n2 then n1 else rm == 2), []) else fpRound w rm (decide (v < 0)) v.natAbs e false

/-- The result where some operand is a NaN: invalid for a signalling one. -/
def fpNanRes (w : FpW) (ops : List Nat) : FpRes :=
  (fpNan w ops, if ops.any (fun o => fpDecode w o == .nan true) then [.fpInvalid] else [])

def fpInvalidRes (w : FpW) (ops : List Nat) : FpRes := (fpNan w ops, [.fpInvalid])

def fpIsNan (w : FpW) (o : Nat) : Bool :=
  match fpDecode w o with
  | .nan _ => true
  | _ => false

def fpNeg (w : FpW) (o : Nat) : Nat := o ^^^ 2 ^ (FpBits w - 1)

def fpAdd (w : FpW) (rm a b : Nat) : FpRes :=
  match fpDecode w a, fpDecode w b with
  | .fin n1 m1 e1, .fin n2 m2 e2 => fpSumRes w rm n1 m1 e1 n2 m2 e2
  | .inf n, .inf k => if n = k then (a, []) else fpInvalidRes w [a, b]
  | .inf _, .fin _ _ _ => (a, [])
  | .fin _ _ _, .inf _ => (b, [])
  | _, _ => fpNanRes w [a, b]

def fpSub (w : FpW) (rm a b : Nat) : FpRes := if fpIsNan w b then fpNanRes w [a, b] else fpAdd w rm a (fpNeg w b)

def fpMul (w : FpW) (rm a b : Nat) : FpRes :=
  match fpDecode w a, fpDecode w b with
  | .fin n1 m1 e1, .fin n2 m2 e2 => fpRound w rm (n1 != n2) (m1 * m2) (e1 + e2) false
  | .inf n, .inf k => (signBit w (n != k) + fpInf w, [])
  | .inf n, .fin k m _ => if m = 0 then fpInvalidRes w [a, b] else (signBit w (n != k) + fpInf w, [])
  | .fin k m _, .inf n => if m = 0 then fpInvalidRes w [a, b] else (signBit w (n != k) + fpInf w, [])
  | _, _ => fpNanRes w [a, b]

/-- a × b + c, rounded once. -/
def fpFma (w : FpW) (rm a b c : Nat) : FpRes :=
  match fpDecode w a, fpDecode w b, fpDecode w c with
  | .fin n1 m1 e1, .fin n2 m2 e2, .fin n3 m3 e3 => fpSumRes w rm (n1 != n2) (m1 * m2) (e1 + e2) n3 m3 e3
  | .fin _ _ _, .fin _ _ _, .inf _ => (c, [])
  | p, q, r =>
    if fpIsNan w a || fpIsNan w b then fpNanRes w [a, b, c]
    else
      let zeroInf := match p, q with
        | .inf _, .fin _ 0 _ => true
        | .fin _ 0 _, .inf _ => true
        | _, _ => false
      if zeroInf then fpInvalidRes w [a, b, c]
      else
        match r with
        | .nan _ => fpNanRes w [a, b, c]
        | .inf n =>
          let neg := decide (2 ^ (FpBits w - 1) ≤ a) != decide (2 ^ (FpBits w - 1) ≤ b)
          if neg = n then (c, []) else fpInvalidRes w [a, b, c]
        | .fin _ _ _ =>
          (signBit w (decide (2 ^ (FpBits w - 1) ≤ a) != decide (2 ^ (FpBits w - 1) ≤ b)) + fpInf w, [])

def fpDivide (w : FpW) (rm a b : Nat) : FpRes :=
  match fpDecode w a, fpDecode w b with
  | .fin n1 m1 e1, .fin n2 m2 e2 =>
    if m2 = 0 then (if m1 = 0 then fpInvalidRes w [a, b] else (signBit w (n1 != n2) + fpInf w, [.fpDz]))
    else fpRound w rm (n1 != n2) (m1 * 2 ^ 120 / m2) (e1 - 120 - e2) (m1 * 2 ^ 120 % m2 != 0)
  | .inf n, .fin k _ _ => (signBit w (n != k) + fpInf w, [])
  | .fin n _ _, .inf k => (signBit w (n != k), [])
  | .inf _, .inf _ => fpInvalidRes w [a, b]
  | _, _ => fpNanRes w [a, b]

/-- The integer square root, bit by bit. -/
def isqrtGo : Nat → Nat → Nat → Nat
  | 0, r, _ => r
  | k + 1, r, n => if (r + 2 ^ k) * (r + 2 ^ k) ≤ n then isqrtGo k (r + 2 ^ k) n else isqrtGo k r n

def fpSqrt (w : FpW) (rm a : Nat) : FpRes :=
  match fpDecode w a with
  | .nan _ => fpNanRes w [a]
  | .inf n => if n then fpInvalidRes w [a] else (a, [])
  | .fin n m e =>
    if m = 0 then (a, [])
    else if n then fpInvalidRes w [a]
    else
      let k : Int := if e % 2 = 0 then 120 else 121
      let x := m * 2 ^ k.toNat
      let r := isqrtGo 90 0 x
      fpRound w rm false r ((e - k) / 2) (r * r != x)

/-- Order of two numbers that are not NaN: a < b, a = b. -/
def fpLtEq (w : FpW) (a b : Nat) : Bool × Bool :=
  let v (o : Nat) : Int := if 2 ^ (FpBits w - 1) ≤ o then -((o % 2 ^ (FpBits w - 1) : Nat) : Int) else (o : Int)
  (decide (v a < v b), decide (v a = v b))

/-- A comparison: all ones where it holds. A NaN compares false; an ordering with one is invalid. -/
def fpCompare (w : FpW) (op : FAddOp) (a b : Nat) : FpRes :=
  let ones := 2 ^ FpBits w - 1
  if fpIsNan w a || fpIsNan w b then
    (0, if op = .cmpEq then (fpNanRes w [a, b]).2 else [.fpInvalid])
  else
    let (lt, eq) := fpLtEq w a b
    let r := match op with
      | .cmpEq => eq
      | .cmpLt => lt
      | _ => lt || eq
    (if r then ones else 0, [])

/-- To an integer of `n` bits, in the range lo to hi. -/
def fpToInt (w : FpW) (rm n : Nat) (lo hi : Int) (a : Nat) : FpRes :=
  let bad : FpRes := (Config.cvtInvalid w n a % 2 ^ n, [.fpInvalid])
  match fpDecode w a with
  | .fin neg m e =>
    let (q, inexact) :=
      if 0 ≤ e then (if e ≤ 128 then m * 2 ^ e.toNat else if m = 0 then 0 else 2 ^ 130, false)
      else
        let (q, h, r) := splitAt m (-e).toNat false
        (q + ofBool (roundsUp rm neg (q % 2 == 1) h r), h || r)
    let v : Int := if neg then -(q : Int) else q
    if v < lo ∨ hi < v then bad else ((v % 2 ^ n).toNat, if inexact then [.fpInexact] else [])
  | _ => bad

def fpFromInt (w : FpW) (rm : Nat) (v : Int) : FpRes := fpRound w rm (decide (v < 0)) v.natAbs 0 false

def fpWidth (src dst : FpW) (rm a : Nat) : FpRes :=
  match fpDecode src a with
  | .nan q => (fpNan dst [a], if q then [.fpInvalid] else [])
  | .inf n => (signBit dst n + fpInf dst, [])
  | .fin n m e => fpRound dst rm n m e false

end Sys2Proof.Machine
end

