-- ==== Sys2Proof/Machine/VecOps.lean ====
section
/-! DEFINITION. Vector and floating-point instructions (R85, R103, R165 to R169). The spec gives each its operation and not its
fn field; the form is an operand of the command, and the word a fault frame records takes its fn from Config. -/

namespace Sys2Proof.Machine

def laneBits : Lane → Nat
  | .b8 => 8
  | .b16 => 16
  | .b32 => 32
  | .b64 => 64

/-- The lanes of a vector, lane 0 first (R85). -/
def lanesOf (n : Nat) (v : Vec) : List Nat := (List.range (256 / n)).map (fun i => v.toNat / 2 ^ (i * n) % 2 ^ n)
/-- A vector from its lanes; lanes not given are zero. -/
def packLanes (n : Nat) (ls : List Nat) : Vec :=
  BitVec.ofNat 256 (ls.zipIdx.foldl (fun a (x, i) => a + x % 2 ^ n * 2 ^ (i * n)) 0)

def mapLanes (n : Nat) (f : Nat → Nat → Nat) (a b : Vec) : Vec := packLanes n (List.zipWith f (lanesOf n a) (lanesOf n b))

def maskOf (n : Nat) (b : Bool) : Nat := if b then 2 ^ n - 1 else 0

/-! ### Integer lanes -/

def vintLane (op : VIntOp) (n a b : Nat) : Nat :=
  let lt := decide (sextNat n a < sextNat n b)
  match op with
  | .add => a + b
  | .sub => a + 2 ^ n - b
  | .cmpEq => maskOf n (a == b)
  | .cmpLtS => maskOf n lt
  | .cmpLtU => maskOf n (decide (a < b))
  | .minS => if lt then a else b
  | .maxS => if lt then b else a
  | .minU => min a b
  | .maxU => max a b

def vmulLane (op : VMulOp) (n a b : Nat) : Nat :=
  match op with
  | .low => a * b
  | .highS => ((sextNat n a * sextNat n b) / 2 ^ n % 2 ^ n).toNat
  | .highU => a * b / 2 ^ n

def vlogLane (op : VLogOp) (w : Lane) (a b : Nat) : Nat :=
  let n := laneBits w
  match op with
  | .and => a &&& b
  | .or => a ||| b
  | .xor => a ^^^ b
  | .andn => a &&& (2 ^ n - 1 - b)
  | o =>
    if n ≤ b then Config.shiftBeyond op w a b
    else
      match o with
      | .sll => a * 2 ^ b
      | .srl => a / 2 ^ b
      | _ => ((sextNat n a / 2 ^ b) % 2 ^ n).toNat

def vperm (op : VPermOp) (w : Lane) (a b : Vec) : Vec :=
  let n := laneBits w
  let la := lanesOf n a
  let at_ (i : Nat) : Nat := if i < la.length then la.getD i 0 else la.getD (Config.permLane w i % la.length) 0
  packLanes n (match op with
    | .permute => (lanesOf n b).map at_
    | .broadcast => la.map (fun _ => at_ la.length)
    | .mirror => la.reverse)

/-- Long operations that write a named vector register complete first (R169). -/
def useVecs (s : State) (t : Tid) (vs : List RegNo) : State :=
  updT s t (fun x => vs.foldl (fun x r => settle x (.vector r.toNat)) x)

def putVec (s : State) (t : Tid) (vd : RegNo) (v : Vec) : State := updT s t (fun x => x.setVec vd v)

/-- The word of a REG-format vector instruction of form `f`. -/
def vecWord (op : Nat) (vd va vb : RegNo) (f : Nat) : BitVec 32 := wREG op vd va vb (Config.vecFn op f)

/-- A vector operation on the old destination and two registers. -/
def vecOpD (s : State) (t : Tid) (op : Nat) (vd va vb : RegNo) (form : Nat) (f : Vec → Vec → Vec → Vec) :
    Host.Outcome State Fault Refusal :=
  instrNext s t [vecWord op vd va vb form] (fun s =>
    let s := useVecs s t [vd, va, vb]
    let x := getT s t
    .ok (putVec s t vd (f (x.vec vd) (x.vec va) (x.vec vb))))

/-- A vector operation of two registers. -/
def vecOp (s : State) (t : Tid) (op : Nat) (vd va vb : RegNo) (form : Nat) (f : Vec → Vec → Vec) :
    Host.Outcome State Fault Refusal := vecOpD s t op vd va vb form (fun _ a b => f a b)

def execVint (t : Tid) (vd va vb : RegNo) (op : VIntOp) (w : Lane) (s : State) :=
  vecOp s t 0x60 vd va vb (op.ctorIdx * 4 + w.ctorIdx) (mapLanes (laneBits w) (vintLane op (laneBits w)))
def execVmul (t : Tid) (vd va vb : RegNo) (op : VMulOp) (w : Lane) (s : State) :=
  vecOp s t 0x61 vd va vb (op.ctorIdx * 4 + w.ctorIdx) (mapLanes (laneBits w) (vmulLane op (laneBits w)))
def execVshl (t : Tid) (vd va vb : RegNo) (op : VLogOp) (w : Lane) (s : State) :=
  vecOp s t 0x62 vd va vb (op.ctorIdx * 4 + w.ctorIdx) (mapLanes (laneBits w) (vlogLane op w))
def execVperm (t : Tid) (vd va vb : RegNo) (op : VPermOp) (w : Lane) (s : State) :=
  vecOp s t 0x63 vd va vb (op.ctorIdx * 4 + w.ctorIdx) (vperm op w)

/-- The carry-less product of 64 bits by 64 (R103). DESIGN CHOICE (notes/assumptions/50.md): VCLMUL multiplies the low 64 bits of each
128-bit half, and leaves the product in that half. -/
def clmul64 (a b : Nat) : Nat := (List.range 64).foldl (fun r i => if b.testBit i then r ^^^ (a * 2 ^ i) else r) 0

def execVclmul (t : Tid) (vd va vb : RegNo) (s : State) :=
  vecOp s t 0x6C vd va vb 0 (mapLanes 128 (fun a b => clmul64 (a % 2 ^ 64) (b % 2 ^ 64)))
def execVaes (t : Tid) (vd va vb : RegNo) (op : AesOp) (s : State) :=
  vecOp s t 0x6B vd va vb op.ctorIdx
    (mapLanes 128 (fun a b => (Config.aesStep op (BitVec.ofNat 128 a) (BitVec.ofNat 128 b)).toNat))
def execVsha2 (t : Tid) (vd va vb : RegNo) (op : Sha2Op) (s : State) :=
  vecOpD s t 0x6D vd va vb op.ctorIdx (Config.sha2Step op)
def execVsha3 (t : Tid) (vd va vb : RegNo) (op : Sha3Op) (round : Fin 24) (s : State) :=
  vecOpD s t 0x6E vd va vb (op.ctorIdx * 24 + round.val) (Config.sha3Step op round.val)

/-! ### Three-operand lanes -/

/-- One lane of VMODMA; none where an operand is at or above the modulus (R152). -/
def modLane (a b d c : Nat) : Option Nat := if c ≤ a ∨ c ≤ b ∨ c ≤ d then none else some ((a * b + d) % c)

def modLanes : List Nat → List Nat → List Nat → List Nat → Option (List Nat)
  | a :: as, b :: bs, d :: ds, c :: cs => do
    let x ← modLane a b d c
    let r ← modLanes as bs ds cs
    some (x :: r)
  | _, _, _, _ => some []

def execVmodma (t : Tid) (vd va vb vc : RegNo) (s : State) : Host.Outcome State Fault Refusal :=
  instrNext s t [wSEL 0x6F vd va vb vc ((Config.vecFn 0x6F 0).setWidth 5)] (fun s =>
    let s := useVecs s t [vd, va, vb, vc]
    let x := getT s t
    let l (r : RegNo) : List Nat := lanesOf 32 (x.vec r)
    match modLanes (l va) (l vb) (l vd) (l vc) with
    | none => faultAt s 0x32 none GReg.zero
    | some r => .ok (putVec s t vd (packLanes 32 r)))

def selLane (w : Lane) (m a b : Nat) : Nat :=
  if m = 2 ^ laneBits w - 1 then a else if m = 0 then b else Config.selMixed w m a b

def execVsel (t : Tid) (vd va vb vc : RegNo) (w : Lane) (s : State) : Host.Outcome State Fault Refusal :=
  instrNext s t [wSEL 0x70 vd va vb vc ((Config.vecFn 0x70 w.ctorIdx).setWidth 5)] (fun s =>
    let s := useVecs s t [vd, va, vb, vc]
    let x := getT s t
    let l (r : RegNo) : List Nat := lanesOf (laneBits w) (x.vec r)
    .ok (putVec s t vd (packLanes (laneBits w)
      (List.zipWith (fun m ab => selLane w m ab.1 ab.2) (l vc) (List.zip (l va) (l vb))))))

/-! ### Moves and reductions -/

/-- VMOV (R103). An extracted lane is zero-extended into the general register, and a lane number counts modulo the lanes, of which R103
says neither (DESIGN CHOICE, notes/assumptions/59.md). -/
def execVmov (t : Tid) (rd ra : RegNo) (op : VMovOp) (w : Lane) (s : State) : Host.Outcome State Fault Refusal :=
  let n := laneBits w
  instrNext s t [vecWord 0x69 rd ra 0 (movForm op w)] (fun s =>
    match op with
    | .insert i =>
      let s := useVecs (useRegs s t [ra]) t [rd]
      let x := getT s t
      .ok (putVec s t rd (packLanes n ((lanesOf n (x.vec rd)).set (i % (256 / n)) (x.int ra).toNat)))
    | .extract i =>
      let s := useVecs (useRegs s t [rd]) t [ra]
      .ok (putInt s t rd (BitVec.ofNat 64 ((lanesOf n ((getT s t).vec ra)).getD (i % (256 / n)) 0)))
    | .vector =>
      let s := useVecs s t [rd, ra]
      .ok (putVec s t rd ((getT s t).vec ra)))

def vredLane (op : VRedOp) (n a b : Nat) : Nat :=
  match op with
  | .add => (a + b) % 2 ^ n
  | .and => a &&& b
  | .or => a ||| b
  | .xor => a ^^^ b
  | .minS => if sextNat n a < sextNat n b then a else b
  | .maxS => if sextNat n a < sextNat n b then b else a
  | .minU => min a b
  | .maxU => max a b

def vred (op : VRedOp) (n : Nat) (v : Vec) : Nat :=
  match lanesOf n v with
  | [] => 0
  | a :: as => as.foldl (vredLane op n) a

/-- A reduction, a long operation (R169). DESIGN CHOICE (notes/assumptions/50.md): its result stands in lane 0, and the other lanes are
zero. -/
def execVred (t : Tid) (vd va : RegNo) (op : VRedOp) (w : Lane) (s : State) : Host.Outcome State Fault Refusal :=
  let ws := [vecWord 0x6A vd va 0 (op.ctorIdx * 4 + w.ctorIdx)]
  instrNext s t ws (fun s =>
    let s := useVecs s t [vd, va]
    let r := packLanes (laneBits w) [vred op (laneBits w) ((getT s t).vec va)]
    .ok (arith s t ws (.vector vd.toNat) GReg.zero r [] true))

/-! ### Floating point -/

/-- The conditions of all lanes, each once, in cause order (R153, R166): those of one instruction are equally old, and the lowest cause is
reported first (DESIGN CHOICE, notes/assumptions/59.md). -/
def mergeConds (cs : List (List ArithCond)) : List ArithCond :=
  [ArithCond.fpInvalid, .fpDz, .fpOv, .fpUnder, .fpInexact].filter (fun c => cs.any (fun l => l.contains c))

/-- Results of the lanes and their conditions; a scalar has one (R85). -/
def fpPack (n : Nat) (scalar : Bool) (rs : List FpRes) : Vec × List ArithCond :=
  let rs := if scalar then rs.take 1 else rs
  (packLanes n (rs.map (·.1)), mergeConds (rs.map (·.2)))

/-- A floating-point operation on lanes of two registers. -/
def fpOp (s : State) (t : Tid) (op : Nat) (vd va vb : RegNo) (form : Nat) (w : FpW) (scalar long : Bool)
    (f : Nat → Nat → Nat → FpRes) : Host.Outcome State Fault Refusal :=
  let ws := [vecWord op vd va vb (form * 4 + w.ctorIdx * 2 + ofBool scalar)]
  instrNext s t ws (fun s =>
    let s := useVecs s t [vd, va, vb]
    let x := getT s t
    let n := FpBits w
    let r := fpPack n scalar (List.zipWith (f (fld x.tctrl Tctrl.rm)) (lanesOf n (x.vec va)) (lanesOf n (x.vec vb)))
    .ok (arith s t ws (.vector vd.toNat) GReg.zero r.1 r.2 long))

def execFadd (t : Tid) (vd va vb : RegNo) (op : FAddOp) (w : FpW) (scalar : Bool) (s : State) :=
  fpOp s t 0x64 vd va vb op.ctorIdx w scalar false (fun rm a b =>
    match op with
    | .add => fpAdd w rm a b
    | .sub => fpSub w rm a b
    | o => fpCompare w o a b)
def execFmul (t : Tid) (vd va vb : RegNo) (w : FpW) (scalar : Bool) (s : State) :=
  fpOp s t 0x65 vd va vb 0 w scalar false (fpMul w)
def execFdiv (t : Tid) (vd va vb : RegNo) (op : FDivOp) (w : FpW) (scalar : Bool) (s : State) :=
  fpOp s t 0x67 vd va vb op.ctorIdx w scalar true (fun rm a b =>
    match op with
    | .div => fpDivide w rm a b
    | .sqrt => fpSqrt w rm a)

def execFma (t : Tid) (vd va vb vc : RegNo) (w : FpW) (scalar : Bool) (s : State) : Host.Outcome State Fault Refusal :=
  let ws := [wSEL 0x66 vd va vb vc ((Config.vecFn 0x66 (w.ctorIdx * 2 + ofBool scalar)).setWidth 5)]
  instrNext s t ws (fun s =>
    let s := useVecs s t [vd, va, vb, vc]
    let x := getT s t
    let n := FpBits w
    let l (r : RegNo) : List Nat := lanesOf n (x.vec r)
    let r := fpPack n scalar (List.zipWith (fun ab c => fpFma w (fld x.tctrl Tctrl.rm) ab.1 ab.2 c)
      (List.zip (l va) (l vb)) (l vc))
    .ok (arith s t ws (.vector vd.toNat) GReg.zero r.1 r.2 false))

/-- One element of a conversion: source bits, destination bits, and the function. -/
def cvtElem (op : FCvtOp) (rm : Nat) : Nat × Nat × (Nat → FpRes) :=
  match op with
  | .toSigned w l => (FpBits w, laneBits l, fpToInt w rm (laneBits l) (-2 ^ (laneBits l - 1)) (2 ^ (laneBits l - 1) - 1))
  | .toUnsigned w l => (FpBits w, laneBits l, fpToInt w rm (laneBits l) 0 (2 ^ laneBits l - 1))
  | .fromSigned l w => (laneBits l, FpBits w, fun a => fpFromInt w rm (sextNat (laneBits l) a))
  | .fromUnsigned l w => (laneBits l, FpBits w, fun a => fpFromInt w rm a)
  | .width a b => (FpBits a, FpBits b, fpWidth a b rm)

/-- Elements keep their numbers: as many as fit the wider of the two widths. -/
def execFcvt (t : Tid) (vd va : RegNo) (op : FCvtOp) (scalar : Bool) (s : State) : Host.Outcome State Fault Refusal :=
  let ws := [vecWord 0x68 vd va 0 (cvtForm op * 2 + ofBool scalar)]
  instrNext s t ws (fun s =>
    let s := useVecs s t [vd, va]
    let x := getT s t
    let (src, dst, f) := cvtElem op (fld x.tctrl Tctrl.rm)
    let r := fpPack dst scalar (((lanesOf src (x.vec va)).take (256 / max src dst)).map f)
    .ok (arith s t ws (.vector vd.toNat) GReg.zero r.1 r.2 false))

end Sys2Proof.Machine
end

