-- ==== Sys2Proof/Machine/Dispatch.lean ====
section
/-! DEFINITION. The dispatch of a command to its meaning. -/

namespace Sys2Proof.Machine

def exec (i : Instr) (s : State) : Host.Outcome State Fault Refusal :=
  match i with
  | .registerWrite r a wide v => Sys2Proof.Machine.execRegisterWrite r a wide v s
  | .unitStartCommand u => Sys2Proof.Machine.execUnitStartCommand u s
  | .placeSpare u => Sys2Proof.Machine.execPlaceSpare u s
  | .bivouacPowerDown u => Sys2Proof.Machine.execBivouacPowerDown u s
  | .startSequenceComplete u => Sys2Proof.Machine.execStartSequenceComplete u s
  | .startSequenceError u => Sys2Proof.Machine.execStartSequenceError u s
  | .drainCommand u => Sys2Proof.Machine.execDrainCommand u s
  | .drainComplete u retire => Sys2Proof.Machine.execDrainComplete u retire s
  | .drainCancelled u => Sys2Proof.Machine.execDrainCancelled u s
  | .unitFailure u why => Sys2Proof.Machine.execUnitFailure u why s
  | .containmentWithdraw u => Sys2Proof.Machine.execContainmentWithdraw u s
  | .failedRestart u => Sys2Proof.Machine.execFailedRestart u s
  | .stateMessage k => Sys2Proof.Machine.execStateMessage k s
  | .droopPause d mv => Sys2Proof.Machine.execDroopPause d mv s
  | .droopResume d mv => Sys2Proof.Machine.execDroopResume d mv s
  | .referenceLoss r => Sys2Proof.Machine.execReferenceLoss r s
  | .referenceReturn r => Sys2Proof.Machine.execReferenceReturn r s
  | .revertSwitch => Sys2Proof.Machine.execRevertSwitch s
  | .governorEvaluation h x t0 t1 t2 t3 => Sys2Proof.Machine.execGovernorEvaluation h x t0 t1 t2 t3 s
  | .voltageStep d => Sys2Proof.Machine.execVoltageStep d s
  | .powerWindow h mean => Sys2Proof.Machine.execPowerWindow h mean s
  | .sensorSelfCheckFail h k => Sys2Proof.Machine.execSensorSelfCheckFail h k s
  | .domainTrip d reading => Sys2Proof.Machine.execDomainTrip d reading s
  | .softStopResume d readings => Sys2Proof.Machine.execSoftStopResume d readings s
  | .packageCritical d reading => Sys2Proof.Machine.execPackageCritical d reading s
  | .thermTrip => Sys2Proof.Machine.execThermTrip s
  | .holdoverCapacitorLow mv => Sys2Proof.Machine.execHoldoverCapacitorLow mv s
  | .call t disp => Sys2Proof.Machine.execCall t disp s
  | .callr t ra => Sys2Proof.Machine.execCallr t ra s
  | .ret t => Sys2Proof.Machine.execRet t s
  | .spill t => Sys2Proof.Machine.execSpill t s
  | .windowFill t => Sys2Proof.Machine.execWindowFill t s
  | .rdtr t rd ra rb fn => Sys2Proof.Machine.execRdtr t rd ra rb fn s
  | .wrtrWstack t rd ra rb rsv => Sys2Proof.Machine.execWrtrWstack t rd ra rb rsv s
  | .wrtrFstack t rd ra rb rsv => Sys2Proof.Machine.execWrtrFstack t rd ra rb rsv s
  | .wrtrFgate t rd ra rb rsv => Sys2Proof.Machine.execWrtrFgate t rd ra rb rsv s
  | .wrtrGatetab t rd ra rb rsv => Sys2Proof.Machine.execWrtrGatetab t rd ra rb rsv s
  | .wrtrTctrl t rd ra rb rsv => Sys2Proof.Machine.execWrtrTctrl t rd ra rb rsv s
  | .wrtrTstatus t rd ra rb rsv => Sys2Proof.Machine.execWrtrTstatus t rd ra rb rsv s
  | .add t rd ra rb => Sys2Proof.Machine.execAdd t rd ra rb s
  | .sub t rd ra rb => Sys2Proof.Machine.execSub t rd ra rb s
  | .and t rd ra rb => Sys2Proof.Machine.execAnd t rd ra rb s
  | .or t rd ra rb => Sys2Proof.Machine.execOr t rd ra rb s
  | .xor t rd ra rb => Sys2Proof.Machine.execXor t rd ra rb s
  | .andn t rd ra rb => Sys2Proof.Machine.execAndn t rd ra rb s
  | .sll t rd ra rb => Sys2Proof.Machine.execSll t rd ra rb s
  | .srl t rd ra rb => Sys2Proof.Machine.execSrl t rd ra rb s
  | .sra t rd ra rb => Sys2Proof.Machine.execSra t rd ra rb s
  | .rol t rd ra rb => Sys2Proof.Machine.execRol t rd ra rb s
  | .ror t rd ra rb => Sys2Proof.Machine.execRor t rd ra rb s
  | .clz t rd ra rb => Sys2Proof.Machine.execClz t rd ra rb s
  | .ctz t rd ra rb => Sys2Proof.Machine.execCtz t rd ra rb s
  | .popc t rd ra rb => Sys2Proof.Machine.execPopc t rd ra rb s
  | .bswap t rd ra rb => Sys2Proof.Machine.execBswap t rd ra rb s
  | .slt t rd ra rb => Sys2Proof.Machine.execSlt t rd ra rb s
  | .sltu t rd ra rb => Sys2Proof.Machine.execSltu t rd ra rb s
  | .min t rd ra rb => Sys2Proof.Machine.execMin t rd ra rb s
  | .max t rd ra rb => Sys2Proof.Machine.execMax t rd ra rb s
  | .minu t rd ra rb => Sys2Proof.Machine.execMinu t rd ra rb s
  | .maxu t rd ra rb => Sys2Proof.Machine.execMaxu t rd ra rb s
  | .addi t limm rd ra imm => Sys2Proof.Machine.execAddi t limm rd ra imm s
  | .andi t limm rd ra imm => Sys2Proof.Machine.execAndi t limm rd ra imm s
  | .ori t limm rd ra imm => Sys2Proof.Machine.execOri t limm rd ra imm s
  | .xori t limm rd ra imm => Sys2Proof.Machine.execXori t limm rd ra imm s
  | .shi t limm rd ra imm => Sys2Proof.Machine.execShi t limm rd ra imm s
  | .slti t limm rd ra imm => Sys2Proof.Machine.execSlti t limm rd ra imm s
  | .sltiu t limm rd ra imm => Sys2Proof.Machine.execSltiu t limm rd ra imm s
  | .bitf t limm rd ra imm => Sys2Proof.Machine.execBitf t limm rd ra imm s
  | .mulLow t rd ra rb => Sys2Proof.Machine.execMulLow t rd ra rb s
  | .mulHighSigned t rd ra rb => Sys2Proof.Machine.execMulHighSigned t rd ra rb s
  | .mulHighUnsigned t rd ra rb => Sys2Proof.Machine.execMulHighUnsigned t rd ra rb s
  | .mulHighSignedUnsigned t rd ra rb => Sys2Proof.Machine.execMulHighSignedUnsigned t rd ra rb s
  | .div t rd ra rb => Sys2Proof.Machine.execDiv t rd ra rb s
  | .divu t rd ra rb => Sys2Proof.Machine.execDivu t rd ra rb s
  | .rem t rd ra rb => Sys2Proof.Machine.execRem t rd ra rb s
  | .remu t rd ra rb => Sys2Proof.Machine.execRemu t rd ra rb s
  | .longOpComplete t k => Sys2Proof.Machine.execLongOpComplete t k s
  | .addt t rd ra rb => Sys2Proof.Machine.execAddt t rd ra rb s
  | .subt t rd ra rb => Sys2Proof.Machine.execSubt t rd ra rb s
  | .mult t rd ra rb => Sys2Proof.Machine.execMult t rd ra rb s
  | .divtQuotient t rd ra rb => Sys2Proof.Machine.execDivtQuotient t rd ra rb s
  | .divtRemainder t rd ra rb => Sys2Proof.Machine.execDivtRemainder t rd ra rb s
  | .sel t rd ra rb rc cond rsv => Sys2Proof.Machine.execSel t rd ra rb rc cond rsv s
  | .cmov t rd ra rb rc cond rsv => Sys2Proof.Machine.execCmov t rd ra rb rc cond rsv s
  | .beq t ra rb disp => Sys2Proof.Machine.execBeq t ra rb disp s
  | .bne t ra rb disp => Sys2Proof.Machine.execBne t ra rb disp s
  | .blt t ra rb disp => Sys2Proof.Machine.execBlt t ra rb disp s
  | .bge t ra rb disp => Sys2Proof.Machine.execBge t ra rb disp s
  | .bltu t ra rb disp => Sys2Proof.Machine.execBltu t ra rb disp s
  | .bgeu t ra rb disp => Sys2Proof.Machine.execBgeu t ra rb disp s
  | .j t disp => Sys2Proof.Machine.execJ t disp s
  | .jr t ra => Sys2Proof.Machine.execJr t ra s
  | .trap t limm n => Sys2Proof.Machine.execTrap t limm n s
  | .fret t rsv => Sys2Proof.Machine.execFret t rsv s
  | .wait t ra => Sys2Proof.Machine.execWait t ra s
  | .waitDeadline t => Sys2Proof.Machine.execWaitDeadline t s
  | .ldB t rd ra am imm => Sys2Proof.Machine.execLdB t rd ra am imm s
  | .ldBu t rd ra am imm => Sys2Proof.Machine.execLdBu t rd ra am imm s
  | .ldH t rd ra am imm => Sys2Proof.Machine.execLdH t rd ra am imm s
  | .ldHu t rd ra am imm => Sys2Proof.Machine.execLdHu t rd ra am imm s
  | .ldW t rd ra am imm => Sys2Proof.Machine.execLdW t rd ra am imm s
  | .ldWu t rd ra am imm => Sys2Proof.Machine.execLdWu t rd ra am imm s
  | .ldD t rd ra am imm => Sys2Proof.Machine.execLdD t rd ra am imm s
  | .ldC t rd ra am imm => Sys2Proof.Machine.execLdC t rd ra am imm s
  | .stB t rd ra am imm => Sys2Proof.Machine.execStB t rd ra am imm s
  | .stH t rd ra am imm => Sys2Proof.Machine.execStH t rd ra am imm s
  | .stW t rd ra am imm => Sys2Proof.Machine.execStW t rd ra am imm s
  | .stD t rd ra am imm => Sys2Proof.Machine.execStD t rd ra am imm s
  | .stC t rd ra am imm => Sys2Proof.Machine.execStC t rd ra am imm s
  | .ldV t rd ra am imm => Sys2Proof.Machine.execLdV t rd ra am imm s
  | .stV t rd ra am imm => Sys2Proof.Machine.execStV t rd ra am imm s
  | .ldxB t rd ra rb sh w m x => Sys2Proof.Machine.execLdxB t rd ra rb sh w m x s
  | .ldxH t rd ra rb sh w m x => Sys2Proof.Machine.execLdxH t rd ra rb sh w m x s
  | .ldxW t rd ra rb sh w m x => Sys2Proof.Machine.execLdxW t rd ra rb sh w m x s
  | .ldxD t rd ra rb sh w m x => Sys2Proof.Machine.execLdxD t rd ra rb sh w m x s
  | .ldxC t rd ra rb sh w m x => Sys2Proof.Machine.execLdxC t rd ra rb sh w m x s
  | .ldxV t rd ra rb sh w m x => Sys2Proof.Machine.execLdxV t rd ra rb sh w m x s
  | .stxB t rd ra rb sh w m x => Sys2Proof.Machine.execStxB t rd ra rb sh w m x s
  | .stxH t rd ra rb sh w m x => Sys2Proof.Machine.execStxH t rd ra rb sh w m x s
  | .stxW t rd ra rb sh w m x => Sys2Proof.Machine.execStxW t rd ra rb sh w m x s
  | .stxD t rd ra rb sh w m x => Sys2Proof.Machine.execStxD t rd ra rb sh w m x s
  | .stxC t rd ra rb sh w m x => Sys2Proof.Machine.execStxC t rd ra rb sh w m x s
  | .stxV t rd ra rb sh w m x => Sys2Proof.Machine.execStxV t rd ra rb sh w m x s
  | .amoFadd t rd ra rb order wide rsv => Sys2Proof.Machine.execAmoFadd t rd ra rb order wide rsv s
  | .amoSwap t rd ra rb order wide rsv => Sys2Proof.Machine.execAmoSwap t rd ra rb order wide rsv s
  | .amoAnd t rd ra rb order wide rsv => Sys2Proof.Machine.execAmoAnd t rd ra rb order wide rsv s
  | .amoOr t rd ra rb order wide rsv => Sys2Proof.Machine.execAmoOr t rd ra rb order wide rsv s
  | .amoXor t rd ra rb order wide rsv => Sys2Proof.Machine.execAmoXor t rd ra rb order wide rsv s
  | .amoSmin t rd ra rb order wide rsv => Sys2Proof.Machine.execAmoSmin t rd ra rb order wide rsv s
  | .amoSmax t rd ra rb order wide rsv => Sys2Proof.Machine.execAmoSmax t rd ra rb order wide rsv s
  | .amoUmin t rd ra rb order wide rsv => Sys2Proof.Machine.execAmoUmin t rd ra rb order wide rsv s
  | .amoUmax t rd ra rb order wide rsv => Sys2Proof.Machine.execAmoUmax t rd ra rb order wide rsv s
  | .cas t rd ra rb order width rsv => Sys2Proof.Machine.execCas t rd ra rb order width rsv s
  | .fenceFull t => Sys2Proof.Machine.execFenceFull t s
  | .fenceAcq t => Sys2Proof.Machine.execFenceAcq t s
  | .fenceRel t => Sys2Proof.Machine.execFenceRel t s
  | .fenceSs t => Sys2Proof.Machine.execFenceSs t s
  | .fenceIo t => Sys2Proof.Machine.execFenceIo t s
  | .lda t rd ra size rsv => Sys2Proof.Machine.execLda t rd ra size rsv s
  | .strel t rd ra size rsv => Sys2Proof.Machine.execStrel t rd ra size rsv s
  | .isync t => Sys2Proof.Machine.execIsync t s
  | .abar t => Sys2Proof.Machine.execAbar t s
  | .cmoClean t ra am imm => Sys2Proof.Machine.execCmoClean t ra am imm s
  | .cmoFlush t ra am imm => Sys2Proof.Machine.execCmoFlush t ra am imm s
  | .cmoZero t ra am imm => Sys2Proof.Machine.execCmoZero t ra am imm s
  | .prf t ra am imm => Sys2Proof.Machine.execPrf t ra am imm s
  | .cxbase t rd ra rb => Sys2Proof.Machine.execCxbase t rd ra rb s
  | .cxlen t rd ra rb => Sys2Proof.Machine.execCxlen t rd ra rb s
  | .cxperm t rd ra rb => Sys2Proof.Machine.execCxperm t rd ra rb s
  | .cxtype t rd ra rb => Sys2Proof.Machine.execCxtype t rd ra rb s
  | .cxtag t rd ra rb => Sys2Proof.Machine.execCxtag t rd ra rb s
  | .cxmove t rd ra rb => Sys2Proof.Machine.execCxmove t rd ra rb s
  | .cxdrop t rd ra rb => Sys2Proof.Machine.execCxdrop t rd ra rb s
  | .cxbound t rd ra rb => Sys2Proof.Machine.execCxbound t rd ra rb s
  | .cxboundx t rd ra rb => Sys2Proof.Machine.execCxboundx t rd ra rb s
  | .cxseal t rd ra rb => Sys2Proof.Machine.execCxseal t rd ra rb s
  | .cxopen t rd ra rb => Sys2Proof.Machine.execCxopen t rd ra rb s
  | .cxstrip t rd ra rb => Sys2Proof.Machine.execCxstrip t rd ra rb s
  | .cxwithin t rd ra rb => Sys2Proof.Machine.execCxwithin t rd ra rb s
  | .cxfitlen t rd ra rb => Sys2Proof.Machine.execCxfitlen t rd ra rb s
  | .cxfitbase t rd ra rb => Sys2Proof.Machine.execCxfitbase t rd ra rb s
  | .cxaddi t limm rd ra imm => Sys2Proof.Machine.execCxaddi t limm rd ra imm s
  | .cxboundi t limm rd ra imm => Sys2Proof.Machine.execCxboundi t limm rd ra imm s
  | .blkmove t rd ra rb fn => Sys2Proof.Machine.execBlkmove t rd ra rb fn s
  | .blkfill t rd ra rb fn => Sys2Proof.Machine.execBlkfill t rd ra rb fn s
  | .blkcmp t rd ra rb fn => Sys2Proof.Machine.execBlkcmp t rd ra rb fn s
  | .crcrange t rd ra rb fn => Sys2Proof.Machine.execCrcrange t rd ra rb fn s
  | .nttpass t rd ra rb fn => Sys2Proof.Machine.execNttpass t rd ra rb fn s
  | .blockElement t op rd ra rb => Sys2Proof.Machine.execBlockElement t op rd ra rb s
  | .rdtime t rd => Sys2Proof.Machine.execRdtime t rd s
  | .feat t limm rd ra imm => Sys2Proof.Machine.execFeat t limm rd ra imm s
  | .tlbiVaAsid t rd ra rb pkg rsv => Sys2Proof.Machine.execTlbiVaAsid t rd ra rb pkg rsv s
  | .tlbiVa t rd ra rb pkg rsv => Sys2Proof.Machine.execTlbiVa t rd ra rb pkg rsv s
  | .tlbiAsid t rd ra rb pkg rsv => Sys2Proof.Machine.execTlbiAsid t rd ra rb pkg rsv s
  | .tlbiVmidCurrent t rd ra rb pkg rsv => Sys2Proof.Machine.execTlbiVmidCurrent t rd ra rb pkg rsv s
  | .tlbiIpa t rd ra rb pkg rsv => Sys2Proof.Machine.execTlbiIpa t rd ra rb pkg rsv s
  | .tlbiVmid t rd ra rb pkg rsv => Sys2Proof.Machine.execTlbiVmid t rd ra rb pkg rsv s
  | .tlbiAll t rd ra rb pkg rsv => Sys2Proof.Machine.execTlbiAll t rd ra rb pkg rsv s
  | .tlbiSync t rd ra rb pkg rsv => Sys2Proof.Machine.execTlbiSync t rd ra rb pkg rsv s
  | .vint t vd va vb op w => Sys2Proof.Machine.execVint t vd va vb op w s
  | .vmul t vd va vb op w => Sys2Proof.Machine.execVmul t vd va vb op w s
  | .vshl t vd va vb op w => Sys2Proof.Machine.execVshl t vd va vb op w s
  | .vperm t vd va vb op w => Sys2Proof.Machine.execVperm t vd va vb op w s
  | .fadd t vd va vb op w scalar => Sys2Proof.Machine.execFadd t vd va vb op w scalar s
  | .fmul t vd va vb w scalar => Sys2Proof.Machine.execFmul t vd va vb w scalar s
  | .fma t vd va vb vc w scalar => Sys2Proof.Machine.execFma t vd va vb vc w scalar s
  | .fdiv t vd va vb op w scalar => Sys2Proof.Machine.execFdiv t vd va vb op w scalar s
  | .fcvt t vd va op scalar => Sys2Proof.Machine.execFcvt t vd va op scalar s
  | .vmov t rd ra op w => Sys2Proof.Machine.execVmov t rd ra op w s
  | .vred t vd va op w => Sys2Proof.Machine.execVred t vd va op w s
  | .vaes t vd va vb op => Sys2Proof.Machine.execVaes t vd va vb op s
  | .vclmul t vd va vb => Sys2Proof.Machine.execVclmul t vd va vb s
  | .vsha2 t vd va vb op => Sys2Proof.Machine.execVsha2 t vd va vb op s
  | .vsha3 t vd va vb op round => Sys2Proof.Machine.execVsha3 t vd va vb op round s
  | .vmodma t vd va vb vc => Sys2Proof.Machine.execVmodma t vd va vb vc s
  | .vsel t vd va vb vc w => Sys2Proof.Machine.execVsel t vd va vb vc w s
  | .faultEntry t src => Sys2Proof.Machine.execFaultEntry t src s
  | .impreciseReport t => Sys2Proof.Machine.execImpreciseReport t s
  | .interruptEntry t => Sys2Proof.Machine.execInterruptEntry t s
  | .interruptMessage k => Sys2Proof.Machine.execInterruptMessage k s
  | .irqSend r t v => Sys2Proof.Machine.execIrqSend r t v s
  | .mispredictRecovery x => Sys2Proof.Machine.execMispredictRecovery x s
  | .bulkClear t => Sys2Proof.Machine.execBulkClear t s
  | .bulkClearDone t => Sys2Proof.Machine.execBulkClearDone t s
  | .predClearWrite r t v => Sys2Proof.Machine.execPredClearWrite r t v s
  | .hardwarePrefetch t va => Sys2Proof.Machine.execHardwarePrefetch t va s
  | .storeRelease t k => Sys2Proof.Machine.execStoreRelease t k s
  | .pageWalk t va => Sys2Proof.Machine.execPageWalk t va s
  | .rootWrite r t second v => Sys2Proof.Machine.execRootWrite r t second v s
  | .slip t c => Sys2Proof.Machine.execSlip t c s
  | .fall t c => Sys2Proof.Machine.execFall t c s
  | .slipLimitReached k => Sys2Proof.Machine.execSlipLimitReached k s
  | .checkInject r k v => Sys2Proof.Machine.execCheckInject r k v s
  | .spareChoose k => Sys2Proof.Machine.execSpareChoose k s
  | .spareRaiseDone k ok => Sys2Proof.Machine.execSpareRaiseDone k ok s
  | .captureDone k => Sys2Proof.Machine.execCaptureDone k s
  | .flushDone k => Sys2Proof.Machine.execFlushDone k s
  | .stateLoadDone k => Sys2Proof.Machine.execStateLoadDone k s
  | .rebindDone k => Sys2Proof.Machine.execRebindDone k s
  | .spareResume k => Sys2Proof.Machine.execSpareResume k s
  | .soloArrayError t => Sys2Proof.Machine.execSoloArrayError t s
  | .soloUncorrectable k => Sys2Proof.Machine.execSoloUncorrectable k s
  | .reserveRelease x k seq => Sys2Proof.Machine.execReserveRelease x k seq s
  | .reserveReturn x k seq => Sys2Proof.Machine.execReserveReturn x k seq s
  | .tagRecovery u array set what => Sys2Proof.Machine.execTagRecovery u array set what s
  | .wayDisable u array way management => Sys2Proof.Machine.execWayDisable u array way management s
  | .scratchCfgWrite r v => Sys2Proof.Machine.execScratchCfgWrite r v s
  | .scratchChangeDone => Sys2Proof.Machine.execScratchChangeDone s
  | .sliceHold ix drain => Sys2Proof.Machine.execSliceHold ix drain s
  | .directoryTransferDone ix => Sys2Proof.Machine.execDirectoryTransferDone ix s
  | .sliceMapCommit ix => Sys2Proof.Machine.execSliceMapCommit ix s
  | .sliceRelease ix => Sys2Proof.Machine.execSliceRelease ix s
  | .substituteBuddyCopyDone h => Sys2Proof.Machine.execSubstituteBuddyCopyDone h s
  | .rdS k line prefetch x => Sys2Proof.Machine.execRdS k line prefetch x s
  | .rdO k line => Sys2Proof.Machine.execRdO k line s
  | .upg k line => Sys2Proof.Machine.execUpg k line s
  | .rdOnce r line => Sys2Proof.Machine.execRdOnce r line s
  | .wrLine w line bytes hint => Sys2Proof.Machine.execWrLine w line bytes hint s
  | .wrPart w pa bytes => Sys2Proof.Machine.execWrPart w pa bytes s
  | .wb k line => Sys2Proof.Machine.execWb k line s
  | .notice k line => Sys2Proof.Machine.execNotice k line s
  | .atom w pa op wide v => Sys2Proof.Machine.execAtom w pa op wide v s
  | .snpS m => Sys2Proof.Machine.execSnpS m s
  | .snpO m => Sys2Proof.Machine.execSnpO m s
  | .snpInv m => Sys2Proof.Machine.execSnpInv m s
  | .stash m k => Sys2Proof.Machine.execStash m k s
  | .dupUpd m => Sys2Proof.Machine.execDupUpd m s
  | .data m => Sys2Proof.Machine.execData m s
  | .ack m => Sys2Proof.Machine.execAck m s
  | .nack m => Sys2Proof.Machine.execNack m s
  | .stale m => Sys2Proof.Machine.execStale m s
  | .retry m => Sys2Proof.Machine.execRetry m s
  | .noTarget m => Sys2Proof.Machine.execNoTarget m s
  | .packetHop k fresh => Sys2Proof.Machine.execPacketHop k fresh s
  | .linkReplay st d => Sys2Proof.Machine.execLinkReplay st d s
  | .livenessToken st d => Sys2Proof.Machine.execLivenessToken st d s
  | .linkDown st d lockLost => Sys2Proof.Machine.execLinkDown st d lockLost s
  | .linkOutOfService st d => Sys2Proof.Machine.execLinkOutOfService st d s
  | .routeCommit changes => Sys2Proof.Machine.execRouteCommit changes s
  | .quietDrained => Sys2Proof.Machine.execQuietDrained s
  | .alternativesReady links stops => Sys2Proof.Machine.execAlternativesReady links stops s
  | .reroute isStop n => Sys2Proof.Machine.execReroute isStop n s
  | .routeRecompute => Sys2Proof.Machine.execRouteRecompute s
  | .requestTimeout k => Sys2Proof.Machine.execRequestTimeout k s
  | .completerRecordExpiry k => Sys2Proof.Machine.execCompleterRecordExpiry k s
  | .mcCommandIssue c sub allowed pat mpat draw => Sys2Proof.Machine.execMcCommandIssue c sub allowed pat mpat draw s
  | .refreshDue c rank hot => Sys2Proof.Machine.execRefreshDue c rank hot s
  | .driftTracking c writes => Sys2Proof.Machine.execDriftTracking c writes s
  | .frequencyChange r c v => Sys2Proof.Machine.execFrequencyChange r c v s
  | .frequencyChangeDone c rate => Sys2Proof.Machine.execFrequencyChangeDone c rate s
  | .channelFailure c => Sys2Proof.Machine.execChannelFailure c s
  | .rankMigrationStart c rank => Sys2Proof.Machine.execRankMigrationStart c rank s
  | .migrationCopy c pat mpat => Sys2Proof.Machine.execMigrationCopy c pat mpat s
  | .migrationDone c => Sys2Proof.Machine.execMigrationDone c s
  | .gleanerRead c pat mpat => Sys2Proof.Machine.execGleanerRead c pat mpat s
  | .spareRankTest c good => Sys2Proof.Machine.execSpareRankTest c good s
  | .cxlLinkLoss l => Sys2Proof.Machine.execCxlLinkLoss l s
  | .cxlLinkTrain o ok => Sys2Proof.Machine.execCxlLinkTrain o ok s
  | .hostCompletion p tag count lower c => Sys2Proof.Machine.execHostCompletion p tag count lower c s
  | .completionTimeout p tag => Sys2Proof.Machine.execCompletionTimeout p tag s
  | .quarantineExpiry p tag => Sys2Proof.Machine.execQuarantineExpiry p tag s
  | .tagWaitTimeout p k => Sys2Proof.Machine.execTagWaitTimeout p k s
  | .busMasterDisable p ix => Sys2Proof.Machine.execBusMasterDisable p ix s
  | .busMasterEnable p ix => Sys2Proof.Machine.execBusMasterEnable p ix s
  | .functionLevelReset p ix finish => Sys2Proof.Machine.execFunctionLevelReset p ix finish s
  | .portReset p why => Sys2Proof.Machine.execPortReset p why s
  | .portReady p => Sys2Proof.Machine.execPortReady p s
  | .portFreeze p why => Sys2Proof.Machine.execPortFreeze p why s
  | .outboundStall p => Sys2Proof.Machine.execOutboundStall p s
  | .freezeWrite r p => Sys2Proof.Machine.execFreezeWrite r p s
  | .releaseWrite r p => Sys2Proof.Machine.execReleaseWrite r p s
  | .autoRelease p => Sys2Proof.Machine.execAutoRelease p s
  | .msixVectorSend p ix v => Sys2Proof.Machine.execMsixVectorSend p ix v s
  | .doorbellWrite r g off wide v => Sys2Proof.Machine.execDoorbellWrite r g off wide v s
  | .doorbellPoll g => Sys2Proof.Machine.execDoorbellPoll g s
  | .refresh r g => Sys2Proof.Machine.execRefresh r g s
  | .chanStart r g => Sys2Proof.Machine.execChanStart r g s
  | .chanStop r g => Sys2Proof.Machine.execChanStop r g s
  | .abort r g => Sys2Proof.Machine.execAbort r g s
  | .flush r g => Sys2Proof.Machine.execFlush r g s
  | .chanReset r g => Sys2Proof.Machine.execChanReset r g s
  | .channelStopped g => Sys2Proof.Machine.execChannelStopped g s
  | .descriptorStart f => Sys2Proof.Machine.execDescriptorStart f s
  | .descriptorComplete g => Sys2Proof.Machine.execDescriptorComplete g s
  | .irqTimeTrigger g => Sys2Proof.Machine.execIrqTimeTrigger g s
  | .liveWordWrite g => Sys2Proof.Machine.execLiveWordWrite g s
  | .descNop g slot => Sys2Proof.Machine.execDescNop g slot s
  | .descFence g slot => Sys2Proof.Machine.execDescFence g slot s
  | .descWait g slot => Sys2Proof.Machine.execDescWait g slot s
  | .executionTimeout g slot => Sys2Proof.Machine.execExecutionTimeout g slot s
  | .dCopy g slot => Sys2Proof.Machine.execDCopy g slot s
  | .dGather g slot => Sys2Proof.Machine.execDGather g slot s
  | .dScatter g slot => Sys2Proof.Machine.execDScatter g slot s
  | .dFill g slot => Sys2Proof.Machine.execDFill g slot s
  | .dCrc g slot => Sys2Proof.Machine.execDCrc g slot s
  | .dCompare g slot => Sys2Proof.Machine.execDCompare g slot s
  | .dCopyCrc g slot => Sys2Proof.Machine.execDCopyCrc g slot s
  | .moveElement g slot => Sys2Proof.Machine.execMoveElement g slot s
  | .engineMismatch f key k => Sys2Proof.Machine.execEngineMismatch f key k s
  | .msg g slot => Sys2Proof.Machine.execMsg g slot s
  | .msgi g slot => Sys2Proof.Machine.execMsgi g slot s
  | .queueHeadRecheck f q => Sys2Proof.Machine.execQueueHeadRecheck f q s
  | .serviceQueueEnable r f q v => Sys2Proof.Machine.execServiceQueueEnable r f q v s
  | .aesEcb g slot => Sys2Proof.Machine.execAesEcb g slot s
  | .aesCbc g slot => Sys2Proof.Machine.execAesCbc g slot s
  | .aesCtr g slot => Sys2Proof.Machine.execAesCtr g slot s
  | .aesGcm g slot => Sys2Proof.Machine.execAesGcm g slot s
  | .aesCmac g slot => Sys2Proof.Machine.execAesCmac g slot s
  | .tdea g slot => Sys2Proof.Machine.execTdea g slot s
  | .sha2 g slot => Sys2Proof.Machine.execSha2 g slot s
  | .sha3 g slot => Sys2Proof.Machine.execSha3 g slot s
  | .hmac g slot => Sys2Proof.Machine.execHmac g slot s
  | .random g slot => Sys2Proof.Machine.execRandom g slot s
  | .rsaPrivate g slot => Sys2Proof.Machine.execRsaPrivate g slot s
  | .rsaPublic g slot => Sys2Proof.Machine.execRsaPublic g slot s
  | .ecdsaSign g slot => Sys2Proof.Machine.execEcdsaSign g slot s
  | .ecdsaVerify g slot => Sys2Proof.Machine.execEcdsaVerify g slot s
  | .ecdh g slot => Sys2Proof.Machine.execEcdh g slot s
  | .ed25519Sign g slot => Sys2Proof.Machine.execEd25519Sign g slot s
  | .ed25519Verify g slot => Sys2Proof.Machine.execEd25519Verify g slot s
  | .x25519 g slot => Sys2Proof.Machine.execX25519 g slot s
  | .mlKemEncapsulate g slot => Sys2Proof.Machine.execMlKemEncapsulate g slot s
  | .mlKemDecapsulate g slot => Sys2Proof.Machine.execMlKemDecapsulate g slot s
  | .mlDsaSign g slot => Sys2Proof.Machine.execMlDsaSign g slot s
  | .mlDsaVerify g slot => Sys2Proof.Machine.execMlDsaVerify g slot s
  | .pinTranslate g slot => Sys2Proof.Machine.execPinTranslate g slot s
  | .keyOperationEnd g slot => Sys2Proof.Machine.execKeyOperationEnd g slot s
  | .engineRestart f key k selfTest => Sys2Proof.Machine.execEngineRestart f key k selfTest s
  | .ucodeStageWrite r f k w v => Sys2Proof.Machine.execUcodeStageWrite r f k w v s
  | .ucodeCommit r f k v => Sys2Proof.Machine.execUcodeCommit r f k v s
  | .ucodeDiscard r f k v => Sys2Proof.Machine.execUcodeDiscard r f k v s
  | .ucodeCheckDone f k => Sys2Proof.Machine.execUcodeCheckDone f k s
  | .ucodeApply f k => Sys2Proof.Machine.execUcodeApply f k s
  | .floorWindow p => Sys2Proof.Machine.execFloorWindow p s
  | .mbxSend p ix => Sys2Proof.Machine.execMbxSend p ix s
  | .mbxAck p ix => Sys2Proof.Machine.execMbxAck p ix s
  | .mgrSend r p ix => Sys2Proof.Machine.execMgrSend r p ix s
  | .mgrAck r p ix => Sys2Proof.Machine.execMgrAck r p ix s
  | .quiesce r p ix drain => Sys2Proof.Machine.execQuiesce r p ix drain s
  | .freeze r p ix drain => Sys2Proof.Machine.execFreeze r p ix drain s
  | .instanceReset r p ix drain => Sys2Proof.Machine.execInstanceReset r p ix drain s
  | .save r p ix drain => Sys2Proof.Machine.execSave r p ix drain s
  | .restore r p ix drain => Sys2Proof.Machine.execRestore r p ix drain s
  | .resume r p ix drain => Sys2Proof.Machine.execResume r p ix drain s
  | .quiesceDone p ix => Sys2Proof.Machine.execQuiesceDone p ix s
  | .freezeDone p ix => Sys2Proof.Machine.execFreezeDone p ix s
  | .writeLogEntry p ix page => Sys2Proof.Machine.execWriteLogEntry p ix page s
  | .writeLogHeadWrite r p ix v => Sys2Proof.Machine.execWriteLogHeadWrite r p ix v s
  | .frameReceive b x fcsOk => Sys2Proof.Machine.execFrameReceive b x fcsOk s
  | .learn => Sys2Proof.Machine.execLearn s
  | .fdbChange io => Sys2Proof.Machine.execFdbChange io s
  | .fdbAging vid mac => Sys2Proof.Machine.execFdbAging vid mac s
  | .fdbAddStatic r v => Sys2Proof.Machine.execFdbAddStatic r v s
  | .fdbDelete r v => Sys2Proof.Machine.execFdbDelete r v s
  | .fdbUnlock r v => Sys2Proof.Machine.execFdbUnlock r v s
  | .fdbFlushPort r v => Sys2Proof.Machine.execFdbFlushPort r v s
  | .vlanReload r v => Sys2Proof.Machine.execVlanReload r v s
  | .masterReload => Sys2Proof.Machine.execMasterReload s
  | .statisticsWindow b => Sys2Proof.Machine.execStatisticsWindow b s
  | .pfcXon b prio => Sys2Proof.Machine.execPfcXon b prio s
  | .frameTransmit b => Sys2Proof.Machine.execFrameTransmit b s
  | .tx g slot => Sys2Proof.Machine.execTx g slot s
  | .rxbuf g slot => Sys2Proof.Machine.execRxbuf g slot s
  | .txsg g slot => Sys2Proof.Machine.execTxsg g slot s
  | .frameDeliver v => Sys2Proof.Machine.execFrameDeliver v s
  | .losslessHoldExpiry v => Sys2Proof.Machine.execLosslessHoldExpiry v s
  | .networkLinkDown b => Sys2Proof.Machine.execNetworkLinkDown b s
  | .networkLinkUp b => Sys2Proof.Machine.execNetworkLinkUp b s
  | .downHoldExpiry b => Sys2Proof.Machine.execDownHoldExpiry b s
  | .worldSwitch r v => Sys2Proof.Machine.execWorldSwitch r v s
  | .worldSwitchDone => Sys2Proof.Machine.execWorldSwitchDone s
  | .heartbeat r v => Sys2Proof.Machine.execHeartbeat r v s
  | .trustedGroupFailure => Sys2Proof.Machine.execTrustedGroupFailure s
  | .groupRestart => Sys2Proof.Machine.execGroupRestart s
  | .groupRestartDone => Sys2Proof.Machine.execGroupRestartDone s
  | .measurementExtend r v => Sys2Proof.Machine.execMeasurementExtend r v s
  | .load r v => Sys2Proof.Machine.execLoad r v s
  | .generate r v => Sys2Proof.Machine.execGenerate r v s
  | .clear r v => Sys2Proof.Machine.execClear r v s
  | .publicPart r v => Sys2Proof.Machine.execPublicPart r v s
  | .provision r v => Sys2Proof.Machine.execProvision r v s
  | .tamperDetect cause => Sys2Proof.Machine.execTamperDetect cause s
  | .counterIncrement r v => Sys2Proof.Machine.execCounterIncrement r v s
  | .bcHeartbeat => Sys2Proof.Machine.execBcHeartbeat s
  | .bcTakeover why => Sys2Proof.Machine.execBcTakeover why s
  | .bcCoreRejoin ok => Sys2Proof.Machine.execBcCoreRejoin ok s
  | .sensorPoll x => Sys2Proof.Machine.execSensorPoll x s
  | .powerDistribution now other x => Sys2Proof.Machine.execPowerDistribution now other x s
  | .powerBrake => Sys2Proof.Machine.execPowerBrake s
  | .powerBrakeRelease => Sys2Proof.Machine.execPowerBrakeRelease s
  | .logRingCopy => Sys2Proof.Machine.execLogRingCopy s
  | .logFlashAppend => Sys2Proof.Machine.execLogFlashAppend s
  | .mctpControl x type body => Sys2Proof.Machine.execMctpControl x type body s
  | .logbookRead x seq count => Sys2Proof.Machine.execLogbookRead x seq count s
  | .pldmRequest x q => Sys2Proof.Machine.execPldmRequest x q s
  | .pldmResetRequest x powerDown => Sys2Proof.Machine.execPldmResetRequest x powerDown s
  | .firmwareUpdate x image => Sys2Proof.Machine.execFirmwareUpdate x image s
  | .updateRollback => Sys2Proof.Machine.execUpdateRollback s
  | .patchSetLoad x version verifies compatibleWith => Sys2Proof.Machine.execPatchSetLoad x version verifies compatibleWith s
  | .patchApply k => Sys2Proof.Machine.execPatchApply k s
  | .trustedComponentStage x cls version body => Sys2Proof.Machine.execTrustedComponentStage x cls version body s
  | .trustedOutcome => Sys2Proof.Machine.execTrustedOutcome s
  | .getVersion x => Sys2Proof.Machine.execGetVersion x s
  | .getCapabilities x => Sys2Proof.Machine.execGetCapabilities x s
  | .negotiateAlgorithms x => Sys2Proof.Machine.execNegotiateAlgorithms x s
  | .getDigests x => Sys2Proof.Machine.execGetDigests x s
  | .getCertificate x slot offset length => Sys2Proof.Machine.execGetCertificate x slot offset length s
  | .challenge x slot nonce => Sys2Proof.Machine.execChallenge x slot nonce s
  | .getMeasurements x block nonce => Sys2Proof.Machine.execGetMeasurements x block nonce s
  | .viewSweep => Sys2Proof.Machine.execViewSweep s
  | .unitCommandRequest x u seq ask => Sys2Proof.Machine.execUnitCommandRequest x u seq ask s
  | .withdrawalStoreAppend => Sys2Proof.Machine.execWithdrawalStoreAppend s
  | .reinstateRequest x u seq => Sys2Proof.Machine.execReinstateRequest x u seq s
  | .boardInputChange ix level => Sys2Proof.Machine.execBoardInputChange ix level s
  | .hostPresenceLoss p => Sys2Proof.Machine.execHostPresenceLoss p s
  | .engineStopFailure f => Sys2Proof.Machine.execEngineStopFailure f s
  | .channelRestart c => Sys2Proof.Machine.execChannelRestart c s
  | .resilverDone c => Sys2Proof.Machine.execResilverDone c s
  | .flashRewrite => Sys2Proof.Machine.execFlashRewrite s
  | .reserveRefill x ix seq => Sys2Proof.Machine.execReserveRefill x ix seq s
  | .powerGoodStandby => Sys2Proof.Machine.execPowerGoodStandby s
  | .stageS1 => Sys2Proof.Machine.execStageS1 s
  | .stageS2 aOk bOk => Sys2Proof.Machine.execStageS2 aOk bOk s
  | .stageS3 doms units => Sys2Proof.Machine.execStageS3 doms units s
  | .stageS4 => Sys2Proof.Machine.execStageS4 s
  | .stageS5 groupFails => Sys2Proof.Machine.execStageS5 groupFails s
  | .stageS6 => Sys2Proof.Machine.execStageS6 s
  | .stageS7 => Sys2Proof.Machine.execStageS7 s
  | .mainPowerTimeout => Sys2Proof.Machine.execMainPowerTimeout s
  | .memoryTranche => Sys2Proof.Machine.execMemoryTranche s
  | .minSvnBurn => Sys2Proof.Machine.execMinSvnBurn s
  | .threadStart r t v => Sys2Proof.Machine.execThreadStart r t v s
  | .deviceReset cause => Sys2Proof.Machine.execDeviceReset cause s
  | .powerDown => Sys2Proof.Machine.execPowerDown s
  | .coreReset k => Sys2Proof.Machine.execCoreReset k s
  | .tileReset ix => Sys2Proof.Machine.execTileReset ix s
  | .sheafReset h => Sys2Proof.Machine.execSheafReset h s
  | .fieldReset f => Sys2Proof.Machine.execFieldReset f s
  | .counterWindow u => Sys2Proof.Machine.execCounterWindow u s
  | .sampleRecord t x => Sys2Proof.Machine.execSampleRecord t x s
  | .traceRecord t x room => Sys2Proof.Machine.execTraceRecord t x room s
  | .tapBypass => Sys2Proof.Machine.execTapBypass s
  | .tapIdcode => Sys2Proof.Machine.execTapIdcode s
  | .tapSample pins => Sys2Proof.Machine.execTapSample pins s
  | .tapPreload x => Sys2Proof.Machine.execTapPreload x s
  | .tapExtest => Sys2Proof.Machine.execTapExtest s
  | .tapClamp => Sys2Proof.Machine.execTapClamp s
  | .tapHighz => Sys2Proof.Machine.execTapHighz s
  | .tapExtestPulse => Sys2Proof.Machine.execTapExtestPulse s
  | .tapExtestTrain => Sys2Proof.Machine.execTapExtestTrain s
  | .nonceRequest x => Sys2Proof.Machine.execNonceRequest x s
  | .debugToken x body sigOk keysOk => Sys2Proof.Machine.execDebugToken x body sigOk keysOk s
  | .debugClear x => Sys2Proof.Machine.execDebugClear x s
  | .tokenExpiry => Sys2Proof.Machine.execTokenExpiry s
  | .observeSelect r k v => Sys2Proof.Machine.execObserveSelect r k v s
  | .dataLinkUp p width speed flit => Sys2Proof.Machine.execDataLinkUp p width speed flit s
  | .perstDeassertion p => Sys2Proof.Machine.execPerstDeassertion p s
  | .configurationWrite p ix w => Sys2Proof.Machine.execConfigurationWrite p ix w s
  | .pauseExpiry b prio => Sys2Proof.Machine.execPauseExpiry b prio s
  | .slewComplete => Sys2Proof.Machine.execSlewComplete s
  | .standbyPowerLoss => Sys2Proof.Machine.execStandbyPowerLoss s
  | .vbatLoss => Sys2Proof.Machine.execVbatLoss s

end Sys2Proof.Machine
end

