-- ==== Sys2Proof/Machine/Idle.lean ====
section
/-! DEFINITION. What passes when no command waits: one nanosecond of the timebase (R40) and of the vault island's clock (R451). Time moves
nowhere else, so that commands alone cannot run into a deadline (notes/assumptions/1.md). -/

namespace Sys2Proof.Machine

/-- The vault island is powered: VBAT, standby power, or its hold-over capacitor at 2.0 V or more (R64). -/
def islandPowered (s : State) : Bool := s.vault.vbat || s.board.pwrgdStby || decide (2000 ≤ s.vault.hold)

/-- One nanosecond of the 32.768 kHz counter, in parts of which 10^9 make a tick. -/
def rtcNs (s : State) : State :=
  let a := s.tb.acc + 32768
  if a < 1000000000 then { s with tb := { s.tb with acc := a } }
  else ({ s with tb := { s.tb with acc := a - 1000000000 } }).putF rVltRtc VltRtc.ticks
    ((s.getF rVltRtc VltRtc.ticks + 1) % 2 ^ 48)

/-- The counters of time and beats see one nanosecond of every thread that runs (R510). -/
def countNs (s : State) : State :=
  s.threads.foldl (fun s e =>
    let s := if e.2.fillWait.isSome && e.2.res ≤ 1 then pmEvent s (tidOf e.1) 0x0E else s
    if e.2.run = .running then
      pmEvent (pmEvent s (tidOf e.1) 0x10) (tidOf e.1) 0x01 none (Config.beats s.time e.1)
    else s) s

/-- One nanosecond passes. -/
def idleTick (s : State) : State :=
  let s := if islandPowered s then rtcNs s else s
  if s.tb.counting then { countNs s with time := s.time + 1 } else s

end Sys2Proof.Machine
end

