-- ==== Sys2Proof/WellFormed.lean ====
section
/-! DEFINITION. Well-formed commands: what the types of the operands leave open. A command that is not well-formed is one no sender forms;
its meaning is still total. -/

namespace Sys2Proof

/-- A line of the 52-bit physical address space (R16). -/
def lineOk (line : Nat) : Bool := decide (line < 2 ^ 46)

/-- A group holds at most the third LIMM, which is the one that faults (R101). -/
def limmOk (l : Limm) : Bool := decide (l.length ≤ 3)

/-- The bytes of a WrPart lie within one line (R262). -/
def partOk (pa n : Nat) : Bool := decide (0 < n) && decide (pa % 64 + n ≤ 64) && decide (pa < 2 ^ 52)

/-- An atomic lies on its natural alignment (R94). -/
def atomOk (pa : Nat) (wide : Bool) : Bool := decide (pa % (if wide then 16 else 8) = 0) && decide (pa < 2 ^ 52)

/-- The operands of a command lie in the ranges its rules give them. -/
def Instr.wf : Instr → Bool
  | .addi _ l _ _ _ | .andi _ l _ _ _ | .ori _ l _ _ _ | .xori _ l _ _ _ | .shi _ l _ _ _ | .slti _ l _ _ _
  | .sltiu _ l _ _ _ | .bitf _ l _ _ _ | .trap _ l _ | .cxaddi _ l _ _ _ | .cxboundi _ l _ _ _ | .feat _ l _ _ _ => limmOk l
  | .rdS _ line _ _ | .rdO _ line | .upg _ line | .rdOnce _ line | .wrLine _ line _ _ | .wb _ line | .notice _ line => lineOk line
  | .wrPart _ pa bytes => partOk pa bytes.length
  | .atom _ pa _ wide _ => atomOk pa wide
  | _ => true

end Sys2Proof
end

