-- ==== Sys2Proof/Safety.lean ====
section
/-! DEFINITION. What holds of the machine between commands: its sparse data are in their one canonical form, so that equal contents are equal
data. -/

namespace Sys2Proof.Machine

/-- Bytes, tags, poison marks and registers are in canonical form: keys strictly rising, nothing listed that equals its default. -/
def Inv (s : State) : Prop :=
  Memory.wf s.mem = true ∧ mwf (fun _ => false) s.tags = true ∧ mwf (fun _ => false) s.poison = true ∧
    mwf resetVal s.regs = true

/-- Every waiting command is well-formed. -/
def queueOk (s : State) : Prop := s.pending.all Instr.wf = true

/-! What a thread needs to run its next instruction, and what an instruction that has run leaves. -/

/-- The state after the fetch of an instruction of words `ws` that thread `t`, which may execute it (`ok`), executes next: no report is
due, no injected mismatch stands at the instruction, and the fetch succeeds (R150, R165, R180, R208). -/
def fetchedIf (ok : Bool) (s : State) (t : Tid) (ws : List (BitVec 32)) : Option State :=
  if !ok || reportDue (getT s t) || injectDue s t ws then none
  else
    match fetchCheck s t ws.length with
    | .ok u => if (getT u t).hostWait.isNone then some u else none
    | .error _ => none

/-- The same for an instruction that a deliverable interrupt comes before (R172): every one but WAIT. -/
def fetched (s : State) (t : Tid) (ws : List (BitVec 32)) : Option State := fetchedIf (ready s t) s t ws

/-- The state at a report point with no exception outstanding, long operations complete (R165). -/
def quiet (s : State) (t : Tid) : Option State :=
  if ready s t && (settleAll (getT s t)).excs.isEmpty then some (updT s t settleAll) else none

/-- An instruction of words `ws` retires at `z`, the thread having stood at its address in `s`; its PCC is set already. -/
def jumped (s z : State) (t : Tid) (ws : List (BitVec 32)) : State := retire (checkRetired z t (getT s t).pc ws) t (getT s t).pc

/-- An instruction of words `ws` retires at `z`, and the thread goes on behind it. -/
def done (s z : State) (t : Tid) (ws : List (BitVec 32)) : State := jumped s (stepPc z t ws.length) t ws

/-- The home of the request's line admits it: the line is memory, its stop and slice serve and are not handing over, and the requester may
reach it (a write-back and a notice need no leave) (R18, R256, R264). -/
def homeTakes (s : State) (q : HomeReq) (write : Bool) : Bool :=
  let pa := q.line * 64
  (physClass s pa).isMem && serving s (stateUidOfStop (stopOfTile (homeSlice s pa))) && homeOpen s q.line &&
    (q.kind == .wb || q.kind == .notice || admits s (partyClass s q.who) write pa)

end Sys2Proof.Machine
end

