-- ==== Sys2Proof/Certificates/Slice0/Obligations.lean ====
section
/-! DEFINITION. The statements about the model, for the provers. A statement of what one command does names the state it leads to by the model's
own operations; frames and invariants say what holds of every state. -/

open Sys2Proof Sys2Proof.Machine

/-- Step of a state with a command at the front of its queue is exec of that command on the state with the queue's rest. On an empty queue
step answers a next state: the idle tick of 1 ns, which is the model's choice (log entry 1). -/
def Obligations.StepRunsTheFrontCommand : Prop :=
  (∀ (s : State) (c : Instr) (q : List Instr), s.pending = c :: q → step s = exec c { s with pending := q }) ∧
  (∀ (s : State), s.pending = [] → step s = .next (idleTick s))

/-- Memory, tags, poison and registers of State.reset are in their canonical form, no command waits, and every thread is unstarted with
memory listing nothing. What power-on memory reads as is the model's choice (log entries of INVENTORY.md's State). -/
def Obligations.ResetMeetsTheInvariant : Prop :=
  Inv State.reset ∧ State.reset.pending = [] ∧ State.reset.mem = [] ∧ ∀ t : Tid, (getT State.reset t).run = .unstarted

/-- For every state whose memory, tags, poison marks and registers are in canonical form, whatever command is at the front of its queue,
step answers a next state (no fault and no refusal), and that state is in canonical form: no address is listed twice or out of order, and no
entry equals what an unlisted address reads as, a register's reset value included. So equal contents are equal data after every command. -/
def Obligations.StepKeepsTheInvariant : Prop :=
  ∀ s : State, Inv s → ∃ t : State, step s = .next t ∧ Inv t

/-- After a write of a list of bytes at an address, each of its addresses reads the byte written and every other address reads as before.
The tag of each granule the write touches is clear and every other tag is as before, so that only a store of a tagged register sets a tag
(R135). -/
def Obligations.MemoryReadsBack : Prop :=
  ∀ (s : State) (pa : Nat) (bs : List Byte),
    (∀ i, i < bs.length → readByte (writeBytes s pa bs) (pa + i) = bs.getD i 0) ∧
    (∀ a, (a < pa ∨ pa + bs.length ≤ a) → readByte (writeBytes s pa bs) a = readByte s a) ∧
    (∀ a, bs ≠ [] → pa / 16 ≤ a / 16 → a / 16 ≤ (pa + bs.length - 1) / 16 → readTag (writeBytes s pa bs) a = false) ∧
    (∀ a, (a / 16 < pa / 16 ∨ (pa + bs.length - 1) / 16 < a / 16) → readTag (writeBytes s pa bs) a = readTag s a)

/-- For a well-formed tagged capability, whatever CXMOVE, CXADDI, CXDROP, CXBOUND, CXBOUNDX, CXBOUNDI, CXSEAL or CXOPEN derives from it:
where the result is tagged, its bounds lie within the source's, its permissions are among the source's, and it is well-formed. A capability
without a tag is never made into one with a tag by moving its cursor. -/
def Obligations.NoDerivationWidens : Prop :=
  (∀ (tw : Bool) (v g w : GReg) (c : Word) (n p : Nat) (exact neg : Bool), v.tag = true → capWf v = true →
    (moveOp tw v c = .ok g ∨ boundOp tw v n exact neg = .ok g ∨ g = setPerms v (capPerms v &&& p) ∨ sealOp tw v w = .ok g ∨
      openOp tw v w = .ok g) → g.tag = true →
      capBase v ≤ capBase g ∧ capTop g ≤ capTop v ∧ capPerms g &&& capPerms v = capPerms g ∧ capWf g = true) ∧
  (∀ (tw : Bool) (v g : GReg) (c : Word), v.tag = false → moveOp tw v c = .ok g → g.tag = false)

/-- For every dividend and divisor: dividend = quotient × divisor + remainder modulo 2^64, signed and unsigned; with a divisor other than
zero the remainder is smaller than it in magnitude, and the signed one is zero or has the dividend's sign. By zero the quotient is all ones
and the remainder the dividend. An address of modes 4 to 7 that wraps lies within the bounds, and differs from cursor plus displacement by
nothing or by the length once. -/
def Obligations.DivisionAndWrapLaws : Prop :=
  (∀ a b : Word, divU a b * b + remU a b = a ∧ divS a b * b + remS a b = a ∧
    (b ≠ 0 → (remU a b).toNat < b.toNat ∧ (remS a b).toInt.natAbs < b.toInt.natAbs ∧
      ((remS a b).toInt = 0 ∨ ((remS a b).toInt < 0 ↔ a.toInt < 0))) ∧
    (b = 0 → divU a b = -1 ∧ divS a b = -1 ∧ remU a b = a ∧ remS a b = a)) ∧
  (∀ (base top : Nat) (cur d a : Word), top ≤ 18446744073709551616 → wrapAddr base top cur d = some a →
    base ≤ a.toNat ∧ a.toNat < top ∧ (a = cur + d ∨ a = cur + d - BitVec.ofNat 64 (top - base) ∨
      a = cur + d + BitVec.ofNat 64 (top - base)))

/-- For every field, sheaf and tile: the index lies in 0 to 95, the unit IDs of its tile agent and its slice carry field, sheaf and tile in
their bits and lead back to the index, every index from 0 to 95 is some tile's, and the buddy of slice i is (i + 48) mod 96, the slice of
tile f.s.t with field (f + 2) mod 4. -/
def Obligations.UnitPlaces : Prop :=
  (∀ (f : Fin 4) (h : Fin 6) (t : Fin 4),
    let i := 24 * f.val + 4 * h.val + t.val
    i < 96 ∧ tileUid i = f * 0x4000 + h * 0x800 + t * 0x200 + 0x80 ∧ sliceUid i = f * 0x4000 + h * 0x800 + t * 0x200 + 0x81 ∧
      tileOfUid (tileUid i) = i ∧ tileOfUid (sliceUid i) = i ∧ buddyOf i = (i + 48) % 96 ∧
      buddyOf i = 24 * ((f.val + 2) % 4) + 4 * h.val + t.val) ∧
  (∀ i : Fin 96, ∃ (f : Fin 4) (h : Fin 6) (t : Fin 4), i.val = 24 * f.val + 4 * h.val + t.val)

/-- Each load into a general register of format MEM, with a writing mode (am 1, 2, 5 or 6) and its base register as its destination: the
instruction does not retire, and fault 0x01 stands with the instruction's address and words. Registers, PCC, memory and tags are as the
fetch left them; where no root write of another requester waits for the boundary (R222), every other thread and every control register too.
-/
def Obligations.WritebackIntoBaseFaults : Prop :=
  ∀ (s u : State) (t : Tid) (rd : RegNo) (am : BitVec 3) (imm : BitVec 12), (am = 1 ∨ am = 2 ∨ am = 5 ∨ am = 6) →
    ∀ c ∈ ([(.ldB t rd rd am imm, 0x28), (.ldBu t rd rd am imm, 0x29), (.ldH t rd rd am imm, 0x2A), (.ldHu t rd rd am imm, 0x2B),
        (.ldW t rd rd am imm, 0x2C), (.ldWu t rd rd am imm, 0x2D), (.ldD t rd rd am imm, 0x2E), (.ldC t rd rd am imm, 0x2F)] :
        List (Instr × Nat)),
      let ws := [wMEM c.2 rd rd am imm]
      fetched s t ws = some u →
        let z := takeRoots (updT u t (fun x => { x with
          replay := []
          fetchAns := []
          inFetch := false
          heldX := []
          inFlight := false
          fault := some ⟨0x01, 0, x.pc, none, GReg.zero, ws, none⟩ })) t
        exec c.1 s = .next z ∧ (∀ r, (getT z t).greg r = (getT u t).greg r) ∧ (getT z t).pcc = (getT u t).pcc ∧
          (∀ a, readByte z a = readByte u a) ∧ z.tags = u.tags ∧
          ((getT u t).rootReq = [] → (∀ x, x ≠ t → getT z x = getT u x) ∧ z.regs = u.regs)

/-- After one of the 21 register forms of the ALU, or one of CXBASE, CXLEN, CXPERM, CXTYPE, CXTAG, CXSTRIP, CXWITHIN, CXFITLEN and
CXFITBASE: every general register but rd is as it was once long operations on ra, rb and rd had completed, and every one where rd is g0;
vector registers, thread registers, TSTATUS, the store queue and any fault are unchanged; every other thread, every byte and tag of memory,
every control register (no root write waiting, R222) but the core's performance counters and CORE_CHECK_STATUS, the vault, the log,
directories and interrupts are unchanged. -/
def Obligations.IntegerFrame : Prop :=
  ∀ (s u z : State) (t : Tid) (rd ra rb : RegNo),
    ∀ c ∈ ([(.add t rd ra rb, 0x02, 0), (.sub t rd ra rb, 0x02, 1), (.and t rd ra rb, 0x02, 2), (.or t rd ra rb, 0x02, 3),
        (.xor t rd ra rb, 0x02, 4), (.andn t rd ra rb, 0x02, 5), (.sll t rd ra rb, 0x02, 6), (.srl t rd ra rb, 0x02, 7),
        (.sra t rd ra rb, 0x02, 8), (.rol t rd ra rb, 0x02, 9), (.ror t rd ra rb, 0x02, 10), (.clz t rd ra rb, 0x02, 11),
        (.ctz t rd ra rb, 0x02, 12), (.popc t rd ra rb, 0x02, 13), (.bswap t rd ra rb, 0x02, 14), (.slt t rd ra rb, 0x02, 15),
        (.sltu t rd ra rb, 0x02, 16), (.min t rd ra rb, 0x02, 17), (.max t rd ra rb, 0x02, 18), (.minu t rd ra rb, 0x02, 19),
        (.maxu t rd ra rb, 0x02, 20), (.cxbase t rd ra rb, 0x50, 0), (.cxlen t rd ra rb, 0x50, 1), (.cxperm t rd ra rb, 0x50, 2),
        (.cxtype t rd ra rb, 0x50, 3), (.cxtag t rd ra rb, 0x50, 4), (.cxstrip t rd ra rb, 0x50, 11),
        (.cxwithin t rd ra rb, 0x50, 12), (.cxfitlen t rd ra rb, 0x50, 13), (.cxfitbase t rd ra rb, 0x50, 14)] :
        List (Instr × Nat × BitVec 10)),
      fetched s t [wREG c.2.1 rd ra rb c.2.2] = some u → exec c.1 s = .next z → (getT u t).rootReq = [] →
        let v := getT (useRegs u t [rd, ra, rb]) t
        let w := getT z t
        (∀ r, (r ≠ rd ∨ rd = 0) → w.greg r = v.greg r) ∧ w.vregs = v.vregs ∧ w.wstack = v.wstack ∧ w.fstack = v.fstack ∧
          w.fgate = v.fgate ∧ w.gatetab = v.gatetab ∧ w.wstate = v.wstate ∧ w.tctrl = v.tctrl ∧ w.tstatus = v.tstatus ∧
          w.stores = v.stores ∧ w.fault = v.fault ∧ w.run = v.run ∧ w.pred = v.pred ∧
        (∀ x, x ≠ t → getT z x = getT u x) ∧ (∀ a, readByte z a = readByte u a) ∧ z.tags = u.tags ∧ z.poison = u.poison ∧
        (∀ a, a ≠ rCoreCheckStatus (coreUid (coreOf u t)) → a ≠ rPmWin (coreUid (coreOf u t) + 1) →
          (∀ i, i < 8 → a ≠ rPmCtr (coreUid (coreOf u t) + 1) i) → z.getR a = u.getR a) ∧
        z.vault = u.vault ∧ z.log = u.log ∧ z.dir = u.dir ∧ z.l3 = u.l3 ∧ z.irqMsgs = u.irqMsgs ∧ z.time = u.time

/-- When a store of data that may leave is released to memory its requester is admitted to, the part that leaves in one piece is performed
and the rest of the store stays in the queue at its place. Where the store is cached and no request that waits or is being served at a home
writes, each byte of that part reads back at its place, every other byte of memory reads as before, the queue keeps its other entries in
their order, and every other thread is unchanged. A load that has read its bytes, and then writes its destination and retires, leaves every
byte of memory as it was. -/
def Obligations.StoreReleaseFrame : Prop :=
  (∀ (s : State) (t : Tid) (k : Nat) (e : StoreEnt), (getT s t).stores[k]? = some e →
    let c := e.cut
    let q := (getT s t).stores.take k ++ c.2 ++ (getT s t).stores.drop (k + 1)
    mayRelease (getT s t).stores k = true → serving s (coreUid (coreOf s t)) = true → sheafRuns s (coreOf s t) = true →
    (linesOf c.1.span.1 c.1.span.2).all (lineIdle s) = true →
      exec (.storeRelease t k) s = .next (performStore (setStores s t q) t c.1 c.2.isEmpty) ∧
      (e.kind = .data → e.cached = true → (physClass s e.pa).isMem = true →
        admits s (if e.world then .trusted else .normal) true e.pa = true →
        (∀ r ∈ s.homeQ, r.kind.writes = false) → (∀ x ∈ s.txns, x.2.req.kind.writes = false) →
        ∀ z, exec (.storeRelease t k) s = .next z →
          (∀ i, i < c.1.bytes.length → readByte z (e.pa + i) = c.1.bytes.getD i 0) ∧
          (∀ a, (a < e.pa ∨ e.pa + c.1.bytes.length ≤ a) → readByte z a = readByte s a) ∧
          (getT z t).stores = q ∧ (∀ x, x ≠ t → getT z x = getT s x))) ∧
  (∀ (s u z y : State) (t : Tid) (rd ra : RegNo) (am : BitVec 3) (imm : BitVec 12) (a : Word) (wb : Option Word) (bs : List Byte)
      (g : Bool),
    ∀ c ∈ ([(.ldB t rd ra am imm, 0x28, .sext 1), (.ldBu t rd ra am imm, 0x29, .zext 1), (.ldH t rd ra am imm, 0x2A, .sext 2),
        (.ldHu t rd ra am imm, 0x2B, .zext 2), (.ldW t rd ra am imm, 0x2C, .sext 4), (.ldWu t rd ra am imm, 0x2D, .zext 4),
        (.ldD t rd ra am imm, 0x2E, .zext 8), (.ldC t rd ra am imm, 0x2F, .cap), (.ldV t rd ra am imm, 0x35, .vec)] :
        List (Instr × Nat × LdKind)),
      let k := c.2.2
      fetched s t [wMEM c.2.1 rd ra am imm] = some u → am ≠ 3 → am ≠ 7 → (amWrites am.toNat && k != .vec && rd == ra) = false →
        let x := useRegs (useData u t (k == .vec) rd) t [ra]
        let v := (getT x t).greg ra
        effAddr am.toNat (boundsOf v).1 (boundsOf v).2 v.int (imm.signExtend 64) = some (a, wb) →
        useAt (trusted x t) v [pLOAD] (k != .vec) (some a) k.size = none →
        loadBytes x t v a k.size (k == .cap) = .ok (some (bs, g), z) → (getT z t).hostWait = none → exec c.1 s = .next y →
          (∀ b, readByte y b = readByte z b) ∧ y.tags = z.tags ∧ (getT y t).tstatus = (getT z t).tstatus ∧
            (getT y t).stores = (getT z t).stores ∧
            (∀ r, r ≠ ra → (r ≠ rd ∨ k = .vec) → (getT y t).greg r = (getT z t).greg r))

/-- After each of the named commands (SENSOR_POLL where no phase is lost, VBAT_LOSS where standby power or the hold-over capacitor stands):
every byte, tag and poison mark of memory, every thread, every capability table entry held by a channel, the queue of commands and the time
are unchanged. -/
def Obligations.CommandFrame : Prop :=
  ∀ (s z : State) (p : Fin 16) (c : Fin 16) (b : Fin 64) (n : Fin 8) (d : Fin 4) (t : Fin 128) (r : Requester) (v : Word)
      (x : Transport) (prio : Fin 8) (rank : Fin 4) (hot : Bool) (vp : Fin 960) (vid : BitVec 12) (mac : BitVec 48)
      (bits : List Bool) (ls : List (Nat × Nat)) (loads : List (DomId × Nat)) (bad : List Bool) (temps : List (DomId × Nat)) (scan : TapScan) (k : Fin 32) (seq count : Nat) (core : Fin 192)
      (ws : List (Nat × Nat × BitVec 64)),
    ∀ i ∈ ([.vbatLoss, .livenessToken t d, .refreshDue c rank hot, .driftTracking c ws, .perstDeassertion p, .portReady p,
        .learn, .fdbChange n, .fdbAging vid mac, .fdbAddStatic r v, .fdbDelete r v, .fdbUnlock r v, .fdbFlushPort r v,
        .vlanReload r v, .masterReload, .frameTransmit b, .pfcXon b prio, .pauseExpiry b prio, .networkLinkDown b,
        .networkLinkUp b, .downHoldExpiry b, .losslessHoldExpiry vp, .heartbeat r v, .counterIncrement r v, .bcHeartbeat,
        .sensorPoll ⟨ls, loads, [], bad, temps⟩, .powerBrake, .powerBrakeRelease, .logFlashAppend, .patchApply core, .logbookRead x seq count,
        .getVersion x, .getCapabilities x, .negotiateAlgorithms x, .getDigests x, .nonceRequest x, .debugClear x, .tokenExpiry,
        .tapBypass, .tapIdcode, .tapSample bits, .tapPreload scan, .tapExtest, .tapClamp, .tapHighz, .observeSelect r k v] :
        List Instr),
      (i = .vbatLoss → s.board.pwrgdStby = true ∨ 2000 ≤ s.vault.hold) → exec i s = .next z →
        (∀ a, readByte z a = readByte s a) ∧ z.tags = s.tags ∧ z.poison = s.poison ∧ z.threads = s.threads ∧
          z.chans = s.chans ∧ z.pending = s.pending ∧ z.time = s.time

/-- An instruction that a ready thread fetches runs and retires: for ADD, SUB, AND, OR, XOR, ANDN, SLL, SRL, SRA, ROL, ROR, CLZ, CTZ, POPC,
BSWAP, SLT, SLTU, MIN, MAX, MINU and MAXU, once long operations on its registers have completed, rd receives the stated function of bits
63:0 of ra and rb as an integer result, and the thread goes on at the next instruction. SEL writes all 129 bits of ra or rb as the condition
holds for rc; CMOV writes ra where it holds and leaves rd as it was otherwise. Every register number is included, g0 as rd too (the write is
discarded). -/
def Obligations.AluCompletes : Prop :=
  (∀ (s u : State) (t : Tid) (rd ra rb : RegNo),
    ∀ c ∈ ([(.add t rd ra rb, 0, fun a b => a + b),
        (.sub t rd ra rb, 1, fun a b => a - b),
        (.and t rd ra rb, 2, fun a b => a &&& b),
        (.or t rd ra rb, 3, fun a b => a ||| b),
        (.xor t rd ra rb, 4, fun a b => a ^^^ b),
        (.andn t rd ra rb, 5, fun a b => a &&& ~~~b),
        (.sll t rd ra rb, 6, fun a b => a <<< (b.toNat % 64)),
        (.srl t rd ra rb, 7, fun a b => a >>> (b.toNat % 64)),
        (.sra t rd ra rb, 8, fun a b => a.sshiftRight (b.toNat % 64)),
        (.rol t rd ra rb, 9, fun a b => a.rotateLeft (b.toNat % 64)),
        (.ror t rd ra rb, 10, fun a b => a.rotateRight (b.toNat % 64)),
        (.clz t rd ra rb, 11, fun a _ => clzW a),
        (.ctz t rd ra rb, 12, fun a _ => ctzW a),
        (.popc t rd ra rb, 13, fun a _ => popcW a),
        (.bswap t rd ra rb, 14, fun a _ => bswapW a),
        (.slt t rd ra rb, 15, fun a b => if a.slt b then 1 else 0),
        (.sltu t rd ra rb, 16, fun a b => if a.ult b then 1 else 0),
        (.min t rd ra rb, 17, fun a b => if a.slt b then a else b),
        (.max t rd ra rb, 18, fun a b => if a.slt b then b else a),
        (.minu t rd ra rb, 19, fun a b => if a.ult b then a else b),
        (.maxu t rd ra rb, 20, fun a b => if a.ult b then b else a)] : List (Instr × BitVec 10 × (Word → Word → Word))),
      let w := wREG 0x02 rd ra rb c.2.1
      fetched s t [w] = some u →
        let v := useRegs u t [rd, ra, rb]
        exec c.1 s = .next (done s (putInt v t rd (c.2.2 ((getT v t).int ra) ((getT v t).int rb))) t [w])) ∧
  (∀ (s u : State) (t : Tid) (rd ra rb rc : RegNo),
    ∀ c ∈ ([(0, fun v => v.toInt == 0), (1, fun v => v.toInt != 0), (2, fun v => decide (v.toInt < 0)),
        (3, fun v => decide (v.toInt ≥ 0)), (4, fun v => decide (v.toInt > 0)), (5, fun v => decide (v.toInt ≤ 0))] :
        List (BitVec 3 × (Word → Bool))),
      (fetched s t [wSEL 0x10 rd ra rb rc (c.1 ++ (0 : BitVec 2))] = some u →
        let v := useRegs u t [rd, ra, rb, rc]
        let g := if c.2 ((getT v t).int rc) then (getT v t).greg ra else (getT v t).greg rb
        exec (.sel t rd ra rb rc c.1 0) s =
          .next (done s (updT v t (fun x => x.setGreg rd g)) t [wSEL 0x10 rd ra rb rc (c.1 ++ (0 : BitVec 2))])) ∧
      (fetched s t [wSEL 0x11 rd ra 0 rc (c.1 ++ (0 : BitVec 2))] = some u →
        let v := useRegs u t [rd, ra, rc]
        exec (.cmov t rd ra 0 rc c.1 0) s =
          .next (done s (updT v t (fun x => if c.2 ((getT v t).int rc) then x.setGreg rd (x.greg ra) else x)) t
            [wSEL 0x11 rd ra 0 rc (c.1 ++ (0 : BitVec 2))])))

/-- The immediate forms complete. For ADDI, ANDI, ORI, XORI, SLTI and SLTIU the immediate is the 15-bit one sign-extended, or widened by one
or two LIMM words. SHI has no LIMM and shifts by bits 5:0 of its immediate as bits 14:12 select, for the immediates that R103 defines and
log entry 11 takes as legal. BITF takes position, width and kind as Config decodes them, which the spec leaves open. -/
def Obligations.ImmediateCompletes : Prop :=
  (∀ (s u : State) (t : Tid) (limm : Limm) (rd ra : RegNo) (imm : BitVec 15) (i : Word),
    ∀ c ∈ ([(.addi t limm rd ra imm, 0x03, fun a b => a + b),
        (.andi t limm rd ra imm, 0x04, fun a b => a &&& b),
        (.ori t limm rd ra imm, 0x05, fun a b => a ||| b),
        (.xori t limm rd ra imm, 0x06, fun a b => a ^^^ b),
        (.slti t limm rd ra imm, 0x08, fun a b => if a.slt b then 1 else 0),
        (.sltiu t limm rd ra imm, 0x09, fun a b => if a.ult b then 1 else 0)] : List (Instr × Nat × (Word → Word → Word))),
      let ws := wGroup limm (wIMM c.2.1 rd ra imm)
      fetched s t ws = some u → immOf limm imm = some i →
        let v := useRegs u t [rd, ra]
        exec c.1 s = .next (done s (putInt v t rd (c.2.2 ((getT v t).int ra) i)) t ws)) ∧
  (∀ (s u : State) (t : Tid) (rd ra : RegNo) (n : BitVec 6),
    ∀ c ∈ ([(0, fun a => a <<< n.toNat), (1, fun a => a >>> n.toNat), (2, fun a => a.sshiftRight n.toNat),
        (3, fun a => a.rotateLeft n.toNat), (4, fun a => a.rotateRight n.toNat)] : List (BitVec 3 × (Word → Word))),
      let imm : BitVec 15 := c.1 ++ (0 : BitVec 6) ++ n
      let ws := [wIMM 0x07 rd ra imm]
      fetched s t ws = some u →
        let v := useRegs u t [rd, ra]
        exec (.shi t [] rd ra imm) s = .next (done s (putInt v t rd (c.2 ((getT v t).int ra))) t ws)) ∧
  (∀ (s u : State) (t : Tid) (rd ra : RegNo) (imm : BitVec 15) (b : Bitf),
    let ws := [wIMM 0x12 rd ra imm]
    fetched s t ws = some u → Config.bitfDecode imm = some b →
      let v := useRegs u t [rd, ra]
      exec (.bitf t [] rd ra imm) s = .next (done s (putInt v t rd (bitfOp b ((getT v t).int rd) ((getT v t).int ra))) t ws))

/-- MUL (low) writes the low product to rd at once. The other multiplies, DIV, DIVU, REM and REMU write theirs to rd when they retire in a
thread of precise arithmetic, and otherwise become long operations that hold it. ADDT, SUBT, MULT and both DIVT forms do so where no
condition they meet is enabled, setting the sticky flags of those met (ADDT, SUBT and MULT always at once); where one is enabled they retire
with it left to be reported (R165). Division rounds toward zero, by zero gives all ones, with the dividend as remainder. A long operation of
a running core writes its result when it completes. -/
def Obligations.MultiplyDivideCompletes : Prop :=
  (∀ (s u : State) (t : Tid) (rd ra rb : RegNo),
    let w := wREG 0x0A rd ra rb 0
    fetched s t [w] = some u →
      let v := useRegs u t [rd, ra, rb]
      exec (.mulLow t rd ra rb) s = .next (done s (putInt v t rd ((getT v t).int ra * (getT v t).int rb)) t [w])) ∧
  (∀ (s u : State) (t : Tid) (rd ra rb : RegNo),
    ∀ c ∈ ([(.mulHighSigned t rd ra rb, 0x0A, 1, fun a b => BitVec.ofInt 64 ((a.toInt * b.toInt) >>> 64)),
        (.mulHighUnsigned t rd ra rb, 0x0A, 2, fun a b => BitVec.ofInt 64 (((a.toNat : Int) * b.toNat) >>> 64)),
        (.mulHighSignedUnsigned t rd ra rb, 0x0A, 3, fun a b => BitVec.ofInt 64 ((a.toInt * (b.toNat : Int)) >>> 64)),
        (.div t rd ra rb, 0x0B, 0, fun a b => divS a b),
        (.divu t rd ra rb, 0x0B, 1, fun a b => divU a b),
        (.rem t rd ra rb, 0x0B, 2, fun a b => remS a b),
        (.remu t rd ra rb, 0x0B, 3, fun a b => remU a b)] : List (Instr × Nat × BitVec 10 × (Word → Word → Word))),
      let ws := [wREG c.2.1 rd ra rb c.2.2.1]
      fetched s t ws = some u →
        let v := useRegs u t [rd, ra, rb]
        let x := getT v t
        let r := c.2.2.2 (x.int ra) (x.int rb)
        (fldB x.tctrl Tctrl.precise_arith = true → exec c.1 s = .next (done s (putInt v t rd r) t ws)) ∧
        (fldB x.tctrl Tctrl.precise_arith = false → exec c.1 s = .next (done s (updT v t (fun y => { y with
          longOps := y.longOps ++ [⟨.general (place x.cwp rd), GReg.ofInt r, 0, [], 0⟩] })) t ws))) ∧
  (∀ (s u : State) (t : Tid) (rd ra rb : RegNo),
    ∀ c ∈ ([(.addt t rd ra rb, 0x0C, 0, false, fun a b => (a + b, if sOverflow (a.toInt + b.toInt) then [.intOv] else [])),
        (.subt t rd ra rb, 0x0D, 0, false, fun a b => (a - b, if sOverflow (a.toInt - b.toInt) then [.intOv] else [])),
        (.mult t rd ra rb, 0x0E, 0, false, fun a b => (a * b, if sOverflow (a.toInt * b.toInt) then [.intOv] else [])),
        (.divtQuotient t rd ra rb, 0x0F, 0, true, fun a b =>
          (divS a b, if b = 0 then [.intDz] else if a = 0x8000000000000000 ∧ b = -1 then [.intOv] else [])),
        (.divtRemainder t rd ra rb, 0x0F, 1, true, fun a b => (remS a b, if b = 0 then [.intDz] else []))] :
        List (Instr × Nat × BitVec 10 × Bool × (Word → Word → Word × List ArithCond))),
      let ws := [wREG c.2.1 rd ra rb c.2.2.1]
      fetched s t ws = some u →
        let v := useRegs u t [rd, ra, rb]
        let x := getT v t
        let r := c.2.2.2.2 (x.int ra) (x.int rb)
        (condFaults x.tctrl r.2 = [] →
          ((fldB x.tctrl Tctrl.precise_arith = true ∨ c.2.2.2.1 = false) →
            exec c.1 s = .next (done s (updT v t (fun y => { y.setInt rd r.1 with
              tstatus := y.tstatus ||| condFlags x.tctrl r.2 })) t ws)) ∧
          ((fldB x.tctrl Tctrl.precise_arith = false ∧ c.2.2.2.1 = true) →
            exec c.1 s = .next (done s (updT v t (fun y => { y with
              longOps := y.longOps ++ [⟨.general (place x.cwp rd), GReg.ofInt r.1, 0, [], condFlags x.tctrl r.2⟩] })) t ws))) ∧
        (condFaults x.tctrl r.2 ≠ [] →
          exec c.1 s = .next (done s (arith v t ws (.general (place x.cwp rd)) (GReg.ofInt r.1) 0 r.2 c.2.2.2.1) t ws))) ∧
  (∀ (s : State) (t : Tid) (k : Nat) (o : LongOp), coreRuns s t = true → (getT s t).longOps[k]? = some o →
    exec (.longOpComplete t k) s = .next (updT s t (fun x => { applyLong x o with longOps := x.longOps.eraseIdx k })))

/-- CXBASE, CXLEN, CXPERM, CXTYPE, CXTAG, CXSTRIP, CXWITHIN, CXFITLEN and CXFITBASE complete on every operand, tagged or not, sealed or not.
CXMOVE, CXDROP, CXBOUND, CXBOUNDX, CXADDI, CXBOUNDI, CXSEAL and CXOPEN complete where their operands raise no cause: a moved cursor keeps or
loses the tag as moveCursor says, CXDROP keeps the permissions whose mask bit is clear, the bounds instructions set bounds at the cursor,
CXSEAL and CXOPEN change the otype of a capability under the authority of another. -/
def Obligations.CapabilityCompletes : Prop :=
  (∀ (s u : State) (t : Tid) (rd ra rb : RegNo),
    ∀ c ∈ ([(.cxbase t rd ra rb, 0, fun a _ => GReg.ofInt (BitVec.ofInt 64 (capBase a))),
        (.cxlen t rd ra rb, 1, fun a _ => GReg.ofInt (lenWord (capTop a - capBase a))),
        (.cxperm t rd ra rb, 2, fun a _ => GReg.ofInt (BitVec.ofNat 64 (capPerms a))),
        (.cxtype t rd ra rb, 3, fun a _ => GReg.ofInt (BitVec.ofNat 64 (capOtype a))),
        (.cxtag t rd ra rb, 4, fun a _ => GReg.ofInt (if a.tag then 1 else 0)),
        (.cxstrip t rd ra rb, 11, fun a _ => { a with tag := false }),
        (.cxwithin t rd ra rb, 12, fun a b => GReg.ofInt (withinW a b)),
        (.cxfitlen t rd ra rb, 13, fun a b =>
          let f := fitBounds a.int.toNat b.int.toNat
          GReg.ofInt (if 18446744073709551616 < a.int.toNat + b.int.toNat then 0xFFFFFFFFFFFFFFFF
            else lenWord ((f.2.2 : Int) - f.2.1))),
        (.cxfitbase t rd ra rb, 14, fun a b => GReg.ofInt (BitVec.ofNat 64 (fitBounds a.int.toNat b.int.toNat).2.1))] :
        List (Instr × BitVec 10 × (GReg → GReg → GReg))),
      let w := wREG 0x50 rd ra rb c.2.1
      fetched s t [w] = some u →
        let v := useRegs u t [rd, ra, rb]
        exec c.1 s = .next (done s (updT v t (fun y => y.setGreg rd (c.2.2 ((getT v t).greg ra) ((getT v t).greg rb)))) t [w])) ∧
  (∀ (s u : State) (t : Tid) (rd ra rb : RegNo) (g : GReg),
    ∀ c ∈ ([(.cxmove t rd ra rb, 5, fun tw a b => withRb tw a b false (moveOp tw a b.int)),
        (.cxdrop t rd ra rb, 6, fun tw a b =>
          withRb tw a b true (match useCause tw a with
          | some k => .error k
          | none => .ok (setPerms a (capPerms a &&& (4095 - b.int.toNat % 4096))))),
        (.cxbound t rd ra rb, 7, fun tw a b => withRb tw a b true (boundOp tw a b.int.toNat false false)),
        (.cxboundx t rd ra rb, 8, fun tw a b => withRb tw a b true (boundOp tw a b.int.toNat true false)),
        (.cxseal t rd ra rb, 9, fun tw a b => sealOp tw a b),
        (.cxopen t rd ra rb, 10, fun tw a b => openOp tw a b)] : List (Instr × BitVec 10 × (Bool → GReg → GReg → Except Nat GReg))),
      let w := wREG 0x50 rd ra rb c.2.1
      fetched s t [w] = some u →
        let v := useRegs u t [rd, ra, rb]
        c.2.2 (trusted v t) ((getT v t).greg ra) ((getT v t).greg rb) = .ok g →
          exec c.1 s = .next (done s (updT v t (fun x => x.setGreg rd g)) t [w])) ∧
  (∀ (s u : State) (t : Tid) (limm : Limm) (rd ra : RegNo) (imm : BitVec 15) (i : Word) (g : GReg),
    ∀ c ∈ ([(.cxaddi t limm rd ra imm, 0x51, fun tw a => moveOp tw a (a.int + i)),
        (.cxboundi t limm rd ra imm, 0x52, fun tw a => boundOp tw a i.toNat false (i.slt 0))] :
        List (Instr × Nat × (Bool → GReg → Except Nat GReg))),
      let ws := wGroup limm (wIMM c.2.1 rd ra imm)
      fetched s t ws = some u → immOf limm imm = some i →
        let v := useRegs u t [rd, ra]
        c.2.2 (trusted v t) ((getT v t).greg ra) = .ok g →
          exec c.1 s = .next (done s (updT v t (fun x => x.setGreg rd g)) t ws))

/-- A branch whose condition holds for ra and rb goes to its own address plus four times the displacement where that lies in the bounds of
PCC, and otherwise to the next instruction. J goes to its target under PCC, JR through an unsealed executable capability. The outcome enters
the path history. -/
def Obligations.BranchCompletes : Prop :=
  (∀ (s u : State) (t : Tid) (ra rb : RegNo) (disp : BitVec 15),
    ∀ c ∈ ([(.beq t ra rb disp, 0x18, fun a b => a == b), (.bne t ra rb disp, 0x19, fun a b => a != b),
        (.blt t ra rb disp, 0x1A, fun a b => a.slt b), (.bge t ra rb disp, 0x1B, fun a b => !a.slt b),
        (.bltu t ra rb disp, 0x1C, fun a b => a.ult b), (.bgeu t ra rb disp, 0x1D, fun a b => !a.ult b)] :
        List (Instr × Nat × (Word → Word → Bool))),
      let ws := [wBR c.2.1 ra rb disp]
      fetched s t ws = some u →
        let v := useRegs u t [ra, rb]
        let x := getT v t
        let a := x.pc + (disp.signExtend 64 <<< 2)
        (c.2.2 (x.int ra) (x.int rb) = true → targetCause x.pcc a = none →
          exec c.1 s = .next (jumped s (transferred (setPcc v t x.pcc a) t true) t ws)) ∧
        (c.2.2 (x.int ra) (x.int rb) = false →
          exec c.1 s = .next (jumped s (transferred (stepPc v t 1) t false) t ws))) ∧
  (∀ (s u : State) (t : Tid) (disp : BitVec 25),
    let ws := [wJMP 0x1E disp]
    let a := (getT u t).pc + (disp.signExtend 64 <<< 2)
    fetched s t ws = some u → targetCause (getT u t).pcc a = none →
      exec (.j t disp) s = .next (jumped s (transferred (setPcc u t (getT u t).pcc a) t true) t ws)) ∧
  (∀ (s u : State) (t : Tid) (ra : RegNo),
    let ws := [wREG 0x1F 0 ra 0 0]
    fetched s t ws = some u →
      let v := useRegs u t [ra]
      let g := (getT v t).greg ra
      pccCause (trusted v t) g = none → targetCause g g.int = none →
        exec (.jr t ra) s = .next (jumped s (transferred (setPcc v t g g.int) t true) t ws))

/-- At a report point with nothing outstanding: CALL and CALLR, with room for the window, write the return capability to x7, advance the
window and go to the target, a sealed entry unsealed; RET refills the caller's frame if need be, retreats the window and goes where e7
leads; TRAP goes through a well-formed gate that has no window stack of its own; FRET takes the window, globals and run priority back from
the frame. The spill engine spills the oldest frame; a fill makes the caller's frame resident. -/
def Obligations.CallReturnCompletes : Prop :=
  (∀ (s q u v : State) (t : Tid) (disp : BitVec 25),
    let ws := [wJMP 0x20 disp]
    let x := getT u t
    let a := x.pc + (disp.signExtend 64 <<< 2)
    quiet s t = some q → fetched q t ws = some u → targetCause x.pcc a = none → waitFree u t 2 = .ok v →
      (getT v t).hostWait = none →
        exec (.call t disp) s = .next (jumped q (doCall v t 1 0 x.pcc a) t ws)) ∧
  (∀ (s q u v : State) (t : Tid) (ra : RegNo),
    let ws := [wREG 0x21 0 ra 0 0]
    let y := useRegs u t [ra]
    let g := (getT y t).greg ra
    let gate := capOtype g == 4095
    let z := doCall v t 1 (if gate then 4094 else 0) (setOtype g 0) g.int
    quiet s t = some q → fetched q t ws = some u → callCause (trusted y t) g = none → targetCause g g.int = none →
      waitFree y t 2 = .ok v → (getT v t).hostWait = none →
        exec (.callr t ra) s =
          .next (jumped q (clearWhen z t (gate && z.getB (rBcPredCtrl t.val) BcPredCtrl.clr_gates)) t ws)) ∧
  (∀ (s q u v : State) (t : Tid),
    let ws := [wREG 0x22 0 0 0 0]
    let g := (getT u t).greg e7
    let z := popReturn (setPcc (updT v t retreat) t (setOtype g 0) g.int) t
    quiet s t = some q → fetched q t ws = some u → retCause (trusted u t) g = none → targetCause g g.int = none →
      fillForReturn u t = .ok v → (getT v t).hostWait = none →
        exec (.ret t) s = .next (jumped q (clearWhen (transferred z t true) t
          (capOtype g == 4093 || (capOtype g == 4094 && z.getB (rBcPredCtrl t.val) BcPredCtrl.clr_gates))) t ws)) ∧
  (∀ (s q u v w : State) (t : Tid) (n : BitVec 15) (d : List GReg),
    let ws := wGroup [] (wIMM 0x23 0 0 n)
    let gt := (getT u t).gatetab
    let e := d.getD 0 GReg.zero
    let iso := (d.getD 2 GReg.zero).data.getLsbD 1
    let y := updT w t (fun x => advance (x.setGreg x7 (returnCap x 1 (if iso then 4093 else 4094))))
    let z := transferred (pushReturn (setPcc y t (setOtype e 0) e.int) t ((getT w t).pc + 4)) t true
    quiet s t = some q → fetched q t ws = some u → (gt.tag && hasPerm gt pWORLD && !trusted u t) = false →
      gatetabOk gt n.toNat = true → loadLine u t gt (BitVec.ofInt 64 (capBase gt + 64 * n.toNat)) = .ok (some d, v) →
      gateOk d = true → (d.getD 1 GReg.zero).tag = false → targetCause e e.int = none → waitFree v t 2 = .ok w →
      (getT w t).hostWait = none →
        exec (.trap t [] n) s =
          .next (jumped q (clearWhen z t (iso || z.getB (rBcPredCtrl t.val) BcPredCtrl.clr_gates)) t ws)) ∧
  (∀ (s q u v w : State) (t : Tid) (g : List GReg) (k : Nat),
    let ws := [(BitVec.ofNat 7 0x24 ++ (0 : BitVec 25) : BitVec 32)]
    let fs := (getT u t).fstack
    let pc := g.getD 0 GReg.zero
    let info := (g.getD 1 GReg.zero).int
    let y := updT w t (fun x =>
      let x := (List.range 8).foldl (fun x i => x.setGreg (BitVec.ofNat 5 (24 + i)) (g.getD (16 + i) GReg.zero)) (retreat x)
      let x := (List.range 7).foldl (fun x i => x.setGreg (BitVec.ofNat 5 (1 + i)) (g.getD (8 + i) GReg.zero)) x
      { x with fstack := moveCursor x.fstack (x.fstack.int + 512) })
    let y := y.putF (rBcIrqCtrl t.val) BcIrqCtrl.run_pri (fld info ⟨50, 46⟩)
    let z := shallower (transferred (popReturn (setPcc y t pc pc.int) t) t true) t
    quiet s t = some q → fetched q t ws = some u → fstackOk fs fs.int = true → loadGranules u t fs fs.int 0 32 = .ok (some g, k, v) →
      infoOk info = true → pc.tag = true → sealed pc = false → hasPerm pc pEXEC = true → targetCause pc pc.int = none →
      fillForReturn v t = .ok w → (getT w t).hostWait = none →
        exec (.fret t 0) s = .next (jumped q (clearWhen z t (z.getB (rBcPredCtrl t.val) BcPredCtrl.clr_fault)) t ws)) ∧
  (∀ (s v : State) (t : Tid), coreRuns s t = true → 13 < (getT s t).res → fldB (getT s t).wstate Wstate.spill_blocked = false →
    spillOne s t = .ok v → exec (.spill t) s = .next v) ∧
  (∀ (s v : State) (t : Tid), coreRuns s t = true → (getT s t).res = 1 → fillOne s t = .ok (true, v) →
    exec (.windowFill t) s = .next v)

/-- A precise fault raised by an instruction is entered when nothing is outstanding before it, with the no-target record of a fault 0x41;
words that no instruction spells are entered as fault 0x01; an outstanding arithmetic exception is reported once a later instruction has
retired; the deliverable interrupt of highest priority is taken, ending a WAIT, with its pending bit cleared; WAIT suspends the thread
unless its deadline has come or an interrupt is deliverable, and the deadline wakes it. Entry itself is the one shared operation, which
writes the frame and goes to FGATE, or stops the thread where it cannot. -/
def Obligations.EntriesComplete : Prop :=
  (∀ (s : State) (t : Tid) (f : FaultInfo), atBoundary s t = true → (getT s t).fault = some f →
    ((settleAll (getT s t)).excs = [] ∨ arithCause f.cause = true) →
      exec (.faultEntry t .pending) s = .next (enter (takenRecord s t f) t ⟨0, f.cause, 0, f.detail, f.report, none, f.acc, f.words, f.cap⟩)) ∧
  (∀ (s u : State) (t : Tid) (ws : List (BitVec 32)), ready s t = true → wordsIllegal ws = true →
    (settleAll (getT s t)).excs = [] → fetchCheck s t ws.length = .ok u →
      exec (.faultEntry t (.words ws)) s =
        .next (enter u t ⟨0, 0x01, 0, 0, (getT u t).pc, none, none, ws, GReg.zero⟩)) ∧
  (∀ (s : State) (t : Tid) (o : ArithExc) (more : List ArithExc), atBoundary s t = true → (getT s t).fault = none →
    let y := updT s t settleAll
    (getT y t).excs = o :: more → (getT y t).excs.any (fun e => decide (2 ≤ e.age)) = true →
      exec (.impreciseReport t) s = .next (enter (updT y t (fun x => { x with excs := [] })) t
        ⟨1, o.cause, 0, BitVec.ofNat 64 (excMask (more.map (·.cause))), (getT y t).lastPc, if o.known then some o.orig else none,
          none, (getT y t).lastWords, GReg.zero⟩)) ∧
  (∀ (s : State) (t : Tid) (v : Nat), coreRuns s t = true → ((getT s t).run = .running ∨ (getT s t).run = .waiting) →
    (getT s t).hostWait = none → afterFault (getT s t) = false → (settleAll (getT s t)).excs = [] → nextVector s t = some v →
      exec (.interruptEntry t) s = .next (enter ((updT s t (fun x =>
        { x with run := .running, deadline := none, fault := none })).putF (rBcIrqPend t.val) ⟨v, v⟩ 0) t
        ⟨2, 0, v, 0, (getT s t).pc, none, none, [], GReg.zero⟩)) ∧
  (∀ (s u : State) (t : Tid) (ra : RegNo),
    let ws := [wREG 0x25 0 ra 0 0]
    fetchedIf (readyWait s t) s t ws = some u →
      let v := useRegs u t [ra]
      let d := ((getT v t).int ra).toNat
      ((d ≠ 0 ∧ d ≤ v.time) ∨ (nextVector v t).isSome → exec (.wait t ra) s = .next (done s v t ws)) ∧
      ((d = 0 ∨ v.time < d) → nextVector v t = none → exec (.wait t ra) s = .next (done s (updT v t (fun x =>
        { x with run := .waiting, deadline := if d = 0 then none else some d })) t ws))) ∧
  (∀ (s : State) (t : Tid) (d : Nat), (getT s t).run = .waiting → (getT s t).deadline = some d → d ≤ s.time →
    exec (.waitDeadline t) s = .next (updT s t (fun x => { x with run := .running, deadline := none })))

/-- RDTR writes to rd the thread register that fn selects, 0 to 8. WRTR, at a report point, with the authority R87 asks for FSTACK, FGATE
and GATETAB: WSTACK is replaced, FSTACK, FGATE and GATETAB take the value, TCTRL takes its writable fields and TSTATUS loses the sticky bits
written as one. -/
def Obligations.ThreadRegisterCompletes : Prop :=
  (∀ (s u : State) (t : Tid) (rd : RegNo) (fn : BitVec 10) (g : GReg), fn.toNat < 16 →
    let w := wREG 0x59 rd 0 0 fn
    fetched s t [w] = some u →
      let v := useRegs u t [rd]
      threadReg v t fn.toNat = some g →
        exec (.rdtr t rd 0 0 fn) s = .next (done s (updT v t (fun x => x.setGreg rd g)) t [w])) ∧
  (∀ (s q u : State) (t : Tid) (ra : RegNo), quiet s t = some q →
    ∀ c ∈ ([(.wrtrTctrl t 0 ra 0 0, 6, fun x g => { x with tctrl := g.int &&& 0xFE7 }),
        (.wrtrTstatus t 0 ra 0 0, 7, fun x g => { x with tstatus := x.tstatus &&& ~~~(g.int &&& 0x3E7) })] :
        List (Instr × BitVec 10 × (Thread → GReg → Thread))),
      let w := wREG 0x5A 0 ra 0 c.2.1
      fetched q t [w] = some u →
        let v := useRegs u t [ra]
        exec c.1 s = .next (done q (updT v t (fun x => c.2.2 x ((getT v t).greg ra))) t [w])) ∧
  (∀ (s q u : State) (t : Tid) (ra rb : RegNo), quiet s t = some q →
    ∀ c ∈ ([(.wrtrFstack t 0 ra rb 0, 2, fun x g => { x with fstack := g }),
        (.wrtrFgate t 0 ra rb 0, 3, fun x g => { x with fgate := g }),
        (.wrtrGatetab t 0 ra rb 0, 4, fun x g => { x with gatetab := g })] : List (Instr × Nat × (Thread → GReg → Thread))),
      let w := wREG 0x5A 0 ra rb (BitVec.ofNat 10 c.2.1)
      fetched q t [w] = some u →
        let v := useRegs u t [ra, rb]
        let g := (getT v t).greg ra
        authorityCause (trusted v t) ((getT v t).greg rb) (tauthAddr t c.2.1) = none →
          (g.tag && hasPerm g pWORLD && !trusted v t) = false →
            exec c.1 s = .next (done q (updT v t (fun x => c.2.2 x g)) t [w])) ∧
  (∀ (s q u z : State) (t : Tid) (ra : RegNo), quiet s t = some q →
    let w := wREG 0x5A 0 ra 0 1
    fetched q t [w] = some u →
      let v := useRegs u t [ra]
      let g := (getT v t).greg ra
      (g.tag && hasPerm g pWORLD && !trusted v t) = false → wstackCause g = none → replaceWstack v t g = .ok z →
        (getT z t).hostWait = none → exec (.wrtrWstack t 0 ra 0 0) s = .next (done q z t [w]))

/-- RDTIME writes the timebase count, FEAT word 0 the features and any other word zero. The full and I/O fences complete the store queue;
the release and store fences make later stores wait for earlier ones; the acquire fence, ISYNC and ABAR with nothing outstanding only
advance; PRF in a mode of format MEM asks for its line where its capability, translation and place allow, writes its base, and raises
nothing. A TLBI with its authority performs the stores before it and removes what its kind selects, in this core or everywhere; TLBI SYNC
completes the store queues of its scope once no access there is left to be performed. -/
def Obligations.SystemCompletes : Prop :=
  (∀ (s u : State) (t : Tid) (rd : RegNo),
    let w := wREG 0x5B rd 0 0 0
    fetched s t [w] = some u →
      exec (.rdtime t rd) s = .next (done s (putInt (useRegs u t [rd]) t rd (BitVec.ofNat 64 u.time)) t [w])) ∧
  (∀ (s u : State) (t : Tid) (rd : RegNo) (imm : BitVec 15),
    let ws := [wIMM 0x5C rd 0 imm]
    fetched s t ws = some u →
      exec (.feat t [] rd 0 imm) s = .next (done s (putInt (useRegs u t [rd]) t rd (if imm = 0 then featureW u else 0)) t ws)) ∧
  (∀ (s u : State) (t : Tid),
    ∀ c ∈ ([(.fenceFull t, wREG 0x46 0 0 0 0, drainAll u t),
        (.fenceAcq t, wREG 0x46 0 0 0 1, u),
        (.fenceRel t, wREG 0x46 0 0 0 2, updT u t (fun x => { x with epoch := x.epoch + 1 })),
        (.fenceSs t, wREG 0x46 0 0 0 3, updT u t (fun x => { x with epoch := x.epoch + 1 })),
        (.fenceIo t, wREG 0x46 0 0 0 4, drainAll u t),
        (.isync t, wREG 0x49 0 0 0 0, u)] : List (Instr × BitVec 32 × State)),
      fetched s t [c.2.1] = some u → (getT c.2.2 t).hostWait = none → exec c.1 s = .next (done s c.2.2 t [c.2.1])) ∧
  (∀ (s q u : State) (t : Tid), quiet s t = some q → fetched q t [wREG 0x4A 0 0 0 0] = some u →
    exec (.abar t) s = .next (done q u t [wREG 0x4A 0 0 0 0])) ∧
  (∀ (s u : State) (t : Tid) (ra : RegNo) (am : BitVec 3) (imm : BitVec 12), fetched s t [wMEM 0x4C 0 ra am imm] = some u →
    am ≠ 3 → am ≠ 7 → (getT (prefetchLine u t am ra imm) t).hostWait = none →
    exec (.prf t ra am imm) s = .next (done s (prefetchLine u t am ra imm) t [wMEM 0x4C 0 ra am imm])) ∧
  (∀ (s u : State) (t : Tid) (rd ra rb : RegNo) (pkg : Bool),
    ∀ c ∈ ([(.tlbiVaAsid t rd ra rb pkg 0, 0, rBcXlatRoot1 t.val), (.tlbiVa t rd ra rb pkg 0, 1, rBcXlatRoot1 t.val),
        (.tlbiAsid t rd ra rb pkg 0, 2, rBcXlatRoot1 t.val), (.tlbiVmidCurrent t rd ra rb pkg 0, 3, rBcXlatRoot1 t.val),
        (.tlbiIpa t rd ra rb pkg 0, 4, rBcXlatRoot2 t.val), (.tlbiVmid t rd ra rb pkg 0, 5, rBcXlatRoot2 t.val),
        (.tlbiAll t rd ra rb pkg 0, 6, rBcXlatRoot2 t.val)] : List (Instr × Nat × Nat)),
      let ws := [wREG 0x5D rd ra rb ((0 : BitVec 5) ++ BitVec.ofBool pkg ++ BitVec.ofNat 4 c.2.1)]
      fetched s t ws = some u →
        let v := useRegs u t [rd, ra, rb]
        authorityCause (trusted v t) ((getT v t).greg rd) c.2.2 = none →
        let d := drainAll v t
        let r := updT (tlbiAll d t pkg c.2.1 (xctx d t).vmid ((getT v t).int ra).toNat ((getT v t).int rb).toNat) t (fun x =>
          { x with tlbiWide := x.tlbiWide || pkg })
        (getT r t).hostWait = none → exec c.1 s = .next (done s r t ws)) ∧
  (∀ (s u : State) (t : Tid) (rd ra rb : RegNo) (pkg : Bool),
    let ws := [wREG 0x5D rd ra rb ((0 : BitVec 5) ++ BitVec.ofBool pkg ++ BitVec.ofNat 4 8)]
    fetched s t ws = some u →
      let v := useRegs u t [rd, ra, rb]
      authorityCause (trusted v t) ((getT v t).greg rd) (rBcXlatRoot1 t.val) = none → syncClear s t pkg = true →
      let r := updT (syncDrain (drainAll v t) t pkg) t (fun x => { x with tlbiWide := false })
      (getT r t).hostWait = none → exec (.tlbiSync t rd ra rb pkg 0) s = .next (done s r t ws))

/-- A load whose address mode is legal, whose capability allows the access at the effective address, and whose bytes are read, writes its
destination from those bytes (sign- or zero-extended, 16 bytes with their tag, or 32 bytes of vector) and moves the base of a writing mode.
LDA reads at the base of its capability, after earlier STRELs. -/
def Obligations.LoadCompletes : Prop :=
  (∀ (s u z : State) (t : Tid) (rd ra : RegNo) (am : BitVec 3) (imm : BitVec 12) (a : Word) (wb : Option Word) (bs : List Byte)
      (g : Bool),
    ∀ c ∈ ([(.ldB t rd ra am imm, 0x28, .sext 1), (.ldBu t rd ra am imm, 0x29, .zext 1), (.ldH t rd ra am imm, 0x2A, .sext 2),
        (.ldHu t rd ra am imm, 0x2B, .zext 2), (.ldW t rd ra am imm, 0x2C, .sext 4), (.ldWu t rd ra am imm, 0x2D, .zext 4),
        (.ldD t rd ra am imm, 0x2E, .zext 8), (.ldC t rd ra am imm, 0x2F, .cap), (.ldV t rd ra am imm, 0x35, .vec)] :
        List (Instr × Nat × LdKind)),
      let ws := [wMEM c.2.1 rd ra am imm]
      let k := c.2.2
      fetched s t ws = some u → am ≠ 3 → am ≠ 7 → (amWrites am.toNat && k != .vec && rd == ra) = false →
        let y := useRegs (useData u t (k == .vec) rd) t [ra]
        let v := (getT y t).greg ra
        effAddr am.toNat (boundsOf v).1 (boundsOf v).2 v.int (imm.signExtend 64) = some (a, wb) →
        useAt (trusted y t) v [pLOAD] (k != .vec) (some a) k.size = none →
        loadBytes y t v a k.size (k == .cap) = .ok (some (bs, g), z) → (getT z t).hostWait = none →
          exec c.1 s = .next (done s (putLoad (baseBack z t am.toNat ra wb) t v k rd bs g) t ws)) ∧
  (∀ (s u z : State) (t : Tid) (rd ra rb : RegNo) (sh : BitVec 3) (w : BitVec 5) (m x : Bool) (a : Word) (wb : Option Word)
      (bs : List Byte) (g : Bool),
    ∀ c ∈ ([(.ldxB t rd ra rb sh w m x, 0x38, if x then .zext 1 else .sext 1, true),
        (.ldxH t rd ra rb sh w m x, 0x39, if x then .zext 2 else .sext 2, true),
        (.ldxW t rd ra rb sh w m x, 0x3A, if x then .zext 4 else .sext 4, true),
        (.ldxD t rd ra rb sh w m x, 0x3B, .zext 8, !x), (.ldxC t rd ra rb sh w m x, 0x3C, .cap, !x),
        (.ldxV t rd ra rb sh w m x, 0x3D, .vec, !x)] : List (Instr × Nat × LdKind × Bool)),
      let ws := [wMIX c.2.1 rd ra rb sh w m x]
      let k := c.2.2.1
      fetched s t ws = some u → sh.toNat ≤ 4 → w.toNat ≤ 24 → c.2.2.2 = true →
        let y := useRegs (useData u t (k == .vec) rd) t [ra, rb]
        let v := (getT y t).greg ra
        effAddr (if m then 7 else 3) (boundsOf v).1 (boundsOf v).2 v.int (indexDisp ((getT y t).int rb) sh w) = some (a, wb) →
        useAt (trusted y t) v [pLOAD] (k != .vec) (some a) k.size = none →
        loadBytes y t v a k.size (k == .cap) = .ok (some (bs, g), z) → (getT z t).hostWait = none →
          exec c.1 s = .next (done s (putLoad (baseBack z t (if m then 7 else 3) ra wb) t v k rd bs g) t ws)) ∧
  (∀ (s u z : State) (t : Tid) (rd ra : RegNo) (size : BitVec 3) (bs : List Byte) (g : Bool),
    let ws := [wREG 0x47 rd ra 0 ((0 : BitVec 7) ++ size)]
    let k := if size = 4 then LdKind.cap else .zext (2 ^ size.toNat)
    fetched s t ws = some u → size.toNat ≤ 4 →
      let y := useRegs u t [rd, ra]
      let v := (getT y t).greg ra
      useAt (trusted y t) v [pLOAD] true (some v.int) k.size = none →
      loadBytes (drainRel y t) t v v.int k.size true = .ok (some (bs, g), z) → (getT z t).hostWait = none →
        exec (.lda t rd ra size 0) s = .next (done s (putLoad z t v k rd bs g) t ws))

/-- A store whose mode is legal and whose capability allows it writes the bytes of its data register (a capability store with the tag) at
the effective address and moves the base of a writing mode. STREL writes at the base of its capability as a release. -/
def Obligations.StoreCompletes : Prop :=
  (∀ (s u z : State) (t : Tid) (rd ra : RegNo) (am : BitVec 3) (imm : BitVec 12) (a : Word) (wb : Option Word),
    ∀ c ∈ ([(.stB t rd ra am imm, 0x30, .int 1), (.stH t rd ra am imm, 0x31, .int 2), (.stW t rd ra am imm, 0x32, .int 4),
        (.stD t rd ra am imm, 0x33, .int 8), (.stC t rd ra am imm, 0x34, .cap), (.stV t rd ra am imm, 0x36, .vec)] :
        List (Instr × Nat × StKind)),
      let ws := [wMEM c.2.1 rd ra am imm]
      let k := c.2.2
      fetched s t ws = some u → am ≠ 3 → am ≠ 7 →
        let y := useRegs (useData u t (k == .vec) rd) t [ra]
        let v := (getT y t).greg ra
        let b := storeValue (getT y t) k rd
        effAddr am.toNat (boundsOf v).1 (boundsOf v).2 v.int (imm.signExtend 64) = some (a, wb) →
        useAt (trusted y t) v (storePerms b.2) (k != .vec) (some a) b.1.length = none →
        localCause v ((getT y t).greg rd) b.2 = none →
        storeBytes y t v a b.1 (k == .cap) b.2 false = .ok z → (getT z t).hostWait = none →
          exec c.1 s = .next (done s (baseBack z t am.toNat ra wb) t ws)) ∧
  (∀ (s u z : State) (t : Tid) (rd ra rb : RegNo) (sh : BitVec 3) (w : BitVec 5) (m : Bool) (a : Word) (wb : Option Word),
    ∀ c ∈ ([(.stxB t rd ra rb sh w m false, 0x3E, .int 1), (.stxH t rd ra rb sh w m false, 0x3F, .int 2),
        (.stxW t rd ra rb sh w m false, 0x40, .int 4), (.stxD t rd ra rb sh w m false, 0x41, .int 8),
        (.stxC t rd ra rb sh w m false, 0x42, .cap), (.stxV t rd ra rb sh w m false, 0x43, .vec)] :
        List (Instr × Nat × StKind)),
      let ws := [wMIX c.2.1 rd ra rb sh w m false]
      let k := c.2.2
      fetched s t ws = some u → sh.toNat ≤ 4 → w.toNat ≤ 24 →
        let y := useRegs (useData u t (k == .vec) rd) t [ra, rb]
        let v := (getT y t).greg ra
        let b := storeValue (getT y t) k rd
        effAddr (if m then 7 else 3) (boundsOf v).1 (boundsOf v).2 v.int (indexDisp ((getT y t).int rb) sh w) = some (a, wb) →
        useAt (trusted y t) v (storePerms b.2) (k != .vec) (some a) b.1.length = none →
        localCause v ((getT y t).greg rd) b.2 = none →
        storeBytes y t v a b.1 (k == .cap) b.2 false = .ok z → (getT z t).hostWait = none →
          exec c.1 s = .next (done s (baseBack z t (if m then 7 else 3) ra wb) t ws)) ∧
  (∀ (s u z : State) (t : Tid) (rd ra : RegNo) (size : BitVec 3),
    let ws := [wREG 0x48 rd ra 0 ((0 : BitVec 7) ++ size)]
    let k := if size = 4 then StKind.cap else .int (2 ^ size.toNat)
    fetched s t ws = some u → size.toNat ≤ 4 →
      let y := useRegs u t [rd, ra]
      let v := (getT y t).greg ra
      let b := storeValue (getT y t) k rd
      useAt (trusted y t) v (storePerms b.2) true (some v.int) b.1.length = none →
      localCause v ((getT y t).greg rd) b.2 = none →
      storeBytes y t v v.int b.1 true b.2 true = .ok z → (getT z t).hostWait = none →
        exec (.strel t rd ra size 0) s = .next (done s z t ws))

/-- An AMO or CAS whose capability allows it, on an aligned address in memory, reads the old value, writes what its operation makes of it,
and returns the old value in rd (tags only where R113 and R114 give them); bits of the order field drain what must come before it. CAS
writes rb only where the old value equals rd. FETCH-ADD and SWAP of 64 bits, and CAS without tags, complete on a host aperture too, with the
old value that the host answers. -/
def Obligations.AtomicCompletes : Prop :=
  (∀ (s u p z : State) (t : Tid) (rd ra rb : RegNo) (order : BitVec 2) (wide : Bool) (x : Xl) (old : GReg),
    ∀ c ∈ ([(.amoFadd t rd ra rb order wide 0, 0, .fadd), (.amoSwap t rd ra rb order wide 0, 1, .swap),
        (.amoAnd t rd ra rb order wide 0, 2, .and), (.amoOr t rd ra rb order wide 0, 3, .or),
        (.amoXor t rd ra rb order wide 0, 4, .xor), (.amoSmin t rd ra rb order wide 0, 5, .smin),
        (.amoSmax t rd ra rb order wide 0, 6, .smax), (.amoUmin t rd ra rb order wide 0, 7, .umin),
        (.amoUmax t rd ra rb order wide 0, 8, .umax)] : List (Instr × Nat × AmoOp)),
      let ws := [wREG 0x44 rd ra rb (amoFnBits order wide c.2.1 0)]
      let n := if wide then 16 else 8
      let swap := c.2.2 == .swap && wide
      fetched s t ws = some u →
        let y := useRegs u t [rd, ra, rb]
        let v := (getT y t).greg ra
        let b := (getT y t).greg rb
        let q := drainBefore (if order.getLsbD 0 then drainRel p t else p) t x.pa n (order.getLsbD 1)
        let again := fun w : State => reachP w t .atomic v v.int n true (swap && b.tag)
          (cannotAtomic (!wide && (c.2.2 == .fadd || c.2.2 == .swap)))
        let new := fun o : GReg => some (BitVec.ofNat 128 (amoFn c.2.2 (8 * n) (o.data.toNat % 2 ^ (8 * n))
          (if wide then b.data.toNat else b.int.toNat)), swap && b.tag)
        useAt (trusted y t) v ([pLOAD, pSTORE, pATOMIC] ++ if swap && b.tag then [pSTORECAP] else []) false (some v.int) n = none →
        localCause v b (some (swap && b.tag)) = none → again y = .ok (x, p) → (physClass q x.pa).isMem = true →
        amoMem q t v v.int x n new again = .ok (old, z) → (getT z t).hostWait = none →
          exec c.1 s = .next (done s (updT z t (fun w => w.setGreg rd (if swap then old else { old with tag := false }))) t ws)) ∧
  (∀ (s u p z : State) (t : Tid) (rd ra rb : RegNo) (order width : BitVec 2) (x : Xl) (old : GReg),
    let ws := [wREG 0x45 rd ra rb (order ++ width ++ (0 : BitVec 6))]
    let n := if width = 0 then 8 else 16
    fetched s t ws = some u → width ≠ 3 →
      let y := useRegs u t [rd, ra, rb]
      let v := (getT y t).greg ra
      let b := (getT y t).greg rb
      let e := (getT y t).greg rd
      let q := drainBefore (if order.getLsbD 0 then drainRel p t else p) t x.pa n (order.getLsbD 1)
      let st := width == 2 && b.tag
      let again := fun w : State => reachP w t .atomic v v.int n true st (cannotAtomic (width != 2))
      let new := fun o : GReg =>
        if (if width = 0 then o.int == e.int else if width == 2 then o == e else o.data == e.data) then
          some (if width = 0 then b.int.setWidth 128 else b.data, st)
        else none
      useAt (trusted y t) v ([pLOAD, pSTORE, pATOMIC] ++ if st then [pSTORECAP] else []) false (some v.int) n = none →
      localCause v b (some st) = none → again y = .ok (x, p) → (physClass q x.pa).isMem = true →
      amoMem q t v v.int x n new again = .ok (old, z) → (getT z t).hostWait = none →
        exec (.cas t rd ra rb order width 0) s =
          .next (done s (updT z t (fun w => w.setGreg rd (if width == 2 then old else { old with tag := false }))) t ws)) ∧
  (∀ (s u p q z : State) (t : Tid) (rd ra rb : RegNo) (order : BitVec 2) (x x' : Xl) (old : GReg) (i off : Nat),
    ∀ c ∈ ([(.amoFadd t rd ra rb order false 0, wREG 0x44 rd ra rb (amoFnBits order false 0 0), 8,
          fun y => .op .fadd 8 (y.int rb).toNat),
        (.amoSwap t rd ra rb order false 0, wREG 0x44 rd ra rb (amoFnBits order false 1 0), 8,
          fun y => .op .swap 8 (y.int rb).toNat),
        (.cas t rd ra rb order 0 0, wREG 0x45 rd ra rb (order ++ (0 : BitVec 2) ++ (0 : BitVec 6)), 8,
          fun y => .cas 8 (y.int rd).toNat (y.int rb).toNat),
        (.cas t rd ra rb order 1 0, wREG 0x45 rd ra rb (order ++ (1 : BitVec 2) ++ (0 : BitVec 6)), 16,
          fun y => .cas 16 (y.greg rd).data.toNat (y.greg rb).data.toNat)] : List (Instr × BitVec 32 × Nat × (Thread → HostAtom))),
      let n := c.2.2.1
      fetched s t [c.2.1] = some u →
        let y := useRegs u t [rd, ra, rb]
        let v := (getT y t).greg ra
        let d := drainBefore (if order.getLsbD 0 then drainRel p t else p) t x.pa n (order.getLsbD 1)
        let again := fun w : State => reachP w t .atomic v v.int n true false (cannotAtomic true)
        useAt (trusted y t) v [pLOAD, pSTORE, pATOMIC] false (some v.int) n = none →
        again y = .ok (x, p) → (physClass d x.pa).isMem = false →
        (if turnedAway d t x then .ok (x, d) else settleDirty again t v v.int 4 d x) = .ok (x', q) → physClass q x'.pa = .hostAp i off →
        amoHost q t v v.int i off n (c.2.2.2 (getT y t)) x'.ent = .ok (some old, z) → (getT z t).hostWait = none →
          exec c.1 s = .next (done s (updT z t (fun w => w.setGreg rd { old with tag := false })) t [c.2.1]))

/-- CLEAN asks for LOAD, FLUSH for LOAD and STORE, ZERO for STORE over the 64 bytes of the line. ZERO sets the leaf's d bit as a store does.
Each then acts where the address leads: memory, a host or a doorbell. -/
def Obligations.CacheMaintenanceCompletes : Prop :=
  ∀ (s u p q z : State) (t : Tid) (ra : RegNo) (imm : BitVec 12) (x x' : Xl),
    ∀ c ∈ ([(.cmoClean t ra 0 imm, 0, .clean, [pLOAD], .load), (.cmoFlush t ra 0 imm, 1, .flush, [pLOAD, pSTORE], .store),
        (.cmoZero t ra 0 imm, 2, .zero, [pSTORE], .store)] : List (Instr × BitVec 5 × SqKind × List Nat × XKind)),
      let ws := [wMEM 0x4B c.2.1 ra 0 imm]
      let k := c.2.2.1
      fetched s t ws = some u →
        let y := useRegs u t [ra]
        let v := (getT y t).greg ra
        let b := v.int + imm.signExtend 64
        let a := if k == .zero then b &&& 0xFFFFFFFFFFFFFFC0 else b
        useAt (trusted y t) v c.2.2.2.1 false (some a) (if k == .zero then 64 else 1) = none →
        translate y t c.2.2.2.2 a v = .ok (x, p) →
        (k ≠ .zero → x' = x ∧ q = p) →
        (k = .zero → settleDirty (fun w => translate w t c.2.2.2.2 a v) t v a 4 p x = .ok (x', q)) →
        cmoAct q t k v a x' = .ok z → (getT z t).hostWait = none →
          exec c.1 s = .next (done s z t ws)

/-- A block instruction with legal registers and function whose work is complete already, or whose elements all succeed, retires. One
element at a time, as always where a root write of another requester waits for the boundary (R222): an element that leaves work keeps the
PCC, so the thread may be interrupted there, and the last one retires the instruction. -/
def Obligations.BlockInstructionCompletes : Prop :=
  (∀ (s u y z : State) (t : Tid) (rd ra rb : RegNo) (fn : BitVec 10),
    ∀ c ∈ ([(.blkmove t rd ra rb fn, .move fn, 0x54), (.blkfill t rd ra rb fn, .fill fn, 0x55),
        (.blkcmp t rd ra rb fn, .cmp fn, 0x56), (.crcrange t rd ra rb fn, .crc fn, 0x57),
        (.nttpass t rd ra rb fn, .ntt fn, 0x58)] : List (Instr × BlkOp × Nat)),
      let ws := [wREG c.2.2 rd ra rb fn]
      ((getT s t).rootReq ≠ [] → exec c.1 s = exec (.blockElement t c.2.1 rd ra rb) s) ∧
      ((getT s t).rootReq = [] → fetched s t ws = some u → (getT z t).hostWait = none →
        (blkStart u t c.2.1 rd ra rb = .ok (z, true) → exec c.1 s = .next (done s z t ws)) ∧
        (blkStart u t c.2.1 rd ra rb = .ok (y, false) →
          blkLoop t c.2.1 rd ra rb (blkFuel c.2.1 ((getT y t).int rb)) y = .ok z → exec c.1 s = .next (done s z t ws)))) ∧
  (∀ (s u y z : State) (t : Tid) (op : BlkOp) (rd ra rb : RegNo), fetched s t (blkWords op rd ra rb) = some u →
    (blkStart u t op rd ra rb = .ok (z, true) →
      exec (.blockElement t op rd ra rb) s = .next (done s z t (blkWords op rd ra rb))) ∧
    (blkStart u t op rd ra rb = .ok (y, false) →
      (blkElem y t op rd ra rb = .ok (z, .done) →
        exec (.blockElement t op rd ra rb) s = .next (done s z t (blkWords op rd ra rb))) ∧
      (blkElem y t op rd ra rb = .ok (z, .more) →
        exec (.blockElement t op rd ra rb) s = .next (takeRoots (updT (checkElement z t (getT s t).pc (blkWords op rd ra rb)) t
          (fun x => { x with fetchAns := [], inFlight := false })) t))))

/-- VINT, VMUL, VSHL, VPERM, VCLMUL, VAES, VSHA2 and VSHA3 write to vd the operation's result on va and vb; VMODMA and VSEL the
three-operand result (VMODMA where every operand is below its modulus); VMOV moves between general and vector registers; VRED leaves its
result in lane 0 as a long operation. The fn values, and what shifts beyond the lane, mixed select masks and out-of-range lanes give, are
left open by the spec and free in Config. -/
def Obligations.VectorCompletes : Prop :=
  (∀ (s u : State) (t : Tid) (vd va vb : RegNo) (iop : VIntOp) (mop : VMulOp) (lop : VLogOp) (pop : VPermOp) (aop : AesOp)
      (w : Lane),
    let y := useVecs u t [vd, va, vb]
    ∀ c ∈ ([(.vint t vd va vb iop w, 0x60, iop.ctorIdx * 4 + w.ctorIdx, mapLanes (laneBits w) (vintLane iop (laneBits w))),
        (.vmul t vd va vb mop w, 0x61, mop.ctorIdx * 4 + w.ctorIdx, mapLanes (laneBits w) (vmulLane mop (laneBits w))),
        (.vshl t vd va vb lop w, 0x62, lop.ctorIdx * 4 + w.ctorIdx, mapLanes (laneBits w) (vlogLane lop w)),
        (.vperm t vd va vb pop w, 0x63, pop.ctorIdx * 4 + w.ctorIdx, vperm pop w),
        (.vclmul t vd va vb, 0x6C, 0, mapLanes 128 (fun a b => clmul64 (a % 2 ^ 64) (b % 2 ^ 64))),
        (.vaes t vd va vb aop, 0x6B, aop.ctorIdx,
          mapLanes 128 (fun a b => (Config.aesStep aop (BitVec.ofNat 128 a) (BitVec.ofNat 128 b)).toNat))] :
        List (Instr × Nat × Nat × (Vec → Vec → Vec))),
      let ws := [vecWord c.2.1 vd va vb c.2.2.1]
      fetched s t ws = some u →
        exec c.1 s = .next (done s (putVec y t vd (c.2.2.2 ((getT y t).vec va) ((getT y t).vec vb))) t ws)) ∧
  (∀ (s u : State) (t : Tid) (vd va vb : RegNo) (s2 : Sha2Op) (s3 : Sha3Op) (rnd : Fin 24),
    let y := useVecs u t [vd, va, vb]
    (fetched s t [vecWord 0x6D vd va vb s2.ctorIdx] = some u →
      exec (.vsha2 t vd va vb s2) s = .next (done s (putVec y t vd (Config.sha2Step s2 ((getT y t).vec vd) ((getT y t).vec va)
        ((getT y t).vec vb))) t [vecWord 0x6D vd va vb s2.ctorIdx])) ∧
    (fetched s t [vecWord 0x6E vd va vb (s3.ctorIdx * 24 + rnd.val)] = some u →
      exec (.vsha3 t vd va vb s3 rnd) s = .next (done s (putVec y t vd (Config.sha3Step s3 rnd.val ((getT y t).vec vd)
        ((getT y t).vec va) ((getT y t).vec vb))) t [vecWord 0x6E vd va vb (s3.ctorIdx * 24 + rnd.val)]))) ∧
  (∀ (s u : State) (t : Tid) (vd va vb vc : RegNo) (w : Lane) (r : List Nat),
    let y := useVecs u t [vd, va, vb, vc]
    let l := fun (n : Nat) (k : RegNo) => lanesOf n ((getT y t).vec k)
    (fetched s t [wSEL 0x6F vd va vb vc ((Config.vecFn 0x6F 0).setWidth 5)] = some u →
      modLanes (l 32 va) (l 32 vb) (l 32 vd) (l 32 vc) = some r →
      exec (.vmodma t vd va vb vc) s = .next (done s (putVec y t vd (packLanes 32 r)) t
        [wSEL 0x6F vd va vb vc ((Config.vecFn 0x6F 0).setWidth 5)])) ∧
    (fetched s t [wSEL 0x70 vd va vb vc ((Config.vecFn 0x70 w.ctorIdx).setWidth 5)] = some u →
      exec (.vsel t vd va vb vc w) s = .next (done s (putVec y t vd (packLanes (laneBits w)
        (List.zipWith (fun m ab => selLane w m ab.1 ab.2) (l (laneBits w) vc)
          (List.zip (l (laneBits w) va) (l (laneBits w) vb))))) t
        [wSEL 0x70 vd va vb vc ((Config.vecFn 0x70 w.ctorIdx).setWidth 5)]))) ∧
  (∀ (s u : State) (t : Tid) (rd ra : RegNo) (w : Lane) (i : Nat),
    let n := laneBits w
    (let ws := [vecWord 0x69 rd ra 0 (4 * (i % 32) + w.ctorIdx)]
     let y := useVecs (useRegs u t [ra]) t [rd]
     fetched s t ws = some u →
      exec (.vmov t rd ra (.insert i) w) s = .next (done s (putVec y t rd
        (packLanes n ((lanesOf n ((getT y t).vec rd)).set (i % (256 / n)) ((getT y t).int ra).toNat))) t ws)) ∧
    (let ws := [vecWord 0x69 rd ra 0 (128 + 4 * (i % 32) + w.ctorIdx)]
     let y := useVecs (useRegs u t [rd]) t [ra]
     fetched s t ws = some u →
      exec (.vmov t rd ra (.extract i) w) s = .next (done s (putInt y t rd
        (BitVec.ofNat 64 ((lanesOf n ((getT y t).vec ra)).getD (i % (256 / n)) 0))) t ws)) ∧
    (let ws := [vecWord 0x69 rd ra 0 256]
     let y := useVecs u t [rd, ra]
     fetched s t ws = some u →
      exec (.vmov t rd ra .vector w) s = .next (done s (putVec y t rd ((getT y t).vec ra)) t ws))) ∧
  (∀ (s u : State) (t : Tid) (vd va : RegNo) (op : VRedOp) (w : Lane),
    let ws := [vecWord 0x6A vd va 0 (op.ctorIdx * 4 + w.ctorIdx)]
    let y := useVecs u t [vd, va]
    fetched s t ws = some u →
      exec (.vred t vd va op w) s = .next (done s (arith y t ws (.vector vd.toNat) GReg.zero
        (packLanes (laneBits w) [vred op (laneBits w) ((getT y t).vec va)]) [] true) t ws))

/-- Each floating-point instruction completes on every operand value: the lanes' results under the rounding mode go to vd, a scalar form in
lane 0 alone, and the conditions the lanes met reach the thread once each. -/
def Obligations.FloatCompletes : Prop :=
  (∀ (s u : State) (t : Tid) (vd va vb : RegNo) (aop : FAddOp) (dop : FDivOp) (w : FpW) (scalar : Bool),
    ∀ c ∈ ([(.fadd t vd va vb aop w scalar, 0x64, aop.ctorIdx, false, fun rm a b =>
          match aop with
          | .add => fpAdd w rm a b
          | .sub => fpSub w rm a b
          | o => fpCompare w o a b),
        (.fmul t vd va vb w scalar, 0x65, 0, false, fpMul w),
        (.fdiv t vd va vb dop w scalar, 0x67, dop.ctorIdx, true, fun rm a b =>
          match dop with
          | .div => fpDivide w rm a b
          | .sqrt => fpSqrt w rm a)] : List (Instr × Nat × Nat × Bool × (Nat → Nat → Nat → FpRes))),
      let ws := [vecWord c.2.1 vd va vb (c.2.2.1 * 4 + w.ctorIdx * 2 + (if scalar then 1 else 0))]
      let y := useVecs u t [vd, va, vb]
      let x := getT y t
      let r := fpPack (FpBits w) scalar (List.zipWith (c.2.2.2.2 (fld x.tctrl Tctrl.rm)) (lanesOf (FpBits w) (x.vec va))
        (lanesOf (FpBits w) (x.vec vb)))
      fetched s t ws = some u →
        exec c.1 s = .next (done s (arith y t ws (.vector vd.toNat) GReg.zero r.1 r.2 c.2.2.2.1) t ws)) ∧
  (∀ (s u : State) (t : Tid) (vd va vb vc : RegNo) (w : FpW) (scalar : Bool),
    let ws := [wSEL 0x66 vd va vb vc ((Config.vecFn 0x66 (w.ctorIdx * 2 + (if scalar then 1 else 0))).setWidth 5)]
    let y := useVecs u t [vd, va, vb, vc]
    let x := getT y t
    let l := fun r : RegNo => lanesOf (FpBits w) (x.vec r)
    let r := fpPack (FpBits w) scalar (List.zipWith (fun ab c => fpFma w (fld x.tctrl Tctrl.rm) ab.1 ab.2 c)
      (List.zip (l va) (l vb)) (l vc))
    fetched s t ws = some u →
      exec (.fma t vd va vb vc w scalar) s = .next (done s (arith y t ws (.vector vd.toNat) GReg.zero r.1 r.2 false) t ws)) ∧
  (∀ (s u : State) (t : Tid) (vd va : RegNo) (op : FCvtOp) (scalar : Bool),
    let ws := [vecWord 0x68 vd va 0 (cvtForm op * 2 + (if scalar then 1 else 0))]
    let y := useVecs u t [vd, va]
    let e := cvtElem op (fld (getT y t).tctrl Tctrl.rm)
    let r := fpPack e.2.1 scalar (((lanesOf e.1 ((getT y t).vec va)).take (256 / max e.1 e.2.1)).map e.2.2)
    fetched s t ws = some u →
      exec (.fcvt t vd va op scalar) s = .next (done s (arith y t ws (.vector vd.toNat) GReg.zero r.1 r.2 false) t ws))

/-- A domain pauses below 520 mV and resumes above 540 mV. A lost reference that drove the timebase hands over to the other, or the count
goes into holdover; a returned one ends holdover by slewing; revert switches back to the preferred one. A voltage step moves an output 5 mV
towards its set point, at most one in 500 ns. A power window writes the mean power, ballast included; a failed sensor is marked and left out
of t_max. The governor sets the code it chooses. A reading at or above 110 °C stops the domain softly, with its record; every reading 10 °C
below the threshold resumes it, its load as it was. A reading at or above 120 °C is a package critical: every powered domain stops.
THERM_TRIP_N falls once every domain's load has ramped down. VBAT may be lost and come back; below 2.0 V on the capacitor alone, and at the
loss of the battery where the capacitor is already low, the vault's tamper response follows with cause 0x40. -/
def Obligations.PaceTimebaseCompletes : Prop :=
  (∀ (s : State) (d : DomId) (mv : Nat), mv < 520 → (getD s d).powered = true → (getD s d).paused = false →
    ∃ z, exec (.droopPause d mv) s = .next z ∧ (getD z d).paused = true ∧ (getD z d).droops = (getD s d).droops + 1) ∧
  (∀ (s : State) (d : DomId) (mv : Nat), 540 < mv →
    exec (.droopResume d mv) s = .next (domMoves (updD s d (fun x => { x with paused := false })) d)) ∧
  (∀ (s : State) (r : RefClk), s.getB rBcTbStatus (refOk r) = true →
    let s1 := (s.putB rBcTbStatus (refOk r) false).putB rBcTbStatus BcTbStatus.lost_seen true
    exec (.referenceLoss r) s = .next (configEval (tbRecord (
      if !s1.getB rBcTbStatus BcTbStatus.holdover && s1.getB rBcTbStatus BcTbStatus.active == r then
        if s1.getB rBcTbStatus (refOk (!r)) then tbSwitch s1 (!r)
        else (s1.putB rBcTbStatus BcTbStatus.holdover true).putB rBcTbStatus BcTbStatus.slewing false
      else s1)))) ∧
  (∀ (s : State) (r : RefClk), s.getB rBcTbStatus (refOk r) = false →
    let s0 : State := { s with tb := { s.tb with okSince := if r then (s.tb.okSince.1, s.time) else (s.time, s.tb.okSince.2) } }
    let s1 := s0.putB rBcTbStatus (refOk r) true
    exec (.referenceReturn r) s = .next (configEval (
      if s1.getB rBcTbStatus BcTbStatus.holdover then
        ((s1.putB rBcTbStatus BcTbStatus.holdover false).putB rBcTbStatus BcTbStatus.slewing true).putB rBcTbStatus
          BcTbStatus.active r
      else s1))) ∧
  (∀ (s : State),
    let r := s.getB rBcTbCtrl BcTbCtrl.preferred
    s.getB rBcTbCtrl BcTbCtrl.revert = true → s.getB rBcTbStatus (refOk r) = true →
      s.getB rBcTbStatus BcTbStatus.holdover = false → s.getB rBcTbStatus BcTbStatus.active ≠ r →
      (if r then s.tb.okSince.2 else s.tb.okSince.1) + 1000000 ≤ s.time → exec .revertSwitch s = .next (tbSwitch s r)) ∧
  (∀ (s : State), exec .slewComplete s = .next (s.putB rBcTbStatus BcTbStatus.slewing false)) ∧
  (∀ (s : State) (d : DomId), (getD s d).powered = true → (getD s d).mv ≠ (getD s d).setMv →
    (getD s d).lastStep + 500 ≤ s.time →
      ∃ z, exec (.voltageStep d) s = .next z ∧ (getD z d).lastStep = s.time ∧
        (getD z d).mv = if (getD s d).mv < (getD s d).setMv then min (getD s d).setMv ((getD s d).mv + 5)
          else max (getD s d).setMv ((getD s d).mv - 5)) ∧
  (∀ (s : State) (h : Fin 24) (mean : BitVec 12), (getD s h).window + 100000 ≤ s.time →
    exec (.powerWindow h mean) s = .next ((updD (askLoad s h (getD s h).want) h (fun x => { x with
      window := s.time, burnt := 0 })).putF (rShfGovStatus (sheafUid h)) ShfGovStatus.power_now
        (min 0xFFF (mean.toNat + ballastMean s h)))) ∧
  (∀ (s : State) (h : Fin 24) (k : Fin 4),
    let w := s.getR (rShfTherm (sheafUid h))
    let ts := [fld w ShfTherm.t0, fld w ShfTherm.t1, fld w ShfTherm.t2, fld w ShfTherm.t3]
    let bad := fld w ShfTherm.sensor_bad ||| 2 ^ k.val
    (fld w ShfTherm.sensor_bad).testBit k = false →
      exec (.sensorSelfCheckFail h k) s = .next (configEval (powerRecord (s.putR (rShfTherm (sheafUid h))
        (setFld (setFld w ShfTherm.sensor_bad bad) ShfTherm.t_max (tMax bad ts))) h 4 (ts.getD k 0)))) ∧
  (∀ (s : State) (h : Fin 24) (pace : Nat) (t0 t1 t2 t3 : BitVec 10) (load : Nat), (getD s h).powered = true →
    let u := sheafUid h
    let tmax := tMax (s.getF (rShfTherm u) ShfTherm.sensor_bad) [t0.toNat, t1.toNat, t2.toNat, t3.toNat]
    let y := s.putR (rShfTherm u) ([(ShfTherm.t_max, tmax), (ShfTherm.t0, t0.toNat), (ShfTherm.t1, t1.toNat),
      (ShfTherm.t2, t2.toNat), (ShfTherm.t3, t3.toNat)].foldl (fun w (f, n) => setFld w f n) (s.getR (rShfTherm u)))
    let y := y.putF (rShfGovStatus u) ShfGovStatus.pace_now pace
    let y := if (getD y h).stopped then y else askLoad y h load
    let now := codeOfMv (getD s h).mv
    let idle := (sheafCores y h).isEmpty
    let floor := if idle then 0 else y.getF (rShfPacePolicy u) ShfPacePolicy.pace_floor
    let req := max (if idle then 0 else y.getF (rShfPacePolicy u) ShfPacePolicy.pace_target) (maxRequest y h)
    let floorCode := if floor = 0 then 0 else paceCode h floor pace now
    let reqCode := if req = 0 then 0 else paceCode h req pace now
    let want := if req = 0 ∧ floor = 0 then
        (if y.getB (rShfPacePolicy u) ShfPacePolicy.eff_mode then 40 else y.getF (rShfBcLimits u) ShfBcLimits.eff_point)
      else max floorCode reqCode
    let c := govChoose y h tmax now pace want (if reqCode < floorCode then floorCode else 0) idle
    ∃ z, exec (.governorEvaluation h ⟨pace, load⟩ t0 t1 t2 t3) s = .next z ∧ (getD z h).setMv = 550 + 5 * c.code ∧
      (getD z h).paceLow = (decide (pace < req) || c.unmet) ∧ (getD z h).capLow = c.unmet ∧
      (getD z h).floorLow = (decide (floor ≠ 0) && (decide (pace < floor) ||
        decide (y.getF (rShfPacePolicy u) ShfPacePolicy.pace_cap < floor))) ∧
      z.mem = s.mem ∧ z.threads = s.threads) ∧
  (∀ (s : State) (d : DomId) (x : BitVec 10), 600 ≤ x.toNat → (getD s d).powered = true → (getD s d).stopped = false →
    exec (.domainTrip d x) s = .next (powerRecord (softStop s d) d 1 x.toNat)) ∧
  (∀ (s : State) (d : DomId) (xs : List (BitVec 10)), (getD s d).stopped = true → s.board.critical = false → xs ≠ [] →
    (∀ x ∈ xs, x.toNat < 560) →
      let y := updD s d (fun x => { x with stopped := false, setMv := if d.val < 24 then x.setMv else x.wasMv })
      let y := domMoves (askLoad y d (getD y d).wasWant) d
      exec (.softStopResume d xs) s = .next (powerRecord (if d.val < 24 then
        y.putF (rShfGovStatus (sheafUid d)) ShfGovStatus.soft_stopped 0 else y) d 2 ((xs.map BitVec.toNat).foldl max 0))) ∧
  (∀ (s : State) (d : DomId) (x : BitVec 10), 640 ≤ x.toNat → s.board.critical = false → (getD s d).powered = true →
    exec (.packageCritical d x) s = .next (packageCritical s d x.toNat)) ∧
  (∀ (s : State), s.board.critical = true → rampedDown s = true →
    exec .thermTrip s = .next { s with board := { s.board with thermTrip := true } }) ∧
  (∀ (s : State),
    ((s.board.pwrgdStby = true ∨ 2000 ≤ s.vault.hold) → exec .vbatLoss s = .next { s with vault := { s.vault with vbat := false } }) ∧
    (s.board.pwrgdStby = false → s.vault.hold < 2000 → ∃ z, exec .vbatLoss s = .next z ∧ z.vault.vbat = false ∧
      z.vault.mkValid = false ∧ z.getF rVltTamper VltTamper.latched = 1 ∧ z.getF rVltTamper VltTamper.cause = 0x40)) ∧
  (∀ (s : State) (mv : Nat), exec (.boardInputChange (.battery mv) true) s = .next { s with vault := { s.vault with vbat := true, hold := mv } }) ∧
  (∀ (s : State) (mv : Nat), s.vault.vbat = false → s.board.pwrgdStby = false → mv < 2000 → 2000 ≤ s.vault.hold →
    ∃ z, exec (.holdoverCapacitorLow mv) s = .next z ∧ z.vault.mkValid = false ∧ z.vault.hold = mv ∧ z.vault.slots = [] ∧
      z.getF rVltTamper VltTamper.latched = 1 ∧ z.getF rVltTamper VltTamper.cause = 0x40)

/-- Each transition of R25 that the unit's present state allows writes the unit's state word, its time and its state message, and what the
rules tie to it follows: a failure takes what depends on the unit, a start sequence that completes numbers a core, a drain waits for the
unit's work, containment adds the unit to the withdrawal list, a failed unit restarts where its chapter permits. Base camp's table takes a
later state message. -/
def Obligations.UnitTransitionCompletes : Prop :=
  (∀ (s : State) (u : Uid) (why : FailCause), isUp s u.toNat = true →
    exec (.unitFailure u why) s = .next (failUnit s u.toNat (match why with
      | .fall => 0x04
      | .threshold => 0x05
      | .uncorrectable => 0x06
      | .unreachable => 0x07))) ∧
  (∀ (s : State) (f : Fin 4), isUp s (esUid f) = true → exec (.engineStopFailure f) s = .next (failEngStop s f 0x07)) ∧
  (∀ (s : State) (u : Uid), bcUp s = true → isStateUnit u.toNat = true →
    (stateOf s u.toNat = 1 → exec (.unitStartCommand u) s = .next (setUnit s u.toNat 3 0x01)) ∧
    (stateOf s u.toNat = 1 → mayBivouac s u.toNat = true →
      exec (.placeSpare u) s = .next (configEval (setUnit s u.toNat 2 0x01))) ∧
    (stateOf s u.toNat = 2 → exec (.bivouacPowerDown u) s = .next (configEval (setUnit s u.toNat 1 0x01))) ∧
    (stateOf s u.toNat = 4 → exec (.drainCommand u) s = .next (match unitKind u.toNat with
      | .core k => drainCore s k
      | .slice i => drainSlice s i
      | _ => setUnit s u.toNat 5 0x01)) ∧
    (stateOf s u.toNat = 7 → drained s u.toNat = true → exec (.containmentWithdraw u) s =
      .next (configEval (withdrawUnit s u.toNat))) ∧
    (stateOf s u.toNat = 7 → restartAllowed s u.toNat = true →
      exec (.failedRestart u) s = .next (
        let z := noteRestart (setUnit s u.toNat 1 0x01) u.toNat
        match unitKind u.toNat with
        | .core k => gateCore z k
        | _ => z))) ∧
  (∀ (s : State) (u : Uid), isStateUnit u.toNat = true → stateOf s u.toNat = 3 →
    (holdersUp s u.toNat = true → (∀ k, unitKind u.toNat = .core k → coreRaised s k = true) → exec (.startSequenceComplete u) s = .next (
      let z := setUnit s u.toNat 4 0x02
      match unitKind u.toNat with
      | .core k => if s.mgmt.reserved.contains k then s else configEval (numberCore (coreStarts z k) k)
      | .mem c => if (getM s c).lastFail.isSome then startResilver z c else z
      | _ => z)) ∧
    exec (.startSequenceError u) s = .next (
      let z := setUnit s u.toNat 7 0x06
      match unitKind u.toNat with
      | .mem c => if (getM z c).lastFail.isSome && bcUp z then withdrawUnit z u.toNat else z
      | .core k => spareLost z k
      | _ => z)) ∧
  (∀ (s : State) (u : Uid), isStateUnit u.toNat = true → stateOf s u.toNat = 5 →
    (drained s u.toNat = true → bcUp s = true →
      exec (.drainComplete u true) s = .next (configEval (
        let z := match unitKind u.toNat with
          | .core k => emptyCaches s k
          | _ => s
        if bcUp z then withdrawUnit z u.toNat else z))) ∧
    (drained s u.toNat = true →
      exec (.drainComplete u false) s = .next (configEval (match unitKind u.toNat with
        | .core k => gateCore (setUnit (emptyCaches s k) u.toNat 1 0x03) k
        | _ => setUnit s u.toNat 1 0x03))) ∧
    (bcUp s = true → holdersUp s u.toNat = true → (∀ k, unitKind u.toNat ≠ .core k) → (∀ i, unitKind u.toNat ≠ .slice i) →
      exec (.drainCancelled u) s = .next (setUnit s u.toNat 4 0x0A))) ∧
  (∀ (s : State) (k : Nat) (m : StateMsg), s.stateMsgs[k]? = some m → bcUp s = true →
    exec (.stateMessage k) s = .next (stateRecord { s with
      stateMsgs := s.stateMsgs.eraseIdx k
      bcTable := if (((mfind s.bcTable m.unit).map (fun o => o.time)).getD 0) ≤ m.time then mins s.bcTable m.unit m else s.bcTable } m))

/-- A mismatch of a roped core's instruction is a slip, and at its replay a fall; an error of a solo core is recorded and counted.
CHECK_INJECT arms one or two mismatches. A running sequence chooses a spare, raises it, captures the threads, flushes the caches, loads the
state, rebinds the virtual core and resumes it, each step after those it needs. -/
def Obligations.SparingCompletes : Prop :=
  (∀ (s : State) (t : Tid) (c : SlipClass), atBoundary s t = true → soloThread s t = false →
    (replayed s t = false → exec (.slip t c) s = .next (slip s t c false)) ∧
    (replayed s t = true → exec (.fall t c) s =
      .next (failCore (updC s (coreOf s t) (fun x => { x with mism := [] })) (coreOf s t) 0x04 false))) ∧
  (∀ (s : State) (k : Fin 192), 0 < s.getF rBcSlipLimit BcSlipLimit.limit →
    s.getF rBcSlipLimit BcSlipLimit.limit ≤ slipsIn s k → bcUp s = true →
      exec (.slipLimitReached k) s =
        .next (failCore (logRecord s 0x13 (coreUid k) 0x05 (slipsIn s k) (slipWindowNs s / 1000000) 0 0) k 0x05)) ∧
  (∀ (s : State) (k : Fin 192) (v : Word) (n : Nat), serving s (coreUid k) = true → s.getB rVltDbgEn VltDbgEn.norm_inv = true →
    fld v CoreCheckInject.inject = n → (n = 1 ∨ n = 2) →
      exec (.checkInject .baseCamp k v) s = .next (updC s k (fun x => { x with inject := n }))) ∧
  (∀ (s : State) (t : Tid), atBoundary s t = true → soloThread s t = true →
    exec (.soloArrayError t) s = .next (logRecord (updC s (coreOf s t) (fun x => { x with slips := s.time :: x.slips }))
      0x10 (coreUid (coreOf s t)) 0 (getT s t).pc.toNat 0 0 0)) ∧
  (∀ (s : State) (k : Fin 192) (v : Nat), serving s (coreUid k) = true →
    s.getB (rShfCheckMode (sheafUid (sheafOfCore k))) ShfCheckMode.solo = true →
      let z := setUnit s (coreUid k) 7 0x06
      vcoreOfCore z k = some v →
        let y := [2 * v, 2 * v + 1].foldl (fun s n => updT s (tidOf n) (fun x => { x with run := .halted, fault := none })) z
        exec (.soloUncorrectable k) s =
          .next (if bcUp y then leaveUnbound (y.putB (rBcVcoreMap v) BcVcoreMap.bound false) v k else y)) ∧
  (∀ (s : State) (k : Fin 192) (q : Sparing), sparingOf s k = some q →
    (q.spare = none → bcUp s = true → ∀ (c : Nat) (cs : List Nat), spareOrder s k = c :: cs →
      exec (.spareChoose k) s = .next (
        let y := updSparing s k (fun q => { q with spare := some c })
        let y : State := { y with mgmt := { y.mgmt with reserved := y.mgmt.reserved ++ [c] } }
        setUnit (if stateOf y (tileUid (c / 2)) = 2 then setUnit y (tileUid (c / 2)) 3 0x01 else y) (coreUid c) 3 0x01)) ∧
    (q.captured = false → exec (.captureDone k) s =
      .next (updSparing ((vthreads s q.vcore).foldl captureThread s) k (fun q => { q with captured := true }))) ∧
    (q.captured = true → q.flushed = false → exec (.flushDone k) s =
      .next (updSparing (emptyCaches s k) k (fun q => { q with flushed := true }))) ∧
    (∀ c, q.spare = some c →
      (q.raised = false → stateOf s (coreUid c) = 3 → coreRaised s c = true → exec (.spareRaiseDone k true) s = .next (updSparing s k (fun q => { q with raised := true }))) ∧
      (q.raised = true → q.captured = true → q.loaded = false →
        exec (.stateLoadDone k) s = .next (
          let y := copyBlock s (coreUid k + 1) (coreUid c + 1)
          let y := y.putR (rCorePaceReq (coreUid c)) (y.getR (rCorePaceReq (coreUid k)))
          let y := (vthreads y q.vcore).foldl (fun s t => updT s t (fun x => { x with pred := Pred.init })) y
          updSparing (putC y c (freshCore y c)) k (fun q => { q with loaded := true }))) ∧
      (q.flushed = true → q.loaded = true → q.rebound = false →
        exec (.rebindDone k) s = .next (
          let y := copyBlock s (coreUid k + 1) (coreUid c + 1)
          updSparing (y.putR (rBcVcoreMap q.vcore) (setFld (setFld
            (wrapInc (y.getR (rBcVcoreMap q.vcore)) BcVcoreMap.gen) BcVcoreMap.phys_unit (coreUid c)) BcVcoreMap.bound 1)) k
            (fun q => { q with rebound := true }))) ∧
      (let y := if stateOf s (tileUid (c / 2)) = 3 && holdersUp s (tileUid (c / 2)) then setUnit s (tileUid (c / 2)) 4 0x02 else s
       q.rebound = true → stateOf y (coreUid c) = 3 → holdersUp y (coreUid c) = true →
       (getD y (sheafOfCore c)).stopped = false → exec (.spareResume k) s = .next (
        let y := setUnit (coreStarts y c) (coreUid c) 4 0x02
        let gen := y.getF (rBcVcoreMap q.vcore) BcVcoreMap.gen
        let y := y.putR rBcSpareStatus (satInc (y.getR rBcSpareStatus) BcSpareStatus.sparings 1)
        let y : State := { y with mgmt := { y.mgmt with reserved := y.mgmt.reserved.filter (· != c) } }
        let y := logRecord y 0x11 (coreUid k) q.cause (coreUid k + coreUid c * 2 ^ 16 + q.vcore * 2 ^ 32 + gen * 2 ^ 48) q.since
          ((y.time - q.since) % 2 ^ 32 + q.company * 2 ^ 32) (getT y (tidOf (2 * q.vcore))).pc.toNat q.inject
        endSparing (configEval (notify y rBcSpareNotify)) k))))

/-- A device reset with its trigger, a power-down request that stands, a PLDM request, RESET_IN_N low and a fourth stage that reinstates a
channel leave every thread unstarted, memory, tags, directories and channels empty, the start-up stage zero and the cause in reset_cause;
fuses, modules, host memory, the logbook, the master key, the tamper latch, the clock and the monotonic counters stay. Losing VDD_STBY keeps
the vault island, where the battery or a charged hold-over capacitor stands, and the flash part of the logbook, and releases THERM_TRIP_N.
Each reset below device level, where its units are out of service, leaves the caches of its cores empty, their threads halted, and the
memory as it was; elsewhere it is a set-up error. The board inputs set the board's signals. -/
def Obligations.ResetCompletes : Prop :=
  (∀ (s : State),
    let out := fun (z : State) (cause : Nat) => z.threads = [] ∧ z.cores = [] ∧ z.mem = [] ∧ z.tags = [] ∧ z.dir = [] ∧ z.chans = [] ∧ z.txns = [] ∧ z.irqMsgs = [] ∧
      z.getF rBcBootStatus BcBootStatus.stage = 0 ∧ z.getF rBcBootStatus BcBootStatus.reset_cause = cause ∧ z.fuses = s.fuses ∧
      z.dimms = s.dimms ∧ z.hostMem = s.hostMem ∧ z.log = s.log ∧ z.vault.mkValid = s.vault.mkValid ∧ z.vault.slots = [] ∧
      z.getR rVltTamper = s.getR rVltTamper ∧ z.getR rVltRtc = s.getR rVltRtc ∧
      (∀ n : Fin 16, z.getR (rVltCounter n) = s.getR (rVltCounter n)) ∧ z.board.thermTrip = s.board.thermTrip ∧ z.pending = s.pending
    (∀ c : BitVec 4, resetDue s c.toNat = true → ∃ z, exec (.deviceReset c) s = .next z ∧ out z c.toNat) ∧
    (s.board.powerOff = true → s.board.down = false → ∃ z, exec .powerDown s = .next z ∧ out z 3 ∧ z.board.pwrEnMain = false) ∧
    (s.board.pwrgdStby = true → ∃ z, exec (.boardInputChange .resetIn false) s = .next z ∧ out z 2 ∧ z.board.resetIn = false ∧
      z.board.powerOff = false)) ∧
  (∀ (s : State) (x : Transport), bcUp s = true →
    (∃ z, exec (.pldmResetRequest x false) s = .next z ∧ z.threads = [] ∧ z.mem = [] ∧ z.cores = [] ∧
      z.getF rBcBootStatus BcBootStatus.reset_cause = 3) ∧
    (∃ z, exec (.pldmResetRequest x true) s = .next z ∧ z.board.powerOff = true ∧ z.threads = s.threads ∧ z.mem = s.mem ∧
      z.regs = s.regs)) ∧
  (∀ (s : State) (i : Image), mayStage s 4 = true → bcUp s = true → anyPowered s = true → s.mgmt.running = some i →
    (replaced (toStage s 4) = [] → exec .stageS4 s = .next (stageS4Work (toStage s 4) i)) ∧
    (replaced (toStage s 4) ≠ [] → ∃ z, exec .stageS4 s = .next z ∧ z.threads = [] ∧ z.mem = [] ∧
      z.getF rBcBootStatus BcBootStatus.stage = 0 ∧ z.getF rBcBootStatus BcBootStatus.reset_cause = 4)) ∧
  (∀ (s : State), s.board.pwrgdStby = true → ∃ z, exec .standbyPowerLoss s = .next z ∧ z.board.pwrgdStby = false ∧
    z.board.pwrEnMain = false ∧ z.board.thermTrip = false ∧ z.threads = [] ∧ z.mem = [] ∧ z.log.flash = s.log.flash ∧
    z.vault.hold = s.vault.hold ∧ z.fuses = s.fuses ∧
    ((s.vault.vbat = true ∨ 2000 ≤ s.vault.hold) → z.vault.mkValid = s.vault.mkValid ∧
      ∀ n : Fin 16, z.getR (rVltCounter n) = s.getR (rVltCounter n)) ∧
    (s.vault.vbat = false → s.vault.hold < 2000 → z.vault.mkValid = false)) ∧
  (∀ (s : State) (level : Bool),
    (∃ z, exec (.boardInputChange .bootSel level) s = .next z ∧ z.board.bootSel = level ∧ z.mem = s.mem ∧ z.regs = s.regs ∧
      z.threads = s.threads) ∧
    (∃ z, exec (.boardInputChange .pwrgdMain level) s = .next z ∧ z.board.pwrgdMain = level ∧ z.mem = s.mem ∧
      (s.board.pwrgdMain = true → level = false → s.board.pwrEnMain = true → 3 ≤ stageOf s → z.board.critical = true)) ∧
    (∃ z, exec (.boardInputChange .pwrBrake level) s = .next z ∧ z.board.pwrBrake = !level ∧ z.mem = s.mem ∧ z.threads = s.threads) ∧
    (∃ z, exec (.boardInputChange .pwrgdStby true) s = .next z ∧ z.board.pwrgdStby = true ∧
      (s.board.pwrgdStby = false → z.time = 0 ∧ z.tb.counting = true)) ∧
    (∃ z, exec (.boardInputChange .resetIn true) s = .next z ∧ z.board.resetIn = true ∧ z.mem = s.mem ∧ z.regs = s.regs)) ∧
  (∀ (s : State) (k : Fin 192), bcUp s = true →
    (coreResetOk s k = true → ∃ z, exec (.coreReset k) s = .next z ∧ (getC z k).lines = [] ∧ (getC z k).tlb = [] ∧
      (getC z k).slips = [] ∧ z.mem = s.mem ∧ z.irqMsgs = s.irqMsgs ∧
      (∀ t : Tid, (getT z t).run ≠ (getT s t).run → (getT z t).run = .halted)) ∧
    (coreResetOk s k = false → exec (.coreReset k) s = .next (setupRefusal s (coreUid k)))) ∧
  (∀ (s : State) (i : Fin 96), bcUp s = true →
    (outState s (tileUid i) = true → outState s (sliceUid i) = true → ∃ z, exec (.tileReset i) s = .next z ∧
      (getC z (2 * i.val)).lines = [] ∧ (getC z (2 * i.val + 1)).lines = [] ∧ z.mem = s.mem) ∧
    ((outState s (tileUid i) && outState s (sliceUid i)) = false →
      exec (.tileReset i) s = .next (setupRefusal s (tileUid i)))) ∧
  (∀ (s : State) (h : Fin 24), bcUp s = true →
    ((∀ j < 8, isUp s (coreUid (8 * h.val + j)) = false) → ∃ z, exec (.sheafReset h) s = .next z ∧
      (getD z h).stopped = false ∧ (∀ j < 8, (getC z (8 * h.val + j)).lines = []) ∧ z.mem = s.mem) ∧
    ((∃ j < 8, isUp s (coreUid (8 * h.val + j)) = true) → exec (.sheafReset h) s = .next (setupRefusal s (sheafUid h)))) ∧
  (∀ (s : State) (f : Fin 4), bcUp s = true →
    ((∀ u ∈ unitsOfField f, stateOf s u ≠ 4) → ∃ z, exec (.fieldReset f) s = .next z ∧
      (∀ j < 48, (getC z (48 * f.val + j)).lines = []) ∧ (∀ j < 4, getM z (4 * f.val + j) = Mc.init) ∧ z.mem = s.mem) ∧
    ((∃ u ∈ unitsOfField f, stateOf s u = 4) → exec (.fieldReset f) s = .next (setupRefusal s (ssUid f))))

/-- Each stage runs where it follows the stage in force and its conditions hold: S1 loads fuses and unit states, S2 chooses the image or
stops, S3 raises main power and starts units, S5 sets up secure memory and the trusted groups, S6 loads the boot image, S7 numbers cores and
starts the first thread. A tranche raises the memory limit by up to 64 GiB. min_svn is burnt 60 s into a run that asks for it. A start write
gives an unstarted or stopped thread the capabilities of its block. -/
def Obligations.StartUpCompletes : Prop :=
  (∀ (s : State), s.board.pwrgdStby = false → ∃ z, exec .powerGoodStandby s = .next z ∧ z.board.pwrgdStby = true ∧ z.time = 0 ∧
    z.tb.counting = true) ∧
  (∀ (s : State), mayS1 s = true →
    let y := updB s (fun b => { b with down := false })
    let y := toStage { y with tb := { y.tb with counting := true } } 1
    exec .stageS1 s = .next (if s.fuses.ok then allSlices.foldl fixGeneral (allUnits.foldl loadState (loadFuses y))
      else updB (stopAt y 1) (fun b => { b with fuseOwed := true }))) ∧
  (∀ (s : State) (a b : Bool), mayStage s 2 = true →
    let y := bootCores (toStage s 2) a b
    let z := oweRecords (readTable y)
    let ca := candidate z z.mgmt.flashA
    let cb := if z.board.bootSel then candidate z z.mgmt.flashB else none
    (bcUp y = false → exec (.stageS2 a b) s = .next (stopAt y 2)) ∧
    (bcUp y = true → chooseImage ca cb = none → exec (.stageS2 a b) s = .next (stopAt (refuseImages z [ca, cb]) 2)) ∧
    (∀ (i : Image) (fromB : Bool), bcUp y = true → chooseImage ca cb = some (i, fromB) → passedOver ca cb = none →
      exec (.stageS2 a b) s = .next (runBoot (refuseImages z [ca, cb]) i fromB))) ∧
  (∀ (s : State) (doms : List DomId) (units : List Uid), mayStage s 3 = true → bcUp s = true →
    let y := updB (toStage s 3) (fun b => { b with pwrEnMain := true, enSince := if b.pwrEnMain then b.enSince else s.time })
    exec (.stageS3 doms units) s =
      .next (if s.board.pwrgdMain then rampAll y (doms.map (·.val)) (units.map (·.toNat)) else y)) ∧
  (∀ (s : State), stageOf s = 3 → s.board.stopped = false → s.board.pwrEnMain = true → s.board.pwrgdMain = false →
    bcUp s = true → s.board.enSince + 20000000 ≤ s.time →
      exec .mainPowerTimeout s = .next (stopAt (updB s (fun b => { b with pwrEnMain := false })) 3)) ∧
  (∀ (s : State) (i : Image), bcUp s = true → s.mgmt.running = some i →
    (∀ g, mayStage s 5 = true → exec (.stageS5 g) s = .next (
      let y := updG (secureMemory (toStage s 5) i) (fun m => { m with patch := i.patch.getD 0 })
      if i.trusted.isSome then startTrusted y g else y)) ∧
    (mayStage s 6 = true → exec .stageS6 s =
      .next (writeBytes (applySettings (toStage s 6) i (fun r => settingStage r == 6)) i.boot.load i.boot.bytes)) ∧
    (mayStage s 7 = true → exec .stageS7 s = .next (
      let y := toStage s 7
      let y := gleanBegins (setLimit y (firstLimit (y.getF rBcMemInit BcMemInit.total_gib)
        (y.getF rVltWatermark VltWatermark.sec_wm_gib)))
      releaseBoot (startGroups (configEval (numberAll ([0, 1, 2, 3].foldl placeReserve y)))) i.boot))) ∧
  (∀ (s : State), stageOf s = 7 → bcUp s = true → s.getB rBcMemInit BcMemInit.done = false →
    exec .memoryTranche s = .next (notify (gleanBegins (setLimit s
      (min (s.getF rBcMemInit BcMemInit.total_gib) (s.getF rBcMemInit BcMemInit.limit_gib + 64)))) rBcMemInitNotify)) ∧
  (∀ (s : State) (i : Image), s.mgmt.running = some i → bcUp s = true → i.burn = true →
    s.mgmt.loadedAt + 60000000000 ≤ s.time → s.mgmt.fails = [] → s.getF rBcFuseOpt BcFuseOpt.min_svn < i.svn →
      ∃ z, exec .minSvnBurn s = .next z ∧ z.regs = (s.putF rBcFuseOpt BcFuseOpt.min_svn i.svn).regs) ∧
  (∀ (s : State) (r : Requester) (t : Tid) (v : Word), blockUp s uidBaseCamp = true → fldB v BcThreadStart.go = true →
    fldB v BcThreadStart.refused = false →
    let a := fld v BcThreadStart.block * 128
    startable s t = true → blockOk s (writerWorld s r) a = true → worldOk (trusted s t) (blockCaps s a) = true →
      exec (.threadStart r t v) s = .next (((startThread s t (blockCaps s a) []).putR (rBcXlatRoot1 t.val)
        (read64 s (a + 0x50) &&& 0xFFFFFFFFFFFFFF03)).putR (rBcXlatRoot2 t.val)
        (read64 s (a + 0x58) &&& 0xFFFFFFFFFFFFFF03)))

/-- A requester that may command a channel carries out REFRESH, START, STOP, ABORT, FLUSH and RESET on it in the states that allow the
command, its sequence count advancing, or, while the channel's engine domain is paused or stopped, once it runs; a stopping channel with
nothing in flight is stopped; a doorbell write reaches its slot; a poll of memory reads the doorbell word. -/
def Obligations.ChannelCommandCompletes : Prop :=
  (∀ (s : State) (r : Requester) (g : Fin 8192), mayCommand s r g = true →
    (esPasses s (servingEs s g) = false →
      ∀ c ∈ ([(.refresh r g, 1), (.chanStart r g, 2), (.chanStop r g, 3), (.abort r g, 4), (.flush r g, 5), (.chanReset r g, 6)] :
          List (Instr × Nat)),
        exec c.1 s = .next (updCh s g (fun x => { x with heldCmds := x.heldCmds ++ [(c.2, true)] }))) ∧
    (esPasses s (servingEs s g) = true →
    let y := updCh s g (fun c => { c with cmdSeq := (c.cmdSeq + 1) % 256 })
    let st := (getCh s g).state
    (∀ ws, (st = 0 ∨ st = 1 ∨ st = 4) → entryWords y g = some ws →
      let z := updCh (dropFetch y g) g (fun c => { c with words := ws, pollAt := (dropFetch y g).time, pollEvery := 100, ranBefore := false })
      entryOk z g ws = true → exec (.refresh r g) s = .next (chanSet z g (if fldB (ws.getD 0 0) ChControl.en then 1 else 0) 1)) ∧
    (st = 1 ∨ st = 4 → exec (.chanStart r g) s = .next (checkDoorbell (chanSet y g 2 2) g)) ∧
    (st = 2 → exec (.chanStop r g) s = .next (chanSet y g 3 3)) ∧
    (st = 2 ∨ st = 3 ∨ st = 4 → exec (.abort r g) s = .next (
      let z := cutAll y g 0x0106
      chanSet z g (if (getCh z g).flight.all (fun d => d.status.isSome) then 1 else 3) 4)) ∧
    (st = 1 ∨ st = 4 → exec (.flush r g) s = .next (flushGo ((getCh y g).subSize + 1)
      (updCh y g (fun c => { c with cause := 5, flushTo := some ((getCh y g).tail % (getCh y g).subSize) })) g)) ∧
    (st = 0 ∨ st = 1 ∨ st = 4 → exec (.chanReset r g) s = .next (updCh (resetIndices y g) g (fun c => { c with cause := 6 }))))) ∧
  (∀ (s : State) (g : Fin 8192), (getCh s g).state = 3 →
    ((getCh s g).flight = [] ∨ ((getCh s g).cause = 4 ∧ (getCh s g).flight.all (fun d => d.status.isSome) = true)) →
    exec (.channelStopped g) s = .next (updCh s g (fun c => { c with state := 1 }))) ∧
  (∀ (s : State) (r : Requester) (g : Fin 8192) (off : BitVec 6) (wide : Bool) (v : Word), mayRing s r g = true →
    exec (.doorbellWrite r g off wide v) s = .next (slotWrite s g off.toNat wide v)) ∧
  (∀ (s z : State) (g : Fin 8192) (pa : Nat) (h : Bool) (bs : List Byte), esPasses s (servingEs s g) = true → (getCh s g).polled = true → (getCh s g).polling = false →
    (getCh s g).pollAt ≤ s.time → ((getCh s g).state = 2 ∨ (getCh s g).state = 3) → chanAwake s g = true →
    engXlat s g (chUid (servingEs s g)) false (fld ((getCh s g).word 3) ChPollAddr.addr * 8) = .ok (z, .mem pa h) →
    readPlace z (.mem pa h) 8 = .ok bs →
      exec (.doorbellPoll g) s = .next (pollDone z g (some (ofBytes bs))))

/-- The scheduler of an engine stop starts the next descriptor of the channel it picks; the oldest ended descriptor completes; the timer
sends the interrupt; the live word is written to the channel's entry. NOP ends with status 0; FENCE ends once it is the oldest and its
condition holds; WAIT ends once its word matches; a descriptor past its limit ends by timeout. -/
def Obligations.DescriptorCompletes : Prop :=
  (∀ (s : State) (f : Fin 4) (g : Nat), serving s (esUid f) = true → esPasses s f = true →
    let y := markWanted ((s.chans.map (·.1)).foldl (fun s g => if servingEs s g = f.val then checkDoorbell s g else s) s) f
    pickChan y f = some g →
      let z := if (getCh y g).fetch.isEmpty then fetchNext y g else y
      (getCh z g).fetch.head? ≠ some .asked → descReady z f g = true →
        exec (.descriptorStart f) s = .next (startDesc (takeTurn z g) f g)) ∧
  (∀ (s z : State) (g : Fin 8192) (d : Desc) (ds : List Desc) (st res : Nat), (getCh s g).flight = d :: ds →
    d.status = some (st, res) → isHostChan g = false → esPasses s (servingEs s g) = true →
      ((st = 0 ∧ fldB (d.word 0) Desc.quiet = true) →
        exec (.descriptorComplete g) s = .next (countCompletion s g st false none)) ∧
      (¬ (st = 0 ∧ fldB (d.word 0) Desc.quiet = true) → d.noEntry = false → (getCh s g).cplFull = false →
        writeEntry s g (cplEntry (getCh s g) d st res) = .ok z →
          exec (.descriptorComplete g) s =
            .next (entryIrq (countCompletion z g st true none) g st (fldB (d.word 0) Desc.irq)))) ∧
  (∀ (s : State) (g : Fin 8192),
    let c := getCh s g
    fldB (c.word 4) ChIrq.irq_en = true → fld (c.word 4) ChIrq.irq_time ≠ 0 → c.sinceIrq ≠ 0 → esPasses s (servingEs s g) = true →
      c.firstAt + fld (c.word 4) ChIrq.irq_time * 1000 ≤ s.time → exec (.irqTimeTrigger g) s = .next (chanIrq s g)) ∧
  (∀ (s : State) (g : Fin 8192),
    let a := entryAddr s g + 0x60
    let c := getCh s g
    (physClass s a).isMem = true → admits s .normal true a = true → poisoned s a = false → esPasses s (servingEs s g) = true →
      exec (.liveWordWrite g) s = .next (homeWrite s a (wordsBytes [c.liveWord, c.completedWord, c.liveCpl]))) ∧
  (∀ (s : State) (g : Fin 8192) (slot : Fin 32768) (d : Desc),
    (running? s g slot 0x00 = some d → exec (.descNop g slot) s = .next (endDesc s g d.slot 0 0)) ∧
    (running? s g slot 0x01 = some d → waitMet s g d = some true → (getCh s g).flight.head? = some d →
      exec (.descFence g slot) s = .next (endDesc s g d.slot 0 0)) ∧
    (running? s g slot 0x02 = some d → fldB (d.word 1) ⟨63, 63⟩ = true → waitMet s g d = some true →
      exec (.descWait g slot) s = .next (endDesc s g d.slot 0 0)) ∧
    (∀ n, descAt s g slot = some d → descLimit (getCh s g) d = some n → d.status = none → d.started + n ≤ s.time →
      esPasses s (servingEs s g) = true → exec (.executionTimeout g slot) s =
        .next (if d.op = 1 ∨ d.op = 2 then endDesc s g d.slot 0x0105 0 else cutDesc s g d 0x0108)))

/-- An 8-byte write of a register of a core, sheaf, slice, tile or tile stop's block that has no rule of its own, by a requester its row
admits, its unit up: each bit comes out as the register's access says (written, cleared by one, set by one, or as it was), every other
register and memory as before; a 4-byte write of a register whose bits are all writable leaves the other half. A write to a unit that is
down, and a host's write into control space, change nothing. An interrupt message sets one pending bit of a bound thread, is discarded and
counted for an unassigned one, and leaves the queue; a requester other than a host sends a vector through base camp's register. -/
def Obligations.RegisterAndInterruptCompletes : Prop :=
  (∀ (s : State) (r : Requester) (a : BitVec 40) (x : RegRow) (v : Word), notHost r = true → a.toNat % 8 = 0 →
    let u := a.toNat / 0x100000
    u ≠ uidBaseCamp → u ≠ uidVault → blockUp s u = true → regRow a.toNat = some x → ownerOk s r x = true →
    ((∃ k, unitKind u = .core k ∧ a.toNat ≠ rCoreCheckInject u ∧ a.toNat ≠ rCoreCacheWays u) ∨
      (∃ h, unitKind u = .sheaf h ∧ a.toNat ≠ rShfBcLimits u) ∨ (∃ i, unitKind u = .slice i ∧ a.toNat ≠ rTileL3Ways u)) →
      ∃ z, exec (.registerWrite r a true v) s = .next z ∧
        (∀ i, i < 64 → (z.getR a.toNat).getLsbD i =
          ((x.w1s.testBit i && v.getLsbD i) ||
            (!(x.w1c.testBit i && v.getLsbD i) &&
              (if (setMask s a.toNat x).getLsbD i then v.getLsbD i else (s.getR a.toNat).getLsbD i)))) ∧
        (∀ b, b ≠ a.toNat → z.getR b = s.getR b) ∧ z.mem = s.mem ∧ z.threads = s.threads ∧ z.irqMsgs = s.irqMsgs) ∧
  (∀ (s : State) (r : Requester) (k : Fin 192) (v : Word), notHost r = true → blockUp s (coreUid k) = true →
    let a := rCorePaceReq (coreUid k)
    ∃ z, exec (.registerWrite r (BitVec.ofNat 40 a) false v) s = .next z ∧
      z.getF a CorePaceReq.req_rate = fld v CorePaceReq.req_rate ∧ (∀ b, b ≠ a → z.getR b = s.getR b)) ∧
  (∀ (s : State) (r : Requester) (a : BitVec 40) (wide : Bool) (v : Word), a.toNat < 0x1000000000 →
    a.toNat / 0x100000 ≠ uidBaseCamp → (notHost r = false ∨ blockUp s (a.toNat / 0x100000) = false) →
      exec (.registerWrite r a wide v) s = .next s) ∧
  (∀ (s : State) (k : Nat) (m : IrqMsg), s.irqMsgs[k]? = some m → m.vector < 64 → s.vault.sw = none →
    (threadAssigned s m.thread = true → vmapB s (m.thread / 2) BcVcoreMap.bound = true →
      ∃ z, exec (.interruptMessage k) s = .next z ∧ (z.getR (rBcIrqPend m.thread)).getLsbD m.vector = true ∧
        (∀ v, v ≠ m.vector → (z.getR (rBcIrqPend m.thread)).getLsbD v = (s.getR (rBcIrqPend m.thread)).getLsbD v) ∧
        (∀ b, b ≠ rBcIrqPend m.thread → z.getR b = s.getR b) ∧ z.irqMsgs = s.irqMsgs.eraseIdx k ∧ z.mem = s.mem ∧
        z.threads = s.threads) ∧
    (threadAssigned s m.thread = false →
      ∃ z, exec (.interruptMessage k) s = .next z ∧ z.irqDiscards = s.irqDiscards + 1 ∧ z.regs = s.regs ∧ z.mem = s.mem ∧
        (m.source = uidBaseCamp → z.irqMsgs = s.irqMsgs.eraseIdx k ∧ z.log = s.log))) ∧
  (∀ (s : State) (r : Requester) (t : Tid) (v : BitVec 6), (∀ p i, r ≠ .host p i) → blockUp s uidBaseCamp = true →
    ∃ z, exec (.irqSend r t v) s = .next z ∧ z.irqMsgs = s.irqMsgs ++ [⟨t.val, v.toNat, requesterUid s r⟩] ∧ z.regs = s.regs ∧
      z.mem = s.mem ∧ z.threads = s.threads)

/-- Each side of a mailbox that may write sends and acknowledges; the manager orders QUIESCE, FREEZE, RESET, SAVE, RESTORE and RESUME;
QUIESCE and FREEZE are done once the instance is quiet; the window of the floors closes each 100 µs; a page enters the write log and the
manager moves its head. -/
def Obligations.InstanceCompletes : Prop :=
  (∀ (s : State) (p : Fin 16) (i : Fin 64), instWrites s p i = true →
    (s.getB (rHpMbxCtrl p i) HpMbxCtrl.out_full = false → (i = 0 → mgrRes s p = true) →
      exec (.mbxSend p i) s = .next (
        let y := copyBuffer s (bar0Base p i + 0x1000) (winBase p i)
        let y := (y.putB (rHpMbxCtrl p i) HpMbxCtrl.out_full true).putB (rHpMbxMgrCtrl (portUid p) i) HpMbxMgrCtrl.in_full true
        mgrNotify (instCount (y.putF (rHpMbxPend (portUid p)) ⟨i, i⟩ 1) p i 5 1) p)) ∧
    (s.getB (rHpMbxCtrl p i) HpMbxCtrl.in_full = true →
      exec (.mbxAck p i) s = .next (mgrNotify ((s.putB (rHpMbxCtrl p i) HpMbxCtrl.in_full false).putB
        (rHpMbxMgrCtrl (portUid p) i) HpMbxMgrCtrl.out_full false) p))) ∧
  (∀ (s : State) (r : Requester) (p : Fin 16) (i : Fin 64) (v : Word), isManager s r p i = true →
    (s.getB (rHpMbxMgrCtrl (portUid p) i) HpMbxMgrCtrl.out_full = false →
      exec (.mgrSend r p i) s = .next (
        let y := copyBuffer s (winBase p i + 0x40) (bar0Base p i + 0x1040)
        instNotify (instCount ((y.putB (rHpMbxMgrCtrl (portUid p) i) HpMbxMgrCtrl.out_full true).putB (rHpMbxCtrl p i)
          HpMbxCtrl.in_full true) p i 5 1) p i)) ∧
    (s.getB (rHpMbxMgrCtrl (portUid p) i) HpMbxMgrCtrl.in_full = true →
      exec (.mgrAck r p i) s = .next (instNotify (((s.putB (rHpMbxMgrCtrl (portUid p) i) HpMbxMgrCtrl.in_full false).putB
        (rHpMbxCtrl p i) HpMbxCtrl.out_full false).putF (rHpMbxPend (portUid p)) ⟨i, i⟩ 0) p i)) ∧
    exec (.writeLogHeadWrite r p i v) s = .next (writeWlogPtr s p i v)) ∧
  (∀ (s : State) (r : Requester) (p : Fin 16) (i : Fin 64) (d : BitVec 2), isManager s r p i = true → i.val < (getP s p).share →
    mget false (getP s p).busy i = false →
      let y := s.putF (rHpInstMgmt (portUid p) i) HpInstMgmt.drain d.toNat
      let st := instState y p i
      (st = 0 → exec (.quiesce r p i d) s = .next (drainInst (setInstState (stopInst y p i) p i 1) p i d.toNat)) ∧
      (st = 0 → exec (.freeze r p i d) s =
        .next (setInstState ((instChans (stopInst y p i) p i).foldl returnWaits (stopInst y p i)) p i 7)) ∧
      (st = 2 ∨ st = 3 → exec (.instanceReset r p i d) s = .next (resetInstance y p i)) ∧
      (∀ z, st = 3 → mgrWrite y p (imgAddr y p i) (saveImage y p i) = some z → exec (.save r p i d) s = .next z) ∧
      (let a := imgAddr y p i
        let n := 4096 + 256 * imgChans (readBytes y a 4096)
        let b := readBytes y a n
        st = 2 → instState s p i ≠ 6 → mgrRes y p = true →
        (∀ m, m = 4096 ∨ m = n → (linesOf a m).all (fun l => physClass y (l * 64) == .dram && admits y .normal false (l * 64) &&
          !poisoned y (l * 64)) = true) →
        imageOkay b = true → imgNum b 0x10 4 = 256 / (getP y p).share → imgNum b 0x14 2 = vecCount (getP y p) →
          exec (.restore r p i d) s = .next (loadImage (setInstState y p i 2) p i b)) ∧
      (st = 2 ∨ st = 3 → exec (.resume r p i d) s = .next (resumeInst y p i))) ∧
  (∀ (s : State) (p : Fin 16) (i : Fin 64), instQuiet s p i = true →
    let y := s.putB (rHpInstMgmt (portUid p) i) HpInstMgmt.irq_held true
    (instState s p i = 1 → exec (.quiesceDone p i) s =
      .next (setInstState (updP y p (fun x => x.setFn i { x.fn i with pba := [] })) p i 2)) ∧
    (instState s p i = 7 → exec (.freezeDone p i) s =
      .next (setInstState (updI y p i (fun x => { x with frozenAt := s.time })) p i 3))) ∧
  (∀ (s : State) (p : Fin 16) (i : Fin 64) (page : BitVec 52),
    let b := s.getR (rHpWlogBase (portUid p) i)
    let w := s.getR (rHpWlogPtr (portUid p) i)
    let size := 2 ^ fld b HpWlogBase.log2
    let tail := fld w HpWlogPtr.tail
    let at_ := fld b HpWlogBase.base * 4096 + 8 * tail
    let e := toBytes 8 (page.toNat * 4096 + ofBool (getI s p i).wphase)
    fldB b HpWlogBase.en = true → (getI s p i).filter.contains page.toNat = false → fldB w HpWlogPtr.overflow = false →
    (tail + 1) % size ≠ fld w HpWlogPtr.head → (mgrRes s p = true → physClass s at_ = .dram ∧ admits s .normal true at_ = true) →
      exec (.writeLogEntry p i page) s = .next (updI ((if mgrRes s p then homeWrite s at_ e else writeHost s p at_ e).putR
        (rHpWlogPtr (portUid p) i) (setFld w HpWlogPtr.tail ((tail + 1) % size))) p i (fun x => { x with
          filter := (page.toNat :: x.filter).take 64, wphase := if tail + 1 = size then !x.wphase else x.wphase }))) ∧
  (∀ (s : State) (p : Fin 16), (getP s p).winAt + 100000 ≤ s.time →
    ∃ z, exec (.floorWindow p) s = .next z ∧ (getP z p).winAt = s.time)

/-- A message whose payload has been read, or is inline, and that its queue takes is sent and completes. Each move descriptor whose next
element is its last reads it, writes it and completes, a compare at its first difference; an element on its own takes one step. The head of
a service queue is looked at again for the message that waits on it; an engine's mismatch is recorded, and its first retries the descriptor.
-/
def Obligations.MessageAndMoveCompletes : Prop :=
  (∀ (s : State) (g : Fin 8192) (slot : Fin 32768) (d : Desc),
    (∀ (y z : State) (bs : List Byte), esRuns s (servingEs s g) = true → msgLen d ≠ 0 →
      (running? s g slot 0x80 = some d → msgLen d ≤ (queueOf s d.base (msgQueue d)).esize - 16 →
        wraps (d.num 2) (msgLen d) = false →
        gather s g d (chUid (servingEs s g)) [(d.num 2, msgLen d)] = .ok (y, some bs) → sendMessage y g d bs = .ok z →
          exec (.msg g slot) s = .next z) ∧
      (running? s g slot 0x81 = some d → msgLen d ≤ 48 → sendMessage s g d ((inlineBytes d).take (msgLen d)) = .ok z →
        exec (.msgi g slot) s = .next z)) ∧
    (∀ (y w z : State) (u : Nat) (bs : List Byte),
      let e := nextElement d
      let put (v : State) : E State := scatter v g u (hintOfWord (d.word 6)) e.writes bs
      ∀ c ∈ ([(.dCopy g slot, 0x10, (put w).map (fun v => elementDone v g d.slot e.len 0)),
          (.dGather g slot, 0x11, (put w).map (fun v => elementDone v g d.slot e.len 0)),
          (.dScatter g slot, 0x12, (put w).map (fun v => elementDone v g d.slot e.len 0)),
          (.dFill g slot, 0x13, (scatter w g u (hintOfWord (d.word 6)) e.writes (fillBytes d (dDst d + d.done) e.len)).map
            (fun v => elementDone v g d.slot e.len 0)),
          (.dCrc g slot, 0x14, .ok (elementDone w g d.slot e.len (crcFold (dKind d) (crcNow d) bs))),
          (.dCompare g slot, 0x15, .ok (match firstDiff (bs.take e.len) (bs.drop e.len) 0 with
            | some i => endDesc w g d.slot 0 (d.done + i)
            | none => elementDone w g d.slot e.len 0)),
          (.dCopyCrc g slot, 0x16, (put w).map (fun v =>
            elementDone v g d.slot e.len (crcFold (dKind d) (crcNow d) bs)))] : List (Instr × Nat × E State)),
        running? s g slot c.2.1 = some d → ¬ (d.stage = 1 ∧ d.waits ≠ 0) → noEngine s g d = false →
        withUnit s g d = some (y, u) → (isListOp d.op = true → d.list ≠ []) → moveCheck d = none →
        gather y g d u e.reads = .ok (w, some bs) → c.2.2 = .ok z →
        (∀ e, descAt z g slot = some e → e.status.isSome = true) → exec c.1 s = .next z) ∧
    (∀ (y : State) (u : Nat), descAt s g slot = some d → d.status = none → isMoveOp d.op = true → noEngine s g d = false →
      withUnit s g d = some (y, u) → exec (.moveElement g slot) s = .next (orEnd g d (moveElement y g d u)))) ∧
  (∀ (s : State) (f : Fin 4) (q : Fin 256) (e g slot : Nat) (d : Desc),
    s.sqOrder.find? (fun e => e.1 == f.val * 256 + q.val) = some (e, g, slot) → descAt s g slot = some d → d.counted = true →
      exec (.queueHeadRecheck f q) s = .next (msgRun s g slot d.op)) ∧
  (∀ (s : State) (r : Requester) (f : Fin 4) (q : Fin 256) (v : Word), notHost r = true → blockUp s (chUid f) = true →
    fldB v ChSq0.en = true → exec (.serviceQueueEnable r f q v) s = .next (writeQueue0 s f q v)) ∧
  (∀ (s : State) (f : Fin 4) (key : Bool) (k : Fin 2) (g : Nat) (d : Desc), engDesc s (engUid f key k) = some (g, d) →
    let y := logRecord s 0x5A (engUid f key k) 0 (engUid f key k) d.op 0 0
    exec (.engineMismatch f key k) s =
      .next (if d.tries = 0 then updDesc y g d.slot (fun d => { d with tries := 1 }) else engineOut y (engUid f key k) 0x04))

/-- A request whose home serves the line and admits the requester joins the home's queue, and is served as soon as its line is idle: a
core's read with no copy, by a walker or under a capability and a translation to no SE page, a core's ownership request with a store
waiting, an upgrade of a shared copy, a read once, and the writes and atomics (compare and swap among them) of engines, hosts and base camp.
A core asks only with a miss entry free and its sheaf running, and a home takes a request only while its field's fabric runs. An engine's
atomic on the device range ends its descriptor with status 0x0204. -/
def Obligations.CoherenceRequestCompletes : Prop :=
  (∀ (s : State) (k : Fin 192) (line : Nat) (p f e : Bool), lineOf s k line = none → (physClass s (line * 64)).isMem = true →
    mayTouch s k line = true →
      let x := if e then cxlPoison s line else s
      let y := updC x k (fun c => { c with misses := mins c.misses line (if f then .fetch else if p then .prefetch else .read) })
      serving x (coreUid k) = true → domUp x (sheafOfCore k) = true → homeUp x line = true → mfind (getC x k).misses line = none →
        homeTakes y ⟨.rdS, .core k, line, []⟩ false = true →
          exec (.rdS k line p ⟨f, e⟩) s = .next (admitReq y ⟨.rdS, .core k, line, []⟩)) ∧
  (∀ (s : State) (k : Fin 192) (line : Nat), serving s (coreUid k) = true → domUp s (sheafOfCore k) = true →
    homeUp s line = true → mfind (getC s k).misses line = none →
      (let y := updC s k (fun c => { c with misses := mins c.misses line .own })
       lineOf s k line = none → storeWaits s k line = true → homeTakes y ⟨.rdO, .core k, line, []⟩ true = true →
          exec (.rdO k line) s = .next (admitReq y ⟨.rdO, .core k, line, []⟩)) ∧
      (∀ (c : CLine),
        let y := updC s k (fun c => { c with misses := mins c.misses line .upgrade })
        lineOf s k line = some c → (c.st = .s ∨ c.st = .o) → storeWaits s k line = true →
          homeTakes y ⟨.upg, .core k, line, []⟩ true = true →
            exec (.upg k line) s = .next (admitReq y ⟨.upg, .core k, line, []⟩))) ∧
  (∀ (s : State) (line : Nat) (c : Fin 16), homeUp s line = true →
    ∀ e ∈ ([(.rdOnce .baseCamp line, .baseCamp), (.rdOnce (.migration c) line, .migration c),
        (.rdOnce (.gleaner c) line, .gleaner c), (.rdOnce .trace line, .trace)] : List (Instr × Party)),
      (e.2 = .trace → s.getB rVltDbgEn VltDbgEn.norm_noninv = true) → homeTakes s ⟨.rdOnce, e.2, line, []⟩ false = true →
        exec e.1 s = .next (admitReq s ⟨.rdOnce, e.2, line, []⟩)) ∧
  (∀ (s : State) (w : Writer) (line : Nat) (bs : Vector (BitVec 8) 64) (h : HintArg),
    let q : HomeReq := ⟨.wrLine (hintOf h), writerParty w, line, bs.toList⟩
    homeUp s line = true → homeTakes s q true = true → exec (.wrLine w line bs h) s = .next (admitReq s q)) ∧
  (∀ (s : State) (w : Writer) (pa : Nat) (bs : List (BitVec 8)), bs ≠ [] → pa % 64 + bs.length ≤ 64 → homeUp s (pa / 64) = true →
    let q : HomeReq := ⟨.wrPart (pa % 64), writerParty w, pa / 64, bs⟩
    homeTakes s q true = true → exec (.wrPart w pa bs) s = .next (admitReq s q)) ∧
  (∀ (s : State) (w : Writer) (pa : Nat) (op : HomeAtomic) (wide : Bool) (v : BitVec 128), pa % (if wide then 16 else 8) = 0 →
    homeUp s (pa / 64) = true →
    (∀ (u : Uid) (off : Nat), w = .engine u → physClass s pa = .device off → exec (.atom w pa op wide v) s =
      .next (endUnit s u.toNat 0x0204)) ∧
    let n := if wide then 16 else 8
    let q : HomeReq := ⟨.atom op (pa % 64) n, writerParty w, pa / 64, toBytes n v.toNat⟩
    homeTakes s q true = true → exec (.atom w pa op wide v) s = .next (admitReq s q))

/-- A dirty line that its owner gives up leaves its caches for the eviction buffer, where it stands until the home answers, and its
write-back goes to the home; a clean exclusive one leaves with a notice to the home. SnpS leaves the owner a shared or owned copy, in its
caches or on its way there, and sends data, said to be dirty where they are; SnpO leaves it as it is; SnpInv drops the tile's copies but an
upgrading core's; a stash that finds a way installs the line exclusive, and one that finds none is declined; a directory duplicate is
updated and acknowledged. -/
def Obligations.CoherenceSnoopCompletes : Prop :=
  (∀ (s : State) (k : Fin 192) (line : Nat) (c : CLine), lineOf s k line = some c → c.dirty = true → c.place ≠ .sent →
    mfind (getC s k).misses line = none → coreTakes s k = true → homeUp s line = true →
    (c.place = .l2 → (evictions s k).length < 16) →
      let y := buffer s k line { c with place := .sent }
      homeTakes y ⟨.wb, .core k, line, []⟩ true = true →
        exec (.wb k line) s = .next (admitReq y ⟨.wb, .core k, line, []⟩)) ∧
  (∀ (s : State) (k : Fin 192) (line : Nat) (c : CLine), lineOf s k line = some c → c.st = .e →
    mfind (getC s k).misses line = none → coreTakes s k = true → homeUp s line = true →
      homeTakes (dropLine s k line) ⟨.notice, .core k, line, []⟩ true = true →
        exec (.notice k line) s = .next (admitReq (dropLine s k line) ⟨.notice, .core k, line, []⟩)) ∧
  (∀ (s y : State) (m : Nat) (f : Fwd),
    (takeFwd s m .snpS = some (f, y) →
      (∀ g, grantTo y f.target f.line = some g → exec (.snpS m) s = .next
        (ackFwd (regrant y f.target f.line (some (if g = .m ∨ g = .o then .o else .s))) f .data (g == .m || g == .o))) ∧
      (∀ c, grantTo y f.target f.line = none → lineOf y f.target f.line = some c → exec (.snpS m) s = .next
        (ackFwd (setLine y f.target f.line { c with st := if c.st = .m ∨ c.st = .o then .o else .s }) f .data c.dirty))) ∧
    (takeFwd s m .snpO = some (f, y) → (copyOf y f.target f.line).isSome = true →
      exec (.snpO m) s = .next (ackFwd y f .data)) ∧
    (takeFwd s m .snpInv = some (f, y) →
      let ks := [2 * f.target, 2 * f.target + 1].filter (fun k => upgrader y f.line != some k)
      let has := fun p : Moesi → Bool => ks.any (fun k => (copyOf y k f.line).any p)
      exec (.snpInv m) s = .next (ackFwd (ks.foldl (fun s k => regrant (dropLine s k f.line) k f.line none) y) f
        (if has (· != .s) then .data else .ack) (has (fun g => g == .m || g == .o)))) ∧
    (takeFwd s m .stash = some (f, y) → ∀ k : Fin 192, f.target = k → stateOf y (coreUid f.target) = usInService →
      (∀ z, enterL2 y f.target f.line .e = some z → exec (.stash m k) s = .next (ackOf z f .ack (.wrLine none))) ∧
      (enterL2 y f.target f.line .e = none → exec (.stash m k) s = .next (ackOf y f .nack (.wrLine none)))) ∧
    (takeFwd s m .dupUpd = some (f, y) →
      exec (.dupUpd m) s = .next (ackOf (setDup y f.line (f.ent.getD dirNone)) f .ack .rdOnce)))

/-- Data or an acknowledgement of a snoop, a directory duplicate or a stash at the home goes to its transaction; at the core that asked, the
line is installed in the state granted; poisoned data end an engine's descriptor with 0x0201. A refused stash is counted, a stale answer
ends its write-back, a retry has the request sent again once the map has changed, a no-target answer frees the requester, with a record
where it meets an architected effect. -/
def Obligations.CoherenceResponseCompletes : Prop :=
  ∀ (s y : State) (m : Nat) (r : Rsp),
    (takeRsp s m .data = some (r, y) →
      (r.home = true → r.what = .rdS → exec (.data m) s = .next (snoopDone y r.line r.src true r.dirty)) ∧
      (∀ k g z, r.home = false → r.who = .core k → r.grant = some g → install y k r.line g = some z → exec (.data m) s = .next z) ∧
      (∀ u, r.home = false → r.who = .engine u → r.poison = true → exec (.data m) s = .next (endUnit y u 0x0201))) ∧
    (takeRsp s m .ack = some (r, y) →
      (r.home = true → r.what = .rdOnce → r.refusal = false → exec (.ack m) s = .next (buddyDone y r.line)) ∧
      (r.home = true → r.what = .rdS → exec (.ack m) s = .next (snoopDone y r.line r.src false r.dirty)) ∧
      (∀ h, r.home = true → r.what = .wrLine h → exec (.ack m) s = .next (offered y r.line r.src true)) ∧
      (∀ k g z, r.home = false → r.who = .core k → r.grant = some g → install y k r.line g = some z → exec (.ack m) s = .next z)) ∧
    (takeRsp s m .nack = some (r, y) → ∀ h, r.home = true → r.what = .wrLine h →
      exec (.nack m) s = .next (offered y r.line r.src false)) ∧
    (takeRsp s m .stale = some (r, y) → ∀ k c, r.who = .core k → r.what = .wb → lineOf y k r.line = some c → c.place = .sent →
      exec (.stale m) s = .next (dropLine y k r.line)) ∧
    (takeRsp s m .retry = some (r, y) →
      (r.what ≠ .wb → exec (.retry m) s = .next (holdReq y ⟨r.what, r.who, r.line, r.bytes⟩)) ∧
      (∀ k c, r.who = .core k → r.what = .wb → lineOf y k r.line = some c → c.place = .sent →
        exec (.retry m) s = .next (setLine y k r.line { c with place := .evict }))) ∧
    (takeRsp s m .noTarget = some (r, y) →
      (∀ k, r.who = .core k → r.what ≠ .wb → exec (.noTarget m) s =
        .next (updC y k (fun c => { c with misses := mdel c.misses r.line }))) ∧
      (r.who = .baseCamp → r.what ≠ .rdOnce → r.refusal = false → exec (.noTarget m) s =
        .next (logRecord y 0x35 uidDevice 0 (r.line * 64) (partyUid r.who) 0 0)))

/-- A slice is held for a drain or a failure; its directory moves to its new homes; the slice map is committed with a new generation; the
slice is released to the withdrawal list; a substitute buddy's copy completes; a tag array recovers, dropping what it lost; a way's
correctable error is counted, and past its threshold the way is disabled, or its core fails at the third; a scratch change is accepted and
completes. -/
def Obligations.SliceAndCacheCompletes : Prop :=
  (∀ (s : State) (i : Fin 96), exec (.sliceHold i true) s = .next (drainSlice s i) ∧
    exec (.sliceHold i false) s = .next (failSlice s i 0x06)) ∧
  (∀ (s : State) (i : Fin 96) (r : Retire), retireOf s i = some r →
    (r.moved = false → ∃ z, exec (.directoryTransferDone i) s = .next z ∧ z.mem = s.mem ∧
      z.retires = (updRetire s i (fun r => { r with moved := true })).retires) ∧
    (r.moved = true → r.mapped = false → s.fabric.commit = none →
      exec (.sliceMapCommit i) s = .next (
        let y := r.homes.foldl (fun s (n, c) => s.putF (rBcSliceMap (n / 8)) ⟨8 * (n % 8) + 6, 8 * (n % 8)⟩ c) s
        let y := y.putF rBcSliceMapGen BcSliceMapGen.gen (y.getF rBcSliceMapGen BcSliceMapGen.gen + 1)
        updRetire (r.homes.foldl (fun s (_, c) => bcastFix s c) y) i (fun r => { r with mapped := true }))) ∧
    (r.mapped = true →
      exec (.sliceRelease i) s = .next (
        let u := sliceUid i
        let y := resendHeld (releaseHeld (leaveRetires s i))
        let cause := y.getF (rUnitState u) UnitState.cause
        let z := addWithdrawn (setUnit y u 6 (if r.drain then 0x03 else 0x01)) u
        let p1 := (r.homes.zipIdx).foldl (fun n (h, k) => n + h.2 * 256 ^ k) 0
        let z := logRecord z 0x2A u cause i p1 (z.time - r.since) 0
        configEval ((if buddyOn z i then duplicatesAt s i else []).foldl (fun s h => startSubstitute s i h) z)))) ∧
  (∀ (s : State) (h : Fin 96), s.subCopy.contains h.val = true →
    ∃ z, exec (.substituteBuddyCopyDone h) s = .next z ∧ z.subCopy = s.subCopy.filter (· != h.val)) ∧
  (∀ (s : State) (u : Uid) (k set : Nat) (lost : List Nat), serving s u.toNat = true → coreOfArray u.toNat = some k →
    (exec (.tagRecovery u 0 set (.tag lost)) s = .next (replayAccess (logRecord (updC s k (fun x => { x with
      lines := x.lines.map (fun e => if inArray 0 set e then (e.1, { e.2 with l1i := none }) else e) })) 0x28 (coreUid k) 0
      (0 + set % 4096 * 16) 0 0 0) k)) ∧
    (exec (.tagRecovery u 2 set (.tag lost)) s = .next (
      let here := (getC s k).lines.filter (inArray 2 set)
      let gone := here.filter (fun e => decide (2 ≤ 2) && e.2.dirty && lost.contains e.1)
      let y := (here.filter (fun e => e.2.st == .s || e.2.place == .side)).foldl (fun s e => dropLine s k e.1) s
      let y := (here.filter (fun e => e.2.st == .e && lost.contains e.1)).foldl (fun s e => leaveClean s k e.1 e.2) y
      replayAccess (logRecord (gone.foldl (fun s e => loseLine s (coreUid k) e.1) y) 0x28 (coreUid k) 0 (2 + set % 4096 * 16)
        gone.length 0 0) k)) ∧
    (∀ (a : Fin 5) (line : Nat), a.val ≠ 3 → (getC s k).lines.any (fun e => e.1 == line && inArray a set e) = true →
      exec (.tagRecovery u a set (.data line)) s = .next (setPoison s line true))) ∧
  (∀ (s : State) (u : Uid) (i set : Nat) (lost : List Nat), serving s u.toNat = true → coreOfArray u.toNat = none →
    sliceOfArray u.toNat = some i → exec (.tagRecovery u 3 set (.tag lost)) s = .next (recoverSlice s i set lost)) ∧
  (∀ (s : State) (u : Uid) (k : Nat) (way : Fin 12), bcUp s = true → serving s u.toNat = true →
    coreOfArray u.toNat = some k →
    (∀ a : Fin 4, a.val ≠ 3 → way.val < (wayField a).2 →
      exec (.wayDisable u a way true) s = .next (coreWayOff s k a way) ∧
      (∀ y, countWay s u.toNat a way = (y, false) → exec (.wayDisable u a way false) s = .next y) ∧
      (∀ y, countWay s u.toNat a way = (y, true) → exec (.wayDisable u a way false) s =
        .next (if wayThird y u.toNat a then failCore y k 0x05 else coreWayOff y k a way))) ∧
    (let f := (wayField 2).1
     let n := (wayField 2).2
     let dis := s.getF (rCoreCacheWays (coreUid k)) f
     way.val < n → dis.testBit way.val = false → 2 < n - bitCount dis n →
       exec (.wayDisable u 2 way true) s = .next (wayRecord
         (emptyWays (s.putF (rCoreCacheWays (coreUid k)) f (dis + 2 ^ way.val)) k) (coreUid k) 2 way))) ∧
  (∀ (s : State) (r : Requester) (v : Word), (∀ p i, r ≠ .host p i) → blockUp s uidBaseCamp = true →
    exec (.scratchCfgWrite r v) s = .next (writeScratchCfg s v)) ∧
  (∀ (s : State) (n : Nat), s.scratchNew = some n →
    let old := (allSlices.map (fun i => s.getF (rTileL3Ways (sliceUid i)) TileL3Ways.scratch_ways)).foldl max 0
    exec .scratchChangeDone s = .next ((applyScratch { (if old < n then clearScratch s old else s) with scratchNew := none }
      n).putF rBcScratchCfg BcScratchCfg.busy 0))

/-- A valid route set is written to the inactive banks and the fabric goes quiet; once drained, or 20 µs later, the banks switch with new
generations. Alternatives that cover every link and stop in service, each a valid route set without what it stands for, are kept and used
when that is lost. A replay is counted, and the eighth in a row takes the link down; a link without a token for 10 µs goes down, an unused
one with 1,000 replays in a second goes out of service. -/
def Obligations.FabricRouteCompletes : Prop :=
  (∀ (s : State) (ch : List (Nat × Nat × BitVec 64)), bcUp s = true → s.fabric.commit = none → routeCheck s ch = none →
    let y := (ch.map (·.1)).eraseDups.foldl (fun s a =>
      let dst := 1 - activeBank s a
      (List.range 128).foldl (fun s b => s.putR (bankReg a dst b) (routeIn s ch a b)) s) s
    let z := setQuiet y true
    exec (.routeCommit ch) s = .next { z with fabric := { z.fabric with commit := some ⟨ch, z.time⟩ } }) ∧
  (∀ (s : State) (c : Commit), bcUp s = true → s.fabric.commit = some c → (s.fabric.packets = [] ∨ c.since + 20000 ≤ s.time) →
    let y := (c.changes.map (·.1)).eraseDups.foldl (fun s a =>
      let r := rFabRouteSel (fabUidOfStop a)
      (s.putF r FabRouteSel.active (1 - activeBank s a)).putF r FabRouteSel.gen (s.getF r FabRouteSel.gen + 1))
      (s.fabric.packets.foldl dropPacket s)
    let z := setQuiet y false
    let z : State := { z with fabric := { z.fabric with packets := [], commit := none, altsOk := false, alts := [] } }
    exec .quietDrained s = .next (releaseHeld (sendNotices (logRecord z 0x31 uidDevice 0
      (z.getF (rFabRouteSel (fabUidOfStop 0)) FabRouteSel.gen) (z.time - c.since) 0 0)))) ∧
  (∀ (s : State) (ls ss : List (Nat × List (Nat × Nat × BitVec 64))), bcUp s = true → s.fabric.commit = none →
    let alts := ls.map (fun e => (Loss.link (e.1 / 4) (e.1 % 4), e.2)) ++ ss.map (fun e => (Loss.stop e.1, e.2))
    altsGood s alts = true →
      exec (.alternativesReady ls ss) s = .next { s with fabric := { s.fabric with altsOk := true, alts := alts } }) ∧
  (∀ (s : State) (n : Nat) (l : Loss) (ch : RouteSet), s.fabric.altsOk = true →
    (linkUp s (n / 4) (n % 4) = false → s.fabric.alts.find? (fun e => e.1 == Loss.link (n / 4) (n % 4)) = some (l, ch) →
      exec (.reroute false n) s = .next (startCommit s ch)) ∧
    (stateOf s (stateUidOfStop n) = usFailed → s.getF (rUnitState (stateUidOfStop n)) UnitState.cause = 0x07 →
      s.fabric.alts.find? (fun e => e.1 == Loss.stop n) = some (l, ch) →
      exec (.reroute true n) s = .next (startCommit s ch))) ∧
  (∀ (s : State), bcUp s = true → s.fabric.commit = none → (routeCheck s []).isSome = true → altApplies s = false →
    exec .routeRecompute s = .next (recomputeGo 128 s)) ∧
  (∀ (s : State) (st : Fin 128) (d : Fin 4), linkUp s st d = true →
    (let y := pmUncore (s.putR (linkReg st d) (satInc (s.getR (linkReg st d)) FabLinkStatus.retries 1)) st 0x113 false none
     let w := (y.time :: mget [] y.fabric.window (linkKey st d)).take 1000
     let n := mget 0 y.fabric.replays (linkKey st d) + 1
     let z := updFab y (fun f => { f with
       replays := mput 0 f.replays (linkKey st d) n
       window := mput [] f.window (linkKey st d) w })
     exec (.linkReplay st d) s = .next (if 8 ≤ n then takeDown z st d 1 else z)) ∧
    exec (.livenessToken st d) s = .next (updFab s (fun f => { f with token := mput 0 f.token (linkKey st d) s.time })) ∧
    exec (.linkDown st d true) s = .next (takeDown s st d 1) ∧
    (mget 0 s.fabric.token (linkKey st d) + 10000 ≤ s.time → exec (.linkDown st d false) s = .next (takeDown s st d 1)) ∧
    (∀ a, bcUp s = true → (mget [] s.fabric.window (linkKey st d))[999]? = some a → s.time ≤ a + 1000000000 → linkUsed s st d = false →
      exec (.linkOutOfService st d) s = .next (takeDown s st d 2)))

/-- A message enters at a stop that is up and not quiet: a request is kept until its response, or held at its source while the home's map
changes; a response enters its completer's record. A packet at the head of its queue at a stop in service goes, with credit for its flits
and at its turn, onto the link its route names, is lost where that link is down, or is delivered where its route ends; one on a link
arrives, oldest of its plane first, and the link's replay count ends. A request past its limit is sent again under the next attempt, up to
eight, and then abandoned. A completer's record is dropped when its time has come. -/
def Obligations.FabricPacketCompletes : Prop :=
  (∀ (s : State) (k : Nat) (i : Inject), fieldHeld s (fieldOfStop i.stop) = false → stopUp s i.stop = true →
    s.getB (rFabRouteSel (fabUidOfStop i.stop)) FabRouteSel.quiet = false →
      let orig := i.orig.map (fun o => (o.1.toNat, o.2.toNat))
      (msgPlane i.msg = .fwd → exec (.packetHop k (some i)) s =
        .next (inject s i.stop i.msg i.dest.toNat i.src.toNat i.tag.toNat 0 i.payload orig)) ∧
      (msgPlane i.msg = .rsp → exec (.packetHop k (some i)) s =
        .next (inject (recordResp s i.stop i.dest.toNat i.tag.toNat i.msg i.payload) i.stop i.msg i.dest.toNat i.src.toNat
          i.tag.toNat 0 i.payload none)) ∧
      (msgPlane i.msg = .req → s.fabric.reqs.any (fun e => e.src == i.src.toNat && e.tag == i.tag.toNat) = false →
        let line := memLine s i.dest.toNat i.addr
        let e : EReq := ⟨i.src.toNat, i.tag.toNat, i.dest.toNat, i.addr, 0, s.time, i.msg, i.payload, orig, line⟩
        exec (.packetHop k (some i)) s = .next (
          if heldAtSource s line then updFab s (fun f => { f with held := f.held ++ [e] })
          else inject (updFab s (fun f => { f with reqs := f.reqs ++ [e] })) i.stop i.msg i.dest.toNat i.src.toNat i.tag.toNat 0
            i.payload orig))) ∧
  (∀ (s : State) (k : Nat) (p : Packet), s.fabric.packets[k]? = some p → fieldHeld s (fieldOfStop p.stop) = false →
    stopUp s p.stop = true →
      (p.flying = false → atHead s k p = true →
        (hopsOf p.route = 0 → stopQuiet s p.stop = false → exec (.packetHop k none) s =
          .next (deliver (updFab s (fun f => { f with packets := f.packets.eraseIdx k })) p)) ∧
        (hopsOf p.route ≠ 0 → linkUp s p.stop p.out = true → hasCredit s p = true → itsTurn s p = true →
          ∃ z, exec (.packetHop k none) s = .next z ∧
            z.fabric.packets = s.fabric.packets.eraseIdx k ++ [{ p with flying := true }]) ∧
        (hopsOf p.route ≠ 0 → linkUp s p.stop p.out = false → exec (.packetHop k none) s =
          .next (dropPacket (updFab s (fun f => { f with packets := f.packets.eraseIdx k })) p))) ∧
      (p.flying = true → firstFlying s k p = true → ∃ z, exec (.packetHop k none) s = .next z ∧
        z.fabric.packets = s.fabric.packets.eraseIdx k ++ [{ p with
          stop := nextStop p.stop p.out
          after := afterHop p.stop p.out p.axis p.after
          axis := some (colHop p.out)
          inp := p.out
          flying := false
          route := BitVec.ofNat 64 ((hopsOf p.route - 1) * 2 ^ 56 + fld p.route FabRouteA.code / 4) }] ∧
        mget 0 z.fabric.token (linkKey p.stop p.out) = s.time)) ∧
  (∀ (s : State) (k : Nat) (e : EReq), s.fabric.reqs[k]? = some e → timersHeld s = false → heldAtSource s e.line = false →
    s.getB (rFabRouteSel (fabUidOfStop (stopOfUid e.src))) FabRouteSel.quiet = false → e.since + reqLimit s e ≤ s.time →
      (8 ≤ e.attempt → exec (.requestTimeout k) s =
        .next (abandon (updFab s (fun f => { f with reqs := f.reqs.eraseIdx k })) e)) ∧
      (e.attempt < 8 → exec (.requestTimeout k) s = .next (
        let e' := { e with attempt := e.attempt + 1, since := s.time, dest := destOf s e }
        inject (updFab s (fun f => { f with reqs := f.reqs.set k e' })) (stopOfUid e.src) e.msg e'.dest e.src e.tag e'.attempt
          e.payload e.orig))) ∧
  (∀ (s : State) (k : Nat) (r : DoneRec), s.fabric.recs[k]? = some r → r.till ≤ s.time →
    exec (.completerRecordExpiry k) s = .next (updFab s (fun f => { f with recs := f.recs.eraseIdx k })))

/-- The command that the controller's order picks is issued: a refresh, a neighbour refresh, a write or a read. A refresh falls due, counted
for its rank. Base camp's drift tracking holds training values until refresh; a frequency change drains refresh and holds the channel until
it is done, the other set then active. A channel failure takes the channel out. -/
def Obligations.MemoryChannelCompletes : Prop :=
  (∀ (s : State) (c : Fin 16) (sub : Bool) (al : List DramCmd) (ecc mir : ErrPat) (draw : BitVec 16), mcRuns s c = true →
    let y := updM s c (fun m => m.setSub sub (drainFix (m.sub sub)))
    let x := (getM y c).sub sub
    (∀ r, cmdBest y c x al = some (.refresh r) → exec (.mcCommandIssue c sub al ecc mir draw) s = .next (refreshRank y c r)) ∧
    (cmdBest y c x al = some .neighbour → exec (.mcCommandIssue c sub al ecc mir draw) s =
      .next (pmUncore (updM y c (fun m => m.setSub sub { m.sub sub with nref := (m.sub sub).nref.tail })) (stopOfMc c) 0x123 false none)) ∧
    (∀ i q, cmdBest y c x al = some (.write i) → (inWrites x)[i]? = some q →
      exec (.mcCommandIssue c sub al ecc mir draw) s = .next (
        let z := openRow y c sub q draw.toNat
        let z := updM z c (fun m => m.setSub sub (drainFix { m.sub sub with writes := leaveQueue z c 48 i (m.sub sub).writes }))
        pmUncore (busTime (bwAdd z (mcUid c) 8 64) c) (stopOfMc c) 0x121 (isSecure z q.pa) (some (mcSource z c q, q.pa)))) ∧
    (∀ i q, cmdBest y c x al = some (.read i) → (inReads x)[i]? = some q → urgency y c q ≠ 3 → q.home = false →
      exec (.mcCommandIssue c sub al ecc mir draw) s = .next (
        let z := openRow y c sub q draw.toNat
        let z := updM z c (fun m => m.setSub sub { m.sub sub with reads := leaveQueue z c 64 i (m.sub sub).reads })
        let z := pmUncore (busTime (bwAdd z (mcUid c) 0 64) c) (stopOfMc c) 0x120 (isSecure z q.pa) (some (mcSource z c q, q.pa))
        readError z c (q.line * 64) (eccOf z c ecc) (eccOf z (mirrorChan c) mir)))) ∧
  (∀ (s : State) (c : Fin 16) (rank : Fin 4) (hot : Bool), chanUp s c = true → (getM s c).freq = false →
    mget 0 (getM s c).lastRef rank + (if hot then 975 else 1950) ≤ s.time →
      let y := if 8 ≤ mget 0 (getM s c).owed rank then refreshRank s c rank else s
      exec (.refreshDue c rank hot) s = .next (updM y c (fun m => { m with
        hot := mput false m.hot rank hot
        lastRef := mput 0 m.lastRef rank s.time
        owed := mput 0 m.owed rank (mget 0 m.owed rank + 1) }))) ∧
  (∀ (s : State) (c : Fin 16) (ws : List (Nat × Nat × BitVec 64)), bcUp s = true → chanUp s c = true →
    (getM s c).driftAt + 100000000 ≤ s.time →
    exec (.driftTracking c ws) s = .next (updM s c (fun m => { m with driftAt := s.time, heldTrain := m.heldTrain ++
      (ws.filter (fun w => decide (w.1 < 4) && decide (w.2.1 < 80))).map (fun w =>
        (w.1, rMcTrain (mcUid c) (s.getF (rMcFreqCtrl (mcUid c)) McFreqCtrl.active) w.1 w.2.1, w.2.2 &&& 0x7F07FF07FF)) }))) ∧
  (∀ (s : State) (c : Fin 16) (v : Word), bcUp s = true → chanUp s c = true → mayChange s c = true →
    fldB v McFreqCtrl.go = true → fldB v McFreqCtrl.refused = false →
    s.getB (rMcMigrStatus (mcUid c)) McMigrStatus.active = false → s.getB (rMcFreqCtrl (mcUid c)) McFreqCtrl.busy = false →
      exec (.frequencyChange .baseCamp c v) s = .next (updM (((List.range 4).foldl (fun s k => refreshRank s c k) s).putF
        (rMcFreqCtrl (mcUid c)) McFreqCtrl.busy 1) c (fun m => { m with freq := true, owed := [] }))) ∧
  (∀ (s : State) (c : Fin 16) (rate : BitVec 12), s.getB (rMcFreqCtrl (mcUid c)) McFreqCtrl.busy = true →
    ∃ z, exec (.frequencyChangeDone c rate) s = .next z ∧ (getM z c).freq = false ∧
      (getM z c).rates = mput 0 (getM s c).rates (1 - s.getF (rMcFreqCtrl (mcUid c)) McFreqCtrl.active) rate.toNat ∧
      z.getF (rMcFreqCtrl (mcUid c)) McFreqCtrl.rate_mts_div = rate.toNat) ∧
  (∀ (s : State) (c : Fin 16), exec (.channelFailure c) s = .next (failChannel s c 0x06))

/-- A rank's migration starts, copies line by line and ends with the spare in the rank's place; the gleaner reads on; a spare that fails its
test is out; a lost expansion link breaks its mirror, and a link that trains restores it; a resilvered channel is whole again. -/
def Obligations.MemoryRepairCompletes : Prop :=
  (∀ (s : State) (c : Fin 16) (rank : Fin 4) (sp l : Nat) (more : List Nat), bcUp s = true → chanUp s c = true →
    s.getB (rMcMigrStatus (mcUid c)) McMigrStatus.active = false → (getM s c).spareOf = sp :: more →
    (getM s c).ranks.findIdx? (· == rank.val) = some l →
      let w := [(McMigrStatus.active, 1), (McMigrStatus.src_rank, rank.val), (McMigrStatus.spare_rank, sp),
        (McMigrStatus.pointer, l * rankSize s c / 0x1000000)].foldl (fun w (f, n) => setFld w f n) (s.getR (rMcMigrStatus (mcUid c)))
      let y := recoverySet (updM (s.putR (rMcMigrStatus (mcUid c)) w) c (fun m => { m with
        migrLeft := 0, migrAt := l * rankSize s c })) c
      exec (.rankMigrationStart c rank) s =
        .next (if rankMirrored y c l then configEval (mirrorRecord (setBroken y c true) (mcUid c) c true) else y)) ∧
  (∀ (s : State) (c : Fin 16) (mir : ErrPat),
    let w := s.getR (rMcMigrStatus (mcUid c))
    let m := getM s c
    fldB w McMigrStatus.active = true → mcRuns s c = true → readFree s c m.migrAt = true →
      m.migrAt < (((m.ranks.findIdx? (· == fld w McMigrStatus.src_rank)).getD 0) + 1) * rankSize s c →
        exec (.migrationCopy c .none mir) s = .next (
          let y := updM (ownAccess s c m.migrAt 5 false) c (fun x => { x with migrAt := m.migrAt + 64 })
          remapRanks ((ownAccess y c m.migrAt 5 true).putR (rMcMigrStatus (mcUid c))
            (setFld w McMigrStatus.pointer ((m.migrAt + 64) / 0x1000000))) c)) ∧
  (∀ (s : State) (c : Fin 16) (l : Nat),
    let w := s.getR (rMcMigrStatus (mcUid c))
    (getM s c).ranks.findIdx? (· == fld w McMigrStatus.src_rank) = some l → fldB w McMigrStatus.active = true →
      (l + 1) * rankSize s c ≤ (getM s c).migrAt → s.mgmt.mirrorBroken = [] →
        ∃ z, exec (.migrationDone c) s = .next z ∧ (getM z c).ranks = (getM s c).ranks.set l (fld w McMigrStatus.spare_rank) ∧
          (getM z c).spareOf = []) ∧
  (∀ (s : State) (c : Fin 16), mcRuns s c = true → s.getB (rMcGleanCfg (mcUid c)) McGleanCfg.en = true →
    s.getB (rMcMigrStatus (mcUid c)) McMigrStatus.active = false → 0 < chanBytes s c → readFree s c (getM s c).glean = true →
    gleanDue s c = true →
      let y := readError (ownAccess (gleanStamp s c) c (getM s c).glean 4 false) c (getM s c).glean .good .good
      exec (.gleanerRead c .none .none) s = .next (
        if (getM s c).glean + 64 < chanBytes y c then updM y c (fun m => { m with glean := (getM s c).glean + 64 })
        else
          let z := y.putR (rMcGleanStatus (mcUid c)) (satInc (y.getR (rMcGleanStatus (mcUid c))) McGleanStatus.passes 1)
          updM z c (fun m => { m with glean := 0, spareTested := false }))) ∧
  (∀ (s : State) (c : Fin 16) (sp : Nat) (more : List Nat), (getM s c).spareOf = sp :: more → mcRuns s c = true →
    (getM s c).spareTested = false → s.getB (rMcMigrStatus (mcUid c)) McMigrStatus.active = false →
      let y := updM s c (fun m => { m with spareTested := true })
      exec (.spareRankTest c true) s = .next y ∧
      exec (.spareRankTest c false) s = .next (memoryRecord ((updM y c (fun m =>
        { m with spareOf := [], gone := m.gone ++ [sp] })).putF (rMcMigrStatus (mcUid c)) McMigrStatus.spare_rank 0xF)
        c 0 sp 0xFF true false 0)) ∧
  (∀ (s : State) (l : Fin 16), mget false s.cxlLost l = false → windowsOf s l ≠ [] →
    exec (.cxlLinkLoss l) s = .next (configEval (mirrorRecord { s with cxlLost := mput false s.cxlLost l true }
      (ioUid (linkIo s l)) l true))) ∧
  (∀ (s : State) (o : Fin 32),
    let l := s.getF (rHpOctCfg (octUid o)) HpOctCfg.xlink
    s.getF (rHpOctCfg (octUid o)) HpOctCfg.mode = 3 → s.getF (rHpOctCfg (octUid o)) HpOctCfg.width ≠ 2 →
      let y : State := { s with cxlUp := mput false s.cxlUp l true }
      (mget false y.cxlLost l = true →
        exec (.cxlLinkTrain o true) s = .next (configEval (mirrorRecord { y with cxlLost := mput false y.cxlLost l false }
          (ioUid (o / 4)) l false))) ∧
      (mget false y.cxlLost l = false → exec (.cxlLinkTrain o true) s = .next (configEval y))) ∧
  (∀ (s : State) (c : Fin 16) (n : Nat), (getM s c).resilver = some n →
    exec (.resilverDone c) s = .next (configEval (mirrorRecord (setBroken ((updM s c (fun m => { m with resilver := none })).putF
      (rMcProt (mcUid c)) McProt.mode 0) c false) (mcUid c) c false)))

/-- A completion that agrees with its request adds its data, and the last one answers; a malformed, failed or poisoned one answers with its
status. A request without its answer in time expires, and a completion that comes later than the port's detection finds it gone; a
quarantined tag returns when its time has come; a request that never got a tag is answered with 0x0302. Bus mastering off stops an instance,
and on lets it go on. -/
def Obligations.HostRequestCompletes : Prop :=
  (∀ (s : State) (p : Fin 16) (tag : Fin 1024) (count k : Nat) (lower : BitVec 7) (r : HostReq),
    (getP s p).reqs.findIdx? (fun r => r.tag == some tag.val) = some k → (getP s p).reqs[k]? = some r →
      (∀ c, overdue s r = true → exec (.hostCompletion p tag count lower c) s = .next (strayCompletion (timeOut s p k r) p tag)) ∧
      (overdue s r = false → exec (.hostCompletion p tag count lower .malformed) s =
        .next (finishReq (aer s p r.inst 4) p k r (.error 0x0304))) ∧
      (∀ bs, overdue s r = false → cplAgrees r count lower.toNat bs.length = true →
        let y := updP s p (fun x => { x with progress := s.time })
        exec (.hostCompletion p tag count lower (.data bs)) s =
          .next (if (r.got ++ bs).length = r.len then finishReq y p k r (.ok (r.got ++ bs))
            else updP y p (fun x => { x with reqs := x.reqs.set k { r with got := r.got ++ bs } }))) ∧
      (overdue s r = false → cplAgrees r count lower.toNat 1 = true →
        exec (.hostCompletion p tag count lower .error) s = .next (finishReq s p k r (.error 0x0304)) ∧
        exec (.hostCompletion p tag count lower .poisoned) s =
          .next (finishReq (errCount s p HpErrCount.poisoned_cpl) p k r (.error 0x0201))) ∧
      (r.since + r.limit * 1000 ≤ s.time → exec (.completionTimeout p tag) s = .next (timeOut s p k r))) ∧
  (∀ (s : State) (p : Fin 16) (tag : Fin 1024) (q : QTag), (getP s p).quar.find? (fun q => q.tag == tag.val) = some q →
    q.till ≤ s.time →
      exec (.quarantineExpiry p tag) s = .next (assignTags (updP (setQuar s p ((getP s p).quar.filter (fun q =>
        q.tag != tag.val))) p (fun x => { x with spent := x.spent ++ [q] })) p)) ∧
  (∀ (s : State) (p : Fin 16) (k : Nat) (r : HostReq), (getP s p).reqs[k]? = some r → r.tag = none →
    r.since + cplTimeoutUs s p * 1000 < s.time →
      exec (.tagWaitTimeout p k) s = .next (answerReq (dropReq s p k) p r (.error 0x0302))) ∧
  (∀ (s : State) (p : Fin 16) (i : Fin 64), hostPortMode s p = true →
    exec (.busMasterDisable p i) s = .next (masterOff (updP s p (fun x => x.setFn i { x.fn i with bme := false })) p i) ∧
    (mget false (getP s p).busy i = false → exec (.busMasterEnable p i) s = .next (
      let y := updP s p (fun x => x.setFn i { x.fn i with bme := true })
      if masterOn y p i then masterBack y p i else y)))

/-- A function-level reset begins for the function and, from function 0, all of them, and ends; a port freezes by AER, link, presence, stall
or a write, and is released by a write or by itself; a port resets, becomes ready, leaves PERST, and its data link comes up with its width,
speed and tag mode; a pending vector is sent; a configuration write changes the function. -/
def Obligations.HostPortCompletes : Prop :=
  (∀ (s : State) (p : Fin 16) (i : Fin 64), hostPortMode s p = true →
    (mget false (getP s p).busy i = false → i.val < (getP s p).share → exec (.functionLevelReset p i false) s =
      .next ((resetSet s p i).foldl (fun s k => resetInst (setBusy s p k true) p k) s)) ∧
    (i.val ≠ 0 → mget false (getP s p).busy i = true → exec (.functionLevelReset p i true) s =
      .next (updP (setBusy s p i false) p (fun x => x.setFn i { x.fn i with resetting := false })))) ∧
  (∀ (s : State) (p : Fin 16), hostPortMode s p = true →
    exec (.portFreeze p .aer) s = .next (portFreeze (aer s p 0 16) p 1) ∧
    exec (.portFreeze p .linkDown) s = .next (portFreeze s p 2) ∧
    exec (.portFreeze p .presence) s = .next (portFreeze s p 3) ∧
    ((getP s p).reqs ≠ [] → (getP s p).progress + 1000000 ≤ s.time → exec (.outboundStall p) s = .next (portFreeze s p 4)) ∧
    (∀ r, notHost r = true → blockUp s (portUid p) = true → exec (.freezeWrite r p) s = .next (portFreeze s p 5)) ∧
    (∀ why, exec (.portReset p why) s = .next (portReset s p why)) ∧
    ((getP s p).perst = false → 3 ≤ s.getF rBcBootStatus BcBootStatus.stage →
      exec (.portReady p) s = .next (updP s p (fun x => { x with cfgReady := true, ident := some (pfId s) }))) ∧
    (∀ (width : Fin 32) (speed : Fin 8) (flit : Bool), (getP s p).perst = false → portLinkUp s p = false →
      widthOk s p width = true → 1 ≤ speed.val → speed.val ≤ 6 → (speed.val = 6 → flit = true) →
        exec (.dataLinkUp p width speed flit) s = .next (updP (s.putR (rHpPortStatus (portUid p)) (setFld (setFld (setFld
          (setFld (s.getR (rHpPortStatus (portUid p))) HpPortStatus.width width) HpPortStatus.speed speed) HpPortStatus.flit
          (if flit then 1 else 0)) HpPortStatus.link_up 1)) p (fun x => { x with
            tagMode := if flit then .flit else if x.tagMode = .ten then .ten else .eight, progress := s.time
            autoArmed := x.autoArmed && s.getB (rHpPortCtrl (portUid p)) HpPortCtrl.auto_release })))) ∧
  (∀ (s : State) (r : Requester) (p : Fin 16), notHost r = true → blockUp s (portUid p) = true → portFrozen s p = true →
    portLinkUp s p = true → heldInFabric s p = false → exec (.releaseWrite r p) s = .next (releasePort s p)) ∧
  (∀ (s : State) (p : Fin 16), portFrozen s p = true → (getP s p).autoArmed = true → portLinkUp s p = true →
    s.getB (rHpPortCtrl (portUid p)) HpPortCtrl.auto_release = true → exec (.autoRelease p) s = .next (releasePort s p)) ∧
  (∀ (s : State) (p : Fin 16), (getP s p).perst = true →
    exec (.perstDeassertion p) s = .next (updP s p (fun x => { x with perst := false }))) ∧
  (∀ (s : State) (p : Fin 16) (i : Fin 64) (v : Fin 1024), mget false ((getP s p).fn i).pba v = true → msixCanSend s p i v = true →
    exec (.msixVectorSend p i v) s = .next (msixMessage s p i v)) ∧
  (∀ (s : State) (p : Fin 16) (i : Fin 64) (b : Bool), hostPortMode s p = true → (getP s p).cfgReady = true →
    ((getP s p).fn i).resetting = false → i.val < (getP s p).share →
      exec (.configurationWrite p i (.relaxedOrdering b)) s =
        .next (updP s p (fun x => x.setFn i { x.fn i with ro := b })) ∧
      (∀ c, c.toNat ≤ 2 → exec (.configurationWrite p i (.maxPayload c)) s =
        .next (updP s p (fun x => x.setFn i { x.fn i with mps := sizeOf3 c }))) ∧
      (∀ c, c.toNat ≤ 5 → exec (.configurationWrite p i (.maxReadRequest c)) s =
        .next (updP s p (fun x => x.setFn i { x.fn i with mrrs := sizeOf3 c }))) ∧
      exec (.configurationWrite p i (.msixEnable b)) s =
        .next (msixRelease (updP s p (fun x => x.setFn i { x.fn i with msixEn := b })) p i))

/-- A key descriptor under way on an engine, its operands well-formed and its keys and inputs accepted, computes: result 0, its verdict
where it verifies, and its outputs held until its fixed duration ends, an AES-GCM decryption with a wrong tag yielding zeros. At the end the
outputs are written to dst and the descriptor completes with their length and the verdict. The functions themselves are constants of Config,
but for RSA, and random bytes come from the vault's DRBG, which then moves on. -/
def Obligations.KeyOperationCompletes : Prop :=
  (∀ (s y z : State) (g : Fin 8192) (slot : Fin 32768) (d : Desc) (u : Nat) (k : List Byte × List Byte) (bs : List Byte),
    ∀ c ∈ ([(.aesEcb g slot, 0x40), (.aesCbc g slot, 0x41), (.aesCtr g slot, 0x42), (.aesGcm g slot, 0x43),
        (.aesCmac g slot, 0x44), (.tdea g slot, 0x45), (.sha2 g slot, 0x48), (.sha3 g slot, 0x49), (.hmac g slot, 0x4A),
        (.random g slot, 0x4F), (.rsaPrivate g slot, 0x50), (.rsaPublic g slot, 0x51), (.ecdsaSign g slot, 0x54),
        (.ecdsaVerify g slot, 0x55), (.ecdh g slot, 0x56), (.ed25519Sign g slot, 0x57), (.ed25519Verify g slot, 0x58),
        (.x25519 g slot, 0x59), (.mlKemEncapsulate g slot, 0x5C), (.mlKemDecapsulate g slot, 0x5D), (.mlDsaSign g slot, 0x60),
        (.mlDsaVerify g slot, 0x61), (.pinTranslate g slot, 0x68)] : List (Instr × Nat)),
      let d' := { d with keys := some k }
      let src := bs.take (kSrcLen d)
      let key := if kOpen d' then bs.drop (kSrcLen d) else k.1
      running? s g slot c.2 = some d → noEngine s g d = false → withUnit s g d = some (y, u) → d.stage = 0 →
      keyBefore d = none → slotKeys y g d = some k →
      gather (updDesc (keepOpen y g d) g d.slot (fun x => { x with keys := some k })) g d' u
        ([(d.num 1, kSrcLen d)] ++ (if kOpen d ∧ d.op ≠ 0x68 then [(d.num 5, openLen d)] else [])) = .ok (z, some bs) →
      publicBad d' key src true = false → keyRefused d' key src = false →
        let ok := Config.keyVerdict d.op (kVar d) (kAux d) key src
        let out := keyOutput z d' ((outLen d').getD 0) key k.2 src
        exec c.1 s = .next (updDesc
          (if drawsRandom d.op then { z with vault := { z.vault with drbg := z.vault.drbg + 1 } } else z) g d.slot
          (fun x => { x with
            stage := 3
            waits := 0
            result := 0
            verdict := ofBool (verifies d' && ok)
            outs := if d.op = 0x43 ∧ kDec d ∧ !ok then List.replicate ((outLen d').getD 0) 0 else out }))) ∧
  (∀ (s y z : State) (g : Fin 8192) (slot : Fin 32768) (d : Desc) (u : Nat), descAt s g slot = some d → d.status = none →
    isKeyOp d.op = true → d.stage = 3 → withUnit s g d = some (y, u) → d.result = 0 → d.endAs = none →
    scatter y g u none [(d.num 2, d.outs.length)] d.outs = .ok z →
      exec (.keyOperationEnd g slot) s = .next (endDesc z g d.slot 0 (d.outs.length + d.verdict * 0x100000000)))

/-- An engine failed by mismatches restarts once and runs its self test, after which it is in service where its engine stop serves, or
withdrawn. The active trusted group stages a program's words, commits it, which starts the check, or discards it. The check accepts a staged
image whose SHA-384 matches, and refuses another with reason 1. The program applied at an operation boundary becomes the engine's, or both
engines', and is measured. -/
def Obligations.EngineProgramCompletes : Prop :=
  (∀ (s : State) (f : Fin 4) (key : Bool) (k : Fin 2),
    let u := engUid f key k
    (bcUp s = true → stateOf s u = usFailed → s.getF (rUnitState u) UnitState.cause = 0x04 → serving s (esUid f) = true →
      s.mgmt.engRestart.contains u = false →
      exec (.engineRestart f key k none) s = .next (setUnit (setUnit { s with mgmt := { s.mgmt with
        engRestart := s.mgmt.engRestart ++ [u] } } u usOff 0x01) u usStarting 0x01)) ∧
    (stateOf s u = usStarting → s.mgmt.engRestart.contains u = true →
      (holdersUp s u = true → exec (.engineRestart f key k (some true)) s = .next (setUnit s u usInService 0x02)) ∧
      exec (.engineRestart f key k (some false)) s =
        .next (addWithdrawn (setUnit (setUnit s u usFailed 0x06) u usWithdrawn 0x01) u))) ∧
  (∀ (s : State) (r : Requester) (f : Fin 4) (k : Fin 2), mayUcode s r (engUid f true k) = true →
    (∀ w v, (getU s (engUid f true k)).pending = none → exec (.ucodeStageWrite r f k w v) s =
      .next (updU s (engUid f true k) (fun x => { x with staged := mput 0 x.staged w v }))) ∧
    (∀ v, fldB v KeUcodeCtrl.commit = true → fldB v KeUcodeCtrl.discard = false → fld v KeUcodeCtrl.len_words ≠ 0 →
      fld v KeUcodeCtrl.len_words ≤ 8192 → exec (.ucodeCommit r f k v) s =
        .next (updU (s.putR (rKeUcodeCtrl (engUid f true k)) (v &&& 0xFFFFFFFF3FFF0004)) (engUid f true k)
          (fun x => { x with check := true }))) ∧
    (∀ v, fldB v KeUcodeCtrl.discard = true → fldB v KeUcodeCtrl.commit = false → exec (.ucodeDiscard r f k v) s =
      .next (ucodeDiscard (s.putR (rKeUcodeCtrl (engUid f true k)) (v &&& 0xFFFFFFFF3FFF0004)) (engUid f true k)))) ∧
  (∀ (s : State) (f : Fin 4) (k : Fin 2), (getU s (engUid f true k)).check = true →
    let u := engUid f true k
    let y := updU s u (fun x => { x with check := false })
    let digest := wordsBytes ((List.range 6).map (fun i => y.getR (rKeUcodeDigest u i)))
    exec (.ucodeCheckDone f k) s = .next (
      if Config.sha384 (wordsBytes (stagedWords y u)) = digest then
        (updU y u (fun x => { x with pending := some (stagedWords y u) })).putB (rKeUcodeStatus u) KeUcodeStatus.pending true
      else ucodeRefuse y u 1)) ∧
  (∀ (s : State) (f : Fin 4) (k : Fin 2) (ws : List Word),
    let u := engUid f true k
    let us := if s.getB (rKeUcodeCtrl u) KeUcodeCtrl.apply_both then [engUid f true 0, engUid f true 1] else [u]
    (getU s u).pending = some ws → us.any (engBusy s) = false →
      exec (.ucodeApply f k) s = .next (us.foldl (fun s e => measExtend (takeProgram s e
        (s.getF (rKeUcodeCtrl u) KeUcodeCtrl.version) ws) 4 4 (Config.sha384 (wordsBytes ws))) (ucodeDiscard s u)))

/-- A learning in flight is entered by the master; each replica takes the changes in order, and the command in flight ends when all have it;
an entry not refreshed for the aging time leaves. Commands add a static entry, delete or unlock an entry, flush a port, and reload a VLAN. A
master that returns takes its table from a replica. -/
def Obligations.ForwardingTableCompletes : Prop :=
  (∀ (s : State) (key port : Nat) (rest : List (Nat × Nat)), s.bridge.learns = (key, port) :: rest → masterUp s = true →
    mfind s.bridge.fdb key = none → s.bridge.fdb.length < 262144 →
      exec .learn s = .next (fdbSet { s with bridge := { s.bridge with learns := rest } } false key
        (some ⟨port, false, s.time, 0, 0, false⟩))) ∧
  (∀ (s : State) (io : Fin 8) (c : FdbChange) (rest : List FdbChange), mget [] s.bridge.changes io.val = c :: rest →
    let t := mget [] s.bridge.replicas io.val
    let y := { s with bridge := { s.bridge with
      replicas := mput [] s.bridge.replicas io.val (match c.ent with
        | some e => mins t c.key e
        | none => mdel t c.key)
      changes := mput [] s.bridge.changes io.val rest } }
    exec (.fdbChange io) s = .next (if y.bridge.changes.any (fun e => e.2.any (fun c => c.op)) then y
      else y.putB rNetFdbCmd NetFdbCmd.busy false)) ∧
  (∀ (s : State) (vid : BitVec 12) (mac : BitVec 48) (e : FdbEnt), mfind s.bridge.fdb (fdbKey vid.toNat mac.toNat) = some e →
    masterUp s = true → e.static = false → s.getF rNetBrCfg NetBrCfg.age_s ≠ 0 →
    e.last + s.getF rNetBrCfg NetBrCfg.age_s * 1000000000 ≤ s.time →
      exec (.fdbAging vid mac) s = .next (fdbSet s false (fdbKey vid.toNat mac.toNat) none)) ∧
  (∀ (s : State) (r : Requester) (v : Word), fdbMay s r = true → fldB v NetFdbCmd.refused = false →
    s.getB rNetFdbCmd NetFdbCmd.busy = false →
    let key := fdbKey (s.getF rNetFdbKey NetFdbKey.vid) (s.getF rNetFdbKey NetFdbKey.mac)
    let port := fld v NetFdbCmd.port
    (s.bridge.fdb.length < 262144 → exec (.fdbAddStatic r v) s = .next (fdbAccept s v (fun s => fdbSet s true key
      (some ⟨port, true, s.time, 0, 0, false⟩)))) ∧
    (∀ e, mfind s.bridge.fdb key = some e →
      exec (.fdbDelete r v) s = .next (fdbAccept s v (fun s => fdbSet s true key none)) ∧
      exec (.fdbUnlock r v) s = .next (fdbAccept s v (fun s =>
        if e.locked then fdbSet s true key (some { e with locked := false }) else s))) ∧
    exec (.fdbFlushPort r v) s = .next (fdbAccept s v (fun s => fdbFlush s true port)) ∧
    exec (.vlanReload r v) s = .next (fdbAccept s v (fun s => { s with bridge := { s.bridge with
      vlans := mins s.bridge.vlans (s.getF rNetFdbKey NetFdbKey.vid) (vlanRead s (s.getF rNetFdbKey NetFdbKey.vid)) } }))) ∧
  (∀ (s : State), s.bridge.lost = true → stateOf s (esUid 0) = usInService →
    let t := mget [] s.bridge.replicas 0
    exec .masterReload s = .next ({ s with bridge := { s.bridge with fdb := t, lost := false } }.putF rNetFdbCmd
      NetFdbCmd.entries t.length))

/-- A good frame counts and is classified, VLAN filtered and forwarded; one with a bad FCS or length counts as an error; a PAUSE or PFC
frame stops queues. The queues' next frame is sent. Xon goes out below the lower mark, a pause ends in time, counts latch each window, and a
link that falls starts its hold, which ends in a flush or with the link's return. -/
def Obligations.BridgePortCompletes : Prop :=
  (∀ (s : State) (b : Fin 64), portUp s b = true →
    (∀ x, exec (.frameReceive b x false) s = .next (netCount s b 4 1)) ∧
    (∀ bytes, 64 ≤ bytes.length → bytes.length ≤ 9216 → exec (.frameReceive b (.data bytes) true) s =
      .next (receive (netCount (netCount s b 0 1) b 1 bytes.length) b (bytes.take (bytes.length - 4)))) ∧
    (∀ ns, portCfg (netCount s b 8 1) b NetPortCfg.pause_en = 1 → portCfg (netCount s b 8 1) b NetPortCfg.pfc_mask = 0 →
      exec (.frameReceive b (.pause ns) true) s =
        .next ((List.range 8).foldl (fun s i => pauseQueue s b i ns) (netCount s b 8 1))) ∧
    (∀ times, exec (.frameReceive b (.pfc times) true) s = .next (times.foldl (fun s e =>
      if e.1 < 8 && (portCfg s b NetPortCfg.pfc_mask).testBit e.1 then pauseQueue s b e.1 e.2 else s) (netCount s b 8 1))) ∧
    (∀ f, nextFrame s b (fun i => (mfind (getNet s b).stopped i).isNone) = some f →
      let bs := f.out (vlanUntagged s f.vid b)
      exec (.frameTransmit b) s = .next (netCount (netCount (updNet (unqueue s f b) b
        (fun x => { x with sent := bs :: x.sent })) b 2 1) b 3 (bs.length + 4)))) ∧
  (∀ (s : State) (b : Fin 64) (prio : Fin 8), (getNet s b).xoff.contains prio.val = true → heldFor s b prio < 80 * 1024 → heldBack s b prio = false →
    exec (.pfcXon b prio) s = .next (updNet s b (fun x => { x with
      xoff := x.xoff.filter (· != prio.val), control := (prio.val, false) :: x.control }))) ∧
  (∀ (s : State) (b : Fin 64) (prio : Fin 8) (n : Nat), mfind (getNet s b).stopped prio.val = some n → n ≤ s.time →
    exec (.pauseExpiry b prio) s = .next (updNet s b (fun x => { x with stopped := mdel x.stopped prio.val }))) ∧
  (∀ (s : State) (b : Fin 64) (l : Nat), netLane s b = some l →
    let n := 10 ^ min 6 (portCfg s b NetPortCfg.win) * 1000
    ((getNet s b).boundary / n + 1) * n ≤ s.time →
      let r (k : Nat) : Nat := rNetPortCount (octUid (l / 8)) (l % 8) k
      let y := (List.range 9).foldl (fun s' k => s'.putR (r k) (BitVec.ofNat 64 ((getNet s b).counts.getD k 0))) s
      exec (.statisticsWindow b) s = .next (updNet (y.putR (r 9) (y.getR (r 9) + 1)) b (fun x => { x with
        counts := [], boundary := y.time }))) ∧
  (∀ (s : State) (b : Fin 64), portStat s b NetPortStatus.link_up ≠ 0 →
    let y := setPortStat s b NetPortStatus.link_up 0
    let z := setPortStat y b NetPortStatus.link_downs (min 255 (portStat y b NetPortStatus.link_downs + 1))
    let ms := min 100 (portCfg z b NetPortCfg.down_hold_ms)
    exec (.networkLinkDown b) s = .next (if ms = 0 then holdEnds z b
      else updNet (setPortStat z b NetPortStatus.holding 1) b (fun x => { x with holdAt := z.time + ms * 1000000 }))) ∧
  (∀ (s : State) (b : Fin 64), portCfg s b NetPortCfg.en = 1 → blockUp s (ioUid (stopOfNet s b)) = true →
    exec (.networkLinkUp b) s = .next (setPortStat (setPortStat s b NetPortStatus.link_up 1) b NetPortStatus.holding 0)) ∧
  (∀ (s : State) (b : Fin 64), portHolding s b = true → (getNet s b).holdAt ≤ s.time →
    exec (.downHoldExpiry b) s = .next (holdEnds s b))

/-- TX on the transmit channel of an enabled virtual port reads its frame and sends it; TXSG reads its list, then sends the gathered frame.
RXBUF on a receive channel is read and its buffer free; a held frame goes into the free buffers where enough are free, completing them. A
lossless frame held for 100 ms is dropped and counted. -/
def Obligations.VirtualPortCompletes : Prop :=
  (∀ (s z : State) (g : Fin 8192) (slot : Fin 32768) (d : Desc) (v : Nat) (vs : List Nat) (bs : List Byte),
    let u := chUid (servingEs s g)
    vportsOf s g false = v :: vs → esRuns s (servingEs s g) = true →
    (running? s g slot 0x90 = some d → txLength (fld (d.word 3) ⟨13, 0⟩) = true → wraps (d.num 1) (fld (d.word 3) ⟨13, 0⟩) = false →
      gather s g d u [(d.num 1, fld (d.word 3) ⟨13, 0⟩)] = .ok (z, some bs) →
        exec (.tx g slot) s = .next (sendFrame z g d v bs)) ∧
    (running? s g slot 0x92 = some d → d.list = [] → 1 ≤ dEntries d → dEntries d ≤ 8 → wraps (d.num 1) (16 * dEntries d) = false →
      gather s g d u [(d.num 1, 16 * dEntries d)] = .ok (z, some bs) →
      let es := listEntries bs (dEntries d)
      es.all entryGood = true → es.any (fun e => wraps e.1 e.2.1) = false →
      txLength ((es.map (fun e => e.2.1)).foldl (· + ·) 0) = true →
        exec (.txsg g slot) s = .next (updDesc z g d.slot (fun d => { d with
          list := es.map (fun e => (e.1, e.2.1)), stage := 0 }))) ∧
    (running? s g slot 0x92 = some d → d.list ≠ [] → gather s g d u d.list = .ok (z, some bs) →
      exec (.txsg g slot) s = .next (sendFrame z g d v bs))) ∧
  (∀ (s : State) (g : Fin 8192) (slot : Fin 32768),
    let i := (slot.val + (getCh s g).subSize - (getCh s g).subHead) % (getCh s g).subSize
    running? s g slot 0x91 = none → vportsOf s g true ≠ [] → rxOpen s g = true → i < (getCh s g).waitingSlots →
      exec (.rxbuf g slot) s = .next (fetchUpTo (i + 1) (i + 1) s g)) ∧
  (∀ (s : State) (v : Fin 960) (f : Frame),
    let b := 64 + v.val
    let g := vpF s v NetVport0.rx_chan
    let bs := f.out (vlanUntagged s f.vid b)
    let k := (bs.length + 2047) / 2048
    let y := fetchUpTo k k s g
    vpB s v NetVport0.en = true → nextFrame s b (fun _ => true) = some f → rxOpen s g = true → rxOpen y g = true →
    k ≤ (freeBuffers (getCh y g)).length → k ≤ (getCh y g).cplFree →
      exec (.frameDeliver v) s =
        .next (completeAll (deliverTo (unqueue y f b) g f bs ((freeBuffers (getCh y g)).take k)) g)) ∧
  (∀ (s : State) (v : Fin 960) (e : Frame × Nat),
    let b := 64 + v.val
    s.bridge.queue.find? (fun e => e.2 == b && losslessAt s b e.1.pcp && decide (e.1.since + 100000000 ≤ s.time)) = some e →
      exec (.losslessHoldExpiry v) s = .next (vpSat (unqueue s e.1 b) v NetVport1.rx_nobuf))

/-- A switch that nothing forbids stops the virtual core and is busy; once the threads' host accesses have drained, the core is cleared, its
world changes and the notice is sent. The active group's heartbeat counts. A failed active group is taken over by a standby that is ready; a
failed standby is contained; the group restarts and is measured again. A tamper event drops the master key and the slots, and a counter
counts up to its last value. -/
def Obligations.TrustedWorldCompletes : Prop :=
  (∀ (s : State) (t : Tid) (v : Word), blockUp s uidVault = true → fldB v VltWorldCmd.refused = false →
    fldB v VltWorldCmd.go = true →
    switchReason s (trusted s t) (fld v VltWorldCmd.vcore) (fldB v VltWorldCmd.to_world) = none →
      let y := [VltWorldCmd.notify_thread, VltWorldCmd.notify_vector, VltWorldCmd.vcore, VltWorldCmd.to_world].foldl
        (fun s f => sw s f (fld v f)) s
      let z := sw y VltWorldCmd.busy 1
      exec (.worldSwitch (.thread t) v) s = .next (switchStops { z with vault := { z.vault with
        sw := some (fld v VltWorldCmd.vcore, fldB v VltWorldCmd.to_world) } } (fld v VltWorldCmd.vcore))) ∧
  (∀ (s : State) (v : Nat) (dst : Bool), s.vault.sw = some (v, dst) →
    [2 * v, 2 * v + 1].any (fun n => (getT s (tidOf n)).hostWait.isSome) = false →
      let k := coreOfUid (s.getF (rBcVcoreMap v) BcVcoreMap.phys_unit)
      let y := [2 * v, 2 * v + 1].foldl (fun s n => dropFill s (tidOf n)) s
      let y := emptyCaches ([2 * v, 2 * v + 1].foldl (fun s n => drainAll s (tidOf n)) y) k
      let y := clearPredictors (startClear y (tidOf (2 * v))) (tidOf (2 * v))
      let y := [2 * v, 2 * v + 1].foldl clearThread (updC y k (fun x => { x.keepTlb (fun _ => false) with walks := [], clearEnd := 0 }))
      let y := sheafTrusted ((resetBlock y (coreUid k + 1)).putB (rBcVcoreMap v) BcVcoreMap.world dst) (k / 8)
      let y := sw { y with vault := { y.vault with sw := none } } VltWorldCmd.busy 0
      let n := y.getF rVltWorldCmd VltWorldCmd.notify_thread
      exec .worldSwitchDone s =
        .next (if n ≤ 383 then sendIrq y n (y.getF rVltWorldCmd VltWorldCmd.notify_vector) uidVault else y)) ∧
  (∀ (s : State) (r : Requester) (v : Word), mayVault s r = true → blockUp s uidVault = true →
    exec (.heartbeat r v) s = .next { s with vault := { s.vault with lastBeat := s.time } } ∧
    (5 ≤ v.toNat → v.toNat ≤ 7 → exec (.measurementExtend r v) s = .next (measExtend s v.toNat v.toNat
      (wordsBytes ((List.range 6).map (fun w => s.getR (rVltMeasExt w)))))) ∧
    (s.getR (rVltCounter (v.toNat % 16)) ≠ 0xFFFFFFFFFFFFFFFF → exec (.counterIncrement r v) s =
      .next (s.putR (rVltCounter (v.toNat % 16)) (s.getR (rVltCounter (v.toNat % 16)) + 1)))) ∧
  (∀ (s : State), s.vault.active = true → bcUp s = true →
    (s.vault.activeFailed = false → s.vault.lastBeat + beatLimit s ≤ s.time →
      exec .trustedGroupFailure s = .next (takeover s)) ∧
    (s.vault.activeFailed = false → groupLost s (trustedTiles s) = true → exec .trustedGroupFailure s = .next (takeover s)) ∧
    (s.time < s.vault.lastBeat + beatLimit s → groupLost s (trustedTiles s) = false →
      s.getF rVltTwStatus VltTwStatus.stby_state = 2 → groupLost s (standbyTiles s) = true → exec .trustedGroupFailure s =
        .next (configEval ((contain s (standbyTiles s)).putF rVltTwStatus VltTwStatus.stby_state 0)))) ∧
  (∀ (s : State), s.vault.active = true → bcUp s = true → s.getF rVltTwStatus VltTwStatus.stby_state = 0 →
    (s.vault.activeFailed = true ∨ s.getB rVltTwCfg VltTwCfg.stby_en = true) →
      let ts := failedTiles s
      let y := (tileCores ts).foldl emptyCaches s
      let y := ((y.l3.filter (fun e => isSecure y (e.1 * 64) && ts.contains (homeSlice y (e.1 * 64)))).map (·.1)).foldl (fun s l => l3Out s 4 l) y
      let y := { y with vault := { y.vault with drbg := y.vault.drbg + 1 } }
      let z := (tileCores ts).foldl (fun s k =>
        if restartable s k then setUnit (setUnit s (coreUid k) usOff 0x01) (coreUid k) usStarting 0x01
        else if stateOf s (coreUid k) = usFailed then withdrawUnit s (coreUid k)
        else s) y
      let z := if (tileCores ts).any (restartable y) then z else adoptReserve z ts
      exec .groupRestart s = .next (configEval (twRecord (z.putR rVltTwStatus (setFld (satInc (z.getR rVltTwStatus)
        VltTwStatus.restarts 1) VltTwStatus.stby_state 1)) 2))) ∧
  (∀ (s : State), s.getF rVltTwStatus VltTwStatus.stby_state = 1 → bcUp s = true →
    let ts := failedTiles s
    let y := measExtend (homeWrite s (trustedBase s (ts.headD 0)) (trustedImage s)) 3 3 (Config.sha384 (trustedImage s))
    let z := (ts.map tileUid ++ (tileCores ts).map coreUid).foldl startDone y
    let w := z.putF rVltTwStatus VltTwStatus.stby_state (if z.vault.activeFailed then 0 else 2)
    exec .groupRestartDone s = .next (configEval (twRecord (startGroup (if z.vault.activeFailed then
      { w with vault := { w.vault with activeFailed := false, lastBeat := w.time } } else w) ts z.vault.activeFailed) 3))) ∧
  (∀ (s : State) (cause : BitVec 8), cause ≠ 0 → (s.vault.vbat = true ∨ s.board.pwrgdStby = true ∨ 2000 ≤ s.vault.hold) →
    exec (.tamperDetect cause) s = .next (tamper s cause.toNat))

/-- A slot operation the active group commands, the vault idle and the type valid, keeps its fields, is busy for the operation's time and
takes effect: a key loaded from secure memory or drawn from the DRBG fills the slot, CLEAR empties it, PUBLIC PART writes the public part of
an asymmetric key, and PROVISION makes a new master key and empties the table. How long it takes is a constant of Config. -/
def Obligations.KeySlotCompletes : Prop :=
  ∀ (s : State) (r : Requester) (v : Word), mayVault s r = true → blockUp s uidVault = true → s.vault.busyTill ≤ s.time →
    fldB v VltSlotCmd.refused = false →
      let n := fld v VltSlotCmd.slot
      let t := fld v VltSlotCmd.type
      let usage := fld v VltSlotCmd.usage
      let go (op : Nat) : State :=
        let y := [VltSlotCmd.slot, VltSlotCmd.type, VltSlotCmd.usage].foldl
          (fun s f => s.putF rVltSlotCmd f (fld (setFld v VltSlotCmd.op op) f)) s
        { y with vault := { y.vault with busyTill := y.time + Config.slotTime op t } }
      slotTypes.contains t = true →
      (∀ op, op ≤ 5 → (go op).getB rVltDbgEn VltDbgEn.sec_inv = false) →
      (s.vault.mkValid = true →
        (∀ key, secureBuffer (go 1) (slotAddr (go 1)) (slotKeyLen t) = some key → slotKeyBad t key = false →
          exec (.load r v) s = .next (setSlot (go 1) n (some ⟨t, usage, key⟩))) ∧
        exec (.generate r v) s = .next (setSlot { go 2 with vault := { (go 2).vault with drbg := (go 2).vault.drbg + 1 } } n
          (some ⟨t, usage, fitLen (slotKeyLen t) (Config.newKey t (go 2).vault.drbg)⟩)) ∧
        exec (.clear r v) s = .next (setSlot (go 3) n none) ∧
        (∀ k, openSlot (go 4) n = some k → 8 ≤ k.type →
          (linesOf (slotAddr (go 4)) (Config.publicPart k.type k.key).length).all (fun l => (physClass (go 4) (l * 64)).isMem) = true →
          exec (.publicPart r v) s = .next (homeWrite (go 4) (slotAddr (go 4)) (Config.publicPart k.type k.key)))) ∧
      (s.vault.mkValid = false → exec (.provision r v) s = .next { go 5 with vault := { (go 5).vault with
        mkValid := true, gen := (go 5).vault.gen + 1, slots := [], opened := [] } })

/-- The heartbeat counts. A core due for takeover is replaced by its standby, or both are out; a core that rejoins in order becomes standby.
Readings are noted with their extremes. The brake holds caps and gives them back. Records go to the ring or the flash in order. The sweep
reconciles every unit. An absent host freezes its port; a flash found bad fails its row, and is rewritten from the good one. -/
def Obligations.BaseCampCompletes : Prop :=
  (∀ (s : State), bcUp s = true →
    exec .bcHeartbeat s = .next (updG s (fun m => { m with lastBeat := s.time })) ∧
    exec .viewSweep s = .next (sweep s) ∧
    (∀ x : Polled, (bcUp (configEval s) = true → x.loads = [] → x.phases = [] → x.flashes = [] → x.temps = [] → exec (.sensorPoll x) s =
      .next (updG (configEval s) (fun m => { m with sensors := x.readings.foldl noteReading m.sensors }))) ∧
      (x.phases = [] → ∃ z, exec (.sensorPoll x) s = .next z ∧ z.mem = s.mem)) ∧
    (∀ b, let y := configEval (setFlash s b (fun f => { f with reads := false }))
      bcUp y = true → exec (.sensorPoll ⟨[], [], [], [b], []⟩) s = .next y) ∧
    (s.mgmt.lastBeat + 100000 ≤ s.time → s.mgmt.core (!activeB s) = .standby →
      exec (.bcTakeover .heartbeat) s =
        .next (failover (updG s (fun m => { m with fails := (activeB s, s.time) :: m.fails })) (takeoverCode .heartbeat) .fenced)) ∧
    (s.mgmt.core (!activeB s) = .standby →
      exec (.bcTakeover .planned) s = .next (failover s (takeoverCode .planned) .restarting)) ∧
    ((s.mgmt.core (!activeB s) = .fenced ∨ s.mgmt.core (!activeB s) = .restarting) → ∀ ok,
      exec (.bcCoreRejoin ok) s = .next (
        let late := (s.mgmt.fails.filter (fun f => f.1 == !activeB s && decide (s.time < f.2 + 3600000000000))).length
        configEval (showCores (updG s (fun m => m.setCore (!activeB s)
          (if ok && decide (late ≤ 1) then .standby else .withdrawn)))))) ∧
    (s.mgmt.caps = [] → s.board.pwrBrake = true → exec .powerBrake s = .next (
      let y := updG s (fun m => { m with
        caps := allSheaves.map (fun h => (h, BitVec.ofNat 64 (s.getF (rShfBcLimits (sheafUid h)) ShfBcLimits.bc_power_cap))) })
      let w := s.getF rBcPkgPower BcPkgPower.brake_w
      ((capsFit (min (w * 8) (sheafBudget y)) (allSheaves.map (Config.brakeCap w))).zipIdx).foldl (fun s (n, h) => putCap s h n) y)) ∧
    (s.board.pwrBrake = false → s.mgmt.caps ≠ [] → exec .powerBrakeRelease s =
      .next (updG (((capsFit (sheafBudget s) (s.mgmt.caps.map (fun e => e.2.toNat))).zip (s.mgmt.caps.map (·.1))).foldl
        (fun s e => putCap s e.2 e.1) s) (fun m => { m with caps := [] }))) ∧
    (∀ now other means, s.board.pwrBrake = true → exec (.powerDistribution now other ⟨means, []⟩) s =
      .next (updG (s.putF rBcPkgPower BcPkgPower.power_now (min now 0xFFF)) (fun m => { m with
        allowance := (other * 11 + 9) / 10 })))) ∧
  (∀ (s : State) (now other : Nat) (means : List Nat) (sets : List (DomId × Nat × Nat)), bcUp s = true →
    let y := sets.foldl (fun s e => setDomain s e.1 e.2.1 e.2.2) (s.putF rBcPkgPower BcPkgPower.power_now (min now 0xFFF))
    let y := updG y (fun m => { m with allowance := (other * 11 + 9) / 10 })
    y.board.pwrBrake = false →
    let rest := pkgLimit y * 8 - (other * 11 + 9) / 10
    let ms := allSheaves.map (fun h => means.getD h 0)
    exec (.powerDistribution now other ⟨means, sets⟩) s = .next (((capsFit rest (if ms.all (· == 0) then allSheaves.map (Config.idleCap rest)
      else shares (allSheaves.map (fun h => !(sheafCores y h).isEmpty)) 24 rest (allSheaves.map (fun _ => none)) ms)).zipIdx).foldl
        (fun s (n, h) => putCap s h n) y)) ∧
  (∀ (s : State) (r : LogRec), bcUp s = true → fldB (s.getR rBcLogRing) BcLogRing.en = true → s.log.ringNext < s.log.next →
    ringSecure s (s.getR rBcLogRing) 64 = false → recordOf s s.log.ringNext = some r →
    (fld (s.getR rBcLogPtr) BcLogPtr.tail + 1) % ringSize (s.getR rBcLogRing) ≠ fld (s.getR rBcLogPtr) BcLogPtr.head →
      let y := ringAdd s rBcLogRing rBcLogPtr (recBytes r)
      exec .logRingCopy s = .next { y with log := { y.log with ringNext := y.log.ringNext + 1 } }) ∧
  (∀ (s : State) (r : LogRec) (i : Image), bcUp s = true → s.mgmt.running = some i → i.logRegion = true →
    s.log.flashNext < s.log.next → recordOf s s.log.flashNext = some r → s.log.flash.length < 262144 →
      exec .logFlashAppend s =
        .next { s with log := { s.log with flash := r :: s.log.flash, flashNext := s.log.flashNext + 1 } }) ∧
  (∀ (s : State) (p : Fin 16), hostPortMode s p = true → exec (.hostPresenceLoss p) s =
    .next (portFreeze { s with board := { s.board with prsnt := s.board.prsnt.filter (· != p.val) } } p 3)) ∧
  (∀ (s : State) (i : Image) (b : Bool), s.mgmt.running = some i → bcUp s = true →
    (servicesUp s = true → updating s = false →
      flashValid s (if b then s.mgmt.flashB else s.mgmt.flashA) = false →
      flashValid s (if b then s.mgmt.flashA else s.mgmt.flashB) = true → s.mgmt.update = .none →
        exec .flashRewrite s = .next (configEval (updG (writeFlash s b
          ((if b then s.mgmt.flashA else s.mgmt.flashB).image.getD i)) (fun m => { m with update := m.update })))))

/-- A request on a transport that base camp serves is answered on it: with records, a sensor's range, a state word, a limit taken, or the
bytes a DMTF specification defines, signed where SPDM signs; what those bytes are is a constant of Config. A nonce is drawn and kept; a
token that checks opens the enables it asks for and is spent; a clear, and the end of a token's time, close them all. -/
def Obligations.ManagementRequestCompletes : Prop :=
  (∀ (s : State) (x : Transport), served s x = true →
    (∀ body, exec (.mctpControl x 0 body) s = .next (
      reply (match Config.mctpEid body with
        | some e => updG s (fun m => { m with eids := (x, e) :: m.eids.filter (fun p => p.1 != x) })
        | none => s) x (.bytes 0 (Config.mctpReply body)))) ∧
    (∀ seq count, exec (.logbookRead x seq count) s =
      .next (reply s x (.records (((s.log.records.filter (fun r => decide (seq ≤ r.seq))).reverse).take count)))) ∧
    (∀ id v lo hi, mfind s.mgmt.sensors id = some (v, lo, hi) → exec (.pldmRequest x (.numericSensor id)) s =
      .next (reply (updG s (fun m => { m with sensors := mins m.sensors id (v, v, v) })) x (.range v lo hi))) ∧
    (exec (.pldmRequest x (.stateSensor (BitVec.ofNat 16 uidDevice))) s = .next (reply s x (.stateWord (setFld (s.getR rBcStatus) BcStatus.mode
      (if s.mgmt.degraded then 3 else s.getF rBcStatus BcStatus.mode))))) ∧
    (∀ u, u.toNat ≠ uidDevice → exec (.pldmRequest x (.stateSensor u)) s = .next (reply s x (.stateWord (s.getR (rUnitState u.toNat))))) ∧
    (∀ w, exec (.pldmRequest x (.limitW w)) s =
      .next (reply (s.putF rBcPkgPower BcPkgPower.limit_w (max 200 (min 1150 w))) x (.done 0))) ∧
    exec (.pldmRequest x .events) s =
      .next (reply (updG s (fun m => { m with pldmSeen := s.log.next })) x (.records (unreadEvents s))) ∧
    exec (.getVersion x) s = .next (reply s x (.bytes 0x84 (Config.spdm 0x84 0 0 0))) ∧
    exec (.getCapabilities x) s = .next (reply s x (.bytes 0xE1 (Config.spdm 0xE1 0 0 0))) ∧
    exec (.negotiateAlgorithms x) s = .next (reply s x (.bytes 0xE3 (Config.spdm 0xE3 0 0 0))) ∧
    exec (.getDigests x) s = .next (reply s x (.bytes 0x81 (Config.spdm 0x81 0 0 0))) ∧
    (∀ slot offset length, exec (.getCertificate x slot offset length) s =
      .next (reply s x (.bytes 0x82 (Config.spdm 0x82 slot offset length)))) ∧
    (∀ slot nonce, exec (.challenge x slot nonce) s = .next (reply s x (.bytes 0x83
      (Config.spdm 0x83 slot 0 0 ++ nonce ++ Config.spdmSign (Config.spdm 0x83 slot 0 0 ++ nonce))))) ∧
    (∀ block nonce, exec (.getMeasurements x block nonce) s = .next (reply s x (.bytes 0xE0
      (Config.spdm 0xE0 block 0 0 ++ (nonce ++ measBlock s block) ++
        Config.spdmSign (Config.spdm 0xE0 block 0 0 ++ (nonce ++ measBlock s block)))))) ∧
    (∀ n, n = (List.range 32).map (fun i => Config.drbg s.vault.drbg i) →
      exec (.nonceRequest x) s = .next (reply { s with
        vault := { s.vault with drbg := s.vault.drbg + 1 }
        mgmt := { s.mgmt with nonce := some n } } x (.bytes 0x7E n))) ∧
    (∀ body sigOk keysOk, tokenOk s body sigOk keysOk = true →
      let y := applyToken { s with mgmt := { s.mgmt with nonce := none } } body
      exec (.debugToken x body sigOk keysOk) s = .next (reply (logRecord y 0x51 uidDevice 0 (y.getR rVltDbgEn).toNat
        (tokenField body 0x10 8) 0 0) x (.done 0))) ∧
    exec (.debugClear x) s = .next (reply (setEnables s 0 0 false none) x (.done 0))) ∧
  (∀ (s : State) (n : Nat), s.mgmt.tokenEnd = some n → bcUp s = true → n ≤ s.time →
    exec .tokenExpiry s = .next (setEnables s 0 0 false none))

/-- An update image that verifies is written to the other flash and the standby takes over with it; within 60 s it may roll back to the
image before. A core patch set that verifies and fits is stored in both flashes and every core in service applies it. A trusted component
staged in normal memory is announced to the active group, and its outcome, or 60 s without one, ends the update. -/
def Obligations.UpdateCompletes : Prop :=
  (∀ (s : State) (x : Transport) (image was : Image), served s x = true → s.mgmt.update = .none → s.mgmt.running = some was →
    imageOk s image = true → bcPair s = true → image.accepts ≤ runVersion s →
    (flashValid s s.mgmt.flashA = true ∨ flashValid s s.mgmt.flashB = true) →
      let b := !s.mgmt.fromB
      let y := failover (writeFlash s b image) 4 .standby
      let z := runImage (updG y (fun m => { m with update := .firmware was })) image b
      exec (.firmwareUpdate x image) s =
        .next (reply (configEval (updateRecord (showCores z) 1 (runVersion s) image.fwVersion 0)) x (.done 0))) ∧
  (∀ (s : State) (old : Image), s.mgmt.update = .firmware old → bcUp s = true → s.time < s.mgmt.loadedAt + 60000000000 →
    let y := setFlash (failover s 2 .standby) s.mgmt.fromB (fun f => { f with image := some old })
    let z := runImage (updG y (fun m => { m with update := .none })) old (!s.mgmt.fromB)
    exec .updateRollback s = .next (configEval (updateRecord (showCores z) 1 old.fwVersion (runVersion s) 2))) ∧
  (∀ (s : State) (x : Transport) (version : Nat) (comp : List Nat), served s x = true → s.mgmt.update = .none →
    comp.contains s.mgmt.patch = true →
      let store (f : Flash) : Flash := { f with image := f.image.map (fun i => { i with patch := some version }) }
      let y := setFlash (setFlash s false store) true store
      let cores := (List.range 192).filter (fun k => stateOf y (coreUid k) == usInService)
      exec (.patchSetLoad x version true comp) s = .next (reply (updateRecord (updG y (fun m => { m with
        patch := version, patched := cores, running := m.running.map (fun i => { i with patch := some version }) }))
        2 s.mgmt.patch version 0) x (.done 0))) ∧
  (∀ (s : State) (k : Fin 192),
    exec (.patchApply k) s = .next (updG s (fun m => { m with patched := m.patched.filter (· != k.val) }))) ∧
  (∀ (s : State) (x : Transport) (cls version : Nat) (body : List Byte) (n : Nat),
    let a := fld (s.getR rBcTwStage) BcTwStage.addr * 4096
    let y := updG (homeWrite s a body) (fun m => { m with update := .trusted cls version (homeWrite s a body).time, twOutcome := none })
    served s x = true → s.mgmt.update = .none → fldB (s.getR rBcTwStage) BcTwStage.valid = true → (cls = 3 ∨ cls = 4) →
    (linesOf a body.length).any (fun l => isSecure s (l * 64) || physClass s (l * 64) != .dram) = false →
    lowestThread y (trustedTiles y) = some n →
      exec (.trustedComponentStage x cls version body) s = .next (reply (sendIrq y n 62 uidBaseCamp) x (.value 0))) ∧
  (∀ (s : State) (cls version since : Nat), s.mgmt.update = .trusted cls version since → bcUp s = true →
    let old := (mfind s.mgmt.versions cls).getD (Config.componentVersion cls)
    let y (n : Nat) : State := updG s (fun m => { m with
      update := .none, twOutcome := none, versions := if n = 0 then mins m.versions cls version else m.versions })
    (∀ n, s.mgmt.twOutcome = some n → exec .trustedOutcome s =
      .next (reply (updateRecord (y n) cls old version (min n 1)) .i3c (.done n))) ∧
    (s.mgmt.twOutcome = none → since + 60000000000 ≤ s.time → exec .trustedOutcome s =
      .next (reply (updateRecord (y 1) cls old version 1) .i3c (.done 1))))

/-- A request that carries the unit's present seq and changes its word is answered done: a command moves the unit, a memory test switches
its channel to region mode and back, or is refused with a record where the channel holds a secure range, a reserve core starts, returns to
bivouac, or is refilled with its tile. Withdrawal entries are appended to both flashes in order. A withdrawn unit's reinstatement is queued.
A failed channel with ranks left restarts. -/
def Obligations.UnitRequestCompletes : Prop :=
  (∀ (s : State) (x : Transport) (u : Uid) (seq : BitVec 8) (ask : UnitAsk), served s x = true → isStateUnit u.toNat = true →
    s.getF (rUnitState u.toNat) UnitState.seq = seq.toNat → (∀ b, ask ≠ .memTest b) →
      let z := configEval (askUnit s u.toNat ask)
      z.getR (rUnitState u.toNat) ≠ s.getR (rUnitState u.toNat) →
        exec (.unitCommandRequest x u seq ask) s = .next (reply z x (.done 0))) ∧
  (∀ (s : State) (x : Transport) (u : Uid) (c : Nat) (seq : BitVec 8) (b : Bool), served s x = true → unitKind u.toNat = .mem c →
    s.getF (rUnitState u.toNat) UnitState.seq = seq.toNat → testOk s c b = true →
      let w := s.getR (rUnitState u.toNat)
      (b = true → secureLimit s = 0 → exec (.unitCommandRequest x u seq (.memTest b)) s = .next (reply (recoverySet s c) x (.done 0))) ∧
      (b = true → secureLimit s ≠ 0 → exec (.unitCommandRequest x u seq (.memTest b)) s =
        .next (reply (setupError s (rMcProt (mcUid c)) (secureLimit s)) x (.refused w))) ∧
      (b = false → exec (.unitCommandRequest x u seq (.memTest b)) s =
        .next (reply (s.putF (rMcProt (mcUid c)) McProt.mode 0) x (.done 0)))) ∧
  (∀ (s : State) (x : Transport) (k : Fin 192) (seq : BitVec 8), served s x = true →
    s.getF (rUnitState (coreUid k)) UnitState.seq = seq.toNat →
    (stateOf s (coreUid k) = usBivouac → s.mgmt.reserved.contains k.val = false →
      let y := if stateOf s (tileUid (k / 2)) = usBivouac then setUnit s (tileUid (k / 2)) usStarting 0x01 else s
      let z := configEval (setUnit y (coreUid k) usStarting 0x01)
      z.getR (rUnitState (coreUid k)) ≠ s.getR (rUnitState (coreUid k)) →
        exec (.reserveRelease x k seq) s = .next (reply z x (.done 0))) ∧
    (stateOf s (coreUid k) = usInService → vcoreOfCore s k = none →
      let z := configEval (setUnit (setUnit (gateCore (emptyCaches (setUnit s (coreUid k) usDraining 0x01) k) k) (coreUid k) usOff 0x03)
        (coreUid k) usBivouac 0x01)
      z.getR (rUnitState (coreUid k)) ≠ s.getR (rUnitState (coreUid k)) →
        exec (.reserveReturn x k seq) s = .next (reply z x (.done 0)))) ∧
  (∀ (s : State) (x : Transport) (i : Fin 96) (seq : BitVec 8), served s x = true →
    s.getF (rUnitState (tileUid i)) UnitState.seq = seq.toNat → stateOf s (tileUid i) = usOff →
    stateOf s (coreUid (2 * i)) = usOff → stateOf s (coreUid (2 * i + 1)) = usOff →
      let z := configEval ([tileUid i, coreUid (2 * i), coreUid (2 * i + 1)].foldl (fun s u => setUnit s u usBivouac 0x01) s)
      z.getR (rUnitState (tileUid i)) ≠ s.getR (rUnitState (tileUid i)) →
        exec (.reserveRefill x i seq) s = .next (reply z x (.done 0))) ∧
  (∀ (s : State) (u rec0 : Nat) (w : Bool) (rest : List (Nat × Bool × Nat)), bcUp s = true →
    s.mgmt.appends = (u, w, rec0) :: rest →
      let e := (u, w, entrySerial s u, rec0)
      let units := (s.withdrawn.filter (· != u)).map (fun v => (v, true, entrySerial s v, rec0))
      let y := setFlash s false (fun f => { f with store := storeAppend f.store e units })
      let y := updG (setFlash y true (fun f => { f with store := storeAppend f.store e units })) (fun m => { m with appends := rest })
      exec .withdrawalStoreAppend s = .next (logRecord y 0x5B uidDevice 0 (u + (if w then 1 else 2) * 65536)
        y.mgmt.flashA.store.length 0 0)) ∧
  (∀ (s : State) (x : Transport) (u : Uid) (seq : BitVec 8), served s x = true → isStateUnit u.toNat = true →
    s.getF (rUnitState u.toNat) UnitState.seq = seq.toNat → s.getF (rUnitState u.toNat) UnitState.state = usWithdrawn →
      exec (.reinstateRequest x u seq) s =
        .next (reply (updG s (fun m => { m with appends := m.appends ++ [(u.toNat, false, s.log.next - 1)] })) x (.done 0))) ∧
  (∀ (s : State) (c : Fin 16), bcUp s = true → stateOf s (mcUid c) = usFailed → restartAllowed s (mcUid c) = true →
    (getM s c).gone.length + (if (getM s c).spareOf.isEmpty then 0 else 1) <
      (getM s c).ranks.length + (getM s c).spareOf.length →
      exec (.channelRestart c) s = .next (setUnit (restartUnit s (mcUid c)) (mcUid c) usStarting 0x01))

/-- At a window boundary a block's counts are latched and restart. A sample or a trace record that its enables let through goes to its ring.
The test access port's instructions load; BYPASS, IDCODE, SAMPLE and PRELOAD at any time, the instructions that drive pins only while the
package is held at stage S2 or before. Base camp selects a signal to observe. -/
def Obligations.MonitorDebugCompletes : Prop :=
  (∀ (s : State) (u : Uid),
    let v := u.toNat
    (∀ k, unitKind v = .core k → atWindow s v (s.getR (rPmWin (v + 1))) = true → exec (.counterWindow u) s =
      .next (stampWindow (latchBlock s 8 (rPmCtr (v + 1)) (rPmLast (v + 1)) (rPmWin (v + 1))) v)) ∧
    (∀ k, unitKind v = .service k → atWindow s v (s.getR (rPmUwin (v + 2))) = true → exec (.counterWindow u) s =
      .next (stampWindow (latchBlock s 16 (rPmUctr (v + 2)) (rPmUlast (v + 2)) (rPmUwin (v + 2))) v)) ∧
    (∀ k, unitKind v = .mem k → atWindow s v (s.getR ((v + 2) * 0x100000 + 0xC0)) = true →
      exec (.counterWindow u) s = .next (stampWindow (latchFixed s v false) v)) ∧
    (∀ k, unitKind v = .io k → atWindow s v (s.getR ((v + 2) * 0x100000 + 0xC0)) = true →
      exec (.counterWindow u) s = .next (stampWindow (latchFixed s v true) v))) ∧
  (∀ (s : State) (t : Tid) (x : Sampled),
    let u := coreUid (coreOf s t) + 1
    let c := s.getR (rPmSampleCfg u)
    let w := s.getR (rPmSampleRing u)
    fldB c PmSampleCfg.en = true → threadSel s (fld c PmSampleCfg.thread) t = true → fldB w PmSampleRing.en = true →
    trusted s t = false → ringSecure s w 64 = false → fldB c PmSampleCfg.irq_en = false →
      exec (.sampleRecord t x) s = .next (ringAdd s (rPmSampleRing u) (rPmSamplePtr u) (sampleBytes s t x))) ∧
  (∀ (s : State) (t : Tid) (x : Traced),
    let c := s.getR (rDbgTraceCtrl (coreUid (coreOf s t) + 2))
    let w := s.getR rDbgTraceRing
    s.getB rDbgAccess DbgAccess.trace_en = true → fldB c DbgTraceCtrl.en = true →
    threadSel s (fld c DbgTraceCtrl.thread) t = true →
    s.getB rVltDbgEn (if trusted s t then VltDbgEn.sec_noninv else VltDbgEn.norm_noninv) = true →
    fldB w PmSampleRing.en = true → ringSecure s w 32 = false →
      exec (.traceRecord t x true) s = .next (ringAdd s rDbgTraceRing rDbgTracePtr (traceBytes s t x))) ∧
  (∀ (s : State),
    exec .tapBypass s = .next (tapLoad s .bypass) ∧
    exec .tapIdcode s = .next { tapLoad s .idcode with board := { s.board with tap := .idcode, tapOut := idcode s } } ∧
    (∀ pins, exec (.tapSample pins) s = .next { s with board := { s.board with tap := .sample, boundary := pins } }) ∧
    (∀ x : TapScan, exec (.tapPreload x) s = .next (
      let y := x.segs.foldl (fun s e => segWrite s e.1 e.2) (tapLoad s .preload)
      { y with board := { y.board with boundary := x.bits, drives := x.bits } })) ∧
    (∀ c ∈ ([(.tapExtest, .extest), (.tapClamp, .clamp), (.tapHighz, .highz), (.tapExtestPulse, .extestPulse),
        (.tapExtestTrain, .extestTrain)] : List (Instr × TapInstr)),
      (s.board.tapHold = true → exec c.1 s = .next (tapLoad s c.2)) ∧
      (s.board.tapHold = false → s.getF rBcBootStatus BcBootStatus.stage ≤ 2 → s.board.stopped = false →
        exec c.1 s = .next (tapLoad { s with board := { s.board with tapHold := true } } c.2)))) ∧
  (∀ (s : State) (k : Fin 32) (v : Word), s.getB rDbgAccess DbgAccess.obs_en = true →
    exec (.observeSelect .baseCamp k v) s = .next (s.putR (rDbgObsSel k) (v &&& 0xEFFF)))

/-- A recovery from a branch that was predicted is counted, and puts back the history and the return stack as its checkpoint kept them. A
bulk clear empties the predictors in scope and ends 20 ns later. A write of PRED_CTRL or a root keeps its writable bits and clears; while an
access of the thread is outstanding, or an earlier write of a root waits, a root waits for the instruction's end. A prefetch asks the home
for its line; a walk a capability of the thread reaches, that finds a mapping, sets its accessed bits and fills the translation cache. A
store that may go leaves the queue and is performed, a piece of its granularity at a time, once its lines' homes are open and idle. -/
def Obligations.SpeculationCompletes : Prop :=
  (∀ (s : State) (t : Tid) (b : PathOp) (path : List PathOp), atBoundary s t = true → wasPredicted s t b = true →
    exec (.mispredictRecovery ⟨t, b, path⟩) s = .next (pmEvent (updT (updC s (coreOf s t) (fun c => { c with lost := [] })) t (fun x => { x with
      pred := x.pred.restore ((b :: path.take (checkpoints s t - 1)).foldl (Pred.follow (returnSlots s t)) x.pred) })) t 0x04)) ∧
  (∀ (s : State) (t : Tid), (getT s t).clearing = true →
    exec (.bulkClear t) s = .next (
      let y := (clearScope s t).foldl (fun s u => updT s u (fun x => { x with pred := Pred.init })) s
      updC y (coreOf y t) (fun c => { c with dirs := [], targets := [], blocks := [], pages := [], clearEnd := y.time + 20 })) ∧
    ((getC s (coreOf s t)).clearEnd ≠ 0 → exec (.bulkClearDone t) s = .next (
      let y := (clearScope s t).foldl (fun s u => updT s u (fun x => { x with clearing := false })) s
      updC y (coreOf y t) (fun c => { c with clearEnd := 0 })))) ∧
  (∀ (s : State) (r : Requester) (t : Tid) (v : Word), notHost r = true → blockUp s uidBaseCamp = true →
    exec (.predClearWrite r t v) s = .next (clearWhen (s.putR (rBcPredCtrl t.val)
      (setFld (s.getR (rBcPredCtrl t.val)) ⟨3, 1⟩ (fld v ⟨3, 1⟩))) t (fldB v BcPredCtrl.clear)) ∧
    ((getT s t).hostWait = none → (getT s t).replay = [] → (getT s t).rootReq = [] →
      exec (.rootWrite r t false v) s = .next (startClear (s.putR (rBcXlatRoot1 t.val) (v &&& 0xFFFFFFFFFFFFFF03)) t) ∧
      exec (.rootWrite r t true v) s = .next (startClear (s.putR (rBcXlatRoot2 t.val) (v &&& 0xFFFFFFFFFFFFFF03)) t)) ∧
    (∀ b, ((getT s t).hostWait.isSome = true ∨ (getT s t).replay ≠ [] ∨ (getT s t).rootReq ≠ []) →
      exec (.rootWrite r t b v) s = .next (updT s t (fun x => { x with rootReq := x.rootReq ++ [(b, v)] })))) ∧
  (∀ (s : State) (t : Tid) (va : Word) (x : Xl) (w : Bool), coreRuns s t = true → xlat s (xctx s t) .load va.toNat = .ok ⟨x, none⟩ →
    prefetchable s x = true → (getC s (coreOf s t)).pages.contains (x.pa / 4096, w) = true →
    (w = false → (getC s (coreOf s t)).pages.contains (x.pa / 4096, true) = false) → lineOf s (coreOf s t) (x.pa / 64) = none →
    admits s (if w then .trusted else .normal) false x.pa = true →
    serving s (coreUid (coreOf s t)) = true → (getD s (sheafOfCore (coreOf s t))).paused = false →
    (getD s (sheafOfCore (coreOf s t))).stopped = false → mfind (getC s (coreOf s t)).misses (x.pa / 64) = none →
    homeUp s (x.pa / 64) = true →
      exec (.hardwarePrefetch t va) s = .next (toHome (updC s (coreOf s t) (fun c => { c with
        misses := mins c.misses (x.pa / 64) .prefetch })) ⟨.rdS, .core (coreOf s t), x.pa / 64, []⟩)) ∧
  (∀ (s y : State) (t : Tid) (va : Word) (x : Xl) (e : TlbEnt) (ws : List WalkEnt), coreRuns s t = true →
    capReaches s t false va.toNat 1 = true → usedEntry s t va.toNat = none → xlat s (xctxFor s t .load) .load va.toNat = .ok ⟨x, some (e, ws)⟩ →
    casLeaves (drainLeaves s t e) (.core (coreOf s t)) e Leaf.a = some y → exec (.pageWalk t va) s =
      .next (pmEvent (pmEvent (fillTlb (checkAddrs y t (ws.length + (e.at1.toList ++ e.at2.toList).length)) (coreOf s t) .load
        (e.withBit Leaf.a) ws) t 0x08 (some va.toNat)) t 0x09 (some va.toNat))) ∧
  (∀ (s : State) (t : Tid) (k : Nat) (e : StoreEnt), (getT s t).stores[k]? = some e → mayRelease (getT s t).stores k = true →
    serving s (coreUid (coreOf s t)) = true → sheafRuns s (coreOf s t) = true →
    let c := e.cut
    (∀ l ∈ linesOf c.1.span.1 c.1.span.2, lineIdle s l = true) →
      exec (.storeRelease t k) s = .next (performStore (setStores s t ((getT s t).stores.take k ++ c.2 ++
        (getT s t).stores.drop (k + 1))) t c.1 c.2.isEmpty))
end

