-- ==== Sys2Proof/Laws/Maps.lean ====
section
/-! SUPPORT. Sorted maps: what a key holds after a write or a removal, and that both keep the canonical form. -/

namespace Sys2Proof.Machine

section Reads
variable {β : Type}

@[simp] theorem mfind_mdel_same (m : SMap β) (k : Nat) : mfind (mdel m k) k = none := by
  induction m with
  | nil => rfl
  | cons e m ih =>
    obtain ⟨i, v⟩ := e
    by_cases h : k = i <;> simp [mdel, mfind, h] <;> simpa [h] using ih

theorem mfind_mdel_other (m : SMap β) {k j : Nat} (h : j ≠ k) : mfind (mdel m k) j = mfind m j := by
  induction m with
  | nil => rfl
  | cons e m ih =>
    obtain ⟨i, v⟩ := e
    by_cases hk : k = i
    · subst hk; simp [mdel, mfind, h, ih]
    · by_cases hj : j = i <;> simp [mdel, mfind, hk, hj, ih]

@[simp] theorem mfind_mins_same (m : SMap β) (k : Nat) (v : β) : mfind (mins m k v) k = some v := by
  induction m with
  | nil => simp [mins, mfind]
  | cons e m ih =>
    obtain ⟨i, w⟩ := e
    by_cases h : k = i
    · simp [mins, mfind, h]
    · by_cases h' : k < i <;> simp [mins, mfind, h, h', ih]

theorem mfind_mins_other (m : SMap β) {k j : Nat} (v : β) (h : j ≠ k) : mfind (mins m k v) j = mfind m j := by
  induction m with
  | nil => simp [mins, mfind, h]
  | cons e m ih =>
    obtain ⟨i, w⟩ := e
    by_cases hk : k = i
    · subst hk; simp [mins, mfind, h]
    · by_cases hl : k < i
      · simp [mins, mfind, hk, hl, h]
      · by_cases hj : j = i <;> simp [mins, mfind, hk, hl, hj, ih]

variable [DecidableEq β]

/-- A key written holds what was written. -/
@[simp] theorem mget_mput_same (d : β) (m : SMap β) (k : Nat) (v : β) : mget d (mput d m k v) k = v := by
  by_cases h : v = d <;> simp [mget, mput, h]

/-- A key not written holds what it held. -/
theorem mget_mput_other (d d' : β) (m : SMap β) {k j : Nat} (v : β) (h : j ≠ k) :
    mget d (mput d' m k v) j = mget d m j := by
  by_cases hv : v = d' <;> simp [mget, mput, hv, mfind_mdel_other m h, mfind_mins_other m v h]

end Reads

section Form
variable {β : Type}

/-- Every key lies above `lo`. -/
theorem mrising_some_none {lo : Nat} {m : SMap β} (h : mrising (some lo) m = true) : mrising none m = true := by
  cases m with
  | nil => rfl
  | cons e m => obtain ⟨k, v⟩ := e; simp only [mrising, Bool.and_eq_true] at h; exact h.2

theorem mrising_weaken {a b : Nat} {m : SMap β} (hab : a ≤ b) (h : mrising (some b) m = true) :
    mrising (some a) m = true := by
  cases m with
  | nil => rfl
  | cons e m =>
    obtain ⟨k, v⟩ := e
    simp only [mrising, Bool.and_eq_true, decide_eq_true_eq] at h ⊢
    exact ⟨by omega, h.2⟩

theorem mrising_mdel {lo : Nat} {m : SMap β} (k : Nat) (h : mrising (some lo) m = true) :
    mrising (some lo) (mdel m k) = true := by
  induction m generalizing lo with
  | nil => rfl
  | cons e m ih =>
    obtain ⟨i, v⟩ := e
    simp only [mrising, Bool.and_eq_true, decide_eq_true_eq] at h
    by_cases hk : k = i
    · simp only [mdel, hk, if_true]; exact hk ▸ mrising_weaken (by omega) (ih h.2)
    · simp only [mdel, if_neg hk, mrising, Bool.and_eq_true, decide_eq_true_eq]; exact ⟨h.1, ih h.2⟩

theorem mrising_mins {lo : Nat} {m : SMap β} (k : Nat) (v : β) (hk : lo < k) (h : mrising (some lo) m = true) :
    mrising (some lo) (mins m k v) = true := by
  induction m generalizing lo with
  | nil => simpa [mins, mrising] using hk
  | cons e m ih =>
    obtain ⟨i, w⟩ := e
    simp only [mrising, Bool.and_eq_true, decide_eq_true_eq] at h
    by_cases h1 : k = i
    · simp [mins, h1, mrising, h.1, h.2]
    · by_cases h2 : k < i
      · simp [mins, h1, h2, mrising, hk, h.2]
      · simp [mins, h1, h2, mrising, h.1, ih (by omega) h.2]

theorem mrising_none_mdel {m : SMap β} (k : Nat) (h : mrising none m = true) : mrising none (mdel m k) = true := by
  cases m with
  | nil => rfl
  | cons e m =>
    obtain ⟨i, v⟩ := e
    simp only [mrising] at h
    by_cases hk : k = i
    · simp only [mdel, hk, if_true]; exact mrising_some_none (mrising_mdel _ h)
    · simp only [mdel, if_neg hk, mrising]; exact mrising_mdel k h

theorem mrising_none_mins {m : SMap β} (k : Nat) (v : β) (h : mrising none m = true) :
    mrising none (mins m k v) = true := by
  cases m with
  | nil => rfl
  | cons e m =>
    obtain ⟨i, w⟩ := e
    simp only [mrising] at h
    by_cases h1 : k = i
    · simpa [mins, h1, mrising] using h
    · by_cases h2 : k < i
      · simpa [mins, h1, h2, mrising] using h
      · simpa [mins, h1, h2, mrising] using mrising_mins k v (by omega) h

theorem mrising_filter {lo : Nat} {m : SMap β} (p : Nat × β → Bool) (h : mrising (some lo) m = true) :
    mrising (some lo) (m.filter p) = true := by
  induction m generalizing lo with
  | nil => rfl
  | cons e m ih =>
    obtain ⟨i, v⟩ := e
    simp only [mrising, Bool.and_eq_true, decide_eq_true_eq] at h
    by_cases hp : p (i, v) = true
    · rw [List.filter_cons_of_pos hp]; simp [mrising, h.1, ih h.2]
    · rw [List.filter_cons_of_neg hp]; exact mrising_weaken (by omega) (ih h.2)

theorem mrising_none_filter {m : SMap β} (p : Nat × β → Bool) (h : mrising none m = true) :
    mrising none (m.filter p) = true := by
  cases m with
  | nil => rfl
  | cons e m =>
    obtain ⟨i, v⟩ := e
    simp only [mrising] at h
    by_cases hp : p (i, v) = true
    · rw [List.filter_cons_of_pos hp]; simpa [mrising] using mrising_filter p h
    · rw [List.filter_cons_of_neg hp]; exact mrising_some_none (mrising_filter p h)

theorem mem_mdel {m : SMap β} {k : Nat} {e : Nat × β} (h : e ∈ mdel m k) : e ∈ m := by
  induction m with
  | nil => exact h
  | cons e' m ih =>
    obtain ⟨i, v⟩ := e'
    by_cases hk : k = i
    · simp only [mdel, if_pos hk] at h; exact List.mem_cons_of_mem _ (ih h)
    · simp only [mdel, if_neg hk, List.mem_cons] at h ⊢; exact h.imp id ih

theorem mem_mins {m : SMap β} {k : Nat} {v : β} {e : Nat × β} (h : e ∈ mins m k v) : e = (k, v) ∨ e ∈ m := by
  induction m with
  | nil => simpa [mins] using h
  | cons e' m ih =>
    obtain ⟨i, w⟩ := e'
    by_cases h1 : k = i
    · simp only [mins, if_pos h1, List.mem_cons] at h ⊢
      rcases h with h | h
      · exact .inl (by rw [h, h1])
      · exact .inr (.inr h)
    · by_cases h2 : k < i
      · simpa [mins, h1, h2] using h
      · simp only [mins, if_neg h1, if_neg h2, List.mem_cons] at h ⊢
        rcases h with h | h
        · exact .inr (.inl h)
        · exact (ih h).imp id .inr

variable [DecidableEq β]

theorem mwf_mdel {d : Nat → β} {m : SMap β} (k : Nat) (h : mwf d m = true) : mwf d (mdel m k) = true := by
  simp only [mwf, Bool.and_eq_true, List.all_eq_true] at h ⊢
  exact ⟨mrising_none_mdel k h.1, fun e he => h.2 e (mem_mdel he)⟩

/-- A write keeps the canonical form. -/
theorem mwf_mput {d : Nat → β} {m : SMap β} (k : Nat) (v : β) (h : mwf d m = true) : mwf d (mput (d k) m k v) = true := by
  by_cases hv : v = d k
  · simpa [mput, hv] using mwf_mdel k h
  · simp only [mput, if_neg hv]
    simp only [mwf, Bool.and_eq_true, List.all_eq_true, decide_eq_true_eq] at h ⊢
    refine ⟨mrising_none_mins k v h.1, fun e he => ?_⟩
    rcases mem_mins he with rfl | he
    · exact hv
    · exact h.2 e he

theorem mwf_filter {d : Nat → β} {m : SMap β} (p : Nat × β → Bool) (h : mwf d m = true) : mwf d (m.filter p) = true := by
  simp only [mwf, Bool.and_eq_true, List.all_eq_true] at h ⊢
  exact ⟨mrising_none_filter p h.1, fun e he => h.2 e (List.mem_of_mem_filter he)⟩

end Form

end Sys2Proof.Machine
end

