-- ==== Sys2Proof/Laws/Reads.lean ====
section
/-! SUPPORT. What a register, a field, a thread, a core, a port or a channel reads as after each is written. -/

namespace Sys2Proof.Machine

/-! ### Registers -/

@[simp] theorem getR_putR_same (s : State) (a : Nat) (v : Word) : (s.putR a v).getR a = v := by
  by_cases h : v = resetVal a <;> simp [State.getR, State.putR, mput, h]

theorem getR_putR_other (s : State) {a b : Nat} (v : Word) (h : b ≠ a) : (s.putR a v).getR b = s.getR b := by
  by_cases hv : v = resetVal a <;> simp [State.getR, State.putR, mput, hv, mfind_mdel_other _ h, mfind_mins_other _ v h]

@[simp] theorem getR_resetR_same (s : State) (a : Nat) : (s.resetR a).getR a = resetVal a := by
  simp [State.getR, State.resetR]

theorem getR_resetR_other (s : State) {a b : Nat} (h : b ≠ a) : (s.resetR a).getR b = s.getR b := by
  simp [State.getR, State.resetR, mfind_mdel_other _ h]

/-- A register reads the same in states whose register contents are the same. -/
theorem getR_congr {s t : State} (h : t.regs = s.regs) (a : Nat) : t.getR a = s.getR a := by
  simp only [State.getR, h]

theorem getF_putR_other (s : State) {a b : Nat} (v : Word) (f : Fld) (h : b ≠ a) : (s.putR a v).getF b f = s.getF b f := by
  simp only [State.getF, getR_putR_other s v h]

theorem getF_congr {s t : State} (h : t.regs = s.regs) (a : Nat) (f : Fld) : t.getF a f = s.getF a f := by
  simp only [State.getF, getR_congr h]

theorem getB_congr {s t : State} (h : t.regs = s.regs) (a : Nat) (f : Fld) : t.getB a f = s.getB a f := by
  simp only [State.getB, getF_congr h]

/-! ### Fields -/

theorem fld_testBit (w : Word) (f : Fld) (i : Nat) :
    (fld w f).testBit i = (decide (i < f.width) && w.getLsbD (f.lo + i)) := by
  simp [fld, Nat.testBit_mod_two_pow, Nat.testBit_shiftRight, BitVec.testBit_toNat]

theorem setFld_getLsbD (w : Word) (f : Fld) (n i : Nat) (hi : i < 64) :
    (setFld w f n).getLsbD i =
      if f.lo ≤ i ∧ i - f.lo < f.width then n.testBit (i - f.lo) else w.getLsbD i := by
  simp only [setFld, BitVec.getLsbD_or, BitVec.getLsbD_and, BitVec.getLsbD_not, BitVec.getLsbD_ofNat, hi, decide_true,
    Bool.true_and, Nat.testBit_shiftLeft, Nat.testBit_two_pow_sub_one, Nat.testBit_mod_two_pow]
  by_cases h1 : f.lo ≤ i <;> by_cases h2 : i - f.lo < f.width <;> simp [h1, h2]

/-- A field set reads as what was set, cut to its width. -/
theorem fld_setFld_same (w : Word) (f : Fld) (n : Nat) (h : f.lo + f.width ≤ 64) : fld (setFld w f n) f = n % 2 ^ f.width := by
  apply Nat.eq_of_testBit_eq
  intro i
  rw [fld_testBit, Nat.testBit_mod_two_pow]
  by_cases hi : i < f.width
  · rw [setFld_getLsbD _ _ _ _ (by omega)]; simp [hi]
  · simp [hi]

/-- A field apart from the one set reads as it did. -/
theorem fld_setFld_other (w : Word) (f g : Fld) (n : Nat) (h : g.lo + g.width ≤ f.lo ∨ f.lo + f.width ≤ g.lo) :
    fld (setFld w f n) g = fld w g := by
  apply Nat.eq_of_testBit_eq
  intro i
  rw [fld_testBit, fld_testBit]
  by_cases hi : i < g.width
  · by_cases h6 : g.lo + i < 64
    · rw [setFld_getLsbD _ _ _ _ h6, if_neg (by omega)]
    · simp [BitVec.getLsbD_of_ge _ _ (Nat.le_of_not_lt h6)]
  · simp [hi]

theorem getF_putF_same (s : State) (a : Nat) (f : Fld) (n : Nat) (h : f.lo + f.width ≤ 64) :
    (s.putF a f n).getF a f = n % 2 ^ f.width := by
  simp only [State.getF, State.putF, getR_putR_same, fld_setFld_same _ _ _ h]

theorem getF_putF_other (s : State) {a b : Nat} (f g : Fld) (n : Nat)
    (h : b ≠ a ∨ g.lo + g.width ≤ f.lo ∨ f.lo + f.width ≤ g.lo) : (s.putF a f n).getF b g = s.getF b g := by
  by_cases hb : b = a
  · subst hb
    simp only [State.getF, State.putF, getR_putR_same, fld_setFld_other _ _ _ _ (h.resolve_left (by simp))]
  · exact getF_putR_other _ _ _ hb

/-! ### Threads, cores, ports, channels -/

@[simp] theorem getT_putT_same (s : State) (t : Tid) (x : Thread) : getT (putT s t x) t = x := by simp [getT, putT]

theorem getT_putT_other (s : State) {t u : Tid} (x : Thread) (h : u ≠ t) : getT (putT s t x) u = getT s u := by
  simp only [getT, putT]; exact mget_mput_other _ _ _ _ (fun e => h (Fin.ext e))

@[simp] theorem getT_updT_same (s : State) (t : Tid) (f : Thread → Thread) : getT (updT s t f) t = f (getT s t) := by
  simp [updT]

theorem getT_updT_other (s : State) {t u : Tid} (f : Thread → Thread) (h : u ≠ t) : getT (updT s t f) u = getT s u := by
  simp [updT, getT_putT_other _ _ h]

theorem getT_congr {s t : State} (h : t.threads = s.threads) (u : Tid) : getT t u = getT s u := by simp only [getT, h]

@[simp] theorem getC_putC_same (s : State) (k : Nat) (x : Core) : getC (putC s k x) k = x := by simp [getC, putC]

theorem getC_putC_other (s : State) {k j : Nat} (x : Core) (h : j ≠ k) : getC (putC s k x) j = getC s j := by
  simp only [getC, putC]; exact mget_mput_other _ _ _ _ h

@[simp] theorem getC_updC_same (s : State) (k : Nat) (f : Core → Core) : getC (updC s k f) k = f (getC s k) := by
  simp [updC]

theorem getC_congr {s t : State} (h : t.cores = s.cores) (k : Nat) : getC t k = getC s k := by simp only [getC, h]

@[simp] theorem getP_putP_same (s : State) (p : Nat) (x : Port) : getP (putP s p x) p = x := by simp [getP, putP]

theorem getP_putP_other (s : State) {p q : Nat} (x : Port) (h : q ≠ p) : getP (putP s p x) q = getP s q := by
  simp only [getP, putP]; exact mget_mput_other _ _ _ _ h

@[simp] theorem getCh_putCh_same (s : State) (g : Nat) (c : Chan) : getCh (putCh s g c) g = c := by simp [getCh, putCh]

theorem getCh_putCh_other (s : State) {g k : Nat} (c : Chan) (h : k ≠ g) : getCh (putCh s g c) k = getCh s k := by
  simp only [getCh, putCh]; exact mget_mput_other _ _ _ _ h

@[simp] theorem getCh_updCh_same (s : State) (g : Nat) (f : Chan → Chan) : getCh (updCh s g f) g = f (getCh s g) := by
  simp [updCh]

/-! ### Bytes and tags -/

theorem readTag_setTag_same (s : State) (pa : Nat) (b : Bool) : readTag (setTag s pa b) pa = b := by simp [readTag, setTag]

theorem readTag_setTag_other (s : State) {pa qa : Nat} (b : Bool) (h : qa / 16 ≠ pa / 16) :
    readTag (setTag s pa b) qa = readTag s qa := by
  simp only [readTag, setTag]; exact mget_mput_other _ _ _ _ h

theorem readByte_congr {s t : State} (h : t.mem = s.mem) (a : Nat) : readByte t a = readByte s a := by
  simp only [readByte, h]

end Sys2Proof.Machine
end

