-- ==== Sys2Proof/Laws/State.lean ====
section
/-! SUPPORT. What each named update leaves as it was, field by field. -/

namespace Sys2Proof.Machine

@[simp] theorem State.putR_pending (s : State) (a : Nat) (v : Word) : (s.putR a v).pending = s.pending := by dsimp only [State.putR]
@[simp] theorem State.putR_time (s : State) (a : Nat) (v : Word) : (s.putR a v).time = s.time := by dsimp only [State.putR]
@[simp] theorem State.putR_tb (s : State) (a : Nat) (v : Word) : (s.putR a v).tb = s.tb := by dsimp only [State.putR]
@[simp] theorem State.putR_mem (s : State) (a : Nat) (v : Word) : (s.putR a v).mem = s.mem := by dsimp only [State.putR]
@[simp] theorem State.putR_tags (s : State) (a : Nat) (v : Word) : (s.putR a v).tags = s.tags := by dsimp only [State.putR]
@[simp] theorem State.putR_poison (s : State) (a : Nat) (v : Word) : (s.putR a v).poison = s.poison := by dsimp only [State.putR]
@[simp] theorem State.putR_hostMem (s : State) (a : Nat) (v : Word) : (s.putR a v).hostMem = s.hostMem := by dsimp only [State.putR]
@[simp] theorem State.putR_threads (s : State) (a : Nat) (v : Word) : (s.putR a v).threads = s.threads := by dsimp only [State.putR]
@[simp] theorem State.putR_cores (s : State) (a : Nat) (v : Word) : (s.putR a v).cores = s.cores := by dsimp only [State.putR]
@[simp] theorem State.putR_doms (s : State) (a : Nat) (v : Word) : (s.putR a v).doms = s.doms := by dsimp only [State.putR]
@[simp] theorem State.putR_ports (s : State) (a : Nat) (v : Word) : (s.putR a v).ports = s.ports := by dsimp only [State.putR]
@[simp] theorem State.putR_log (s : State) (a : Nat) (v : Word) : (s.putR a v).log = s.log := by dsimp only [State.putR]
@[simp] theorem State.putR_irqMsgs (s : State) (a : Nat) (v : Word) : (s.putR a v).irqMsgs = s.irqMsgs := by dsimp only [State.putR]
@[simp] theorem State.putR_stateMsgs (s : State) (a : Nat) (v : Word) : (s.putR a v).stateMsgs = s.stateMsgs := by dsimp only [State.putR]
@[simp] theorem State.putR_bcTable (s : State) (a : Nat) (v : Word) : (s.putR a v).bcTable = s.bcTable := by dsimp only [State.putR]
@[simp] theorem State.putR_withdrawn (s : State) (a : Nat) (v : Word) : (s.putR a v).withdrawn = s.withdrawn := by dsimp only [State.putR]
@[simp] theorem State.putR_cxlLost (s : State) (a : Nat) (v : Word) : (s.putR a v).cxlLost = s.cxlLost := by dsimp only [State.putR]
@[simp] theorem State.putR_cxlUp (s : State) (a : Nat) (v : Word) : (s.putR a v).cxlUp = s.cxlUp := by dsimp only [State.putR]
@[simp] theorem State.putR_mgmt (s : State) (a : Nat) (v : Word) : (s.putR a v).mgmt = s.mgmt := by dsimp only [State.putR]
@[simp] theorem State.putR_board (s : State) (a : Nat) (v : Word) : (s.putR a v).board = s.board := by dsimp only [State.putR]
@[simp] theorem State.putR_vault (s : State) (a : Nat) (v : Word) : (s.putR a v).vault = s.vault := by dsimp only [State.putR]
@[simp] theorem State.putR_fuses (s : State) (a : Nat) (v : Word) : (s.putR a v).fuses = s.fuses := by dsimp only [State.putR]
@[simp] theorem State.putR_dimms (s : State) (a : Nat) (v : Word) : (s.putR a v).dimms = s.dimms := by dsimp only [State.putR]
@[simp] theorem State.putR_dir (s : State) (a : Nat) (v : Word) : (s.putR a v).dir = s.dir := by dsimp only [State.putR]
@[simp] theorem State.putR_dup (s : State) (a : Nat) (v : Word) : (s.putR a v).dup = s.dup := by dsimp only [State.putR]
@[simp] theorem State.putR_l3 (s : State) (a : Nat) (v : Word) : (s.putR a v).l3 = s.l3 := by dsimp only [State.putR]
@[simp] theorem State.putR_txns (s : State) (a : Nat) (v : Word) : (s.putR a v).txns = s.txns := by dsimp only [State.putR]
@[simp] theorem State.putR_homeQ (s : State) (a : Nat) (v : Word) : (s.putR a v).homeQ = s.homeQ := by dsimp only [State.putR]
@[simp] theorem State.putR_heldReqs (s : State) (a : Nat) (v : Word) : (s.putR a v).heldReqs = s.heldReqs := by dsimp only [State.putR]
@[simp] theorem State.putR_fwd (s : State) (a : Nat) (v : Word) : (s.putR a v).fwd = s.fwd := by dsimp only [State.putR]
@[simp] theorem State.putR_rsp (s : State) (a : Nat) (v : Word) : (s.putR a v).rsp = s.rsp := by dsimp only [State.putR]
@[simp] theorem State.putR_sparings (s : State) (a : Nat) (v : Word) : (s.putR a v).sparings = s.sparings := by dsimp only [State.putR]
@[simp] theorem State.putR_retires (s : State) (a : Nat) (v : Word) : (s.putR a v).retires = s.retires := by dsimp only [State.putR]
@[simp] theorem State.putR_subCopy (s : State) (a : Nat) (v : Word) : (s.putR a v).subCopy = s.subCopy := by dsimp only [State.putR]
@[simp] theorem State.putR_scratchNew (s : State) (a : Nat) (v : Word) : (s.putR a v).scratchNew = s.scratchNew := by dsimp only [State.putR]
@[simp] theorem State.putR_fabric (s : State) (a : Nat) (v : Word) : (s.putR a v).fabric = s.fabric := by dsimp only [State.putR]
@[simp] theorem State.putR_mcs (s : State) (a : Nat) (v : Word) : (s.putR a v).mcs = s.mcs := by dsimp only [State.putR]
@[simp] theorem State.putR_irqDiscards (s : State) (a : Nat) (v : Word) : (s.putR a v).irqDiscards = s.irqDiscards := by dsimp only [State.putR]
@[simp] theorem State.putR_pmTrusted (s : State) (a : Nat) (v : Word) : (s.putR a v).pmTrusted = s.pmTrusted := by dsimp only [State.putR]
@[simp] theorem State.putR_engXlat (s : State) (a : Nat) (v : Word) : (s.putR a v).engXlat = s.engXlat := by dsimp only [State.putR]
@[simp] theorem State.putR_chans (s : State) (a : Nat) (v : Word) : (s.putR a v).chans = s.chans := by dsimp only [State.putR]
@[simp] theorem State.putR_sqOrder (s : State) (a : Nat) (v : Word) : (s.putR a v).sqOrder = s.sqOrder := by dsimp only [State.putR]
@[simp] theorem State.putR_ucode (s : State) (a : Nat) (v : Word) : (s.putR a v).ucode = s.ucode := by dsimp only [State.putR]
@[simp] theorem State.putR_bridge (s : State) (a : Nat) (v : Word) : (s.putR a v).bridge = s.bridge := by dsimp only [State.putR]
@[simp] theorem State.putR_bw (s : State) (a : Nat) (v : Word) : (s.putR a v).bw = s.bw := by dsimp only [State.putR]
@[simp] theorem State.putR_pmAt (s : State) (a : Nat) (v : Word) : (s.putR a v).pmAt = s.pmAt := by dsimp only [State.putR]

@[simp] theorem State.resetR_pending (s : State) (a : Nat) : (s.resetR a).pending = s.pending := by dsimp only [State.resetR]
@[simp] theorem State.resetR_time (s : State) (a : Nat) : (s.resetR a).time = s.time := by dsimp only [State.resetR]
@[simp] theorem State.resetR_tb (s : State) (a : Nat) : (s.resetR a).tb = s.tb := by dsimp only [State.resetR]
@[simp] theorem State.resetR_mem (s : State) (a : Nat) : (s.resetR a).mem = s.mem := by dsimp only [State.resetR]
@[simp] theorem State.resetR_tags (s : State) (a : Nat) : (s.resetR a).tags = s.tags := by dsimp only [State.resetR]
@[simp] theorem State.resetR_poison (s : State) (a : Nat) : (s.resetR a).poison = s.poison := by dsimp only [State.resetR]
@[simp] theorem State.resetR_hostMem (s : State) (a : Nat) : (s.resetR a).hostMem = s.hostMem := by dsimp only [State.resetR]
@[simp] theorem State.resetR_threads (s : State) (a : Nat) : (s.resetR a).threads = s.threads := by dsimp only [State.resetR]
@[simp] theorem State.resetR_cores (s : State) (a : Nat) : (s.resetR a).cores = s.cores := by dsimp only [State.resetR]
@[simp] theorem State.resetR_doms (s : State) (a : Nat) : (s.resetR a).doms = s.doms := by dsimp only [State.resetR]
@[simp] theorem State.resetR_ports (s : State) (a : Nat) : (s.resetR a).ports = s.ports := by dsimp only [State.resetR]
@[simp] theorem State.resetR_log (s : State) (a : Nat) : (s.resetR a).log = s.log := by dsimp only [State.resetR]
@[simp] theorem State.resetR_irqMsgs (s : State) (a : Nat) : (s.resetR a).irqMsgs = s.irqMsgs := by dsimp only [State.resetR]
@[simp] theorem State.resetR_stateMsgs (s : State) (a : Nat) : (s.resetR a).stateMsgs = s.stateMsgs := by dsimp only [State.resetR]
@[simp] theorem State.resetR_bcTable (s : State) (a : Nat) : (s.resetR a).bcTable = s.bcTable := by dsimp only [State.resetR]
@[simp] theorem State.resetR_withdrawn (s : State) (a : Nat) : (s.resetR a).withdrawn = s.withdrawn := by dsimp only [State.resetR]
@[simp] theorem State.resetR_cxlLost (s : State) (a : Nat) : (s.resetR a).cxlLost = s.cxlLost := by dsimp only [State.resetR]
@[simp] theorem State.resetR_cxlUp (s : State) (a : Nat) : (s.resetR a).cxlUp = s.cxlUp := by dsimp only [State.resetR]
@[simp] theorem State.resetR_mgmt (s : State) (a : Nat) : (s.resetR a).mgmt = s.mgmt := by dsimp only [State.resetR]
@[simp] theorem State.resetR_board (s : State) (a : Nat) : (s.resetR a).board = s.board := by dsimp only [State.resetR]
@[simp] theorem State.resetR_vault (s : State) (a : Nat) : (s.resetR a).vault = s.vault := by dsimp only [State.resetR]
@[simp] theorem State.resetR_fuses (s : State) (a : Nat) : (s.resetR a).fuses = s.fuses := by dsimp only [State.resetR]
@[simp] theorem State.resetR_dimms (s : State) (a : Nat) : (s.resetR a).dimms = s.dimms := by dsimp only [State.resetR]
@[simp] theorem State.resetR_dir (s : State) (a : Nat) : (s.resetR a).dir = s.dir := by dsimp only [State.resetR]
@[simp] theorem State.resetR_dup (s : State) (a : Nat) : (s.resetR a).dup = s.dup := by dsimp only [State.resetR]
@[simp] theorem State.resetR_l3 (s : State) (a : Nat) : (s.resetR a).l3 = s.l3 := by dsimp only [State.resetR]
@[simp] theorem State.resetR_txns (s : State) (a : Nat) : (s.resetR a).txns = s.txns := by dsimp only [State.resetR]
@[simp] theorem State.resetR_homeQ (s : State) (a : Nat) : (s.resetR a).homeQ = s.homeQ := by dsimp only [State.resetR]
@[simp] theorem State.resetR_heldReqs (s : State) (a : Nat) : (s.resetR a).heldReqs = s.heldReqs := by dsimp only [State.resetR]
@[simp] theorem State.resetR_fwd (s : State) (a : Nat) : (s.resetR a).fwd = s.fwd := by dsimp only [State.resetR]
@[simp] theorem State.resetR_rsp (s : State) (a : Nat) : (s.resetR a).rsp = s.rsp := by dsimp only [State.resetR]
@[simp] theorem State.resetR_sparings (s : State) (a : Nat) : (s.resetR a).sparings = s.sparings := by dsimp only [State.resetR]
@[simp] theorem State.resetR_retires (s : State) (a : Nat) : (s.resetR a).retires = s.retires := by dsimp only [State.resetR]
@[simp] theorem State.resetR_subCopy (s : State) (a : Nat) : (s.resetR a).subCopy = s.subCopy := by dsimp only [State.resetR]
@[simp] theorem State.resetR_scratchNew (s : State) (a : Nat) : (s.resetR a).scratchNew = s.scratchNew := by dsimp only [State.resetR]
@[simp] theorem State.resetR_fabric (s : State) (a : Nat) : (s.resetR a).fabric = s.fabric := by dsimp only [State.resetR]
@[simp] theorem State.resetR_mcs (s : State) (a : Nat) : (s.resetR a).mcs = s.mcs := by dsimp only [State.resetR]
@[simp] theorem State.resetR_irqDiscards (s : State) (a : Nat) : (s.resetR a).irqDiscards = s.irqDiscards := by dsimp only [State.resetR]
@[simp] theorem State.resetR_pmTrusted (s : State) (a : Nat) : (s.resetR a).pmTrusted = s.pmTrusted := by dsimp only [State.resetR]
@[simp] theorem State.resetR_engXlat (s : State) (a : Nat) : (s.resetR a).engXlat = s.engXlat := by dsimp only [State.resetR]
@[simp] theorem State.resetR_chans (s : State) (a : Nat) : (s.resetR a).chans = s.chans := by dsimp only [State.resetR]
@[simp] theorem State.resetR_sqOrder (s : State) (a : Nat) : (s.resetR a).sqOrder = s.sqOrder := by dsimp only [State.resetR]
@[simp] theorem State.resetR_ucode (s : State) (a : Nat) : (s.resetR a).ucode = s.ucode := by dsimp only [State.resetR]
@[simp] theorem State.resetR_bridge (s : State) (a : Nat) : (s.resetR a).bridge = s.bridge := by dsimp only [State.resetR]
@[simp] theorem State.resetR_bw (s : State) (a : Nat) : (s.resetR a).bw = s.bw := by dsimp only [State.resetR]
@[simp] theorem State.resetR_pmAt (s : State) (a : Nat) : (s.resetR a).pmAt = s.pmAt := by dsimp only [State.resetR]

@[simp] theorem State.putF_pending (s : State) (a : Nat) (f : Fld) (n : Nat) : (s.putF a f n).pending = s.pending := by simp only [State.putF, State.putR_pending]
@[simp] theorem State.putF_time (s : State) (a : Nat) (f : Fld) (n : Nat) : (s.putF a f n).time = s.time := by simp only [State.putF, State.putR_time]
@[simp] theorem State.putF_tb (s : State) (a : Nat) (f : Fld) (n : Nat) : (s.putF a f n).tb = s.tb := by simp only [State.putF, State.putR_tb]
@[simp] theorem State.putF_mem (s : State) (a : Nat) (f : Fld) (n : Nat) : (s.putF a f n).mem = s.mem := by simp only [State.putF, State.putR_mem]
@[simp] theorem State.putF_tags (s : State) (a : Nat) (f : Fld) (n : Nat) : (s.putF a f n).tags = s.tags := by simp only [State.putF, State.putR_tags]
@[simp] theorem State.putF_poison (s : State) (a : Nat) (f : Fld) (n : Nat) : (s.putF a f n).poison = s.poison := by simp only [State.putF, State.putR_poison]
@[simp] theorem State.putF_hostMem (s : State) (a : Nat) (f : Fld) (n : Nat) : (s.putF a f n).hostMem = s.hostMem := by simp only [State.putF, State.putR_hostMem]
@[simp] theorem State.putF_threads (s : State) (a : Nat) (f : Fld) (n : Nat) : (s.putF a f n).threads = s.threads := by simp only [State.putF, State.putR_threads]
@[simp] theorem State.putF_cores (s : State) (a : Nat) (f : Fld) (n : Nat) : (s.putF a f n).cores = s.cores := by simp only [State.putF, State.putR_cores]
@[simp] theorem State.putF_doms (s : State) (a : Nat) (f : Fld) (n : Nat) : (s.putF a f n).doms = s.doms := by simp only [State.putF, State.putR_doms]
@[simp] theorem State.putF_ports (s : State) (a : Nat) (f : Fld) (n : Nat) : (s.putF a f n).ports = s.ports := by simp only [State.putF, State.putR_ports]
@[simp] theorem State.putF_log (s : State) (a : Nat) (f : Fld) (n : Nat) : (s.putF a f n).log = s.log := by simp only [State.putF, State.putR_log]
@[simp] theorem State.putF_irqMsgs (s : State) (a : Nat) (f : Fld) (n : Nat) : (s.putF a f n).irqMsgs = s.irqMsgs := by simp only [State.putF, State.putR_irqMsgs]
@[simp] theorem State.putF_stateMsgs (s : State) (a : Nat) (f : Fld) (n : Nat) : (s.putF a f n).stateMsgs = s.stateMsgs := by simp only [State.putF, State.putR_stateMsgs]
@[simp] theorem State.putF_bcTable (s : State) (a : Nat) (f : Fld) (n : Nat) : (s.putF a f n).bcTable = s.bcTable := by simp only [State.putF, State.putR_bcTable]
@[simp] theorem State.putF_withdrawn (s : State) (a : Nat) (f : Fld) (n : Nat) : (s.putF a f n).withdrawn = s.withdrawn := by simp only [State.putF, State.putR_withdrawn]
@[simp] theorem State.putF_cxlLost (s : State) (a : Nat) (f : Fld) (n : Nat) : (s.putF a f n).cxlLost = s.cxlLost := by simp only [State.putF, State.putR_cxlLost]
@[simp] theorem State.putF_cxlUp (s : State) (a : Nat) (f : Fld) (n : Nat) : (s.putF a f n).cxlUp = s.cxlUp := by simp only [State.putF, State.putR_cxlUp]
@[simp] theorem State.putF_mgmt (s : State) (a : Nat) (f : Fld) (n : Nat) : (s.putF a f n).mgmt = s.mgmt := by simp only [State.putF, State.putR_mgmt]
@[simp] theorem State.putF_board (s : State) (a : Nat) (f : Fld) (n : Nat) : (s.putF a f n).board = s.board := by simp only [State.putF, State.putR_board]
@[simp] theorem State.putF_vault (s : State) (a : Nat) (f : Fld) (n : Nat) : (s.putF a f n).vault = s.vault := by simp only [State.putF, State.putR_vault]
@[simp] theorem State.putF_fuses (s : State) (a : Nat) (f : Fld) (n : Nat) : (s.putF a f n).fuses = s.fuses := by simp only [State.putF, State.putR_fuses]
@[simp] theorem State.putF_dimms (s : State) (a : Nat) (f : Fld) (n : Nat) : (s.putF a f n).dimms = s.dimms := by simp only [State.putF, State.putR_dimms]
@[simp] theorem State.putF_dir (s : State) (a : Nat) (f : Fld) (n : Nat) : (s.putF a f n).dir = s.dir := by simp only [State.putF, State.putR_dir]
@[simp] theorem State.putF_dup (s : State) (a : Nat) (f : Fld) (n : Nat) : (s.putF a f n).dup = s.dup := by simp only [State.putF, State.putR_dup]
@[simp] theorem State.putF_l3 (s : State) (a : Nat) (f : Fld) (n : Nat) : (s.putF a f n).l3 = s.l3 := by simp only [State.putF, State.putR_l3]
@[simp] theorem State.putF_txns (s : State) (a : Nat) (f : Fld) (n : Nat) : (s.putF a f n).txns = s.txns := by simp only [State.putF, State.putR_txns]
@[simp] theorem State.putF_homeQ (s : State) (a : Nat) (f : Fld) (n : Nat) : (s.putF a f n).homeQ = s.homeQ := by simp only [State.putF, State.putR_homeQ]
@[simp] theorem State.putF_heldReqs (s : State) (a : Nat) (f : Fld) (n : Nat) : (s.putF a f n).heldReqs = s.heldReqs := by simp only [State.putF, State.putR_heldReqs]
@[simp] theorem State.putF_fwd (s : State) (a : Nat) (f : Fld) (n : Nat) : (s.putF a f n).fwd = s.fwd := by simp only [State.putF, State.putR_fwd]
@[simp] theorem State.putF_rsp (s : State) (a : Nat) (f : Fld) (n : Nat) : (s.putF a f n).rsp = s.rsp := by simp only [State.putF, State.putR_rsp]
@[simp] theorem State.putF_sparings (s : State) (a : Nat) (f : Fld) (n : Nat) : (s.putF a f n).sparings = s.sparings := by simp only [State.putF, State.putR_sparings]
@[simp] theorem State.putF_retires (s : State) (a : Nat) (f : Fld) (n : Nat) : (s.putF a f n).retires = s.retires := by simp only [State.putF, State.putR_retires]
@[simp] theorem State.putF_subCopy (s : State) (a : Nat) (f : Fld) (n : Nat) : (s.putF a f n).subCopy = s.subCopy := by simp only [State.putF, State.putR_subCopy]
@[simp] theorem State.putF_scratchNew (s : State) (a : Nat) (f : Fld) (n : Nat) : (s.putF a f n).scratchNew = s.scratchNew := by simp only [State.putF, State.putR_scratchNew]
@[simp] theorem State.putF_fabric (s : State) (a : Nat) (f : Fld) (n : Nat) : (s.putF a f n).fabric = s.fabric := by simp only [State.putF, State.putR_fabric]
@[simp] theorem State.putF_mcs (s : State) (a : Nat) (f : Fld) (n : Nat) : (s.putF a f n).mcs = s.mcs := by simp only [State.putF, State.putR_mcs]
@[simp] theorem State.putF_irqDiscards (s : State) (a : Nat) (f : Fld) (n : Nat) : (s.putF a f n).irqDiscards = s.irqDiscards := by simp only [State.putF, State.putR_irqDiscards]
@[simp] theorem State.putF_pmTrusted (s : State) (a : Nat) (f : Fld) (n : Nat) : (s.putF a f n).pmTrusted = s.pmTrusted := by simp only [State.putF, State.putR_pmTrusted]
@[simp] theorem State.putF_engXlat (s : State) (a : Nat) (f : Fld) (n : Nat) : (s.putF a f n).engXlat = s.engXlat := by simp only [State.putF, State.putR_engXlat]
@[simp] theorem State.putF_chans (s : State) (a : Nat) (f : Fld) (n : Nat) : (s.putF a f n).chans = s.chans := by simp only [State.putF, State.putR_chans]
@[simp] theorem State.putF_sqOrder (s : State) (a : Nat) (f : Fld) (n : Nat) : (s.putF a f n).sqOrder = s.sqOrder := by simp only [State.putF, State.putR_sqOrder]
@[simp] theorem State.putF_ucode (s : State) (a : Nat) (f : Fld) (n : Nat) : (s.putF a f n).ucode = s.ucode := by simp only [State.putF, State.putR_ucode]
@[simp] theorem State.putF_bridge (s : State) (a : Nat) (f : Fld) (n : Nat) : (s.putF a f n).bridge = s.bridge := by simp only [State.putF, State.putR_bridge]
@[simp] theorem State.putF_bw (s : State) (a : Nat) (f : Fld) (n : Nat) : (s.putF a f n).bw = s.bw := by simp only [State.putF, State.putR_bw]
@[simp] theorem State.putF_pmAt (s : State) (a : Nat) (f : Fld) (n : Nat) : (s.putF a f n).pmAt = s.pmAt := by simp only [State.putF, State.putR_pmAt]

@[simp] theorem State.putB_pending (s : State) (a : Nat) (f : Fld) (b : Bool) : (s.putB a f b).pending = s.pending := by simp only [State.putB, State.putF_pending]
@[simp] theorem State.putB_time (s : State) (a : Nat) (f : Fld) (b : Bool) : (s.putB a f b).time = s.time := by simp only [State.putB, State.putF_time]
@[simp] theorem State.putB_tb (s : State) (a : Nat) (f : Fld) (b : Bool) : (s.putB a f b).tb = s.tb := by simp only [State.putB, State.putF_tb]
@[simp] theorem State.putB_mem (s : State) (a : Nat) (f : Fld) (b : Bool) : (s.putB a f b).mem = s.mem := by simp only [State.putB, State.putF_mem]
@[simp] theorem State.putB_tags (s : State) (a : Nat) (f : Fld) (b : Bool) : (s.putB a f b).tags = s.tags := by simp only [State.putB, State.putF_tags]
@[simp] theorem State.putB_poison (s : State) (a : Nat) (f : Fld) (b : Bool) : (s.putB a f b).poison = s.poison := by simp only [State.putB, State.putF_poison]
@[simp] theorem State.putB_hostMem (s : State) (a : Nat) (f : Fld) (b : Bool) : (s.putB a f b).hostMem = s.hostMem := by simp only [State.putB, State.putF_hostMem]
@[simp] theorem State.putB_threads (s : State) (a : Nat) (f : Fld) (b : Bool) : (s.putB a f b).threads = s.threads := by simp only [State.putB, State.putF_threads]
@[simp] theorem State.putB_cores (s : State) (a : Nat) (f : Fld) (b : Bool) : (s.putB a f b).cores = s.cores := by simp only [State.putB, State.putF_cores]
@[simp] theorem State.putB_doms (s : State) (a : Nat) (f : Fld) (b : Bool) : (s.putB a f b).doms = s.doms := by simp only [State.putB, State.putF_doms]
@[simp] theorem State.putB_ports (s : State) (a : Nat) (f : Fld) (b : Bool) : (s.putB a f b).ports = s.ports := by simp only [State.putB, State.putF_ports]
@[simp] theorem State.putB_log (s : State) (a : Nat) (f : Fld) (b : Bool) : (s.putB a f b).log = s.log := by simp only [State.putB, State.putF_log]
@[simp] theorem State.putB_irqMsgs (s : State) (a : Nat) (f : Fld) (b : Bool) : (s.putB a f b).irqMsgs = s.irqMsgs := by simp only [State.putB, State.putF_irqMsgs]
@[simp] theorem State.putB_stateMsgs (s : State) (a : Nat) (f : Fld) (b : Bool) : (s.putB a f b).stateMsgs = s.stateMsgs := by simp only [State.putB, State.putF_stateMsgs]
@[simp] theorem State.putB_bcTable (s : State) (a : Nat) (f : Fld) (b : Bool) : (s.putB a f b).bcTable = s.bcTable := by simp only [State.putB, State.putF_bcTable]
@[simp] theorem State.putB_withdrawn (s : State) (a : Nat) (f : Fld) (b : Bool) : (s.putB a f b).withdrawn = s.withdrawn := by simp only [State.putB, State.putF_withdrawn]
@[simp] theorem State.putB_cxlLost (s : State) (a : Nat) (f : Fld) (b : Bool) : (s.putB a f b).cxlLost = s.cxlLost := by simp only [State.putB, State.putF_cxlLost]
@[simp] theorem State.putB_cxlUp (s : State) (a : Nat) (f : Fld) (b : Bool) : (s.putB a f b).cxlUp = s.cxlUp := by simp only [State.putB, State.putF_cxlUp]
@[simp] theorem State.putB_mgmt (s : State) (a : Nat) (f : Fld) (b : Bool) : (s.putB a f b).mgmt = s.mgmt := by simp only [State.putB, State.putF_mgmt]
@[simp] theorem State.putB_board (s : State) (a : Nat) (f : Fld) (b : Bool) : (s.putB a f b).board = s.board := by simp only [State.putB, State.putF_board]
@[simp] theorem State.putB_vault (s : State) (a : Nat) (f : Fld) (b : Bool) : (s.putB a f b).vault = s.vault := by simp only [State.putB, State.putF_vault]
@[simp] theorem State.putB_fuses (s : State) (a : Nat) (f : Fld) (b : Bool) : (s.putB a f b).fuses = s.fuses := by simp only [State.putB, State.putF_fuses]
@[simp] theorem State.putB_dimms (s : State) (a : Nat) (f : Fld) (b : Bool) : (s.putB a f b).dimms = s.dimms := by simp only [State.putB, State.putF_dimms]
@[simp] theorem State.putB_dir (s : State) (a : Nat) (f : Fld) (b : Bool) : (s.putB a f b).dir = s.dir := by simp only [State.putB, State.putF_dir]
@[simp] theorem State.putB_dup (s : State) (a : Nat) (f : Fld) (b : Bool) : (s.putB a f b).dup = s.dup := by simp only [State.putB, State.putF_dup]
@[simp] theorem State.putB_l3 (s : State) (a : Nat) (f : Fld) (b : Bool) : (s.putB a f b).l3 = s.l3 := by simp only [State.putB, State.putF_l3]
@[simp] theorem State.putB_txns (s : State) (a : Nat) (f : Fld) (b : Bool) : (s.putB a f b).txns = s.txns := by simp only [State.putB, State.putF_txns]
@[simp] theorem State.putB_homeQ (s : State) (a : Nat) (f : Fld) (b : Bool) : (s.putB a f b).homeQ = s.homeQ := by simp only [State.putB, State.putF_homeQ]
@[simp] theorem State.putB_heldReqs (s : State) (a : Nat) (f : Fld) (b : Bool) : (s.putB a f b).heldReqs = s.heldReqs := by simp only [State.putB, State.putF_heldReqs]
@[simp] theorem State.putB_fwd (s : State) (a : Nat) (f : Fld) (b : Bool) : (s.putB a f b).fwd = s.fwd := by simp only [State.putB, State.putF_fwd]
@[simp] theorem State.putB_rsp (s : State) (a : Nat) (f : Fld) (b : Bool) : (s.putB a f b).rsp = s.rsp := by simp only [State.putB, State.putF_rsp]
@[simp] theorem State.putB_sparings (s : State) (a : Nat) (f : Fld) (b : Bool) : (s.putB a f b).sparings = s.sparings := by simp only [State.putB, State.putF_sparings]
@[simp] theorem State.putB_retires (s : State) (a : Nat) (f : Fld) (b : Bool) : (s.putB a f b).retires = s.retires := by simp only [State.putB, State.putF_retires]
@[simp] theorem State.putB_subCopy (s : State) (a : Nat) (f : Fld) (b : Bool) : (s.putB a f b).subCopy = s.subCopy := by simp only [State.putB, State.putF_subCopy]
@[simp] theorem State.putB_scratchNew (s : State) (a : Nat) (f : Fld) (b : Bool) : (s.putB a f b).scratchNew = s.scratchNew := by simp only [State.putB, State.putF_scratchNew]
@[simp] theorem State.putB_fabric (s : State) (a : Nat) (f : Fld) (b : Bool) : (s.putB a f b).fabric = s.fabric := by simp only [State.putB, State.putF_fabric]
@[simp] theorem State.putB_mcs (s : State) (a : Nat) (f : Fld) (b : Bool) : (s.putB a f b).mcs = s.mcs := by simp only [State.putB, State.putF_mcs]
@[simp] theorem State.putB_irqDiscards (s : State) (a : Nat) (f : Fld) (b : Bool) : (s.putB a f b).irqDiscards = s.irqDiscards := by simp only [State.putB, State.putF_irqDiscards]
@[simp] theorem State.putB_pmTrusted (s : State) (a : Nat) (f : Fld) (b : Bool) : (s.putB a f b).pmTrusted = s.pmTrusted := by simp only [State.putB, State.putF_pmTrusted]
@[simp] theorem State.putB_engXlat (s : State) (a : Nat) (f : Fld) (b : Bool) : (s.putB a f b).engXlat = s.engXlat := by simp only [State.putB, State.putF_engXlat]
@[simp] theorem State.putB_chans (s : State) (a : Nat) (f : Fld) (b : Bool) : (s.putB a f b).chans = s.chans := by simp only [State.putB, State.putF_chans]
@[simp] theorem State.putB_sqOrder (s : State) (a : Nat) (f : Fld) (b : Bool) : (s.putB a f b).sqOrder = s.sqOrder := by simp only [State.putB, State.putF_sqOrder]
@[simp] theorem State.putB_ucode (s : State) (a : Nat) (f : Fld) (b : Bool) : (s.putB a f b).ucode = s.ucode := by simp only [State.putB, State.putF_ucode]
@[simp] theorem State.putB_bridge (s : State) (a : Nat) (f : Fld) (b : Bool) : (s.putB a f b).bridge = s.bridge := by simp only [State.putB, State.putF_bridge]
@[simp] theorem State.putB_bw (s : State) (a : Nat) (f : Fld) (b : Bool) : (s.putB a f b).bw = s.bw := by simp only [State.putB, State.putF_bw]
@[simp] theorem State.putB_pmAt (s : State) (a : Nat) (f : Fld) (b : Bool) : (s.putB a f b).pmAt = s.pmAt := by simp only [State.putB, State.putF_pmAt]

@[simp] theorem clearTags_pending (s : State) (pa n : Nat) : (clearTags s pa n).pending = s.pending := by dsimp only [clearTags]
@[simp] theorem clearTags_time (s : State) (pa n : Nat) : (clearTags s pa n).time = s.time := by dsimp only [clearTags]
@[simp] theorem clearTags_tb (s : State) (pa n : Nat) : (clearTags s pa n).tb = s.tb := by dsimp only [clearTags]
@[simp] theorem clearTags_regs (s : State) (pa n : Nat) : (clearTags s pa n).regs = s.regs := by dsimp only [clearTags]
@[simp] theorem clearTags_mem (s : State) (pa n : Nat) : (clearTags s pa n).mem = s.mem := by dsimp only [clearTags]
@[simp] theorem clearTags_poison (s : State) (pa n : Nat) : (clearTags s pa n).poison = s.poison := by dsimp only [clearTags]
@[simp] theorem clearTags_hostMem (s : State) (pa n : Nat) : (clearTags s pa n).hostMem = s.hostMem := by dsimp only [clearTags]
@[simp] theorem clearTags_threads (s : State) (pa n : Nat) : (clearTags s pa n).threads = s.threads := by dsimp only [clearTags]
@[simp] theorem clearTags_cores (s : State) (pa n : Nat) : (clearTags s pa n).cores = s.cores := by dsimp only [clearTags]
@[simp] theorem clearTags_doms (s : State) (pa n : Nat) : (clearTags s pa n).doms = s.doms := by dsimp only [clearTags]
@[simp] theorem clearTags_ports (s : State) (pa n : Nat) : (clearTags s pa n).ports = s.ports := by dsimp only [clearTags]
@[simp] theorem clearTags_log (s : State) (pa n : Nat) : (clearTags s pa n).log = s.log := by dsimp only [clearTags]
@[simp] theorem clearTags_irqMsgs (s : State) (pa n : Nat) : (clearTags s pa n).irqMsgs = s.irqMsgs := by dsimp only [clearTags]
@[simp] theorem clearTags_stateMsgs (s : State) (pa n : Nat) : (clearTags s pa n).stateMsgs = s.stateMsgs := by dsimp only [clearTags]
@[simp] theorem clearTags_bcTable (s : State) (pa n : Nat) : (clearTags s pa n).bcTable = s.bcTable := by dsimp only [clearTags]
@[simp] theorem clearTags_withdrawn (s : State) (pa n : Nat) : (clearTags s pa n).withdrawn = s.withdrawn := by dsimp only [clearTags]
@[simp] theorem clearTags_cxlLost (s : State) (pa n : Nat) : (clearTags s pa n).cxlLost = s.cxlLost := by dsimp only [clearTags]
@[simp] theorem clearTags_cxlUp (s : State) (pa n : Nat) : (clearTags s pa n).cxlUp = s.cxlUp := by dsimp only [clearTags]
@[simp] theorem clearTags_mgmt (s : State) (pa n : Nat) : (clearTags s pa n).mgmt = s.mgmt := by dsimp only [clearTags]
@[simp] theorem clearTags_board (s : State) (pa n : Nat) : (clearTags s pa n).board = s.board := by dsimp only [clearTags]
@[simp] theorem clearTags_vault (s : State) (pa n : Nat) : (clearTags s pa n).vault = s.vault := by dsimp only [clearTags]
@[simp] theorem clearTags_fuses (s : State) (pa n : Nat) : (clearTags s pa n).fuses = s.fuses := by dsimp only [clearTags]
@[simp] theorem clearTags_dimms (s : State) (pa n : Nat) : (clearTags s pa n).dimms = s.dimms := by dsimp only [clearTags]
@[simp] theorem clearTags_dir (s : State) (pa n : Nat) : (clearTags s pa n).dir = s.dir := by dsimp only [clearTags]
@[simp] theorem clearTags_dup (s : State) (pa n : Nat) : (clearTags s pa n).dup = s.dup := by dsimp only [clearTags]
@[simp] theorem clearTags_l3 (s : State) (pa n : Nat) : (clearTags s pa n).l3 = s.l3 := by dsimp only [clearTags]
@[simp] theorem clearTags_txns (s : State) (pa n : Nat) : (clearTags s pa n).txns = s.txns := by dsimp only [clearTags]
@[simp] theorem clearTags_homeQ (s : State) (pa n : Nat) : (clearTags s pa n).homeQ = s.homeQ := by dsimp only [clearTags]
@[simp] theorem clearTags_heldReqs (s : State) (pa n : Nat) : (clearTags s pa n).heldReqs = s.heldReqs := by dsimp only [clearTags]
@[simp] theorem clearTags_fwd (s : State) (pa n : Nat) : (clearTags s pa n).fwd = s.fwd := by dsimp only [clearTags]
@[simp] theorem clearTags_rsp (s : State) (pa n : Nat) : (clearTags s pa n).rsp = s.rsp := by dsimp only [clearTags]
@[simp] theorem clearTags_sparings (s : State) (pa n : Nat) : (clearTags s pa n).sparings = s.sparings := by dsimp only [clearTags]
@[simp] theorem clearTags_retires (s : State) (pa n : Nat) : (clearTags s pa n).retires = s.retires := by dsimp only [clearTags]
@[simp] theorem clearTags_subCopy (s : State) (pa n : Nat) : (clearTags s pa n).subCopy = s.subCopy := by dsimp only [clearTags]
@[simp] theorem clearTags_scratchNew (s : State) (pa n : Nat) : (clearTags s pa n).scratchNew = s.scratchNew := by dsimp only [clearTags]
@[simp] theorem clearTags_fabric (s : State) (pa n : Nat) : (clearTags s pa n).fabric = s.fabric := by dsimp only [clearTags]
@[simp] theorem clearTags_mcs (s : State) (pa n : Nat) : (clearTags s pa n).mcs = s.mcs := by dsimp only [clearTags]
@[simp] theorem clearTags_irqDiscards (s : State) (pa n : Nat) : (clearTags s pa n).irqDiscards = s.irqDiscards := by dsimp only [clearTags]
@[simp] theorem clearTags_pmTrusted (s : State) (pa n : Nat) : (clearTags s pa n).pmTrusted = s.pmTrusted := by dsimp only [clearTags]
@[simp] theorem clearTags_engXlat (s : State) (pa n : Nat) : (clearTags s pa n).engXlat = s.engXlat := by dsimp only [clearTags]
@[simp] theorem clearTags_chans (s : State) (pa n : Nat) : (clearTags s pa n).chans = s.chans := by dsimp only [clearTags]
@[simp] theorem clearTags_sqOrder (s : State) (pa n : Nat) : (clearTags s pa n).sqOrder = s.sqOrder := by dsimp only [clearTags]
@[simp] theorem clearTags_ucode (s : State) (pa n : Nat) : (clearTags s pa n).ucode = s.ucode := by dsimp only [clearTags]
@[simp] theorem clearTags_bridge (s : State) (pa n : Nat) : (clearTags s pa n).bridge = s.bridge := by dsimp only [clearTags]
@[simp] theorem clearTags_bw (s : State) (pa n : Nat) : (clearTags s pa n).bw = s.bw := by dsimp only [clearTags]
@[simp] theorem clearTags_pmAt (s : State) (pa n : Nat) : (clearTags s pa n).pmAt = s.pmAt := by dsimp only [clearTags]

@[simp] theorem setTag_pending (s : State) (pa : Nat) (b : Bool) : (setTag s pa b).pending = s.pending := by dsimp only [setTag]
@[simp] theorem setTag_time (s : State) (pa : Nat) (b : Bool) : (setTag s pa b).time = s.time := by dsimp only [setTag]
@[simp] theorem setTag_tb (s : State) (pa : Nat) (b : Bool) : (setTag s pa b).tb = s.tb := by dsimp only [setTag]
@[simp] theorem setTag_regs (s : State) (pa : Nat) (b : Bool) : (setTag s pa b).regs = s.regs := by dsimp only [setTag]
@[simp] theorem setTag_mem (s : State) (pa : Nat) (b : Bool) : (setTag s pa b).mem = s.mem := by dsimp only [setTag]
@[simp] theorem setTag_poison (s : State) (pa : Nat) (b : Bool) : (setTag s pa b).poison = s.poison := by dsimp only [setTag]
@[simp] theorem setTag_hostMem (s : State) (pa : Nat) (b : Bool) : (setTag s pa b).hostMem = s.hostMem := by dsimp only [setTag]
@[simp] theorem setTag_threads (s : State) (pa : Nat) (b : Bool) : (setTag s pa b).threads = s.threads := by dsimp only [setTag]
@[simp] theorem setTag_cores (s : State) (pa : Nat) (b : Bool) : (setTag s pa b).cores = s.cores := by dsimp only [setTag]
@[simp] theorem setTag_doms (s : State) (pa : Nat) (b : Bool) : (setTag s pa b).doms = s.doms := by dsimp only [setTag]
@[simp] theorem setTag_ports (s : State) (pa : Nat) (b : Bool) : (setTag s pa b).ports = s.ports := by dsimp only [setTag]
@[simp] theorem setTag_log (s : State) (pa : Nat) (b : Bool) : (setTag s pa b).log = s.log := by dsimp only [setTag]
@[simp] theorem setTag_irqMsgs (s : State) (pa : Nat) (b : Bool) : (setTag s pa b).irqMsgs = s.irqMsgs := by dsimp only [setTag]
@[simp] theorem setTag_stateMsgs (s : State) (pa : Nat) (b : Bool) : (setTag s pa b).stateMsgs = s.stateMsgs := by dsimp only [setTag]
@[simp] theorem setTag_bcTable (s : State) (pa : Nat) (b : Bool) : (setTag s pa b).bcTable = s.bcTable := by dsimp only [setTag]
@[simp] theorem setTag_withdrawn (s : State) (pa : Nat) (b : Bool) : (setTag s pa b).withdrawn = s.withdrawn := by dsimp only [setTag]
@[simp] theorem setTag_cxlLost (s : State) (pa : Nat) (b : Bool) : (setTag s pa b).cxlLost = s.cxlLost := by dsimp only [setTag]
@[simp] theorem setTag_cxlUp (s : State) (pa : Nat) (b : Bool) : (setTag s pa b).cxlUp = s.cxlUp := by dsimp only [setTag]
@[simp] theorem setTag_mgmt (s : State) (pa : Nat) (b : Bool) : (setTag s pa b).mgmt = s.mgmt := by dsimp only [setTag]
@[simp] theorem setTag_board (s : State) (pa : Nat) (b : Bool) : (setTag s pa b).board = s.board := by dsimp only [setTag]
@[simp] theorem setTag_vault (s : State) (pa : Nat) (b : Bool) : (setTag s pa b).vault = s.vault := by dsimp only [setTag]
@[simp] theorem setTag_fuses (s : State) (pa : Nat) (b : Bool) : (setTag s pa b).fuses = s.fuses := by dsimp only [setTag]
@[simp] theorem setTag_dimms (s : State) (pa : Nat) (b : Bool) : (setTag s pa b).dimms = s.dimms := by dsimp only [setTag]
@[simp] theorem setTag_dir (s : State) (pa : Nat) (b : Bool) : (setTag s pa b).dir = s.dir := by dsimp only [setTag]
@[simp] theorem setTag_dup (s : State) (pa : Nat) (b : Bool) : (setTag s pa b).dup = s.dup := by dsimp only [setTag]
@[simp] theorem setTag_l3 (s : State) (pa : Nat) (b : Bool) : (setTag s pa b).l3 = s.l3 := by dsimp only [setTag]
@[simp] theorem setTag_txns (s : State) (pa : Nat) (b : Bool) : (setTag s pa b).txns = s.txns := by dsimp only [setTag]
@[simp] theorem setTag_homeQ (s : State) (pa : Nat) (b : Bool) : (setTag s pa b).homeQ = s.homeQ := by dsimp only [setTag]
@[simp] theorem setTag_heldReqs (s : State) (pa : Nat) (b : Bool) : (setTag s pa b).heldReqs = s.heldReqs := by dsimp only [setTag]
@[simp] theorem setTag_fwd (s : State) (pa : Nat) (b : Bool) : (setTag s pa b).fwd = s.fwd := by dsimp only [setTag]
@[simp] theorem setTag_rsp (s : State) (pa : Nat) (b : Bool) : (setTag s pa b).rsp = s.rsp := by dsimp only [setTag]
@[simp] theorem setTag_sparings (s : State) (pa : Nat) (b : Bool) : (setTag s pa b).sparings = s.sparings := by dsimp only [setTag]
@[simp] theorem setTag_retires (s : State) (pa : Nat) (b : Bool) : (setTag s pa b).retires = s.retires := by dsimp only [setTag]
@[simp] theorem setTag_subCopy (s : State) (pa : Nat) (b : Bool) : (setTag s pa b).subCopy = s.subCopy := by dsimp only [setTag]
@[simp] theorem setTag_scratchNew (s : State) (pa : Nat) (b : Bool) : (setTag s pa b).scratchNew = s.scratchNew := by dsimp only [setTag]
@[simp] theorem setTag_fabric (s : State) (pa : Nat) (b : Bool) : (setTag s pa b).fabric = s.fabric := by dsimp only [setTag]
@[simp] theorem setTag_mcs (s : State) (pa : Nat) (b : Bool) : (setTag s pa b).mcs = s.mcs := by dsimp only [setTag]
@[simp] theorem setTag_irqDiscards (s : State) (pa : Nat) (b : Bool) : (setTag s pa b).irqDiscards = s.irqDiscards := by dsimp only [setTag]
@[simp] theorem setTag_pmTrusted (s : State) (pa : Nat) (b : Bool) : (setTag s pa b).pmTrusted = s.pmTrusted := by dsimp only [setTag]
@[simp] theorem setTag_engXlat (s : State) (pa : Nat) (b : Bool) : (setTag s pa b).engXlat = s.engXlat := by dsimp only [setTag]
@[simp] theorem setTag_chans (s : State) (pa : Nat) (b : Bool) : (setTag s pa b).chans = s.chans := by dsimp only [setTag]
@[simp] theorem setTag_sqOrder (s : State) (pa : Nat) (b : Bool) : (setTag s pa b).sqOrder = s.sqOrder := by dsimp only [setTag]
@[simp] theorem setTag_ucode (s : State) (pa : Nat) (b : Bool) : (setTag s pa b).ucode = s.ucode := by dsimp only [setTag]
@[simp] theorem setTag_bridge (s : State) (pa : Nat) (b : Bool) : (setTag s pa b).bridge = s.bridge := by dsimp only [setTag]
@[simp] theorem setTag_bw (s : State) (pa : Nat) (b : Bool) : (setTag s pa b).bw = s.bw := by dsimp only [setTag]
@[simp] theorem setTag_pmAt (s : State) (pa : Nat) (b : Bool) : (setTag s pa b).pmAt = s.pmAt := by dsimp only [setTag]

@[simp] theorem setPoison_pending (s : State) (line : Nat) (b : Bool) : (setPoison s line b).pending = s.pending := by dsimp only [setPoison]
@[simp] theorem setPoison_time (s : State) (line : Nat) (b : Bool) : (setPoison s line b).time = s.time := by dsimp only [setPoison]
@[simp] theorem setPoison_tb (s : State) (line : Nat) (b : Bool) : (setPoison s line b).tb = s.tb := by dsimp only [setPoison]
@[simp] theorem setPoison_regs (s : State) (line : Nat) (b : Bool) : (setPoison s line b).regs = s.regs := by dsimp only [setPoison]
@[simp] theorem setPoison_mem (s : State) (line : Nat) (b : Bool) : (setPoison s line b).mem = s.mem := by dsimp only [setPoison]
@[simp] theorem setPoison_tags (s : State) (line : Nat) (b : Bool) : (setPoison s line b).tags = s.tags := by dsimp only [setPoison]
@[simp] theorem setPoison_hostMem (s : State) (line : Nat) (b : Bool) : (setPoison s line b).hostMem = s.hostMem := by dsimp only [setPoison]
@[simp] theorem setPoison_threads (s : State) (line : Nat) (b : Bool) : (setPoison s line b).threads = s.threads := by dsimp only [setPoison]
@[simp] theorem setPoison_cores (s : State) (line : Nat) (b : Bool) : (setPoison s line b).cores = s.cores := by dsimp only [setPoison]
@[simp] theorem setPoison_doms (s : State) (line : Nat) (b : Bool) : (setPoison s line b).doms = s.doms := by dsimp only [setPoison]
@[simp] theorem setPoison_ports (s : State) (line : Nat) (b : Bool) : (setPoison s line b).ports = s.ports := by dsimp only [setPoison]
@[simp] theorem setPoison_log (s : State) (line : Nat) (b : Bool) : (setPoison s line b).log = s.log := by dsimp only [setPoison]
@[simp] theorem setPoison_irqMsgs (s : State) (line : Nat) (b : Bool) : (setPoison s line b).irqMsgs = s.irqMsgs := by dsimp only [setPoison]
@[simp] theorem setPoison_stateMsgs (s : State) (line : Nat) (b : Bool) : (setPoison s line b).stateMsgs = s.stateMsgs := by dsimp only [setPoison]
@[simp] theorem setPoison_bcTable (s : State) (line : Nat) (b : Bool) : (setPoison s line b).bcTable = s.bcTable := by dsimp only [setPoison]
@[simp] theorem setPoison_withdrawn (s : State) (line : Nat) (b : Bool) : (setPoison s line b).withdrawn = s.withdrawn := by dsimp only [setPoison]
@[simp] theorem setPoison_cxlLost (s : State) (line : Nat) (b : Bool) : (setPoison s line b).cxlLost = s.cxlLost := by dsimp only [setPoison]
@[simp] theorem setPoison_cxlUp (s : State) (line : Nat) (b : Bool) : (setPoison s line b).cxlUp = s.cxlUp := by dsimp only [setPoison]
@[simp] theorem setPoison_mgmt (s : State) (line : Nat) (b : Bool) : (setPoison s line b).mgmt = s.mgmt := by dsimp only [setPoison]
@[simp] theorem setPoison_board (s : State) (line : Nat) (b : Bool) : (setPoison s line b).board = s.board := by dsimp only [setPoison]
@[simp] theorem setPoison_vault (s : State) (line : Nat) (b : Bool) : (setPoison s line b).vault = s.vault := by dsimp only [setPoison]
@[simp] theorem setPoison_fuses (s : State) (line : Nat) (b : Bool) : (setPoison s line b).fuses = s.fuses := by dsimp only [setPoison]
@[simp] theorem setPoison_dimms (s : State) (line : Nat) (b : Bool) : (setPoison s line b).dimms = s.dimms := by dsimp only [setPoison]
@[simp] theorem setPoison_dir (s : State) (line : Nat) (b : Bool) : (setPoison s line b).dir = s.dir := by dsimp only [setPoison]
@[simp] theorem setPoison_dup (s : State) (line : Nat) (b : Bool) : (setPoison s line b).dup = s.dup := by dsimp only [setPoison]
@[simp] theorem setPoison_l3 (s : State) (line : Nat) (b : Bool) : (setPoison s line b).l3 = s.l3 := by dsimp only [setPoison]
@[simp] theorem setPoison_txns (s : State) (line : Nat) (b : Bool) : (setPoison s line b).txns = s.txns := by dsimp only [setPoison]
@[simp] theorem setPoison_homeQ (s : State) (line : Nat) (b : Bool) : (setPoison s line b).homeQ = s.homeQ := by dsimp only [setPoison]
@[simp] theorem setPoison_heldReqs (s : State) (line : Nat) (b : Bool) : (setPoison s line b).heldReqs = s.heldReqs := by dsimp only [setPoison]
@[simp] theorem setPoison_fwd (s : State) (line : Nat) (b : Bool) : (setPoison s line b).fwd = s.fwd := by dsimp only [setPoison]
@[simp] theorem setPoison_rsp (s : State) (line : Nat) (b : Bool) : (setPoison s line b).rsp = s.rsp := by dsimp only [setPoison]
@[simp] theorem setPoison_sparings (s : State) (line : Nat) (b : Bool) : (setPoison s line b).sparings = s.sparings := by dsimp only [setPoison]
@[simp] theorem setPoison_retires (s : State) (line : Nat) (b : Bool) : (setPoison s line b).retires = s.retires := by dsimp only [setPoison]
@[simp] theorem setPoison_subCopy (s : State) (line : Nat) (b : Bool) : (setPoison s line b).subCopy = s.subCopy := by dsimp only [setPoison]
@[simp] theorem setPoison_scratchNew (s : State) (line : Nat) (b : Bool) : (setPoison s line b).scratchNew = s.scratchNew := by dsimp only [setPoison]
@[simp] theorem setPoison_fabric (s : State) (line : Nat) (b : Bool) : (setPoison s line b).fabric = s.fabric := by dsimp only [setPoison]
@[simp] theorem setPoison_mcs (s : State) (line : Nat) (b : Bool) : (setPoison s line b).mcs = s.mcs := by dsimp only [setPoison]
@[simp] theorem setPoison_irqDiscards (s : State) (line : Nat) (b : Bool) : (setPoison s line b).irqDiscards = s.irqDiscards := by dsimp only [setPoison]
@[simp] theorem setPoison_pmTrusted (s : State) (line : Nat) (b : Bool) : (setPoison s line b).pmTrusted = s.pmTrusted := by dsimp only [setPoison]
@[simp] theorem setPoison_engXlat (s : State) (line : Nat) (b : Bool) : (setPoison s line b).engXlat = s.engXlat := by dsimp only [setPoison]
@[simp] theorem setPoison_chans (s : State) (line : Nat) (b : Bool) : (setPoison s line b).chans = s.chans := by dsimp only [setPoison]
@[simp] theorem setPoison_sqOrder (s : State) (line : Nat) (b : Bool) : (setPoison s line b).sqOrder = s.sqOrder := by dsimp only [setPoison]
@[simp] theorem setPoison_ucode (s : State) (line : Nat) (b : Bool) : (setPoison s line b).ucode = s.ucode := by dsimp only [setPoison]
@[simp] theorem setPoison_bridge (s : State) (line : Nat) (b : Bool) : (setPoison s line b).bridge = s.bridge := by dsimp only [setPoison]
@[simp] theorem setPoison_bw (s : State) (line : Nat) (b : Bool) : (setPoison s line b).bw = s.bw := by dsimp only [setPoison]
@[simp] theorem setPoison_pmAt (s : State) (line : Nat) (b : Bool) : (setPoison s line b).pmAt = s.pmAt := by dsimp only [setPoison]

@[simp] theorem writeBytes_pending (s : State) (pa : Nat) (bs : List Byte) : (writeBytes s pa bs).pending = s.pending := by simp only [writeBytes, clearTags_pending]
@[simp] theorem writeBytes_time (s : State) (pa : Nat) (bs : List Byte) : (writeBytes s pa bs).time = s.time := by simp only [writeBytes, clearTags_time]
@[simp] theorem writeBytes_tb (s : State) (pa : Nat) (bs : List Byte) : (writeBytes s pa bs).tb = s.tb := by simp only [writeBytes, clearTags_tb]
@[simp] theorem writeBytes_regs (s : State) (pa : Nat) (bs : List Byte) : (writeBytes s pa bs).regs = s.regs := by simp only [writeBytes, clearTags_regs]
@[simp] theorem writeBytes_hostMem (s : State) (pa : Nat) (bs : List Byte) : (writeBytes s pa bs).hostMem = s.hostMem := by simp only [writeBytes, clearTags_hostMem]
@[simp] theorem writeBytes_threads (s : State) (pa : Nat) (bs : List Byte) : (writeBytes s pa bs).threads = s.threads := by simp only [writeBytes, clearTags_threads]
@[simp] theorem writeBytes_cores (s : State) (pa : Nat) (bs : List Byte) : (writeBytes s pa bs).cores = s.cores := by simp only [writeBytes, clearTags_cores]
@[simp] theorem writeBytes_doms (s : State) (pa : Nat) (bs : List Byte) : (writeBytes s pa bs).doms = s.doms := by simp only [writeBytes, clearTags_doms]
@[simp] theorem writeBytes_ports (s : State) (pa : Nat) (bs : List Byte) : (writeBytes s pa bs).ports = s.ports := by simp only [writeBytes, clearTags_ports]
@[simp] theorem writeBytes_log (s : State) (pa : Nat) (bs : List Byte) : (writeBytes s pa bs).log = s.log := by simp only [writeBytes, clearTags_log]
@[simp] theorem writeBytes_irqMsgs (s : State) (pa : Nat) (bs : List Byte) : (writeBytes s pa bs).irqMsgs = s.irqMsgs := by simp only [writeBytes, clearTags_irqMsgs]
@[simp] theorem writeBytes_stateMsgs (s : State) (pa : Nat) (bs : List Byte) : (writeBytes s pa bs).stateMsgs = s.stateMsgs := by simp only [writeBytes, clearTags_stateMsgs]
@[simp] theorem writeBytes_bcTable (s : State) (pa : Nat) (bs : List Byte) : (writeBytes s pa bs).bcTable = s.bcTable := by simp only [writeBytes, clearTags_bcTable]
@[simp] theorem writeBytes_withdrawn (s : State) (pa : Nat) (bs : List Byte) : (writeBytes s pa bs).withdrawn = s.withdrawn := by simp only [writeBytes, clearTags_withdrawn]
@[simp] theorem writeBytes_cxlLost (s : State) (pa : Nat) (bs : List Byte) : (writeBytes s pa bs).cxlLost = s.cxlLost := by simp only [writeBytes, clearTags_cxlLost]
@[simp] theorem writeBytes_cxlUp (s : State) (pa : Nat) (bs : List Byte) : (writeBytes s pa bs).cxlUp = s.cxlUp := by simp only [writeBytes, clearTags_cxlUp]
@[simp] theorem writeBytes_mgmt (s : State) (pa : Nat) (bs : List Byte) : (writeBytes s pa bs).mgmt = s.mgmt := by simp only [writeBytes, clearTags_mgmt]
@[simp] theorem writeBytes_board (s : State) (pa : Nat) (bs : List Byte) : (writeBytes s pa bs).board = s.board := by simp only [writeBytes, clearTags_board]
@[simp] theorem writeBytes_vault (s : State) (pa : Nat) (bs : List Byte) : (writeBytes s pa bs).vault = s.vault := by simp only [writeBytes, clearTags_vault]
@[simp] theorem writeBytes_fuses (s : State) (pa : Nat) (bs : List Byte) : (writeBytes s pa bs).fuses = s.fuses := by simp only [writeBytes, clearTags_fuses]
@[simp] theorem writeBytes_dimms (s : State) (pa : Nat) (bs : List Byte) : (writeBytes s pa bs).dimms = s.dimms := by simp only [writeBytes, clearTags_dimms]
@[simp] theorem writeBytes_dir (s : State) (pa : Nat) (bs : List Byte) : (writeBytes s pa bs).dir = s.dir := by simp only [writeBytes, clearTags_dir]
@[simp] theorem writeBytes_dup (s : State) (pa : Nat) (bs : List Byte) : (writeBytes s pa bs).dup = s.dup := by simp only [writeBytes, clearTags_dup]
@[simp] theorem writeBytes_l3 (s : State) (pa : Nat) (bs : List Byte) : (writeBytes s pa bs).l3 = s.l3 := by simp only [writeBytes, clearTags_l3]
@[simp] theorem writeBytes_txns (s : State) (pa : Nat) (bs : List Byte) : (writeBytes s pa bs).txns = s.txns := by simp only [writeBytes, clearTags_txns]
@[simp] theorem writeBytes_homeQ (s : State) (pa : Nat) (bs : List Byte) : (writeBytes s pa bs).homeQ = s.homeQ := by simp only [writeBytes, clearTags_homeQ]
@[simp] theorem writeBytes_heldReqs (s : State) (pa : Nat) (bs : List Byte) : (writeBytes s pa bs).heldReqs = s.heldReqs := by simp only [writeBytes, clearTags_heldReqs]
@[simp] theorem writeBytes_fwd (s : State) (pa : Nat) (bs : List Byte) : (writeBytes s pa bs).fwd = s.fwd := by simp only [writeBytes, clearTags_fwd]
@[simp] theorem writeBytes_rsp (s : State) (pa : Nat) (bs : List Byte) : (writeBytes s pa bs).rsp = s.rsp := by simp only [writeBytes, clearTags_rsp]
@[simp] theorem writeBytes_sparings (s : State) (pa : Nat) (bs : List Byte) : (writeBytes s pa bs).sparings = s.sparings := by simp only [writeBytes, clearTags_sparings]
@[simp] theorem writeBytes_retires (s : State) (pa : Nat) (bs : List Byte) : (writeBytes s pa bs).retires = s.retires := by simp only [writeBytes, clearTags_retires]
@[simp] theorem writeBytes_subCopy (s : State) (pa : Nat) (bs : List Byte) : (writeBytes s pa bs).subCopy = s.subCopy := by simp only [writeBytes, clearTags_subCopy]
@[simp] theorem writeBytes_scratchNew (s : State) (pa : Nat) (bs : List Byte) : (writeBytes s pa bs).scratchNew = s.scratchNew := by simp only [writeBytes, clearTags_scratchNew]
@[simp] theorem writeBytes_fabric (s : State) (pa : Nat) (bs : List Byte) : (writeBytes s pa bs).fabric = s.fabric := by simp only [writeBytes, clearTags_fabric]
@[simp] theorem writeBytes_mcs (s : State) (pa : Nat) (bs : List Byte) : (writeBytes s pa bs).mcs = s.mcs := by simp only [writeBytes, clearTags_mcs]
@[simp] theorem writeBytes_irqDiscards (s : State) (pa : Nat) (bs : List Byte) : (writeBytes s pa bs).irqDiscards = s.irqDiscards := by simp only [writeBytes, clearTags_irqDiscards]
@[simp] theorem writeBytes_pmTrusted (s : State) (pa : Nat) (bs : List Byte) : (writeBytes s pa bs).pmTrusted = s.pmTrusted := by simp only [writeBytes, clearTags_pmTrusted]
@[simp] theorem writeBytes_engXlat (s : State) (pa : Nat) (bs : List Byte) : (writeBytes s pa bs).engXlat = s.engXlat := by simp only [writeBytes, clearTags_engXlat]
@[simp] theorem writeBytes_chans (s : State) (pa : Nat) (bs : List Byte) : (writeBytes s pa bs).chans = s.chans := by simp only [writeBytes, clearTags_chans]
@[simp] theorem writeBytes_sqOrder (s : State) (pa : Nat) (bs : List Byte) : (writeBytes s pa bs).sqOrder = s.sqOrder := by simp only [writeBytes, clearTags_sqOrder]
@[simp] theorem writeBytes_ucode (s : State) (pa : Nat) (bs : List Byte) : (writeBytes s pa bs).ucode = s.ucode := by simp only [writeBytes, clearTags_ucode]
@[simp] theorem writeBytes_bridge (s : State) (pa : Nat) (bs : List Byte) : (writeBytes s pa bs).bridge = s.bridge := by simp only [writeBytes, clearTags_bridge]
@[simp] theorem writeBytes_bw (s : State) (pa : Nat) (bs : List Byte) : (writeBytes s pa bs).bw = s.bw := by simp only [writeBytes, clearTags_bw]
@[simp] theorem writeBytes_pmAt (s : State) (pa : Nat) (bs : List Byte) : (writeBytes s pa bs).pmAt = s.pmAt := by simp only [writeBytes, clearTags_pmAt]

@[simp] theorem write64_pending (s : State) (pa : Nat) (w : Word) : (write64 s pa w).pending = s.pending := by simp only [write64, writeBytes_pending]
@[simp] theorem write64_time (s : State) (pa : Nat) (w : Word) : (write64 s pa w).time = s.time := by simp only [write64, writeBytes_time]
@[simp] theorem write64_tb (s : State) (pa : Nat) (w : Word) : (write64 s pa w).tb = s.tb := by simp only [write64, writeBytes_tb]
@[simp] theorem write64_regs (s : State) (pa : Nat) (w : Word) : (write64 s pa w).regs = s.regs := by simp only [write64, writeBytes_regs]
@[simp] theorem write64_hostMem (s : State) (pa : Nat) (w : Word) : (write64 s pa w).hostMem = s.hostMem := by simp only [write64, writeBytes_hostMem]
@[simp] theorem write64_threads (s : State) (pa : Nat) (w : Word) : (write64 s pa w).threads = s.threads := by simp only [write64, writeBytes_threads]
@[simp] theorem write64_cores (s : State) (pa : Nat) (w : Word) : (write64 s pa w).cores = s.cores := by simp only [write64, writeBytes_cores]
@[simp] theorem write64_doms (s : State) (pa : Nat) (w : Word) : (write64 s pa w).doms = s.doms := by simp only [write64, writeBytes_doms]
@[simp] theorem write64_ports (s : State) (pa : Nat) (w : Word) : (write64 s pa w).ports = s.ports := by simp only [write64, writeBytes_ports]
@[simp] theorem write64_log (s : State) (pa : Nat) (w : Word) : (write64 s pa w).log = s.log := by simp only [write64, writeBytes_log]
@[simp] theorem write64_irqMsgs (s : State) (pa : Nat) (w : Word) : (write64 s pa w).irqMsgs = s.irqMsgs := by simp only [write64, writeBytes_irqMsgs]
@[simp] theorem write64_stateMsgs (s : State) (pa : Nat) (w : Word) : (write64 s pa w).stateMsgs = s.stateMsgs := by simp only [write64, writeBytes_stateMsgs]
@[simp] theorem write64_bcTable (s : State) (pa : Nat) (w : Word) : (write64 s pa w).bcTable = s.bcTable := by simp only [write64, writeBytes_bcTable]
@[simp] theorem write64_withdrawn (s : State) (pa : Nat) (w : Word) : (write64 s pa w).withdrawn = s.withdrawn := by simp only [write64, writeBytes_withdrawn]
@[simp] theorem write64_cxlLost (s : State) (pa : Nat) (w : Word) : (write64 s pa w).cxlLost = s.cxlLost := by simp only [write64, writeBytes_cxlLost]
@[simp] theorem write64_cxlUp (s : State) (pa : Nat) (w : Word) : (write64 s pa w).cxlUp = s.cxlUp := by simp only [write64, writeBytes_cxlUp]
@[simp] theorem write64_mgmt (s : State) (pa : Nat) (w : Word) : (write64 s pa w).mgmt = s.mgmt := by simp only [write64, writeBytes_mgmt]
@[simp] theorem write64_board (s : State) (pa : Nat) (w : Word) : (write64 s pa w).board = s.board := by simp only [write64, writeBytes_board]
@[simp] theorem write64_vault (s : State) (pa : Nat) (w : Word) : (write64 s pa w).vault = s.vault := by simp only [write64, writeBytes_vault]
@[simp] theorem write64_fuses (s : State) (pa : Nat) (w : Word) : (write64 s pa w).fuses = s.fuses := by simp only [write64, writeBytes_fuses]
@[simp] theorem write64_dimms (s : State) (pa : Nat) (w : Word) : (write64 s pa w).dimms = s.dimms := by simp only [write64, writeBytes_dimms]
@[simp] theorem write64_dir (s : State) (pa : Nat) (w : Word) : (write64 s pa w).dir = s.dir := by simp only [write64, writeBytes_dir]
@[simp] theorem write64_dup (s : State) (pa : Nat) (w : Word) : (write64 s pa w).dup = s.dup := by simp only [write64, writeBytes_dup]
@[simp] theorem write64_l3 (s : State) (pa : Nat) (w : Word) : (write64 s pa w).l3 = s.l3 := by simp only [write64, writeBytes_l3]
@[simp] theorem write64_txns (s : State) (pa : Nat) (w : Word) : (write64 s pa w).txns = s.txns := by simp only [write64, writeBytes_txns]
@[simp] theorem write64_homeQ (s : State) (pa : Nat) (w : Word) : (write64 s pa w).homeQ = s.homeQ := by simp only [write64, writeBytes_homeQ]
@[simp] theorem write64_heldReqs (s : State) (pa : Nat) (w : Word) : (write64 s pa w).heldReqs = s.heldReqs := by simp only [write64, writeBytes_heldReqs]
@[simp] theorem write64_fwd (s : State) (pa : Nat) (w : Word) : (write64 s pa w).fwd = s.fwd := by simp only [write64, writeBytes_fwd]
@[simp] theorem write64_rsp (s : State) (pa : Nat) (w : Word) : (write64 s pa w).rsp = s.rsp := by simp only [write64, writeBytes_rsp]
@[simp] theorem write64_sparings (s : State) (pa : Nat) (w : Word) : (write64 s pa w).sparings = s.sparings := by simp only [write64, writeBytes_sparings]
@[simp] theorem write64_retires (s : State) (pa : Nat) (w : Word) : (write64 s pa w).retires = s.retires := by simp only [write64, writeBytes_retires]
@[simp] theorem write64_subCopy (s : State) (pa : Nat) (w : Word) : (write64 s pa w).subCopy = s.subCopy := by simp only [write64, writeBytes_subCopy]
@[simp] theorem write64_scratchNew (s : State) (pa : Nat) (w : Word) : (write64 s pa w).scratchNew = s.scratchNew := by simp only [write64, writeBytes_scratchNew]
@[simp] theorem write64_fabric (s : State) (pa : Nat) (w : Word) : (write64 s pa w).fabric = s.fabric := by simp only [write64, writeBytes_fabric]
@[simp] theorem write64_mcs (s : State) (pa : Nat) (w : Word) : (write64 s pa w).mcs = s.mcs := by simp only [write64, writeBytes_mcs]
@[simp] theorem write64_irqDiscards (s : State) (pa : Nat) (w : Word) : (write64 s pa w).irqDiscards = s.irqDiscards := by simp only [write64, writeBytes_irqDiscards]
@[simp] theorem write64_pmTrusted (s : State) (pa : Nat) (w : Word) : (write64 s pa w).pmTrusted = s.pmTrusted := by simp only [write64, writeBytes_pmTrusted]
@[simp] theorem write64_engXlat (s : State) (pa : Nat) (w : Word) : (write64 s pa w).engXlat = s.engXlat := by simp only [write64, writeBytes_engXlat]
@[simp] theorem write64_chans (s : State) (pa : Nat) (w : Word) : (write64 s pa w).chans = s.chans := by simp only [write64, writeBytes_chans]
@[simp] theorem write64_sqOrder (s : State) (pa : Nat) (w : Word) : (write64 s pa w).sqOrder = s.sqOrder := by simp only [write64, writeBytes_sqOrder]
@[simp] theorem write64_ucode (s : State) (pa : Nat) (w : Word) : (write64 s pa w).ucode = s.ucode := by simp only [write64, writeBytes_ucode]
@[simp] theorem write64_bridge (s : State) (pa : Nat) (w : Word) : (write64 s pa w).bridge = s.bridge := by simp only [write64, writeBytes_bridge]
@[simp] theorem write64_bw (s : State) (pa : Nat) (w : Word) : (write64 s pa w).bw = s.bw := by simp only [write64, writeBytes_bw]
@[simp] theorem write64_pmAt (s : State) (pa : Nat) (w : Word) : (write64 s pa w).pmAt = s.pmAt := by simp only [write64, writeBytes_pmAt]

@[simp] theorem writeHost_pending (s : State) (p a : Nat) (bs : List Byte) : (writeHost s p a bs).pending = s.pending := by dsimp only [writeHost]
@[simp] theorem writeHost_time (s : State) (p a : Nat) (bs : List Byte) : (writeHost s p a bs).time = s.time := by dsimp only [writeHost]
@[simp] theorem writeHost_tb (s : State) (p a : Nat) (bs : List Byte) : (writeHost s p a bs).tb = s.tb := by dsimp only [writeHost]
@[simp] theorem writeHost_regs (s : State) (p a : Nat) (bs : List Byte) : (writeHost s p a bs).regs = s.regs := by dsimp only [writeHost]
@[simp] theorem writeHost_mem (s : State) (p a : Nat) (bs : List Byte) : (writeHost s p a bs).mem = s.mem := by dsimp only [writeHost]
@[simp] theorem writeHost_tags (s : State) (p a : Nat) (bs : List Byte) : (writeHost s p a bs).tags = s.tags := by dsimp only [writeHost]
@[simp] theorem writeHost_poison (s : State) (p a : Nat) (bs : List Byte) : (writeHost s p a bs).poison = s.poison := by dsimp only [writeHost]
@[simp] theorem writeHost_threads (s : State) (p a : Nat) (bs : List Byte) : (writeHost s p a bs).threads = s.threads := by dsimp only [writeHost]
@[simp] theorem writeHost_cores (s : State) (p a : Nat) (bs : List Byte) : (writeHost s p a bs).cores = s.cores := by dsimp only [writeHost]
@[simp] theorem writeHost_doms (s : State) (p a : Nat) (bs : List Byte) : (writeHost s p a bs).doms = s.doms := by dsimp only [writeHost]
@[simp] theorem writeHost_ports (s : State) (p a : Nat) (bs : List Byte) : (writeHost s p a bs).ports = s.ports := by dsimp only [writeHost]
@[simp] theorem writeHost_log (s : State) (p a : Nat) (bs : List Byte) : (writeHost s p a bs).log = s.log := by dsimp only [writeHost]
@[simp] theorem writeHost_irqMsgs (s : State) (p a : Nat) (bs : List Byte) : (writeHost s p a bs).irqMsgs = s.irqMsgs := by dsimp only [writeHost]
@[simp] theorem writeHost_stateMsgs (s : State) (p a : Nat) (bs : List Byte) : (writeHost s p a bs).stateMsgs = s.stateMsgs := by dsimp only [writeHost]
@[simp] theorem writeHost_bcTable (s : State) (p a : Nat) (bs : List Byte) : (writeHost s p a bs).bcTable = s.bcTable := by dsimp only [writeHost]
@[simp] theorem writeHost_withdrawn (s : State) (p a : Nat) (bs : List Byte) : (writeHost s p a bs).withdrawn = s.withdrawn := by dsimp only [writeHost]
@[simp] theorem writeHost_cxlLost (s : State) (p a : Nat) (bs : List Byte) : (writeHost s p a bs).cxlLost = s.cxlLost := by dsimp only [writeHost]
@[simp] theorem writeHost_cxlUp (s : State) (p a : Nat) (bs : List Byte) : (writeHost s p a bs).cxlUp = s.cxlUp := by dsimp only [writeHost]
@[simp] theorem writeHost_mgmt (s : State) (p a : Nat) (bs : List Byte) : (writeHost s p a bs).mgmt = s.mgmt := by dsimp only [writeHost]
@[simp] theorem writeHost_board (s : State) (p a : Nat) (bs : List Byte) : (writeHost s p a bs).board = s.board := by dsimp only [writeHost]
@[simp] theorem writeHost_vault (s : State) (p a : Nat) (bs : List Byte) : (writeHost s p a bs).vault = s.vault := by dsimp only [writeHost]
@[simp] theorem writeHost_fuses (s : State) (p a : Nat) (bs : List Byte) : (writeHost s p a bs).fuses = s.fuses := by dsimp only [writeHost]
@[simp] theorem writeHost_dimms (s : State) (p a : Nat) (bs : List Byte) : (writeHost s p a bs).dimms = s.dimms := by dsimp only [writeHost]
@[simp] theorem writeHost_dir (s : State) (p a : Nat) (bs : List Byte) : (writeHost s p a bs).dir = s.dir := by dsimp only [writeHost]
@[simp] theorem writeHost_dup (s : State) (p a : Nat) (bs : List Byte) : (writeHost s p a bs).dup = s.dup := by dsimp only [writeHost]
@[simp] theorem writeHost_l3 (s : State) (p a : Nat) (bs : List Byte) : (writeHost s p a bs).l3 = s.l3 := by dsimp only [writeHost]
@[simp] theorem writeHost_txns (s : State) (p a : Nat) (bs : List Byte) : (writeHost s p a bs).txns = s.txns := by dsimp only [writeHost]
@[simp] theorem writeHost_homeQ (s : State) (p a : Nat) (bs : List Byte) : (writeHost s p a bs).homeQ = s.homeQ := by dsimp only [writeHost]
@[simp] theorem writeHost_heldReqs (s : State) (p a : Nat) (bs : List Byte) : (writeHost s p a bs).heldReqs = s.heldReqs := by dsimp only [writeHost]
@[simp] theorem writeHost_fwd (s : State) (p a : Nat) (bs : List Byte) : (writeHost s p a bs).fwd = s.fwd := by dsimp only [writeHost]
@[simp] theorem writeHost_rsp (s : State) (p a : Nat) (bs : List Byte) : (writeHost s p a bs).rsp = s.rsp := by dsimp only [writeHost]
@[simp] theorem writeHost_sparings (s : State) (p a : Nat) (bs : List Byte) : (writeHost s p a bs).sparings = s.sparings := by dsimp only [writeHost]
@[simp] theorem writeHost_retires (s : State) (p a : Nat) (bs : List Byte) : (writeHost s p a bs).retires = s.retires := by dsimp only [writeHost]
@[simp] theorem writeHost_subCopy (s : State) (p a : Nat) (bs : List Byte) : (writeHost s p a bs).subCopy = s.subCopy := by dsimp only [writeHost]
@[simp] theorem writeHost_scratchNew (s : State) (p a : Nat) (bs : List Byte) : (writeHost s p a bs).scratchNew = s.scratchNew := by dsimp only [writeHost]
@[simp] theorem writeHost_fabric (s : State) (p a : Nat) (bs : List Byte) : (writeHost s p a bs).fabric = s.fabric := by dsimp only [writeHost]
@[simp] theorem writeHost_mcs (s : State) (p a : Nat) (bs : List Byte) : (writeHost s p a bs).mcs = s.mcs := by dsimp only [writeHost]
@[simp] theorem writeHost_irqDiscards (s : State) (p a : Nat) (bs : List Byte) : (writeHost s p a bs).irqDiscards = s.irqDiscards := by dsimp only [writeHost]
@[simp] theorem writeHost_pmTrusted (s : State) (p a : Nat) (bs : List Byte) : (writeHost s p a bs).pmTrusted = s.pmTrusted := by dsimp only [writeHost]
@[simp] theorem writeHost_engXlat (s : State) (p a : Nat) (bs : List Byte) : (writeHost s p a bs).engXlat = s.engXlat := by dsimp only [writeHost]
@[simp] theorem writeHost_chans (s : State) (p a : Nat) (bs : List Byte) : (writeHost s p a bs).chans = s.chans := by dsimp only [writeHost]
@[simp] theorem writeHost_sqOrder (s : State) (p a : Nat) (bs : List Byte) : (writeHost s p a bs).sqOrder = s.sqOrder := by dsimp only [writeHost]
@[simp] theorem writeHost_ucode (s : State) (p a : Nat) (bs : List Byte) : (writeHost s p a bs).ucode = s.ucode := by dsimp only [writeHost]
@[simp] theorem writeHost_bridge (s : State) (p a : Nat) (bs : List Byte) : (writeHost s p a bs).bridge = s.bridge := by dsimp only [writeHost]
@[simp] theorem writeHost_bw (s : State) (p a : Nat) (bs : List Byte) : (writeHost s p a bs).bw = s.bw := by dsimp only [writeHost]
@[simp] theorem writeHost_pmAt (s : State) (p a : Nat) (bs : List Byte) : (writeHost s p a bs).pmAt = s.pmAt := by dsimp only [writeHost]

@[simp] theorem sendIrq_pending (s : State) (thread vector source : Nat) : (sendIrq s thread vector source).pending = s.pending := by dsimp only [sendIrq]
@[simp] theorem sendIrq_time (s : State) (thread vector source : Nat) : (sendIrq s thread vector source).time = s.time := by dsimp only [sendIrq]
@[simp] theorem sendIrq_tb (s : State) (thread vector source : Nat) : (sendIrq s thread vector source).tb = s.tb := by dsimp only [sendIrq]
@[simp] theorem sendIrq_regs (s : State) (thread vector source : Nat) : (sendIrq s thread vector source).regs = s.regs := by dsimp only [sendIrq]
@[simp] theorem sendIrq_mem (s : State) (thread vector source : Nat) : (sendIrq s thread vector source).mem = s.mem := by dsimp only [sendIrq]
@[simp] theorem sendIrq_tags (s : State) (thread vector source : Nat) : (sendIrq s thread vector source).tags = s.tags := by dsimp only [sendIrq]
@[simp] theorem sendIrq_poison (s : State) (thread vector source : Nat) : (sendIrq s thread vector source).poison = s.poison := by dsimp only [sendIrq]
@[simp] theorem sendIrq_hostMem (s : State) (thread vector source : Nat) : (sendIrq s thread vector source).hostMem = s.hostMem := by dsimp only [sendIrq]
@[simp] theorem sendIrq_threads (s : State) (thread vector source : Nat) : (sendIrq s thread vector source).threads = s.threads := by dsimp only [sendIrq]
@[simp] theorem sendIrq_cores (s : State) (thread vector source : Nat) : (sendIrq s thread vector source).cores = s.cores := by dsimp only [sendIrq]
@[simp] theorem sendIrq_doms (s : State) (thread vector source : Nat) : (sendIrq s thread vector source).doms = s.doms := by dsimp only [sendIrq]
@[simp] theorem sendIrq_ports (s : State) (thread vector source : Nat) : (sendIrq s thread vector source).ports = s.ports := by dsimp only [sendIrq]
@[simp] theorem sendIrq_log (s : State) (thread vector source : Nat) : (sendIrq s thread vector source).log = s.log := by dsimp only [sendIrq]
@[simp] theorem sendIrq_stateMsgs (s : State) (thread vector source : Nat) : (sendIrq s thread vector source).stateMsgs = s.stateMsgs := by dsimp only [sendIrq]
@[simp] theorem sendIrq_bcTable (s : State) (thread vector source : Nat) : (sendIrq s thread vector source).bcTable = s.bcTable := by dsimp only [sendIrq]
@[simp] theorem sendIrq_withdrawn (s : State) (thread vector source : Nat) : (sendIrq s thread vector source).withdrawn = s.withdrawn := by dsimp only [sendIrq]
@[simp] theorem sendIrq_cxlLost (s : State) (thread vector source : Nat) : (sendIrq s thread vector source).cxlLost = s.cxlLost := by dsimp only [sendIrq]
@[simp] theorem sendIrq_cxlUp (s : State) (thread vector source : Nat) : (sendIrq s thread vector source).cxlUp = s.cxlUp := by dsimp only [sendIrq]
@[simp] theorem sendIrq_mgmt (s : State) (thread vector source : Nat) : (sendIrq s thread vector source).mgmt = s.mgmt := by dsimp only [sendIrq]
@[simp] theorem sendIrq_board (s : State) (thread vector source : Nat) : (sendIrq s thread vector source).board = s.board := by dsimp only [sendIrq]
@[simp] theorem sendIrq_vault (s : State) (thread vector source : Nat) : (sendIrq s thread vector source).vault = s.vault := by dsimp only [sendIrq]
@[simp] theorem sendIrq_fuses (s : State) (thread vector source : Nat) : (sendIrq s thread vector source).fuses = s.fuses := by dsimp only [sendIrq]
@[simp] theorem sendIrq_dimms (s : State) (thread vector source : Nat) : (sendIrq s thread vector source).dimms = s.dimms := by dsimp only [sendIrq]
@[simp] theorem sendIrq_dir (s : State) (thread vector source : Nat) : (sendIrq s thread vector source).dir = s.dir := by dsimp only [sendIrq]
@[simp] theorem sendIrq_dup (s : State) (thread vector source : Nat) : (sendIrq s thread vector source).dup = s.dup := by dsimp only [sendIrq]
@[simp] theorem sendIrq_l3 (s : State) (thread vector source : Nat) : (sendIrq s thread vector source).l3 = s.l3 := by dsimp only [sendIrq]
@[simp] theorem sendIrq_txns (s : State) (thread vector source : Nat) : (sendIrq s thread vector source).txns = s.txns := by dsimp only [sendIrq]
@[simp] theorem sendIrq_homeQ (s : State) (thread vector source : Nat) : (sendIrq s thread vector source).homeQ = s.homeQ := by dsimp only [sendIrq]
@[simp] theorem sendIrq_heldReqs (s : State) (thread vector source : Nat) : (sendIrq s thread vector source).heldReqs = s.heldReqs := by dsimp only [sendIrq]
@[simp] theorem sendIrq_fwd (s : State) (thread vector source : Nat) : (sendIrq s thread vector source).fwd = s.fwd := by dsimp only [sendIrq]
@[simp] theorem sendIrq_rsp (s : State) (thread vector source : Nat) : (sendIrq s thread vector source).rsp = s.rsp := by dsimp only [sendIrq]
@[simp] theorem sendIrq_sparings (s : State) (thread vector source : Nat) : (sendIrq s thread vector source).sparings = s.sparings := by dsimp only [sendIrq]
@[simp] theorem sendIrq_retires (s : State) (thread vector source : Nat) : (sendIrq s thread vector source).retires = s.retires := by dsimp only [sendIrq]
@[simp] theorem sendIrq_subCopy (s : State) (thread vector source : Nat) : (sendIrq s thread vector source).subCopy = s.subCopy := by dsimp only [sendIrq]
@[simp] theorem sendIrq_scratchNew (s : State) (thread vector source : Nat) : (sendIrq s thread vector source).scratchNew = s.scratchNew := by dsimp only [sendIrq]
@[simp] theorem sendIrq_fabric (s : State) (thread vector source : Nat) : (sendIrq s thread vector source).fabric = s.fabric := by dsimp only [sendIrq]
@[simp] theorem sendIrq_mcs (s : State) (thread vector source : Nat) : (sendIrq s thread vector source).mcs = s.mcs := by dsimp only [sendIrq]
@[simp] theorem sendIrq_irqDiscards (s : State) (thread vector source : Nat) : (sendIrq s thread vector source).irqDiscards = s.irqDiscards := by dsimp only [sendIrq]
@[simp] theorem sendIrq_pmTrusted (s : State) (thread vector source : Nat) : (sendIrq s thread vector source).pmTrusted = s.pmTrusted := by dsimp only [sendIrq]
@[simp] theorem sendIrq_engXlat (s : State) (thread vector source : Nat) : (sendIrq s thread vector source).engXlat = s.engXlat := by dsimp only [sendIrq]
@[simp] theorem sendIrq_chans (s : State) (thread vector source : Nat) : (sendIrq s thread vector source).chans = s.chans := by dsimp only [sendIrq]
@[simp] theorem sendIrq_sqOrder (s : State) (thread vector source : Nat) : (sendIrq s thread vector source).sqOrder = s.sqOrder := by dsimp only [sendIrq]
@[simp] theorem sendIrq_ucode (s : State) (thread vector source : Nat) : (sendIrq s thread vector source).ucode = s.ucode := by dsimp only [sendIrq]
@[simp] theorem sendIrq_bridge (s : State) (thread vector source : Nat) : (sendIrq s thread vector source).bridge = s.bridge := by dsimp only [sendIrq]
@[simp] theorem sendIrq_bw (s : State) (thread vector source : Nat) : (sendIrq s thread vector source).bw = s.bw := by dsimp only [sendIrq]
@[simp] theorem sendIrq_pmAt (s : State) (thread vector source : Nat) : (sendIrq s thread vector source).pmAt = s.pmAt := by dsimp only [sendIrq]

@[simp] theorem notify_pending (s : State) (r : Nat) : (notify s r).pending = s.pending := by dsimp only [notify]
@[simp] theorem notify_time (s : State) (r : Nat) : (notify s r).time = s.time := by dsimp only [notify]
@[simp] theorem notify_tb (s : State) (r : Nat) : (notify s r).tb = s.tb := by dsimp only [notify]
@[simp] theorem notify_regs (s : State) (r : Nat) : (notify s r).regs = s.regs := by dsimp only [notify]
@[simp] theorem notify_mem (s : State) (r : Nat) : (notify s r).mem = s.mem := by dsimp only [notify]
@[simp] theorem notify_tags (s : State) (r : Nat) : (notify s r).tags = s.tags := by dsimp only [notify]
@[simp] theorem notify_poison (s : State) (r : Nat) : (notify s r).poison = s.poison := by dsimp only [notify]
@[simp] theorem notify_hostMem (s : State) (r : Nat) : (notify s r).hostMem = s.hostMem := by dsimp only [notify]
@[simp] theorem notify_threads (s : State) (r : Nat) : (notify s r).threads = s.threads := by dsimp only [notify]
@[simp] theorem notify_cores (s : State) (r : Nat) : (notify s r).cores = s.cores := by dsimp only [notify]
@[simp] theorem notify_doms (s : State) (r : Nat) : (notify s r).doms = s.doms := by dsimp only [notify]
@[simp] theorem notify_ports (s : State) (r : Nat) : (notify s r).ports = s.ports := by dsimp only [notify]
@[simp] theorem notify_log (s : State) (r : Nat) : (notify s r).log = s.log := by dsimp only [notify]
@[simp] theorem notify_stateMsgs (s : State) (r : Nat) : (notify s r).stateMsgs = s.stateMsgs := by dsimp only [notify]
@[simp] theorem notify_bcTable (s : State) (r : Nat) : (notify s r).bcTable = s.bcTable := by dsimp only [notify]
@[simp] theorem notify_withdrawn (s : State) (r : Nat) : (notify s r).withdrawn = s.withdrawn := by dsimp only [notify]
@[simp] theorem notify_cxlLost (s : State) (r : Nat) : (notify s r).cxlLost = s.cxlLost := by dsimp only [notify]
@[simp] theorem notify_cxlUp (s : State) (r : Nat) : (notify s r).cxlUp = s.cxlUp := by dsimp only [notify]
@[simp] theorem notify_mgmt (s : State) (r : Nat) : (notify s r).mgmt = s.mgmt := by dsimp only [notify]
@[simp] theorem notify_board (s : State) (r : Nat) : (notify s r).board = s.board := by dsimp only [notify]
@[simp] theorem notify_vault (s : State) (r : Nat) : (notify s r).vault = s.vault := by dsimp only [notify]
@[simp] theorem notify_fuses (s : State) (r : Nat) : (notify s r).fuses = s.fuses := by dsimp only [notify]
@[simp] theorem notify_dimms (s : State) (r : Nat) : (notify s r).dimms = s.dimms := by dsimp only [notify]
@[simp] theorem notify_dir (s : State) (r : Nat) : (notify s r).dir = s.dir := by dsimp only [notify]
@[simp] theorem notify_dup (s : State) (r : Nat) : (notify s r).dup = s.dup := by dsimp only [notify]
@[simp] theorem notify_l3 (s : State) (r : Nat) : (notify s r).l3 = s.l3 := by dsimp only [notify]
@[simp] theorem notify_txns (s : State) (r : Nat) : (notify s r).txns = s.txns := by dsimp only [notify]
@[simp] theorem notify_homeQ (s : State) (r : Nat) : (notify s r).homeQ = s.homeQ := by dsimp only [notify]
@[simp] theorem notify_heldReqs (s : State) (r : Nat) : (notify s r).heldReqs = s.heldReqs := by dsimp only [notify]
@[simp] theorem notify_fwd (s : State) (r : Nat) : (notify s r).fwd = s.fwd := by dsimp only [notify]
@[simp] theorem notify_rsp (s : State) (r : Nat) : (notify s r).rsp = s.rsp := by dsimp only [notify]
@[simp] theorem notify_sparings (s : State) (r : Nat) : (notify s r).sparings = s.sparings := by dsimp only [notify]
@[simp] theorem notify_retires (s : State) (r : Nat) : (notify s r).retires = s.retires := by dsimp only [notify]
@[simp] theorem notify_subCopy (s : State) (r : Nat) : (notify s r).subCopy = s.subCopy := by dsimp only [notify]
@[simp] theorem notify_scratchNew (s : State) (r : Nat) : (notify s r).scratchNew = s.scratchNew := by dsimp only [notify]
@[simp] theorem notify_fabric (s : State) (r : Nat) : (notify s r).fabric = s.fabric := by dsimp only [notify]
@[simp] theorem notify_mcs (s : State) (r : Nat) : (notify s r).mcs = s.mcs := by dsimp only [notify]
@[simp] theorem notify_irqDiscards (s : State) (r : Nat) : (notify s r).irqDiscards = s.irqDiscards := by dsimp only [notify]
@[simp] theorem notify_pmTrusted (s : State) (r : Nat) : (notify s r).pmTrusted = s.pmTrusted := by dsimp only [notify]
@[simp] theorem notify_engXlat (s : State) (r : Nat) : (notify s r).engXlat = s.engXlat := by dsimp only [notify]
@[simp] theorem notify_chans (s : State) (r : Nat) : (notify s r).chans = s.chans := by dsimp only [notify]
@[simp] theorem notify_sqOrder (s : State) (r : Nat) : (notify s r).sqOrder = s.sqOrder := by dsimp only [notify]
@[simp] theorem notify_ucode (s : State) (r : Nat) : (notify s r).ucode = s.ucode := by dsimp only [notify]
@[simp] theorem notify_bridge (s : State) (r : Nat) : (notify s r).bridge = s.bridge := by dsimp only [notify]
@[simp] theorem notify_bw (s : State) (r : Nat) : (notify s r).bw = s.bw := by dsimp only [notify]
@[simp] theorem notify_pmAt (s : State) (r : Nat) : (notify s r).pmAt = s.pmAt := by dsimp only [notify]

@[simp] theorem logRecord_pending (s : State) (type unit cause p0 p1 p2 p3 : Nat) (b : Bool) : (logRecord s type unit cause p0 p1 p2 p3 b).pending = s.pending := by dsimp only [logRecord]
@[simp] theorem logRecord_time (s : State) (type unit cause p0 p1 p2 p3 : Nat) (b : Bool) : (logRecord s type unit cause p0 p1 p2 p3 b).time = s.time := by dsimp only [logRecord]
@[simp] theorem logRecord_tb (s : State) (type unit cause p0 p1 p2 p3 : Nat) (b : Bool) : (logRecord s type unit cause p0 p1 p2 p3 b).tb = s.tb := by dsimp only [logRecord]
@[simp] theorem logRecord_regs (s : State) (type unit cause p0 p1 p2 p3 : Nat) (b : Bool) : (logRecord s type unit cause p0 p1 p2 p3 b).regs = s.regs := by dsimp only [logRecord]
@[simp] theorem logRecord_mem (s : State) (type unit cause p0 p1 p2 p3 : Nat) (b : Bool) : (logRecord s type unit cause p0 p1 p2 p3 b).mem = s.mem := by dsimp only [logRecord]
@[simp] theorem logRecord_tags (s : State) (type unit cause p0 p1 p2 p3 : Nat) (b : Bool) : (logRecord s type unit cause p0 p1 p2 p3 b).tags = s.tags := by dsimp only [logRecord]
@[simp] theorem logRecord_poison (s : State) (type unit cause p0 p1 p2 p3 : Nat) (b : Bool) : (logRecord s type unit cause p0 p1 p2 p3 b).poison = s.poison := by dsimp only [logRecord]
@[simp] theorem logRecord_hostMem (s : State) (type unit cause p0 p1 p2 p3 : Nat) (b : Bool) : (logRecord s type unit cause p0 p1 p2 p3 b).hostMem = s.hostMem := by dsimp only [logRecord]
@[simp] theorem logRecord_threads (s : State) (type unit cause p0 p1 p2 p3 : Nat) (b : Bool) : (logRecord s type unit cause p0 p1 p2 p3 b).threads = s.threads := by dsimp only [logRecord]
@[simp] theorem logRecord_cores (s : State) (type unit cause p0 p1 p2 p3 : Nat) (b : Bool) : (logRecord s type unit cause p0 p1 p2 p3 b).cores = s.cores := by dsimp only [logRecord]
@[simp] theorem logRecord_doms (s : State) (type unit cause p0 p1 p2 p3 : Nat) (b : Bool) : (logRecord s type unit cause p0 p1 p2 p3 b).doms = s.doms := by dsimp only [logRecord]
@[simp] theorem logRecord_ports (s : State) (type unit cause p0 p1 p2 p3 : Nat) (b : Bool) : (logRecord s type unit cause p0 p1 p2 p3 b).ports = s.ports := by dsimp only [logRecord]
@[simp] theorem logRecord_stateMsgs (s : State) (type unit cause p0 p1 p2 p3 : Nat) (b : Bool) : (logRecord s type unit cause p0 p1 p2 p3 b).stateMsgs = s.stateMsgs := by dsimp only [logRecord]
@[simp] theorem logRecord_bcTable (s : State) (type unit cause p0 p1 p2 p3 : Nat) (b : Bool) : (logRecord s type unit cause p0 p1 p2 p3 b).bcTable = s.bcTable := by dsimp only [logRecord]
@[simp] theorem logRecord_withdrawn (s : State) (type unit cause p0 p1 p2 p3 : Nat) (b : Bool) : (logRecord s type unit cause p0 p1 p2 p3 b).withdrawn = s.withdrawn := by dsimp only [logRecord]
@[simp] theorem logRecord_cxlLost (s : State) (type unit cause p0 p1 p2 p3 : Nat) (b : Bool) : (logRecord s type unit cause p0 p1 p2 p3 b).cxlLost = s.cxlLost := by dsimp only [logRecord]
@[simp] theorem logRecord_cxlUp (s : State) (type unit cause p0 p1 p2 p3 : Nat) (b : Bool) : (logRecord s type unit cause p0 p1 p2 p3 b).cxlUp = s.cxlUp := by dsimp only [logRecord]
@[simp] theorem logRecord_mgmt (s : State) (type unit cause p0 p1 p2 p3 : Nat) (b : Bool) : (logRecord s type unit cause p0 p1 p2 p3 b).mgmt = s.mgmt := by dsimp only [logRecord]
@[simp] theorem logRecord_board (s : State) (type unit cause p0 p1 p2 p3 : Nat) (b : Bool) : (logRecord s type unit cause p0 p1 p2 p3 b).board = s.board := by dsimp only [logRecord]
@[simp] theorem logRecord_vault (s : State) (type unit cause p0 p1 p2 p3 : Nat) (b : Bool) : (logRecord s type unit cause p0 p1 p2 p3 b).vault = s.vault := by dsimp only [logRecord]
@[simp] theorem logRecord_fuses (s : State) (type unit cause p0 p1 p2 p3 : Nat) (b : Bool) : (logRecord s type unit cause p0 p1 p2 p3 b).fuses = s.fuses := by dsimp only [logRecord]
@[simp] theorem logRecord_dimms (s : State) (type unit cause p0 p1 p2 p3 : Nat) (b : Bool) : (logRecord s type unit cause p0 p1 p2 p3 b).dimms = s.dimms := by dsimp only [logRecord]
@[simp] theorem logRecord_dir (s : State) (type unit cause p0 p1 p2 p3 : Nat) (b : Bool) : (logRecord s type unit cause p0 p1 p2 p3 b).dir = s.dir := by dsimp only [logRecord]
@[simp] theorem logRecord_dup (s : State) (type unit cause p0 p1 p2 p3 : Nat) (b : Bool) : (logRecord s type unit cause p0 p1 p2 p3 b).dup = s.dup := by dsimp only [logRecord]
@[simp] theorem logRecord_l3 (s : State) (type unit cause p0 p1 p2 p3 : Nat) (b : Bool) : (logRecord s type unit cause p0 p1 p2 p3 b).l3 = s.l3 := by dsimp only [logRecord]
@[simp] theorem logRecord_txns (s : State) (type unit cause p0 p1 p2 p3 : Nat) (b : Bool) : (logRecord s type unit cause p0 p1 p2 p3 b).txns = s.txns := by dsimp only [logRecord]
@[simp] theorem logRecord_homeQ (s : State) (type unit cause p0 p1 p2 p3 : Nat) (b : Bool) : (logRecord s type unit cause p0 p1 p2 p3 b).homeQ = s.homeQ := by dsimp only [logRecord]
@[simp] theorem logRecord_heldReqs (s : State) (type unit cause p0 p1 p2 p3 : Nat) (b : Bool) : (logRecord s type unit cause p0 p1 p2 p3 b).heldReqs = s.heldReqs := by dsimp only [logRecord]
@[simp] theorem logRecord_fwd (s : State) (type unit cause p0 p1 p2 p3 : Nat) (b : Bool) : (logRecord s type unit cause p0 p1 p2 p3 b).fwd = s.fwd := by dsimp only [logRecord]
@[simp] theorem logRecord_rsp (s : State) (type unit cause p0 p1 p2 p3 : Nat) (b : Bool) : (logRecord s type unit cause p0 p1 p2 p3 b).rsp = s.rsp := by dsimp only [logRecord]
@[simp] theorem logRecord_sparings (s : State) (type unit cause p0 p1 p2 p3 : Nat) (b : Bool) : (logRecord s type unit cause p0 p1 p2 p3 b).sparings = s.sparings := by dsimp only [logRecord]
@[simp] theorem logRecord_retires (s : State) (type unit cause p0 p1 p2 p3 : Nat) (b : Bool) : (logRecord s type unit cause p0 p1 p2 p3 b).retires = s.retires := by dsimp only [logRecord]
@[simp] theorem logRecord_subCopy (s : State) (type unit cause p0 p1 p2 p3 : Nat) (b : Bool) : (logRecord s type unit cause p0 p1 p2 p3 b).subCopy = s.subCopy := by dsimp only [logRecord]
@[simp] theorem logRecord_scratchNew (s : State) (type unit cause p0 p1 p2 p3 : Nat) (b : Bool) : (logRecord s type unit cause p0 p1 p2 p3 b).scratchNew = s.scratchNew := by dsimp only [logRecord]
@[simp] theorem logRecord_fabric (s : State) (type unit cause p0 p1 p2 p3 : Nat) (b : Bool) : (logRecord s type unit cause p0 p1 p2 p3 b).fabric = s.fabric := by dsimp only [logRecord]
@[simp] theorem logRecord_mcs (s : State) (type unit cause p0 p1 p2 p3 : Nat) (b : Bool) : (logRecord s type unit cause p0 p1 p2 p3 b).mcs = s.mcs := by dsimp only [logRecord]
@[simp] theorem logRecord_irqDiscards (s : State) (type unit cause p0 p1 p2 p3 : Nat) (b : Bool) : (logRecord s type unit cause p0 p1 p2 p3 b).irqDiscards = s.irqDiscards := by dsimp only [logRecord]
@[simp] theorem logRecord_pmTrusted (s : State) (type unit cause p0 p1 p2 p3 : Nat) (b : Bool) : (logRecord s type unit cause p0 p1 p2 p3 b).pmTrusted = s.pmTrusted := by dsimp only [logRecord]
@[simp] theorem logRecord_engXlat (s : State) (type unit cause p0 p1 p2 p3 : Nat) (b : Bool) : (logRecord s type unit cause p0 p1 p2 p3 b).engXlat = s.engXlat := by dsimp only [logRecord]
@[simp] theorem logRecord_chans (s : State) (type unit cause p0 p1 p2 p3 : Nat) (b : Bool) : (logRecord s type unit cause p0 p1 p2 p3 b).chans = s.chans := by dsimp only [logRecord]
@[simp] theorem logRecord_sqOrder (s : State) (type unit cause p0 p1 p2 p3 : Nat) (b : Bool) : (logRecord s type unit cause p0 p1 p2 p3 b).sqOrder = s.sqOrder := by dsimp only [logRecord]
@[simp] theorem logRecord_ucode (s : State) (type unit cause p0 p1 p2 p3 : Nat) (b : Bool) : (logRecord s type unit cause p0 p1 p2 p3 b).ucode = s.ucode := by dsimp only [logRecord]
@[simp] theorem logRecord_bridge (s : State) (type unit cause p0 p1 p2 p3 : Nat) (b : Bool) : (logRecord s type unit cause p0 p1 p2 p3 b).bridge = s.bridge := by dsimp only [logRecord]
@[simp] theorem logRecord_bw (s : State) (type unit cause p0 p1 p2 p3 : Nat) (b : Bool) : (logRecord s type unit cause p0 p1 p2 p3 b).bw = s.bw := by dsimp only [logRecord]
@[simp] theorem logRecord_pmAt (s : State) (type unit cause p0 p1 p2 p3 : Nat) (b : Bool) : (logRecord s type unit cause p0 p1 p2 p3 b).pmAt = s.pmAt := by dsimp only [logRecord]

@[simp] theorem writeState_pending (s : State) (u dst cause : Nat) : (writeState s u dst cause).pending = s.pending := by simp only [writeState, State.putR_pending]
@[simp] theorem writeState_time (s : State) (u dst cause : Nat) : (writeState s u dst cause).time = s.time := by simp only [writeState, State.putR_time]
@[simp] theorem writeState_tb (s : State) (u dst cause : Nat) : (writeState s u dst cause).tb = s.tb := by simp only [writeState, State.putR_tb]
@[simp] theorem writeState_mem (s : State) (u dst cause : Nat) : (writeState s u dst cause).mem = s.mem := by simp only [writeState, State.putR_mem]
@[simp] theorem writeState_tags (s : State) (u dst cause : Nat) : (writeState s u dst cause).tags = s.tags := by simp only [writeState, State.putR_tags]
@[simp] theorem writeState_poison (s : State) (u dst cause : Nat) : (writeState s u dst cause).poison = s.poison := by simp only [writeState, State.putR_poison]
@[simp] theorem writeState_hostMem (s : State) (u dst cause : Nat) : (writeState s u dst cause).hostMem = s.hostMem := by simp only [writeState, State.putR_hostMem]
@[simp] theorem writeState_threads (s : State) (u dst cause : Nat) : (writeState s u dst cause).threads = s.threads := by simp only [writeState, State.putR_threads]
@[simp] theorem writeState_cores (s : State) (u dst cause : Nat) : (writeState s u dst cause).cores = s.cores := by simp only [writeState, State.putR_cores]
@[simp] theorem writeState_doms (s : State) (u dst cause : Nat) : (writeState s u dst cause).doms = s.doms := by simp only [writeState, State.putR_doms]
@[simp] theorem writeState_ports (s : State) (u dst cause : Nat) : (writeState s u dst cause).ports = s.ports := by simp only [writeState, State.putR_ports]
@[simp] theorem writeState_log (s : State) (u dst cause : Nat) : (writeState s u dst cause).log = s.log := by simp only [writeState, State.putR_log]
@[simp] theorem writeState_irqMsgs (s : State) (u dst cause : Nat) : (writeState s u dst cause).irqMsgs = s.irqMsgs := by simp only [writeState, State.putR_irqMsgs]
@[simp] theorem writeState_stateMsgs (s : State) (u dst cause : Nat) : (writeState s u dst cause).stateMsgs = s.stateMsgs := by simp only [writeState, State.putR_stateMsgs]
@[simp] theorem writeState_bcTable (s : State) (u dst cause : Nat) : (writeState s u dst cause).bcTable = s.bcTable := by simp only [writeState, State.putR_bcTable]
@[simp] theorem writeState_withdrawn (s : State) (u dst cause : Nat) : (writeState s u dst cause).withdrawn = s.withdrawn := by simp only [writeState, State.putR_withdrawn]
@[simp] theorem writeState_cxlLost (s : State) (u dst cause : Nat) : (writeState s u dst cause).cxlLost = s.cxlLost := by simp only [writeState, State.putR_cxlLost]
@[simp] theorem writeState_cxlUp (s : State) (u dst cause : Nat) : (writeState s u dst cause).cxlUp = s.cxlUp := by simp only [writeState, State.putR_cxlUp]
@[simp] theorem writeState_mgmt (s : State) (u dst cause : Nat) : (writeState s u dst cause).mgmt = s.mgmt := by simp only [writeState, State.putR_mgmt]
@[simp] theorem writeState_board (s : State) (u dst cause : Nat) : (writeState s u dst cause).board = s.board := by simp only [writeState, State.putR_board]
@[simp] theorem writeState_vault (s : State) (u dst cause : Nat) : (writeState s u dst cause).vault = s.vault := by simp only [writeState, State.putR_vault]
@[simp] theorem writeState_fuses (s : State) (u dst cause : Nat) : (writeState s u dst cause).fuses = s.fuses := by simp only [writeState, State.putR_fuses]
@[simp] theorem writeState_dimms (s : State) (u dst cause : Nat) : (writeState s u dst cause).dimms = s.dimms := by simp only [writeState, State.putR_dimms]
@[simp] theorem writeState_dir (s : State) (u dst cause : Nat) : (writeState s u dst cause).dir = s.dir := by simp only [writeState, State.putR_dir]
@[simp] theorem writeState_dup (s : State) (u dst cause : Nat) : (writeState s u dst cause).dup = s.dup := by simp only [writeState, State.putR_dup]
@[simp] theorem writeState_l3 (s : State) (u dst cause : Nat) : (writeState s u dst cause).l3 = s.l3 := by simp only [writeState, State.putR_l3]
@[simp] theorem writeState_txns (s : State) (u dst cause : Nat) : (writeState s u dst cause).txns = s.txns := by simp only [writeState, State.putR_txns]
@[simp] theorem writeState_homeQ (s : State) (u dst cause : Nat) : (writeState s u dst cause).homeQ = s.homeQ := by simp only [writeState, State.putR_homeQ]
@[simp] theorem writeState_heldReqs (s : State) (u dst cause : Nat) : (writeState s u dst cause).heldReqs = s.heldReqs := by simp only [writeState, State.putR_heldReqs]
@[simp] theorem writeState_fwd (s : State) (u dst cause : Nat) : (writeState s u dst cause).fwd = s.fwd := by simp only [writeState, State.putR_fwd]
@[simp] theorem writeState_rsp (s : State) (u dst cause : Nat) : (writeState s u dst cause).rsp = s.rsp := by simp only [writeState, State.putR_rsp]
@[simp] theorem writeState_sparings (s : State) (u dst cause : Nat) : (writeState s u dst cause).sparings = s.sparings := by simp only [writeState, State.putR_sparings]
@[simp] theorem writeState_retires (s : State) (u dst cause : Nat) : (writeState s u dst cause).retires = s.retires := by simp only [writeState, State.putR_retires]
@[simp] theorem writeState_subCopy (s : State) (u dst cause : Nat) : (writeState s u dst cause).subCopy = s.subCopy := by simp only [writeState, State.putR_subCopy]
@[simp] theorem writeState_scratchNew (s : State) (u dst cause : Nat) : (writeState s u dst cause).scratchNew = s.scratchNew := by simp only [writeState, State.putR_scratchNew]
@[simp] theorem writeState_fabric (s : State) (u dst cause : Nat) : (writeState s u dst cause).fabric = s.fabric := by simp only [writeState, State.putR_fabric]
@[simp] theorem writeState_mcs (s : State) (u dst cause : Nat) : (writeState s u dst cause).mcs = s.mcs := by simp only [writeState, State.putR_mcs]
@[simp] theorem writeState_irqDiscards (s : State) (u dst cause : Nat) : (writeState s u dst cause).irqDiscards = s.irqDiscards := by simp only [writeState, State.putR_irqDiscards]
@[simp] theorem writeState_pmTrusted (s : State) (u dst cause : Nat) : (writeState s u dst cause).pmTrusted = s.pmTrusted := by simp only [writeState, State.putR_pmTrusted]
@[simp] theorem writeState_engXlat (s : State) (u dst cause : Nat) : (writeState s u dst cause).engXlat = s.engXlat := by simp only [writeState, State.putR_engXlat]
@[simp] theorem writeState_chans (s : State) (u dst cause : Nat) : (writeState s u dst cause).chans = s.chans := by simp only [writeState, State.putR_chans]
@[simp] theorem writeState_sqOrder (s : State) (u dst cause : Nat) : (writeState s u dst cause).sqOrder = s.sqOrder := by simp only [writeState, State.putR_sqOrder]
@[simp] theorem writeState_ucode (s : State) (u dst cause : Nat) : (writeState s u dst cause).ucode = s.ucode := by simp only [writeState, State.putR_ucode]
@[simp] theorem writeState_bridge (s : State) (u dst cause : Nat) : (writeState s u dst cause).bridge = s.bridge := by simp only [writeState, State.putR_bridge]
@[simp] theorem writeState_bw (s : State) (u dst cause : Nat) : (writeState s u dst cause).bw = s.bw := by simp only [writeState, State.putR_bw]
@[simp] theorem writeState_pmAt (s : State) (u dst cause : Nat) : (writeState s u dst cause).pmAt = s.pmAt := by simp only [writeState, State.putR_pmAt]

@[simp] theorem setUnit_pending (s : State) (u dst cause : Nat) : (setUnit s u dst cause).pending = s.pending := by simp only [setUnit, writeState_pending]
@[simp] theorem setUnit_time (s : State) (u dst cause : Nat) : (setUnit s u dst cause).time = s.time := by simp only [setUnit, writeState_time]
@[simp] theorem setUnit_tb (s : State) (u dst cause : Nat) : (setUnit s u dst cause).tb = s.tb := by simp only [setUnit, writeState_tb]
@[simp] theorem setUnit_mem (s : State) (u dst cause : Nat) : (setUnit s u dst cause).mem = s.mem := by simp only [setUnit, writeState_mem]
@[simp] theorem setUnit_tags (s : State) (u dst cause : Nat) : (setUnit s u dst cause).tags = s.tags := by simp only [setUnit, writeState_tags]
@[simp] theorem setUnit_poison (s : State) (u dst cause : Nat) : (setUnit s u dst cause).poison = s.poison := by simp only [setUnit, writeState_poison]
@[simp] theorem setUnit_hostMem (s : State) (u dst cause : Nat) : (setUnit s u dst cause).hostMem = s.hostMem := by simp only [setUnit, writeState_hostMem]
@[simp] theorem setUnit_threads (s : State) (u dst cause : Nat) : (setUnit s u dst cause).threads = s.threads := by simp only [setUnit, writeState_threads]
@[simp] theorem setUnit_cores (s : State) (u dst cause : Nat) : (setUnit s u dst cause).cores = s.cores := by simp only [setUnit, writeState_cores]
@[simp] theorem setUnit_doms (s : State) (u dst cause : Nat) : (setUnit s u dst cause).doms = s.doms := by simp only [setUnit, writeState_doms]
@[simp] theorem setUnit_ports (s : State) (u dst cause : Nat) : (setUnit s u dst cause).ports = s.ports := by simp only [setUnit, writeState_ports]
@[simp] theorem setUnit_log (s : State) (u dst cause : Nat) : (setUnit s u dst cause).log = s.log := by simp only [setUnit, writeState_log]
@[simp] theorem setUnit_irqMsgs (s : State) (u dst cause : Nat) : (setUnit s u dst cause).irqMsgs = s.irqMsgs := by simp only [setUnit, writeState_irqMsgs]
@[simp] theorem setUnit_bcTable (s : State) (u dst cause : Nat) : (setUnit s u dst cause).bcTable = s.bcTable := by simp only [setUnit, writeState_bcTable]
@[simp] theorem setUnit_withdrawn (s : State) (u dst cause : Nat) : (setUnit s u dst cause).withdrawn = s.withdrawn := by simp only [setUnit, writeState_withdrawn]
@[simp] theorem setUnit_cxlLost (s : State) (u dst cause : Nat) : (setUnit s u dst cause).cxlLost = s.cxlLost := by simp only [setUnit, writeState_cxlLost]
@[simp] theorem setUnit_cxlUp (s : State) (u dst cause : Nat) : (setUnit s u dst cause).cxlUp = s.cxlUp := by simp only [setUnit, writeState_cxlUp]
@[simp] theorem setUnit_mgmt (s : State) (u dst cause : Nat) : (setUnit s u dst cause).mgmt = s.mgmt := by simp only [setUnit, writeState_mgmt]
@[simp] theorem setUnit_board (s : State) (u dst cause : Nat) : (setUnit s u dst cause).board = s.board := by simp only [setUnit, writeState_board]
@[simp] theorem setUnit_vault (s : State) (u dst cause : Nat) : (setUnit s u dst cause).vault = s.vault := by simp only [setUnit, writeState_vault]
@[simp] theorem setUnit_fuses (s : State) (u dst cause : Nat) : (setUnit s u dst cause).fuses = s.fuses := by simp only [setUnit, writeState_fuses]
@[simp] theorem setUnit_dimms (s : State) (u dst cause : Nat) : (setUnit s u dst cause).dimms = s.dimms := by simp only [setUnit, writeState_dimms]
@[simp] theorem setUnit_dir (s : State) (u dst cause : Nat) : (setUnit s u dst cause).dir = s.dir := by simp only [setUnit, writeState_dir]
@[simp] theorem setUnit_dup (s : State) (u dst cause : Nat) : (setUnit s u dst cause).dup = s.dup := by simp only [setUnit, writeState_dup]
@[simp] theorem setUnit_l3 (s : State) (u dst cause : Nat) : (setUnit s u dst cause).l3 = s.l3 := by simp only [setUnit, writeState_l3]
@[simp] theorem setUnit_txns (s : State) (u dst cause : Nat) : (setUnit s u dst cause).txns = s.txns := by simp only [setUnit, writeState_txns]
@[simp] theorem setUnit_homeQ (s : State) (u dst cause : Nat) : (setUnit s u dst cause).homeQ = s.homeQ := by simp only [setUnit, writeState_homeQ]
@[simp] theorem setUnit_heldReqs (s : State) (u dst cause : Nat) : (setUnit s u dst cause).heldReqs = s.heldReqs := by simp only [setUnit, writeState_heldReqs]
@[simp] theorem setUnit_fwd (s : State) (u dst cause : Nat) : (setUnit s u dst cause).fwd = s.fwd := by simp only [setUnit, writeState_fwd]
@[simp] theorem setUnit_rsp (s : State) (u dst cause : Nat) : (setUnit s u dst cause).rsp = s.rsp := by simp only [setUnit, writeState_rsp]
@[simp] theorem setUnit_sparings (s : State) (u dst cause : Nat) : (setUnit s u dst cause).sparings = s.sparings := by simp only [setUnit, writeState_sparings]
@[simp] theorem setUnit_retires (s : State) (u dst cause : Nat) : (setUnit s u dst cause).retires = s.retires := by simp only [setUnit, writeState_retires]
@[simp] theorem setUnit_subCopy (s : State) (u dst cause : Nat) : (setUnit s u dst cause).subCopy = s.subCopy := by simp only [setUnit, writeState_subCopy]
@[simp] theorem setUnit_scratchNew (s : State) (u dst cause : Nat) : (setUnit s u dst cause).scratchNew = s.scratchNew := by simp only [setUnit, writeState_scratchNew]
@[simp] theorem setUnit_fabric (s : State) (u dst cause : Nat) : (setUnit s u dst cause).fabric = s.fabric := by simp only [setUnit, writeState_fabric]
@[simp] theorem setUnit_mcs (s : State) (u dst cause : Nat) : (setUnit s u dst cause).mcs = s.mcs := by simp only [setUnit, writeState_mcs]
@[simp] theorem setUnit_irqDiscards (s : State) (u dst cause : Nat) : (setUnit s u dst cause).irqDiscards = s.irqDiscards := by simp only [setUnit, writeState_irqDiscards]
@[simp] theorem setUnit_pmTrusted (s : State) (u dst cause : Nat) : (setUnit s u dst cause).pmTrusted = s.pmTrusted := by simp only [setUnit, writeState_pmTrusted]
@[simp] theorem setUnit_engXlat (s : State) (u dst cause : Nat) : (setUnit s u dst cause).engXlat = s.engXlat := by simp only [setUnit, writeState_engXlat]
@[simp] theorem setUnit_chans (s : State) (u dst cause : Nat) : (setUnit s u dst cause).chans = s.chans := by simp only [setUnit, writeState_chans]
@[simp] theorem setUnit_sqOrder (s : State) (u dst cause : Nat) : (setUnit s u dst cause).sqOrder = s.sqOrder := by simp only [setUnit, writeState_sqOrder]
@[simp] theorem setUnit_ucode (s : State) (u dst cause : Nat) : (setUnit s u dst cause).ucode = s.ucode := by simp only [setUnit, writeState_ucode]
@[simp] theorem setUnit_bridge (s : State) (u dst cause : Nat) : (setUnit s u dst cause).bridge = s.bridge := by simp only [setUnit, writeState_bridge]
@[simp] theorem setUnit_bw (s : State) (u dst cause : Nat) : (setUnit s u dst cause).bw = s.bw := by simp only [setUnit, writeState_bw]
@[simp] theorem setUnit_pmAt (s : State) (u dst cause : Nat) : (setUnit s u dst cause).pmAt = s.pmAt := by simp only [setUnit, writeState_pmAt]

@[simp] theorem putT_pending (s : State) (t : Tid) (x : Thread) : (putT s t x).pending = s.pending := by dsimp only [putT]
@[simp] theorem putT_time (s : State) (t : Tid) (x : Thread) : (putT s t x).time = s.time := by dsimp only [putT]
@[simp] theorem putT_tb (s : State) (t : Tid) (x : Thread) : (putT s t x).tb = s.tb := by dsimp only [putT]
@[simp] theorem putT_regs (s : State) (t : Tid) (x : Thread) : (putT s t x).regs = s.regs := by dsimp only [putT]
@[simp] theorem putT_mem (s : State) (t : Tid) (x : Thread) : (putT s t x).mem = s.mem := by dsimp only [putT]
@[simp] theorem putT_tags (s : State) (t : Tid) (x : Thread) : (putT s t x).tags = s.tags := by dsimp only [putT]
@[simp] theorem putT_poison (s : State) (t : Tid) (x : Thread) : (putT s t x).poison = s.poison := by dsimp only [putT]
@[simp] theorem putT_hostMem (s : State) (t : Tid) (x : Thread) : (putT s t x).hostMem = s.hostMem := by dsimp only [putT]
@[simp] theorem putT_cores (s : State) (t : Tid) (x : Thread) : (putT s t x).cores = s.cores := by dsimp only [putT]
@[simp] theorem putT_doms (s : State) (t : Tid) (x : Thread) : (putT s t x).doms = s.doms := by dsimp only [putT]
@[simp] theorem putT_ports (s : State) (t : Tid) (x : Thread) : (putT s t x).ports = s.ports := by dsimp only [putT]
@[simp] theorem putT_log (s : State) (t : Tid) (x : Thread) : (putT s t x).log = s.log := by dsimp only [putT]
@[simp] theorem putT_irqMsgs (s : State) (t : Tid) (x : Thread) : (putT s t x).irqMsgs = s.irqMsgs := by dsimp only [putT]
@[simp] theorem putT_stateMsgs (s : State) (t : Tid) (x : Thread) : (putT s t x).stateMsgs = s.stateMsgs := by dsimp only [putT]
@[simp] theorem putT_bcTable (s : State) (t : Tid) (x : Thread) : (putT s t x).bcTable = s.bcTable := by dsimp only [putT]
@[simp] theorem putT_withdrawn (s : State) (t : Tid) (x : Thread) : (putT s t x).withdrawn = s.withdrawn := by dsimp only [putT]
@[simp] theorem putT_cxlLost (s : State) (t : Tid) (x : Thread) : (putT s t x).cxlLost = s.cxlLost := by dsimp only [putT]
@[simp] theorem putT_cxlUp (s : State) (t : Tid) (x : Thread) : (putT s t x).cxlUp = s.cxlUp := by dsimp only [putT]
@[simp] theorem putT_mgmt (s : State) (t : Tid) (x : Thread) : (putT s t x).mgmt = s.mgmt := by dsimp only [putT]
@[simp] theorem putT_board (s : State) (t : Tid) (x : Thread) : (putT s t x).board = s.board := by dsimp only [putT]
@[simp] theorem putT_vault (s : State) (t : Tid) (x : Thread) : (putT s t x).vault = s.vault := by dsimp only [putT]
@[simp] theorem putT_fuses (s : State) (t : Tid) (x : Thread) : (putT s t x).fuses = s.fuses := by dsimp only [putT]
@[simp] theorem putT_dimms (s : State) (t : Tid) (x : Thread) : (putT s t x).dimms = s.dimms := by dsimp only [putT]
@[simp] theorem putT_dir (s : State) (t : Tid) (x : Thread) : (putT s t x).dir = s.dir := by dsimp only [putT]
@[simp] theorem putT_dup (s : State) (t : Tid) (x : Thread) : (putT s t x).dup = s.dup := by dsimp only [putT]
@[simp] theorem putT_l3 (s : State) (t : Tid) (x : Thread) : (putT s t x).l3 = s.l3 := by dsimp only [putT]
@[simp] theorem putT_txns (s : State) (t : Tid) (x : Thread) : (putT s t x).txns = s.txns := by dsimp only [putT]
@[simp] theorem putT_homeQ (s : State) (t : Tid) (x : Thread) : (putT s t x).homeQ = s.homeQ := by dsimp only [putT]
@[simp] theorem putT_heldReqs (s : State) (t : Tid) (x : Thread) : (putT s t x).heldReqs = s.heldReqs := by dsimp only [putT]
@[simp] theorem putT_fwd (s : State) (t : Tid) (x : Thread) : (putT s t x).fwd = s.fwd := by dsimp only [putT]
@[simp] theorem putT_rsp (s : State) (t : Tid) (x : Thread) : (putT s t x).rsp = s.rsp := by dsimp only [putT]
@[simp] theorem putT_sparings (s : State) (t : Tid) (x : Thread) : (putT s t x).sparings = s.sparings := by dsimp only [putT]
@[simp] theorem putT_retires (s : State) (t : Tid) (x : Thread) : (putT s t x).retires = s.retires := by dsimp only [putT]
@[simp] theorem putT_subCopy (s : State) (t : Tid) (x : Thread) : (putT s t x).subCopy = s.subCopy := by dsimp only [putT]
@[simp] theorem putT_scratchNew (s : State) (t : Tid) (x : Thread) : (putT s t x).scratchNew = s.scratchNew := by dsimp only [putT]
@[simp] theorem putT_fabric (s : State) (t : Tid) (x : Thread) : (putT s t x).fabric = s.fabric := by dsimp only [putT]
@[simp] theorem putT_mcs (s : State) (t : Tid) (x : Thread) : (putT s t x).mcs = s.mcs := by dsimp only [putT]
@[simp] theorem putT_irqDiscards (s : State) (t : Tid) (x : Thread) : (putT s t x).irqDiscards = s.irqDiscards := by dsimp only [putT]
@[simp] theorem putT_pmTrusted (s : State) (t : Tid) (x : Thread) : (putT s t x).pmTrusted = s.pmTrusted := by dsimp only [putT]
@[simp] theorem putT_engXlat (s : State) (t : Tid) (x : Thread) : (putT s t x).engXlat = s.engXlat := by dsimp only [putT]
@[simp] theorem putT_chans (s : State) (t : Tid) (x : Thread) : (putT s t x).chans = s.chans := by dsimp only [putT]
@[simp] theorem putT_sqOrder (s : State) (t : Tid) (x : Thread) : (putT s t x).sqOrder = s.sqOrder := by dsimp only [putT]
@[simp] theorem putT_ucode (s : State) (t : Tid) (x : Thread) : (putT s t x).ucode = s.ucode := by dsimp only [putT]
@[simp] theorem putT_bridge (s : State) (t : Tid) (x : Thread) : (putT s t x).bridge = s.bridge := by dsimp only [putT]
@[simp] theorem putT_bw (s : State) (t : Tid) (x : Thread) : (putT s t x).bw = s.bw := by dsimp only [putT]
@[simp] theorem putT_pmAt (s : State) (t : Tid) (x : Thread) : (putT s t x).pmAt = s.pmAt := by dsimp only [putT]

@[simp] theorem updT_pending (s : State) (t : Tid) (f : Thread → Thread) : (updT s t f).pending = s.pending := by simp only [updT, putT_pending]
@[simp] theorem updT_time (s : State) (t : Tid) (f : Thread → Thread) : (updT s t f).time = s.time := by simp only [updT, putT_time]
@[simp] theorem updT_tb (s : State) (t : Tid) (f : Thread → Thread) : (updT s t f).tb = s.tb := by simp only [updT, putT_tb]
@[simp] theorem updT_regs (s : State) (t : Tid) (f : Thread → Thread) : (updT s t f).regs = s.regs := by simp only [updT, putT_regs]
@[simp] theorem updT_mem (s : State) (t : Tid) (f : Thread → Thread) : (updT s t f).mem = s.mem := by simp only [updT, putT_mem]
@[simp] theorem updT_tags (s : State) (t : Tid) (f : Thread → Thread) : (updT s t f).tags = s.tags := by simp only [updT, putT_tags]
@[simp] theorem updT_poison (s : State) (t : Tid) (f : Thread → Thread) : (updT s t f).poison = s.poison := by simp only [updT, putT_poison]
@[simp] theorem updT_hostMem (s : State) (t : Tid) (f : Thread → Thread) : (updT s t f).hostMem = s.hostMem := by simp only [updT, putT_hostMem]
@[simp] theorem updT_cores (s : State) (t : Tid) (f : Thread → Thread) : (updT s t f).cores = s.cores := by simp only [updT, putT_cores]
@[simp] theorem updT_doms (s : State) (t : Tid) (f : Thread → Thread) : (updT s t f).doms = s.doms := by simp only [updT, putT_doms]
@[simp] theorem updT_ports (s : State) (t : Tid) (f : Thread → Thread) : (updT s t f).ports = s.ports := by simp only [updT, putT_ports]
@[simp] theorem updT_log (s : State) (t : Tid) (f : Thread → Thread) : (updT s t f).log = s.log := by simp only [updT, putT_log]
@[simp] theorem updT_irqMsgs (s : State) (t : Tid) (f : Thread → Thread) : (updT s t f).irqMsgs = s.irqMsgs := by simp only [updT, putT_irqMsgs]
@[simp] theorem updT_stateMsgs (s : State) (t : Tid) (f : Thread → Thread) : (updT s t f).stateMsgs = s.stateMsgs := by simp only [updT, putT_stateMsgs]
@[simp] theorem updT_bcTable (s : State) (t : Tid) (f : Thread → Thread) : (updT s t f).bcTable = s.bcTable := by simp only [updT, putT_bcTable]
@[simp] theorem updT_withdrawn (s : State) (t : Tid) (f : Thread → Thread) : (updT s t f).withdrawn = s.withdrawn := by simp only [updT, putT_withdrawn]
@[simp] theorem updT_cxlLost (s : State) (t : Tid) (f : Thread → Thread) : (updT s t f).cxlLost = s.cxlLost := by simp only [updT, putT_cxlLost]
@[simp] theorem updT_cxlUp (s : State) (t : Tid) (f : Thread → Thread) : (updT s t f).cxlUp = s.cxlUp := by simp only [updT, putT_cxlUp]
@[simp] theorem updT_mgmt (s : State) (t : Tid) (f : Thread → Thread) : (updT s t f).mgmt = s.mgmt := by simp only [updT, putT_mgmt]
@[simp] theorem updT_board (s : State) (t : Tid) (f : Thread → Thread) : (updT s t f).board = s.board := by simp only [updT, putT_board]
@[simp] theorem updT_vault (s : State) (t : Tid) (f : Thread → Thread) : (updT s t f).vault = s.vault := by simp only [updT, putT_vault]
@[simp] theorem updT_fuses (s : State) (t : Tid) (f : Thread → Thread) : (updT s t f).fuses = s.fuses := by simp only [updT, putT_fuses]
@[simp] theorem updT_dimms (s : State) (t : Tid) (f : Thread → Thread) : (updT s t f).dimms = s.dimms := by simp only [updT, putT_dimms]
@[simp] theorem updT_dir (s : State) (t : Tid) (f : Thread → Thread) : (updT s t f).dir = s.dir := by simp only [updT, putT_dir]
@[simp] theorem updT_dup (s : State) (t : Tid) (f : Thread → Thread) : (updT s t f).dup = s.dup := by simp only [updT, putT_dup]
@[simp] theorem updT_l3 (s : State) (t : Tid) (f : Thread → Thread) : (updT s t f).l3 = s.l3 := by simp only [updT, putT_l3]
@[simp] theorem updT_txns (s : State) (t : Tid) (f : Thread → Thread) : (updT s t f).txns = s.txns := by simp only [updT, putT_txns]
@[simp] theorem updT_homeQ (s : State) (t : Tid) (f : Thread → Thread) : (updT s t f).homeQ = s.homeQ := by simp only [updT, putT_homeQ]
@[simp] theorem updT_heldReqs (s : State) (t : Tid) (f : Thread → Thread) : (updT s t f).heldReqs = s.heldReqs := by simp only [updT, putT_heldReqs]
@[simp] theorem updT_fwd (s : State) (t : Tid) (f : Thread → Thread) : (updT s t f).fwd = s.fwd := by simp only [updT, putT_fwd]
@[simp] theorem updT_rsp (s : State) (t : Tid) (f : Thread → Thread) : (updT s t f).rsp = s.rsp := by simp only [updT, putT_rsp]
@[simp] theorem updT_sparings (s : State) (t : Tid) (f : Thread → Thread) : (updT s t f).sparings = s.sparings := by simp only [updT, putT_sparings]
@[simp] theorem updT_retires (s : State) (t : Tid) (f : Thread → Thread) : (updT s t f).retires = s.retires := by simp only [updT, putT_retires]
@[simp] theorem updT_subCopy (s : State) (t : Tid) (f : Thread → Thread) : (updT s t f).subCopy = s.subCopy := by simp only [updT, putT_subCopy]
@[simp] theorem updT_scratchNew (s : State) (t : Tid) (f : Thread → Thread) : (updT s t f).scratchNew = s.scratchNew := by simp only [updT, putT_scratchNew]
@[simp] theorem updT_fabric (s : State) (t : Tid) (f : Thread → Thread) : (updT s t f).fabric = s.fabric := by simp only [updT, putT_fabric]
@[simp] theorem updT_mcs (s : State) (t : Tid) (f : Thread → Thread) : (updT s t f).mcs = s.mcs := by simp only [updT, putT_mcs]
@[simp] theorem updT_irqDiscards (s : State) (t : Tid) (f : Thread → Thread) : (updT s t f).irqDiscards = s.irqDiscards := by simp only [updT, putT_irqDiscards]
@[simp] theorem updT_pmTrusted (s : State) (t : Tid) (f : Thread → Thread) : (updT s t f).pmTrusted = s.pmTrusted := by simp only [updT, putT_pmTrusted]
@[simp] theorem updT_engXlat (s : State) (t : Tid) (f : Thread → Thread) : (updT s t f).engXlat = s.engXlat := by simp only [updT, putT_engXlat]
@[simp] theorem updT_chans (s : State) (t : Tid) (f : Thread → Thread) : (updT s t f).chans = s.chans := by simp only [updT, putT_chans]
@[simp] theorem updT_sqOrder (s : State) (t : Tid) (f : Thread → Thread) : (updT s t f).sqOrder = s.sqOrder := by simp only [updT, putT_sqOrder]
@[simp] theorem updT_ucode (s : State) (t : Tid) (f : Thread → Thread) : (updT s t f).ucode = s.ucode := by simp only [updT, putT_ucode]
@[simp] theorem updT_bridge (s : State) (t : Tid) (f : Thread → Thread) : (updT s t f).bridge = s.bridge := by simp only [updT, putT_bridge]
@[simp] theorem updT_bw (s : State) (t : Tid) (f : Thread → Thread) : (updT s t f).bw = s.bw := by simp only [updT, putT_bw]
@[simp] theorem updT_pmAt (s : State) (t : Tid) (f : Thread → Thread) : (updT s t f).pmAt = s.pmAt := by simp only [updT, putT_pmAt]

@[simp] theorem putC_pending (s : State) (k : Nat) (x : Core) : (putC s k x).pending = s.pending := by dsimp only [putC]
@[simp] theorem putC_time (s : State) (k : Nat) (x : Core) : (putC s k x).time = s.time := by dsimp only [putC]
@[simp] theorem putC_tb (s : State) (k : Nat) (x : Core) : (putC s k x).tb = s.tb := by dsimp only [putC]
@[simp] theorem putC_regs (s : State) (k : Nat) (x : Core) : (putC s k x).regs = s.regs := by dsimp only [putC]
@[simp] theorem putC_mem (s : State) (k : Nat) (x : Core) : (putC s k x).mem = s.mem := by dsimp only [putC]
@[simp] theorem putC_tags (s : State) (k : Nat) (x : Core) : (putC s k x).tags = s.tags := by dsimp only [putC]
@[simp] theorem putC_poison (s : State) (k : Nat) (x : Core) : (putC s k x).poison = s.poison := by dsimp only [putC]
@[simp] theorem putC_hostMem (s : State) (k : Nat) (x : Core) : (putC s k x).hostMem = s.hostMem := by dsimp only [putC]
@[simp] theorem putC_threads (s : State) (k : Nat) (x : Core) : (putC s k x).threads = s.threads := by dsimp only [putC]
@[simp] theorem putC_doms (s : State) (k : Nat) (x : Core) : (putC s k x).doms = s.doms := by dsimp only [putC]
@[simp] theorem putC_ports (s : State) (k : Nat) (x : Core) : (putC s k x).ports = s.ports := by dsimp only [putC]
@[simp] theorem putC_log (s : State) (k : Nat) (x : Core) : (putC s k x).log = s.log := by dsimp only [putC]
@[simp] theorem putC_irqMsgs (s : State) (k : Nat) (x : Core) : (putC s k x).irqMsgs = s.irqMsgs := by dsimp only [putC]
@[simp] theorem putC_stateMsgs (s : State) (k : Nat) (x : Core) : (putC s k x).stateMsgs = s.stateMsgs := by dsimp only [putC]
@[simp] theorem putC_bcTable (s : State) (k : Nat) (x : Core) : (putC s k x).bcTable = s.bcTable := by dsimp only [putC]
@[simp] theorem putC_withdrawn (s : State) (k : Nat) (x : Core) : (putC s k x).withdrawn = s.withdrawn := by dsimp only [putC]
@[simp] theorem putC_cxlLost (s : State) (k : Nat) (x : Core) : (putC s k x).cxlLost = s.cxlLost := by dsimp only [putC]
@[simp] theorem putC_cxlUp (s : State) (k : Nat) (x : Core) : (putC s k x).cxlUp = s.cxlUp := by dsimp only [putC]
@[simp] theorem putC_mgmt (s : State) (k : Nat) (x : Core) : (putC s k x).mgmt = s.mgmt := by dsimp only [putC]
@[simp] theorem putC_board (s : State) (k : Nat) (x : Core) : (putC s k x).board = s.board := by dsimp only [putC]
@[simp] theorem putC_vault (s : State) (k : Nat) (x : Core) : (putC s k x).vault = s.vault := by dsimp only [putC]
@[simp] theorem putC_fuses (s : State) (k : Nat) (x : Core) : (putC s k x).fuses = s.fuses := by dsimp only [putC]
@[simp] theorem putC_dimms (s : State) (k : Nat) (x : Core) : (putC s k x).dimms = s.dimms := by dsimp only [putC]
@[simp] theorem putC_dir (s : State) (k : Nat) (x : Core) : (putC s k x).dir = s.dir := by dsimp only [putC]
@[simp] theorem putC_dup (s : State) (k : Nat) (x : Core) : (putC s k x).dup = s.dup := by dsimp only [putC]
@[simp] theorem putC_l3 (s : State) (k : Nat) (x : Core) : (putC s k x).l3 = s.l3 := by dsimp only [putC]
@[simp] theorem putC_txns (s : State) (k : Nat) (x : Core) : (putC s k x).txns = s.txns := by dsimp only [putC]
@[simp] theorem putC_homeQ (s : State) (k : Nat) (x : Core) : (putC s k x).homeQ = s.homeQ := by dsimp only [putC]
@[simp] theorem putC_heldReqs (s : State) (k : Nat) (x : Core) : (putC s k x).heldReqs = s.heldReqs := by dsimp only [putC]
@[simp] theorem putC_fwd (s : State) (k : Nat) (x : Core) : (putC s k x).fwd = s.fwd := by dsimp only [putC]
@[simp] theorem putC_rsp (s : State) (k : Nat) (x : Core) : (putC s k x).rsp = s.rsp := by dsimp only [putC]
@[simp] theorem putC_sparings (s : State) (k : Nat) (x : Core) : (putC s k x).sparings = s.sparings := by dsimp only [putC]
@[simp] theorem putC_retires (s : State) (k : Nat) (x : Core) : (putC s k x).retires = s.retires := by dsimp only [putC]
@[simp] theorem putC_subCopy (s : State) (k : Nat) (x : Core) : (putC s k x).subCopy = s.subCopy := by dsimp only [putC]
@[simp] theorem putC_scratchNew (s : State) (k : Nat) (x : Core) : (putC s k x).scratchNew = s.scratchNew := by dsimp only [putC]
@[simp] theorem putC_fabric (s : State) (k : Nat) (x : Core) : (putC s k x).fabric = s.fabric := by dsimp only [putC]
@[simp] theorem putC_mcs (s : State) (k : Nat) (x : Core) : (putC s k x).mcs = s.mcs := by dsimp only [putC]
@[simp] theorem putC_irqDiscards (s : State) (k : Nat) (x : Core) : (putC s k x).irqDiscards = s.irqDiscards := by dsimp only [putC]
@[simp] theorem putC_pmTrusted (s : State) (k : Nat) (x : Core) : (putC s k x).pmTrusted = s.pmTrusted := by dsimp only [putC]
@[simp] theorem putC_engXlat (s : State) (k : Nat) (x : Core) : (putC s k x).engXlat = s.engXlat := by dsimp only [putC]
@[simp] theorem putC_chans (s : State) (k : Nat) (x : Core) : (putC s k x).chans = s.chans := by dsimp only [putC]
@[simp] theorem putC_sqOrder (s : State) (k : Nat) (x : Core) : (putC s k x).sqOrder = s.sqOrder := by dsimp only [putC]
@[simp] theorem putC_ucode (s : State) (k : Nat) (x : Core) : (putC s k x).ucode = s.ucode := by dsimp only [putC]
@[simp] theorem putC_bridge (s : State) (k : Nat) (x : Core) : (putC s k x).bridge = s.bridge := by dsimp only [putC]
@[simp] theorem putC_bw (s : State) (k : Nat) (x : Core) : (putC s k x).bw = s.bw := by dsimp only [putC]
@[simp] theorem putC_pmAt (s : State) (k : Nat) (x : Core) : (putC s k x).pmAt = s.pmAt := by dsimp only [putC]

@[simp] theorem updC_pending (s : State) (k : Nat) (f : Core → Core) : (updC s k f).pending = s.pending := by simp only [updC, putC_pending]
@[simp] theorem updC_time (s : State) (k : Nat) (f : Core → Core) : (updC s k f).time = s.time := by simp only [updC, putC_time]
@[simp] theorem updC_tb (s : State) (k : Nat) (f : Core → Core) : (updC s k f).tb = s.tb := by simp only [updC, putC_tb]
@[simp] theorem updC_regs (s : State) (k : Nat) (f : Core → Core) : (updC s k f).regs = s.regs := by simp only [updC, putC_regs]
@[simp] theorem updC_mem (s : State) (k : Nat) (f : Core → Core) : (updC s k f).mem = s.mem := by simp only [updC, putC_mem]
@[simp] theorem updC_tags (s : State) (k : Nat) (f : Core → Core) : (updC s k f).tags = s.tags := by simp only [updC, putC_tags]
@[simp] theorem updC_poison (s : State) (k : Nat) (f : Core → Core) : (updC s k f).poison = s.poison := by simp only [updC, putC_poison]
@[simp] theorem updC_hostMem (s : State) (k : Nat) (f : Core → Core) : (updC s k f).hostMem = s.hostMem := by simp only [updC, putC_hostMem]
@[simp] theorem updC_threads (s : State) (k : Nat) (f : Core → Core) : (updC s k f).threads = s.threads := by simp only [updC, putC_threads]
@[simp] theorem updC_doms (s : State) (k : Nat) (f : Core → Core) : (updC s k f).doms = s.doms := by simp only [updC, putC_doms]
@[simp] theorem updC_ports (s : State) (k : Nat) (f : Core → Core) : (updC s k f).ports = s.ports := by simp only [updC, putC_ports]
@[simp] theorem updC_log (s : State) (k : Nat) (f : Core → Core) : (updC s k f).log = s.log := by simp only [updC, putC_log]
@[simp] theorem updC_irqMsgs (s : State) (k : Nat) (f : Core → Core) : (updC s k f).irqMsgs = s.irqMsgs := by simp only [updC, putC_irqMsgs]
@[simp] theorem updC_stateMsgs (s : State) (k : Nat) (f : Core → Core) : (updC s k f).stateMsgs = s.stateMsgs := by simp only [updC, putC_stateMsgs]
@[simp] theorem updC_bcTable (s : State) (k : Nat) (f : Core → Core) : (updC s k f).bcTable = s.bcTable := by simp only [updC, putC_bcTable]
@[simp] theorem updC_withdrawn (s : State) (k : Nat) (f : Core → Core) : (updC s k f).withdrawn = s.withdrawn := by simp only [updC, putC_withdrawn]
@[simp] theorem updC_cxlLost (s : State) (k : Nat) (f : Core → Core) : (updC s k f).cxlLost = s.cxlLost := by simp only [updC, putC_cxlLost]
@[simp] theorem updC_cxlUp (s : State) (k : Nat) (f : Core → Core) : (updC s k f).cxlUp = s.cxlUp := by simp only [updC, putC_cxlUp]
@[simp] theorem updC_mgmt (s : State) (k : Nat) (f : Core → Core) : (updC s k f).mgmt = s.mgmt := by simp only [updC, putC_mgmt]
@[simp] theorem updC_board (s : State) (k : Nat) (f : Core → Core) : (updC s k f).board = s.board := by simp only [updC, putC_board]
@[simp] theorem updC_vault (s : State) (k : Nat) (f : Core → Core) : (updC s k f).vault = s.vault := by simp only [updC, putC_vault]
@[simp] theorem updC_fuses (s : State) (k : Nat) (f : Core → Core) : (updC s k f).fuses = s.fuses := by simp only [updC, putC_fuses]
@[simp] theorem updC_dimms (s : State) (k : Nat) (f : Core → Core) : (updC s k f).dimms = s.dimms := by simp only [updC, putC_dimms]
@[simp] theorem updC_dir (s : State) (k : Nat) (f : Core → Core) : (updC s k f).dir = s.dir := by simp only [updC, putC_dir]
@[simp] theorem updC_dup (s : State) (k : Nat) (f : Core → Core) : (updC s k f).dup = s.dup := by simp only [updC, putC_dup]
@[simp] theorem updC_l3 (s : State) (k : Nat) (f : Core → Core) : (updC s k f).l3 = s.l3 := by simp only [updC, putC_l3]
@[simp] theorem updC_txns (s : State) (k : Nat) (f : Core → Core) : (updC s k f).txns = s.txns := by simp only [updC, putC_txns]
@[simp] theorem updC_homeQ (s : State) (k : Nat) (f : Core → Core) : (updC s k f).homeQ = s.homeQ := by simp only [updC, putC_homeQ]
@[simp] theorem updC_heldReqs (s : State) (k : Nat) (f : Core → Core) : (updC s k f).heldReqs = s.heldReqs := by simp only [updC, putC_heldReqs]
@[simp] theorem updC_fwd (s : State) (k : Nat) (f : Core → Core) : (updC s k f).fwd = s.fwd := by simp only [updC, putC_fwd]
@[simp] theorem updC_rsp (s : State) (k : Nat) (f : Core → Core) : (updC s k f).rsp = s.rsp := by simp only [updC, putC_rsp]
@[simp] theorem updC_sparings (s : State) (k : Nat) (f : Core → Core) : (updC s k f).sparings = s.sparings := by simp only [updC, putC_sparings]
@[simp] theorem updC_retires (s : State) (k : Nat) (f : Core → Core) : (updC s k f).retires = s.retires := by simp only [updC, putC_retires]
@[simp] theorem updC_subCopy (s : State) (k : Nat) (f : Core → Core) : (updC s k f).subCopy = s.subCopy := by simp only [updC, putC_subCopy]
@[simp] theorem updC_scratchNew (s : State) (k : Nat) (f : Core → Core) : (updC s k f).scratchNew = s.scratchNew := by simp only [updC, putC_scratchNew]
@[simp] theorem updC_fabric (s : State) (k : Nat) (f : Core → Core) : (updC s k f).fabric = s.fabric := by simp only [updC, putC_fabric]
@[simp] theorem updC_mcs (s : State) (k : Nat) (f : Core → Core) : (updC s k f).mcs = s.mcs := by simp only [updC, putC_mcs]
@[simp] theorem updC_irqDiscards (s : State) (k : Nat) (f : Core → Core) : (updC s k f).irqDiscards = s.irqDiscards := by simp only [updC, putC_irqDiscards]
@[simp] theorem updC_pmTrusted (s : State) (k : Nat) (f : Core → Core) : (updC s k f).pmTrusted = s.pmTrusted := by simp only [updC, putC_pmTrusted]
@[simp] theorem updC_engXlat (s : State) (k : Nat) (f : Core → Core) : (updC s k f).engXlat = s.engXlat := by simp only [updC, putC_engXlat]
@[simp] theorem updC_chans (s : State) (k : Nat) (f : Core → Core) : (updC s k f).chans = s.chans := by simp only [updC, putC_chans]
@[simp] theorem updC_sqOrder (s : State) (k : Nat) (f : Core → Core) : (updC s k f).sqOrder = s.sqOrder := by simp only [updC, putC_sqOrder]
@[simp] theorem updC_ucode (s : State) (k : Nat) (f : Core → Core) : (updC s k f).ucode = s.ucode := by simp only [updC, putC_ucode]
@[simp] theorem updC_bridge (s : State) (k : Nat) (f : Core → Core) : (updC s k f).bridge = s.bridge := by simp only [updC, putC_bridge]
@[simp] theorem updC_bw (s : State) (k : Nat) (f : Core → Core) : (updC s k f).bw = s.bw := by simp only [updC, putC_bw]
@[simp] theorem updC_pmAt (s : State) (k : Nat) (f : Core → Core) : (updC s k f).pmAt = s.pmAt := by simp only [updC, putC_pmAt]

@[simp] theorem setDir_pending (s : State) (line : Nat) (e : DirEnt) : (setDir s line e).pending = s.pending := by dsimp only [setDir]
@[simp] theorem setDir_time (s : State) (line : Nat) (e : DirEnt) : (setDir s line e).time = s.time := by dsimp only [setDir]
@[simp] theorem setDir_tb (s : State) (line : Nat) (e : DirEnt) : (setDir s line e).tb = s.tb := by dsimp only [setDir]
@[simp] theorem setDir_regs (s : State) (line : Nat) (e : DirEnt) : (setDir s line e).regs = s.regs := by dsimp only [setDir]
@[simp] theorem setDir_mem (s : State) (line : Nat) (e : DirEnt) : (setDir s line e).mem = s.mem := by dsimp only [setDir]
@[simp] theorem setDir_tags (s : State) (line : Nat) (e : DirEnt) : (setDir s line e).tags = s.tags := by dsimp only [setDir]
@[simp] theorem setDir_poison (s : State) (line : Nat) (e : DirEnt) : (setDir s line e).poison = s.poison := by dsimp only [setDir]
@[simp] theorem setDir_hostMem (s : State) (line : Nat) (e : DirEnt) : (setDir s line e).hostMem = s.hostMem := by dsimp only [setDir]
@[simp] theorem setDir_threads (s : State) (line : Nat) (e : DirEnt) : (setDir s line e).threads = s.threads := by dsimp only [setDir]
@[simp] theorem setDir_cores (s : State) (line : Nat) (e : DirEnt) : (setDir s line e).cores = s.cores := by dsimp only [setDir]
@[simp] theorem setDir_doms (s : State) (line : Nat) (e : DirEnt) : (setDir s line e).doms = s.doms := by dsimp only [setDir]
@[simp] theorem setDir_ports (s : State) (line : Nat) (e : DirEnt) : (setDir s line e).ports = s.ports := by dsimp only [setDir]
@[simp] theorem setDir_log (s : State) (line : Nat) (e : DirEnt) : (setDir s line e).log = s.log := by dsimp only [setDir]
@[simp] theorem setDir_irqMsgs (s : State) (line : Nat) (e : DirEnt) : (setDir s line e).irqMsgs = s.irqMsgs := by dsimp only [setDir]
@[simp] theorem setDir_stateMsgs (s : State) (line : Nat) (e : DirEnt) : (setDir s line e).stateMsgs = s.stateMsgs := by dsimp only [setDir]
@[simp] theorem setDir_bcTable (s : State) (line : Nat) (e : DirEnt) : (setDir s line e).bcTable = s.bcTable := by dsimp only [setDir]
@[simp] theorem setDir_withdrawn (s : State) (line : Nat) (e : DirEnt) : (setDir s line e).withdrawn = s.withdrawn := by dsimp only [setDir]
@[simp] theorem setDir_cxlLost (s : State) (line : Nat) (e : DirEnt) : (setDir s line e).cxlLost = s.cxlLost := by dsimp only [setDir]
@[simp] theorem setDir_cxlUp (s : State) (line : Nat) (e : DirEnt) : (setDir s line e).cxlUp = s.cxlUp := by dsimp only [setDir]
@[simp] theorem setDir_mgmt (s : State) (line : Nat) (e : DirEnt) : (setDir s line e).mgmt = s.mgmt := by dsimp only [setDir]
@[simp] theorem setDir_board (s : State) (line : Nat) (e : DirEnt) : (setDir s line e).board = s.board := by dsimp only [setDir]
@[simp] theorem setDir_vault (s : State) (line : Nat) (e : DirEnt) : (setDir s line e).vault = s.vault := by dsimp only [setDir]
@[simp] theorem setDir_fuses (s : State) (line : Nat) (e : DirEnt) : (setDir s line e).fuses = s.fuses := by dsimp only [setDir]
@[simp] theorem setDir_dimms (s : State) (line : Nat) (e : DirEnt) : (setDir s line e).dimms = s.dimms := by dsimp only [setDir]
@[simp] theorem setDir_dup (s : State) (line : Nat) (e : DirEnt) : (setDir s line e).dup = s.dup := by dsimp only [setDir]
@[simp] theorem setDir_l3 (s : State) (line : Nat) (e : DirEnt) : (setDir s line e).l3 = s.l3 := by dsimp only [setDir]
@[simp] theorem setDir_txns (s : State) (line : Nat) (e : DirEnt) : (setDir s line e).txns = s.txns := by dsimp only [setDir]
@[simp] theorem setDir_homeQ (s : State) (line : Nat) (e : DirEnt) : (setDir s line e).homeQ = s.homeQ := by dsimp only [setDir]
@[simp] theorem setDir_heldReqs (s : State) (line : Nat) (e : DirEnt) : (setDir s line e).heldReqs = s.heldReqs := by dsimp only [setDir]
@[simp] theorem setDir_fwd (s : State) (line : Nat) (e : DirEnt) : (setDir s line e).fwd = s.fwd := by dsimp only [setDir]
@[simp] theorem setDir_rsp (s : State) (line : Nat) (e : DirEnt) : (setDir s line e).rsp = s.rsp := by dsimp only [setDir]
@[simp] theorem setDir_sparings (s : State) (line : Nat) (e : DirEnt) : (setDir s line e).sparings = s.sparings := by dsimp only [setDir]
@[simp] theorem setDir_retires (s : State) (line : Nat) (e : DirEnt) : (setDir s line e).retires = s.retires := by dsimp only [setDir]
@[simp] theorem setDir_subCopy (s : State) (line : Nat) (e : DirEnt) : (setDir s line e).subCopy = s.subCopy := by dsimp only [setDir]
@[simp] theorem setDir_scratchNew (s : State) (line : Nat) (e : DirEnt) : (setDir s line e).scratchNew = s.scratchNew := by dsimp only [setDir]
@[simp] theorem setDir_fabric (s : State) (line : Nat) (e : DirEnt) : (setDir s line e).fabric = s.fabric := by dsimp only [setDir]
@[simp] theorem setDir_mcs (s : State) (line : Nat) (e : DirEnt) : (setDir s line e).mcs = s.mcs := by dsimp only [setDir]
@[simp] theorem setDir_irqDiscards (s : State) (line : Nat) (e : DirEnt) : (setDir s line e).irqDiscards = s.irqDiscards := by dsimp only [setDir]
@[simp] theorem setDir_pmTrusted (s : State) (line : Nat) (e : DirEnt) : (setDir s line e).pmTrusted = s.pmTrusted := by dsimp only [setDir]
@[simp] theorem setDir_engXlat (s : State) (line : Nat) (e : DirEnt) : (setDir s line e).engXlat = s.engXlat := by dsimp only [setDir]
@[simp] theorem setDir_chans (s : State) (line : Nat) (e : DirEnt) : (setDir s line e).chans = s.chans := by dsimp only [setDir]
@[simp] theorem setDir_sqOrder (s : State) (line : Nat) (e : DirEnt) : (setDir s line e).sqOrder = s.sqOrder := by dsimp only [setDir]
@[simp] theorem setDir_ucode (s : State) (line : Nat) (e : DirEnt) : (setDir s line e).ucode = s.ucode := by dsimp only [setDir]
@[simp] theorem setDir_bridge (s : State) (line : Nat) (e : DirEnt) : (setDir s line e).bridge = s.bridge := by dsimp only [setDir]
@[simp] theorem setDir_bw (s : State) (line : Nat) (e : DirEnt) : (setDir s line e).bw = s.bw := by dsimp only [setDir]
@[simp] theorem setDir_pmAt (s : State) (line : Nat) (e : DirEnt) : (setDir s line e).pmAt = s.pmAt := by dsimp only [setDir]

@[simp] theorem setDup_pending (s : State) (line : Nat) (e : DirEnt) : (setDup s line e).pending = s.pending := by dsimp only [setDup]
@[simp] theorem setDup_time (s : State) (line : Nat) (e : DirEnt) : (setDup s line e).time = s.time := by dsimp only [setDup]
@[simp] theorem setDup_tb (s : State) (line : Nat) (e : DirEnt) : (setDup s line e).tb = s.tb := by dsimp only [setDup]
@[simp] theorem setDup_regs (s : State) (line : Nat) (e : DirEnt) : (setDup s line e).regs = s.regs := by dsimp only [setDup]
@[simp] theorem setDup_mem (s : State) (line : Nat) (e : DirEnt) : (setDup s line e).mem = s.mem := by dsimp only [setDup]
@[simp] theorem setDup_tags (s : State) (line : Nat) (e : DirEnt) : (setDup s line e).tags = s.tags := by dsimp only [setDup]
@[simp] theorem setDup_poison (s : State) (line : Nat) (e : DirEnt) : (setDup s line e).poison = s.poison := by dsimp only [setDup]
@[simp] theorem setDup_hostMem (s : State) (line : Nat) (e : DirEnt) : (setDup s line e).hostMem = s.hostMem := by dsimp only [setDup]
@[simp] theorem setDup_threads (s : State) (line : Nat) (e : DirEnt) : (setDup s line e).threads = s.threads := by dsimp only [setDup]
@[simp] theorem setDup_cores (s : State) (line : Nat) (e : DirEnt) : (setDup s line e).cores = s.cores := by dsimp only [setDup]
@[simp] theorem setDup_doms (s : State) (line : Nat) (e : DirEnt) : (setDup s line e).doms = s.doms := by dsimp only [setDup]
@[simp] theorem setDup_ports (s : State) (line : Nat) (e : DirEnt) : (setDup s line e).ports = s.ports := by dsimp only [setDup]
@[simp] theorem setDup_log (s : State) (line : Nat) (e : DirEnt) : (setDup s line e).log = s.log := by dsimp only [setDup]
@[simp] theorem setDup_irqMsgs (s : State) (line : Nat) (e : DirEnt) : (setDup s line e).irqMsgs = s.irqMsgs := by dsimp only [setDup]
@[simp] theorem setDup_stateMsgs (s : State) (line : Nat) (e : DirEnt) : (setDup s line e).stateMsgs = s.stateMsgs := by dsimp only [setDup]
@[simp] theorem setDup_bcTable (s : State) (line : Nat) (e : DirEnt) : (setDup s line e).bcTable = s.bcTable := by dsimp only [setDup]
@[simp] theorem setDup_withdrawn (s : State) (line : Nat) (e : DirEnt) : (setDup s line e).withdrawn = s.withdrawn := by dsimp only [setDup]
@[simp] theorem setDup_cxlLost (s : State) (line : Nat) (e : DirEnt) : (setDup s line e).cxlLost = s.cxlLost := by dsimp only [setDup]
@[simp] theorem setDup_cxlUp (s : State) (line : Nat) (e : DirEnt) : (setDup s line e).cxlUp = s.cxlUp := by dsimp only [setDup]
@[simp] theorem setDup_mgmt (s : State) (line : Nat) (e : DirEnt) : (setDup s line e).mgmt = s.mgmt := by dsimp only [setDup]
@[simp] theorem setDup_board (s : State) (line : Nat) (e : DirEnt) : (setDup s line e).board = s.board := by dsimp only [setDup]
@[simp] theorem setDup_vault (s : State) (line : Nat) (e : DirEnt) : (setDup s line e).vault = s.vault := by dsimp only [setDup]
@[simp] theorem setDup_fuses (s : State) (line : Nat) (e : DirEnt) : (setDup s line e).fuses = s.fuses := by dsimp only [setDup]
@[simp] theorem setDup_dimms (s : State) (line : Nat) (e : DirEnt) : (setDup s line e).dimms = s.dimms := by dsimp only [setDup]
@[simp] theorem setDup_dir (s : State) (line : Nat) (e : DirEnt) : (setDup s line e).dir = s.dir := by dsimp only [setDup]
@[simp] theorem setDup_l3 (s : State) (line : Nat) (e : DirEnt) : (setDup s line e).l3 = s.l3 := by dsimp only [setDup]
@[simp] theorem setDup_txns (s : State) (line : Nat) (e : DirEnt) : (setDup s line e).txns = s.txns := by dsimp only [setDup]
@[simp] theorem setDup_homeQ (s : State) (line : Nat) (e : DirEnt) : (setDup s line e).homeQ = s.homeQ := by dsimp only [setDup]
@[simp] theorem setDup_heldReqs (s : State) (line : Nat) (e : DirEnt) : (setDup s line e).heldReqs = s.heldReqs := by dsimp only [setDup]
@[simp] theorem setDup_fwd (s : State) (line : Nat) (e : DirEnt) : (setDup s line e).fwd = s.fwd := by dsimp only [setDup]
@[simp] theorem setDup_rsp (s : State) (line : Nat) (e : DirEnt) : (setDup s line e).rsp = s.rsp := by dsimp only [setDup]
@[simp] theorem setDup_sparings (s : State) (line : Nat) (e : DirEnt) : (setDup s line e).sparings = s.sparings := by dsimp only [setDup]
@[simp] theorem setDup_retires (s : State) (line : Nat) (e : DirEnt) : (setDup s line e).retires = s.retires := by dsimp only [setDup]
@[simp] theorem setDup_subCopy (s : State) (line : Nat) (e : DirEnt) : (setDup s line e).subCopy = s.subCopy := by dsimp only [setDup]
@[simp] theorem setDup_scratchNew (s : State) (line : Nat) (e : DirEnt) : (setDup s line e).scratchNew = s.scratchNew := by dsimp only [setDup]
@[simp] theorem setDup_fabric (s : State) (line : Nat) (e : DirEnt) : (setDup s line e).fabric = s.fabric := by dsimp only [setDup]
@[simp] theorem setDup_mcs (s : State) (line : Nat) (e : DirEnt) : (setDup s line e).mcs = s.mcs := by dsimp only [setDup]
@[simp] theorem setDup_irqDiscards (s : State) (line : Nat) (e : DirEnt) : (setDup s line e).irqDiscards = s.irqDiscards := by dsimp only [setDup]
@[simp] theorem setDup_pmTrusted (s : State) (line : Nat) (e : DirEnt) : (setDup s line e).pmTrusted = s.pmTrusted := by dsimp only [setDup]
@[simp] theorem setDup_engXlat (s : State) (line : Nat) (e : DirEnt) : (setDup s line e).engXlat = s.engXlat := by dsimp only [setDup]
@[simp] theorem setDup_chans (s : State) (line : Nat) (e : DirEnt) : (setDup s line e).chans = s.chans := by dsimp only [setDup]
@[simp] theorem setDup_sqOrder (s : State) (line : Nat) (e : DirEnt) : (setDup s line e).sqOrder = s.sqOrder := by dsimp only [setDup]
@[simp] theorem setDup_ucode (s : State) (line : Nat) (e : DirEnt) : (setDup s line e).ucode = s.ucode := by dsimp only [setDup]
@[simp] theorem setDup_bridge (s : State) (line : Nat) (e : DirEnt) : (setDup s line e).bridge = s.bridge := by dsimp only [setDup]
@[simp] theorem setDup_bw (s : State) (line : Nat) (e : DirEnt) : (setDup s line e).bw = s.bw := by dsimp only [setDup]
@[simp] theorem setDup_pmAt (s : State) (line : Nat) (e : DirEnt) : (setDup s line e).pmAt = s.pmAt := by dsimp only [setDup]

@[simp] theorem setL3_pending (s : State) (line : Nat) (v : Option L3Line) : (setL3 s line v).pending = s.pending := by dsimp only [setL3]
@[simp] theorem setL3_time (s : State) (line : Nat) (v : Option L3Line) : (setL3 s line v).time = s.time := by dsimp only [setL3]
@[simp] theorem setL3_tb (s : State) (line : Nat) (v : Option L3Line) : (setL3 s line v).tb = s.tb := by dsimp only [setL3]
@[simp] theorem setL3_regs (s : State) (line : Nat) (v : Option L3Line) : (setL3 s line v).regs = s.regs := by dsimp only [setL3]
@[simp] theorem setL3_mem (s : State) (line : Nat) (v : Option L3Line) : (setL3 s line v).mem = s.mem := by dsimp only [setL3]
@[simp] theorem setL3_tags (s : State) (line : Nat) (v : Option L3Line) : (setL3 s line v).tags = s.tags := by dsimp only [setL3]
@[simp] theorem setL3_poison (s : State) (line : Nat) (v : Option L3Line) : (setL3 s line v).poison = s.poison := by dsimp only [setL3]
@[simp] theorem setL3_hostMem (s : State) (line : Nat) (v : Option L3Line) : (setL3 s line v).hostMem = s.hostMem := by dsimp only [setL3]
@[simp] theorem setL3_threads (s : State) (line : Nat) (v : Option L3Line) : (setL3 s line v).threads = s.threads := by dsimp only [setL3]
@[simp] theorem setL3_cores (s : State) (line : Nat) (v : Option L3Line) : (setL3 s line v).cores = s.cores := by dsimp only [setL3]
@[simp] theorem setL3_doms (s : State) (line : Nat) (v : Option L3Line) : (setL3 s line v).doms = s.doms := by dsimp only [setL3]
@[simp] theorem setL3_ports (s : State) (line : Nat) (v : Option L3Line) : (setL3 s line v).ports = s.ports := by dsimp only [setL3]
@[simp] theorem setL3_log (s : State) (line : Nat) (v : Option L3Line) : (setL3 s line v).log = s.log := by dsimp only [setL3]
@[simp] theorem setL3_irqMsgs (s : State) (line : Nat) (v : Option L3Line) : (setL3 s line v).irqMsgs = s.irqMsgs := by dsimp only [setL3]
@[simp] theorem setL3_stateMsgs (s : State) (line : Nat) (v : Option L3Line) : (setL3 s line v).stateMsgs = s.stateMsgs := by dsimp only [setL3]
@[simp] theorem setL3_bcTable (s : State) (line : Nat) (v : Option L3Line) : (setL3 s line v).bcTable = s.bcTable := by dsimp only [setL3]
@[simp] theorem setL3_withdrawn (s : State) (line : Nat) (v : Option L3Line) : (setL3 s line v).withdrawn = s.withdrawn := by dsimp only [setL3]
@[simp] theorem setL3_cxlLost (s : State) (line : Nat) (v : Option L3Line) : (setL3 s line v).cxlLost = s.cxlLost := by dsimp only [setL3]
@[simp] theorem setL3_cxlUp (s : State) (line : Nat) (v : Option L3Line) : (setL3 s line v).cxlUp = s.cxlUp := by dsimp only [setL3]
@[simp] theorem setL3_mgmt (s : State) (line : Nat) (v : Option L3Line) : (setL3 s line v).mgmt = s.mgmt := by dsimp only [setL3]
@[simp] theorem setL3_board (s : State) (line : Nat) (v : Option L3Line) : (setL3 s line v).board = s.board := by dsimp only [setL3]
@[simp] theorem setL3_vault (s : State) (line : Nat) (v : Option L3Line) : (setL3 s line v).vault = s.vault := by dsimp only [setL3]
@[simp] theorem setL3_fuses (s : State) (line : Nat) (v : Option L3Line) : (setL3 s line v).fuses = s.fuses := by dsimp only [setL3]
@[simp] theorem setL3_dimms (s : State) (line : Nat) (v : Option L3Line) : (setL3 s line v).dimms = s.dimms := by dsimp only [setL3]
@[simp] theorem setL3_dir (s : State) (line : Nat) (v : Option L3Line) : (setL3 s line v).dir = s.dir := by dsimp only [setL3]
@[simp] theorem setL3_dup (s : State) (line : Nat) (v : Option L3Line) : (setL3 s line v).dup = s.dup := by dsimp only [setL3]
@[simp] theorem setL3_txns (s : State) (line : Nat) (v : Option L3Line) : (setL3 s line v).txns = s.txns := by dsimp only [setL3]
@[simp] theorem setL3_homeQ (s : State) (line : Nat) (v : Option L3Line) : (setL3 s line v).homeQ = s.homeQ := by dsimp only [setL3]
@[simp] theorem setL3_heldReqs (s : State) (line : Nat) (v : Option L3Line) : (setL3 s line v).heldReqs = s.heldReqs := by dsimp only [setL3]
@[simp] theorem setL3_fwd (s : State) (line : Nat) (v : Option L3Line) : (setL3 s line v).fwd = s.fwd := by dsimp only [setL3]
@[simp] theorem setL3_rsp (s : State) (line : Nat) (v : Option L3Line) : (setL3 s line v).rsp = s.rsp := by dsimp only [setL3]
@[simp] theorem setL3_sparings (s : State) (line : Nat) (v : Option L3Line) : (setL3 s line v).sparings = s.sparings := by dsimp only [setL3]
@[simp] theorem setL3_retires (s : State) (line : Nat) (v : Option L3Line) : (setL3 s line v).retires = s.retires := by dsimp only [setL3]
@[simp] theorem setL3_subCopy (s : State) (line : Nat) (v : Option L3Line) : (setL3 s line v).subCopy = s.subCopy := by dsimp only [setL3]
@[simp] theorem setL3_scratchNew (s : State) (line : Nat) (v : Option L3Line) : (setL3 s line v).scratchNew = s.scratchNew := by dsimp only [setL3]
@[simp] theorem setL3_fabric (s : State) (line : Nat) (v : Option L3Line) : (setL3 s line v).fabric = s.fabric := by dsimp only [setL3]
@[simp] theorem setL3_mcs (s : State) (line : Nat) (v : Option L3Line) : (setL3 s line v).mcs = s.mcs := by dsimp only [setL3]
@[simp] theorem setL3_irqDiscards (s : State) (line : Nat) (v : Option L3Line) : (setL3 s line v).irqDiscards = s.irqDiscards := by dsimp only [setL3]
@[simp] theorem setL3_pmTrusted (s : State) (line : Nat) (v : Option L3Line) : (setL3 s line v).pmTrusted = s.pmTrusted := by dsimp only [setL3]
@[simp] theorem setL3_engXlat (s : State) (line : Nat) (v : Option L3Line) : (setL3 s line v).engXlat = s.engXlat := by dsimp only [setL3]
@[simp] theorem setL3_chans (s : State) (line : Nat) (v : Option L3Line) : (setL3 s line v).chans = s.chans := by dsimp only [setL3]
@[simp] theorem setL3_sqOrder (s : State) (line : Nat) (v : Option L3Line) : (setL3 s line v).sqOrder = s.sqOrder := by dsimp only [setL3]
@[simp] theorem setL3_ucode (s : State) (line : Nat) (v : Option L3Line) : (setL3 s line v).ucode = s.ucode := by dsimp only [setL3]
@[simp] theorem setL3_bridge (s : State) (line : Nat) (v : Option L3Line) : (setL3 s line v).bridge = s.bridge := by dsimp only [setL3]
@[simp] theorem setL3_bw (s : State) (line : Nat) (v : Option L3Line) : (setL3 s line v).bw = s.bw := by dsimp only [setL3]
@[simp] theorem setL3_pmAt (s : State) (line : Nat) (v : Option L3Line) : (setL3 s line v).pmAt = s.pmAt := by dsimp only [setL3]

@[simp] theorem setTxn_pending (s : State) (line : Nat) (x : Option Txn) : (setTxn s line x).pending = s.pending := by dsimp only [setTxn]
@[simp] theorem setTxn_time (s : State) (line : Nat) (x : Option Txn) : (setTxn s line x).time = s.time := by dsimp only [setTxn]
@[simp] theorem setTxn_tb (s : State) (line : Nat) (x : Option Txn) : (setTxn s line x).tb = s.tb := by dsimp only [setTxn]
@[simp] theorem setTxn_regs (s : State) (line : Nat) (x : Option Txn) : (setTxn s line x).regs = s.regs := by dsimp only [setTxn]
@[simp] theorem setTxn_mem (s : State) (line : Nat) (x : Option Txn) : (setTxn s line x).mem = s.mem := by dsimp only [setTxn]
@[simp] theorem setTxn_tags (s : State) (line : Nat) (x : Option Txn) : (setTxn s line x).tags = s.tags := by dsimp only [setTxn]
@[simp] theorem setTxn_poison (s : State) (line : Nat) (x : Option Txn) : (setTxn s line x).poison = s.poison := by dsimp only [setTxn]
@[simp] theorem setTxn_hostMem (s : State) (line : Nat) (x : Option Txn) : (setTxn s line x).hostMem = s.hostMem := by dsimp only [setTxn]
@[simp] theorem setTxn_threads (s : State) (line : Nat) (x : Option Txn) : (setTxn s line x).threads = s.threads := by dsimp only [setTxn]
@[simp] theorem setTxn_cores (s : State) (line : Nat) (x : Option Txn) : (setTxn s line x).cores = s.cores := by dsimp only [setTxn]
@[simp] theorem setTxn_doms (s : State) (line : Nat) (x : Option Txn) : (setTxn s line x).doms = s.doms := by dsimp only [setTxn]
@[simp] theorem setTxn_ports (s : State) (line : Nat) (x : Option Txn) : (setTxn s line x).ports = s.ports := by dsimp only [setTxn]
@[simp] theorem setTxn_log (s : State) (line : Nat) (x : Option Txn) : (setTxn s line x).log = s.log := by dsimp only [setTxn]
@[simp] theorem setTxn_irqMsgs (s : State) (line : Nat) (x : Option Txn) : (setTxn s line x).irqMsgs = s.irqMsgs := by dsimp only [setTxn]
@[simp] theorem setTxn_stateMsgs (s : State) (line : Nat) (x : Option Txn) : (setTxn s line x).stateMsgs = s.stateMsgs := by dsimp only [setTxn]
@[simp] theorem setTxn_bcTable (s : State) (line : Nat) (x : Option Txn) : (setTxn s line x).bcTable = s.bcTable := by dsimp only [setTxn]
@[simp] theorem setTxn_withdrawn (s : State) (line : Nat) (x : Option Txn) : (setTxn s line x).withdrawn = s.withdrawn := by dsimp only [setTxn]
@[simp] theorem setTxn_cxlLost (s : State) (line : Nat) (x : Option Txn) : (setTxn s line x).cxlLost = s.cxlLost := by dsimp only [setTxn]
@[simp] theorem setTxn_cxlUp (s : State) (line : Nat) (x : Option Txn) : (setTxn s line x).cxlUp = s.cxlUp := by dsimp only [setTxn]
@[simp] theorem setTxn_mgmt (s : State) (line : Nat) (x : Option Txn) : (setTxn s line x).mgmt = s.mgmt := by dsimp only [setTxn]
@[simp] theorem setTxn_board (s : State) (line : Nat) (x : Option Txn) : (setTxn s line x).board = s.board := by dsimp only [setTxn]
@[simp] theorem setTxn_vault (s : State) (line : Nat) (x : Option Txn) : (setTxn s line x).vault = s.vault := by dsimp only [setTxn]
@[simp] theorem setTxn_fuses (s : State) (line : Nat) (x : Option Txn) : (setTxn s line x).fuses = s.fuses := by dsimp only [setTxn]
@[simp] theorem setTxn_dimms (s : State) (line : Nat) (x : Option Txn) : (setTxn s line x).dimms = s.dimms := by dsimp only [setTxn]
@[simp] theorem setTxn_dir (s : State) (line : Nat) (x : Option Txn) : (setTxn s line x).dir = s.dir := by dsimp only [setTxn]
@[simp] theorem setTxn_dup (s : State) (line : Nat) (x : Option Txn) : (setTxn s line x).dup = s.dup := by dsimp only [setTxn]
@[simp] theorem setTxn_l3 (s : State) (line : Nat) (x : Option Txn) : (setTxn s line x).l3 = s.l3 := by dsimp only [setTxn]
@[simp] theorem setTxn_homeQ (s : State) (line : Nat) (x : Option Txn) : (setTxn s line x).homeQ = s.homeQ := by dsimp only [setTxn]
@[simp] theorem setTxn_heldReqs (s : State) (line : Nat) (x : Option Txn) : (setTxn s line x).heldReqs = s.heldReqs := by dsimp only [setTxn]
@[simp] theorem setTxn_fwd (s : State) (line : Nat) (x : Option Txn) : (setTxn s line x).fwd = s.fwd := by dsimp only [setTxn]
@[simp] theorem setTxn_rsp (s : State) (line : Nat) (x : Option Txn) : (setTxn s line x).rsp = s.rsp := by dsimp only [setTxn]
@[simp] theorem setTxn_sparings (s : State) (line : Nat) (x : Option Txn) : (setTxn s line x).sparings = s.sparings := by dsimp only [setTxn]
@[simp] theorem setTxn_retires (s : State) (line : Nat) (x : Option Txn) : (setTxn s line x).retires = s.retires := by dsimp only [setTxn]
@[simp] theorem setTxn_subCopy (s : State) (line : Nat) (x : Option Txn) : (setTxn s line x).subCopy = s.subCopy := by dsimp only [setTxn]
@[simp] theorem setTxn_scratchNew (s : State) (line : Nat) (x : Option Txn) : (setTxn s line x).scratchNew = s.scratchNew := by dsimp only [setTxn]
@[simp] theorem setTxn_fabric (s : State) (line : Nat) (x : Option Txn) : (setTxn s line x).fabric = s.fabric := by dsimp only [setTxn]
@[simp] theorem setTxn_mcs (s : State) (line : Nat) (x : Option Txn) : (setTxn s line x).mcs = s.mcs := by dsimp only [setTxn]
@[simp] theorem setTxn_irqDiscards (s : State) (line : Nat) (x : Option Txn) : (setTxn s line x).irqDiscards = s.irqDiscards := by dsimp only [setTxn]
@[simp] theorem setTxn_pmTrusted (s : State) (line : Nat) (x : Option Txn) : (setTxn s line x).pmTrusted = s.pmTrusted := by dsimp only [setTxn]
@[simp] theorem setTxn_engXlat (s : State) (line : Nat) (x : Option Txn) : (setTxn s line x).engXlat = s.engXlat := by dsimp only [setTxn]
@[simp] theorem setTxn_chans (s : State) (line : Nat) (x : Option Txn) : (setTxn s line x).chans = s.chans := by dsimp only [setTxn]
@[simp] theorem setTxn_sqOrder (s : State) (line : Nat) (x : Option Txn) : (setTxn s line x).sqOrder = s.sqOrder := by dsimp only [setTxn]
@[simp] theorem setTxn_ucode (s : State) (line : Nat) (x : Option Txn) : (setTxn s line x).ucode = s.ucode := by dsimp only [setTxn]
@[simp] theorem setTxn_bridge (s : State) (line : Nat) (x : Option Txn) : (setTxn s line x).bridge = s.bridge := by dsimp only [setTxn]
@[simp] theorem setTxn_bw (s : State) (line : Nat) (x : Option Txn) : (setTxn s line x).bw = s.bw := by dsimp only [setTxn]
@[simp] theorem setTxn_pmAt (s : State) (line : Nat) (x : Option Txn) : (setTxn s line x).pmAt = s.pmAt := by dsimp only [setTxn]

@[simp] theorem pushRsp_pending (s : State) (r : Rsp) : (pushRsp s r).pending = s.pending := by dsimp only [pushRsp]
@[simp] theorem pushRsp_time (s : State) (r : Rsp) : (pushRsp s r).time = s.time := by dsimp only [pushRsp]
@[simp] theorem pushRsp_tb (s : State) (r : Rsp) : (pushRsp s r).tb = s.tb := by dsimp only [pushRsp]
@[simp] theorem pushRsp_regs (s : State) (r : Rsp) : (pushRsp s r).regs = s.regs := by dsimp only [pushRsp]
@[simp] theorem pushRsp_mem (s : State) (r : Rsp) : (pushRsp s r).mem = s.mem := by dsimp only [pushRsp]
@[simp] theorem pushRsp_tags (s : State) (r : Rsp) : (pushRsp s r).tags = s.tags := by dsimp only [pushRsp]
@[simp] theorem pushRsp_poison (s : State) (r : Rsp) : (pushRsp s r).poison = s.poison := by dsimp only [pushRsp]
@[simp] theorem pushRsp_hostMem (s : State) (r : Rsp) : (pushRsp s r).hostMem = s.hostMem := by dsimp only [pushRsp]
@[simp] theorem pushRsp_threads (s : State) (r : Rsp) : (pushRsp s r).threads = s.threads := by dsimp only [pushRsp]
@[simp] theorem pushRsp_cores (s : State) (r : Rsp) : (pushRsp s r).cores = s.cores := by dsimp only [pushRsp]
@[simp] theorem pushRsp_doms (s : State) (r : Rsp) : (pushRsp s r).doms = s.doms := by dsimp only [pushRsp]
@[simp] theorem pushRsp_ports (s : State) (r : Rsp) : (pushRsp s r).ports = s.ports := by dsimp only [pushRsp]
@[simp] theorem pushRsp_log (s : State) (r : Rsp) : (pushRsp s r).log = s.log := by dsimp only [pushRsp]
@[simp] theorem pushRsp_irqMsgs (s : State) (r : Rsp) : (pushRsp s r).irqMsgs = s.irqMsgs := by dsimp only [pushRsp]
@[simp] theorem pushRsp_stateMsgs (s : State) (r : Rsp) : (pushRsp s r).stateMsgs = s.stateMsgs := by dsimp only [pushRsp]
@[simp] theorem pushRsp_bcTable (s : State) (r : Rsp) : (pushRsp s r).bcTable = s.bcTable := by dsimp only [pushRsp]
@[simp] theorem pushRsp_withdrawn (s : State) (r : Rsp) : (pushRsp s r).withdrawn = s.withdrawn := by dsimp only [pushRsp]
@[simp] theorem pushRsp_cxlLost (s : State) (r : Rsp) : (pushRsp s r).cxlLost = s.cxlLost := by dsimp only [pushRsp]
@[simp] theorem pushRsp_cxlUp (s : State) (r : Rsp) : (pushRsp s r).cxlUp = s.cxlUp := by dsimp only [pushRsp]
@[simp] theorem pushRsp_mgmt (s : State) (r : Rsp) : (pushRsp s r).mgmt = s.mgmt := by dsimp only [pushRsp]
@[simp] theorem pushRsp_board (s : State) (r : Rsp) : (pushRsp s r).board = s.board := by dsimp only [pushRsp]
@[simp] theorem pushRsp_vault (s : State) (r : Rsp) : (pushRsp s r).vault = s.vault := by dsimp only [pushRsp]
@[simp] theorem pushRsp_fuses (s : State) (r : Rsp) : (pushRsp s r).fuses = s.fuses := by dsimp only [pushRsp]
@[simp] theorem pushRsp_dimms (s : State) (r : Rsp) : (pushRsp s r).dimms = s.dimms := by dsimp only [pushRsp]
@[simp] theorem pushRsp_dir (s : State) (r : Rsp) : (pushRsp s r).dir = s.dir := by dsimp only [pushRsp]
@[simp] theorem pushRsp_dup (s : State) (r : Rsp) : (pushRsp s r).dup = s.dup := by dsimp only [pushRsp]
@[simp] theorem pushRsp_l3 (s : State) (r : Rsp) : (pushRsp s r).l3 = s.l3 := by dsimp only [pushRsp]
@[simp] theorem pushRsp_txns (s : State) (r : Rsp) : (pushRsp s r).txns = s.txns := by dsimp only [pushRsp]
@[simp] theorem pushRsp_homeQ (s : State) (r : Rsp) : (pushRsp s r).homeQ = s.homeQ := by dsimp only [pushRsp]
@[simp] theorem pushRsp_heldReqs (s : State) (r : Rsp) : (pushRsp s r).heldReqs = s.heldReqs := by dsimp only [pushRsp]
@[simp] theorem pushRsp_fwd (s : State) (r : Rsp) : (pushRsp s r).fwd = s.fwd := by dsimp only [pushRsp]
@[simp] theorem pushRsp_sparings (s : State) (r : Rsp) : (pushRsp s r).sparings = s.sparings := by dsimp only [pushRsp]
@[simp] theorem pushRsp_retires (s : State) (r : Rsp) : (pushRsp s r).retires = s.retires := by dsimp only [pushRsp]
@[simp] theorem pushRsp_subCopy (s : State) (r : Rsp) : (pushRsp s r).subCopy = s.subCopy := by dsimp only [pushRsp]
@[simp] theorem pushRsp_scratchNew (s : State) (r : Rsp) : (pushRsp s r).scratchNew = s.scratchNew := by dsimp only [pushRsp]
@[simp] theorem pushRsp_fabric (s : State) (r : Rsp) : (pushRsp s r).fabric = s.fabric := by dsimp only [pushRsp]
@[simp] theorem pushRsp_mcs (s : State) (r : Rsp) : (pushRsp s r).mcs = s.mcs := by dsimp only [pushRsp]
@[simp] theorem pushRsp_irqDiscards (s : State) (r : Rsp) : (pushRsp s r).irqDiscards = s.irqDiscards := by dsimp only [pushRsp]
@[simp] theorem pushRsp_pmTrusted (s : State) (r : Rsp) : (pushRsp s r).pmTrusted = s.pmTrusted := by dsimp only [pushRsp]
@[simp] theorem pushRsp_engXlat (s : State) (r : Rsp) : (pushRsp s r).engXlat = s.engXlat := by dsimp only [pushRsp]
@[simp] theorem pushRsp_chans (s : State) (r : Rsp) : (pushRsp s r).chans = s.chans := by dsimp only [pushRsp]
@[simp] theorem pushRsp_sqOrder (s : State) (r : Rsp) : (pushRsp s r).sqOrder = s.sqOrder := by dsimp only [pushRsp]
@[simp] theorem pushRsp_ucode (s : State) (r : Rsp) : (pushRsp s r).ucode = s.ucode := by dsimp only [pushRsp]
@[simp] theorem pushRsp_bridge (s : State) (r : Rsp) : (pushRsp s r).bridge = s.bridge := by dsimp only [pushRsp]
@[simp] theorem pushRsp_bw (s : State) (r : Rsp) : (pushRsp s r).bw = s.bw := by dsimp only [pushRsp]
@[simp] theorem pushRsp_pmAt (s : State) (r : Rsp) : (pushRsp s r).pmAt = s.pmAt := by dsimp only [pushRsp]

@[simp] theorem pushFwd_pending (s : State) (f : List Fwd) : (pushFwd s f).pending = s.pending := by dsimp only [pushFwd]
@[simp] theorem pushFwd_time (s : State) (f : List Fwd) : (pushFwd s f).time = s.time := by dsimp only [pushFwd]
@[simp] theorem pushFwd_tb (s : State) (f : List Fwd) : (pushFwd s f).tb = s.tb := by dsimp only [pushFwd]
@[simp] theorem pushFwd_regs (s : State) (f : List Fwd) : (pushFwd s f).regs = s.regs := by dsimp only [pushFwd]
@[simp] theorem pushFwd_mem (s : State) (f : List Fwd) : (pushFwd s f).mem = s.mem := by dsimp only [pushFwd]
@[simp] theorem pushFwd_tags (s : State) (f : List Fwd) : (pushFwd s f).tags = s.tags := by dsimp only [pushFwd]
@[simp] theorem pushFwd_poison (s : State) (f : List Fwd) : (pushFwd s f).poison = s.poison := by dsimp only [pushFwd]
@[simp] theorem pushFwd_hostMem (s : State) (f : List Fwd) : (pushFwd s f).hostMem = s.hostMem := by dsimp only [pushFwd]
@[simp] theorem pushFwd_threads (s : State) (f : List Fwd) : (pushFwd s f).threads = s.threads := by dsimp only [pushFwd]
@[simp] theorem pushFwd_cores (s : State) (f : List Fwd) : (pushFwd s f).cores = s.cores := by dsimp only [pushFwd]
@[simp] theorem pushFwd_doms (s : State) (f : List Fwd) : (pushFwd s f).doms = s.doms := by dsimp only [pushFwd]
@[simp] theorem pushFwd_ports (s : State) (f : List Fwd) : (pushFwd s f).ports = s.ports := by dsimp only [pushFwd]
@[simp] theorem pushFwd_log (s : State) (f : List Fwd) : (pushFwd s f).log = s.log := by dsimp only [pushFwd]
@[simp] theorem pushFwd_irqMsgs (s : State) (f : List Fwd) : (pushFwd s f).irqMsgs = s.irqMsgs := by dsimp only [pushFwd]
@[simp] theorem pushFwd_stateMsgs (s : State) (f : List Fwd) : (pushFwd s f).stateMsgs = s.stateMsgs := by dsimp only [pushFwd]
@[simp] theorem pushFwd_bcTable (s : State) (f : List Fwd) : (pushFwd s f).bcTable = s.bcTable := by dsimp only [pushFwd]
@[simp] theorem pushFwd_withdrawn (s : State) (f : List Fwd) : (pushFwd s f).withdrawn = s.withdrawn := by dsimp only [pushFwd]
@[simp] theorem pushFwd_cxlLost (s : State) (f : List Fwd) : (pushFwd s f).cxlLost = s.cxlLost := by dsimp only [pushFwd]
@[simp] theorem pushFwd_cxlUp (s : State) (f : List Fwd) : (pushFwd s f).cxlUp = s.cxlUp := by dsimp only [pushFwd]
@[simp] theorem pushFwd_mgmt (s : State) (f : List Fwd) : (pushFwd s f).mgmt = s.mgmt := by dsimp only [pushFwd]
@[simp] theorem pushFwd_board (s : State) (f : List Fwd) : (pushFwd s f).board = s.board := by dsimp only [pushFwd]
@[simp] theorem pushFwd_vault (s : State) (f : List Fwd) : (pushFwd s f).vault = s.vault := by dsimp only [pushFwd]
@[simp] theorem pushFwd_fuses (s : State) (f : List Fwd) : (pushFwd s f).fuses = s.fuses := by dsimp only [pushFwd]
@[simp] theorem pushFwd_dimms (s : State) (f : List Fwd) : (pushFwd s f).dimms = s.dimms := by dsimp only [pushFwd]
@[simp] theorem pushFwd_dir (s : State) (f : List Fwd) : (pushFwd s f).dir = s.dir := by dsimp only [pushFwd]
@[simp] theorem pushFwd_dup (s : State) (f : List Fwd) : (pushFwd s f).dup = s.dup := by dsimp only [pushFwd]
@[simp] theorem pushFwd_l3 (s : State) (f : List Fwd) : (pushFwd s f).l3 = s.l3 := by dsimp only [pushFwd]
@[simp] theorem pushFwd_txns (s : State) (f : List Fwd) : (pushFwd s f).txns = s.txns := by dsimp only [pushFwd]
@[simp] theorem pushFwd_homeQ (s : State) (f : List Fwd) : (pushFwd s f).homeQ = s.homeQ := by dsimp only [pushFwd]
@[simp] theorem pushFwd_heldReqs (s : State) (f : List Fwd) : (pushFwd s f).heldReqs = s.heldReqs := by dsimp only [pushFwd]
@[simp] theorem pushFwd_rsp (s : State) (f : List Fwd) : (pushFwd s f).rsp = s.rsp := by dsimp only [pushFwd]
@[simp] theorem pushFwd_sparings (s : State) (f : List Fwd) : (pushFwd s f).sparings = s.sparings := by dsimp only [pushFwd]
@[simp] theorem pushFwd_retires (s : State) (f : List Fwd) : (pushFwd s f).retires = s.retires := by dsimp only [pushFwd]
@[simp] theorem pushFwd_subCopy (s : State) (f : List Fwd) : (pushFwd s f).subCopy = s.subCopy := by dsimp only [pushFwd]
@[simp] theorem pushFwd_scratchNew (s : State) (f : List Fwd) : (pushFwd s f).scratchNew = s.scratchNew := by dsimp only [pushFwd]
@[simp] theorem pushFwd_fabric (s : State) (f : List Fwd) : (pushFwd s f).fabric = s.fabric := by dsimp only [pushFwd]
@[simp] theorem pushFwd_mcs (s : State) (f : List Fwd) : (pushFwd s f).mcs = s.mcs := by dsimp only [pushFwd]
@[simp] theorem pushFwd_irqDiscards (s : State) (f : List Fwd) : (pushFwd s f).irqDiscards = s.irqDiscards := by dsimp only [pushFwd]
@[simp] theorem pushFwd_pmTrusted (s : State) (f : List Fwd) : (pushFwd s f).pmTrusted = s.pmTrusted := by dsimp only [pushFwd]
@[simp] theorem pushFwd_engXlat (s : State) (f : List Fwd) : (pushFwd s f).engXlat = s.engXlat := by dsimp only [pushFwd]
@[simp] theorem pushFwd_chans (s : State) (f : List Fwd) : (pushFwd s f).chans = s.chans := by dsimp only [pushFwd]
@[simp] theorem pushFwd_sqOrder (s : State) (f : List Fwd) : (pushFwd s f).sqOrder = s.sqOrder := by dsimp only [pushFwd]
@[simp] theorem pushFwd_ucode (s : State) (f : List Fwd) : (pushFwd s f).ucode = s.ucode := by dsimp only [pushFwd]
@[simp] theorem pushFwd_bridge (s : State) (f : List Fwd) : (pushFwd s f).bridge = s.bridge := by dsimp only [pushFwd]
@[simp] theorem pushFwd_bw (s : State) (f : List Fwd) : (pushFwd s f).bw = s.bw := by dsimp only [pushFwd]
@[simp] theorem pushFwd_pmAt (s : State) (f : List Fwd) : (pushFwd s f).pmAt = s.pmAt := by dsimp only [pushFwd]

@[simp] theorem updM_pending (s : State) (c : Nat) (f : Mc → Mc) : (updM s c f).pending = s.pending := by dsimp only [updM]
@[simp] theorem updM_time (s : State) (c : Nat) (f : Mc → Mc) : (updM s c f).time = s.time := by dsimp only [updM]
@[simp] theorem updM_tb (s : State) (c : Nat) (f : Mc → Mc) : (updM s c f).tb = s.tb := by dsimp only [updM]
@[simp] theorem updM_regs (s : State) (c : Nat) (f : Mc → Mc) : (updM s c f).regs = s.regs := by dsimp only [updM]
@[simp] theorem updM_mem (s : State) (c : Nat) (f : Mc → Mc) : (updM s c f).mem = s.mem := by dsimp only [updM]
@[simp] theorem updM_tags (s : State) (c : Nat) (f : Mc → Mc) : (updM s c f).tags = s.tags := by dsimp only [updM]
@[simp] theorem updM_poison (s : State) (c : Nat) (f : Mc → Mc) : (updM s c f).poison = s.poison := by dsimp only [updM]
@[simp] theorem updM_hostMem (s : State) (c : Nat) (f : Mc → Mc) : (updM s c f).hostMem = s.hostMem := by dsimp only [updM]
@[simp] theorem updM_threads (s : State) (c : Nat) (f : Mc → Mc) : (updM s c f).threads = s.threads := by dsimp only [updM]
@[simp] theorem updM_cores (s : State) (c : Nat) (f : Mc → Mc) : (updM s c f).cores = s.cores := by dsimp only [updM]
@[simp] theorem updM_doms (s : State) (c : Nat) (f : Mc → Mc) : (updM s c f).doms = s.doms := by dsimp only [updM]
@[simp] theorem updM_ports (s : State) (c : Nat) (f : Mc → Mc) : (updM s c f).ports = s.ports := by dsimp only [updM]
@[simp] theorem updM_log (s : State) (c : Nat) (f : Mc → Mc) : (updM s c f).log = s.log := by dsimp only [updM]
@[simp] theorem updM_irqMsgs (s : State) (c : Nat) (f : Mc → Mc) : (updM s c f).irqMsgs = s.irqMsgs := by dsimp only [updM]
@[simp] theorem updM_stateMsgs (s : State) (c : Nat) (f : Mc → Mc) : (updM s c f).stateMsgs = s.stateMsgs := by dsimp only [updM]
@[simp] theorem updM_bcTable (s : State) (c : Nat) (f : Mc → Mc) : (updM s c f).bcTable = s.bcTable := by dsimp only [updM]
@[simp] theorem updM_withdrawn (s : State) (c : Nat) (f : Mc → Mc) : (updM s c f).withdrawn = s.withdrawn := by dsimp only [updM]
@[simp] theorem updM_cxlLost (s : State) (c : Nat) (f : Mc → Mc) : (updM s c f).cxlLost = s.cxlLost := by dsimp only [updM]
@[simp] theorem updM_cxlUp (s : State) (c : Nat) (f : Mc → Mc) : (updM s c f).cxlUp = s.cxlUp := by dsimp only [updM]
@[simp] theorem updM_mgmt (s : State) (c : Nat) (f : Mc → Mc) : (updM s c f).mgmt = s.mgmt := by dsimp only [updM]
@[simp] theorem updM_board (s : State) (c : Nat) (f : Mc → Mc) : (updM s c f).board = s.board := by dsimp only [updM]
@[simp] theorem updM_vault (s : State) (c : Nat) (f : Mc → Mc) : (updM s c f).vault = s.vault := by dsimp only [updM]
@[simp] theorem updM_fuses (s : State) (c : Nat) (f : Mc → Mc) : (updM s c f).fuses = s.fuses := by dsimp only [updM]
@[simp] theorem updM_dimms (s : State) (c : Nat) (f : Mc → Mc) : (updM s c f).dimms = s.dimms := by dsimp only [updM]
@[simp] theorem updM_dir (s : State) (c : Nat) (f : Mc → Mc) : (updM s c f).dir = s.dir := by dsimp only [updM]
@[simp] theorem updM_dup (s : State) (c : Nat) (f : Mc → Mc) : (updM s c f).dup = s.dup := by dsimp only [updM]
@[simp] theorem updM_l3 (s : State) (c : Nat) (f : Mc → Mc) : (updM s c f).l3 = s.l3 := by dsimp only [updM]
@[simp] theorem updM_txns (s : State) (c : Nat) (f : Mc → Mc) : (updM s c f).txns = s.txns := by dsimp only [updM]
@[simp] theorem updM_homeQ (s : State) (c : Nat) (f : Mc → Mc) : (updM s c f).homeQ = s.homeQ := by dsimp only [updM]
@[simp] theorem updM_heldReqs (s : State) (c : Nat) (f : Mc → Mc) : (updM s c f).heldReqs = s.heldReqs := by dsimp only [updM]
@[simp] theorem updM_fwd (s : State) (c : Nat) (f : Mc → Mc) : (updM s c f).fwd = s.fwd := by dsimp only [updM]
@[simp] theorem updM_rsp (s : State) (c : Nat) (f : Mc → Mc) : (updM s c f).rsp = s.rsp := by dsimp only [updM]
@[simp] theorem updM_sparings (s : State) (c : Nat) (f : Mc → Mc) : (updM s c f).sparings = s.sparings := by dsimp only [updM]
@[simp] theorem updM_retires (s : State) (c : Nat) (f : Mc → Mc) : (updM s c f).retires = s.retires := by dsimp only [updM]
@[simp] theorem updM_subCopy (s : State) (c : Nat) (f : Mc → Mc) : (updM s c f).subCopy = s.subCopy := by dsimp only [updM]
@[simp] theorem updM_scratchNew (s : State) (c : Nat) (f : Mc → Mc) : (updM s c f).scratchNew = s.scratchNew := by dsimp only [updM]
@[simp] theorem updM_fabric (s : State) (c : Nat) (f : Mc → Mc) : (updM s c f).fabric = s.fabric := by dsimp only [updM]
@[simp] theorem updM_irqDiscards (s : State) (c : Nat) (f : Mc → Mc) : (updM s c f).irqDiscards = s.irqDiscards := by dsimp only [updM]
@[simp] theorem updM_pmTrusted (s : State) (c : Nat) (f : Mc → Mc) : (updM s c f).pmTrusted = s.pmTrusted := by dsimp only [updM]
@[simp] theorem updM_engXlat (s : State) (c : Nat) (f : Mc → Mc) : (updM s c f).engXlat = s.engXlat := by dsimp only [updM]
@[simp] theorem updM_chans (s : State) (c : Nat) (f : Mc → Mc) : (updM s c f).chans = s.chans := by dsimp only [updM]
@[simp] theorem updM_sqOrder (s : State) (c : Nat) (f : Mc → Mc) : (updM s c f).sqOrder = s.sqOrder := by dsimp only [updM]
@[simp] theorem updM_ucode (s : State) (c : Nat) (f : Mc → Mc) : (updM s c f).ucode = s.ucode := by dsimp only [updM]
@[simp] theorem updM_bridge (s : State) (c : Nat) (f : Mc → Mc) : (updM s c f).bridge = s.bridge := by dsimp only [updM]
@[simp] theorem updM_bw (s : State) (c : Nat) (f : Mc → Mc) : (updM s c f).bw = s.bw := by dsimp only [updM]
@[simp] theorem updM_pmAt (s : State) (c : Nat) (f : Mc → Mc) : (updM s c f).pmAt = s.pmAt := by dsimp only [updM]

@[simp] theorem putP_pending (s : State) (p : Nat) (x : Port) : (putP s p x).pending = s.pending := by dsimp only [putP]
@[simp] theorem putP_time (s : State) (p : Nat) (x : Port) : (putP s p x).time = s.time := by dsimp only [putP]
@[simp] theorem putP_tb (s : State) (p : Nat) (x : Port) : (putP s p x).tb = s.tb := by dsimp only [putP]
@[simp] theorem putP_regs (s : State) (p : Nat) (x : Port) : (putP s p x).regs = s.regs := by dsimp only [putP]
@[simp] theorem putP_mem (s : State) (p : Nat) (x : Port) : (putP s p x).mem = s.mem := by dsimp only [putP]
@[simp] theorem putP_tags (s : State) (p : Nat) (x : Port) : (putP s p x).tags = s.tags := by dsimp only [putP]
@[simp] theorem putP_poison (s : State) (p : Nat) (x : Port) : (putP s p x).poison = s.poison := by dsimp only [putP]
@[simp] theorem putP_hostMem (s : State) (p : Nat) (x : Port) : (putP s p x).hostMem = s.hostMem := by dsimp only [putP]
@[simp] theorem putP_threads (s : State) (p : Nat) (x : Port) : (putP s p x).threads = s.threads := by dsimp only [putP]
@[simp] theorem putP_cores (s : State) (p : Nat) (x : Port) : (putP s p x).cores = s.cores := by dsimp only [putP]
@[simp] theorem putP_doms (s : State) (p : Nat) (x : Port) : (putP s p x).doms = s.doms := by dsimp only [putP]
@[simp] theorem putP_log (s : State) (p : Nat) (x : Port) : (putP s p x).log = s.log := by dsimp only [putP]
@[simp] theorem putP_irqMsgs (s : State) (p : Nat) (x : Port) : (putP s p x).irqMsgs = s.irqMsgs := by dsimp only [putP]
@[simp] theorem putP_stateMsgs (s : State) (p : Nat) (x : Port) : (putP s p x).stateMsgs = s.stateMsgs := by dsimp only [putP]
@[simp] theorem putP_bcTable (s : State) (p : Nat) (x : Port) : (putP s p x).bcTable = s.bcTable := by dsimp only [putP]
@[simp] theorem putP_withdrawn (s : State) (p : Nat) (x : Port) : (putP s p x).withdrawn = s.withdrawn := by dsimp only [putP]
@[simp] theorem putP_cxlLost (s : State) (p : Nat) (x : Port) : (putP s p x).cxlLost = s.cxlLost := by dsimp only [putP]
@[simp] theorem putP_cxlUp (s : State) (p : Nat) (x : Port) : (putP s p x).cxlUp = s.cxlUp := by dsimp only [putP]
@[simp] theorem putP_mgmt (s : State) (p : Nat) (x : Port) : (putP s p x).mgmt = s.mgmt := by dsimp only [putP]
@[simp] theorem putP_board (s : State) (p : Nat) (x : Port) : (putP s p x).board = s.board := by dsimp only [putP]
@[simp] theorem putP_vault (s : State) (p : Nat) (x : Port) : (putP s p x).vault = s.vault := by dsimp only [putP]
@[simp] theorem putP_fuses (s : State) (p : Nat) (x : Port) : (putP s p x).fuses = s.fuses := by dsimp only [putP]
@[simp] theorem putP_dimms (s : State) (p : Nat) (x : Port) : (putP s p x).dimms = s.dimms := by dsimp only [putP]
@[simp] theorem putP_dir (s : State) (p : Nat) (x : Port) : (putP s p x).dir = s.dir := by dsimp only [putP]
@[simp] theorem putP_dup (s : State) (p : Nat) (x : Port) : (putP s p x).dup = s.dup := by dsimp only [putP]
@[simp] theorem putP_l3 (s : State) (p : Nat) (x : Port) : (putP s p x).l3 = s.l3 := by dsimp only [putP]
@[simp] theorem putP_txns (s : State) (p : Nat) (x : Port) : (putP s p x).txns = s.txns := by dsimp only [putP]
@[simp] theorem putP_homeQ (s : State) (p : Nat) (x : Port) : (putP s p x).homeQ = s.homeQ := by dsimp only [putP]
@[simp] theorem putP_heldReqs (s : State) (p : Nat) (x : Port) : (putP s p x).heldReqs = s.heldReqs := by dsimp only [putP]
@[simp] theorem putP_fwd (s : State) (p : Nat) (x : Port) : (putP s p x).fwd = s.fwd := by dsimp only [putP]
@[simp] theorem putP_rsp (s : State) (p : Nat) (x : Port) : (putP s p x).rsp = s.rsp := by dsimp only [putP]
@[simp] theorem putP_sparings (s : State) (p : Nat) (x : Port) : (putP s p x).sparings = s.sparings := by dsimp only [putP]
@[simp] theorem putP_retires (s : State) (p : Nat) (x : Port) : (putP s p x).retires = s.retires := by dsimp only [putP]
@[simp] theorem putP_subCopy (s : State) (p : Nat) (x : Port) : (putP s p x).subCopy = s.subCopy := by dsimp only [putP]
@[simp] theorem putP_scratchNew (s : State) (p : Nat) (x : Port) : (putP s p x).scratchNew = s.scratchNew := by dsimp only [putP]
@[simp] theorem putP_fabric (s : State) (p : Nat) (x : Port) : (putP s p x).fabric = s.fabric := by dsimp only [putP]
@[simp] theorem putP_mcs (s : State) (p : Nat) (x : Port) : (putP s p x).mcs = s.mcs := by dsimp only [putP]
@[simp] theorem putP_irqDiscards (s : State) (p : Nat) (x : Port) : (putP s p x).irqDiscards = s.irqDiscards := by dsimp only [putP]
@[simp] theorem putP_pmTrusted (s : State) (p : Nat) (x : Port) : (putP s p x).pmTrusted = s.pmTrusted := by dsimp only [putP]
@[simp] theorem putP_engXlat (s : State) (p : Nat) (x : Port) : (putP s p x).engXlat = s.engXlat := by dsimp only [putP]
@[simp] theorem putP_chans (s : State) (p : Nat) (x : Port) : (putP s p x).chans = s.chans := by dsimp only [putP]
@[simp] theorem putP_sqOrder (s : State) (p : Nat) (x : Port) : (putP s p x).sqOrder = s.sqOrder := by dsimp only [putP]
@[simp] theorem putP_ucode (s : State) (p : Nat) (x : Port) : (putP s p x).ucode = s.ucode := by dsimp only [putP]
@[simp] theorem putP_bridge (s : State) (p : Nat) (x : Port) : (putP s p x).bridge = s.bridge := by dsimp only [putP]
@[simp] theorem putP_bw (s : State) (p : Nat) (x : Port) : (putP s p x).bw = s.bw := by dsimp only [putP]
@[simp] theorem putP_pmAt (s : State) (p : Nat) (x : Port) : (putP s p x).pmAt = s.pmAt := by dsimp only [putP]

@[simp] theorem putCh_pending (s : State) (g : Nat) (c : Chan) : (putCh s g c).pending = s.pending := by dsimp only [putCh]
@[simp] theorem putCh_time (s : State) (g : Nat) (c : Chan) : (putCh s g c).time = s.time := by dsimp only [putCh]
@[simp] theorem putCh_tb (s : State) (g : Nat) (c : Chan) : (putCh s g c).tb = s.tb := by dsimp only [putCh]
@[simp] theorem putCh_regs (s : State) (g : Nat) (c : Chan) : (putCh s g c).regs = s.regs := by dsimp only [putCh]
@[simp] theorem putCh_mem (s : State) (g : Nat) (c : Chan) : (putCh s g c).mem = s.mem := by dsimp only [putCh]
@[simp] theorem putCh_tags (s : State) (g : Nat) (c : Chan) : (putCh s g c).tags = s.tags := by dsimp only [putCh]
@[simp] theorem putCh_poison (s : State) (g : Nat) (c : Chan) : (putCh s g c).poison = s.poison := by dsimp only [putCh]
@[simp] theorem putCh_hostMem (s : State) (g : Nat) (c : Chan) : (putCh s g c).hostMem = s.hostMem := by dsimp only [putCh]
@[simp] theorem putCh_threads (s : State) (g : Nat) (c : Chan) : (putCh s g c).threads = s.threads := by dsimp only [putCh]
@[simp] theorem putCh_cores (s : State) (g : Nat) (c : Chan) : (putCh s g c).cores = s.cores := by dsimp only [putCh]
@[simp] theorem putCh_doms (s : State) (g : Nat) (c : Chan) : (putCh s g c).doms = s.doms := by dsimp only [putCh]
@[simp] theorem putCh_ports (s : State) (g : Nat) (c : Chan) : (putCh s g c).ports = s.ports := by dsimp only [putCh]
@[simp] theorem putCh_log (s : State) (g : Nat) (c : Chan) : (putCh s g c).log = s.log := by dsimp only [putCh]
@[simp] theorem putCh_irqMsgs (s : State) (g : Nat) (c : Chan) : (putCh s g c).irqMsgs = s.irqMsgs := by dsimp only [putCh]
@[simp] theorem putCh_stateMsgs (s : State) (g : Nat) (c : Chan) : (putCh s g c).stateMsgs = s.stateMsgs := by dsimp only [putCh]
@[simp] theorem putCh_bcTable (s : State) (g : Nat) (c : Chan) : (putCh s g c).bcTable = s.bcTable := by dsimp only [putCh]
@[simp] theorem putCh_withdrawn (s : State) (g : Nat) (c : Chan) : (putCh s g c).withdrawn = s.withdrawn := by dsimp only [putCh]
@[simp] theorem putCh_cxlLost (s : State) (g : Nat) (c : Chan) : (putCh s g c).cxlLost = s.cxlLost := by dsimp only [putCh]
@[simp] theorem putCh_cxlUp (s : State) (g : Nat) (c : Chan) : (putCh s g c).cxlUp = s.cxlUp := by dsimp only [putCh]
@[simp] theorem putCh_mgmt (s : State) (g : Nat) (c : Chan) : (putCh s g c).mgmt = s.mgmt := by dsimp only [putCh]
@[simp] theorem putCh_board (s : State) (g : Nat) (c : Chan) : (putCh s g c).board = s.board := by dsimp only [putCh]
@[simp] theorem putCh_vault (s : State) (g : Nat) (c : Chan) : (putCh s g c).vault = s.vault := by dsimp only [putCh]
@[simp] theorem putCh_fuses (s : State) (g : Nat) (c : Chan) : (putCh s g c).fuses = s.fuses := by dsimp only [putCh]
@[simp] theorem putCh_dimms (s : State) (g : Nat) (c : Chan) : (putCh s g c).dimms = s.dimms := by dsimp only [putCh]
@[simp] theorem putCh_dir (s : State) (g : Nat) (c : Chan) : (putCh s g c).dir = s.dir := by dsimp only [putCh]
@[simp] theorem putCh_dup (s : State) (g : Nat) (c : Chan) : (putCh s g c).dup = s.dup := by dsimp only [putCh]
@[simp] theorem putCh_l3 (s : State) (g : Nat) (c : Chan) : (putCh s g c).l3 = s.l3 := by dsimp only [putCh]
@[simp] theorem putCh_txns (s : State) (g : Nat) (c : Chan) : (putCh s g c).txns = s.txns := by dsimp only [putCh]
@[simp] theorem putCh_homeQ (s : State) (g : Nat) (c : Chan) : (putCh s g c).homeQ = s.homeQ := by dsimp only [putCh]
@[simp] theorem putCh_heldReqs (s : State) (g : Nat) (c : Chan) : (putCh s g c).heldReqs = s.heldReqs := by dsimp only [putCh]
@[simp] theorem putCh_fwd (s : State) (g : Nat) (c : Chan) : (putCh s g c).fwd = s.fwd := by dsimp only [putCh]
@[simp] theorem putCh_rsp (s : State) (g : Nat) (c : Chan) : (putCh s g c).rsp = s.rsp := by dsimp only [putCh]
@[simp] theorem putCh_sparings (s : State) (g : Nat) (c : Chan) : (putCh s g c).sparings = s.sparings := by dsimp only [putCh]
@[simp] theorem putCh_retires (s : State) (g : Nat) (c : Chan) : (putCh s g c).retires = s.retires := by dsimp only [putCh]
@[simp] theorem putCh_subCopy (s : State) (g : Nat) (c : Chan) : (putCh s g c).subCopy = s.subCopy := by dsimp only [putCh]
@[simp] theorem putCh_scratchNew (s : State) (g : Nat) (c : Chan) : (putCh s g c).scratchNew = s.scratchNew := by dsimp only [putCh]
@[simp] theorem putCh_fabric (s : State) (g : Nat) (c : Chan) : (putCh s g c).fabric = s.fabric := by dsimp only [putCh]
@[simp] theorem putCh_mcs (s : State) (g : Nat) (c : Chan) : (putCh s g c).mcs = s.mcs := by dsimp only [putCh]
@[simp] theorem putCh_irqDiscards (s : State) (g : Nat) (c : Chan) : (putCh s g c).irqDiscards = s.irqDiscards := by dsimp only [putCh]
@[simp] theorem putCh_pmTrusted (s : State) (g : Nat) (c : Chan) : (putCh s g c).pmTrusted = s.pmTrusted := by dsimp only [putCh]
@[simp] theorem putCh_engXlat (s : State) (g : Nat) (c : Chan) : (putCh s g c).engXlat = s.engXlat := by dsimp only [putCh]
@[simp] theorem putCh_sqOrder (s : State) (g : Nat) (c : Chan) : (putCh s g c).sqOrder = s.sqOrder := by dsimp only [putCh]
@[simp] theorem putCh_ucode (s : State) (g : Nat) (c : Chan) : (putCh s g c).ucode = s.ucode := by dsimp only [putCh]
@[simp] theorem putCh_bridge (s : State) (g : Nat) (c : Chan) : (putCh s g c).bridge = s.bridge := by dsimp only [putCh]
@[simp] theorem putCh_bw (s : State) (g : Nat) (c : Chan) : (putCh s g c).bw = s.bw := by dsimp only [putCh]
@[simp] theorem putCh_pmAt (s : State) (g : Nat) (c : Chan) : (putCh s g c).pmAt = s.pmAt := by dsimp only [putCh]

@[simp] theorem updCh_pending (s : State) (g : Nat) (f : Chan → Chan) : (updCh s g f).pending = s.pending := by simp only [updCh, putCh_pending]
@[simp] theorem updCh_time (s : State) (g : Nat) (f : Chan → Chan) : (updCh s g f).time = s.time := by simp only [updCh, putCh_time]
@[simp] theorem updCh_tb (s : State) (g : Nat) (f : Chan → Chan) : (updCh s g f).tb = s.tb := by simp only [updCh, putCh_tb]
@[simp] theorem updCh_regs (s : State) (g : Nat) (f : Chan → Chan) : (updCh s g f).regs = s.regs := by simp only [updCh, putCh_regs]
@[simp] theorem updCh_mem (s : State) (g : Nat) (f : Chan → Chan) : (updCh s g f).mem = s.mem := by simp only [updCh, putCh_mem]
@[simp] theorem updCh_tags (s : State) (g : Nat) (f : Chan → Chan) : (updCh s g f).tags = s.tags := by simp only [updCh, putCh_tags]
@[simp] theorem updCh_poison (s : State) (g : Nat) (f : Chan → Chan) : (updCh s g f).poison = s.poison := by simp only [updCh, putCh_poison]
@[simp] theorem updCh_hostMem (s : State) (g : Nat) (f : Chan → Chan) : (updCh s g f).hostMem = s.hostMem := by simp only [updCh, putCh_hostMem]
@[simp] theorem updCh_threads (s : State) (g : Nat) (f : Chan → Chan) : (updCh s g f).threads = s.threads := by simp only [updCh, putCh_threads]
@[simp] theorem updCh_cores (s : State) (g : Nat) (f : Chan → Chan) : (updCh s g f).cores = s.cores := by simp only [updCh, putCh_cores]
@[simp] theorem updCh_doms (s : State) (g : Nat) (f : Chan → Chan) : (updCh s g f).doms = s.doms := by simp only [updCh, putCh_doms]
@[simp] theorem updCh_ports (s : State) (g : Nat) (f : Chan → Chan) : (updCh s g f).ports = s.ports := by simp only [updCh, putCh_ports]
@[simp] theorem updCh_log (s : State) (g : Nat) (f : Chan → Chan) : (updCh s g f).log = s.log := by simp only [updCh, putCh_log]
@[simp] theorem updCh_irqMsgs (s : State) (g : Nat) (f : Chan → Chan) : (updCh s g f).irqMsgs = s.irqMsgs := by simp only [updCh, putCh_irqMsgs]
@[simp] theorem updCh_stateMsgs (s : State) (g : Nat) (f : Chan → Chan) : (updCh s g f).stateMsgs = s.stateMsgs := by simp only [updCh, putCh_stateMsgs]
@[simp] theorem updCh_bcTable (s : State) (g : Nat) (f : Chan → Chan) : (updCh s g f).bcTable = s.bcTable := by simp only [updCh, putCh_bcTable]
@[simp] theorem updCh_withdrawn (s : State) (g : Nat) (f : Chan → Chan) : (updCh s g f).withdrawn = s.withdrawn := by simp only [updCh, putCh_withdrawn]
@[simp] theorem updCh_cxlLost (s : State) (g : Nat) (f : Chan → Chan) : (updCh s g f).cxlLost = s.cxlLost := by simp only [updCh, putCh_cxlLost]
@[simp] theorem updCh_cxlUp (s : State) (g : Nat) (f : Chan → Chan) : (updCh s g f).cxlUp = s.cxlUp := by simp only [updCh, putCh_cxlUp]
@[simp] theorem updCh_mgmt (s : State) (g : Nat) (f : Chan → Chan) : (updCh s g f).mgmt = s.mgmt := by simp only [updCh, putCh_mgmt]
@[simp] theorem updCh_board (s : State) (g : Nat) (f : Chan → Chan) : (updCh s g f).board = s.board := by simp only [updCh, putCh_board]
@[simp] theorem updCh_vault (s : State) (g : Nat) (f : Chan → Chan) : (updCh s g f).vault = s.vault := by simp only [updCh, putCh_vault]
@[simp] theorem updCh_fuses (s : State) (g : Nat) (f : Chan → Chan) : (updCh s g f).fuses = s.fuses := by simp only [updCh, putCh_fuses]
@[simp] theorem updCh_dimms (s : State) (g : Nat) (f : Chan → Chan) : (updCh s g f).dimms = s.dimms := by simp only [updCh, putCh_dimms]
@[simp] theorem updCh_dir (s : State) (g : Nat) (f : Chan → Chan) : (updCh s g f).dir = s.dir := by simp only [updCh, putCh_dir]
@[simp] theorem updCh_dup (s : State) (g : Nat) (f : Chan → Chan) : (updCh s g f).dup = s.dup := by simp only [updCh, putCh_dup]
@[simp] theorem updCh_l3 (s : State) (g : Nat) (f : Chan → Chan) : (updCh s g f).l3 = s.l3 := by simp only [updCh, putCh_l3]
@[simp] theorem updCh_txns (s : State) (g : Nat) (f : Chan → Chan) : (updCh s g f).txns = s.txns := by simp only [updCh, putCh_txns]
@[simp] theorem updCh_homeQ (s : State) (g : Nat) (f : Chan → Chan) : (updCh s g f).homeQ = s.homeQ := by simp only [updCh, putCh_homeQ]
@[simp] theorem updCh_heldReqs (s : State) (g : Nat) (f : Chan → Chan) : (updCh s g f).heldReqs = s.heldReqs := by simp only [updCh, putCh_heldReqs]
@[simp] theorem updCh_fwd (s : State) (g : Nat) (f : Chan → Chan) : (updCh s g f).fwd = s.fwd := by simp only [updCh, putCh_fwd]
@[simp] theorem updCh_rsp (s : State) (g : Nat) (f : Chan → Chan) : (updCh s g f).rsp = s.rsp := by simp only [updCh, putCh_rsp]
@[simp] theorem updCh_sparings (s : State) (g : Nat) (f : Chan → Chan) : (updCh s g f).sparings = s.sparings := by simp only [updCh, putCh_sparings]
@[simp] theorem updCh_retires (s : State) (g : Nat) (f : Chan → Chan) : (updCh s g f).retires = s.retires := by simp only [updCh, putCh_retires]
@[simp] theorem updCh_subCopy (s : State) (g : Nat) (f : Chan → Chan) : (updCh s g f).subCopy = s.subCopy := by simp only [updCh, putCh_subCopy]
@[simp] theorem updCh_scratchNew (s : State) (g : Nat) (f : Chan → Chan) : (updCh s g f).scratchNew = s.scratchNew := by simp only [updCh, putCh_scratchNew]
@[simp] theorem updCh_fabric (s : State) (g : Nat) (f : Chan → Chan) : (updCh s g f).fabric = s.fabric := by simp only [updCh, putCh_fabric]
@[simp] theorem updCh_mcs (s : State) (g : Nat) (f : Chan → Chan) : (updCh s g f).mcs = s.mcs := by simp only [updCh, putCh_mcs]
@[simp] theorem updCh_irqDiscards (s : State) (g : Nat) (f : Chan → Chan) : (updCh s g f).irqDiscards = s.irqDiscards := by simp only [updCh, putCh_irqDiscards]
@[simp] theorem updCh_pmTrusted (s : State) (g : Nat) (f : Chan → Chan) : (updCh s g f).pmTrusted = s.pmTrusted := by simp only [updCh, putCh_pmTrusted]
@[simp] theorem updCh_engXlat (s : State) (g : Nat) (f : Chan → Chan) : (updCh s g f).engXlat = s.engXlat := by simp only [updCh, putCh_engXlat]
@[simp] theorem updCh_sqOrder (s : State) (g : Nat) (f : Chan → Chan) : (updCh s g f).sqOrder = s.sqOrder := by simp only [updCh, putCh_sqOrder]
@[simp] theorem updCh_ucode (s : State) (g : Nat) (f : Chan → Chan) : (updCh s g f).ucode = s.ucode := by simp only [updCh, putCh_ucode]
@[simp] theorem updCh_bridge (s : State) (g : Nat) (f : Chan → Chan) : (updCh s g f).bridge = s.bridge := by simp only [updCh, putCh_bridge]
@[simp] theorem updCh_bw (s : State) (g : Nat) (f : Chan → Chan) : (updCh s g f).bw = s.bw := by simp only [updCh, putCh_bw]
@[simp] theorem updCh_pmAt (s : State) (g : Nat) (f : Chan → Chan) : (updCh s g f).pmAt = s.pmAt := by simp only [updCh, putCh_pmAt]

@[simp] theorem updD_pending (s : State) (d : Nat) (f : Dom → Dom) : (updD s d f).pending = s.pending := by dsimp only [updD]
@[simp] theorem updD_time (s : State) (d : Nat) (f : Dom → Dom) : (updD s d f).time = s.time := by dsimp only [updD]
@[simp] theorem updD_tb (s : State) (d : Nat) (f : Dom → Dom) : (updD s d f).tb = s.tb := by dsimp only [updD]
@[simp] theorem updD_regs (s : State) (d : Nat) (f : Dom → Dom) : (updD s d f).regs = s.regs := by dsimp only [updD]
@[simp] theorem updD_mem (s : State) (d : Nat) (f : Dom → Dom) : (updD s d f).mem = s.mem := by dsimp only [updD]
@[simp] theorem updD_tags (s : State) (d : Nat) (f : Dom → Dom) : (updD s d f).tags = s.tags := by dsimp only [updD]
@[simp] theorem updD_poison (s : State) (d : Nat) (f : Dom → Dom) : (updD s d f).poison = s.poison := by dsimp only [updD]
@[simp] theorem updD_hostMem (s : State) (d : Nat) (f : Dom → Dom) : (updD s d f).hostMem = s.hostMem := by dsimp only [updD]
@[simp] theorem updD_threads (s : State) (d : Nat) (f : Dom → Dom) : (updD s d f).threads = s.threads := by dsimp only [updD]
@[simp] theorem updD_cores (s : State) (d : Nat) (f : Dom → Dom) : (updD s d f).cores = s.cores := by dsimp only [updD]
@[simp] theorem updD_ports (s : State) (d : Nat) (f : Dom → Dom) : (updD s d f).ports = s.ports := by dsimp only [updD]
@[simp] theorem updD_log (s : State) (d : Nat) (f : Dom → Dom) : (updD s d f).log = s.log := by dsimp only [updD]
@[simp] theorem updD_irqMsgs (s : State) (d : Nat) (f : Dom → Dom) : (updD s d f).irqMsgs = s.irqMsgs := by dsimp only [updD]
@[simp] theorem updD_stateMsgs (s : State) (d : Nat) (f : Dom → Dom) : (updD s d f).stateMsgs = s.stateMsgs := by dsimp only [updD]
@[simp] theorem updD_bcTable (s : State) (d : Nat) (f : Dom → Dom) : (updD s d f).bcTable = s.bcTable := by dsimp only [updD]
@[simp] theorem updD_withdrawn (s : State) (d : Nat) (f : Dom → Dom) : (updD s d f).withdrawn = s.withdrawn := by dsimp only [updD]
@[simp] theorem updD_cxlLost (s : State) (d : Nat) (f : Dom → Dom) : (updD s d f).cxlLost = s.cxlLost := by dsimp only [updD]
@[simp] theorem updD_cxlUp (s : State) (d : Nat) (f : Dom → Dom) : (updD s d f).cxlUp = s.cxlUp := by dsimp only [updD]
@[simp] theorem updD_mgmt (s : State) (d : Nat) (f : Dom → Dom) : (updD s d f).mgmt = s.mgmt := by dsimp only [updD]
@[simp] theorem updD_board (s : State) (d : Nat) (f : Dom → Dom) : (updD s d f).board = s.board := by dsimp only [updD]
@[simp] theorem updD_vault (s : State) (d : Nat) (f : Dom → Dom) : (updD s d f).vault = s.vault := by dsimp only [updD]
@[simp] theorem updD_fuses (s : State) (d : Nat) (f : Dom → Dom) : (updD s d f).fuses = s.fuses := by dsimp only [updD]
@[simp] theorem updD_dimms (s : State) (d : Nat) (f : Dom → Dom) : (updD s d f).dimms = s.dimms := by dsimp only [updD]
@[simp] theorem updD_dir (s : State) (d : Nat) (f : Dom → Dom) : (updD s d f).dir = s.dir := by dsimp only [updD]
@[simp] theorem updD_dup (s : State) (d : Nat) (f : Dom → Dom) : (updD s d f).dup = s.dup := by dsimp only [updD]
@[simp] theorem updD_l3 (s : State) (d : Nat) (f : Dom → Dom) : (updD s d f).l3 = s.l3 := by dsimp only [updD]
@[simp] theorem updD_txns (s : State) (d : Nat) (f : Dom → Dom) : (updD s d f).txns = s.txns := by dsimp only [updD]
@[simp] theorem updD_homeQ (s : State) (d : Nat) (f : Dom → Dom) : (updD s d f).homeQ = s.homeQ := by dsimp only [updD]
@[simp] theorem updD_heldReqs (s : State) (d : Nat) (f : Dom → Dom) : (updD s d f).heldReqs = s.heldReqs := by dsimp only [updD]
@[simp] theorem updD_fwd (s : State) (d : Nat) (f : Dom → Dom) : (updD s d f).fwd = s.fwd := by dsimp only [updD]
@[simp] theorem updD_rsp (s : State) (d : Nat) (f : Dom → Dom) : (updD s d f).rsp = s.rsp := by dsimp only [updD]
@[simp] theorem updD_sparings (s : State) (d : Nat) (f : Dom → Dom) : (updD s d f).sparings = s.sparings := by dsimp only [updD]
@[simp] theorem updD_retires (s : State) (d : Nat) (f : Dom → Dom) : (updD s d f).retires = s.retires := by dsimp only [updD]
@[simp] theorem updD_subCopy (s : State) (d : Nat) (f : Dom → Dom) : (updD s d f).subCopy = s.subCopy := by dsimp only [updD]
@[simp] theorem updD_scratchNew (s : State) (d : Nat) (f : Dom → Dom) : (updD s d f).scratchNew = s.scratchNew := by dsimp only [updD]
@[simp] theorem updD_fabric (s : State) (d : Nat) (f : Dom → Dom) : (updD s d f).fabric = s.fabric := by dsimp only [updD]
@[simp] theorem updD_mcs (s : State) (d : Nat) (f : Dom → Dom) : (updD s d f).mcs = s.mcs := by dsimp only [updD]
@[simp] theorem updD_irqDiscards (s : State) (d : Nat) (f : Dom → Dom) : (updD s d f).irqDiscards = s.irqDiscards := by dsimp only [updD]
@[simp] theorem updD_pmTrusted (s : State) (d : Nat) (f : Dom → Dom) : (updD s d f).pmTrusted = s.pmTrusted := by dsimp only [updD]
@[simp] theorem updD_engXlat (s : State) (d : Nat) (f : Dom → Dom) : (updD s d f).engXlat = s.engXlat := by dsimp only [updD]
@[simp] theorem updD_chans (s : State) (d : Nat) (f : Dom → Dom) : (updD s d f).chans = s.chans := by dsimp only [updD]
@[simp] theorem updD_sqOrder (s : State) (d : Nat) (f : Dom → Dom) : (updD s d f).sqOrder = s.sqOrder := by dsimp only [updD]
@[simp] theorem updD_ucode (s : State) (d : Nat) (f : Dom → Dom) : (updD s d f).ucode = s.ucode := by dsimp only [updD]
@[simp] theorem updD_bridge (s : State) (d : Nat) (f : Dom → Dom) : (updD s d f).bridge = s.bridge := by dsimp only [updD]
@[simp] theorem updD_bw (s : State) (d : Nat) (f : Dom → Dom) : (updD s d f).bw = s.bw := by dsimp only [updD]
@[simp] theorem updD_pmAt (s : State) (d : Nat) (f : Dom → Dom) : (updD s d f).pmAt = s.pmAt := by dsimp only [updD]

@[simp] theorem updNet_pending (s : State) (b : Nat) (f : NetPort → NetPort) : (updNet s b f).pending = s.pending := by dsimp only [updNet]
@[simp] theorem updNet_time (s : State) (b : Nat) (f : NetPort → NetPort) : (updNet s b f).time = s.time := by dsimp only [updNet]
@[simp] theorem updNet_tb (s : State) (b : Nat) (f : NetPort → NetPort) : (updNet s b f).tb = s.tb := by dsimp only [updNet]
@[simp] theorem updNet_regs (s : State) (b : Nat) (f : NetPort → NetPort) : (updNet s b f).regs = s.regs := by dsimp only [updNet]
@[simp] theorem updNet_mem (s : State) (b : Nat) (f : NetPort → NetPort) : (updNet s b f).mem = s.mem := by dsimp only [updNet]
@[simp] theorem updNet_tags (s : State) (b : Nat) (f : NetPort → NetPort) : (updNet s b f).tags = s.tags := by dsimp only [updNet]
@[simp] theorem updNet_poison (s : State) (b : Nat) (f : NetPort → NetPort) : (updNet s b f).poison = s.poison := by dsimp only [updNet]
@[simp] theorem updNet_hostMem (s : State) (b : Nat) (f : NetPort → NetPort) : (updNet s b f).hostMem = s.hostMem := by dsimp only [updNet]
@[simp] theorem updNet_threads (s : State) (b : Nat) (f : NetPort → NetPort) : (updNet s b f).threads = s.threads := by dsimp only [updNet]
@[simp] theorem updNet_cores (s : State) (b : Nat) (f : NetPort → NetPort) : (updNet s b f).cores = s.cores := by dsimp only [updNet]
@[simp] theorem updNet_doms (s : State) (b : Nat) (f : NetPort → NetPort) : (updNet s b f).doms = s.doms := by dsimp only [updNet]
@[simp] theorem updNet_ports (s : State) (b : Nat) (f : NetPort → NetPort) : (updNet s b f).ports = s.ports := by dsimp only [updNet]
@[simp] theorem updNet_log (s : State) (b : Nat) (f : NetPort → NetPort) : (updNet s b f).log = s.log := by dsimp only [updNet]
@[simp] theorem updNet_irqMsgs (s : State) (b : Nat) (f : NetPort → NetPort) : (updNet s b f).irqMsgs = s.irqMsgs := by dsimp only [updNet]
@[simp] theorem updNet_stateMsgs (s : State) (b : Nat) (f : NetPort → NetPort) : (updNet s b f).stateMsgs = s.stateMsgs := by dsimp only [updNet]
@[simp] theorem updNet_bcTable (s : State) (b : Nat) (f : NetPort → NetPort) : (updNet s b f).bcTable = s.bcTable := by dsimp only [updNet]
@[simp] theorem updNet_withdrawn (s : State) (b : Nat) (f : NetPort → NetPort) : (updNet s b f).withdrawn = s.withdrawn := by dsimp only [updNet]
@[simp] theorem updNet_cxlLost (s : State) (b : Nat) (f : NetPort → NetPort) : (updNet s b f).cxlLost = s.cxlLost := by dsimp only [updNet]
@[simp] theorem updNet_cxlUp (s : State) (b : Nat) (f : NetPort → NetPort) : (updNet s b f).cxlUp = s.cxlUp := by dsimp only [updNet]
@[simp] theorem updNet_mgmt (s : State) (b : Nat) (f : NetPort → NetPort) : (updNet s b f).mgmt = s.mgmt := by dsimp only [updNet]
@[simp] theorem updNet_board (s : State) (b : Nat) (f : NetPort → NetPort) : (updNet s b f).board = s.board := by dsimp only [updNet]
@[simp] theorem updNet_vault (s : State) (b : Nat) (f : NetPort → NetPort) : (updNet s b f).vault = s.vault := by dsimp only [updNet]
@[simp] theorem updNet_fuses (s : State) (b : Nat) (f : NetPort → NetPort) : (updNet s b f).fuses = s.fuses := by dsimp only [updNet]
@[simp] theorem updNet_dimms (s : State) (b : Nat) (f : NetPort → NetPort) : (updNet s b f).dimms = s.dimms := by dsimp only [updNet]
@[simp] theorem updNet_dir (s : State) (b : Nat) (f : NetPort → NetPort) : (updNet s b f).dir = s.dir := by dsimp only [updNet]
@[simp] theorem updNet_dup (s : State) (b : Nat) (f : NetPort → NetPort) : (updNet s b f).dup = s.dup := by dsimp only [updNet]
@[simp] theorem updNet_l3 (s : State) (b : Nat) (f : NetPort → NetPort) : (updNet s b f).l3 = s.l3 := by dsimp only [updNet]
@[simp] theorem updNet_txns (s : State) (b : Nat) (f : NetPort → NetPort) : (updNet s b f).txns = s.txns := by dsimp only [updNet]
@[simp] theorem updNet_homeQ (s : State) (b : Nat) (f : NetPort → NetPort) : (updNet s b f).homeQ = s.homeQ := by dsimp only [updNet]
@[simp] theorem updNet_heldReqs (s : State) (b : Nat) (f : NetPort → NetPort) : (updNet s b f).heldReqs = s.heldReqs := by dsimp only [updNet]
@[simp] theorem updNet_fwd (s : State) (b : Nat) (f : NetPort → NetPort) : (updNet s b f).fwd = s.fwd := by dsimp only [updNet]
@[simp] theorem updNet_rsp (s : State) (b : Nat) (f : NetPort → NetPort) : (updNet s b f).rsp = s.rsp := by dsimp only [updNet]
@[simp] theorem updNet_sparings (s : State) (b : Nat) (f : NetPort → NetPort) : (updNet s b f).sparings = s.sparings := by dsimp only [updNet]
@[simp] theorem updNet_retires (s : State) (b : Nat) (f : NetPort → NetPort) : (updNet s b f).retires = s.retires := by dsimp only [updNet]
@[simp] theorem updNet_subCopy (s : State) (b : Nat) (f : NetPort → NetPort) : (updNet s b f).subCopy = s.subCopy := by dsimp only [updNet]
@[simp] theorem updNet_scratchNew (s : State) (b : Nat) (f : NetPort → NetPort) : (updNet s b f).scratchNew = s.scratchNew := by dsimp only [updNet]
@[simp] theorem updNet_fabric (s : State) (b : Nat) (f : NetPort → NetPort) : (updNet s b f).fabric = s.fabric := by dsimp only [updNet]
@[simp] theorem updNet_mcs (s : State) (b : Nat) (f : NetPort → NetPort) : (updNet s b f).mcs = s.mcs := by dsimp only [updNet]
@[simp] theorem updNet_irqDiscards (s : State) (b : Nat) (f : NetPort → NetPort) : (updNet s b f).irqDiscards = s.irqDiscards := by dsimp only [updNet]
@[simp] theorem updNet_pmTrusted (s : State) (b : Nat) (f : NetPort → NetPort) : (updNet s b f).pmTrusted = s.pmTrusted := by dsimp only [updNet]
@[simp] theorem updNet_engXlat (s : State) (b : Nat) (f : NetPort → NetPort) : (updNet s b f).engXlat = s.engXlat := by dsimp only [updNet]
@[simp] theorem updNet_chans (s : State) (b : Nat) (f : NetPort → NetPort) : (updNet s b f).chans = s.chans := by dsimp only [updNet]
@[simp] theorem updNet_sqOrder (s : State) (b : Nat) (f : NetPort → NetPort) : (updNet s b f).sqOrder = s.sqOrder := by dsimp only [updNet]
@[simp] theorem updNet_ucode (s : State) (b : Nat) (f : NetPort → NetPort) : (updNet s b f).ucode = s.ucode := by dsimp only [updNet]
@[simp] theorem updNet_bw (s : State) (b : Nat) (f : NetPort → NetPort) : (updNet s b f).bw = s.bw := by dsimp only [updNet]
@[simp] theorem updNet_pmAt (s : State) (b : Nat) (f : NetPort → NetPort) : (updNet s b f).pmAt = s.pmAt := by dsimp only [updNet]

@[simp] theorem updU_pending (s : State) (u : Nat) (f : Ucode → Ucode) : (updU s u f).pending = s.pending := by dsimp only [updU]
@[simp] theorem updU_time (s : State) (u : Nat) (f : Ucode → Ucode) : (updU s u f).time = s.time := by dsimp only [updU]
@[simp] theorem updU_tb (s : State) (u : Nat) (f : Ucode → Ucode) : (updU s u f).tb = s.tb := by dsimp only [updU]
@[simp] theorem updU_regs (s : State) (u : Nat) (f : Ucode → Ucode) : (updU s u f).regs = s.regs := by dsimp only [updU]
@[simp] theorem updU_mem (s : State) (u : Nat) (f : Ucode → Ucode) : (updU s u f).mem = s.mem := by dsimp only [updU]
@[simp] theorem updU_tags (s : State) (u : Nat) (f : Ucode → Ucode) : (updU s u f).tags = s.tags := by dsimp only [updU]
@[simp] theorem updU_poison (s : State) (u : Nat) (f : Ucode → Ucode) : (updU s u f).poison = s.poison := by dsimp only [updU]
@[simp] theorem updU_hostMem (s : State) (u : Nat) (f : Ucode → Ucode) : (updU s u f).hostMem = s.hostMem := by dsimp only [updU]
@[simp] theorem updU_threads (s : State) (u : Nat) (f : Ucode → Ucode) : (updU s u f).threads = s.threads := by dsimp only [updU]
@[simp] theorem updU_cores (s : State) (u : Nat) (f : Ucode → Ucode) : (updU s u f).cores = s.cores := by dsimp only [updU]
@[simp] theorem updU_doms (s : State) (u : Nat) (f : Ucode → Ucode) : (updU s u f).doms = s.doms := by dsimp only [updU]
@[simp] theorem updU_ports (s : State) (u : Nat) (f : Ucode → Ucode) : (updU s u f).ports = s.ports := by dsimp only [updU]
@[simp] theorem updU_log (s : State) (u : Nat) (f : Ucode → Ucode) : (updU s u f).log = s.log := by dsimp only [updU]
@[simp] theorem updU_irqMsgs (s : State) (u : Nat) (f : Ucode → Ucode) : (updU s u f).irqMsgs = s.irqMsgs := by dsimp only [updU]
@[simp] theorem updU_stateMsgs (s : State) (u : Nat) (f : Ucode → Ucode) : (updU s u f).stateMsgs = s.stateMsgs := by dsimp only [updU]
@[simp] theorem updU_bcTable (s : State) (u : Nat) (f : Ucode → Ucode) : (updU s u f).bcTable = s.bcTable := by dsimp only [updU]
@[simp] theorem updU_withdrawn (s : State) (u : Nat) (f : Ucode → Ucode) : (updU s u f).withdrawn = s.withdrawn := by dsimp only [updU]
@[simp] theorem updU_cxlLost (s : State) (u : Nat) (f : Ucode → Ucode) : (updU s u f).cxlLost = s.cxlLost := by dsimp only [updU]
@[simp] theorem updU_cxlUp (s : State) (u : Nat) (f : Ucode → Ucode) : (updU s u f).cxlUp = s.cxlUp := by dsimp only [updU]
@[simp] theorem updU_mgmt (s : State) (u : Nat) (f : Ucode → Ucode) : (updU s u f).mgmt = s.mgmt := by dsimp only [updU]
@[simp] theorem updU_board (s : State) (u : Nat) (f : Ucode → Ucode) : (updU s u f).board = s.board := by dsimp only [updU]
@[simp] theorem updU_vault (s : State) (u : Nat) (f : Ucode → Ucode) : (updU s u f).vault = s.vault := by dsimp only [updU]
@[simp] theorem updU_fuses (s : State) (u : Nat) (f : Ucode → Ucode) : (updU s u f).fuses = s.fuses := by dsimp only [updU]
@[simp] theorem updU_dimms (s : State) (u : Nat) (f : Ucode → Ucode) : (updU s u f).dimms = s.dimms := by dsimp only [updU]
@[simp] theorem updU_dir (s : State) (u : Nat) (f : Ucode → Ucode) : (updU s u f).dir = s.dir := by dsimp only [updU]
@[simp] theorem updU_dup (s : State) (u : Nat) (f : Ucode → Ucode) : (updU s u f).dup = s.dup := by dsimp only [updU]
@[simp] theorem updU_l3 (s : State) (u : Nat) (f : Ucode → Ucode) : (updU s u f).l3 = s.l3 := by dsimp only [updU]
@[simp] theorem updU_txns (s : State) (u : Nat) (f : Ucode → Ucode) : (updU s u f).txns = s.txns := by dsimp only [updU]
@[simp] theorem updU_homeQ (s : State) (u : Nat) (f : Ucode → Ucode) : (updU s u f).homeQ = s.homeQ := by dsimp only [updU]
@[simp] theorem updU_heldReqs (s : State) (u : Nat) (f : Ucode → Ucode) : (updU s u f).heldReqs = s.heldReqs := by dsimp only [updU]
@[simp] theorem updU_fwd (s : State) (u : Nat) (f : Ucode → Ucode) : (updU s u f).fwd = s.fwd := by dsimp only [updU]
@[simp] theorem updU_rsp (s : State) (u : Nat) (f : Ucode → Ucode) : (updU s u f).rsp = s.rsp := by dsimp only [updU]
@[simp] theorem updU_sparings (s : State) (u : Nat) (f : Ucode → Ucode) : (updU s u f).sparings = s.sparings := by dsimp only [updU]
@[simp] theorem updU_retires (s : State) (u : Nat) (f : Ucode → Ucode) : (updU s u f).retires = s.retires := by dsimp only [updU]
@[simp] theorem updU_subCopy (s : State) (u : Nat) (f : Ucode → Ucode) : (updU s u f).subCopy = s.subCopy := by dsimp only [updU]
@[simp] theorem updU_scratchNew (s : State) (u : Nat) (f : Ucode → Ucode) : (updU s u f).scratchNew = s.scratchNew := by dsimp only [updU]
@[simp] theorem updU_fabric (s : State) (u : Nat) (f : Ucode → Ucode) : (updU s u f).fabric = s.fabric := by dsimp only [updU]
@[simp] theorem updU_mcs (s : State) (u : Nat) (f : Ucode → Ucode) : (updU s u f).mcs = s.mcs := by dsimp only [updU]
@[simp] theorem updU_irqDiscards (s : State) (u : Nat) (f : Ucode → Ucode) : (updU s u f).irqDiscards = s.irqDiscards := by dsimp only [updU]
@[simp] theorem updU_pmTrusted (s : State) (u : Nat) (f : Ucode → Ucode) : (updU s u f).pmTrusted = s.pmTrusted := by dsimp only [updU]
@[simp] theorem updU_engXlat (s : State) (u : Nat) (f : Ucode → Ucode) : (updU s u f).engXlat = s.engXlat := by dsimp only [updU]
@[simp] theorem updU_chans (s : State) (u : Nat) (f : Ucode → Ucode) : (updU s u f).chans = s.chans := by dsimp only [updU]
@[simp] theorem updU_sqOrder (s : State) (u : Nat) (f : Ucode → Ucode) : (updU s u f).sqOrder = s.sqOrder := by dsimp only [updU]
@[simp] theorem updU_bridge (s : State) (u : Nat) (f : Ucode → Ucode) : (updU s u f).bridge = s.bridge := by dsimp only [updU]
@[simp] theorem updU_bw (s : State) (u : Nat) (f : Ucode → Ucode) : (updU s u f).bw = s.bw := by dsimp only [updU]
@[simp] theorem updU_pmAt (s : State) (u : Nat) (f : Ucode → Ucode) : (updU s u f).pmAt = s.pmAt := by dsimp only [updU]

@[simp] theorem updFab_pending (s : State) (f : Fabric → Fabric) : (updFab s f).pending = s.pending := by dsimp only [updFab]
@[simp] theorem updFab_time (s : State) (f : Fabric → Fabric) : (updFab s f).time = s.time := by dsimp only [updFab]
@[simp] theorem updFab_tb (s : State) (f : Fabric → Fabric) : (updFab s f).tb = s.tb := by dsimp only [updFab]
@[simp] theorem updFab_regs (s : State) (f : Fabric → Fabric) : (updFab s f).regs = s.regs := by dsimp only [updFab]
@[simp] theorem updFab_mem (s : State) (f : Fabric → Fabric) : (updFab s f).mem = s.mem := by dsimp only [updFab]
@[simp] theorem updFab_tags (s : State) (f : Fabric → Fabric) : (updFab s f).tags = s.tags := by dsimp only [updFab]
@[simp] theorem updFab_poison (s : State) (f : Fabric → Fabric) : (updFab s f).poison = s.poison := by dsimp only [updFab]
@[simp] theorem updFab_hostMem (s : State) (f : Fabric → Fabric) : (updFab s f).hostMem = s.hostMem := by dsimp only [updFab]
@[simp] theorem updFab_threads (s : State) (f : Fabric → Fabric) : (updFab s f).threads = s.threads := by dsimp only [updFab]
@[simp] theorem updFab_cores (s : State) (f : Fabric → Fabric) : (updFab s f).cores = s.cores := by dsimp only [updFab]
@[simp] theorem updFab_doms (s : State) (f : Fabric → Fabric) : (updFab s f).doms = s.doms := by dsimp only [updFab]
@[simp] theorem updFab_ports (s : State) (f : Fabric → Fabric) : (updFab s f).ports = s.ports := by dsimp only [updFab]
@[simp] theorem updFab_log (s : State) (f : Fabric → Fabric) : (updFab s f).log = s.log := by dsimp only [updFab]
@[simp] theorem updFab_irqMsgs (s : State) (f : Fabric → Fabric) : (updFab s f).irqMsgs = s.irqMsgs := by dsimp only [updFab]
@[simp] theorem updFab_stateMsgs (s : State) (f : Fabric → Fabric) : (updFab s f).stateMsgs = s.stateMsgs := by dsimp only [updFab]
@[simp] theorem updFab_bcTable (s : State) (f : Fabric → Fabric) : (updFab s f).bcTable = s.bcTable := by dsimp only [updFab]
@[simp] theorem updFab_withdrawn (s : State) (f : Fabric → Fabric) : (updFab s f).withdrawn = s.withdrawn := by dsimp only [updFab]
@[simp] theorem updFab_cxlLost (s : State) (f : Fabric → Fabric) : (updFab s f).cxlLost = s.cxlLost := by dsimp only [updFab]
@[simp] theorem updFab_cxlUp (s : State) (f : Fabric → Fabric) : (updFab s f).cxlUp = s.cxlUp := by dsimp only [updFab]
@[simp] theorem updFab_mgmt (s : State) (f : Fabric → Fabric) : (updFab s f).mgmt = s.mgmt := by dsimp only [updFab]
@[simp] theorem updFab_board (s : State) (f : Fabric → Fabric) : (updFab s f).board = s.board := by dsimp only [updFab]
@[simp] theorem updFab_vault (s : State) (f : Fabric → Fabric) : (updFab s f).vault = s.vault := by dsimp only [updFab]
@[simp] theorem updFab_fuses (s : State) (f : Fabric → Fabric) : (updFab s f).fuses = s.fuses := by dsimp only [updFab]
@[simp] theorem updFab_dimms (s : State) (f : Fabric → Fabric) : (updFab s f).dimms = s.dimms := by dsimp only [updFab]
@[simp] theorem updFab_dir (s : State) (f : Fabric → Fabric) : (updFab s f).dir = s.dir := by dsimp only [updFab]
@[simp] theorem updFab_dup (s : State) (f : Fabric → Fabric) : (updFab s f).dup = s.dup := by dsimp only [updFab]
@[simp] theorem updFab_l3 (s : State) (f : Fabric → Fabric) : (updFab s f).l3 = s.l3 := by dsimp only [updFab]
@[simp] theorem updFab_txns (s : State) (f : Fabric → Fabric) : (updFab s f).txns = s.txns := by dsimp only [updFab]
@[simp] theorem updFab_homeQ (s : State) (f : Fabric → Fabric) : (updFab s f).homeQ = s.homeQ := by dsimp only [updFab]
@[simp] theorem updFab_heldReqs (s : State) (f : Fabric → Fabric) : (updFab s f).heldReqs = s.heldReqs := by dsimp only [updFab]
@[simp] theorem updFab_fwd (s : State) (f : Fabric → Fabric) : (updFab s f).fwd = s.fwd := by dsimp only [updFab]
@[simp] theorem updFab_rsp (s : State) (f : Fabric → Fabric) : (updFab s f).rsp = s.rsp := by dsimp only [updFab]
@[simp] theorem updFab_sparings (s : State) (f : Fabric → Fabric) : (updFab s f).sparings = s.sparings := by dsimp only [updFab]
@[simp] theorem updFab_retires (s : State) (f : Fabric → Fabric) : (updFab s f).retires = s.retires := by dsimp only [updFab]
@[simp] theorem updFab_subCopy (s : State) (f : Fabric → Fabric) : (updFab s f).subCopy = s.subCopy := by dsimp only [updFab]
@[simp] theorem updFab_scratchNew (s : State) (f : Fabric → Fabric) : (updFab s f).scratchNew = s.scratchNew := by dsimp only [updFab]
@[simp] theorem updFab_mcs (s : State) (f : Fabric → Fabric) : (updFab s f).mcs = s.mcs := by dsimp only [updFab]
@[simp] theorem updFab_irqDiscards (s : State) (f : Fabric → Fabric) : (updFab s f).irqDiscards = s.irqDiscards := by dsimp only [updFab]
@[simp] theorem updFab_pmTrusted (s : State) (f : Fabric → Fabric) : (updFab s f).pmTrusted = s.pmTrusted := by dsimp only [updFab]
@[simp] theorem updFab_engXlat (s : State) (f : Fabric → Fabric) : (updFab s f).engXlat = s.engXlat := by dsimp only [updFab]
@[simp] theorem updFab_chans (s : State) (f : Fabric → Fabric) : (updFab s f).chans = s.chans := by dsimp only [updFab]
@[simp] theorem updFab_sqOrder (s : State) (f : Fabric → Fabric) : (updFab s f).sqOrder = s.sqOrder := by dsimp only [updFab]
@[simp] theorem updFab_ucode (s : State) (f : Fabric → Fabric) : (updFab s f).ucode = s.ucode := by dsimp only [updFab]
@[simp] theorem updFab_bridge (s : State) (f : Fabric → Fabric) : (updFab s f).bridge = s.bridge := by dsimp only [updFab]
@[simp] theorem updFab_bw (s : State) (f : Fabric → Fabric) : (updFab s f).bw = s.bw := by dsimp only [updFab]
@[simp] theorem updFab_pmAt (s : State) (f : Fabric → Fabric) : (updFab s f).pmAt = s.pmAt := by dsimp only [updFab]

@[simp] theorem updG_pending (s : State) (f : Mgmt → Mgmt) : (updG s f).pending = s.pending := by dsimp only [updG]
@[simp] theorem updG_time (s : State) (f : Mgmt → Mgmt) : (updG s f).time = s.time := by dsimp only [updG]
@[simp] theorem updG_tb (s : State) (f : Mgmt → Mgmt) : (updG s f).tb = s.tb := by dsimp only [updG]
@[simp] theorem updG_regs (s : State) (f : Mgmt → Mgmt) : (updG s f).regs = s.regs := by dsimp only [updG]
@[simp] theorem updG_mem (s : State) (f : Mgmt → Mgmt) : (updG s f).mem = s.mem := by dsimp only [updG]
@[simp] theorem updG_tags (s : State) (f : Mgmt → Mgmt) : (updG s f).tags = s.tags := by dsimp only [updG]
@[simp] theorem updG_poison (s : State) (f : Mgmt → Mgmt) : (updG s f).poison = s.poison := by dsimp only [updG]
@[simp] theorem updG_hostMem (s : State) (f : Mgmt → Mgmt) : (updG s f).hostMem = s.hostMem := by dsimp only [updG]
@[simp] theorem updG_threads (s : State) (f : Mgmt → Mgmt) : (updG s f).threads = s.threads := by dsimp only [updG]
@[simp] theorem updG_cores (s : State) (f : Mgmt → Mgmt) : (updG s f).cores = s.cores := by dsimp only [updG]
@[simp] theorem updG_doms (s : State) (f : Mgmt → Mgmt) : (updG s f).doms = s.doms := by dsimp only [updG]
@[simp] theorem updG_ports (s : State) (f : Mgmt → Mgmt) : (updG s f).ports = s.ports := by dsimp only [updG]
@[simp] theorem updG_log (s : State) (f : Mgmt → Mgmt) : (updG s f).log = s.log := by dsimp only [updG]
@[simp] theorem updG_irqMsgs (s : State) (f : Mgmt → Mgmt) : (updG s f).irqMsgs = s.irqMsgs := by dsimp only [updG]
@[simp] theorem updG_stateMsgs (s : State) (f : Mgmt → Mgmt) : (updG s f).stateMsgs = s.stateMsgs := by dsimp only [updG]
@[simp] theorem updG_bcTable (s : State) (f : Mgmt → Mgmt) : (updG s f).bcTable = s.bcTable := by dsimp only [updG]
@[simp] theorem updG_withdrawn (s : State) (f : Mgmt → Mgmt) : (updG s f).withdrawn = s.withdrawn := by dsimp only [updG]
@[simp] theorem updG_cxlLost (s : State) (f : Mgmt → Mgmt) : (updG s f).cxlLost = s.cxlLost := by dsimp only [updG]
@[simp] theorem updG_cxlUp (s : State) (f : Mgmt → Mgmt) : (updG s f).cxlUp = s.cxlUp := by dsimp only [updG]
@[simp] theorem updG_board (s : State) (f : Mgmt → Mgmt) : (updG s f).board = s.board := by dsimp only [updG]
@[simp] theorem updG_vault (s : State) (f : Mgmt → Mgmt) : (updG s f).vault = s.vault := by dsimp only [updG]
@[simp] theorem updG_fuses (s : State) (f : Mgmt → Mgmt) : (updG s f).fuses = s.fuses := by dsimp only [updG]
@[simp] theorem updG_dimms (s : State) (f : Mgmt → Mgmt) : (updG s f).dimms = s.dimms := by dsimp only [updG]
@[simp] theorem updG_dir (s : State) (f : Mgmt → Mgmt) : (updG s f).dir = s.dir := by dsimp only [updG]
@[simp] theorem updG_dup (s : State) (f : Mgmt → Mgmt) : (updG s f).dup = s.dup := by dsimp only [updG]
@[simp] theorem updG_l3 (s : State) (f : Mgmt → Mgmt) : (updG s f).l3 = s.l3 := by dsimp only [updG]
@[simp] theorem updG_txns (s : State) (f : Mgmt → Mgmt) : (updG s f).txns = s.txns := by dsimp only [updG]
@[simp] theorem updG_homeQ (s : State) (f : Mgmt → Mgmt) : (updG s f).homeQ = s.homeQ := by dsimp only [updG]
@[simp] theorem updG_heldReqs (s : State) (f : Mgmt → Mgmt) : (updG s f).heldReqs = s.heldReqs := by dsimp only [updG]
@[simp] theorem updG_fwd (s : State) (f : Mgmt → Mgmt) : (updG s f).fwd = s.fwd := by dsimp only [updG]
@[simp] theorem updG_rsp (s : State) (f : Mgmt → Mgmt) : (updG s f).rsp = s.rsp := by dsimp only [updG]
@[simp] theorem updG_sparings (s : State) (f : Mgmt → Mgmt) : (updG s f).sparings = s.sparings := by dsimp only [updG]
@[simp] theorem updG_retires (s : State) (f : Mgmt → Mgmt) : (updG s f).retires = s.retires := by dsimp only [updG]
@[simp] theorem updG_subCopy (s : State) (f : Mgmt → Mgmt) : (updG s f).subCopy = s.subCopy := by dsimp only [updG]
@[simp] theorem updG_scratchNew (s : State) (f : Mgmt → Mgmt) : (updG s f).scratchNew = s.scratchNew := by dsimp only [updG]
@[simp] theorem updG_fabric (s : State) (f : Mgmt → Mgmt) : (updG s f).fabric = s.fabric := by dsimp only [updG]
@[simp] theorem updG_mcs (s : State) (f : Mgmt → Mgmt) : (updG s f).mcs = s.mcs := by dsimp only [updG]
@[simp] theorem updG_irqDiscards (s : State) (f : Mgmt → Mgmt) : (updG s f).irqDiscards = s.irqDiscards := by dsimp only [updG]
@[simp] theorem updG_pmTrusted (s : State) (f : Mgmt → Mgmt) : (updG s f).pmTrusted = s.pmTrusted := by dsimp only [updG]
@[simp] theorem updG_engXlat (s : State) (f : Mgmt → Mgmt) : (updG s f).engXlat = s.engXlat := by dsimp only [updG]
@[simp] theorem updG_chans (s : State) (f : Mgmt → Mgmt) : (updG s f).chans = s.chans := by dsimp only [updG]
@[simp] theorem updG_sqOrder (s : State) (f : Mgmt → Mgmt) : (updG s f).sqOrder = s.sqOrder := by dsimp only [updG]
@[simp] theorem updG_ucode (s : State) (f : Mgmt → Mgmt) : (updG s f).ucode = s.ucode := by dsimp only [updG]
@[simp] theorem updG_bridge (s : State) (f : Mgmt → Mgmt) : (updG s f).bridge = s.bridge := by dsimp only [updG]
@[simp] theorem updG_bw (s : State) (f : Mgmt → Mgmt) : (updG s f).bw = s.bw := by dsimp only [updG]
@[simp] theorem updG_pmAt (s : State) (f : Mgmt → Mgmt) : (updG s f).pmAt = s.pmAt := by dsimp only [updG]

@[simp] theorem updB_pending (s : State) (f : Board → Board) : (updB s f).pending = s.pending := by dsimp only [updB]
@[simp] theorem updB_time (s : State) (f : Board → Board) : (updB s f).time = s.time := by dsimp only [updB]
@[simp] theorem updB_tb (s : State) (f : Board → Board) : (updB s f).tb = s.tb := by dsimp only [updB]
@[simp] theorem updB_regs (s : State) (f : Board → Board) : (updB s f).regs = s.regs := by dsimp only [updB]
@[simp] theorem updB_mem (s : State) (f : Board → Board) : (updB s f).mem = s.mem := by dsimp only [updB]
@[simp] theorem updB_tags (s : State) (f : Board → Board) : (updB s f).tags = s.tags := by dsimp only [updB]
@[simp] theorem updB_poison (s : State) (f : Board → Board) : (updB s f).poison = s.poison := by dsimp only [updB]
@[simp] theorem updB_hostMem (s : State) (f : Board → Board) : (updB s f).hostMem = s.hostMem := by dsimp only [updB]
@[simp] theorem updB_threads (s : State) (f : Board → Board) : (updB s f).threads = s.threads := by dsimp only [updB]
@[simp] theorem updB_cores (s : State) (f : Board → Board) : (updB s f).cores = s.cores := by dsimp only [updB]
@[simp] theorem updB_doms (s : State) (f : Board → Board) : (updB s f).doms = s.doms := by dsimp only [updB]
@[simp] theorem updB_ports (s : State) (f : Board → Board) : (updB s f).ports = s.ports := by dsimp only [updB]
@[simp] theorem updB_log (s : State) (f : Board → Board) : (updB s f).log = s.log := by dsimp only [updB]
@[simp] theorem updB_irqMsgs (s : State) (f : Board → Board) : (updB s f).irqMsgs = s.irqMsgs := by dsimp only [updB]
@[simp] theorem updB_stateMsgs (s : State) (f : Board → Board) : (updB s f).stateMsgs = s.stateMsgs := by dsimp only [updB]
@[simp] theorem updB_bcTable (s : State) (f : Board → Board) : (updB s f).bcTable = s.bcTable := by dsimp only [updB]
@[simp] theorem updB_withdrawn (s : State) (f : Board → Board) : (updB s f).withdrawn = s.withdrawn := by dsimp only [updB]
@[simp] theorem updB_cxlLost (s : State) (f : Board → Board) : (updB s f).cxlLost = s.cxlLost := by dsimp only [updB]
@[simp] theorem updB_cxlUp (s : State) (f : Board → Board) : (updB s f).cxlUp = s.cxlUp := by dsimp only [updB]
@[simp] theorem updB_mgmt (s : State) (f : Board → Board) : (updB s f).mgmt = s.mgmt := by dsimp only [updB]
@[simp] theorem updB_vault (s : State) (f : Board → Board) : (updB s f).vault = s.vault := by dsimp only [updB]
@[simp] theorem updB_fuses (s : State) (f : Board → Board) : (updB s f).fuses = s.fuses := by dsimp only [updB]
@[simp] theorem updB_dimms (s : State) (f : Board → Board) : (updB s f).dimms = s.dimms := by dsimp only [updB]
@[simp] theorem updB_dir (s : State) (f : Board → Board) : (updB s f).dir = s.dir := by dsimp only [updB]
@[simp] theorem updB_dup (s : State) (f : Board → Board) : (updB s f).dup = s.dup := by dsimp only [updB]
@[simp] theorem updB_l3 (s : State) (f : Board → Board) : (updB s f).l3 = s.l3 := by dsimp only [updB]
@[simp] theorem updB_txns (s : State) (f : Board → Board) : (updB s f).txns = s.txns := by dsimp only [updB]
@[simp] theorem updB_homeQ (s : State) (f : Board → Board) : (updB s f).homeQ = s.homeQ := by dsimp only [updB]
@[simp] theorem updB_heldReqs (s : State) (f : Board → Board) : (updB s f).heldReqs = s.heldReqs := by dsimp only [updB]
@[simp] theorem updB_fwd (s : State) (f : Board → Board) : (updB s f).fwd = s.fwd := by dsimp only [updB]
@[simp] theorem updB_rsp (s : State) (f : Board → Board) : (updB s f).rsp = s.rsp := by dsimp only [updB]
@[simp] theorem updB_sparings (s : State) (f : Board → Board) : (updB s f).sparings = s.sparings := by dsimp only [updB]
@[simp] theorem updB_retires (s : State) (f : Board → Board) : (updB s f).retires = s.retires := by dsimp only [updB]
@[simp] theorem updB_subCopy (s : State) (f : Board → Board) : (updB s f).subCopy = s.subCopy := by dsimp only [updB]
@[simp] theorem updB_scratchNew (s : State) (f : Board → Board) : (updB s f).scratchNew = s.scratchNew := by dsimp only [updB]
@[simp] theorem updB_fabric (s : State) (f : Board → Board) : (updB s f).fabric = s.fabric := by dsimp only [updB]
@[simp] theorem updB_mcs (s : State) (f : Board → Board) : (updB s f).mcs = s.mcs := by dsimp only [updB]
@[simp] theorem updB_irqDiscards (s : State) (f : Board → Board) : (updB s f).irqDiscards = s.irqDiscards := by dsimp only [updB]
@[simp] theorem updB_pmTrusted (s : State) (f : Board → Board) : (updB s f).pmTrusted = s.pmTrusted := by dsimp only [updB]
@[simp] theorem updB_engXlat (s : State) (f : Board → Board) : (updB s f).engXlat = s.engXlat := by dsimp only [updB]
@[simp] theorem updB_chans (s : State) (f : Board → Board) : (updB s f).chans = s.chans := by dsimp only [updB]
@[simp] theorem updB_sqOrder (s : State) (f : Board → Board) : (updB s f).sqOrder = s.sqOrder := by dsimp only [updB]
@[simp] theorem updB_ucode (s : State) (f : Board → Board) : (updB s f).ucode = s.ucode := by dsimp only [updB]
@[simp] theorem updB_bridge (s : State) (f : Board → Board) : (updB s f).bridge = s.bridge := by dsimp only [updB]
@[simp] theorem updB_bw (s : State) (f : Board → Board) : (updB s f).bw = s.bw := by dsimp only [updB]
@[simp] theorem updB_pmAt (s : State) (f : Board → Board) : (updB s f).pmAt = s.pmAt := by dsimp only [updB]

end Sys2Proof.Machine
end

