-- ==== Sys2Proof/Laws/Runs.lean ====
section
/-! SUPPORT. How an instruction that is fetched and whose body succeeds ends: the one lemma each form of instruction is proved by. -/

namespace Sys2Proof.Machine

@[simp] theorem stepPc_hostWait (s : State) (t : Tid) (n : Nat) : (getT (stepPc s t n) t).hostWait = (getT s t).hostWait := by
  simp [stepPc]

theorem fetchedIf_spec {ok : Bool} {s u : State} {t : Tid} {ws : List (BitVec 32)} (h : fetchedIf ok s t ws = some u) :
    ok = true ∧ reportDue (getT s t) = false ∧ injectDue s t ws = false ∧ fetchCheck s t ws.length = .ok u ∧
      (getT u t).hostWait = none := by
  unfold fetchedIf at h
  split at h
  · simp at h
  · rename_i hr
    split at h
    · rename_i v hv
      split at h
      · rename_i hn
        simp only [Option.some.injEq] at h
        subst h
        simp only [Bool.or_eq_true, Bool.not_eq_eq_eq_not, Bool.not_true, not_or, Bool.not_eq_false, Bool.not_eq_true] at hr
        exact ⟨hr.1.1, hr.1.2, hr.2, hv, by simpa using hn⟩
      · simp at h
    · simp at h

theorem fetched_spec {s u : State} {t : Tid} {ws : List (BitVec 32)} (h : fetched s t ws = some u) :
    ready s t = true ∧ reportDue (getT s t) = false ∧ injectDue s t ws = false ∧ fetchCheck s t ws.length = .ok u ∧
      (getT u t).hostWait = none := fetchedIf_spec h

/-- What every instruction that completes does: its body's state, retired. -/
theorem instrIf_jumped {ok : Bool} {s u z : State} {t : Tid} {ws : List (BitVec 32)} {body : State → R State}
    (h : fetchedIf ok s t ws = some u) (hb : body u = .ok z) (hw : (getT z t).hostWait = none) :
    instrIf ok s t ws body = jumped s z t ws := by
  obtain ⟨h1, h2, h3, h4, h5⟩ := fetchedIf_spec h
  simp [instrIf, h1, h2, h3, h4, h5, hb, hw, jumped, bind, Except.bind]

theorem instrIf_done {ok : Bool} {s u z : State} {t : Tid} {ws : List (BitVec 32)} {body : State → R State}
    (h : fetchedIf ok s t ws = some u) (hb : body u = .ok z) (hw : (getT z t).hostWait = none) :
    instrIf ok s t ws (thenNext t ws body) = done s z t ws := by
  rw [instrIf_jumped h (z := stepPc z t ws.length) (by simp [thenNext, hb, hw, bind, Except.bind]) (by simp [stepPc_hostWait, hw]), done]

theorem instr_jumped {s u z : State} {t : Tid} {ws : List (BitVec 32)} {body : State → R State}
    (h : fetched s t ws = some u) (hb : body u = .ok z) (hw : (getT z t).hostWait = none) :
    instr s t ws body = jumped s z t ws := instrIf_jumped h hb hw

theorem instrJump_jumped {s u z : State} {t : Tid} {ws : List (BitVec 32)} {body : State → R State}
    (h : fetched s t ws = some u) (hb : body u = .ok z) (hw : (getT z t).hostWait = none) :
    instrJump s t ws body = .next (jumped s z t ws) := by
  rw [instrJump, instr_jumped h hb hw]

theorem instrNext_done {s u z : State} {t : Tid} {ws : List (BitVec 32)} {body : State → R State}
    (h : fetched s t ws = some u) (hb : body u = .ok z) (hw : (getT z t).hostWait = none) :
    instrNext s t ws body = .next (done s z t ws) := by
  rw [instrNext, instr_jumped h (z := stepPc z t ws.length) (by simp [thenNext, hb, hw, bind, Except.bind]) (by simp [stepPc_hostWait, hw]), done]

theorem atReportPoint_quiet {s q : State} {t : Tid} {run : State → Host.Outcome State Fault Refusal}
    (h : quiet s t = some q) : atReportPoint s t run = run q := by
  unfold quiet at h
  split at h
  · rename_i hc
    simp only [Option.some.injEq] at h
    subst h
    simp only [Bool.and_eq_true] at hc
    have h2 : (getT (updT s t settleAll) t).excs.isEmpty = true := by rw [getT_updT_same]; exact hc.2
    simp only [atReportPoint, hc.1, h2, if_true]
  · simp at h

/-! ### A host answer is not awaited: register operations keep that -/

@[simp] theorem setAt_hostWait (x : Thread) (p : Nat) (v : GReg) : (x.setAt p v).hostWait = x.hostWait := by
  unfold Thread.setAt; split <;> rfl

@[simp] theorem setGreg_hostWait (x : Thread) (r : RegNo) (v : GReg) : (x.setGreg r v).hostWait = x.hostWait := by
  simp [Thread.setGreg]

@[simp] theorem setInt_hostWait (x : Thread) (r : RegNo) (w : Word) : (x.setInt r w).hostWait = x.hostWait := by
  simp [Thread.setInt]

@[simp] theorem setVec_hostWait (x : Thread) (r : RegNo) (v : Vec) : (x.setVec r v).hostWait = x.hostWait := rfl

@[simp] theorem applyLong_hostWait (x : Thread) (o : LongOp) : (applyLong x o).hostWait = x.hostWait := by
  unfold applyLong; cases o.dest <;> simp

theorem foldl_applyLong_hostWait (l : List LongOp) : ∀ x : Thread, (l.foldl applyLong x).hostWait = x.hostWait := by
  induction l with
  | nil => intro x; rfl
  | cons o l ih => intro x; simp [ih]

@[simp] theorem settleAll_hostWait (x : Thread) : (settleAll x).hostWait = x.hostWait := by
  simp [settleAll, foldl_applyLong_hostWait]

@[simp] theorem settle_hostWait (x : Thread) (d : Dest) : (settle x d).hostWait = x.hostWait := by
  unfold settle; split <;> simp

theorem foldl_settle_hostWait {α : Type} (f : Thread → α → Dest) (l : List α) :
    ∀ x : Thread, (l.foldl (fun x r => settle x (f x r)) x).hostWait = x.hostWait := by
  induction l with
  | nil => intro x; rfl
  | cons o l ih => intro x; simp [ih]

@[simp] theorem useRegs_hostWait (s : State) (t : Tid) (rs : List RegNo) :
    (getT (useRegs s t rs) t).hostWait = (getT s t).hostWait := by
  simp [useRegs, foldl_settle_hostWait (fun x (r : RegNo) => Dest.general (place x.cwp r)) rs]

@[simp] theorem useVecs_hostWait (s : State) (t : Tid) (vs : List RegNo) :
    (getT (useVecs s t vs) t).hostWait = (getT s t).hostWait := by
  simp [useVecs, foldl_settle_hostWait (fun _ (r : RegNo) => Dest.vector r.toNat) vs]

@[simp] theorem useData_hostWait (s : State) (t : Tid) (b : Bool) (rd : RegNo) :
    (getT (useData s t b rd) t).hostWait = (getT s t).hostWait := by
  unfold useData; split <;> simp

@[simp] theorem putInt_hostWait (s : State) (t : Tid) (rd : RegNo) (w : Word) :
    (getT (putInt s t rd w) t).hostWait = (getT s t).hostWait := by simp [putInt]

@[simp] theorem putVec_hostWait (s : State) (t : Tid) (vd : RegNo) (v : Vec) :
    (getT (putVec s t vd v) t).hostWait = (getT s t).hostWait := by simp [putVec]

@[simp] theorem baseBack_hostWait (s : State) (t : Tid) (am : Nat) (ra : RegNo) (wb : Option Word) :
    (getT (baseBack s t am ra wb) t).hostWait = (getT s t).hostWait := by
  unfold baseBack; cases wb <;> simp

@[simp] theorem putLoad_hostWait (s : State) (t : Tid) (v : GReg) (k : LdKind) (rd : RegNo) (bs : List Byte) (g : Bool) :
    (getT (putLoad s t v k rd bs g) t).hostWait = (getT s t).hostWait := by
  unfold putLoad; cases k <;> simp

@[simp] theorem arith_hostWait (s : State) (t : Tid) (ws : List (BitVec 32)) (d : Dest) (g : GReg) (v : Vec)
    (cs : List ArithCond) (l : Bool) : (getT (arith s t ws d g v cs l) t).hostWait = (getT s t).hostWait := by
  unfold arith; dsimp only; split
  · simp only [getT_updT_same]; split <;> simp
  · cases l <;> simp

end Sys2Proof.Machine
end

