-- ==== Sys2Proof/Laws/Arith.lean ====
section
/-! SUPPORT. What an arithmetic result does where none of its conditions is to be reported: it is written at once, or becomes a long
operation that holds it. -/

namespace Sys2Proof.Machine

@[simp] theorem byAge_nil (l : List ArithExc) : byAge l [] = l := by simp [byAge]

@[simp] theorem setAt_tstatus (x : Thread) (p : Nat) (v : GReg) : (x.setAt p v).tstatus = x.tstatus := by
  unfold Thread.setAt; split <;> rfl

@[simp] theorem setAt_excs (x : Thread) (p : Nat) (v : GReg) : (x.setAt p v).excs = x.excs := by
  unfold Thread.setAt; split <;> rfl

/-- A result with nothing to report is written to its register, and its flags are set. -/
theorem applyLong_quiet (x : Thread) (rd : RegNo) (r : Word) (v : Vec) (f : Word) :
    applyLong x ⟨.general (place x.cwp rd), GReg.ofInt r, v, [], f⟩ = { x.setInt rd r with tstatus := x.tstatus ||| f } := by
  simp only [applyLong, setAt_tstatus, setAt_excs, byAge_nil, Thread.setInt, Thread.setGreg]

/-- A result with no condition to report, in a thread of precise arithmetic or of an instruction that completes at once, is written to its
register, and the flags of the conditions it met are set. -/
theorem arith_now {s : State} {t : Tid} {ws : List (BitVec 32)} {rd : RegNo} {r : Word} {cs : List ArithCond} {long : Bool}
    (hc : condFaults (getT s t).tctrl cs = []) (hp : fldB (getT s t).tctrl Tctrl.precise_arith = true ∨ long = false) :
    arith s t ws (.general (place (getT s t).cwp rd)) (GReg.ofInt r) 0 cs long =
      updT s t (fun y => { y.setInt rd r with tstatus := y.tstatus ||| condFlags (getT s t).tctrl cs }) := by
  unfold arith updT
  simp only [hc, List.map_nil]
  split
  · rw [applyLong_quiet]
  · next h =>
    rcases hp with hp | rfl
    · exact absurd hp h
    · simp only [Bool.false_eq_true, if_false]; rw [applyLong_quiet]

/-- With no condition it is written, and no more. -/
theorem arith_plain {s : State} {t : Tid} {ws : List (BitVec 32)} {rd : RegNo} {r : Word} {long : Bool}
    (hp : fldB (getT s t).tctrl Tctrl.precise_arith = true ∨ long = false) :
    arith s t ws (.general (place (getT s t).cwp rd)) (GReg.ofInt r) 0 [] long = putInt s t rd r := by
  rw [arith_now rfl hp]
  unfold putInt updT
  congr 1
  have h : (getT s t).tstatus ||| condFlags (getT s t).tctrl [] = ((getT s t).setInt rd r).tstatus :=
    (BitVec.or_zero).trans (setAt_tstatus _ _ _).symm
  simp only [h]

/-- Another is a long operation, which holds the result and the flags. -/
theorem arith_later {s : State} {t : Tid} {ws : List (BitVec 32)} {d : Dest} {g : GReg} {v : Vec} {cs : List ArithCond}
    (hc : condFaults (getT s t).tctrl cs = []) (hp : fldB (getT s t).tctrl Tctrl.precise_arith = false) :
    arith s t ws d g v cs true =
      updT s t (fun y => { y with longOps := y.longOps ++ [⟨d, g, v, [], condFlags (getT s t).tctrl cs⟩] }) := by
  simp only [arith, hc, hp, List.map_nil, Bool.false_eq_true, if_false, if_true]

/-- An arithmetic instruction reads its registers and retires with its result. -/
theorem arithOp_done {s u : State} {t : Tid} {op : Nat} {rd ra rb : RegNo} {fn : BitVec 10} {long : Bool}
    {f : Word → Word → Word × List ArithCond} (h : fetched s t [wREG op rd ra rb fn] = some u) :
    arithOp s t op rd ra rb fn long f =
      .next (done s (arith (useRegs u t [rd, ra, rb]) t [wREG op rd ra rb fn]
        (.general (place (getT (useRegs u t [rd, ra, rb]) t).cwp rd))
        (GReg.ofInt (f ((getT (useRegs u t [rd, ra, rb]) t).int ra) ((getT (useRegs u t [rd, ra, rb]) t).int rb)).1) 0
        (f ((getT (useRegs u t [rd, ra, rb]) t).int ra) ((getT (useRegs u t [rd, ra, rb]) t).int rb)).2 long) t
        [wREG op rd ra rb fn]) := by
  unfold arithOp
  exact instrNext_done h rfl (by simp [(fetched_spec h).2.2.2.2])

end Sys2Proof.Machine
end

