-- ==== Sys2Proof/Laws/Calm.lean ====
section
/-! SUPPORT. The home protocol moves lines and changes no byte: while no request that waits or is being served writes, whatever the homes
do leaves every byte of memory and every thread as they were. -/

namespace Sys2Proof.Machine

/-- The bytes and the threads are these, and no request at a home writes. -/
structure Calm (m : List Host.Cell) (th : SMap Thread) (s : State) : Prop where
  mem : s.mem = m
  threads : s.threads = th
  queue : ∀ q ∈ s.homeQ, q.kind.writes = false
  txns : ∀ e ∈ s.txns, e.2.req.kind.writes = false

variable {m : List Host.Cell} {th : SMap Thread} {s : State}

/-- A state that differs elsewhere. -/
theorem Calm.same {z : State} (h : Calm m th s) (h1 : z.mem = s.mem) (h2 : z.threads = s.threads) (h3 : z.homeQ = s.homeQ)
    (h4 : z.txns = s.txns) : Calm m th z :=
  ⟨h1.trans h.mem, h2.trans h.threads, h3 ▸ h.queue, h4 ▸ h.txns⟩

theorem Calm.orElse {c : Prop} [Decidable c] {a b : State} (ha : Calm m th a) (hb : Calm m th b) : Calm m th (if c then a else b) := by
  split
  · exact ha
  · exact hb

theorem Calm.foldl {α : Type} {f : State → α → State} (l : List α) (hf : ∀ s a, Calm m th s → Calm m th (f s a)) :
    ∀ s, Calm m th s → Calm m th (l.foldl f s) := by
  induction l with
  | nil => exact fun _ h => h
  | cons a l ih => exact fun s h => ih _ (hf s a h)

/-- The same of a fold whose steps need that their element is in the list. -/
theorem Calm.foldlMem {α : Type} {f : State → α → State} (l : List α) (hf : ∀ s, ∀ a ∈ l, Calm m th s → Calm m th (f s a)) :
    ∀ s, Calm m th s → Calm m th (l.foldl f s) := by
  induction l with
  | nil => exact fun _ h => h
  | cons a l ih => exact fun s h => ih (fun s b hb => hf s b (.tail _ hb)) _ (hf s a (.head _) h)

theorem mfind_mem {β : Type} {m : SMap β} {k : Nat} {v : β} (h : mfind m k = some v) : (k, v) ∈ m := by
  induction m with
  | nil => cases h
  | cons e m ih =>
    obtain ⟨a, b⟩ := e
    simp only [mfind] at h
    split at h
    · next hk => cases h; subst hk; exact .head _
    · exact .tail _ (ih h)

theorem Calm.txn {line : Nat} {x : Txn} (h : Calm m th s) (hx : mfind s.txns line = some x) : x.req.kind.writes = false :=
  h.txns _ (mfind_mem hx)

/-! ### Registers, counters, caches and controllers -/

theorem Calm.putR (a : Nat) (v : Word) (h : Calm m th s) : Calm m th (s.putR a v) := h.same rfl rfl rfl rfl
theorem Calm.putF (a : Nat) (f : Fld) (n : Nat) (h : Calm m th s) : Calm m th (s.putF a f n) := h.same rfl rfl rfl rfl
theorem Calm.updC (k : Nat) (f : Core → Core) (h : Calm m th s) : Calm m th (updC s k f) := h.same rfl rfl rfl rfl
theorem Calm.updM (c : Nat) (f : Mc → Mc) (h : Calm m th s) : Calm m th (updM s c f) := h.same rfl rfl rfl rfl
theorem Calm.setLine (k line : Nat) (c : CLine) (h : Calm m th s) : Calm m th (setLine s k line c) := h.same rfl rfl rfl rfl
theorem Calm.dropLine (k line : Nat) (h : Calm m th s) : Calm m th (dropLine s k line) := h.same rfl rfl rfl rfl
theorem Calm.setL3 (line : Nat) (v : Option L3Line) (h : Calm m th s) : Calm m th (setL3 s line v) := h.same rfl rfl rfl rfl
theorem Calm.setDir (line : Nat) (e : DirEnt) (h : Calm m th s) : Calm m th (setDir s line e) := h.same rfl rfl rfl rfl
theorem Calm.setDup (line : Nat) (e : DirEnt) (h : Calm m th s) : Calm m th (setDup s line e) := h.same rfl rfl rfl rfl
theorem Calm.bcastFix (k : Nat) (h : Calm m th s) : Calm m th (bcastFix s k) := h.putF _ _ _
theorem Calm.pushRsp (r : Rsp) (h : Calm m th s) : Calm m th (pushRsp s r) := h.same rfl rfl rfl rfl
theorem Calm.pushFwd (f : List Fwd) (h : Calm m th s) : Calm m th (pushFwd s f) := h.same rfl rfl rfl rfl
theorem Calm.bwAdd (u off n : Nat) (h : Calm m th s) : Calm m th (bwAdd s u off n) := h.same rfl rfl rfl rfl
theorem Calm.busTime (c : Nat) (h : Calm m th s) : Calm m th (busTime s c) := h.same rfl rfl rfl rfl
theorem Calm.holdReq (q : HomeReq) (h : Calm m th s) : Calm m th (holdReq s q) := h.same rfl rfl rfl rfl
theorem Calm.regrant (k line : Nat) (g : Option Moesi) (h : Calm m th s) : Calm m th (regrant s k line g) := h.same rfl rfl rfl rfl
theorem Calm.answer (q : HomeReq) (k : RspKind) (g : Option Moesi) (b : Bool) (bs : List Byte) (h : Calm m th s) :
    Calm m th (answer s q k g b bs) := h.same rfl rfl rfl rfl
theorem Calm.ackFwd (f : Fwd) (k : RspKind) (d : Bool) (h : Calm m th s) : Calm m th (ackFwd s f k d) := h.same rfl rfl rfl rfl
theorem Calm.ackOf (f : Fwd) (k : RspKind) (w : ReqKind) (h : Calm m th s) : Calm m th (ackOf s f k w) := h.same rfl rfl rfl rfl
theorem Calm.buffer (k line : Nat) (c : CLine) (h : Calm m th s) : Calm m th (buffer s k line c) := h.same rfl rfl rfl rfl
theorem Calm.l3Stale (line : Nat) (h : Calm m th s) : Calm m th (l3Stale s line) := h.same rfl rfl rfl rfl
theorem Calm.dropAnswer (q : HomeReq) (h : Calm m th s) : Calm m th (dropAnswer s q) := h.same rfl rfl rfl rfl
theorem Calm.dupUpd (f : Fwd) (h : Calm m th s) : Calm m th (dupUpd s f) := h.same rfl rfl rfl rfl
theorem Calm.snpO (f : Fwd) (h : Calm m th s) : Calm m th (snpO s f) := h.same rfl rfl rfl rfl

theorem Calm.pmAdd (a b i n : Nat) (h : Calm m th s) : Calm m th (pmAdd s a b i n) := by
  unfold Machine.pmAdd
  extract_lets v z
  split
  · exact (h.putR _ _).putR _ _
  · exact h.putR _ _

theorem Calm.pmUncore (stop code : Nat) (world : Bool) (req : Option (Nat × Nat)) (n : Nat) (h : Calm m th s) :
    Calm m th (pmUncore s stop code world req n) := by
  unfold Machine.pmUncore
  refine Calm.foldl _ (fun s i h => ?_) _ h
  exact (h.pmAdd _ _ _ _).orElse h

theorem Calm.dropCopies (line : Nat) (h : Calm m th s) : Calm m th (dropCopies s line) :=
  Calm.foldl _ (fun _ _ h => h.dropLine _ _) _ h

theorem Calm.setDirFix (line : Nat) (e : DirEnt) (h : Calm m th s) : Calm m th (setDirFix s line e) := by
  unfold Machine.setDirFix
  extract_lets had z
  split
  · exact (h.setDir _ _).bcastFix _
  · exact h.setDir _ _

theorem Calm.setDirBoth (line : Nat) (e : DirEnt) (h : Calm m th s) : Calm m th (setDirBoth s line e) := by
  unfold Machine.setDirBoth
  extract_lets had a b c
  have ha : Calm m th a := h.same rfl rfl rfl rfl
  have hc : Calm m th c := by
    show Calm m th (ite _ _ _)
    split
    · exact (ha.setDir _ _).bcastFix _
    · exact ha.setDir _ _
  clear_value c
  split
  · exact hc.setDup _ _
  · exact hc

theorem Calm.recallLine (line : Nat) (h : Calm m th s) : Calm m th (recallLine s line) := (h.dropCopies _).setDirBoth _ _

theorem Calm.openRow (c : Nat) (b : Bool) (q : McReq) (draw : Nat) (h : Calm m th s) : Calm m th (openRow s c b q draw) := by
  unfold Machine.openRow
  extract_lets x drfm raa n own drawn z
  split
  · exact h.updM _ _
  · exact (h.updM _ _).pmUncore _ _ _ _ _

theorem Calm.burst (c : Nat) (q : McReq) (w : Bool) (h : Calm m th s) : Calm m th (burst s c q w) :=
  ((h.bwAdd _ _ _).busTime _).pmUncore _ _ _ _ _

theorem Calm.issueWrite (c : Nat) (b : Bool) (i draw : Nat) (h : Calm m th s) : Calm m th (issueWrite s c b i draw) := by
  unfold Machine.issueWrite
  split
  · exact h
  · exact ((h.openRow _ _ _ _).updM _ _).burst _ _ _

theorem Calm.acceptWrite (c : Nat) (b : Bool) (e : McReq) (h : Calm m th s) : Calm m th (acceptWrite s c b e) := by
  unfold Machine.acceptWrite
  extract_lets z
  have hz : Calm m th z := by
    show Calm m th (ite _ _ _)
    split
    · exact h.issueWrite _ _ _ _
    · exact h
  exact hz.updM _ _

theorem Calm.mcRead (pa cls : Nat) (h : Calm m th s) : Calm m th (mcRead s pa cls).1 := by
  unfold Machine.mcRead
  extract_lets c
  generalize mcEntry s c pa cls true = p
  obtain ⟨sub, e⟩ := p
  show Calm m th (ite _ _ _ : State × Bool).1
  split
  · exact h
  · dsimp only; exact h.updM _ _

theorem Calm.mcWrite (pa cls : Nat) (h : Calm m th s) : Calm m th (mcWrite s pa cls) :=
  Calm.foldl _ (fun _ _ h => h.acceptWrite _ _ _) _ h

theorem Calm.l3Out (cls line : Nat) (h : Calm m th s) : Calm m th (l3Out s cls line) := by
  unfold Machine.l3Out
  split
  · exact h
  · extract_lets z
    split
    · exact (h.setL3 _ _).mcWrite _ _
    · exact h.setL3 _ _

theorem Calm.putL3 (line : Nat) (d : Bool) (cls : Nat) (h : Calm m th s) : Calm m th (putL3 s line d cls) := by
  unfold Machine.putL3
  split
  · exact h.setL3 _ _
  · extract_lets ways mates w
    clear_value w
    split
    · exact (Calm.foldl _ (fun _ _ h => h.l3Out _ _) _ h).setL3 _ _
    · split
      · exact h.mcWrite _ _
      · exact h

theorem Calm.writeBack (line cls : Nat) (h : Calm m th s) : Calm m th (writeBack s line cls) := by
  unfold Machine.writeBack
  extract_lets on
  split
  · exact h
  · split
    · exact (h.mcWrite _ _).putL3 _ _ _
    · exact h.putL3 _ _ _
  · exact h.putL3 _ _ _

/-! ### Transactions -/

theorem Calm.setSome (line : Nat) {x : Txn} (hx : x.req.kind.writes = false) (h : Calm m th s) :
    Calm m th (setTxn s line (some x)) :=
  ⟨h.mem, h.threads, h.queue, fun e he => by
    rcases mem_mins he with rfl | he
    · exact hx
    · exact h.txns e he⟩

theorem Calm.setNone (line : Nat) (h : Calm m th s) : Calm m th (setTxn s line none) :=
  ⟨h.mem, h.threads, h.queue, fun e he => h.txns e (mem_mdel he)⟩

theorem Calm.sendFwd (home : Nat) (f : List Fwd) (h : Calm m th s) : Calm m th (sendFwd s home f) := (h.pushFwd _).pmUncore _ _ _ _ _
theorem Calm.demoted (tile : Nat) (h : Calm m th s) : Calm m th (demoted s tile) := h.pmUncore _ _ _ _ _

theorem Calm.changeDir (line : Nat) (e : DirEnt) (h : Calm m th s) : Calm m th (changeDir s line e) := by
  unfold Machine.changeDir
  split
  · exact h
  · extract_lets k z y
    have hz : Calm m th z := h.setDirFix _ _
    clear_value z
    split
    · have hy : Calm m th y := hz.pushFwd _
      clear_value y
      split
      · next x hx =>
        have hw := hy.txn hx
        exact hy.setSome _ hw
      · exact hy
    · exact hz

theorem Calm.addSharer (line : Nat) (e : DirEnt) (h : Calm m th s) : Calm m th (addSharer s line e) := by
  unfold Machine.addSharer
  split
  · exact h
  · extract_lets k z
    split
    · exact (h.setDirFix _ _).pushFwd _
    · exact h.setDirFix _ _

theorem Calm.askMemory (line : Nat) {x : Txn} (hx : x.req.kind.writes = false) (h : Calm m th s) :
    Calm m th (askMemory s line x) := by
  unfold Machine.askMemory
  split
  next z d hz =>
  have hc := h.mcRead (line * 64) (reqMcClass s x.req)
  rw [hz] at hc
  exact hc.setSome _ hx

theorem Calm.beginTxn {q : HomeReq} (hq : q.kind.writes = false) (h : Calm m th s) : Calm m th (beginTxn s q) := by
  unfold Machine.beginTxn
  extract_lets e fs z x
  split
  · exact (h.sendFwd _ _).askMemory _ hq
  · exact (h.sendFwd _ _).setSome _ hq

theorem asServed_writes {q : HomeReq} (hq : q.kind.writes = false) : (asServed s q).kind.writes = false := by
  unfold asServed
  split
  · split
    · exact hq
    · rfl
  · exact hq

theorem Calm.startTxn {q : HomeReq} (hq : q.kind.writes = false) (h : Calm m th s) : Calm m th (startTxn s q) := by
  unfold Machine.startTxn
  extract_lets p
  have hp : p.kind.writes = false := asServed_writes hq
  clear_value p
  split
  · exact h.answer _ _ _ _ _
  · split
    · exact h.beginTxn hp
    · extract_lets a k r y
      have ha : Calm m th a := h.setSome _ hp
      split
      · exact ha
      · exact ((ha.putR _ _).pmUncore _ _ _ _ _).beginTxn rfl

theorem Calm.fillL3 (line : Nat) (x : Txn) (h : Calm m th s) : Calm m th (fillL3 s line x) := by
  unfold Machine.fillL3
  extract_lets d r
  split
  · exact h.putL3 _ _ _
  · exact h

theorem Calm.settleTxn (line : Nat) (x : Txn) (h : Calm m th s) : Calm m th (settleTxn s line x) := by
  unfold Machine.settleTxn
  extract_lets q e z
  have hz : Calm m th z := h.fillL3 _ _
  clear_value z
  split
  · extract_lets e'
    split
    · exact hz.addSharer _ _
    · exact hz.changeDir _ _
  · exact (hz.l3Stale _).changeDir _ _
  · exact (hz.l3Stale _).changeDir _ _
  · exact hz
  · exact (hz.writeBack _ _).changeDir _ _
  · split
    · exact hz.changeDir _ _
    · exact hz
  · split
    · exact (hz.writeBack _ _).changeDir _ _
    · exact hz.changeDir _ _
  · exact hz.changeDir _ _

/-- A request that writes nothing is performed by its answer alone. -/
theorem performHome_reads {q : HomeReq} (hq : q.kind.writes = false) : performHome s q = s := by
  unfold performHome
  cases hk : q.kind <;> simp [hk, ReqKind.writes] at hq ⊢

theorem Calm.respond (line : Nat) {x : Txn} (hx : x.req.kind.writes = false) (h : Calm m th s) : Calm m th (respond s line x) := by
  unfold Machine.respond
  rw [performHome_reads hx]
  extract_lets bs a g z k
  have hz : Calm m th z := by
    show Calm m th (match x.req.kind with | .notice => s | .recall => s | _ => Machine.answer s x.req g.1 g.2 false bs)
    split
    · exact h
    · exact h
    · exact h.answer _ _ _ _ _
  clear_value z
  split
  · next hint hk => rw [hk] at hx; cases hx
  · exact hz.setNone _

theorem Calm.nextHome {line : Nat} {q : HomeReq} {z : State} (h : Calm m th s) (hn : nextHome s line = some (q, z)) :
    q.kind.writes = false ∧ Calm m th z := by
  unfold Machine.nextHome at hn
  split at hn
  · cases hn
  · next i hi =>
    cases hq : s.homeQ[i]? with
    | none => rw [hq] at hn; cases hn
    | some r =>
      rw [hq] at hn
      simp only [Option.bind_some] at hn
      split at hn
      · cases hn
      · cases hn
        exact ⟨h.queue _ (List.mem_of_getElem? hq), h.mem, h.threads, fun p hp => h.queue p (List.mem_of_mem_eraseIdx hp), h.txns⟩

theorem Calm.runLines (n : Nat) (s : State) (ls : List Nat) (h : Calm m th s) : Calm m th (runLines n s ls) := by
  induction n generalizing s ls with
  | zero => exact h
  | succ n ih =>
    cases ls with
    | nil => exact h
    | cons line ls =>
      unfold Machine.runLines
      split
      · split
        · next q z hn => exact ih _ _ ((h.nextHome hn).2.startTxn (h.nextHome hn).1)
        · exact ih _ _ h
      · next x hx =>
        have hw := h.txn hx
        split
        · exact ih _ _ h
        · split
          · split
            · exact ih _ _ h
            · exact ih _ _ ((h.setNone _).startTxn hw)
          · exact ih _ _ ((h.setSome _ (x := { x with stage := .settled }) hw).settleTxn _ _)
          · exact ih _ _ (h.respond _ hw)
          · exact ih _ _ (h.setNone _)

theorem Calm.advanceTxn (line : Nat) (h : Calm m th s) : Calm m th (advanceTxn s line) := h.runLines _ _ _

theorem Calm.queued {q : HomeReq} (hq : q.kind.writes = false) (h : Calm m th s) :
    Calm m th { s with homeQ := s.homeQ ++ [q] } :=
  ⟨h.mem, h.threads, fun p hp => by
    rcases List.mem_append.1 hp with hp | hp
    · exact h.queue p hp
    · cases List.mem_singleton.1 hp; exact hq, h.txns⟩

theorem Calm.admitReq {q : HomeReq} (hq : q.kind.writes = false) (h : Calm m th s) : Calm m th (admitReq s q) :=
  ((h.pmUncore _ _ _ _ _).queued hq).advanceTxn _

theorem Calm.memoryDone (line : Nat) (h : Calm m th s) : Calm m th (memoryDone s line) := by
  unfold Machine.memoryDone
  split
  · exact h
  · next x hx =>
    have hw := h.txn hx
    exact ((h.setSome _ (x := { x with memory := false }) hw).advanceTxn _).orElse h

theorem Calm.snoopDone (line src : Nat) (d e : Bool) (h : Calm m th s) : Calm m th (snoopDone s line src d e) := by
  unfold Machine.snoopDone
  split
  · exact h
  · next x hx =>
    have hw := h.txn hx
    refine h.orElse ?_
    extract_lets y
    exact ((h.askMemory _ (x := y) hw).advanceTxn _).orElse ((h.setSome _ (x := y) hw).advanceTxn _)

theorem Calm.buddyDone (line : Nat) (h : Calm m th s) : Calm m th (buddyDone s line) := by
  unfold Machine.buddyDone
  split
  · exact h
  · next x hx =>
    have hw := h.txn hx
    exact ((h.setSome _ (x := { x with buddy := false }) hw).advanceTxn _).orElse h

theorem Calm.tellHome (k line : Nat) (h : Calm m th s) : Calm m th (tellHome s k line) := by
  unfold Machine.tellHome
  exact (h.admitReq rfl).orElse (h.holdReq _)

/-! ### Lines at cores -/

theorem Calm.leaveClean (k line : Nat) (c : CLine) (h : Calm m th s) : Calm m th (leaveClean s k line c) := by
  unfold Machine.leaveClean
  exact ((h.dropLine _ _).tellHome _ _).orElse (h.dropLine _ _)

theorem Calm.leaveL2 (k line : Nat) (c : CLine) (h : Calm m th s) : Calm m th (leaveL2 s k line c) := by
  unfold Machine.leaveL2
  exact (h.buffer _ _ _).orElse (h.leaveClean _ _ _)

theorem Calm.enterL2 {k line : Nat} {g : Moesi} {z : State} (h : Calm m th s) (hz : enterL2 s k line g = some z) : Calm m th z := by
  unfold Machine.enterL2 at hz
  split at hz
  · cases hz; exact h.setLine _ _ _
  · obtain ⟨w, -, rfl⟩ := Option.map_eq_some_iff.1 hz
    exact (Calm.foldl _ (fun _ _ h => h.leaveL2 _ _ _) _ h).setLine _ _ _

theorem Calm.l1Fill (k line array : Nat) (h : Calm m th s) : Calm m th (l1Fill s k line array) := by
  unfold Machine.l1Fill
  split
  · exact h
  · refine h.orElse ?_
    exact (Calm.foldl _ (fun _ _ h => h.setLine _ _ _) _ h).setLine _ _ _

theorem Calm.touchLine (k array line : Nat) (h : Calm m th s) : Calm m th (touchLine s k array line) := by
  unfold Machine.touchLine
  split
  · exact h
  · split
    · next z hz => exact (h.enterL2 hz).l1Fill _ _ _
    · exact h

theorem Calm.putSide (k line : Nat) (g : Moesi) (h : Calm m th s) : Calm m th (putSide s k line g) := by
  unfold Machine.putSide
  extract_lets side z
  have hz : Calm m th z := by
    refine h.orElse ?_
    split
    · exact h.leaveClean _ _ _
    · exact h
  exact hz.buffer _ _ _

theorem Calm.install {k line : Nat} {g : Moesi} {z : State} (h : Calm m th s) (hz : install s k line g = some z) : Calm m th z := by
  unfold Machine.install at hz
  extract_lets a u at hz
  have hu : Calm m th u := h.updC _ _
  clear_value u
  split at hz
  · cases hz; exact hu.putSide _ _ _
  · obtain ⟨y, hy, rfl⟩ := Option.map_eq_some_iff.1 hz
    exact (hu.enterL2 hy).l1Fill _ _ _

theorem Calm.snpS (f : Fwd) (h : Calm m th s) : Calm m th (snpS s f) := by
  unfold Machine.snpS
  split
  · exact (h.regrant _ _ _).ackFwd _ _ _
  · split
    · exact (h.setLine _ _ _).ackFwd _ _ _
    · exact h.ackFwd _ _ _

theorem Calm.snpInv (f : Fwd) (h : Calm m th s) : Calm m th (snpInv s f) :=
  (Calm.foldl _ (fun _ _ h => (h.dropLine _ _).regrant _ _ _) _ h).ackFwd _ _ _

theorem Calm.stash (f : Fwd) (h : Calm m th s) : Calm m th (stash s f) := by
  unfold Machine.stash
  split
  · exact h.ackOf _ _ _
  · split
    · next z hz => exact (h.enterL2 hz).ackOf _ _ _
    · exact h.ackOf _ _ _

theorem Calm.takeSnoop (f : Fwd) (h : Calm m th s) : Calm m th (takeSnoop s f) := by
  unfold Machine.takeSnoop
  split
  · exact h.snpS _
  · exact h.snpO _
  · exact h.snpInv _
  · exact h.stash _
  · exact h.dupUpd _

theorem Calm.offered (line core : Nat) (took : Bool) (h : Calm m th s) : Calm m th (offered s line core took) := by
  unfold Machine.offered
  split
  · next x hx =>
    have hw := h.txn hx
    refine h.orElse ?_
    extract_lets a b
    have ha : Calm m th a := h.setSome _ hw
    clear_value a
    exact ((ha.demoted _).orElse ((ha.changeDir _ _).orElse ha)).advanceTxn _
  · exact h

theorem Calm.atHome (r : Rsp) (h : Calm m th s) : Calm m th (atHome s r) := by
  unfold Machine.atHome
  split
  · exact h.orElse (h.buddyDone _)
  · exact h.offered _ _ _
  · exact h.snoopDone _ _ _ _

theorem Calm.released (r : Rsp) (h : Calm m th s) : Calm m th (released s r) := by
  unfold Machine.released
  split
  · split
    · split
      · exact h.orElse ((h.setLine _ _ _).orElse (h.dropLine _ _))
      · exact h
    · exact (h.holdReq _).orElse (h.updC _ _)
  · exact (h.holdReq _).orElse h

theorem Calm.unhook (line : Nat) (h : Calm m th s) : Calm m th (unhook s line) :=
  Calm.foldl _ (fun _ _ h => h.updM _ _) _ h

theorem Calm.takeGrant (k : Nat) (r : Rsp) (h : Calm m th s) : Calm m th (takeGrant s k r) := by
  unfold Machine.takeGrant
  split
  · next g hg =>
    cases hz : Machine.install s k r.line g with
    | none => rw [Option.getD_none]; exact h.updC _ _
    | some z => exact h.install hz
  · exact h.released _

theorem Calm.finishStep {line : Nat} {z : State} {v : Option Nat} (h : Calm m th s) (hz : finishStep s line = some (z, v)) :
    Calm m th z := by
  unfold Machine.finishStep at hz
  split at hz
  · obtain ⟨f, -, he⟩ := Option.map_eq_some_iff.1 hz
    cases he
    exact Calm.takeSnoop _ (h.same rfl rfl rfl rfl)
  · split at hz
    · obtain ⟨r, -, he⟩ := Option.map_eq_some_iff.1 hz
      cases he
      refine Calm.orElse (Calm.atHome _ (h.same rfl rfl rfl rfl)) ?_
      split
      · exact Calm.takeGrant _ _ (h.same rfl rfl rfl rfl)
      · exact h.same rfl rfl rfl rfl
    · split at hz
      · next x hx =>
        split at hz
        · cases hz; exact (h.unhook _).memoryDone _
        · split at hz
          · split at hz
            · cases hz; exact h
            · cases hz; exact h.advanceTxn _
          · cases hz
      · split at hz
        · split at hz
          · split at hz
            · cases hz; exact h
            · obtain ⟨r, -, he⟩ := Option.map_eq_some_iff.1 hz
              cases he; exact h.advanceTxn _
          · cases hz
        · cases hz

theorem Calm.finishGo (n : Nat) (s : State) (ls : List Nat) (h : Calm m th s) : Calm m th (finishGo n s ls) := by
  induction n generalizing s ls with
  | zero => exact h
  | succ n ih =>
    cases ls with
    | nil => exact h
    | cons line ls =>
      unfold Machine.finishGo
      split
      · exact ih _ _ h
      · next hz => exact ih _ _ (h.finishStep hz)
      · next hz => exact ih _ _ (h.finishStep hz)

theorem Calm.finishLine (line : Nat) (h : Calm m th s) : Calm m th (finishLine s line) := h.finishGo _ _ _

theorem Calm.homeDo {q : HomeReq} {z : State} (hq : q.kind.writes = false) (h : Calm m th s) (hz : homeDo s q = some z) :
    Calm m th z := by
  unfold Machine.homeDo at hz
  extract_lets u at hz
  have hu : Calm m th u := h.finishLine _
  clear_value u
  split at hz
  · cases hz
  · cases hz; exact ((hu.admitReq hq).finishLine _).dropAnswer _

theorem Calm.letGo (k cls line : Nat) (h : Calm m th s) : Calm m th (letGo s k cls line) := by
  unfold Machine.letGo
  extract_lets u
  have hu : Calm m th u := h.finishLine _
  clear_value u
  split
  · exact hu
  · refine ((hu.leaveClean _ _ _).finishLine _).orElse ?_
    split
    · next z hz => exact ((hu.setLine _ _ _).homeDo rfl hz).dropLine _ _
    · exact ((hu.writeBack _ _).dropLine _ _).setDirBoth _ _

/-- What a core does to own a line moves lines and changes no byte and no thread. -/
theorem Calm.ownLine (k line : Nat) (h : Calm m th s) : Calm m th (ownLine s k line) := by
  unfold Machine.ownLine
  extract_lets u
  have hu : Calm m th u := (h.finishLine _).touchLine _ _ _
  clear_value u
  split
  · exact hu.setLine _ _ _
  · exact hu
  · next c _ _ =>
    extract_lets w ask w'
    have hw : Calm m th w := by
      refine hu.orElse ?_
      split
      · exact hu.letGo _ _ _
      · exact hu
    have hask : ∀ a b z, b.writes = false → ask a b = some z → Calm m th z := fun a b z hb hz => (hw.updC _ _).homeDo hb hz
    have hw' : Calm m th w' := by
      show Calm m th (Option.getD (ite _ _ _) _)
      split
      · cases hz : ask .upgrade .upg with
        | none => exact hw
        | some z => exact hask _ _ _ rfl hz
      · cases hz : ask .own .rdO with
        | none => exact hw
        | some z => exact hask _ _ _ rfl hz
    clear_value w'
    exact hw'.orElse ((hw'.recallLine _).writeBack _ _)

end Sys2Proof.Machine
end

