-- ==== Sys2Proof/Laws/Dispatch.lean ====
section
/-! SUPPORT. One lemma per command: exec of the command is its meaning. The provers cite these instead of unfolding exec. -/

namespace Sys2Proof.Machine

@[simp] theorem exec_registerWrite (r : Requester) (a : BitVec 40) (wide : Bool) (v : Word) (s : State) :
    exec (.registerWrite r a wide v) s = execRegisterWrite r a wide v s := rfl
@[simp] theorem exec_unitStartCommand (u : Uid) (s : State) :
    exec (.unitStartCommand u) s = execUnitStartCommand u s := rfl
@[simp] theorem exec_placeSpare (u : Uid) (s : State) :
    exec (.placeSpare u) s = execPlaceSpare u s := rfl
@[simp] theorem exec_bivouacPowerDown (u : Uid) (s : State) :
    exec (.bivouacPowerDown u) s = execBivouacPowerDown u s := rfl
@[simp] theorem exec_startSequenceComplete (u : Uid) (s : State) :
    exec (.startSequenceComplete u) s = execStartSequenceComplete u s := rfl
@[simp] theorem exec_startSequenceError (u : Uid) (s : State) :
    exec (.startSequenceError u) s = execStartSequenceError u s := rfl
@[simp] theorem exec_drainCommand (u : Uid) (s : State) :
    exec (.drainCommand u) s = execDrainCommand u s := rfl
@[simp] theorem exec_drainComplete (u : Uid) (retire : Bool) (s : State) :
    exec (.drainComplete u retire) s = execDrainComplete u retire s := rfl
@[simp] theorem exec_drainCancelled (u : Uid) (s : State) :
    exec (.drainCancelled u) s = execDrainCancelled u s := rfl
@[simp] theorem exec_unitFailure (u : Uid) (why : FailCause) (s : State) :
    exec (.unitFailure u why) s = execUnitFailure u why s := rfl
@[simp] theorem exec_containmentWithdraw (u : Uid) (s : State) :
    exec (.containmentWithdraw u) s = execContainmentWithdraw u s := rfl
@[simp] theorem exec_failedRestart (u : Uid) (s : State) :
    exec (.failedRestart u) s = execFailedRestart u s := rfl
@[simp] theorem exec_stateMessage (k : Nat) (s : State) :
    exec (.stateMessage k) s = execStateMessage k s := rfl
@[simp] theorem exec_droopPause (d : DomId) (mv : Nat) (s : State) :
    exec (.droopPause d mv) s = execDroopPause d mv s := rfl
@[simp] theorem exec_droopResume (d : DomId) (mv : Nat) (s : State) :
    exec (.droopResume d mv) s = execDroopResume d mv s := rfl
@[simp] theorem exec_referenceLoss (r : RefClk) (s : State) :
    exec (.referenceLoss r) s = execReferenceLoss r s := rfl
@[simp] theorem exec_referenceReturn (r : RefClk) (s : State) :
    exec (.referenceReturn r) s = execReferenceReturn r s := rfl
@[simp] theorem exec_revertSwitch (s : State) :
    exec .revertSwitch s = execRevertSwitch s := rfl
@[simp] theorem exec_governorEvaluation (h : Fin 24) (x : SheafMeter) (t0 t1 t2 t3 : BitVec 10) (s : State) :
    exec (.governorEvaluation h x t0 t1 t2 t3) s = execGovernorEvaluation h x t0 t1 t2 t3 s := rfl
@[simp] theorem exec_voltageStep (d : DomId) (s : State) :
    exec (.voltageStep d) s = execVoltageStep d s := rfl
@[simp] theorem exec_powerWindow (h : Fin 24) (mean : BitVec 12) (s : State) :
    exec (.powerWindow h mean) s = execPowerWindow h mean s := rfl
@[simp] theorem exec_sensorSelfCheckFail (h : Fin 24) (k : Fin 4) (s : State) :
    exec (.sensorSelfCheckFail h k) s = execSensorSelfCheckFail h k s := rfl
@[simp] theorem exec_domainTrip (d : DomId) (reading : BitVec 10) (s : State) :
    exec (.domainTrip d reading) s = execDomainTrip d reading s := rfl
@[simp] theorem exec_softStopResume (d : DomId) (readings : List (BitVec 10)) (s : State) :
    exec (.softStopResume d readings) s = execSoftStopResume d readings s := rfl
@[simp] theorem exec_packageCritical (d : DomId) (reading : BitVec 10) (s : State) :
    exec (.packageCritical d reading) s = execPackageCritical d reading s := rfl
@[simp] theorem exec_thermTrip (s : State) :
    exec .thermTrip s = execThermTrip s := rfl
@[simp] theorem exec_holdoverCapacitorLow (mv : Nat) (s : State) :
    exec (.holdoverCapacitorLow mv) s = execHoldoverCapacitorLow mv s := rfl
@[simp] theorem exec_call (t : Tid) (disp : BitVec 25) (s : State) :
    exec (.call t disp) s = execCall t disp s := rfl
@[simp] theorem exec_callr (t : Tid) (ra : RegNo) (s : State) :
    exec (.callr t ra) s = execCallr t ra s := rfl
@[simp] theorem exec_ret (t : Tid) (s : State) :
    exec (.ret t) s = execRet t s := rfl
@[simp] theorem exec_spill (t : Tid) (s : State) :
    exec (.spill t) s = execSpill t s := rfl
@[simp] theorem exec_windowFill (t : Tid) (s : State) :
    exec (.windowFill t) s = execWindowFill t s := rfl
@[simp] theorem exec_rdtr (t : Tid) (rd ra rb : RegNo) (fn : BitVec 10) (s : State) :
    exec (.rdtr t rd ra rb fn) s = execRdtr t rd ra rb fn s := rfl
@[simp] theorem exec_wrtrWstack (t : Tid) (rd ra rb : RegNo) (rsv : BitVec 6) (s : State) :
    exec (.wrtrWstack t rd ra rb rsv) s = execWrtrWstack t rd ra rb rsv s := rfl
@[simp] theorem exec_wrtrFstack (t : Tid) (rd ra rb : RegNo) (rsv : BitVec 6) (s : State) :
    exec (.wrtrFstack t rd ra rb rsv) s = execWrtrFstack t rd ra rb rsv s := rfl
@[simp] theorem exec_wrtrFgate (t : Tid) (rd ra rb : RegNo) (rsv : BitVec 6) (s : State) :
    exec (.wrtrFgate t rd ra rb rsv) s = execWrtrFgate t rd ra rb rsv s := rfl
@[simp] theorem exec_wrtrGatetab (t : Tid) (rd ra rb : RegNo) (rsv : BitVec 6) (s : State) :
    exec (.wrtrGatetab t rd ra rb rsv) s = execWrtrGatetab t rd ra rb rsv s := rfl
@[simp] theorem exec_wrtrTctrl (t : Tid) (rd ra rb : RegNo) (rsv : BitVec 6) (s : State) :
    exec (.wrtrTctrl t rd ra rb rsv) s = execWrtrTctrl t rd ra rb rsv s := rfl
@[simp] theorem exec_wrtrTstatus (t : Tid) (rd ra rb : RegNo) (rsv : BitVec 6) (s : State) :
    exec (.wrtrTstatus t rd ra rb rsv) s = execWrtrTstatus t rd ra rb rsv s := rfl
@[simp] theorem exec_add (t : Tid) (rd ra rb : RegNo) (s : State) :
    exec (.add t rd ra rb) s = execAdd t rd ra rb s := rfl
@[simp] theorem exec_sub (t : Tid) (rd ra rb : RegNo) (s : State) :
    exec (.sub t rd ra rb) s = execSub t rd ra rb s := rfl
@[simp] theorem exec_and (t : Tid) (rd ra rb : RegNo) (s : State) :
    exec (.and t rd ra rb) s = execAnd t rd ra rb s := rfl
@[simp] theorem exec_or (t : Tid) (rd ra rb : RegNo) (s : State) :
    exec (.or t rd ra rb) s = execOr t rd ra rb s := rfl
@[simp] theorem exec_xor (t : Tid) (rd ra rb : RegNo) (s : State) :
    exec (.xor t rd ra rb) s = execXor t rd ra rb s := rfl
@[simp] theorem exec_andn (t : Tid) (rd ra rb : RegNo) (s : State) :
    exec (.andn t rd ra rb) s = execAndn t rd ra rb s := rfl
@[simp] theorem exec_sll (t : Tid) (rd ra rb : RegNo) (s : State) :
    exec (.sll t rd ra rb) s = execSll t rd ra rb s := rfl
@[simp] theorem exec_srl (t : Tid) (rd ra rb : RegNo) (s : State) :
    exec (.srl t rd ra rb) s = execSrl t rd ra rb s := rfl
@[simp] theorem exec_sra (t : Tid) (rd ra rb : RegNo) (s : State) :
    exec (.sra t rd ra rb) s = execSra t rd ra rb s := rfl
@[simp] theorem exec_rol (t : Tid) (rd ra rb : RegNo) (s : State) :
    exec (.rol t rd ra rb) s = execRol t rd ra rb s := rfl
@[simp] theorem exec_ror (t : Tid) (rd ra rb : RegNo) (s : State) :
    exec (.ror t rd ra rb) s = execRor t rd ra rb s := rfl
@[simp] theorem exec_clz (t : Tid) (rd ra rb : RegNo) (s : State) :
    exec (.clz t rd ra rb) s = execClz t rd ra rb s := rfl
@[simp] theorem exec_ctz (t : Tid) (rd ra rb : RegNo) (s : State) :
    exec (.ctz t rd ra rb) s = execCtz t rd ra rb s := rfl
@[simp] theorem exec_popc (t : Tid) (rd ra rb : RegNo) (s : State) :
    exec (.popc t rd ra rb) s = execPopc t rd ra rb s := rfl
@[simp] theorem exec_bswap (t : Tid) (rd ra rb : RegNo) (s : State) :
    exec (.bswap t rd ra rb) s = execBswap t rd ra rb s := rfl
@[simp] theorem exec_slt (t : Tid) (rd ra rb : RegNo) (s : State) :
    exec (.slt t rd ra rb) s = execSlt t rd ra rb s := rfl
@[simp] theorem exec_sltu (t : Tid) (rd ra rb : RegNo) (s : State) :
    exec (.sltu t rd ra rb) s = execSltu t rd ra rb s := rfl
@[simp] theorem exec_min (t : Tid) (rd ra rb : RegNo) (s : State) :
    exec (.min t rd ra rb) s = execMin t rd ra rb s := rfl
@[simp] theorem exec_max (t : Tid) (rd ra rb : RegNo) (s : State) :
    exec (.max t rd ra rb) s = execMax t rd ra rb s := rfl
@[simp] theorem exec_minu (t : Tid) (rd ra rb : RegNo) (s : State) :
    exec (.minu t rd ra rb) s = execMinu t rd ra rb s := rfl
@[simp] theorem exec_maxu (t : Tid) (rd ra rb : RegNo) (s : State) :
    exec (.maxu t rd ra rb) s = execMaxu t rd ra rb s := rfl
@[simp] theorem exec_addi (t : Tid) (limm : Limm) (rd ra : RegNo) (imm : BitVec 15) (s : State) :
    exec (.addi t limm rd ra imm) s = execAddi t limm rd ra imm s := rfl
@[simp] theorem exec_andi (t : Tid) (limm : Limm) (rd ra : RegNo) (imm : BitVec 15) (s : State) :
    exec (.andi t limm rd ra imm) s = execAndi t limm rd ra imm s := rfl
@[simp] theorem exec_ori (t : Tid) (limm : Limm) (rd ra : RegNo) (imm : BitVec 15) (s : State) :
    exec (.ori t limm rd ra imm) s = execOri t limm rd ra imm s := rfl
@[simp] theorem exec_xori (t : Tid) (limm : Limm) (rd ra : RegNo) (imm : BitVec 15) (s : State) :
    exec (.xori t limm rd ra imm) s = execXori t limm rd ra imm s := rfl
@[simp] theorem exec_shi (t : Tid) (limm : Limm) (rd ra : RegNo) (imm : BitVec 15) (s : State) :
    exec (.shi t limm rd ra imm) s = execShi t limm rd ra imm s := rfl
@[simp] theorem exec_slti (t : Tid) (limm : Limm) (rd ra : RegNo) (imm : BitVec 15) (s : State) :
    exec (.slti t limm rd ra imm) s = execSlti t limm rd ra imm s := rfl
@[simp] theorem exec_sltiu (t : Tid) (limm : Limm) (rd ra : RegNo) (imm : BitVec 15) (s : State) :
    exec (.sltiu t limm rd ra imm) s = execSltiu t limm rd ra imm s := rfl
@[simp] theorem exec_bitf (t : Tid) (limm : Limm) (rd ra : RegNo) (imm : BitVec 15) (s : State) :
    exec (.bitf t limm rd ra imm) s = execBitf t limm rd ra imm s := rfl
@[simp] theorem exec_mulLow (t : Tid) (rd ra rb : RegNo) (s : State) :
    exec (.mulLow t rd ra rb) s = execMulLow t rd ra rb s := rfl
@[simp] theorem exec_mulHighSigned (t : Tid) (rd ra rb : RegNo) (s : State) :
    exec (.mulHighSigned t rd ra rb) s = execMulHighSigned t rd ra rb s := rfl
@[simp] theorem exec_mulHighUnsigned (t : Tid) (rd ra rb : RegNo) (s : State) :
    exec (.mulHighUnsigned t rd ra rb) s = execMulHighUnsigned t rd ra rb s := rfl
@[simp] theorem exec_mulHighSignedUnsigned (t : Tid) (rd ra rb : RegNo) (s : State) :
    exec (.mulHighSignedUnsigned t rd ra rb) s = execMulHighSignedUnsigned t rd ra rb s := rfl
@[simp] theorem exec_div (t : Tid) (rd ra rb : RegNo) (s : State) :
    exec (.div t rd ra rb) s = execDiv t rd ra rb s := rfl
@[simp] theorem exec_divu (t : Tid) (rd ra rb : RegNo) (s : State) :
    exec (.divu t rd ra rb) s = execDivu t rd ra rb s := rfl
@[simp] theorem exec_rem (t : Tid) (rd ra rb : RegNo) (s : State) :
    exec (.rem t rd ra rb) s = execRem t rd ra rb s := rfl
@[simp] theorem exec_remu (t : Tid) (rd ra rb : RegNo) (s : State) :
    exec (.remu t rd ra rb) s = execRemu t rd ra rb s := rfl
@[simp] theorem exec_longOpComplete (t : Tid) (k : Nat) (s : State) :
    exec (.longOpComplete t k) s = execLongOpComplete t k s := rfl
@[simp] theorem exec_addt (t : Tid) (rd ra rb : RegNo) (s : State) :
    exec (.addt t rd ra rb) s = execAddt t rd ra rb s := rfl
@[simp] theorem exec_subt (t : Tid) (rd ra rb : RegNo) (s : State) :
    exec (.subt t rd ra rb) s = execSubt t rd ra rb s := rfl
@[simp] theorem exec_mult (t : Tid) (rd ra rb : RegNo) (s : State) :
    exec (.mult t rd ra rb) s = execMult t rd ra rb s := rfl
@[simp] theorem exec_divtQuotient (t : Tid) (rd ra rb : RegNo) (s : State) :
    exec (.divtQuotient t rd ra rb) s = execDivtQuotient t rd ra rb s := rfl
@[simp] theorem exec_divtRemainder (t : Tid) (rd ra rb : RegNo) (s : State) :
    exec (.divtRemainder t rd ra rb) s = execDivtRemainder t rd ra rb s := rfl
@[simp] theorem exec_sel (t : Tid) (rd ra rb rc : RegNo) (cond : BitVec 3) (rsv : BitVec 2) (s : State) :
    exec (.sel t rd ra rb rc cond rsv) s = execSel t rd ra rb rc cond rsv s := rfl
@[simp] theorem exec_cmov (t : Tid) (rd ra rb rc : RegNo) (cond : BitVec 3) (rsv : BitVec 2) (s : State) :
    exec (.cmov t rd ra rb rc cond rsv) s = execCmov t rd ra rb rc cond rsv s := rfl
@[simp] theorem exec_beq (t : Tid) (ra rb : RegNo) (disp : BitVec 15) (s : State) :
    exec (.beq t ra rb disp) s = execBeq t ra rb disp s := rfl
@[simp] theorem exec_bne (t : Tid) (ra rb : RegNo) (disp : BitVec 15) (s : State) :
    exec (.bne t ra rb disp) s = execBne t ra rb disp s := rfl
@[simp] theorem exec_blt (t : Tid) (ra rb : RegNo) (disp : BitVec 15) (s : State) :
    exec (.blt t ra rb disp) s = execBlt t ra rb disp s := rfl
@[simp] theorem exec_bge (t : Tid) (ra rb : RegNo) (disp : BitVec 15) (s : State) :
    exec (.bge t ra rb disp) s = execBge t ra rb disp s := rfl
@[simp] theorem exec_bltu (t : Tid) (ra rb : RegNo) (disp : BitVec 15) (s : State) :
    exec (.bltu t ra rb disp) s = execBltu t ra rb disp s := rfl
@[simp] theorem exec_bgeu (t : Tid) (ra rb : RegNo) (disp : BitVec 15) (s : State) :
    exec (.bgeu t ra rb disp) s = execBgeu t ra rb disp s := rfl
@[simp] theorem exec_j (t : Tid) (disp : BitVec 25) (s : State) :
    exec (.j t disp) s = execJ t disp s := rfl
@[simp] theorem exec_jr (t : Tid) (ra : RegNo) (s : State) :
    exec (.jr t ra) s = execJr t ra s := rfl
@[simp] theorem exec_trap (t : Tid) (limm : Limm) (n : BitVec 15) (s : State) :
    exec (.trap t limm n) s = execTrap t limm n s := rfl
@[simp] theorem exec_fret (t : Tid) (rsv : BitVec 25) (s : State) :
    exec (.fret t rsv) s = execFret t rsv s := rfl
@[simp] theorem exec_wait (t : Tid) (ra : RegNo) (s : State) :
    exec (.wait t ra) s = execWait t ra s := rfl
@[simp] theorem exec_waitDeadline (t : Tid) (s : State) :
    exec (.waitDeadline t) s = execWaitDeadline t s := rfl
@[simp] theorem exec_ldB (t : Tid) (rd ra : RegNo) (am : BitVec 3) (imm : BitVec 12) (s : State) :
    exec (.ldB t rd ra am imm) s = execLdB t rd ra am imm s := rfl
@[simp] theorem exec_ldBu (t : Tid) (rd ra : RegNo) (am : BitVec 3) (imm : BitVec 12) (s : State) :
    exec (.ldBu t rd ra am imm) s = execLdBu t rd ra am imm s := rfl
@[simp] theorem exec_ldH (t : Tid) (rd ra : RegNo) (am : BitVec 3) (imm : BitVec 12) (s : State) :
    exec (.ldH t rd ra am imm) s = execLdH t rd ra am imm s := rfl
@[simp] theorem exec_ldHu (t : Tid) (rd ra : RegNo) (am : BitVec 3) (imm : BitVec 12) (s : State) :
    exec (.ldHu t rd ra am imm) s = execLdHu t rd ra am imm s := rfl
@[simp] theorem exec_ldW (t : Tid) (rd ra : RegNo) (am : BitVec 3) (imm : BitVec 12) (s : State) :
    exec (.ldW t rd ra am imm) s = execLdW t rd ra am imm s := rfl
@[simp] theorem exec_ldWu (t : Tid) (rd ra : RegNo) (am : BitVec 3) (imm : BitVec 12) (s : State) :
    exec (.ldWu t rd ra am imm) s = execLdWu t rd ra am imm s := rfl
@[simp] theorem exec_ldD (t : Tid) (rd ra : RegNo) (am : BitVec 3) (imm : BitVec 12) (s : State) :
    exec (.ldD t rd ra am imm) s = execLdD t rd ra am imm s := rfl
@[simp] theorem exec_ldC (t : Tid) (rd ra : RegNo) (am : BitVec 3) (imm : BitVec 12) (s : State) :
    exec (.ldC t rd ra am imm) s = execLdC t rd ra am imm s := rfl
@[simp] theorem exec_stB (t : Tid) (rd ra : RegNo) (am : BitVec 3) (imm : BitVec 12) (s : State) :
    exec (.stB t rd ra am imm) s = execStB t rd ra am imm s := rfl
@[simp] theorem exec_stH (t : Tid) (rd ra : RegNo) (am : BitVec 3) (imm : BitVec 12) (s : State) :
    exec (.stH t rd ra am imm) s = execStH t rd ra am imm s := rfl
@[simp] theorem exec_stW (t : Tid) (rd ra : RegNo) (am : BitVec 3) (imm : BitVec 12) (s : State) :
    exec (.stW t rd ra am imm) s = execStW t rd ra am imm s := rfl
@[simp] theorem exec_stD (t : Tid) (rd ra : RegNo) (am : BitVec 3) (imm : BitVec 12) (s : State) :
    exec (.stD t rd ra am imm) s = execStD t rd ra am imm s := rfl
@[simp] theorem exec_stC (t : Tid) (rd ra : RegNo) (am : BitVec 3) (imm : BitVec 12) (s : State) :
    exec (.stC t rd ra am imm) s = execStC t rd ra am imm s := rfl
@[simp] theorem exec_ldV (t : Tid) (rd ra : RegNo) (am : BitVec 3) (imm : BitVec 12) (s : State) :
    exec (.ldV t rd ra am imm) s = execLdV t rd ra am imm s := rfl
@[simp] theorem exec_stV (t : Tid) (rd ra : RegNo) (am : BitVec 3) (imm : BitVec 12) (s : State) :
    exec (.stV t rd ra am imm) s = execStV t rd ra am imm s := rfl
@[simp] theorem exec_ldxB (t : Tid) (rd ra rb : RegNo) (sh : BitVec 3) (w : BitVec 5) (m x : Bool) (s : State) :
    exec (.ldxB t rd ra rb sh w m x) s = execLdxB t rd ra rb sh w m x s := rfl
@[simp] theorem exec_ldxH (t : Tid) (rd ra rb : RegNo) (sh : BitVec 3) (w : BitVec 5) (m x : Bool) (s : State) :
    exec (.ldxH t rd ra rb sh w m x) s = execLdxH t rd ra rb sh w m x s := rfl
@[simp] theorem exec_ldxW (t : Tid) (rd ra rb : RegNo) (sh : BitVec 3) (w : BitVec 5) (m x : Bool) (s : State) :
    exec (.ldxW t rd ra rb sh w m x) s = execLdxW t rd ra rb sh w m x s := rfl
@[simp] theorem exec_ldxD (t : Tid) (rd ra rb : RegNo) (sh : BitVec 3) (w : BitVec 5) (m x : Bool) (s : State) :
    exec (.ldxD t rd ra rb sh w m x) s = execLdxD t rd ra rb sh w m x s := rfl
@[simp] theorem exec_ldxC (t : Tid) (rd ra rb : RegNo) (sh : BitVec 3) (w : BitVec 5) (m x : Bool) (s : State) :
    exec (.ldxC t rd ra rb sh w m x) s = execLdxC t rd ra rb sh w m x s := rfl
@[simp] theorem exec_ldxV (t : Tid) (rd ra rb : RegNo) (sh : BitVec 3) (w : BitVec 5) (m x : Bool) (s : State) :
    exec (.ldxV t rd ra rb sh w m x) s = execLdxV t rd ra rb sh w m x s := rfl
@[simp] theorem exec_stxB (t : Tid) (rd ra rb : RegNo) (sh : BitVec 3) (w : BitVec 5) (m x : Bool) (s : State) :
    exec (.stxB t rd ra rb sh w m x) s = execStxB t rd ra rb sh w m x s := rfl
@[simp] theorem exec_stxH (t : Tid) (rd ra rb : RegNo) (sh : BitVec 3) (w : BitVec 5) (m x : Bool) (s : State) :
    exec (.stxH t rd ra rb sh w m x) s = execStxH t rd ra rb sh w m x s := rfl
@[simp] theorem exec_stxW (t : Tid) (rd ra rb : RegNo) (sh : BitVec 3) (w : BitVec 5) (m x : Bool) (s : State) :
    exec (.stxW t rd ra rb sh w m x) s = execStxW t rd ra rb sh w m x s := rfl
@[simp] theorem exec_stxD (t : Tid) (rd ra rb : RegNo) (sh : BitVec 3) (w : BitVec 5) (m x : Bool) (s : State) :
    exec (.stxD t rd ra rb sh w m x) s = execStxD t rd ra rb sh w m x s := rfl
@[simp] theorem exec_stxC (t : Tid) (rd ra rb : RegNo) (sh : BitVec 3) (w : BitVec 5) (m x : Bool) (s : State) :
    exec (.stxC t rd ra rb sh w m x) s = execStxC t rd ra rb sh w m x s := rfl
@[simp] theorem exec_stxV (t : Tid) (rd ra rb : RegNo) (sh : BitVec 3) (w : BitVec 5) (m x : Bool) (s : State) :
    exec (.stxV t rd ra rb sh w m x) s = execStxV t rd ra rb sh w m x s := rfl
@[simp] theorem exec_amoFadd (t : Tid) (rd ra rb : RegNo) (order : BitVec 2) (wide : Bool) (rsv : BitVec 3) (s : State) :
    exec (.amoFadd t rd ra rb order wide rsv) s = execAmoFadd t rd ra rb order wide rsv s := rfl
@[simp] theorem exec_amoSwap (t : Tid) (rd ra rb : RegNo) (order : BitVec 2) (wide : Bool) (rsv : BitVec 3) (s : State) :
    exec (.amoSwap t rd ra rb order wide rsv) s = execAmoSwap t rd ra rb order wide rsv s := rfl
@[simp] theorem exec_amoAnd (t : Tid) (rd ra rb : RegNo) (order : BitVec 2) (wide : Bool) (rsv : BitVec 3) (s : State) :
    exec (.amoAnd t rd ra rb order wide rsv) s = execAmoAnd t rd ra rb order wide rsv s := rfl
@[simp] theorem exec_amoOr (t : Tid) (rd ra rb : RegNo) (order : BitVec 2) (wide : Bool) (rsv : BitVec 3) (s : State) :
    exec (.amoOr t rd ra rb order wide rsv) s = execAmoOr t rd ra rb order wide rsv s := rfl
@[simp] theorem exec_amoXor (t : Tid) (rd ra rb : RegNo) (order : BitVec 2) (wide : Bool) (rsv : BitVec 3) (s : State) :
    exec (.amoXor t rd ra rb order wide rsv) s = execAmoXor t rd ra rb order wide rsv s := rfl
@[simp] theorem exec_amoSmin (t : Tid) (rd ra rb : RegNo) (order : BitVec 2) (wide : Bool) (rsv : BitVec 3) (s : State) :
    exec (.amoSmin t rd ra rb order wide rsv) s = execAmoSmin t rd ra rb order wide rsv s := rfl
@[simp] theorem exec_amoSmax (t : Tid) (rd ra rb : RegNo) (order : BitVec 2) (wide : Bool) (rsv : BitVec 3) (s : State) :
    exec (.amoSmax t rd ra rb order wide rsv) s = execAmoSmax t rd ra rb order wide rsv s := rfl
@[simp] theorem exec_amoUmin (t : Tid) (rd ra rb : RegNo) (order : BitVec 2) (wide : Bool) (rsv : BitVec 3) (s : State) :
    exec (.amoUmin t rd ra rb order wide rsv) s = execAmoUmin t rd ra rb order wide rsv s := rfl
@[simp] theorem exec_amoUmax (t : Tid) (rd ra rb : RegNo) (order : BitVec 2) (wide : Bool) (rsv : BitVec 3) (s : State) :
    exec (.amoUmax t rd ra rb order wide rsv) s = execAmoUmax t rd ra rb order wide rsv s := rfl
@[simp] theorem exec_cas (t : Tid) (rd ra rb : RegNo) (order width : BitVec 2) (rsv : BitVec 6) (s : State) :
    exec (.cas t rd ra rb order width rsv) s = execCas t rd ra rb order width rsv s := rfl
@[simp] theorem exec_fenceFull (t : Tid) (s : State) :
    exec (.fenceFull t) s = execFenceFull t s := rfl
@[simp] theorem exec_fenceAcq (t : Tid) (s : State) :
    exec (.fenceAcq t) s = execFenceAcq t s := rfl
@[simp] theorem exec_fenceRel (t : Tid) (s : State) :
    exec (.fenceRel t) s = execFenceRel t s := rfl
@[simp] theorem exec_fenceSs (t : Tid) (s : State) :
    exec (.fenceSs t) s = execFenceSs t s := rfl
@[simp] theorem exec_fenceIo (t : Tid) (s : State) :
    exec (.fenceIo t) s = execFenceIo t s := rfl
@[simp] theorem exec_lda (t : Tid) (rd ra : RegNo) (size : BitVec 3) (rsv : BitVec 7) (s : State) :
    exec (.lda t rd ra size rsv) s = execLda t rd ra size rsv s := rfl
@[simp] theorem exec_strel (t : Tid) (rd ra : RegNo) (size : BitVec 3) (rsv : BitVec 7) (s : State) :
    exec (.strel t rd ra size rsv) s = execStrel t rd ra size rsv s := rfl
@[simp] theorem exec_isync (t : Tid) (s : State) :
    exec (.isync t) s = execIsync t s := rfl
@[simp] theorem exec_abar (t : Tid) (s : State) :
    exec (.abar t) s = execAbar t s := rfl
@[simp] theorem exec_cmoClean (t : Tid) (ra : RegNo) (am : BitVec 3) (imm : BitVec 12) (s : State) :
    exec (.cmoClean t ra am imm) s = execCmoClean t ra am imm s := rfl
@[simp] theorem exec_cmoFlush (t : Tid) (ra : RegNo) (am : BitVec 3) (imm : BitVec 12) (s : State) :
    exec (.cmoFlush t ra am imm) s = execCmoFlush t ra am imm s := rfl
@[simp] theorem exec_cmoZero (t : Tid) (ra : RegNo) (am : BitVec 3) (imm : BitVec 12) (s : State) :
    exec (.cmoZero t ra am imm) s = execCmoZero t ra am imm s := rfl
@[simp] theorem exec_prf (t : Tid) (ra : RegNo) (am : BitVec 3) (imm : BitVec 12) (s : State) :
    exec (.prf t ra am imm) s = execPrf t ra am imm s := rfl
@[simp] theorem exec_cxbase (t : Tid) (rd ra rb : RegNo) (s : State) :
    exec (.cxbase t rd ra rb) s = execCxbase t rd ra rb s := rfl
@[simp] theorem exec_cxlen (t : Tid) (rd ra rb : RegNo) (s : State) :
    exec (.cxlen t rd ra rb) s = execCxlen t rd ra rb s := rfl
@[simp] theorem exec_cxperm (t : Tid) (rd ra rb : RegNo) (s : State) :
    exec (.cxperm t rd ra rb) s = execCxperm t rd ra rb s := rfl
@[simp] theorem exec_cxtype (t : Tid) (rd ra rb : RegNo) (s : State) :
    exec (.cxtype t rd ra rb) s = execCxtype t rd ra rb s := rfl
@[simp] theorem exec_cxtag (t : Tid) (rd ra rb : RegNo) (s : State) :
    exec (.cxtag t rd ra rb) s = execCxtag t rd ra rb s := rfl
@[simp] theorem exec_cxmove (t : Tid) (rd ra rb : RegNo) (s : State) :
    exec (.cxmove t rd ra rb) s = execCxmove t rd ra rb s := rfl
@[simp] theorem exec_cxdrop (t : Tid) (rd ra rb : RegNo) (s : State) :
    exec (.cxdrop t rd ra rb) s = execCxdrop t rd ra rb s := rfl
@[simp] theorem exec_cxbound (t : Tid) (rd ra rb : RegNo) (s : State) :
    exec (.cxbound t rd ra rb) s = execCxbound t rd ra rb s := rfl
@[simp] theorem exec_cxboundx (t : Tid) (rd ra rb : RegNo) (s : State) :
    exec (.cxboundx t rd ra rb) s = execCxboundx t rd ra rb s := rfl
@[simp] theorem exec_cxseal (t : Tid) (rd ra rb : RegNo) (s : State) :
    exec (.cxseal t rd ra rb) s = execCxseal t rd ra rb s := rfl
@[simp] theorem exec_cxopen (t : Tid) (rd ra rb : RegNo) (s : State) :
    exec (.cxopen t rd ra rb) s = execCxopen t rd ra rb s := rfl
@[simp] theorem exec_cxstrip (t : Tid) (rd ra rb : RegNo) (s : State) :
    exec (.cxstrip t rd ra rb) s = execCxstrip t rd ra rb s := rfl
@[simp] theorem exec_cxwithin (t : Tid) (rd ra rb : RegNo) (s : State) :
    exec (.cxwithin t rd ra rb) s = execCxwithin t rd ra rb s := rfl
@[simp] theorem exec_cxfitlen (t : Tid) (rd ra rb : RegNo) (s : State) :
    exec (.cxfitlen t rd ra rb) s = execCxfitlen t rd ra rb s := rfl
@[simp] theorem exec_cxfitbase (t : Tid) (rd ra rb : RegNo) (s : State) :
    exec (.cxfitbase t rd ra rb) s = execCxfitbase t rd ra rb s := rfl
@[simp] theorem exec_cxaddi (t : Tid) (limm : Limm) (rd ra : RegNo) (imm : BitVec 15) (s : State) :
    exec (.cxaddi t limm rd ra imm) s = execCxaddi t limm rd ra imm s := rfl
@[simp] theorem exec_cxboundi (t : Tid) (limm : Limm) (rd ra : RegNo) (imm : BitVec 15) (s : State) :
    exec (.cxboundi t limm rd ra imm) s = execCxboundi t limm rd ra imm s := rfl
@[simp] theorem exec_blkmove (t : Tid) (rd ra rb : RegNo) (fn : BitVec 10) (s : State) :
    exec (.blkmove t rd ra rb fn) s = execBlkmove t rd ra rb fn s := rfl
@[simp] theorem exec_blkfill (t : Tid) (rd ra rb : RegNo) (fn : BitVec 10) (s : State) :
    exec (.blkfill t rd ra rb fn) s = execBlkfill t rd ra rb fn s := rfl
@[simp] theorem exec_blkcmp (t : Tid) (rd ra rb : RegNo) (fn : BitVec 10) (s : State) :
    exec (.blkcmp t rd ra rb fn) s = execBlkcmp t rd ra rb fn s := rfl
@[simp] theorem exec_crcrange (t : Tid) (rd ra rb : RegNo) (fn : BitVec 10) (s : State) :
    exec (.crcrange t rd ra rb fn) s = execCrcrange t rd ra rb fn s := rfl
@[simp] theorem exec_nttpass (t : Tid) (rd ra rb : RegNo) (fn : BitVec 10) (s : State) :
    exec (.nttpass t rd ra rb fn) s = execNttpass t rd ra rb fn s := rfl
@[simp] theorem exec_blockElement (t : Tid) (op : BlkOp) (rd ra rb : RegNo) (s : State) :
    exec (.blockElement t op rd ra rb) s = execBlockElement t op rd ra rb s := rfl
@[simp] theorem exec_rdtime (t : Tid) (rd : RegNo) (s : State) :
    exec (.rdtime t rd) s = execRdtime t rd s := rfl
@[simp] theorem exec_feat (t : Tid) (limm : Limm) (rd ra : RegNo) (imm : BitVec 15) (s : State) :
    exec (.feat t limm rd ra imm) s = execFeat t limm rd ra imm s := rfl
@[simp] theorem exec_tlbiVaAsid (t : Tid) (rd ra rb : RegNo) (pkg : Bool) (rsv : BitVec 5) (s : State) :
    exec (.tlbiVaAsid t rd ra rb pkg rsv) s = execTlbiVaAsid t rd ra rb pkg rsv s := rfl
@[simp] theorem exec_tlbiVa (t : Tid) (rd ra rb : RegNo) (pkg : Bool) (rsv : BitVec 5) (s : State) :
    exec (.tlbiVa t rd ra rb pkg rsv) s = execTlbiVa t rd ra rb pkg rsv s := rfl
@[simp] theorem exec_tlbiAsid (t : Tid) (rd ra rb : RegNo) (pkg : Bool) (rsv : BitVec 5) (s : State) :
    exec (.tlbiAsid t rd ra rb pkg rsv) s = execTlbiAsid t rd ra rb pkg rsv s := rfl
@[simp] theorem exec_tlbiVmidCurrent (t : Tid) (rd ra rb : RegNo) (pkg : Bool) (rsv : BitVec 5) (s : State) :
    exec (.tlbiVmidCurrent t rd ra rb pkg rsv) s = execTlbiVmidCurrent t rd ra rb pkg rsv s := rfl
@[simp] theorem exec_tlbiIpa (t : Tid) (rd ra rb : RegNo) (pkg : Bool) (rsv : BitVec 5) (s : State) :
    exec (.tlbiIpa t rd ra rb pkg rsv) s = execTlbiIpa t rd ra rb pkg rsv s := rfl
@[simp] theorem exec_tlbiVmid (t : Tid) (rd ra rb : RegNo) (pkg : Bool) (rsv : BitVec 5) (s : State) :
    exec (.tlbiVmid t rd ra rb pkg rsv) s = execTlbiVmid t rd ra rb pkg rsv s := rfl
@[simp] theorem exec_tlbiAll (t : Tid) (rd ra rb : RegNo) (pkg : Bool) (rsv : BitVec 5) (s : State) :
    exec (.tlbiAll t rd ra rb pkg rsv) s = execTlbiAll t rd ra rb pkg rsv s := rfl
@[simp] theorem exec_tlbiSync (t : Tid) (rd ra rb : RegNo) (pkg : Bool) (rsv : BitVec 5) (s : State) :
    exec (.tlbiSync t rd ra rb pkg rsv) s = execTlbiSync t rd ra rb pkg rsv s := rfl
@[simp] theorem exec_vint (t : Tid) (vd va vb : RegNo) (op : VIntOp) (w : Lane) (s : State) :
    exec (.vint t vd va vb op w) s = execVint t vd va vb op w s := rfl
@[simp] theorem exec_vmul (t : Tid) (vd va vb : RegNo) (op : VMulOp) (w : Lane) (s : State) :
    exec (.vmul t vd va vb op w) s = execVmul t vd va vb op w s := rfl
@[simp] theorem exec_vshl (t : Tid) (vd va vb : RegNo) (op : VLogOp) (w : Lane) (s : State) :
    exec (.vshl t vd va vb op w) s = execVshl t vd va vb op w s := rfl
@[simp] theorem exec_vperm (t : Tid) (vd va vb : RegNo) (op : VPermOp) (w : Lane) (s : State) :
    exec (.vperm t vd va vb op w) s = execVperm t vd va vb op w s := rfl
@[simp] theorem exec_fadd (t : Tid) (vd va vb : RegNo) (op : FAddOp) (w : FpW) (scalar : Bool) (s : State) :
    exec (.fadd t vd va vb op w scalar) s = execFadd t vd va vb op w scalar s := rfl
@[simp] theorem exec_fmul (t : Tid) (vd va vb : RegNo) (w : FpW) (scalar : Bool) (s : State) :
    exec (.fmul t vd va vb w scalar) s = execFmul t vd va vb w scalar s := rfl
@[simp] theorem exec_fma (t : Tid) (vd va vb vc : RegNo) (w : FpW) (scalar : Bool) (s : State) :
    exec (.fma t vd va vb vc w scalar) s = execFma t vd va vb vc w scalar s := rfl
@[simp] theorem exec_fdiv (t : Tid) (vd va vb : RegNo) (op : FDivOp) (w : FpW) (scalar : Bool) (s : State) :
    exec (.fdiv t vd va vb op w scalar) s = execFdiv t vd va vb op w scalar s := rfl
@[simp] theorem exec_fcvt (t : Tid) (vd va : RegNo) (op : FCvtOp) (scalar : Bool) (s : State) :
    exec (.fcvt t vd va op scalar) s = execFcvt t vd va op scalar s := rfl
@[simp] theorem exec_vmov (t : Tid) (rd ra : RegNo) (op : VMovOp) (w : Lane) (s : State) :
    exec (.vmov t rd ra op w) s = execVmov t rd ra op w s := rfl
@[simp] theorem exec_vred (t : Tid) (vd va : RegNo) (op : VRedOp) (w : Lane) (s : State) :
    exec (.vred t vd va op w) s = execVred t vd va op w s := rfl
@[simp] theorem exec_vaes (t : Tid) (vd va vb : RegNo) (op : AesOp) (s : State) :
    exec (.vaes t vd va vb op) s = execVaes t vd va vb op s := rfl
@[simp] theorem exec_vclmul (t : Tid) (vd va vb : RegNo) (s : State) :
    exec (.vclmul t vd va vb) s = execVclmul t vd va vb s := rfl
@[simp] theorem exec_vsha2 (t : Tid) (vd va vb : RegNo) (op : Sha2Op) (s : State) :
    exec (.vsha2 t vd va vb op) s = execVsha2 t vd va vb op s := rfl
@[simp] theorem exec_vsha3 (t : Tid) (vd va vb : RegNo) (op : Sha3Op) (round : Fin 24) (s : State) :
    exec (.vsha3 t vd va vb op round) s = execVsha3 t vd va vb op round s := rfl
@[simp] theorem exec_vmodma (t : Tid) (vd va vb vc : RegNo) (s : State) :
    exec (.vmodma t vd va vb vc) s = execVmodma t vd va vb vc s := rfl
@[simp] theorem exec_vsel (t : Tid) (vd va vb vc : RegNo) (w : Lane) (s : State) :
    exec (.vsel t vd va vb vc w) s = execVsel t vd va vb vc w s := rfl
@[simp] theorem exec_faultEntry (t : Tid) (src : FaultSource) (s : State) :
    exec (.faultEntry t src) s = execFaultEntry t src s := rfl
@[simp] theorem exec_impreciseReport (t : Tid) (s : State) :
    exec (.impreciseReport t) s = execImpreciseReport t s := rfl
@[simp] theorem exec_interruptEntry (t : Tid) (s : State) :
    exec (.interruptEntry t) s = execInterruptEntry t s := rfl
@[simp] theorem exec_interruptMessage (k : Nat) (s : State) :
    exec (.interruptMessage k) s = execInterruptMessage k s := rfl
@[simp] theorem exec_irqSend (r : Requester) (t : Tid) (v : BitVec 6) (s : State) :
    exec (.irqSend r t v) s = execIrqSend r t v s := rfl
@[simp] theorem exec_mispredictRecovery (x : Mispredict) (s : State) :
    exec (.mispredictRecovery x) s = execMispredictRecovery x s := rfl
@[simp] theorem exec_bulkClear (t : Tid) (s : State) :
    exec (.bulkClear t) s = execBulkClear t s := rfl
@[simp] theorem exec_bulkClearDone (t : Tid) (s : State) :
    exec (.bulkClearDone t) s = execBulkClearDone t s := rfl
@[simp] theorem exec_predClearWrite (r : Requester) (t : Tid) (v : Word) (s : State) :
    exec (.predClearWrite r t v) s = execPredClearWrite r t v s := rfl
@[simp] theorem exec_hardwarePrefetch (t : Tid) (va : Word) (s : State) :
    exec (.hardwarePrefetch t va) s = execHardwarePrefetch t va s := rfl
@[simp] theorem exec_storeRelease (t : Tid) (k : Nat) (s : State) :
    exec (.storeRelease t k) s = execStoreRelease t k s := rfl
@[simp] theorem exec_pageWalk (t : Tid) (va : Word) (s : State) :
    exec (.pageWalk t va) s = execPageWalk t va s := rfl
@[simp] theorem exec_rootWrite (r : Requester) (t : Tid) (second : Bool) (v : Word) (s : State) :
    exec (.rootWrite r t second v) s = execRootWrite r t second v s := rfl
@[simp] theorem exec_slip (t : Tid) (c : SlipClass) (s : State) :
    exec (.slip t c) s = execSlip t c s := rfl
@[simp] theorem exec_fall (t : Tid) (c : SlipClass) (s : State) :
    exec (.fall t c) s = execFall t c s := rfl
@[simp] theorem exec_slipLimitReached (k : Fin 192) (s : State) :
    exec (.slipLimitReached k) s = execSlipLimitReached k s := rfl
@[simp] theorem exec_checkInject (r : Requester) (k : Fin 192) (v : Word) (s : State) :
    exec (.checkInject r k v) s = execCheckInject r k v s := rfl
@[simp] theorem exec_spareChoose (k : Fin 192) (s : State) :
    exec (.spareChoose k) s = execSpareChoose k s := rfl
@[simp] theorem exec_spareRaiseDone (k : Fin 192) (ok : Bool) (s : State) :
    exec (.spareRaiseDone k ok) s = execSpareRaiseDone k ok s := rfl
@[simp] theorem exec_captureDone (k : Fin 192) (s : State) :
    exec (.captureDone k) s = execCaptureDone k s := rfl
@[simp] theorem exec_flushDone (k : Fin 192) (s : State) :
    exec (.flushDone k) s = execFlushDone k s := rfl
@[simp] theorem exec_stateLoadDone (k : Fin 192) (s : State) :
    exec (.stateLoadDone k) s = execStateLoadDone k s := rfl
@[simp] theorem exec_rebindDone (k : Fin 192) (s : State) :
    exec (.rebindDone k) s = execRebindDone k s := rfl
@[simp] theorem exec_spareResume (k : Fin 192) (s : State) :
    exec (.spareResume k) s = execSpareResume k s := rfl
@[simp] theorem exec_soloArrayError (t : Tid) (s : State) :
    exec (.soloArrayError t) s = execSoloArrayError t s := rfl
@[simp] theorem exec_soloUncorrectable (k : Fin 192) (s : State) :
    exec (.soloUncorrectable k) s = execSoloUncorrectable k s := rfl
@[simp] theorem exec_reserveRelease (x : Transport) (k : Fin 192) (seq : BitVec 8) (s : State) :
    exec (.reserveRelease x k seq) s = execReserveRelease x k seq s := rfl
@[simp] theorem exec_reserveReturn (x : Transport) (k : Fin 192) (seq : BitVec 8) (s : State) :
    exec (.reserveReturn x k seq) s = execReserveReturn x k seq s := rfl
@[simp] theorem exec_tagRecovery (u : Uid) (array : Fin 5) (set : Nat) (what : ArrayErr) (s : State) :
    exec (.tagRecovery u array set what) s = execTagRecovery u array set what s := rfl
@[simp] theorem exec_wayDisable (u : Uid) (array : Fin 4) (way : Fin 12) (management : Bool) (s : State) :
    exec (.wayDisable u array way management) s = execWayDisable u array way management s := rfl
@[simp] theorem exec_scratchCfgWrite (r : Requester) (v : Word) (s : State) :
    exec (.scratchCfgWrite r v) s = execScratchCfgWrite r v s := rfl
@[simp] theorem exec_scratchChangeDone (s : State) :
    exec .scratchChangeDone s = execScratchChangeDone s := rfl
@[simp] theorem exec_sliceHold (ix : Fin 96) (drain : Bool) (s : State) :
    exec (.sliceHold ix drain) s = execSliceHold ix drain s := rfl
@[simp] theorem exec_directoryTransferDone (ix : Fin 96) (s : State) :
    exec (.directoryTransferDone ix) s = execDirectoryTransferDone ix s := rfl
@[simp] theorem exec_sliceMapCommit (ix : Fin 96) (s : State) :
    exec (.sliceMapCommit ix) s = execSliceMapCommit ix s := rfl
@[simp] theorem exec_sliceRelease (ix : Fin 96) (s : State) :
    exec (.sliceRelease ix) s = execSliceRelease ix s := rfl
@[simp] theorem exec_substituteBuddyCopyDone (h : Fin 96) (s : State) :
    exec (.substituteBuddyCopyDone h) s = execSubstituteBuddyCopyDone h s := rfl
@[simp] theorem exec_rdS (k : Fin 192) (line : Nat) (prefetch : Bool) (x : LineRead) (s : State) :
    exec (.rdS k line prefetch x) s = execRdS k line prefetch x s := rfl
@[simp] theorem exec_rdO (k : Fin 192) (line : Nat) (s : State) :
    exec (.rdO k line) s = execRdO k line s := rfl
@[simp] theorem exec_upg (k : Fin 192) (line : Nat) (s : State) :
    exec (.upg k line) s = execUpg k line s := rfl
@[simp] theorem exec_rdOnce (r : Reader) (line : Nat) (s : State) :
    exec (.rdOnce r line) s = execRdOnce r line s := rfl
@[simp] theorem exec_wrLine (w : Writer) (line : Nat) (bytes : Vector (BitVec 8) 64) (hint : HintArg) (s : State) :
    exec (.wrLine w line bytes hint) s = execWrLine w line bytes hint s := rfl
@[simp] theorem exec_wrPart (w : Writer) (pa : Nat) (bytes : List (BitVec 8)) (s : State) :
    exec (.wrPart w pa bytes) s = execWrPart w pa bytes s := rfl
@[simp] theorem exec_wb (k : Fin 192) (line : Nat) (s : State) :
    exec (.wb k line) s = execWb k line s := rfl
@[simp] theorem exec_notice (k : Fin 192) (line : Nat) (s : State) :
    exec (.notice k line) s = execNotice k line s := rfl
@[simp] theorem exec_atom (w : Writer) (pa : Nat) (op : HomeAtomic) (wide : Bool) (v : BitVec 128) (s : State) :
    exec (.atom w pa op wide v) s = execAtom w pa op wide v s := rfl
@[simp] theorem exec_snpS (m : Nat) (s : State) :
    exec (.snpS m) s = execSnpS m s := rfl
@[simp] theorem exec_snpO (m : Nat) (s : State) :
    exec (.snpO m) s = execSnpO m s := rfl
@[simp] theorem exec_snpInv (m : Nat) (s : State) :
    exec (.snpInv m) s = execSnpInv m s := rfl
@[simp] theorem exec_stash (m : Nat) (k : Fin 192) (s : State) :
    exec (.stash m k) s = execStash m k s := rfl
@[simp] theorem exec_dupUpd (m : Nat) (s : State) :
    exec (.dupUpd m) s = execDupUpd m s := rfl
@[simp] theorem exec_data (m : Nat) (s : State) :
    exec (.data m) s = execData m s := rfl
@[simp] theorem exec_ack (m : Nat) (s : State) :
    exec (.ack m) s = execAck m s := rfl
@[simp] theorem exec_nack (m : Nat) (s : State) :
    exec (.nack m) s = execNack m s := rfl
@[simp] theorem exec_stale (m : Nat) (s : State) :
    exec (.stale m) s = execStale m s := rfl
@[simp] theorem exec_retry (m : Nat) (s : State) :
    exec (.retry m) s = execRetry m s := rfl
@[simp] theorem exec_noTarget (m : Nat) (s : State) :
    exec (.noTarget m) s = execNoTarget m s := rfl
@[simp] theorem exec_packetHop (k : Nat) (fresh : Option Inject) (s : State) :
    exec (.packetHop k fresh) s = execPacketHop k fresh s := rfl
@[simp] theorem exec_linkReplay (st : Fin 128) (d : Fin 4) (s : State) :
    exec (.linkReplay st d) s = execLinkReplay st d s := rfl
@[simp] theorem exec_livenessToken (st : Fin 128) (d : Fin 4) (s : State) :
    exec (.livenessToken st d) s = execLivenessToken st d s := rfl
@[simp] theorem exec_linkDown (st : Fin 128) (d : Fin 4) (lockLost : Bool) (s : State) :
    exec (.linkDown st d lockLost) s = execLinkDown st d lockLost s := rfl
@[simp] theorem exec_linkOutOfService (st : Fin 128) (d : Fin 4) (s : State) :
    exec (.linkOutOfService st d) s = execLinkOutOfService st d s := rfl
@[simp] theorem exec_routeCommit (changes : List (Nat × Nat × BitVec 64)) (s : State) :
    exec (.routeCommit changes) s = execRouteCommit changes s := rfl
@[simp] theorem exec_quietDrained (s : State) :
    exec .quietDrained s = execQuietDrained s := rfl
@[simp] theorem exec_alternativesReady (links stops : List (Nat × List (Nat × Nat × BitVec 64))) (s : State) :
    exec (.alternativesReady links stops) s = execAlternativesReady links stops s := rfl
@[simp] theorem exec_reroute (isStop : Bool) (n : Nat) (s : State) :
    exec (.reroute isStop n) s = execReroute isStop n s := rfl
@[simp] theorem exec_routeRecompute (s : State) :
    exec .routeRecompute s = execRouteRecompute s := rfl
@[simp] theorem exec_requestTimeout (k : Nat) (s : State) :
    exec (.requestTimeout k) s = execRequestTimeout k s := rfl
@[simp] theorem exec_completerRecordExpiry (k : Nat) (s : State) :
    exec (.completerRecordExpiry k) s = execCompleterRecordExpiry k s := rfl
@[simp] theorem exec_mcCommandIssue (c : Fin 16) (sub : Bool) (allowed : List DramCmd) (pat mpat : ErrPat) (draw : BitVec 16) (s : State) :
    exec (.mcCommandIssue c sub allowed pat mpat draw) s = execMcCommandIssue c sub allowed pat mpat draw s := rfl
@[simp] theorem exec_refreshDue (c : Fin 16) (rank : Fin 4) (hot : Bool) (s : State) :
    exec (.refreshDue c rank hot) s = execRefreshDue c rank hot s := rfl
@[simp] theorem exec_driftTracking (c : Fin 16) (writes : List (Nat × Nat × BitVec 64)) (s : State) :
    exec (.driftTracking c writes) s = execDriftTracking c writes s := rfl
@[simp] theorem exec_frequencyChange (r : Requester) (c : Fin 16) (v : Word) (s : State) :
    exec (.frequencyChange r c v) s = execFrequencyChange r c v s := rfl
@[simp] theorem exec_frequencyChangeDone (c : Fin 16) (rate : BitVec 12) (s : State) :
    exec (.frequencyChangeDone c rate) s = execFrequencyChangeDone c rate s := rfl
@[simp] theorem exec_channelFailure (c : Fin 16) (s : State) :
    exec (.channelFailure c) s = execChannelFailure c s := rfl
@[simp] theorem exec_rankMigrationStart (c : Fin 16) (rank : Fin 4) (s : State) :
    exec (.rankMigrationStart c rank) s = execRankMigrationStart c rank s := rfl
@[simp] theorem exec_migrationCopy (c : Fin 16) (pat mpat : ErrPat) (s : State) :
    exec (.migrationCopy c pat mpat) s = execMigrationCopy c pat mpat s := rfl
@[simp] theorem exec_migrationDone (c : Fin 16) (s : State) :
    exec (.migrationDone c) s = execMigrationDone c s := rfl
@[simp] theorem exec_gleanerRead (c : Fin 16) (pat mpat : ErrPat) (s : State) :
    exec (.gleanerRead c pat mpat) s = execGleanerRead c pat mpat s := rfl
@[simp] theorem exec_spareRankTest (c : Fin 16) (good : Bool) (s : State) :
    exec (.spareRankTest c good) s = execSpareRankTest c good s := rfl
@[simp] theorem exec_cxlLinkLoss (l : Fin 16) (s : State) :
    exec (.cxlLinkLoss l) s = execCxlLinkLoss l s := rfl
@[simp] theorem exec_cxlLinkTrain (o : Fin 32) (ok : Bool) (s : State) :
    exec (.cxlLinkTrain o ok) s = execCxlLinkTrain o ok s := rfl
@[simp] theorem exec_hostCompletion (p : Fin 16) (tag : Fin 1024) (count : Nat) (lower : BitVec 7) (c : Cpl) (s : State) :
    exec (.hostCompletion p tag count lower c) s = execHostCompletion p tag count lower c s := rfl
@[simp] theorem exec_completionTimeout (p : Fin 16) (tag : Fin 1024) (s : State) :
    exec (.completionTimeout p tag) s = execCompletionTimeout p tag s := rfl
@[simp] theorem exec_quarantineExpiry (p : Fin 16) (tag : Fin 1024) (s : State) :
    exec (.quarantineExpiry p tag) s = execQuarantineExpiry p tag s := rfl
@[simp] theorem exec_tagWaitTimeout (p : Fin 16) (k : Nat) (s : State) :
    exec (.tagWaitTimeout p k) s = execTagWaitTimeout p k s := rfl
@[simp] theorem exec_busMasterDisable (p : Fin 16) (ix : Fin 64) (s : State) :
    exec (.busMasterDisable p ix) s = execBusMasterDisable p ix s := rfl
@[simp] theorem exec_busMasterEnable (p : Fin 16) (ix : Fin 64) (s : State) :
    exec (.busMasterEnable p ix) s = execBusMasterEnable p ix s := rfl
@[simp] theorem exec_functionLevelReset (p : Fin 16) (ix : Fin 64) (finish : Bool) (s : State) :
    exec (.functionLevelReset p ix finish) s = execFunctionLevelReset p ix finish s := rfl
@[simp] theorem exec_portReset (p : Fin 16) (why : PortResetKind) (s : State) :
    exec (.portReset p why) s = execPortReset p why s := rfl
@[simp] theorem exec_portReady (p : Fin 16) (s : State) :
    exec (.portReady p) s = execPortReady p s := rfl
@[simp] theorem exec_portFreeze (p : Fin 16) (why : FreezeCause) (s : State) :
    exec (.portFreeze p why) s = execPortFreeze p why s := rfl
@[simp] theorem exec_outboundStall (p : Fin 16) (s : State) :
    exec (.outboundStall p) s = execOutboundStall p s := rfl
@[simp] theorem exec_freezeWrite (r : Requester) (p : Fin 16) (s : State) :
    exec (.freezeWrite r p) s = execFreezeWrite r p s := rfl
@[simp] theorem exec_releaseWrite (r : Requester) (p : Fin 16) (s : State) :
    exec (.releaseWrite r p) s = execReleaseWrite r p s := rfl
@[simp] theorem exec_autoRelease (p : Fin 16) (s : State) :
    exec (.autoRelease p) s = execAutoRelease p s := rfl
@[simp] theorem exec_msixVectorSend (p : Fin 16) (ix : Fin 64) (v : Fin 1024) (s : State) :
    exec (.msixVectorSend p ix v) s = execMsixVectorSend p ix v s := rfl
@[simp] theorem exec_doorbellWrite (r : Requester) (g : Fin 8192) (off : BitVec 6) (wide : Bool) (v : Word) (s : State) :
    exec (.doorbellWrite r g off wide v) s = execDoorbellWrite r g off wide v s := rfl
@[simp] theorem exec_doorbellPoll (g : Fin 8192) (s : State) :
    exec (.doorbellPoll g) s = execDoorbellPoll g s := rfl
@[simp] theorem exec_refresh (r : Requester) (g : Fin 8192) (s : State) :
    exec (.refresh r g) s = execRefresh r g s := rfl
@[simp] theorem exec_chanStart (r : Requester) (g : Fin 8192) (s : State) :
    exec (.chanStart r g) s = execChanStart r g s := rfl
@[simp] theorem exec_chanStop (r : Requester) (g : Fin 8192) (s : State) :
    exec (.chanStop r g) s = execChanStop r g s := rfl
@[simp] theorem exec_abort (r : Requester) (g : Fin 8192) (s : State) :
    exec (.abort r g) s = execAbort r g s := rfl
@[simp] theorem exec_flush (r : Requester) (g : Fin 8192) (s : State) :
    exec (.flush r g) s = execFlush r g s := rfl
@[simp] theorem exec_chanReset (r : Requester) (g : Fin 8192) (s : State) :
    exec (.chanReset r g) s = execChanReset r g s := rfl
@[simp] theorem exec_channelStopped (g : Fin 8192) (s : State) :
    exec (.channelStopped g) s = execChannelStopped g s := rfl
@[simp] theorem exec_descriptorStart (f : Fin 4) (s : State) :
    exec (.descriptorStart f) s = execDescriptorStart f s := rfl
@[simp] theorem exec_descriptorComplete (g : Fin 8192) (s : State) :
    exec (.descriptorComplete g) s = execDescriptorComplete g s := rfl
@[simp] theorem exec_irqTimeTrigger (g : Fin 8192) (s : State) :
    exec (.irqTimeTrigger g) s = execIrqTimeTrigger g s := rfl
@[simp] theorem exec_liveWordWrite (g : Fin 8192) (s : State) :
    exec (.liveWordWrite g) s = execLiveWordWrite g s := rfl
@[simp] theorem exec_descNop (g : Fin 8192) (slot : Fin 32768) (s : State) :
    exec (.descNop g slot) s = execDescNop g slot s := rfl
@[simp] theorem exec_descFence (g : Fin 8192) (slot : Fin 32768) (s : State) :
    exec (.descFence g slot) s = execDescFence g slot s := rfl
@[simp] theorem exec_descWait (g : Fin 8192) (slot : Fin 32768) (s : State) :
    exec (.descWait g slot) s = execDescWait g slot s := rfl
@[simp] theorem exec_executionTimeout (g : Fin 8192) (slot : Fin 32768) (s : State) :
    exec (.executionTimeout g slot) s = execExecutionTimeout g slot s := rfl
@[simp] theorem exec_dCopy (g : Fin 8192) (slot : Fin 32768) (s : State) :
    exec (.dCopy g slot) s = execDCopy g slot s := rfl
@[simp] theorem exec_dGather (g : Fin 8192) (slot : Fin 32768) (s : State) :
    exec (.dGather g slot) s = execDGather g slot s := rfl
@[simp] theorem exec_dScatter (g : Fin 8192) (slot : Fin 32768) (s : State) :
    exec (.dScatter g slot) s = execDScatter g slot s := rfl
@[simp] theorem exec_dFill (g : Fin 8192) (slot : Fin 32768) (s : State) :
    exec (.dFill g slot) s = execDFill g slot s := rfl
@[simp] theorem exec_dCrc (g : Fin 8192) (slot : Fin 32768) (s : State) :
    exec (.dCrc g slot) s = execDCrc g slot s := rfl
@[simp] theorem exec_dCompare (g : Fin 8192) (slot : Fin 32768) (s : State) :
    exec (.dCompare g slot) s = execDCompare g slot s := rfl
@[simp] theorem exec_dCopyCrc (g : Fin 8192) (slot : Fin 32768) (s : State) :
    exec (.dCopyCrc g slot) s = execDCopyCrc g slot s := rfl
@[simp] theorem exec_moveElement (g : Fin 8192) (slot : Fin 32768) (s : State) :
    exec (.moveElement g slot) s = execMoveElement g slot s := rfl
@[simp] theorem exec_engineMismatch (f : Fin 4) (key : Bool) (k : Fin 2) (s : State) :
    exec (.engineMismatch f key k) s = execEngineMismatch f key k s := rfl
@[simp] theorem exec_msg (g : Fin 8192) (slot : Fin 32768) (s : State) :
    exec (.msg g slot) s = execMsg g slot s := rfl
@[simp] theorem exec_msgi (g : Fin 8192) (slot : Fin 32768) (s : State) :
    exec (.msgi g slot) s = execMsgi g slot s := rfl
@[simp] theorem exec_queueHeadRecheck (f : Fin 4) (q : Fin 256) (s : State) :
    exec (.queueHeadRecheck f q) s = execQueueHeadRecheck f q s := rfl
@[simp] theorem exec_serviceQueueEnable (r : Requester) (f : Fin 4) (q : Fin 256) (v : Word) (s : State) :
    exec (.serviceQueueEnable r f q v) s = execServiceQueueEnable r f q v s := rfl
@[simp] theorem exec_aesEcb (g : Fin 8192) (slot : Fin 32768) (s : State) :
    exec (.aesEcb g slot) s = execAesEcb g slot s := rfl
@[simp] theorem exec_aesCbc (g : Fin 8192) (slot : Fin 32768) (s : State) :
    exec (.aesCbc g slot) s = execAesCbc g slot s := rfl
@[simp] theorem exec_aesCtr (g : Fin 8192) (slot : Fin 32768) (s : State) :
    exec (.aesCtr g slot) s = execAesCtr g slot s := rfl
@[simp] theorem exec_aesGcm (g : Fin 8192) (slot : Fin 32768) (s : State) :
    exec (.aesGcm g slot) s = execAesGcm g slot s := rfl
@[simp] theorem exec_aesCmac (g : Fin 8192) (slot : Fin 32768) (s : State) :
    exec (.aesCmac g slot) s = execAesCmac g slot s := rfl
@[simp] theorem exec_tdea (g : Fin 8192) (slot : Fin 32768) (s : State) :
    exec (.tdea g slot) s = execTdea g slot s := rfl
@[simp] theorem exec_sha2 (g : Fin 8192) (slot : Fin 32768) (s : State) :
    exec (.sha2 g slot) s = execSha2 g slot s := rfl
@[simp] theorem exec_sha3 (g : Fin 8192) (slot : Fin 32768) (s : State) :
    exec (.sha3 g slot) s = execSha3 g slot s := rfl
@[simp] theorem exec_hmac (g : Fin 8192) (slot : Fin 32768) (s : State) :
    exec (.hmac g slot) s = execHmac g slot s := rfl
@[simp] theorem exec_random (g : Fin 8192) (slot : Fin 32768) (s : State) :
    exec (.random g slot) s = execRandom g slot s := rfl
@[simp] theorem exec_rsaPrivate (g : Fin 8192) (slot : Fin 32768) (s : State) :
    exec (.rsaPrivate g slot) s = execRsaPrivate g slot s := rfl
@[simp] theorem exec_rsaPublic (g : Fin 8192) (slot : Fin 32768) (s : State) :
    exec (.rsaPublic g slot) s = execRsaPublic g slot s := rfl
@[simp] theorem exec_ecdsaSign (g : Fin 8192) (slot : Fin 32768) (s : State) :
    exec (.ecdsaSign g slot) s = execEcdsaSign g slot s := rfl
@[simp] theorem exec_ecdsaVerify (g : Fin 8192) (slot : Fin 32768) (s : State) :
    exec (.ecdsaVerify g slot) s = execEcdsaVerify g slot s := rfl
@[simp] theorem exec_ecdh (g : Fin 8192) (slot : Fin 32768) (s : State) :
    exec (.ecdh g slot) s = execEcdh g slot s := rfl
@[simp] theorem exec_ed25519Sign (g : Fin 8192) (slot : Fin 32768) (s : State) :
    exec (.ed25519Sign g slot) s = execEd25519Sign g slot s := rfl
@[simp] theorem exec_ed25519Verify (g : Fin 8192) (slot : Fin 32768) (s : State) :
    exec (.ed25519Verify g slot) s = execEd25519Verify g slot s := rfl
@[simp] theorem exec_x25519 (g : Fin 8192) (slot : Fin 32768) (s : State) :
    exec (.x25519 g slot) s = execX25519 g slot s := rfl
@[simp] theorem exec_mlKemEncapsulate (g : Fin 8192) (slot : Fin 32768) (s : State) :
    exec (.mlKemEncapsulate g slot) s = execMlKemEncapsulate g slot s := rfl
@[simp] theorem exec_mlKemDecapsulate (g : Fin 8192) (slot : Fin 32768) (s : State) :
    exec (.mlKemDecapsulate g slot) s = execMlKemDecapsulate g slot s := rfl
@[simp] theorem exec_mlDsaSign (g : Fin 8192) (slot : Fin 32768) (s : State) :
    exec (.mlDsaSign g slot) s = execMlDsaSign g slot s := rfl
@[simp] theorem exec_mlDsaVerify (g : Fin 8192) (slot : Fin 32768) (s : State) :
    exec (.mlDsaVerify g slot) s = execMlDsaVerify g slot s := rfl
@[simp] theorem exec_pinTranslate (g : Fin 8192) (slot : Fin 32768) (s : State) :
    exec (.pinTranslate g slot) s = execPinTranslate g slot s := rfl
@[simp] theorem exec_keyOperationEnd (g : Fin 8192) (slot : Fin 32768) (s : State) :
    exec (.keyOperationEnd g slot) s = execKeyOperationEnd g slot s := rfl
@[simp] theorem exec_engineRestart (f : Fin 4) (key : Bool) (k : Fin 2) (selfTest : Option Bool) (s : State) :
    exec (.engineRestart f key k selfTest) s = execEngineRestart f key k selfTest s := rfl
@[simp] theorem exec_ucodeStageWrite (r : Requester) (f : Fin 4) (k : Fin 2) (w : Fin 8192) (v : Word) (s : State) :
    exec (.ucodeStageWrite r f k w v) s = execUcodeStageWrite r f k w v s := rfl
@[simp] theorem exec_ucodeCommit (r : Requester) (f : Fin 4) (k : Fin 2) (v : Word) (s : State) :
    exec (.ucodeCommit r f k v) s = execUcodeCommit r f k v s := rfl
@[simp] theorem exec_ucodeDiscard (r : Requester) (f : Fin 4) (k : Fin 2) (v : Word) (s : State) :
    exec (.ucodeDiscard r f k v) s = execUcodeDiscard r f k v s := rfl
@[simp] theorem exec_ucodeCheckDone (f : Fin 4) (k : Fin 2) (s : State) :
    exec (.ucodeCheckDone f k) s = execUcodeCheckDone f k s := rfl
@[simp] theorem exec_ucodeApply (f : Fin 4) (k : Fin 2) (s : State) :
    exec (.ucodeApply f k) s = execUcodeApply f k s := rfl
@[simp] theorem exec_floorWindow (p : Fin 16) (s : State) :
    exec (.floorWindow p) s = execFloorWindow p s := rfl
@[simp] theorem exec_mbxSend (p : Fin 16) (ix : Fin 64) (s : State) :
    exec (.mbxSend p ix) s = execMbxSend p ix s := rfl
@[simp] theorem exec_mbxAck (p : Fin 16) (ix : Fin 64) (s : State) :
    exec (.mbxAck p ix) s = execMbxAck p ix s := rfl
@[simp] theorem exec_mgrSend (r : Requester) (p : Fin 16) (ix : Fin 64) (s : State) :
    exec (.mgrSend r p ix) s = execMgrSend r p ix s := rfl
@[simp] theorem exec_mgrAck (r : Requester) (p : Fin 16) (ix : Fin 64) (s : State) :
    exec (.mgrAck r p ix) s = execMgrAck r p ix s := rfl
@[simp] theorem exec_quiesce (r : Requester) (p : Fin 16) (ix : Fin 64) (drain : BitVec 2) (s : State) :
    exec (.quiesce r p ix drain) s = execQuiesce r p ix drain s := rfl
@[simp] theorem exec_freeze (r : Requester) (p : Fin 16) (ix : Fin 64) (drain : BitVec 2) (s : State) :
    exec (.freeze r p ix drain) s = execFreeze r p ix drain s := rfl
@[simp] theorem exec_instanceReset (r : Requester) (p : Fin 16) (ix : Fin 64) (drain : BitVec 2) (s : State) :
    exec (.instanceReset r p ix drain) s = execInstanceReset r p ix drain s := rfl
@[simp] theorem exec_save (r : Requester) (p : Fin 16) (ix : Fin 64) (drain : BitVec 2) (s : State) :
    exec (.save r p ix drain) s = execSave r p ix drain s := rfl
@[simp] theorem exec_restore (r : Requester) (p : Fin 16) (ix : Fin 64) (drain : BitVec 2) (s : State) :
    exec (.restore r p ix drain) s = execRestore r p ix drain s := rfl
@[simp] theorem exec_resume (r : Requester) (p : Fin 16) (ix : Fin 64) (drain : BitVec 2) (s : State) :
    exec (.resume r p ix drain) s = execResume r p ix drain s := rfl
@[simp] theorem exec_quiesceDone (p : Fin 16) (ix : Fin 64) (s : State) :
    exec (.quiesceDone p ix) s = execQuiesceDone p ix s := rfl
@[simp] theorem exec_freezeDone (p : Fin 16) (ix : Fin 64) (s : State) :
    exec (.freezeDone p ix) s = execFreezeDone p ix s := rfl
@[simp] theorem exec_writeLogEntry (p : Fin 16) (ix : Fin 64) (page : BitVec 52) (s : State) :
    exec (.writeLogEntry p ix page) s = execWriteLogEntry p ix page s := rfl
@[simp] theorem exec_writeLogHeadWrite (r : Requester) (p : Fin 16) (ix : Fin 64) (v : Word) (s : State) :
    exec (.writeLogHeadWrite r p ix v) s = execWriteLogHeadWrite r p ix v s := rfl
@[simp] theorem exec_frameReceive (b : Fin 64) (x : RxFrame) (fcsOk : Bool) (s : State) :
    exec (.frameReceive b x fcsOk) s = execFrameReceive b x fcsOk s := rfl
@[simp] theorem exec_learn (s : State) :
    exec .learn s = execLearn s := rfl
@[simp] theorem exec_fdbChange (io : Fin 8) (s : State) :
    exec (.fdbChange io) s = execFdbChange io s := rfl
@[simp] theorem exec_fdbAging (vid : BitVec 12) (mac : BitVec 48) (s : State) :
    exec (.fdbAging vid mac) s = execFdbAging vid mac s := rfl
@[simp] theorem exec_fdbAddStatic (r : Requester) (v : Word) (s : State) :
    exec (.fdbAddStatic r v) s = execFdbAddStatic r v s := rfl
@[simp] theorem exec_fdbDelete (r : Requester) (v : Word) (s : State) :
    exec (.fdbDelete r v) s = execFdbDelete r v s := rfl
@[simp] theorem exec_fdbUnlock (r : Requester) (v : Word) (s : State) :
    exec (.fdbUnlock r v) s = execFdbUnlock r v s := rfl
@[simp] theorem exec_fdbFlushPort (r : Requester) (v : Word) (s : State) :
    exec (.fdbFlushPort r v) s = execFdbFlushPort r v s := rfl
@[simp] theorem exec_vlanReload (r : Requester) (v : Word) (s : State) :
    exec (.vlanReload r v) s = execVlanReload r v s := rfl
@[simp] theorem exec_masterReload (s : State) :
    exec .masterReload s = execMasterReload s := rfl
@[simp] theorem exec_statisticsWindow (b : Fin 64) (s : State) :
    exec (.statisticsWindow b) s = execStatisticsWindow b s := rfl
@[simp] theorem exec_pfcXon (b : Fin 64) (prio : Fin 8) (s : State) :
    exec (.pfcXon b prio) s = execPfcXon b prio s := rfl
@[simp] theorem exec_frameTransmit (b : Fin 64) (s : State) :
    exec (.frameTransmit b) s = execFrameTransmit b s := rfl
@[simp] theorem exec_tx (g : Fin 8192) (slot : Fin 32768) (s : State) :
    exec (.tx g slot) s = execTx g slot s := rfl
@[simp] theorem exec_rxbuf (g : Fin 8192) (slot : Fin 32768) (s : State) :
    exec (.rxbuf g slot) s = execRxbuf g slot s := rfl
@[simp] theorem exec_txsg (g : Fin 8192) (slot : Fin 32768) (s : State) :
    exec (.txsg g slot) s = execTxsg g slot s := rfl
@[simp] theorem exec_frameDeliver (v : Fin 960) (s : State) :
    exec (.frameDeliver v) s = execFrameDeliver v s := rfl
@[simp] theorem exec_losslessHoldExpiry (v : Fin 960) (s : State) :
    exec (.losslessHoldExpiry v) s = execLosslessHoldExpiry v s := rfl
@[simp] theorem exec_networkLinkDown (b : Fin 64) (s : State) :
    exec (.networkLinkDown b) s = execNetworkLinkDown b s := rfl
@[simp] theorem exec_networkLinkUp (b : Fin 64) (s : State) :
    exec (.networkLinkUp b) s = execNetworkLinkUp b s := rfl
@[simp] theorem exec_downHoldExpiry (b : Fin 64) (s : State) :
    exec (.downHoldExpiry b) s = execDownHoldExpiry b s := rfl
@[simp] theorem exec_worldSwitch (r : Requester) (v : Word) (s : State) :
    exec (.worldSwitch r v) s = execWorldSwitch r v s := rfl
@[simp] theorem exec_worldSwitchDone (s : State) :
    exec .worldSwitchDone s = execWorldSwitchDone s := rfl
@[simp] theorem exec_heartbeat (r : Requester) (v : Word) (s : State) :
    exec (.heartbeat r v) s = execHeartbeat r v s := rfl
@[simp] theorem exec_trustedGroupFailure (s : State) :
    exec .trustedGroupFailure s = execTrustedGroupFailure s := rfl
@[simp] theorem exec_groupRestart (s : State) :
    exec .groupRestart s = execGroupRestart s := rfl
@[simp] theorem exec_groupRestartDone (s : State) :
    exec .groupRestartDone s = execGroupRestartDone s := rfl
@[simp] theorem exec_measurementExtend (r : Requester) (v : Word) (s : State) :
    exec (.measurementExtend r v) s = execMeasurementExtend r v s := rfl
@[simp] theorem exec_load (r : Requester) (v : Word) (s : State) :
    exec (.load r v) s = execLoad r v s := rfl
@[simp] theorem exec_generate (r : Requester) (v : Word) (s : State) :
    exec (.generate r v) s = execGenerate r v s := rfl
@[simp] theorem exec_clear (r : Requester) (v : Word) (s : State) :
    exec (.clear r v) s = execClear r v s := rfl
@[simp] theorem exec_publicPart (r : Requester) (v : Word) (s : State) :
    exec (.publicPart r v) s = execPublicPart r v s := rfl
@[simp] theorem exec_provision (r : Requester) (v : Word) (s : State) :
    exec (.provision r v) s = execProvision r v s := rfl
@[simp] theorem exec_tamperDetect (cause : BitVec 8) (s : State) :
    exec (.tamperDetect cause) s = execTamperDetect cause s := rfl
@[simp] theorem exec_counterIncrement (r : Requester) (v : Word) (s : State) :
    exec (.counterIncrement r v) s = execCounterIncrement r v s := rfl
@[simp] theorem exec_bcHeartbeat (s : State) :
    exec .bcHeartbeat s = execBcHeartbeat s := rfl
@[simp] theorem exec_bcTakeover (why : Takeover) (s : State) :
    exec (.bcTakeover why) s = execBcTakeover why s := rfl
@[simp] theorem exec_bcCoreRejoin (ok : Bool) (s : State) :
    exec (.bcCoreRejoin ok) s = execBcCoreRejoin ok s := rfl
@[simp] theorem exec_sensorPoll (x : Polled) (s : State) :
    exec (.sensorPoll x) s = execSensorPoll x s := rfl
@[simp] theorem exec_powerDistribution (now other : Nat) (x : PowerSplit) (s : State) :
    exec (.powerDistribution now other x) s = execPowerDistribution now other x s := rfl
@[simp] theorem exec_powerBrake (s : State) :
    exec .powerBrake s = execPowerBrake s := rfl
@[simp] theorem exec_powerBrakeRelease (s : State) :
    exec .powerBrakeRelease s = execPowerBrakeRelease s := rfl
@[simp] theorem exec_logRingCopy (s : State) :
    exec .logRingCopy s = execLogRingCopy s := rfl
@[simp] theorem exec_logFlashAppend (s : State) :
    exec .logFlashAppend s = execLogFlashAppend s := rfl
@[simp] theorem exec_mctpControl (x : Transport) (type : BitVec 8) (body : List Byte) (s : State) :
    exec (.mctpControl x type body) s = execMctpControl x type body s := rfl
@[simp] theorem exec_logbookRead (x : Transport) (seq count : Nat) (s : State) :
    exec (.logbookRead x seq count) s = execLogbookRead x seq count s := rfl
@[simp] theorem exec_pldmRequest (x : Transport) (q : PldmQuery) (s : State) :
    exec (.pldmRequest x q) s = execPldmRequest x q s := rfl
@[simp] theorem exec_pldmResetRequest (x : Transport) (powerDown : Bool) (s : State) :
    exec (.pldmResetRequest x powerDown) s = execPldmResetRequest x powerDown s := rfl
@[simp] theorem exec_firmwareUpdate (x : Transport) (image : Image) (s : State) :
    exec (.firmwareUpdate x image) s = execFirmwareUpdate x image s := rfl
@[simp] theorem exec_updateRollback (s : State) :
    exec .updateRollback s = execUpdateRollback s := rfl
@[simp] theorem exec_patchSetLoad (x : Transport) (version : Nat) (verifies : Bool) (compatibleWith : List Nat) (s : State) :
    exec (.patchSetLoad x version verifies compatibleWith) s = execPatchSetLoad x version verifies compatibleWith s := rfl
@[simp] theorem exec_patchApply (k : Fin 192) (s : State) :
    exec (.patchApply k) s = execPatchApply k s := rfl
@[simp] theorem exec_trustedComponentStage (x : Transport) (cls : Nat) (version : Nat) (body : List Byte) (s : State) :
    exec (.trustedComponentStage x cls version body) s = execTrustedComponentStage x cls version body s := rfl
@[simp] theorem exec_trustedOutcome (s : State) :
    exec .trustedOutcome s = execTrustedOutcome s := rfl
@[simp] theorem exec_getVersion (x : Transport) (s : State) :
    exec (.getVersion x) s = execGetVersion x s := rfl
@[simp] theorem exec_getCapabilities (x : Transport) (s : State) :
    exec (.getCapabilities x) s = execGetCapabilities x s := rfl
@[simp] theorem exec_negotiateAlgorithms (x : Transport) (s : State) :
    exec (.negotiateAlgorithms x) s = execNegotiateAlgorithms x s := rfl
@[simp] theorem exec_getDigests (x : Transport) (s : State) :
    exec (.getDigests x) s = execGetDigests x s := rfl
@[simp] theorem exec_getCertificate (x : Transport) (slot : Nat) (offset length : Nat) (s : State) :
    exec (.getCertificate x slot offset length) s = execGetCertificate x slot offset length s := rfl
@[simp] theorem exec_challenge (x : Transport) (slot : Nat) (nonce : List Byte) (s : State) :
    exec (.challenge x slot nonce) s = execChallenge x slot nonce s := rfl
@[simp] theorem exec_getMeasurements (x : Transport) (block : Nat) (nonce : List Byte) (s : State) :
    exec (.getMeasurements x block nonce) s = execGetMeasurements x block nonce s := rfl
@[simp] theorem exec_viewSweep (s : State) :
    exec .viewSweep s = execViewSweep s := rfl
@[simp] theorem exec_unitCommandRequest (x : Transport) (u : Uid) (seq : BitVec 8) (ask : UnitAsk) (s : State) :
    exec (.unitCommandRequest x u seq ask) s = execUnitCommandRequest x u seq ask s := rfl
@[simp] theorem exec_withdrawalStoreAppend (s : State) :
    exec .withdrawalStoreAppend s = execWithdrawalStoreAppend s := rfl
@[simp] theorem exec_reinstateRequest (x : Transport) (u : Uid) (seq : BitVec 8) (s : State) :
    exec (.reinstateRequest x u seq) s = execReinstateRequest x u seq s := rfl
@[simp] theorem exec_boardInputChange (ix : BoardInput) (level : Bool) (s : State) :
    exec (.boardInputChange ix level) s = execBoardInputChange ix level s := rfl
@[simp] theorem exec_hostPresenceLoss (p : Fin 16) (s : State) :
    exec (.hostPresenceLoss p) s = execHostPresenceLoss p s := rfl
@[simp] theorem exec_engineStopFailure (f : Fin 4) (s : State) :
    exec (.engineStopFailure f) s = execEngineStopFailure f s := rfl
@[simp] theorem exec_channelRestart (c : Fin 16) (s : State) :
    exec (.channelRestart c) s = execChannelRestart c s := rfl
@[simp] theorem exec_resilverDone (c : Fin 16) (s : State) :
    exec (.resilverDone c) s = execResilverDone c s := rfl
@[simp] theorem exec_flashRewrite (s : State) :
    exec .flashRewrite s = execFlashRewrite s := rfl
@[simp] theorem exec_reserveRefill (x : Transport) (ix : Fin 96) (seq : BitVec 8) (s : State) :
    exec (.reserveRefill x ix seq) s = execReserveRefill x ix seq s := rfl
@[simp] theorem exec_powerGoodStandby (s : State) :
    exec .powerGoodStandby s = execPowerGoodStandby s := rfl
@[simp] theorem exec_stageS1 (s : State) :
    exec .stageS1 s = execStageS1 s := rfl
@[simp] theorem exec_stageS2 (aOk bOk : Bool) (s : State) :
    exec (.stageS2 aOk bOk) s = execStageS2 aOk bOk s := rfl
@[simp] theorem exec_stageS3 (doms : List DomId) (units : List Uid) (s : State) :
    exec (.stageS3 doms units) s = execStageS3 doms units s := rfl
@[simp] theorem exec_stageS4 (s : State) :
    exec .stageS4 s = execStageS4 s := rfl
@[simp] theorem exec_stageS5 (groupFails : Bool) (s : State) :
    exec (.stageS5 groupFails) s = execStageS5 groupFails s := rfl
@[simp] theorem exec_stageS6 (s : State) :
    exec .stageS6 s = execStageS6 s := rfl
@[simp] theorem exec_stageS7 (s : State) :
    exec .stageS7 s = execStageS7 s := rfl
@[simp] theorem exec_mainPowerTimeout (s : State) :
    exec .mainPowerTimeout s = execMainPowerTimeout s := rfl
@[simp] theorem exec_memoryTranche (s : State) :
    exec .memoryTranche s = execMemoryTranche s := rfl
@[simp] theorem exec_minSvnBurn (s : State) :
    exec .minSvnBurn s = execMinSvnBurn s := rfl
@[simp] theorem exec_threadStart (r : Requester) (t : Tid) (v : Word) (s : State) :
    exec (.threadStart r t v) s = execThreadStart r t v s := rfl
@[simp] theorem exec_deviceReset (cause : BitVec 4) (s : State) :
    exec (.deviceReset cause) s = execDeviceReset cause s := rfl
@[simp] theorem exec_powerDown (s : State) :
    exec .powerDown s = execPowerDown s := rfl
@[simp] theorem exec_coreReset (k : Fin 192) (s : State) :
    exec (.coreReset k) s = execCoreReset k s := rfl
@[simp] theorem exec_tileReset (ix : Fin 96) (s : State) :
    exec (.tileReset ix) s = execTileReset ix s := rfl
@[simp] theorem exec_sheafReset (h : Fin 24) (s : State) :
    exec (.sheafReset h) s = execSheafReset h s := rfl
@[simp] theorem exec_fieldReset (f : Fin 4) (s : State) :
    exec (.fieldReset f) s = execFieldReset f s := rfl
@[simp] theorem exec_counterWindow (u : Uid) (s : State) :
    exec (.counterWindow u) s = execCounterWindow u s := rfl
@[simp] theorem exec_sampleRecord (t : Tid) (x : Sampled) (s : State) :
    exec (.sampleRecord t x) s = execSampleRecord t x s := rfl
@[simp] theorem exec_traceRecord (t : Tid) (x : Traced) (room : Bool) (s : State) :
    exec (.traceRecord t x room) s = execTraceRecord t x room s := rfl
@[simp] theorem exec_tapBypass (s : State) :
    exec .tapBypass s = execTapBypass s := rfl
@[simp] theorem exec_tapIdcode (s : State) :
    exec .tapIdcode s = execTapIdcode s := rfl
@[simp] theorem exec_tapSample (pins : List Bool) (s : State) :
    exec (.tapSample pins) s = execTapSample pins s := rfl
@[simp] theorem exec_tapPreload (x : TapScan) (s : State) :
    exec (.tapPreload x) s = execTapPreload x s := rfl
@[simp] theorem exec_tapExtest (s : State) :
    exec .tapExtest s = execTapExtest s := rfl
@[simp] theorem exec_tapClamp (s : State) :
    exec .tapClamp s = execTapClamp s := rfl
@[simp] theorem exec_tapHighz (s : State) :
    exec .tapHighz s = execTapHighz s := rfl
@[simp] theorem exec_tapExtestPulse (s : State) :
    exec .tapExtestPulse s = execTapExtestPulse s := rfl
@[simp] theorem exec_tapExtestTrain (s : State) :
    exec .tapExtestTrain s = execTapExtestTrain s := rfl
@[simp] theorem exec_nonceRequest (x : Transport) (s : State) :
    exec (.nonceRequest x) s = execNonceRequest x s := rfl
@[simp] theorem exec_debugToken (x : Transport) (body : List Byte) (sigOk keysOk : Bool) (s : State) :
    exec (.debugToken x body sigOk keysOk) s = execDebugToken x body sigOk keysOk s := rfl
@[simp] theorem exec_debugClear (x : Transport) (s : State) :
    exec (.debugClear x) s = execDebugClear x s := rfl
@[simp] theorem exec_tokenExpiry (s : State) :
    exec .tokenExpiry s = execTokenExpiry s := rfl
@[simp] theorem exec_observeSelect (r : Requester) (k : Fin 32) (v : Word) (s : State) :
    exec (.observeSelect r k v) s = execObserveSelect r k v s := rfl
@[simp] theorem exec_dataLinkUp (p : Fin 16) (width : Fin 32) (speed : Fin 8) (flit : Bool) (s : State) :
    exec (.dataLinkUp p width speed flit) s = execDataLinkUp p width speed flit s := rfl
@[simp] theorem exec_perstDeassertion (p : Fin 16) (s : State) :
    exec (.perstDeassertion p) s = execPerstDeassertion p s := rfl
@[simp] theorem exec_configurationWrite (p : Fin 16) (ix : Fin 64) (w : CfgWrite) (s : State) :
    exec (.configurationWrite p ix w) s = execConfigurationWrite p ix w s := rfl
@[simp] theorem exec_pauseExpiry (b : Fin 64) (prio : Fin 8) (s : State) :
    exec (.pauseExpiry b prio) s = execPauseExpiry b prio s := rfl
@[simp] theorem exec_slewComplete (s : State) :
    exec .slewComplete s = execSlewComplete s := rfl
@[simp] theorem exec_standbyPowerLoss (s : State) :
    exec .standbyPowerLoss s = execStandbyPowerLoss s := rfl
@[simp] theorem exec_vbatLoss (s : State) :
    exec .vbatLoss s = execVbatLoss s := rfl

end Sys2Proof.Machine
end

