-- ==== Sys2Proof/Laws/Keeps.lean ====
section
/-! SUPPORT. The invariant under the operations that touch memory bytes, tags, poison and registers, and the rules by which a
definition built over them keeps it. -/

namespace Sys2Proof.Machine

/-- A next state keeps the invariant. -/
@[irreducible] def OutOk (o : Host.Outcome State Fault Refusal) : Prop := ∀ t, o = .next t → Inv t

/-- A result satisfies `p`, or its error leaves a state that keeps the invariant. -/
@[irreducible] def EOk {ε α : Type} (p : α → Prop) (r : Except (ε × State) α) : Prop := (∀ a, r = .ok a → p a) ∧ (∀ e, r = .error e → Inv e.2)

/-- An optional result, if there is one, satisfies `p`. -/
@[irreducible] def MOk {α : Type} (p : α → Prop) (r : Option α) : Prop := ∀ a, r = some a → p a

/-! ### The four parts -/

theorem inv_of {t : State} (h1 : Memory.wf t.mem = true) (h2 : mwf (fun _ => false) t.tags = true)
    (h3 : mwf (fun _ => false) t.poison = true) (h4 : mwf resetVal t.regs = true) : Inv t := ⟨h1, h2, h3, h4⟩

/-- A state that differs from one that keeps the invariant outside bytes, tags, poison and registers keeps it. -/
theorem inv_same {s t : State} (h : Inv s) (h1 : t.mem = s.mem) (h2 : t.tags = s.tags) (h3 : t.poison = s.poison)
    (h4 : t.regs = s.regs) : Inv t := by
  unfold Inv; rw [h1, h2, h3, h4]; exact h

/-- A state built from one that keeps the invariant, its bytes, tags, poison and registers as they were, keeps it. -/
theorem inv_mk {s : State} {pending} {time} {tb} {hostMem} {threads} {cores} {doms} {ports} {log} {irqMsgs}
    {stateMsgs} {bcTable} {withdrawn} {cxlLost} {cxlUp} {mgmt} {board} {vault} {fuses} {dimms} {dir} {dup} {l3} {txns}
    {homeQ} {heldReqs} {fwd} {rsp} {sparings} {retires} {subCopy} {scratchNew} {fabric} {mcs} {irqDiscards} {pmTrusted} {engXlat}
    {chans} {sqOrder} {ucode} {bridge} {bw} {pmAt} (h : Inv s) :
        Inv (State.mk pending time tb s.regs s.mem s.tags s.poison hostMem threads cores doms ports log irqMsgs
    stateMsgs bcTable withdrawn cxlLost cxlUp mgmt board vault fuses dimms dir dup l3 txns homeQ heldReqs fwd rsp sparings
    retires subCopy scratchNew fabric mcs irqDiscards pmTrusted engXlat chans sqOrder ucode bridge bw pmAt) := h

theorem State.putR_keeps {s : State} (a : Nat) (v : Word) (h : Inv s) : Inv (s.putR a v) :=
  ⟨h.1, h.2.1, h.2.2.1, mwf_mput a v h.2.2.2⟩

theorem State.resetR_keeps {s : State} (a : Nat) (h : Inv s) : Inv (s.resetR a) := ⟨h.1, h.2.1, h.2.2.1, mwf_mdel a h.2.2.2⟩

theorem writeCells_keeps (m : List Host.Cell) (pa : Nat) (bs : List Byte) (h : Memory.wf m = true) :
    Memory.wf (writeCells m pa bs) = true := by
  induction bs generalizing m pa with
  | nil => exact h
  | cons b bs ih => exact ih _ _ (mwf_mput (d := fun _ => (0 : Byte)) pa b h)

theorem foldl_mput_keeps {d : Nat → Bool} (l : List Nat) (f : SMap Bool → Nat → SMap Bool)
    (hf : ∀ x k, mwf d x = true → mwf d (f x k) = true) {m : SMap Bool} (h : mwf d m = true) :
    mwf d (l.foldl f m) = true := by
  induction l generalizing m with
  | nil => exact h
  | cons k l ih => exact ih (hf _ k h)

theorem clearTags_keeps {s : State} (pa n : Nat) (h : Inv s) : Inv (clearTags s pa n) :=
  ⟨h.1, foldl_mput_keeps _ _ (fun m k hm => mwf_mput (d := fun _ => false) k false hm) h.2.1, h.2.2.1, h.2.2.2⟩

theorem setTag_keeps {s : State} (pa : Nat) (b : Bool) (h : Inv s) : Inv (setTag s pa b) :=
  ⟨h.1, mwf_mput (d := fun _ => false) _ b h.2.1, h.2.2.1, h.2.2.2⟩

theorem setPoison_keeps {s : State} (line : Nat) (b : Bool) (h : Inv s) : Inv (setPoison s line b) :=
  ⟨h.1, h.2.1, mwf_mput (d := fun _ => false) _ b h.2.2.1, h.2.2.2⟩

theorem writeBytes_keeps {s : State} (pa : Nat) (bs : List Byte) (h : Inv s) : Inv (writeBytes s pa bs) := by
  have h0 : Inv { s with mem := writeCells s.mem pa bs } := ⟨writeCells_keeps _ _ _ h.1, h.2.1, h.2.2.1, h.2.2.2⟩
  have h1 := clearTags_keeps pa bs.length h0
  refine ⟨h1.1, h1.2.1, foldl_mput_keeps _ _ (fun m k hm => ?_) h1.2.2.1, h1.2.2.2⟩
  split
  · exact mwf_mput (d := fun _ => false) k false hm
  · exact hm

/-- Bytes, tags and poison marks taken out by a filter. -/
theorem inv_filter {s t : State} {p : Host.Cell → Bool} {q r : Nat × Bool → Bool} (h : Inv s) (h1 : t.mem = s.mem.filter p)
    (h2 : t.tags = s.tags.filter q) (h3 : t.poison = s.poison.filter r) (h4 : t.regs = s.regs) : Inv t := by
  unfold Inv Memory.wf; rw [h1, h2, h3, h4]
  exact ⟨mwf_filter p h.1, mwf_filter q h.2.1, mwf_filter r h.2.2.1, h.2.2.2⟩

/-- Registers taken out by a filter. -/
theorem inv_regsFilter {s t : State} {p : Nat × Word → Bool} (h : Inv s) (h1 : t.mem = s.mem) (h2 : t.tags = s.tags)
    (h3 : t.poison = s.poison) (h4 : t.regs = s.regs.filter p) : Inv t := by
  unfold Inv Memory.wf; rw [h1, h2, h3, h4]
  exact ⟨h.1, h.2.1, h.2.2.1, mwf_filter p h.2.2.2⟩

theorem inv_reset : Inv State.reset := by unfold Inv; decide

/-- A state with nothing listed. -/
theorem inv_nil {t : State} (h1 : t.mem = []) (h2 : t.tags = []) (h3 : t.poison = []) (h4 : t.regs = []) : Inv t := by
  unfold Inv; rw [h1, h2, h3, h4]; exact ⟨rfl, rfl, rfl, rfl⟩

/-! ### Rules -/

section Rules
variable {α β γ ε : Type}

theorem outOk_next {s : State} (h : Inv s) : OutOk (.next s) := by unfold OutOk; exact fun _ e => by cases e; exact h
theorem outOk_fault (f : Fault) : OutOk (.fault f) := by unfold OutOk; exact fun _ e => nomatch e
theorem outOk_refused (r : Refusal) : OutOk (.refused r) := by unfold OutOk; exact fun _ e => nomatch e

theorem eOk_ok {p : α → Prop} {a : α} (h : p a) : EOk p (Except.ok a : Except (ε × State) α) := by
  unfold EOk; exact ⟨fun _ e => by cases e; exact h, fun _ e => (nomatch e)⟩
theorem eOk_error {p : α → Prop} {e : ε × State} (h : Inv e.2) : EOk p (Except.error e : Except (ε × State) α) := by
  unfold EOk; exact ⟨fun _ e => (nomatch e), fun _ e => by cases e; exact h⟩

theorem mOk_some {p : α → Prop} {a : α} (h : p a) : MOk p (some a) := by unfold MOk; exact fun _ e => by cases e; exact h
theorem mOk_none {p : α → Prop} : MOk p (none : Option α) := by unfold MOk; exact fun _ e => nomatch e

theorem mOk_map {p : β → Prop} {f : α → β} {r : Option α} (h : ∀ a, p (f a)) : MOk p (r.map f) := by
  unfold MOk
  intro b e
  cases r with
  | none => exact nomatch e
  | some a => cases e; exact h a

theorem eOk_map {p : β → Prop} {f : α → β} {r : Except (ε × State) α} (h : EOk (fun a => p (f a)) r) : EOk p (r.map f) := by
  unfold EOk at h ⊢
  cases r with
  | ok a => exact ⟨fun _ e => by cases e; exact h.1 a rfl, fun _ e => (nomatch e)⟩
  | error e => exact ⟨fun _ e => (nomatch e), fun _ e' => by cases e'; exact h.2 e rfl⟩

theorem inv_elim {r : Option α} {s : State} {f : α → State} (h : Inv s) (hf : ∀ a, Inv (f a)) : Inv (r.elim s f) := by
  cases r with
  | none => exact h
  | some a => exact hf a

theorem eOk_iff {p : α → Prop} {r : Except (ε × State) α} :
    EOk p r ↔ (∀ a, r = .ok a → p a) ∧ (∀ e, r = .error e → Inv e.2) := by unfold EOk; rfl
theorem mOk_iff {p : α → Prop} {r : Option α} : MOk p r ↔ ∀ a, r = some a → p a := by unfold MOk; rfl
theorem outOk_iff {o : Host.Outcome State Fault Refusal} : OutOk o ↔ ∀ t, o = .next t → Inv t := by unfold OutOk; rfl

theorem eOk_bind {p : β → Prop} (q : α → Prop) {x : Except (ε × State) α} {f : α → Except (ε × State) β} (hx : EOk q x)
    (hf : ∀ a, q a → EOk p (f a)) : EOk p (x >>= f) := by
  cases x with
  | ok a => exact hf a ((eOk_iff.1 hx).1 a rfl)
  | error e => exact eOk_error ((eOk_iff.1 hx).2 e rfl)

theorem eOk_mono {p q : α → Prop} {r : Except (ε × State) α} (h : EOk q r) (hpq : ∀ a, q a → p a) : EOk p r :=
  eOk_iff.2 ⟨fun a e => hpq a ((eOk_iff.1 h).1 a e), (eOk_iff.1 h).2⟩

theorem eOk_bindD {p : β → Prop} {x : Except (ε × State) α} {f : α → Except (ε × State) β} (hx : EOk (fun _ => True) x)
    (hf : ∀ a, EOk p (f a)) : EOk p (x.bind f) := eOk_bind (fun _ => True) hx (fun a _ => hf a)

theorem eOk_foldlM {f : State → α → Except (ε × State) State} {l : List α} {s : State} (h : Inv s)
    (hf : ∀ s a, Inv s → EOk Inv (f s a)) : EOk Inv (l.foldlM f s) := by
  induction l generalizing s with
  | nil => exact eOk_ok h
  | cons a l ih => rw [List.foldlM_cons]; exact eOk_bind Inv (hf s a h) (fun s h => ih h)

theorem mOk_mapS {p : β → Prop} {q : α → Prop} {f : α → β} {r : Option α} (hr : MOk q r) (h : ∀ a, q a → p (f a)) :
    MOk p (r.map f) := by
  unfold MOk at hr ⊢
  intro b e
  cases r with
  | none => exact nomatch e
  | some a => cases e; exact h a (hr a rfl)

theorem mOk_bind {p : β → Prop} {x : Option α} {f : α → Option β} (h : ∀ a, MOk p (f a)) : MOk p (x.bind f) := by
  cases x with
  | none => exact mOk_none
  | some a => exact h a

theorem eOk_bindS {p : β → Prop} {x : Except (ε × State) State} {f : State → Except (ε × State) β} (hx : EOk Inv x)
    (hf : ∀ s, Inv s → EOk p (f s)) : EOk p (x >>= f) := eOk_bind _ hx hf
theorem eOk_bindP {p : β → Prop} {x : Except (ε × State) (α × State)} {f : α × State → Except (ε × State) β}
    (hx : EOk (fun a => Inv a.2) x) (hf : ∀ a s, Inv s → EOk p (f (a, s))) : EOk p (x >>= f) :=
  eOk_bind _ hx (fun a h => hf a.1 a.2 h)
theorem eOk_bindQ {p : β → Prop} {x : Except (ε × State) (State × α)} {f : State × α → Except (ε × State) β}
    (hx : EOk (fun a => Inv a.1) x) (hf : ∀ s a, Inv s → EOk p (f (s, a))) : EOk p (x >>= f) :=
  eOk_bind _ hx (fun a h => hf a.1 a.2 h)
theorem eOk_bindT {p : γ → Prop} {x : Except (ε × State) (α × β × State)} {f : α × β × State → Except (ε × State) γ}
    (hx : EOk (fun a => Inv a.2.2) x) (hf : ∀ a b s, Inv s → EOk p (f (a, b, s))) : EOk p (x >>= f) :=
  eOk_bind _ hx (fun a h => hf a.1 a.2.1 a.2.2 h)
theorem eOk_bindA {p : β → Prop} {x : Except (ε × State) α} {f : α → Except (ε × State) β} (hx : EOk (fun _ => True) x)
    (hf : ∀ a, EOk p (f a)) : EOk p (x >>= f) := eOk_bind _ hx (fun a _ => hf a)

/-! What a pattern that a result matched says of the state in it. -/

theorem inv_okS {s : State} {r : Except (ε × State) State} (e : r = .ok s) (h : EOk Inv r) : Inv s := (eOk_iff.1 h).1 _ e
theorem inv_okP {s : State} {a : α} {r : Except (ε × State) (α × State)} (e : r = .ok (a, s))
    (h : EOk (fun a => Inv a.2) r) : Inv s := (eOk_iff.1 h).1 _ e
theorem inv_okQ {s : State} {a : α} {r : Except (ε × State) (State × α)} (e : r = .ok (s, a))
    (h : EOk (fun a => Inv a.1) r) : Inv s := (eOk_iff.1 h).1 _ e
theorem inv_okT {s : State} {a : α} {b : β} {r : Except (ε × State) (α × β × State)} (e : r = .ok (a, b, s))
    (h : EOk (fun a => Inv a.2.2) r) : Inv s := (eOk_iff.1 h).1 _ e
theorem inv_errS {s : State} {a : ε} {r : Except (ε × State) State} (e : r = .error (a, s)) (h : EOk Inv r) : Inv s := (eOk_iff.1 h).2 _ e
theorem inv_errP {s : State} {a : ε} {r : Except (ε × State) (α × State)} (e : r = .error (a, s))
    (h : EOk (fun a => Inv a.2) r) : Inv s := (eOk_iff.1 h).2 _ e
theorem inv_errQ {s : State} {a : ε} {r : Except (ε × State) (State × α)} (e : r = .error (a, s))
    (h : EOk (fun a => Inv a.1) r) : Inv s := (eOk_iff.1 h).2 _ e
theorem inv_errT {s : State} {a : ε} {r : Except (ε × State) (α × β × State)} (e : r = .error (a, s))
    (h : EOk (fun a => Inv a.2.2) r) : Inv s := (eOk_iff.1 h).2 _ e
theorem inv_errA {s : State} {a : ε} {r : Except (ε × State) α} (e : r = .error (a, s)) (h : EOk (fun _ => True) r) : Inv s :=
  (eOk_iff.1 h).2 _ e
theorem inv_someS {s : State} {r : Option State} (e : r = some s) (h : MOk Inv r) : Inv s := mOk_iff.1 h _ e
theorem inv_someP {s : State} {a : α} {r : Option (α × State)} (e : r = some (a, s)) (h : MOk (fun a => Inv a.2) r) : Inv s :=
  mOk_iff.1 h _ e
theorem inv_someQ {s : State} {a : α} {r : Option (State × α)} (e : r = some (s, a)) (h : MOk (fun a => Inv a.1) r) : Inv s :=
  mOk_iff.1 h _ e
theorem inv_pairP {s : State} {a : α} {r : α × State} (e : r = (a, s)) (h : Inv r.2) : Inv s := by rw [e] at h; exact h
theorem inv_pairQ {s : State} {a : α} {r : State × α} (e : r = (s, a)) (h : Inv r.1) : Inv s := by rw [e] at h; exact h
theorem inv_pairT {s : State} {a : α} {b : β} {r : α × β × State} (e : r = (a, b, s)) (h : Inv r.2.2) : Inv s := by
  rw [e] at h; exact h
theorem inv_next {s : State} {o : Host.Outcome State Fault Refusal} (e : o = .next s) (h : OutOk o) : Inv s := outOk_iff.1 h _ e

theorem inv_ok {s : State} (h : EOk (ε := ε) Inv (.ok s)) : Inv s := (eOk_iff.1 h).1 _ rfl
theorem inv_error {p : α → Prop} {a : ε} {s : State} (h : EOk p (.error (a, s))) : Inv s := (eOk_iff.1 h).2 _ rfl

theorem inv_getD {s : State} {r : Option State} (h : MOk Inv r) (hs : Inv s) : Inv (r.getD s) := by
  cases r with
  | none => exact hs
  | some t => exact mOk_iff.1 h _ rfl

theorem inv_foldl {f : State → α → State} {l : List α} {s : State} (h : Inv s) (hf : ∀ s a, Inv s → Inv (f s a)) :
    Inv (l.foldl f s) := by
  induction l generalizing s with
  | nil => exact h
  | cons a l ih => exact ih (hf s a h)

theorem inv_foldl_fst {f : State × β → α → State × β} {l : List α} {p : State × β} (h : Inv p.1)
    (hf : ∀ s b a, Inv s → Inv (f (s, b) a).1) : Inv (l.foldl f p).1 := by
  induction l generalizing p with
  | nil => exact h
  | cons a l ih => exact ih (hf p.1 p.2 a h)

theorem inv_foldl_snd {f : β × State → α → β × State} {l : List α} {p : β × State} (h : Inv p.2)
    (hf : ∀ b s a, Inv s → Inv (f (b, s) a).2) : Inv (l.foldl f p).2 := by
  induction l generalizing p with
  | nil => exact h
  | cons a l ih => exact ih (hf p.1 p.2 a h)

/-- Every step of a list keeps the invariant. -/
@[irreducible] def AllKeep (l : List (State → Except (ε × State) (α × State))) : Prop :=
  ∀ f ∈ l, ∀ s, Inv s → EOk (fun (a : α × State) => Inv a.2) (f s)

theorem allKeep_iff {l : List (State → Except (ε × State) (α × State))} :
    AllKeep l ↔ ∀ f ∈ l, ∀ s, Inv s → EOk (fun (a : α × State) => Inv a.2) (f s) := by unfold AllKeep; rfl
theorem allKeep_append {a b : List (State → Except (ε × State) (α × State))} (ha : AllKeep a) (hb : AllKeep b) : AllKeep (a ++ b) :=
  allKeep_iff.2 (List.forall_mem_append.2 ⟨allKeep_iff.1 ha, allKeep_iff.1 hb⟩)
theorem allKeep_map {f : β → State → Except (ε × State) (α × State)} {l : List β}
    (h : ∀ a s, Inv s → EOk (fun (a : α × State) => Inv a.2) (f a s)) : AllKeep (l.map f) :=
  allKeep_iff.2 (List.forall_mem_map.2 (fun a _ => h a))

end Rules

end Sys2Proof.Machine
end

