-- ==== Sys2Proof/Laws/KeepsOps.lean ====
section
/-! SUPPORT. The invariant under the definitions of Machine/Ops.lean. -/

namespace Sys2Proof.Machine

set_option linter.all false

theorem State.putF_keeps : ∀ (s : State) (a : ℕ) (f : Fld) (n : ℕ),
  Inv s → Inv (s.putF a f n) := by
  intros
  unfold State.putF
  repeat' first
    | with_reducible assumption
    | with_reducible apply State.putR_keeps

theorem State.putB_keeps : ∀ (s : State) (a : ℕ) (f : Fld) (b : Bool),
  Inv s → Inv (s.putB a f b) := by
  intros
  unfold State.putB
  repeat' first
    | with_reducible assumption
    | with_reducible apply State.putF_keeps

theorem plainWrite_keeps : ∀ (s : State) (a : ℕ) (x : RegRow) (v : Word),
  Inv s → Inv (plainWrite s a x v) := by
  intros
  unfold plainWrite
  repeat' first
    | with_reducible assumption
    | with_reducible apply State.putR_keeps

theorem setReg_keeps : ∀ (s : State) (a : ℕ) (v : Word),
  Inv s → Inv (setReg s a v) := by
  intros
  unfold setReg
  repeat' first
    | with_reducible assumption
    | with_reducible apply State.putR_keeps
    | with_reducible apply plainWrite_keeps
    | split

end Sys2Proof.Machine
end

