-- ==== Sys2Proof/Laws/KeepsBase.lean ====
section
/-! SUPPORT. The invariant under the definitions of Machine/Base.lean. -/

namespace Sys2Proof.Machine

set_option linter.all false

theorem sendIrq_keeps : ∀ (s : State) (thread vector source : ℕ),
  Inv s → Inv (sendIrq s thread vector source) := by
  intros
  unfold sendIrq
  repeat' first
    | with_reducible assumption
    | fail_if_no_progress with_reducible apply inv_mk

theorem notify_keeps : ∀ (s : State) (r : ℕ),
  Inv s → Inv (notify s r) := by
  intros
  unfold notify
  repeat' first
    | with_reducible assumption
    | split
    | fail_if_no_progress with_reducible apply inv_mk

theorem logRecord_keeps : ∀ (s : State) (type unit cause p0 p1 p2 p3 : ℕ) (injected : Bool),
  Inv s → Inv (logRecord s type unit cause p0 p1 p2 p3 injected) := by
  intros
  unfold logRecord
  repeat' first
    | with_reducible assumption
    | (extract_lets +onlyGivenNames x; clear_value x)
    | split
    | fail_if_no_progress with_reducible apply inv_mk

theorem setupError_keeps : ∀ (s : State) (reg val : ℕ),
  Inv s → Inv (setupError s reg val) := by
  intros
  unfold setupError
  repeat' first
    | with_reducible assumption
    | with_reducible apply logRecord_keeps

theorem writeState_keeps : ∀ (s : State) (u dst cause : ℕ),
  Inv s → Inv (writeState s u dst cause) := by
  intros
  unfold writeState
  repeat' first
    | with_reducible assumption
    | (extract_lets +onlyGivenNames x; clear_value x)
    | extract_lets +onlyGivenNames x
    | with_reducible apply State.putR_keeps

theorem setUnit_keeps : ∀ (s : State) (u dst cause : ℕ),
  Inv s → Inv (setUnit s u dst cause) := by
  intros
  unfold setUnit
  repeat' first
    | with_reducible assumption
    | (extract_lets +onlyGivenNames x; refine (fun (_ : Inv x) => ?_) ?_; clear_value x; rotate_left; subst x)
    | with_reducible apply writeState_keeps
    | fail_if_no_progress with_reducible apply inv_mk

theorem addWithdrawn_keeps : ∀ (s : State) (u : ℕ),
  Inv s → Inv (addWithdrawn s u) := by
  intros
  unfold addWithdrawn
  repeat' first
    | with_reducible assumption
    | (extract_lets +onlyGivenNames x; clear_value x)
    | split
    | fail_if_no_progress with_reducible apply inv_mk

theorem putT_keeps : ∀ (s : State) (t : Tid) (x : Thread),
  Inv s → Inv (putT s t x) := by
  intros
  unfold putT
  repeat' first
    | with_reducible assumption
    | fail_if_no_progress with_reducible apply inv_mk

theorem updT_keeps : ∀ (s : State) (t : Tid) (f : Thread → Thread),
  Inv s → Inv (updT s t f) := by
  intros
  unfold updT
  repeat' first
    | with_reducible assumption
    | with_reducible apply putT_keeps

theorem putC_keeps : ∀ (s : State) (k : ℕ) (x : Core),
  Inv s → Inv (putC s k x) := by
  intros
  unfold putC
  repeat' first
    | with_reducible assumption
    | fail_if_no_progress with_reducible apply inv_mk

theorem updC_keeps : ∀ (s : State) (k : ℕ) (f : Core → Core),
  Inv s → Inv (updC s k f) := by
  intros
  unfold updC
  repeat' first
    | with_reducible assumption
    | with_reducible apply putC_keeps

theorem configEval_keeps : ∀ (s : State), Inv s → Inv (configEval s) := by
  intros
  unfold configEval
  repeat' first
    | with_reducible assumption
    | (extract_lets +onlyGivenNames x; refine (fun (_ : Inv x) => ?_) ?_; clear_value x; rotate_left; subst x)
    | (extract_lets +onlyGivenNames x; clear_value x)
    | extract_lets +onlyGivenNames x
    | with_reducible apply State.putF_keeps
    | with_reducible apply notify_keeps
    | with_reducible apply logRecord_keeps
    | split
    | fail_if_no_progress with_reducible apply inv_mk

theorem softReset_keeps : ∀ (s : State) (u : ℕ) (keep : List ℕ),
  Inv s → Inv (softReset s u keep) := by
  intros
  unfold softReset
  repeat' first
    | with_reducible assumption
    | intro _
    | extract_lets +onlyGivenNames x
    | with_reducible apply State.putR_keeps
    | split
    | with_reducible apply inv_foldl

end Sys2Proof.Machine
end

