-- ==== Sys2Proof/Laws/KeepsLines.lean ====
section
/-! SUPPORT. The invariant under the definitions of Machine/Lines.lean. -/

namespace Sys2Proof.Machine

set_option linter.all false

theorem setDir_keeps : ∀ (s : State) (line : ℕ) (e : DirEnt),
  Inv s → Inv (setDir s line e) := by
  intros
  unfold setDir
  repeat' first
    | with_reducible assumption
    | fail_if_no_progress with_reducible apply inv_mk

theorem setDup_keeps : ∀ (s : State) (line : ℕ) (e : DirEnt),
  Inv s → Inv (setDup s line e) := by
  intros
  unfold setDup
  repeat' first
    | with_reducible assumption
    | fail_if_no_progress with_reducible apply inv_mk

theorem bcastFix_keeps : ∀ (s : State) (h : ℕ),
  Inv s → Inv (bcastFix s h) := by
  intros
  unfold bcastFix
  repeat' first
    | with_reducible assumption
    | with_reducible apply State.putF_keeps

theorem setDirBoth_keeps : ∀ (s : State) (line : ℕ) (e : DirEnt),
  Inv s → Inv (setDirBoth s line e) := by
  intros
  unfold setDirBoth
  repeat' first
    | with_reducible assumption
    | (extract_lets +onlyGivenNames x; refine (fun (_ : Inv x) => ?_) ?_; clear_value x; rotate_left; subst x)
    | (extract_lets +onlyGivenNames x; clear_value x)
    | with_reducible apply setDir_keeps
    | with_reducible apply bcastFix_keeps
    | with_reducible apply setDup_keeps
    | split
    | fail_if_no_progress with_reducible apply inv_mk

theorem setLine_keeps : ∀ (s : State) (k line : ℕ) (c : CLine),
  Inv s → Inv (setLine s k line c) := by
  intros
  unfold setLine
  repeat' first
    | with_reducible assumption
    | with_reducible apply updC_keeps

theorem dropLine_keeps : ∀ (s : State) (k line : ℕ),
  Inv s → Inv (dropLine s k line) := by
  intros
  unfold dropLine
  repeat' first
    | with_reducible assumption
    | with_reducible apply updC_keeps

theorem dropCopies_keeps : ∀ (s : State) (line : ℕ),
  Inv s → Inv (dropCopies s line) := by
  intros
  unfold dropCopies
  repeat' first
    | with_reducible assumption
    | intro _
    | extract_lets +onlyGivenNames x
    | with_reducible apply dropLine_keeps
    | with_reducible apply inv_foldl

theorem setL3_keeps : ∀ (s : State) (line : ℕ) (v : Option L3Line),
  Inv s → Inv (setL3 s line v) := by
  intros
  unfold setL3
  repeat' first
    | with_reducible assumption
    | split
    | fail_if_no_progress with_reducible apply inv_mk

theorem recallLine_keeps : ∀ (s : State) (line : ℕ),
  Inv s → Inv (recallLine s line) := by
  intros
  unfold recallLine
  repeat' first
    | with_reducible assumption
    | extract_lets +onlyGivenNames x
    | with_reducible apply setDirBoth_keeps
    | with_reducible apply dropCopies_keeps

end Sys2Proof.Machine
end

