-- ==== Sys2Proof/Laws/KeepsMem.lean ====
section
/-! SUPPORT. The invariant under the definitions of Machine/Mem.lean. -/

namespace Sys2Proof.Machine

set_option linter.all false

theorem write64_keeps : ∀ (s : State) (pa : ℕ) (w : Word),
  Inv s → Inv (write64 s pa w) := by
  intros
  unfold write64
  repeat' first
    | with_reducible assumption
    | with_reducible apply writeBytes_keeps

theorem writeHost_keeps : ∀ (s : State) (p a : ℕ) (bs : List Byte),
  Inv s → Inv (writeHost s p a bs) := by
  intros
  unfold writeHost
  repeat' first
    | with_reducible assumption
    | fail_if_no_progress with_reducible apply inv_mk

end Sys2Proof.Machine
end

