-- ==== Sys2Proof/Laws/KeepsPerf.lean ====
section
/-! SUPPORT. The invariant under the definitions of Machine/Perf.lean. -/

namespace Sys2Proof.Machine

set_option linter.all false

theorem pmAdd_keeps : ∀ (s : State) (ctr win i n : ℕ),
  Inv s → Inv (pmAdd s ctr win i n) := by
  intros
  unfold pmAdd
  repeat' first
    | with_reducible assumption
    | (extract_lets +onlyGivenNames x; refine (fun (_ : Inv x) => ?_) ?_; clear_value x; rotate_left; subst x)
    | (extract_lets +onlyGivenNames x; clear_value x)
    | with_reducible apply State.putR_keeps
    | split

theorem pmEvent_keeps : ∀ (s : State) (t : Tid) (code : ℕ) (addr : Option ℕ) (n : ℕ),
  Inv s → Inv (pmEvent s t code addr n) := by
  intros
  unfold pmEvent
  repeat' first
    | with_reducible assumption
    | intro _
    | (extract_lets +onlyGivenNames x; clear_value x)
    | extract_lets +onlyGivenNames x
    | with_reducible apply pmAdd_keeps
    | split
    | with_reducible apply inv_foldl

theorem pmUncore_keeps : ∀ (s : State) (stop code : ℕ) (world : Bool) (req : Option (ℕ × ℕ)) (n : ℕ),
  Inv s → Inv (pmUncore s stop code world req n) := by
  intros
  unfold pmUncore
  repeat' first
    | with_reducible assumption
    | intro _
    | (extract_lets +onlyGivenNames x; clear_value x)
    | with_reducible apply pmAdd_keeps
    | split
    | with_reducible apply inv_foldl

theorem bwAdd_keeps : ∀ (s : State) (u off n : ℕ),
  Inv s → Inv (bwAdd s u off n) := by
  intros
  unfold bwAdd
  repeat' first
    | with_reducible assumption
    | (extract_lets +onlyGivenNames x; clear_value x)
    | fail_if_no_progress with_reducible apply inv_mk

end Sys2Proof.Machine
end

