-- ==== Sys2Proof/Laws/KeepsMemctl.lean ====
section
/-! SUPPORT. The invariant under the definitions of Machine/Memctl.lean. -/

namespace Sys2Proof.Machine

set_option linter.all false

theorem updM_keeps : ∀ (s : State) (c : ℕ) (f : Mc → Mc),
  Inv s → Inv (updM s c f) := by
  intros
  unfold updM
  repeat' first
    | with_reducible assumption
    | fail_if_no_progress with_reducible apply inv_mk

theorem remapRanks_keeps : ∀ (s : State) (c : ℕ),
  Inv s → Inv (remapRanks s c) := by
  intros
  unfold remapRanks
  repeat' first
    | with_reducible assumption
    | (extract_lets +onlyGivenNames x; clear_value x)
    | with_reducible apply updM_keeps

theorem openRow_keeps : ∀ (s : State) (c : ℕ) (b : Bool) (q : McReq) (draw : ℕ),
  Inv s → Inv (openRow s c b q draw) := by
  intros
  unfold openRow
  repeat' first
    | with_reducible assumption
    | (extract_lets +onlyGivenNames x; refine (fun (_ : Inv x) => ?_) ?_; clear_value x; rotate_left; subst x)
    | (extract_lets +onlyGivenNames x; clear_value x)
    | with_reducible apply updM_keeps
    | with_reducible apply pmUncore_keeps
    | split

theorem busTime_keeps : ∀ (s : State) (c : ℕ),
  Inv s → Inv (busTime s c) := by
  intros
  unfold busTime
  repeat' first
    | with_reducible assumption
    | with_reducible apply bwAdd_keeps

theorem burst_keeps : ∀ (s : State) (c : ℕ) (q : McReq) (write : Bool),
  Inv s → Inv (burst s c q write) := by
  intros
  unfold burst
  repeat' first
    | with_reducible assumption
    | extract_lets +onlyGivenNames x
    | with_reducible apply pmUncore_keeps
    | with_reducible apply busTime_keeps
    | with_reducible apply bwAdd_keeps

theorem issueWrite_keeps : ∀ (s : State) (c : ℕ) (b : Bool) (i draw : ℕ),
  Inv s → Inv (issueWrite s c b i draw) := by
  intros
  unfold issueWrite
  repeat' first
    | with_reducible assumption
    | (extract_lets +onlyGivenNames x; refine (fun (_ : Inv x) => ?_) ?_; clear_value x; rotate_left; subst x)
    | extract_lets +onlyGivenNames x
    | with_reducible apply openRow_keeps
    | with_reducible apply burst_keeps
    | with_reducible apply updM_keeps
    | split

theorem acceptWrite_keeps : ∀ (s : State) (c : ℕ) (b : Bool) (e : McReq),
  Inv s → Inv (acceptWrite s c b e) := by
  intros
  unfold acceptWrite
  repeat' first
    | with_reducible assumption
    | (extract_lets +onlyGivenNames x; refine (fun (_ : Inv x) => ?_) ?_; clear_value x; rotate_left; subst x)
    | with_reducible apply issueWrite_keeps
    | with_reducible apply updM_keeps
    | split

theorem mcRead_keeps : ∀ (s : State) (pa cls : ℕ),
  Inv s → Inv (mcRead s pa cls).1 := by
  intros
  unfold mcRead
  repeat' first
    | with_reducible assumption
    | (extract_lets +onlyGivenNames x; clear_value x)
    | with_reducible apply updM_keeps
    | split

theorem mcWrite_keeps : ∀ (s : State) (pa cls : ℕ),
  Inv s → Inv (mcWrite s pa cls) := by
  intros
  unfold mcWrite
  repeat' first
    | with_reducible assumption
    | intro _
    | extract_lets +onlyGivenNames x
    | with_reducible apply acceptWrite_keeps
    | with_reducible apply inv_foldl

theorem mcAtomic_keeps : ∀ (s : State) (pa cls : ℕ),
  Inv s → Inv (mcAtomic s pa cls) := by
  intros
  unfold mcAtomic
  repeat' first
    | with_reducible assumption
    | (extract_lets +onlyGivenNames x; clear_value x)
    | extract_lets +onlyGivenNames x
    | with_reducible apply updM_keeps
    | with_reducible apply mcWrite_keeps
    | split

theorem mcRewrite_keeps : ∀ (s : State) (c pa cls : ℕ),
  Inv s → Inv (mcRewrite s c pa cls) := by
  intros
  unfold mcRewrite
  repeat' first
    | with_reducible assumption
    | with_reducible apply acceptWrite_keeps

theorem ownAccess_keeps : ∀ (s : State) (c loc cls : ℕ) (write : Bool),
  Inv s → Inv (ownAccess s c loc cls write) := by
  intros
  unfold ownAccess
  repeat' first
    | with_reducible assumption
    | extract_lets +onlyGivenNames x
    | with_reducible apply burst_keeps
    | with_reducible apply openRow_keeps

theorem memoryRecord_keeps : ∀ (s : State) (c loc rank dev : ℕ) (unc poi : Bool) (pa : ℕ),
  Inv s → Inv (memoryRecord s c loc rank dev unc poi pa) := by
  intros
  unfold memoryRecord
  repeat' first
    | with_reducible assumption
    | with_reducible apply logRecord_keeps

theorem mirrorRecord_keeps : ∀ (s : State) (unit chan : ℕ) (broken : Bool),
  Inv s → Inv (mirrorRecord s unit chan broken) := by
  intros
  unfold mirrorRecord
  repeat' first
    | with_reducible assumption
    | with_reducible apply logRecord_keeps

theorem setBroken_keeps : ∀ (s : State) (c : ℕ) (b : Bool),
  Inv s → Inv (setBroken s c b) := by
  intros
  unfold setBroken
  repeat' first
    | with_reducible assumption
    | (extract_lets +onlyGivenNames x; clear_value x)
    | split
    | fail_if_no_progress with_reducible apply inv_mk

theorem recoverySet_keeps : ∀ (s : State) (c : ℕ),
  Inv s → Inv (recoverySet s c) := by
  intros
  unfold recoverySet
  repeat' first
    | with_reducible assumption
    | intro _
    | (extract_lets +onlyGivenNames x; refine (fun (_ : Inv x) => ?_) ?_; clear_value x; rotate_left; subst x)
    | (extract_lets +onlyGivenNames x; clear_value x)
    | extract_lets +onlyGivenNames x
    | with_reducible apply State.putR_keeps
    | with_reducible apply State.putF_keeps
    | with_reducible apply inv_foldl

theorem startMigration_keeps : ∀ (s : State) (c rank : ℕ),
  Inv s → Inv (startMigration s c rank) := by
  intros
  unfold startMigration
  repeat' first
    | with_reducible assumption
    | (extract_lets +onlyGivenNames x; refine (fun (_ : Inv x) => ?_) ?_; clear_value x; rotate_left; subst x)
    | (extract_lets +onlyGivenNames x; clear_value x)
    | extract_lets +onlyGivenNames x
    | with_reducible apply logRecord_keeps
    | with_reducible apply configEval_keeps
    | with_reducible apply mirrorRecord_keeps
    | with_reducible apply setBroken_keeps
    | with_reducible apply updM_keeps
    | with_reducible apply State.putR_keeps
    | with_reducible apply recoverySet_keeps
    | split

theorem countErr_keeps : ∀ (s : State) (c rank dev : ℕ),
  Inv s → Inv (countErr s c rank dev) := by
  intros
  unfold countErr
  repeat' first
    | with_reducible assumption
    | with_reducible apply updM_keeps

theorem readError_keeps : ∀ (s : State) (c loc : ℕ) (ecc mirror : Ecc),
  Inv s → Inv (readError s c loc ecc mirror) := by
  intros
  unfold readError
  repeat' first
    | with_reducible assumption
    | (extract_lets +onlyGivenNames x; refine (fun (_ : Inv x) => ?_) ?_; clear_value x; rotate_left; subst x)
    | (extract_lets +onlyGivenNames x; clear_value x)
    | extract_lets +onlyGivenNames x
    | with_reducible apply countErr_keeps
    | with_reducible apply mcRewrite_keeps
    | with_reducible apply updM_keeps
    | with_reducible apply startMigration_keeps
    | with_reducible apply mcWrite_keeps
    | with_reducible apply setPoison_keeps
    | with_reducible apply memoryRecord_keeps
    | split

theorem refreshRank_keeps : ∀ (s : State) (c r : ℕ),
  Inv s → Inv (refreshRank s c r) := by
  intros
  unfold refreshRank
  repeat' first
    | with_reducible assumption
    | intro _
    | (extract_lets +onlyGivenNames x; refine (fun (_ : Inv x) => ?_) ?_; clear_value x; rotate_left; subst x)
    | (extract_lets +onlyGivenNames x; clear_value x)
    | extract_lets +onlyGivenNames x
    | with_reducible apply State.putR_keeps
    | with_reducible apply updM_keeps
    | with_reducible apply inv_foldl

end Sys2Proof.Machine
end

