-- ==== Sys2Proof/Laws/KeepsCopies.lean ====
section
/-! SUPPORT. The invariant under the definitions of Machine/Copies.lean. -/

namespace Sys2Proof.Machine

set_option linter.all false

theorem l3Out_keeps : ∀ (s : State) (cls line : ℕ),
  Inv s → Inv (l3Out s cls line) := by
  intros
  unfold l3Out
  repeat' first
    | with_reducible assumption
    | (extract_lets +onlyGivenNames x; refine (fun (_ : Inv x) => ?_) ?_; clear_value x; rotate_left; subst x)
    | with_reducible apply setL3_keeps
    | with_reducible apply mcWrite_keeps
    | split

theorem putL3_keeps : ∀ (s : State) (line : ℕ) (dirty : Bool) (cls : ℕ),
  Inv s → Inv (putL3 s line dirty cls) := by
  intros
  unfold putL3
  repeat' first
    | with_reducible assumption
    | intro _
    | (extract_lets +onlyGivenNames x; clear_value x)
    | extract_lets +onlyGivenNames x
    | with_reducible apply setL3_keeps
    | with_reducible apply l3Out_keeps
    | with_reducible apply mcWrite_keeps
    | split
    | with_reducible apply inv_foldl

theorem l3Settle_keeps : ∀ (s : State) (i : ℕ),
  Inv s → Inv (l3Settle s i) := by
  intros
  unfold l3Settle
  repeat' first
    | with_reducible assumption
    | intro _
    | extract_lets +onlyGivenNames x
    | with_reducible apply l3Out_keeps
    | with_reducible apply inv_foldl

theorem fixGeneral_keeps : ∀ (s : State) (i : ℕ),
  Inv s → Inv (fixGeneral s i) := by
  intros
  unfold fixGeneral
  repeat' first
    | with_reducible assumption
    | (extract_lets +onlyGivenNames x; clear_value x)
    | extract_lets +onlyGivenNames x
    | with_reducible apply l3Settle_keeps
    | with_reducible apply State.putF_keeps

theorem writeBack_keeps : ∀ (s : State) (line cls : ℕ),
  Inv s → Inv (writeBack s line cls) := by
  intros
  unfold writeBack
  repeat' first
    | with_reducible assumption
    | (extract_lets +onlyGivenNames x; clear_value x)
    | extract_lets +onlyGivenNames x
    | with_reducible apply putL3_keeps
    | with_reducible apply mcWrite_keeps
    | split

end Sys2Proof.Machine
end

