-- ==== Sys2Proof/Laws/KeepsHome.lean ====
section
/-! SUPPORT. The invariant under the definitions of Machine/Home.lean. -/

namespace Sys2Proof.Machine

set_option linter.all false

theorem pushRsp_keeps : ∀ (s : State) (r : Rsp),
  Inv s → Inv (pushRsp s r) := by
  intros
  unfold pushRsp
  repeat' first
    | with_reducible assumption
    | fail_if_no_progress with_reducible apply inv_mk

theorem pushFwd_keeps : ∀ (s : State) (f : List Fwd),
  Inv s → Inv (pushFwd s f) := by
  intros
  unfold pushFwd
  repeat' first
    | with_reducible assumption
    | fail_if_no_progress with_reducible apply inv_mk

theorem answer_keeps : ∀ (s : State) (q : HomeReq) (k : RspKind)
  (g : Option Moesi) (refusal : Bool) (bytes : List Byte),
  Inv s → Inv (answer s q k g refusal bytes) := by
  intros
  unfold answer
  repeat' first
    | with_reducible assumption
    | with_reducible apply pushRsp_keeps

theorem setTxn_keeps : ∀ (s : State) (line : ℕ) (t : Option Txn),
  Inv s → Inv (setTxn s line t) := by
  intros
  unfold setTxn
  repeat' first
    | with_reducible assumption
    | split
    | fail_if_no_progress with_reducible apply inv_mk

theorem sendFwd_keeps : ∀ (s : State) (home : ℕ) (f : List Fwd),
  Inv s → Inv (sendFwd s home f) := by
  intros
  unfold sendFwd
  repeat' first
    | with_reducible assumption
    | extract_lets +onlyGivenNames x
    | with_reducible apply pmUncore_keeps
    | with_reducible apply pushFwd_keeps

theorem setDirFix_keeps : ∀ (s : State) (line : ℕ) (e : DirEnt),
  Inv s → Inv (setDirFix s line e) := by
  intros
  unfold setDirFix
  repeat' first
    | with_reducible assumption
    | (extract_lets +onlyGivenNames x; refine (fun (_ : Inv x) => ?_) ?_; clear_value x; rotate_left; subst x)
    | (extract_lets +onlyGivenNames x; clear_value x)
    | with_reducible apply setDir_keeps
    | with_reducible apply bcastFix_keeps
    | split

theorem changeDir_keeps : ∀ (s : State) (line : ℕ) (e : DirEnt),
  Inv s → Inv (changeDir s line e) := by
  intros
  unfold changeDir
  repeat' first
    | with_reducible assumption
    | (extract_lets +onlyGivenNames x; refine (fun (_ : Inv x) => ?_) ?_; clear_value x; rotate_left; subst x)
    | (extract_lets +onlyGivenNames x; clear_value x)
    | with_reducible apply setDirFix_keeps
    | with_reducible apply pushFwd_keeps
    | with_reducible apply setTxn_keeps
    | split

theorem addSharer_keeps : ∀ (s : State) (line : ℕ) (e : DirEnt),
  Inv s → Inv (addSharer s line e) := by
  intros
  unfold addSharer
  repeat' first
    | with_reducible assumption
    | (extract_lets +onlyGivenNames x; refine (fun (_ : Inv x) => ?_) ?_; clear_value x; rotate_left; subst x)
    | (extract_lets +onlyGivenNames x; clear_value x)
    | with_reducible apply setDirFix_keeps
    | with_reducible apply pushFwd_keeps
    | split

theorem askMemory_keeps : ∀ (s : State) (line : ℕ) (x : Txn),
  Inv s → Inv (askMemory s line x) := by
  intros
  unfold askMemory
  repeat' first
    | with_reducible assumption
    | extract_lets +onlyGivenNames x
    | with_reducible apply mcRead_keeps
    | with_reducible apply setTxn_keeps

theorem beginTxn_keeps : ∀ (s : State) (q : HomeReq),
  Inv s → Inv (beginTxn s q) := by
  intros
  unfold beginTxn
  repeat' first
    | with_reducible assumption
    | (extract_lets +onlyGivenNames x; refine (fun (_ : Inv x) => ?_) ?_; clear_value x; rotate_left; subst x)
    | (extract_lets +onlyGivenNames x; clear_value x)
    | with_reducible apply sendFwd_keeps
    | with_reducible apply askMemory_keeps
    | with_reducible apply setTxn_keeps
    | split

theorem startTxn_keeps : ∀ (s : State) (q : HomeReq),
  Inv s → Inv (startTxn s q) := by
  intros
  unfold startTxn
  repeat' first
    | with_reducible assumption
    | (extract_lets +onlyGivenNames x; refine (fun (_ : Inv x) => ?_) ?_; clear_value x; rotate_left; subst x)
    | (extract_lets +onlyGivenNames x; clear_value x)
    | extract_lets +onlyGivenNames x
    | with_reducible apply answer_keeps
    | with_reducible apply beginTxn_keeps
    | with_reducible apply setTxn_keeps
    | with_reducible apply pmUncore_keeps
    | with_reducible apply State.putR_keeps
    | split

theorem fillL3_keeps : ∀ (s : State) (line : ℕ) (x : Txn),
  Inv s → Inv (fillL3 s line x) := by
  intros
  unfold fillL3
  repeat' first
    | with_reducible assumption
    | (extract_lets +onlyGivenNames x; clear_value x)
    | with_reducible apply putL3_keeps
    | split

theorem l3Stale_keeps : ∀ (s : State) (line : ℕ),
  Inv s → Inv (l3Stale s line) := by
  intros
  unfold l3Stale
  repeat' first
    | with_reducible assumption
    | with_reducible apply setL3_keeps

theorem demoted_keeps : ∀ (s : State) (tile : ℕ),
  Inv s → Inv (demoted s tile) := by
  intros
  unfold demoted
  repeat' first
    | with_reducible assumption
    | with_reducible apply pmUncore_keeps

theorem regrant_keeps : ∀ (s : State) (k line : ℕ) (g : Option Moesi),
  Inv s → Inv (regrant s k line g) := by
  intros
  unfold regrant
  repeat' first
    | with_reducible assumption
    | fail_if_no_progress with_reducible apply inv_mk

theorem settleTxn_keeps : ∀ (s : State) (line : ℕ) (x : Txn),
  Inv s → Inv (settleTxn s line x) := by
  intros
  unfold settleTxn
  repeat' first
    | with_reducible assumption
    | (extract_lets +onlyGivenNames x; refine (fun (_ : Inv x) => ?_) ?_; clear_value x; rotate_left; subst x)
    | (extract_lets +onlyGivenNames x; clear_value x)
    | extract_lets +onlyGivenNames x
    | with_reducible apply fillL3_keeps
    | with_reducible apply addSharer_keeps
    | with_reducible apply changeDir_keeps
    | with_reducible apply l3Stale_keeps
    | with_reducible apply writeBack_keeps
    | split

theorem atomLine_keeps : ∀ (s : State) (q : HomeReq) (home : Bool),
  Inv s → Inv (atomLine s q home) := by
  intros
  unfold atomLine
  repeat' first
    | with_reducible assumption
    | extract_lets +onlyGivenNames x
    | with_reducible apply writeBack_keeps
    | with_reducible apply mcAtomic_keeps
    | with_reducible apply setL3_keeps
    | split

theorem performHome_keeps : ∀ (s : State) (q : HomeReq),
  Inv s → Inv (performHome s q) := by
  intros
  unfold performHome
  repeat' first
    | with_reducible assumption
    | intro _
    | (extract_lets +onlyGivenNames x; refine (fun (_ : Inv x) => ?_) ?_; clear_value x; rotate_left; subst x)
    | (extract_lets +onlyGivenNames x; refine (fun (_ : ∀ s, Inv s → Inv (x s)) => ?_) ?_; clear_value x; rotate_left; subst x)
    | (extract_lets +onlyGivenNames x; refine (fun (_ : ∀ s a, Inv s → Inv (x s a)) => ?_) ?_; clear_value x; rotate_left; subst x)
    | (extract_lets +onlyGivenNames x; clear_value x)
    | extract_lets +onlyGivenNames x
    | with_reducible apply mcWrite_keeps
    | with_reducible apply setL3_keeps
    | with_reducible apply writeBack_keeps
    | with_reducible apply pmUncore_keeps
    | with_reducible apply writeBytes_keeps
    | with_reducible apply atomLine_keeps
    | with_reducible apply setTag_keeps
    | split
    | dsimp -zeta only
    | with_reducible apply_assumption -exfalso -symm

theorem respond_keeps : ∀ (s : State) (line : ℕ) (x : Txn),
  Inv s → Inv (respond s line x) := by
  intros
  unfold respond
  repeat' first
    | with_reducible assumption
    | (extract_lets +onlyGivenNames x; refine (fun (_ : Inv x) => ?_) ?_; clear_value x; rotate_left; subst x)
    | (extract_lets +onlyGivenNames x; clear_value x)
    | extract_lets +onlyGivenNames x
    | with_reducible apply performHome_keeps
    | with_reducible apply answer_keeps
    | with_reducible apply setTxn_keeps
    | with_reducible apply sendFwd_keeps
    | with_reducible apply demoted_keeps
    | split

theorem nextHome_keeps : ∀ (s : State) (line : ℕ),
  Inv s →
    MOk (fun (a : HomeReq × State) => Inv a.2)
      (nextHome s line) := by
  intros
  unfold nextHome
  repeat' first
    | with_reducible assumption
    | intro _
    | extract_lets +onlyGivenNames x
    | split
    | with_reducible apply mOk_some
    | with_reducible exact mOk_none
    | with_reducible apply mOk_bind
    | fail_if_no_progress with_reducible apply inv_mk

theorem runLines_keeps : ∀ (n : ℕ) (s : State) (ls : List ℕ),
  Inv s → Inv (runLines n s ls) := by
  intro n s ls
  fun_induction runLines n s ls <;> intro h
  all_goals repeat' first
    | with_reducible assumption
    | with_reducible apply setTxn_keeps
    | with_reducible apply respond_keeps
    | with_reducible apply settleTxn_keeps
    | with_reducible apply startTxn_keeps
    | refine inv_someP (by with_reducible assumption) ?_
    | refine inv_someQ (by with_reducible assumption) ?_
    | with_reducible apply nextHome_keeps
    | with_reducible apply_assumption -exfalso -symm


theorem advanceTxn_keeps : ∀ (s : State) (line : ℕ),
  Inv s → Inv (advanceTxn s line) := by
  intros
  unfold advanceTxn
  repeat' first
    | with_reducible assumption
    | with_reducible apply runLines_keeps

theorem admitReq_keeps : ∀ (s : State) (q : HomeReq),
  Inv s → Inv (admitReq s q) := by
  intros
  unfold admitReq
  repeat' first
    | with_reducible assumption
    | (extract_lets +onlyGivenNames x; refine (fun (_ : Inv x) => ?_) ?_; clear_value x; rotate_left; subst x)
    | (extract_lets +onlyGivenNames x; clear_value x)
    | extract_lets +onlyGivenNames x
    | with_reducible apply pmUncore_keeps
    | with_reducible apply advanceTxn_keeps
    | fail_if_no_progress with_reducible apply inv_mk


theorem admit_keeps : ∀ (s : State) (q : HomeReq),
  Inv s → Inv (admitReq s q) := by
  intros
  unfold admitReq
  repeat' first
    | with_reducible assumption
    | (extract_lets +onlyGivenNames x; refine (fun (_ : Inv x) => ?_) ?_; clear_value x; rotate_left; subst x)
    | (extract_lets +onlyGivenNames x; clear_value x)
    | extract_lets +onlyGivenNames x
    | with_reducible apply pmUncore_keeps
    | with_reducible apply advanceTxn_keeps
    | fail_if_no_progress with_reducible apply inv_mk

theorem holdReq_keeps : ∀ (s : State) (q : HomeReq),
  Inv s → Inv (holdReq s q) := by
  intros
  unfold holdReq
  repeat' first
    | with_reducible assumption
    | fail_if_no_progress with_reducible apply inv_mk

theorem toHome_keeps : ∀ (s : State) (q : HomeReq),
  Inv s → Inv (toHome s q) := by
  intros
  unfold toHome
  repeat' first
    | with_reducible assumption
    | (extract_lets +onlyGivenNames x; clear_value x)
    | extract_lets +onlyGivenNames x
    | with_reducible apply answer_keeps
    | with_reducible apply holdReq_keeps
    | with_reducible apply pmUncore_keeps
    | with_reducible apply admit_keeps
    | split

theorem memoryDone_keeps : ∀ (s : State) (line : ℕ),
  Inv s → Inv (memoryDone s line) := by
  intros
  unfold memoryDone
  repeat' first
    | with_reducible assumption
    | extract_lets +onlyGivenNames x
    | with_reducible apply advanceTxn_keeps
    | with_reducible apply setTxn_keeps
    | split

theorem snoopDone_keeps : ∀ (s : State) (line src : ℕ) (data dirty : Bool),
  Inv s → Inv (snoopDone s line src data dirty) := by
  intros
  unfold snoopDone
  repeat' first
    | with_reducible assumption
    | (extract_lets +onlyGivenNames x; clear_value x)
    | extract_lets +onlyGivenNames x
    | with_reducible apply advanceTxn_keeps
    | with_reducible apply askMemory_keeps
    | with_reducible apply setTxn_keeps
    | split

theorem buddyDone_keeps : ∀ (s : State) (line : ℕ),
  Inv s → Inv (buddyDone s line) := by
  intros
  unfold buddyDone
  repeat' first
    | with_reducible assumption
    | extract_lets +onlyGivenNames x
    | with_reducible apply advanceTxn_keeps
    | with_reducible apply setTxn_keeps
    | split

theorem tellHome_keeps : ∀ (s : State) (k line : ℕ),
  Inv s → Inv (tellHome s k line) := by
  intros
  unfold tellHome
  repeat' first
    | with_reducible assumption
    | (extract_lets +onlyGivenNames x; clear_value x)
    | with_reducible apply admit_keeps
    | with_reducible apply holdReq_keeps
    | split

theorem leaveClean_keeps : ∀ (s : State) (k line : ℕ) (c : CLine),
  Inv s → Inv (leaveClean s k line c) := by
  intros
  unfold leaveClean
  repeat' first
    | with_reducible assumption
    | (extract_lets +onlyGivenNames x; refine (fun (_ : Inv x) => ?_) ?_; clear_value x; rotate_left; subst x)
    | with_reducible apply dropLine_keeps
    | with_reducible apply tellHome_keeps
    | split

theorem buffer_keeps : ∀ (s : State) (k line : ℕ) (c : CLine),
  Inv s → Inv (buffer s k line c) := by
  intros
  unfold buffer
  repeat' first
    | with_reducible assumption
    | (extract_lets +onlyGivenNames x; clear_value x)
    | extract_lets +onlyGivenNames x
    | with_reducible apply updC_keeps
    | with_reducible apply setLine_keeps

theorem leaveL2_keeps : ∀ (s : State) (k line : ℕ) (c : CLine),
  Inv s → Inv (leaveL2 s k line c) := by
  intros
  unfold leaveL2
  repeat' first
    | with_reducible assumption
    | with_reducible apply buffer_keeps
    | with_reducible apply leaveClean_keeps
    | split

theorem enterL2_keeps : ∀ (s : State) (k line : ℕ) (g : Moesi),
  Inv s → MOk Inv (enterL2 s k line g) := by
  intros
  unfold enterL2
  repeat' first
    | with_reducible assumption
    | intro _
    | extract_lets +onlyGivenNames x
    | with_reducible apply setLine_keeps
    | with_reducible apply leaveL2_keeps
    | split
    | with_reducible apply mOk_some
    | with_reducible apply mOk_map
    | with_reducible apply inv_foldl

theorem l1Fill_keeps : ∀ (s : State) (k line array : ℕ),
  Inv s → Inv (l1Fill s k line array) := by
  intros
  unfold l1Fill
  repeat' first
    | with_reducible assumption
    | intro _
    | (extract_lets +onlyGivenNames x; refine (fun (_ : Inv x) => ?_) ?_; clear_value x; rotate_left; subst x)
    | (extract_lets +onlyGivenNames x; clear_value x)
    | extract_lets +onlyGivenNames x
    | with_reducible apply setLine_keeps
    | split
    | with_reducible apply inv_foldl

theorem touchLine_keeps : ∀ (s : State) (k array line : ℕ),
  Inv s → Inv (touchLine s k array line) := by
  intros
  unfold touchLine
  repeat' first
    | with_reducible assumption
    | extract_lets +onlyGivenNames x
    | with_reducible apply enterL2_keeps
    | with_reducible apply l1Fill_keeps
    | split
    | refine inv_someS (by with_reducible assumption) ?_

theorem touch_keeps : ∀ (s : State) (k array pa n : ℕ),
  Inv s → Inv (touch s k array pa n) := by
  intros
  unfold touch
  repeat' first
    | with_reducible assumption
    | intro _
    | extract_lets +onlyGivenNames x
    | with_reducible apply touchLine_keeps
    | with_reducible apply inv_foldl

theorem putSide_keeps : ∀ (s : State) (k line : ℕ) (g : Moesi),
  Inv s → Inv (putSide s k line g) := by
  intros
  unfold putSide
  repeat' first
    | with_reducible assumption
    | (extract_lets +onlyGivenNames x; refine (fun (_ : Inv x) => ?_) ?_; clear_value x; rotate_left; subst x)
    | (extract_lets +onlyGivenNames x; clear_value x)
    | with_reducible apply leaveClean_keeps
    | with_reducible apply buffer_keeps
    | split

theorem install_keeps : ∀ (s : State) (k line : ℕ) (g : Moesi),
  Inv s → MOk Inv (install s k line g) := by
  intro s k line g h
  unfold install
  extract_lets m s1
  have h1 : Inv s1 := updC_keeps _ _ _ h
  split
  · exact mOk_some (putSide_keeps _ _ _ _ h1)
  · exact mOk_mapS (enterL2_keeps _ _ _ _ h1) (fun _ h => l1Fill_keeps _ _ _ _ h)


theorem ackFwd_keeps : ∀ (s : State) (f : Fwd) (k : RspKind) (dirty : Bool),
  Inv s → Inv (ackFwd s f k dirty) := by
  intros
  unfold ackFwd
  repeat' first
    | with_reducible assumption
    | with_reducible apply pushRsp_keeps

theorem ackOf_keeps : ∀ (s : State) (f : Fwd) (k : RspKind)
  (what : ReqKind),
  Inv s → Inv (ackOf s f k what) := by
  intros
  unfold ackOf
  repeat' first
    | with_reducible assumption
    | with_reducible apply pushRsp_keeps

theorem snpS_keeps : ∀ (s : State) (f : Fwd),
  Inv s → Inv (snpS s f) := by
  intros
  unfold snpS
  repeat' first
    | with_reducible assumption
    | extract_lets +onlyGivenNames x
    | with_reducible apply ackFwd_keeps
    | with_reducible apply regrant_keeps
    | with_reducible apply setLine_keeps
    | split

theorem snpO_keeps : ∀ (s : State) (f : Fwd),
  Inv s → Inv (snpO s f) := by
  intros
  unfold snpO
  repeat' first
    | with_reducible assumption
    | with_reducible apply ackFwd_keeps

theorem snpInv_keeps : ∀ (s : State) (f : Fwd),
  Inv s → Inv (snpInv s f) := by
  intros
  unfold snpInv
  repeat' first
    | with_reducible assumption
    | intro _
    | (extract_lets +onlyGivenNames x; clear_value x)
    | extract_lets +onlyGivenNames x
    | with_reducible apply ackFwd_keeps
    | with_reducible apply regrant_keeps
    | with_reducible apply dropLine_keeps
    | with_reducible apply inv_foldl

theorem stash_keeps : ∀ (s : State) (f : Fwd),
  Inv s → Inv (stash s f) := by
  intros
  unfold stash
  repeat' first
    | with_reducible assumption
    | extract_lets +onlyGivenNames x
    | with_reducible apply ackOf_keeps
    | with_reducible apply enterL2_keeps
    | split
    | refine inv_someS (by with_reducible assumption) ?_

theorem dupUpd_keeps : ∀ (s : State) (f : Fwd),
  Inv s → Inv (dupUpd s f) := by
  intros
  unfold dupUpd
  repeat' first
    | with_reducible assumption
    | extract_lets +onlyGivenNames x
    | with_reducible apply ackOf_keeps
    | with_reducible apply setDup_keeps

theorem takeSnoop_keeps : ∀ (s : State) (f : Fwd),
  Inv s → Inv (takeSnoop s f) := by
  intros
  unfold takeSnoop
  repeat' first
    | with_reducible assumption
    | with_reducible apply snpS_keeps
    | with_reducible apply snpO_keeps
    | with_reducible apply snpInv_keeps
    | with_reducible apply stash_keeps
    | with_reducible apply dupUpd_keeps
    | split

theorem offered_keeps : ∀ (s : State) (line core : ℕ) (took : Bool),
  Inv s → Inv (offered s line core took) := by
  intros
  unfold offered
  repeat' first
    | with_reducible assumption
    | (extract_lets +onlyGivenNames x; refine (fun (_ : Inv x) => ?_) ?_; clear_value x; rotate_left; subst x)
    | with_reducible apply setTxn_keeps
    | with_reducible apply demoted_keeps
    | with_reducible apply changeDir_keeps
    | with_reducible apply advanceTxn_keeps
    | split

theorem atHome_keeps : ∀ (s : State) (r : Rsp),
  Inv s → Inv (atHome s r) := by
  intros
  unfold atHome
  repeat' first
    | with_reducible assumption
    | with_reducible apply buddyDone_keeps
    | with_reducible apply offered_keeps
    | with_reducible apply snoopDone_keeps
    | split

theorem released_keeps : ∀ (s : State) (r : Rsp),
  Inv s → Inv (released s r) := by
  intros
  unfold released
  repeat' first
    | with_reducible assumption
    | with_reducible apply setLine_keeps
    | with_reducible apply dropLine_keeps
    | with_reducible apply holdReq_keeps
    | with_reducible apply updC_keeps
    | split

theorem granted_keeps : ∀ (s : State) (r : Rsp),
  Inv s → MOk Inv (granted s r) := by
  intros
  unfold granted
  repeat' first
    | with_reducible assumption
    | extract_lets +onlyGivenNames x
    | with_reducible apply install_keeps
    | with_reducible apply released_keeps
    | split
    | with_reducible apply mOk_some

theorem resendHeld_keeps : ∀ (s : State), Inv s → Inv (resendHeld s) := by
  intros
  unfold resendHeld
  repeat' first
    | with_reducible assumption
    | intro _
    | extract_lets +onlyGivenNames x
    | with_reducible apply toHome_keeps
    | with_reducible apply inv_foldl
    | fail_if_no_progress with_reducible apply inv_mk

theorem unhook_keeps : ∀ (s : State) (line : ℕ),
  Inv s → Inv (unhook s line) := by
  intros
  unfold unhook
  repeat' first
    | with_reducible assumption
    | intro _
    | (extract_lets +onlyGivenNames x; clear_value x)
    | extract_lets +onlyGivenNames x
    | with_reducible apply updM_keeps
    | with_reducible apply inv_foldl

theorem takeGrant_keeps : ∀ (s : State) (k : ℕ) (r : Rsp),
  Inv s → Inv (takeGrant s k r) := by
  intros
  unfold takeGrant
  repeat' first
    | with_reducible assumption
    | extract_lets +onlyGivenNames x
    | with_reducible apply install_keeps
    | with_reducible apply updC_keeps
    | with_reducible apply released_keeps
    | split
    | with_reducible apply inv_getD

theorem finishStep_keeps : ∀ (s : State) (line : ℕ),
  Inv s →
    MOk (fun (a : State × Option ℕ) => Inv a.1)
      (finishStep s line) := by
  intros
  unfold finishStep
  repeat' first
    | with_reducible assumption
    | intro _
    | (extract_lets +onlyGivenNames x; refine (fun (_ : Inv x) => ?_) ?_; clear_value x; rotate_left; subst x)
    | extract_lets +onlyGivenNames x
    | with_reducible apply takeSnoop_keeps
    | with_reducible apply atHome_keeps
    | with_reducible apply takeGrant_keeps
    | with_reducible apply memoryDone_keeps
    | with_reducible apply unhook_keeps
    | with_reducible apply advanceTxn_keeps
    | split
    | with_reducible apply mOk_some
    | with_reducible exact mOk_none
    | with_reducible apply mOk_map
    | fail_if_no_progress with_reducible apply inv_mk

theorem finishGo_keeps : ∀ (a : ℕ) (a_1 : State) (a_2 : List ℕ),
  Inv a_1 → Inv (finishGo a a_1 a_2) := by
  intro a0 a1 a2
  fun_induction finishGo a0 a1 a2 <;> intros
  all_goals repeat' first
    | with_reducible assumption
    | extract_lets +onlyGivenNames x
    | with_reducible apply finishStep_keeps
    | refine inv_someQ (by with_reducible assumption) ?_
    | with_reducible apply_assumption -exfalso -symm

theorem finishLine_keeps : ∀ (s : State) (line : ℕ),
  Inv s → Inv (finishLine s line) := by
  intros
  unfold finishLine
  repeat' first
    | with_reducible assumption
    | with_reducible apply finishGo_keeps

theorem dropAnswer_keeps : ∀ (s : State) (q : HomeReq),
  Inv s → Inv (dropAnswer s q) := by
  intros
  unfold dropAnswer
  repeat' first
    | with_reducible assumption
    | fail_if_no_progress with_reducible apply inv_mk

theorem homeDo_keeps : ∀ (s : State) (q : HomeReq),
  Inv s → MOk Inv (homeDo s q) := by
  intros
  unfold homeDo
  repeat' first
    | with_reducible assumption
    | (extract_lets +onlyGivenNames x; refine (fun (_ : Inv x) => ?_) ?_; clear_value x; rotate_left; subst x)
    | extract_lets +onlyGivenNames x
    | with_reducible apply finishLine_keeps
    | with_reducible apply dropAnswer_keeps
    | with_reducible apply admit_keeps
    | split
    | with_reducible apply mOk_some
    | with_reducible exact mOk_none

theorem letGo_keeps : ∀ (s : State) (k cls line : ℕ),
  Inv s → Inv (letGo s k cls line) := by
  intros
  unfold letGo
  repeat' first
    | with_reducible assumption
    | (extract_lets +onlyGivenNames x; refine (fun (_ : Inv x) => ?_) ?_; clear_value x; rotate_left; subst x)
    | extract_lets +onlyGivenNames x
    | with_reducible apply finishLine_keeps
    | with_reducible apply leaveClean_keeps
    | with_reducible apply homeDo_keeps
    | with_reducible apply setLine_keeps
    | with_reducible apply dropLine_keeps
    | with_reducible apply setDirBoth_keeps
    | with_reducible apply writeBack_keeps
    | split
    | refine inv_someS (by with_reducible assumption) ?_

theorem emptyCaches_keeps : ∀ (s : State) (k : ℕ),
  Inv s → Inv (emptyCaches s k) := by
  intros
  unfold emptyCaches
  repeat' first
    | with_reducible assumption
    | intro _
    | extract_lets +onlyGivenNames x
    | with_reducible apply updC_keeps
    | with_reducible apply letGo_keeps
    | with_reducible apply inv_foldl

theorem ownLine_keeps : ∀ (s : State) (k line : ℕ),
  Inv s → Inv (ownLine s k line) := by
  intro s0 k line h0
  unfold ownLine
  extract_lets s1
  have h : Inv s1 := touchLine_keeps _ _ _ _ (finishLine_keeps _ _ h0)
  clear_value s1
  split
  · exact setLine_keeps _ _ _ _ h
  · exact h
  · extract_lets s2 ask s3
    have h2 : Inv s2 := by
      show Inv (ite _ _ _)
      split
      · exact h
      · split
        · exact letGo_keeps _ _ _ _ h
        · exact h
    clear_value s2
    have ha : ∀ m kind, MOk Inv (ask m kind) := fun m kind => homeDo_keeps _ _ (updC_keeps _ _ _ h2)
    clear_value ask
    have h3 : Inv s3 := by
      show Inv (Option.getD (ite _ _ _) _)
      split <;> exact inv_getD (ha _ _) h2
    clear_value s3
    split
    · exact h3
    · exact writeBack_keeps _ _ _ (recallLine_keeps _ _ h3)


theorem homeWriteBy_keeps : ∀ (s : State) (who : Party) (hint : Option Hint) (pa : ℕ)
  (bs : List Byte),
  Inv s → Inv (homeWriteBy s who hint pa bs) := by
  intros
  unfold homeWriteBy
  repeat' first
    | with_reducible assumption
    | intro _
    | extract_lets +onlyGivenNames x
    | with_reducible apply homeDo_keeps
    | with_reducible apply writeBytes_keeps
    | with_reducible apply recallLine_keeps
    | with_reducible apply finishLine_keeps
    | with_reducible apply inv_foldl
    | with_reducible apply inv_getD

theorem homeWrite_keeps : ∀ (s : State) (pa : ℕ) (bs : List Byte),
  Inv s → Inv (homeWrite s pa bs) := by
  intros
  unfold homeWrite
  repeat' first
    | with_reducible assumption
    | with_reducible apply homeWriteBy_keeps

theorem homeAtom_keeps : ∀ (s : State) (who : Party) (home : Bool) (pa : ℕ) (bs : List Byte)
  (wr tag : Bool),
  Inv s → Inv (homeAtom s who home pa bs wr tag) := by
  intros
  unfold homeAtom
  repeat' first
    | with_reducible assumption
    | (extract_lets +onlyGivenNames x; refine (fun (_ : Inv x) => ?_) ?_; clear_value x; rotate_left; subst x)
    | extract_lets +onlyGivenNames x
    | with_reducible apply homeDo_keeps
    | with_reducible apply setTag_keeps
    | with_reducible apply writeBytes_keeps
    | with_reducible apply recallLine_keeps
    | with_reducible apply finishLine_keeps
    | split
    | refine inv_someS (by with_reducible assumption) ?_

theorem emptyWays_keeps : ∀ (s : State) (k : ℕ),
  Inv s → Inv (emptyWays s k) := by
  intros
  unfold emptyWays
  repeat' first
    | with_reducible assumption
    | intro _
    | (extract_lets +onlyGivenNames x; refine (fun (_ : Inv x) => ?_) ?_; clear_value x; rotate_left; subst x)
    | (extract_lets +onlyGivenNames x; clear_value x)
    | extract_lets +onlyGivenNames x
    | with_reducible apply updC_keeps
    | with_reducible apply letGo_keeps
    | with_reducible apply inv_foldl

theorem cleanLine_keeps : ∀ (s : State) (line : ℕ),
  Inv s → Inv (cleanLine s line) := by
  intros
  unfold cleanLine
  repeat' first
    | with_reducible assumption
    | intro _
    | (extract_lets +onlyGivenNames x; refine (fun (_ : Inv x) => ?_) ?_; clear_value x; rotate_left; subst x)
    | (extract_lets +onlyGivenNames x; clear_value x)
    | extract_lets +onlyGivenNames x
    | with_reducible apply finishLine_keeps
    | with_reducible apply updC_keeps
    | with_reducible apply changeDir_keeps
    | with_reducible apply l3Stale_keeps
    | with_reducible apply mcWrite_keeps
    | split
    | with_reducible apply inv_foldl

theorem flushLine_keeps : ∀ (s : State) (line : ℕ),
  Inv s → Inv (flushLine s line) := by
  intros
  unfold flushLine
  repeat' first
    | with_reducible assumption
    | (extract_lets +onlyGivenNames x; refine (fun (_ : Inv x) => ?_) ?_; clear_value x; rotate_left; subst x)
    | extract_lets +onlyGivenNames x
    | with_reducible apply cleanLine_keeps
    | with_reducible apply finishLine_keeps
    | with_reducible apply setL3_keeps
    | with_reducible apply changeDir_keeps
    | with_reducible apply dropCopies_keeps

end Sys2Proof.Machine
end

