-- ==== Sys2Proof/Laws/KeepsHostPort.lean ====
section
/-! SUPPORT. The invariant under the definitions of Machine/HostPort.lean. -/

namespace Sys2Proof.Machine

set_option linter.all false

theorem putP_keeps : ∀ (s : State) (p : ℕ) (x : Port),
  Inv s → Inv (putP s p x) := by
  intros
  unfold putP
  repeat' first
    | with_reducible assumption
    | fail_if_no_progress with_reducible apply inv_mk

theorem updP_keeps : ∀ (s : State) (p : ℕ) (f : Port → Port),
  Inv s → Inv (updP s p f) := by
  intros
  unfold updP
  repeat' first
    | with_reducible assumption
    | with_reducible apply putP_keeps

theorem instCount_keeps : ∀ (s : State) (p i k n : ℕ),
  Inv s → Inv (instCount s p i k n) := by
  intros
  unfold instCount
  repeat' first
    | with_reducible assumption
    | with_reducible apply State.putR_keeps

theorem updI_keeps : ∀ (s : State) (p i : ℕ) (f : Inst → Inst),
  Inv s → Inv (updI s p i f) := by
  intros
  unfold updI
  repeat' first
    | with_reducible assumption
    | with_reducible apply updP_keeps

theorem sentBytes_keeps : ∀ (s : State) (p i n : ℕ),
  Inv s → Inv (sentBytes s p i n) := by
  intros
  unfold sentBytes
  repeat' first
    | with_reducible assumption
    | with_reducible apply updI_keeps

theorem readSent_keeps : ∀ (s : State) (p i a n : ℕ) (tag : Option ℕ),
  Inv s → Inv (readSent s p i a n tag) := by
  intros
  unfold readSent
  repeat' first
    | with_reducible assumption
    | (extract_lets +onlyGivenNames x; refine (fun (_ : Inv x) => ?_) ?_; clear_value x; rotate_left; subst x)
    | with_reducible apply sentBytes_keeps
    | with_reducible apply updP_keeps
    | with_reducible apply bwAdd_keeps

theorem hostRequest_keeps : ∀ (s : State) (p i : ℕ) (who : ReqFor) (addr len : ℕ)
  (atom : Option HostAtom),
  Inv s → Inv (hostRequest s p i who addr len atom) := by
  intros
  unfold hostRequest
  repeat' first
    | with_reducible assumption
    | (extract_lets +onlyGivenNames x; refine (fun (_ : Inv x) => ?_) ?_; clear_value x; rotate_left; subst x)
    | (extract_lets +onlyGivenNames x; clear_value x)
    | with_reducible apply putP_keeps
    | with_reducible apply readSent_keeps
    | split

theorem assignTags_keeps : ∀ (s : State) (p : ℕ),
  Inv s → Inv (assignTags s p) := by
  intros
  unfold assignTags
  repeat' first
    | with_reducible assumption
    | intro _
    | (extract_lets +onlyGivenNames x; clear_value x)
    | extract_lets +onlyGivenNames x
    | with_reducible apply readSent_keeps
    | with_reducible apply putP_keeps
    | split
    | with_reducible apply inv_foldl

theorem logEntry_keeps : ∀ (s : State) (p at_ : ℕ) (e : List Byte),
  Inv s → Inv (logEntry s p at_ e) := by
  intros
  unfold logEntry
  repeat' first
    | with_reducible assumption
    | with_reducible apply homeWrite_keeps
    | with_reducible apply writeHost_keeps
    | split


theorem logPage_keeps : ∀ (s : State) (p i page : ℕ),
  Inv s → Inv (logPage s p i page) := by
  intros
  unfold logPage
  repeat' first
    | with_reducible assumption
    | (extract_lets +onlyGivenNames x; refine (fun (_ : Inv x) => ?_) ?_; clear_value x; rotate_left; subst x)
    | (extract_lets +onlyGivenNames x; clear_value x)
    | with_reducible apply State.putR_keeps
    | with_reducible apply logEntry_keeps
    | with_reducible apply updI_keeps
    | split


theorem hostWrite_keeps : ∀ (s : State) (p i a : ℕ) (bs : List Byte) (data : Bool),
  Inv s → Inv (hostWrite s p i a bs data) := by
  intros
  unfold hostWrite
  repeat' first
    | with_reducible assumption
    | intro _
    | (extract_lets +onlyGivenNames x; refine (fun (_ : Inv x) => ?_) ?_; clear_value x; rotate_left; subst x)
    | (extract_lets +onlyGivenNames x; clear_value x)
    | extract_lets +onlyGivenNames x
    | with_reducible apply updP_keeps
    | with_reducible apply logPage_keeps
    | with_reducible apply writeHost_keeps
    | with_reducible apply instCount_keeps
    | with_reducible apply sentBytes_keeps
    | with_reducible apply bwAdd_keeps
    | with_reducible apply inv_foldl

theorem setPba_keeps : ∀ (s : State) (p i v : ℕ) (b : Bool),
  Inv s → Inv (setPba s p i v b) := by
  intros
  unfold setPba
  repeat' first
    | with_reducible assumption
    | with_reducible apply updP_keeps

theorem msixMessage_keeps : ∀ (s : State) (p i v : ℕ),
  Inv s → Inv (msixMessage s p i v) := by
  intros
  unfold msixMessage
  repeat' first
    | with_reducible assumption
    | (extract_lets +onlyGivenNames x; clear_value x)
    | extract_lets +onlyGivenNames x
    | with_reducible apply setPba_keeps
    | with_reducible apply updP_keeps

theorem msixEvent_keeps : ∀ (s : State) (p i v : ℕ),
  Inv s → Inv (msixEvent s p i v) := by
  intros
  unfold msixEvent
  repeat' first
    | with_reducible assumption
    | with_reducible apply msixMessage_keeps
    | with_reducible apply setPba_keeps
    | split

theorem msixRelease_keeps : ∀ (s : State) (p i : ℕ),
  Inv s → Inv (msixRelease s p i) := by
  intros
  unfold msixRelease
  repeat' first
    | with_reducible assumption
    | intro _
    | extract_lets +onlyGivenNames x
    | with_reducible apply msixMessage_keeps
    | split
    | with_reducible apply inv_foldl

theorem hostStore_keeps : ∀ (s : State) (t : Tid) (p a : ℕ) (bs : List Byte),
  Inv s → Inv (hostStore s t p a bs) := by
  intros
  unfold hostStore
  repeat' first
    | with_reducible assumption
    | with_reducible apply logRecord_keeps
    | with_reducible apply hostWrite_keeps
    | split

end Sys2Proof.Machine
end

