-- ==== Sys2Proof/Laws/KeepsRings.lean ====
section
/-! SUPPORT. The invariant under the definitions of Machine/Rings.lean. -/

namespace Sys2Proof.Machine

set_option linter.all false

theorem putCh_keeps : ∀ (s : State) (g : ℕ) (c : Chan),
  Inv s → Inv (putCh s g c) := by
  intros
  unfold putCh
  repeat' first
    | with_reducible assumption
    | fail_if_no_progress with_reducible apply inv_mk

theorem updCh_keeps : ∀ (s : State) (g : ℕ) (f : Chan → Chan),
  Inv s → Inv (updCh s g f) := by
  intros
  unfold updCh
  repeat' first
    | with_reducible assumption
    | with_reducible apply putCh_keeps

theorem updDesc_keeps : ∀ (s : State) (g slot : ℕ) (f : Desc → Desc),
  Inv s → Inv (updDesc s g slot f) := by
  intros
  unfold updDesc
  repeat' first
    | with_reducible assumption
    | with_reducible apply updCh_keeps

theorem dropReads_keeps : ∀ (s : State) (g slot : ℕ),
  Inv s → Inv (dropReads s g slot) := by
  intros
  unfold dropReads
  repeat' first
    | with_reducible assumption
    | intro _
    | extract_lets +onlyGivenNames x
    | with_reducible apply updP_keeps
    | split
    | with_reducible apply inv_foldl

theorem endDesc_keeps : ∀ (s : State) (g slot st res : ℕ),
  Inv s → Inv (endDesc s g slot st res) := by
  intros
  unfold endDesc
  repeat' first
    | with_reducible assumption
    | (extract_lets +onlyGivenNames x; refine (fun (_ : Inv x) => ?_) ?_; clear_value x; rotate_left; subst x)
    | with_reducible apply dropReads_keeps
    | with_reducible apply updDesc_keeps
    | fail_if_no_progress with_reducible apply inv_mk

theorem cutDesc_keeps : ∀ (s : State) (g : ℕ) (d : Desc) (st : ℕ),
  Inv s → Inv (cutDesc s g d st) := by
  intros
  unfold cutDesc
  repeat' first
    | with_reducible assumption
    | with_reducible apply updDesc_keeps
    | with_reducible apply endDesc_keeps
    | split

theorem cutAll_keeps : ∀ (s : State) (g st : ℕ),
  Inv s → Inv (cutAll s g st) := by
  intros
  unfold cutAll
  repeat' first
    | with_reducible assumption
    | intro _
    | extract_lets +onlyGivenNames x
    | with_reducible apply cutDesc_keeps
    | with_reducible apply inv_foldl

theorem endUnit_keeps : ∀ (s : State) (u st : ℕ),
  Inv s → Inv (endUnit s u st) := by
  intros
  unfold endUnit
  repeat' first
    | with_reducible assumption
    | with_reducible apply endDesc_keeps
    | split

theorem chanSet_keeps : ∀ (s : State) (g st cause : ℕ),
  Inv s → Inv (chanSet s g st cause) := by
  intros
  unfold chanSet
  repeat' first
    | with_reducible assumption
    | with_reducible apply updCh_keeps

theorem chanStopAs_keeps : ∀ (s : State) (g cause : ℕ),
  Inv s → Inv (chanStopAs s g cause) := by
  intros
  unfold chanStopAs
  repeat' first
    | with_reducible assumption
    | with_reducible apply chanSet_keeps
    | split

theorem chanHalt_keeps : ∀ (s : State) (g cause : ℕ),
  Inv s → Inv (chanHalt s g cause) := by
  intros
  unfold chanHalt
  repeat' first
    | with_reducible assumption
    | (extract_lets +onlyGivenNames x; clear_value x)
    | with_reducible apply chanSet_keeps
    | split

theorem checkDoorbell_keeps : ∀ (s : State) (g : ℕ),
  Inv s → Inv (checkDoorbell s g) := by
  intros
  unfold checkDoorbell
  repeat' first
    | with_reducible assumption
    | (extract_lets +onlyGivenNames x; clear_value x)
    | with_reducible apply chanHalt_keeps
    | split

theorem slotWrite_keeps : ∀ (s : State) (g off : ℕ) (wide : Bool) (v : Word),
  Inv s → Inv (slotWrite s g off wide v) := by
  intros
  unfold slotWrite
  repeat' first
    | with_reducible assumption
    | intro _
    | (extract_lets +onlyGivenNames x; refine (fun (_ : ∀ s, Inv s → Inv (x s)) => ?_) ?_; clear_value x; rotate_left; subst x)
    | (extract_lets +onlyGivenNames x; clear_value x)
    | extract_lets +onlyGivenNames x
    | with_reducible apply updCh_keeps
    | with_reducible apply checkDoorbell_keeps
    | split
    | dsimp -zeta only
    | with_reducible apply_assumption -exfalso -symm

theorem chanIrq_keeps : ∀ (s : State) (g : ℕ),
  Inv s → Inv (chanIrq s g) := by
  intros
  unfold chanIrq
  repeat' first
    | with_reducible assumption
    | (extract_lets +onlyGivenNames x; refine (fun (_ : Inv x) => ?_) ?_; clear_value x; rotate_left; subst x)
    | (extract_lets +onlyGivenNames x; clear_value x)
    | with_reducible apply updCh_keeps
    | with_reducible apply msixEvent_keeps
    | with_reducible apply sendIrq_keeps
    | split

end Sys2Proof.Machine
end

