-- ==== Sys2Proof/Laws/KeepsXlat.lean ====
section
/-! SUPPORT. The invariant under the definitions of Machine/Xlat.lean. -/

namespace Sys2Proof.Machine

set_option linter.all false

theorem casLeaf_keeps : ∀ (s : State) (who : Party) (place : Option ℕ) (leaf : Word)
  (f : Fld),
  Inv s → MOk Inv (casLeaf s who place leaf f) := by
  intros
  unfold casLeaf
  repeat' first
    | with_reducible assumption
    | (extract_lets +onlyGivenNames x; refine (fun (_ : Inv x) => ?_) ?_; clear_value x; rotate_left; subst x)
    | extract_lets +onlyGivenNames x
    | with_reducible apply finishLine_keeps
    | with_reducible apply homeAtom_keeps
    | split
    | with_reducible apply mOk_some
    | with_reducible exact mOk_none

theorem casLeaves_keeps : ∀ (s : State) (who : Party) (e : TlbEnt)
  (f : Fld),
  Inv s → MOk Inv (casLeaves s who e f) := by
  intros
  unfold casLeaves
  repeat' first
    | with_reducible assumption
    | extract_lets +onlyGivenNames x
    | with_reducible apply casLeaf_keeps
    | split
    | with_reducible exact mOk_none
    | refine inv_someS (by with_reducible assumption) ?_

end Sys2Proof.Machine
end

