-- ==== Sys2Proof/Laws/KeepsEngMem.lean ====
section
/-! SUPPORT. The invariant under the definitions of Machine/EngMem.lean. -/

namespace Sys2Proof.Machine

set_option linter.all false

theorem fillX_keeps : ∀ (s : State) (f : ℕ) (e : TlbEnt) (ws : List WalkEnt),
  Inv s → Inv (fillX s f e ws) := by
  intros
  unfold fillX
  repeat' first
    | with_reducible assumption
    | (extract_lets +onlyGivenNames x; clear_value x)
    | fail_if_no_progress with_reducible apply inv_mk

theorem dropX_keeps : ∀ (s : State) (g va : ℕ),
  Inv s → Inv (dropX s g va) := by
  intros
  unfold dropX
  repeat' first
    | with_reducible assumption
    | (extract_lets +onlyGivenNames x; clear_value x)
    | fail_if_no_progress with_reducible apply inv_mk

theorem putX_keeps : ∀ (s : State) (g : ℕ) (e e' : TlbEnt),
  Inv s → Inv (putX s g e e') := by
  intros
  unfold putX
  repeat' first
    | with_reducible assumption
    | (extract_lets +onlyGivenNames x; clear_value x)
    | fail_if_no_progress with_reducible apply inv_mk

theorem engWalk_keeps : ∀ (a : ℕ) (a_1 : State) (a_2 : ℕ) (a_3 : XKind) (a_4 : ℕ),
  Inv a_1 →
    EOk (fun (a : Xl × State) => Inv a.2)
      (engWalk a a_1 a_2 a_3 a_4) := by
  intro a0 a1 a2 a3 a4
  fun_induction engWalk a0 a1 a2 a3 a4 <;> intros
  all_goals repeat' first
    | with_reducible assumption
    | extract_lets +onlyGivenNames x
    | with_reducible apply dropX_keeps
    | with_reducible apply casLeaves_keeps
    | with_reducible apply fillX_keeps
    | split
    | with_reducible apply eOk_ok
    | with_reducible apply eOk_error
    | refine inv_someS (by with_reducible assumption) ?_
    | with_reducible apply_assumption -exfalso -symm

theorem engDirty_keeps : ∀ (g a a_1 : ℕ) (a_2 : State) (a_3 : Xl),
  Inv a_2 →
    EOk (fun (a : Xl × State) => Inv a.2)
      (engDirty g a a_1 a_2 a_3) := by
  intro a0 a1 a2 a3 a4
  fun_induction engDirty a0 a1 a2 a3 a4 <;> intros
  all_goals repeat' first
    | with_reducible assumption
    | extract_lets +onlyGivenNames x
    | with_reducible apply dropX_keeps
    | with_reducible apply casLeaves_keeps
    | with_reducible apply putX_keeps
    | with_reducible apply engWalk_keeps
    | with_reducible apply eOk_ok
    | with_reducible apply eOk_error
    | refine inv_okP (by with_reducible assumption) ?_
    | refine inv_errP (by with_reducible assumption) ?_
    | refine inv_someS (by with_reducible assumption) ?_
    | with_reducible apply_assumption -exfalso -symm

theorem engNoTarget_keeps : ∀ (s : State) (u pa : ℕ),
  Inv s → Inv (engNoTarget s u pa) := by
  intros
  unfold engNoTarget
  repeat' first
    | with_reducible assumption
    | with_reducible apply logRecord_keeps

theorem engXlat_keeps : ∀ (s : State) (g u : ℕ) (write : Bool) (a : ℕ),
  Inv s →
    EOk (fun (a : State × EPlace) => Inv a.1)
      (engXlat s g u write a) := by
  intros
  unfold engXlat
  repeat' first
    | with_reducible assumption
    | extract_lets +onlyGivenNames x
    | with_reducible apply engWalk_keeps
    | with_reducible apply engNoTarget_keeps
    | with_reducible apply engDirty_keeps
    | split
    | with_reducible apply eOk_ok
    | with_reducible apply eOk_error
    | refine inv_okP (by with_reducible assumption) ?_
    | refine inv_errP (by with_reducible assumption) ?_

theorem engPlaces_keeps : ∀ (s : State) (g u : ℕ) (write : Bool) (a : List (ℕ × ℕ)),
  Inv s →
    EOk
      (fun (a : State × List (EPlace × ℕ)) => Inv a.1)
      (engPlaces s g u write a) := by
  intro a0 a1 a2 a3 a4
  fun_induction engPlaces a0 a1 a2 a3 a4 <;> intros
  all_goals repeat' first
    | with_reducible assumption
    | intro _
    | extract_lets +onlyGivenNames x
    | with_reducible apply engXlat_keeps
    | split
    | with_reducible apply eOk_ok
    | with_reducible apply eOk_bindQ
    | refine inv_pairQ (by with_reducible assumption) ?_
    | with_reducible apply_assumption -exfalso -symm

theorem hostGo_keeps : ∀ (s : State) (p i : ℕ),
  Inv s → EOk (fun (a : PUnit.{1}) => True) (hostGo s p i) := by
  intros
  unfold hostGo
  repeat' first
    | with_reducible assumption
    | exact True.intro
    | split
    | with_reducible apply eOk_ok
    | with_reducible apply eOk_error

theorem askHost_keeps : ∀ (s : State) (g slot : ℕ) (a : List (EPlace × ℕ)),
  Inv s →
    EOk (fun (a : State × ℕ) => Inv a.1)
      (askHost s g slot a) := by
  intro s g slot qs
  induction qs generalizing s with
  | nil => intro h; unfold askHost; exact eOk_ok h
  | cons q qs ih =>
    intro h
    obtain ⟨p, n⟩ := q
    cases p with
    | mem pa => unfold askHost; exact ih s h
    | host p i a =>
      unfold askHost
      extract_lets ps s1
      have h1 : Inv s1 := inv_foldl h (fun _ _ h => hostRequest_keeps _ _ _ _ _ _ _ h)
      clear_value s1
      refine eOk_bind (fun _ => True) (hostGo_keeps _ _ _ h) (fun _ _ => ?_)
      refine eOk_bindQ (ih _ h1) (fun _ _ h => eOk_ok h)

theorem readPlace_keeps : ∀ (s : State) (q : EPlace) (n : ℕ),
  Inv s →
    EOk (fun (a : List Byte) => True) (readPlace s q n) := by
  intros
  unfold readPlace
  repeat' first
    | with_reducible assumption
    | exact True.intro
    | split
    | with_reducible apply eOk_ok
    | with_reducible apply eOk_error

theorem readPlaces_keeps : ∀ (s : State) (a : List (EPlace × ℕ)),
  Inv s →
    EOk (fun (a : List Byte) => True) (readPlaces s a) := by
  intro a0 a1
  fun_induction readPlaces a0 a1 <;> intros
  all_goals repeat' first
    | with_reducible assumption
    | exact True.intro
    | intro _
    | extract_lets +onlyGivenNames x
    | with_reducible apply readPlace_keeps
    | with_reducible apply eOk_ok
    | with_reducible apply eOk_bindA
    | with_reducible apply_assumption -exfalso -symm

theorem gather_keeps : ∀ (s : State) (g : ℕ) (d : Desc) (u : ℕ) (rs : List (ℕ × ℕ)),
  Inv s →
    EOk
      (fun (a : State × Option (List Byte)) => Inv a.1)
      (gather s g d u rs) := by
  intros
  unfold gather
  repeat' first
    | with_reducible assumption
    | intro _
    | extract_lets +onlyGivenNames x
    | with_reducible apply engPlaces_keeps
    | with_reducible apply askHost_keeps
    | with_reducible apply updDesc_keeps
    | with_reducible apply readPlaces_keeps
    | split
    | with_reducible apply eOk_ok
    | with_reducible apply eOk_error
    | with_reducible apply eOk_bindQ
    | with_reducible apply eOk_bindA
    | refine inv_pairQ (by with_reducible assumption) ?_

theorem writeCheck_keeps : ∀ (s : State) (a : List (EPlace × ℕ)),
  Inv s → EOk (fun (a : PUnit.{1}) => True) (writeCheck s a) := by
  intro a0 a1
  fun_induction writeCheck a0 a1 <;> intros
  all_goals repeat' first
    | with_reducible assumption
    | exact True.intro
    | intro _
    | extract_lets +onlyGivenNames x
    | with_reducible apply hostGo_keeps
    | with_reducible apply eOk_ok
    | with_reducible apply eOk_error
    | with_reducible apply eOk_bindA
    | with_reducible apply_assumption -exfalso -symm

theorem dropHints_keeps : ∀ (s : State) (hint : Option Hint) (pa n : ℕ),
  Inv s → Inv (dropHints s hint pa n) := by
  intros
  unfold dropHints
  repeat' first
    | with_reducible assumption
    | intro _
    | extract_lets +onlyGivenNames x
    | with_reducible apply demoted_keeps
    | split
    | with_reducible apply inv_foldl

theorem placeWrite_keeps : ∀ (s : State) (u : ℕ) (q : EPlace) (hint : Option Hint)
  (bs : List Byte),
  Inv s → Inv (placeWrite s u q hint bs) := by
  intros
  unfold placeWrite
  repeat' first
    | with_reducible assumption
    | extract_lets +onlyGivenNames x
    | with_reducible apply dropHints_keeps
    | with_reducible apply hostWrite_keeps
    | with_reducible apply homeWriteBy_keeps
    | split

theorem writePlaces_keeps : ∀ (s : State) (u : ℕ) (hint : Option Hint)
  (a : List (EPlace × ℕ)) (a_1 : List Byte),
  Inv s → Inv (writePlaces s u hint a a_1) := by
  intro a0 a1 a2 a3 a4
  fun_induction writePlaces a0 a1 a2 a3 a4 <;> intros
  all_goals repeat' first
    | with_reducible assumption
    | with_reducible apply placeWrite_keeps
    | with_reducible apply_assumption -exfalso -symm

theorem scatter_keeps : ∀ (s : State) (g u : ℕ) (hint : Option Hint) (rs : List (ℕ × ℕ))
  (bs : List Byte),
  Inv s → EOk Inv (scatter s g u hint rs bs) := by
  intros
  unfold scatter
  repeat' first
    | with_reducible assumption
    | intro _
    | extract_lets +onlyGivenNames x
    | with_reducible apply engPlaces_keeps
    | with_reducible apply writeCheck_keeps
    | with_reducible apply writePlaces_keeps
    | split
    | with_reducible apply eOk_ok
    | with_reducible apply eOk_bindQ
    | with_reducible apply eOk_bindA
    | refine inv_pairQ (by with_reducible assumption) ?_

theorem orEnd_keeps : ∀ (g : ℕ) (d : Desc) (x : E State),
  EOk Inv x → Inv (orEnd g d x) := by
  intros
  unfold orEnd
  repeat' first
    | extract_lets +onlyGivenNames x
    | with_reducible apply endDesc_keeps
    | split
    | refine inv_ok (by with_reducible assumption)
    | refine inv_error (by with_reducible assumption)

end Sys2Proof.Machine
end

