-- ==== Sys2Proof/Laws/KeepsSched.lean ====
section
/-! SUPPORT. The invariant under the definitions of Machine/Sched.lean. -/

namespace Sys2Proof.Machine

set_option linter.all false

theorem dropFetch_keeps : ∀ (s : State) (g : ℕ),
  Inv s → Inv (dropFetch s g) := by
  intros
  unfold dropFetch
  repeat' first
    | with_reducible assumption
    | intro _
    | (extract_lets +onlyGivenNames x; refine (fun (_ : Inv x) => ?_) ?_; clear_value x; rotate_left; subst x)
    | (extract_lets +onlyGivenNames x; clear_value x)
    | extract_lets +onlyGivenNames x
    | with_reducible apply updCh_keeps
    | with_reducible apply updP_keeps
    | split
    | with_reducible apply inv_foldl

theorem fetchNext_keeps : ∀ (s : State) (g : ℕ),
  Inv s → Inv (fetchNext s g) := by
  intros
  unfold fetchNext
  repeat' first
    | with_reducible assumption
    | intro _
    | (extract_lets +onlyGivenNames x; refine (fun (_ : ∀ s a, Inv s → Inv (x s a)) => ?_) ?_; clear_value x; rotate_left; subst x)
    | (extract_lets +onlyGivenNames x; clear_value x)
    | extract_lets +onlyGivenNames x
    | with_reducible apply updCh_keeps
    | with_reducible apply engXlat_keeps
    | with_reducible apply hostGo_keeps
    | with_reducible apply hostRequest_keeps
    | with_reducible apply readPlace_keeps
    | split
    | refine inv_okQ (by with_reducible assumption) ?_
    | refine inv_errQ (by with_reducible assumption) ?_
    | refine inv_errA (by with_reducible assumption) ?_
    | with_reducible apply_assumption -exfalso -symm

theorem pushDesc_keeps : ∀ (s : State) (g : ℕ) (f : Desc → Desc),
  Inv s → Inv (pushDesc s g f) := by
  intros
  unfold pushDesc
  repeat' first
    | with_reducible assumption
    | (extract_lets +onlyGivenNames x; clear_value x)
    | with_reducible apply putCh_keeps

theorem flushGo_keeps : ∀ (a : ℕ) (a_1 : State) (a_2 : ℕ),
  Inv a_1 → Inv (flushGo a a_1 a_2) := by
  intro n
  induction n with
  | zero => intro s g h; unfold flushGo; exact h
  | succ n ih =>
    intro s g h
    unfold flushGo
    extract_lets c s1
    have h1 : Inv s1 := by
      unfold s1; split
      · exact fetchNext_keeps _ _ h
      · exact h
    clear_value s1
    split
    · exact h
    · split
      · exact updCh_keeps _ _ _ h
      · split
        · exact h1
        · exact ih _ _ (pushDesc_keeps _ _ _ h1)

theorem fetchDone_keeps : ∀ (s : State) (g slot : ℕ) (f : Fetch),
  Inv s → Inv (fetchDone s g slot f) := by
  intros
  unfold fetchDone
  repeat' first
    | with_reducible assumption
    | (extract_lets +onlyGivenNames x; refine (fun (_ : Inv x) => ?_) ?_; clear_value x; rotate_left; subst x)
    | (extract_lets +onlyGivenNames x; clear_value x)
    | with_reducible apply putCh_keeps
    | with_reducible apply flushGo_keeps
    | split

theorem refreshChan_keeps : ∀ (s : State) (g : ℕ),
  Inv s → Inv (refreshChan s g) := by
  intros
  unfold refreshChan
  repeat' first
    | with_reducible assumption
    | intro _
    | (extract_lets +onlyGivenNames x; refine (fun (_ : Inv x) => ?_) ?_; clear_value x; rotate_left; subst x)
    | extract_lets +onlyGivenNames x
    | with_reducible apply chanSet_keeps
    | with_reducible apply dropFetch_keeps
    | with_reducible apply updCh_keeps
    | split
    | with_reducible apply inv_elim

theorem resetIndices_keeps : ∀ (s : State) (g : ℕ),
  Inv s → Inv (resetIndices s g) := by
  intros
  unfold resetIndices
  repeat' first
    | with_reducible assumption
    | extract_lets +onlyGivenNames x
    | with_reducible apply updCh_keeps
    | with_reducible apply dropFetch_keeps

theorem chanAct_keeps : ∀ (s : State) (g cmd : ℕ) (clean : Bool),
  Inv s → Inv (chanAct s g cmd clean) := by
  intros
  unfold chanAct
  repeat' first
    | with_reducible assumption
    | (extract_lets +onlyGivenNames x; refine (fun (_ : Inv x) => ?_) ?_; clear_value x; rotate_left; subst x)
    | (extract_lets +onlyGivenNames x; clear_value x)
    | extract_lets +onlyGivenNames x
    | with_reducible apply updCh_keeps
    | with_reducible apply refreshChan_keeps
    | with_reducible apply checkDoorbell_keeps
    | with_reducible apply chanSet_keeps
    | with_reducible apply cutAll_keeps
    | with_reducible apply flushGo_keeps
    | with_reducible apply resetIndices_keeps
    | split

theorem chanCommand_keeps : ∀ (s : State) (g cmd : ℕ) (clean : Bool),
  Inv s → Inv (chanCommand s g cmd clean) := by
  intros
  unfold chanCommand
  repeat' first
    | with_reducible assumption
    | with_reducible apply chanAct_keeps
    | with_reducible apply updCh_keeps
    | split

theorem heldGo_keeps : ∀ (s : State) (g : ℕ),
  Inv s → Inv (heldGo s g) := by
  intros
  unfold heldGo
  repeat' first
    | with_reducible assumption
    | intro _
    | extract_lets +onlyGivenNames x
    | with_reducible apply chanAct_keeps
    | with_reducible apply updCh_keeps
    | split
    | with_reducible apply inv_foldl

theorem heldAll_keeps : ∀ (s : State) (f : ℕ),
  Inv s → Inv (heldAll s f) := by
  intros
  unfold heldAll
  repeat' first
    | with_reducible assumption
    | intro _
    | extract_lets +onlyGivenNames x
    | with_reducible apply heldGo_keeps
    | with_reducible apply inv_foldl

theorem command_keeps : ∀ (s : State) (r : Requester) (g cmd : ℕ),
  Inv s → Inv (command s r g cmd) := by
  intros
  unfold command
  repeat' first
    | with_reducible assumption
    | with_reducible apply chanCommand_keeps
    | split

theorem execRefresh_keeps : ∀ (r : Requester) (g : Fin 8192) (s : State),
  Inv s → OutOk (execRefresh r g s) := by
  intros
  unfold execRefresh
  repeat' first
    | with_reducible assumption
    | extract_lets +onlyGivenNames x
    | with_reducible apply command_keeps
    | with_reducible apply outOk_next

theorem execChanStart_keeps : ∀ (r : Requester) (g : Fin 8192) (s : State),
  Inv s → OutOk (execChanStart r g s) := by
  intros
  unfold execChanStart
  repeat' first
    | with_reducible assumption
    | extract_lets +onlyGivenNames x
    | with_reducible apply command_keeps
    | with_reducible apply outOk_next

theorem execChanStop_keeps : ∀ (r : Requester) (g : Fin 8192) (s : State),
  Inv s → OutOk (execChanStop r g s) := by
  intros
  unfold execChanStop
  repeat' first
    | with_reducible assumption
    | extract_lets +onlyGivenNames x
    | with_reducible apply command_keeps
    | with_reducible apply outOk_next

theorem execAbort_keeps : ∀ (r : Requester) (g : Fin 8192) (s : State),
  Inv s → OutOk (execAbort r g s) := by
  intros
  unfold execAbort
  repeat' first
    | with_reducible assumption
    | extract_lets +onlyGivenNames x
    | with_reducible apply command_keeps
    | with_reducible apply outOk_next

theorem execFlush_keeps : ∀ (r : Requester) (g : Fin 8192) (s : State),
  Inv s → OutOk (execFlush r g s) := by
  intros
  unfold execFlush
  repeat' first
    | with_reducible assumption
    | extract_lets +onlyGivenNames x
    | with_reducible apply command_keeps
    | with_reducible apply outOk_next

theorem execChanReset_keeps : ∀ (r : Requester) (g : Fin 8192) (s : State),
  Inv s → OutOk (execChanReset r g s) := by
  intros
  unfold execChanReset
  repeat' first
    | with_reducible assumption
    | extract_lets +onlyGivenNames x
    | with_reducible apply command_keeps
    | with_reducible apply outOk_next

theorem execChannelStopped_keeps : ∀ (g : Fin 8192) (s : State),
  Inv s → OutOk (execChannelStopped g s) := by
  intros
  unfold execChannelStopped
  repeat' first
    | with_reducible assumption
    | (extract_lets +onlyGivenNames x; clear_value x)
    | extract_lets +onlyGivenNames x
    | with_reducible apply updCh_keeps
    | split
    | with_reducible apply outOk_next

theorem execDoorbellWrite_keeps : ∀ (r : Requester) (g : Fin 8192) (off : BitVec 6) (wide : Bool) (v : Word)
  (s : State),
  Inv s → OutOk (execDoorbellWrite r g off wide v s) := by
  intros
  unfold execDoorbellWrite
  repeat' first
    | with_reducible assumption
    | extract_lets +onlyGivenNames x
    | with_reducible apply slotWrite_keeps
    | split
    | with_reducible apply outOk_next

theorem pollDone_keeps : ∀ (s : State) (g : ℕ) (w : Option ℕ),
  Inv s → Inv (pollDone s g w) := by
  intros
  unfold pollDone
  repeat' first
    | with_reducible assumption
    | (extract_lets +onlyGivenNames x; clear_value x)
    | extract_lets +onlyGivenNames x
    | with_reducible apply checkDoorbell_keeps
    | with_reducible apply putCh_keeps

theorem execDoorbellPoll_keeps : ∀ (g : Fin 8192) (s : State),
  Inv s → OutOk (execDoorbellPoll g s) := by
  intros
  unfold execDoorbellPoll
  repeat' first
    | with_reducible assumption
    | (extract_lets +onlyGivenNames x; clear_value x)
    | extract_lets +onlyGivenNames x
    | with_reducible apply engXlat_keeps
    | with_reducible apply pollDone_keeps
    | with_reducible apply hostGo_keeps
    | with_reducible apply updCh_keeps
    | with_reducible apply hostRequest_keeps
    | with_reducible apply readPlace_keeps
    | split
    | with_reducible apply outOk_next
    | refine inv_okQ (by with_reducible assumption) ?_
    | refine inv_errQ (by with_reducible assumption) ?_
    | refine inv_errA (by with_reducible assumption) ?_

theorem endTurns_keeps : ∀ (s : State) (g : ℕ),
  Inv s → Inv (endTurns s g) := by
  intros
  unfold endTurns
  repeat' first
    | with_reducible assumption
    | intro _
    | extract_lets +onlyGivenNames x
    | with_reducible apply updCh_keeps
    | with_reducible apply inv_foldl

theorem takeTurn_keeps : ∀ (s : State) (g : ℕ),
  Inv s → Inv (takeTurn s g) := by
  intros
  unfold takeTurn
  repeat' first
    | with_reducible assumption
    | (extract_lets +onlyGivenNames x; refine (fun (_ : Inv x) => ?_) ?_; clear_value x; rotate_left; subst x)
    | (extract_lets +onlyGivenNames x; clear_value x)
    | with_reducible apply endTurns_keeps
    | with_reducible apply putCh_keeps
    | with_reducible apply updI_keeps
    | split

theorem startDesc_keeps : ∀ (s : State) (f g : ℕ),
  Inv s → Inv (startDesc s f g) := by
  intros
  unfold startDesc
  repeat' first
    | with_reducible assumption
    | (extract_lets +onlyGivenNames x; refine (fun (_ : Inv x) => ?_) ?_; clear_value x; rotate_left; subst x)
    | (extract_lets +onlyGivenNames x; clear_value x)
    | with_reducible apply pushDesc_keeps
    | split
    | fail_if_no_progress with_reducible apply inv_mk

theorem markWanted_keeps : ∀ (s : State) (f : ℕ),
  Inv s → Inv (markWanted s f) := by
  intros
  unfold markWanted
  repeat' first
    | with_reducible assumption
    | intro _
    | extract_lets +onlyGivenNames x
    | with_reducible apply updI_keeps
    | split
    | with_reducible apply inv_foldl

theorem execDescriptorStart_keeps : ∀ (f : Fin 4) (s : State),
  Inv s → OutOk (execDescriptorStart f s) := by
  intros
  unfold execDescriptorStart
  repeat' first
    | with_reducible assumption
    | intro _
    | (extract_lets +onlyGivenNames x; refine (fun (_ : Inv x) => ?_) ?_; clear_value x; rotate_left; subst x)
    | extract_lets +onlyGivenNames x
    | with_reducible apply checkDoorbell_keeps
    | with_reducible apply markWanted_keeps
    | with_reducible apply fetchNext_keeps
    | with_reducible apply startDesc_keeps
    | with_reducible apply takeTurn_keeps
    | split
    | with_reducible apply outOk_next
    | with_reducible apply inv_foldl

theorem writeEntry_keeps : ∀ (s : State) (g : ℕ) (bs : List Byte),
  Inv s → EOk Inv (writeEntry s g bs) := by
  intros
  unfold writeEntry
  repeat' first
    | with_reducible assumption
    | intro _
    | (extract_lets +onlyGivenNames x; clear_value x)
    | extract_lets +onlyGivenNames x
    | with_reducible apply engXlat_keeps
    | with_reducible apply hostGo_keeps
    | with_reducible apply hostWrite_keeps
    | with_reducible apply homeWrite_keeps
    | split
    | with_reducible apply eOk_ok
    | with_reducible apply eOk_error
    | with_reducible apply eOk_bindD
    | refine inv_okQ (by with_reducible assumption) ?_
    | refine inv_errQ (by with_reducible assumption) ?_

theorem advanceCpl_keeps : ∀ (s : State) (g : ℕ),
  Inv s → Inv (advanceCpl s g) := by
  intros
  unfold advanceCpl
  repeat' first
    | with_reducible assumption
    | with_reducible apply updCh_keeps

theorem countCompletion_keeps : ∀ (s : State) (g st : ℕ) (advance : Bool) (lost : Option ℕ),
  Inv s → Inv (countCompletion s g st advance lost) := by
  intros
  unfold countCompletion
  repeat' first
    | with_reducible assumption
    | (extract_lets +onlyGivenNames x; refine (fun (_ : Inv x) => ?_) ?_; clear_value x; rotate_left; subst x)
    | extract_lets +onlyGivenNames x
    | with_reducible apply advanceCpl_keeps
    | with_reducible apply updCh_keeps
    | with_reducible apply instCount_keeps
    | with_reducible apply chanHalt_keeps
    | split

theorem entryIrq_keeps : ∀ (s : State) (g st : ℕ) (irq : Bool),
  Inv s → Inv (entryIrq s g st irq) := by
  intros
  unfold entryIrq
  repeat' first
    | with_reducible assumption
    | (extract_lets +onlyGivenNames x; refine (fun (_ : Inv x) => ?_) ?_; clear_value x; rotate_left; subst x)
    | (extract_lets +onlyGivenNames x; clear_value x)
    | with_reducible apply updCh_keeps
    | with_reducible apply chanIrq_keeps
    | split

theorem completeOne_keeps : ∀ (s : State) (g : ℕ),
  Inv s → Inv (completeOne s g) := by
  intros
  unfold completeOne
  repeat' first
    | with_reducible assumption
    | (extract_lets +onlyGivenNames x; clear_value x)
    | extract_lets +onlyGivenNames x
    | with_reducible apply countCompletion_keeps
    | with_reducible apply writeEntry_keeps
    | with_reducible apply entryIrq_keeps
    | split
    | refine inv_okS (by with_reducible assumption) ?_
    | refine inv_errS (by with_reducible assumption) ?_

theorem completeGo_keeps : ∀ (a : ℕ) (a_1 : State) (a_2 : ℕ),
  Inv a_1 → Inv (completeGo a a_1 a_2) := by
  intro a0 a1 a2
  fun_induction completeGo a0 a1 a2 <;> intros
  all_goals repeat' first
    | with_reducible assumption
    | with_reducible apply completeOne_keeps
    | with_reducible apply_assumption -exfalso -symm

theorem completeAll_keeps : ∀ (s : State) (g : ℕ),
  Inv s → Inv (completeAll s g) := by
  intros
  unfold completeAll
  repeat' first
    | with_reducible assumption
    | with_reducible apply completeGo_keeps

theorem execDescriptorComplete_keeps : ∀ (g : Fin 8192) (s : State),
  Inv s → OutOk (execDescriptorComplete g s) := by
  intros
  unfold execDescriptorComplete
  repeat' first
    | with_reducible assumption
    | extract_lets +onlyGivenNames x
    | with_reducible apply completeOne_keeps
    | split
    | with_reducible apply outOk_next

theorem execIrqTimeTrigger_keeps : ∀ (g : Fin 8192) (s : State),
  Inv s → OutOk (execIrqTimeTrigger g s) := by
  intros
  unfold execIrqTimeTrigger
  repeat' first
    | with_reducible assumption
    | (extract_lets +onlyGivenNames x; clear_value x)
    | extract_lets +onlyGivenNames x
    | with_reducible apply chanIrq_keeps
    | split
    | with_reducible apply outOk_next

theorem execLiveWordWrite_keeps : ∀ (g : Fin 8192) (s : State),
  Inv s → OutOk (execLiveWordWrite g s) := by
  intros
  unfold execLiveWordWrite
  repeat' first
    | with_reducible assumption
    | (extract_lets +onlyGivenNames x; clear_value x)
    | extract_lets +onlyGivenNames x
    | with_reducible apply homeWrite_keeps
    | split
    | with_reducible apply outOk_next

theorem execDescNop_keeps : ∀ (g : Fin 8192) (slot : Fin 32768) (s : State),
  Inv s → OutOk (execDescNop g slot s) := by
  intros
  unfold execDescNop
  repeat' first
    | with_reducible assumption
    | extract_lets +onlyGivenNames x
    | with_reducible apply endDesc_keeps
    | split
    | with_reducible apply outOk_next

theorem execDescFence_keeps : ∀ (g : Fin 8192) (slot : Fin 32768) (s : State),
  Inv s → OutOk (execDescFence g slot s) := by
  intros
  unfold execDescFence
  repeat' first
    | with_reducible assumption
    | extract_lets +onlyGivenNames x
    | with_reducible apply endDesc_keeps
    | split
    | with_reducible apply outOk_next

theorem execDescWait_keeps : ∀ (g : Fin 8192) (slot : Fin 32768) (s : State),
  Inv s → OutOk (execDescWait g slot s) := by
  intros
  unfold execDescWait
  repeat' first
    | with_reducible assumption
    | extract_lets +onlyGivenNames x
    | with_reducible apply endDesc_keeps
    | split
    | with_reducible apply outOk_next

theorem execExecutionTimeout_keeps : ∀ (g : Fin 8192) (slot : Fin 32768) (s : State),
  Inv s → OutOk (execExecutionTimeout g slot s) := by
  intros
  unfold execExecutionTimeout
  repeat' first
    | with_reducible assumption
    | extract_lets +onlyGivenNames x
    | with_reducible apply endDesc_keeps
    | with_reducible apply cutDesc_keeps
    | split
    | with_reducible apply outOk_next

end Sys2Proof.Machine
end

