-- ==== Sys2Proof/Laws/KeepsBridge.lean ====
section
/-! SUPPORT. The invariant under the definitions of Machine/Bridge.lean. -/

namespace Sys2Proof.Machine

set_option linter.all false

theorem setPortStat_keeps : ∀ (s : State) (b : ℕ) (f : Fld) (n : ℕ),
  Inv s → Inv (setPortStat s b f n) := by
  intros
  unfold setPortStat
  repeat' first
    | with_reducible assumption
    | with_reducible apply State.putF_keeps
    | split

theorem updNet_keeps : ∀ (s : State) (b : ℕ) (f : NetPort → NetPort),
  Inv s → Inv (updNet s b f) := by
  intros
  unfold updNet
  repeat' first
    | with_reducible assumption
    | (extract_lets +onlyGivenNames x; clear_value x)
    | fail_if_no_progress with_reducible apply inv_mk

theorem netCount_keeps : ∀ (s : State) (b k n : ℕ),
  Inv s → Inv (netCount s b k n) := by
  intros
  unfold netCount
  repeat' first
    | with_reducible assumption
    | with_reducible apply updNet_keeps

theorem vpSat_keeps : ∀ (s : State) (v : ℕ) (f : Fld),
  Inv s → Inv (vpSat s v f) := by
  intros
  unfold vpSat
  repeat' first
    | with_reducible assumption
    | with_reducible apply State.putR_keeps

theorem vlanLoad_keeps : ∀ (s : State) (vid : ℕ),
  Inv s → Inv (vlanLoad s vid) := by
  intros
  unfold vlanLoad
  repeat' first
    | with_reducible assumption
    | (extract_lets +onlyGivenNames x; clear_value x)
    | split
    | fail_if_no_progress with_reducible apply inv_mk

theorem fdbSet_keeps : ∀ (s : State) (op : Bool) (key : ℕ) (e : Option FdbEnt),
  Inv s → Inv (fdbSet s op key e) := by
  intros
  unfold fdbSet
  repeat' first
    | with_reducible assumption
    | (extract_lets +onlyGivenNames x; refine (fun (_ : Inv x) => ?_) ?_; clear_value x; rotate_left; subst x)
    | (extract_lets +onlyGivenNames x; clear_value x)
    | with_reducible apply State.putF_keeps
    | fail_if_no_progress with_reducible apply inv_mk

theorem fdbCountSat_keeps : ∀ (s : State) (f : Fld),
  Inv s → Inv (fdbCountSat s f) := by
  intros
  unfold fdbCountSat
  repeat' first
    | with_reducible assumption
    | with_reducible apply State.putR_keeps

theorem fdbFlush_keeps : ∀ (s : State) (op : Bool) (port : ℕ),
  Inv s → Inv (fdbFlush s op port) := by
  intros
  unfold fdbFlush
  repeat' first
    | with_reducible assumption
    | intro _
    | extract_lets +onlyGivenNames x
    | with_reducible apply fdbSet_keeps
    | with_reducible apply inv_foldl

theorem flapIrq_keeps : ∀ (s : State), Inv s → Inv (flapIrq s) := by
  intros
  unfold flapIrq
  repeat' first
    | with_reducible assumption
    | with_reducible apply sendIrq_keeps
    | split

theorem relearn_keeps : ∀ (s : State) (key port : ℕ) (e : FdbEnt),
  Inv s → Inv (relearn s key port e) := by
  intros
  unfold relearn
  repeat' first
    | with_reducible assumption
    | (extract_lets +onlyGivenNames x; refine (fun (_ : Inv x) => ?_) ?_; clear_value x; rotate_left; subst x)
    | (extract_lets +onlyGivenNames x; clear_value x)
    | with_reducible apply fdbSet_keeps
    | with_reducible apply fdbCountSat_keeps
    | with_reducible apply flapIrq_keeps
    | split

theorem learnKey_keeps : ∀ (s : State) (key port : ℕ),
  Inv s → Inv (learnKey s key port) := by
  intros
  unfold learnKey
  repeat' first
    | with_reducible assumption
    | with_reducible apply relearn_keeps
    | with_reducible apply fdbSet_keeps
    | with_reducible apply fdbCountSat_keeps
    | split

theorem execLearn_keeps : ∀ (s : State), Inv s → OutOk (execLearn s) := by
  intros
  unfold execLearn
  repeat' first
    | with_reducible assumption
    | (extract_lets +onlyGivenNames x; refine (fun (_ : Inv x) => ?_) ?_; clear_value x; rotate_left; subst x)
    | (extract_lets +onlyGivenNames x; clear_value x)
    | extract_lets +onlyGivenNames x
    | with_reducible apply learnKey_keeps
    | split
    | with_reducible apply outOk_next
    | fail_if_no_progress with_reducible apply inv_mk

theorem execFdbChange_keeps : ∀ (io : Fin 8) (s : State),
  Inv s → OutOk (execFdbChange io s) := by
  intros
  unfold execFdbChange
  repeat' first
    | with_reducible assumption
    | (extract_lets +onlyGivenNames x; refine (fun (_ : Inv x) => ?_) ?_; clear_value x; rotate_left; subst x)
    | (extract_lets +onlyGivenNames x; clear_value x)
    | extract_lets +onlyGivenNames x
    | with_reducible apply State.putB_keeps
    | split
    | with_reducible apply outOk_next
    | fail_if_no_progress with_reducible apply inv_mk

theorem execFdbAging_keeps : ∀ (vid : BitVec 12) (mac : BitVec 48) (s : State),
  Inv s → OutOk (execFdbAging vid mac s) := by
  intros
  unfold execFdbAging
  repeat' first
    | with_reducible assumption
    | (extract_lets +onlyGivenNames x; clear_value x)
    | extract_lets +onlyGivenNames x
    | with_reducible apply fdbSet_keeps
    | split
    | with_reducible apply outOk_next

theorem fdbRefuse_keeps : ∀ (s : State), Inv s → Inv (fdbRefuse s) := by
  intros
  unfold fdbRefuse
  repeat' first
    | with_reducible assumption
    | with_reducible apply State.putB_keeps

theorem fdbAccept_keeps : ∀ (s : State) (v : Word) (f : State → State),
  Inv s →
    (∀ (a : State), Inv a → Inv (f a)) →
      Inv (fdbAccept s v f) := by
  intros
  unfold fdbAccept
  repeat' first
    | with_reducible assumption
    | (extract_lets +onlyGivenNames x; refine (fun (_ : Inv x) => ?_) ?_; clear_value x; rotate_left; subst x)
    | extract_lets +onlyGivenNames x
    | with_reducible apply State.putF_keeps
    | with_reducible apply State.putB_keeps
    | with_reducible apply_assumption -exfalso -symm

theorem fdbOp_keeps : ∀ (s : State) (op : ℕ) (v : Word),
  Inv s → Inv (fdbOp s op v) := by
  intros
  unfold fdbOp
  repeat' first
    | with_reducible assumption
    | intro _
    | (extract_lets +onlyGivenNames x; refine (fun (_ : Inv x) => ?_) ?_; clear_value x; rotate_left; subst x)
    | (extract_lets +onlyGivenNames x; clear_value x)
    | extract_lets +onlyGivenNames x
    | with_reducible apply State.putB_keeps
    | with_reducible apply State.putF_keeps
    | with_reducible apply fdbRefuse_keeps
    | with_reducible apply fdbAccept_keeps
    | with_reducible apply fdbSet_keeps
    | with_reducible apply fdbFlush_keeps
    | split
    | fail_if_no_progress with_reducible apply inv_mk

theorem fdbCommand_keeps : ∀ (s : State) (r : Requester) (op : ℕ) (v : Word),
  Inv s → Inv (fdbCommand s r op v) := by
  intros
  unfold fdbCommand
  repeat' first
    | with_reducible assumption
    | with_reducible apply fdbOp_keeps
    | split

theorem execFdbAddStatic_keeps : ∀ (r : Requester) (v : Word) (s : State),
  Inv s → OutOk (execFdbAddStatic r v s) := by
  intros
  unfold execFdbAddStatic
  repeat' first
    | with_reducible assumption
    | extract_lets +onlyGivenNames x
    | with_reducible apply fdbCommand_keeps
    | with_reducible apply outOk_next

theorem execFdbDelete_keeps : ∀ (r : Requester) (v : Word) (s : State),
  Inv s → OutOk (execFdbDelete r v s) := by
  intros
  unfold execFdbDelete
  repeat' first
    | with_reducible assumption
    | extract_lets +onlyGivenNames x
    | with_reducible apply fdbCommand_keeps
    | with_reducible apply outOk_next

theorem execFdbUnlock_keeps : ∀ (r : Requester) (v : Word) (s : State),
  Inv s → OutOk (execFdbUnlock r v s) := by
  intros
  unfold execFdbUnlock
  repeat' first
    | with_reducible assumption
    | extract_lets +onlyGivenNames x
    | with_reducible apply fdbCommand_keeps
    | with_reducible apply outOk_next

theorem execFdbFlushPort_keeps : ∀ (r : Requester) (v : Word) (s : State),
  Inv s → OutOk (execFdbFlushPort r v s) := by
  intros
  unfold execFdbFlushPort
  repeat' first
    | with_reducible assumption
    | extract_lets +onlyGivenNames x
    | with_reducible apply fdbCommand_keeps
    | with_reducible apply outOk_next

theorem execVlanReload_keeps : ∀ (r : Requester) (v : Word) (s : State),
  Inv s → OutOk (execVlanReload r v s) := by
  intros
  unfold execVlanReload
  repeat' first
    | with_reducible assumption
    | extract_lets +onlyGivenNames x
    | with_reducible apply fdbCommand_keeps
    | with_reducible apply outOk_next

theorem execMasterReload_keeps : ∀ (s : State),
  Inv s → OutOk (execMasterReload s) := by
  intros
  unfold execMasterReload
  repeat' first
    | with_reducible assumption
    | (extract_lets +onlyGivenNames x; clear_value x)
    | extract_lets +onlyGivenNames x
    | with_reducible apply State.putF_keeps
    | split
    | with_reducible apply outOk_next
    | fail_if_no_progress with_reducible apply inv_mk

theorem bridgeLost_keeps : ∀ (s : State), Inv s → Inv (bridgeLost s) := by
  intros
  unfold bridgeLost
  repeat' first
    | with_reducible assumption
    | (extract_lets +onlyGivenNames x; clear_value x)
    | fail_if_no_progress with_reducible apply inv_mk

theorem learnSource_keeps : ∀ (s : State) (f : Frame) (on : Bool),
  Inv s → Inv (learnSource s f on) := by
  intros
  unfold learnSource
  repeat' first
    | with_reducible assumption
    | (extract_lets +onlyGivenNames x; clear_value x)
    | split
    | fail_if_no_progress with_reducible apply inv_mk

theorem sendXoff_keeps : ∀ (s : State) (b prio : ℕ),
  Inv s → Inv (sendXoff s b prio) := by
  intros
  unfold sendXoff
  repeat' first
    | with_reducible assumption
    | with_reducible apply updNet_keeps
    | split


theorem checkXoff_keeps : ∀ (s : State) (b prio : ℕ),
  Inv s → Inv (checkXoff s b prio) := by
  intros
  unfold checkXoff
  repeat' first
    | with_reducible assumption
    | with_reducible apply sendXoff_keeps
    | split


theorem holdFrame_keeps : ∀ (s : State) (f : Frame) (b : ℕ),
  Inv s → Inv (holdFrame s f b) := by
  intros
  unfold holdFrame
  repeat' first
    | with_reducible assumption
    | (extract_lets +onlyGivenNames x; refine (fun (_ : Inv x) => ?_) ?_; clear_value x; rotate_left; subst x)
    | (extract_lets +onlyGivenNames x; clear_value x)
    | with_reducible apply sendXoff_keeps
    | split
    | fail_if_no_progress with_reducible apply inv_mk


theorem enqueue_keeps : ∀ (s : State) (f : Frame) (b : ℕ),
  Inv s → Inv (enqueue s f b) := by
  intros
  unfold enqueue
  repeat' first
    | with_reducible assumption
    | (extract_lets +onlyGivenNames x; clear_value x)
    | with_reducible apply netCount_keeps
    | split
    | fail_if_no_progress with_reducible apply inv_mk

theorem forward_keeps : ∀ (s : State) (f : Frame) (learn : Bool) (dst : List ℕ),
  Inv s → Inv (forward s f learn dst) := by
  intros
  unfold forward
  repeat' first
    | with_reducible assumption
    | intro _
    | (extract_lets +onlyGivenNames x; refine (fun (_ : Inv x) => ?_) ?_; clear_value x; rotate_left; subst x)
    | (extract_lets +onlyGivenNames x; clear_value x)
    | extract_lets +onlyGivenNames x
    | with_reducible apply learnSource_keeps
    | with_reducible apply enqueue_keeps
    | with_reducible apply inv_foldl
    | fail_if_no_progress with_reducible apply inv_mk

theorem receive_keeps : ∀ (s : State) (b : ℕ) (bs : List Byte),
  Inv s → Inv (receive s b bs) := by
  intros
  unfold receive
  repeat' first
    | with_reducible assumption
    | (extract_lets +onlyGivenNames x; refine (fun (_ : Inv x) => ?_) ?_; clear_value x; rotate_left; subst x)
    | (extract_lets +onlyGivenNames x; clear_value x)
    | extract_lets +onlyGivenNames x
    | with_reducible apply vlanLoad_keeps
    | with_reducible apply netCount_keeps
    | with_reducible apply checkXoff_keeps
    | with_reducible apply forward_keeps
    | split

theorem pauseQueue_keeps : ∀ (s : State) (b prio ns : ℕ),
  Inv s → Inv (pauseQueue s b prio ns) := by
  intros
  unfold pauseQueue
  repeat' first
    | with_reducible assumption
    | with_reducible apply updNet_keeps

theorem execFrameReceive_keeps : ∀ (b : Fin 64) (x : RxFrame) (fcsOk : Bool) (s : State),
  Inv s → OutOk (execFrameReceive b x fcsOk s) := by
  intros
  unfold execFrameReceive
  repeat' first
    | with_reducible assumption
    | intro _
    | (extract_lets +onlyGivenNames x; refine (fun (_ : Inv x) => ?_) ?_; clear_value x; rotate_left; subst x)
    | (extract_lets +onlyGivenNames x; clear_value x)
    | extract_lets +onlyGivenNames x
    | with_reducible apply netCount_keeps
    | with_reducible apply pauseQueue_keeps
    | with_reducible apply receive_keeps
    | split
    | with_reducible apply outOk_next
    | with_reducible apply inv_foldl

theorem unqueue_keeps : ∀ (s : State) (f : Frame) (b : ℕ),
  Inv s → Inv (unqueue s f b) := by
  intros
  unfold unqueue
  repeat' first
    | with_reducible assumption
    | (extract_lets +onlyGivenNames x; clear_value x)
    | fail_if_no_progress with_reducible apply inv_mk

theorem execFrameTransmit_keeps : ∀ (b : Fin 64) (s : State),
  Inv s → OutOk (execFrameTransmit b s) := by
  intros
  unfold execFrameTransmit
  repeat' first
    | with_reducible assumption
    | (extract_lets +onlyGivenNames x; refine (fun (_ : Inv x) => ?_) ?_; clear_value x; rotate_left; subst x)
    | (extract_lets +onlyGivenNames x; clear_value x)
    | extract_lets +onlyGivenNames x
    | with_reducible apply updNet_keeps
    | with_reducible apply unqueue_keeps
    | with_reducible apply netCount_keeps
    | split
    | with_reducible apply outOk_next

theorem execPfcXon_keeps : ∀ (b : Fin 64) (prio : Fin 8) (s : State),
  Inv s → OutOk (execPfcXon b prio s) := by
  intros
  unfold execPfcXon
  repeat' first
    | with_reducible assumption
    | extract_lets +onlyGivenNames x
    | with_reducible apply updNet_keeps
    | split
    | with_reducible apply outOk_next

theorem execPauseExpiry_keeps : ∀ (b : Fin 64) (prio : Fin 8) (s : State),
  Inv s → OutOk (execPauseExpiry b prio s) := by
  intros
  unfold execPauseExpiry
  repeat' first
    | with_reducible assumption
    | extract_lets +onlyGivenNames x
    | with_reducible apply updNet_keeps
    | split
    | with_reducible apply outOk_next

theorem execStatisticsWindow_keeps : ∀ (b : Fin 64) (s : State),
  Inv s → OutOk (execStatisticsWindow b s) := by
  intros
  unfold execStatisticsWindow
  repeat' first
    | with_reducible assumption
    | intro _
    | (extract_lets +onlyGivenNames x; refine (fun (_ : Inv x) => ?_) ?_; clear_value x; rotate_left; subst x)
    | (extract_lets +onlyGivenNames x; clear_value x)
    | extract_lets +onlyGivenNames x
    | with_reducible apply State.putR_keeps
    | with_reducible apply updNet_keeps
    | split
    | with_reducible apply outOk_next
    | with_reducible apply inv_foldl

theorem holdEnds_keeps : ∀ (s : State) (b : ℕ),
  Inv s → Inv (holdEnds s b) := by
  intros
  unfold holdEnds
  repeat' first
    | with_reducible assumption
    | (extract_lets +onlyGivenNames x; refine (fun (_ : Inv x) => ?_) ?_; clear_value x; rotate_left; subst x)
    | (extract_lets +onlyGivenNames x; clear_value x)
    | extract_lets +onlyGivenNames x
    | with_reducible apply netCount_keeps
    | with_reducible apply fdbFlush_keeps
    | with_reducible apply setPortStat_keeps
    | split
    | fail_if_no_progress with_reducible apply inv_mk

theorem netDown_keeps : ∀ (s : State) (b : ℕ),
  Inv s → Inv (netDown s b) := by
  intros
  unfold netDown
  repeat' first
    | with_reducible assumption
    | (extract_lets +onlyGivenNames x; refine (fun (_ : Inv x) => ?_) ?_; clear_value x; rotate_left; subst x)
    | (extract_lets +onlyGivenNames x; clear_value x)
    | extract_lets +onlyGivenNames x
    | with_reducible apply setPortStat_keeps
    | with_reducible apply holdEnds_keeps
    | with_reducible apply updNet_keeps
    | split

theorem execNetworkLinkDown_keeps : ∀ (b : Fin 64) (s : State),
  Inv s → OutOk (execNetworkLinkDown b s) := by
  intros
  unfold execNetworkLinkDown
  repeat' first
    | with_reducible assumption
    | extract_lets +onlyGivenNames x
    | with_reducible apply netDown_keeps
    | with_reducible apply outOk_next

theorem execNetworkLinkUp_keeps : ∀ (b : Fin 64) (s : State),
  Inv s → OutOk (execNetworkLinkUp b s) := by
  intros
  unfold execNetworkLinkUp
  repeat' first
    | with_reducible assumption
    | extract_lets +onlyGivenNames x
    | with_reducible apply setPortStat_keeps
    | split
    | with_reducible apply outOk_next

theorem execDownHoldExpiry_keeps : ∀ (b : Fin 64) (s : State),
  Inv s → OutOk (execDownHoldExpiry b s) := by
  intros
  unfold execDownHoldExpiry
  repeat' first
    | with_reducible assumption
    | extract_lets +onlyGivenNames x
    | with_reducible apply holdEnds_keeps
    | split
    | with_reducible apply outOk_next

theorem sendFrame_keeps : ∀ (s : State) (g : ℕ) (d : Desc) (v : ℕ) (bs : List Byte),
  Inv s → Inv (sendFrame s g d v bs) := by
  intros
  unfold sendFrame
  repeat' first
    | with_reducible assumption
    | (extract_lets +onlyGivenNames x; refine (fun (_ : Inv x) => ?_) ?_; clear_value x; rotate_left; subst x)
    | (extract_lets +onlyGivenNames x; clear_value x)
    | extract_lets +onlyGivenNames x
    | with_reducible apply vlanLoad_keeps
    | with_reducible apply endDesc_keeps
    | with_reducible apply vpSat_keeps
    | with_reducible apply forward_keeps
    | split

theorem txFrame_keeps : ∀ (s : State) (g : ℕ) (d : Desc) (u v : ℕ) (rs : List (ℕ × ℕ)),
  Inv s → EOk Inv (txFrame s g d u v rs) := by
  intros
  unfold txFrame
  repeat' first
    | with_reducible assumption
    | intro _
    | extract_lets +onlyGivenNames x
    | with_reducible apply gather_keeps
    | with_reducible apply sendFrame_keeps
    | split
    | with_reducible apply eOk_ok
    | with_reducible apply eOk_bindQ
    | refine inv_pairQ (by with_reducible assumption) ?_

theorem txStep_keeps : ∀ (s : State) (g : ℕ) (d : Desc) (u v : ℕ),
  Inv s → EOk Inv (txStep s g d u v) := by
  intros
  unfold txStep
  repeat' first
    | with_reducible assumption
    | (extract_lets +onlyGivenNames x; clear_value x)
    | with_reducible apply txFrame_keeps
    | split
    | with_reducible apply eOk_error

theorem txsgStep_keeps : ∀ (s : State) (g : ℕ) (d : Desc) (u v : ℕ),
  Inv s → EOk Inv (txsgStep s g d u v) := by
  intros
  unfold txsgStep
  repeat' first
    | with_reducible assumption
    | intro _
    | (extract_lets +onlyGivenNames x; clear_value x)
    | extract_lets +onlyGivenNames x
    | with_reducible apply gather_keeps
    | with_reducible apply updDesc_keeps
    | with_reducible apply txFrame_keeps
    | split
    | with_reducible apply eOk_ok
    | with_reducible apply eOk_error
    | with_reducible apply eOk_bindQ
    | refine inv_pairQ (by with_reducible assumption) ?_

theorem txRun_keeps : ∀ (s : State) (g slot op : ℕ)
  (f : State → Desc → ℕ → ℕ → E State),
  Inv s →
    (∀ (a : State) (a_1 : Desc) (a_2 a_3 : ℕ),
        Inv a → EOk Inv (f a a_1 a_2 a_3)) →
      Inv (txRun s g slot op f) := by
  intros
  unfold txRun
  repeat' first
    | with_reducible assumption
    | extract_lets +onlyGivenNames x
    | with_reducible apply endDesc_keeps
    | with_reducible apply orEnd_keeps
    | split
    | with_reducible apply_assumption -exfalso -symm

theorem execTx_keeps : ∀ (g : Fin 8192) (slot : Fin 32768) (s : State),
  Inv s → OutOk (execTx g slot s) := by
  intros
  unfold execTx
  repeat' first
    | with_reducible assumption
    | intro _
    | extract_lets +onlyGivenNames x
    | with_reducible apply txRun_keeps
    | with_reducible apply txStep_keeps
    | with_reducible apply outOk_next

theorem execTxsg_keeps : ∀ (g : Fin 8192) (slot : Fin 32768) (s : State),
  Inv s → OutOk (execTxsg g slot s) := by
  intros
  unfold execTxsg
  repeat' first
    | with_reducible assumption
    | intro _
    | extract_lets +onlyGivenNames x
    | with_reducible apply txRun_keeps
    | with_reducible apply txsgStep_keeps
    | with_reducible apply outOk_next

theorem fetchUpTo_keeps : ∀ (a a_1 : ℕ) (a_2 : State) (a_3 : ℕ),
  Inv a_2 → Inv (fetchUpTo a a_1 a_2 a_3) := by
  intro a0 a1 a2 a3
  fun_induction fetchUpTo a0 a1 a2 a3 <;> intros
  all_goals repeat' first
    | with_reducible assumption
    | with_reducible apply fetchNext_keeps
    | with_reducible apply_assumption -exfalso -symm

theorem execRxbuf_keeps : ∀ (g : Fin 8192) (slot : Fin 32768) (s : State),
  Inv s → OutOk (execRxbuf g slot s) := by
  intros
  unfold execRxbuf
  repeat' first
    | with_reducible assumption
    | (extract_lets +onlyGivenNames x; clear_value x)
    | extract_lets +onlyGivenNames x
    | with_reducible apply endDesc_keeps
    | with_reducible apply fetchUpTo_keeps
    | split
    | with_reducible apply outOk_next

theorem deliverTo_keeps : ∀ (s : State) (g : ℕ) (f : Frame) (bs : List Byte)
  (bufs : List (List Word)),
  Inv s → Inv (deliverTo s g f bs bufs) := by
  intros
  unfold deliverTo
  repeat' first
    | with_reducible assumption
    | intro _
    | (extract_lets +onlyGivenNames x; refine (fun (_ : EOk Inv x) => ?_) ?_; clear_value x; rotate_left; subst x)
    | (extract_lets +onlyGivenNames x; clear_value x)
    | extract_lets +onlyGivenNames x
    | with_reducible apply scatter_keeps
    | with_reducible apply pushDesc_keeps
    | split
    | with_reducible apply eOk_error
    | with_reducible apply inv_foldl
    | refine inv_ok (by with_reducible assumption)
    | refine inv_error (by with_reducible assumption)

theorem execFrameDeliver_keeps : ∀ (v : Fin 960) (s : State),
  Inv s → OutOk (execFrameDeliver v s) := by
  intros
  unfold execFrameDeliver
  repeat' first
    | with_reducible assumption
    | (extract_lets +onlyGivenNames x; refine (fun (_ : Inv x) => ?_) ?_; clear_value x; rotate_left; subst x)
    | (extract_lets +onlyGivenNames x; clear_value x)
    | extract_lets +onlyGivenNames x
    | with_reducible apply fetchUpTo_keeps
    | with_reducible apply completeAll_keeps
    | with_reducible apply deliverTo_keeps
    | with_reducible apply unqueue_keeps
    | with_reducible apply holdFrame_keeps
    | with_reducible apply vpSat_keeps
    | split
    | with_reducible apply outOk_next


theorem execLosslessHoldExpiry_keeps : ∀ (v : Fin 960) (s : State),
  Inv s → OutOk (execLosslessHoldExpiry v s) := by
  intros
  unfold execLosslessHoldExpiry
  repeat' first
    | with_reducible assumption
    | (extract_lets +onlyGivenNames x; clear_value x)
    | extract_lets +onlyGivenNames x
    | with_reducible apply vpSat_keeps
    | with_reducible apply unqueue_keeps
    | split
    | with_reducible apply outOk_next

end Sys2Proof.Machine
end

