-- ==== Sys2Proof/Laws/KeepsCheck.lean ====
section
/-! SUPPORT. The invariant under the definitions of Machine/Check.lean. -/

namespace Sys2Proof.Machine

set_option linter.all false

theorem startSparings_keeps : ∀ (a : ℕ) (a_1 : State),
  Inv a_1 → Inv (startSparings a a_1) := by
  intro a0 a1
  fun_induction startSparings a0 a1 <;> intros
  all_goals repeat' first
    | with_reducible assumption
    | fail_if_no_progress with_reducible apply inv_mk
    | with_reducible apply_assumption -exfalso -symm

theorem withdrawNotice_keeps : ∀ (s : State) (v k : ℕ) (unbound inj : Bool),
  Inv s → Inv (withdrawNotice s v k unbound inj) := by
  intros
  unfold withdrawNotice
  repeat' first
    | with_reducible assumption
    | extract_lets +onlyGivenNames x
    | with_reducible apply notify_keeps
    | with_reducible apply logRecord_keeps

theorem withdrawUnit_keeps : ∀ (s : State) (u : ℕ),
  Inv s → Inv (withdrawUnit s u) := by
  intros
  unfold withdrawUnit
  repeat' first
    | with_reducible assumption
    | (extract_lets +onlyGivenNames x; refine (fun (_ : Inv x) => ?_) ?_; clear_value x; rotate_left; subst x)
    | extract_lets +onlyGivenNames x
    | with_reducible apply addWithdrawn_keeps
    | with_reducible apply setUnit_keeps
    | with_reducible apply withdrawNotice_keeps
    | split

theorem leaveUnbound_keeps : ∀ (s : State) (v k : ℕ) (inj : Bool),
  Inv s → Inv (leaveUnbound s v k inj) := by
  intros
  unfold leaveUnbound
  repeat' first
    | with_reducible assumption
    | (extract_lets +onlyGivenNames x; refine (fun (_ : Inv x) => ?_) ?_; clear_value x; rotate_left; subst x)
    | extract_lets +onlyGivenNames x
    | with_reducible apply addWithdrawn_keeps
    | with_reducible apply setUnit_keeps
    | with_reducible apply State.putR_keeps
    | with_reducible apply configEval_keeps
    | with_reducible apply withdrawNotice_keeps

theorem failCore_keeps : ∀ (s : State) (k cause : ℕ) (inj : Bool),
  Inv s → Inv (failCore s k cause inj) := by
  intros
  unfold failCore
  repeat' first
    | with_reducible assumption
    | (extract_lets +onlyGivenNames x; refine (fun (_ : Inv x) => ?_) ?_; clear_value x; rotate_left; subst x)
    | (extract_lets +onlyGivenNames x; clear_value x)
    | extract_lets +onlyGivenNames x
    | with_reducible apply setUnit_keeps
    | with_reducible apply State.putB_keeps
    | with_reducible apply leaveUnbound_keeps
    | with_reducible apply startSparings_keeps
    | split
    | fail_if_no_progress with_reducible apply inv_mk

theorem slipLimit_keeps : ∀ (s : State) (k : ℕ),
  Inv s → Inv (slipLimit s k) := by
  intros
  unfold slipLimit
  repeat' first
    | with_reducible assumption
    | (extract_lets +onlyGivenNames x; clear_value x)
    | extract_lets +onlyGivenNames x
    | with_reducible apply failCore_keeps
    | with_reducible apply logRecord_keeps
    | split

theorem slip_keeps : ∀ (s : State) (t : Tid) (c : SlipClass) (inj : Bool),
  Inv s → Inv (slip s t c inj) := by
  intros
  unfold slip
  repeat' first
    | with_reducible assumption
    | (extract_lets +onlyGivenNames x; refine (fun (_ : Inv x) => ?_) ?_; clear_value x; rotate_left; subst x)
    | (extract_lets +onlyGivenNames x; clear_value x)
    | extract_lets +onlyGivenNames x
    | with_reducible apply State.putR_keeps
    | with_reducible apply updC_keeps
    | with_reducible apply logRecord_keeps
    | with_reducible apply pmEvent_keeps

theorem deeper_keeps : ∀ (s : State) (t : Tid),
  Inv s → Inv (deeper s t) := by
  intros
  unfold deeper
  repeat' first
    | with_reducible assumption
    | with_reducible apply updC_keeps

theorem shallower_keeps : ∀ (s : State) (t : Tid),
  Inv s → Inv (shallower s t) := by
  intros
  unfold shallower
  repeat' first
    | with_reducible assumption
    | with_reducible apply updC_keeps

theorem mismatch_keeps : ∀ (s : State) (t : Tid) (c : SlipClass) (inj : Bool),
  Inv s → Inv (mismatch s t c inj) := by
  intros
  unfold mismatch
  repeat' first
    | with_reducible assumption
    | (extract_lets +onlyGivenNames x; clear_value x)
    | extract_lets +onlyGivenNames x
    | with_reducible apply failCore_keeps
    | with_reducible apply updC_keeps
    | with_reducible apply slip_keeps
    | split

theorem checkAddrs_keeps : ∀ (s : State) (t : Tid) (n : ℕ),
  Inv s → Inv (checkAddrs s t n) := by
  intros
  unfold checkAddrs
  repeat' first
    | with_reducible assumption
    | with_reducible apply updC_keeps
    | split

theorem checkElement_keeps : ∀ (s : State) (t : Tid) (pc : Word) (words : List (BitVec 32)),
  Inv s → Inv (checkElement s t pc words) := by
  intros
  unfold checkElement
  repeat' first
    | with_reducible assumption
    | (extract_lets +onlyGivenNames x; refine (fun (_ : Inv x) => ?_) ?_; clear_value x; rotate_left; subst x)
    | (extract_lets +onlyGivenNames x; clear_value x)
    | extract_lets +onlyGivenNames x
    | with_reducible apply updC_keeps
    | with_reducible apply State.putF_keeps
    | with_reducible apply checkAddrs_keeps
    | split

theorem checkRetired_keeps : ∀ (s : State) (t : Tid) (pc : Word) (words : List (BitVec 32)),
  Inv s → Inv (checkRetired s t pc words) := by
  intros
  unfold checkRetired
  repeat' first
    | with_reducible assumption
    | extract_lets +onlyGivenNames x
    | with_reducible apply updT_keeps
    | with_reducible apply checkElement_keeps

end Sys2Proof.Machine
end

