-- ==== Sys2Proof/Laws/KeepsPorts.lean ====
section
/-! SUPPORT. The invariant under the definitions of Machine/Ports.lean. -/

namespace Sys2Proof.Machine

set_option linter.all false

theorem hostServes_keeps : ∀ (s : State) (p : ℕ) (r : HostReq) (bs : List Byte),
  Inv s → Inv (hostServes s p r bs) := by
  intros
  unfold hostServes
  repeat' first
    | with_reducible assumption
    | (extract_lets +onlyGivenNames x; refine (fun (_ : Inv x) => ?_) ?_; clear_value x; rotate_left; subst x)
    | with_reducible apply writeHost_keeps
    | split

theorem answerReq_keeps : ∀ (s : State) (p : ℕ) (r : HostReq) (x : Except ℕ (List Byte)),
  Inv s → Inv (answerReq s p r x) := by
  intros
  unfold answerReq
  repeat' first
    | with_reducible assumption
    | (extract_lets +onlyGivenNames x; refine (fun (_ : Inv x) => ?_) ?_; clear_value x; rotate_left; subst x)
    | (extract_lets +onlyGivenNames x; clear_value x)
    | extract_lets +onlyGivenNames x
    | with_reducible apply bwAdd_keeps
    | with_reducible apply hostServes_keeps
    | with_reducible apply instCount_keeps
    | with_reducible apply updT_keeps
    | with_reducible apply updDesc_keeps
    | with_reducible apply fetchDone_keeps
    | with_reducible apply updI_keeps
    | with_reducible apply pollDone_keeps
    | split

theorem errCount_keeps : ∀ (s : State) (p : ℕ) (f : Fld),
  Inv s → Inv (errCount s p f) := by
  intros
  unfold errCount
  repeat' first
    | with_reducible assumption
    | with_reducible apply State.putR_keeps

theorem setQuar_keeps : ∀ (s : State) (p : ℕ) (q : List QTag),
  Inv s → Inv (setQuar s p q) := by
  intros
  unfold setQuar
  repeat' first
    | with_reducible assumption
    | extract_lets +onlyGivenNames x
    | with_reducible apply State.putF_keeps
    | with_reducible apply updP_keeps

theorem aer_keeps : ∀ (s : State) (p i bit : ℕ),
  Inv s → Inv (aer s p i bit) := by
  intros
  unfold aer
  repeat' first
    | with_reducible assumption
    | with_reducible apply updP_keeps

theorem unexpected_keeps : ∀ (s : State) (p i : ℕ),
  Inv s → Inv (unexpected s p i) := by
  intros
  unfold unexpected
  repeat' first
    | with_reducible assumption
    | extract_lets +onlyGivenNames x
    | with_reducible apply aer_keeps
    | with_reducible apply errCount_keeps

theorem dropReq_keeps : ∀ (s : State) (p k : ℕ),
  Inv s → Inv (dropReq s p k) := by
  intros
  unfold dropReq
  repeat' first
    | with_reducible assumption
    | with_reducible apply updP_keeps

theorem finishReq_keeps : ∀ (s : State) (p k : ℕ) (r : HostReq) (x : Except ℕ (List Byte)),
  Inv s → Inv (finishReq s p k r x) := by
  intros
  unfold finishReq
  repeat' first
    | with_reducible assumption
    | (extract_lets +onlyGivenNames x; clear_value x)
    | extract_lets +onlyGivenNames x
    | with_reducible apply assignTags_keeps
    | with_reducible apply answerReq_keeps
    | with_reducible apply dropReq_keeps

theorem expireReq_keeps : ∀ (s : State) (p k : ℕ) (r : HostReq) (st : ℕ),
  Inv s → Inv (expireReq s p k r st) := by
  intros
  unfold expireReq
  repeat' first
    | with_reducible assumption
    | (extract_lets +onlyGivenNames x; refine (fun (_ : Inv x) => ?_) ?_; clear_value x; rotate_left; subst x)
    | with_reducible apply dropReq_keeps
    | with_reducible apply setQuar_keeps
    | with_reducible apply answerReq_keeps
    | split

theorem timeOut_keeps : ∀ (s : State) (p k : ℕ) (r : HostReq),
  Inv s → Inv (timeOut s p k r) := by
  intros
  unfold timeOut
  repeat' first
    | with_reducible assumption
    | extract_lets +onlyGivenNames x
    | with_reducible apply expireReq_keeps
    | with_reducible apply aer_keeps
    | with_reducible apply errCount_keeps


theorem strayCompletion_keeps : ∀ (s : State) (p tag : ℕ),
  Inv s → Inv (strayCompletion s p tag) := by
  intros
  unfold strayCompletion
  repeat' first
    | with_reducible assumption
    | (extract_lets +onlyGivenNames x; refine (fun (_ : Inv x) => ?_) ?_; clear_value x; rotate_left; subst x)
    | extract_lets +onlyGivenNames x
    | with_reducible apply unexpected_keeps
    | with_reducible apply assignTags_keeps
    | with_reducible apply setQuar_keeps
    | split


theorem execHostCompletion_keeps : ∀ (p : Fin 16) (tag : Fin 1024) (count : ℕ) (lower : BitVec 7) (c : Cpl) (s : State),
  Inv s → OutOk (execHostCompletion p tag count lower c s) := by
  intros
  unfold execHostCompletion
  repeat' first
    | with_reducible assumption
    | (extract_lets +onlyGivenNames x; refine (fun (_ : Inv x) => ?_) ?_; clear_value x; rotate_left; subst x)
    | (extract_lets +onlyGivenNames x; clear_value x)
    | extract_lets +onlyGivenNames x
    | with_reducible apply strayCompletion_keeps
    | with_reducible apply timeOut_keeps
    | with_reducible apply finishReq_keeps
    | with_reducible apply aer_keeps
    | with_reducible apply unexpected_keeps
    | with_reducible apply updP_keeps
    | with_reducible apply errCount_keeps
    | split
    | with_reducible apply outOk_next


theorem execCompletionTimeout_keeps : ∀ (p : Fin 16) (tag : Fin 1024) (s : State),
  Inv s → OutOk (execCompletionTimeout p tag s) := by
  intros
  unfold execCompletionTimeout
  repeat' first
    | with_reducible assumption
    | (extract_lets +onlyGivenNames x; clear_value x)
    | extract_lets +onlyGivenNames x
    | with_reducible apply timeOut_keeps
    | split
    | with_reducible apply outOk_next


theorem execQuarantineExpiry_keeps : ∀ (p : Fin 16) (tag : Fin 1024) (s : State),
  Inv s → OutOk (execQuarantineExpiry p tag s) := by
  intros
  unfold execQuarantineExpiry
  repeat' first
    | with_reducible assumption
    | (extract_lets +onlyGivenNames x; refine (fun (_ : Inv x) => ?_) ?_; clear_value x; rotate_left; subst x)
    | (extract_lets +onlyGivenNames x; clear_value x)
    | extract_lets +onlyGivenNames x
    | with_reducible apply setQuar_keeps
    | with_reducible apply assignTags_keeps
    | with_reducible apply updP_keeps
    | split
    | with_reducible apply outOk_next

theorem execTagWaitTimeout_keeps : ∀ (p : Fin 16) (k : ℕ) (s : State),
  Inv s → OutOk (execTagWaitTimeout p k s) := by
  intros
  unfold execTagWaitTimeout
  repeat' first
    | with_reducible assumption
    | extract_lets +onlyGivenNames x
    | with_reducible apply answerReq_keeps
    | with_reducible apply dropReq_keeps
    | split
    | with_reducible apply outOk_next

theorem endReqsGo_keeps : ∀ (a : ℕ) (a_1 : State) (a_2 : ℕ) (a_3 : HostReq → Bool) (a_4 : ℕ),
  Inv a_1 → Inv (endReqsGo a a_1 a_2 a_3 a_4) := by
  intro a0 a1 a2 a3 a4
  fun_induction endReqsGo a0 a1 a2 a3 a4 <;> intros
  all_goals repeat' first
    | with_reducible assumption
    | with_reducible apply expireReq_keeps
    | with_reducible apply_assumption -exfalso -symm

theorem endReqs_keeps : ∀ (s : State) (p : ℕ) (f : HostReq → Bool) (st : ℕ),
  Inv s → Inv (endReqs s p f st) := by
  intros
  unfold endReqs
  repeat' first
    | with_reducible assumption
    | with_reducible apply endReqsGo_keeps

theorem masterOff_keeps : ∀ (s : State) (p i : ℕ),
  Inv s → Inv (masterOff s p i) := by
  intros
  unfold masterOff
  repeat' first
    | with_reducible assumption
    | intro _
    | (extract_lets +onlyGivenNames x; refine (fun (_ : Inv x) => ?_) ?_; clear_value x; rotate_left; subst x)
    | (extract_lets +onlyGivenNames x; clear_value x)
    | extract_lets +onlyGivenNames x
    | with_reducible apply dropFetch_keeps
    | with_reducible apply endReqs_keeps
    | with_reducible apply updP_keeps
    | split
    | with_reducible apply inv_foldl

theorem masterBack_keeps : ∀ (s : State) (p i : ℕ),
  Inv s → Inv (masterBack s p i) := by
  intros
  unfold masterBack
  repeat' first
    | with_reducible assumption
    | intro _
    | extract_lets +onlyGivenNames x
    | with_reducible apply msixRelease_keeps
    | with_reducible apply completeAll_keeps
    | with_reducible apply inv_foldl

theorem execBusMasterDisable_keeps : ∀ (p : Fin 16) (i : Fin 64) (s : State),
  Inv s → OutOk (execBusMasterDisable p i s) := by
  intros
  unfold execBusMasterDisable
  repeat' first
    | with_reducible assumption
    | extract_lets +onlyGivenNames x
    | with_reducible apply masterOff_keeps
    | with_reducible apply updP_keeps
    | split
    | with_reducible apply outOk_next

theorem execBusMasterEnable_keeps : ∀ (p : Fin 16) (i : Fin 64) (s : State),
  Inv s → OutOk (execBusMasterEnable p i s) := by
  intros
  unfold execBusMasterEnable
  repeat' first
    | with_reducible assumption
    | (extract_lets +onlyGivenNames x; refine (fun (_ : Inv x) => ?_) ?_; clear_value x; rotate_left; subst x)
    | extract_lets +onlyGivenNames x
    | with_reducible apply updP_keeps
    | with_reducible apply masterBack_keeps
    | split
    | with_reducible apply outOk_next

theorem clearMailbox_keeps : ∀ (s : State) (p i : ℕ),
  Inv s → Inv (clearMailbox s p i) := by
  intros
  unfold clearMailbox
  repeat' first
    | with_reducible assumption
    | intro _
    | (extract_lets +onlyGivenNames x; refine (fun (_ : Inv x) => ?_) ?_; clear_value x; rotate_left; subst x)
    | (extract_lets +onlyGivenNames x; clear_value x)
    | extract_lets +onlyGivenNames x
    | with_reducible apply State.resetR_keeps
    | with_reducible apply State.putB_keeps
    | with_reducible apply State.putF_keeps
    | with_reducible apply inv_foldl

theorem resetInst_keeps : ∀ (s : State) (p i : ℕ),
  Inv s → Inv (resetInst s p i) := by
  intros
  unfold resetInst
  repeat' first
    | with_reducible assumption
    | intro _
    | (extract_lets +onlyGivenNames x; refine (fun (_ : Inv x) => ?_) ?_; clear_value x; rotate_left; subst x)
    | (extract_lets +onlyGivenNames x; clear_value x)
    | extract_lets +onlyGivenNames x
    | with_reducible apply endReqs_keeps
    | with_reducible apply cutAll_keeps
    | with_reducible apply dropFetch_keeps
    | with_reducible apply updCh_keeps
    | with_reducible apply completeAll_keeps
    | with_reducible apply chanSet_keeps
    | with_reducible apply chanStopAs_keeps
    | with_reducible apply State.putB_keeps
    | with_reducible apply State.putF_keeps
    | with_reducible apply updP_keeps
    | with_reducible apply clearMailbox_keeps
    | split
    | with_reducible apply inv_foldl


theorem setBusy_keeps : ∀ (s : State) (p i : ℕ) (b : Bool),
  Inv s → Inv (setBusy s p i b) := by
  intros
  unfold setBusy
  repeat' first
    | with_reducible assumption
    | with_reducible apply updP_keeps

theorem execFunctionLevelReset_keeps : ∀ (p : Fin 16) (i : Fin 64) (finish : Bool) (s : State),
  Inv s → OutOk (execFunctionLevelReset p i finish s) := by
  intros
  unfold execFunctionLevelReset
  repeat' first
    | with_reducible assumption
    | intro _
    | (extract_lets +onlyGivenNames x; refine (fun (_ : Inv x) => ?_) ?_; clear_value x; rotate_left; subst x)
    | extract_lets +onlyGivenNames x
    | with_reducible apply updP_keeps
    | with_reducible apply setBusy_keeps
    | with_reducible apply resetInst_keeps
    | split
    | with_reducible apply outOk_next
    | with_reducible apply inv_foldl

theorem freezeRecord_keeps : ∀ (s : State) (p cause : ℕ) (further : Bool),
  Inv s → Inv (freezeRecord s p cause further) := by
  intros
  unfold freezeRecord
  repeat' first
    | with_reducible assumption
    | with_reducible apply logRecord_keeps

theorem portFreeze_keeps : ∀ (s : State) (p cause : ℕ),
  Inv s → Inv (portFreeze s p cause) := by
  intros
  unfold portFreeze
  repeat' first
    | with_reducible assumption
    | intro _
    | (extract_lets +onlyGivenNames x; refine (fun (_ : Inv x) => ?_) ?_; clear_value x; rotate_left; subst x)
    | (extract_lets +onlyGivenNames x; clear_value x)
    | extract_lets +onlyGivenNames x
    | with_reducible apply freezeRecord_keeps
    | with_reducible apply State.putR_keeps
    | with_reducible apply updP_keeps
    | with_reducible apply endReqs_keeps
    | with_reducible apply chanStopAs_keeps
    | with_reducible apply dropFetch_keeps
    | split
    | with_reducible apply inv_foldl

theorem execPortFreeze_keeps : ∀ (p : Fin 16) (why : FreezeCause) (s : State),
  Inv s → OutOk (execPortFreeze p why s) := by
  intros
  unfold execPortFreeze
  repeat' first
    | with_reducible assumption
    | (extract_lets +onlyGivenNames x; clear_value x)
    | extract_lets +onlyGivenNames x
    | with_reducible apply portFreeze_keeps
    | with_reducible apply aer_keeps
    | split
    | with_reducible apply outOk_next

theorem execOutboundStall_keeps : ∀ (p : Fin 16) (s : State),
  Inv s → OutOk (execOutboundStall p s) := by
  intros
  unfold execOutboundStall
  repeat' first
    | with_reducible assumption
    | extract_lets +onlyGivenNames x
    | with_reducible apply portFreeze_keeps
    | split
    | with_reducible apply outOk_next

theorem execFreezeWrite_keeps : ∀ (r : Requester) (p : Fin 16) (s : State),
  Inv s → OutOk (execFreezeWrite r p s) := by
  intros
  unfold execFreezeWrite
  repeat' first
    | with_reducible assumption
    | extract_lets +onlyGivenNames x
    | with_reducible apply portFreeze_keeps
    | split
    | with_reducible apply outOk_next

theorem releasePort_keeps : ∀ (s : State) (p : ℕ),
  Inv s → Inv (releasePort s p) := by
  intros
  unfold releasePort
  repeat' first
    | with_reducible assumption
    | intro _
    | (extract_lets +onlyGivenNames x; refine (fun (_ : Inv x) => ?_) ?_; clear_value x; rotate_left; subst x)
    | extract_lets +onlyGivenNames x
    | with_reducible apply State.putB_keeps
    | with_reducible apply updP_keeps
    | with_reducible apply msixRelease_keeps
    | with_reducible apply inv_foldl

theorem releaseWrite_keeps : ∀ (s : State) (p : ℕ),
  Inv s → Inv (releaseWrite s p) := by
  intros
  unfold releaseWrite
  repeat' first
    | with_reducible assumption
    | with_reducible apply releasePort_keeps
    | with_reducible apply State.putB_keeps
    | split

theorem execReleaseWrite_keeps : ∀ (r : Requester) (p : Fin 16) (s : State),
  Inv s → OutOk (execReleaseWrite r p s) := by
  intros
  unfold execReleaseWrite
  repeat' first
    | with_reducible assumption
    | extract_lets +onlyGivenNames x
    | with_reducible apply releaseWrite_keeps
    | split
    | with_reducible apply outOk_next

theorem execAutoRelease_keeps : ∀ (p : Fin 16) (s : State),
  Inv s → OutOk (execAutoRelease p s) := by
  intros
  unfold execAutoRelease
  repeat' first
    | with_reducible assumption
    | extract_lets +onlyGivenNames x
    | with_reducible apply releasePort_keeps
    | with_reducible apply updP_keeps
    | split
    | with_reducible apply outOk_next

theorem portReset_keeps : ∀ (s : State) (p : ℕ) (why : PortResetKind),
  Inv s → Inv (portReset s p why) := by
  intros
  unfold portReset
  repeat' first
    | with_reducible assumption
    | intro _
    | (extract_lets +onlyGivenNames x; refine (fun (_ : Inv x) => ?_) ?_; clear_value x; rotate_left; subst x)
    | (extract_lets +onlyGivenNames x; clear_value x)
    | extract_lets +onlyGivenNames x
    | with_reducible apply portFreeze_keeps
    | with_reducible apply resetInst_keeps
    | with_reducible apply State.putR_keeps
    | with_reducible apply updP_keeps
    | split
    | with_reducible apply inv_foldl

theorem execPortReset_keeps : ∀ (p : Fin 16) (why : PortResetKind) (s : State),
  Inv s → OutOk (execPortReset p why s) := by
  intros
  unfold execPortReset
  repeat' first
    | with_reducible assumption
    | extract_lets +onlyGivenNames x
    | with_reducible apply portReset_keeps
    | split
    | with_reducible apply outOk_next

theorem execPortReady_keeps : ∀ (p : Fin 16) (s : State),
  Inv s → OutOk (execPortReady p s) := by
  intros
  unfold execPortReady
  repeat' first
    | with_reducible assumption
    | extract_lets +onlyGivenNames x
    | with_reducible apply updP_keeps
    | split
    | with_reducible apply outOk_next

theorem execPerstDeassertion_keeps : ∀ (p : Fin 16) (s : State),
  Inv s → OutOk (execPerstDeassertion p s) := by
  intros
  unfold execPerstDeassertion
  repeat' first
    | with_reducible assumption
    | extract_lets +onlyGivenNames x
    | with_reducible apply updP_keeps
    | split
    | with_reducible apply outOk_next

theorem execDataLinkUp_keeps : ∀ (p : Fin 16) (width : Fin 32) (speed : Fin 8) (flit : Bool) (s : State),
  Inv s → OutOk (execDataLinkUp p width speed flit s) := by
  intros
  unfold execDataLinkUp
  repeat' first
    | with_reducible assumption
    | (extract_lets +onlyGivenNames x; refine (fun (_ : Inv x) => ?_) ?_; clear_value x; rotate_left; subst x)
    | (extract_lets +onlyGivenNames x; clear_value x)
    | extract_lets +onlyGivenNames x
    | with_reducible apply State.putR_keeps
    | with_reducible apply updP_keeps
    | split
    | with_reducible apply outOk_next

theorem execMsixVectorSend_keeps : ∀ (p : Fin 16) (i : Fin 64) (v : Fin 1024) (s : State),
  Inv s → OutOk (execMsixVectorSend p i v s) := by
  intros
  unfold execMsixVectorSend
  repeat' first
    | with_reducible assumption
    | extract_lets +onlyGivenNames x
    | with_reducible apply msixMessage_keeps
    | split
    | with_reducible apply outOk_next

theorem execConfigurationWrite_keeps : ∀ (p : Fin 16) (i : Fin 64) (w : CfgWrite) (s : State),
  Inv s → OutOk (execConfigurationWrite p i w s) := by
  intros
  unfold execConfigurationWrite
  repeat' first
    | with_reducible assumption
    | intro _
    | (extract_lets +onlyGivenNames x; refine (fun (_ : Inv x) => ?_) ?_; clear_value x; rotate_left; subst x)
    | (extract_lets +onlyGivenNames x; refine (fun (_ : ∀ a, Inv (x a)) => ?_) ?_; clear_value x; rotate_left; subst x)
    | (extract_lets +onlyGivenNames x; clear_value x)
    | extract_lets +onlyGivenNames x
    | with_reducible apply updP_keeps
    | with_reducible apply resetInst_keeps
    | with_reducible apply masterOff_keeps
    | with_reducible apply masterBack_keeps
    | with_reducible apply msixRelease_keeps
    | split
    | with_reducible apply outOk_next
    | with_reducible apply inv_foldl
    | with_reducible apply_assumption -exfalso -symm

end Sys2Proof.Machine
end

