-- ==== Sys2Proof/Laws/KeepsFabric.lean ====
section
/-! SUPPORT. The invariant under the definitions of Machine/Fabric.lean. -/

namespace Sys2Proof.Machine

set_option linter.all false

theorem linkRecord_keeps : ∀ (s : State) (st d : ℕ),
  Inv s → Inv (linkRecord s st d) := by
  intros
  unfold linkRecord
  repeat' first
    | with_reducible assumption
    | with_reducible apply logRecord_keeps

theorem countLost_keeps : ∀ (s : State) (st d : ℕ),
  Inv s → Inv (countLost s st d) := by
  intros
  unfold countLost
  repeat' first
    | with_reducible assumption
    | extract_lets +onlyGivenNames x
    | with_reducible apply pmUncore_keeps
    | with_reducible apply State.putR_keeps

theorem setQuiet_keeps : ∀ (s : State) (q : Bool),
  Inv s → Inv (setQuiet s q) := by
  intros
  unfold setQuiet
  repeat' first
    | with_reducible assumption
    | intro _
    | extract_lets +onlyGivenNames x
    | with_reducible apply State.putB_keeps
    | with_reducible apply inv_foldl

theorem startCommit_keeps : ∀ (s : State) (ch : RouteSet),
  Inv s → Inv (startCommit s ch) := by
  intros
  unfold startCommit
  repeat' first
    | with_reducible assumption
    | intro _
    | (extract_lets +onlyGivenNames x; refine (fun (_ : Inv x) => ?_) ?_; clear_value x; rotate_left; subst x)
    | (extract_lets +onlyGivenNames x; clear_value x)
    | extract_lets +onlyGivenNames x
    | with_reducible apply logRecord_keeps
    | with_reducible apply State.putR_keeps
    | with_reducible apply setQuiet_keeps
    | split
    | with_reducible apply inv_foldl
    | fail_if_no_progress with_reducible apply inv_mk

theorem execRouteCommit_keeps : ∀ (changes : List (ℕ × ℕ × BitVec 64)) (s : State),
  Inv s → OutOk (execRouteCommit changes s) := by
  intros
  unfold execRouteCommit
  repeat' first
    | with_reducible assumption
    | extract_lets +onlyGivenNames x
    | with_reducible apply startCommit_keeps
    | with_reducible apply outOk_next

theorem dropPacket_keeps : ∀ (s : State) (p : Packet),
  Inv s → Inv (dropPacket s p) := by
  intros
  unfold dropPacket
  repeat' first
    | with_reducible assumption
    | with_reducible apply countLost_keeps

theorem lossState_keeps : ∀ (s : State) (a : Loss),
  Inv s → Inv (lossState s a) := by
  intros
  unfold lossState
  repeat' first
    | with_reducible assumption
    | with_reducible apply State.putF_keeps
    | split

theorem execAlternativesReady_keeps : ∀ (links stops : List (ℕ × List (ℕ × ℕ × BitVec 64))) (s : State),
  Inv s → OutOk (execAlternativesReady links stops s) := by
  intros
  unfold execAlternativesReady
  repeat' first
    | with_reducible assumption
    | (extract_lets +onlyGivenNames x; clear_value x)
    | extract_lets +onlyGivenNames x
    | split
    | with_reducible apply outOk_next
    | fail_if_no_progress with_reducible apply inv_mk

theorem execReroute_keeps : ∀ (isStop : Bool) (n : ℕ) (s : State),
  Inv s → OutOk (execReroute isStop n s) := by
  intros
  unfold execReroute
  repeat' first
    | with_reducible assumption
    | (extract_lets +onlyGivenNames x; clear_value x)
    | extract_lets +onlyGivenNames x
    | with_reducible apply startCommit_keeps
    | split
    | with_reducible apply outOk_next

theorem updFab_keeps : ∀ (s : State) (f : Fabric → Fabric),
  Inv s → Inv (updFab s f) := by
  intros
  unfold updFab
  repeat' first
    | with_reducible assumption
    | fail_if_no_progress with_reducible apply inv_mk

theorem takeDown_keeps : ∀ (s : State) (st d state : ℕ),
  Inv s → Inv (takeDown s st d state) := by
  intros
  unfold takeDown
  repeat' first
    | with_reducible assumption
    | intro _
    | (extract_lets +onlyGivenNames x; refine (fun (_ : Inv x) => ?_) ?_; clear_value x; rotate_left; subst x)
    | (extract_lets +onlyGivenNames x; clear_value x)
    | extract_lets +onlyGivenNames x
    | with_reducible apply dropPacket_keeps
    | with_reducible apply updFab_keeps
    | with_reducible apply linkRecord_keeps
    | with_reducible apply State.putF_keeps
    | with_reducible apply inv_foldl

theorem stopLost_keeps : ∀ (s : State) (st : ℕ),
  Inv s → Inv (stopLost s st) := by
  intros
  unfold stopLost
  repeat' first
    | with_reducible assumption
    | intro _
    | (extract_lets +onlyGivenNames x; refine (fun (_ : Inv x) => ?_) ?_; clear_value x; rotate_left; subst x)
    | (extract_lets +onlyGivenNames x; clear_value x)
    | extract_lets +onlyGivenNames x
    | with_reducible apply dropPacket_keeps
    | with_reducible apply updFab_keeps
    | with_reducible apply takeDown_keeps
    | split
    | with_reducible apply inv_foldl

theorem execLinkReplay_keeps : ∀ (st : Fin 128) (d : Fin 4) (s : State),
  Inv s → OutOk (execLinkReplay st d s) := by
  intros
  unfold execLinkReplay
  repeat' first
    | with_reducible assumption
    | (extract_lets +onlyGivenNames x; refine (fun (_ : Inv x) => ?_) ?_; clear_value x; rotate_left; subst x)
    | (extract_lets +onlyGivenNames x; clear_value x)
    | extract_lets +onlyGivenNames x
    | with_reducible apply State.putR_keeps
    | with_reducible apply pmUncore_keeps
    | with_reducible apply updFab_keeps
    | with_reducible apply takeDown_keeps
    | split
    | with_reducible apply outOk_next

theorem execLivenessToken_keeps : ∀ (st : Fin 128) (d : Fin 4) (s : State),
  Inv s → OutOk (execLivenessToken st d s) := by
  intros
  unfold execLivenessToken
  repeat' first
    | with_reducible assumption
    | extract_lets +onlyGivenNames x
    | with_reducible apply updFab_keeps
    | split
    | with_reducible apply outOk_next

theorem execLinkDown_keeps : ∀ (st : Fin 128) (d : Fin 4) (lockLost : Bool) (s : State),
  Inv s → OutOk (execLinkDown st d lockLost s) := by
  intros
  unfold execLinkDown
  repeat' first
    | with_reducible assumption
    | extract_lets +onlyGivenNames x
    | with_reducible apply takeDown_keeps
    | split
    | with_reducible apply outOk_next

theorem execLinkOutOfService_keeps : ∀ (st : Fin 128) (d : Fin 4) (s : State),
  Inv s → OutOk (execLinkOutOfService st d s) := by
  intros
  unfold execLinkOutOfService
  repeat' first
    | with_reducible assumption
    | (extract_lets +onlyGivenNames x; clear_value x)
    | extract_lets +onlyGivenNames x
    | with_reducible apply takeDown_keeps
    | split
    | with_reducible apply outOk_next

theorem inject_keeps : ∀ (s : State) (stop : ℕ) (msg : Msg) (dest src tag attempt : ℕ)
  (payload : List Byte) (orig : Option (ℕ × ℕ)),
  Inv s →
    Inv (inject s stop msg dest src tag attempt payload orig) := by
  intros
  unfold inject
  repeat' first
    | with_reducible assumption
    | (extract_lets +onlyGivenNames x; refine (fun (_ : Inv x) => ?_) ?_; clear_value x; rotate_left; subst x)
    | (extract_lets +onlyGivenNames x; clear_value x)
    | with_reducible apply updFab_keeps
    | with_reducible apply pmUncore_keeps
    | split

theorem recordResp_keeps : ∀ (s : State) (stop dest tag : ℕ) (msg : Msg) (payload : List Byte),
  Inv s → Inv (recordResp s stop dest tag msg payload) := by
  intros
  unfold recordResp
  repeat' first
    | with_reducible assumption
    | with_reducible apply updFab_keeps

theorem injectNew_keeps : ∀ (s : State) (i : Inject),
  Inv s → Inv (injectNew s i) := by
  intros
  unfold injectNew
  repeat' first
    | with_reducible assumption
    | (extract_lets +onlyGivenNames x; clear_value x)
    | extract_lets +onlyGivenNames x
    | with_reducible apply inject_keeps
    | with_reducible apply recordResp_keeps
    | with_reducible apply updFab_keeps
    | split

theorem respondTo_keeps : ∀ (s : State) (p : Packet) (msg : Msg) (payload : List Byte),
  Inv s → Inv (respondTo s p msg payload) := by
  intros
  unfold respondTo
  repeat' first
    | with_reducible assumption
    | with_reducible apply inject_keeps

theorem deliverReq_keeps : ∀ (s : State) (p : Packet),
  Inv s → Inv (deliverReq s p) := by
  intros
  unfold deliverReq
  repeat' first
    | with_reducible assumption
    | intro _
    | (extract_lets +onlyGivenNames x; clear_value x)
    | extract_lets +onlyGivenNames x
    | with_reducible apply respondTo_keeps
    | with_reducible apply updFab_keeps
    | split
    | with_reducible apply mOk_map
    | with_reducible apply inv_getD

theorem deliverRsp_keeps : ∀ (s : State) (p : Packet),
  Inv s → Inv (deliverRsp s p) := by
  intros
  unfold deliverRsp
  repeat' first
    | with_reducible assumption
    | extract_lets +onlyGivenNames x
    | with_reducible apply updFab_keeps
    | with_reducible apply inject_keeps
    | split

theorem deliver_keeps : ∀ (s : State) (p : Packet),
  Inv s → Inv (deliver s p) := by
  intros
  unfold deliver
  repeat' first
    | with_reducible assumption
    | (extract_lets +onlyGivenNames x; refine (fun (_ : Inv x) => ?_) ?_; clear_value x; rotate_left; subst x)
    | (extract_lets +onlyGivenNames x; clear_value x)
    | extract_lets +onlyGivenNames x
    | with_reducible apply pmUncore_keeps
    | with_reducible apply logRecord_keeps
    | with_reducible apply State.putR_keeps
    | with_reducible apply deliverReq_keeps
    | with_reducible apply deliverRsp_keeps
    | split

theorem sendHop_keeps : ∀ (s : State) (k : ℕ) (p : Packet),
  Inv s → Inv (sendHop s k p) := by
  intros
  unfold sendHop
  repeat' first
    | with_reducible assumption
    | (extract_lets +onlyGivenNames x; refine (fun (_ : Inv x) => ?_) ?_; clear_value x; rotate_left; subst x)
    | with_reducible apply updFab_keeps
    | with_reducible apply pmUncore_keeps

theorem landHop_keeps : ∀ (s : State) (k : ℕ) (p : Packet),
  Inv s → Inv (landHop s k p) := by
  intros
  unfold landHop
  repeat' first
    | with_reducible assumption
    | (extract_lets +onlyGivenNames x; clear_value x)
    | with_reducible apply updFab_keeps

theorem takeOut_keeps : ∀ (s : State) (k : ℕ) (p : Packet),
  Inv s → Inv (takeOut s k p) := by
  intros
  unfold takeOut
  repeat' first
    | with_reducible assumption
    | (extract_lets +onlyGivenNames x; refine (fun (_ : Inv x) => ?_) ?_; clear_value x; rotate_left; subst x)
    | with_reducible apply updFab_keeps
    | with_reducible apply deliver_keeps
    | split

theorem execPacketHop_keeps : ∀ (k : ℕ) (fresh : Option Inject) (s : State),
  Inv s → OutOk (execPacketHop k fresh s) := by
  intros
  unfold execPacketHop
  repeat' first
    | with_reducible assumption
    | extract_lets +onlyGivenNames x
    | with_reducible apply injectNew_keeps
    | with_reducible apply landHop_keeps
    | with_reducible apply takeOut_keeps
    | with_reducible apply dropPacket_keeps
    | with_reducible apply updFab_keeps
    | with_reducible apply sendHop_keeps
    | split
    | with_reducible apply outOk_next

theorem abandonRead_keeps : ∀ (s : State) (k : ℕ) (e : EReq),
  Inv s → Inv (abandonRead s k e) := by
  intros
  unfold abandonRead
  repeat' first
    | with_reducible assumption
    | with_reducible apply updT_keeps
    | with_reducible apply updC_keeps
    | split

theorem abandon_keeps : ∀ (s : State) (e : EReq),
  Inv s → Inv (abandon s e) := by
  intros
  unfold abandon
  repeat' first
    | with_reducible assumption
    | intro _
    | (extract_lets +onlyGivenNames x; refine (fun (_ : Inv x) => ?_) ?_; clear_value x; rotate_left; subst x)
    | (extract_lets +onlyGivenNames x; refine (fun (_ : ∀ s, Inv s → Inv (x s)) => ?_) ?_; clear_value x; rotate_left; subst x)
    | with_reducible apply updFab_keeps
    | with_reducible apply logRecord_keeps
    | with_reducible apply abandonRead_keeps
    | with_reducible apply endUnit_keeps
    | with_reducible apply aer_keeps
    | split
    | with_reducible apply_assumption -exfalso -symm

theorem execRequestTimeout_keeps : ∀ (k : ℕ) (s : State),
  Inv s → OutOk (execRequestTimeout k s) := by
  intros
  unfold execRequestTimeout
  repeat' first
    | with_reducible assumption
    | (extract_lets +onlyGivenNames x; refine (fun (_ : Inv x) => ?_) ?_; clear_value x; rotate_left; subst x)
    | (extract_lets +onlyGivenNames x; clear_value x)
    | extract_lets +onlyGivenNames x
    | with_reducible apply abandon_keeps
    | with_reducible apply updFab_keeps
    | with_reducible apply inject_keeps
    | split
    | with_reducible apply outOk_next

theorem releaseHeld_keeps : ∀ (s : State), Inv s → Inv (releaseHeld s) := by
  intros
  unfold releaseHeld
  repeat' first
    | with_reducible assumption
    | intro _
    | (extract_lets +onlyGivenNames x; refine (fun (_ : Inv x) => ?_) ?_; clear_value x; rotate_left; subst x)
    | (extract_lets +onlyGivenNames x; clear_value x)
    | extract_lets +onlyGivenNames x
    | with_reducible apply updFab_keeps
    | with_reducible apply inject_keeps
    | with_reducible apply inv_foldl

theorem sendNotices_keeps : ∀ (s : State), Inv s → Inv (sendNotices s) := by
  intros
  unfold sendNotices
  repeat' first
    | with_reducible assumption
    | fail_if_no_progress with_reducible apply inv_mk

theorem execQuietDrained_keeps : ∀ (s : State),
  Inv s → OutOk (execQuietDrained s) := by
  intros
  unfold execQuietDrained
  repeat' first
    | with_reducible assumption
    | intro _
    | (extract_lets +onlyGivenNames x; refine (fun (_ : Inv x) => ?_) ?_; clear_value x; rotate_left; subst x)
    | (extract_lets +onlyGivenNames x; clear_value x)
    | extract_lets +onlyGivenNames x
    | with_reducible apply dropPacket_keeps
    | with_reducible apply State.putF_keeps
    | with_reducible apply setQuiet_keeps
    | with_reducible apply releaseHeld_keeps
    | with_reducible apply sendNotices_keeps
    | with_reducible apply logRecord_keeps
    | split
    | with_reducible apply outOk_next
    | with_reducible apply inv_foldl
    | fail_if_no_progress with_reducible apply inv_mk

theorem execCompleterRecordExpiry_keeps : ∀ (k : ℕ) (s : State),
  Inv s → OutOk (execCompleterRecordExpiry k s) := by
  intros
  unfold execCompleterRecordExpiry
  repeat' first
    | with_reducible assumption
    | extract_lets +onlyGivenNames x
    | with_reducible apply updFab_keeps
    | split
    | with_reducible apply outOk_next

end Sys2Proof.Machine
end

