-- ==== Sys2Proof/Laws/KeepsCaches.lean ====
section
/-! SUPPORT. The invariant under the definitions of Machine/Caches.lean. -/

namespace Sys2Proof.Machine

set_option linter.all false

theorem reportFailed_keeps : ∀ (s : State), Inv s → Inv (reportFailed s) := by
  intros
  unfold reportFailed
  repeat' first
    | with_reducible assumption
    | (extract_lets +onlyGivenNames x; clear_value x)
    | fail_if_no_progress with_reducible apply inv_mk

theorem wipeScratch_keeps : ∀ (s : State) (at_ : ℕ → Bool),
  Inv s → Inv (wipeScratch s at_) := by
  intro s f h
  unfold wipeScratch
  extract_lets ks s1
  have h1 : Inv s1 := inv_foldl h (fun _ _ h => recallLine_keeps _ _ h)
  exact inv_filter h1 rfl rfl rfl rfl

theorem dropTxns_keeps : ∀ (s : State) (here : ℕ → Bool),
  Inv s → Inv (dropTxns s here) := by
  intros
  unfold dropTxns
  repeat' first
    | with_reducible assumption
    | fail_if_no_progress with_reducible apply inv_mk

theorem wakeQueue_keeps : ∀ (s : State), Inv s → Inv (wakeQueue s) := by
  intros
  unfold wakeQueue
  repeat' first
    | with_reducible assumption
    | intro _
    | extract_lets +onlyGivenNames x
    | with_reducible apply advanceTxn_keeps
    | with_reducible apply inv_foldl

theorem retryAll_keeps : ∀ (s : State) (i : ℕ),
  Inv s → Inv (retryAll s i) := by
  intros
  unfold retryAll
  repeat' first
    | with_reducible assumption
    | intro _
    | (extract_lets +onlyGivenNames x; clear_value x)
    | extract_lets +onlyGivenNames x
    | with_reducible apply wakeQueue_keeps
    | with_reducible apply answer_keeps
    | with_reducible apply holdReq_keeps
    | with_reducible apply dropTxns_keeps
    | split
    | with_reducible apply inv_foldl

theorem spoil_keeps : ∀ (s : State) (q : HomeReq),
  Inv s → Inv (spoil s q) := by
  intros
  unfold spoil
  repeat' first
    | with_reducible assumption
    | (extract_lets +onlyGivenNames x; clear_value x)
    | with_reducible apply updC_keeps
    | with_reducible apply pushRsp_keeps
    | split

theorem loseScratch_keeps : ∀ (s : State) (i : ℕ),
  Inv s → Inv (loseScratch s i) := by
  intros
  unfold loseScratch
  repeat' first
    | with_reducible assumption
    | intro _
    | (extract_lets +onlyGivenNames x; clear_value x)
    | extract_lets +onlyGivenNames x
    | with_reducible apply wipeScratch_keeps
    | with_reducible apply spoil_keeps
    | with_reducible apply dropTxns_keeps
    | with_reducible apply inv_foldl

theorem buddyLost_keeps : ∀ (s : State) (i : ℕ),
  Inv s → Inv (buddyLost s i) := by
  intros
  unfold buddyLost
  repeat' first
    | with_reducible assumption
    | intro _
    | (extract_lets +onlyGivenNames x; refine (fun (_ : Inv x) => ?_) ?_; clear_value x; rotate_left; subst x)
    | (extract_lets +onlyGivenNames x; clear_value x)
    | extract_lets +onlyGivenNames x
    | with_reducible apply State.putF_keeps
    | with_reducible apply buddyDone_keeps
    | with_reducible apply inv_foldl
    | fail_if_no_progress with_reducible apply inv_mk

theorem loseDirty_keeps : ∀ (s : State) (i : ℕ), Inv s → Inv (loseDirty s i) := by
  intro s i h
  unfold loseDirty
  extract_lets gone
  refine inv_foldl h (fun s l h => ?_)
  have h1 := setL3_keeps s l none h
  exact inv_of (writeCells_keeps _ _ _ h1.1) h1.2.1 h1.2.2.1 h1.2.2.2


theorem joinRetires_keeps : ∀ (s : State) (i : ℕ) (drain : Bool),
  Inv s → Inv (joinRetires s i drain) := by
  intros
  unfold joinRetires
  repeat' first
    | with_reducible assumption
    | (extract_lets +onlyGivenNames x; clear_value x)
    | split
    | fail_if_no_progress with_reducible apply inv_mk

theorem leaveRetires_keeps : ∀ (s : State) (i : ℕ),
  Inv s → Inv (leaveRetires s i) := by
  intros
  unfold leaveRetires
  repeat' first
    | with_reducible assumption
    | split
    | fail_if_no_progress with_reducible apply inv_mk

theorem failSlice_keeps : ∀ (s : State) (i cause : ℕ),
  Inv s → Inv (failSlice s i cause) := by
  intros
  unfold failSlice
  repeat' first
    | with_reducible assumption
    | (extract_lets +onlyGivenNames x; refine (fun (_ : Inv x) => ?_) ?_; clear_value x; rotate_left; subst x)
    | (extract_lets +onlyGivenNames x; clear_value x)
    | extract_lets +onlyGivenNames x
    | with_reducible apply buddyLost_keeps
    | with_reducible apply setUnit_keeps
    | with_reducible apply loseScratch_keeps
    | with_reducible apply reportFailed_keeps
    | with_reducible apply logRecord_keeps
    | with_reducible apply loseDirty_keeps
    | with_reducible apply configEval_keeps
    | with_reducible apply joinRetires_keeps
    | with_reducible apply retryAll_keeps
    | split

theorem drainSlice_keeps : ∀ (s : State) (i : ℕ),
  Inv s → Inv (drainSlice s i) := by
  intros
  unfold drainSlice
  repeat' first
    | with_reducible assumption
    | extract_lets +onlyGivenNames x
    | with_reducible apply joinRetires_keeps
    | with_reducible apply setUnit_keeps
    | split

theorem execSliceHold_keeps : ∀ (i : Fin 96) (drain : Bool) (s : State),
  Inv s → OutOk (execSliceHold i drain s) := by
  intros
  unfold execSliceHold
  repeat' first
    | with_reducible assumption
    | extract_lets +onlyGivenNames x
    | with_reducible apply drainSlice_keeps
    | with_reducible apply failSlice_keeps
    | split
    | with_reducible apply outOk_next

theorem updRetire_keeps : ∀ (s : State) (i : ℕ) (f : Retire → Retire),
  Inv s → Inv (updRetire s i f) := by
  intros
  unfold updRetire
  repeat' first
    | with_reducible assumption
    | fail_if_no_progress with_reducible apply inv_mk

theorem execDirectoryTransferDone_keeps : ∀ (i : Fin 96) (s : State),
  Inv s → OutOk (execDirectoryTransferDone i s) := by
  intros
  unfold execDirectoryTransferDone
  repeat' first
    | with_reducible assumption
    | intro _
    | (extract_lets +onlyGivenNames x; refine (fun (_ : Inv x) => ?_) ?_; clear_value x; rotate_left; subst x)
    | (extract_lets +onlyGivenNames x; clear_value x)
    | extract_lets +onlyGivenNames x
    | with_reducible apply l3Out_keeps
    | with_reducible apply updRetire_keeps
    | split
    | with_reducible apply outOk_next
    | with_reducible apply inv_foldl
    | fail_if_no_progress with_reducible apply inv_mk

theorem execSliceMapCommit_keeps : ∀ (i : Fin 96) (s : State),
  Inv s → OutOk (execSliceMapCommit i s) := by
  intros
  unfold execSliceMapCommit
  repeat' first
    | with_reducible assumption
    | intro _
    | (extract_lets +onlyGivenNames x; refine (fun (_ : Inv x) => ?_) ?_; clear_value x; rotate_left; subst x)
    | extract_lets +onlyGivenNames x
    | with_reducible apply State.putF_keeps
    | with_reducible apply bcastFix_keeps
    | with_reducible apply updRetire_keeps
    | split
    | with_reducible apply outOk_next
    | with_reducible apply inv_foldl

theorem startSubstitute_keeps : ∀ (s : State) (i h : ℕ),
  Inv s → Inv (startSubstitute s i h) := by
  intros
  unfold startSubstitute
  repeat' first
    | with_reducible assumption
    | (extract_lets +onlyGivenNames x; refine (fun (_ : Inv x) => ?_) ?_; clear_value x; rotate_left; subst x)
    | (extract_lets +onlyGivenNames x; clear_value x)
    | extract_lets +onlyGivenNames x
    | with_reducible apply State.putF_keeps
    | split
    | fail_if_no_progress with_reducible apply inv_mk

theorem execSliceRelease_keeps : ∀ (i : Fin 96) (s : State),
  Inv s → OutOk (execSliceRelease i s) := by
  intros
  unfold execSliceRelease
  repeat' first
    | with_reducible assumption
    | intro _
    | (extract_lets +onlyGivenNames x; refine (fun (_ : Inv x) => ?_) ?_; clear_value x; rotate_left; subst x)
    | (extract_lets +onlyGivenNames x; clear_value x)
    | extract_lets +onlyGivenNames x
    | with_reducible apply resendHeld_keeps
    | with_reducible apply releaseHeld_keeps
    | with_reducible apply leaveRetires_keeps
    | with_reducible apply addWithdrawn_keeps
    | with_reducible apply setUnit_keeps
    | with_reducible apply logRecord_keeps
    | with_reducible apply configEval_keeps
    | with_reducible apply startSubstitute_keeps
    | split
    | with_reducible apply outOk_next
    | with_reducible apply inv_foldl

theorem execSubstituteBuddyCopyDone_keeps : ∀ (h : Fin 96) (s : State),
  Inv s → OutOk (execSubstituteBuddyCopyDone h s) := by
  intros
  unfold execSubstituteBuddyCopyDone
  repeat' first
    | with_reducible assumption
    | (extract_lets +onlyGivenNames x; refine (fun (_ : Inv x) => ?_) ?_; clear_value x; rotate_left; subst x)
    | (extract_lets +onlyGivenNames x; clear_value x)
    | extract_lets +onlyGivenNames x
    | with_reducible apply configEval_keeps
    | with_reducible apply State.putF_keeps
    | split
    | with_reducible apply outOk_next
    | fail_if_no_progress with_reducible apply inv_mk

theorem loseLine_keeps : ∀ (s : State) (u line : ℕ),
  Inv s → Inv (loseLine s u line) := by
  intros
  unfold loseLine
  repeat' first
    | with_reducible assumption
    | (extract_lets +onlyGivenNames x; clear_value x)
    | extract_lets +onlyGivenNames x
    | with_reducible apply logRecord_keeps
    | with_reducible apply setPoison_keeps
    | with_reducible apply setL3_keeps
    | with_reducible apply recallLine_keeps

theorem recoverCore_keeps : ∀ (s : State) (k array set : ℕ) (lost : List ℕ),
  Inv s → Inv (recoverCore s k array set lost) := by
  intros
  unfold recoverCore
  repeat' first
    | with_reducible assumption
    | intro _
    | (extract_lets +onlyGivenNames x; refine (fun (_ : Inv x) => ?_) ?_; clear_value x; rotate_left; subst x)
    | (extract_lets +onlyGivenNames x; clear_value x)
    | extract_lets +onlyGivenNames x
    | with_reducible apply updC_keeps
    | with_reducible apply dropLine_keeps
    | with_reducible apply leaveClean_keeps
    | with_reducible apply loseLine_keeps
    | with_reducible apply logRecord_keeps
    | split
    | with_reducible apply inv_foldl

theorem recoverSlice_keeps : ∀ (s : State) (i set : ℕ) (lost : List ℕ),
  Inv s → Inv (recoverSlice s i set lost) := by
  intros
  unfold recoverSlice
  repeat' first
    | with_reducible assumption
    | intro _
    | (extract_lets +onlyGivenNames x; refine (fun (_ : Inv x) => ?_) ?_; clear_value x; rotate_left; subst x)
    | (extract_lets +onlyGivenNames x; clear_value x)
    | extract_lets +onlyGivenNames x
    | with_reducible apply setL3_keeps
    | with_reducible apply loseLine_keeps
    | with_reducible apply logRecord_keeps
    | with_reducible apply inv_foldl

theorem replayAccess_keeps : ∀ (s : State) (k : ℕ),
  Inv s → Inv (replayAccess s k) := by
  intros
  unfold replayAccess
  repeat' first
    | with_reducible assumption
    | with_reducible apply updC_keeps
    | split

theorem execTagRecovery_keeps : ∀ (u : Uid) (array : Fin 5) (set : ℕ) (what : ArrayErr) (s : State),
  Inv s → OutOk (execTagRecovery u array set what s) := by
  intros
  unfold execTagRecovery
  repeat' first
    | with_reducible assumption
    | (extract_lets +onlyGivenNames x; clear_value x)
    | extract_lets +onlyGivenNames x
    | with_reducible apply replayAccess_keeps
    | with_reducible apply recoverCore_keeps
    | with_reducible apply setPoison_keeps
    | with_reducible apply recoverSlice_keeps
    | split
    | with_reducible apply outOk_next

theorem wayRecord_keeps : ∀ (s : State) (u array way : ℕ),
  Inv s → Inv (wayRecord s u array way) := by
  intros
  unfold wayRecord
  repeat' first
    | with_reducible assumption
    | with_reducible apply logRecord_keeps

theorem countWay_keeps : ∀ (s : State) (u array way : ℕ),
  Inv s → Inv (countWay s u array way).1 := by
  intros
  unfold countWay
  repeat' first
    | with_reducible assumption
    | (extract_lets +onlyGivenNames x; refine (fun (_ : Inv x) => ?_) ?_; clear_value x; rotate_left; subst x)
    | (extract_lets +onlyGivenNames x; clear_value x)
    | split
    | fail_if_no_progress with_reducible apply inv_mk

theorem coreWayOff_keeps : ∀ (s : State) (k array way : ℕ),
  Inv s → Inv (coreWayOff s k array way) := by
  intros
  unfold coreWayOff
  repeat' first
    | with_reducible assumption
    | (extract_lets +onlyGivenNames x; clear_value x)
    | extract_lets +onlyGivenNames x
    | with_reducible apply wayRecord_keeps
    | with_reducible apply emptyWays_keeps
    | with_reducible apply State.putF_keeps
    | split

theorem sliceWayOff_keeps : ∀ (s : State) (i way : ℕ),
  Inv s → Inv (sliceWayOff s i way) := by
  intros
  unfold sliceWayOff
  repeat' first
    | with_reducible assumption
    | (extract_lets +onlyGivenNames x; clear_value x)
    | extract_lets +onlyGivenNames x
    | with_reducible apply wayRecord_keeps
    | with_reducible apply fixGeneral_keeps
    | with_reducible apply State.putF_keeps
    | split

theorem execWayDisable_keeps : ∀ (u : Uid) (array : Fin 4) (way : Fin 12) (management : Bool) (s : State),
  Inv s → OutOk (execWayDisable u array way management s) := by
  intros
  unfold execWayDisable
  repeat' first
    | with_reducible assumption
    | (extract_lets +onlyGivenNames x; clear_value x)
    | extract_lets +onlyGivenNames x
    | with_reducible apply coreWayOff_keeps
    | with_reducible apply countWay_keeps
    | with_reducible apply failCore_keeps
    | with_reducible apply sliceWayOff_keeps
    | with_reducible apply drainSlice_keeps
    | split
    | with_reducible apply outOk_next
    | refine inv_pairQ (by with_reducible assumption) ?_

theorem clearScratch_keeps : ∀ (s : State) (j : ℕ),
  Inv s → Inv (clearScratch s j) := by
  intros
  unfold clearScratch
  repeat' first
    | with_reducible assumption
    | with_reducible apply wipeScratch_keeps

theorem applyScratch_keeps : ∀ (s : State) (n : ℕ),
  Inv s → Inv (applyScratch s n) := by
  intros
  unfold applyScratch
  repeat' first
    | with_reducible assumption
    | intro _
    | extract_lets +onlyGivenNames x
    | with_reducible apply fixGeneral_keeps
    | with_reducible apply State.putF_keeps
    | with_reducible apply inv_foldl

theorem writeScratchCfg_keeps : ∀ (s : State) (v : Word),
  Inv s → Inv (writeScratchCfg s v) := by
  intros
  unfold writeScratchCfg
  repeat' first
    | with_reducible assumption
    | (extract_lets +onlyGivenNames x; refine (fun (_ : Inv x) => ?_) ?_; clear_value x; rotate_left; subst x)
    | (extract_lets +onlyGivenNames x; clear_value x)
    | extract_lets +onlyGivenNames x
    | with_reducible apply State.putF_keeps
    | with_reducible apply clearScratch_keeps
    | split
    | fail_if_no_progress with_reducible apply inv_mk

theorem execScratchCfgWrite_keeps : ∀ (r : Requester) (v : Word) (s : State),
  Inv s → OutOk (execScratchCfgWrite r v s) := by
  intros
  unfold execScratchCfgWrite
  repeat' first
    | with_reducible assumption
    | extract_lets +onlyGivenNames x
    | with_reducible apply writeScratchCfg_keeps
    | split
    | with_reducible apply outOk_next

theorem execScratchChangeDone_keeps : ∀ (s : State),
  Inv s → OutOk (execScratchChangeDone s) := by
  intros
  unfold execScratchChangeDone
  repeat' first
    | with_reducible assumption
    | (extract_lets +onlyGivenNames x; refine (fun (_ : Inv x) => ?_) ?_; clear_value x; rotate_left; subst x)
    | (extract_lets +onlyGivenNames x; clear_value x)
    | extract_lets +onlyGivenNames x
    | with_reducible apply clearScratch_keeps
    | with_reducible apply State.putF_keeps
    | with_reducible apply applyScratch_keeps
    | split
    | with_reducible apply outOk_next
    | fail_if_no_progress with_reducible apply inv_mk

end Sys2Proof.Machine
end

