-- ==== Sys2Proof/Laws/KeepsChannels.lean ====
section
/-! SUPPORT. The invariant under the definitions of Machine/Channels.lean. -/

namespace Sys2Proof.Machine

set_option linter.all false

theorem execMcCommandIssue_keeps : ∀ (c : Fin 16) (sub : Bool) (allowed : List DramCmd) (pat mpat : ErrPat) (draw : BitVec 16)
  (s : State),
  Inv s →
    OutOk (execMcCommandIssue c sub allowed pat mpat draw s) := by
  intros
  unfold execMcCommandIssue
  repeat' first
    | with_reducible assumption
    | (extract_lets +onlyGivenNames x; refine (fun (_ : Inv x) => ?_) ?_; clear_value x; rotate_left; subst x)
    | (extract_lets +onlyGivenNames x; clear_value x)
    | extract_lets +onlyGivenNames x
    | with_reducible apply updM_keeps
    | with_reducible apply refreshRank_keeps
    | with_reducible apply pmUncore_keeps
    | with_reducible apply issueWrite_keeps
    | with_reducible apply openRow_keeps
    | with_reducible apply burst_keeps
    | with_reducible apply readError_keeps
    | with_reducible apply memoryDone_keeps
    | split
    | with_reducible apply outOk_next

theorem execRefreshDue_keeps : ∀ (c : Fin 16) (rank : Fin 4) (hot : Bool) (s : State),
  Inv s → OutOk (execRefreshDue c rank hot s) := by
  intros
  unfold execRefreshDue
  repeat' first
    | with_reducible assumption
    | (extract_lets +onlyGivenNames x; clear_value x)
    | extract_lets +onlyGivenNames x
    | with_reducible apply updM_keeps
    | with_reducible apply refreshRank_keeps
    | split
    | with_reducible apply outOk_next

theorem execDriftTracking_keeps : ∀ (c : Fin 16) (writes : List (ℕ × ℕ × BitVec 64)) (s : State),
  Inv s → OutOk (execDriftTracking c writes s) := by
  intros
  unfold execDriftTracking
  repeat' first
    | with_reducible assumption
    | (extract_lets +onlyGivenNames x; clear_value x)
    | extract_lets +onlyGivenNames x
    | with_reducible apply updM_keeps
    | split
    | with_reducible apply outOk_next

theorem writeFreqCtrl_keeps : ∀ (s : State) (c : ℕ) (v : Word),
  Inv s → Inv (writeFreqCtrl s c v) := by
  intros
  unfold writeFreqCtrl
  repeat' first
    | with_reducible assumption
    | intro _
    | (extract_lets +onlyGivenNames x; refine (fun (_ : Inv x) => ?_) ?_; clear_value x; rotate_left; subst x)
    | (extract_lets +onlyGivenNames x; clear_value x)
    | extract_lets +onlyGivenNames x
    | with_reducible apply State.putF_keeps
    | with_reducible apply refreshRank_keeps
    | with_reducible apply updM_keeps
    | split
    | with_reducible apply inv_foldl

theorem execFrequencyChange_keeps : ∀ (r : Requester) (c : Fin 16) (v : Word) (s : State),
  Inv s → OutOk (execFrequencyChange r c v s) := by
  intros
  unfold execFrequencyChange
  repeat' first
    | with_reducible assumption
    | extract_lets +onlyGivenNames x
    | with_reducible apply writeFreqCtrl_keeps
    | split
    | with_reducible apply outOk_next

theorem execFrequencyChangeDone_keeps : ∀ (c : Fin 16) (rate : BitVec 12) (s : State),
  Inv s → OutOk (execFrequencyChangeDone c rate s) := by
  intros
  unfold execFrequencyChangeDone
  repeat' first
    | with_reducible assumption
    | (extract_lets +onlyGivenNames x; refine (fun (_ : Inv x) => ?_) ?_; clear_value x; rotate_left; subst x)
    | (extract_lets +onlyGivenNames x; clear_value x)
    | extract_lets +onlyGivenNames x
    | with_reducible apply State.putF_keeps
    | with_reducible apply updM_keeps
    | split
    | with_reducible apply outOk_next

theorem resend_keeps : ∀ (s : State) (c : ℕ),
  Inv s → Inv (resend s c) := by
  intros
  unfold resend
  repeat' first
    | with_reducible assumption
    | intro _
    | (extract_lets +onlyGivenNames x; refine (fun (_ : Inv x) => ?_) ?_; clear_value x; rotate_left; subst x)
    | (extract_lets +onlyGivenNames x; clear_value x)
    | extract_lets +onlyGivenNames x
    | with_reducible apply updM_keeps
    | with_reducible apply mcRead_keeps
    | with_reducible apply memoryDone_keeps
    | split
    | with_reducible apply inv_foldl
    | refine inv_pairQ (by with_reducible assumption) ?_

theorem migrationCut_keeps : ∀ (s : State) (c : ℕ),
  Inv s → Inv (migrationCut s c) := by
  intros
  unfold migrationCut
  repeat' first
    | with_reducible assumption
    | (extract_lets +onlyGivenNames x; refine (fun (_ : Inv x) => ?_) ?_; clear_value x; rotate_left; subst x)
    | (extract_lets +onlyGivenNames x; clear_value x)
    | extract_lets +onlyGivenNames x
    | with_reducible apply logRecord_keeps
    | with_reducible apply State.putF_keeps
    | with_reducible apply memoryRecord_keeps


theorem failChannel_keeps : ∀ (s : State) (c cause : ℕ),
  Inv s → Inv (failChannel s c cause) := by
  intros
  unfold failChannel
  repeat' first
    | with_reducible assumption
    | (extract_lets +onlyGivenNames x; refine (fun (_ : Inv x) => ?_) ?_; clear_value x; rotate_left; subst x)
    | (extract_lets +onlyGivenNames x; clear_value x)
    | extract_lets +onlyGivenNames x
    | with_reducible apply setUnit_keeps
    | with_reducible apply migrationCut_keeps
    | with_reducible apply resend_keeps
    | with_reducible apply updM_keeps
    | with_reducible apply configEval_keeps
    | with_reducible apply mirrorRecord_keeps
    | with_reducible apply setBroken_keeps
    | split


theorem execChannelFailure_keeps : ∀ (c : Fin 16) (s : State),
  Inv s → OutOk (execChannelFailure c s) := by
  intros
  unfold execChannelFailure
  repeat' first
    | with_reducible assumption
    | extract_lets +onlyGivenNames x
    | with_reducible apply failChannel_keeps
    | with_reducible apply outOk_next

theorem execRankMigrationStart_keeps : ∀ (c : Fin 16) (rank : Fin 4) (s : State),
  Inv s → OutOk (execRankMigrationStart c rank s) := by
  intros
  unfold execRankMigrationStart
  repeat' first
    | with_reducible assumption
    | extract_lets +onlyGivenNames x
    | with_reducible apply startMigration_keeps
    | with_reducible apply outOk_next

theorem execMigrationCopy_keeps : ∀ (c : Fin 16) (pat mpat : ErrPat) (s : State),
  Inv s → OutOk (execMigrationCopy c pat mpat s) := by
  intros
  unfold execMigrationCopy
  repeat' first
    | with_reducible assumption
    | (extract_lets +onlyGivenNames x; refine (fun (_ : Inv x) => ?_) ?_; clear_value x; rotate_left; subst x)
    | (extract_lets +onlyGivenNames x; clear_value x)
    | extract_lets +onlyGivenNames x
    | with_reducible apply ownAccess_keeps
    | with_reducible apply setPoison_keeps
    | with_reducible apply updM_keeps
    | with_reducible apply remapRanks_keeps
    | with_reducible apply State.putR_keeps
    | split
    | with_reducible apply outOk_next

theorem execMigrationDone_keeps : ∀ (c : Fin 16) (s : State),
  Inv s → OutOk (execMigrationDone c s) := by
  intros
  unfold execMigrationDone
  repeat' first
    | with_reducible assumption
    | (extract_lets +onlyGivenNames x; refine (fun (_ : Inv x) => ?_) ?_; clear_value x; rotate_left; subst x)
    | (extract_lets +onlyGivenNames x; clear_value x)
    | extract_lets +onlyGivenNames x
    | with_reducible apply updM_keeps
    | with_reducible apply remapRanks_keeps
    | with_reducible apply State.putF_keeps
    | with_reducible apply State.putR_keeps
    | with_reducible apply logRecord_keeps
    | with_reducible apply configEval_keeps
    | with_reducible apply mirrorRecord_keeps
    | with_reducible apply setBroken_keeps
    | split
    | with_reducible apply outOk_next

theorem gleanStamp_keeps : ∀ (s : State) (c : ℕ),
  Inv s → Inv (gleanStamp s c) := by
  intros
  unfold gleanStamp
  repeat' first
    | with_reducible assumption
    | with_reducible apply updM_keeps


theorem execGleanerRead_keeps : ∀ (c : Fin 16) (pat mpat : ErrPat) (s : State),
  Inv s → OutOk (execGleanerRead c pat mpat s) := by
  intros
  unfold execGleanerRead
  repeat' first
    | with_reducible assumption
    | (extract_lets +onlyGivenNames x; refine (fun (_ : Inv x) => ?_) ?_; clear_value x; rotate_left; subst x)
    | (extract_lets +onlyGivenNames x; clear_value x)
    | extract_lets +onlyGivenNames x
    | with_reducible apply readError_keeps
    | with_reducible apply ownAccess_keeps
    | with_reducible apply gleanStamp_keeps
    | with_reducible apply State.putR_keeps
    | with_reducible apply updM_keeps
    | split
    | with_reducible apply outOk_next


theorem execSpareRankTest_keeps : ∀ (c : Fin 16) (good : Bool) (s : State),
  Inv s → OutOk (execSpareRankTest c good s) := by
  intros
  unfold execSpareRankTest
  repeat' first
    | with_reducible assumption
    | (extract_lets +onlyGivenNames x; refine (fun (_ : Inv x) => ?_) ?_; clear_value x; rotate_left; subst x)
    | (extract_lets +onlyGivenNames x; clear_value x)
    | extract_lets +onlyGivenNames x
    | with_reducible apply updM_keeps
    | with_reducible apply memoryRecord_keeps
    | with_reducible apply State.putF_keeps
    | split
    | with_reducible apply outOk_next

theorem linkLost_keeps : ∀ (s : State) (l : ℕ),
  Inv s → Inv (linkLost s l) := by
  intros
  unfold linkLost
  repeat' first
    | with_reducible assumption
    | (extract_lets +onlyGivenNames x; refine (fun (_ : Inv x) => ?_) ?_; clear_value x; rotate_left; subst x)
    | extract_lets +onlyGivenNames x
    | with_reducible apply configEval_keeps
    | with_reducible apply mirrorRecord_keeps
    | split
    | fail_if_no_progress with_reducible apply inv_mk


theorem execCxlLinkLoss_keeps : ∀ (l : Fin 16) (s : State),
  Inv s → OutOk (execCxlLinkLoss l s) := by
  intros
  unfold execCxlLinkLoss
  repeat' first
    | with_reducible assumption
    | extract_lets +onlyGivenNames x
    | with_reducible apply linkLost_keeps
    | with_reducible apply outOk_next


theorem execCxlLinkTrain_keeps : ∀ (o : Fin 32) (ok : Bool) (s : State),
  Inv s → OutOk (execCxlLinkTrain o ok s) := by
  intros
  unfold execCxlLinkTrain
  repeat' first
    | with_reducible assumption
    | (extract_lets +onlyGivenNames x; refine (fun (_ : Inv x) => ?_) ?_; clear_value x; rotate_left; subst x)
    | (extract_lets +onlyGivenNames x; clear_value x)
    | extract_lets +onlyGivenNames x
    | with_reducible apply configEval_keeps
    | with_reducible apply mirrorRecord_keeps
    | split
    | with_reducible apply outOk_next
    | fail_if_no_progress with_reducible apply inv_mk

theorem execResilverDone_keeps : ∀ (c : Fin 16) (s : State),
  Inv s → OutOk (execResilverDone c s) := by
  intros
  unfold execResilverDone
  repeat' first
    | with_reducible assumption
    | (extract_lets +onlyGivenNames x; refine (fun (_ : Inv x) => ?_) ?_; clear_value x; rotate_left; subst x)
    | extract_lets +onlyGivenNames x
    | with_reducible apply updM_keeps
    | with_reducible apply State.putF_keeps
    | with_reducible apply configEval_keeps
    | with_reducible apply mirrorRecord_keeps
    | with_reducible apply setBroken_keeps
    | split
    | with_reducible apply outOk_next

end Sys2Proof.Machine
end

