-- ==== Sys2Proof/Laws/KeepsInstances.lean ====
section
/-! SUPPORT. The invariant under the definitions of Machine/Instances.lean. -/

namespace Sys2Proof.Machine

set_option linter.all false

theorem execFloorWindow_keeps : ∀ (p : Fin 16) (s : State),
  Inv s → OutOk (execFloorWindow p s) := by
  intros
  unfold execFloorWindow
  repeat' first
    | with_reducible assumption
    | intro _
    | (extract_lets +onlyGivenNames x; refine (fun (_ : Inv x) => ?_) ?_; clear_value x; rotate_left; subst x)
    | (extract_lets +onlyGivenNames x; clear_value x)
    | extract_lets +onlyGivenNames x
    | with_reducible apply instCount_keeps
    | with_reducible apply updI_keeps
    | with_reducible apply updP_keeps
    | split
    | with_reducible apply outOk_next
    | with_reducible apply inv_foldl

theorem mgrNotify_keeps : ∀ (s : State) (p : ℕ),
  Inv s → Inv (mgrNotify s p) := by
  intros
  unfold mgrNotify
  repeat' first
    | with_reducible assumption
    | (extract_lets +onlyGivenNames x; clear_value x)
    | with_reducible apply sendIrq_keeps
    | with_reducible apply msixEvent_keeps
    | split

theorem instNotify_keeps : ∀ (s : State) (p i : ℕ),
  Inv s → Inv (instNotify s p i) := by
  intros
  unfold instNotify
  repeat' first
    | with_reducible assumption
    | (extract_lets +onlyGivenNames x; clear_value x)
    | with_reducible apply msixEvent_keeps
    | split

theorem copyBuffer_keeps : ∀ (s : State) (from_ to_ : ℕ),
  Inv s → Inv (copyBuffer s from_ to_) := by
  intros
  unfold copyBuffer
  repeat' first
    | with_reducible assumption
    | intro _
    | extract_lets +onlyGivenNames x
    | with_reducible apply State.putR_keeps
    | with_reducible apply inv_foldl

theorem mbxSend_keeps : ∀ (s : State) (p i : ℕ),
  Inv s → Inv (mbxSend s p i) := by
  intros
  unfold mbxSend
  repeat' first
    | with_reducible assumption
    | (extract_lets +onlyGivenNames x; refine (fun (_ : Inv x) => ?_) ?_; clear_value x; rotate_left; subst x)
    | (extract_lets +onlyGivenNames x; clear_value x)
    | extract_lets +onlyGivenNames x
    | with_reducible apply State.putB_keeps
    | with_reducible apply copyBuffer_keeps
    | with_reducible apply mgrNotify_keeps
    | with_reducible apply instCount_keeps
    | with_reducible apply State.putF_keeps
    | split

theorem mbxAck_keeps : ∀ (s : State) (p i : ℕ),
  Inv s → Inv (mbxAck s p i) := by
  intros
  unfold mbxAck
  repeat' first
    | with_reducible assumption
    | extract_lets +onlyGivenNames x
    | with_reducible apply mgrNotify_keeps
    | with_reducible apply State.putB_keeps
    | split

theorem execMbxSend_keeps : ∀ (p : Fin 16) (i : Fin 64) (s : State),
  Inv s → OutOk (execMbxSend p i s) := by
  intros
  unfold execMbxSend
  repeat' first
    | with_reducible assumption
    | extract_lets +onlyGivenNames x
    | with_reducible apply mbxSend_keeps
    | split
    | with_reducible apply outOk_next

theorem execMbxAck_keeps : ∀ (p : Fin 16) (i : Fin 64) (s : State),
  Inv s → OutOk (execMbxAck p i s) := by
  intros
  unfold execMbxAck
  repeat' first
    | with_reducible assumption
    | extract_lets +onlyGivenNames x
    | with_reducible apply mbxAck_keeps
    | split
    | with_reducible apply outOk_next

theorem mgrSend_keeps : ∀ (s : State) (p i : ℕ),
  Inv s → Inv (mgrSend s p i) := by
  intros
  unfold mgrSend
  repeat' first
    | with_reducible assumption
    | (extract_lets +onlyGivenNames x; refine (fun (_ : Inv x) => ?_) ?_; clear_value x; rotate_left; subst x)
    | (extract_lets +onlyGivenNames x; clear_value x)
    | extract_lets +onlyGivenNames x
    | with_reducible apply State.putB_keeps
    | with_reducible apply copyBuffer_keeps
    | with_reducible apply instNotify_keeps
    | with_reducible apply instCount_keeps
    | split

theorem mgrAck_keeps : ∀ (s : State) (p i : ℕ),
  Inv s → Inv (mgrAck s p i) := by
  intros
  unfold mgrAck
  repeat' first
    | with_reducible assumption
    | (extract_lets +onlyGivenNames x; refine (fun (_ : Inv x) => ?_) ?_; clear_value x; rotate_left; subst x)
    | (extract_lets +onlyGivenNames x; clear_value x)
    | extract_lets +onlyGivenNames x
    | with_reducible apply State.putB_keeps
    | with_reducible apply instNotify_keeps
    | with_reducible apply State.putF_keeps
    | split

theorem execMgrSend_keeps : ∀ (r : Requester) (p : Fin 16) (i : Fin 64) (s : State),
  Inv s → OutOk (execMgrSend r p i s) := by
  intros
  unfold execMgrSend
  repeat' first
    | with_reducible assumption
    | extract_lets +onlyGivenNames x
    | with_reducible apply mgrSend_keeps
    | split
    | with_reducible apply outOk_next

theorem execMgrAck_keeps : ∀ (r : Requester) (p : Fin 16) (i : Fin 64) (s : State),
  Inv s → OutOk (execMgrAck r p i s) := by
  intros
  unfold execMgrAck
  repeat' first
    | with_reducible assumption
    | extract_lets +onlyGivenNames x
    | with_reducible apply mgrAck_keeps
    | split
    | with_reducible apply outOk_next

theorem setInstState_keeps : ∀ (s : State) (p i st : ℕ),
  Inv s → Inv (setInstState s p i st) := by
  intros
  unfold setInstState
  repeat' first
    | with_reducible assumption
    | with_reducible apply State.putF_keeps

theorem instRefuse_keeps : ∀ (s : State) (p i reason : ℕ),
  Inv s → Inv (instRefuse s p i reason) := by
  intros
  unfold instRefuse
  repeat' first
    | with_reducible assumption
    | extract_lets +onlyGivenNames x
    | with_reducible apply State.putF_keeps
    | with_reducible apply State.putB_keeps

theorem stopInst_keeps : ∀ (s : State) (p i : ℕ),
  Inv s → Inv (stopInst s p i) := by
  intros
  unfold stopInst
  repeat' first
    | with_reducible assumption
    | intro _
    | (extract_lets +onlyGivenNames x; refine (fun (_ : Inv x) => ?_) ?_; clear_value x; rotate_left; subst x)
    | extract_lets +onlyGivenNames x
    | with_reducible apply State.putB_keeps
    | with_reducible apply chanStopAs_keeps
    | with_reducible apply updCh_keeps
    | with_reducible apply inv_foldl

theorem drainInst_keeps : ∀ (s : State) (p i mode : ℕ),
  Inv s → Inv (drainInst s p i mode) := by
  intros
  unfold drainInst
  repeat' first
    | with_reducible assumption
    | intro _
    | (extract_lets +onlyGivenNames x; refine (fun (_ : Inv x) => ?_) ?_; clear_value x; rotate_left; subst x)
    | with_reducible apply cutAll_keeps
    | with_reducible apply updCh_keeps
    | split
    | with_reducible apply inv_foldl

theorem returnWaits_keeps : ∀ (s : State) (g : ℕ),
  Inv s → Inv (returnWaits s g) := by
  intros
  unfold returnWaits
  repeat' first
    | with_reducible assumption
    | with_reducible apply updCh_keeps

theorem clearChan_keeps : ∀ (s : State) (g : ℕ),
  Inv s → Inv (clearChan s g) := by
  intros
  unfold clearChan
  repeat' first
    | with_reducible assumption
    | (extract_lets +onlyGivenNames x; refine (fun (_ : Inv x) => ?_) ?_; clear_value x; rotate_left; subst x)
    | (extract_lets +onlyGivenNames x; clear_value x)
    | extract_lets +onlyGivenNames x
    | with_reducible apply homeWrite_keeps
    | with_reducible apply resetIndices_keeps
    | with_reducible apply updCh_keeps
    | split

theorem resetInstance_keeps : ∀ (s : State) (p i : ℕ),
  Inv s → Inv (resetInstance s p i) := by
  intros
  unfold resetInstance
  repeat' first
    | with_reducible assumption
    | intro _
    | (extract_lets +onlyGivenNames x; refine (fun (_ : Inv x) => ?_) ?_; clear_value x; rotate_left; subst x)
    | (extract_lets +onlyGivenNames x; clear_value x)
    | extract_lets +onlyGivenNames x
    | with_reducible apply endReqs_keeps
    | with_reducible apply clearChan_keeps
    | with_reducible apply updP_keeps
    | with_reducible apply clearMailbox_keeps
    | with_reducible apply State.resetR_keeps
    | with_reducible apply setInstState_keeps
    | with_reducible apply inv_foldl

theorem resumeInst_keeps : ∀ (s : State) (p i : ℕ),
  Inv s → Inv (resumeInst s p i) := by
  intros
  unfold resumeInst
  repeat' first
    | with_reducible assumption
    | intro _
    | (extract_lets +onlyGivenNames x; refine (fun (_ : Inv x) => ?_) ?_; clear_value x; rotate_left; subst x)
    | (extract_lets +onlyGivenNames x; clear_value x)
    | extract_lets +onlyGivenNames x
    | with_reducible apply setInstState_keeps
    | with_reducible apply State.putB_keeps
    | with_reducible apply msixRelease_keeps
    | with_reducible apply checkDoorbell_keeps
    | with_reducible apply updCh_keeps
    | with_reducible apply chanSet_keeps
    | split
    | with_reducible apply inv_foldl

theorem mgrWrite_keeps : ∀ (s : State) (p a : ℕ) (bs : List Byte),
  Inv s → MOk Inv (mgrWrite s p a bs) := by
  intros
  unfold mgrWrite
  repeat' first
    | with_reducible assumption
    | extract_lets +onlyGivenNames x
    | with_reducible apply homeWrite_keeps
    | with_reducible apply hostWrite_keeps
    | split
    | with_reducible apply mOk_some
    | with_reducible exact mOk_none

theorem saveInst_keeps : ∀ (s : State) (p i : ℕ),
  Inv s → Inv (saveInst s p i) := by
  intros
  unfold saveInst
  repeat' first
    | with_reducible assumption
    | extract_lets +onlyGivenNames x
    | with_reducible apply mgrWrite_keeps
    | with_reducible apply instRefuse_keeps
    | split
    | refine inv_someS (by with_reducible assumption) ?_

theorem loadRecord_keeps : ∀ (s : State) (g : ℕ) (r : List Byte),
  Inv s → Inv (loadRecord s g r) := by
  intros
  unfold loadRecord
  repeat' first
    | with_reducible assumption
    | (extract_lets +onlyGivenNames x; refine (fun (_ : Inv x) => ?_) ?_; clear_value x; rotate_left; subst x)
    | (extract_lets +onlyGivenNames x; clear_value x)
    | extract_lets +onlyGivenNames x
    | with_reducible apply homeWrite_keeps
    | with_reducible apply refreshChan_keeps
    | with_reducible apply updCh_keeps
    | split

theorem loadImage_keeps : ∀ (s : State) (p i : ℕ) (b : List Byte),
  Inv s → Inv (loadImage s p i b) := by
  intros
  unfold loadImage
  repeat' first
    | with_reducible assumption
    | intro _
    | (extract_lets +onlyGivenNames x; refine (fun (_ : Inv x) => ?_) ?_; clear_value x; rotate_left; subst x)
    | (extract_lets +onlyGivenNames x; clear_value x)
    | extract_lets +onlyGivenNames x
    | with_reducible apply loadRecord_keeps
    | with_reducible apply State.putR_keeps
    | with_reducible apply State.putB_keeps
    | with_reducible apply State.putF_keeps
    | with_reducible apply updP_keeps
    | with_reducible apply inv_foldl

theorem restoreWith_keeps : ∀ (s : State) (p i : ℕ) (b : List Byte),
  Inv s → Inv (restoreWith s p i b) := by
  intros
  unfold restoreWith
  repeat' first
    | with_reducible assumption
    | (extract_lets +onlyGivenNames x; refine (fun (_ : Inv x) => ?_) ?_; clear_value x; rotate_left; subst x)
    | (extract_lets +onlyGivenNames x; clear_value x)
    | with_reducible apply setInstState_keeps
    | with_reducible apply instRefuse_keeps
    | with_reducible apply loadImage_keeps
    | split

theorem askImage_keeps : ∀ (s : State) (p i part off n : ℕ),
  Inv s → Inv (askImage s p i part off n) := by
  intros
  unfold askImage
  repeat' first
    | with_reducible assumption
    | intro _
    | (extract_lets +onlyGivenNames x; refine (fun (_ : Inv x) => ?_) ?_; clear_value x; rotate_left; subst x)
    | (extract_lets +onlyGivenNames x; clear_value x)
    | extract_lets +onlyGivenNames x
    | with_reducible apply instRefuse_keeps
    | with_reducible apply setInstState_keeps
    | with_reducible apply hostRequest_keeps
    | with_reducible apply updI_keeps
    | split
    | with_reducible apply inv_foldl

theorem restoreInst_keeps : ∀ (s : State) (p i : ℕ),
  Inv s → Inv (restoreInst s p i) := by
  intros
  unfold restoreInst
  repeat' first
    | with_reducible assumption
    | (extract_lets +onlyGivenNames x; clear_value x)
    | with_reducible apply instRefuse_keeps
    | with_reducible apply restoreWith_keeps
    | with_reducible apply askImage_keeps
    | split

theorem restoreGo_keeps : ∀ (s : State) (p i : ℕ),
  Inv s → Inv (restoreGo s p i) := by
  intros
  unfold restoreGo
  repeat' first
    | with_reducible assumption
    | (extract_lets +onlyGivenNames x; clear_value x)
    | extract_lets +onlyGivenNames x
    | with_reducible apply instRefuse_keeps
    | with_reducible apply setInstState_keeps
    | with_reducible apply askImage_keeps
    | with_reducible apply restoreWith_keeps
    | split

theorem instDo_keeps : ∀ (s : State) (p i cmd mode : ℕ),
  Inv s → Inv (instDo s p i cmd mode) := by
  intros
  unfold instDo
  repeat' first
    | with_reducible assumption
    | intro _
    | (extract_lets +onlyGivenNames x; refine (fun (_ : Inv x) => ?_) ?_; clear_value x; rotate_left; subst x)
    | extract_lets +onlyGivenNames x
    | with_reducible apply stopInst_keeps
    | with_reducible apply drainInst_keeps
    | with_reducible apply setInstState_keeps
    | with_reducible apply returnWaits_keeps
    | with_reducible apply resetInstance_keeps
    | with_reducible apply saveInst_keeps
    | with_reducible apply restoreInst_keeps
    | with_reducible apply resumeInst_keeps
    | split
    | with_reducible apply inv_foldl

theorem instCommand_keeps : ∀ (s : State) (p i cmd mode : ℕ),
  Inv s → Inv (instCommand s p i cmd mode) := by
  intros
  unfold instCommand
  repeat' first
    | with_reducible assumption
    | (extract_lets +onlyGivenNames x; refine (fun (_ : Inv x) => ?_) ?_; clear_value x; rotate_left; subst x)
    | with_reducible apply State.putF_keeps
    | with_reducible apply instRefuse_keeps
    | with_reducible apply instDo_keeps
    | split

theorem instOrder_keeps : ∀ (s : State) (r : Requester) (p i cmd : ℕ) (drain : BitVec 2),
  Inv s → Inv (instOrder s r p i cmd drain) := by
  intros
  unfold instOrder
  repeat' first
    | with_reducible assumption
    | with_reducible apply instCommand_keeps
    | split

theorem execQuiesce_keeps : ∀ (r : Requester) (p : Fin 16) (i : Fin 64) (drain : BitVec 2) (s : State),
  Inv s → OutOk (execQuiesce r p i drain s) := by
  intros
  unfold execQuiesce
  repeat' first
    | with_reducible assumption
    | extract_lets +onlyGivenNames x
    | with_reducible apply instOrder_keeps
    | with_reducible apply outOk_next

theorem execFreeze_keeps : ∀ (r : Requester) (p : Fin 16) (i : Fin 64) (drain : BitVec 2) (s : State),
  Inv s → OutOk (execFreeze r p i drain s) := by
  intros
  unfold execFreeze
  repeat' first
    | with_reducible assumption
    | extract_lets +onlyGivenNames x
    | with_reducible apply instOrder_keeps
    | with_reducible apply outOk_next

theorem execInstanceReset_keeps : ∀ (r : Requester) (p : Fin 16) (i : Fin 64) (drain : BitVec 2) (s : State),
  Inv s → OutOk (execInstanceReset r p i drain s) := by
  intros
  unfold execInstanceReset
  repeat' first
    | with_reducible assumption
    | extract_lets +onlyGivenNames x
    | with_reducible apply instOrder_keeps
    | with_reducible apply outOk_next

theorem execSave_keeps : ∀ (r : Requester) (p : Fin 16) (i : Fin 64) (drain : BitVec 2) (s : State),
  Inv s → OutOk (execSave r p i drain s) := by
  intros
  unfold execSave
  repeat' first
    | with_reducible assumption
    | extract_lets +onlyGivenNames x
    | with_reducible apply instOrder_keeps
    | with_reducible apply outOk_next

theorem execRestore_keeps : ∀ (r : Requester) (p : Fin 16) (i : Fin 64) (drain : BitVec 2) (s : State),
  Inv s → OutOk (execRestore r p i drain s) := by
  intros
  unfold execRestore
  repeat' first
    | with_reducible assumption
    | extract_lets +onlyGivenNames x
    | with_reducible apply restoreGo_keeps
    | with_reducible apply instOrder_keeps
    | split
    | with_reducible apply outOk_next

theorem execResume_keeps : ∀ (r : Requester) (p : Fin 16) (i : Fin 64) (drain : BitVec 2) (s : State),
  Inv s → OutOk (execResume r p i drain s) := by
  intros
  unfold execResume
  repeat' first
    | with_reducible assumption
    | extract_lets +onlyGivenNames x
    | with_reducible apply instOrder_keeps
    | with_reducible apply outOk_next

theorem execQuiesceDone_keeps : ∀ (p : Fin 16) (i : Fin 64) (s : State),
  Inv s → OutOk (execQuiesceDone p i s) := by
  intros
  unfold execQuiesceDone
  repeat' first
    | with_reducible assumption
    | (extract_lets +onlyGivenNames x; refine (fun (_ : Inv x) => ?_) ?_; clear_value x; rotate_left; subst x)
    | extract_lets +onlyGivenNames x
    | with_reducible apply State.putB_keeps
    | with_reducible apply setInstState_keeps
    | with_reducible apply updP_keeps
    | split
    | with_reducible apply outOk_next

theorem execFreezeDone_keeps : ∀ (p : Fin 16) (i : Fin 64) (s : State),
  Inv s → OutOk (execFreezeDone p i s) := by
  intros
  unfold execFreezeDone
  repeat' first
    | with_reducible assumption
    | (extract_lets +onlyGivenNames x; refine (fun (_ : Inv x) => ?_) ?_; clear_value x; rotate_left; subst x)
    | extract_lets +onlyGivenNames x
    | with_reducible apply State.putB_keeps
    | with_reducible apply setInstState_keeps
    | with_reducible apply updI_keeps
    | split
    | with_reducible apply outOk_next

theorem execWriteLogEntry_keeps : ∀ (p : Fin 16) (i : Fin 64) (page : BitVec 52) (s : State),
  Inv s → OutOk (execWriteLogEntry p i page s) := by
  intros
  unfold execWriteLogEntry
  repeat' first
    | with_reducible assumption
    | extract_lets +onlyGivenNames x
    | with_reducible apply logPage_keeps
    | with_reducible apply outOk_next

theorem writeWlogPtr_keeps : ∀ (s : State) (p i : ℕ) (v : Word),
  Inv s → Inv (writeWlogPtr s p i v) := by
  intros
  unfold writeWlogPtr
  repeat' first
    | with_reducible assumption
    | (extract_lets +onlyGivenNames x; refine (fun (_ : Inv x) => ?_) ?_; clear_value x; rotate_left; subst x)
    | (extract_lets +onlyGivenNames x; clear_value x)
    | with_reducible apply State.putF_keeps
    | with_reducible apply State.putB_keeps
    | with_reducible apply updI_keeps
    | split

theorem execWriteLogHeadWrite_keeps : ∀ (r : Requester) (p : Fin 16) (i : Fin 64) (v : Word) (s : State),
  Inv s → OutOk (execWriteLogHeadWrite r p i v s) := by
  intros
  unfold execWriteLogHeadWrite
  repeat' first
    | with_reducible assumption
    | extract_lets +onlyGivenNames x
    | with_reducible apply writeWlogPtr_keeps
    | split
    | with_reducible apply outOk_next

theorem writeWlogBase_keeps : ∀ (s : State) (p i : ℕ) (v : Word),
  Inv s → Inv (writeWlogBase s p i v) := by
  intros
  unfold writeWlogBase
  repeat' first
    | with_reducible assumption
    | (extract_lets +onlyGivenNames x; refine (fun (_ : Inv x) => ?_) ?_; clear_value x; rotate_left; subst x)
    | (extract_lets +onlyGivenNames x; clear_value x)
    | extract_lets +onlyGivenNames x
    | with_reducible apply State.putR_keeps
    | with_reducible apply updI_keeps
    | with_reducible apply State.putF_keeps
    | split

end Sys2Proof.Machine
end

