-- ==== Sys2Proof/Laws/KeepsMeasure.lean ====
section
/-! SUPPORT. The invariant under the definitions of Machine/Measure.lean. -/

namespace Sys2Proof.Machine

set_option linter.all false

theorem measExtend_keeps : ∀ (s : State) (k event : ℕ) (digest : List Byte),
  Inv s → Inv (measExtend s k event digest) := by
  intros
  unfold measExtend
  repeat' first
    | with_reducible assumption
    | intro _
    | (extract_lets +onlyGivenNames x; refine (fun (_ : Inv x) => ?_) ?_; clear_value x; rotate_left; subst x)
    | (extract_lets +onlyGivenNames x; clear_value x)
    | extract_lets +onlyGivenNames x
    | with_reducible apply State.putR_keeps
    | with_reducible apply inv_foldl
    | fail_if_no_progress with_reducible apply inv_mk

end Sys2Proof.Machine
end

