-- ==== Sys2Proof/Laws/KeepsMove.lean ====
section
/-! SUPPORT. The invariant under the definitions of Machine/Move.lean. -/

namespace Sys2Proof.Machine

set_option linter.all false

theorem withUnit_keeps : ∀ (s : State) (g : ℕ) (d : Desc),
  Inv s →
    MOk (fun (a : State × ℕ) => Inv a.1)
      (withUnit s g d) := by
  intros
  unfold withUnit
  repeat' first
    | with_reducible assumption
    | (extract_lets +onlyGivenNames x; clear_value x)
    | extract_lets +onlyGivenNames x
    | with_reducible apply updDesc_keeps
    | split
    | with_reducible apply mOk_some
    | with_reducible exact mOk_none

theorem elementDone_keeps : ∀ (s : State) (g slot n acc : ℕ),
  Inv s → Inv (elementDone s g slot n acc) := by
  intros
  unfold elementDone
  repeat' first
    | with_reducible assumption
    | (extract_lets +onlyGivenNames x; refine (fun (_ : Inv x) => ?_) ?_; clear_value x; rotate_left; subst x)
    | with_reducible apply updDesc_keeps
    | with_reducible apply endDesc_keeps
    | split

theorem readList_keeps : ∀ (s : State) (g : ℕ) (d : Desc) (u lo hi : ℕ),
  Inv s → EOk Inv (readList s g d u lo hi) := by
  intros
  unfold readList
  repeat' first
    | with_reducible assumption
    | intro _
    | (extract_lets +onlyGivenNames x; clear_value x)
    | extract_lets +onlyGivenNames x
    | with_reducible apply gather_keeps
    | with_reducible apply updDesc_keeps
    | split
    | with_reducible apply eOk_ok
    | with_reducible apply eOk_error
    | with_reducible apply eOk_bindQ
    | refine inv_pairQ (by with_reducible assumption) ?_

theorem moveElement_keeps : ∀ (s : State) (g : ℕ) (d : Desc) (u : ℕ),
  Inv s → EOk Inv (moveElement s g d u) := by
  intros
  unfold moveElement
  repeat' first
    | with_reducible assumption
    | intro _
    | (extract_lets +onlyGivenNames x; clear_value x)
    | extract_lets +onlyGivenNames x
    | with_reducible apply readList_keeps
    | with_reducible apply gather_keeps
    | with_reducible apply elementDone_keeps
    | with_reducible apply endDesc_keeps
    | with_reducible apply scatter_keeps
    | split
    | with_reducible apply eOk_ok
    | with_reducible apply eOk_error
    | with_reducible apply eOk_bindS
    | with_reducible apply eOk_bindQ
    | refine inv_pairQ (by with_reducible assumption) ?_

theorem moveStep_keeps : ∀ (s : State) (g slot : ℕ),
  Inv s → Inv (moveStep s g slot) := by
  intros
  unfold moveStep
  repeat' first
    | with_reducible assumption
    | extract_lets +onlyGivenNames x
    | with_reducible apply endDesc_keeps
    | with_reducible apply withUnit_keeps
    | with_reducible apply orEnd_keeps
    | with_reducible apply moveElement_keeps
    | split
    | refine inv_someQ (by with_reducible assumption) ?_

theorem moveGo_keeps : ∀ (a : ℕ) (a_1 : State) (a_2 a_3 : ℕ),
  Inv a_1 → Inv (moveGo a a_1 a_2 a_3) := by
  intro a0 a1 a2 a3
  fun_induction moveGo a0 a1 a2 a3 <;> intros
  all_goals repeat' first
    | with_reducible assumption
    | with_reducible apply moveStep_keeps
    | with_reducible apply_assumption -exfalso -symm

theorem moveRun_keeps : ∀ (s : State) (g slot op : ℕ),
  Inv s → Inv (moveRun s g slot op) := by
  intros
  unfold moveRun
  repeat' first
    | with_reducible assumption
    | with_reducible apply moveGo_keeps
    | split

theorem execDCopy_keeps : ∀ (g : Fin 8192) (slot : Fin 32768) (s : State),
  Inv s → OutOk (execDCopy g slot s) := by
  intros
  unfold execDCopy
  repeat' first
    | with_reducible assumption
    | extract_lets +onlyGivenNames x
    | with_reducible apply moveRun_keeps
    | with_reducible apply outOk_next

theorem execDGather_keeps : ∀ (g : Fin 8192) (slot : Fin 32768) (s : State),
  Inv s → OutOk (execDGather g slot s) := by
  intros
  unfold execDGather
  repeat' first
    | with_reducible assumption
    | extract_lets +onlyGivenNames x
    | with_reducible apply moveRun_keeps
    | with_reducible apply outOk_next

theorem execDScatter_keeps : ∀ (g : Fin 8192) (slot : Fin 32768) (s : State),
  Inv s → OutOk (execDScatter g slot s) := by
  intros
  unfold execDScatter
  repeat' first
    | with_reducible assumption
    | extract_lets +onlyGivenNames x
    | with_reducible apply moveRun_keeps
    | with_reducible apply outOk_next

theorem execDFill_keeps : ∀ (g : Fin 8192) (slot : Fin 32768) (s : State),
  Inv s → OutOk (execDFill g slot s) := by
  intros
  unfold execDFill
  repeat' first
    | with_reducible assumption
    | extract_lets +onlyGivenNames x
    | with_reducible apply moveRun_keeps
    | with_reducible apply outOk_next

theorem execDCrc_keeps : ∀ (g : Fin 8192) (slot : Fin 32768) (s : State),
  Inv s → OutOk (execDCrc g slot s) := by
  intros
  unfold execDCrc
  repeat' first
    | with_reducible assumption
    | extract_lets +onlyGivenNames x
    | with_reducible apply moveRun_keeps
    | with_reducible apply outOk_next

theorem execDCompare_keeps : ∀ (g : Fin 8192) (slot : Fin 32768) (s : State),
  Inv s → OutOk (execDCompare g slot s) := by
  intros
  unfold execDCompare
  repeat' first
    | with_reducible assumption
    | extract_lets +onlyGivenNames x
    | with_reducible apply moveRun_keeps
    | with_reducible apply outOk_next

theorem execDCopyCrc_keeps : ∀ (g : Fin 8192) (slot : Fin 32768) (s : State),
  Inv s → OutOk (execDCopyCrc g slot s) := by
  intros
  unfold execDCopyCrc
  repeat' first
    | with_reducible assumption
    | extract_lets +onlyGivenNames x
    | with_reducible apply moveRun_keeps
    | with_reducible apply outOk_next

theorem execMoveElement_keeps : ∀ (g : Fin 8192) (slot : Fin 32768) (s : State),
  Inv s → OutOk (execMoveElement g slot s) := by
  intros
  unfold execMoveElement
  repeat' first
    | with_reducible assumption
    | extract_lets +onlyGivenNames x
    | with_reducible apply moveStep_keeps
    | with_reducible apply outOk_next

theorem engineOut_keeps : ∀ (s : State) (u cause : ℕ),
  Inv s → Inv (engineOut s u cause) := by
  intros
  unfold engineOut
  repeat' first
    | with_reducible assumption
    | (extract_lets +onlyGivenNames x; refine (fun (_ : Inv x) => ?_) ?_; clear_value x; rotate_left; subst x)
    | (extract_lets +onlyGivenNames x; clear_value x)
    | extract_lets +onlyGivenNames x
    | with_reducible apply setUnit_keeps
    | with_reducible apply addWithdrawn_keeps
    | with_reducible apply State.putB_keeps
    | with_reducible apply dropReads_keeps
    | with_reducible apply updDesc_keeps
    | split
    | fail_if_no_progress with_reducible apply inv_mk


theorem execEngineMismatch_keeps : ∀ (f : Fin 4) (key : Bool) (k : Fin 2) (s : State),
  Inv s → OutOk (execEngineMismatch f key k s) := by
  intros
  unfold execEngineMismatch
  repeat' first
    | with_reducible assumption
    | (extract_lets +onlyGivenNames x; refine (fun (_ : Inv x) => ?_) ?_; clear_value x; rotate_left; subst x)
    | (extract_lets +onlyGivenNames x; clear_value x)
    | extract_lets +onlyGivenNames x
    | with_reducible apply logRecord_keeps
    | with_reducible apply updDesc_keeps
    | with_reducible apply engineOut_keeps
    | split
    | with_reducible apply outOk_next

end Sys2Proof.Machine
end

