-- ==== Sys2Proof/Laws/KeepsKeys.lean ====
section
/-! SUPPORT. The invariant under the definitions of Machine/Keys.lean. -/

namespace Sys2Proof.Machine

set_option linter.all false

theorem keepOpen_keeps : ∀ (s : State) (g : ℕ) (d : Desc),
  Inv s → Inv (keepOpen s g d) := by
  intros
  unfold keepOpen
  repeat' first
    | with_reducible assumption
    | (extract_lets +onlyGivenNames x; clear_value x)
    | fail_if_no_progress with_reducible apply inv_mk

theorem keyCompute_keeps : ∀ (s : State) (g : ℕ) (d : Desc) (src openKey : List Byte),
  Inv s → Inv (keyCompute s g d src openKey) := by
  intros
  unfold keyCompute
  repeat' first
    | with_reducible assumption
    | intro _
    | (extract_lets +onlyGivenNames x; refine (fun (_ : Inv x) => ?_) ?_; clear_value x; rotate_left; subst x)
    | (extract_lets +onlyGivenNames x; refine (fun (_ : ∀ s a b c, Inv s → Inv (x s a b c)) => ?_) ?_; clear_value x; rotate_left; subst x)
    | (extract_lets +onlyGivenNames x; clear_value x)
    | with_reducible apply updDesc_keeps
    | split
    | fail_if_no_progress with_reducible apply inv_mk
    | with_reducible apply_assumption -exfalso -symm

theorem keyAttempt_keeps : ∀ (s : State) (g : ℕ) (d : Desc) (u : ℕ),
  Inv s → Inv (keyAttempt s g d u) := by
  intros
  unfold keyAttempt
  repeat' first
    | with_reducible assumption
    | (extract_lets +onlyGivenNames x; refine (fun (_ : Inv x) => ?_) ?_; clear_value x; rotate_left; subst x)
    | (extract_lets +onlyGivenNames x; clear_value x)
    | extract_lets +onlyGivenNames x
    | with_reducible apply endDesc_keeps
    | with_reducible apply updDesc_keeps
    | with_reducible apply keepOpen_keeps
    | with_reducible apply gather_keeps
    | with_reducible apply keyCompute_keeps
    | split
    | refine inv_okQ (by with_reducible assumption) ?_
    | refine inv_errQ (by with_reducible assumption) ?_

theorem keyRun_keeps : ∀ (s : State) (g slot op : ℕ),
  Inv s → Inv (keyRun s g slot op) := by
  intros
  unfold keyRun
  repeat' first
    | with_reducible assumption
    | extract_lets +onlyGivenNames x
    | with_reducible apply endDesc_keeps
    | with_reducible apply withUnit_keeps
    | with_reducible apply keyAttempt_keeps
    | split
    | refine inv_someQ (by with_reducible assumption) ?_

theorem execAesEcb_keeps : ∀ (g : Fin 8192) (slot : Fin 32768) (s : State),
  Inv s → OutOk (execAesEcb g slot s) := by
  intros
  unfold execAesEcb
  repeat' first
    | with_reducible assumption
    | extract_lets +onlyGivenNames x
    | with_reducible apply keyRun_keeps
    | with_reducible apply outOk_next

theorem execAesCbc_keeps : ∀ (g : Fin 8192) (slot : Fin 32768) (s : State),
  Inv s → OutOk (execAesCbc g slot s) := by
  intros
  unfold execAesCbc
  repeat' first
    | with_reducible assumption
    | extract_lets +onlyGivenNames x
    | with_reducible apply keyRun_keeps
    | with_reducible apply outOk_next

theorem execAesCtr_keeps : ∀ (g : Fin 8192) (slot : Fin 32768) (s : State),
  Inv s → OutOk (execAesCtr g slot s) := by
  intros
  unfold execAesCtr
  repeat' first
    | with_reducible assumption
    | extract_lets +onlyGivenNames x
    | with_reducible apply keyRun_keeps
    | with_reducible apply outOk_next

theorem execAesGcm_keeps : ∀ (g : Fin 8192) (slot : Fin 32768) (s : State),
  Inv s → OutOk (execAesGcm g slot s) := by
  intros
  unfold execAesGcm
  repeat' first
    | with_reducible assumption
    | extract_lets +onlyGivenNames x
    | with_reducible apply keyRun_keeps
    | with_reducible apply outOk_next

theorem execAesCmac_keeps : ∀ (g : Fin 8192) (slot : Fin 32768) (s : State),
  Inv s → OutOk (execAesCmac g slot s) := by
  intros
  unfold execAesCmac
  repeat' first
    | with_reducible assumption
    | extract_lets +onlyGivenNames x
    | with_reducible apply keyRun_keeps
    | with_reducible apply outOk_next

theorem execTdea_keeps : ∀ (g : Fin 8192) (slot : Fin 32768) (s : State),
  Inv s → OutOk (execTdea g slot s) := by
  intros
  unfold execTdea
  repeat' first
    | with_reducible assumption
    | extract_lets +onlyGivenNames x
    | with_reducible apply keyRun_keeps
    | with_reducible apply outOk_next

theorem execSha2_keeps : ∀ (g : Fin 8192) (slot : Fin 32768) (s : State),
  Inv s → OutOk (execSha2 g slot s) := by
  intros
  unfold execSha2
  repeat' first
    | with_reducible assumption
    | extract_lets +onlyGivenNames x
    | with_reducible apply keyRun_keeps
    | with_reducible apply outOk_next

theorem execSha3_keeps : ∀ (g : Fin 8192) (slot : Fin 32768) (s : State),
  Inv s → OutOk (execSha3 g slot s) := by
  intros
  unfold execSha3
  repeat' first
    | with_reducible assumption
    | extract_lets +onlyGivenNames x
    | with_reducible apply keyRun_keeps
    | with_reducible apply outOk_next

theorem execHmac_keeps : ∀ (g : Fin 8192) (slot : Fin 32768) (s : State),
  Inv s → OutOk (execHmac g slot s) := by
  intros
  unfold execHmac
  repeat' first
    | with_reducible assumption
    | extract_lets +onlyGivenNames x
    | with_reducible apply keyRun_keeps
    | with_reducible apply outOk_next

theorem execRandom_keeps : ∀ (g : Fin 8192) (slot : Fin 32768) (s : State),
  Inv s → OutOk (execRandom g slot s) := by
  intros
  unfold execRandom
  repeat' first
    | with_reducible assumption
    | extract_lets +onlyGivenNames x
    | with_reducible apply keyRun_keeps
    | with_reducible apply outOk_next

theorem execRsaPrivate_keeps : ∀ (g : Fin 8192) (slot : Fin 32768) (s : State),
  Inv s → OutOk (execRsaPrivate g slot s) := by
  intros
  unfold execRsaPrivate
  repeat' first
    | with_reducible assumption
    | extract_lets +onlyGivenNames x
    | with_reducible apply keyRun_keeps
    | with_reducible apply outOk_next

theorem execRsaPublic_keeps : ∀ (g : Fin 8192) (slot : Fin 32768) (s : State),
  Inv s → OutOk (execRsaPublic g slot s) := by
  intros
  unfold execRsaPublic
  repeat' first
    | with_reducible assumption
    | extract_lets +onlyGivenNames x
    | with_reducible apply keyRun_keeps
    | with_reducible apply outOk_next

theorem execEcdsaSign_keeps : ∀ (g : Fin 8192) (slot : Fin 32768) (s : State),
  Inv s → OutOk (execEcdsaSign g slot s) := by
  intros
  unfold execEcdsaSign
  repeat' first
    | with_reducible assumption
    | extract_lets +onlyGivenNames x
    | with_reducible apply keyRun_keeps
    | with_reducible apply outOk_next

theorem execEcdsaVerify_keeps : ∀ (g : Fin 8192) (slot : Fin 32768) (s : State),
  Inv s → OutOk (execEcdsaVerify g slot s) := by
  intros
  unfold execEcdsaVerify
  repeat' first
    | with_reducible assumption
    | extract_lets +onlyGivenNames x
    | with_reducible apply keyRun_keeps
    | with_reducible apply outOk_next

theorem execEcdh_keeps : ∀ (g : Fin 8192) (slot : Fin 32768) (s : State),
  Inv s → OutOk (execEcdh g slot s) := by
  intros
  unfold execEcdh
  repeat' first
    | with_reducible assumption
    | extract_lets +onlyGivenNames x
    | with_reducible apply keyRun_keeps
    | with_reducible apply outOk_next

theorem execEd25519Sign_keeps : ∀ (g : Fin 8192) (slot : Fin 32768) (s : State),
  Inv s → OutOk (execEd25519Sign g slot s) := by
  intros
  unfold execEd25519Sign
  repeat' first
    | with_reducible assumption
    | extract_lets +onlyGivenNames x
    | with_reducible apply keyRun_keeps
    | with_reducible apply outOk_next

theorem execEd25519Verify_keeps : ∀ (g : Fin 8192) (slot : Fin 32768) (s : State),
  Inv s → OutOk (execEd25519Verify g slot s) := by
  intros
  unfold execEd25519Verify
  repeat' first
    | with_reducible assumption
    | extract_lets +onlyGivenNames x
    | with_reducible apply keyRun_keeps
    | with_reducible apply outOk_next

theorem execX25519_keeps : ∀ (g : Fin 8192) (slot : Fin 32768) (s : State),
  Inv s → OutOk (execX25519 g slot s) := by
  intros
  unfold execX25519
  repeat' first
    | with_reducible assumption
    | extract_lets +onlyGivenNames x
    | with_reducible apply keyRun_keeps
    | with_reducible apply outOk_next

theorem execMlKemEncapsulate_keeps : ∀ (g : Fin 8192) (slot : Fin 32768) (s : State),
  Inv s → OutOk (execMlKemEncapsulate g slot s) := by
  intros
  unfold execMlKemEncapsulate
  repeat' first
    | with_reducible assumption
    | extract_lets +onlyGivenNames x
    | with_reducible apply keyRun_keeps
    | with_reducible apply outOk_next

theorem execMlKemDecapsulate_keeps : ∀ (g : Fin 8192) (slot : Fin 32768) (s : State),
  Inv s → OutOk (execMlKemDecapsulate g slot s) := by
  intros
  unfold execMlKemDecapsulate
  repeat' first
    | with_reducible assumption
    | extract_lets +onlyGivenNames x
    | with_reducible apply keyRun_keeps
    | with_reducible apply outOk_next

theorem execMlDsaSign_keeps : ∀ (g : Fin 8192) (slot : Fin 32768) (s : State),
  Inv s → OutOk (execMlDsaSign g slot s) := by
  intros
  unfold execMlDsaSign
  repeat' first
    | with_reducible assumption
    | extract_lets +onlyGivenNames x
    | with_reducible apply keyRun_keeps
    | with_reducible apply outOk_next

theorem execMlDsaVerify_keeps : ∀ (g : Fin 8192) (slot : Fin 32768) (s : State),
  Inv s → OutOk (execMlDsaVerify g slot s) := by
  intros
  unfold execMlDsaVerify
  repeat' first
    | with_reducible assumption
    | extract_lets +onlyGivenNames x
    | with_reducible apply keyRun_keeps
    | with_reducible apply outOk_next

theorem execPinTranslate_keeps : ∀ (g : Fin 8192) (slot : Fin 32768) (s : State),
  Inv s → OutOk (execPinTranslate g slot s) := by
  intros
  unfold execPinTranslate
  repeat' first
    | with_reducible assumption
    | extract_lets +onlyGivenNames x
    | with_reducible apply keyRun_keeps
    | with_reducible apply outOk_next

theorem keyEnd_keeps : ∀ (s : State) (g : ℕ) (d : Desc) (u : ℕ),
  Inv s → Inv (keyEnd s g d u) := by
  intros
  unfold keyEnd
  repeat' first
    | with_reducible assumption
    | (extract_lets +onlyGivenNames x; clear_value x)
    | extract_lets +onlyGivenNames x
    | with_reducible apply endDesc_keeps
    | with_reducible apply scatter_keeps
    | split
    | refine inv_okS (by with_reducible assumption) ?_
    | refine inv_errS (by with_reducible assumption) ?_

theorem execKeyOperationEnd_keeps : ∀ (g : Fin 8192) (slot : Fin 32768) (s : State),
  Inv s → OutOk (execKeyOperationEnd g slot s) := by
  intros
  unfold execKeyOperationEnd
  repeat' first
    | with_reducible assumption
    | extract_lets +onlyGivenNames x
    | with_reducible apply withUnit_keeps
    | with_reducible apply keyEnd_keeps
    | split
    | with_reducible apply outOk_next
    | refine inv_someQ (by with_reducible assumption) ?_

theorem execEngineRestart_keeps : ∀ (f : Fin 4) (key : Bool) (k : Fin 2) (selfTest : Option Bool) (s : State),
  Inv s → OutOk (execEngineRestart f key k selfTest s) := by
  intros
  unfold execEngineRestart
  repeat' first
    | with_reducible assumption
    | (extract_lets +onlyGivenNames x; refine (fun (_ : Inv x) => ?_) ?_; clear_value x; rotate_left; subst x)
    | (extract_lets +onlyGivenNames x; clear_value x)
    | extract_lets +onlyGivenNames x
    | with_reducible apply addWithdrawn_keeps
    | with_reducible apply setUnit_keeps
    | split
    | with_reducible apply outOk_next
    | fail_if_no_progress with_reducible apply inv_mk

theorem updU_keeps : ∀ (s : State) (u : ℕ) (f : Ucode → Ucode),
  Inv s → Inv (updU s u f) := by
  intros
  unfold updU
  repeat' first
    | with_reducible assumption
    | fail_if_no_progress with_reducible apply inv_mk

theorem ucodeRefuse_keeps : ∀ (s : State) (u reason : ℕ),
  Inv s → Inv (ucodeRefuse s u reason) := by
  intros
  unfold ucodeRefuse
  repeat' first
    | with_reducible assumption
    | extract_lets +onlyGivenNames x
    | with_reducible apply State.putF_keeps
    | with_reducible apply State.putB_keeps

theorem ucodeStage_keeps : ∀ (s : State) (u w : ℕ) (v : Word),
  Inv s → Inv (ucodeStage s u w v) := by
  intros
  unfold ucodeStage
  repeat' first
    | with_reducible assumption
    | with_reducible apply ucodeRefuse_keeps
    | with_reducible apply updU_keeps
    | split

theorem ucodeDiscard_keeps : ∀ (s : State) (u : ℕ),
  Inv s → Inv (ucodeDiscard s u) := by
  intros
  unfold ucodeDiscard
  repeat' first
    | with_reducible assumption
    | extract_lets +onlyGivenNames x
    | with_reducible apply State.putB_keeps
    | with_reducible apply updU_keeps

theorem writeUcodeCtrl_keeps : ∀ (s : State) (u : ℕ) (v : Word),
  Inv s → Inv (writeUcodeCtrl s u v) := by
  intros
  unfold writeUcodeCtrl
  repeat' first
    | with_reducible assumption
    | (extract_lets +onlyGivenNames x; refine (fun (_ : Inv x) => ?_) ?_; clear_value x; rotate_left; subst x)
    | (extract_lets +onlyGivenNames x; clear_value x)
    | with_reducible apply State.putR_keeps
    | with_reducible apply ucodeDiscard_keeps
    | with_reducible apply ucodeRefuse_keeps
    | with_reducible apply updU_keeps
    | split

theorem execUcodeStageWrite_keeps : ∀ (r : Requester) (f : Fin 4) (k : Fin 2) (w : Fin 8192) (v : Word) (s : State),
  Inv s → OutOk (execUcodeStageWrite r f k w v s) := by
  intros
  unfold execUcodeStageWrite
  repeat' first
    | with_reducible assumption
    | extract_lets +onlyGivenNames x
    | with_reducible apply ucodeStage_keeps
    | split
    | with_reducible apply outOk_next

theorem execUcodeCommit_keeps : ∀ (r : Requester) (f : Fin 4) (k : Fin 2) (v : Word) (s : State),
  Inv s → OutOk (execUcodeCommit r f k v s) := by
  intros
  unfold execUcodeCommit
  repeat' first
    | with_reducible assumption
    | extract_lets +onlyGivenNames x
    | with_reducible apply writeUcodeCtrl_keeps
    | split
    | with_reducible apply outOk_next

theorem execUcodeDiscard_keeps : ∀ (r : Requester) (f : Fin 4) (k : Fin 2) (v : Word) (s : State),
  Inv s → OutOk (execUcodeDiscard r f k v s) := by
  intros
  unfold execUcodeDiscard
  repeat' first
    | with_reducible assumption
    | extract_lets +onlyGivenNames x
    | with_reducible apply writeUcodeCtrl_keeps
    | split
    | with_reducible apply outOk_next

theorem execUcodeCheckDone_keeps : ∀ (f : Fin 4) (k : Fin 2) (s : State),
  Inv s → OutOk (execUcodeCheckDone f k s) := by
  intros
  unfold execUcodeCheckDone
  repeat' first
    | with_reducible assumption
    | (extract_lets +onlyGivenNames x; refine (fun (_ : Inv x) => ?_) ?_; clear_value x; rotate_left; subst x)
    | (extract_lets +onlyGivenNames x; clear_value x)
    | extract_lets +onlyGivenNames x
    | with_reducible apply updU_keeps
    | with_reducible apply State.putB_keeps
    | with_reducible apply ucodeRefuse_keeps
    | split
    | with_reducible apply outOk_next

theorem takeProgram_keeps : ∀ (s : State) (u version : ℕ) (ws : List Word),
  Inv s → Inv (takeProgram s u version ws) := by
  intros
  unfold takeProgram
  repeat' first
    | with_reducible assumption
    | (extract_lets +onlyGivenNames x; refine (fun (_ : Inv x) => ?_) ?_; clear_value x; rotate_left; subst x)
    | (extract_lets +onlyGivenNames x; clear_value x)
    | with_reducible apply updU_keeps
    | with_reducible apply State.putR_keeps

theorem execUcodeApply_keeps : ∀ (f : Fin 4) (k : Fin 2) (s : State),
  Inv s → OutOk (execUcodeApply f k s) := by
  intros
  unfold execUcodeApply
  repeat' first
    | with_reducible assumption
    | intro _
    | (extract_lets +onlyGivenNames x; clear_value x)
    | extract_lets +onlyGivenNames x
    | with_reducible apply measExtend_keeps
    | with_reducible apply takeProgram_keeps
    | with_reducible apply ucodeDiscard_keeps
    | split
    | with_reducible apply outOk_next
    | with_reducible apply inv_foldl

end Sys2Proof.Machine
end

