-- ==== Sys2Proof/Laws/KeepsPower.lean ====
section
/-! SUPPORT. The invariant under the definitions of Machine/Power.lean. -/

namespace Sys2Proof.Machine

set_option linter.all false

theorem updD_keeps : ∀ (s : State) (d : ℕ) (f : Dom → Dom),
  Inv s → Inv (updD s d f) := by
  intros
  unfold updD
  repeat' first
    | with_reducible assumption
    | fail_if_no_progress with_reducible apply inv_mk

theorem askLoad_keeps : ∀ (s : State) (d w : ℕ),
  Inv s → Inv (askLoad s d w) := by
  intros
  unfold askLoad
  repeat' first
    | with_reducible assumption
    | with_reducible apply updD_keeps

theorem syncTimers_keeps : ∀ (s : State), Inv s → Inv (syncTimers s) := by
  intros
  unfold syncTimers
  repeat' first
    | with_reducible assumption
    | (extract_lets +onlyGivenNames x; clear_value x)
    | split
    | fail_if_no_progress with_reducible apply inv_mk

theorem powerRecord_keeps : ∀ (s : State) (d event reading : ℕ),
  Inv s → Inv (powerRecord s d event reading) := by
  intros
  unfold powerRecord
  repeat' first
    | with_reducible assumption
    | with_reducible apply logRecord_keeps

theorem execDroopPause_keeps : ∀ (d : DomId) (mv : ℕ) (s : State),
  Inv s → OutOk (execDroopPause d mv s) := by
  intros
  unfold execDroopPause
  repeat' first
    | with_reducible assumption
    | (extract_lets +onlyGivenNames x; refine (fun (_ : Inv x) => ?_) ?_; clear_value x; rotate_left; subst x)
    | extract_lets +onlyGivenNames x
    | with_reducible apply updD_keeps
    | with_reducible apply State.putR_keeps
    | with_reducible apply syncTimers_keeps
    | with_reducible apply powerRecord_keeps
    | split
    | with_reducible apply outOk_next

theorem tbSet_keeps : ∀ (s : State) (f : Fld) (b : Bool),
  Inv s → Inv (tbSet s f b) := by
  intros
  unfold tbSet
  repeat' first
    | with_reducible assumption
    | with_reducible apply State.putB_keeps

theorem tbSwitch_keeps : ∀ (s : State) (r : RefClk),
  Inv s → Inv (tbSwitch s r) := by
  intros
  unfold tbSwitch
  repeat' first
    | with_reducible assumption
    | (extract_lets +onlyGivenNames x; refine (fun (_ : Inv x) => ?_) ?_; clear_value x; rotate_left; subst x)
    | with_reducible apply tbSet_keeps
    | with_reducible apply State.putR_keeps

theorem tbRecord_keeps : ∀ (s : State), Inv s → Inv (tbRecord s) := by
  intros
  unfold tbRecord
  repeat' first
    | with_reducible assumption
    | with_reducible apply logRecord_keeps

theorem execReferenceLoss_keeps : ∀ (r : RefClk) (s : State),
  Inv s → OutOk (execReferenceLoss r s) := by
  intros
  unfold execReferenceLoss
  repeat' first
    | with_reducible assumption
    | (extract_lets +onlyGivenNames x; refine (fun (_ : Inv x) => ?_) ?_; clear_value x; rotate_left; subst x)
    | (extract_lets +onlyGivenNames x; clear_value x)
    | extract_lets +onlyGivenNames x
    | with_reducible apply tbSet_keeps
    | with_reducible apply tbSwitch_keeps
    | with_reducible apply configEval_keeps
    | with_reducible apply tbRecord_keeps
    | split
    | with_reducible apply outOk_next

theorem execReferenceReturn_keeps : ∀ (r : RefClk) (s : State),
  Inv s → OutOk (execReferenceReturn r s) := by
  intros
  unfold execReferenceReturn
  repeat' first
    | with_reducible assumption
    | (extract_lets +onlyGivenNames x; refine (fun (_ : Inv x) => ?_) ?_; clear_value x; rotate_left; subst x)
    | (extract_lets +onlyGivenNames x; clear_value x)
    | extract_lets +onlyGivenNames x
    | with_reducible apply tbSet_keeps
    | with_reducible apply configEval_keeps
    | split
    | with_reducible apply outOk_next
    | fail_if_no_progress with_reducible apply inv_mk

theorem execRevertSwitch_keeps : ∀ (s : State),
  Inv s → OutOk (execRevertSwitch s) := by
  intros
  unfold execRevertSwitch
  repeat' first
    | with_reducible assumption
    | (extract_lets +onlyGivenNames x; clear_value x)
    | extract_lets +onlyGivenNames x
    | with_reducible apply tbSwitch_keeps
    | split
    | with_reducible apply outOk_next

theorem execSlewComplete_keeps : ∀ (s : State),
  Inv s → OutOk (execSlewComplete s) := by
  intros
  unfold execSlewComplete
  repeat' first
    | with_reducible assumption
    | extract_lets +onlyGivenNames x
    | with_reducible apply tbSet_keeps
    | with_reducible apply outOk_next

theorem govIrq_keeps : ∀ (s : State) (h : ℕ) (b : Bool),
  Inv s → Inv (govIrq s h b) := by
  intros
  unfold govIrq
  repeat' first
    | with_reducible assumption
    | (extract_lets +onlyGivenNames x; clear_value x)
    | split
    | fail_if_no_progress with_reducible apply inv_mk

theorem capRecord_keeps : ∀ (s : State) (h tmax : ℕ),
  Inv s → Inv (capRecord s h tmax) := by
  intros
  unfold capRecord
  repeat' first
    | with_reducible assumption
    | with_reducible apply powerRecord_keeps

theorem execGovernorEvaluation_keeps : ∀ (h : Fin 24) (x : SheafMeter) (t0 t1 t2 t3 : BitVec 10) (s : State),
  Inv s →
    OutOk (execGovernorEvaluation h x t0 t1 t2 t3 s) := by
  intros
  unfold execGovernorEvaluation
  repeat' first
    | with_reducible assumption
    | (extract_lets +onlyGivenNames x; refine (fun (_ : Inv x) => ?_) ?_; clear_value x; rotate_left; subst x)
    | (extract_lets +onlyGivenNames x; clear_value x)
    | extract_lets +onlyGivenNames x
    | with_reducible apply State.putR_keeps
    | with_reducible apply State.putF_keeps
    | with_reducible apply askLoad_keeps
    | with_reducible apply updD_keeps
    | with_reducible apply govIrq_keeps
    | with_reducible apply powerRecord_keeps
    | with_reducible apply capRecord_keeps
    | split
    | with_reducible apply outOk_next

theorem execVoltageStep_keeps : ∀ (d : DomId) (s : State),
  Inv s → OutOk (execVoltageStep d s) := by
  intros
  unfold execVoltageStep
  repeat' first
    | with_reducible assumption
    | (extract_lets +onlyGivenNames x; refine (fun (_ : Inv x) => ?_) ?_; clear_value x; rotate_left; subst x)
    | (extract_lets +onlyGivenNames x; clear_value x)
    | extract_lets +onlyGivenNames x
    | with_reducible apply updD_keeps
    | with_reducible apply State.putF_keeps
    | split
    | with_reducible apply outOk_next

theorem execPowerWindow_keeps : ∀ (h : Fin 24) (mean : BitVec 12) (s : State),
  Inv s → OutOk (execPowerWindow h mean s) := by
  intros
  unfold execPowerWindow
  repeat' first
    | with_reducible assumption
    | extract_lets +onlyGivenNames x
    | with_reducible apply State.putF_keeps
    | with_reducible apply updD_keeps
    | with_reducible apply askLoad_keeps
    | split
    | with_reducible apply outOk_next

theorem execSensorSelfCheckFail_keeps : ∀ (h : Fin 24) (k : Fin 4) (s : State),
  Inv s → OutOk (execSensorSelfCheckFail h k s) := by
  intros
  unfold execSensorSelfCheckFail
  repeat' first
    | with_reducible assumption
    | (extract_lets +onlyGivenNames x; refine (fun (_ : Inv x) => ?_) ?_; clear_value x; rotate_left; subst x)
    | (extract_lets +onlyGivenNames x; clear_value x)
    | extract_lets +onlyGivenNames x
    | with_reducible apply State.putR_keeps
    | with_reducible apply configEval_keeps
    | with_reducible apply powerRecord_keeps
    | split
    | with_reducible apply outOk_next

theorem softStop_keeps : ∀ (s : State) (d : ℕ),
  Inv s → Inv (softStop s d) := by
  intros
  unfold softStop
  repeat' first
    | with_reducible assumption
    | (extract_lets +onlyGivenNames x; refine (fun (_ : Inv x) => ?_) ?_; clear_value x; rotate_left; subst x)
    | extract_lets +onlyGivenNames x
    | with_reducible apply askLoad_keeps
    | with_reducible apply syncTimers_keeps
    | with_reducible apply updD_keeps
    | with_reducible apply State.putF_keeps
    | split

theorem execDomainTrip_keeps : ∀ (d : DomId) (reading : BitVec 10) (s : State),
  Inv s → OutOk (execDomainTrip d reading s) := by
  intros
  unfold execDomainTrip
  repeat' first
    | with_reducible assumption
    | extract_lets +onlyGivenNames x
    | with_reducible apply powerRecord_keeps
    | with_reducible apply softStop_keeps
    | split
    | with_reducible apply outOk_next

theorem packageCritical_keeps : ∀ (s : State) (d reading : ℕ),
  Inv s → Inv (packageCritical s d reading) := by
  intros
  unfold packageCritical
  repeat' first
    | with_reducible assumption
    | intro _
    | (extract_lets +onlyGivenNames x; refine (fun (_ : Inv x) => ?_) ?_; clear_value x; rotate_left; subst x)
    | (extract_lets +onlyGivenNames x; clear_value x)
    | extract_lets +onlyGivenNames x
    | with_reducible apply softStop_keeps
    | with_reducible apply powerRecord_keeps
    | with_reducible apply inv_foldl
    | fail_if_no_progress with_reducible apply inv_mk

theorem execPackageCritical_keeps : ∀ (d : DomId) (reading : BitVec 10) (s : State),
  Inv s → OutOk (execPackageCritical d reading s) := by
  intros
  unfold execPackageCritical
  repeat' first
    | with_reducible assumption
    | extract_lets +onlyGivenNames x
    | with_reducible apply packageCritical_keeps
    | split
    | with_reducible apply outOk_next

theorem execThermTrip_keeps : ∀ (s : State), Inv s → OutOk (execThermTrip s) := by
  intros
  unfold execThermTrip
  repeat' first
    | with_reducible assumption
    | (extract_lets +onlyGivenNames x; clear_value x)
    | extract_lets +onlyGivenNames x
    | split
    | with_reducible apply outOk_next
    | fail_if_no_progress with_reducible apply inv_mk

theorem setDbgEn_keeps : ∀ (s : State) (bits : ℕ),
  Inv s → Inv (setDbgEn s bits) := by
  intros
  unfold setDbgEn
  repeat' first
    | with_reducible assumption
    | (extract_lets +onlyGivenNames x; refine (fun (_ : Inv x) => ?_) ?_; clear_value x; rotate_left; subst x)
    | (extract_lets +onlyGivenNames x; clear_value x)
    | with_reducible apply State.putF_keeps
    | fail_if_no_progress with_reducible apply inv_mk

theorem tamperRecord_keeps : ∀ (s : State), Inv s → Inv (tamperRecord s) := by
  intros
  unfold tamperRecord
  repeat' first
    | with_reducible assumption
    | (extract_lets +onlyGivenNames x; clear_value x)
    | extract_lets +onlyGivenNames x
    | with_reducible apply logRecord_keeps
    | fail_if_no_progress with_reducible apply inv_mk

theorem cutSlotKeys_keeps : ∀ (s : State), Inv s → Inv (cutSlotKeys s) := by
  intros
  unfold cutSlotKeys
  repeat' first
    | with_reducible assumption
    | fail_if_no_progress with_reducible apply inv_mk

theorem tamper_keeps : ∀ (s : State) (cause : ℕ),
  Inv s → Inv (tamper s cause) := by
  intros
  unfold tamper
  repeat' first
    | with_reducible assumption
    | (extract_lets +onlyGivenNames x; refine (fun (_ : Inv x) => ?_) ?_; clear_value x; rotate_left; subst x)
    | (extract_lets +onlyGivenNames x; clear_value x)
    | extract_lets +onlyGivenNames x
    | with_reducible apply State.putR_keeps
    | with_reducible apply cutSlotKeys_keeps
    | with_reducible apply State.putF_keeps
    | with_reducible apply tamperRecord_keeps
    | with_reducible apply setDbgEn_keeps
    | split
    | fail_if_no_progress with_reducible apply inv_mk

theorem islandOut_keeps : ∀ (s : State), Inv s → Inv (islandOut s) := by
  intros
  unfold islandOut
  repeat' first
    | with_reducible assumption
    | intro _
    | extract_lets +onlyGivenNames x
    | with_reducible apply State.putR_keeps
    | with_reducible apply tamper_keeps
    | with_reducible apply inv_foldl

theorem execHoldoverCapacitorLow_keeps : ∀ (mv : ℕ) (s : State),
  Inv s → OutOk (execHoldoverCapacitorLow mv s) := by
  intros
  unfold execHoldoverCapacitorLow
  repeat' first
    | with_reducible assumption
    | (extract_lets +onlyGivenNames x; clear_value x)
    | extract_lets +onlyGivenNames x
    | with_reducible apply islandOut_keeps
    | split
    | with_reducible apply outOk_next
    | fail_if_no_progress with_reducible apply inv_mk

theorem setBattery_keeps : ∀ (s : State) (back : Option ℕ),
  Inv s → Inv (setBattery s back) := by
  intros
  unfold setBattery
  repeat' first
    | with_reducible assumption
    | (extract_lets +onlyGivenNames x; refine (fun (_ : Inv x) => ?_) ?_; clear_value x; rotate_left; subst x)
    | extract_lets +onlyGivenNames x
    | with_reducible apply islandOut_keeps
    | split
    | fail_if_no_progress with_reducible apply inv_mk

theorem execVbatLoss_keeps : ∀ (s : State),
  Inv s → OutOk (execVbatLoss s) := by
  intros
  unfold execVbatLoss
  repeat' first
    | with_reducible assumption
    | with_reducible apply setBattery_keeps
    | with_reducible apply outOk_next

end Sys2Proof.Machine
end

