-- ==== Sys2Proof/Laws/KeepsMonitor.lean ====
section
/-! SUPPORT. The invariant under the definitions of Machine/Monitor.lean. -/

namespace Sys2Proof.Machine

set_option linter.all false

theorem latchBlock_keeps : ∀ (s : State) (n : ℕ) (ctr last : ℕ → ℕ) (win : ℕ),
  Inv s → Inv (latchBlock s n ctr last win) := by
  intros
  unfold latchBlock
  repeat' first
    | with_reducible assumption
    | intro _
    | (extract_lets +onlyGivenNames x; refine (fun (_ : Inv x) => ?_) ?_; clear_value x; rotate_left; subst x)
    | extract_lets +onlyGivenNames x
    | with_reducible apply State.putR_keeps
    | with_reducible apply inv_foldl

theorem latchFixed_keeps : ∀ (s : State) (u : ℕ) (io : Bool),
  Inv s → Inv (latchFixed s u io) := by
  intros
  unfold latchFixed
  repeat' first
    | with_reducible assumption
    | intro _
    | (extract_lets +onlyGivenNames x; refine (fun (_ : Inv x) => ?_) ?_; clear_value x; rotate_left; subst x)
    | (extract_lets +onlyGivenNames x; clear_value x)
    | extract_lets +onlyGivenNames x
    | with_reducible apply State.putR_keeps
    | with_reducible apply inv_foldl
    | fail_if_no_progress with_reducible apply inv_mk

theorem stampWindow_keeps : ∀ (s : State) (u : ℕ),
  Inv s → Inv (stampWindow s u) := by
  intros
  unfold stampWindow
  repeat' first
    | with_reducible assumption
    | fail_if_no_progress with_reducible apply inv_mk

theorem execCounterWindow_keeps : ∀ (u : Uid) (s : State),
  Inv s → OutOk (execCounterWindow u s) := by
  intros
  unfold execCounterWindow
  repeat' first
    | with_reducible assumption
    | intro _
    | (extract_lets +onlyGivenNames x; refine (fun (_ : ∀ a f, (∀ s, Inv s → Inv (f s)) → Inv (x a f)) => ?_) ?_; clear_value x; rotate_left; subst x)
    | (extract_lets +onlyGivenNames x; clear_value x)
    | extract_lets +onlyGivenNames x
    | with_reducible apply stampWindow_keeps
    | with_reducible apply latchBlock_keeps
    | with_reducible apply latchFixed_keeps
    | split
    | with_reducible apply outOk_next
    | dsimp -zeta only
    | with_reducible apply_assumption -exfalso -symm

theorem ringAdd_keeps : ∀ (s : State) (ring ptr : ℕ) (bs : List Byte),
  Inv s → Inv (ringAdd s ring ptr bs) := by
  intros
  unfold ringAdd
  repeat' first
    | with_reducible assumption
    | (extract_lets +onlyGivenNames x; refine (fun (_ : Inv x) => ?_) ?_; clear_value x; rotate_left; subst x)
    | (extract_lets +onlyGivenNames x; clear_value x)
    | with_reducible apply State.putR_keeps
    | with_reducible apply homeWrite_keeps
    | with_reducible apply engNoTarget_keeps
    | split

theorem ringRefuse_keeps : ∀ (s : State) (ring : ℕ),
  Inv s → Inv (ringRefuse s ring) := by
  intros
  unfold ringRefuse
  repeat' first
    | with_reducible assumption
    | extract_lets +onlyGivenNames x
    | with_reducible apply setupError_keeps
    | with_reducible apply State.putB_keeps

theorem execSampleRecord_keeps : ∀ (t : Tid) (x : Sampled) (s : State),
  Inv s → OutOk (execSampleRecord t x s) := by
  intros
  unfold execSampleRecord
  repeat' first
    | with_reducible assumption
    | (extract_lets +onlyGivenNames x; refine (fun (_ : Inv x) => ?_) ?_; clear_value x; rotate_left; subst x)
    | (extract_lets +onlyGivenNames x; clear_value x)
    | extract_lets +onlyGivenNames x
    | with_reducible apply ringRefuse_keeps
    | with_reducible apply ringAdd_keeps
    | with_reducible apply sendIrq_keeps
    | split
    | with_reducible apply outOk_next

theorem execTraceRecord_keeps : ∀ (t : Tid) (x : Traced) (room : Bool) (s : State),
  Inv s → OutOk (execTraceRecord t x room s) := by
  intros
  unfold execTraceRecord
  repeat' first
    | with_reducible assumption
    | (extract_lets +onlyGivenNames x; clear_value x)
    | extract_lets +onlyGivenNames x
    | with_reducible apply ringRefuse_keeps
    | with_reducible apply ringAdd_keeps
    | with_reducible apply State.putR_keeps
    | split
    | with_reducible apply outOk_next

theorem tapLoad_keeps : ∀ (s : State) (i : TapInstr),
  Inv s → Inv (tapLoad s i) := by
  intros
  unfold tapLoad
  repeat' first
    | with_reducible assumption
    | (extract_lets +onlyGivenNames x; clear_value x)
    | fail_if_no_progress with_reducible apply inv_mk

theorem segWrite_keeps : ∀ (s : State) (n : ℕ) (b : Bool),
  Inv s → Inv (segWrite s n b) := by
  intros
  unfold segWrite
  repeat' first
    | with_reducible assumption
    | (extract_lets +onlyGivenNames x; clear_value x)
    | split
    | fail_if_no_progress with_reducible apply inv_mk

theorem execTapBypass_keeps : ∀ (s : State),
  Inv s → OutOk (execTapBypass s) := by
  intros
  unfold execTapBypass
  repeat' first
    | with_reducible assumption
    | intro _
    | extract_lets +onlyGivenNames x
    | with_reducible apply segWrite_keeps
    | with_reducible apply tapLoad_keeps
    | with_reducible apply outOk_next
    | with_reducible apply inv_foldl

theorem execTapIdcode_keeps : ∀ (s : State), Inv s → OutOk (execTapIdcode s) := by
  intros
  unfold execTapIdcode
  repeat' first
    | with_reducible assumption
    | (extract_lets +onlyGivenNames x; refine (fun (_ : Inv x) => ?_) ?_; clear_value x; rotate_left; subst x)
    | (extract_lets +onlyGivenNames x; clear_value x)
    | extract_lets +onlyGivenNames x
    | with_reducible apply tapLoad_keeps
    | with_reducible apply outOk_next
    | fail_if_no_progress with_reducible apply inv_mk

theorem execTapSample_keeps : ∀ (pins : List Bool) (s : State),
  Inv s → OutOk (execTapSample pins s) := by
  intros
  unfold execTapSample
  repeat' first
    | with_reducible assumption
    | (extract_lets +onlyGivenNames x; refine (fun (_ : Inv x) => ?_) ?_; clear_value x; rotate_left; subst x)
    | (extract_lets +onlyGivenNames x; clear_value x)
    | extract_lets +onlyGivenNames x
    | with_reducible apply tapLoad_keeps
    | with_reducible apply outOk_next
    | fail_if_no_progress with_reducible apply inv_mk

theorem execTapPreload_keeps : ∀ (x : TapScan) (s : State),
  Inv s → OutOk (execTapPreload x s) := by
  intros
  unfold execTapPreload
  repeat' first
    | with_reducible assumption
    | intro _
    | with_reducible apply segWrite_keeps
    | with_reducible apply inv_foldl
    | (extract_lets +onlyGivenNames x; refine (fun (_ : Inv x) => ?_) ?_; clear_value x; rotate_left; subst x)
    | (extract_lets +onlyGivenNames x; clear_value x)
    | extract_lets +onlyGivenNames x
    | with_reducible apply tapLoad_keeps
    | with_reducible apply outOk_next
    | fail_if_no_progress with_reducible apply inv_mk

theorem tapDrive_keeps : ∀ (s : State) (i : TapInstr),
  Inv s → Inv (tapDrive s i) := by
  intros
  unfold tapDrive
  repeat' first
    | with_reducible assumption
    | (extract_lets +onlyGivenNames x; clear_value x)
    | extract_lets +onlyGivenNames x
    | with_reducible apply tapLoad_keeps
    | split
    | fail_if_no_progress with_reducible apply inv_mk

theorem execTapExtest_keeps : ∀ (s : State), Inv s → OutOk (execTapExtest s) := by
  intros
  unfold execTapExtest
  repeat' first
    | with_reducible assumption
    | extract_lets +onlyGivenNames x
    | with_reducible apply tapDrive_keeps
    | with_reducible apply outOk_next

theorem execTapClamp_keeps : ∀ (s : State), Inv s → OutOk (execTapClamp s) := by
  intros
  unfold execTapClamp
  repeat' first
    | with_reducible assumption
    | extract_lets +onlyGivenNames x
    | with_reducible apply tapDrive_keeps
    | with_reducible apply outOk_next

theorem execTapHighz_keeps : ∀ (s : State), Inv s → OutOk (execTapHighz s) := by
  intros
  unfold execTapHighz
  repeat' first
    | with_reducible assumption
    | extract_lets +onlyGivenNames x
    | with_reducible apply tapDrive_keeps
    | with_reducible apply outOk_next

theorem execTapExtestPulse_keeps : ∀ (s : State),
  Inv s → OutOk (execTapExtestPulse s) := by
  intros
  unfold execTapExtestPulse
  repeat' first
    | with_reducible assumption
    | extract_lets +onlyGivenNames x
    | with_reducible apply tapDrive_keeps
    | with_reducible apply outOk_next

theorem execTapExtestTrain_keeps : ∀ (s : State),
  Inv s → OutOk (execTapExtestTrain s) := by
  intros
  unfold execTapExtestTrain
  repeat' first
    | with_reducible assumption
    | extract_lets +onlyGivenNames x
    | with_reducible apply tapDrive_keeps
    | with_reducible apply outOk_next

theorem reply_keeps : ∀ (s : State) (x : Transport) (a : Reply),
  Inv s → Inv (reply s x a) := by
  intros
  unfold reply
  repeat' first
    | with_reducible assumption
    | (extract_lets +onlyGivenNames x; clear_value x)
    | fail_if_no_progress with_reducible apply inv_mk

theorem serve_keeps : ∀ (s : State) (x : Transport)
  (f : State → State × Reply),
  Inv s →
    (∀ (a : State), Inv a → Inv (f a).1) →
      Inv (serve s x f) := by
  intros
  unfold serve
  repeat' first
    | with_reducible assumption
    | extract_lets +onlyGivenNames x
    | with_reducible apply reply_keeps
    | split
    | with_reducible apply_assumption -exfalso -symm

theorem execNonceRequest_keeps : ∀ (x : Transport) (s : State),
  Inv s → OutOk (execNonceRequest x s) := by
  intros
  unfold execNonceRequest
  repeat' first
    | with_reducible assumption
    | intro _
    | (extract_lets +onlyGivenNames x; clear_value x)
    | extract_lets +onlyGivenNames x
    | with_reducible apply serve_keeps
    | with_reducible apply outOk_next
    | fail_if_no_progress with_reducible apply inv_mk

theorem setEnables_keeps : ∀ (s : State) (dbg access : ℕ) (forever : Bool) (till : Option ℕ),
  Inv s → Inv (setEnables s dbg access forever till) := by
  intros
  unfold setEnables
  repeat' first
    | with_reducible assumption
    | (extract_lets +onlyGivenNames x; refine (fun (_ : Inv x) => ?_) ?_; clear_value x; rotate_left; subst x)
    | (extract_lets +onlyGivenNames x; clear_value x)
    | extract_lets +onlyGivenNames x
    | with_reducible apply setDbgEn_keeps
    | with_reducible apply State.putB_keeps
    | with_reducible apply State.putF_keeps
    | fail_if_no_progress with_reducible apply inv_mk

theorem applyToken_keeps : ∀ (s : State) (b : List Byte),
  Inv s → Inv (applyToken s b) := by
  intros
  unfold applyToken
  repeat' first
    | with_reducible assumption
    | (extract_lets +onlyGivenNames x; refine (fun (_ : Inv x) => ?_) ?_; clear_value x; rotate_left; subst x)
    | (extract_lets +onlyGivenNames x; clear_value x)
    | with_reducible apply setEnables_keeps
    | with_reducible apply State.putR_keeps
    | with_reducible apply measExtend_keeps
    | split

theorem execDebugToken_keeps : ∀ (x : Transport) (body : List Byte) (sigOk keysOk : Bool) (s : State),
  Inv s → OutOk (execDebugToken x body sigOk keysOk s) := by
  intros
  unfold execDebugToken
  repeat' first
    | with_reducible assumption
    | intro _
    | (extract_lets +onlyGivenNames x; refine (fun (_ : Inv x) => ?_) ?_; clear_value x; rotate_left; subst x)
    | (extract_lets +onlyGivenNames x; clear_value x)
    | extract_lets +onlyGivenNames x
    | with_reducible apply serve_keeps
    | with_reducible apply applyToken_keeps
    | with_reducible apply logRecord_keeps
    | split
    | with_reducible apply outOk_next
    | fail_if_no_progress with_reducible apply inv_mk

theorem execDebugClear_keeps : ∀ (x : Transport) (s : State),
  Inv s → OutOk (execDebugClear x s) := by
  intros
  unfold execDebugClear
  repeat' first
    | with_reducible assumption
    | intro _
    | extract_lets +onlyGivenNames x
    | with_reducible apply serve_keeps
    | with_reducible apply setEnables_keeps
    | with_reducible apply outOk_next

theorem execTokenExpiry_keeps : ∀ (s : State),
  Inv s → OutOk (execTokenExpiry s) := by
  intros
  unfold execTokenExpiry
  repeat' first
    | with_reducible assumption
    | extract_lets +onlyGivenNames x
    | with_reducible apply setEnables_keeps
    | split
    | with_reducible apply outOk_next

theorem execObserveSelect_keeps : ∀ (r : Requester) (k : Fin 32) (v : Word) (s : State),
  Inv s → OutOk (execObserveSelect r k v s) := by
  intros
  unfold execObserveSelect
  repeat' first
    | with_reducible assumption
    | extract_lets +onlyGivenNames x
    | with_reducible apply State.putR_keeps
    | split
    | with_reducible apply outOk_next

end Sys2Proof.Machine
end

