-- ==== Sys2Proof/Laws/KeepsStores.lean ====
section
/-! SUPPORT. The invariant under the definitions of Machine/Stores.lean. -/

namespace Sys2Proof.Machine

set_option linter.all false

theorem setNt_keeps : ∀ (s : State) (t : Tid),
  Inv s → Inv (setNt s t) := by
  intros
  unfold setNt
  repeat' first
    | with_reducible assumption
    | with_reducible apply updT_keeps

theorem poisonedStoreRecord_keeps : ∀ (s : State) (t : Tid) (pa : ℕ),
  Inv s → Inv (poisonedStoreRecord s t pa) := by
  intros
  unfold poisonedStoreRecord
  repeat' first
    | with_reducible assumption
    | (extract_lets +onlyGivenNames x; clear_value x)
    | with_reducible apply logRecord_keeps

theorem performStore_keeps : ∀ (s : State) (t : Tid) (e : StoreEnt) (last : Bool),
  Inv s → Inv (performStore s t e last) := by
  intros
  unfold performStore
  repeat' first
    | with_reducible assumption
    | intro _
    | (extract_lets +onlyGivenNames x; refine (fun (_ : Inv x) => ?_) ?_; clear_value x; rotate_left; subst x)
    | (extract_lets +onlyGivenNames x; clear_value x)
    | extract_lets +onlyGivenNames x
    | with_reducible apply setNt_keeps
    | with_reducible apply logRecord_keeps
    | with_reducible apply writeBytes_keeps
    | with_reducible apply ownLine_keeps
    | with_reducible apply homeWriteBy_keeps
    | with_reducible apply setTag_keeps
    | with_reducible apply poisonedStoreRecord_keeps
    | with_reducible apply cleanLine_keeps
    | with_reducible apply flushLine_keeps
    | split
    | with_reducible apply inv_foldl

theorem setStores_keeps : ∀ (s : State) (t : Tid) (q : List StoreEnt),
  Inv s → Inv (setStores s t q) := by
  intros
  unfold setStores
  repeat' first
    | with_reducible assumption
    | with_reducible apply updT_keeps

theorem drainN_keeps : ∀ (a : ℕ) (a_1 : State) (a_2 : Tid),
  Inv a_1 → Inv (drainN a a_1 a_2) := by
  intro a0 a1 a2
  fun_induction drainN a0 a1 a2 <;> intros
  all_goals repeat' first
    | with_reducible assumption
    | extract_lets +onlyGivenNames x
    | with_reducible apply performStore_keeps
    | with_reducible apply setStores_keeps
    | with_reducible apply_assumption -exfalso -symm

theorem drainAll_keeps : ∀ (s : State) (t : Tid),
  Inv s → Inv (drainAll s t) := by
  intros
  unfold drainAll
  repeat' first
    | with_reducible assumption
    | with_reducible apply drainN_keeps

theorem drainFor_keeps : ∀ (s : State) (t : Tid) (pa n : ℕ),
  Inv s → Inv (drainFor s t pa n) := by
  intros
  unfold drainFor
  repeat' first
    | with_reducible assumption
    | (extract_lets +onlyGivenNames x; clear_value x)
    | with_reducible apply drainN_keeps

theorem drainPage_keeps : ∀ (s : State) (t : Tid) (page : Option ℕ) (pa n : ℕ),
  Inv s → Inv (drainPage s t page pa n) := by
  intros
  unfold drainPage
  repeat' first
    | with_reducible assumption
    | (extract_lets +onlyGivenNames x; clear_value x)
    | extract_lets +onlyGivenNames x
    | with_reducible apply drainFor_keeps
    | with_reducible apply drainN_keeps

theorem drainRel_keeps : ∀ (s : State) (t : Tid),
  Inv s → Inv (drainRel s t) := by
  intros
  unfold drainRel
  repeat' first
    | with_reducible assumption
    | (extract_lets +onlyGivenNames x; clear_value x)
    | with_reducible apply drainN_keeps

theorem drainBefore_keeps : ∀ (s : State) (t : Tid) (pa n : ℕ) (rel : Bool),
  Inv s → Inv (drainBefore s t pa n rel) := by
  intros
  unfold drainBefore
  repeat' first
    | with_reducible assumption
    | with_reducible apply drainAll_keeps
    | with_reducible apply drainFor_keeps
    | split

theorem pushStore_keeps : ∀ (s : State) (t : Tid) (e : StoreEnt),
  Inv s → Inv (pushStore s t e) := by
  intros
  unfold pushStore
  repeat' first
    | with_reducible assumption
    | extract_lets +onlyGivenNames x
    | with_reducible apply updT_keeps
    | with_reducible apply drainN_keeps

end Sys2Proof.Machine
end

