-- ==== Sys2Proof/Laws/KeepsSparing.lean ====
section
/-! SUPPORT. The invariant under the definitions of Machine/Sparing.lean. -/

namespace Sys2Proof.Machine

set_option linter.all false

theorem execSlip_keeps : ∀ (t : Tid) (c : SlipClass) (s : State),
  Inv s → OutOk (execSlip t c s) := by
  intros
  unfold execSlip
  repeat' first
    | with_reducible assumption
    | extract_lets +onlyGivenNames x
    | with_reducible apply mismatch_keeps
    | split
    | with_reducible apply outOk_next

theorem execFall_keeps : ∀ (t : Tid) (c : SlipClass) (s : State),
  Inv s → OutOk (execFall t c s) := by
  intros
  unfold execFall
  repeat' first
    | with_reducible assumption
    | extract_lets +onlyGivenNames x
    | with_reducible apply mismatch_keeps
    | split
    | with_reducible apply outOk_next

theorem execSlipLimitReached_keeps : ∀ (k : Fin 192) (s : State),
  Inv s → OutOk (execSlipLimitReached k s) := by
  intros
  unfold execSlipLimitReached
  repeat' first
    | with_reducible assumption
    | extract_lets +onlyGivenNames x
    | with_reducible apply slipLimit_keeps
    | with_reducible apply outOk_next

theorem writeCheckInject_keeps : ∀ (s : State) (k : ℕ) (v : Word),
  Inv s → Inv (writeCheckInject s k v) := by
  intros
  unfold writeCheckInject
  repeat' first
    | with_reducible assumption
    | with_reducible apply updC_keeps
    | split

theorem execCheckInject_keeps : ∀ (r : Requester) (k : Fin 192) (v : Word) (s : State),
  Inv s → OutOk (execCheckInject r k v s) := by
  intros
  unfold execCheckInject
  repeat' first
    | with_reducible assumption
    | extract_lets +onlyGivenNames x
    | with_reducible apply writeCheckInject_keeps
    | split
    | with_reducible apply outOk_next

theorem execSoloArrayError_keeps : ∀ (t : Tid) (s : State),
  Inv s → OutOk (execSoloArrayError t s) := by
  intros
  unfold execSoloArrayError
  repeat' first
    | with_reducible assumption
    | (extract_lets +onlyGivenNames x; refine (fun (_ : Inv x) => ?_) ?_; clear_value x; rotate_left; subst x)
    | (extract_lets +onlyGivenNames x; clear_value x)
    | extract_lets +onlyGivenNames x
    | with_reducible apply updC_keeps
    | with_reducible apply logRecord_keeps
    | split
    | with_reducible apply outOk_next

theorem execSoloUncorrectable_keeps : ∀ (k : Fin 192) (s : State),
  Inv s → OutOk (execSoloUncorrectable k s) := by
  intros
  unfold execSoloUncorrectable
  repeat' first
    | with_reducible assumption
    | intro _
    | (extract_lets +onlyGivenNames x; refine (fun (_ : Inv x) => ?_) ?_; clear_value x; rotate_left; subst x)
    | (extract_lets +onlyGivenNames x; clear_value x)
    | extract_lets +onlyGivenNames x
    | with_reducible apply setUnit_keeps
    | with_reducible apply updT_keeps
    | with_reducible apply leaveUnbound_keeps
    | with_reducible apply State.putB_keeps
    | split
    | with_reducible apply outOk_next
    | with_reducible apply inv_foldl

theorem updSparing_keeps : ∀ (s : State) (k : ℕ) (f : Sparing → Sparing),
  Inv s → Inv (updSparing s k f) := by
  intros
  unfold updSparing
  repeat' first
    | with_reducible assumption
    | fail_if_no_progress with_reducible apply inv_mk

theorem endSparing_keeps : ∀ (s : State) (k : ℕ),
  Inv s → Inv (endSparing s k) := by
  intros
  unfold endSparing
  repeat' first
    | with_reducible assumption
    | extract_lets +onlyGivenNames x
    | with_reducible apply startSparings_keeps
    | fail_if_no_progress with_reducible apply inv_mk

theorem execSpareChoose_keeps : ∀ (k : Fin 192) (s : State),
  Inv s → OutOk (execSpareChoose k s) := by
  intros
  unfold execSpareChoose
  repeat' first
    | with_reducible assumption
    | (extract_lets +onlyGivenNames x; refine (fun (_ : Inv x) => ?_) ?_; clear_value x; rotate_left; subst x)
    | (extract_lets +onlyGivenNames x; clear_value x)
    | extract_lets +onlyGivenNames x
    | with_reducible apply updSparing_keeps
    | with_reducible apply setUnit_keeps
    | with_reducible apply endSparing_keeps
    | with_reducible apply leaveUnbound_keeps
    | split
    | with_reducible apply outOk_next
    | fail_if_no_progress with_reducible apply inv_mk

theorem spareLost_keeps : ∀ (s : State) (c : ℕ),
  Inv s → Inv (spareLost s c) := by
  intros
  unfold spareLost
  repeat' first
    | with_reducible assumption
    | intro _
    | (extract_lets +onlyGivenNames x; refine (fun (_ : Inv x) => ?_) ?_; clear_value x; rotate_left; subst x)
    | (extract_lets +onlyGivenNames x; clear_value x)
    | extract_lets +onlyGivenNames x
    | with_reducible apply State.putB_keeps
    | with_reducible apply inv_foldl
    | fail_if_no_progress with_reducible apply inv_mk

theorem execSpareRaiseDone_keeps : ∀ (k : Fin 192) (ok : Bool) (s : State),
  Inv s → OutOk (execSpareRaiseDone k ok s) := by
  intros
  unfold execSpareRaiseDone
  repeat' first
    | with_reducible assumption
    | extract_lets +onlyGivenNames x
    | with_reducible apply spareLost_keeps
    | with_reducible apply setUnit_keeps
    | with_reducible apply updSparing_keeps
    | split
    | with_reducible apply outOk_next

theorem captureThread_keeps : ∀ (s : State) (t : Tid),
  Inv s → Inv (captureThread s t) := by
  intros
  unfold captureThread
  repeat' first
    | with_reducible assumption
    | extract_lets +onlyGivenNames x
    | with_reducible apply updT_keeps
    | with_reducible apply drainAll_keeps

theorem execCaptureDone_keeps : ∀ (k : Fin 192) (s : State),
  Inv s → OutOk (execCaptureDone k s) := by
  intros
  unfold execCaptureDone
  repeat' first
    | with_reducible assumption
    | intro _
    | extract_lets +onlyGivenNames x
    | with_reducible apply updSparing_keeps
    | with_reducible apply captureThread_keeps
    | split
    | with_reducible apply outOk_next
    | with_reducible apply inv_foldl

theorem execFlushDone_keeps : ∀ (k : Fin 192) (s : State),
  Inv s → OutOk (execFlushDone k s) := by
  intros
  unfold execFlushDone
  repeat' first
    | with_reducible assumption
    | extract_lets +onlyGivenNames x
    | with_reducible apply updSparing_keeps
    | with_reducible apply emptyCaches_keeps
    | split
    | with_reducible apply outOk_next

theorem copyBlock_keeps : ∀ (s : State) (a b : ℕ),
  Inv s → Inv (copyBlock s a b) := by
  intros
  unfold copyBlock
  repeat' first
    | with_reducible assumption
    | intro _
    | extract_lets +onlyGivenNames x
    | with_reducible apply State.putR_keeps
    | with_reducible apply inv_foldl

theorem gateCore_keeps : ∀ (s : State) (k : ℕ),
  Inv s → Inv (gateCore s k) := by
  intros
  unfold gateCore
  repeat' first
    | with_reducible assumption
    | intro _
    | (extract_lets +onlyGivenNames x; refine (fun (_ : Inv x) => ?_) ?_; clear_value x; rotate_left; subst x)
    | (extract_lets +onlyGivenNames x; clear_value x)
    | extract_lets +onlyGivenNames x
    | with_reducible apply softReset_keeps
    | with_reducible apply dropLine_keeps
    | with_reducible apply putC_keeps
    | with_reducible apply askLoad_keeps
    | with_reducible apply inv_foldl

theorem execStateLoadDone_keeps : ∀ (k : Fin 192) (s : State),
  Inv s → OutOk (execStateLoadDone k s) := by
  intros
  unfold execStateLoadDone
  repeat' first
    | with_reducible assumption
    | intro _
    | (extract_lets +onlyGivenNames x; refine (fun (_ : Inv x) => ?_) ?_; clear_value x; rotate_left; subst x)
    | extract_lets +onlyGivenNames x
    | with_reducible apply copyBlock_keeps
    | with_reducible apply State.putR_keeps
    | with_reducible apply updT_keeps
    | with_reducible apply updSparing_keeps
    | with_reducible apply putC_keeps
    | split
    | with_reducible apply outOk_next
    | with_reducible apply inv_foldl

theorem execRebindDone_keeps : ∀ (k : Fin 192) (s : State),
  Inv s → OutOk (execRebindDone k s) := by
  intros
  unfold execRebindDone
  repeat' first
    | with_reducible assumption
    | (extract_lets +onlyGivenNames x; refine (fun (_ : Inv x) => ?_) ?_; clear_value x; rotate_left; subst x)
    | (extract_lets +onlyGivenNames x; clear_value x)
    | extract_lets +onlyGivenNames x
    | with_reducible apply copyBlock_keeps
    | with_reducible apply updSparing_keeps
    | with_reducible apply State.putR_keeps
    | split
    | with_reducible apply outOk_next

theorem coreStarts_keeps : ∀ (s : State) (c : ℕ),
  Inv s → Inv (coreStarts s c) := by
  intros
  unfold coreStarts
  repeat' first
    | with_reducible assumption
    | (extract_lets +onlyGivenNames x; clear_value x)
    | extract_lets +onlyGivenNames x
    | with_reducible apply State.putR_keeps

theorem execSpareResume_keeps : ∀ (k : Fin 192) (s : State),
  Inv s → OutOk (execSpareResume k s) := by
  intros
  unfold execSpareResume
  repeat' first
    | with_reducible assumption
    | (extract_lets +onlyGivenNames x; refine (fun (_ : Inv x) => ?_) ?_; clear_value x; rotate_left; subst x)
    | (extract_lets +onlyGivenNames x; clear_value x)
    | extract_lets +onlyGivenNames x
    | with_reducible apply setUnit_keeps
    | with_reducible apply coreStarts_keeps
    | with_reducible apply State.putR_keeps
    | with_reducible apply logRecord_keeps
    | with_reducible apply endSparing_keeps
    | with_reducible apply configEval_keeps
    | with_reducible apply notify_keeps
    | split
    | with_reducible apply outOk_next
    | fail_if_no_progress with_reducible apply inv_mk

end Sys2Proof.Machine
end

