-- ==== Sys2Proof/Laws/KeepsUnits.lean ====
section
/-! SUPPORT. The invariant under the definitions of Machine/Units.lean. -/

namespace Sys2Proof.Machine

set_option linter.all false

theorem failWord_keeps : ∀ (s : State) (u cause : ℕ),
  Inv s → Inv (failWord s u cause) := by
  intros
  unfold failWord
  repeat' first
    | with_reducible assumption
    | with_reducible apply setUnit_keeps
    | split

theorem failTile_keeps : ∀ (s : State) (i cause : ℕ) (slice : Bool),
  Inv s → Inv (failTile s i cause slice) := by
  intros
  unfold failTile
  repeat' first
    | with_reducible assumption
    | (extract_lets +onlyGivenNames x; refine (fun (_ : Inv x) => ?_) ?_; clear_value x; rotate_left; subst x)
    | extract_lets +onlyGivenNames x
    | with_reducible apply failWord_keeps
    | with_reducible apply failSlice_keeps
    | with_reducible apply failCore_keeps
    | split

theorem failTileStop_keeps : ∀ (s : State) (i cause : ℕ),
  Inv s → Inv (failTileStop s i cause) := by
  intros
  unfold failTileStop
  repeat' first
    | with_reducible assumption
    | extract_lets +onlyGivenNames x
    | with_reducible apply failTile_keeps
    | with_reducible apply stopLost_keeps
    | with_reducible apply failWord_keeps
    | split

theorem failSheaf_keeps : ∀ (s : State) (h cause : ℕ),
  Inv s → Inv (failSheaf s h cause) := by
  intros
  unfold failSheaf
  repeat' first
    | with_reducible assumption
    | intro _
    | extract_lets +onlyGivenNames x
    | with_reducible apply failTile_keeps
    | with_reducible apply failWord_keeps
    | split
    | with_reducible apply inv_foldl

theorem failIo_keeps : ∀ (s : State) (n cause : ℕ),
  Inv s → Inv (failIo s n cause) := by
  intros
  unfold failIo
  repeat' first
    | with_reducible assumption
    | intro _
    | (extract_lets +onlyGivenNames x; refine (fun (_ : Inv x) => ?_) ?_; clear_value x; rotate_left; subst x)
    | extract_lets +onlyGivenNames x
    | with_reducible apply failWord_keeps
    | with_reducible apply portFreeze_keeps
    | with_reducible apply netDown_keeps
    | with_reducible apply linkLost_keeps
    | split
    | with_reducible apply inv_foldl


theorem moveChan_keeps : ∀ (s : State) (g : ℕ),
  Inv s → Inv (moveChan s g) := by
  intros
  unfold moveChan
  repeat' first
    | with_reducible assumption
    | intro _
    | (extract_lets +onlyGivenNames x; refine (fun (_ : Inv x) => ?_) ?_; clear_value x; rotate_left; subst x)
    | (extract_lets +onlyGivenNames x; clear_value x)
    | extract_lets +onlyGivenNames x
    | with_reducible apply chanStopAs_keeps
    | with_reducible apply updCh_keeps
    | with_reducible apply endDesc_keeps
    | with_reducible apply dropFetch_keeps
    | with_reducible apply endReqs_keeps
    | with_reducible apply completeAll_keeps
    | split
    | with_reducible apply inv_foldl

theorem restartChan_keeps : ∀ (s : State) (g : ℕ),
  Inv s → Inv (restartChan s g) := by
  intros
  unfold restartChan
  repeat' first
    | with_reducible assumption
    | extract_lets +onlyGivenNames x
    | with_reducible apply updCh_keeps
    | with_reducible apply chanCommand_keeps
    | split

theorem failEngStop_keeps : ∀ (s : State) (f cause : ℕ),
  Inv s → Inv (failEngStop s f cause) := by
  intros
  unfold failEngStop
  repeat' first
    | with_reducible assumption
    | intro _
    | (extract_lets +onlyGivenNames x; refine (fun (_ : Inv x) => ?_) ?_; clear_value x; rotate_left; subst x)
    | (extract_lets +onlyGivenNames x; clear_value x)
    | extract_lets +onlyGivenNames x
    | with_reducible apply failWord_keeps
    | with_reducible apply State.putB_keeps
    | with_reducible apply updU_keeps
    | with_reducible apply bridgeLost_keeps
    | with_reducible apply moveChan_keeps
    | with_reducible apply heldGo_keeps
    | with_reducible apply restartChan_keeps
    | split
    | with_reducible apply inv_foldl

theorem unitLost_keeps : ∀ (s : State) (u cause : ℕ),
  Inv s → Inv (unitLost s u cause) := by
  intros
  unfold unitLost
  repeat' first
    | with_reducible assumption
    | with_reducible apply stopLost_keeps
    | split

theorem failUnit_keeps : ∀ (s : State) (u cause : ℕ),
  Inv s → Inv (failUnit s u cause) := by
  intros
  unfold failUnit
  repeat' first
    | with_reducible assumption
    | (extract_lets +onlyGivenNames x; refine (fun (_ : Inv x) => ?_) ?_; clear_value x; rotate_left; subst x)
    | (extract_lets +onlyGivenNames x; clear_value x)
    | extract_lets +onlyGivenNames x
    | with_reducible apply failCore_keeps
    | with_reducible apply failTile_keeps
    | with_reducible apply failSlice_keeps
    | with_reducible apply failTileStop_keeps
    | with_reducible apply failSheaf_keeps
    | with_reducible apply failChannel_keeps
    | with_reducible apply unitLost_keeps
    | with_reducible apply failIo_keeps
    | with_reducible apply failEngStop_keeps
    | with_reducible apply failWord_keeps
    | with_reducible apply reportFailed_keeps
    | with_reducible apply engineOut_keeps
    | split
    | fail_if_no_progress with_reducible apply inv_mk

theorem withdrawStop_keeps : ∀ (s : State) (st : ℕ),
  Inv s → Inv (withdrawStop s st) := by
  intros
  unfold withdrawStop
  repeat' first
    | with_reducible assumption
    | (extract_lets +onlyGivenNames x; refine (fun (_ : Inv x) => ?_) ?_; clear_value x; rotate_left; subst x)
    | (extract_lets +onlyGivenNames x; clear_value x)
    | extract_lets +onlyGivenNames x
    | with_reducible apply failUnit_keeps
    | with_reducible apply logRecord_keeps
    | with_reducible apply withdrawUnit_keeps
    | split

theorem recomputeGo_keeps : ∀ (a : ℕ) (a_1 : State),
  Inv a_1 → Inv (recomputeGo a a_1) := by
  intro a0 a1
  fun_induction recomputeGo a0 a1 <;> intros
  all_goals repeat' first
    | with_reducible assumption
    | with_reducible apply startCommit_keeps
    | with_reducible apply withdrawStop_keeps
    | with_reducible apply_assumption -exfalso -symm

theorem execRouteRecompute_keeps : ∀ (s : State),
  Inv s → OutOk (execRouteRecompute s) := by
  intros
  unfold execRouteRecompute
  repeat' first
    | with_reducible assumption
    | extract_lets +onlyGivenNames x
    | with_reducible apply recomputeGo_keeps
    | split
    | with_reducible apply outOk_next

theorem execUnitFailure_keeps : ∀ (u : Uid) (why : FailCause) (s : State),
  Inv s → OutOk (execUnitFailure u why s) := by
  intros
  unfold execUnitFailure
  repeat' first
    | with_reducible assumption
    | extract_lets +onlyGivenNames x
    | with_reducible apply failUnit_keeps
    | with_reducible apply outOk_next

theorem execEngineStopFailure_keeps : ∀ (f : Fin 4) (s : State),
  Inv s → OutOk (execEngineStopFailure f s) := by
  intros
  unfold execEngineStopFailure
  repeat' first
    | with_reducible assumption
    | extract_lets +onlyGivenNames x
    | with_reducible apply failEngStop_keeps
    | with_reducible apply outOk_next

theorem commandUnit_keeps : ∀ (s : State) (u from_ dst cause : ℕ),
  Inv s → Inv (commandUnit s u from_ dst cause) := by
  intros
  unfold commandUnit
  repeat' first
    | with_reducible assumption
    | with_reducible apply setUnit_keeps
    | split

theorem execUnitStartCommand_keeps : ∀ (u : Uid) (s : State),
  Inv s → OutOk (execUnitStartCommand u s) := by
  intros
  unfold execUnitStartCommand
  repeat' first
    | with_reducible assumption
    | extract_lets +onlyGivenNames x
    | with_reducible apply commandUnit_keeps
    | with_reducible apply outOk_next

theorem execPlaceSpare_keeps : ∀ (u : Uid) (s : State),
  Inv s → OutOk (execPlaceSpare u s) := by
  intros
  unfold execPlaceSpare
  repeat' first
    | with_reducible assumption
    | extract_lets +onlyGivenNames x
    | with_reducible apply configEval_keeps
    | with_reducible apply commandUnit_keeps
    | split
    | with_reducible apply outOk_next

theorem execBivouacPowerDown_keeps : ∀ (u : Uid) (s : State),
  Inv s → OutOk (execBivouacPowerDown u s) := by
  intros
  unfold execBivouacPowerDown
  repeat' first
    | with_reducible assumption
    | extract_lets +onlyGivenNames x
    | with_reducible apply configEval_keeps
    | with_reducible apply commandUnit_keeps
    | with_reducible apply outOk_next

theorem numberCore_keeps : ∀ (s : State) (k : ℕ),
  Inv s → Inv (numberCore s k) := by
  intros
  unfold numberCore
  repeat' first
    | with_reducible assumption
    | (extract_lets +onlyGivenNames x; refine (fun (_ : Inv x) => ?_) ?_; clear_value x; rotate_left; subst x)
    | (extract_lets +onlyGivenNames x; clear_value x)
    | with_reducible apply State.putB_keeps
    | with_reducible apply State.putR_keeps
    | split
    | fail_if_no_progress with_reducible apply inv_mk

theorem startResilver_keeps : ∀ (s : State) (c : ℕ),
  Inv s → Inv (startResilver s c) := by
  intros
  unfold startResilver
  repeat' first
    | with_reducible assumption
    | (extract_lets +onlyGivenNames x; refine (fun (_ : Inv x) => ?_) ?_; clear_value x; rotate_left; subst x)
    | with_reducible apply recoverySet_keeps
    | with_reducible apply updM_keeps
    | with_reducible apply State.putF_keeps
    | split

theorem startDone_keeps : ∀ (s : State) (u : ℕ),
  Inv s → Inv (startDone s u) := by
  intros
  unfold startDone
  repeat' first
    | with_reducible assumption
    | (extract_lets +onlyGivenNames x; refine (fun (_ : Inv x) => ?_) ?_; clear_value x; rotate_left; subst x)
    | (extract_lets +onlyGivenNames x; clear_value x)
    | extract_lets +onlyGivenNames x
    | with_reducible apply setUnit_keeps
    | with_reducible apply configEval_keeps
    | with_reducible apply numberCore_keeps
    | with_reducible apply coreStarts_keeps
    | with_reducible apply startResilver_keeps
    | split

theorem execStartSequenceComplete_keeps : ∀ (u : Uid) (s : State),
  Inv s → OutOk (execStartSequenceComplete u s) := by
  intros
  unfold execStartSequenceComplete
  repeat' first
    | with_reducible assumption
    | extract_lets +onlyGivenNames x
    | with_reducible apply startDone_keeps
    | with_reducible apply outOk_next

theorem execStartSequenceError_keeps : ∀ (u : Uid) (s : State),
  Inv s → OutOk (execStartSequenceError u s) := by
  intros
  unfold execStartSequenceError
  repeat' first
    | with_reducible assumption
    | (extract_lets +onlyGivenNames x; refine (fun (_ : Inv x) => ?_) ?_; clear_value x; rotate_left; subst x)
    | extract_lets +onlyGivenNames x
    | with_reducible apply setUnit_keeps
    | with_reducible apply withdrawUnit_keeps
    | with_reducible apply spareLost_keeps
    | split
    | with_reducible apply outOk_next

theorem domMoves_keeps : ∀ (s : State) (d : ℕ),
  Inv s → Inv (domMoves s d) := by
  intros
  unfold domMoves
  repeat' first
    | with_reducible assumption
    | extract_lets +onlyGivenNames x
    | with_reducible apply heldAll_keeps
    | with_reducible apply syncTimers_keeps
    | split

theorem execDroopResume_keeps : ∀ (d : DomId) (mv : ℕ) (s : State),
  Inv s → OutOk (execDroopResume d mv s) := by
  intros
  unfold execDroopResume
  repeat' first
    | with_reducible assumption
    | extract_lets +onlyGivenNames x
    | with_reducible apply domMoves_keeps
    | with_reducible apply updD_keeps
    | split
    | with_reducible apply outOk_next

theorem execSoftStopResume_keeps : ∀ (d : DomId) (readings : List (BitVec 10)) (s : State),
  Inv s → OutOk (execSoftStopResume d readings s) := by
  intros
  unfold execSoftStopResume
  repeat' first
    | with_reducible assumption
    | (extract_lets +onlyGivenNames x; refine (fun (_ : Inv x) => ?_) ?_; clear_value x; rotate_left; subst x)
    | extract_lets +onlyGivenNames x
    | with_reducible apply updD_keeps
    | with_reducible apply domMoves_keeps
    | with_reducible apply askLoad_keeps
    | with_reducible apply State.putF_keeps
    | with_reducible apply powerRecord_keeps
    | split
    | with_reducible apply outOk_next

theorem drainCore_keeps : ∀ (s : State) (k : ℕ),
  Inv s → Inv (drainCore s k) := by
  intros
  unfold drainCore
  repeat' first
    | with_reducible assumption
    | (extract_lets +onlyGivenNames x; refine (fun (_ : Inv x) => ?_) ?_; clear_value x; rotate_left; subst x)
    | extract_lets +onlyGivenNames x
    | with_reducible apply setUnit_keeps
    | with_reducible apply State.putB_keeps
    | with_reducible apply startSparings_keeps
    | split
    | fail_if_no_progress with_reducible apply inv_mk

theorem drainUnit_keeps : ∀ (s : State) (u : ℕ),
  Inv s → Inv (drainUnit s u) := by
  intros
  unfold drainUnit
  repeat' first
    | with_reducible assumption
    | with_reducible apply drainCore_keeps
    | with_reducible apply drainSlice_keeps
    | with_reducible apply setUnit_keeps
    | split

theorem execDrainCommand_keeps : ∀ (u : Uid) (s : State),
  Inv s → OutOk (execDrainCommand u s) := by
  intros
  unfold execDrainCommand
  repeat' first
    | with_reducible assumption
    | extract_lets +onlyGivenNames x
    | with_reducible apply drainUnit_keeps
    | with_reducible apply outOk_next

theorem drainEnds_keeps : ∀ (s : State) (u : ℕ) (retire : Bool),
  Inv s → Inv (drainEnds s u retire) := by
  intros
  unfold drainEnds
  repeat' first
    | with_reducible assumption
    | (extract_lets +onlyGivenNames x; refine (fun (_ : Inv x) => ?_) ?_; clear_value x; rotate_left; subst x)
    | extract_lets +onlyGivenNames x
    | with_reducible apply emptyCaches_keeps
    | with_reducible apply withdrawUnit_keeps
    | with_reducible apply gateCore_keeps
    | with_reducible apply setUnit_keeps
    | split

theorem execDrainComplete_keeps : ∀ (u : Uid) (retire : Bool) (s : State),
  Inv s → OutOk (execDrainComplete u retire s) := by
  intros
  unfold execDrainComplete
  repeat' first
    | with_reducible assumption
    | extract_lets +onlyGivenNames x
    | with_reducible apply configEval_keeps
    | with_reducible apply drainEnds_keeps
    | with_reducible apply outOk_next

theorem cancelDrain_keeps : ∀ (s : State) (u : ℕ),
  Inv s → Inv (cancelDrain s u) := by
  intros
  unfold cancelDrain
  repeat' first
    | with_reducible assumption
    | (extract_lets +onlyGivenNames x; refine (fun (_ : Inv x) => ?_) ?_; clear_value x; rotate_left; subst x)
    | extract_lets +onlyGivenNames x
    | with_reducible apply setUnit_keeps
    | with_reducible apply State.putB_keeps
    | split
    | fail_if_no_progress with_reducible apply inv_mk

theorem execDrainCancelled_keeps : ∀ (u : Uid) (s : State),
  Inv s → OutOk (execDrainCancelled u s) := by
  intros
  unfold execDrainCancelled
  repeat' first
    | with_reducible assumption
    | extract_lets +onlyGivenNames x
    | with_reducible apply cancelDrain_keeps
    | with_reducible apply outOk_next

theorem execContainmentWithdraw_keeps : ∀ (u : Uid) (s : State),
  Inv s → OutOk (execContainmentWithdraw u s) := by
  intros
  unfold execContainmentWithdraw
  repeat' first
    | with_reducible assumption
    | extract_lets +onlyGivenNames x
    | with_reducible apply configEval_keeps
    | with_reducible apply withdrawUnit_keeps
    | split
    | with_reducible apply outOk_next

theorem noteRestart_keeps : ∀ (s : State) (u : ℕ),
  Inv s → Inv (noteRestart s u) := by
  intros
  unfold noteRestart
  repeat' first
    | with_reducible assumption
    | (extract_lets +onlyGivenNames x; clear_value x)
    | split
    | fail_if_no_progress with_reducible apply inv_mk

theorem restartUnit_keeps : ∀ (s : State) (u : ℕ),
  Inv s → Inv (restartUnit s u) := by
  intros
  unfold restartUnit
  repeat' first
    | with_reducible assumption
    | (extract_lets +onlyGivenNames x; refine (fun (_ : Inv x) => ?_) ?_; clear_value x; rotate_left; subst x)
    | extract_lets +onlyGivenNames x
    | with_reducible apply noteRestart_keeps
    | with_reducible apply setUnit_keeps
    | with_reducible apply gateCore_keeps
    | split

theorem execFailedRestart_keeps : ∀ (u : Uid) (s : State),
  Inv s → OutOk (execFailedRestart u s) := by
  intros
  unfold execFailedRestart
  repeat' first
    | with_reducible assumption
    | extract_lets +onlyGivenNames x
    | with_reducible apply restartUnit_keeps
    | with_reducible apply outOk_next

theorem stateRecord_keeps : ∀ (s : State) (m : StateMsg),
  Inv s → Inv (stateRecord s m) := by
  intros
  unfold stateRecord
  repeat' first
    | with_reducible assumption
    | with_reducible apply logRecord_keeps

theorem execStateMessage_keeps : ∀ (k : ℕ) (s : State),
  Inv s → OutOk (execStateMessage k s) := by
  intros
  unfold execStateMessage
  repeat' first
    | with_reducible assumption
    | (extract_lets +onlyGivenNames x; refine (fun (_ : Inv x) => ?_) ?_; clear_value x; rotate_left; subst x)
    | (extract_lets +onlyGivenNames x; clear_value x)
    | extract_lets +onlyGivenNames x
    | with_reducible apply stateRecord_keeps
    | split
    | with_reducible apply outOk_next
    | fail_if_no_progress with_reducible apply inv_mk

end Sys2Proof.Machine
end

