-- ==== Sys2Proof/Laws/KeepsManage.lean ====
section
/-! SUPPORT. The invariant under the definitions of Machine/Manage.lean. -/

namespace Sys2Proof.Machine

set_option linter.all false

theorem updG_keeps : ∀ (s : State) (f : Mgmt → Mgmt),
  Inv s → Inv (updG s f) := by
  intros
  unfold updG
  repeat' first
    | with_reducible assumption
    | fail_if_no_progress with_reducible apply inv_mk

theorem showCores_keeps : ∀ (s : State), Inv s → Inv (showCores s) := by
  intros
  unfold showCores
  repeat' first
    | with_reducible assumption
    | (extract_lets +onlyGivenNames x; clear_value x)
    | extract_lets +onlyGivenNames x
    | with_reducible apply State.putB_keeps

theorem execBcHeartbeat_keeps : ∀ (s : State),
  Inv s → OutOk (execBcHeartbeat s) := by
  intros
  unfold execBcHeartbeat
  repeat' first
    | with_reducible assumption
    | extract_lets +onlyGivenNames x
    | with_reducible apply updG_keeps
    | split
    | with_reducible apply outOk_next

theorem reconcile_keeps : ∀ (s : State) (u : ℕ),
  Inv s → Inv (reconcile s u) := by
  intros
  unfold reconcile
  repeat' first
    | with_reducible assumption
    | (extract_lets +onlyGivenNames x; refine (fun (_ : Inv x) => ?_) ?_; clear_value x; rotate_left; subst x)
    | (extract_lets +onlyGivenNames x; clear_value x)
    | extract_lets +onlyGivenNames x
    | with_reducible apply logRecord_keeps
    | with_reducible apply stateRecord_keeps
    | split
    | fail_if_no_progress with_reducible apply inv_mk

theorem sweep_keeps : ∀ (s : State), Inv s → Inv (sweep s) := by
  intros
  unfold sweep
  repeat' first
    | with_reducible assumption
    | intro _
    | extract_lets +onlyGivenNames x
    | with_reducible apply reconcile_keeps
    | with_reducible apply inv_foldl

theorem execViewSweep_keeps : ∀ (s : State), Inv s → OutOk (execViewSweep s) := by
  intros
  unfold execViewSweep
  repeat' first
    | with_reducible assumption
    | extract_lets +onlyGivenNames x
    | with_reducible apply sweep_keeps
    | split
    | with_reducible apply outOk_next

theorem failover_keeps : ∀ (s : State) (code : ℕ) (left : MgmtCore),
  Inv s → Inv (failover s code left) := by
  intros
  unfold failover
  repeat' first
    | with_reducible assumption
    | (extract_lets +onlyGivenNames x; refine (fun (_ : Inv x) => ?_) ?_; clear_value x; rotate_left; subst x)
    | (extract_lets +onlyGivenNames x; clear_value x)
    | extract_lets +onlyGivenNames x
    | with_reducible apply updG_keeps
    | with_reducible apply State.putR_keeps
    | with_reducible apply sweep_keeps
    | with_reducible apply showCores_keeps
    | with_reducible apply configEval_keeps
    | with_reducible apply logRecord_keeps

theorem execBcTakeover_keeps : ∀ (why : Takeover) (s : State),
  Inv s → OutOk (execBcTakeover why s) := by
  intros
  unfold execBcTakeover
  repeat' first
    | with_reducible assumption
    | (extract_lets +onlyGivenNames x; refine (fun (_ : Inv x) => ?_) ?_; clear_value x; rotate_left; subst x)
    | (extract_lets +onlyGivenNames x; clear_value x)
    | extract_lets +onlyGivenNames x
    | with_reducible apply updG_keeps
    | with_reducible apply failover_keeps
    | with_reducible apply showCores_keeps
    | split
    | with_reducible apply outOk_next

theorem execBcCoreRejoin_keeps : ∀ (ok : Bool) (s : State),
  Inv s → OutOk (execBcCoreRejoin ok s) := by
  intros
  unfold execBcCoreRejoin
  repeat' first
    | with_reducible assumption
    | (extract_lets +onlyGivenNames x; clear_value x)
    | extract_lets +onlyGivenNames x
    | with_reducible apply configEval_keeps
    | with_reducible apply showCores_keeps
    | with_reducible apply updG_keeps
    | split
    | with_reducible apply outOk_next

theorem phaseLoss_keeps : ∀ (s : State) (d : ℕ),
  Inv s → Inv (phaseLoss s d) := by
  intros
  unfold phaseLoss
  repeat' first
    | with_reducible assumption
    | intro _
    | extract_lets +onlyGivenNames x
    | with_reducible apply updD_keeps
    | with_reducible apply failSheaf_keeps
    | with_reducible apply failTileStop_keeps
    | with_reducible apply failEngStop_keeps
    | split
    | with_reducible apply inv_foldl

theorem setFlash_keeps : ∀ (s : State) (b : Bool) (f : Flash → Flash),
  Inv s → Inv (setFlash s b f) := by
  intros
  unfold setFlash
  repeat' first
    | with_reducible assumption
    | with_reducible apply updG_keeps

theorem flashFails_keeps : ∀ (s : State) (b : Bool),
  Inv s → Inv (flashFails s b) := by
  intros
  unfold flashFails
  repeat' first
    | with_reducible assumption
    | with_reducible apply setFlash_keeps
    | split

theorem throttleDom_keeps : ∀ (s : State) (d t : ℕ),
  Inv s → Inv (throttleDom s d t) := by
  intros
  unfold throttleDom
  repeat' first
    | with_reducible assumption
    | (extract_lets +onlyGivenNames x; clear_value x)
    | with_reducible apply updD_keeps
    | split

theorem execSensorPoll_keeps : ∀ (x : Polled) (s : State),
  Inv s → OutOk (execSensorPoll x s) := by
  intros
  unfold execSensorPoll
  repeat' first
    | with_reducible assumption
    | intro _
    | (extract_lets +onlyGivenNames x; refine (fun (_ : Inv x) => ?_) ?_; clear_value x; rotate_left; subst x)
    | extract_lets +onlyGivenNames x
    | with_reducible apply askLoad_keeps
    | with_reducible apply configEval_keeps
    | with_reducible apply flashFails_keeps
    | with_reducible apply phaseLoss_keeps
    | with_reducible apply throttleDom_keeps
    | with_reducible apply updG_keeps
    | split
    | with_reducible apply outOk_next
    | with_reducible apply inv_foldl

theorem putCap_keeps : ∀ (s : State) (h n : ℕ),
  Inv s → Inv (putCap s h n) := by
  intros
  unfold putCap
  repeat' first
    | with_reducible assumption
    | with_reducible apply State.putF_keeps

theorem setDomain_keeps : ∀ (s : State) (d mv share : ℕ),
  Inv s → Inv (setDomain s d mv share) := by
  intros
  unfold setDomain
  repeat' first
    | with_reducible assumption
    | (extract_lets +onlyGivenNames x; refine (fun (_ : Inv x) => ?_) ?_; clear_value x; rotate_left; subst x)
    | (extract_lets +onlyGivenNames x; clear_value x)
    | extract_lets +onlyGivenNames x
    | with_reducible apply updD_keeps
    | with_reducible apply askLoad_keeps
    | split

theorem execPowerDistribution_keeps : ∀ (now other : ℕ) (x : PowerSplit) (s : State),
  Inv s → OutOk (execPowerDistribution now other x s) := by
  intros
  unfold execPowerDistribution
  repeat' first
    | with_reducible assumption
    | intro _
    | (extract_lets +onlyGivenNames x; refine (fun (_ : Inv x) => ?_) ?_; clear_value x; rotate_left; subst x)
    | (extract_lets +onlyGivenNames x; clear_value x)
    | extract_lets +onlyGivenNames x
    | with_reducible apply State.putF_keeps
    | with_reducible apply setDomain_keeps
    | with_reducible apply updG_keeps
    | with_reducible apply putCap_keeps
    | split
    | with_reducible apply outOk_next
    | with_reducible apply inv_foldl

theorem brakeOn_keeps : ∀ (s : State), Inv s → Inv (brakeOn s) := by
  intros
  unfold brakeOn
  repeat' first
    | with_reducible assumption
    | intro _
    | (extract_lets +onlyGivenNames x; refine (fun (_ : Inv x) => ?_) ?_; clear_value x; rotate_left; subst x)
    | (extract_lets +onlyGivenNames x; clear_value x)
    | extract_lets +onlyGivenNames x
    | with_reducible apply updG_keeps
    | with_reducible apply putCap_keeps
    | split
    | with_reducible apply inv_foldl

theorem brakeOff_keeps : ∀ (s : State), Inv s → Inv (brakeOff s) := by
  intros
  unfold brakeOff
  repeat' first
    | with_reducible assumption
    | intro _
    | extract_lets +onlyGivenNames x
    | with_reducible apply updG_keeps
    | with_reducible apply putCap_keeps
    | split
    | with_reducible apply inv_foldl

theorem execPowerBrake_keeps : ∀ (s : State),
  Inv s → OutOk (execPowerBrake s) := by
  intros
  unfold execPowerBrake
  repeat' first
    | with_reducible assumption
    | extract_lets +onlyGivenNames x
    | with_reducible apply brakeOn_keeps
    | split
    | with_reducible apply outOk_next

theorem execPowerBrakeRelease_keeps : ∀ (s : State),
  Inv s → OutOk (execPowerBrakeRelease s) := by
  intros
  unfold execPowerBrakeRelease
  repeat' first
    | with_reducible assumption
    | extract_lets +onlyGivenNames x
    | with_reducible apply brakeOff_keeps
    | split
    | with_reducible apply outOk_next

theorem execLogRingCopy_keeps : ∀ (s : State),
  Inv s → OutOk (execLogRingCopy s) := by
  intros
  unfold execLogRingCopy
  repeat' first
    | with_reducible assumption
    | intro _
    | (extract_lets +onlyGivenNames x; refine (fun (_ : ∀ s, Inv s → Inv (x s)) => ?_) ?_; clear_value x; rotate_left; subst x)
    | (extract_lets +onlyGivenNames x; clear_value x)
    | extract_lets +onlyGivenNames x
    | with_reducible apply ringRefuse_keeps
    | with_reducible apply State.putR_keeps
    | with_reducible apply ringAdd_keeps
    | split
    | with_reducible apply outOk_next
    | fail_if_no_progress with_reducible apply inv_mk
    | with_reducible apply_assumption -exfalso -symm

theorem execLogFlashAppend_keeps : ∀ (s : State),
  Inv s → OutOk (execLogFlashAppend s) := by
  intros
  unfold execLogFlashAppend
  repeat' first
    | with_reducible assumption
    | (extract_lets +onlyGivenNames x; clear_value x)
    | extract_lets +onlyGivenNames x
    | split
    | with_reducible apply outOk_next
    | fail_if_no_progress with_reducible apply inv_mk

theorem execMctpControl_keeps : ∀ (x : Transport) (type : BitVec 8) (body : List Byte) (s : State),
  Inv s → OutOk (execMctpControl x type body s) := by
  intros
  unfold execMctpControl
  repeat' first
    | with_reducible assumption
    | intro _
    | (extract_lets +onlyGivenNames x; refine (fun (_ : Inv x) => ?_) ?_; clear_value x; rotate_left; subst x)
    | extract_lets +onlyGivenNames x
    | with_reducible apply serve_keeps
    | with_reducible apply updG_keeps
    | split
    | with_reducible apply outOk_next

theorem execLogbookRead_keeps : ∀ (x : Transport) (seq count : ℕ) (s : State),
  Inv s → OutOk (execLogbookRead x seq count s) := by
  intros
  unfold execLogbookRead
  repeat' first
    | with_reducible assumption
    | intro _
    | extract_lets +onlyGivenNames x
    | with_reducible apply serve_keeps
    | with_reducible apply outOk_next

theorem pldmAnswer_keeps : ∀ (s : State) (a : PldmQuery),
  Inv s → Inv (pldmAnswer s a).1 := by
  intros
  unfold pldmAnswer
  repeat' first
    | with_reducible assumption
    | with_reducible apply updG_keeps
    | with_reducible apply State.putF_keeps
    | split

theorem execPldmRequest_keeps : ∀ (x : Transport) (q : PldmQuery) (s : State),
  Inv s → OutOk (execPldmRequest x q s) := by
  intros
  unfold execPldmRequest
  repeat' first
    | with_reducible assumption
    | intro _
    | extract_lets +onlyGivenNames x
    | with_reducible apply serve_keeps
    | with_reducible apply pldmAnswer_keeps
    | with_reducible apply outOk_next

theorem spdmReply_keeps : ∀ (s : State) (x : Transport) (what a b c : ℕ) (signed : Bool)
  (body : List Byte),
  Inv s → Inv (spdmReply s x what a b c signed body) := by
  intros
  unfold spdmReply
  repeat' first
    | with_reducible assumption
    | intro _
    | (extract_lets +onlyGivenNames x; clear_value x)
    | with_reducible apply serve_keeps

theorem execGetVersion_keeps : ∀ (x : Transport) (s : State),
  Inv s → OutOk (execGetVersion x s) := by
  intros
  unfold execGetVersion
  repeat' first
    | with_reducible assumption
    | extract_lets +onlyGivenNames x
    | with_reducible apply spdmReply_keeps
    | with_reducible apply outOk_next

theorem execGetCapabilities_keeps : ∀ (x : Transport) (s : State),
  Inv s → OutOk (execGetCapabilities x s) := by
  intros
  unfold execGetCapabilities
  repeat' first
    | with_reducible assumption
    | extract_lets +onlyGivenNames x
    | with_reducible apply spdmReply_keeps
    | with_reducible apply outOk_next

theorem execNegotiateAlgorithms_keeps : ∀ (x : Transport) (s : State),
  Inv s → OutOk (execNegotiateAlgorithms x s) := by
  intros
  unfold execNegotiateAlgorithms
  repeat' first
    | with_reducible assumption
    | extract_lets +onlyGivenNames x
    | with_reducible apply spdmReply_keeps
    | with_reducible apply outOk_next

theorem execGetDigests_keeps : ∀ (x : Transport) (s : State),
  Inv s → OutOk (execGetDigests x s) := by
  intros
  unfold execGetDigests
  repeat' first
    | with_reducible assumption
    | extract_lets +onlyGivenNames x
    | with_reducible apply spdmReply_keeps
    | with_reducible apply outOk_next

theorem execGetCertificate_keeps : ∀ (x : Transport) (slot offset length : ℕ) (s : State),
  Inv s → OutOk (execGetCertificate x slot offset length s) := by
  intros
  unfold execGetCertificate
  repeat' first
    | with_reducible assumption
    | extract_lets +onlyGivenNames x
    | with_reducible apply spdmReply_keeps
    | with_reducible apply outOk_next

theorem execChallenge_keeps : ∀ (x : Transport) (slot : ℕ) (nonce : List Byte) (s : State),
  Inv s → OutOk (execChallenge x slot nonce s) := by
  intros
  unfold execChallenge
  repeat' first
    | with_reducible assumption
    | extract_lets +onlyGivenNames x
    | with_reducible apply spdmReply_keeps
    | with_reducible apply outOk_next

theorem execGetMeasurements_keeps : ∀ (x : Transport) (block : ℕ) (nonce : List Byte) (s : State),
  Inv s → OutOk (execGetMeasurements x block nonce s) := by
  intros
  unfold execGetMeasurements
  repeat' first
    | with_reducible assumption
    | extract_lets +onlyGivenNames x
    | with_reducible apply spdmReply_keeps
    | with_reducible apply outOk_next

theorem updateRecord_keeps : ∀ (s : State) (cls old new outcome : ℕ),
  Inv s → Inv (updateRecord s cls old new outcome) := by
  intros
  unfold updateRecord
  repeat' first
    | with_reducible assumption
    | with_reducible apply logRecord_keeps

theorem runImage_keeps : ∀ (s : State) (i : Image) (fromB : Bool),
  Inv s → Inv (runImage s i fromB) := by
  intros
  unfold runImage
  repeat' first
    | with_reducible assumption
    | (extract_lets +onlyGivenNames x; refine (fun (_ : Inv x) => ?_) ?_; clear_value x; rotate_left; subst x)
    | extract_lets +onlyGivenNames x
    | with_reducible apply updG_keeps
    | with_reducible apply State.putF_keeps
    | with_reducible apply State.putB_keeps

theorem writeFlash_keeps : ∀ (s : State) (b : Bool) (i : Image),
  Inv s → Inv (writeFlash s b i) := by
  intros
  unfold writeFlash
  repeat' first
    | with_reducible assumption
    | extract_lets +onlyGivenNames x
    | with_reducible apply setFlash_keeps
    | with_reducible apply configEval_keeps

theorem execFirmwareUpdate_keeps : ∀ (x : Transport) (image : Image) (s : State),
  Inv s → OutOk (execFirmwareUpdate x image s) := by
  intros
  unfold execFirmwareUpdate
  repeat' first
    | with_reducible assumption
    | intro _
    | (extract_lets +onlyGivenNames x; refine (fun (_ : Inv x) => ?_) ?_; clear_value x; rotate_left; subst x)
    | (extract_lets +onlyGivenNames x; clear_value x)
    | extract_lets +onlyGivenNames x
    | with_reducible apply serve_keeps
    | with_reducible apply updateRecord_keeps
    | with_reducible apply writeFlash_keeps
    | with_reducible apply failover_keeps
    | with_reducible apply runImage_keeps
    | with_reducible apply updG_keeps
    | with_reducible apply configEval_keeps
    | with_reducible apply showCores_keeps
    | split
    | with_reducible apply outOk_next

theorem execUpdateRollback_keeps : ∀ (s : State),
  Inv s → OutOk (execUpdateRollback s) := by
  intros
  unfold execUpdateRollback
  repeat' first
    | with_reducible assumption
    | (extract_lets +onlyGivenNames x; refine (fun (_ : Inv x) => ?_) ?_; clear_value x; rotate_left; subst x)
    | (extract_lets +onlyGivenNames x; clear_value x)
    | extract_lets +onlyGivenNames x
    | with_reducible apply failover_keeps
    | with_reducible apply setFlash_keeps
    | with_reducible apply runImage_keeps
    | with_reducible apply updG_keeps
    | with_reducible apply configEval_keeps
    | with_reducible apply updateRecord_keeps
    | with_reducible apply showCores_keeps
    | split
    | with_reducible apply outOk_next

theorem execPatchSetLoad_keeps : ∀ (x : Transport) (version : ℕ) (verifies : Bool) (compatibleWith : List ℕ) (s : State),
  Inv s →
    OutOk (execPatchSetLoad x version verifies compatibleWith s) := by
  intros
  unfold execPatchSetLoad
  repeat' first
    | with_reducible assumption
    | intro _
    | (extract_lets +onlyGivenNames x; refine (fun (_ : Inv x) => ?_) ?_; clear_value x; rotate_left; subst x)
    | (extract_lets +onlyGivenNames x; clear_value x)
    | extract_lets +onlyGivenNames x
    | with_reducible apply serve_keeps
    | with_reducible apply updateRecord_keeps
    | with_reducible apply setFlash_keeps
    | with_reducible apply updG_keeps
    | split
    | with_reducible apply outOk_next

theorem execPatchApply_keeps : ∀ (k : Fin 192) (s : State),
  Inv s → OutOk (execPatchApply k s) := by
  intros
  unfold execPatchApply
  repeat' first
    | with_reducible assumption
    | extract_lets +onlyGivenNames x
    | with_reducible apply updG_keeps
    | with_reducible apply outOk_next

theorem execTrustedComponentStage_keeps : ∀ (x : Transport) (cls version : ℕ) (body : List Byte) (s : State),
  Inv s → OutOk (execTrustedComponentStage x cls version body s) := by
  intros
  unfold execTrustedComponentStage
  repeat' first
    | with_reducible assumption
    | intro _
    | (extract_lets +onlyGivenNames x; refine (fun (_ : Inv x) => ?_) ?_; clear_value x; rotate_left; subst x)
    | (extract_lets +onlyGivenNames x; clear_value x)
    | extract_lets +onlyGivenNames x
    | with_reducible apply serve_keeps
    | with_reducible apply updateRecord_keeps
    | with_reducible apply homeWrite_keeps
    | with_reducible apply updG_keeps
    | with_reducible apply sendIrq_keeps
    | split
    | with_reducible apply outOk_next

theorem execTrustedOutcome_keeps : ∀ (s : State),
  Inv s → OutOk (execTrustedOutcome s) := by
  intros
  unfold execTrustedOutcome
  repeat' first
    | with_reducible assumption
    | intro _
    | (extract_lets +onlyGivenNames x; refine (fun (_ : ∀ a b c, Inv (x a b c)) => ?_) ?_; clear_value x; rotate_left; subst x)
    | extract_lets +onlyGivenNames x
    | with_reducible apply updG_keeps
    | with_reducible apply reply_keeps
    | with_reducible apply updateRecord_keeps
    | split
    | with_reducible apply outOk_next
    | with_reducible apply_assumption -exfalso -symm

theorem unitRequest_keeps : ∀ (s : State) (x : Transport) (u : ℕ) (seq : BitVec 8)
  (f : State → State),
  Inv s →
    (∀ (a : State), Inv a → Inv (f a)) →
      Inv (unitRequest s x u seq f) := by
  intros
  unfold unitRequest
  repeat' first
    | with_reducible assumption
    | intro _
    | (extract_lets +onlyGivenNames x; refine (fun (_ : Inv x) => ?_) ?_; clear_value x; rotate_left; subst x)
    | (extract_lets +onlyGivenNames x; clear_value x)
    | with_reducible apply serve_keeps
    | split
    | with_reducible apply_assumption -exfalso -symm

theorem chanRestart_keeps : ∀ (s : State) (c : ℕ),
  Inv s → Inv (chanRestart s c) := by
  intros
  unfold chanRestart
  repeat' first
    | with_reducible assumption
    | (extract_lets +onlyGivenNames x; clear_value x)
    | extract_lets +onlyGivenNames x
    | with_reducible apply setupError_keeps
    | with_reducible apply setUnit_keeps
    | with_reducible apply restartUnit_keeps
    | with_reducible apply addWithdrawn_keeps
    | split

theorem execChannelRestart_keeps : ∀ (c : Fin 16) (s : State),
  Inv s → OutOk (execChannelRestart c s) := by
  intros
  unfold execChannelRestart
  repeat' first
    | with_reducible assumption
    | extract_lets +onlyGivenNames x
    | with_reducible apply chanRestart_keeps
    | with_reducible apply outOk_next

theorem memTest_keeps : ∀ (s : State) (c : ℕ) (begin_ : Bool),
  Inv s → Inv (memTest s c begin_).1 := by
  intros
  unfold memTest
  repeat' first
    | with_reducible assumption
    | with_reducible apply State.putF_keeps
    | with_reducible apply setupError_keeps
    | with_reducible apply recoverySet_keeps
    | split


theorem askUnit_keeps : ∀ (s : State) (u : ℕ) (a : UnitAsk),
  Inv s → Inv (askUnit s u a) := by
  intros
  unfold askUnit
  repeat' first
    | with_reducible assumption
    | with_reducible apply commandUnit_keeps
    | with_reducible apply drainUnit_keeps
    | with_reducible apply cancelDrain_keeps
    | with_reducible apply chanRestart_keeps
    | with_reducible apply restartUnit_keeps
    | split

theorem execUnitCommandRequest_keeps : ∀ (x : Transport) (u : Uid) (seq : BitVec 8) (ask : UnitAsk)
  (s : State),
  Inv s → OutOk (execUnitCommandRequest x u seq ask s) := by
  intros
  unfold execUnitCommandRequest
  repeat' first
    | with_reducible assumption
    | intro _
    | (extract_lets +onlyGivenNames x; clear_value x)
    | extract_lets +onlyGivenNames x
    | with_reducible apply serve_keeps
    | with_reducible apply memTest_keeps
    | with_reducible apply unitRequest_keeps
    | with_reducible apply configEval_keeps
    | with_reducible apply askUnit_keeps
    | split
    | with_reducible apply outOk_next


theorem execReserveRelease_keeps : ∀ (x : Transport) (k : Fin 192) (seq : BitVec 8) (s : State),
  Inv s → OutOk (execReserveRelease x k seq s) := by
  intros
  unfold execReserveRelease
  repeat' first
    | with_reducible assumption
    | intro _
    | (extract_lets +onlyGivenNames x; refine (fun (_ : Inv x) => ?_) ?_; clear_value x; rotate_left; subst x)
    | (extract_lets +onlyGivenNames x; clear_value x)
    | extract_lets +onlyGivenNames x
    | with_reducible apply unitRequest_keeps
    | with_reducible apply setUnit_keeps
    | with_reducible apply configEval_keeps
    | split
    | with_reducible apply outOk_next

theorem execReserveReturn_keeps : ∀ (x : Transport) (k : Fin 192) (seq : BitVec 8) (s : State),
  Inv s → OutOk (execReserveReturn x k seq s) := by
  intros
  unfold execReserveReturn
  repeat' first
    | with_reducible assumption
    | intro _
    | (extract_lets +onlyGivenNames x; clear_value x)
    | extract_lets +onlyGivenNames x
    | with_reducible apply unitRequest_keeps
    | with_reducible apply configEval_keeps
    | with_reducible apply setUnit_keeps
    | with_reducible apply gateCore_keeps
    | with_reducible apply emptyCaches_keeps
    | split
    | with_reducible apply outOk_next

theorem execReserveRefill_keeps : ∀ (x : Transport) (i : Fin 96) (seq : BitVec 8) (s : State),
  Inv s → OutOk (execReserveRefill x i seq s) := by
  intros
  unfold execReserveRefill
  repeat' first
    | with_reducible assumption
    | intro _
    | (extract_lets +onlyGivenNames x; clear_value x)
    | extract_lets +onlyGivenNames x
    | with_reducible apply unitRequest_keeps
    | with_reducible apply configEval_keeps
    | with_reducible apply setUnit_keeps
    | split
    | with_reducible apply outOk_next
    | with_reducible apply inv_foldl

theorem appendNext_keeps : ∀ (s : State), Inv s → Inv (appendNext s) := by
  intros
  unfold appendNext
  repeat' first
    | with_reducible assumption
    | (extract_lets +onlyGivenNames x; refine (fun (_ : Inv x) => ?_) ?_; clear_value x; rotate_left; subst x)
    | (extract_lets +onlyGivenNames x; clear_value x)
    | with_reducible apply setFlash_keeps
    | with_reducible apply updG_keeps
    | with_reducible apply logRecord_keeps
    | split

theorem execWithdrawalStoreAppend_keeps : ∀ (s : State),
  Inv s → OutOk (execWithdrawalStoreAppend s) := by
  intros
  unfold execWithdrawalStoreAppend
  repeat' first
    | with_reducible assumption
    | extract_lets +onlyGivenNames x
    | with_reducible apply appendNext_keeps
    | split
    | with_reducible apply outOk_next

theorem execReinstateRequest_keeps : ∀ (x : Transport) (u : Uid) (seq : BitVec 8) (s : State),
  Inv s → OutOk (execReinstateRequest x u seq s) := by
  intros
  unfold execReinstateRequest
  repeat' first
    | with_reducible assumption
    | intro _
    | (extract_lets +onlyGivenNames x; clear_value x)
    | extract_lets +onlyGivenNames x
    | with_reducible apply serve_keeps
    | with_reducible apply updG_keeps
    | split
    | with_reducible apply outOk_next

theorem execHostPresenceLoss_keeps : ∀ (p : Fin 16) (s : State),
  Inv s → OutOk (execHostPresenceLoss p s) := by
  intros
  unfold execHostPresenceLoss
  repeat' first
    | with_reducible assumption
    | (extract_lets +onlyGivenNames x; refine (fun (_ : Inv x) => ?_) ?_; clear_value x; rotate_left; subst x)
    | (extract_lets +onlyGivenNames x; clear_value x)
    | extract_lets +onlyGivenNames x
    | with_reducible apply portFreeze_keeps
    | split
    | with_reducible apply outOk_next
    | fail_if_no_progress with_reducible apply inv_mk

theorem execFlashRewrite_keeps : ∀ (s : State),
  Inv s → OutOk (execFlashRewrite s) := by
  intros
  unfold execFlashRewrite
  repeat' first
    | with_reducible assumption
    | (extract_lets +onlyGivenNames x; refine (fun (_ : Inv x) => ?_) ?_; clear_value x; rotate_left; subst x)
    | (extract_lets +onlyGivenNames x; clear_value x)
    | extract_lets +onlyGivenNames x
    | with_reducible apply configEval_keeps
    | with_reducible apply setFlash_keeps
    | with_reducible apply writeFlash_keeps
    | with_reducible apply updG_keeps
    | split
    | with_reducible apply outOk_next

end Sys2Proof.Machine
end

