-- ==== Sys2Proof/Laws/KeepsMessages.lean ====
section
/-! SUPPORT. The invariant under the definitions of Machine/Messages.lean. -/

namespace Sys2Proof.Machine

set_option linter.all false

theorem queueHead_keeps : ∀ (s : State) (f q : ℕ),
  Inv s → EOk (fun (a : ℕ) => True) (queueHead s f q) := by
  intros
  unfold queueHead
  repeat' first
    | with_reducible assumption
    | (extract_lets +onlyGivenNames x; clear_value x)
    | extract_lets +onlyGivenNames x
    | with_reducible apply engNoTarget_keeps
    | with_reducible apply readPlace_keeps
    | split
    | with_reducible apply eOk_error
    | with_reducible apply eOk_map

theorem writeMessage_keeps : ∀ (s : State) (f q : ℕ) (x : Queue) (bs : List Byte),
  Inv s → EOk Inv (writeMessage s f q x bs) := by
  intros
  unfold writeMessage
  repeat' first
    | with_reducible assumption
    | (extract_lets +onlyGivenNames x; refine (fun (_ : Inv x) => ?_) ?_; clear_value x; rotate_left; subst x)
    | (extract_lets +onlyGivenNames x; clear_value x)
    | extract_lets +onlyGivenNames x
    | with_reducible apply engNoTarget_keeps
    | with_reducible apply homeWriteBy_keeps
    | with_reducible apply placeWrite_keeps
    | with_reducible apply State.putB_keeps
    | with_reducible apply State.putF_keeps
    | with_reducible apply sendIrq_keeps
    | split
    | with_reducible apply eOk_ok
    | with_reducible apply eOk_error

theorem countFull_keeps : ∀ (s : State) (g : ℕ) (d : Desc) (f q : ℕ),
  Inv s → Inv (countFull s g d f q) := by
  intros
  unfold countFull
  repeat' first
    | with_reducible assumption
    | (extract_lets +onlyGivenNames x; clear_value x)
    | extract_lets +onlyGivenNames x
    | with_reducible apply updDesc_keeps
    | with_reducible apply State.putR_keeps
    | split


theorem sendMessage_keeps : ∀ (s : State) (g : ℕ) (d : Desc) (payload : List Byte),
  Inv s → EOk Inv (sendMessage s g d payload) := by
  intros
  unfold sendMessage
  repeat' first
    | with_reducible assumption
    | (extract_lets +onlyGivenNames x; clear_value x)
    | extract_lets +onlyGivenNames x
    | with_reducible apply queueHead_keeps
    | with_reducible apply countFull_keeps
    | with_reducible refine eOk_mono (q := Inv) (writeMessage_keeps _ _ _ _ _ (by assumption)) (fun _ h => endDesc_keeps _ _ _ _ _ h)
    | split
    | with_reducible apply eOk_ok
    | with_reducible apply eOk_error
    | with_reducible apply eOk_map
    | refine inv_errA (by with_reducible assumption) ?_


theorem msgAttempt_keeps : ∀ (s : State) (g : ℕ) (d : Desc),
  Inv s → EOk Inv (msgAttempt s g d) := by
  intros
  unfold msgAttempt
  repeat' first
    | with_reducible assumption
    | intro _
    | (extract_lets +onlyGivenNames x; clear_value x)
    | extract_lets +onlyGivenNames x
    | with_reducible apply sendMessage_keeps
    | with_reducible apply gather_keeps
    | split
    | with_reducible apply eOk_ok
    | with_reducible apply eOk_error
    | with_reducible apply eOk_bindQ
    | refine inv_pairQ (by with_reducible assumption) ?_

theorem msgRun_keeps : ∀ (s : State) (g slot op : ℕ),
  Inv s → Inv (msgRun s g slot op) := by
  intros
  unfold msgRun
  repeat' first
    | with_reducible assumption
    | extract_lets +onlyGivenNames x
    | with_reducible apply orEnd_keeps
    | with_reducible apply msgAttempt_keeps
    | split

theorem execMsg_keeps : ∀ (g : Fin 8192) (slot : Fin 32768) (s : State),
  Inv s → OutOk (execMsg g slot s) := by
  intros
  unfold execMsg
  repeat' first
    | with_reducible assumption
    | extract_lets +onlyGivenNames x
    | with_reducible apply msgRun_keeps
    | with_reducible apply outOk_next

theorem execMsgi_keeps : ∀ (g : Fin 8192) (slot : Fin 32768) (s : State),
  Inv s → OutOk (execMsgi g slot s) := by
  intros
  unfold execMsgi
  repeat' first
    | with_reducible assumption
    | extract_lets +onlyGivenNames x
    | with_reducible apply msgRun_keeps
    | with_reducible apply outOk_next

theorem execQueueHeadRecheck_keeps : ∀ (f : Fin 4) (q : Fin 256) (s : State),
  Inv s → OutOk (execQueueHeadRecheck f q s) := by
  intros
  unfold execQueueHeadRecheck
  repeat' first
    | with_reducible assumption
    | extract_lets +onlyGivenNames x
    | with_reducible apply msgRun_keeps
    | split
    | with_reducible apply outOk_next

theorem writeQueue0_keeps : ∀ (s : State) (f q : ℕ) (v : Word),
  Inv s → Inv (writeQueue0 s f q v) := by
  intros
  unfold writeQueue0
  repeat' first
    | with_reducible assumption
    | (extract_lets +onlyGivenNames x; refine (fun (_ : Inv x) => ?_) ?_; clear_value x; rotate_left; subst x)
    | extract_lets +onlyGivenNames x
    | with_reducible apply State.putR_keeps
    | with_reducible apply State.putB_keeps
    | with_reducible apply State.putF_keeps
    | split

theorem execServiceQueueEnable_keeps : ∀ (r : Requester) (f : Fin 4) (q : Fin 256) (v : Word) (s : State),
  Inv s → OutOk (execServiceQueueEnable r f q v s) := by
  intros
  unfold execServiceQueueEnable
  repeat' first
    | with_reducible assumption
    | extract_lets +onlyGivenNames x
    | with_reducible apply writeQueue0_keeps
    | split
    | with_reducible apply outOk_next

end Sys2Proof.Machine
end

