-- ==== Sys2Proof/Laws/KeepsCoherence.lean ====
section
/-! SUPPORT. The invariant under the definitions of Machine/Coherence.lean. -/

namespace Sys2Proof.Machine

set_option linter.all false

theorem coreAsks_keeps : ∀ (s : State) (k line : ℕ) (m : Miss) (kind : ReqKind),
  Inv s → Inv (coreAsks s k line m kind) := by
  intros
  unfold coreAsks
  repeat' first
    | with_reducible assumption
    | extract_lets +onlyGivenNames x
    | with_reducible apply toHome_keeps
    | with_reducible apply updC_keeps
    | split

theorem prefetchAt_keeps : ∀ (s : State) (t : Tid) (world : Bool) (x : Xl),
  Inv s → Inv (prefetchAt s t world x) := by
  intros
  unfold prefetchAt
  repeat' first
    | with_reducible assumption
    | (extract_lets +onlyGivenNames x; clear_value x)
    | with_reducible apply coreAsks_keeps
    | split

theorem cxlPoison_keeps : ∀ (s : State) (line : ℕ),
  Inv s → Inv (cxlPoison s line) := by
  intros
  unfold cxlPoison
  repeat' first
    | with_reducible assumption
    | (extract_lets +onlyGivenNames x; clear_value x)
    | with_reducible apply logRecord_keeps
    | with_reducible apply setPoison_keeps
    | split


theorem execRdS_keeps : ∀ (k : Fin 192) (line : ℕ) (prefetch : Bool) (x : LineRead) (s : State),
  Inv s → OutOk (execRdS k line prefetch x s) := by
  intros
  unfold execRdS
  repeat' first
    | with_reducible assumption
    | extract_lets +onlyGivenNames x
    | with_reducible apply coreAsks_keeps
    | with_reducible apply cxlPoison_keeps
    | split
    | with_reducible apply outOk_next

theorem execRdO_keeps : ∀ (k : Fin 192) (line : ℕ) (s : State),
  Inv s → OutOk (execRdO k line s) := by
  intros
  unfold execRdO
  repeat' first
    | with_reducible assumption
    | extract_lets +onlyGivenNames x
    | with_reducible apply coreAsks_keeps
    | split
    | with_reducible apply outOk_next

theorem execUpg_keeps : ∀ (k : Fin 192) (line : ℕ) (s : State),
  Inv s → OutOk (execUpg k line s) := by
  intros
  unfold execUpg
  repeat' first
    | with_reducible assumption
    | extract_lets +onlyGivenNames x
    | with_reducible apply coreAsks_keeps
    | split
    | with_reducible apply outOk_next

theorem execRdOnce_keeps : ∀ (r : Reader) (line : ℕ) (s : State),
  Inv s → OutOk (execRdOnce r line s) := by
  intros
  unfold execRdOnce
  repeat' first
    | with_reducible assumption
    | intro _
    | (extract_lets +onlyGivenNames x; refine (fun (_ : ∀ a, Inv (x a)) => ?_) ?_; clear_value x; rotate_left; subst x)
    | (extract_lets +onlyGivenNames x; clear_value x)
    | extract_lets +onlyGivenNames x
    | with_reducible apply toHome_keeps
    | with_reducible apply logRecord_keeps
    | with_reducible apply answer_keeps
    | split
    | with_reducible apply outOk_next
    | with_reducible apply_assumption -exfalso -symm

theorem execWrLine_keeps : ∀ (w : Writer) (line : ℕ) (bytes : Vector (BitVec 8) 64) (hint : HintArg)
  (s : State),
  Inv s → OutOk (execWrLine w line bytes hint s) := by
  intros
  unfold execWrLine
  repeat' first
    | with_reducible assumption
    | extract_lets +onlyGivenNames x
    | with_reducible apply toHome_keeps
    | split
    | with_reducible apply outOk_next

theorem execWrPart_keeps : ∀ (w : Writer) (pa : ℕ) (bytes : List (BitVec 8)) (s : State),
  Inv s → OutOk (execWrPart w pa bytes s) := by
  intros
  unfold execWrPart
  repeat' first
    | with_reducible assumption
    | extract_lets +onlyGivenNames x
    | with_reducible apply toHome_keeps
    | split
    | with_reducible apply outOk_next

theorem execWb_keeps : ∀ (k : Fin 192) (line : ℕ) (s : State),
  Inv s → OutOk (execWb k line s) := by
  intros
  unfold execWb
  repeat' first
    | with_reducible assumption
    | extract_lets +onlyGivenNames x
    | with_reducible apply toHome_keeps
    | with_reducible apply buffer_keeps
    | split
    | with_reducible apply outOk_next

theorem execNotice_keeps : ∀ (k : Fin 192) (line : ℕ) (s : State),
  Inv s → OutOk (execNotice k line s) := by
  intros
  unfold execNotice
  repeat' first
    | with_reducible assumption
    | extract_lets +onlyGivenNames x
    | with_reducible apply toHome_keeps
    | with_reducible apply dropLine_keeps
    | split
    | with_reducible apply outOk_next

theorem execAtom_keeps : ∀ (w : Writer) (pa : ℕ) (op : HomeAtomic) (wide : Bool) (v : BitVec 128)
  (s : State),
  Inv s → OutOk (execAtom w pa op wide v s) := by
  intros
  unfold execAtom
  repeat' first
    | with_reducible assumption
    | (extract_lets +onlyGivenNames x; clear_value x)
    | extract_lets +onlyGivenNames x
    | with_reducible apply endUnit_keeps
    | with_reducible apply toHome_keeps
    | split
    | with_reducible apply outOk_next

theorem takeFwd_keeps : ∀ (s : State) (m : ℕ) (k : FwdKind),
  Inv s →
    MOk (fun (a : Fwd × State) => Inv a.2)
      (takeFwd s m k) := by
  intros
  unfold takeFwd
  repeat' first
    | with_reducible assumption
    | extract_lets +onlyGivenNames x
    | split
    | with_reducible apply mOk_some
    | with_reducible exact mOk_none
    | fail_if_no_progress with_reducible apply inv_mk

theorem execSnpS_keeps : ∀ (m : ℕ) (s : State),
  Inv s → OutOk (execSnpS m s) := by
  intros
  unfold execSnpS
  repeat' first
    | with_reducible assumption
    | extract_lets +onlyGivenNames x
    | with_reducible apply takeFwd_keeps
    | with_reducible apply snpS_keeps
    | split
    | with_reducible apply outOk_next
    | refine inv_someP (by with_reducible assumption) ?_

theorem execSnpO_keeps : ∀ (m : ℕ) (s : State),
  Inv s → OutOk (execSnpO m s) := by
  intros
  unfold execSnpO
  repeat' first
    | with_reducible assumption
    | extract_lets +onlyGivenNames x
    | with_reducible apply takeFwd_keeps
    | with_reducible apply snpO_keeps
    | split
    | with_reducible apply outOk_next
    | refine inv_someP (by with_reducible assumption) ?_

theorem execSnpInv_keeps : ∀ (m : ℕ) (s : State),
  Inv s → OutOk (execSnpInv m s) := by
  intros
  unfold execSnpInv
  repeat' first
    | with_reducible assumption
    | extract_lets +onlyGivenNames x
    | with_reducible apply takeFwd_keeps
    | with_reducible apply snpInv_keeps
    | split
    | with_reducible apply outOk_next
    | refine inv_someP (by with_reducible assumption) ?_

theorem execStash_keeps : ∀ (m : ℕ) (k : Fin 192) (s : State),
  Inv s → OutOk (execStash m k s) := by
  intros
  unfold execStash
  repeat' first
    | with_reducible assumption
    | extract_lets +onlyGivenNames x
    | with_reducible apply takeFwd_keeps
    | with_reducible apply stash_keeps
    | split
    | with_reducible apply outOk_next
    | refine inv_someP (by with_reducible assumption) ?_

theorem execDupUpd_keeps : ∀ (m : ℕ) (s : State),
  Inv s → OutOk (execDupUpd m s) := by
  intros
  unfold execDupUpd
  repeat' first
    | with_reducible assumption
    | extract_lets +onlyGivenNames x
    | with_reducible apply takeFwd_keeps
    | with_reducible apply dupUpd_keeps
    | split
    | with_reducible apply outOk_next
    | refine inv_someP (by with_reducible assumption) ?_

theorem takeRsp_keeps : ∀ (s : State) (m : ℕ) (k : RspKind),
  Inv s →
    MOk (fun (a : Rsp × State) => Inv a.2)
      (takeRsp s m k) := by
  intros
  unfold takeRsp
  repeat' first
    | with_reducible assumption
    | extract_lets +onlyGivenNames x
    | split
    | with_reducible apply mOk_some
    | with_reducible exact mOk_none
    | fail_if_no_progress with_reducible apply inv_mk

theorem execData_keeps : ∀ (m : ℕ) (s : State),
  Inv s → OutOk (execData m s) := by
  intros
  unfold execData
  repeat' first
    | with_reducible assumption
    | extract_lets +onlyGivenNames x
    | with_reducible apply takeRsp_keeps
    | with_reducible apply atHome_keeps
    | with_reducible apply endUnit_keeps
    | with_reducible apply granted_keeps
    | split
    | with_reducible apply outOk_next
    | with_reducible apply inv_getD
    | refine inv_someP (by with_reducible assumption) ?_

theorem execAck_keeps : ∀ (m : ℕ) (s : State),
  Inv s → OutOk (execAck m s) := by
  intros
  unfold execAck
  repeat' first
    | with_reducible assumption
    | extract_lets +onlyGivenNames x
    | with_reducible apply takeRsp_keeps
    | with_reducible apply atHome_keeps
    | with_reducible apply granted_keeps
    | split
    | with_reducible apply outOk_next
    | with_reducible apply inv_getD
    | refine inv_someP (by with_reducible assumption) ?_

theorem execNack_keeps : ∀ (m : ℕ) (s : State),
  Inv s → OutOk (execNack m s) := by
  intros
  unfold execNack
  repeat' first
    | with_reducible assumption
    | extract_lets +onlyGivenNames x
    | with_reducible apply takeRsp_keeps
    | with_reducible apply atHome_keeps
    | split
    | with_reducible apply outOk_next
    | refine inv_someP (by with_reducible assumption) ?_

theorem execStale_keeps : ∀ (m : ℕ) (s : State),
  Inv s → OutOk (execStale m s) := by
  intros
  unfold execStale
  repeat' first
    | with_reducible assumption
    | extract_lets +onlyGivenNames x
    | with_reducible apply takeRsp_keeps
    | with_reducible apply released_keeps
    | split
    | with_reducible apply outOk_next
    | refine inv_someP (by with_reducible assumption) ?_

theorem execRetry_keeps : ∀ (m : ℕ) (s : State),
  Inv s → OutOk (execRetry m s) := by
  intros
  unfold execRetry
  repeat' first
    | with_reducible assumption
    | extract_lets +onlyGivenNames x
    | with_reducible apply takeRsp_keeps
    | with_reducible apply released_keeps
    | split
    | with_reducible apply outOk_next
    | refine inv_someP (by with_reducible assumption) ?_

theorem execNoTarget_keeps : ∀ (m : ℕ) (s : State),
  Inv s → OutOk (execNoTarget m s) := by
  intros
  unfold execNoTarget
  repeat' first
    | with_reducible assumption
    | (extract_lets +onlyGivenNames x; refine (fun (_ : Inv x) => ?_) ?_; clear_value x; rotate_left; subst x)
    | (extract_lets +onlyGivenNames x; clear_value x)
    | extract_lets +onlyGivenNames x
    | with_reducible apply takeRsp_keeps
    | with_reducible apply released_keeps
    | with_reducible apply logRecord_keeps
    | split
    | with_reducible apply outOk_next
    | refine inv_someP (by with_reducible assumption) ?_

end Sys2Proof.Machine
end

