-- ==== Sys2Proof/Laws/KeepsReach.lean ====
section
/-! SUPPORT. The invariant under the definitions of Machine/Reach.lean. -/

namespace Sys2Proof.Machine

set_option linter.all false

theorem faultAt_keeps {α : Type} {p : α → Prop} {s : State} {c : Nat} {a : Option Word} {v : GReg} {d : Word} (h : Inv s) :
    EOk p (faultAt s c a v d) := eOk_error h

theorem noTarget_keeps {α : Type} {p : α → Prop} {s : State} {a : Word} {v : GReg} {pa : Nat} (h : Inv s) :
    EOk p (noTarget s a v pa : R α) := eOk_error h

theorem illegal_keeps {α : Type} {p : α → Prop} {s : State} (h : Inv s) : EOk p (illegal s) := eOk_error h

theorem guardCap_keeps : ∀ (s : State) (a : Option Word) (cap : GReg) (c : Option ℕ),
  Inv s → EOk (fun (a : PUnit.{1}) => True) (guardCap s a cap c) := by
  intros
  unfold guardCap
  repeat' first
    | with_reducible assumption
    | exact True.intro
    | with_reducible apply faultAt_keeps
    | split
    | with_reducible apply eOk_ok

theorem fillL1_keeps : ∀ (s : State) (k : ℕ) (x : XKind) (e : TlbEnt),
  Inv s → Inv (fillL1 s k x e) := by
  intros
  unfold fillL1
  repeat' first
    | with_reducible assumption
    | with_reducible apply updC_keeps
    | split

theorem fillTlb_keeps : ∀ (s : State) (k : ℕ) (x : XKind) (e : TlbEnt)
  (ws : List WalkEnt),
  Inv s → Inv (fillTlb s k x e ws) := by
  intros
  unfold fillTlb
  repeat' first
    | with_reducible assumption
    | extract_lets +onlyGivenNames x
    | with_reducible apply fillL1_keeps
    | with_reducible apply updC_keeps

theorem dropXlat_keeps : ∀ (s : State) (t : Tid) (va : ℕ),
  Inv s → Inv (dropXlat s t va) := by
  intros
  unfold dropXlat
  repeat' first
    | with_reducible assumption
    | (extract_lets +onlyGivenNames x; clear_value x)
    | with_reducible apply updC_keeps

theorem missEvents_keeps : ∀ (s : State) (t : Tid) (x : Xl) (array : ℕ) (va : Option ℕ) (n : ℕ),
  Inv s → Inv (missEvents s t x array va n) := by
  intros
  unfold missEvents
  repeat' first
    | with_reducible assumption
    | (extract_lets +onlyGivenNames x; refine (fun (_ : Inv x) => ?_) ?_; clear_value x; rotate_left; subst x)
    | (extract_lets +onlyGivenNames x; clear_value x)
    | with_reducible apply pmEvent_keeps
    | split

theorem drainLeaves_keeps : ∀ (s : State) (t : Tid) (e : TlbEnt),
  Inv s → Inv (drainLeaves s t e) := by
  intros
  unfold drainLeaves
  repeat' first
    | with_reducible assumption
    | intro _
    | extract_lets +onlyGivenNames x
    | with_reducible apply drainFor_keeps
    | with_reducible apply inv_foldl

theorem walkEvents_keeps : ∀ (s : State) (t : Tid) (va : ℕ),
  Inv s → Inv (walkEvents s t va) := by
  intros
  unfold walkEvents
  repeat' first
    | with_reducible assumption
    | extract_lets +onlyGivenNames x
    | with_reducible apply pmEvent_keeps


theorem xlateGo_keeps : ∀ (n : ℕ) (s : State) (t : Tid) (k : XKind) (va : ℕ),
  Inv s →
    EOk (fun (a : Xl × State) => Inv a.2) (xlateGo n s t k va) := by
  intro n
  induction n with
  | zero => intro s t k va h; exact eOk_error (dropXlat_keeps _ _ _ h)
  | succ n ih =>
    intro s t k va h
    unfold xlateGo
    repeat' first
      | with_reducible assumption
      | (extract_lets +onlyGivenNames x; refine (fun (_ : Inv x) => ?_) ?_; clear_value x; rotate_left; subst x)
      | with_reducible apply dropXlat_keeps
      | with_reducible apply checkAddrs_keeps
      | with_reducible apply updC_keeps
      | with_reducible apply fillL1_keeps
      | with_reducible apply drainLeaves_keeps
      | with_reducible apply walkEvents_keeps
      | with_reducible apply fillTlb_keeps
      | with_reducible apply eOk_ok
      | with_reducible apply eOk_error
      | refine inv_someS (by with_reducible assumption) ?_
      | with_reducible apply casLeaves_keeps
      | with_reducible apply ih
      | split


theorem xlate_keeps : ∀ (n : ℕ) (s : State) (t : Tid) (k : XKind) (va : ℕ),
  Inv s →
    EOk (fun (a : Xl × State) => Inv a.2)
      (xlate n s t k va) := by
  intros
  unfold xlate
  repeat' first
    | with_reducible assumption
    | with_reducible apply xlateGo_keeps
    | split
    | with_reducible apply eOk_ok

theorem translate_keeps : ∀ (s : State) (t : Tid) (k : XKind) (va : Word)
  (cap : GReg),
  Inv s →
    EOk (fun (a : Xl × State) => Inv a.2)
      (translate s t k va cap) := by
  intros
  unfold translate
  repeat' first
    | with_reducible assumption
    | extract_lets +onlyGivenNames x
    | with_reducible apply xlate_keeps
    | split
    | with_reducible apply eOk_ok
    | with_reducible apply eOk_error
    | refine inv_okP (by with_reducible assumption) ?_
    | refine inv_errP (by with_reducible assumption) ?_

theorem reachP_keeps : ∀ (s : State) (t : Tid) (k : XKind) (v : GReg)
  (a : Word) (n : ℕ) (strict tag : Bool) (cannot : PClass → Bool),
  Inv s →
    EOk (fun (a : Xl × State) => Inv a.2)
      (reachP s t k v a n strict tag cannot) := by
  intros
  unfold reachP
  repeat' first
    | with_reducible assumption
    | extract_lets +onlyGivenNames x
    | with_reducible apply xlate_keeps
    | with_reducible apply faultAt_keeps
    | split
    | with_reducible apply eOk_ok
    | with_reducible apply eOk_error
    | refine inv_okP (by with_reducible assumption) ?_
    | refine inv_errP (by with_reducible assumption) ?_

theorem reachAll_keeps : ∀ {α : Type} (l : List (State → R (α × State))) (s : State),
  AllKeep l → Inv s → EOk (fun (a : List α × State) => Inv a.2) (reachAll l s) := by
  intro α l s hl
  replace hl := allKeep_iff.1 hl
  induction l generalizing s with
  | nil => intro h; exact eOk_ok h
  | cons f fs ih =>
    intro h
    have hf := hl
    have h1 := hf f (by simp) s h
    have hr := fun s (h : Inv s) => ih s (fun g hg => hf g (by simp [hg])) h
    unfold reachAll
    split
    · next x s1 e =>
      have hs := inv_okP e h1
      have h2 := hr s1 hs
      split
      · next xs s2 e2 => exact eOk_ok (inv_okP e2 h2)
      · next e2 he => exact eOk_error ((eOk_iff.1 h2).2 _ he)
    · next e he =>
      have hs := (eOk_iff.1 h1).2 _ he
      split
      · next e2 he2 =>
        have h3 := (eOk_iff.1 (hr s h)).2 _ he2
        split <;> exact eOk_error (by assumption)
      · exact eOk_error hs


theorem reach_keeps : ∀ (s : State) (t : Tid) (k : XKind) (v : GReg)
  (a : Word) (n : ℕ) (strict tag : Bool),
  Inv s →
    EOk (fun (a : Xl × State) => Inv a.2)
      (reach s t k v a n strict tag) := by
  intros
  unfold reach
  repeat' first
    | with_reducible assumption
    | with_reducible apply reachP_keeps

theorem settleDirty_keeps : ∀ (again : State → R (Xl × State))
  (t : Tid) (v : GReg) (a : Word) (a_1 : ℕ) (a_2 : State)
  (a_3 : Xl),
  (∀ (a : State),
      Inv a →
        EOk (fun (a : Xl × State) => Inv a.2)
          (again a)) →
    Inv a_2 →
      EOk (fun (a : Xl × State) => Inv a.2)
        (settleDirty again t v a a_1 a_2 a_3) := by
  intro a0 a1 a2 a3 a4 a5 a6
  fun_induction settleDirty a0 a1 a2 a3 a4 a5 a6 <;> intros
  all_goals repeat' first
    | with_reducible assumption
    | extract_lets +onlyGivenNames x
    | with_reducible apply faultAt_keeps
    | with_reducible apply dropXlat_keeps
    | with_reducible apply drainLeaves_keeps
    | with_reducible apply casLeaves_keeps
    | with_reducible apply updC_keeps
    | with_reducible apply eOk_ok
    | with_reducible apply eOk_error
    | refine inv_okP (by with_reducible assumption) ?_
    | refine inv_errP (by with_reducible assumption) ?_
    | refine inv_someS (by with_reducible assumption) ?_
    | with_reducible apply_assumption -exfalso -symm

theorem reachStore_keeps : ∀ (s : State) (t : Tid) (v : GReg) (a : Word) (n : ℕ)
  (strict tag : Bool),
  Inv s →
    EOk (fun (a : Xl × State) => Inv a.2)
      (reachStore s t v a n strict tag) := by
  intros
  unfold reachStore
  repeat' first
    | with_reducible assumption
    | intro _
    | extract_lets +onlyGivenNames x
    | with_reducible apply reach_keeps
    | with_reducible apply settleDirty_keeps
    | with_reducible apply eOk_bindP

theorem memRead_keeps : ∀ (s : State) (t : Tid) (v : GReg) (a : Word) (pa n : ℕ),
  Inv s →
    EOk (fun (a : List Byte × Bool) => True) (memRead s t v a pa n) := by
  intros
  unfold memRead
  repeat' first
    | with_reducible assumption
    | exact True.intro
    | (extract_lets +onlyGivenNames x; clear_value x)
    | extract_lets +onlyGivenNames x
    | with_reducible apply faultAt_keeps
    | with_reducible apply updC_keeps
    | with_reducible apply noTarget_keeps
    | split
    | with_reducible apply eOk_ok

theorem guardLost_keeps : ∀ (s : State) (t : Tid) (v : GReg) (a : Word) (l : ℕ),
  Inv s →
    EOk (fun (a : PUnit.{1}) => True) (guardLost s t v a l) := by
  intros
  unfold guardLost
  repeat' first
    | with_reducible assumption
    | exact True.intro
    | (extract_lets +onlyGivenNames x; clear_value x)
    | extract_lets +onlyGivenNames x
    | with_reducible apply faultAt_keeps
    | with_reducible apply updC_keeps
    | split
    | with_reducible apply eOk_ok

theorem hostAsk_keeps : ∀ (s : State) (t : Tid) (v : GReg) (a : Word) (p off n k : ℕ)
  (atom : Option HostAtom) (e : Option TlbEnt),
  Inv s →
    EOk
      (fun (a : Option (List Byte) × State) => Inv a.2)
      (hostAsk s t v a p off n k atom e) := by
  intros
  unfold hostAsk
  repeat' first
    | with_reducible assumption
    | (extract_lets +onlyGivenNames x; clear_value x)
    | extract_lets +onlyGivenNames x
    | with_reducible apply faultAt_keeps
    | with_reducible apply updT_keeps
    | with_reducible apply hostRequest_keeps
    | split
    | with_reducible apply eOk_ok

theorem hostRead_keeps : ∀ (s : State) (t : Tid) (v : GReg) (a : Word) (p off n k : ℕ)
  (e : Option TlbEnt),
  Inv s →
    EOk
      (fun (a : Option (List Byte) × State) => Inv a.2)
      (hostRead s t v a p off n k e) := by
  intros
  unfold hostRead
  repeat' first
    | with_reducible assumption
    | with_reducible apply hostAsk_keeps

theorem queueStore_keeps : ∀ (s : State) (t : Tid) (v : GReg) (x : Xl)
  (bs : List Byte) (tag : Option Bool) (rel : Bool),
  Inv s → Inv (queueStore s t v x bs tag rel) := by
  intros
  unfold queueStore
  repeat' first
    | with_reducible assumption
    | (extract_lets +onlyGivenNames x; clear_value x)
    | extract_lets +onlyGivenNames x
    | with_reducible apply performStore_keeps
    | with_reducible apply drainBefore_keeps
    | with_reducible apply pushStore_keeps
    | split

theorem memWrite_keeps : ∀ (s : State) (t : Tid) (v : GReg) (a : Word)
  (x : Xl) (bs : List Byte) (tag : Option Bool) (rel : Bool),
  Inv s →
    EOk Inv (memWrite s t v a x bs tag rel) := by
  intros
  unfold memWrite
  repeat' first
    | with_reducible assumption
    | extract_lets +onlyGivenNames x
    | with_reducible apply noTarget_keeps
    | with_reducible apply queueStore_keeps
    | split
    | with_reducible apply eOk_ok

theorem readGranules_keeps : ∀ (t : Tid) (v : GReg) (a : List (Word × Xl)) (a_1 : ℕ)
  (a_2 : State),
  Inv a_2 →
    EOk
      (fun (a : Option (List GReg) × ℕ × State) => Inv a.2.2)
      (readGranules t v a a_1 a_2) := by
  intro a0 a1 a2 a3 a4
  fun_induction readGranules a0 a1 a2 a3 a4 <;> intros
  all_goals repeat' first
    | with_reducible assumption
    | intro _
    | (extract_lets +onlyGivenNames x; refine (fun (_ : Inv x) => ?_) ?_; clear_value x; rotate_left; subst x)
    | extract_lets +onlyGivenNames x
    | with_reducible apply hostRead_keeps
    | with_reducible apply checkAddrs_keeps
    | with_reducible apply drainPage_keeps
    | with_reducible apply memRead_keeps
    | with_reducible apply touch_keeps
    | split
    | with_reducible apply eOk_ok
    | with_reducible apply eOk_bindP
    | with_reducible apply eOk_bindT
    | with_reducible apply eOk_bindA
    | refine inv_pairP (by with_reducible assumption) ?_
    | refine inv_pairT (by with_reducible assumption) ?_
    | with_reducible apply_assumption -exfalso -symm

theorem loadGranules_keeps : ∀ (s : State) (t : Tid) (v : GReg) (a : Word) (k n : ℕ),
  Inv s →
    EOk
      (fun (a : Option (List GReg) × ℕ × State) => Inv a.2.2)
      (loadGranules s t v a k n) := by
  intros
  unfold loadGranules
  repeat' first
    | with_reducible assumption
    | with_reducible apply allKeep_map
    | intro _
    | (extract_lets +onlyGivenNames x; clear_value x)
    | extract_lets +onlyGivenNames x
    | with_reducible apply faultAt_keeps
    | with_reducible apply reachAll_keeps
    | with_reducible apply reach_keeps
    | with_reducible apply readGranules_keeps
    | split
    | with_reducible apply eOk_ok
    | with_reducible apply eOk_bindP
    | refine inv_pairP (by with_reducible assumption) ?_

theorem loadLine_keeps : ∀ (s : State) (t : Tid) (v : GReg) (a : Word),
  Inv s →
    EOk
      (fun (a : Option (List GReg) × State) => Inv a.2)
      (loadLine s t v a) := by
  intros
  unfold loadLine
  repeat' first
    | with_reducible assumption
    | intro _
    | (extract_lets +onlyGivenNames x; refine (fun (_ : Inv x) => ?_) ?_; clear_value x; rotate_left; subst x)
    | (extract_lets +onlyGivenNames x; clear_value x)
    | extract_lets +onlyGivenNames x
    | with_reducible apply faultAt_keeps
    | with_reducible apply reach_keeps
    | with_reducible apply hostRead_keeps
    | with_reducible apply checkAddrs_keeps
    | with_reducible apply drainPage_keeps
    | with_reducible apply memRead_keeps
    | with_reducible apply touch_keeps
    | split
    | with_reducible apply eOk_ok
    | with_reducible apply eOk_bindP
    | with_reducible apply eOk_bindA
    | refine inv_pairP (by with_reducible assumption) ?_

theorem granReach_keeps : ∀ (s : State) (t : Tid) (v : GReg) (a : Word)
  (g : GReg),
  Inv s →
    EOk (fun (a : Xl × State) => Inv a.2)
      (granReach s t v a g) := by
  intros
  unfold granReach
  repeat' first
    | with_reducible assumption
    | intro _
    | extract_lets +onlyGivenNames x
    | with_reducible apply faultAt_keeps
    | with_reducible apply reach_keeps
    | with_reducible apply noTarget_keeps
    | split
    | with_reducible apply eOk_ok
    | with_reducible apply eOk_bindP
    | refine inv_pairP (by with_reducible assumption) ?_

theorem granDirty_keeps : ∀ (s : State) (t : Tid) (v : GReg) (a : Word)
  (g : GReg) (x : Xl),
  Inv s →
    EOk (fun (a : Xl × State) => Inv a.2)
      (granDirty s t v a g x) := by
  intros
  unfold granDirty
  repeat' first
    | with_reducible assumption
    | intro _
    | extract_lets +onlyGivenNames x
    | with_reducible apply settleDirty_keeps
    | with_reducible apply reach_keeps

theorem granDirties_keeps : ∀ (t : Tid) (v : GReg)
  (a : List (Word × GReg × Xl)) (a_1 : State),
  Inv a_1 →
    EOk
      (fun (a : List (Xl × GReg) × State) =>
        Inv a.2)
      (granDirties t v a a_1) := by
  intro a0 a1 a2 a3
  fun_induction granDirties a0 a1 a2 a3 <;> intros
  all_goals repeat' first
    | with_reducible assumption
    | extract_lets +onlyGivenNames x
    | with_reducible apply granDirty_keeps
    | with_reducible apply dropXlat_keeps
    | with_reducible apply eOk_ok
    | with_reducible apply eOk_error
    | refine inv_okP (by with_reducible assumption) ?_
    | with_reducible apply_assumption -exfalso -symm

theorem granReaches_keeps : ∀ (s : State) (t : Tid) (v : GReg) (a : Word)
  (gs : List GReg),
  Inv s →
    EOk
      (fun (a : List (Xl × GReg) × State) =>
        Inv a.2)
      (granReaches s t v a gs) := by
  intros
  unfold granReaches
  repeat' first
    | with_reducible assumption
    | with_reducible apply allKeep_map
    | intro _
    | (extract_lets +onlyGivenNames x; clear_value x)
    | extract_lets +onlyGivenNames x
    | with_reducible apply reachAll_keeps
    | with_reducible apply granReach_keeps
    | with_reducible apply granDirties_keeps
    | split
    | with_reducible apply eOk_ok
    | with_reducible apply eOk_bindP
    | refine inv_pairP (by with_reducible assumption) ?_

theorem writeGranule_keeps : ∀ (s : State) (t : Tid) (v : GReg) (x : Xl)
  (g : GReg),
  Inv s → Inv (writeGranule s t v x g) := by
  intros
  unfold writeGranule
  repeat' first
    | with_reducible assumption
    | (extract_lets +onlyGivenNames x; refine (fun (_ : Inv x) => ?_) ?_; clear_value x; rotate_left; subst x)
    | (extract_lets +onlyGivenNames x; clear_value x)
    | extract_lets +onlyGivenNames x
    | with_reducible apply checkAddrs_keeps
    | with_reducible apply hostStore_keeps
    | with_reducible apply drainBefore_keeps
    | with_reducible apply queueStore_keeps
    | split

theorem storeGranules_keeps : ∀ (s : State) (t : Tid) (v : GReg) (a : Word)
  (gs : List GReg),
  Inv s → EOk Inv (storeGranules s t v a gs) := by
  intros
  unfold storeGranules
  repeat' first
    | with_reducible assumption
    | intro _
    | extract_lets +onlyGivenNames x
    | with_reducible apply granReaches_keeps
    | with_reducible apply writeGranule_keeps
    | split
    | with_reducible apply eOk_ok
    | with_reducible apply inv_foldl
    | with_reducible apply eOk_bindP
    | refine inv_pairP (by with_reducible assumption) ?_

theorem storeFrame_keeps : ∀ (s : State) (t : Tid) (v : GReg) (a : Word)
  (a_1 : List GReg),
  Inv s → Inv (storeFrame s t v a a_1).1 := by
  intro a0 a1 a2 a3 a4
  fun_induction storeFrame a0 a1 a2 a3 a4 <;> intros
  all_goals repeat' first
    | with_reducible assumption
    | extract_lets +onlyGivenNames x
    | with_reducible apply granReach_keeps
    | with_reducible apply granDirty_keeps
    | with_reducible apply writeGranule_keeps
    | refine inv_okP (by with_reducible assumption) ?_
    | refine inv_errP (by with_reducible assumption) ?_
    | with_reducible apply_assumption -exfalso -symm

end Sys2Proof.Machine
end

