-- ==== Sys2Proof/Laws/KeepsThread.lean ====
section
/-! SUPPORT. The invariant under the definitions of Machine/Thread.lean. -/

namespace Sys2Proof.Machine

set_option linter.all false

theorem dropFill_keeps : ∀ (s : State) (t : Tid),
  Inv s → Inv (dropFill s t) := by
  intros
  unfold dropFill
  repeat' first
    | with_reducible assumption
    | extract_lets +onlyGivenNames x
    | with_reducible apply updT_keeps
    | with_reducible apply updP_keeps
    | split

theorem spillOne_keeps : ∀ (s : State) (t : Tid),
  Inv s → EOk Inv (spillOne s t) := by
  intros
  unfold spillOne
  repeat' first
    | with_reducible assumption
    | intro _
    | (extract_lets +onlyGivenNames x; refine (fun (_ : Inv x) => ?_) ?_; clear_value x; rotate_left; subst x)
    | (extract_lets +onlyGivenNames x; clear_value x)
    | extract_lets +onlyGivenNames x
    | with_reducible apply guardCap_keeps
    | with_reducible apply storeGranules_keeps
    | with_reducible apply updT_keeps
    | with_reducible apply dropFill_keeps
    | with_reducible apply pmEvent_keeps
    | with_reducible apply eOk_ok
    | with_reducible apply eOk_bindS
    | with_reducible apply eOk_bindA

theorem spillBlocked_keeps : ∀ (s : State) (t : Tid) (cause : ℕ),
  Inv s → Inv (spillBlocked s t cause) := by
  intros
  unfold spillBlocked
  repeat' first
    | with_reducible assumption
    | with_reducible apply updT_keeps

theorem spillEngine_keeps : ∀ (a : ℕ) (a_1 : State) (a_2 : Tid),
  Inv a_1 → Inv (spillEngine a a_1 a_2) := by
  intro a0 a1 a2
  fun_induction spillEngine a0 a1 a2 <;> intros
  all_goals repeat' first
    | with_reducible assumption
    | extract_lets +onlyGivenNames x
    | with_reducible apply spillOne_keeps
    | with_reducible apply spillBlocked_keeps
    | refine inv_okS (by with_reducible assumption) ?_
    | refine inv_errS (by with_reducible assumption) ?_
    | with_reducible apply_assumption -exfalso -symm

theorem fault50_keeps {α : Type} {p : α → Prop} {s : State} {t : Tid} {w c : Nat} {v : GReg} (h : Inv s) :
    EOk p (fault50 s t w c v) := eOk_error (updT_keeps _ _ _ h)

theorem waitFree_keeps : ∀ (s : State) (t : Tid) (n : ℕ),
  Inv s → EOk Inv (waitFree s t n) := by
  intros
  unfold waitFree
  repeat' first
    | with_reducible assumption
    | (extract_lets +onlyGivenNames x; refine (fun (_ : Inv x) => ?_) ?_; clear_value x; rotate_left; subst x)
    | (extract_lets +onlyGivenNames x; clear_value x)
    | with_reducible apply spillEngine_keeps
    | with_reducible apply fault50_keeps
    | split
    | with_reducible apply eOk_ok

theorem wrap50_keeps {α : Type} {p : α → Prop} {t : Tid} {v : GReg} {r : R α} (h : EOk p r) : EOk p (wrap50 t v r) := by
  unfold wrap50
  split
  · exact fault50_keeps (inv_error h)
  · exact h

theorem stackBlock_keeps : ∀ (s : State) (t : Tid) (k : ℕ),
  Inv s →
    EOk
      (fun (a : Option (List GReg) × ℕ × State) => Inv a.2.2)
      (stackBlock s t k) := by
  intros
  unfold stackBlock
  repeat' first
    | with_reducible assumption
    | intro _
    | (extract_lets +onlyGivenNames x; clear_value x)
    | extract_lets +onlyGivenNames x
    | with_reducible apply guardCap_keeps
    | with_reducible apply loadGranules_keeps
    | with_reducible apply eOk_bindA

theorem reinstate_keeps : ∀ (s : State) (t : Tid) (b : List GReg),
  Inv s → Inv (reinstate s t b) := by
  intros
  unfold reinstate
  repeat' first
    | with_reducible assumption
    | (extract_lets +onlyGivenNames x; clear_value x)
    | with_reducible apply updT_keeps

theorem followLinks_keeps : ∀ (t : Tid) (a a_1 : ℕ) (a_2 : State),
  Inv a_2 →
    EOk (fun (a : Bool × ℕ × State) => Inv a.2.2)
      (followLinks t a a_1 a_2) := by
  intro a0 a1 a2 a3
  fun_induction followLinks a0 a1 a2 a3 <;> intros
  all_goals repeat' first
    | with_reducible assumption
    | extract_lets +onlyGivenNames x
    | with_reducible apply fault50_keeps
    | with_reducible apply wrap50_keeps
    | with_reducible apply stackBlock_keeps
    | with_reducible apply reinstate_keeps
    | with_reducible apply eOk_ok
    | with_reducible apply eOk_error
    | refine inv_okT (by with_reducible assumption) ?_
    | refine inv_errT (by with_reducible assumption) ?_
    | with_reducible apply_assumption -exfalso -symm

theorem fillRead_keeps : ∀ (s : State) (t : Tid),
  Inv s →
    EOk (fun (a : Bool × State) => Inv a.2)
      (fillRead s t) := by
  intros
  unfold fillRead
  repeat' first
    | with_reducible assumption
    | intro _
    | (extract_lets +onlyGivenNames x; refine (fun (_ : ∀ s, Inv s → Inv (x s)) => ?_) ?_; clear_value x; rotate_left; subst x)
    | (extract_lets +onlyGivenNames x; clear_value x)
    | extract_lets +onlyGivenNames x
    | with_reducible apply followLinks_keeps
    | with_reducible apply updT_keeps
    | with_reducible apply wrap50_keeps
    | with_reducible apply stackBlock_keeps
    | split
    | with_reducible apply eOk_ok
    | with_reducible apply eOk_bindT
    | refine inv_pairT (by with_reducible assumption) ?_
    | dsimp -zeta only
    | with_reducible apply_assumption -exfalso -symm

theorem fillOne_keeps : ∀ (s : State) (t : Tid),
  Inv s →
    EOk (fun (a : Bool × State) => Inv a.2)
      (fillOne s t) := by
  intros
  unfold fillOne
  repeat' first
    | with_reducible assumption
    | extract_lets +onlyGivenNames x
    | with_reducible apply fillRead_keeps
    | with_reducible apply updT_keeps
    | split
    | with_reducible apply eOk_ok
    | with_reducible apply eOk_error
    | refine inv_okP (by with_reducible assumption) ?_
    | refine inv_errP (by with_reducible assumption) ?_

theorem fillForReturn_keeps : ∀ (s : State) (t : Tid),
  Inv s → EOk Inv (fillForReturn s t) := by
  intros
  unfold fillForReturn
  repeat' first
    | with_reducible assumption
    | intro _
    | extract_lets +onlyGivenNames x
    | with_reducible apply fillOne_keeps
    | split
    | with_reducible apply eOk_ok
    | with_reducible apply eOk_error
    | with_reducible apply eOk_bindP
    | refine inv_pairP (by with_reducible assumption) ?_

theorem spillOthers_keeps : ∀ (a : ℕ) (a_1 : State) (a_2 : Tid),
  Inv a_1 → EOk Inv (spillOthers a a_1 a_2) := by
  intro a0 a1 a2
  fun_induction spillOthers a0 a1 a2 <;> intros
  all_goals repeat' first
    | with_reducible assumption
    | extract_lets +onlyGivenNames x
    | with_reducible apply spillOne_keeps
    | with_reducible apply fault50_keeps
    | with_reducible apply spillBlocked_keeps
    | with_reducible apply eOk_ok
    | refine inv_okS (by with_reducible assumption) ?_
    | refine inv_errS (by with_reducible assumption) ?_
    | with_reducible apply_assumption -exfalso -symm

theorem replaceWstack_keeps : ∀ (s : State) (t : Tid) (v : GReg),
  Inv s → EOk Inv (replaceWstack s t v) := by
  intros
  unfold replaceWstack
  repeat' first
    | with_reducible assumption
    | intro _
    | (extract_lets +onlyGivenNames x; clear_value x)
    | extract_lets +onlyGivenNames x
    | with_reducible apply spillOthers_keeps
    | with_reducible apply guardCap_keeps
    | with_reducible apply storeGranules_keeps
    | with_reducible apply updT_keeps
    | with_reducible apply dropFill_keeps
    | split
    | with_reducible apply eOk_ok
    | with_reducible apply eOk_error
    | with_reducible apply eOk_bindS
    | with_reducible apply eOk_bindA
    | refine inv_okS (by with_reducible assumption) ?_
    | refine inv_errS (by with_reducible assumption) ?_

theorem startClear_keeps : ∀ (s : State) (t : Tid),
  Inv s → Inv (startClear s t) := by
  intros
  unfold startClear
  repeat' first
    | with_reducible assumption
    | intro _
    | (extract_lets +onlyGivenNames x; refine (fun (_ : Inv x) => ?_) ?_; clear_value x; rotate_left; subst x)
    | extract_lets +onlyGivenNames x
    | with_reducible apply updC_keeps
    | with_reducible apply updT_keeps
    | with_reducible apply pmEvent_keeps
    | with_reducible apply State.putR_keeps
    | with_reducible apply inv_foldl

theorem clearWhen_keeps : ∀ (s : State) (t : Tid) (b : Bool),
  Inv s → Inv (clearWhen s t b) := by
  intros
  unfold clearWhen
  repeat' first
    | with_reducible assumption
    | with_reducible apply startClear_keeps
    | split

theorem putRoot_keeps : ∀ (s : State) (t : Tid) (second : Bool) (v : Word),
  Inv s → Inv (putRoot s t second v) := by
  intros
  unfold putRoot
  repeat' first
    | with_reducible assumption
    | extract_lets +onlyGivenNames x
    | with_reducible apply startClear_keeps
    | with_reducible apply State.putR_keeps

theorem takeRoots_keeps : ∀ (s : State) (t : Tid),
  Inv s → Inv (takeRoots s t) := by
  intros
  unfold takeRoots
  repeat' first
    | with_reducible assumption
    | intro _
    | extract_lets +onlyGivenNames x
    | with_reducible apply putRoot_keeps
    | with_reducible apply updT_keeps
    | with_reducible apply inv_foldl

theorem stopThread_keeps : ∀ (s : State) (t : Tid) (cause reason : ℕ) (vector : Option ℕ),
  Inv s → Inv (stopThread s t cause reason vector) := by
  intros
  unfold stopThread
  repeat' first
    | with_reducible assumption
    | (extract_lets +onlyGivenNames x; refine (fun (_ : Inv x) => ?_) ?_; clear_value x; rotate_left; subst x)
    | (extract_lets +onlyGivenNames x; clear_value x)
    | extract_lets +onlyGivenNames x
    | with_reducible apply updT_keeps
    | with_reducible apply State.putR_keeps
    | with_reducible apply State.putF_keeps
    | with_reducible apply notify_keeps
    | with_reducible apply logRecord_keeps
    | split

theorem enter_keeps : ∀ (s : State) (t : Tid) (e : Entry),
  Inv s → Inv (enter s t e) := by
  intros
  unfold enter
  repeat' first
    | with_reducible assumption
    | (extract_lets +onlyGivenNames x; refine (fun (_ : Inv x) => ?_) ?_; clear_value x; rotate_left; subst x)
    | (extract_lets +onlyGivenNames x; clear_value x)
    | extract_lets +onlyGivenNames x
    | with_reducible apply spillEngine_keeps
    | with_reducible apply updT_keeps
    | with_reducible apply stopThread_keeps
    | with_reducible apply storeFrame_keeps
    | with_reducible apply deeper_keeps
    | with_reducible apply State.putF_keeps
    | with_reducible apply pmEvent_keeps
    | with_reducible apply clearWhen_keeps
    | split
    | refine inv_pairQ (by with_reducible assumption) ?_

theorem reportExcs_keeps : ∀ (s : State) (t : Tid),
  Inv s → Inv (reportExcs s t) := by
  intros
  unfold reportExcs
  repeat' first
    | with_reducible assumption
    | (extract_lets +onlyGivenNames x; refine (fun (_ : Inv x) => ?_) ?_; clear_value x; rotate_left; subst x)
    | (extract_lets +onlyGivenNames x; clear_value x)
    | extract_lets +onlyGivenNames x
    | with_reducible apply updT_keeps
    | with_reducible apply enter_keeps
    | split

theorem raise_keeps : ∀ (s : State) (t : Tid) (words : List (BitVec 32)) (f : Flt),
  Inv s → Inv (raise s t words f) := by
  intros
  unfold raise
  repeat' first
    | with_reducible assumption
    | extract_lets +onlyGivenNames x
    | with_reducible apply takeRoots_keeps
    | with_reducible apply updT_keeps

theorem fetchWord_keeps : ∀ (s : State) (t : Tid) (v : GReg) (a : Word),
  Inv s →
    EOk (fun (a : Xl × State) => Inv a.2)
      (fetchWord s t v a) := by
  intros
  unfold fetchWord
  repeat' first
    | with_reducible assumption
    | intro _
    | extract_lets +onlyGivenNames x
    | with_reducible apply translate_keeps
    | with_reducible apply faultAt_keeps
    | with_reducible apply dropXlat_keeps
    | split
    | with_reducible apply eOk_ok
    | with_reducible apply eOk_bindP
    | refine inv_pairP (by with_reducible assumption) ?_

theorem readWords_keeps : ∀ (t : Tid) (v : GReg) (a : List (Word × Xl)) (a_1 : ℕ)
  (a_2 : State),
  Inv a_2 → EOk Inv (readWords t v a a_1 a_2) := by
  intro a0 a1 a2 a3 a4
  fun_induction readWords a0 a1 a2 a3 a4 <;> intros
  all_goals repeat' first
    | with_reducible assumption
    | extract_lets +onlyGivenNames x
    | with_reducible apply updT_keeps
    | with_reducible apply hostRead_keeps
    | with_reducible apply memRead_keeps
    | with_reducible apply touch_keeps
    | with_reducible apply missEvents_keeps
    | with_reducible apply eOk_ok
    | with_reducible apply eOk_error
    | refine inv_okP (by with_reducible assumption) ?_
    | refine inv_errP (by with_reducible assumption) ?_
    | refine inv_errA (by with_reducible assumption) ?_
    | with_reducible apply_assumption -exfalso -symm

theorem fetchCheck_keeps : ∀ (s : State) (t : Tid) (n : ℕ),
  Inv s → EOk Inv (fetchCheck s t n) := by
  intros
  unfold fetchCheck
  repeat' first
    | with_reducible assumption
    | with_reducible apply allKeep_map
    | intro _
    | (extract_lets +onlyGivenNames x; clear_value x)
    | extract_lets +onlyGivenNames x
    | with_reducible apply guardCap_keeps
    | with_reducible apply reachAll_keeps
    | with_reducible apply fetchWord_keeps
    | with_reducible apply readWords_keeps
    | split
    | with_reducible apply eOk_ok
    | with_reducible apply eOk_bindP
    | with_reducible apply eOk_bindA
    | refine inv_pairP (by with_reducible assumption) ?_

theorem retire_keeps : ∀ (s : State) (t : Tid) (pc : Word),
  Inv s → Inv (retire s t pc) := by
  intros
  unfold retire
  repeat' first
    | with_reducible assumption
    | (extract_lets +onlyGivenNames x; refine (fun (_ : Inv x) => ?_) ?_; clear_value x; rotate_left; subst x)
    | extract_lets +onlyGivenNames x
    | with_reducible apply updC_keeps
    | with_reducible apply takeRoots_keeps
    | with_reducible apply pmEvent_keeps
    | with_reducible apply updT_keeps

theorem instrIf_keeps : ∀ (ok : Bool) (s : State) (t : Tid) (words : List (BitVec 32))
  (body : State → R State),
  Inv s →
    (∀ (a : State),
        Inv a → EOk Inv (body a)) →
      Inv (instrIf ok s t words body) := by
  intros
  unfold instrIf
  repeat' first
    | with_reducible assumption
    | intro _
    | (extract_lets +onlyGivenNames x; clear_value x)
    | extract_lets +onlyGivenNames x
    | with_reducible apply reportExcs_keeps
    | with_reducible apply mismatch_keeps
    | with_reducible apply fetchCheck_keeps
    | with_reducible apply updT_keeps
    | with_reducible apply retire_keeps
    | with_reducible apply checkRetired_keeps
    | with_reducible apply raise_keeps
    | split
    | with_reducible apply eOk_ok
    | with_reducible apply eOk_bindS
    | refine inv_okS (by with_reducible assumption) ?_
    | refine inv_errS (by with_reducible assumption) ?_
    | with_reducible apply_assumption -exfalso -symm

theorem instr_keeps : ∀ (s : State) (t : Tid) (words : List (BitVec 32))
  (body : State → R State),
  Inv s →
    (∀ (a : State),
        Inv a → EOk Inv (body a)) →
      Inv (instr s t words body) := by
  intros
  unfold instr
  repeat' first
    | with_reducible assumption
    | with_reducible apply instrIf_keeps

theorem stepPc_keeps : ∀ (s : State) (t : Tid) (n : ℕ),
  Inv s → Inv (stepPc s t n) := by
  intros
  unfold stepPc
  repeat' first
    | with_reducible assumption
    | with_reducible apply updT_keeps

theorem thenNext_keeps : ∀ (t : Tid) (words : List (BitVec 32))
  (body : State → R State) (s1 : State),
  (∀ (a : State), Inv a → EOk Inv (body a)) →
    Inv s1 →
      EOk Inv (thenNext t words body s1) := by
  intros
  unfold thenNext
  repeat' first
    | with_reducible assumption
    | intro _
    | extract_lets +onlyGivenNames x
    | with_reducible apply stepPc_keeps
    | split
    | with_reducible apply eOk_ok
    | with_reducible apply eOk_bindS
    | with_reducible apply_assumption -exfalso -symm

theorem instrNext_keeps : ∀ (s : State) (t : Tid) (words : List (BitVec 32))
  (body : State → R State),
  Inv s →
    (∀ (a : State),
        Inv a → EOk Inv (body a)) →
      OutOk (instrNext s t words body) := by
  intros
  unfold instrNext
  repeat' first
    | with_reducible assumption
    | intro _
    | extract_lets +onlyGivenNames x
    | with_reducible apply instr_keeps
    | with_reducible apply thenNext_keeps
    | with_reducible apply outOk_next

theorem instrJump_keeps : ∀ (s : State) (t : Tid) (words : List (BitVec 32))
  (body : State → R State),
  Inv s →
    (∀ (a : State),
        Inv a → EOk Inv (body a)) →
      OutOk (instrJump s t words body) := by
  intros
  unfold instrJump
  repeat' first
    | with_reducible assumption
    | extract_lets +onlyGivenNames x
    | with_reducible apply instr_keeps
    | with_reducible apply outOk_next

theorem atReportPoint_keeps : ∀ (s : State) (t : Tid)
  (run :
    State → Host.Outcome State Fault Refusal),
  Inv s →
    (∀ (a : State), Inv a → OutOk (run a)) →
      OutOk (atReportPoint s t run) := by
  intros
  unfold atReportPoint
  repeat' first
    | with_reducible assumption
    | (extract_lets +onlyGivenNames x; refine (fun (_ : Inv x) => ?_) ?_; clear_value x; rotate_left; subst x)
    | extract_lets +onlyGivenNames x
    | with_reducible apply updT_keeps
    | with_reducible apply reportExcs_keeps
    | split
    | with_reducible apply outOk_next
    | with_reducible apply_assumption -exfalso -symm

end Sys2Proof.Machine
end

