-- ==== Sys2Proof/Laws/KeepsSpec.lean ====
section
/-! SUPPORT. The invariant under the definitions of Machine/Spec.lean. -/

namespace Sys2Proof.Machine

set_option linter.all false

theorem execMispredictRecovery_keeps : ∀ (m : Mispredict) (s : State),
  Inv s → OutOk (execMispredictRecovery m s) := by
  intros
  unfold execMispredictRecovery
  repeat' first
    | with_reducible assumption
    | (extract_lets +onlyGivenNames x; refine (fun (_ : Inv x) => ?_) ?_; clear_value x; rotate_left; subst x)
    | (extract_lets +onlyGivenNames x; clear_value x)
    | extract_lets +onlyGivenNames x
    | with_reducible apply updC_keeps
    | with_reducible apply pmEvent_keeps
    | with_reducible apply updT_keeps
    | split
    | with_reducible apply outOk_next

theorem clearPredictors_keeps : ∀ (s : State) (t : Tid),
  Inv s → Inv (clearPredictors s t) := by
  intros
  unfold clearPredictors
  repeat' first
    | with_reducible assumption
    | intro _
    | (extract_lets +onlyGivenNames x; refine (fun (_ : Inv x) => ?_) ?_; clear_value x; rotate_left; subst x)
    | extract_lets +onlyGivenNames x
    | with_reducible apply updT_keeps
    | with_reducible apply updC_keeps
    | with_reducible apply inv_foldl

theorem execBulkClear_keeps : ∀ (t : Tid) (s : State),
  Inv s → OutOk (execBulkClear t s) := by
  intros
  unfold execBulkClear
  repeat' first
    | with_reducible assumption
    | extract_lets +onlyGivenNames x
    | with_reducible apply clearPredictors_keeps
    | split
    | with_reducible apply outOk_next

theorem execBulkClearDone_keeps : ∀ (t : Tid) (s : State),
  Inv s → OutOk (execBulkClearDone t s) := by
  intros
  unfold execBulkClearDone
  repeat' first
    | with_reducible assumption
    | intro _
    | (extract_lets +onlyGivenNames x; refine (fun (_ : Inv x) => ?_) ?_; clear_value x; rotate_left; subst x)
    | extract_lets +onlyGivenNames x
    | with_reducible apply updT_keeps
    | with_reducible apply updC_keeps
    | split
    | with_reducible apply outOk_next
    | with_reducible apply inv_foldl

theorem writePredCtrl_keeps : ∀ (s : State) (t : Tid) (v : Word),
  Inv s → Inv (writePredCtrl s t v) := by
  intros
  unfold writePredCtrl
  repeat' first
    | with_reducible assumption
    | (extract_lets +onlyGivenNames x; refine (fun (_ : Inv x) => ?_) ?_; clear_value x; rotate_left; subst x)
    | (extract_lets +onlyGivenNames x; clear_value x)
    | with_reducible apply State.putR_keeps
    | with_reducible apply clearWhen_keeps

theorem execPredClearWrite_keeps : ∀ (r : Requester) (t : Tid) (v : Word) (s : State),
  Inv s → OutOk (execPredClearWrite r t v s) := by
  intros
  unfold execPredClearWrite
  repeat' first
    | with_reducible assumption
    | extract_lets +onlyGivenNames x
    | with_reducible apply writePredCtrl_keeps
    | split
    | with_reducible apply outOk_next

theorem writeRoot_keeps : ∀ (s : State) (t : Tid) (second : Bool) (v : Word),
  Inv s → Inv (writeRoot s t second v) := by
  intros
  unfold writeRoot
  repeat' first
    | with_reducible assumption
    | (extract_lets +onlyGivenNames x; clear_value x)
    | with_reducible apply updT_keeps
    | with_reducible apply putRoot_keeps
    | split

theorem execRootWrite_keeps : ∀ (r : Requester) (t : Tid) (second : Bool) (v : Word) (s : State),
  Inv s → OutOk (execRootWrite r t second v s) := by
  intros
  unfold execRootWrite
  repeat' first
    | with_reducible assumption
    | extract_lets +onlyGivenNames x
    | with_reducible apply writeRoot_keeps
    | split
    | with_reducible apply outOk_next

theorem train_keeps : ∀ (s : State) (k : ℕ) (world : Bool) (x : Xl),
  Inv s → Inv (train s k world x) := by
  intros
  unfold train
  repeat' first
    | with_reducible assumption
    | with_reducible apply updC_keeps
    | split

theorem execHardwarePrefetch_keeps : ∀ (t : Tid) (va : Word) (s : State),
  Inv s → OutOk (execHardwarePrefetch t va s) := by
  intros
  unfold execHardwarePrefetch
  repeat' first
    | with_reducible assumption
    | (extract_lets +onlyGivenNames x; clear_value x)
    | extract_lets +onlyGivenNames x
    | with_reducible apply prefetchAt_keeps
    | split
    | with_reducible apply outOk_next

theorem execPageWalk_keeps : ∀ (t : Tid) (va : Word) (s : State),
  Inv s → OutOk (execPageWalk t va s) := by
  intros
  unfold execPageWalk
  repeat' first
    | with_reducible assumption
    | extract_lets +onlyGivenNames x
    | with_reducible apply xlate_keeps
    | split
    | with_reducible apply outOk_next
    | refine inv_okP (by with_reducible assumption) ?_

theorem execStoreRelease_keeps : ∀ (t : Tid) (k : ℕ) (s : State),
  Inv s → OutOk (execStoreRelease t k s) := by
  intros
  unfold execStoreRelease
  repeat' first
    | with_reducible assumption
    | (extract_lets +onlyGivenNames x; clear_value x)
    | extract_lets +onlyGivenNames x
    | with_reducible apply performStore_keeps
    | with_reducible apply setStores_keeps
    | split
    | with_reducible apply outOk_next

end Sys2Proof.Machine
end

