-- ==== Sys2Proof/Laws/KeepsTrusted.lean ====
section
/-! SUPPORT. The invariant under the definitions of Machine/Trusted.lean. -/

namespace Sys2Proof.Machine

set_option linter.all false

theorem startThread_keeps : ∀ (s : State) (t : Tid) (c : StartCaps)
  (regs : SMap GReg),
  Inv s → Inv (startThread s t c regs) := by
  intros
  unfold startThread
  repeat' first
    | with_reducible assumption
    | (extract_lets +onlyGivenNames x; refine (fun (_ : Inv x) => ?_) ?_; clear_value x; rotate_left; subst x)
    | (extract_lets +onlyGivenNames x; clear_value x)
    | extract_lets +onlyGivenNames x
    | with_reducible apply putT_keeps
    | with_reducible apply State.putF_keeps

theorem bootThread_keeps : ∀ (s : State) (t : Tid) (c : StartCaps) (world roots : Bool),
  Inv s → Inv (bootThread s t c world roots) := by
  intros
  unfold bootThread
  repeat' first
    | with_reducible assumption
    | (extract_lets +onlyGivenNames x; refine (fun (_ : Inv x) => ?_) ?_; clear_value x; rotate_left; subst x)
    | (extract_lets +onlyGivenNames x; clear_value x)
    | extract_lets +onlyGivenNames x
    | with_reducible apply startThread_keeps
    | with_reducible apply State.putR_keeps

theorem sw_keeps : ∀ (s : State) (f : Fld) (n : ℕ),
  Inv s → Inv (sw s f n) := by
  intros
  unfold sw
  repeat' first
    | with_reducible assumption
    | with_reducible apply State.putF_keeps

theorem switchStops_keeps : ∀ (s : State) (v : ℕ),
  Inv s → Inv (switchStops s v) := by
  intros
  unfold switchStops
  repeat' first
    | with_reducible assumption
    | intro _
    | (extract_lets +onlyGivenNames x; refine (fun (_ : Inv x) => ?_) ?_; clear_value x; rotate_left; subst x)
    | extract_lets +onlyGivenNames x
    | with_reducible apply updT_keeps
    | with_reducible apply State.putR_keeps
    | with_reducible apply inv_foldl

theorem writeWorldCmd_keeps : ∀ (s : State) (r : Requester) (v : Word),
  Inv s → Inv (writeWorldCmd s r v) := by
  intros
  unfold writeWorldCmd
  repeat' first
    | with_reducible assumption
    | intro _
    | (extract_lets +onlyGivenNames x; refine (fun (_ : Inv x) => ?_) ?_; clear_value x; rotate_left; subst x)
    | (extract_lets +onlyGivenNames x; refine (fun (_ : ∀ s, Inv s → Inv (x s)) => ?_) ?_; clear_value x; rotate_left; subst x)
    | (extract_lets +onlyGivenNames x; clear_value x)
    | extract_lets +onlyGivenNames x
    | with_reducible apply sw_keeps
    | with_reducible apply switchStops_keeps
    | split
    | with_reducible apply inv_foldl
    | fail_if_no_progress with_reducible apply inv_mk
    | with_reducible apply_assumption -exfalso -symm

theorem execWorldSwitch_keeps : ∀ (r : Requester) (v : Word) (s : State),
  Inv s → OutOk (execWorldSwitch r v s) := by
  intros
  unfold execWorldSwitch
  repeat' first
    | with_reducible assumption
    | extract_lets +onlyGivenNames x
    | with_reducible apply writeWorldCmd_keeps
    | split
    | with_reducible apply outOk_next

theorem sheafTrusted_keeps : ∀ (s : State) (h : ℕ),
  Inv s → Inv (sheafTrusted s h) := by
  intros
  unfold sheafTrusted
  repeat' first
    | with_reducible assumption
    | with_reducible apply State.putB_keeps

theorem clearThread_keeps : ∀ (s : State) (n : ℕ),
  Inv s → Inv (clearThread s n) := by
  intros
  unfold clearThread
  repeat' first
    | with_reducible assumption
    | intro _
    | (extract_lets +onlyGivenNames x; refine (fun (_ : Inv x) => ?_) ?_; clear_value x; rotate_left; subst x)
    | (extract_lets +onlyGivenNames x; clear_value x)
    | extract_lets +onlyGivenNames x
    | with_reducible apply putT_keeps
    | with_reducible apply State.putR_keeps
    | with_reducible apply inv_foldl

theorem resetBlock_keeps : ∀ (s : State) (u : ℕ),
  Inv s → Inv (resetBlock s u) := by
  intros
  unfold resetBlock
  repeat' first
    | with_reducible assumption
    | intro _
    | extract_lets +onlyGivenNames x
    | with_reducible apply State.resetR_keeps
    | with_reducible apply inv_foldl

theorem execWorldSwitchDone_keeps : ∀ (s : State),
  Inv s → OutOk (execWorldSwitchDone s) := by
  intros
  unfold execWorldSwitchDone
  repeat' first
    | with_reducible assumption
    | intro _
    | (extract_lets +onlyGivenNames x; refine (fun (_ : Inv x) => ?_) ?_; clear_value x; rotate_left; subst x)
    | (extract_lets +onlyGivenNames x; clear_value x)
    | extract_lets +onlyGivenNames x
    | with_reducible apply dropFill_keeps
    | with_reducible apply drainAll_keeps
    | with_reducible apply emptyCaches_keeps
    | with_reducible apply clearPredictors_keeps
    | with_reducible apply startClear_keeps
    | with_reducible apply updC_keeps
    | with_reducible apply clearThread_keeps
    | with_reducible apply resetBlock_keeps
    | with_reducible apply State.putB_keeps
    | with_reducible apply sheafTrusted_keeps
    | with_reducible apply sw_keeps
    | with_reducible apply sendIrq_keeps
    | split
    | with_reducible apply outOk_next
    | with_reducible apply inv_foldl
    | fail_if_no_progress with_reducible apply inv_mk

theorem execHeartbeat_keeps : ∀ (r : Requester) (_v : Word) (s : State),
  Inv s → OutOk (execHeartbeat r _v s) := by
  intros
  unfold execHeartbeat
  repeat' first
    | with_reducible assumption
    | (extract_lets +onlyGivenNames x; clear_value x)
    | extract_lets +onlyGivenNames x
    | split
    | with_reducible apply outOk_next
    | fail_if_no_progress with_reducible apply inv_mk

theorem contain_keeps : ∀ (s : State) (ts : List ℕ),
  Inv s → Inv (contain s ts) := by
  intros
  unfold contain
  repeat' first
    | with_reducible assumption
    | intro _
    | (extract_lets +onlyGivenNames x; refine (fun (_ : Inv x) => ?_) ?_; clear_value x; rotate_left; subst x)
    | extract_lets +onlyGivenNames x
    | with_reducible apply failWord_keeps
    | with_reducible apply State.putB_keeps
    | with_reducible apply updT_keeps
    | split
    | with_reducible apply inv_foldl

theorem twRecord_keeps : ∀ (s : State) (event : ℕ),
  Inv s → Inv (twRecord s event) := by
  intros
  unfold twRecord
  repeat' first
    | with_reducible assumption
    | with_reducible apply logRecord_keeps

theorem takeover_keeps : ∀ (s : State), Inv s → Inv (takeover s) := by
  intros
  unfold takeover
  repeat' first
    | with_reducible assumption
    | (extract_lets +onlyGivenNames x; refine (fun (_ : Inv x) => ?_) ?_; clear_value x; rotate_left; subst x)
    | (extract_lets +onlyGivenNames x; clear_value x)
    | extract_lets +onlyGivenNames x
    | with_reducible apply contain_keeps
    | with_reducible apply State.putR_keeps
    | with_reducible apply sendIrq_keeps
    | with_reducible apply configEval_keeps
    | with_reducible apply twRecord_keeps
    | with_reducible apply State.putF_keeps
    | split
    | fail_if_no_progress with_reducible apply inv_mk

theorem execTrustedGroupFailure_keeps : ∀ (s : State),
  Inv s → OutOk (execTrustedGroupFailure s) := by
  intros
  unfold execTrustedGroupFailure
  repeat' first
    | with_reducible assumption
    | extract_lets +onlyGivenNames x
    | with_reducible apply takeover_keeps
    | with_reducible apply configEval_keeps
    | with_reducible apply State.putF_keeps
    | with_reducible apply contain_keeps
    | split
    | with_reducible apply outOk_next

theorem moveNumber_keeps : ∀ (s : State) (v c : ℕ),
  Inv s → Inv (moveNumber s v c) := by
  intros
  unfold moveNumber
  repeat' first
    | with_reducible assumption
    | (extract_lets +onlyGivenNames x; clear_value x)
    | with_reducible apply State.putR_keeps

theorem adoptReserve_keeps : ∀ (s : State) (ts : List ℕ),
  Inv s → Inv (adoptReserve s ts) := by
  intros
  unfold adoptReserve
  repeat' first
    | with_reducible assumption
    | intro _
    | (extract_lets +onlyGivenNames x; refine (fun (_ : Inv x) => ?_) ?_; clear_value x; rotate_left; subst x)
    | extract_lets +onlyGivenNames x
    | with_reducible apply State.putF_keeps
    | with_reducible apply setUnit_keeps
    | with_reducible apply moveNumber_keeps
    | with_reducible apply sheafTrusted_keeps
    | split
    | with_reducible apply inv_foldl

theorem execGroupRestart_keeps : ∀ (s : State),
  Inv s → OutOk (execGroupRestart s) := by
  intros
  unfold execGroupRestart
  repeat' first
    | with_reducible assumption
    | intro _
    | (extract_lets +onlyGivenNames x; refine (fun (_ : Inv x) => ?_) ?_; clear_value x; rotate_left; subst x)
    | (extract_lets +onlyGivenNames x; clear_value x)
    | extract_lets +onlyGivenNames x
    | with_reducible apply emptyCaches_keeps
    | with_reducible apply l3Out_keeps
    | with_reducible apply setUnit_keeps
    | with_reducible apply withdrawUnit_keeps
    | with_reducible apply adoptReserve_keeps
    | with_reducible apply State.putR_keeps
    | with_reducible apply configEval_keeps
    | with_reducible apply twRecord_keeps
    | split
    | with_reducible apply outOk_next
    | with_reducible apply inv_foldl
    | fail_if_no_progress with_reducible apply inv_mk

theorem startGroup_keeps : ∀ (s : State) (ts : List ℕ) (roots : Bool),
  Inv s → Inv (startGroup s ts roots) := by
  intros
  unfold startGroup
  repeat' first
    | with_reducible assumption
    | with_reducible apply bootThread_keeps
    | split

theorem execGroupRestartDone_keeps : ∀ (s : State),
  Inv s → OutOk (execGroupRestartDone s) := by
  intros
  unfold execGroupRestartDone
  repeat' first
    | with_reducible assumption
    | intro _
    | (extract_lets +onlyGivenNames x; refine (fun (_ : Inv x) => ?_) ?_; clear_value x; rotate_left; subst x)
    | (extract_lets +onlyGivenNames x; clear_value x)
    | extract_lets +onlyGivenNames x
    | with_reducible apply homeWrite_keeps
    | with_reducible apply measExtend_keeps
    | with_reducible apply startDone_keeps
    | with_reducible apply State.putF_keeps
    | with_reducible apply configEval_keeps
    | with_reducible apply twRecord_keeps
    | with_reducible apply startGroup_keeps
    | split
    | with_reducible apply outOk_next
    | with_reducible apply inv_foldl
    | fail_if_no_progress with_reducible apply inv_mk

theorem writeMeasExt_keeps : ∀ (s : State) (k : ℕ),
  Inv s → Inv (writeMeasExt s k) := by
  intros
  unfold writeMeasExt
  repeat' first
    | with_reducible assumption
    | with_reducible apply measExtend_keeps
    | split

theorem execMeasurementExtend_keeps : ∀ (r : Requester) (v : Word) (s : State),
  Inv s → OutOk (execMeasurementExtend r v s) := by
  intros
  unfold execMeasurementExtend
  repeat' first
    | with_reducible assumption
    | extract_lets +onlyGivenNames x
    | with_reducible apply writeMeasExt_keeps
    | split
    | with_reducible apply outOk_next

theorem slotRefuse_keeps : ∀ (s : State), Inv s → Inv (slotRefuse s) := by
  intros
  unfold slotRefuse
  repeat' first
    | with_reducible assumption
    | with_reducible apply State.putB_keeps

theorem setSlot_keeps : ∀ (s : State) (n : ℕ) (x : Option Slot),
  Inv s → Inv (setSlot s n x) := by
  intros
  unfold setSlot
  repeat' first
    | with_reducible assumption
    | (extract_lets +onlyGivenNames x; refine (fun (_ : Inv x) => ?_) ?_; clear_value x; rotate_left; subst x)
    | (extract_lets +onlyGivenNames x; clear_value x)
    | with_reducible apply homeWrite_keeps
    | split
    | fail_if_no_progress with_reducible apply inv_mk

theorem slotEffect_keeps : ∀ (s : State) (op n t usage : ℕ),
  Inv s → MOk Inv (slotEffect s op n t usage) := by
  intros
  unfold slotEffect
  repeat' first
    | with_reducible assumption
    | intro _
    | (extract_lets +onlyGivenNames x; refine (fun (_ : Inv x) => ?_) ?_; clear_value x; rotate_left; subst x)
    | (extract_lets +onlyGivenNames x; clear_value x)
    | extract_lets +onlyGivenNames x
    | with_reducible apply setSlot_keeps
    | with_reducible apply homeWrite_keeps
    | split
    | with_reducible apply mOk_some
    | with_reducible exact mOk_none
    | with_reducible apply mOk_bind
    | fail_if_no_progress with_reducible apply inv_mk

theorem writeSlotCmd_keeps : ∀ (s : State) (v : Word),
  Inv s → Inv (writeSlotCmd s v) := by
  intros
  unfold writeSlotCmd
  repeat' first
    | with_reducible assumption
    | intro _
    | (extract_lets +onlyGivenNames x; refine (fun (_ : Inv x) => ?_) ?_; clear_value x; rotate_left; subst x)
    | (extract_lets +onlyGivenNames x; clear_value x)
    | extract_lets +onlyGivenNames x
    | with_reducible apply State.putB_keeps
    | with_reducible apply slotRefuse_keeps
    | with_reducible apply State.putF_keeps
    | with_reducible apply slotEffect_keeps
    | split
    | with_reducible apply inv_foldl
    | with_reducible apply inv_getD
    | fail_if_no_progress with_reducible apply inv_mk

theorem slotCommand_keeps : ∀ (s : State) (r : Requester) (op : ℕ) (v : Word),
  Inv s → Inv (slotCommand s r op v) := by
  intros
  unfold slotCommand
  repeat' first
    | with_reducible assumption
    | with_reducible apply writeSlotCmd_keeps
    | split

theorem execLoad_keeps : ∀ (r : Requester) (v : Word) (s : State),
  Inv s → OutOk (execLoad r v s) := by
  intros
  unfold execLoad
  repeat' first
    | with_reducible assumption
    | extract_lets +onlyGivenNames x
    | with_reducible apply slotCommand_keeps
    | with_reducible apply outOk_next

theorem execGenerate_keeps : ∀ (r : Requester) (v : Word) (s : State),
  Inv s → OutOk (execGenerate r v s) := by
  intros
  unfold execGenerate
  repeat' first
    | with_reducible assumption
    | extract_lets +onlyGivenNames x
    | with_reducible apply slotCommand_keeps
    | with_reducible apply outOk_next

theorem execClear_keeps : ∀ (r : Requester) (v : Word) (s : State),
  Inv s → OutOk (execClear r v s) := by
  intros
  unfold execClear
  repeat' first
    | with_reducible assumption
    | extract_lets +onlyGivenNames x
    | with_reducible apply slotCommand_keeps
    | with_reducible apply outOk_next

theorem execPublicPart_keeps : ∀ (r : Requester) (v : Word) (s : State),
  Inv s → OutOk (execPublicPart r v s) := by
  intros
  unfold execPublicPart
  repeat' first
    | with_reducible assumption
    | extract_lets +onlyGivenNames x
    | with_reducible apply slotCommand_keeps
    | with_reducible apply outOk_next

theorem execProvision_keeps : ∀ (r : Requester) (v : Word) (s : State),
  Inv s → OutOk (execProvision r v s) := by
  intros
  unfold execProvision
  repeat' first
    | with_reducible assumption
    | extract_lets +onlyGivenNames x
    | with_reducible apply slotCommand_keeps
    | with_reducible apply outOk_next

theorem execTamperDetect_keeps : ∀ (cause : BitVec 8) (s : State),
  Inv s → OutOk (execTamperDetect cause s) := by
  intros
  unfold execTamperDetect
  repeat' first
    | with_reducible assumption
    | extract_lets +onlyGivenNames x
    | with_reducible apply tamper_keeps
    | split
    | with_reducible apply outOk_next

theorem incCounter_keeps : ∀ (s : State) (k : ℕ),
  Inv s → Inv (incCounter s k) := by
  intros
  unfold incCounter
  repeat' first
    | with_reducible assumption
    | (extract_lets +onlyGivenNames x; clear_value x)
    | with_reducible apply State.putR_keeps
    | split

theorem execCounterIncrement_keeps : ∀ (r : Requester) (v : Word) (s : State),
  Inv s → OutOk (execCounterIncrement r v s) := by
  intros
  unfold execCounterIncrement
  repeat' first
    | with_reducible assumption
    | extract_lets +onlyGivenNames x
    | with_reducible apply incCounter_keeps
    | split
    | with_reducible apply outOk_next

end Sys2Proof.Machine
end

