-- ==== Sys2Proof/Laws/KeepsStartup.lean ====
section
/-! SUPPORT. The invariant under the definitions of Machine/Startup.lean. -/

namespace Sys2Proof.Machine

set_option linter.all false

theorem toStage_keeps : ∀ (s : State) (n : ℕ),
  Inv s → Inv (toStage s n) := by
  intros
  unfold toStage
  repeat' first
    | with_reducible assumption
    | with_reducible apply State.putF_keeps

theorem updB_keeps : ∀ (s : State) (f : Board → Board),
  Inv s → Inv (updB s f) := by
  intros
  unfold updB
  repeat' first
    | with_reducible assumption
    | fail_if_no_progress with_reducible apply inv_mk

theorem stopAt_keeps : ∀ (s : State) (n : ℕ),
  Inv s → Inv (stopAt s n) := by
  intros
  unfold stopAt
  repeat' first
    | with_reducible assumption
    | extract_lets +onlyGivenNames x
    | with_reducible apply updB_keeps
    | with_reducible apply State.putF_keeps

theorem powerGood_keeps : ∀ (s : State), Inv s → Inv (powerGood s) := by
  intros
  unfold powerGood
  repeat' first
    | with_reducible assumption
    | (extract_lets +onlyGivenNames x; refine (fun (_ : Inv x) => ?_) ?_; clear_value x; rotate_left; subst x)
    | (extract_lets +onlyGivenNames x; clear_value x)
    | with_reducible apply updB_keeps
    | with_reducible apply tbSet_keeps
    | with_reducible apply State.putF_keeps
    | split
    | fail_if_no_progress with_reducible apply inv_mk

theorem execPowerGoodStandby_keeps : ∀ (s : State),
  Inv s → OutOk (execPowerGoodStandby s) := by
  intros
  unfold execPowerGoodStandby
  repeat' first
    | with_reducible assumption
    | extract_lets +onlyGivenNames x
    | with_reducible apply powerGood_keeps
    | with_reducible apply outOk_next

theorem loadState_keeps : ∀ (s : State) (u : ℕ),
  Inv s → Inv (loadState s u) := by
  intros
  unfold loadState
  repeat' first
    | with_reducible assumption
    | (extract_lets +onlyGivenNames x; clear_value x)
    | extract_lets +onlyGivenNames x
    | with_reducible apply State.putR_keeps

theorem loadFuses_keeps : ∀ (s : State), Inv s → Inv (loadFuses s) := by
  intros
  unfold loadFuses
  repeat' first
    | with_reducible assumption
    | intro _
    | (extract_lets +onlyGivenNames x; refine (fun (_ : Inv x) => ?_) ?_; clear_value x; rotate_left; subst x)
    | extract_lets +onlyGivenNames x
    | with_reducible apply State.putR_keeps
    | with_reducible apply State.putB_keeps
    | with_reducible apply updC_keeps
    | with_reducible apply inv_foldl

theorem execStageS1_keeps : ∀ (s : State), Inv s → OutOk (execStageS1 s) := by
  intros
  unfold execStageS1
  repeat' first
    | with_reducible assumption
    | intro _
    | (extract_lets +onlyGivenNames x; refine (fun (_ : Inv x) => ?_) ?_; clear_value x; rotate_left; subst x)
    | (extract_lets +onlyGivenNames x; clear_value x)
    | extract_lets +onlyGivenNames x
    | with_reducible apply updB_keeps
    | with_reducible apply toStage_keeps
    | with_reducible apply stopAt_keeps
    | with_reducible apply fixGeneral_keeps
    | with_reducible apply loadState_keeps
    | with_reducible apply loadFuses_keeps
    | split
    | with_reducible apply outOk_next
    | with_reducible apply inv_foldl
    | fail_if_no_progress with_reducible apply inv_mk

theorem fixShares_keeps : ∀ (s : State), Inv s → Inv (fixShares s) := by
  intros
  unfold fixShares
  repeat' first
    | with_reducible assumption
    | intro _
    | (extract_lets +onlyGivenNames x; clear_value x)
    | extract_lets +onlyGivenNames x
    | with_reducible apply State.putF_keeps
    | with_reducible apply setupError_keeps
    | split
    | with_reducible apply inv_foldl

theorem applySettings_keeps : ∀ (s : State) (i : Image) (p : ℕ → Bool),
  Inv s → Inv (applySettings s i p) := by
  intros
  unfold applySettings
  repeat' first
    | with_reducible assumption
    | intro _
    | extract_lets +onlyGivenNames x
    | with_reducible apply fixShares_keeps
    | with_reducible apply setReg_keeps
    | with_reducible apply inv_foldl

theorem refuseImages_keeps : ∀ (s : State) (cs : List (Option (Image × Bool))),
  Inv s → Inv (refuseImages s cs) := by
  intros
  unfold refuseImages
  repeat' first
    | with_reducible assumption
    | intro _
    | extract_lets +onlyGivenNames x
    | with_reducible apply setupError_keeps
    | split
    | with_reducible apply inv_foldl

theorem bootCores_keeps : ∀ (s : State) (aOk bOk : Bool),
  Inv s → Inv (bootCores s aOk bOk) := by
  intros
  unfold bootCores
  repeat' first
    | with_reducible assumption
    | (extract_lets +onlyGivenNames x; refine (fun (_ : Inv x) => ?_) ?_; clear_value x; rotate_left; subst x)
    | (extract_lets +onlyGivenNames x; clear_value x)
    | extract_lets +onlyGivenNames x
    | with_reducible apply updG_keeps
    | with_reducible apply showCores_keeps

theorem readTable_keeps : ∀ (s : State), Inv s → Inv (readTable s) := by
  intros
  unfold readTable
  repeat' first
    | with_reducible assumption
    | fail_if_no_progress with_reducible apply inv_mk

theorem oweRecords_keeps : ∀ (s : State), Inv s → Inv (oweRecords s) := by
  intros
  unfold oweRecords
  repeat' first
    | with_reducible assumption
    | (extract_lets +onlyGivenNames x; refine (fun (_ : Inv x) => ?_) ?_; clear_value x; rotate_left; subst x)
    | extract_lets +onlyGivenNames x
    | with_reducible apply setupError_keeps
    | with_reducible apply updB_keeps
    | with_reducible apply tamperRecord_keeps
    | split

theorem runBoot_keeps : ∀ (s : State) (i : Image) (fromB : Bool),
  Inv s → Inv (runBoot s i fromB) := by
  intros
  unfold runBoot
  repeat' first
    | with_reducible assumption
    | intro _
    | (extract_lets +onlyGivenNames x; refine (fun (_ : Inv x) => ?_) ?_; clear_value x; rotate_left; subst x)
    | (extract_lets +onlyGivenNames x; clear_value x)
    | extract_lets +onlyGivenNames x
    | with_reducible apply runImage_keeps
    | with_reducible apply setUnit_keeps
    | with_reducible apply State.putB_keeps
    | with_reducible apply setReg_keeps
    | with_reducible apply measExtend_keeps
    | split
    | with_reducible apply inv_foldl
    | fail_if_no_progress with_reducible apply inv_mk

theorem execStageS2_keeps : ∀ (aOk bOk : Bool) (s : State),
  Inv s → OutOk (execStageS2 aOk bOk s) := by
  intros
  unfold execStageS2
  repeat' first
    | with_reducible assumption
    | (extract_lets +onlyGivenNames x; refine (fun (_ : Inv x) => ?_) ?_; clear_value x; rotate_left; subst x)
    | (extract_lets +onlyGivenNames x; clear_value x)
    | extract_lets +onlyGivenNames x
    | with_reducible apply bootCores_keeps
    | with_reducible apply toStage_keeps
    | with_reducible apply stopAt_keeps
    | with_reducible apply oweRecords_keeps
    | with_reducible apply readTable_keeps
    | with_reducible apply refuseImages_keeps
    | with_reducible apply updateRecord_keeps
    | with_reducible apply runBoot_keeps
    | split
    | with_reducible apply outOk_next

theorem rampDom_keeps : ∀ (s : State) (d : ℕ),
  Inv s → Inv (rampDom s d) := by
  intros
  unfold rampDom
  repeat' first
    | with_reducible assumption
    | (extract_lets +onlyGivenNames x; refine (fun (_ : Inv x) => ?_) ?_; clear_value x; rotate_left; subst x)
    | extract_lets +onlyGivenNames x
    | with_reducible apply updD_keeps
    | with_reducible apply State.putF_keeps
    | split

theorem lockCheckMode_keeps : ∀ (s : State) (h : ℕ),
  Inv s → Inv (lockCheckMode s h) := by
  intros
  unfold lockCheckMode
  repeat' first
    | with_reducible assumption
    | (extract_lets +onlyGivenNames x; refine (fun (_ : Inv x) => ?_) ?_; clear_value x; rotate_left; subst x)
    | (extract_lets +onlyGivenNames x; clear_value x)
    | extract_lets +onlyGivenNames x
    | with_reducible apply setupError_keeps
    | with_reducible apply State.putB_keeps
    | split

theorem fixOctets_keeps : ∀ (a : ℕ) (a_1 : State),
  Inv a_1 → Inv (fixOctets a a_1) := by
  intro a0 a1
  fun_induction fixOctets a0 a1 <;> intros
  all_goals repeat' first
    | with_reducible assumption
    | extract_lets +onlyGivenNames x
    | with_reducible apply setupError_keeps
    | with_reducible apply State.putR_keeps
    | with_reducible apply_assumption -exfalso -symm

theorem lockOctets_keeps : ∀ (s : State), Inv s → Inv (lockOctets s) := by
  intros
  unfold lockOctets
  repeat' first
    | with_reducible assumption
    | intro _
    | (extract_lets +onlyGivenNames x; refine (fun (_ : Inv x) => ?_) ?_; clear_value x; rotate_left; subst x)
    | extract_lets +onlyGivenNames x
    | with_reducible apply State.putF_keeps
    | with_reducible apply State.putB_keeps
    | split
    | with_reducible apply inv_foldl

theorem clearLane_keeps : ∀ (s : State) (l : ℕ),
  Inv s → Inv (clearLane s l) := by
  intros
  unfold clearLane
  repeat' first
    | with_reducible assumption
    | (extract_lets +onlyGivenNames x; clear_value x)
    | extract_lets +onlyGivenNames x
    | with_reducible apply setupError_keeps
    | with_reducible apply State.putF_keeps

theorem setLanes_keeps : ∀ (s : State), Inv s → Inv (setLanes s) := by
  intros
  unfold setLanes
  repeat' first
    | with_reducible assumption
    | intro _
    | (extract_lets +onlyGivenNames x; refine (fun (_ : Inv x) => ?_) ?_; clear_value x; rotate_left; subst x)
    | (extract_lets +onlyGivenNames x; clear_value x)
    | extract_lets +onlyGivenNames x
    | with_reducible apply clearLane_keeps
    | with_reducible apply State.putF_keeps
    | with_reducible apply inv_foldl

theorem defaultRoutes_keeps : ∀ (s : State), Inv s → Inv (defaultRoutes s) := by
  intros
  unfold defaultRoutes
  repeat' first
    | with_reducible assumption
    | intro _
    | (extract_lets +onlyGivenNames x; refine (fun (_ : Inv x) => ?_) ?_; clear_value x; rotate_left; subst x)
    | extract_lets +onlyGivenNames x
    | with_reducible apply State.putR_keeps
    | split
    | with_reducible apply inv_foldl

theorem putMap_keeps : ∀ (s : State) (n i : ℕ),
  Inv s → Inv (putMap s n i) := by
  intros
  unfold putMap
  repeat' first
    | with_reducible assumption
    | with_reducible apply State.putF_keeps

theorem buildMap_keeps : ∀ (s : State), Inv s → Inv (buildMap s) := by
  intros
  unfold buildMap
  repeat' first
    | with_reducible assumption
    | intro _
    | (extract_lets +onlyGivenNames x; refine (fun (_ : Inv x) => ?_) ?_; clear_value x; rotate_left; subst x)
    | extract_lets +onlyGivenNames x
    | with_reducible apply putMap_keeps
    | split
    | with_reducible apply inv_foldl

theorem bootUnit_keeps : ∀ (bad : ℕ → Bool) (s : State) (u : ℕ),
  Inv s → Inv (bootUnit bad s u) := by
  intros
  unfold bootUnit
  repeat' first
    | with_reducible assumption
    | (extract_lets +onlyGivenNames x; refine (fun (_ : Inv x) => ?_) ?_; clear_value x; rotate_left; subst x)
    | with_reducible apply setUnit_keeps
    | split

theorem startUnits_keeps : ∀ (s : State) (doms units : List ℕ),
  Inv s → Inv (startUnits s doms units) := by
  intros
  unfold startUnits
  repeat' first
    | with_reducible assumption
    | intro _
    | (extract_lets +onlyGivenNames x; clear_value x)
    | extract_lets +onlyGivenNames x
    | with_reducible apply bootUnit_keeps
    | with_reducible apply inv_foldl

theorem setS3_keeps : ∀ (s : State) (i : Image),
  Inv s → Inv (setS3 s i) := by
  intros
  unfold setS3
  repeat' first
    | with_reducible assumption
    | intro _
    | (extract_lets +onlyGivenNames x; refine (fun (_ : Inv x) => ?_) ?_; clear_value x; rotate_left; subst x)
    | (extract_lets +onlyGivenNames x; clear_value x)
    | extract_lets +onlyGivenNames x
    | with_reducible apply applySettings_keeps
    | with_reducible apply State.putB_keeps
    | with_reducible apply lockCheckMode_keeps
    | with_reducible apply setReg_keeps
    | with_reducible apply setLanes_keeps
    | with_reducible apply lockOctets_keeps
    | with_reducible apply fixOctets_keeps
    | with_reducible apply State.putF_keeps
    | with_reducible apply inv_foldl

theorem rampAll_keeps : ∀ (s : State) (doms units : List ℕ),
  Inv s → Inv (rampAll s doms units) := by
  intros
  unfold rampAll
  repeat' first
    | with_reducible assumption
    | intro _
    | (extract_lets +onlyGivenNames x; refine (fun (_ : Inv x) => ?_) ?_; clear_value x; rotate_left; subst x)
    | (extract_lets +onlyGivenNames x; clear_value x)
    | extract_lets +onlyGivenNames x
    | with_reducible apply stopAt_keeps
    | with_reducible apply setS3_keeps
    | with_reducible apply rampDom_keeps
    | with_reducible apply startUnits_keeps
    | with_reducible apply buildMap_keeps
    | with_reducible apply defaultRoutes_keeps
    | with_reducible apply State.putR_keeps
    | split
    | with_reducible apply inv_foldl

theorem execStageS3_keeps : ∀ (doms : List DomId) (units : List Uid) (s : State),
  Inv s → OutOk (execStageS3 doms units s) := by
  intros
  unfold execStageS3
  repeat' first
    | with_reducible assumption
    | (extract_lets +onlyGivenNames x; refine (fun (_ : Inv x) => ?_) ?_; clear_value x; rotate_left; subst x)
    | (extract_lets +onlyGivenNames x; clear_value x)
    | extract_lets +onlyGivenNames x
    | with_reducible apply toStage_keeps
    | with_reducible apply updB_keeps
    | with_reducible apply rampAll_keeps
    | split
    | with_reducible apply outOk_next

theorem execMainPowerTimeout_keeps : ∀ (s : State),
  Inv s → OutOk (execMainPowerTimeout s) := by
  intros
  unfold execMainPowerTimeout
  repeat' first
    | with_reducible assumption
    | extract_lets +onlyGivenNames x
    | with_reducible apply stopAt_keeps
    | with_reducible apply updB_keeps
    | split
    | with_reducible apply outOk_next

theorem writeChanMap_keeps : ∀ (s : State) (cs : List ℕ),
  Inv s → Inv (writeChanMap s cs) := by
  intros
  unfold writeChanMap
  repeat' first
    | with_reducible assumption
    | intro _
    | extract_lets +onlyGivenNames x
    | with_reducible apply State.putF_keeps
    | with_reducible apply inv_foldl

theorem trainChan_keeps : ∀ (spare : Bool) (s : State) (c : ℕ),
  Inv s → Inv (trainChan spare s c) := by
  intros
  unfold trainChan
  repeat' first
    | with_reducible assumption
    | intro _
    | (extract_lets +onlyGivenNames x; refine (fun (_ : Inv x) => ?_) ?_; clear_value x; rotate_left; subst x)
    | (extract_lets +onlyGivenNames x; clear_value x)
    | extract_lets +onlyGivenNames x
    | with_reducible apply State.putR_keeps
    | with_reducible apply State.putF_keeps
    | with_reducible apply updM_keeps
    | with_reducible apply setUnit_keeps
    | with_reducible apply inv_foldl

theorem zeroRange_keeps : ∀ (s : State) (a n : ℕ),
  Inv s → Inv (zeroRange s a n) := fun _ a n h => inv_filter (p := fun e => decide (e.1 < a) || decide (a + n ≤ e.1)) (q := fun _ => true) (r := fun _ => true) h rfl
    (by simp [zeroRange]) (by simp [zeroRange]) rfl

theorem mapMemory_keeps : ∀ (s : State) (i : Image) (cs : List ℕ),
  Inv s → Inv (mapMemory s i cs) := by
  intros
  unfold mapMemory
  repeat' first
    | with_reducible assumption
    | intro _
    | (extract_lets +onlyGivenNames x; refine (fun (_ : Inv x) => ?_) ?_; clear_value x; rotate_left; subst x)
    | extract_lets +onlyGivenNames x
    | with_reducible apply applySettings_keeps
    | with_reducible apply stopAt_keeps
    | with_reducible apply State.putR_keeps
    | with_reducible apply setupError_keeps
    | with_reducible apply trainChan_keeps
    | with_reducible apply writeChanMap_keeps
    | with_reducible apply State.putF_keeps
    | with_reducible apply zeroRange_keeps
    | split
    | with_reducible apply inv_foldl
    | fail_if_no_progress with_reducible apply inv_mk

theorem keepChans_keeps : ∀ (s : State) (cs : List ℕ),
  Inv s → Inv (keepChans s cs) := by
  intros
  unfold keepChans
  repeat' first
    | with_reducible assumption
    | intro _
    | extract_lets +onlyGivenNames x
    | with_reducible apply setUnit_keeps
    | with_reducible apply setupError_keeps
    | split
    | with_reducible apply inv_foldl

theorem stageS4Work_keeps : ∀ (s : State) (i : Image),
  Inv s → Inv (stageS4Work s i) := by
  intros
  unfold stageS4Work
  repeat' first
    | with_reducible assumption
    | (extract_lets +onlyGivenNames x; clear_value x)
    | extract_lets +onlyGivenNames x
    | with_reducible apply stopAt_keeps
    | with_reducible apply setupError_keeps
    | with_reducible apply keepChans_keeps
    | with_reducible apply mapMemory_keeps
    | split

theorem loadTrusted_keeps : ∀ (s : State) (img : List Byte),
  Inv s → Inv (loadTrusted s img) := by
  intros
  unfold loadTrusted
  repeat' first
    | with_reducible assumption
    | intro _
    | (extract_lets +onlyGivenNames x; clear_value x)
    | extract_lets +onlyGivenNames x
    | with_reducible apply measExtend_keeps
    | with_reducible apply writeBytes_keeps
    | with_reducible apply inv_foldl

theorem secureMemory_keeps : ∀ (s : State) (i : Image),
  Inv s → Inv (secureMemory s i) := by
  intros
  unfold secureMemory
  repeat' first
    | with_reducible assumption
    | intro _
    | (extract_lets +onlyGivenNames x; refine (fun (_ : Inv x) => ?_) ?_; clear_value x; rotate_left; subst x)
    | (extract_lets +onlyGivenNames x; clear_value x)
    | extract_lets +onlyGivenNames x
    | with_reducible apply applySettings_keeps
    | with_reducible apply State.putB_keeps
    | with_reducible apply loadTrusted_keeps
    | with_reducible apply recoverySet_keeps
    | with_reducible apply State.putF_keeps
    | with_reducible apply fixGeneral_keeps
    | split
    | with_reducible apply inv_foldl

theorem startTrusted_keeps : ∀ (s : State) (groupFails : Bool),
  Inv s → Inv (startTrusted s groupFails) := by
  intros
  unfold startTrusted
  repeat' first
    | with_reducible assumption
    | intro _
    | (extract_lets +onlyGivenNames x; refine (fun (_ : Inv x) => ?_) ?_; clear_value x; rotate_left; subst x)
    | (extract_lets +onlyGivenNames x; clear_value x)
    | extract_lets +onlyGivenNames x
    | with_reducible apply State.putF_keeps
    | with_reducible apply bootUnit_keeps
    | with_reducible apply takeover_keeps
    | split
    | with_reducible apply inv_foldl
    | fail_if_no_progress with_reducible apply inv_mk

theorem execStageS5_keeps : ∀ (groupFails : Bool) (s : State),
  Inv s → OutOk (execStageS5 groupFails s) := by
  intros
  unfold execStageS5
  repeat' first
    | with_reducible assumption
    | (extract_lets +onlyGivenNames x; refine (fun (_ : Inv x) => ?_) ?_; clear_value x; rotate_left; subst x)
    | extract_lets +onlyGivenNames x
    | with_reducible apply secureMemory_keeps
    | with_reducible apply toStage_keeps
    | with_reducible apply updG_keeps
    | with_reducible apply startTrusted_keeps
    | split
    | with_reducible apply outOk_next

theorem execStageS6_keeps : ∀ (s : State), Inv s → OutOk (execStageS6 s) := by
  intros
  unfold execStageS6
  repeat' first
    | with_reducible assumption
    | extract_lets +onlyGivenNames x
    | with_reducible apply writeBytes_keeps
    | with_reducible apply applySettings_keeps
    | with_reducible apply toStage_keeps
    | split
    | with_reducible apply outOk_next

theorem placeReserve_keeps : ∀ (s : State) (f : ℕ),
  Inv s → Inv (placeReserve s f) := by
  intros
  unfold placeReserve
  repeat' first
    | with_reducible assumption
    | intro _
    | (extract_lets +onlyGivenNames x; refine (fun (_ : Inv x) => ?_) ?_; clear_value x; rotate_left; subst x)
    | (extract_lets +onlyGivenNames x; clear_value x)
    | extract_lets +onlyGivenNames x
    | with_reducible apply setUnit_keeps
    | with_reducible apply logRecord_keeps
    | split
    | with_reducible apply inv_foldl

theorem numberAll_keeps : ∀ (s : State), Inv s → Inv (numberAll s) := by
  intros
  unfold numberAll
  repeat' first
    | with_reducible assumption
    | intro _
    | (extract_lets +onlyGivenNames x; refine (fun (_ : Inv x) => ?_) ?_; clear_value x; rotate_left; subst x)
    | (extract_lets +onlyGivenNames x; clear_value x)
    | extract_lets +onlyGivenNames x
    | with_reducible apply coreStarts_keeps
    | with_reducible apply State.putR_keeps
    | with_reducible apply updG_keeps
    | with_reducible apply inv_foldl

theorem releaseBoot_keeps : ∀ (s : State) (b : BootImage),
  Inv s → Inv (releaseBoot s b) := by
  intros
  unfold releaseBoot
  repeat' first
    | with_reducible assumption
    | with_reducible apply bootThread_keeps
    | split

theorem setLimit_keeps : ∀ (s : State) (n : ℕ),
  Inv s → Inv (setLimit s n) := by
  intros
  unfold setLimit
  repeat' first
    | with_reducible assumption
    | (extract_lets +onlyGivenNames x; clear_value x)
    | with_reducible apply State.putR_keeps

theorem gleanBegins_keeps : ∀ (s : State), Inv s → Inv (gleanBegins s) := by
  intros
  unfold gleanBegins
  repeat' first
    | with_reducible assumption
    | intro _
    | extract_lets +onlyGivenNames x
    | with_reducible apply updM_keeps
    | split
    | with_reducible apply inv_foldl

theorem startGroups_keeps : ∀ (s : State), Inv s → Inv (startGroups s) := by
  intros
  unfold startGroups
  repeat' first
    | with_reducible assumption
    | (extract_lets +onlyGivenNames x; refine (fun (_ : Inv x) => ?_) ?_; clear_value x; rotate_left; subst x)
    | with_reducible apply startGroup_keeps
    | split

theorem execStageS7_keeps : ∀ (s : State), Inv s → OutOk (execStageS7 s) := by
  intros
  unfold execStageS7
  repeat' first
    | with_reducible assumption
    | intro _
    | (extract_lets +onlyGivenNames x; refine (fun (_ : Inv x) => ?_) ?_; clear_value x; rotate_left; subst x)
    | extract_lets +onlyGivenNames x
    | with_reducible apply toStage_keeps
    | with_reducible apply setLimit_keeps
    | with_reducible apply gleanBegins_keeps
    | with_reducible apply numberAll_keeps
    | with_reducible apply placeReserve_keeps
    | with_reducible apply releaseBoot_keeps
    | with_reducible apply startGroups_keeps
    | with_reducible apply configEval_keeps
    | split
    | with_reducible apply outOk_next
    | with_reducible apply inv_foldl

theorem execMemoryTranche_keeps : ∀ (s : State),
  Inv s → OutOk (execMemoryTranche s) := by
  intros
  unfold execMemoryTranche
  repeat' first
    | with_reducible assumption
    | (extract_lets +onlyGivenNames x; clear_value x)
    | extract_lets +onlyGivenNames x
    | with_reducible apply notify_keeps
    | with_reducible apply gleanBegins_keeps
    | with_reducible apply setLimit_keeps
    | split
    | with_reducible apply outOk_next

theorem execMinSvnBurn_keeps : ∀ (s : State),
  Inv s → OutOk (execMinSvnBurn s) := by
  intros
  unfold execMinSvnBurn
  repeat' first
    | with_reducible assumption
    | (extract_lets +onlyGivenNames x; refine (fun (_ : Inv x) => ?_) ?_; clear_value x; rotate_left; subst x)
    | (extract_lets +onlyGivenNames x; clear_value x)
    | extract_lets +onlyGivenNames x
    | with_reducible apply State.putF_keeps
    | split
    | with_reducible apply outOk_next
    | fail_if_no_progress with_reducible apply inv_mk

theorem writeThreadStart_keeps : ∀ (s : State) (r : Requester) (t : Tid) (v : Word),
  Inv s → Inv (writeThreadStart s r t v) := by
  intros
  unfold writeThreadStart
  repeat' first
    | with_reducible assumption
    | (extract_lets +onlyGivenNames x; refine (fun (_ : Inv x) => ?_) ?_; clear_value x; rotate_left; subst x)
    | (extract_lets +onlyGivenNames x; clear_value x)
    | extract_lets +onlyGivenNames x
    | with_reducible apply State.putB_keeps
    | with_reducible apply notify_keeps
    | with_reducible apply startThread_keeps
    | with_reducible apply State.putR_keeps
    | split

theorem execThreadStart_keeps : ∀ (r : Requester) (t : Tid) (v : Word) (s : State),
  Inv s → OutOk (execThreadStart r t v s) := by
  intros
  unfold execThreadStart
  repeat' first
    | with_reducible assumption
    | extract_lets +onlyGivenNames x
    | with_reducible apply writeThreadStart_keeps
    | split
    | with_reducible apply outOk_next

end Sys2Proof.Machine
end

