-- ==== Sys2Proof/Laws/KeepsCtrlRegs.lean ====
section
/-! SUPPORT. The invariant under the definitions of Machine/CtrlRegs.lean. -/

namespace Sys2Proof.Machine

set_option linter.all false

theorem writeBcLimits_keeps : ∀ (s : State) (u : ℕ) (x : RegRow) (v : Word),
  Inv s → Inv (writeBcLimits s u x v) := by
  intros
  unfold writeBcLimits
  repeat' first
    | with_reducible assumption
    | (extract_lets +onlyGivenNames x; refine (fun (_ : Inv x) => ?_) ?_; clear_value x; rotate_left; subst x)
    | (extract_lets +onlyGivenNames x; clear_value x)
    | extract_lets +onlyGivenNames x
    | with_reducible apply plainWrite_keeps
    | with_reducible apply askLoad_keeps
    | with_reducible apply setupError_keeps
    | split

theorem writeCacheWays_keeps : ∀ (s : State) (a : ℕ) (v : Word),
  Inv s → Inv (writeCacheWays s a v) := by
  intros
  unfold writeCacheWays
  repeat' first
    | with_reducible assumption
    | (extract_lets +onlyGivenNames x; clear_value x)
    | extract_lets +onlyGivenNames x
    | with_reducible apply emptyWays_keeps
    | with_reducible apply State.putR_keeps

theorem writePkgPower_keeps : ∀ (s : State) (r : Requester) (x : RegRow) (v : Word),
  Inv s → Inv (writePkgPower s r x v) := by
  intros
  unfold writePkgPower
  repeat' first
    | with_reducible assumption
    | (extract_lets +onlyGivenNames x; refine (fun (_ : Inv x) => ?_) ?_; clear_value x; rotate_left; subst x)
    | (extract_lets +onlyGivenNames x; clear_value x)
    | with_reducible apply plainWrite_keeps
    | with_reducible apply State.putF_keeps
    | split

theorem writeRing_keeps : ∀ (s : State) (a ptr : ℕ) (x : RegRow) (v : Word),
  Inv s → Inv (writeRing s a ptr x v) := by
  intros
  unfold writeRing
  repeat' first
    | with_reducible assumption
    | (extract_lets +onlyGivenNames x; refine (fun (_ : Inv x) => ?_) ?_; clear_value x; rotate_left; subst x)
    | extract_lets +onlyGivenNames x
    | with_reducible apply plainWrite_keeps
    | with_reducible apply State.putF_keeps
    | split

theorem writeLogRing_keeps : ∀ (s : State) (x : RegRow) (v : Word),
  Inv s → Inv (writeLogRing s x v) := by
  intros
  unfold writeLogRing
  repeat' first
    | with_reducible assumption
    | (extract_lets +onlyGivenNames x; refine (fun (_ : Inv x) => ?_) ?_; clear_value x; rotate_left; subst x)
    | (extract_lets +onlyGivenNames x; clear_value x)
    | with_reducible apply writeRing_keeps
    | split
    | fail_if_no_progress with_reducible apply inv_mk

theorem writeTwStage_keeps : ∀ (s : State) (x : RegRow) (v : Word),
  Inv s → Inv (writeTwStage s x v) := by
  intros
  unfold writeTwStage
  repeat' first
    | with_reducible assumption
    | (extract_lets +onlyGivenNames x; refine (fun (_ : Inv x) => ?_) ?_; clear_value x; rotate_left; subst x)
    | with_reducible apply plainWrite_keeps
    | with_reducible apply updG_keeps
    | split

theorem writeSel_keeps : ∀ (s : State) (r : Requester) (a : ℕ) (x : RegRow) (v : Word)
  (bad : Fld) (known : ℕ → Bool),
  Inv s → Inv (writeSel s r a x v bad known) := by
  intros
  unfold writeSel
  repeat' first
    | with_reducible assumption
    | (extract_lets +onlyGivenNames x; refine (fun (_ : Inv x) => ?_) ?_; clear_value x; rotate_left; subst x)
    | (extract_lets +onlyGivenNames x; clear_value x)
    | with_reducible apply plainWrite_keeps
    | with_reducible apply State.putB_keeps
    | fail_if_no_progress with_reducible apply inv_mk

theorem writePerf_keeps : ∀ (s : State) (r : Requester) (a : ℕ) (x : RegRow) (v : Word),
  Inv s → Inv (writePerf s r a x v) := by
  intros
  unfold writePerf
  repeat' first
    | with_reducible assumption
    | (extract_lets +onlyGivenNames x; refine (fun (_ : Inv x) => ?_) ?_; clear_value x; rotate_left; subst x)
    | (extract_lets +onlyGivenNames x; clear_value x)
    | with_reducible apply writeSel_keeps
    | with_reducible apply writeRing_keeps
    | with_reducible apply plainWrite_keeps
    | split
    | fail_if_no_progress with_reducible apply inv_mk

theorem writeTrain_keeps : ∀ (s : State) (c a : ℕ) (x : RegRow) (v : Word),
  Inv s → Inv (writeTrain s c a x v) := by
  intros
  unfold writeTrain
  repeat' first
    | with_reducible assumption
    | (extract_lets +onlyGivenNames x; clear_value x)
    | with_reducible apply updM_keeps
    | with_reducible apply plainWrite_keeps
    | split

theorem writeMc_keeps : ∀ (s : State) (c a : ℕ) (x : RegRow) (v : Word),
  Inv s → Inv (writeMc s c a x v) := by
  intros
  unfold writeMc
  repeat' first
    | with_reducible assumption
    | (extract_lets +onlyGivenNames x; refine (fun (_ : Inv x) => ?_) ?_; clear_value x; rotate_left; subst x)
    | (extract_lets +onlyGivenNames x; clear_value x)
    | with_reducible apply writeFreqCtrl_keeps
    | with_reducible apply plainWrite_keeps
    | with_reducible apply setupError_keeps
    | with_reducible apply writeTrain_keeps
    | split

theorem writeChCmd_keeps : ∀ (s : State) (r : Requester) (g : ℕ) (v : Word),
  Inv s → Inv (writeChCmd s r g v) := by
  intros
  unfold writeChCmd
  repeat' first
    | with_reducible assumption
    | with_reducible apply chanCommand_keeps
    | split

theorem writeSq_keeps : ∀ (s : State) (f q k : ℕ) (x : RegRow) (a : ℕ) (v : Word),
  Inv s → Inv (writeSq s f q k x a v) := by
  intros
  unfold writeSq
  repeat' first
    | with_reducible assumption
    | (extract_lets +onlyGivenNames x; clear_value x)
    | with_reducible apply State.putB_keeps
    | with_reducible apply writeQueue0_keeps
    | with_reducible apply plainWrite_keeps
    | split

theorem writeChan_keeps : ∀ (s : State) (r : Requester) (f a : ℕ) (x : RegRow)
  (v : Word), Inv s → Inv (writeChan s r f a x v) := by
  intros
  unfold writeChan
  repeat' first
    | with_reducible assumption
    | intro _
    | extract_lets +onlyGivenNames x
    | with_reducible apply plainWrite_keeps
    | with_reducible apply writeSq_keeps
    | with_reducible apply writeChCmd_keeps
    | with_reducible apply inv_elim

theorem writeWindow_keeps : ∀ (s : State) (p o : ℕ) (x : RegRow) (v : Word),
  Inv s → Inv (writeWindow s p o x v) := by
  intros
  unfold writeWindow
  repeat' first
    | with_reducible assumption
    | (extract_lets +onlyGivenNames x; refine (fun (_ : Inv x) => ?_) ?_; clear_value x; rotate_left; subst x)
    | (extract_lets +onlyGivenNames x; clear_value x)
    | with_reducible apply plainWrite_keeps
    | with_reducible apply mgrSend_keeps
    | with_reducible apply mgrAck_keeps
    | with_reducible apply instCommand_keeps
    | with_reducible apply writeWlogBase_keeps
    | with_reducible apply writeWlogPtr_keeps
    | split

theorem writePort_keeps : ∀ (s : State) (r : Requester) (p a : ℕ) (x : RegRow)
  (v : Word), Inv s → Inv (writePort s r p a x v) := by
  intros
  unfold writePort
  repeat' first
    | with_reducible assumption
    | (extract_lets +onlyGivenNames x; refine (fun (_ : Inv x) => ?_) ?_; clear_value x; rotate_left; subst x)
    | (extract_lets +onlyGivenNames x; clear_value x)
    | with_reducible apply plainWrite_keeps
    | with_reducible apply portFreeze_keeps
    | with_reducible apply releaseWrite_keeps
    | with_reducible apply writeWindow_keeps
    | split

theorem writeKe_keeps : ∀ (s : State) (r : Requester) (u a : ℕ) (x : RegRow)
  (v : Word), Inv s → Inv (writeKe s r u a x v) := by
  intros
  unfold writeKe
  repeat' first
    | with_reducible assumption
    | with_reducible apply plainWrite_keeps
    | with_reducible apply ucodeStage_keeps
    | with_reducible apply writeUcodeCtrl_keeps
    | split

theorem writeBridge_keeps : ∀ (s : State) (a : ℕ) (x : RegRow) (v : Word),
  Inv s → Inv (writeBridge s a x v) := by
  intros
  unfold writeBridge
  repeat' first
    | with_reducible assumption
    | with_reducible apply fdbOp_keeps
    | with_reducible apply State.putB_keeps
    | with_reducible apply plainWrite_keeps
    | split

theorem writeVault_keeps : ∀ (s : State) (r : Requester) (a : ℕ) (x : RegRow) (v : Word),
  Inv s → Inv (writeVault s r a x v) := by
  intros
  unfold writeVault
  repeat' first
    | with_reducible assumption
    | (extract_lets +onlyGivenNames x; clear_value x)
    | with_reducible apply writeWorldCmd_keeps
    | with_reducible apply plainWrite_keeps
    | with_reducible apply writeSlotCmd_keeps
    | with_reducible apply writeMeasExt_keeps
    | with_reducible apply incCounter_keeps
    | with_reducible apply State.putR_keeps
    | split
    | fail_if_no_progress with_reducible apply inv_mk

theorem writeBaseCamp_keeps : ∀ (s : State) (r : Requester) (a : ℕ) (wide : Bool) (x : RegRow)
  (v : Word),
  Inv s → Inv (writeBaseCamp s r a wide x v) := by
  intros
  unfold writeBaseCamp
  repeat' first
    | with_reducible assumption
    | with_reducible apply writeScratchCfg_keeps
    | with_reducible apply writePkgPower_keeps
    | with_reducible apply writeLogRing_keeps
    | with_reducible apply writeTwStage_keeps
    | with_reducible apply sendIrq_keeps
    | with_reducible apply writePredCtrl_keeps
    | with_reducible apply writeThreadStart_keeps
    | with_reducible apply writeRoot_keeps
    | with_reducible apply plainWrite_keeps
    | split

theorem ctrlApply_keeps : ∀ (s : State) (r : Requester) (a : ℕ) (wide : Bool) (x : RegRow)
  (v : Word), Inv s → Inv (ctrlApply s r a wide x v) := by
  intros
  unfold ctrlApply
  repeat' first
    | with_reducible assumption
    | (extract_lets +onlyGivenNames x; clear_value x)
    | extract_lets +onlyGivenNames x
    | with_reducible apply writeBaseCamp_keeps
    | with_reducible apply writeVault_keeps
    | with_reducible apply writeMc_keeps
    | with_reducible apply writeCheckInject_keeps
    | with_reducible apply writeCacheWays_keeps
    | with_reducible apply plainWrite_keeps
    | with_reducible apply writeBcLimits_keeps
    | with_reducible apply fixGeneral_keeps
    | with_reducible apply writeKe_keeps
    | with_reducible apply writePort_keeps
    | with_reducible apply writeChan_keeps
    | with_reducible apply writeBridge_keeps
    | with_reducible apply writeRing_keeps
    | with_reducible apply writePerf_keeps
    | split

theorem ctrlWriteWord_keeps : ∀ (s : State) (r : Requester) (a : ℕ) (wide hi : Bool) (v : Word),
  Inv s → Inv (ctrlWriteWord s r a wide hi v) := by
  intros
  unfold ctrlWriteWord
  repeat' first
    | with_reducible assumption
    | (extract_lets +onlyGivenNames x; clear_value x)
    | with_reducible apply ctrlApply_keeps
    | split

theorem writeMsix_keeps : ∀ (s : State) (p i v : ℕ) (second wide hi : Bool) (d : Word),
  Inv s → Inv (writeMsix s p i v second wide hi d) := by
  intros
  unfold writeMsix
  repeat' first
    | with_reducible assumption
    | (extract_lets +onlyGivenNames x; refine (fun (_ : Inv x) => ?_) ?_; clear_value x; rotate_left; subst x)
    | (extract_lets +onlyGivenNames x; clear_value x)
    | with_reducible apply updP_keeps
    | with_reducible apply msixRelease_keeps

theorem bar0Write_keeps : ∀ (s : State) (p i o : ℕ) (wide hi : Bool) (v : Word),
  Inv s → Inv (bar0Write s p i o wide hi v) := by
  intros
  unfold bar0Write
  repeat' first
    | with_reducible assumption
    | (extract_lets +onlyGivenNames x; refine (fun (_ : Inv x) => ?_) ?_; clear_value x; rotate_left; subst x)
    | (extract_lets +onlyGivenNames x; clear_value x)
    | with_reducible apply plainWrite_keeps
    | with_reducible apply mbxSend_keeps
    | with_reducible apply mbxAck_keeps
    | with_reducible apply writeWindow_keeps
    | with_reducible apply writeMsix_keeps
    | split

theorem bar4Write_keeps : ∀ (s : State) (p o : ℕ) (wide hi : Bool) (v : Word),
  Inv s → Inv (bar4Write s p o wide hi v) := by
  intros
  unfold bar4Write
  repeat' first
    | with_reducible assumption
    | (extract_lets +onlyGivenNames x; clear_value x)
    | with_reducible apply plainWrite_keeps
    | with_reducible apply writeChCmd_keeps
    | with_reducible apply homeWrite_keeps
    | split

theorem hostCtrlWrite_keeps : ∀ (s : State) (p i a : ℕ) (wide hi : Bool) (v : Word),
  Inv s → Inv (hostCtrlWrite s p i a wide hi v) := by
  intros
  unfold hostCtrlWrite
  repeat' first
    | with_reducible assumption
    | (extract_lets +onlyGivenNames x; clear_value x)
    | with_reducible apply bar0Write_keeps
    | with_reducible apply slotWrite_keeps
    | with_reducible apply bar4Write_keeps
    | split

theorem ctrlWrite_keeps : ∀ (s : State) (r : Requester) (a : ℕ) (wide : Bool) (v : Word),
  Inv s → Inv (ctrlWrite s r a wide v) := by
  intros
  unfold ctrlWrite
  repeat' first
    | with_reducible assumption
    | (extract_lets +onlyGivenNames x; clear_value x)
    | with_reducible apply hostCtrlWrite_keeps
    | with_reducible apply ctrlWriteWord_keeps
    | split

theorem execRegisterWrite_keeps : ∀ (r : Requester) (a : BitVec 40) (wide : Bool) (v : Word) (s : State),
  Inv s → OutOk (execRegisterWrite r a wide v s) := by
  intros
  unfold execRegisterWrite
  repeat' first
    | with_reducible assumption
    | extract_lets +onlyGivenNames x
    | with_reducible apply ctrlWrite_keeps
    | split
    | with_reducible apply outOk_next

end Sys2Proof.Machine
end

