-- ==== Sys2Proof/Laws/KeepsAccess.lean ====
section
/-! SUPPORT. The invariant under the definitions of Machine/Access.lean. -/

namespace Sys2Proof.Machine

set_option linter.all false

theorem guardAll_keeps : ∀ (s : State) (cs : List Chk),
  Inv s → EOk (fun (a : PUnit.{1}) => True) (guardAll s cs) := by
  intros
  unfold guardAll
  repeat' first
    | with_reducible assumption
    | exact True.intro
    | with_reducible apply faultAt_keeps
    | split
    | with_reducible apply eOk_ok

theorem reach2_keeps : ∀ (s : State)
  (f g : State → R (Xl × State)),
  Inv s →
    (∀ (a : State),
        Inv a →
          EOk
            (fun (a : Xl × State) => Inv a.2) (f a)) →
      (∀ (a : State),
          Inv a →
            EOk
              (fun (a : Xl × State) => Inv a.2) (g a)) →
        EOk
          (fun (a : Xl × Xl × State) =>
            Inv a.2.2)
          (reach2 s f g) := by
  intros
  unfold reach2
  repeat' first
    | with_reducible assumption
    | extract_lets +onlyGivenNames x
    | split
    | with_reducible apply eOk_ok
    | with_reducible apply eOk_error
    | refine inv_okP (by with_reducible assumption) ?_
    | refine inv_errP (by with_reducible assumption) ?_
    | with_reducible apply_assumption -exfalso -symm

theorem loadAt_keeps : ∀ (s : State) (t : Tid) (v : GReg) (a : Word)
  (x : Xl) (n k : ℕ),
  Inv s →
    EOk
      (fun (a : Option (List Byte × Bool) × State) => Inv a.2)
      (loadAt s t v a x n k) := by
  intros
  unfold loadAt
  repeat' first
    | with_reducible assumption
    | (extract_lets +onlyGivenNames x; refine (fun (_ : Inv x) => ?_) ?_; clear_value x; rotate_left; subst x)
    | extract_lets +onlyGivenNames x
    | with_reducible apply hostRead_keeps
    | with_reducible apply guardLost_keeps
    | with_reducible apply noTarget_keeps
    | with_reducible apply drainPage_keeps
    | with_reducible apply memRead_keeps
    | with_reducible apply touch_keeps
    | with_reducible apply missEvents_keeps
    | with_reducible apply train_keeps
    | split
    | with_reducible apply eOk_ok
    | with_reducible apply eOk_error
    | refine inv_okP (by with_reducible assumption) ?_
    | refine inv_errP (by with_reducible assumption) ?_
    | refine inv_errA (by with_reducible assumption) ?_

theorem loadCtrl_keeps : ∀ (s : State) (t : Tid) (v : GReg) (a : Word) (n : ℕ),
  Inv s →
    EOk (fun (a : List Byte) => True) (loadCtrl s t v a n) := by
  intros
  unfold loadCtrl
  repeat' first
    | with_reducible assumption
    | exact True.intro
    | intro _
    | extract_lets +onlyGivenNames x
    | with_reducible apply guardLost_keeps
    | with_reducible apply faultAt_keeps
    | split
    | with_reducible apply eOk_ok
    | with_reducible apply eOk_bindA

theorem loadBytes_keeps : ∀ (s : State) (t : Tid) (v : GReg) (a : Word) (n : ℕ)
  (strict : Bool),
  Inv s →
    EOk
      (fun (a : Option (List Byte × Bool) × State) => Inv a.2)
      (loadBytes s t v a n strict) := by
  intros
  unfold loadBytes
  repeat' first
    | with_reducible assumption
    | extract_lets +onlyGivenNames x
    | with_reducible apply loadCtrl_keeps
    | with_reducible apply reach_keeps
    | with_reducible apply loadAt_keeps
    | split
    | with_reducible apply eOk_ok
    | with_reducible apply eOk_error
    | refine inv_okP (by with_reducible assumption) ?_
    | refine inv_errP (by with_reducible assumption) ?_
    | refine inv_errA (by with_reducible assumption) ?_

theorem storeAt_keeps : ∀ (s : State) (t : Tid) (v : GReg) (a : Word)
  (x : Xl) (bs : List Byte) (tag : Option Bool) (rel : Bool),
  Inv s →
    EOk Inv (storeAt s t v a x bs tag rel) := by
  intros
  unfold storeAt
  repeat' first
    | with_reducible assumption
    | extract_lets +onlyGivenNames x
    | with_reducible apply hostStore_keeps
    | with_reducible apply drainBefore_keeps
    | with_reducible apply slotWrite_keeps
    | with_reducible apply noTarget_keeps
    | with_reducible apply memWrite_keeps
    | split
    | with_reducible apply eOk_ok

theorem storeCtrl_keeps : ∀ (s : State) (t : Tid) (v : GReg) (a : Word)
  (bs : List Byte),
  Inv s → EOk Inv (storeCtrl s t v a bs) := by
  intros
  unfold storeCtrl
  repeat' first
    | with_reducible assumption
    | (extract_lets +onlyGivenNames x; clear_value x)
    | extract_lets +onlyGivenNames x
    | with_reducible apply ctrlWrite_keeps
    | with_reducible apply faultAt_keeps
    | split
    | with_reducible apply eOk_ok

theorem storeBytes_keeps : ∀ (s : State) (t : Tid) (v : GReg) (a : Word)
  (bs : List Byte) (strict : Bool) (tag : Option Bool) (rel : Bool),
  Inv s →
    EOk Inv (storeBytes s t v a bs strict tag rel) := by
  intros
  unfold storeBytes
  repeat' first
    | with_reducible assumption
    | extract_lets +onlyGivenNames x
    | with_reducible apply storeCtrl_keeps
    | with_reducible apply reachStore_keeps
    | with_reducible apply storeAt_keeps
    | split
    | with_reducible apply eOk_error
    | refine inv_okP (by with_reducible assumption) ?_
    | refine inv_errP (by with_reducible assumption) ?_

end Sys2Proof.Machine
end

