-- ==== Sys2Proof/Laws/KeepsIntOps.lean ====
section
/-! SUPPORT. The invariant under the definitions of Machine/IntOps.lean. -/

namespace Sys2Proof.Machine

set_option linter.all false

theorem useRegs_keeps : ∀ (s : State) (t : Tid) (rs : List RegNo),
  Inv s → Inv (useRegs s t rs) := by
  intros
  unfold useRegs
  repeat' first
    | with_reducible assumption
    | with_reducible apply updT_keeps

theorem putInt_keeps : ∀ (s : State) (t : Tid) (rd : RegNo) (w : Word),
  Inv s → Inv (putInt s t rd w) := by
  intros
  unfold putInt
  repeat' first
    | with_reducible assumption
    | with_reducible apply updT_keeps

theorem regOp_keeps : ∀ (s : State) (t : Tid) (op : ℕ) (rd ra rb : RegNo) (fn : BitVec 10)
  (f : Word → Word → Word),
  Inv s → OutOk (regOp s t op rd ra rb fn f) := by
  intros
  unfold regOp
  repeat' first
    | with_reducible assumption
    | intro _
    | (extract_lets +onlyGivenNames x; refine (fun (_ : Inv x) => ?_) ?_; clear_value x; rotate_left; subst x)
    | (extract_lets +onlyGivenNames x; clear_value x)
    | extract_lets +onlyGivenNames x
    | with_reducible apply instrNext_keeps
    | with_reducible apply useRegs_keeps
    | with_reducible apply putInt_keeps
    | with_reducible apply eOk_ok

theorem immOp_keeps : ∀ (s : State) (t : Tid) (op : ℕ) (limm : Limm) (rd ra : RegNo)
  (imm : BitVec 15) (f : Word → Word → Word),
  Inv s → OutOk (immOp s t op limm rd ra imm f) := by
  intros
  unfold immOp
  repeat' first
    | with_reducible assumption
    | intro _
    | (extract_lets +onlyGivenNames x; refine (fun (_ : Inv x) => ?_) ?_; clear_value x; rotate_left; subst x)
    | extract_lets +onlyGivenNames x
    | with_reducible apply instrNext_keeps
    | with_reducible apply illegal_keeps
    | with_reducible apply useRegs_keeps
    | with_reducible apply putInt_keeps
    | split
    | with_reducible apply eOk_ok

theorem execAdd_keeps : ∀ (t : Tid) (rd ra rb : RegNo) (s : State),
  Inv s → OutOk (execAdd t rd ra rb s) := by
  intros
  unfold execAdd
  repeat' first
    | with_reducible assumption
    | with_reducible apply regOp_keeps

theorem execSub_keeps : ∀ (t : Tid) (rd ra rb : RegNo) (s : State),
  Inv s → OutOk (execSub t rd ra rb s) := by
  intros
  unfold execSub
  repeat' first
    | with_reducible assumption
    | with_reducible apply regOp_keeps

theorem execAnd_keeps : ∀ (t : Tid) (rd ra rb : RegNo) (s : State),
  Inv s → OutOk (execAnd t rd ra rb s) := by
  intros
  unfold execAnd
  repeat' first
    | with_reducible assumption
    | with_reducible apply regOp_keeps

theorem execOr_keeps : ∀ (t : Tid) (rd ra rb : RegNo) (s : State),
  Inv s → OutOk (execOr t rd ra rb s) := by
  intros
  unfold execOr
  repeat' first
    | with_reducible assumption
    | with_reducible apply regOp_keeps

theorem execXor_keeps : ∀ (t : Tid) (rd ra rb : RegNo) (s : State),
  Inv s → OutOk (execXor t rd ra rb s) := by
  intros
  unfold execXor
  repeat' first
    | with_reducible assumption
    | with_reducible apply regOp_keeps

theorem execAndn_keeps : ∀ (t : Tid) (rd ra rb : RegNo) (s : State),
  Inv s → OutOk (execAndn t rd ra rb s) := by
  intros
  unfold execAndn
  repeat' first
    | with_reducible assumption
    | with_reducible apply regOp_keeps

theorem execSll_keeps : ∀ (t : Tid) (rd ra rb : RegNo) (s : State),
  Inv s → OutOk (execSll t rd ra rb s) := by
  intros
  unfold execSll
  repeat' first
    | with_reducible assumption
    | with_reducible apply regOp_keeps

theorem execSrl_keeps : ∀ (t : Tid) (rd ra rb : RegNo) (s : State),
  Inv s → OutOk (execSrl t rd ra rb s) := by
  intros
  unfold execSrl
  repeat' first
    | with_reducible assumption
    | with_reducible apply regOp_keeps

theorem execSra_keeps : ∀ (t : Tid) (rd ra rb : RegNo) (s : State),
  Inv s → OutOk (execSra t rd ra rb s) := by
  intros
  unfold execSra
  repeat' first
    | with_reducible assumption
    | with_reducible apply regOp_keeps

theorem execRol_keeps : ∀ (t : Tid) (rd ra rb : RegNo) (s : State),
  Inv s → OutOk (execRol t rd ra rb s) := by
  intros
  unfold execRol
  repeat' first
    | with_reducible assumption
    | with_reducible apply regOp_keeps

theorem execRor_keeps : ∀ (t : Tid) (rd ra rb : RegNo) (s : State),
  Inv s → OutOk (execRor t rd ra rb s) := by
  intros
  unfold execRor
  repeat' first
    | with_reducible assumption
    | with_reducible apply regOp_keeps

theorem execClz_keeps : ∀ (t : Tid) (rd ra rb : RegNo) (s : State),
  Inv s → OutOk (execClz t rd ra rb s) := by
  intros
  unfold execClz
  repeat' first
    | with_reducible assumption
    | with_reducible apply regOp_keeps

theorem execCtz_keeps : ∀ (t : Tid) (rd ra rb : RegNo) (s : State),
  Inv s → OutOk (execCtz t rd ra rb s) := by
  intros
  unfold execCtz
  repeat' first
    | with_reducible assumption
    | with_reducible apply regOp_keeps

theorem execPopc_keeps : ∀ (t : Tid) (rd ra rb : RegNo) (s : State),
  Inv s → OutOk (execPopc t rd ra rb s) := by
  intros
  unfold execPopc
  repeat' first
    | with_reducible assumption
    | with_reducible apply regOp_keeps

theorem execBswap_keeps : ∀ (t : Tid) (rd ra rb : RegNo) (s : State),
  Inv s → OutOk (execBswap t rd ra rb s) := by
  intros
  unfold execBswap
  repeat' first
    | with_reducible assumption
    | with_reducible apply regOp_keeps

theorem execSlt_keeps : ∀ (t : Tid) (rd ra rb : RegNo) (s : State),
  Inv s → OutOk (execSlt t rd ra rb s) := by
  intros
  unfold execSlt
  repeat' first
    | with_reducible assumption
    | with_reducible apply regOp_keeps

theorem execSltu_keeps : ∀ (t : Tid) (rd ra rb : RegNo) (s : State),
  Inv s → OutOk (execSltu t rd ra rb s) := by
  intros
  unfold execSltu
  repeat' first
    | with_reducible assumption
    | with_reducible apply regOp_keeps

theorem execMin_keeps : ∀ (t : Tid) (rd ra rb : RegNo) (s : State),
  Inv s → OutOk (execMin t rd ra rb s) := by
  intros
  unfold execMin
  repeat' first
    | with_reducible assumption
    | with_reducible apply regOp_keeps

theorem execMax_keeps : ∀ (t : Tid) (rd ra rb : RegNo) (s : State),
  Inv s → OutOk (execMax t rd ra rb s) := by
  intros
  unfold execMax
  repeat' first
    | with_reducible assumption
    | with_reducible apply regOp_keeps

theorem execMinu_keeps : ∀ (t : Tid) (rd ra rb : RegNo) (s : State),
  Inv s → OutOk (execMinu t rd ra rb s) := by
  intros
  unfold execMinu
  repeat' first
    | with_reducible assumption
    | with_reducible apply regOp_keeps

theorem execMaxu_keeps : ∀ (t : Tid) (rd ra rb : RegNo) (s : State),
  Inv s → OutOk (execMaxu t rd ra rb s) := by
  intros
  unfold execMaxu
  repeat' first
    | with_reducible assumption
    | with_reducible apply regOp_keeps

theorem execAddi_keeps : ∀ (t : Tid) (limm : Limm) (rd ra : RegNo) (imm : BitVec 15)
  (s : State),
  Inv s → OutOk (execAddi t limm rd ra imm s) := by
  intros
  unfold execAddi
  repeat' first
    | with_reducible assumption
    | with_reducible apply immOp_keeps

theorem execAndi_keeps : ∀ (t : Tid) (limm : Limm) (rd ra : RegNo) (imm : BitVec 15)
  (s : State),
  Inv s → OutOk (execAndi t limm rd ra imm s) := by
  intros
  unfold execAndi
  repeat' first
    | with_reducible assumption
    | with_reducible apply immOp_keeps

theorem execOri_keeps : ∀ (t : Tid) (limm : Limm) (rd ra : RegNo) (imm : BitVec 15)
  (s : State),
  Inv s → OutOk (execOri t limm rd ra imm s) := by
  intros
  unfold execOri
  repeat' first
    | with_reducible assumption
    | with_reducible apply immOp_keeps

theorem execXori_keeps : ∀ (t : Tid) (limm : Limm) (rd ra : RegNo) (imm : BitVec 15)
  (s : State),
  Inv s → OutOk (execXori t limm rd ra imm s) := by
  intros
  unfold execXori
  repeat' first
    | with_reducible assumption
    | with_reducible apply immOp_keeps

theorem execSlti_keeps : ∀ (t : Tid) (limm : Limm) (rd ra : RegNo) (imm : BitVec 15)
  (s : State),
  Inv s → OutOk (execSlti t limm rd ra imm s) := by
  intros
  unfold execSlti
  repeat' first
    | with_reducible assumption
    | with_reducible apply immOp_keeps

theorem execSltiu_keeps : ∀ (t : Tid) (limm : Limm) (rd ra : RegNo) (imm : BitVec 15)
  (s : State),
  Inv s → OutOk (execSltiu t limm rd ra imm s) := by
  intros
  unfold execSltiu
  repeat' first
    | with_reducible assumption
    | with_reducible apply immOp_keeps

theorem execShi_keeps : ∀ (t : Tid) (limm : Limm) (rd ra : RegNo) (imm : BitVec 15)
  (s : State),
  Inv s → OutOk (execShi t limm rd ra imm s) := by
  intros
  unfold execShi
  repeat' first
    | with_reducible assumption
    | intro _
    | (extract_lets +onlyGivenNames x; refine (fun (_ : Inv x) => ?_) ?_; clear_value x; rotate_left; subst x)
    | extract_lets +onlyGivenNames x
    | with_reducible apply instrNext_keeps
    | with_reducible apply useRegs_keeps
    | with_reducible apply illegal_keeps
    | with_reducible apply putInt_keeps
    | split
    | with_reducible apply eOk_ok

theorem execBitf_keeps : ∀ (t : Tid) (limm : Limm) (rd ra : RegNo) (imm : BitVec 15)
  (s : State),
  Inv s → OutOk (execBitf t limm rd ra imm s) := by
  intros
  unfold execBitf
  repeat' first
    | with_reducible assumption
    | intro _
    | (extract_lets +onlyGivenNames x; refine (fun (_ : Inv x) => ?_) ?_; clear_value x; rotate_left; subst x)
    | extract_lets +onlyGivenNames x
    | with_reducible apply instrNext_keeps
    | with_reducible apply useRegs_keeps
    | with_reducible apply illegal_keeps
    | with_reducible apply putInt_keeps
    | split
    | with_reducible apply eOk_ok

theorem arith_keeps : ∀ (s : State) (t : Tid) (words : List (BitVec 32)) (d : Dest)
  (g : GReg) (v : Vec) (cs : List ArithCond) (long : Bool),
  Inv s → Inv (arith s t words d g v cs long) := by
  intros
  unfold arith
  repeat' first
    | with_reducible assumption
    | (extract_lets +onlyGivenNames x; clear_value x)
    | with_reducible apply updT_keeps
    | split

theorem arithOp_keeps : ∀ (s : State) (t : Tid) (op : ℕ) (rd ra rb : RegNo) (fn : BitVec 10)
  (long : Bool) (f : Word → Word → Word × List ArithCond),
  Inv s → OutOk (arithOp s t op rd ra rb fn long f) := by
  intros
  unfold arithOp
  repeat' first
    | with_reducible assumption
    | intro _
    | (extract_lets +onlyGivenNames x; refine (fun (_ : Inv x) => ?_) ?_; clear_value x; rotate_left; subst x)
    | (extract_lets +onlyGivenNames x; clear_value x)
    | extract_lets +onlyGivenNames x
    | with_reducible apply instrNext_keeps
    | with_reducible apply useRegs_keeps
    | with_reducible apply arith_keeps
    | with_reducible apply eOk_ok

theorem execMulLow_keeps : ∀ (t : Tid) (rd ra rb : RegNo) (s : State),
  Inv s → OutOk (execMulLow t rd ra rb s) := by
  intros
  unfold execMulLow
  repeat' first
    | with_reducible assumption
    | with_reducible apply regOp_keeps

theorem execMulHighSigned_keeps : ∀ (t : Tid) (rd ra rb : RegNo) (s : State),
  Inv s → OutOk (execMulHighSigned t rd ra rb s) := by
  intros
  unfold execMulHighSigned
  repeat' first
    | with_reducible assumption
    | with_reducible apply arithOp_keeps

theorem execMulHighUnsigned_keeps : ∀ (t : Tid) (rd ra rb : RegNo) (s : State),
  Inv s → OutOk (execMulHighUnsigned t rd ra rb s) := by
  intros
  unfold execMulHighUnsigned
  repeat' first
    | with_reducible assumption
    | with_reducible apply arithOp_keeps

theorem execMulHighSignedUnsigned_keeps : ∀ (t : Tid) (rd ra rb : RegNo) (s : State),
  Inv s → OutOk (execMulHighSignedUnsigned t rd ra rb s) := by
  intros
  unfold execMulHighSignedUnsigned
  repeat' first
    | with_reducible assumption
    | with_reducible apply arithOp_keeps

theorem execDiv_keeps : ∀ (t : Tid) (rd ra rb : RegNo) (s : State),
  Inv s → OutOk (execDiv t rd ra rb s) := by
  intros
  unfold execDiv
  repeat' first
    | with_reducible assumption
    | with_reducible apply arithOp_keeps

theorem execDivu_keeps : ∀ (t : Tid) (rd ra rb : RegNo) (s : State),
  Inv s → OutOk (execDivu t rd ra rb s) := by
  intros
  unfold execDivu
  repeat' first
    | with_reducible assumption
    | with_reducible apply arithOp_keeps

theorem execRem_keeps : ∀ (t : Tid) (rd ra rb : RegNo) (s : State),
  Inv s → OutOk (execRem t rd ra rb s) := by
  intros
  unfold execRem
  repeat' first
    | with_reducible assumption
    | with_reducible apply arithOp_keeps

theorem execRemu_keeps : ∀ (t : Tid) (rd ra rb : RegNo) (s : State),
  Inv s → OutOk (execRemu t rd ra rb s) := by
  intros
  unfold execRemu
  repeat' first
    | with_reducible assumption
    | with_reducible apply arithOp_keeps

theorem execLongOpComplete_keeps : ∀ (t : Tid) (k : ℕ) (s : State),
  Inv s → OutOk (execLongOpComplete t k s) := by
  intros
  unfold execLongOpComplete
  repeat' first
    | with_reducible assumption
    | extract_lets +onlyGivenNames x
    | with_reducible apply updT_keeps
    | split
    | with_reducible apply outOk_next

theorem execAddt_keeps : ∀ (t : Tid) (rd ra rb : RegNo) (s : State),
  Inv s → OutOk (execAddt t rd ra rb s) := by
  intros
  unfold execAddt
  repeat' first
    | with_reducible assumption
    | with_reducible apply arithOp_keeps

theorem execSubt_keeps : ∀ (t : Tid) (rd ra rb : RegNo) (s : State),
  Inv s → OutOk (execSubt t rd ra rb s) := by
  intros
  unfold execSubt
  repeat' first
    | with_reducible assumption
    | with_reducible apply arithOp_keeps

theorem execMult_keeps : ∀ (t : Tid) (rd ra rb : RegNo) (s : State),
  Inv s → OutOk (execMult t rd ra rb s) := by
  intros
  unfold execMult
  repeat' first
    | with_reducible assumption
    | with_reducible apply arithOp_keeps

theorem execDivtQuotient_keeps : ∀ (t : Tid) (rd ra rb : RegNo) (s : State),
  Inv s → OutOk (execDivtQuotient t rd ra rb s) := by
  intros
  unfold execDivtQuotient
  repeat' first
    | with_reducible assumption
    | with_reducible apply arithOp_keeps

theorem execDivtRemainder_keeps : ∀ (t : Tid) (rd ra rb : RegNo) (s : State),
  Inv s → OutOk (execDivtRemainder t rd ra rb s) := by
  intros
  unfold execDivtRemainder
  repeat' first
    | with_reducible assumption
    | with_reducible apply arithOp_keeps

theorem execSel_keeps : ∀ (t : Tid) (rd ra rb rc : RegNo) (cond : BitVec 3) (rsv : BitVec 2)
  (s : State),
  Inv s → OutOk (execSel t rd ra rb rc cond rsv s) := by
  intros
  unfold execSel
  repeat' first
    | with_reducible assumption
    | intro _
    | (extract_lets +onlyGivenNames x; refine (fun (_ : Inv x) => ?_) ?_; clear_value x; rotate_left; subst x)
    | (extract_lets +onlyGivenNames x; clear_value x)
    | extract_lets +onlyGivenNames x
    | with_reducible apply instrNext_keeps
    | with_reducible apply useRegs_keeps
    | with_reducible apply illegal_keeps
    | with_reducible apply updT_keeps
    | split
    | with_reducible apply eOk_ok

theorem execCmov_keeps : ∀ (t : Tid) (rd ra rb rc : RegNo) (cond : BitVec 3) (rsv : BitVec 2)
  (s : State),
  Inv s → OutOk (execCmov t rd ra rb rc cond rsv s) := by
  intros
  unfold execCmov
  repeat' first
    | with_reducible assumption
    | intro _
    | (extract_lets +onlyGivenNames x; refine (fun (_ : Inv x) => ?_) ?_; clear_value x; rotate_left; subst x)
    | (extract_lets +onlyGivenNames x; clear_value x)
    | extract_lets +onlyGivenNames x
    | with_reducible apply instrNext_keeps
    | with_reducible apply useRegs_keeps
    | with_reducible apply illegal_keeps
    | with_reducible apply updT_keeps
    | split
    | with_reducible apply eOk_ok

end Sys2Proof.Machine
end

