-- ==== Sys2Proof/Laws/KeepsAtomics.lean ====
section
/-! SUPPORT. The invariant under the definitions of Machine/Atomics.lean. -/

namespace Sys2Proof.Machine

set_option linter.all false

theorem amoMem_keeps : ∀ (s : State) (t : Tid) (v : GReg) (a : Word)
  (x : Xl) (n : ℕ) (f : AmoF)
  (again : State → R (Xl × State)),
  Inv s →
    (∀ (a : State),
        Inv a →
          EOk
            (fun (a : Xl × State) => Inv a.2) (again a)) →
      EOk (fun (a : GReg × State) => Inv a.2)
        (amoMem s t v a x n f again) := by
  intros
  unfold amoMem
  repeat' first
    | with_reducible assumption
    | intro _
    | (extract_lets +onlyGivenNames x; refine (fun (_ : Inv x) => ?_) ?_; clear_value x; rotate_left; subst x)
    | (extract_lets +onlyGivenNames x; clear_value x)
    | extract_lets +onlyGivenNames x
    | with_reducible apply finishLine_keeps
    | with_reducible apply memRead_keeps
    | with_reducible apply faultAt_keeps
    | with_reducible apply settleDirty_keeps
    | with_reducible apply homeAtom_keeps
    | split
    | with_reducible apply eOk_ok
    | with_reducible apply eOk_error
    | with_reducible apply inv_foldl
    | refine inv_okP (by with_reducible assumption) ?_
    | refine inv_errP (by with_reducible assumption) ?_
    | refine inv_errA (by with_reducible assumption) ?_

theorem amoHost_keeps : ∀ (s : State) (t : Tid) (v : GReg) (a : Word) (p off n : ℕ)
  (h : HostAtom) (e : Option TlbEnt),
  Inv s →
    EOk
      (fun (a : Option GReg × State) => Inv a.2)
      (amoHost s t v a p off n h e) := by
  intros
  unfold amoHost
  repeat' first
    | with_reducible assumption
    | extract_lets +onlyGivenNames x
    | with_reducible apply hostAsk_keeps
    | split
    | with_reducible apply eOk_ok
    | with_reducible apply eOk_error
    | refine inv_okP (by with_reducible assumption) ?_
    | refine inv_errP (by with_reducible assumption) ?_

theorem amoOp_keeps : ∀ (s : State) (t : Tid) (words : List (BitVec 32)) (rd ra rb : RegNo)
  (bad : Bool) (order : BitVec 2) (n : ℕ) (tag : Bool)
  (host : Option (Thread → HostAtom))
  (f : Thread → AmoF) (fin : GReg → GReg),
  Inv s →
    OutOk (amoOp s t words rd ra rb bad order n tag host f fin) := by
  intros
  unfold amoOp
  repeat' first
    | with_reducible assumption
    | intro _
    | (extract_lets +onlyGivenNames x; refine (fun (_ : Inv x) => ?_) ?_; clear_value x; rotate_left; subst x)
    | (extract_lets +onlyGivenNames x; refine (fun (_ : ∀ s, Inv s → EOk (fun a => Inv a.2) (x s)) => ?_) ?_; clear_value x; rotate_left; subst x)
    | (extract_lets +onlyGivenNames x; clear_value x)
    | extract_lets +onlyGivenNames x
    | with_reducible apply instrNext_keeps
    | with_reducible apply illegal_keeps
    | with_reducible apply useRegs_keeps
    | with_reducible apply guardCap_keeps
    | with_reducible apply reachP_keeps
    | with_reducible apply drainRel_keeps
    | with_reducible apply drainBefore_keeps
    | with_reducible apply settleDirty_keeps
    | with_reducible apply amoHost_keeps
    | with_reducible apply updT_keeps
    | with_reducible apply amoMem_keeps
    | split
    | with_reducible apply eOk_ok
    | with_reducible apply eOk_bindP
    | with_reducible apply eOk_bindA
    | refine inv_pairP (by with_reducible assumption) ?_
    | with_reducible apply_assumption -exfalso -symm

theorem amo_keeps : ∀ (s : State) (t : Tid) (code : ℕ) (op : AmoOp) (rd ra rb : RegNo)
  (order : BitVec 2) (wide : Bool) (rsv : BitVec 3),
  Inv s → OutOk (amo s t code op rd ra rb order wide rsv) := by
  intros
  unfold amo
  repeat' first
    | with_reducible assumption
    | (extract_lets +onlyGivenNames x; clear_value x)
    | with_reducible apply amoOp_keeps

theorem execAmoFadd_keeps : ∀ (t : Tid) (rd ra rb : RegNo) (order : BitVec 2) (wide : Bool) (rsv : BitVec 3)
  (s : State),
  Inv s → OutOk (execAmoFadd t rd ra rb order wide rsv s) := by
  intros
  unfold execAmoFadd
  repeat' first
    | with_reducible assumption
    | with_reducible apply amo_keeps

theorem execAmoSwap_keeps : ∀ (t : Tid) (rd ra rb : RegNo) (order : BitVec 2) (wide : Bool) (rsv : BitVec 3)
  (s : State),
  Inv s → OutOk (execAmoSwap t rd ra rb order wide rsv s) := by
  intros
  unfold execAmoSwap
  repeat' first
    | with_reducible assumption
    | with_reducible apply amo_keeps

theorem execAmoAnd_keeps : ∀ (t : Tid) (rd ra rb : RegNo) (order : BitVec 2) (wide : Bool) (rsv : BitVec 3)
  (s : State),
  Inv s → OutOk (execAmoAnd t rd ra rb order wide rsv s) := by
  intros
  unfold execAmoAnd
  repeat' first
    | with_reducible assumption
    | with_reducible apply amo_keeps

theorem execAmoOr_keeps : ∀ (t : Tid) (rd ra rb : RegNo) (order : BitVec 2) (wide : Bool) (rsv : BitVec 3)
  (s : State),
  Inv s → OutOk (execAmoOr t rd ra rb order wide rsv s) := by
  intros
  unfold execAmoOr
  repeat' first
    | with_reducible assumption
    | with_reducible apply amo_keeps

theorem execAmoXor_keeps : ∀ (t : Tid) (rd ra rb : RegNo) (order : BitVec 2) (wide : Bool) (rsv : BitVec 3)
  (s : State),
  Inv s → OutOk (execAmoXor t rd ra rb order wide rsv s) := by
  intros
  unfold execAmoXor
  repeat' first
    | with_reducible assumption
    | with_reducible apply amo_keeps

theorem execAmoSmin_keeps : ∀ (t : Tid) (rd ra rb : RegNo) (order : BitVec 2) (wide : Bool) (rsv : BitVec 3)
  (s : State),
  Inv s → OutOk (execAmoSmin t rd ra rb order wide rsv s) := by
  intros
  unfold execAmoSmin
  repeat' first
    | with_reducible assumption
    | with_reducible apply amo_keeps

theorem execAmoSmax_keeps : ∀ (t : Tid) (rd ra rb : RegNo) (order : BitVec 2) (wide : Bool) (rsv : BitVec 3)
  (s : State),
  Inv s → OutOk (execAmoSmax t rd ra rb order wide rsv s) := by
  intros
  unfold execAmoSmax
  repeat' first
    | with_reducible assumption
    | with_reducible apply amo_keeps

theorem execAmoUmin_keeps : ∀ (t : Tid) (rd ra rb : RegNo) (order : BitVec 2) (wide : Bool) (rsv : BitVec 3)
  (s : State),
  Inv s → OutOk (execAmoUmin t rd ra rb order wide rsv s) := by
  intros
  unfold execAmoUmin
  repeat' first
    | with_reducible assumption
    | with_reducible apply amo_keeps

theorem execAmoUmax_keeps : ∀ (t : Tid) (rd ra rb : RegNo) (order : BitVec 2) (wide : Bool) (rsv : BitVec 3)
  (s : State),
  Inv s → OutOk (execAmoUmax t rd ra rb order wide rsv s) := by
  intros
  unfold execAmoUmax
  repeat' first
    | with_reducible assumption
    | with_reducible apply amo_keeps

theorem execCas_keeps : ∀ (t : Tid) (rd ra rb : RegNo) (order width : BitVec 2) (rsv : BitVec 6)
  (s : State),
  Inv s → OutOk (execCas t rd ra rb order width rsv s) := by
  intros
  unfold execCas
  repeat' first
    | with_reducible assumption
    | (extract_lets +onlyGivenNames x; clear_value x)
    | with_reducible apply amoOp_keeps

end Sys2Proof.Machine
end

