-- ==== Sys2Proof/Laws/KeepsBlock.lean ====
section
/-! SUPPORT. The invariant under the definitions of Machine/Block.lean. -/

namespace Sys2Proof.Machine

set_option linter.all false

theorem moveTo_keeps : ∀ (s : State) (t : Tid) (r : RegNo) (a : Word),
  Inv s → Inv (moveTo s t r a) := by
  intros
  unfold moveTo
  repeat' first
    | with_reducible assumption
    | with_reducible apply updT_keeps

theorem putCount_keeps : ∀ (s : State) (t : Tid) (rb : RegNo) (n : ℕ),
  Inv s → Inv (putCount s t rb n) := by
  intros
  unfold putCount
  repeat' first
    | with_reducible assumption
    | with_reducible apply updT_keeps

theorem elemEnd_keeps : ∀ (s : State) (t : Tid) (rb : RegNo) (n : ℕ),
  Inv s → Inv (elemEnd s t rb n).1 := by
  intros
  unfold elemEnd
  repeat' first
    | with_reducible assumption
    | extract_lets +onlyGivenNames x
    | with_reducible apply updT_keeps
    | with_reducible apply putCount_keeps

theorem storeElem_keeps : ∀ (s : State) (t : Tid) (v : GReg) (a : Word)
  (x : Xl) (bs : List Byte) (tags : List Bool),
  Inv s →
    EOk Inv (storeElem s t v a x bs tags) := by
  intros
  unfold storeElem
  repeat' first
    | with_reducible assumption
    | intro _
    | extract_lets +onlyGivenNames x
    | with_reducible apply storeAt_keeps
    | split
    | with_reducible apply eOk_foldlM

theorem blkMove_keeps : ∀ (s : State) (t : Tid) (rd ra rb : RegNo) (fn : BitVec 10),
  Inv s →
    EOk (fun (a : State × Blk) => Inv a.1)
      (blkMove s t rd ra rb fn) := by
  intros
  unfold blkMove
  repeat' first
    | with_reducible assumption
    | intro _
    | (extract_lets +onlyGivenNames x; refine (fun (_ : Inv x) => ?_) ?_; clear_value x; rotate_left; subst x)
    | (extract_lets +onlyGivenNames x; clear_value x)
    | extract_lets +onlyGivenNames x
    | with_reducible apply guardAll_keeps
    | with_reducible apply reach2_keeps
    | with_reducible apply reach_keeps
    | with_reducible apply loadAt_keeps
    | with_reducible apply guardCap_keeps
    | with_reducible apply settleDirty_keeps
    | with_reducible apply storeElem_keeps
    | with_reducible apply moveTo_keeps
    | with_reducible apply elemEnd_keeps
    | split
    | with_reducible apply eOk_ok
    | with_reducible apply eOk_bindS
    | with_reducible apply eOk_bindP
    | with_reducible apply eOk_bindT
    | with_reducible apply eOk_bindA
    | refine inv_pairP (by with_reducible assumption) ?_
    | refine inv_pairT (by with_reducible assumption) ?_

theorem blkFill_keeps : ∀ (s : State) (t : Tid) (rd ra rb : RegNo),
  Inv s →
    EOk (fun (a : State × Blk) => Inv a.1)
      (blkFill s t rd ra rb) := by
  intros
  unfold blkFill
  repeat' first
    | with_reducible assumption
    | intro _
    | (extract_lets +onlyGivenNames x; clear_value x)
    | extract_lets +onlyGivenNames x
    | with_reducible apply guardCap_keeps
    | with_reducible apply reachStore_keeps
    | with_reducible apply storeElem_keeps
    | with_reducible apply elemEnd_keeps
    | with_reducible apply moveTo_keeps
    | split
    | with_reducible apply eOk_ok
    | with_reducible apply eOk_bindS
    | with_reducible apply eOk_bindP
    | with_reducible apply eOk_bindA
    | refine inv_pairP (by with_reducible assumption) ?_

theorem blkCmp_keeps : ∀ (s : State) (t : Tid) (rd ra rb : RegNo),
  Inv s →
    EOk (fun (a : State × Blk) => Inv a.1)
      (blkCmp s t rd ra rb) := by
  intros
  unfold blkCmp
  repeat' first
    | with_reducible assumption
    | intro _
    | (extract_lets +onlyGivenNames x; refine (fun (_ : Inv x) => ?_) ?_; clear_value x; rotate_left; subst x)
    | (extract_lets +onlyGivenNames x; clear_value x)
    | extract_lets +onlyGivenNames x
    | with_reducible apply guardAll_keeps
    | with_reducible apply reach2_keeps
    | with_reducible apply reach_keeps
    | with_reducible apply loadAt_keeps
    | with_reducible apply moveTo_keeps
    | with_reducible apply elemEnd_keeps
    | split
    | with_reducible apply eOk_ok
    | with_reducible apply eOk_bindP
    | with_reducible apply eOk_bindT
    | with_reducible apply eOk_bindA
    | refine inv_pairP (by with_reducible assumption) ?_
    | refine inv_pairQ (by with_reducible assumption) ?_
    | refine inv_pairT (by with_reducible assumption) ?_

theorem crcRange_keeps : ∀ (s : State) (t : Tid) (rd ra rb : RegNo) (fn : BitVec 10),
  Inv s →
    EOk (fun (a : State × Blk) => Inv a.1)
      (crcRange s t rd ra rb fn) := by
  intros
  unfold crcRange
  repeat' first
    | with_reducible assumption
    | intro _
    | (extract_lets +onlyGivenNames x; clear_value x)
    | extract_lets +onlyGivenNames x
    | with_reducible apply guardCap_keeps
    | with_reducible apply reach_keeps
    | with_reducible apply loadAt_keeps
    | with_reducible apply elemEnd_keeps
    | with_reducible apply moveTo_keeps
    | with_reducible apply putInt_keeps
    | split
    | with_reducible apply eOk_ok
    | with_reducible apply eOk_bindP
    | with_reducible apply eOk_bindA
    | refine inv_pairP (by with_reducible assumption) ?_

theorem nttReach_keeps : ∀ (t : Tid) (k : XKind) (v : GReg) (i : ℕ)
  (s : State),
  Inv s →
    EOk
      (fun (a : (ℕ × Xl) × State) => Inv a.2)
      (nttReach t k v i s) := by
  intros
  unfold nttReach
  repeat' first
    | with_reducible assumption
    | extract_lets +onlyGivenNames x
    | with_reducible apply reach_keeps
    | split
    | with_reducible apply eOk_ok
    | with_reducible apply eOk_error
    | refine inv_okP (by with_reducible assumption) ?_
    | refine inv_errP (by with_reducible assumption) ?_

theorem nttRead_keeps : ∀ (t : Tid) (v : GReg) (a : List (ℕ × Xl)) (a_1 : ℕ)
  (a_2 : State),
  Inv a_2 →
    EOk
      (fun (a : Option (List (ℕ × ℕ)) × ℕ × State) => Inv a.2.2)
      (nttRead t v a a_1 a_2) := by
  intro a0 a1 a2 a3 a4
  fun_induction nttRead a0 a1 a2 a3 a4 <;> intros
  all_goals repeat' first
    | with_reducible assumption
    | extract_lets +onlyGivenNames x
    | with_reducible apply loadAt_keeps
    | with_reducible apply eOk_ok
    | with_reducible apply eOk_error
    | refine inv_okP (by with_reducible assumption) ?_
    | refine inv_okT (by with_reducible assumption) ?_
    | refine inv_errP (by with_reducible assumption) ?_
    | refine inv_errT (by with_reducible assumption) ?_
    | with_reducible apply_assumption -exfalso -symm

theorem nttDirty_keeps : ∀ (t : Tid) (v : GReg) (a : List (ℕ × Xl))
  (a_1 : State),
  Inv a_1 →
    EOk
      (fun (a : List (ℕ × Xl) × State) => Inv a.2)
      (nttDirty t v a a_1) := by
  intro a0 a1 a2 a3
  fun_induction nttDirty a0 a1 a2 a3 <;> intros
  all_goals repeat' first
    | with_reducible assumption
    | intro _
    | extract_lets +onlyGivenNames x
    | with_reducible apply settleDirty_keeps
    | with_reducible apply reach_keeps
    | split
    | with_reducible apply eOk_ok
    | with_reducible apply eOk_bindP
    | refine inv_pairP (by with_reducible assumption) ?_
    | with_reducible apply_assumption -exfalso -symm

theorem nttWrite_keeps : ∀ (t : Tid) (v : GReg) (m : List (ℕ × ℕ)) (a : List (ℕ × Xl))
  (a_1 : State),
  Inv a_1 → EOk Inv (nttWrite t v m a a_1) := by
  intro a0 a1 a2 a3 a4
  fun_induction nttWrite a0 a1 a2 a3 a4 <;> intros
  all_goals repeat' first
    | with_reducible assumption
    | extract_lets +onlyGivenNames x
    | with_reducible apply storeAt_keeps
    | with_reducible apply eOk_ok
    | with_reducible apply eOk_error
    | refine inv_okS (by with_reducible assumption) ?_
    | refine inv_errS (by with_reducible assumption) ?_
    | with_reducible apply_assumption -exfalso -symm

theorem nttReadAll_keeps : ∀ (t : Tid) (arr tw : GReg) (xa xz : List (ℕ × Xl)) (q : ℕ)
  (s : State),
  Inv s →
    EOk
      (fun (a : Option (List (ℕ × ℕ)) × Option (List (ℕ × ℕ)) × State) =>
        Inv a.2.2)
      (nttReadAll t arr tw xa xz q s) := by
  intros
  unfold nttReadAll
  repeat' first
    | with_reducible assumption
    | (extract_lets +onlyGivenNames x; clear_value x)
    | extract_lets +onlyGivenNames x
    | with_reducible apply nttRead_keeps
    | with_reducible apply faultAt_keeps
    | split
    | with_reducible apply eOk_ok
    | with_reducible apply eOk_error
    | refine inv_okT (by with_reducible assumption) ?_
    | refine inv_errT (by with_reducible assumption) ?_

theorem nttPass_keeps : ∀ (s : State) (t : Tid) (rd ra rb : RegNo),
  Inv s →
    EOk (fun (a : State × Blk) => Inv a.1)
      (nttPass s t rd ra rb) := by
  intros
  unfold nttPass
  repeat' first
    | with_reducible assumption
    | with_reducible apply allKeep_append
    | with_reducible apply allKeep_map
    | intro _
    | (extract_lets +onlyGivenNames x; clear_value x)
    | extract_lets +onlyGivenNames x
    | with_reducible apply guardAll_keeps
    | with_reducible apply reachAll_keeps
    | with_reducible apply nttReach_keeps
    | with_reducible apply nttReadAll_keeps
    | with_reducible apply faultAt_keeps
    | with_reducible apply nttDirty_keeps
    | with_reducible apply nttWrite_keeps
    | with_reducible apply updT_keeps
    | split
    | with_reducible apply eOk_ok
    | with_reducible apply eOk_bindS
    | with_reducible apply eOk_bindP
    | with_reducible apply eOk_bindT
    | with_reducible apply eOk_bindA
    | refine inv_pairP (by with_reducible assumption) ?_
    | refine inv_pairT (by with_reducible assumption) ?_

theorem blkElem_keeps : ∀ (s : State) (t : Tid) (op : BlkOp) (rd ra rb : RegNo),
  Inv s →
    EOk (fun (a : State × Blk) => Inv a.1)
      (blkElem s t op rd ra rb) := by
  intros
  unfold blkElem
  repeat' first
    | with_reducible assumption
    | with_reducible apply blkMove_keeps
    | with_reducible apply blkFill_keeps
    | with_reducible apply blkCmp_keeps
    | with_reducible apply crcRange_keeps
    | with_reducible apply nttPass_keeps
    | split

theorem blkStart_keeps : ∀ (s : State) (t : Tid) (op : BlkOp) (rd ra rb : RegNo),
  Inv s →
    EOk (fun (a : State × Bool) => Inv a.1)
      (blkStart s t op rd ra rb) := by
  intros
  unfold blkStart
  repeat' first
    | with_reducible assumption
    | (extract_lets +onlyGivenNames x; refine (fun (_ : Inv x) => ?_) ?_; clear_value x; rotate_left; subst x)
    | (extract_lets +onlyGivenNames x; clear_value x)
    | with_reducible apply illegal_keeps
    | with_reducible apply useRegs_keeps
    | with_reducible apply faultAt_keeps
    | split
    | with_reducible apply eOk_ok

theorem blkLoop_keeps : ∀ (t : Tid) (op : BlkOp) (rd ra rb : RegNo) (a : ℕ) (a_1 : State),
  Inv a_1 →
    EOk Inv (blkLoop t op rd ra rb a a_1) := by
  intro a0 a1 a2 a3 a4 a5 a6
  fun_induction blkLoop a0 a1 a2 a3 a4 a5 a6 <;> intros
  all_goals repeat' first
    | with_reducible assumption
    | extract_lets +onlyGivenNames x
    | with_reducible apply blkElem_keeps
    | with_reducible apply checkElement_keeps
    | with_reducible apply eOk_ok
    | with_reducible apply eOk_error
    | refine inv_okQ (by with_reducible assumption) ?_
    | refine inv_errQ (by with_reducible assumption) ?_
    | with_reducible apply_assumption -exfalso -symm

theorem blkWhole_keeps : ∀ (s : State) (t : Tid) (op : BlkOp) (rd ra rb : RegNo),
  Inv s → OutOk (blkWhole s t op rd ra rb) := by
  intros
  unfold blkWhole
  repeat' first
    | with_reducible assumption
    | intro _
    | extract_lets +onlyGivenNames x
    | with_reducible apply instrNext_keeps
    | with_reducible apply blkStart_keeps
    | with_reducible apply blkLoop_keeps
    | split
    | with_reducible apply eOk_ok
    | with_reducible apply eOk_bindQ
    | refine inv_pairQ (by with_reducible assumption) ?_

theorem elementStep_keeps : ∀ (s : State) (t : Tid) (op : BlkOp) (rd ra rb : RegNo),
  Inv s → Inv (elementStep s t op rd ra rb) := by
  intros
  unfold elementStep
  repeat' first
    | with_reducible assumption
    | intro _
    | (extract_lets +onlyGivenNames x; clear_value x)
    | extract_lets +onlyGivenNames x
    | with_reducible apply reportExcs_keeps
    | with_reducible apply mismatch_keeps
    | with_reducible apply fetchCheck_keeps
    | with_reducible apply blkStart_keeps
    | with_reducible apply blkElem_keeps
    | with_reducible apply retire_keeps
    | with_reducible apply checkRetired_keeps
    | with_reducible apply stepPc_keeps
    | with_reducible apply takeRoots_keeps
    | with_reducible apply updT_keeps
    | with_reducible apply checkElement_keeps
    | with_reducible apply raise_keeps
    | split
    | with_reducible apply eOk_ok
    | with_reducible apply eOk_bindS
    | with_reducible apply eOk_bindQ
    | refine inv_okQ (by with_reducible assumption) ?_
    | refine inv_errQ (by with_reducible assumption) ?_
    | refine inv_pairQ (by with_reducible assumption) ?_

theorem blkInstr_keeps : ∀ (s : State) (t : Tid) (op : BlkOp) (rd ra rb : RegNo),
  Inv s → OutOk (blkInstr s t op rd ra rb) := by
  intros
  unfold blkInstr
  repeat' first
    | with_reducible assumption
    | extract_lets +onlyGivenNames x
    | with_reducible apply blkWhole_keeps
    | with_reducible apply elementStep_keeps
    | split
    | with_reducible apply outOk_next

theorem execBlkmove_keeps : ∀ (t : Tid) (rd ra rb : RegNo) (fn : BitVec 10) (s : State),
  Inv s → OutOk (execBlkmove t rd ra rb fn s) := by
  intros
  unfold execBlkmove
  repeat' first
    | with_reducible assumption
    | with_reducible apply blkInstr_keeps

theorem execBlkfill_keeps : ∀ (t : Tid) (rd ra rb : RegNo) (fn : BitVec 10) (s : State),
  Inv s → OutOk (execBlkfill t rd ra rb fn s) := by
  intros
  unfold execBlkfill
  repeat' first
    | with_reducible assumption
    | with_reducible apply blkInstr_keeps

theorem execBlkcmp_keeps : ∀ (t : Tid) (rd ra rb : RegNo) (fn : BitVec 10) (s : State),
  Inv s → OutOk (execBlkcmp t rd ra rb fn s) := by
  intros
  unfold execBlkcmp
  repeat' first
    | with_reducible assumption
    | with_reducible apply blkInstr_keeps

theorem execCrcrange_keeps : ∀ (t : Tid) (rd ra rb : RegNo) (fn : BitVec 10) (s : State),
  Inv s → OutOk (execCrcrange t rd ra rb fn s) := by
  intros
  unfold execCrcrange
  repeat' first
    | with_reducible assumption
    | with_reducible apply blkInstr_keeps

theorem execNttpass_keeps : ∀ (t : Tid) (rd ra rb : RegNo) (fn : BitVec 10) (s : State),
  Inv s → OutOk (execNttpass t rd ra rb fn s) := by
  intros
  unfold execNttpass
  repeat' first
    | with_reducible assumption
    | with_reducible apply blkInstr_keeps

theorem execBlockElement_keeps : ∀ (t : Tid) (op : BlkOp) (rd ra rb : RegNo) (s : State),
  Inv s → OutOk (execBlockElement t op rd ra rb s) := by
  intros
  unfold execBlockElement
  repeat' first
    | with_reducible assumption
    | extract_lets +onlyGivenNames x
    | with_reducible apply elementStep_keeps
    | with_reducible apply outOk_next

end Sys2Proof.Machine
end

