-- ==== Sys2Proof/Laws/KeepsCapOps.lean ====
section
/-! SUPPORT. The invariant under the definitions of Machine/CapOps.lean. -/

namespace Sys2Proof.Machine

set_option linter.all false

theorem capOp_keeps : ∀ (s : State) (t : Tid) (rd ra rb : RegNo) (fn : BitVec 10)
  (f : Bool → GReg → GReg → Except ℕ GReg),
  Inv s → OutOk (capOp s t rd ra rb fn f) := by
  intros
  unfold capOp
  repeat' first
    | with_reducible assumption
    | intro _
    | (extract_lets +onlyGivenNames x; refine (fun (_ : Inv x) => ?_) ?_; clear_value x; rotate_left; subst x)
    | (extract_lets +onlyGivenNames x; clear_value x)
    | extract_lets +onlyGivenNames x
    | with_reducible apply instrNext_keeps
    | with_reducible apply useRegs_keeps
    | with_reducible apply faultAt_keeps
    | with_reducible apply updT_keeps
    | split
    | with_reducible apply eOk_ok

theorem execCxbase_keeps : ∀ (t : Tid) (rd ra rb : RegNo) (s : State),
  Inv s → OutOk (execCxbase t rd ra rb s) := by
  intros
  unfold execCxbase
  repeat' first
    | with_reducible assumption
    | with_reducible apply capOp_keeps

theorem execCxlen_keeps : ∀ (t : Tid) (rd ra rb : RegNo) (s : State),
  Inv s → OutOk (execCxlen t rd ra rb s) := by
  intros
  unfold execCxlen
  repeat' first
    | with_reducible assumption
    | with_reducible apply capOp_keeps

theorem execCxperm_keeps : ∀ (t : Tid) (rd ra rb : RegNo) (s : State),
  Inv s → OutOk (execCxperm t rd ra rb s) := by
  intros
  unfold execCxperm
  repeat' first
    | with_reducible assumption
    | with_reducible apply capOp_keeps

theorem execCxtype_keeps : ∀ (t : Tid) (rd ra rb : RegNo) (s : State),
  Inv s → OutOk (execCxtype t rd ra rb s) := by
  intros
  unfold execCxtype
  repeat' first
    | with_reducible assumption
    | with_reducible apply capOp_keeps

theorem execCxtag_keeps : ∀ (t : Tid) (rd ra rb : RegNo) (s : State),
  Inv s → OutOk (execCxtag t rd ra rb s) := by
  intros
  unfold execCxtag
  repeat' first
    | with_reducible assumption
    | with_reducible apply capOp_keeps

theorem execCxmove_keeps : ∀ (t : Tid) (rd ra rb : RegNo) (s : State),
  Inv s → OutOk (execCxmove t rd ra rb s) := by
  intros
  unfold execCxmove
  repeat' first
    | with_reducible assumption
    | with_reducible apply capOp_keeps

theorem execCxdrop_keeps : ∀ (t : Tid) (rd ra rb : RegNo) (s : State),
  Inv s → OutOk (execCxdrop t rd ra rb s) := by
  intros
  unfold execCxdrop
  repeat' first
    | with_reducible assumption
    | with_reducible apply capOp_keeps

theorem execCxbound_keeps : ∀ (t : Tid) (rd ra rb : RegNo) (s : State),
  Inv s → OutOk (execCxbound t rd ra rb s) := by
  intros
  unfold execCxbound
  repeat' first
    | with_reducible assumption
    | with_reducible apply capOp_keeps

theorem execCxboundx_keeps : ∀ (t : Tid) (rd ra rb : RegNo) (s : State),
  Inv s → OutOk (execCxboundx t rd ra rb s) := by
  intros
  unfold execCxboundx
  repeat' first
    | with_reducible assumption
    | with_reducible apply capOp_keeps

theorem execCxseal_keeps : ∀ (t : Tid) (rd ra rb : RegNo) (s : State),
  Inv s → OutOk (execCxseal t rd ra rb s) := by
  intros
  unfold execCxseal
  repeat' first
    | with_reducible assumption
    | with_reducible apply capOp_keeps

theorem execCxopen_keeps : ∀ (t : Tid) (rd ra rb : RegNo) (s : State),
  Inv s → OutOk (execCxopen t rd ra rb s) := by
  intros
  unfold execCxopen
  repeat' first
    | with_reducible assumption
    | with_reducible apply capOp_keeps

theorem execCxstrip_keeps : ∀ (t : Tid) (rd ra rb : RegNo) (s : State),
  Inv s → OutOk (execCxstrip t rd ra rb s) := by
  intros
  unfold execCxstrip
  repeat' first
    | with_reducible assumption
    | with_reducible apply capOp_keeps

theorem execCxwithin_keeps : ∀ (t : Tid) (rd ra rb : RegNo) (s : State),
  Inv s → OutOk (execCxwithin t rd ra rb s) := by
  intros
  unfold execCxwithin
  repeat' first
    | with_reducible assumption
    | with_reducible apply capOp_keeps

theorem execCxfitlen_keeps : ∀ (t : Tid) (rd ra rb : RegNo) (s : State),
  Inv s → OutOk (execCxfitlen t rd ra rb s) := by
  intros
  unfold execCxfitlen
  repeat' first
    | with_reducible assumption
    | with_reducible apply capOp_keeps

theorem execCxfitbase_keeps : ∀ (t : Tid) (rd ra rb : RegNo) (s : State),
  Inv s → OutOk (execCxfitbase t rd ra rb s) := by
  intros
  unfold execCxfitbase
  repeat' first
    | with_reducible assumption
    | with_reducible apply capOp_keeps

theorem capImm_keeps : ∀ (s : State) (t : Tid) (op : ℕ) (limm : Limm) (rd ra : RegNo)
  (imm : BitVec 15) (f : Bool → GReg → Word → Except ℕ GReg),
  Inv s → OutOk (capImm s t op limm rd ra imm f) := by
  intros
  unfold capImm
  repeat' first
    | with_reducible assumption
    | intro _
    | (extract_lets +onlyGivenNames x; refine (fun (_ : Inv x) => ?_) ?_; clear_value x; rotate_left; subst x)
    | (extract_lets +onlyGivenNames x; clear_value x)
    | extract_lets +onlyGivenNames x
    | with_reducible apply instrNext_keeps
    | with_reducible apply illegal_keeps
    | with_reducible apply useRegs_keeps
    | with_reducible apply faultAt_keeps
    | with_reducible apply updT_keeps
    | split
    | with_reducible apply eOk_ok

theorem execCxaddi_keeps : ∀ (t : Tid) (limm : Limm) (rd ra : RegNo) (imm : BitVec 15)
  (s : State),
  Inv s → OutOk (execCxaddi t limm rd ra imm s) := by
  intros
  unfold execCxaddi
  repeat' first
    | with_reducible assumption
    | with_reducible apply capImm_keeps

theorem execCxboundi_keeps : ∀ (t : Tid) (limm : Limm) (rd ra : RegNo) (imm : BitVec 15)
  (s : State),
  Inv s → OutOk (execCxboundi t limm rd ra imm s) := by
  intros
  unfold execCxboundi
  repeat' first
    | with_reducible assumption
    | with_reducible apply capImm_keeps

end Sys2Proof.Machine
end

