-- ==== Sys2Proof/Laws/KeepsControl.lean ====
section
/-! SUPPORT. The invariant under the definitions of Machine/Control.lean. -/

namespace Sys2Proof.Machine

set_option linter.all false

theorem setPcc_keeps : ∀ (s : State) (t : Tid) (v : GReg) (a : Word),
  Inv s → Inv (setPcc s t v a) := by
  intros
  unfold setPcc
  repeat' first
    | with_reducible assumption
    | with_reducible apply updT_keeps

theorem transferred_keeps : ∀ (s : State) (t : Tid) (taken : Bool),
  Inv s → Inv (transferred s t taken) := by
  intros
  unfold transferred
  repeat' first
    | with_reducible assumption
    | extract_lets +onlyGivenNames x
    | with_reducible apply pmEvent_keeps
    | with_reducible apply updT_keeps

theorem pushReturn_keeps : ∀ (s : State) (t : Tid) (a : Word),
  Inv s → Inv (pushReturn s t a) := by
  intros
  unfold pushReturn
  repeat' first
    | with_reducible assumption
    | with_reducible apply updT_keeps

theorem popReturn_keeps : ∀ (s : State) (t : Tid),
  Inv s → Inv (popReturn s t) := by
  intros
  unfold popReturn
  repeat' first
    | with_reducible assumption
    | with_reducible apply updT_keeps

theorem branch_keeps : ∀ (s : State) (t : Tid) (op : ℕ) (ra rb : RegNo) (disp : BitVec 15)
  (c : Word → Word → Bool),
  Inv s → OutOk (branch s t op ra rb disp c) := by
  intros
  unfold branch
  repeat' first
    | with_reducible assumption
    | intro _
    | (extract_lets +onlyGivenNames x; refine (fun (_ : Inv x) => ?_) ?_; clear_value x; rotate_left; subst x)
    | (extract_lets +onlyGivenNames x; clear_value x)
    | extract_lets +onlyGivenNames x
    | with_reducible apply instrJump_keeps
    | with_reducible apply useRegs_keeps
    | with_reducible apply guardCap_keeps
    | with_reducible apply transferred_keeps
    | with_reducible apply setPcc_keeps
    | with_reducible apply stepPc_keeps
    | split
    | with_reducible apply eOk_ok
    | with_reducible apply eOk_bindA

theorem execBeq_keeps : ∀ (t : Tid) (ra rb : RegNo) (disp : BitVec 15) (s : State),
  Inv s → OutOk (execBeq t ra rb disp s) := by
  intros
  unfold execBeq
  repeat' first
    | with_reducible assumption
    | with_reducible apply branch_keeps

theorem execBne_keeps : ∀ (t : Tid) (ra rb : RegNo) (disp : BitVec 15) (s : State),
  Inv s → OutOk (execBne t ra rb disp s) := by
  intros
  unfold execBne
  repeat' first
    | with_reducible assumption
    | with_reducible apply branch_keeps

theorem execBlt_keeps : ∀ (t : Tid) (ra rb : RegNo) (disp : BitVec 15) (s : State),
  Inv s → OutOk (execBlt t ra rb disp s) := by
  intros
  unfold execBlt
  repeat' first
    | with_reducible assumption
    | with_reducible apply branch_keeps

theorem execBge_keeps : ∀ (t : Tid) (ra rb : RegNo) (disp : BitVec 15) (s : State),
  Inv s → OutOk (execBge t ra rb disp s) := by
  intros
  unfold execBge
  repeat' first
    | with_reducible assumption
    | with_reducible apply branch_keeps

theorem execBltu_keeps : ∀ (t : Tid) (ra rb : RegNo) (disp : BitVec 15) (s : State),
  Inv s → OutOk (execBltu t ra rb disp s) := by
  intros
  unfold execBltu
  repeat' first
    | with_reducible assumption
    | with_reducible apply branch_keeps

theorem execBgeu_keeps : ∀ (t : Tid) (ra rb : RegNo) (disp : BitVec 15) (s : State),
  Inv s → OutOk (execBgeu t ra rb disp s) := by
  intros
  unfold execBgeu
  repeat' first
    | with_reducible assumption
    | with_reducible apply branch_keeps

theorem execJ_keeps : ∀ (t : Tid) (disp : BitVec 25) (s : State),
  Inv s → OutOk (execJ t disp s) := by
  intros
  unfold execJ
  repeat' first
    | with_reducible assumption
    | intro _
    | (extract_lets +onlyGivenNames x; clear_value x)
    | extract_lets +onlyGivenNames x
    | with_reducible apply instrJump_keeps
    | with_reducible apply guardCap_keeps
    | with_reducible apply transferred_keeps
    | with_reducible apply setPcc_keeps
    | with_reducible apply eOk_ok
    | with_reducible apply eOk_bindA

theorem execJr_keeps : ∀ (t : Tid) (ra : RegNo) (s : State),
  Inv s → OutOk (execJr t ra s) := by
  intros
  unfold execJr
  repeat' first
    | with_reducible assumption
    | intro _
    | (extract_lets +onlyGivenNames x; refine (fun (_ : Inv x) => ?_) ?_; clear_value x; rotate_left; subst x)
    | (extract_lets +onlyGivenNames x; clear_value x)
    | extract_lets +onlyGivenNames x
    | with_reducible apply instrJump_keeps
    | with_reducible apply useRegs_keeps
    | with_reducible apply guardCap_keeps
    | with_reducible apply transferred_keeps
    | with_reducible apply setPcc_keeps
    | with_reducible apply eOk_ok
    | with_reducible apply eOk_bindA

theorem doCall_keeps : ∀ (s : State) (t : Tid) (n o : ℕ) (v : GReg) (a : Word),
  Inv s → Inv (doCall s t n o v a) := by
  intros
  unfold doCall
  repeat' first
    | with_reducible assumption
    | (extract_lets +onlyGivenNames x; refine (fun (_ : Inv x) => ?_) ?_; clear_value x; rotate_left; subst x)
    | (extract_lets +onlyGivenNames x; clear_value x)
    | extract_lets +onlyGivenNames x
    | with_reducible apply updT_keeps
    | with_reducible apply transferred_keeps
    | with_reducible apply pushReturn_keeps
    | with_reducible apply setPcc_keeps

theorem execCall_keeps : ∀ (t : Tid) (disp : BitVec 25) (s : State),
  Inv s → OutOk (execCall t disp s) := by
  intros
  unfold execCall
  repeat' first
    | with_reducible assumption
    | intro _
    | (extract_lets +onlyGivenNames x; clear_value x)
    | extract_lets +onlyGivenNames x
    | with_reducible apply atReportPoint_keeps
    | with_reducible apply instrJump_keeps
    | with_reducible apply guardCap_keeps
    | with_reducible apply waitFree_keeps
    | with_reducible apply doCall_keeps
    | with_reducible apply eOk_ok
    | with_reducible apply eOk_bindS
    | with_reducible apply eOk_bindA

theorem execCallr_keeps : ∀ (t : Tid) (ra : RegNo) (s : State),
  Inv s → OutOk (execCallr t ra s) := by
  intros
  unfold execCallr
  repeat' first
    | with_reducible assumption
    | intro _
    | (extract_lets +onlyGivenNames x; refine (fun (_ : Inv x) => ?_) ?_; clear_value x; rotate_left; subst x)
    | (extract_lets +onlyGivenNames x; clear_value x)
    | extract_lets +onlyGivenNames x
    | with_reducible apply atReportPoint_keeps
    | with_reducible apply instrJump_keeps
    | with_reducible apply useRegs_keeps
    | with_reducible apply guardCap_keeps
    | with_reducible apply waitFree_keeps
    | with_reducible apply doCall_keeps
    | with_reducible apply clearWhen_keeps
    | split
    | with_reducible apply eOk_ok
    | with_reducible apply eOk_bindS
    | with_reducible apply eOk_bindA

theorem execRet_keeps : ∀ (t : Tid) (s : State),
  Inv s → OutOk (execRet t s) := by
  intros
  unfold execRet
  repeat' first
    | with_reducible assumption
    | intro _
    | (extract_lets +onlyGivenNames x; refine (fun (_ : Inv x) => ?_) ?_; clear_value x; rotate_left; subst x)
    | (extract_lets +onlyGivenNames x; clear_value x)
    | extract_lets +onlyGivenNames x
    | with_reducible apply atReportPoint_keeps
    | with_reducible apply instrJump_keeps
    | with_reducible apply guardCap_keeps
    | with_reducible apply fillForReturn_keeps
    | with_reducible apply popReturn_keeps
    | with_reducible apply setPcc_keeps
    | with_reducible apply updT_keeps
    | with_reducible apply clearWhen_keeps
    | with_reducible apply transferred_keeps
    | with_reducible apply eOk_ok
    | with_reducible apply eOk_bindS
    | with_reducible apply eOk_bindA

theorem execSpill_keeps : ∀ (t : Tid) (s : State),
  Inv s → OutOk (execSpill t s) := by
  intros
  unfold execSpill
  repeat' first
    | with_reducible assumption
    | extract_lets +onlyGivenNames x
    | with_reducible apply spillEngine_keeps
    | split
    | with_reducible apply outOk_next

theorem execWindowFill_keeps : ∀ (t : Tid) (s : State),
  Inv s → OutOk (execWindowFill t s) := by
  intros
  unfold execWindowFill
  repeat' first
    | with_reducible assumption
    | extract_lets +onlyGivenNames x
    | with_reducible apply fillOne_keeps
    | split
    | with_reducible apply outOk_next
    | refine inv_okP (by with_reducible assumption) ?_

theorem execTrap_keeps : ∀ (t : Tid) (limm : Limm) (n : BitVec 15) (s : State),
  Inv s → OutOk (execTrap t limm n s) := by
  intros
  unfold execTrap
  repeat' first
    | with_reducible assumption
    | intro _
    | (extract_lets +onlyGivenNames x; refine (fun (_ : Inv x) => ?_) ?_; clear_value x; rotate_left; subst x)
    | (extract_lets +onlyGivenNames x; refine (fun (_ : EOk (fun _ => True) x) => ?_) ?_; clear_value x; rotate_left; subst x)
    | (extract_lets +onlyGivenNames x; clear_value x)
    | extract_lets +onlyGivenNames x
    | with_reducible apply atReportPoint_keeps
    | with_reducible apply instrJump_keeps
    | with_reducible apply illegal_keeps
    | with_reducible apply faultAt_keeps
    | with_reducible apply loadLine_keeps
    | with_reducible apply guardCap_keeps
    | with_reducible apply waitFree_keeps
    | with_reducible apply updT_keeps
    | with_reducible apply replaceWstack_keeps
    | with_reducible apply transferred_keeps
    | with_reducible apply pushReturn_keeps
    | with_reducible apply setPcc_keeps
    | with_reducible apply clearWhen_keeps
    | split
    | with_reducible apply eOk_ok
    | with_reducible apply eOk_error
    | with_reducible apply eOk_bindS
    | with_reducible apply eOk_bindP
    | with_reducible apply eOk_bindA
    | refine inv_okS (by with_reducible assumption) ?_
    | refine inv_errS (by with_reducible assumption) ?_
    | refine inv_pairP (by with_reducible assumption) ?_

theorem execFret_keeps : ∀ (t : Tid) (rsv : BitVec 25) (s : State),
  Inv s → OutOk (execFret t rsv s) := by
  intros
  unfold execFret
  repeat' first
    | with_reducible assumption
    | intro _
    | (extract_lets +onlyGivenNames x; refine (fun (_ : Inv x) => ?_) ?_; clear_value x; rotate_left; subst x)
    | (extract_lets +onlyGivenNames x; clear_value x)
    | extract_lets +onlyGivenNames x
    | with_reducible apply atReportPoint_keeps
    | with_reducible apply instrJump_keeps
    | with_reducible apply illegal_keeps
    | with_reducible apply faultAt_keeps
    | with_reducible apply loadGranules_keeps
    | with_reducible apply guardCap_keeps
    | with_reducible apply fillForReturn_keeps
    | with_reducible apply updT_keeps
    | with_reducible apply State.putF_keeps
    | with_reducible apply shallower_keeps
    | with_reducible apply transferred_keeps
    | with_reducible apply popReturn_keeps
    | with_reducible apply setPcc_keeps
    | with_reducible apply clearWhen_keeps
    | split
    | with_reducible apply eOk_ok
    | with_reducible apply eOk_bindS
    | with_reducible apply eOk_bindT
    | with_reducible apply eOk_bindA
    | refine inv_pairT (by with_reducible assumption) ?_

theorem execWait_keeps : ∀ (t : Tid) (ra : RegNo) (s : State),
  Inv s → OutOk (execWait t ra s) := by
  intros
  unfold execWait
  repeat' first
    | with_reducible assumption
    | intro _
    | (extract_lets +onlyGivenNames x; refine (fun (_ : Inv x) => ?_) ?_; clear_value x; rotate_left; subst x)
    | (extract_lets +onlyGivenNames x; clear_value x)
    | extract_lets +onlyGivenNames x
    | with_reducible apply instrIf_keeps
    | with_reducible apply thenNext_keeps
    | with_reducible apply useRegs_keeps
    | with_reducible apply updT_keeps
    | split
    | with_reducible apply outOk_next
    | with_reducible apply eOk_ok

theorem execWaitDeadline_keeps : ∀ (t : Tid) (s : State),
  Inv s → OutOk (execWaitDeadline t s) := by
  intros
  unfold execWaitDeadline
  repeat' first
    | with_reducible assumption
    | extract_lets +onlyGivenNames x
    | with_reducible apply updT_keeps
    | with_reducible apply outOk_next

theorem takenRecord_keeps : ∀ (s : State) (t : Tid) (f : FaultInfo),
  Inv s → Inv (takenRecord s t f) := by
  intros
  unfold takenRecord
  repeat' first
    | with_reducible assumption
    | with_reducible apply logRecord_keeps
    | split

theorem execFaultEntry_keeps : ∀ (t : Tid) (src : FaultSource) (s : State),
  Inv s → OutOk (execFaultEntry t src s) := by
  intros
  unfold execFaultEntry
  repeat' first
    | with_reducible assumption
    | extract_lets +onlyGivenNames x
    | with_reducible apply enter_keeps
    | with_reducible apply takenRecord_keeps
    | with_reducible apply reportExcs_keeps
    | with_reducible apply updT_keeps
    | with_reducible apply fetchCheck_keeps
    | with_reducible apply raise_keeps
    | split
    | with_reducible apply outOk_next
    | refine inv_okS (by with_reducible assumption) ?_
    | refine inv_errS (by with_reducible assumption) ?_

theorem execImpreciseReport_keeps : ∀ (t : Tid) (s : State),
  Inv s → OutOk (execImpreciseReport t s) := by
  intros
  unfold execImpreciseReport
  repeat' first
    | with_reducible assumption
    | extract_lets +onlyGivenNames x
    | with_reducible apply reportExcs_keeps
    | split
    | with_reducible apply outOk_next

theorem execInterruptEntry_keeps : ∀ (t : Tid) (s : State),
  Inv s → OutOk (execInterruptEntry t s) := by
  intros
  unfold execInterruptEntry
  repeat' first
    | with_reducible assumption
    | (extract_lets +onlyGivenNames x; refine (fun (_ : Inv x) => ?_) ?_; clear_value x; rotate_left; subst x)
    | (extract_lets +onlyGivenNames x; clear_value x)
    | extract_lets +onlyGivenNames x
    | with_reducible apply updT_keeps
    | with_reducible apply reportExcs_keeps
    | with_reducible apply State.putF_keeps
    | with_reducible apply enter_keeps
    | split
    | with_reducible apply outOk_next

end Sys2Proof.Machine
end

