-- ==== Sys2Proof/Laws/KeepsInterrupts.lean ====
section
/-! SUPPORT. The invariant under the definitions of Machine/Interrupts.lean. -/

namespace Sys2Proof.Machine

set_option linter.all false

theorem routeIrq_keeps : ∀ (s : State) (m : IrqMsg),
  Inv s → Inv (routeIrq s m) := by
  intros
  unfold routeIrq
  repeat' first
    | with_reducible assumption
    | (extract_lets +onlyGivenNames x; refine (fun (_ : Inv x) => ?_) ?_; clear_value x; rotate_left; subst x)
    | (extract_lets +onlyGivenNames x; clear_value x)
    | extract_lets +onlyGivenNames x
    | with_reducible apply logRecord_keeps
    | with_reducible apply State.putF_keeps
    | with_reducible apply notify_keeps
    | split
    | fail_if_no_progress with_reducible apply inv_mk

theorem execInterruptMessage_keeps : ∀ (k : ℕ) (s : State),
  Inv s → OutOk (execInterruptMessage k s) := by
  intros
  unfold execInterruptMessage
  repeat' first
    | with_reducible assumption
    | extract_lets +onlyGivenNames x
    | with_reducible apply routeIrq_keeps
    | split
    | with_reducible apply outOk_next
    | fail_if_no_progress with_reducible apply inv_mk

theorem execIrqSend_keeps : ∀ (r : Requester) (t : Tid) (v : BitVec 6) (s : State),
  Inv s → OutOk (execIrqSend r t v s) := by
  intros
  unfold execIrqSend
  repeat' first
    | with_reducible assumption
    | extract_lets +onlyGivenNames x
    | with_reducible apply sendIrq_keeps
    | split
    | with_reducible apply outOk_next

end Sys2Proof.Machine
end

