-- ==== Sys2Proof/Laws/KeepsMemOps.lean ====
section
/-! SUPPORT. The invariant under the definitions of Machine/MemOps.lean. -/

namespace Sys2Proof.Machine

set_option linter.all false

theorem putLoad_keeps : ∀ (s : State) (t : Tid) (v : GReg) (k : LdKind)
  (rd : RegNo) (bs : List Byte) (g : Bool),
  Inv s → Inv (putLoad s t v k rd bs g) := by
  intros
  unfold putLoad
  repeat' first
    | with_reducible assumption
    | with_reducible apply putInt_keeps
    | with_reducible apply updT_keeps
    | split

theorem useData_keeps : ∀ (s : State) (t : Tid) (vec : Bool) (rd : RegNo),
  Inv s → Inv (useData s t vec rd) := by
  intros
  unfold useData
  repeat' first
    | with_reducible assumption
    | with_reducible apply updT_keeps
    | with_reducible apply useRegs_keeps
    | split

theorem baseBack_keeps : ∀ (s : State) (t : Tid) (am : ℕ) (ra : RegNo) (wb : Option Word),
  Inv s → Inv (baseBack s t am ra wb) := by
  intros
  unfold baseBack
  repeat' first
    | with_reducible assumption
    | with_reducible apply updT_keeps
    | split

theorem loadOp_keeps : ∀ (s : State) (t : Tid) (words : List (BitVec 32)) (k : LdKind)
  (rd ra : RegNo) (more : List RegNo) (bad : Bool) (am : ℕ)
  (disp : Thread → Word),
  Inv s → OutOk (loadOp s t words k rd ra more bad am disp) := by
  intros
  unfold loadOp
  repeat' first
    | with_reducible assumption
    | intro _
    | (extract_lets +onlyGivenNames x; refine (fun (_ : Inv x) => ?_) ?_; clear_value x; rotate_left; subst x)
    | (extract_lets +onlyGivenNames x; clear_value x)
    | extract_lets +onlyGivenNames x
    | with_reducible apply instrNext_keeps
    | with_reducible apply illegal_keeps
    | with_reducible apply useRegs_keeps
    | with_reducible apply useData_keeps
    | with_reducible apply guardCap_keeps
    | with_reducible apply loadBytes_keeps
    | with_reducible apply putLoad_keeps
    | with_reducible apply baseBack_keeps
    | split
    | with_reducible apply eOk_ok
    | with_reducible apply eOk_bindP
    | with_reducible apply eOk_bindA
    | refine inv_pairP (by with_reducible assumption) ?_

theorem storeOp_keeps : ∀ (s : State) (t : Tid) (words : List (BitVec 32)) (k : StKind)
  (rd ra : RegNo) (more : List RegNo) (bad : Bool) (am : ℕ)
  (disp : Thread → Word),
  Inv s → OutOk (storeOp s t words k rd ra more bad am disp) := by
  intros
  unfold storeOp
  repeat' first
    | with_reducible assumption
    | intro _
    | (extract_lets +onlyGivenNames x; refine (fun (_ : Inv x) => ?_) ?_; clear_value x; rotate_left; subst x)
    | (extract_lets +onlyGivenNames x; clear_value x)
    | extract_lets +onlyGivenNames x
    | with_reducible apply instrNext_keeps
    | with_reducible apply illegal_keeps
    | with_reducible apply useRegs_keeps
    | with_reducible apply useData_keeps
    | with_reducible apply guardCap_keeps
    | with_reducible apply storeBytes_keeps
    | with_reducible apply baseBack_keeps
    | split
    | with_reducible apply eOk_ok
    | with_reducible apply eOk_bindS
    | with_reducible apply eOk_bindA

theorem memLoad_keeps : ∀ (s : State) (t : Tid) (op : ℕ) (k : LdKind) (rd ra : RegNo)
  (am : BitVec 3) (imm : BitVec 12),
  Inv s → OutOk (memLoad s t op k rd ra am imm) := by
  intros
  unfold memLoad
  repeat' first
    | with_reducible assumption
    | with_reducible apply loadOp_keeps

theorem memStore_keeps : ∀ (s : State) (t : Tid) (op : ℕ) (k : StKind) (rd ra : RegNo)
  (am : BitVec 3) (imm : BitVec 12),
  Inv s → OutOk (memStore s t op k rd ra am imm) := by
  intros
  unfold memStore
  repeat' first
    | with_reducible assumption
    | with_reducible apply storeOp_keeps

theorem mixLoad_keeps : ∀ (s : State) (t : Tid) (op : ℕ) (k : LdKind)
  (rd ra rb : RegNo) (sh : BitVec 3) (w : BitVec 5) (m x xr : Bool),
  Inv s → OutOk (mixLoad s t op k rd ra rb sh w m x xr) := by
  intros
  unfold mixLoad
  repeat' first
    | with_reducible assumption
    | with_reducible apply loadOp_keeps

theorem mixStore_keeps : ∀ (s : State) (t : Tid) (op : ℕ) (k : StKind)
  (rd ra rb : RegNo) (sh : BitVec 3) (w : BitVec 5) (m x : Bool),
  Inv s → OutOk (mixStore s t op k rd ra rb sh w m x) := by
  intros
  unfold mixStore
  repeat' first
    | with_reducible assumption
    | with_reducible apply storeOp_keeps

theorem execLdB_keeps : ∀ (t : Tid) (rd ra : RegNo) (am : BitVec 3) (imm : BitVec 12) (s : State),
  Inv s → OutOk (execLdB t rd ra am imm s) := by
  intros
  unfold execLdB
  repeat' first
    | with_reducible assumption
    | with_reducible apply memLoad_keeps

theorem execLdBu_keeps : ∀ (t : Tid) (rd ra : RegNo) (am : BitVec 3) (imm : BitVec 12) (s : State),
  Inv s → OutOk (execLdBu t rd ra am imm s) := by
  intros
  unfold execLdBu
  repeat' first
    | with_reducible assumption
    | with_reducible apply memLoad_keeps

theorem execLdH_keeps : ∀ (t : Tid) (rd ra : RegNo) (am : BitVec 3) (imm : BitVec 12) (s : State),
  Inv s → OutOk (execLdH t rd ra am imm s) := by
  intros
  unfold execLdH
  repeat' first
    | with_reducible assumption
    | with_reducible apply memLoad_keeps

theorem execLdHu_keeps : ∀ (t : Tid) (rd ra : RegNo) (am : BitVec 3) (imm : BitVec 12) (s : State),
  Inv s → OutOk (execLdHu t rd ra am imm s) := by
  intros
  unfold execLdHu
  repeat' first
    | with_reducible assumption
    | with_reducible apply memLoad_keeps

theorem execLdW_keeps : ∀ (t : Tid) (rd ra : RegNo) (am : BitVec 3) (imm : BitVec 12) (s : State),
  Inv s → OutOk (execLdW t rd ra am imm s) := by
  intros
  unfold execLdW
  repeat' first
    | with_reducible assumption
    | with_reducible apply memLoad_keeps

theorem execLdWu_keeps : ∀ (t : Tid) (rd ra : RegNo) (am : BitVec 3) (imm : BitVec 12) (s : State),
  Inv s → OutOk (execLdWu t rd ra am imm s) := by
  intros
  unfold execLdWu
  repeat' first
    | with_reducible assumption
    | with_reducible apply memLoad_keeps

theorem execLdD_keeps : ∀ (t : Tid) (rd ra : RegNo) (am : BitVec 3) (imm : BitVec 12) (s : State),
  Inv s → OutOk (execLdD t rd ra am imm s) := by
  intros
  unfold execLdD
  repeat' first
    | with_reducible assumption
    | with_reducible apply memLoad_keeps

theorem execLdC_keeps : ∀ (t : Tid) (rd ra : RegNo) (am : BitVec 3) (imm : BitVec 12) (s : State),
  Inv s → OutOk (execLdC t rd ra am imm s) := by
  intros
  unfold execLdC
  repeat' first
    | with_reducible assumption
    | with_reducible apply memLoad_keeps

theorem execLdV_keeps : ∀ (t : Tid) (rd ra : RegNo) (am : BitVec 3) (imm : BitVec 12) (s : State),
  Inv s → OutOk (execLdV t rd ra am imm s) := by
  intros
  unfold execLdV
  repeat' first
    | with_reducible assumption
    | with_reducible apply memLoad_keeps

theorem execStB_keeps : ∀ (t : Tid) (rd ra : RegNo) (am : BitVec 3) (imm : BitVec 12) (s : State),
  Inv s → OutOk (execStB t rd ra am imm s) := by
  intros
  unfold execStB
  repeat' first
    | with_reducible assumption
    | with_reducible apply memStore_keeps

theorem execStH_keeps : ∀ (t : Tid) (rd ra : RegNo) (am : BitVec 3) (imm : BitVec 12) (s : State),
  Inv s → OutOk (execStH t rd ra am imm s) := by
  intros
  unfold execStH
  repeat' first
    | with_reducible assumption
    | with_reducible apply memStore_keeps

theorem execStW_keeps : ∀ (t : Tid) (rd ra : RegNo) (am : BitVec 3) (imm : BitVec 12) (s : State),
  Inv s → OutOk (execStW t rd ra am imm s) := by
  intros
  unfold execStW
  repeat' first
    | with_reducible assumption
    | with_reducible apply memStore_keeps

theorem execStD_keeps : ∀ (t : Tid) (rd ra : RegNo) (am : BitVec 3) (imm : BitVec 12) (s : State),
  Inv s → OutOk (execStD t rd ra am imm s) := by
  intros
  unfold execStD
  repeat' first
    | with_reducible assumption
    | with_reducible apply memStore_keeps

theorem execStC_keeps : ∀ (t : Tid) (rd ra : RegNo) (am : BitVec 3) (imm : BitVec 12) (s : State),
  Inv s → OutOk (execStC t rd ra am imm s) := by
  intros
  unfold execStC
  repeat' first
    | with_reducible assumption
    | with_reducible apply memStore_keeps

theorem execStV_keeps : ∀ (t : Tid) (rd ra : RegNo) (am : BitVec 3) (imm : BitVec 12) (s : State),
  Inv s → OutOk (execStV t rd ra am imm s) := by
  intros
  unfold execStV
  repeat' first
    | with_reducible assumption
    | with_reducible apply memStore_keeps

theorem execLdxB_keeps : ∀ (t : Tid) (rd ra rb : RegNo) (sh : BitVec 3) (w : BitVec 5) (m x : Bool)
  (s : State),
  Inv s → OutOk (execLdxB t rd ra rb sh w m x s) := by
  intros
  unfold execLdxB
  repeat' first
    | with_reducible assumption
    | with_reducible apply mixLoad_keeps

theorem execLdxH_keeps : ∀ (t : Tid) (rd ra rb : RegNo) (sh : BitVec 3) (w : BitVec 5) (m x : Bool)
  (s : State),
  Inv s → OutOk (execLdxH t rd ra rb sh w m x s) := by
  intros
  unfold execLdxH
  repeat' first
    | with_reducible assumption
    | with_reducible apply mixLoad_keeps

theorem execLdxW_keeps : ∀ (t : Tid) (rd ra rb : RegNo) (sh : BitVec 3) (w : BitVec 5) (m x : Bool)
  (s : State),
  Inv s → OutOk (execLdxW t rd ra rb sh w m x s) := by
  intros
  unfold execLdxW
  repeat' first
    | with_reducible assumption
    | with_reducible apply mixLoad_keeps

theorem execLdxD_keeps : ∀ (t : Tid) (rd ra rb : RegNo) (sh : BitVec 3) (w : BitVec 5) (m x : Bool)
  (s : State),
  Inv s → OutOk (execLdxD t rd ra rb sh w m x s) := by
  intros
  unfold execLdxD
  repeat' first
    | with_reducible assumption
    | with_reducible apply mixLoad_keeps

theorem execLdxC_keeps : ∀ (t : Tid) (rd ra rb : RegNo) (sh : BitVec 3) (w : BitVec 5) (m x : Bool)
  (s : State),
  Inv s → OutOk (execLdxC t rd ra rb sh w m x s) := by
  intros
  unfold execLdxC
  repeat' first
    | with_reducible assumption
    | with_reducible apply mixLoad_keeps

theorem execLdxV_keeps : ∀ (t : Tid) (rd ra rb : RegNo) (sh : BitVec 3) (w : BitVec 5) (m x : Bool)
  (s : State),
  Inv s → OutOk (execLdxV t rd ra rb sh w m x s) := by
  intros
  unfold execLdxV
  repeat' first
    | with_reducible assumption
    | with_reducible apply mixLoad_keeps

theorem execStxB_keeps : ∀ (t : Tid) (rd ra rb : RegNo) (sh : BitVec 3) (w : BitVec 5) (m x : Bool)
  (s : State),
  Inv s → OutOk (execStxB t rd ra rb sh w m x s) := by
  intros
  unfold execStxB
  repeat' first
    | with_reducible assumption
    | with_reducible apply mixStore_keeps

theorem execStxH_keeps : ∀ (t : Tid) (rd ra rb : RegNo) (sh : BitVec 3) (w : BitVec 5) (m x : Bool)
  (s : State),
  Inv s → OutOk (execStxH t rd ra rb sh w m x s) := by
  intros
  unfold execStxH
  repeat' first
    | with_reducible assumption
    | with_reducible apply mixStore_keeps

theorem execStxW_keeps : ∀ (t : Tid) (rd ra rb : RegNo) (sh : BitVec 3) (w : BitVec 5) (m x : Bool)
  (s : State),
  Inv s → OutOk (execStxW t rd ra rb sh w m x s) := by
  intros
  unfold execStxW
  repeat' first
    | with_reducible assumption
    | with_reducible apply mixStore_keeps

theorem execStxD_keeps : ∀ (t : Tid) (rd ra rb : RegNo) (sh : BitVec 3) (w : BitVec 5) (m x : Bool)
  (s : State),
  Inv s → OutOk (execStxD t rd ra rb sh w m x s) := by
  intros
  unfold execStxD
  repeat' first
    | with_reducible assumption
    | with_reducible apply mixStore_keeps

theorem execStxC_keeps : ∀ (t : Tid) (rd ra rb : RegNo) (sh : BitVec 3) (w : BitVec 5) (m x : Bool)
  (s : State),
  Inv s → OutOk (execStxC t rd ra rb sh w m x s) := by
  intros
  unfold execStxC
  repeat' first
    | with_reducible assumption
    | with_reducible apply mixStore_keeps

theorem execStxV_keeps : ∀ (t : Tid) (rd ra rb : RegNo) (sh : BitVec 3) (w : BitVec 5) (m x : Bool)
  (s : State),
  Inv s → OutOk (execStxV t rd ra rb sh w m x s) := by
  intros
  unfold execStxV
  repeat' first
    | with_reducible assumption
    | with_reducible apply mixStore_keeps

theorem execLda_keeps : ∀ (t : Tid) (rd ra : RegNo) (size : BitVec 3) (rsv : BitVec 7) (s : State),
  Inv s → OutOk (execLda t rd ra size rsv s) := by
  intros
  unfold execLda
  repeat' first
    | with_reducible assumption
    | intro _
    | (extract_lets +onlyGivenNames x; refine (fun (_ : Inv x) => ?_) ?_; clear_value x; rotate_left; subst x)
    | (extract_lets +onlyGivenNames x; clear_value x)
    | extract_lets +onlyGivenNames x
    | with_reducible apply instrNext_keeps
    | with_reducible apply illegal_keeps
    | with_reducible apply useRegs_keeps
    | with_reducible apply guardCap_keeps
    | with_reducible apply loadBytes_keeps
    | with_reducible apply drainRel_keeps
    | with_reducible apply putLoad_keeps
    | split
    | with_reducible apply eOk_ok
    | with_reducible apply eOk_bindP
    | with_reducible apply eOk_bindA
    | refine inv_pairP (by with_reducible assumption) ?_

theorem execStrel_keeps : ∀ (t : Tid) (rd ra : RegNo) (size : BitVec 3) (rsv : BitVec 7) (s : State),
  Inv s → OutOk (execStrel t rd ra size rsv s) := by
  intros
  unfold execStrel
  repeat' first
    | with_reducible assumption
    | intro _
    | (extract_lets +onlyGivenNames x; refine (fun (_ : Inv x) => ?_) ?_; clear_value x; rotate_left; subst x)
    | (extract_lets +onlyGivenNames x; clear_value x)
    | extract_lets +onlyGivenNames x
    | with_reducible apply instrNext_keeps
    | with_reducible apply illegal_keeps
    | with_reducible apply useRegs_keeps
    | with_reducible apply guardCap_keeps
    | with_reducible apply storeBytes_keeps
    | split
    | with_reducible apply eOk_bindA

theorem zeroEight_keeps : ∀ (s : State) (t : Tid) (v : GReg) (a : Word)
  (x : Xl) (a_1 : List ℕ),
  Inv s → EOk Inv (zeroEight s t v a x a_1) := by
  intro a0 a1 a2 a3 a4 a5
  fun_induction zeroEight a0 a1 a2 a3 a4 a5 <;> intros
  all_goals repeat' first
    | with_reducible assumption
    | extract_lets +onlyGivenNames x
    | with_reducible apply storeAt_keeps
    | with_reducible apply eOk_ok
    | with_reducible apply eOk_error
    | refine inv_okS (by with_reducible assumption) ?_
    | refine inv_errS (by with_reducible assumption) ?_
    | with_reducible apply_assumption -exfalso -symm

theorem cmoAct_keeps : ∀ (s : State) (t : Tid) (k : SqKind) (v : GReg)
  (a : Word) (x : Xl),
  Inv s → EOk Inv (cmoAct s t k v a x) := by
  intros
  unfold cmoAct
  repeat' first
    | with_reducible assumption
    | (extract_lets +onlyGivenNames x; clear_value x)
    | extract_lets +onlyGivenNames x
    | with_reducible apply noTarget_keeps
    | with_reducible apply zeroEight_keeps
    | with_reducible apply storeAt_keeps
    | with_reducible apply pushStore_keeps
    | split
    | with_reducible apply eOk_ok

theorem cmo_keeps : ∀ (s : State) (t : Tid) (kind : ℕ) (k : SqKind) (perms : List ℕ)
  (xk : XKind) (ra : RegNo) (am : BitVec 3) (imm : BitVec 12),
  Inv s → OutOk (cmo s t kind k perms xk ra am imm) := by
  intros
  unfold cmo
  repeat' first
    | with_reducible assumption
    | intro _
    | (extract_lets +onlyGivenNames x; refine (fun (_ : Inv x) => ?_) ?_; clear_value x; rotate_left; subst x)
    | (extract_lets +onlyGivenNames x; clear_value x)
    | extract_lets +onlyGivenNames x
    | with_reducible apply instrNext_keeps
    | with_reducible apply illegal_keeps
    | with_reducible apply useRegs_keeps
    | with_reducible apply guardCap_keeps
    | with_reducible apply translate_keeps
    | with_reducible apply settleDirty_keeps
    | with_reducible apply cmoAct_keeps
    | split
    | with_reducible apply eOk_ok
    | with_reducible apply eOk_bindP
    | with_reducible apply eOk_bindA
    | refine inv_pairP (by with_reducible assumption) ?_

theorem execCmoClean_keeps : ∀ (t : Tid) (ra : RegNo) (am : BitVec 3) (imm : BitVec 12) (s : State),
  Inv s → OutOk (execCmoClean t ra am imm s) := by
  intros
  unfold execCmoClean
  repeat' first
    | with_reducible assumption
    | with_reducible apply cmo_keeps

theorem execCmoFlush_keeps : ∀ (t : Tid) (ra : RegNo) (am : BitVec 3) (imm : BitVec 12) (s : State),
  Inv s → OutOk (execCmoFlush t ra am imm s) := by
  intros
  unfold execCmoFlush
  repeat' first
    | with_reducible assumption
    | with_reducible apply cmo_keeps

theorem execCmoZero_keeps : ∀ (t : Tid) (ra : RegNo) (am : BitVec 3) (imm : BitVec 12) (s : State),
  Inv s → OutOk (execCmoZero t ra am imm s) := by
  intros
  unfold execCmoZero
  repeat' first
    | with_reducible assumption
    | with_reducible apply cmo_keeps

end Sys2Proof.Machine
end

