-- ==== Sys2Proof/Laws/KeepsReset.lean ====
section
/-! SUPPORT. The invariant under the definitions of Machine/Reset.lean. -/

namespace Sys2Proof.Machine

set_option linter.all false

theorem freshState_keeps : ∀ (s : State), Inv s → Inv (freshState s) := by
  intro s _
  unfold freshState
  exact inv_foldl (inv_nil rfl rfl rfl rfl) (fun _ _ h => State.putR_keeps _ _ h)

theorem keepRefs_keeps : ∀ (s t : State),
  Inv s → Inv t → Inv (keepRefs s t) := by
  intros
  unfold keepRefs
  repeat' first
    | with_reducible assumption
    | (extract_lets +onlyGivenNames x; refine (fun (_ : Inv x) => ?_) ?_; clear_value x; rotate_left; subst x)
    | (extract_lets +onlyGivenNames x; clear_value x)
    | extract_lets +onlyGivenNames x
    | with_reducible apply State.putB_keeps
    | with_reducible apply tbSet_keeps

theorem deviceReset_keeps : ∀ (s : State) (cause : ℕ),
  Inv s → Inv (deviceReset s cause) := by
  intros
  unfold deviceReset
  repeat' first
    | with_reducible assumption
    | (extract_lets +onlyGivenNames x; refine (fun (_ : Inv x) => ?_) ?_; clear_value x; rotate_left; subst x)
    | extract_lets +onlyGivenNames x
    | with_reducible apply keepRefs_keeps
    | with_reducible apply freshState_keeps
    | with_reducible apply State.putF_keeps
    | fail_if_no_progress with_reducible apply inv_mk

theorem execDeviceReset_keeps : ∀ (cause : BitVec 4) (s : State),
  Inv s → OutOk (execDeviceReset cause s) := by
  intros
  unfold execDeviceReset
  repeat' first
    | with_reducible assumption
    | extract_lets +onlyGivenNames x
    | with_reducible apply deviceReset_keeps
    | split
    | with_reducible apply outOk_next

theorem execPowerDown_keeps : ∀ (s : State), Inv s → OutOk (execPowerDown s) := by
  intros
  unfold execPowerDown
  repeat' first
    | with_reducible assumption
    | extract_lets +onlyGivenNames x
    | with_reducible apply deviceReset_keeps
    | split
    | with_reducible apply outOk_next

theorem execPldmResetRequest_keeps : ∀ (x : Transport) (powerDown : Bool) (s : State),
  Inv s → OutOk (execPldmResetRequest x powerDown s) := by
  intros
  unfold execPldmResetRequest
  repeat' first
    | with_reducible assumption
    | intro _
    | (extract_lets +onlyGivenNames x; refine (fun (_ : Inv x) => ?_) ?_; clear_value x; rotate_left; subst x)
    | extract_lets +onlyGivenNames x
    | with_reducible apply serve_keeps
    | with_reducible apply updB_keeps
    | with_reducible apply deviceReset_keeps
    | split
    | with_reducible apply outOk_next

theorem execStageS4_keeps : ∀ (s : State), Inv s → OutOk (execStageS4 s) := by
  intros
  unfold execStageS4
  repeat' first
    | with_reducible assumption
    | intro _
    | (extract_lets +onlyGivenNames x; refine (fun (_ : Inv x) => ?_) ?_; clear_value x; rotate_left; subst x)
    | extract_lets +onlyGivenNames x
    | with_reducible apply toStage_keeps
    | with_reducible apply stageS4Work_keeps
    | with_reducible apply updG_keeps
    | with_reducible apply deviceReset_keeps
    | with_reducible apply appendNext_keeps
    | split
    | with_reducible apply outOk_next
    | with_reducible apply inv_foldl

theorem standbyLoss_keeps : ∀ (s : State), Inv s → Inv (standbyLoss s) := by
  intros
  unfold standbyLoss
  repeat' first
    | with_reducible assumption
    | (extract_lets +onlyGivenNames x; refine (fun (_ : Inv x) => ?_) ?_; clear_value x; rotate_left; subst x)
    | (extract_lets +onlyGivenNames x; clear_value x)
    | with_reducible apply islandOut_keeps
    | with_reducible apply freshState_keeps
    | split
    | fail_if_no_progress with_reducible apply inv_mk

theorem execStandbyPowerLoss_keeps : ∀ (s : State),
  Inv s → OutOk (execStandbyPowerLoss s) := by
  intros
  unfold execStandbyPowerLoss
  repeat' first
    | with_reducible assumption
    | extract_lets +onlyGivenNames x
    | with_reducible apply standbyLoss_keeps
    | split
    | with_reducible apply outOk_next

theorem mainPower_keeps : ∀ (s : State) (level : Bool),
  Inv s → Inv (mainPower s level) := by
  intros
  unfold mainPower
  repeat' first
    | with_reducible assumption
    | (extract_lets +onlyGivenNames x; refine (fun (_ : Inv x) => ?_) ?_; clear_value x; rotate_left; subst x)
    | (extract_lets +onlyGivenNames x; clear_value x)
    | with_reducible apply updB_keeps
    | with_reducible apply packageCritical_keeps
    | split

theorem resetInput_keeps : ∀ (s : State) (level : Bool),
  Inv s → Inv (resetInput s level) := by
  intros
  unfold resetInput
  repeat' first
    | with_reducible assumption
    | (extract_lets +onlyGivenNames x; refine (fun (_ : Inv x) => ?_) ?_; clear_value x; rotate_left; subst x)
    | extract_lets +onlyGivenNames x
    | with_reducible apply updB_keeps
    | with_reducible apply deviceReset_keeps
    | split

theorem execBoardInputChange_keeps : ∀ (i : BoardInput) (level : Bool) (s : State),
  Inv s → OutOk (execBoardInputChange i level s) := by
  intros
  unfold execBoardInputChange
  repeat' first
    | with_reducible assumption
    | (extract_lets +onlyGivenNames x; refine (fun (_ : Inv x) => ?_) ?_; clear_value x; rotate_left; subst x)
    | extract_lets +onlyGivenNames x
    | with_reducible apply powerGood_keeps
    | with_reducible apply standbyLoss_keeps
    | with_reducible apply mainPower_keeps
    | with_reducible apply resetInput_keeps
    | with_reducible apply updB_keeps
    | with_reducible apply brakeOff_keeps
    | with_reducible apply brakeOn_keeps
    | with_reducible apply setBattery_keeps
    | split
    | with_reducible apply outOk_next

theorem setupRefusal_keeps : ∀ (s : State) (u : ℕ),
  Inv s → Inv (setupRefusal s u) := by
  intros
  unfold setupRefusal
  repeat' first
    | with_reducible assumption
    | with_reducible apply setupError_keeps

theorem resetCore_keeps : ∀ (s : State) (k : ℕ),
  Inv s → Inv (resetCore s k) := by
  intros
  unfold resetCore
  repeat' first
    | with_reducible assumption
    | intro _
    | (extract_lets +onlyGivenNames x; refine (fun (_ : Inv x) => ?_) ?_; clear_value x; rotate_left; subst x)
    | (extract_lets +onlyGivenNames x; clear_value x)
    | extract_lets +onlyGivenNames x
    | with_reducible apply gateCore_keeps
    | with_reducible apply putT_keeps
    | split
    | with_reducible apply inv_foldl

theorem execCoreReset_keeps : ∀ (k : Fin 192) (s : State),
  Inv s → OutOk (execCoreReset k s) := by
  intros
  unfold execCoreReset
  repeat' first
    | with_reducible assumption
    | extract_lets +onlyGivenNames x
    | with_reducible apply resetCore_keeps
    | with_reducible apply setupRefusal_keeps
    | split
    | with_reducible apply outOk_next

theorem resetSlice_keeps : ∀ (s : State) (i : ℕ),
  Inv s → Inv (resetSlice s i) := by
  intros
  unfold resetSlice
  repeat' first
    | with_reducible assumption
    | (extract_lets +onlyGivenNames x; refine (fun (_ : Inv x) => ?_) ?_; clear_value x; rotate_left; subst x)
    | (extract_lets +onlyGivenNames x; clear_value x)
    | with_reducible apply softReset_keeps
    | fail_if_no_progress with_reducible apply inv_mk

theorem resetTile_keeps : ∀ (s : State) (i : ℕ),
  Inv s → Inv (resetTile s i) := by
  intros
  unfold resetTile
  repeat' first
    | with_reducible assumption
    | extract_lets +onlyGivenNames x
    | with_reducible apply resetSlice_keeps
    | with_reducible apply resetCore_keeps
    | with_reducible apply softReset_keeps

theorem execTileReset_keeps : ∀ (i : Fin 96) (s : State),
  Inv s → OutOk (execTileReset i s) := by
  intros
  unfold execTileReset
  repeat' first
    | with_reducible assumption
    | extract_lets +onlyGivenNames x
    | with_reducible apply resetTile_keeps
    | with_reducible apply setupRefusal_keeps
    | split
    | with_reducible apply outOk_next

theorem resetSheaf_keeps : ∀ (s : State) (h : ℕ),
  Inv s → Inv (resetSheaf s h) := by
  intros
  unfold resetSheaf
  repeat' first
    | with_reducible assumption
    | intro _
    | (extract_lets +onlyGivenNames x; refine (fun (_ : Inv x) => ?_) ?_; clear_value x; rotate_left; subst x)
    | (extract_lets +onlyGivenNames x; clear_value x)
    | extract_lets +onlyGivenNames x
    | with_reducible apply resetTile_keeps
    | with_reducible apply askLoad_keeps
    | with_reducible apply softReset_keeps
    | with_reducible apply State.putF_keeps
    | with_reducible apply updD_keeps
    | split
    | with_reducible apply inv_foldl

theorem execSheafReset_keeps : ∀ (h : Fin 24) (s : State),
  Inv s → OutOk (execSheafReset h s) := by
  intros
  unfold execSheafReset
  repeat' first
    | with_reducible assumption
    | extract_lets +onlyGivenNames x
    | with_reducible apply resetSheaf_keeps
    | with_reducible apply setupRefusal_keeps
    | split
    | with_reducible apply outOk_next

theorem resetField_keeps : ∀ (s : State) (f : ℕ),
  Inv s → Inv (resetField s f) := by
  intro s f h
  unfold resetField
  extract_lets s1 stops s2 s3 blocks s4 bar
  have h1 : Inv s1 := inv_foldl h (fun _ _ h => resetSheaf_keeps _ _ h)
  have h2 : Inv s2 := inv_foldl h1 (fun _ _ h => inv_foldl (softReset_keeps _ _ _ h) (fun _ _ h => State.putF_keeps _ _ _ _ h))
  have h3 : Inv s3 := inv_foldl h2 (fun _ _ h => updM_keeps _ _ _ (softReset_keeps _ _ _ h))
  have h4 : Inv s4 := inv_foldl h3 (fun _ _ h => softReset_keeps _ _ _ h)
  exact inv_regsFilter h4 rfl rfl rfl rfl


theorem execFieldReset_keeps : ∀ (f : Fin 4) (s : State),
  Inv s → OutOk (execFieldReset f s) := by
  intros
  unfold execFieldReset
  repeat' first
    | with_reducible assumption
    | extract_lets +onlyGivenNames x
    | with_reducible apply resetField_keeps
    | with_reducible apply setupRefusal_keeps
    | split
    | with_reducible apply outOk_next

end Sys2Proof.Machine
end

