-- ==== Sys2Proof/Laws/KeepsSysOps.lean ====
section
/-! SUPPORT. The invariant under the definitions of Machine/SysOps.lean. -/

namespace Sys2Proof.Machine

set_option linter.all false

theorem execRdtr_keeps : ∀ (t : Tid) (rd ra rb : RegNo) (fn : BitVec 10) (s : State),
  Inv s → OutOk (execRdtr t rd ra rb fn s) := by
  intros
  unfold execRdtr
  repeat' first
    | with_reducible assumption
    | intro _
    | (extract_lets +onlyGivenNames x; refine (fun (_ : Inv x) => ?_) ?_; clear_value x; rotate_left; subst x)
    | extract_lets +onlyGivenNames x
    | with_reducible apply instrNext_keeps
    | with_reducible apply useRegs_keeps
    | with_reducible apply illegal_keeps
    | with_reducible apply updT_keeps
    | split
    | with_reducible apply eOk_ok

theorem wrtr_keeps : ∀ (s : State) (t : Tid) (n : ℕ) (auth : Bool) (rd ra rb : RegNo)
  (rsv : BitVec 6)
  (f : State → GReg → R State),
  Inv s →
    (∀ (a : State) (a_1 : GReg),
        Inv a → EOk Inv (f a a_1)) →
      OutOk (wrtr s t n auth rd ra rb rsv f) := by
  intros
  unfold wrtr
  repeat' first
    | with_reducible assumption
    | intro _
    | (extract_lets +onlyGivenNames x; refine (fun (_ : Inv x) => ?_) ?_; clear_value x; rotate_left; subst x)
    | (extract_lets +onlyGivenNames x; refine (fun (_ : ∀ a, EOk Inv (x a)) => ?_) ?_; clear_value x; rotate_left; subst x)
    | (extract_lets +onlyGivenNames x; clear_value x)
    | extract_lets +onlyGivenNames x
    | with_reducible apply atReportPoint_keeps
    | with_reducible apply instrNext_keeps
    | with_reducible apply illegal_keeps
    | with_reducible apply useRegs_keeps
    | with_reducible apply faultAt_keeps
    | with_reducible apply guardCap_keeps
    | split
    | with_reducible apply eOk_bindA
    | dsimp -zeta only
    | with_reducible apply_assumption -exfalso -symm

theorem execWrtrWstack_keeps : ∀ (t : Tid) (rd ra rb : RegNo) (rsv : BitVec 6) (s : State),
  Inv s → OutOk (execWrtrWstack t rd ra rb rsv s) := by
  intros
  unfold execWrtrWstack
  repeat' first
    | with_reducible assumption
    | intro _
    | extract_lets +onlyGivenNames x
    | with_reducible apply wrtr_keeps
    | with_reducible apply guardCap_keeps
    | with_reducible apply replaceWstack_keeps
    | with_reducible apply eOk_bindA

theorem execWrtrFstack_keeps : ∀ (t : Tid) (rd ra rb : RegNo) (rsv : BitVec 6) (s : State),
  Inv s → OutOk (execWrtrFstack t rd ra rb rsv s) := by
  intros
  unfold execWrtrFstack
  repeat' first
    | with_reducible assumption
    | intro _
    | extract_lets +onlyGivenNames x
    | with_reducible apply wrtr_keeps
    | with_reducible apply updT_keeps
    | with_reducible apply eOk_ok

theorem execWrtrFgate_keeps : ∀ (t : Tid) (rd ra rb : RegNo) (rsv : BitVec 6) (s : State),
  Inv s → OutOk (execWrtrFgate t rd ra rb rsv s) := by
  intros
  unfold execWrtrFgate
  repeat' first
    | with_reducible assumption
    | intro _
    | extract_lets +onlyGivenNames x
    | with_reducible apply wrtr_keeps
    | with_reducible apply updT_keeps
    | with_reducible apply eOk_ok

theorem execWrtrGatetab_keeps : ∀ (t : Tid) (rd ra rb : RegNo) (rsv : BitVec 6) (s : State),
  Inv s → OutOk (execWrtrGatetab t rd ra rb rsv s) := by
  intros
  unfold execWrtrGatetab
  repeat' first
    | with_reducible assumption
    | intro _
    | extract_lets +onlyGivenNames x
    | with_reducible apply wrtr_keeps
    | with_reducible apply updT_keeps
    | with_reducible apply eOk_ok

theorem execWrtrTctrl_keeps : ∀ (t : Tid) (rd ra rb : RegNo) (rsv : BitVec 6) (s : State),
  Inv s → OutOk (execWrtrTctrl t rd ra rb rsv s) := by
  intros
  unfold execWrtrTctrl
  repeat' first
    | with_reducible assumption
    | intro _
    | extract_lets +onlyGivenNames x
    | with_reducible apply wrtr_keeps
    | with_reducible apply updT_keeps
    | with_reducible apply eOk_ok

theorem execWrtrTstatus_keeps : ∀ (t : Tid) (rd ra rb : RegNo) (rsv : BitVec 6) (s : State),
  Inv s → OutOk (execWrtrTstatus t rd ra rb rsv s) := by
  intros
  unfold execWrtrTstatus
  repeat' first
    | with_reducible assumption
    | intro _
    | extract_lets +onlyGivenNames x
    | with_reducible apply wrtr_keeps
    | with_reducible apply updT_keeps
    | with_reducible apply eOk_ok

theorem execRdtime_keeps : ∀ (t : Tid) (rd : RegNo) (s : State),
  Inv s → OutOk (execRdtime t rd s) := by
  intros
  unfold execRdtime
  repeat' first
    | with_reducible assumption
    | intro _
    | extract_lets +onlyGivenNames x
    | with_reducible apply instrNext_keeps
    | with_reducible apply putInt_keeps
    | with_reducible apply useRegs_keeps
    | with_reducible apply eOk_ok

theorem execFeat_keeps : ∀ (t : Tid) (limm : Limm) (rd ra : RegNo) (imm : BitVec 15)
  (s : State),
  Inv s → OutOk (execFeat t limm rd ra imm s) := by
  intros
  unfold execFeat
  repeat' first
    | with_reducible assumption
    | intro _
    | extract_lets +onlyGivenNames x
    | with_reducible apply instrNext_keeps
    | with_reducible apply illegal_keeps
    | with_reducible apply putInt_keeps
    | with_reducible apply useRegs_keeps
    | split
    | with_reducible apply eOk_ok

theorem bumpEpoch_keeps : ∀ (s : State) (t : Tid),
  Inv s → Inv (bumpEpoch s t) := by
  intros
  unfold bumpEpoch
  repeat' first
    | with_reducible assumption
    | with_reducible apply updT_keeps

theorem execFenceFull_keeps : ∀ (t : Tid) (s : State),
  Inv s → OutOk (execFenceFull t s) := by
  intros
  unfold execFenceFull
  repeat' first
    | with_reducible assumption
    | intro _
    | extract_lets +onlyGivenNames x
    | with_reducible apply instrNext_keeps
    | with_reducible apply drainAll_keeps
    | with_reducible apply eOk_ok

theorem execFenceAcq_keeps : ∀ (t : Tid) (s : State),
  Inv s → OutOk (execFenceAcq t s) := by
  intros
  unfold execFenceAcq
  repeat' first
    | with_reducible assumption
    | intro _
    | extract_lets +onlyGivenNames x
    | with_reducible apply instrNext_keeps
    | with_reducible apply eOk_ok

theorem execFenceRel_keeps : ∀ (t : Tid) (s : State),
  Inv s → OutOk (execFenceRel t s) := by
  intros
  unfold execFenceRel
  repeat' first
    | with_reducible assumption
    | intro _
    | extract_lets +onlyGivenNames x
    | with_reducible apply instrNext_keeps
    | with_reducible apply bumpEpoch_keeps
    | with_reducible apply eOk_ok

theorem execFenceSs_keeps : ∀ (t : Tid) (s : State),
  Inv s → OutOk (execFenceSs t s) := by
  intros
  unfold execFenceSs
  repeat' first
    | with_reducible assumption
    | intro _
    | extract_lets +onlyGivenNames x
    | with_reducible apply instrNext_keeps
    | with_reducible apply bumpEpoch_keeps
    | with_reducible apply eOk_ok

theorem execFenceIo_keeps : ∀ (t : Tid) (s : State),
  Inv s → OutOk (execFenceIo t s) := by
  intros
  unfold execFenceIo
  repeat' first
    | with_reducible assumption
    | intro _
    | extract_lets +onlyGivenNames x
    | with_reducible apply instrNext_keeps
    | with_reducible apply drainAll_keeps
    | with_reducible apply eOk_ok

theorem execIsync_keeps : ∀ (t : Tid) (s : State),
  Inv s → OutOk (execIsync t s) := by
  intros
  unfold execIsync
  repeat' first
    | with_reducible assumption
    | intro _
    | extract_lets +onlyGivenNames x
    | with_reducible apply instrNext_keeps
    | with_reducible apply eOk_ok

theorem execAbar_keeps : ∀ (t : Tid) (s : State),
  Inv s → OutOk (execAbar t s) := by
  intros
  unfold execAbar
  repeat' first
    | with_reducible assumption
    | intro _
    | extract_lets +onlyGivenNames x
    | with_reducible apply atReportPoint_keeps
    | with_reducible apply instrNext_keeps
    | with_reducible apply eOk_ok

theorem prefetchLine_keeps : ∀ (s : State) (t : Tid) (am : BitVec 3) (ra : RegNo) (imm : BitVec 12),
  Inv s → Inv (prefetchLine s t am ra imm) := by
  intros
  unfold prefetchLine
  repeat' first
    | with_reducible assumption
    | (extract_lets +onlyGivenNames x; refine (fun (_ : Inv x) => ?_) ?_; clear_value x; rotate_left; subst x)
    | (extract_lets +onlyGivenNames x; clear_value x)
    | extract_lets +onlyGivenNames x
    | with_reducible apply useRegs_keeps
    | with_reducible apply xlate_keeps
    | with_reducible apply prefetchAt_keeps
    | with_reducible apply updT_keeps
    | split
    | refine inv_okP (by with_reducible assumption) ?_

theorem execPrf_keeps : ∀ (t : Tid) (ra : RegNo) (am : BitVec 3) (imm : BitVec 12) (s : State),
  Inv s → OutOk (execPrf t ra am imm s) := by
  intros
  unfold execPrf
  repeat' first
    | with_reducible assumption
    | intro _
    | extract_lets +onlyGivenNames x
    | with_reducible apply instrNext_keeps
    | with_reducible apply illegal_keeps
    | with_reducible apply prefetchLine_keeps
    | split
    | with_reducible apply eOk_ok

theorem tlbiAll_keeps : ∀ (s : State) (t : Tid) (pkg : Bool) (kind vmid a b : ℕ),
  Inv s → Inv (tlbiAll s t pkg kind vmid a b) := by
  intros
  unfold tlbiAll
  repeat' first
    | with_reducible assumption
    | intro _
    | (extract_lets +onlyGivenNames x; refine (fun (_ : Inv x) => ?_) ?_; clear_value x; rotate_left; subst x)
    | extract_lets +onlyGivenNames x
    | with_reducible apply updC_keeps
    | split
    | with_reducible apply inv_foldl
    | fail_if_no_progress with_reducible apply inv_mk

theorem syncDrain_keeps : ∀ (s : State) (t : Tid) (pkg : Bool),
  Inv s → Inv (syncDrain s t pkg) := by
  intros
  unfold syncDrain
  repeat' first
    | with_reducible assumption
    | intro _
    | extract_lets +onlyGivenNames x
    | with_reducible apply drainAll_keeps
    | with_reducible apply inv_foldl

theorem tlbi_keeps : ∀ (s : State) (t : Tid) (kind : ℕ) (rd ra rb : RegNo) (pkg : Bool)
  (rsv : BitVec 5),
  Inv s → OutOk (tlbi s t kind rd ra rb pkg rsv) := by
  intros
  unfold tlbi
  repeat' first
    | with_reducible assumption
    | intro _
    | (extract_lets +onlyGivenNames x; refine (fun (_ : Inv x) => ?_) ?_; clear_value x; rotate_left; subst x)
    | (extract_lets +onlyGivenNames x; clear_value x)
    | extract_lets +onlyGivenNames x
    | with_reducible apply instrNext_keeps
    | with_reducible apply illegal_keeps
    | with_reducible apply useRegs_keeps
    | with_reducible apply guardCap_keeps
    | with_reducible apply drainAll_keeps
    | with_reducible apply updT_keeps
    | with_reducible apply syncDrain_keeps
    | with_reducible apply tlbiAll_keeps
    | split
    | with_reducible apply eOk_ok
    | with_reducible apply eOk_bindA

theorem execTlbiVaAsid_keeps : ∀ (t : Tid) (rd ra rb : RegNo) (pkg : Bool) (rsv : BitVec 5) (s : State),
  Inv s → OutOk (execTlbiVaAsid t rd ra rb pkg rsv s) := by
  intros
  unfold execTlbiVaAsid
  repeat' first
    | with_reducible assumption
    | with_reducible apply tlbi_keeps

theorem execTlbiVa_keeps : ∀ (t : Tid) (rd ra rb : RegNo) (pkg : Bool) (rsv : BitVec 5) (s : State),
  Inv s → OutOk (execTlbiVa t rd ra rb pkg rsv s) := by
  intros
  unfold execTlbiVa
  repeat' first
    | with_reducible assumption
    | with_reducible apply tlbi_keeps

theorem execTlbiAsid_keeps : ∀ (t : Tid) (rd ra rb : RegNo) (pkg : Bool) (rsv : BitVec 5) (s : State),
  Inv s → OutOk (execTlbiAsid t rd ra rb pkg rsv s) := by
  intros
  unfold execTlbiAsid
  repeat' first
    | with_reducible assumption
    | with_reducible apply tlbi_keeps

theorem execTlbiVmidCurrent_keeps : ∀ (t : Tid) (rd ra rb : RegNo) (pkg : Bool) (rsv : BitVec 5) (s : State),
  Inv s → OutOk (execTlbiVmidCurrent t rd ra rb pkg rsv s) := by
  intros
  unfold execTlbiVmidCurrent
  repeat' first
    | with_reducible assumption
    | with_reducible apply tlbi_keeps

theorem execTlbiIpa_keeps : ∀ (t : Tid) (rd ra rb : RegNo) (pkg : Bool) (rsv : BitVec 5) (s : State),
  Inv s → OutOk (execTlbiIpa t rd ra rb pkg rsv s) := by
  intros
  unfold execTlbiIpa
  repeat' first
    | with_reducible assumption
    | with_reducible apply tlbi_keeps

theorem execTlbiVmid_keeps : ∀ (t : Tid) (rd ra rb : RegNo) (pkg : Bool) (rsv : BitVec 5) (s : State),
  Inv s → OutOk (execTlbiVmid t rd ra rb pkg rsv s) := by
  intros
  unfold execTlbiVmid
  repeat' first
    | with_reducible assumption
    | with_reducible apply tlbi_keeps

theorem execTlbiAll_keeps : ∀ (t : Tid) (rd ra rb : RegNo) (pkg : Bool) (rsv : BitVec 5) (s : State),
  Inv s → OutOk (execTlbiAll t rd ra rb pkg rsv s) := by
  intros
  unfold execTlbiAll
  repeat' first
    | with_reducible assumption
    | with_reducible apply tlbi_keeps

theorem execTlbiSync_keeps : ∀ (t : Tid) (rd ra rb : RegNo) (pkg : Bool) (rsv : BitVec 5) (s : State),
  Inv s → OutOk (execTlbiSync t rd ra rb pkg rsv s) := by
  intros
  unfold execTlbiSync
  repeat' first
    | with_reducible assumption
    | with_reducible apply tlbi_keeps
    | split
    | with_reducible apply outOk_next

end Sys2Proof.Machine
end

