-- ==== Sys2Proof/Laws/KeepsVecOps.lean ====
section
/-! SUPPORT. The invariant under the definitions of Machine/VecOps.lean. -/

namespace Sys2Proof.Machine

set_option linter.all false

theorem useVecs_keeps : ∀ (s : State) (t : Tid) (vs : List RegNo),
  Inv s → Inv (useVecs s t vs) := by
  intros
  unfold useVecs
  repeat' first
    | with_reducible assumption
    | with_reducible apply updT_keeps

theorem putVec_keeps : ∀ (s : State) (t : Tid) (vd : RegNo) (v : Vec),
  Inv s → Inv (putVec s t vd v) := by
  intros
  unfold putVec
  repeat' first
    | with_reducible assumption
    | with_reducible apply updT_keeps

theorem vecOpD_keeps : ∀ (s : State) (t : Tid) (op : ℕ) (vd va vb : RegNo) (form : ℕ)
  (f : Vec → Vec → Vec → Vec),
  Inv s → OutOk (vecOpD s t op vd va vb form f) := by
  intros
  unfold vecOpD
  repeat' first
    | with_reducible assumption
    | intro _
    | (extract_lets +onlyGivenNames x; refine (fun (_ : Inv x) => ?_) ?_; clear_value x; rotate_left; subst x)
    | (extract_lets +onlyGivenNames x; clear_value x)
    | extract_lets +onlyGivenNames x
    | with_reducible apply instrNext_keeps
    | with_reducible apply useVecs_keeps
    | with_reducible apply putVec_keeps
    | with_reducible apply eOk_ok

theorem vecOp_keeps : ∀ (s : State) (t : Tid) (op : ℕ) (vd va vb : RegNo) (form : ℕ)
  (f : Vec → Vec → Vec),
  Inv s → OutOk (vecOp s t op vd va vb form f) := by
  intros
  unfold vecOp
  repeat' first
    | with_reducible assumption
    | with_reducible apply vecOpD_keeps

theorem execVint_keeps : ∀ (t : Tid) (vd va vb : RegNo) (op : VIntOp) (w : Lane)
  (s : State),
  Inv s → OutOk (execVint t vd va vb op w s) := by
  intros
  unfold execVint
  repeat' first
    | with_reducible assumption
    | with_reducible apply vecOp_keeps

theorem execVmul_keeps : ∀ (t : Tid) (vd va vb : RegNo) (op : VMulOp) (w : Lane)
  (s : State),
  Inv s → OutOk (execVmul t vd va vb op w s) := by
  intros
  unfold execVmul
  repeat' first
    | with_reducible assumption
    | with_reducible apply vecOp_keeps

theorem execVshl_keeps : ∀ (t : Tid) (vd va vb : RegNo) (op : VLogOp) (w : Lane)
  (s : State),
  Inv s → OutOk (execVshl t vd va vb op w s) := by
  intros
  unfold execVshl
  repeat' first
    | with_reducible assumption
    | with_reducible apply vecOp_keeps

theorem execVperm_keeps : ∀ (t : Tid) (vd va vb : RegNo) (op : VPermOp) (w : Lane)
  (s : State),
  Inv s → OutOk (execVperm t vd va vb op w s) := by
  intros
  unfold execVperm
  repeat' first
    | with_reducible assumption
    | with_reducible apply vecOp_keeps

theorem execVclmul_keeps : ∀ (t : Tid) (vd va vb : RegNo) (s : State),
  Inv s → OutOk (execVclmul t vd va vb s) := by
  intros
  unfold execVclmul
  repeat' first
    | with_reducible assumption
    | with_reducible apply vecOp_keeps

theorem execVaes_keeps : ∀ (t : Tid) (vd va vb : RegNo) (op : AesOp) (s : State),
  Inv s → OutOk (execVaes t vd va vb op s) := by
  intros
  unfold execVaes
  repeat' first
    | with_reducible assumption
    | with_reducible apply vecOp_keeps

theorem execVsha2_keeps : ∀ (t : Tid) (vd va vb : RegNo) (op : Sha2Op) (s : State),
  Inv s → OutOk (execVsha2 t vd va vb op s) := by
  intros
  unfold execVsha2
  repeat' first
    | with_reducible assumption
    | with_reducible apply vecOpD_keeps

theorem execVsha3_keeps : ∀ (t : Tid) (vd va vb : RegNo) (op : Sha3Op) (round : Fin 24)
  (s : State),
  Inv s → OutOk (execVsha3 t vd va vb op round s) := by
  intros
  unfold execVsha3
  repeat' first
    | with_reducible assumption
    | with_reducible apply vecOpD_keeps

theorem execVmodma_keeps : ∀ (t : Tid) (vd va vb vc : RegNo) (s : State),
  Inv s → OutOk (execVmodma t vd va vb vc s) := by
  intros
  unfold execVmodma
  repeat' first
    | with_reducible assumption
    | intro _
    | (extract_lets +onlyGivenNames x; refine (fun (_ : Inv x) => ?_) ?_; clear_value x; rotate_left; subst x)
    | (extract_lets +onlyGivenNames x; clear_value x)
    | extract_lets +onlyGivenNames x
    | with_reducible apply instrNext_keeps
    | with_reducible apply useVecs_keeps
    | with_reducible apply faultAt_keeps
    | with_reducible apply putVec_keeps
    | split
    | with_reducible apply eOk_ok

theorem execVsel_keeps : ∀ (t : Tid) (vd va vb vc : RegNo) (w : Lane) (s : State),
  Inv s → OutOk (execVsel t vd va vb vc w s) := by
  intros
  unfold execVsel
  repeat' first
    | with_reducible assumption
    | intro _
    | (extract_lets +onlyGivenNames x; refine (fun (_ : Inv x) => ?_) ?_; clear_value x; rotate_left; subst x)
    | (extract_lets +onlyGivenNames x; clear_value x)
    | extract_lets +onlyGivenNames x
    | with_reducible apply instrNext_keeps
    | with_reducible apply useVecs_keeps
    | with_reducible apply putVec_keeps
    | with_reducible apply eOk_ok

theorem execVmov_keeps : ∀ (t : Tid) (rd ra : RegNo) (op : VMovOp) (w : Lane)
  (s : State),
  Inv s → OutOk (execVmov t rd ra op w s) := by
  intros
  unfold execVmov
  repeat' first
    | with_reducible assumption
    | intro _
    | (extract_lets +onlyGivenNames x; refine (fun (_ : Inv x) => ?_) ?_; clear_value x; rotate_left; subst x)
    | (extract_lets +onlyGivenNames x; clear_value x)
    | extract_lets +onlyGivenNames x
    | with_reducible apply instrNext_keeps
    | with_reducible apply useVecs_keeps
    | with_reducible apply useRegs_keeps
    | with_reducible apply putVec_keeps
    | with_reducible apply putInt_keeps
    | split
    | with_reducible apply eOk_ok

theorem execVred_keeps : ∀ (t : Tid) (vd va : RegNo) (op : VRedOp) (w : Lane)
  (s : State),
  Inv s → OutOk (execVred t vd va op w s) := by
  intros
  unfold execVred
  repeat' first
    | with_reducible assumption
    | intro _
    | (extract_lets +onlyGivenNames x; refine (fun (_ : Inv x) => ?_) ?_; clear_value x; rotate_left; subst x)
    | (extract_lets +onlyGivenNames x; clear_value x)
    | extract_lets +onlyGivenNames x
    | with_reducible apply instrNext_keeps
    | with_reducible apply useVecs_keeps
    | with_reducible apply arith_keeps
    | with_reducible apply eOk_ok

theorem fpOp_keeps : ∀ (s : State) (t : Tid) (op : ℕ) (vd va vb : RegNo) (form : ℕ)
  (w : FpW) (scalar long : Bool) (f : ℕ → ℕ → ℕ → FpRes),
  Inv s → OutOk (fpOp s t op vd va vb form w scalar long f) := by
  intros
  unfold fpOp
  repeat' first
    | with_reducible assumption
    | intro _
    | (extract_lets +onlyGivenNames x; refine (fun (_ : Inv x) => ?_) ?_; clear_value x; rotate_left; subst x)
    | (extract_lets +onlyGivenNames x; clear_value x)
    | extract_lets +onlyGivenNames x
    | with_reducible apply instrNext_keeps
    | with_reducible apply useVecs_keeps
    | with_reducible apply arith_keeps
    | with_reducible apply eOk_ok

theorem execFadd_keeps : ∀ (t : Tid) (vd va vb : RegNo) (op : FAddOp) (w : FpW) (scalar : Bool)
  (s : State),
  Inv s → OutOk (execFadd t vd va vb op w scalar s) := by
  intros
  unfold execFadd
  repeat' first
    | with_reducible assumption
    | with_reducible apply fpOp_keeps

theorem execFmul_keeps : ∀ (t : Tid) (vd va vb : RegNo) (w : FpW) (scalar : Bool) (s : State),
  Inv s → OutOk (execFmul t vd va vb w scalar s) := by
  intros
  unfold execFmul
  repeat' first
    | with_reducible assumption
    | with_reducible apply fpOp_keeps

theorem execFdiv_keeps : ∀ (t : Tid) (vd va vb : RegNo) (op : FDivOp) (w : FpW) (scalar : Bool)
  (s : State),
  Inv s → OutOk (execFdiv t vd va vb op w scalar s) := by
  intros
  unfold execFdiv
  repeat' first
    | with_reducible assumption
    | with_reducible apply fpOp_keeps

theorem execFma_keeps : ∀ (t : Tid) (vd va vb vc : RegNo) (w : FpW) (scalar : Bool)
  (s : State),
  Inv s → OutOk (execFma t vd va vb vc w scalar s) := by
  intros
  unfold execFma
  repeat' first
    | with_reducible assumption
    | intro _
    | (extract_lets +onlyGivenNames x; refine (fun (_ : Inv x) => ?_) ?_; clear_value x; rotate_left; subst x)
    | (extract_lets +onlyGivenNames x; clear_value x)
    | extract_lets +onlyGivenNames x
    | with_reducible apply instrNext_keeps
    | with_reducible apply useVecs_keeps
    | with_reducible apply arith_keeps
    | with_reducible apply eOk_ok

theorem execFcvt_keeps : ∀ (t : Tid) (vd va : RegNo) (op : FCvtOp) (scalar : Bool) (s : State),
  Inv s → OutOk (execFcvt t vd va op scalar s) := by
  intros
  unfold execFcvt
  repeat' first
    | with_reducible assumption
    | intro _
    | (extract_lets +onlyGivenNames x; refine (fun (_ : Inv x) => ?_) ?_; clear_value x; rotate_left; subst x)
    | (extract_lets +onlyGivenNames x; clear_value x)
    | extract_lets +onlyGivenNames x
    | with_reducible apply instrNext_keeps
    | with_reducible apply useVecs_keeps
    | with_reducible apply arith_keeps
    | split
    | with_reducible apply eOk_ok

end Sys2Proof.Machine
end

