-- ==== Sys2Proof/Laws/KeepsDispatch.lean ====
section
/-! SUPPORT. The invariant under the definitions of Machine/Dispatch.lean. -/

namespace Sys2Proof.Machine

set_option linter.all false

theorem exec_keeps : ∀ (i : Instr) (s : State), Inv s → OutOk (exec i s) := by
  intro i s inv0
  cases i with
  | registerWrite r a wide v => exact execRegisterWrite_keeps r a wide v s inv0
  | unitStartCommand u => exact execUnitStartCommand_keeps u s inv0
  | placeSpare u => exact execPlaceSpare_keeps u s inv0
  | bivouacPowerDown u => exact execBivouacPowerDown_keeps u s inv0
  | startSequenceComplete u => exact execStartSequenceComplete_keeps u s inv0
  | startSequenceError u => exact execStartSequenceError_keeps u s inv0
  | drainCommand u => exact execDrainCommand_keeps u s inv0
  | drainComplete u retire => exact execDrainComplete_keeps u retire s inv0
  | drainCancelled u => exact execDrainCancelled_keeps u s inv0
  | unitFailure u why => exact execUnitFailure_keeps u why s inv0
  | containmentWithdraw u => exact execContainmentWithdraw_keeps u s inv0
  | failedRestart u => exact execFailedRestart_keeps u s inv0
  | stateMessage k => exact execStateMessage_keeps k s inv0
  | droopPause d mv => exact execDroopPause_keeps d mv s inv0
  | droopResume d mv => exact execDroopResume_keeps d mv s inv0
  | referenceLoss r => exact execReferenceLoss_keeps r s inv0
  | referenceReturn r => exact execReferenceReturn_keeps r s inv0
  | revertSwitch => exact execRevertSwitch_keeps s inv0
  | governorEvaluation h x t0 t1 t2 t3 => exact execGovernorEvaluation_keeps h x t0 t1 t2 t3 s inv0
  | voltageStep d => exact execVoltageStep_keeps d s inv0
  | powerWindow h mean => exact execPowerWindow_keeps h mean s inv0
  | sensorSelfCheckFail h k => exact execSensorSelfCheckFail_keeps h k s inv0
  | domainTrip d reading => exact execDomainTrip_keeps d reading s inv0
  | softStopResume d readings => exact execSoftStopResume_keeps d readings s inv0
  | packageCritical d reading => exact execPackageCritical_keeps d reading s inv0
  | thermTrip => exact execThermTrip_keeps s inv0
  | holdoverCapacitorLow mv => exact execHoldoverCapacitorLow_keeps mv s inv0
  | call t disp => exact execCall_keeps t disp s inv0
  | callr t ra => exact execCallr_keeps t ra s inv0
  | ret t => exact execRet_keeps t s inv0
  | spill t => exact execSpill_keeps t s inv0
  | windowFill t => exact execWindowFill_keeps t s inv0
  | rdtr t rd ra rb fn => exact execRdtr_keeps t rd ra rb fn s inv0
  | wrtrWstack t rd ra rb rsv => exact execWrtrWstack_keeps t rd ra rb rsv s inv0
  | wrtrFstack t rd ra rb rsv => exact execWrtrFstack_keeps t rd ra rb rsv s inv0
  | wrtrFgate t rd ra rb rsv => exact execWrtrFgate_keeps t rd ra rb rsv s inv0
  | wrtrGatetab t rd ra rb rsv => exact execWrtrGatetab_keeps t rd ra rb rsv s inv0
  | wrtrTctrl t rd ra rb rsv => exact execWrtrTctrl_keeps t rd ra rb rsv s inv0
  | wrtrTstatus t rd ra rb rsv => exact execWrtrTstatus_keeps t rd ra rb rsv s inv0
  | add t rd ra rb => exact execAdd_keeps t rd ra rb s inv0
  | sub t rd ra rb => exact execSub_keeps t rd ra rb s inv0
  | and t rd ra rb => exact execAnd_keeps t rd ra rb s inv0
  | or t rd ra rb => exact execOr_keeps t rd ra rb s inv0
  | xor t rd ra rb => exact execXor_keeps t rd ra rb s inv0
  | andn t rd ra rb => exact execAndn_keeps t rd ra rb s inv0
  | sll t rd ra rb => exact execSll_keeps t rd ra rb s inv0
  | srl t rd ra rb => exact execSrl_keeps t rd ra rb s inv0
  | sra t rd ra rb => exact execSra_keeps t rd ra rb s inv0
  | rol t rd ra rb => exact execRol_keeps t rd ra rb s inv0
  | ror t rd ra rb => exact execRor_keeps t rd ra rb s inv0
  | clz t rd ra rb => exact execClz_keeps t rd ra rb s inv0
  | ctz t rd ra rb => exact execCtz_keeps t rd ra rb s inv0
  | popc t rd ra rb => exact execPopc_keeps t rd ra rb s inv0
  | bswap t rd ra rb => exact execBswap_keeps t rd ra rb s inv0
  | slt t rd ra rb => exact execSlt_keeps t rd ra rb s inv0
  | sltu t rd ra rb => exact execSltu_keeps t rd ra rb s inv0
  | min t rd ra rb => exact execMin_keeps t rd ra rb s inv0
  | max t rd ra rb => exact execMax_keeps t rd ra rb s inv0
  | minu t rd ra rb => exact execMinu_keeps t rd ra rb s inv0
  | maxu t rd ra rb => exact execMaxu_keeps t rd ra rb s inv0
  | addi t limm rd ra imm => exact execAddi_keeps t limm rd ra imm s inv0
  | andi t limm rd ra imm => exact execAndi_keeps t limm rd ra imm s inv0
  | ori t limm rd ra imm => exact execOri_keeps t limm rd ra imm s inv0
  | xori t limm rd ra imm => exact execXori_keeps t limm rd ra imm s inv0
  | shi t limm rd ra imm => exact execShi_keeps t limm rd ra imm s inv0
  | slti t limm rd ra imm => exact execSlti_keeps t limm rd ra imm s inv0
  | sltiu t limm rd ra imm => exact execSltiu_keeps t limm rd ra imm s inv0
  | bitf t limm rd ra imm => exact execBitf_keeps t limm rd ra imm s inv0
  | mulLow t rd ra rb => exact execMulLow_keeps t rd ra rb s inv0
  | mulHighSigned t rd ra rb => exact execMulHighSigned_keeps t rd ra rb s inv0
  | mulHighUnsigned t rd ra rb => exact execMulHighUnsigned_keeps t rd ra rb s inv0
  | mulHighSignedUnsigned t rd ra rb => exact execMulHighSignedUnsigned_keeps t rd ra rb s inv0
  | div t rd ra rb => exact execDiv_keeps t rd ra rb s inv0
  | divu t rd ra rb => exact execDivu_keeps t rd ra rb s inv0
  | rem t rd ra rb => exact execRem_keeps t rd ra rb s inv0
  | remu t rd ra rb => exact execRemu_keeps t rd ra rb s inv0
  | longOpComplete t k => exact execLongOpComplete_keeps t k s inv0
  | addt t rd ra rb => exact execAddt_keeps t rd ra rb s inv0
  | subt t rd ra rb => exact execSubt_keeps t rd ra rb s inv0
  | mult t rd ra rb => exact execMult_keeps t rd ra rb s inv0
  | divtQuotient t rd ra rb => exact execDivtQuotient_keeps t rd ra rb s inv0
  | divtRemainder t rd ra rb => exact execDivtRemainder_keeps t rd ra rb s inv0
  | sel t rd ra rb rc cond rsv => exact execSel_keeps t rd ra rb rc cond rsv s inv0
  | cmov t rd ra rb rc cond rsv => exact execCmov_keeps t rd ra rb rc cond rsv s inv0
  | beq t ra rb disp => exact execBeq_keeps t ra rb disp s inv0
  | bne t ra rb disp => exact execBne_keeps t ra rb disp s inv0
  | blt t ra rb disp => exact execBlt_keeps t ra rb disp s inv0
  | bge t ra rb disp => exact execBge_keeps t ra rb disp s inv0
  | bltu t ra rb disp => exact execBltu_keeps t ra rb disp s inv0
  | bgeu t ra rb disp => exact execBgeu_keeps t ra rb disp s inv0
  | j t disp => exact execJ_keeps t disp s inv0
  | jr t ra => exact execJr_keeps t ra s inv0
  | trap t limm n => exact execTrap_keeps t limm n s inv0
  | fret t rsv => exact execFret_keeps t rsv s inv0
  | wait t ra => exact execWait_keeps t ra s inv0
  | waitDeadline t => exact execWaitDeadline_keeps t s inv0
  | ldB t rd ra am imm => exact execLdB_keeps t rd ra am imm s inv0
  | ldBu t rd ra am imm => exact execLdBu_keeps t rd ra am imm s inv0
  | ldH t rd ra am imm => exact execLdH_keeps t rd ra am imm s inv0
  | ldHu t rd ra am imm => exact execLdHu_keeps t rd ra am imm s inv0
  | ldW t rd ra am imm => exact execLdW_keeps t rd ra am imm s inv0
  | ldWu t rd ra am imm => exact execLdWu_keeps t rd ra am imm s inv0
  | ldD t rd ra am imm => exact execLdD_keeps t rd ra am imm s inv0
  | ldC t rd ra am imm => exact execLdC_keeps t rd ra am imm s inv0
  | stB t rd ra am imm => exact execStB_keeps t rd ra am imm s inv0
  | stH t rd ra am imm => exact execStH_keeps t rd ra am imm s inv0
  | stW t rd ra am imm => exact execStW_keeps t rd ra am imm s inv0
  | stD t rd ra am imm => exact execStD_keeps t rd ra am imm s inv0
  | stC t rd ra am imm => exact execStC_keeps t rd ra am imm s inv0
  | ldV t rd ra am imm => exact execLdV_keeps t rd ra am imm s inv0
  | stV t rd ra am imm => exact execStV_keeps t rd ra am imm s inv0
  | ldxB t rd ra rb sh w m x => exact execLdxB_keeps t rd ra rb sh w m x s inv0
  | ldxH t rd ra rb sh w m x => exact execLdxH_keeps t rd ra rb sh w m x s inv0
  | ldxW t rd ra rb sh w m x => exact execLdxW_keeps t rd ra rb sh w m x s inv0
  | ldxD t rd ra rb sh w m x => exact execLdxD_keeps t rd ra rb sh w m x s inv0
  | ldxC t rd ra rb sh w m x => exact execLdxC_keeps t rd ra rb sh w m x s inv0
  | ldxV t rd ra rb sh w m x => exact execLdxV_keeps t rd ra rb sh w m x s inv0
  | stxB t rd ra rb sh w m x => exact execStxB_keeps t rd ra rb sh w m x s inv0
  | stxH t rd ra rb sh w m x => exact execStxH_keeps t rd ra rb sh w m x s inv0
  | stxW t rd ra rb sh w m x => exact execStxW_keeps t rd ra rb sh w m x s inv0
  | stxD t rd ra rb sh w m x => exact execStxD_keeps t rd ra rb sh w m x s inv0
  | stxC t rd ra rb sh w m x => exact execStxC_keeps t rd ra rb sh w m x s inv0
  | stxV t rd ra rb sh w m x => exact execStxV_keeps t rd ra rb sh w m x s inv0
  | amoFadd t rd ra rb order wide rsv => exact execAmoFadd_keeps t rd ra rb order wide rsv s inv0
  | amoSwap t rd ra rb order wide rsv => exact execAmoSwap_keeps t rd ra rb order wide rsv s inv0
  | amoAnd t rd ra rb order wide rsv => exact execAmoAnd_keeps t rd ra rb order wide rsv s inv0
  | amoOr t rd ra rb order wide rsv => exact execAmoOr_keeps t rd ra rb order wide rsv s inv0
  | amoXor t rd ra rb order wide rsv => exact execAmoXor_keeps t rd ra rb order wide rsv s inv0
  | amoSmin t rd ra rb order wide rsv => exact execAmoSmin_keeps t rd ra rb order wide rsv s inv0
  | amoSmax t rd ra rb order wide rsv => exact execAmoSmax_keeps t rd ra rb order wide rsv s inv0
  | amoUmin t rd ra rb order wide rsv => exact execAmoUmin_keeps t rd ra rb order wide rsv s inv0
  | amoUmax t rd ra rb order wide rsv => exact execAmoUmax_keeps t rd ra rb order wide rsv s inv0
  | cas t rd ra rb order width rsv => exact execCas_keeps t rd ra rb order width rsv s inv0
  | fenceFull t => exact execFenceFull_keeps t s inv0
  | fenceAcq t => exact execFenceAcq_keeps t s inv0
  | fenceRel t => exact execFenceRel_keeps t s inv0
  | fenceSs t => exact execFenceSs_keeps t s inv0
  | fenceIo t => exact execFenceIo_keeps t s inv0
  | lda t rd ra size rsv => exact execLda_keeps t rd ra size rsv s inv0
  | strel t rd ra size rsv => exact execStrel_keeps t rd ra size rsv s inv0
  | isync t => exact execIsync_keeps t s inv0
  | abar t => exact execAbar_keeps t s inv0
  | cmoClean t ra am imm => exact execCmoClean_keeps t ra am imm s inv0
  | cmoFlush t ra am imm => exact execCmoFlush_keeps t ra am imm s inv0
  | cmoZero t ra am imm => exact execCmoZero_keeps t ra am imm s inv0
  | prf t ra am imm => exact execPrf_keeps t ra am imm s inv0
  | cxbase t rd ra rb => exact execCxbase_keeps t rd ra rb s inv0
  | cxlen t rd ra rb => exact execCxlen_keeps t rd ra rb s inv0
  | cxperm t rd ra rb => exact execCxperm_keeps t rd ra rb s inv0
  | cxtype t rd ra rb => exact execCxtype_keeps t rd ra rb s inv0
  | cxtag t rd ra rb => exact execCxtag_keeps t rd ra rb s inv0
  | cxmove t rd ra rb => exact execCxmove_keeps t rd ra rb s inv0
  | cxdrop t rd ra rb => exact execCxdrop_keeps t rd ra rb s inv0
  | cxbound t rd ra rb => exact execCxbound_keeps t rd ra rb s inv0
  | cxboundx t rd ra rb => exact execCxboundx_keeps t rd ra rb s inv0
  | cxseal t rd ra rb => exact execCxseal_keeps t rd ra rb s inv0
  | cxopen t rd ra rb => exact execCxopen_keeps t rd ra rb s inv0
  | cxstrip t rd ra rb => exact execCxstrip_keeps t rd ra rb s inv0
  | cxwithin t rd ra rb => exact execCxwithin_keeps t rd ra rb s inv0
  | cxfitlen t rd ra rb => exact execCxfitlen_keeps t rd ra rb s inv0
  | cxfitbase t rd ra rb => exact execCxfitbase_keeps t rd ra rb s inv0
  | cxaddi t limm rd ra imm => exact execCxaddi_keeps t limm rd ra imm s inv0
  | cxboundi t limm rd ra imm => exact execCxboundi_keeps t limm rd ra imm s inv0
  | blkmove t rd ra rb fn => exact execBlkmove_keeps t rd ra rb fn s inv0
  | blkfill t rd ra rb fn => exact execBlkfill_keeps t rd ra rb fn s inv0
  | blkcmp t rd ra rb fn => exact execBlkcmp_keeps t rd ra rb fn s inv0
  | crcrange t rd ra rb fn => exact execCrcrange_keeps t rd ra rb fn s inv0
  | nttpass t rd ra rb fn => exact execNttpass_keeps t rd ra rb fn s inv0
  | blockElement t op rd ra rb => exact execBlockElement_keeps t op rd ra rb s inv0
  | rdtime t rd => exact execRdtime_keeps t rd s inv0
  | feat t limm rd ra imm => exact execFeat_keeps t limm rd ra imm s inv0
  | tlbiVaAsid t rd ra rb pkg rsv => exact execTlbiVaAsid_keeps t rd ra rb pkg rsv s inv0
  | tlbiVa t rd ra rb pkg rsv => exact execTlbiVa_keeps t rd ra rb pkg rsv s inv0
  | tlbiAsid t rd ra rb pkg rsv => exact execTlbiAsid_keeps t rd ra rb pkg rsv s inv0
  | tlbiVmidCurrent t rd ra rb pkg rsv => exact execTlbiVmidCurrent_keeps t rd ra rb pkg rsv s inv0
  | tlbiIpa t rd ra rb pkg rsv => exact execTlbiIpa_keeps t rd ra rb pkg rsv s inv0
  | tlbiVmid t rd ra rb pkg rsv => exact execTlbiVmid_keeps t rd ra rb pkg rsv s inv0
  | tlbiAll t rd ra rb pkg rsv => exact execTlbiAll_keeps t rd ra rb pkg rsv s inv0
  | tlbiSync t rd ra rb pkg rsv => exact execTlbiSync_keeps t rd ra rb pkg rsv s inv0
  | vint t vd va vb op w => exact execVint_keeps t vd va vb op w s inv0
  | vmul t vd va vb op w => exact execVmul_keeps t vd va vb op w s inv0
  | vshl t vd va vb op w => exact execVshl_keeps t vd va vb op w s inv0
  | vperm t vd va vb op w => exact execVperm_keeps t vd va vb op w s inv0
  | fadd t vd va vb op w scalar => exact execFadd_keeps t vd va vb op w scalar s inv0
  | fmul t vd va vb w scalar => exact execFmul_keeps t vd va vb w scalar s inv0
  | fma t vd va vb vc w scalar => exact execFma_keeps t vd va vb vc w scalar s inv0
  | fdiv t vd va vb op w scalar => exact execFdiv_keeps t vd va vb op w scalar s inv0
  | fcvt t vd va op scalar => exact execFcvt_keeps t vd va op scalar s inv0
  | vmov t rd ra op w => exact execVmov_keeps t rd ra op w s inv0
  | vred t vd va op w => exact execVred_keeps t vd va op w s inv0
  | vaes t vd va vb op => exact execVaes_keeps t vd va vb op s inv0
  | vclmul t vd va vb => exact execVclmul_keeps t vd va vb s inv0
  | vsha2 t vd va vb op => exact execVsha2_keeps t vd va vb op s inv0
  | vsha3 t vd va vb op round => exact execVsha3_keeps t vd va vb op round s inv0
  | vmodma t vd va vb vc => exact execVmodma_keeps t vd va vb vc s inv0
  | vsel t vd va vb vc w => exact execVsel_keeps t vd va vb vc w s inv0
  | faultEntry t src => exact execFaultEntry_keeps t src s inv0
  | impreciseReport t => exact execImpreciseReport_keeps t s inv0
  | interruptEntry t => exact execInterruptEntry_keeps t s inv0
  | interruptMessage k => exact execInterruptMessage_keeps k s inv0
  | irqSend r t v => exact execIrqSend_keeps r t v s inv0
  | mispredictRecovery x => exact execMispredictRecovery_keeps x s inv0
  | bulkClear t => exact execBulkClear_keeps t s inv0
  | bulkClearDone t => exact execBulkClearDone_keeps t s inv0
  | predClearWrite r t v => exact execPredClearWrite_keeps r t v s inv0
  | hardwarePrefetch t va => exact execHardwarePrefetch_keeps t va s inv0
  | storeRelease t k => exact execStoreRelease_keeps t k s inv0
  | pageWalk t va => exact execPageWalk_keeps t va s inv0
  | rootWrite r t second v => exact execRootWrite_keeps r t second v s inv0
  | slip t c => exact execSlip_keeps t c s inv0
  | fall t c => exact execFall_keeps t c s inv0
  | slipLimitReached k => exact execSlipLimitReached_keeps k s inv0
  | checkInject r k v => exact execCheckInject_keeps r k v s inv0
  | spareChoose k => exact execSpareChoose_keeps k s inv0
  | spareRaiseDone k ok => exact execSpareRaiseDone_keeps k ok s inv0
  | captureDone k => exact execCaptureDone_keeps k s inv0
  | flushDone k => exact execFlushDone_keeps k s inv0
  | stateLoadDone k => exact execStateLoadDone_keeps k s inv0
  | rebindDone k => exact execRebindDone_keeps k s inv0
  | spareResume k => exact execSpareResume_keeps k s inv0
  | soloArrayError t => exact execSoloArrayError_keeps t s inv0
  | soloUncorrectable k => exact execSoloUncorrectable_keeps k s inv0
  | reserveRelease x k seq => exact execReserveRelease_keeps x k seq s inv0
  | reserveReturn x k seq => exact execReserveReturn_keeps x k seq s inv0
  | tagRecovery u array set what => exact execTagRecovery_keeps u array set what s inv0
  | wayDisable u array way management => exact execWayDisable_keeps u array way management s inv0
  | scratchCfgWrite r v => exact execScratchCfgWrite_keeps r v s inv0
  | scratchChangeDone => exact execScratchChangeDone_keeps s inv0
  | sliceHold ix drain => exact execSliceHold_keeps ix drain s inv0
  | directoryTransferDone ix => exact execDirectoryTransferDone_keeps ix s inv0
  | sliceMapCommit ix => exact execSliceMapCommit_keeps ix s inv0
  | sliceRelease ix => exact execSliceRelease_keeps ix s inv0
  | substituteBuddyCopyDone h => exact execSubstituteBuddyCopyDone_keeps h s inv0
  | rdS k line prefetch x => exact execRdS_keeps k line prefetch x s inv0
  | rdO k line => exact execRdO_keeps k line s inv0
  | upg k line => exact execUpg_keeps k line s inv0
  | rdOnce r line => exact execRdOnce_keeps r line s inv0
  | wrLine w line bytes hint => exact execWrLine_keeps w line bytes hint s inv0
  | wrPart w pa bytes => exact execWrPart_keeps w pa bytes s inv0
  | wb k line => exact execWb_keeps k line s inv0
  | notice k line => exact execNotice_keeps k line s inv0
  | atom w pa op wide v => exact execAtom_keeps w pa op wide v s inv0
  | snpS m => exact execSnpS_keeps m s inv0
  | snpO m => exact execSnpO_keeps m s inv0
  | snpInv m => exact execSnpInv_keeps m s inv0
  | stash m k => exact execStash_keeps m k s inv0
  | dupUpd m => exact execDupUpd_keeps m s inv0
  | data m => exact execData_keeps m s inv0
  | ack m => exact execAck_keeps m s inv0
  | nack m => exact execNack_keeps m s inv0
  | stale m => exact execStale_keeps m s inv0
  | retry m => exact execRetry_keeps m s inv0
  | noTarget m => exact execNoTarget_keeps m s inv0
  | packetHop k fresh => exact execPacketHop_keeps k fresh s inv0
  | linkReplay st d => exact execLinkReplay_keeps st d s inv0
  | livenessToken st d => exact execLivenessToken_keeps st d s inv0
  | linkDown st d lockLost => exact execLinkDown_keeps st d lockLost s inv0
  | linkOutOfService st d => exact execLinkOutOfService_keeps st d s inv0
  | routeCommit changes => exact execRouteCommit_keeps changes s inv0
  | quietDrained => exact execQuietDrained_keeps s inv0
  | alternativesReady links stops => exact execAlternativesReady_keeps links stops s inv0
  | reroute isStop n => exact execReroute_keeps isStop n s inv0
  | routeRecompute => exact execRouteRecompute_keeps s inv0
  | requestTimeout k => exact execRequestTimeout_keeps k s inv0
  | completerRecordExpiry k => exact execCompleterRecordExpiry_keeps k s inv0
  | mcCommandIssue c sub allowed pat mpat draw => exact execMcCommandIssue_keeps c sub allowed pat mpat draw s inv0
  | refreshDue c rank hot => exact execRefreshDue_keeps c rank hot s inv0
  | driftTracking c writes => exact execDriftTracking_keeps c writes s inv0
  | frequencyChange r c v => exact execFrequencyChange_keeps r c v s inv0
  | frequencyChangeDone c rate => exact execFrequencyChangeDone_keeps c rate s inv0
  | channelFailure c => exact execChannelFailure_keeps c s inv0
  | rankMigrationStart c rank => exact execRankMigrationStart_keeps c rank s inv0
  | migrationCopy c pat mpat => exact execMigrationCopy_keeps c pat mpat s inv0
  | migrationDone c => exact execMigrationDone_keeps c s inv0
  | gleanerRead c pat mpat => exact execGleanerRead_keeps c pat mpat s inv0
  | spareRankTest c good => exact execSpareRankTest_keeps c good s inv0
  | cxlLinkLoss l => exact execCxlLinkLoss_keeps l s inv0
  | cxlLinkTrain o ok => exact execCxlLinkTrain_keeps o ok s inv0
  | hostCompletion p tag count lower c => exact execHostCompletion_keeps p tag count lower c s inv0
  | completionTimeout p tag => exact execCompletionTimeout_keeps p tag s inv0
  | quarantineExpiry p tag => exact execQuarantineExpiry_keeps p tag s inv0
  | tagWaitTimeout p k => exact execTagWaitTimeout_keeps p k s inv0
  | busMasterDisable p ix => exact execBusMasterDisable_keeps p ix s inv0
  | busMasterEnable p ix => exact execBusMasterEnable_keeps p ix s inv0
  | functionLevelReset p ix finish => exact execFunctionLevelReset_keeps p ix finish s inv0
  | portReset p why => exact execPortReset_keeps p why s inv0
  | portReady p => exact execPortReady_keeps p s inv0
  | portFreeze p why => exact execPortFreeze_keeps p why s inv0
  | outboundStall p => exact execOutboundStall_keeps p s inv0
  | freezeWrite r p => exact execFreezeWrite_keeps r p s inv0
  | releaseWrite r p => exact execReleaseWrite_keeps r p s inv0
  | autoRelease p => exact execAutoRelease_keeps p s inv0
  | msixVectorSend p ix v => exact execMsixVectorSend_keeps p ix v s inv0
  | doorbellWrite r g off wide v => exact execDoorbellWrite_keeps r g off wide v s inv0
  | doorbellPoll g => exact execDoorbellPoll_keeps g s inv0
  | refresh r g => exact execRefresh_keeps r g s inv0
  | chanStart r g => exact execChanStart_keeps r g s inv0
  | chanStop r g => exact execChanStop_keeps r g s inv0
  | abort r g => exact execAbort_keeps r g s inv0
  | flush r g => exact execFlush_keeps r g s inv0
  | chanReset r g => exact execChanReset_keeps r g s inv0
  | channelStopped g => exact execChannelStopped_keeps g s inv0
  | descriptorStart f => exact execDescriptorStart_keeps f s inv0
  | descriptorComplete g => exact execDescriptorComplete_keeps g s inv0
  | irqTimeTrigger g => exact execIrqTimeTrigger_keeps g s inv0
  | liveWordWrite g => exact execLiveWordWrite_keeps g s inv0
  | descNop g slot => exact execDescNop_keeps g slot s inv0
  | descFence g slot => exact execDescFence_keeps g slot s inv0
  | descWait g slot => exact execDescWait_keeps g slot s inv0
  | executionTimeout g slot => exact execExecutionTimeout_keeps g slot s inv0
  | dCopy g slot => exact execDCopy_keeps g slot s inv0
  | dGather g slot => exact execDGather_keeps g slot s inv0
  | dScatter g slot => exact execDScatter_keeps g slot s inv0
  | dFill g slot => exact execDFill_keeps g slot s inv0
  | dCrc g slot => exact execDCrc_keeps g slot s inv0
  | dCompare g slot => exact execDCompare_keeps g slot s inv0
  | dCopyCrc g slot => exact execDCopyCrc_keeps g slot s inv0
  | moveElement g slot => exact execMoveElement_keeps g slot s inv0
  | engineMismatch f key k => exact execEngineMismatch_keeps f key k s inv0
  | msg g slot => exact execMsg_keeps g slot s inv0
  | msgi g slot => exact execMsgi_keeps g slot s inv0
  | queueHeadRecheck f q => exact execQueueHeadRecheck_keeps f q s inv0
  | serviceQueueEnable r f q v => exact execServiceQueueEnable_keeps r f q v s inv0
  | aesEcb g slot => exact execAesEcb_keeps g slot s inv0
  | aesCbc g slot => exact execAesCbc_keeps g slot s inv0
  | aesCtr g slot => exact execAesCtr_keeps g slot s inv0
  | aesGcm g slot => exact execAesGcm_keeps g slot s inv0
  | aesCmac g slot => exact execAesCmac_keeps g slot s inv0
  | tdea g slot => exact execTdea_keeps g slot s inv0
  | sha2 g slot => exact execSha2_keeps g slot s inv0
  | sha3 g slot => exact execSha3_keeps g slot s inv0
  | hmac g slot => exact execHmac_keeps g slot s inv0
  | random g slot => exact execRandom_keeps g slot s inv0
  | rsaPrivate g slot => exact execRsaPrivate_keeps g slot s inv0
  | rsaPublic g slot => exact execRsaPublic_keeps g slot s inv0
  | ecdsaSign g slot => exact execEcdsaSign_keeps g slot s inv0
  | ecdsaVerify g slot => exact execEcdsaVerify_keeps g slot s inv0
  | ecdh g slot => exact execEcdh_keeps g slot s inv0
  | ed25519Sign g slot => exact execEd25519Sign_keeps g slot s inv0
  | ed25519Verify g slot => exact execEd25519Verify_keeps g slot s inv0
  | x25519 g slot => exact execX25519_keeps g slot s inv0
  | mlKemEncapsulate g slot => exact execMlKemEncapsulate_keeps g slot s inv0
  | mlKemDecapsulate g slot => exact execMlKemDecapsulate_keeps g slot s inv0
  | mlDsaSign g slot => exact execMlDsaSign_keeps g slot s inv0
  | mlDsaVerify g slot => exact execMlDsaVerify_keeps g slot s inv0
  | pinTranslate g slot => exact execPinTranslate_keeps g slot s inv0
  | keyOperationEnd g slot => exact execKeyOperationEnd_keeps g slot s inv0
  | engineRestart f key k selfTest => exact execEngineRestart_keeps f key k selfTest s inv0
  | ucodeStageWrite r f k w v => exact execUcodeStageWrite_keeps r f k w v s inv0
  | ucodeCommit r f k v => exact execUcodeCommit_keeps r f k v s inv0
  | ucodeDiscard r f k v => exact execUcodeDiscard_keeps r f k v s inv0
  | ucodeCheckDone f k => exact execUcodeCheckDone_keeps f k s inv0
  | ucodeApply f k => exact execUcodeApply_keeps f k s inv0
  | floorWindow p => exact execFloorWindow_keeps p s inv0
  | mbxSend p ix => exact execMbxSend_keeps p ix s inv0
  | mbxAck p ix => exact execMbxAck_keeps p ix s inv0
  | mgrSend r p ix => exact execMgrSend_keeps r p ix s inv0
  | mgrAck r p ix => exact execMgrAck_keeps r p ix s inv0
  | quiesce r p ix drain => exact execQuiesce_keeps r p ix drain s inv0
  | freeze r p ix drain => exact execFreeze_keeps r p ix drain s inv0
  | instanceReset r p ix drain => exact execInstanceReset_keeps r p ix drain s inv0
  | save r p ix drain => exact execSave_keeps r p ix drain s inv0
  | restore r p ix drain => exact execRestore_keeps r p ix drain s inv0
  | resume r p ix drain => exact execResume_keeps r p ix drain s inv0
  | quiesceDone p ix => exact execQuiesceDone_keeps p ix s inv0
  | freezeDone p ix => exact execFreezeDone_keeps p ix s inv0
  | writeLogEntry p ix page => exact execWriteLogEntry_keeps p ix page s inv0
  | writeLogHeadWrite r p ix v => exact execWriteLogHeadWrite_keeps r p ix v s inv0
  | frameReceive b x fcsOk => exact execFrameReceive_keeps b x fcsOk s inv0
  | learn => exact execLearn_keeps s inv0
  | fdbChange io => exact execFdbChange_keeps io s inv0
  | fdbAging vid mac => exact execFdbAging_keeps vid mac s inv0
  | fdbAddStatic r v => exact execFdbAddStatic_keeps r v s inv0
  | fdbDelete r v => exact execFdbDelete_keeps r v s inv0
  | fdbUnlock r v => exact execFdbUnlock_keeps r v s inv0
  | fdbFlushPort r v => exact execFdbFlushPort_keeps r v s inv0
  | vlanReload r v => exact execVlanReload_keeps r v s inv0
  | masterReload => exact execMasterReload_keeps s inv0
  | statisticsWindow b => exact execStatisticsWindow_keeps b s inv0
  | pfcXon b prio => exact execPfcXon_keeps b prio s inv0
  | frameTransmit b => exact execFrameTransmit_keeps b s inv0
  | tx g slot => exact execTx_keeps g slot s inv0
  | rxbuf g slot => exact execRxbuf_keeps g slot s inv0
  | txsg g slot => exact execTxsg_keeps g slot s inv0
  | frameDeliver v => exact execFrameDeliver_keeps v s inv0
  | losslessHoldExpiry v => exact execLosslessHoldExpiry_keeps v s inv0
  | networkLinkDown b => exact execNetworkLinkDown_keeps b s inv0
  | networkLinkUp b => exact execNetworkLinkUp_keeps b s inv0
  | downHoldExpiry b => exact execDownHoldExpiry_keeps b s inv0
  | worldSwitch r v => exact execWorldSwitch_keeps r v s inv0
  | worldSwitchDone => exact execWorldSwitchDone_keeps s inv0
  | heartbeat r v => exact execHeartbeat_keeps r v s inv0
  | trustedGroupFailure => exact execTrustedGroupFailure_keeps s inv0
  | groupRestart => exact execGroupRestart_keeps s inv0
  | groupRestartDone => exact execGroupRestartDone_keeps s inv0
  | measurementExtend r v => exact execMeasurementExtend_keeps r v s inv0
  | load r v => exact execLoad_keeps r v s inv0
  | generate r v => exact execGenerate_keeps r v s inv0
  | clear r v => exact execClear_keeps r v s inv0
  | publicPart r v => exact execPublicPart_keeps r v s inv0
  | provision r v => exact execProvision_keeps r v s inv0
  | tamperDetect cause => exact execTamperDetect_keeps cause s inv0
  | counterIncrement r v => exact execCounterIncrement_keeps r v s inv0
  | bcHeartbeat => exact execBcHeartbeat_keeps s inv0
  | bcTakeover why => exact execBcTakeover_keeps why s inv0
  | bcCoreRejoin ok => exact execBcCoreRejoin_keeps ok s inv0
  | sensorPoll x => exact execSensorPoll_keeps x s inv0
  | powerDistribution now other x => exact execPowerDistribution_keeps now other x s inv0
  | powerBrake => exact execPowerBrake_keeps s inv0
  | powerBrakeRelease => exact execPowerBrakeRelease_keeps s inv0
  | logRingCopy => exact execLogRingCopy_keeps s inv0
  | logFlashAppend => exact execLogFlashAppend_keeps s inv0
  | mctpControl x type body => exact execMctpControl_keeps x type body s inv0
  | logbookRead x seq count => exact execLogbookRead_keeps x seq count s inv0
  | pldmRequest x q => exact execPldmRequest_keeps x q s inv0
  | pldmResetRequest x powerDown => exact execPldmResetRequest_keeps x powerDown s inv0
  | firmwareUpdate x image => exact execFirmwareUpdate_keeps x image s inv0
  | updateRollback => exact execUpdateRollback_keeps s inv0
  | patchSetLoad x version verifies compatibleWith => exact execPatchSetLoad_keeps x version verifies compatibleWith s inv0
  | patchApply k => exact execPatchApply_keeps k s inv0
  | trustedComponentStage x cls version body => exact execTrustedComponentStage_keeps x cls version body s inv0
  | trustedOutcome => exact execTrustedOutcome_keeps s inv0
  | getVersion x => exact execGetVersion_keeps x s inv0
  | getCapabilities x => exact execGetCapabilities_keeps x s inv0
  | negotiateAlgorithms x => exact execNegotiateAlgorithms_keeps x s inv0
  | getDigests x => exact execGetDigests_keeps x s inv0
  | getCertificate x slot offset length => exact execGetCertificate_keeps x slot offset length s inv0
  | challenge x slot nonce => exact execChallenge_keeps x slot nonce s inv0
  | getMeasurements x block nonce => exact execGetMeasurements_keeps x block nonce s inv0
  | viewSweep => exact execViewSweep_keeps s inv0
  | unitCommandRequest x u seq ask => exact execUnitCommandRequest_keeps x u seq ask s inv0
  | withdrawalStoreAppend => exact execWithdrawalStoreAppend_keeps s inv0
  | reinstateRequest x u seq => exact execReinstateRequest_keeps x u seq s inv0
  | boardInputChange ix level => exact execBoardInputChange_keeps ix level s inv0
  | hostPresenceLoss p => exact execHostPresenceLoss_keeps p s inv0
  | engineStopFailure f => exact execEngineStopFailure_keeps f s inv0
  | channelRestart c => exact execChannelRestart_keeps c s inv0
  | resilverDone c => exact execResilverDone_keeps c s inv0
  | flashRewrite => exact execFlashRewrite_keeps s inv0
  | reserveRefill x ix seq => exact execReserveRefill_keeps x ix seq s inv0
  | powerGoodStandby => exact execPowerGoodStandby_keeps s inv0
  | stageS1 => exact execStageS1_keeps s inv0
  | stageS2 aOk bOk => exact execStageS2_keeps aOk bOk s inv0
  | stageS3 doms units => exact execStageS3_keeps doms units s inv0
  | stageS4 => exact execStageS4_keeps s inv0
  | stageS5 groupFails => exact execStageS5_keeps groupFails s inv0
  | stageS6 => exact execStageS6_keeps s inv0
  | stageS7 => exact execStageS7_keeps s inv0
  | mainPowerTimeout => exact execMainPowerTimeout_keeps s inv0
  | memoryTranche => exact execMemoryTranche_keeps s inv0
  | minSvnBurn => exact execMinSvnBurn_keeps s inv0
  | threadStart r t v => exact execThreadStart_keeps r t v s inv0
  | deviceReset cause => exact execDeviceReset_keeps cause s inv0
  | powerDown => exact execPowerDown_keeps s inv0
  | coreReset k => exact execCoreReset_keeps k s inv0
  | tileReset ix => exact execTileReset_keeps ix s inv0
  | sheafReset h => exact execSheafReset_keeps h s inv0
  | fieldReset f => exact execFieldReset_keeps f s inv0
  | counterWindow u => exact execCounterWindow_keeps u s inv0
  | sampleRecord t x => exact execSampleRecord_keeps t x s inv0
  | traceRecord t x room => exact execTraceRecord_keeps t x room s inv0
  | tapBypass => exact execTapBypass_keeps s inv0
  | tapIdcode => exact execTapIdcode_keeps s inv0
  | tapSample pins => exact execTapSample_keeps pins s inv0
  | tapPreload x => exact execTapPreload_keeps x s inv0
  | tapExtest => exact execTapExtest_keeps s inv0
  | tapClamp => exact execTapClamp_keeps s inv0
  | tapHighz => exact execTapHighz_keeps s inv0
  | tapExtestPulse => exact execTapExtestPulse_keeps s inv0
  | tapExtestTrain => exact execTapExtestTrain_keeps s inv0
  | nonceRequest x => exact execNonceRequest_keeps x s inv0
  | debugToken x body sigOk keysOk => exact execDebugToken_keeps x body sigOk keysOk s inv0
  | debugClear x => exact execDebugClear_keeps x s inv0
  | tokenExpiry => exact execTokenExpiry_keeps s inv0
  | observeSelect r k v => exact execObserveSelect_keeps r k v s inv0
  | dataLinkUp p width speed flit => exact execDataLinkUp_keeps p width speed flit s inv0
  | perstDeassertion p => exact execPerstDeassertion_keeps p s inv0
  | configurationWrite p ix w => exact execConfigurationWrite_keeps p ix w s inv0
  | pauseExpiry b prio => exact execPauseExpiry_keeps b prio s inv0
  | slewComplete => exact execSlewComplete_keeps s inv0
  | standbyPowerLoss => exact execStandbyPowerLoss_keeps s inv0
  | vbatLoss => exact execVbatLoss_keeps s inv0

end Sys2Proof.Machine
end

