-- ==== Sys2Proof/Laws/KeepsIdle.lean ====
section
/-! SUPPORT. The invariant under the definitions of Machine/Idle.lean. -/

namespace Sys2Proof.Machine

set_option linter.all false

theorem rtcNs_keeps : ∀ (s : State), Inv s → Inv (rtcNs s) := by
  intros
  unfold rtcNs
  repeat' first
    | with_reducible assumption
    | (extract_lets +onlyGivenNames x; clear_value x)
    | extract_lets +onlyGivenNames x
    | with_reducible apply State.putF_keeps
    | split
    | fail_if_no_progress with_reducible apply inv_mk

theorem countNs_keeps : ∀ (s : State), Inv s → Inv (countNs s) := by
  intros
  unfold countNs
  repeat' first
    | with_reducible assumption
    | intro _
    | (extract_lets +onlyGivenNames x; refine (fun (_ : Inv x) => ?_) ?_; clear_value x; rotate_left; subst x)
    | extract_lets +onlyGivenNames x
    | with_reducible apply pmEvent_keeps
    | split
    | with_reducible apply inv_foldl


theorem idleTick_keeps : ∀ (s : State), Inv s → Inv (idleTick s) := by
  intros
  unfold idleTick
  repeat' first
    | with_reducible assumption
    | (extract_lets +onlyGivenNames x; refine (fun (_ : Inv x) => ?_) ?_; clear_value x; rotate_left; subst x)
    | with_reducible apply rtcNs_keeps
    | with_reducible apply countNs_keeps
    | split
    | fail_if_no_progress with_reducible apply inv_mk

end Sys2Proof.Machine
end

