-- ==== Sys2Proof/Machine/Roped.lean ====
section
/-! DEFINITION. The check pass of a roped core (R198 to R200, R204): the second computation of a µop's result, by unit class, with the
core's shift, and the units the two passes run on. The results an instruction writes are those of the primary pass; Laws/Roped.lean
shows, for the integer, condition, multiply, divide, address, capability and element-wise passes, that the two agree on hardware without a fault: a
mismatch is then never an effect of ordinary data, and comes as one of the commands SLIP and FALL. -/

namespace Sys2Proof.Machine

/-! ### Units -/

/-- The unit of the primary pass among `n` of its kind, where dispatch chose `u`: a slip swaps the rotation (R204), which the model takes
for one bit that moves the primary pass on by one unit (DESIGN CHOICE, notes/assumptions/59.md). -/
def primaryUnit (s : State) (k u n : Nat) : Nat := (u + (getC s k).rot) % n

/-- The unit of the check pass (R199). -/
def checkUnit (u n : Nat) : Nat := (u + 1) % n

/-! ### The 72-bit datapath -/

/-- An operand shifted left by `k`, taken as unsigned or as signed. -/
def liftU (k : Nat) (a : Word) : BitVec 72 := a.setWidth 72 <<< k
def liftS (k : Nat) (a : Word) : BitVec 72 := a.signExtend 72 <<< k

/-- Bits 63+k:k of a result. -/
def lower (k : Nat) (r : BitVec 72) : Word := (r >>> k).setWidth 64

/-- The bits of a word in reverse order. -/
def revW (a : Word) : Word := a.reverse

/-- The check pass of ALU by fn (R104, R199). -/
def aluCheck (k fn : Nat) (a b : Word) : Word :=
  let flag (c : Bool) : Word := lower k ((if c then 1 else 0) <<< k)
  let pick (c : Bool) : Word := lower k (if c then liftU k a else liftU k b)
  match fn with
  | 0 => lower k (liftU k a + liftU k b)
  | 1 => lower k (liftU k a - liftU k b)
  | 2 => lower k (liftU k a &&& liftU k b)
  | 3 => lower k (liftU k a ||| liftU k b)
  | 4 => lower k (liftU k a ^^^ liftU k b)
  | 5 => lower k (liftU k a &&& ~~~liftU k b)
  | 6 => lower k (liftU k a <<< shAmt b)
  | 7 => lower k (liftU k a >>> shAmt b)
  | 8 => lower k ((liftS k a).sshiftRight (shAmt b))
  | 9 => revW (rorW (revW a) b)
  | 10 => revW (rolW (revW a) b)
  | 11 => ctzW (revW a)
  | 12 => clzW (revW a)
  | 13 => popcW (revW a)
  | 14 => bswapW a
  | 15 => flag ((liftS k a).slt (liftS k b))
  | 16 => flag ((liftU k a).ult (liftU k b))
  | 17 => pick ((liftS k a).slt (liftS k b))
  | 18 => pick ((liftS k b).slt (liftS k a))
  | 19 => pick ((liftU k a).ult (liftU k b))
  | _ => pick ((liftU k b).ult (liftU k a))

/-- The primary pass of ALU by fn (R104). -/
def aluPass (fn : Nat) (a b : Word) : Word :=
  match fn with
  | 0 => a + b
  | 1 => a - b
  | 2 => a &&& b
  | 3 => a ||| b
  | 4 => a ^^^ b
  | 5 => a &&& ~~~b
  | 6 => sllW a b
  | 7 => srlW a b
  | 8 => sraW a b
  | 9 => rolW a b
  | 10 => rorW a b
  | 11 => clzW a
  | 12 => ctzW a
  | 13 => popcW a
  | 14 => bswapW a
  | 15 => sltW a b
  | 16 => sltuW a b
  | 17 => minS a b
  | 18 => maxS a b
  | 19 => minU a b
  | _ => maxU a b

/-- The check pass of a core's ALU µop as the core stands. -/
def coreCheck (s : State) (k fn : Nat) (a b : Word) : Word := aluCheck (getC s k).shift fn a b

/-- The check pass of ADDT and SUBT: the shifted sum, and the overflow that two like signs and an unlike one of the lowered result show
(R112, R199). -/
def addtCheck (k : Nat) (a b : Word) : Word × Bool :=
  let r := aluCheck k 0 a b
  (r, a.msb == b.msb && r.msb != a.msb)
def subtCheck (k : Nat) (a b : Word) : Word × Bool :=
  let r := aluCheck k 1 a b
  (r, a.msb != b.msb && r.msb != a.msb)

/-- The condition of SEL, CMOV and the compares of BR, on the operand shifted in the 72-bit datapath (R111, R199). -/
def condCheck (k : Nat) (c : BitVec 3) (v : Word) : Option Bool :=
  let x := liftS k v
  match c.toNat with
  | 0 => some (x == 0)
  | 1 => some (x != 0)
  | 2 => some (x.slt 0)
  | 3 => some (!x.slt 0)
  | 4 => some (BitVec.slt 0 x)
  | 5 => some (!BitVec.slt 0 x)
  | _ => none

/-- The data of SEL and CMOV: both operands shifted, the result lowered, and bits 127:64 and the tag as they are. -/
def selCheck (k : Nat) (c : Bool) (a b : Word) : Word := lower k (if c then liftU k a else liftU k b)

/-- BITF on another unit, its operands unchanged. -/
def bitfCheck (b : Bitf) (old a : Word) : Word := bitfOp b old a

/-! ### Multiply and divide -/

/-- MULT: one operand shifted, the product from bits 63+k:k, and whether the bits above fit its sign (R112, R199). -/
def multCheck (k : Nat) (a b : Word) : Word × Bool :=
  let p := a.toInt * 2 ^ k * b.toInt / 2 ^ k
  (BitVec.ofInt 64 p, decide (p < -9223372036854775808) || decide (9223372036854775807 < p))

/-- MUL by fn: one operand of the low product shifted, the operands of the high ones swapped (R199). -/
def mulCheck (k fn : Nat) (a b : Word) : Word :=
  match fn with
  | 0 => BitVec.ofNat 64 (a.toNat * 2 ^ k * b.toNat / 2 ^ k)
  | 1 => mulHighSS b a
  | 2 => mulHighUU b a
  | _ => highW ((b.toNat : Int) * a.toInt)

/-- The multiply-back of a signed quotient and remainder; the cases at zero and −2^63 are compared with R104's values. -/
def divCheckS (a b q r : Word) : Bool :=
  if b = 0 then q == 0xFFFFFFFFFFFFFFFF && r == a
  else if a.toInt = -9223372036854775808 ∧ b.toInt = -1 then q == a && r == 0
  else
    decide (q.toInt * b.toInt + r.toInt = a.toInt) && decide (r.toInt.natAbs < b.toInt.natAbs) &&
      (r == 0 || decide (r.toInt < 0) == decide (a.toInt < 0))

/-- The same for the unsigned forms. -/
def divCheckU (a b q r : Word) : Bool :=
  if b = 0 then q == 0xFFFFFFFFFFFFFFFF && r == a
  else decide (q.toNat * b.toNat + r.toNat = a.toNat) && decide (r.toNat < b.toNat)

/-! ### Vectors -/

/-- An element-wise operation with element i computed in position N − 1 − i, its operands swapped where it commutes. -/
def mirrored2 (commutes : Bool) (f : Nat → Nat → Nat) (xs ys : List Nat) : List Nat :=
  ((if commutes then ys else xs).reverse.zipWith f (if commutes then xs else ys).reverse).reverse

/-- FMA with its multiply operands swapped. -/
def fmaCheck (f : Nat → Nat → Nat → Nat) (a b c : Nat) : Nat := f b a c

/-- A scalar of N elements' width runs in element N − 1: the last of a vector that holds nothing else. -/
def scalarCheck (n : Nat) (f : Nat → Nat → Nat) (a b : Nat) : Nat :=
  ((List.replicate (n - 1) 0 ++ [a]).zipWith f (List.replicate (n - 1) 0 ++ [b])).getD (n - 1) 0

/-- The butterflies of VMODMA and NTTPASS, element i in position N − 1 − i: each gives the pair that it takes. -/
def butterflyCheck (f : Nat → Nat → Nat → Nat × Nat) (us vs ws : List Nat) : List (Nat × Nat) :=
  ((us.reverse.zip vs.reverse).zipWith (fun p w => f p.1 p.2 w) ws.reverse).reverse

/-- One level of a reduction tree: neighbours combined. -/
def treeLevel (f : Nat → Nat → Nat) : List Nat → List Nat
  | x :: y :: l => f x y :: treeLevel f l
  | l => l

/-- The levels of a reduction tree. -/
def treeReduce (f : Nat → Nat → Nat) : Nat → List Nat → List Nat
  | 0, l => l
  | n + 1, l => treeReduce f n (treeLevel f l)

/-- The mirrored tree: every partial result combines the same values, swapped in position. -/
def mirrorTree (f : Nat → Nat → Nat) (n : Nat) (l : List Nat) : List Nat := (treeReduce (fun x y => f y x) n l.reverse).reverse

/-- A cross-lane move with its index mapping mirrored: lane i of N takes the element that lane N − 1 − i takes from the far end. -/
def permCheck (n : Nat) (idx : Nat → Nat) (xs : List Nat) : List (Option Nat) :=
  ((List.range n).map (fun i => xs.reverse[n - 1 - idx (n - 1 - i)]?)).reverse

/-! ### Capabilities and addresses -/

/-- A bounds comparison a ≤ b run as ~b ≤ ~a. -/
def leCheck (a b : Word) : Bool := decide (~~~b ≤ ~~~a)

/-- The permission clear a AND NOT m, AND, and the cursor sum c + d, on complemented operands. -/
def clearCheck (a m : Word) : Word := ~~~(~~~a ||| m)
def andCheck (a b : Word) : Word := ~~~(~~~a ||| ~~~b)
def cursorCheck (c d : Word) : Word := ~~~(~~~c - d)

/-- A capability's encoding, and the decoding of bounds, on the other capability unit with its operands through the opposite
register-file ports. -/
def encodingCheck {α : Type} (f : Word → Word → α) (portB portA : Word) : α := f portA portB

/-- What the store queue compares of the two passes before it releases a store: address, size, data and tags (R191, R199). -/
def storesAgree (x y : StoreEnt) : Bool := x.pa == y.pa && x.bytes.length == y.bytes.length && x.bytes == y.bytes && x.tag == y.tag

/-- An address generated for the second time, on the other address unit. -/
def addrCheck (k : Nat) (base off : Word) : Word := aluCheck k 0 base off

end Sys2Proof.Machine
end

