-- ==== Sys2Proof/Laws/Roped.lean ====
section
/-! SUPPORT. On hardware without a fault the check pass agrees with the primary pass (R198, R199): one lemma per unit class whose two
passes differ in how they compute, for every shift of R200. A mismatch is therefore never an effect of ordinary data, and comes to the
model only as the commands that report one. -/

namespace Sys2Proof.Machine

/-! ### The shifted datapath -/

theorem lower_get (k : Nat) (r : BitVec 72) (i : Nat) (hi : i < 64) : (lower k r)[i] = r.getLsbD (k + i) := by
  simp [lower]

theorem liftU_get (k : Nat) (h : k ≤ 8) (a : Word) (i : Nat) :
    (liftU k a).getLsbD i = (decide (k ≤ i) && a.getLsbD (i - k)) := by
  by_cases h1 : i < k
  · simp [liftU, h1]
  · by_cases h2 : i - k < 64
    · simp [liftU, h1, Nat.le_of_not_lt h1, show i < 72 by omega]
    · simp [liftU, h1, BitVec.getLsbD_of_ge a (i - k) (by omega)]

theorem liftS_get (k : Nat) (h : k ≤ 8) (a : Word) (i : Nat) (hi : i < 72) :
    (liftS k a).getLsbD i = (decide (k ≤ i) && if i - k < 64 then a.getLsbD (i - k) else a.msb) := by
  by_cases h1 : i < k
  · simp [liftS, h1, Nat.not_le.2 h1]
  · simp only [liftS, BitVec.getLsbD_shiftLeft, BitVec.getLsbD_signExtend]
    simp [hi, h1, Nat.le_of_not_lt h1, show i - k < 72 by omega]

theorem lower_liftU (k : Nat) (h : k ≤ 8) (a : Word) : lower k (liftU k a) = a := by
  ext i hi
  simp [lower_get, liftU_get k h, hi]

theorem liftU_toNat (k : Nat) (h : k ≤ 8) (a : Word) : (liftU k a).toNat = a.toNat * 2 ^ k := by
  have ha := a.isLt
  simp only [liftU, BitVec.toNat_shiftLeft, BitVec.toNat_setWidth, Nat.shiftLeft_eq]
  interval_cases k <;> omega

theorem lower_toNat (k : Nat) (r : BitVec 72) : (lower k r).toNat = r.toNat / 2 ^ k % 2 ^ 64 := by
  simp [lower, BitVec.toNat_setWidth, BitVec.toNat_ushiftRight, Nat.shiftRight_eq_div_pow]

theorem liftS_toInt (k : Nat) (h : k ≤ 8) (a : Word) : (liftS k a).toInt = a.toInt * 2 ^ k := by
  have h1 := BitVec.toInt_lt (x := a)
  have h2 := BitVec.le_toInt (x := a)
  rw [liftS, BitVec.shiftLeft_eq_mul_twoPow, BitVec.toInt_mul, BitVec.toInt_signExtend_of_le (by decide)]
  have h3 : (BitVec.twoPow 72 k).toInt = 2 ^ k := by interval_cases k <;> decide
  rw [h3]
  interval_cases k <;> simp only [Int.bmod] <;> omega

theorem liftS_slt (k : Nat) (h : k ≤ 8) (a b : Word) : (liftS k a).slt (liftS k b) = a.slt b := by
  simp only [BitVec.slt, liftS_toInt k h]
  interval_cases k <;> simp

theorem liftU_ult (k : Nat) (h : k ≤ 8) (a b : Word) : (liftU k a).ult (liftU k b) = a.ult b := by
  simp only [BitVec.ult, liftU_toNat k h]
  interval_cases k <;> simp

theorem lower_flag (k : Nat) (h : k ≤ 8) (c : Bool) : lower k ((if c then 1 else 0) <<< k) = boolW c := by
  interval_cases k <;> cases c <;> decide

/-! ### ALU, class by class -/

theorem check_add (k : Nat) (h : k ≤ 8) (a b : Word) : aluCheck k 0 a b = aluPass 0 a b := by
  apply BitVec.eq_of_toNat_eq
  simp only [aluCheck, aluPass, lower_toNat, BitVec.toNat_add, liftU_toNat k h]
  interval_cases k <;> omega

theorem check_sub (k : Nat) (h : k ≤ 8) (a b : Word) : aluCheck k 1 a b = aluPass 1 a b := by
  have ha := a.isLt
  have hb := b.isLt
  apply BitVec.eq_of_toNat_eq
  simp only [aluCheck, aluPass, lower_toNat, BitVec.toNat_sub, liftU_toNat k h]
  interval_cases k <;> omega

theorem check_logic (k : Nat) (h : k ≤ 8) (a b : Word) :
    aluCheck k 2 a b = aluPass 2 a b ∧ aluCheck k 3 a b = aluPass 3 a b ∧ aluCheck k 4 a b = aluPass 4 a b ∧
    aluCheck k 5 a b = aluPass 5 a b := by
  refine ⟨?_, ?_, ?_, ?_⟩ <;> ext i hi <;>
    simp only [aluCheck, aluPass, lower_get, BitVec.getLsbD_and, BitVec.getLsbD_or, BitVec.getLsbD_xor, BitVec.getLsbD_not,
      liftU_get k h] <;> simp [show k + i < 72 by omega, BitVec.getLsbD_eq_getElem hi]

theorem check_sll (k : Nat) (h : k ≤ 8) (a b : Word) : aluCheck k 6 a b = aluPass 6 a b := by
  have hb : b.toNat % 64 < 64 := Nat.mod_lt _ (by decide)
  ext i hi
  simp only [aluCheck, aluPass, lower_get, sllW, shAmt, BitVec.getLsbD_shiftLeft, BitVec.getElem_shiftLeft, liftU_get k h]
  by_cases h1 : i < b.toNat % 64
  · have h2 : ¬ k ≤ k + i - b.toNat % 64 ∨ k + i < b.toNat % 64 := by omega
    rcases h2 with h2 | h2 <;> simp [h1, h2]
  · have h3 : k + i - b.toNat % 64 - k = i - b.toNat % 64 := by omega
    simp [h1, h3, show k ≤ k + i - b.toNat % 64 by omega, show ¬ k + i < b.toNat % 64 by omega, show k + i < 72 by omega]
    rfl

theorem check_srl (k : Nat) (h : k ≤ 8) (a b : Word) : aluCheck k 7 a b = aluPass 7 a b := by
  ext i hi
  simp [aluCheck, aluPass, lower_get, srlW, shAmt, liftU_get k h, show b.toNat % 64 + (k + i) - k = b.toNat % 64 + i by omega,
    show k ≤ b.toNat % 64 + (k + i) by omega]

theorem check_sra (k : Nat) (h : k ≤ 8) (a b : Word) : aluCheck k 8 a b = aluPass 8 a b := by
  ext i hi
  have hm : (liftS k a).msb = a.msb := by
    rw [BitVec.msb_eq_getLsbD_last, liftS_get k h a _ (by decide)]
    by_cases h8 : k = 8
    · subst h8; simp [BitVec.msb_eq_getLsbD_last]
    · simp [show k ≤ 71 by omega, show ¬ 71 - k < 64 by omega]
  simp only [aluCheck, aluPass, lower_get, sraW, shAmt, BitVec.getLsbD_sshiftRight, BitVec.getElem_sshiftRight, hm]
  by_cases h1 : b.toNat % 64 + (k + i) < 72
  · simp only [h1, liftS_get k h a _ h1, show b.toNat % 64 + (k + i) - k = b.toNat % 64 + i by omega]
    by_cases h2 : b.toNat % 64 + i < 64 <;> simp [h2, show k ≤ b.toNat % 64 + (k + i) by omega] <;> omega
  · simp [h1, show ¬ b.toNat % 64 + i < 64 by omega]; omega

theorem check_rot (k : Nat) (a b : Word) : aluCheck k 9 a b = aluPass 9 a b ∧ aluCheck k 10 a b = aluPass 10 a b := by
  have hb : b.toNat % 64 < 64 := Nat.mod_lt _ (by decide)
  constructor <;> ext i hi <;>
    simp only [aluCheck, aluPass, revW, rorW, rolW, shAmt, BitVec.getElem_reverse, BitVec.getMsbD, BitVec.getLsbD_rotateRight,
      BitVec.getLsbD_rotateLeft, BitVec.getElem_rotateLeft, BitVec.getElem_rotateRight, BitVec.getLsbD_reverse, Nat.mod_mod]
  · by_cases h1 : i < b.toNat % 64
    · simp [h1, hi, show 63 - i < 64 by omega, show ¬ 63 - i < 64 - b.toNat % 64 by omega, show 63 - i - (64 - b.toNat % 64) < 64 by omega,
        show 63 - (63 - i - (64 - b.toNat % 64)) = 64 - b.toNat % 64 + i by omega, show 64 - b.toNat % 64 + i < 64 by omega]
    · simp [h1, hi, show 63 - i < 64 - b.toNat % 64 by omega, show b.toNat % 64 + (63 - i) < 64 by omega,
        show 63 - (b.toNat % 64 + (63 - i)) = i - b.toNat % 64 by omega, show i - b.toNat % 64 < 64 by omega]
  · by_cases h1 : i < 64 - b.toNat % 64
    · simp [h1, hi, show 63 - i < 64 by omega, show ¬ 63 - i < b.toNat % 64 by omega, show 63 - i - b.toNat % 64 < 64 by omega,
        show 63 - (63 - i - b.toNat % 64) = b.toNat % 64 + i by omega, show b.toNat % 64 + i < 64 by omega]
    · simp [h1, hi, show 63 - i < b.toNat % 64 by omega, show 64 - b.toNat % 64 + (63 - i) < 64 by omega,
        show 63 - (64 - b.toNat % 64 + (63 - i)) = i - (64 - b.toNat % 64) by omega, show i - (64 - b.toNat % 64) < 64 by omega]

theorem find_congr {α : Type} (p q : α → Bool) : (l : List α) → (∀ x ∈ l, p x = q x) → l.find? p = l.find? q
  | [], _ => rfl
  | x :: l, h => by
    simp only [List.find?_cons, h x (by simp), find_congr p q l (fun y hy => h y (by simp [hy]))]

theorem check_count (k : Nat) (a b : Word) :
    aluCheck k 11 a b = aluPass 11 a b ∧ aluCheck k 12 a b = aluPass 12 a b ∧ aluCheck k 13 a b = aluPass 13 a b := by
  refine ⟨?_, ?_, ?_⟩
  · simp only [aluCheck, aluPass, ctzW, clzW, revW]
    rw [find_congr _ (fun i => a.getLsbD (63 - i))]
    intro x hx
    simp only [List.mem_range] at hx
    simp only [BitVec.getLsbD_reverse, BitVec.getMsbD]
    simp [hx]
  · simp only [aluCheck, aluPass, ctzW, clzW, revW]
    rw [find_congr _ (fun i => a.getLsbD i)]
    intro x hx
    simp only [List.mem_range] at hx
    simp only [BitVec.getLsbD_reverse, BitVec.getMsbD]
    simp [show 63 - (63 - x) = x by omega, show 63 - x < 64 by omega]
  · simp only [aluCheck, aluPass, popcW, revW]
    have hr : (List.range 64) = ((List.range 64).map (fun i => 63 - i)).reverse := by decide
    have hc : (List.range 64).countP (fun i => a.reverse.getLsbD i) = ((List.range 64).map (fun i => 63 - i)).countP (fun i => a.getLsbD i) := by
      rw [List.countP_map]
      apply List.countP_congr
      intro x hx
      simp only [List.mem_range] at hx
      simp only [BitVec.getLsbD_reverse, BitVec.getMsbD]
      simp [hx]
    rw [hc, ← List.countP_reverse, ← hr]

/-- Of two words, the larger is one word whichever of them is asked first. -/
theorem pick_swap (lt : Word → Word → Bool) (h : ∀ a b, lt a b = true → lt b a = false)
    (ht : ∀ a b, lt a b = false → lt b a = false → a = b) (a b : Word) :
    (if lt b a then a else b) = (if lt a b then b else a) := by
  cases h1 : lt a b <;> cases h2 : lt b a <;> simp
  · exact (ht a b h1 h2).symm
  · have := h a b h1
    simp [h2] at this

theorem check_compare (k : Nat) (h : k ≤ 8) (a b : Word) (fn : Nat) (hf : 15 ≤ fn ∧ fn ≤ 20) : aluCheck k fn a b = aluPass fn a b := by
  obtain ⟨h1, h2⟩ := hf
  have hs := pick_swap BitVec.slt (fun a b => by simp only [BitVec.slt, decide_eq_true_eq, decide_eq_false_iff_not]; omega)
    (fun a b => by
      simp only [BitVec.slt, decide_eq_false_iff_not]
      intro h1 h2; exact BitVec.eq_of_toInt_eq (by omega)) a b
  have hu := pick_swap BitVec.ult (fun a b => by simp only [BitVec.ult, decide_eq_true_eq, decide_eq_false_iff_not]; omega)
    (fun a b => by
      simp only [BitVec.ult, decide_eq_false_iff_not]
      intro h1 h2; exact BitVec.eq_of_toNat_eq (by omega)) a b
  interval_cases fn <;>
    simp only [aluCheck, aluPass, liftS_slt k h, liftU_ult k h, lower_flag k h, lower_liftU k h, apply_ite (lower k), sltW, sltuW, minS, maxS,
      minU, maxU, hs, hu]

/-- Every ALU result of the check pass is that of the primary pass (R198, R199). -/
theorem aluCheck_eq (k : Nat) (h : k ≤ 8) (fn : Nat) (hf : fn ≤ 20) (a b : Word) : aluCheck k fn a b = aluPass fn a b := by
  rcases Nat.lt_or_ge fn 15 with h1 | h1
  · interval_cases fn
    · exact check_add k h a b
    · exact check_sub k h a b
    · exact (check_logic k h a b).1
    · exact (check_logic k h a b).2.1
    · exact (check_logic k h a b).2.2.1
    · exact (check_logic k h a b).2.2.2
    · exact check_sll k h a b
    · exact check_srl k h a b
    · exact check_sra k h a b
    · exact (check_rot k a b).1
    · exact (check_rot k a b).2
    · exact (check_count k a b).1
    · exact (check_count k a b).2.1
    · exact (check_count k a b).2.2
    · rfl
  · exact check_compare k h a b fn ⟨h1, hf⟩

/-- The same of an address (R199). -/
theorem addrCheck_eq (k : Nat) (h : k ≤ 8) (base off : Word) : addrCheck k base off = base + off := check_add k h base off

theorem selCheck_eq (k : Nat) (h : k ≤ 8) (c : Bool) (a b : Word) : selCheck k c a b = if c then a else b := by
  cases c <;> simp [selCheck, lower_liftU k h]

theorem condCheck_eq (k : Nat) (h : k ≤ 8) (c : BitVec 3) (v : Word) : condCheck k c v = selCond c v := by
  have h0 : (liftS k v == 0) = (v == 0) := by
    rw [Bool.eq_iff_iff, beq_iff_eq, beq_iff_eq, ← BitVec.toInt_inj, ← BitVec.toInt_inj, liftS_toInt k h]
    interval_cases k <;> simp
  have h1 : (liftS k v).slt 0 = decide (v.toInt < 0) := by
    rw [BitVec.slt, liftS_toInt k h]
    interval_cases k <;> simp <;> omega
  have h2 : BitVec.slt 0 (liftS k v) = decide (0 < v.toInt) := by
    rw [BitVec.slt, liftS_toInt k h]
    interval_cases k <;> simp
  have e1 : (!decide (v.toInt < 0)) = decide (0 ≤ v.toInt) := by rw [← decide_not]; congr 1; simp
  have e2 : (!decide (0 < v.toInt)) = decide (v.toInt ≤ 0) := by rw [← decide_not]; congr 1; simp
  simp only [condCheck, selCond, h0, h1, h2, e1, e2, bne] <;> rfl

/-! ### Multiply, capability -/

theorem multCheck_eq (k : Nat) (a b : Word) :
    multCheck k a b = (BitVec.ofInt 64 (a.toInt * b.toInt),
      decide (a.toInt * b.toInt < -9223372036854775808) || decide (9223372036854775807 < a.toInt * b.toInt)) := by
  have h : a.toInt * 2 ^ k * b.toInt / 2 ^ k = a.toInt * b.toInt := by
    rw [show a.toInt * 2 ^ k * b.toInt = a.toInt * b.toInt * 2 ^ k by ring]
    exact Int.mul_ediv_cancel _ (by positivity)
  simp only [multCheck, h]

theorem mulCheck_low (k : Nat) (a b : Word) : mulCheck k 0 a b = BitVec.ofNat 64 (a.toNat * b.toNat) := by
  have h : a.toNat * 2 ^ k * b.toNat / 2 ^ k = a.toNat * b.toNat := by
    rw [show a.toNat * 2 ^ k * b.toNat = a.toNat * b.toNat * 2 ^ k by ring]
    exact Nat.mul_div_cancel _ (by positivity)
  simp [mulCheck, h]

theorem mulCheck_high (k : Nat) (a b : Word) :
    mulCheck k 1 a b = mulHighSS a b ∧ mulCheck k 2 a b = mulHighUU a b ∧ mulCheck k 3 a b = mulHighSU a b := by
  simp [mulCheck, mulHighSS, mulHighUU, mulHighSU, Int.mul_comm]

theorem divCheckU_holds (a b : Word) : divCheckU a b (divU a b) (remU a b) = true := by
  have ha := a.isLt
  by_cases hb : b = 0
  · simp [divCheckU, divU, remU, hb]
  · have h0 : 0 < b.toNat := Nat.pos_of_ne_zero (fun h => hb (BitVec.eq_of_toNat_eq (by simpa using h)))
    have h1 : a.toNat / b.toNat ≤ a.toNat := Nat.div_le_self _ _
    have h2 := Nat.mod_lt a.toNat h0
    have h3 := Nat.mod_le a.toNat b.toNat
    simp only [divCheckU, divU, remU, hb, if_false, BitVec.toNat_ofNat, Nat.mod_eq_of_lt (Nat.lt_of_le_of_lt h1 ha),
      Nat.mod_eq_of_lt (Nat.lt_of_le_of_lt h3 ha)]
    simp [h2, Nat.mul_comm (a.toNat / b.toNat), Nat.div_add_mod]

theorem divCheckS_holds (a b : Word) : divCheckS a b (divS a b) (remS a b) = true := by
  have ha1 := BitVec.toInt_lt (x := a)
  have ha2 := BitVec.le_toInt (x := a)
  have hb1 := BitVec.toInt_lt (x := b)
  have hb2 := BitVec.le_toInt (x := b)
  by_cases hb : b = 0
  · simp [divCheckS, divS, remS, hb]
  · have h0 : b.toInt ≠ 0 := fun h => hb (BitVec.eq_of_toInt_eq (by simpa using h))
    by_cases hc : a.toInt = -9223372036854775808 ∧ b.toInt = -1
    · have e1 : a = 0x8000000000000000 := BitVec.eq_of_toInt_eq (by rw [hc.1]; decide)
      have e2 : b = 0xFFFFFFFFFFFFFFFF := BitVec.eq_of_toInt_eq (by rw [hc.2]; decide)
      subst e1 e2; decide
    · have hm := Int.mul_tdiv_add_tmod a.toInt b.toInt
      have hr : (Int.tmod a.toInt b.toInt).natAbs < b.toInt.natAbs := by
        rw [Int.natAbs_tmod]; exact Nat.mod_lt _ (by omega)
      have hr2 : (Int.tmod a.toInt b.toInt).natAbs ≤ a.toInt.natAbs := by
        rw [Int.natAbs_tmod]; exact Nat.mod_le _ _
      have hq : (Int.tdiv a.toInt b.toInt).natAbs ≤ a.toInt.natAbs := by
        rw [Int.natAbs_tdiv]; exact Nat.div_le_self _ _
      have hq2 : Int.tdiv a.toInt b.toInt ≠ 9223372036854775808 := by
        intro h
        have h1 : (Int.tdiv a.toInt b.toInt).natAbs = a.toInt.natAbs / b.toInt.natAbs := Int.natAbs_tdiv _ _
        rcases Nat.lt_or_ge b.toInt.natAbs 2 with h2 | h2
        · have h3 : b.toInt = 1 ∨ b.toInt = -1 := by omega
          rcases h3 with h3 | h3
          · rw [h3, Int.tdiv_one] at h; omega
          · rw [h, h3] at hm; rw [h3] at hr; omega
        · have h4 : a.toInt.natAbs / b.toInt.natAbs ≤ a.toInt.natAbs / 2 := Nat.div_le_div_left h2 (by decide)
          omega
      have e1 : (BitVec.ofInt 64 (Int.tdiv a.toInt b.toInt)).toInt = Int.tdiv a.toInt b.toInt := by
        rw [BitVec.toInt_ofInt]; exact Int.bmod_eq_of_le (by omega) (by omega)
      have e2 : (BitVec.ofInt 64 (Int.tmod a.toInt b.toInt)).toInt = Int.tmod a.toInt b.toInt := by
        rw [BitVec.toInt_ofInt]; exact Int.bmod_eq_of_le (by omega) (by omega)
      have hs : Int.tmod a.toInt b.toInt = 0 ∨ (Int.tmod a.toInt b.toInt < 0 ↔ a.toInt < 0) := by
        rcases lt_or_ge a.toInt 0 with h | h
        · have h5 : 0 ≤ Int.tmod (-a.toInt) b.toInt := Int.tmod_nonneg _ (by omega)
          rw [Int.neg_tmod] at h5; omega
        · have h5 : 0 ≤ Int.tmod a.toInt b.toInt := Int.tmod_nonneg _ h
          omega
      have h0' : (BitVec.ofInt 64 (Int.tmod a.toInt b.toInt) = 0) ↔ Int.tmod a.toInt b.toInt = 0 :=
        ⟨fun h => by rw [← e2, h]; decide, fun h => by rw [h]; decide⟩
      simp only [divCheckS, divS, remS, hb, if_false, hc, e1, e2]
      have hs' : (BitVec.ofInt 64 (Int.tmod a.toInt b.toInt) == 0 ||
          decide (Int.tmod a.toInt b.toInt < 0) == decide (a.toInt < 0)) = true := by
        rcases hs with h | h
        · simp [h0'.2 h]
        · simp [h]
      rw [hs', Int.mul_comm (Int.tdiv a.toInt b.toInt)]
      simp only [hm, hr, decide_true, Bool.and_self]

theorem leCheck_eq (a b : Word) : leCheck a b = decide (a ≤ b) := by
  simp only [leCheck, BitVec.le_def, BitVec.toNat_not]
  have := a.isLt
  have := b.isLt
  congr 1
  apply propext
  omega

theorem clearCheck_eq (a m : Word) : clearCheck a m = a &&& ~~~m := by
  ext i hi; simp [clearCheck]

theorem andCheck_eq (a b : Word) : andCheck a b = a &&& b := by
  ext i hi; simp [andCheck]

theorem cursorCheck_eq (c d : Word) : cursorCheck c d = c + d := by
  have := c.isLt
  have := d.isLt
  apply BitVec.eq_of_toNat_eq
  simp only [cursorCheck, BitVec.toNat_not, BitVec.toNat_sub, BitVec.toNat_add]
  omega

/-- Elements computed in mirrored position are the elements (R199). -/
theorem mirrored2_eq (f : Nat → Nat → Nat) (xs ys : List Nat) (h : xs.length = ys.length) :
    mirrored2 false f xs ys = xs.zipWith f ys := by
  simp [mirrored2, List.reverse_zipWith, h]

end Sys2Proof.Machine
end

