-- ==== Sys2Proof/Tests/Slice0.lean ====
section
/-! SUPPORT. Tests of the model: the checks of well-formedness, values the specification prints, single steps on small states, and for each
statement of Certificates/Slice0/Obligations.lean states and operands that meet its hypotheses together. -/

namespace Sys2Proof.Tests

open Sys2Proof.Machine

-- one kernel evaluation at a time: each of them holds much memory
set_option Elab.async false

/-! ### A small machine -/

/-- A tagged capability of the whole space without CTRL and WORLD, cursor `c`. -/
def cap (c : Word) : GReg := ⟨capPack 0xAFF 0 47 0 0x1FFFF c, true⟩

/-- The same with CTRL. -/
def capCtrl (c : Word) : GReg := ⟨capPack 0xBFF 0 47 0 0x1FFFF c, true⟩

/-- The units put in service. -/
def serve (us : List Nat) (s : State) : State := us.foldl (fun s u => s.putF (rUnitState u) UnitState.state 4) s

/-- Core 0, its tile, slice, sheaf, an engine stop, the system stop and a memory channel in service, 16 GiB of memory, thread 0 running at
0x1000 and base camp up. -/
def base : State :=
  let s := serve [coreUid 0, tileUid 0, sliceUid 0, tileFabUid 0, sheafUid 0, esUid 0, ssUid 0, ssUid 1, mcUid 0] State.reset
  let s := (s.putR (rBcDramRgn 0) (setFld (setFld 0 BcDramRgn.valid 1) BcDramRgn.size 16)).putF rBcMemInit BcMemInit.limit_gib 16
  let s := s.putR (rBcVcoreMap 0) (setFld (setFld (setFld 0 BcVcoreMap.valid 1) BcVcoreMap.bound 1) BcVcoreMap.phys_unit (coreUid 0))
  let s := s.putF (rMcProt (mcUid 0)) McProt.mode 0
  let s := { s with mgmt := { s.mgmt with bcA := .active } }
  updT s 0 (fun x => { x with run := .running, pcc := cap 0x1000 })

/-- `base` with general registers of thread 0 set. -/
def withRegs (rs : List (RegNo × GReg)) : State := updT base 0 (fun x => rs.foldl (fun x e => x.setGreg e.1 e.2) x)

def int (n : Word) : GReg := GReg.ofInt n

/-- A value with its tag in memory. -/
def putGran (s : State) (pa : Nat) (g : GReg) : State := setTag (writeBytes s pa (toBytes 16 g.data.toNat)) pa g.tag

def holds {α : Type} (o : Option α) (p : α → Bool) : Bool :=
  match o with
  | some a => p a
  | none => false

def goes {ε α : Type} (o : Except ε α) (p : α → Bool) : Bool :=
  match o with
  | .ok a => p a
  | .error _ => false

/-- What `exec` leads to. -/
def after (c : Instr) (s : State) (p : State → Bool) : Bool :=
  match exec c s with
  | .next z => p z
  | _ => false

/-- A capability in x8, 5 in x9, 7 in x10. -/
def ra : State := withRegs [(8, cap 0x2000), (9, int 5), (10, int 7)]

/-! ### The statements about instructions -/

/-- A command waits; and the queue is empty. -/
theorem witness_step : ({ base with pending := [.fenceFull 0, .isync 0] }).pending = .fenceFull 0 :: [.isync 0] ∧ base.pending = [] := by
  decide +kernel

/-- StepKeepsTheInvariant: a state with memory, tags and registers listed. -/
theorem witness_invariant : Inv (putGran base 0x3000 (cap 5)) :=
  ⟨by decide +kernel, by decide +kernel, by decide +kernel, by decide +kernel⟩

/-- NoDerivationWidens: each kind of derivation of a tagged, well-formed capability, and a move of an untagged one. -/
theorem witness_derivation :
    (cap 0x2000).tag = true ∧ capWf (cap 0x2000) = true ∧
    goes (moveOp false (cap 0x2000) 0x2008) (fun g => g.tag) = true ∧ goes (boundOp false (cap 0x2000) 4096 true false) (fun g => g.tag) = true ∧
    (setPerms (cap 0x2000) (capPerms (cap 0x2000) &&& 3)).tag = true ∧ goes (sealOp false (cap 0x2000) (cap 9)) (fun g => g.tag) = true ∧
    goes (openOp false (setOtype (cap 0x2000) 9) (cap 9)) (fun g => g.tag) = true ∧
    goes (moveOp false { cap 0x2000 with tag := false } 0) (fun g => !g.tag) = true := by decide +kernel

/-- DivisionAndWrapLaws: a divisor other than zero, zero, and an address that wraps. -/
theorem witness_wrap : (7 : Word) ≠ 0 ∧ wrapAddr 0x1000 0x1100 0x10F8 0x10 = some 0x1008 ∧ wrapAddr 0x1000 0x1100 0x1000 0x8 = some 0x1008 := by
  decide +kernel

/-- The words of every statement whose only hypothesis is the fetch: the register forms, the immediate forms, the vector forms. -/
theorem witness_fetch_register : (fetched ra 0 [wREG 0x02 11 9 10 0]).isSome = true := by decide +kernel
theorem witness_fetch_select : (fetched ra 0 [wSEL 0x10 11 9 10 12 0]).isSome = true := by decide +kernel
theorem witness_fetch_vector :
    (fetched ra 0 [vecWord 0x60 1 2 3 0]).isSome = true ∧ (modLanes [1] [2] [3] [5]).isSome = true ∧
    (fetched ra 0 [wSEL 0x6F 1 2 3 4 ((Config.vecFn 0x6F 0).setWidth 5)]).isSome = true := by decide +kernel
theorem witness_writeback_into_base :
    (fetched ra 0 [wMEM 0x28 8 8 1 0]).isSome = true ∧ (fetched ra 0 [wMEM 0x2F 8 8 6 0xFFF]).isSome = true ∧ (getT ra 0).rootReq = [] := by
  decide +kernel

/-- IntegerFrame: ADD retires; no root write waits. -/
theorem witness_integer_frame :
    holds (fetched ra 0 [wREG 0x02 11 9 10 0]) (fun u => (getT u 0).rootReq == []) = true ∧
    after (.add 0 11 9 10) ra (fun z => (getT z 0).int 11 == 12) = true := by decide +kernel

/-- ImmediateCompletes: a plain immediate, one with two LIMM words, and a shift. -/
theorem witness_immediate :
    (fetched ra 0 (wGroup [] (wIMM 0x03 11 9 0x7FFF))).isSome = true ∧ immOf [] 0x7FFF = some 0xFFFFFFFFFFFFFFFF ∧
    (fetched ra 0 (wGroup [0xFFFFFF, 0x1FFFFFF] (wIMM 0x03 11 9 5))).isSome = true ∧ (immOf [0xFFFFFF, 0x1FFFFFF] 5).isSome = true ∧
    (fetched ra 0 [wIMM 0x07 11 9 ((4 : BitVec 3) ++ (0 : BitVec 6) ++ (63 : BitVec 6))]).isSome = true := by decide +kernel

/-- BITF: which immediates name a form is open (Config.bitfDecode), so the decoding is the premise and the fetch is shown. -/
theorem witness_bitf : (fetched ra 0 [wIMM 0x12 11 9 0]).isSome = true := by decide +kernel

/-- MultiplyDivideCompletes: precise arithmetic and not, an overflow that nothing enables and one that is enabled; a long operation under
way. -/
def withTctrl (w : Word) : State := updT ra 0 (fun x => { x with tctrl := w })
theorem witness_arithmetic :
    let precise := setFld 0 Tctrl.precise_arith 1
    let enabled := setFld 0 Tctrl.ov_en 1
    fldB (getT (withTctrl precise) 0).tctrl Tctrl.precise_arith = true ∧ fldB (getT (withTctrl 0) 0).tctrl Tctrl.precise_arith = false ∧
    condFaults (getT (withTctrl precise) 0).tctrl [.intOv] = [] ∧ condFaults (getT (withTctrl enabled) 0).tctrl [.intOv] ≠ [] ∧
    (fetched (withTctrl enabled) 0 [wREG 0x0C 11 9 10 0]).isSome = true := by decide +kernel
theorem witness_long_operation :
    coreRuns ra 0 = true ∧
    after (.div 0 11 9 10) ra (fun z => (getT z 0).longOps[0]?.isSome) = true := by decide +kernel

/-- CapabilityCompletes: operands that raise no cause. -/
theorem witness_capability :
    goes (withRb false (cap 0x2000) (int 0x2008) false (moveOp false (cap 0x2000) 0x2008)) (fun g => g.tag) = true ∧
    goes (withRb false (cap 0x2000) (int 64) true (boundOp false (cap 0x2000) 64 false false)) (fun g => g.tag) = true ∧
    goes (withRb false (cap 0x2000) (int 64) true (boundOp false (cap 0x2000) 64 true false)) (fun g => g.tag) = true ∧
    goes (sealOp false (cap 0x2000) (cap 4092)) (fun g => g.tag) = true ∧
    goes (openOp false (setOtype (cap 0x2000) 1) (cap 1)) (fun g => g.tag) = true ∧
    goes (boundOp false (cap 0x2000) 0 false false) (fun g => g.tag) = true := by decide +kernel

/-- BranchCompletes: a target in the bounds of PCC, at both signs; and JR's target. -/
theorem witness_branch :
    (fetched ra 0 [wBR 0x18 9 9 4]).isSome = true ∧ targetCause (getT ra 0).pcc 0x1010 = none ∧ targetCause (getT ra 0).pcc 0x0FFC = none ∧
    ((getT ra 0).int 9 == (getT ra 0).int 9) = true ∧ ((getT ra 0).int 9 == (getT ra 0).int 10) = false ∧
    (fetched ra 0 [wJMP 0x1E 4]).isSome = true ∧ (fetched ra 0 [wREG 0x1F 0 8 0 0]).isSome = true ∧
    pccCause false (cap 0x2000) = none ∧ targetCause (cap 0x2000) (cap 0x2000).int = none := by decide +kernel

/-- CALL and CALLR with room for the window, CALLR through a gate. -/
theorem witness_call :
    holds (quiet ra 0) (fun q => holds (fetched q 0 [wJMP 0x20 4]) (fun u => goes (waitFree u 0 2) (fun v =>
      (getT v 0).hostWait.isNone && (targetCause (getT u 0).pcc 0x1010).isNone))) = true ∧
    holds (quiet ra 0) (fun q => holds (fetched q 0 [wREG 0x21 0 8 0 0]) (fun u =>
      let y := useRegs u 0 [8]
      goes (waitFree y 0 2) (fun v => (getT v 0).hostWait.isNone && (callCause (trusted y 0) ((getT y 0).greg 8)).isNone &&
        (targetCause ((getT y 0).greg 8) ((getT y 0).greg 8).int).isNone))) = true ∧
    callCause false (setOtype (cap 0x2000) 4095) = none := by decide +kernel

/-- RET with a caller's frame resident. -/
def calledState : State := updT (withRegs [(e7, cap 0x3000)]) 0 (fun x => { x with wstate := setFld x.wstate Wstate.res 3 })
theorem witness_return :
    holds (quiet calledState 0) (fun q => holds (fetched q 0 [wREG 0x22 0 0 0 0]) (fun u =>
      let g := (getT u 0).greg e7
      (retCause (trusted u 0) g).isNone && (targetCause g g.int).isNone &&
        goes (fillForReturn u 0) (fun r => (getT r 0).hostWait.isNone))) = true := by decide +kernel

/-- TRAP through entry 1 of a gate table. -/
def gateState : State :=
  let s := updT base 0 (fun x => { x with gatetab := ⟨capPack 0xAFF 0 0 0x4000 0x8000 0x4000, true⟩ })
  let s := putGran s 0x4040 (setOtype (cap 0x5000) 4095)
  putGran s 0x4060 ⟨1, false⟩
theorem witness_trap :
    holds (quiet gateState 0) (fun q => holds (fetched q 0 (wGroup [] (wIMM 0x23 0 0 1))) (fun u =>
      let gt := (getT u 0).gatetab
      gatetabOk gt 1 && !(gt.tag && hasPerm gt pWORLD && !trusted u 0) &&
        goes (loadLine u 0 gt (BitVec.ofInt 64 (capBase gt + 64))) (fun r =>
          holds r.1 (fun d => gateOk d && !(d.getD 1 GReg.zero).tag &&
            (targetCause (d.getD 0 GReg.zero) (d.getD 0 GReg.zero).int).isNone &&
            goes (waitFree r.2 0 2) (fun w => (getT w 0).hostWait.isNone))))) = true := by decide +kernel

/-- FRET from a frame in memory. -/
def frameState : State :=
  let s := updT base 0 (fun x => { x with
    fstack := cap 0x4000, wstate := setFld x.wstate Wstate.res 3 })
  let s := putGran s 0x4000 (cap 0x1004)
  putGran s 0x4010 (int (setFld 0 ⟨63, 56⟩ 1))
theorem witness_fret :
    holds (quiet frameState 0) (fun q => holds (fetched q 0 [(BitVec.ofNat 7 0x24 ++ (0 : BitVec 25) : BitVec 32)]) (fun u =>
      let fs := (getT u 0).fstack
      fstackOk fs fs.int && goes (loadGranules u 0 fs fs.int 0 32) (fun r => holds r.1 (fun g =>
        let pc := g.getD 0 GReg.zero
        infoOk (g.getD 1 GReg.zero).int && pc.tag && !sealed pc && hasPerm pc pEXEC && (targetCause pc pc.int).isNone &&
          goes (fillForReturn r.2.2 0) (fun w => (getT w 0).hostWait.isNone))))) = true := by decide +kernel

/-- The spill engine with 14 windows resident, and a fill with one. -/
def windowState (n : Nat) : State :=
  updT base 0 (fun x => { x with wstack := cap 0x6000, wstate := setFld (setFld x.wstate Wstate.res n) Wstate.seg_frames 1 })
theorem witness_spill :
    coreRuns (windowState 14) 0 = true ∧ 13 < (getT (windowState 14) 0).res ∧
    fldB (getT (windowState 14) 0).wstate Wstate.spill_blocked = false ∧ goes (spillOne (windowState 14) 0) (fun _ => true) = true ∧
    (getT (windowState 1) 0).res = 1 ∧ goes (fillOne (windowState 1) 0) (fun r => r.1) = true := by decide +kernel

/-- A precise fault to be entered, and an interrupt, with the fault stack and handler in place. -/
def faultState : State :=
  updT base 0 (fun x => { x with
    fstack := cap 0x8000, fgate := cap 0x9000
    fault := some ⟨0x10, 0, 0x1000, some 0x2000, cap 0x2000, [0], none⟩ })
theorem witness_fault_entry :
    atBoundary faultState 0 = true ∧ (getT faultState 0).fault.isSome = true ∧ (settleAll (getT faultState 0)).excs = [] := by
  decide +kernel
theorem witness_fault_words :
    ready base 0 = true ∧ wordsIllegal [0xFFFFFFFF] = true ∧ (settleAll (getT base 0)).excs = [] ∧
    goes (fetchCheck base 0 1) (fun _ => true) = true := by decide +kernel

/-- An arithmetic exception two instructions old. -/
def excState : State := updT base 0 (fun x => { x with excs := [⟨0x38, 0x0FF8, true, 2⟩] })
theorem witness_imprecise :
    atBoundary excState 0 = true ∧ (getT excState 0).fault = none ∧ (getT (updT excState 0 settleAll) 0).excs = [⟨0x38, 0x0FF8, true, 2⟩] ∧
    (getT excState 0).excs.any (fun e => decide (2 ≤ e.age)) = true := by decide +kernel

/-- Vectors 0 and 63 deliverable at run priority 0. -/
def irqState (v : Nat) : State :=
  ((base.putF (rBcIrqCtrl 0) BcIrqCtrl.ie 1).putR (rBcIrqEn 0) 0xFFFFFFFFFFFFFFFF).putR (rBcIrqPend 0) (1 <<< v)
theorem witness_interrupt :
    nextVector (irqState 63) 0 = some 63 ∧ nextVector (irqState 0) 0 = some 0 ∧ coreRuns (irqState 0) 0 = true ∧
    (getT (irqState 0) 0).run = .running ∧ (getT (irqState 0) 0).hostWait = none ∧ afterFault (getT (irqState 0) 0) = false ∧
    (settleAll (getT (irqState 0) 0)).excs = [] := by decide +kernel

/-- WAIT: a deadline in the past, an interrupt deliverable, and neither. -/
theorem witness_wait :
    (fetchedIf (readyWait (irqState 0) 0) (irqState 0) 0 [wREG 0x25 0 8 0 0]).isSome = true ∧ (nextVector (irqState 0) 0).isSome = true ∧
    (fetchedIf (readyWait base 0) base 0 [wREG 0x25 0 8 0 0]).isSome = true ∧ nextVector base 0 = none := by decide +kernel
theorem witness_wait_deadline :
    (let s := { updT base 0 (fun x => { x with run := .waiting, deadline := some 7 }) with time := 7 }
     (getT s 0).run = .waiting ∧ (getT s 0).deadline = some 7 ∧ 7 ≤ s.time) := by decide +kernel

/-- Thread registers: the first and last number, a WRTR, and the authority over FSTACK, FGATE and GATETAB. -/
theorem witness_thread_register :
    (threadReg base 0 0).isSome = true ∧ (threadReg base 0 8).isSome = true ∧ (quiet base 0).isSome = true ∧
    holds (quiet ra 0) (fun q => (fetched q 0 [wREG 0x5A 0 8 9 2]).isSome) = true ∧
    authorityCause false (capCtrl 0) (tauthAddr 0 2) = none ∧ authorityCause false (capCtrl 0) (tauthAddr 0 4) = none := by decide +kernel
theorem witness_wstack :
    holds (quiet ra 0) (fun q => holds (fetched q 0 [wREG 0x5A 0 8 0 1]) (fun u =>
      let v := useRegs u 0 [8]
      let g := (getT v 0).greg 8
      !(g.tag && hasPerm g pWORLD && !trusted v 0) && (wstackCause g).isNone &&
        goes (replaceWstack v 0 g) (fun z => (getT z 0).hostWait.isNone))) = true := by decide +kernel

/-- SystemCompletes: the fences with a store queued, PRF, a TLBI with its authority and a SYNC with nothing outstanding. -/
theorem witness_system :
    holds (fetched ra 0 [wREG 0x46 0 0 0 0]) (fun u => (getT (drainAll u 0) 0).hostWait.isNone) = true ∧
    holds (quiet ra 0) (fun q => (fetched q 0 [wREG 0x4A 0 0 0 0]).isSome) = true ∧
    holds (fetched ra 0 [wMEM 0x4C 0 8 0 0]) (fun u => (getT (prefetchLine u 0 0 8 0) 0).hostWait.isNone) = true := by decide +kernel
theorem witness_tlbi :
    (let s := withRegs [(8, capCtrl 0)]
     holds (fetched s 0 [wREG 0x5D 8 9 10 6]) (fun u =>
       let v := useRegs u 0 [8, 9, 10]
       let d := drainAll v 0
       (authorityCause (trusted v 0) ((getT v 0).greg 8) (rBcXlatRoot2 0)).isNone &&
         (authorityCause (trusted v 0) ((getT v 0).greg 8) (rBcXlatRoot1 0)).isNone &&
         (getT (tlbiAll d 0 false 6 (xctx d 0).vmid 0 0) 0).hostWait.isNone && syncClear s 0 true &&
         (getT (syncDrain d 0 true) 0).hostWait.isNone) = true) := by decide +kernel

/-- LoadCompletes and StoreReleaseFrame: a load in mode 0, and one with writeback. -/
def loadMeets (am : BitVec 3) (k : LdKind) (rd : RegNo) : Bool :=
  holds (fetched ra 0 [wMEM 0x2E rd 8 am 8]) (fun u =>
    let y := useRegs (useData u 0 (k == .vec) rd) 0 [8]
    let v := (getT y 0).greg 8
    holds (effAddr am.toNat (boundsOf v).1 (boundsOf v).2 v.int 8) (fun e =>
      !(amWrites am.toNat && k != .vec && rd == 8) && (useAt (trusted y 0) v [pLOAD] (k != .vec) (some e.1) k.size).isNone &&
        goes (loadBytes y 0 v e.1 k.size (k == .cap)) (fun r => r.1.isSome && (getT r.2 0).hostWait.isNone)))
theorem witness_load :
    loadMeets 0 (.zext 8) 11 = true ∧ loadMeets 1 (.sext 1) 11 = true ∧ loadMeets 6 .vec 8 = true := by decide +kernel
theorem witness_load_index :
    holds (fetched ra 0 [wMIX 0x3B 11 8 9 4 24 false false]) (fun u =>
      let y := useRegs (useData u 0 false 11) 0 [8, 9]
      let v := (getT y 0).greg 8
      holds (effAddr 3 (boundsOf v).1 (boundsOf v).2 v.int (indexDisp ((getT y 0).int 9) 4 24)) (fun e =>
        (useAt (trusted y 0) v [pLOAD] true (some e.1) 8).isNone &&
          goes (loadBytes y 0 v e.1 8 false) (fun r => r.1.isSome && (getT r.2 0).hostWait.isNone))) = true := by decide +kernel
theorem witness_load_acquire :
    holds (fetched ra 0 [wREG 0x47 11 8 0 ((0 : BitVec 7) ++ (4 : BitVec 3))]) (fun u =>
      let y := useRegs u 0 [11, 8]
      let v := (getT y 0).greg 8
      (useAt (trusted y 0) v [pLOAD] true (some v.int) 16).isNone &&
        goes (loadBytes (drainRel y 0) 0 v v.int 16 true) (fun r => r.1.isSome && (getT r.2 0).hostWait.isNone)) = true := by
  decide +kernel

/-- StoreCompletes: an integer store, an indexed one, and a capability stored with release. -/
theorem witness_store :
    holds (fetched ra 0 [wMEM 0x33 9 8 0 8]) (fun u =>
      let y := useRegs (useData u 0 false 9) 0 [8]
      let v := (getT y 0).greg 8
      let b := storeValue (getT y 0) (.int 8) 9
      holds (effAddr 0 (boundsOf v).1 (boundsOf v).2 v.int 8) (fun e =>
        (useAt (trusted y 0) v (storePerms b.2) true (some e.1) b.1.length).isNone &&
          (localCause v ((getT y 0).greg 9) b.2).isNone &&
          goes (storeBytes y 0 v e.1 b.1 false b.2 false) (fun z => (getT z 0).hostWait.isNone))) = true := by decide +kernel
theorem witness_store_index :
    holds (fetched ra 0 [wMIX 0x41 10 8 9 4 24 true false]) (fun u =>
      let y := useRegs (useData u 0 false 10) 0 [8, 9]
      let v := (getT y 0).greg 8
      let b := storeValue (getT y 0) (.int 8) 10
      holds (effAddr 7 (boundsOf v).1 (boundsOf v).2 v.int (indexDisp ((getT y 0).int 9) 4 24)) (fun e =>
        (useAt (trusted y 0) v (storePerms b.2) true (some e.1) b.1.length).isNone &&
          (localCause v ((getT y 0).greg 10) b.2).isNone &&
          goes (storeBytes y 0 v e.1 b.1 false b.2 false) (fun z => (getT z 0).hostWait.isNone))) = true := by decide +kernel
theorem witness_store_release :
    holds (fetched ra 0 [wREG 0x48 8 8 0 ((0 : BitVec 7) ++ (4 : BitVec 3))]) (fun u =>
      let y := useRegs u 0 [8, 8]
      let v := (getT y 0).greg 8
      let b := storeValue (getT y 0) .cap 8
      (useAt (trusted y 0) v (storePerms b.2) true (some v.int) b.1.length).isNone && (localCause v v b.2).isNone &&
        goes (storeBytes y 0 v v.int b.1 true b.2 true) (fun z => (getT z 0).hostWait.isNone)) = true := by decide +kernel

/-- StoreReleaseFrame: a queued store that may leave whole, to a line no home is working on, and one whose first part leaves alone. -/
def queuedStore (pa : Nat) : State :=
  updT ra 0 (fun x => { x with stores := [⟨.data, pa, [1, 2, 3, 4], none, false, 0, false, true, none⟩] })
def releaseMeets (pa n : Nat) : Bool :=
  let s := queuedStore pa
  holds (getT s 0).stores[0]? (fun e =>
    e.kind == .data && e.cached && mayRelease (getT s 0).stores 0 && serving s (coreUid (coreOf s 0)) && sheafRuns s (coreOf s 0) &&
      (linesOf e.cut.1.span.1 e.cut.1.span.2).all (lineIdle s) && s.homeQ.isEmpty && s.txns.isEmpty && (physClass s e.pa).isMem &&
      admits s .normal true e.pa && e.cut.1.bytes.length == n &&
      after (.storeRelease 0 0) s (fun z => readByte z pa == 1 && readByte z (pa + n) == 0 && (getT z 0).stores.length == e.cut.2.length))
theorem witness_release : releaseMeets 0x2008 4 = true ∧ releaseMeets 0x200A 1 = true := by decide +kernel

/-- AtomicCompletes: FETCH-ADD of 8 bytes and SWAP of a capability in memory. -/
def amoMeets (b : RegNo) (wide : Bool) (op : AmoOp) (fn : Nat) (order : BitVec 2) : Bool :=
  holds (fetched ra 0 [wREG 0x44 11 8 b (amoFnBits order wide fn 0)]) (fun u =>
    let y := useRegs u 0 [11, 8, b]
    let v := (getT y 0).greg 8
    let bv := (getT y 0).greg b
    let n := if wide then 16 else 8
    let swap := op == .swap && wide
    let again := fun w : State => reachP w 0 .atomic v v.int n true (swap && bv.tag)
      (cannotAtomic (!wide && (op == .fadd || op == .swap)))
    (useAt (trusted y 0) v ([pLOAD, pSTORE, pATOMIC] ++ if swap && bv.tag then [pSTORECAP] else []) false (some v.int) n).isNone &&
      (localCause v bv (some (swap && bv.tag))).isNone &&
      goes (again y) (fun r =>
        let q := drainBefore (if order.getLsbD 0 then drainRel r.2 0 else r.2) 0 r.1.pa n (order.getLsbD 1)
        (physClass q r.1.pa).isMem &&
          goes (amoMem q 0 v v.int r.1 n (fun _ => some (5, false)) again) (fun o => (getT o.2 0).hostWait.isNone)))
theorem witness_atomic : amoMeets 9 false .fadd 0 3 = true ∧ amoMeets 8 true .swap 1 0 = true := by decide +kernel

/-- A compare and swap in memory, at each width. -/
def casMeets (width : BitVec 2) : Bool :=
  holds (fetched ra 0 [wREG 0x45 9 8 8 ((0 : BitVec 2) ++ width ++ (0 : BitVec 6))]) (fun u =>
    let y := useRegs u 0 [9, 8, 8]
    let v := (getT y 0).greg 8
    let n := if width = 0 then 8 else 16
    let st := width == 2 && v.tag
    let again := fun w : State => reachP w 0 .atomic v v.int n true st (cannotAtomic (width != 2))
    (useAt (trusted y 0) v ([pLOAD, pSTORE, pATOMIC] ++ if st then [pSTORECAP] else []) false (some v.int) n).isNone &&
      (localCause v v (some st)).isNone && goes (again y) (fun r =>
        let q := drainBefore r.2 0 r.1.pa n false
        (physClass q r.1.pa).isMem && goes (amoMem q 0 v v.int r.1 n (fun _ => none) again) (fun o => (getT o.2 0).hostWait.isNone)))
theorem witness_cas : casMeets 0 = true ∧ casMeets 1 = true ∧ casMeets 2 = true := by decide +kernel

/-- An atomic on a host aperture whose answer has come. -/
def hostState : State :=
  let s := serve [ioUid 0, octUid 0] (withRegs [(8, cap 0x400000000000), (9, int 5)])
  let s := s.putF (rHpOctCfg (octUid 0)) HpOctCfg.mode 1
  updT s 0 (fun x => { x with replay := [.data [1, 0, 0, 0, 0, 0, 0, 0]] })
theorem witness_atomic_host :
    holds (fetched hostState 0 [wREG 0x44 11 8 9 (amoFnBits 0 false 0 0)]) (fun u =>
      let y := useRegs u 0 [11, 8, 9]
      let v := (getT y 0).greg 8
      let again := fun w : State => reachP w 0 .atomic v v.int 8 true false (cannotAtomic true)
      (useAt (trusted y 0) v [pLOAD, pSTORE, pATOMIC] false (some v.int) 8).isNone && goes (again y) (fun r =>
        let d := drainBefore r.2 0 r.1.pa 8 false
        !(physClass d r.1.pa).isMem && goes (if turnedAway d 0 r.1 then .ok (r.1, d) else settleDirty again 0 v v.int 4 d r.1) (fun r' =>
          match physClass r'.2 r'.1.pa with
          | .hostAp i off => goes (amoHost r'.2 0 v v.int i off 8 (.op .fadd 8 5) r'.1.ent) (fun o => o.1.isSome && (getT o.2 0).hostWait.isNone)
          | _ => false))) = true := by decide +kernel

/-- CacheMaintenanceCompletes: FLUSH and ZERO of a line of memory. -/
def cmoMeets (k : SqKind) (fn : BitVec 5) (ps : List Nat) (x : XKind) : Bool :=
  holds (fetched ra 0 [wMEM 0x4B fn 8 0 0x7FF]) (fun u =>
    let y := useRegs u 0 [8]
    let v := (getT y 0).greg 8
    let b := v.int + (BitVec.signExtend 64 (0x7FF : BitVec 12))
    let a := if k == .zero then b &&& 0xFFFFFFFFFFFFFFC0 else b
    (useAt (trusted y 0) v ps false (some a) (if k == .zero then 64 else 1)).isNone && goes (translate y 0 x a v) (fun r =>
      (if k == .zero then goes (settleDirty (fun w => translate w 0 x a v) 0 v a 4 r.2 r.1) (fun r' =>
          goes (cmoAct r'.2 0 k v a r'.1) (fun z => (getT z 0).hostWait.isNone))
        else goes (cmoAct r.2 0 k v a r.1) (fun z => (getT z 0).hostWait.isNone))))
theorem witness_cmo :
    cmoMeets .clean 0 [pLOAD] .load = true ∧ cmoMeets .flush 1 [pLOAD, pSTORE] .store = true ∧ cmoMeets .zero 2 [pSTORE] .store = true := by
  decide +kernel

/-- BlockInstructionCompletes: nothing to do, one element that is the last, and one that leaves work. -/
def blockState (n : Word) : State := withRegs [(8, cap 0x2000), (9, cap 0x3000), (10, int n)]
def blockMeets (n : Word) (p : Option Blk → Bool) : Bool :=
  holds (fetched (blockState n) 0 (blkWords (.move 0) 8 9 10)) (fun u => goes (blkStart u 0 (.move 0) 8 9 10) (fun r =>
    if r.2 then p none else goes (blkElem r.1 0 (.move 0) 8 9 10) (fun e => p (some e.2))))
theorem witness_block :
    blockMeets 0 (fun e => e.isNone) = true ∧ blockMeets 1 (fun e => e == some .done) = true ∧
    blockMeets 65 (fun e => e == some .more) = true ∧
    (getT (blockState 1) 0).rootReq = [] ∧
    (getT (updT (blockState 1) 0 (fun x => { x with rootReq := [(false, 0)] })) 0).rootReq ≠ [] ∧
    holds (fetched (blockState 3) 0 (blkWords (.move 0) 8 9 10)) (fun u => goes (blkStart u 0 (.move 0) 8 9 10) (fun r =>
      !r.2 && goes (blkLoop 0 (.move 0) 8 9 10 (blkFuel (.move 0) ((getT r.1 0).int 10)) r.1) (fun z => (getT z 0).hostWait.isNone))) =
      true := by decide +kernel

/-! ### The statements about power, units, sparing and reset -/

/-- `s` with unit `u` in state `n`. -/
def putSt (u n : Nat) (s : State) : State := s.putF (rUnitState u) UnitState.state n

theorem witness_droop :
    (let s := updD base 0 (fun x => { x with powered := true })
     519 < 520 ∧ (getD s 0).powered = true ∧ (getD s 0).paused = false ∧ 540 < 541) := by decide +kernel
theorem witness_reference :
    base.getB rBcTbStatus (refOk false) = false ∧ (base.putB rBcTbStatus (refOk true) true).getB rBcTbStatus (refOk true) = true ∧
    (let s := { (((base.putB rBcTbCtrl BcTbCtrl.revert true).putB rBcTbCtrl BcTbCtrl.preferred true).putB rBcTbStatus (refOk true) true).putB
        rBcTbStatus BcTbStatus.active false with time := 1000000 }
     s.getB rBcTbCtrl BcTbCtrl.revert = true ∧ s.getB rBcTbStatus (refOk (s.getB rBcTbCtrl BcTbCtrl.preferred)) = true ∧
       s.getB rBcTbStatus BcTbStatus.holdover = false ∧ s.getB rBcTbStatus BcTbStatus.active ≠ s.getB rBcTbCtrl BcTbCtrl.preferred ∧
       s.tb.okSince.2 + 1000000 ≤ s.time) := by decide +kernel
theorem witness_voltage :
    (let s := { updD base 0 (fun x => { x with powered := true, mv := 552, setMv := 555 }) with time := 500 }
     (getD s 0).powered = true ∧ (getD s 0).mv ≠ (getD s 0).setMv ∧ (getD s 0).lastStep + 500 ≤ s.time) ∧
    (getD { base with time := 100000 } 23).window + 100000 ≤ 100000 ∧
    (fld (base.getR (rShfTherm (sheafUid 0))) ShfTherm.sensor_bad).testBit 3 = false := by decide +kernel
theorem witness_trip :
    (let s := updD base 0 (fun x => { x with powered := true })
     600 ≤ (600 : BitVec 10).toNat ∧ (getD s 0).powered = true ∧ (getD s 0).stopped = false ∧ s.board.critical = false ∧
       640 ≤ (640 : BitVec 10).toNat) ∧
    (let s := updD base 0 (fun x => { x with stopped := true })
     (getD s 0).stopped = true ∧ s.board.critical = false ∧ ∀ x ∈ ([559] : List (BitVec 10)), x.toNat < 560) ∧
    (let s := { base with board := { base.board with critical := true } }
     s.board.critical = true ∧ rampedDown s = true) := by decide +kernel
theorem witness_capacitor :
    (let s := { base with vault := { base.vault with vbat := false, hold := 2000 }, board := { base.board with pwrgdStby := false } }
     s.vault.vbat = false ∧ s.board.pwrgdStby = false ∧ 1999 < 2000 ∧ 2000 ≤ s.vault.hold) ∧
    (let s := { base with vault := { base.vault with hold := 1999 }, board := { base.board with pwrgdStby := false } }
     s.board.pwrgdStby = false ∧ s.vault.hold < 2000) := by decide +kernel

/-- UnitTransitionCompletes: a unit in each state, and a state message. -/
theorem witness_unit :
    isUp base (tileUid 0) = true ∧ isUp base (esUid 0) = true ∧ bcUp base = true ∧
    (let s := putSt (coreUid 191) 1 base
     isStateUnit (coreUid 191) = true ∧ stateOf s (coreUid 191) = 1 ∧ mayBivouac s (coreUid 191) = true) ∧
    stateOf (putSt (coreUid 191) 2 base) (coreUid 191) = 2 ∧ stateOf base (coreUid 0) = 4 := by decide +kernel
theorem witness_unit_failed :
    (let s := putSt (coreUid 5) 7 base
     stateOf s (coreUid 5) = 7 ∧ drained s (coreUid 5) = true) ∧
    (let u := mcUid 0
     let s := (putSt u 7 base).putF (rUnitState u) UnitState.cause 6
     stateOf s u = 7 ∧ restartAllowed s u = true) := by decide +kernel
theorem witness_unit_start :
    (let s := putSt (coreUid 1) 3 base
     stateOf s (coreUid 1) = 3 ∧ holdersUp s (coreUid 1) = true ∧ coreRaised s 1 = true ∧ isStateUnit (coreUid 1) = true) ∧
    (let s := putSt (coreUid 1) 5 base
     stateOf s (coreUid 1) = 5 ∧ drained s (coreUid 1) = true ∧ bcUp s = true) ∧
    (let s := putSt (mcUid 0) 5 base
     stateOf s (mcUid 0) = 5 ∧ holdersUp s (mcUid 0) = true ∧ (unitKind (mcUid 0) == .mem 0) = true) ∧
    ({ base with stateMsgs := [⟨coreUid 0, 4, 9⟩] }).stateMsgs[0]? = some ⟨coreUid 0, 4, 9⟩ := by decide +kernel

/-- SparingCompletes: a mismatch first and at its replay, the limit, injection, a solo core. -/
theorem witness_slip :
    (atBoundary base 0 = true ∧ soloThread base 0 = false ∧ replayed base 0 = false) ∧
    (let s := updC base (coreOf base 0) (fun x => { x with mism := [(0, 0, (getT base 0).pc)] })
     atBoundary s 0 = true ∧ soloThread s 0 = false ∧ replayed s 0 = true) ∧
    (let s := { (base.putF rBcSlipLimit BcSlipLimit.limit 1).putF rBcSlipLimit BcSlipLimit.window_ms 1 with time := 5 }
     let s := updC s 0 (fun x => { x with slips := [5] })
     0 < s.getF rBcSlipLimit BcSlipLimit.limit ∧ s.getF rBcSlipLimit BcSlipLimit.limit ≤ slipsIn s 0 ∧ bcUp s = true) ∧
    (let s := base.putB rVltDbgEn VltDbgEn.norm_inv true
     serving s (coreUid 0) = true ∧ s.getB rVltDbgEn VltDbgEn.norm_inv = true ∧ fld (2 : Word) CoreCheckInject.inject = 2) := by
  decide +kernel
def soloState : State := (base.putB (rShfCheckMode (sheafUid 0)) ShfCheckMode.solo true).putB (rBcVcoreMap 0) BcVcoreMap.solo true
theorem witness_solo :
    atBoundary soloState 0 = true ∧ soloThread soloState 0 = true ∧ serving soloState (coreUid 0) = true ∧
    soloState.getB (rShfCheckMode (sheafUid (sheafOfCore 0))) ShfCheckMode.solo = true ∧
    vcoreOfCore (setUnit soloState (coreUid 0) 7 0x06) 0 = some 0 := by decide +kernel

/-- A sparing of core 0 as it stands after its steps. -/
def spareState (spare : Option Nat) (raised captured flushed loaded rebound : Bool) : State :=
  let q : Sparing := ⟨0, 0, 4, 0, false, 1, spare, raised, captured, flushed, loaded, rebound⟩
  let s := { putSt (coreUid 0) 7 (putSt (coreUid 1) (if spare.isSome then 3 else 2) base) with sparings := [q] }
  { s with mgmt := { s.mgmt with reserved := if spare.isSome then [1] else [] } }
theorem witness_sparing :
    (let s := spareState none false false false false false
     holds (sparingOf s 0) (fun q => q.spare.isNone && !q.captured) = true ∧ bcUp s = true ∧ spareOrder s 0 = [1]) ∧
    (let s := spareState (some 1) false true false false false
     holds (sparingOf s 0) (fun q => q.captured && !q.flushed && !q.raised && q.spare == some 1) = true ∧ stateOf s (coreUid 1) = 3 ∧
       coreRaised s 1 = true) ∧
    holds (sparingOf (spareState (some 1) true true true false false) 0) (fun q => q.raised && q.captured && !q.loaded) = true ∧
    holds (sparingOf (spareState (some 1) true true true true false) 0) (fun q => q.flushed && q.loaded && !q.rebound) = true ∧
    (let s := spareState (some 1) true true true true true
     holds (sparingOf s 0) (fun q => q.rebound) = true ∧ stateOf s (coreUid 1) = 3 ∧ holdersUp s (coreUid 1) = true ∧
       stateOf s (tileUid 0) = 4 ∧ (getD s (sheafOfCore 1)).stopped = false) := by decide +kernel

/-- ResetCompletes: each cause that is due, the power-down request, standby, and units in and out of service. -/
theorem witness_reset :
    (let s := { base with board := { base.board with pwrgdStby := true, resetIn := false, critical := true } }
     resetDue s 2 = true ∧ resetDue s 3 = true ∧ resetDue s 4 = true ∧ resetDue s 5 = true ∧ s.board.pwrgdStby = true) ∧
    (let s := { base with board := { base.board with powerOff := true, down := false } }
     s.board.powerOff = true ∧ s.board.down = false) ∧ bcUp base = true := by decide +kernel
/-- A configuration image that passes every check, and a channel's modules. -/
def image : Image :=
  ⟨true, true, true, true, 1, 0, false, 1, 1, [(rBcDramRgn 0, setFld (setFld 0 BcDramRgn.valid 1) BcDramRgn.size 16)], none, some [1], ⟨0x140010000, [1, 2], 0, 0, 0x140020000, 0x1000, 0x140030000, 0x1000⟩, [], true, 0,
    false⟩
def dimm : Dimm := ⟨2, 1, false, 8, true, 6400, 7, true, true, 1, 16, 0⟩

def stageState (n : Nat) : State :=
  let s := base.putF rBcBootStatus BcBootStatus.stage n
  { s with board := { s.board with pwrgdStby := true, stopped := false, down := false }, mgmt := { s.mgmt with running := some image }
           doms := [(0, { Dom.init with powered := true })] }
def replacedState : State :=
  let s := { stageState 3 with withdrawn := [mcUid 0], dimms := [(0, dimm)] }
  { s with mgmt := { s.mgmt with flashA := { s.mgmt.flashA with store := [(mcUid 0, true, 6, 0)] } } }
theorem witness_reset_stage :
    (mayStage (stageState 3) 4 = true ∧ bcUp (stageState 3) = true ∧ anyPowered (stageState 3) = true ∧
      (stageState 3).mgmt.running = some image ∧ replaced (toStage (stageState 3) 4) = []) ∧
    (mayStage replacedState 4 = true ∧ replaced (toStage replacedState 4) ≠ []) := by decide +kernel
theorem witness_reset_input :
    (let s := stageState 3
     let s := { s with board := { s.board with pwrgdMain := true, pwrEnMain := true } }
     s.board.pwrgdMain = true ∧ s.board.pwrEnMain = true ∧ 3 ≤ stageOf s) ∧
    State.reset.board.pwrgdStby = false := by decide +kernel
theorem witness_reset_part :
    coreResetOk (putSt (coreUid 3) 7 base) 3 = true ∧ coreResetOk base 0 = false ∧
    outState (putSt (tileUid 5) 1 base) (tileUid 5) = true ∧ outState (putSt (sliceUid 5) 6 base) (sliceUid 5) = true ∧
    (outState base (tileUid 0) && outState base (sliceUid 0)) = false ∧
    (∀ j < 8, isUp base (coreUid (8 * 1 + j)) = false) ∧ (∃ j < 8, isUp base (coreUid (8 * 0 + j)) = true) ∧
    (∀ u ∈ unitsOfField 2, stateOf base u ≠ 4) ∧ (∃ u ∈ unitsOfField 0, stateOf base u = 4) := by decide +kernel

/-! ### The statements about start-up, channels, registers, instances and moves -/

theorem witness_stage_first :
    State.reset.board.pwrgdStby = false ∧
    (let s := { State.reset with board := { State.reset.board with pwrgdStby := true, resetIn := true } }
     mayS1 s = true) := by decide +kernel
theorem witness_stage_image :
    mayStage (stageState 1) 2 = true ∧
    (let y := bootCores (toStage (stageState 1) 2) false false
     let z := oweRecords (readTable y)
     (bcUp y = true ∧ chooseImage (candidate z z.mgmt.flashA) none = none) ∨ bcUp y = false) ∧
    chooseImage (some (image, true)) none = some (image, false) ∧ passedOver (some (image, true)) none = none := by decide +kernel
def flashState : State := let s := stageState 1; { s with mgmt := { s.mgmt with flashA := { s.mgmt.flashA with image := some image, reads := true } } }
theorem witness_stage_boot :
    (let y := bootCores (toStage flashState 2) true true
     let z := oweRecords (readTable y)
     bcUp y = true ∧ holds (chooseImage (candidate z z.mgmt.flashA) none) (fun c => !c.2) = true) := by decide +kernel
theorem witness_stage_rest :
    mayStage (stageState 2) 3 = true ∧ bcUp (stageState 2) = true ∧ mayStage (stageState 4) 5 = true ∧ mayStage (stageState 5) 6 = true ∧
    mayStage (stageState 6) 7 = true ∧
    (let s := { stageState 3 with time := 20000000 }
     let s := updB s (fun b => { b with pwrEnMain := true, pwrgdMain := false, enSince := 0 })
     stageOf s = 3 ∧ s.board.stopped = false ∧ s.board.pwrEnMain = true ∧ s.board.pwrgdMain = false ∧ bcUp s = true ∧
       s.board.enSince + 20000000 ≤ s.time) ∧
    (stageOf (stageState 7) = 7 ∧ (stageState 7).getB rBcMemInit BcMemInit.done = false) := by decide +kernel
theorem witness_svn_burn :
    (let s := { stageState 7 with time := 60000000000 }
     let s := { s with mgmt := { s.mgmt with running := some { image with burn := true, svn := 1 }, loadedAt := 0, fails := [] } }
     s.mgmt.loadedAt + 60000000000 ≤ s.time ∧ s.mgmt.fails = [] ∧ s.getF rBcFuseOpt BcFuseOpt.min_svn < 1 ∧ bcUp s = true) := by
  decide +kernel
def unstarted : State := (updT base 0 (fun x => { x with run := .unstarted })).putF (rUnitState uidBaseCamp) UnitState.state 4
theorem witness_thread_start :
    (let v := setFld (setFld 0 BcThreadStart.go 1) BcThreadStart.block 64
     let a := fld v BcThreadStart.block * 128
     blockUp unstarted uidBaseCamp = true ∧ fldB v BcThreadStart.go = true ∧ fldB v BcThreadStart.refused = false ∧
       startable unstarted 0 = true ∧ blockOk unstarted (writerWorld unstarted .baseCamp) a = true ∧
       worldOk (trusted unstarted 0) (blockCaps unstarted a) = true) := by decide +kernel

/-- Channel 4,096 of the engine stop in service, in state `n`. -/
def chanState (n : Nat) : State := updCh base 4096 (fun c => { c with state := n })
theorem witness_channel_command :
    mayCommand base .baseCamp 4096 = true ∧ (getCh (chanState 1) 4096).state = 1 ∧ (getCh (chanState 2) 4096).state = 2 ∧
    ((getCh (chanState 3) 4096).state = 3 ∧ (getCh (chanState 3) 4096).flight = []) ∧ mayRing base .baseCamp 4096 = true ∧
    (∀ n ∈ [1, 2, 3], mayCommand (chanState n) .baseCamp 4096 = true ∧ esPasses (chanState n) (servingEs (chanState n) 4096) = true) ∧
    (let s := updD base 28 (fun x => { x with stopped := true })
     mayCommand s .baseCamp 4096 = true ∧ esPasses s (servingEs s 4096) = false) := by
  decide +kernel
def entryState : State :=
  let s := base
  let a := entryAddr s 4096
  let s := writeBytes s a (toBytes 8 (setFld (setFld 0 ChControl.kinds 1) ChControl.en 1).toNat)
  let s := writeBytes s (a + 8) (toBytes 8 (setFld 0 ChRing.log2 4).toNat)
  writeBytes s (a + 16) (toBytes 8 (setFld 0 ChRing.log2 4).toNat)
theorem witness_refresh : holds (entryWords entryState 4096) (fun ws => entryOk entryState 4096 ws) = true := by decide +kernel
theorem witness_poll :
    (let s := updCh base 4096 (fun c => { c with state := 2, words := [setFld 0 ChControl.db_mode 1, 0, 0, setFld 0 ChPollAddr.addr 0x400] })
     esPasses s (servingEs s 4096) = true ∧ (getCh s 4096).polled = true ∧ (getCh s 4096).polling = false ∧ (getCh s 4096).pollAt ≤ s.time ∧
       chanAwake s 4096 = true ∧
       goes (engXlat s 4096 (chUid 0) false (fld ((getCh s 4096).word 3) ChPollAddr.addr * 8)) (fun r =>
         match r.2 with
         | .mem pa _ => goes (readPlace r.1 r.2 8) (fun _ => pa == 0x2000)
         | _ => false) = true) := by decide +kernel

/-- A descriptor of channel 4,096 with opcode `op`, its words 1 to 3 given. -/
def desc (op : Nat) (w1 w2 w3 : Word) : Desc where
  slot := 0
  words := [setFld 0 Desc.opcode op, w1, w2, w3, 0, 0, 0, 0]
  started := 0
  flushed := false
  unit := none
  base := 0
  status := none
  done := 0
  acc := 0
  list := []
  stage := 0
  waits := 0
  bad := 0
  endAs := none
  noEntry := false
  counted := false
  tries := 0
  keys := none
  outs := []
  result := 0
  verdict := 0
def descState (d : Desc) : State := updCh base 4096 (fun c => { c with state := 2, flight := [d] })
theorem witness_descriptor_start :
    (let s := updCh base 4096 (fun c => { c with
       state := 2, subTail := 1, words := [setFld 0 ChControl.max_inflight 7, setFld 0 ChRing.log2 4, setFld 0 ChRing.log2 4]
       fetch := [.ready [0, 0, 0, 0, 0, 0, 0, 0]] })
     let y := markWanted ((s.chans.map (·.1)).foldl (fun s g => if servingEs s g = 0 then checkDoorbell s g else s) s) 0
     serving s (esUid 0) = true ∧ esPasses s 0 = true ∧ pickChan y 0 = some 4096 ∧ (getCh y 4096).fetch.isEmpty = false ∧
       (getCh y 4096).fetch.head? ≠ some .asked ∧ descReady y 0 4096 = true) := by decide +kernel
theorem witness_descriptor_complete :
    (let d := { desc 0 0 0 0 with status := some (0, 0) }
     let s := updCh entryState 4096 (fun c => { c with state := 2, flight := [d], words := [0, setFld 0 ChRing.log2 4, setFld 0 ChRing.log2 4] })
     (getCh s 4096).flight = d :: [] ∧ isHostChan 4096 = false ∧ esPasses s (servingEs s 4096) = true ∧ fldB (d.word 0) Desc.quiet = false ∧
       (getCh s 4096).cplFull = false ∧ goes (writeEntry s 4096 (cplEntry (getCh s 4096) d 0 0)) (fun _ => true) = true) ∧
    fldB (setFld 0 Desc.quiet 1) Desc.quiet = true := by decide +kernel
theorem witness_descriptor_timers :
    (let s := { updCh base 4096 (fun c => { c with
       words := [0, 0, 0, 0, setFld (setFld 0 ChIrq.irq_en 1) ChIrq.irq_time 1], sinceIrq := 1, firstAt := 0 }) with time := 1000 }
     esPasses s (servingEs s 4096) = true ∧ fldB ((getCh s 4096).word 4) ChIrq.irq_en = true ∧ fld ((getCh s 4096).word 4) ChIrq.irq_time ≠ 0 ∧ (getCh s 4096).sinceIrq ≠ 0 ∧
       (getCh s 4096).firstAt + fld ((getCh s 4096).word 4) ChIrq.irq_time * 1000 ≤ s.time) ∧
    (let a := entryAddr base 4096 + 0x60
     (physClass base a).isMem = true ∧ admits base .normal true a = true ∧ poisoned base a = false ∧ esPasses base (servingEs base 4096) = true) := by decide +kernel
theorem witness_descriptor_queue :
    running? (descState (desc 0 0 0 0)) 4096 0 0x00 = some (desc 0 0 0 0) ∧
    (let d := desc 1 0 0 0
     running? (descState d) 4096 0 0x01 = some d ∧ waitMet (descState d) 4096 d = some true ∧
       (getCh (descState d) 4096).flight.head? = some d) ∧
    (let d := desc 2 (setFld 0 ⟨63, 63⟩ 1 ||| 4096) 0 0
     running? (descState d) 4096 0 0x02 = some d ∧ fldB (d.word 1) ⟨63, 63⟩ = true ∧ waitMet (descState d) 4096 d = some true) ∧
    (let d := { desc 0 0 0 0 with words := [setFld 0 Desc.to_code 1] }
     holds (descLimit (getCh (descState d) 4096) d) (fun n => decide (d.started + n ≤ 10 ^ 15)) = true ∧
       esPasses (descState d) (servingEs (descState d) 4096) = true) := by decide +kernel

/-- RegisterAndInterruptCompletes: a register of a core's block, a sheaf's and a slice's; a unit that is down; messages. -/
theorem witness_register_write :
    (∀ a ∈ [rCorePaceReq (coreUid 0), rShfPacePolicy (sheafUid 0), rTileDirCfg (sliceUid 0)],
      a % 8 = 0 ∧ (regRow a).isSome = true ∧ blockUp base (a / 0x100000) = true) ∧
    holds (regRow (rShfPacePolicy (sheafUid 0))) (fun x => ownerOk base .baseCamp x) = true ∧ notHost .baseCamp = true ∧
    unitKind (sheafUid 0) = .sheaf 0 ∧ unitKind (coreUid 0) = .core 0 ∧ unitKind (sliceUid 0) = .slice 0 ∧
    blockUp base (coreUid 0) = true ∧ blockUp base (coreUid 100) = false ∧ notHost (.host 0 0) = false := by decide +kernel
theorem witness_interrupt_message :
    (let s := { base with irqMsgs := [⟨0, 63, 0x10⟩, ⟨200, 0, 0x10⟩] }
     s.irqMsgs[0]? = some ⟨0, 63, 0x10⟩ ∧ s.vault.sw = none ∧ threadAssigned s 0 = true ∧ vmapB s 0 BcVcoreMap.bound = true ∧
       threadAssigned s 200 = false ∧ blockUp unstarted uidBaseCamp = true) := by decide +kernel

/-- InstanceCompletes: a port in host mode with eight instances, its manager a core. -/
def portState : State :=
  let s := serve [ioUid 0, octUid 0, portUid 0] base
  let s := (s.putF (rHpOctCfg (octUid 0)) HpOctCfg.mode 1).putB (rHpPortCtrl (portUid 0)) HpPortCtrl.mgr true
  updP s 0 (fun x => { x with share := 8 })
def instAt (n : Nat) : State := portState.putF (rHpInstMgmt (portUid 0) 3) HpInstMgmt.state n
theorem witness_mailbox :
    instWrites portState 0 0 = true ∧ instWrites portState 0 7 = true ∧ portState.getB (rHpMbxCtrl 0 0) HpMbxCtrl.out_full = false ∧
    mgrRes portState 0 = true ∧ (portState.putB (rHpMbxCtrl 0 7) HpMbxCtrl.in_full true).getB (rHpMbxCtrl 0 7) HpMbxCtrl.in_full = true ∧
    isManager portState .baseCamp 0 0 = true ∧ portState.getB (rHpMbxMgrCtrl (portUid 0) 0) HpMbxMgrCtrl.out_full = false ∧
    (portState.putB (rHpMbxMgrCtrl (portUid 0) 7) HpMbxMgrCtrl.in_full true).getB (rHpMbxMgrCtrl (portUid 0) 7) HpMbxMgrCtrl.in_full = true := by
  decide +kernel
theorem witness_instance :
    isManager portState .baseCamp 0 3 = true ∧ 3 < (getP portState 0).share ∧ mget false (getP portState 0).busy 3 = false ∧
    instState (instAt 0) 0 3 = 0 ∧ instState (instAt 2) 0 3 = 2 ∧ instState (instAt 3) 0 3 = 3 ∧
    instQuiet (instAt 1) 0 3 = true ∧ instState (instAt 7) 0 3 = 7 := by decide +kernel
theorem witness_instance_save :
    (mgrWrite (instAt 3) 0 (imgAddr (instAt 3) 0 3) (saveImage (instAt 3) 0 3)).isSome = true := by decide +kernel
theorem witness_write_log :
    (let s := (portState.putB (rHpPortCtrl (portUid 0)) HpPortCtrl.mgr false).putR (rHpWlogBase (portUid 0) 3) (setFld (setFld 0 HpWlogBase.en 1) HpWlogBase.log2 6)
     let w := s.getR (rHpWlogPtr (portUid 0) 3)
     fldB (s.getR (rHpWlogBase (portUid 0) 3)) HpWlogBase.en = true ∧ (getI s 0 3).filter.contains 5 = false ∧
       fldB w HpWlogPtr.overflow = false ∧ (fld w HpWlogPtr.tail + 1) % 64 ≠ fld w HpWlogPtr.head ∧ mgrRes s 0 = false) ∧
    (getP { portState with time := 100000 } 0).winAt + 100000 ≤ 100000 := by decide +kernel

/-- MessageAndMoveCompletes: a queue with room, a copy of a few bytes, an engine with its descriptor. -/
def moveState (d : Desc) : State := updCh (serve [engUid 0 false 0] base) 4096 (fun c => { c with state := 2, flight := [d] })
def queueState (d : Desc) : State :=
  let s := moveState d
  let s := s.putR (rChSq0 (chUid 0) 0) (setFld (setFld (setFld 0 ChSq0.en 1) ChSq0.base 0x10) ChSq0.log2 4)
  let s := (s.putR (rChSq1 (chUid 0) 0) (setFld 0 ChSq1.head_addr 0x400)).putR (rChSq2 (chUid 0) 0) (setFld 0 ChSq2.res_ok 1)
  { s with sqOrder := [(0, 4096, 0)] }
theorem witness_message :
    (let d := desc 0x81 (setFld 0 ⟨31, 16⟩ 48) 0 0
     let s := queueState d
     esRuns s (servingEs s 4096) = true ∧ running? s 4096 0 0x81 = some d ∧ msgLen d = 48 ∧
       goes (sendMessage s 4096 d ((inlineBytes d).take 48)) (fun _ => true) = true) ∧
    (let d := desc 0x80 (setFld 0 ⟨31, 16⟩ 16) 0x3000 0
     let s := queueState d
     running? s 4096 0 0x80 = some d ∧ msgLen d ≤ (queueOf s d.base (msgQueue d)).esize - 16 ∧ wraps (d.num 2) (msgLen d) = false ∧
       goes (gather s 4096 d (chUid (servingEs s 4096)) [(d.num 2, msgLen d)]) (fun r => holds r.2 (fun bs =>
         goes (sendMessage r.1 4096 d bs) (fun _ => true))) = true) := by decide +kernel
def moveMeets (op : Nat) : Bool :=
  let d := { desc op 0x3000 0x4000 5 with list := if op = 0x11 ∨ op = 0x12 then [(0x5000, 5)] else [] }
  let s := moveState d
  running? s 4096 0 op == some d && !noEngine s 4096 d && (moveCheck d).isNone && (!isListOp op || d.list != []) &&
    holds (withUnit s 4096 d) (fun r => goes (gather r.1 4096 d r.2 (nextElement d).reads) (fun q => holds q.2 (fun bs =>
      goes (scatter q.1 4096 r.2 (hintOfWord (d.word 6)) (nextElement d).writes bs) (fun v =>
        holds (descAt (elementDone v 4096 0 (nextElement d).len 0) 4096 0) (fun e => e.status.isSome)))))
theorem witness_move :
    moveMeets 0x10 = true ∧ moveMeets 0x11 = true ∧ moveMeets 0x12 = true ∧ moveMeets 0x16 = true := by decide +kernel
theorem witness_move_element :
    (let d := desc 0x10 0x3000 0x4000 5000
     let s := moveState d
     descAt s 4096 0 = some d ∧ d.status = none ∧ isMoveOp d.op = true ∧ noEngine s 4096 d = false ∧ (withUnit s 4096 d).isSome = true) ∧
    (let d := { desc 0x80 0 0 0 with counted := true }
     let s := queueState d
     s.sqOrder.find? (fun e => e.1 == 0) = some (0, 4096, 0) ∧ descAt s 4096 0 = some d) ∧
    (let d := { desc 0x10 0 0 0 with unit := some (engUid 0 false 0) }
     engDesc (moveState d) (engUid 0 false 0) = some (4096, d)) ∧ fldB (setFld 0 ChSq0.en 1) ChSq0.en = true ∧
    blockUp (serve [chUid 0] base) (chUid 0) = true := by decide +kernel

/-! ### The statements about coherence, slices and caches -/

/-- Every slice in service, a line's store waiting in core 0. -/
def home : State := updT (serve (allSlices.map sliceUid) ra) 0 (fun x => { x with stores := [⟨.data, 0x2008, [1], none, false, 0, false, true, none⟩] })
/-- Line 0x80 (address 0x2000) in core 0. -/
def held (st : Moesi) (p : CPlace) : State := updC home 0 (fun c => { c with lines := [(0x80, ⟨st, p, 3, none, none, 0⟩)] })
theorem witness_request_read :
    lineOf home 0 0x80 = none ∧ (physClass home 0x2000).isMem = true ∧ mayTouch home 0 0x80 = true ∧ serving home (coreUid 0) = true ∧
    domUp home (sheafOfCore 0) = true ∧ homeUp home 0x80 = true ∧ mfind (getC home 0).misses 0x80 = none ∧
    homeTakes (updC home 0 (fun c => { c with misses := mins c.misses 0x80 .read })) ⟨.rdS, .core 0, 0x80, []⟩ false = true ∧
    mayTouch (cxlPoison home 0x80) 0 0x80 = true := by decide +kernel
theorem witness_request_own :
    storeWaits home 0 0x80 = true ∧
    homeTakes (updC home 0 (fun c => { c with misses := mins c.misses 0x80 .own })) ⟨.rdO, .core 0, 0x80, []⟩ true = true ∧
    (let s := held .s .l2
     lineOf s 0 0x80 = some ⟨.s, .l2, 3, none, none, 0⟩ ∧ storeWaits s 0 0x80 = true ∧
       homeTakes (updC s 0 (fun c => { c with misses := mins c.misses 0x80 .upgrade })) ⟨.upg, .core 0, 0x80, []⟩ true = true) := by
  decide +kernel
theorem witness_request_other :
    homeTakes home ⟨.rdOnce, .baseCamp, 0x80, []⟩ false = true ∧ homeTakes home ⟨.rdOnce, .trace, 0x80, []⟩ false = true ∧
    homeTakes home ⟨.wrLine none, writerParty .baseCamp, 0x80, []⟩ true = true ∧
    homeTakes home ⟨.wrPart 63, writerParty .baseCamp, 0x80, [1]⟩ true = true ∧
    homeTakes home ⟨.atom (.amo .fadd) 48 16, writerParty .baseCamp, 0x80, toBytes 16 1⟩ true = true ∧ homeUp home 0x80 = true ∧
    physClass home 0x200000000008 = .device 8 := by decide +kernel
theorem witness_write_back :
    (let s := held .m .l2
     let c : CLine := ⟨.m, .l2, 3, none, none, 0⟩
     lineOf s 0 0x80 = some c ∧ c.dirty = true ∧ c.place ≠ .sent ∧ mfind (getC s 0).misses 0x80 = none ∧ coreTakes s 0 = true ∧
       (evictions s 0).length < 16 ∧ homeTakes (buffer s 0 0x80 { c with place := .sent }) ⟨.wb, .core 0, 0x80, []⟩ true = true) ∧
    (let s := held .e .l2
     lineOf s 0 0x80 = some ⟨.e, .l2, 3, none, none, 0⟩ ∧ mfind (getC s 0).misses 0x80 = none ∧ coreTakes s 0 = true ∧ homeUp s 0x80 = true ∧
       homeTakes (dropLine s 0 0x80) ⟨.notice, .core 0, 0x80, []⟩ true = true) := by
  decide +kernel

/-- A message to a core or tile in front of the plane. -/
def fwdState (k : FwdKind) (target : Nat) : State := { held .m .l2 with fwd := [⟨k, 0x80, target, none, false⟩] }
theorem witness_snoop :
    holds (takeFwd (fwdState .snpS 0) 0 .snpS) (fun r => (grantTo r.2 r.1.target r.1.line).isNone && (lineOf r.2 r.1.target r.1.line).isSome) = true ∧
    holds (takeFwd { fwdState .snpS 0 with rsp := [⟨.data, 0x80, 0, false, .core 0, some .m, .rdO, false, [], false, false⟩] } 0 .snpS)
      (fun r => grantTo r.2 r.1.target r.1.line == some .m) = true ∧
    holds (takeFwd (fwdState .snpO 0) 0 .snpO) (fun r => (copyOf r.2 r.1.target r.1.line).isSome) = true ∧
    (takeFwd (fwdState .snpInv 0) 0 .snpInv).isSome = true ∧ (takeFwd (fwdState .dupUpd 48) 0 .dupUpd).isSome = true ∧
    holds (takeFwd { home with fwd := [⟨.stash, 0x80, 0, none, false⟩] } 0 .stash) (fun r =>
      stateOf r.2 (coreUid r.1.target) == 4 && (enterL2 r.2 r.1.target r.1.line .e).isSome) = true := by decide +kernel

/-- An answer in front of its plane. -/
def rspState (k : RspKind) (toHome : Bool) (who : Party) (what : ReqKind) : State :=
  { held .m .sent with rsp := [⟨k, 0x80, 0, toHome, who, some .s, what, false, [], false, false⟩] }
theorem witness_response :
    holds (takeRsp (rspState .data true (.core 0) .rdS) 0 .data) (fun r => r.1.home) = true ∧
    holds (takeRsp { home with rsp := [⟨.data, 0x80, 0, false, .core 0, some .s, .rdS, false, [], false, false⟩] } 0 .data) (fun r =>
      !r.1.home && r.1.who == .core 0 && (install r.2 0 r.1.line .s).isSome) = true ∧
    holds (takeRsp { home with rsp := [⟨.data, 0x80, 0, false, .engine 7, none, .rdOnce, false, [], false, true⟩] } 0 .data) (fun r =>
      !r.1.home && r.1.poison && r.1.who == .engine 7) = true ∧
    holds (takeRsp (rspState .ack true (.core 0) (.wrLine none)) 0 .ack) (fun r => r.1.home && r.1.what == .wrLine none) = true ∧
    holds (takeRsp (rspState .ack true (.core 0) .rdOnce) 0 .ack) (fun r => r.1.home && r.1.what == .rdOnce && !r.1.refusal) = true ∧
    holds (takeRsp (rspState .ack true (.core 0) .rdS) 0 .ack) (fun r => r.1.home && r.1.what == .rdS) = true ∧
    holds (takeRsp (rspState .ack false (.core 0) .upg) 0 .ack) (fun r => (install r.2 0 r.1.line .m).isSome) = true ∧
    holds (takeRsp (rspState .nack true (.core 0) (.wrLine none)) 0 .nack) (fun r => r.1.home && r.1.what == .wrLine none) = true ∧
    holds (takeRsp (rspState .stale false (.core 0) .wb) 0 .stale) (fun r =>
      r.1.what == .wb && holds (lineOf r.2 0 r.1.line) (fun c => c.place == .sent)) = true ∧
    holds (takeRsp (rspState .retry false (.core 0) .rdS) 0 .retry) (fun r => r.1.what != .wb) = true ∧
    holds (takeRsp (rspState .retry false (.core 0) .wb) 0 .retry) (fun r => holds (lineOf r.2 0 r.1.line) (fun c => c.place == .sent)) = true ∧
    holds (takeRsp (rspState .noTarget false (.core 0) .rdS) 0 .noTarget) (fun r => r.1.who == .core 0 && r.1.what != .wb) = true ∧
    holds (takeRsp (rspState .noTarget false .baseCamp (.wrLine none)) 0 .noTarget) (fun r =>
      r.1.who == .baseCamp && r.1.what != .rdOnce && !r.1.refusal) = true := by decide +kernel

/-- A slice's retirement at each of its steps. -/
def retireState (moved mapped : Bool) : State := { home with retires := [⟨5, [(5, 6)], 0, true, moved, mapped, true⟩] }
theorem witness_slice :
    (∀ e ∈ [(false, false), (true, false), (true, true)],
      retireOf (retireState e.1 e.2) 5 = some ⟨5, [(5, 6)], 0, true, e.1, e.2, true⟩ ∧ (retireState e.1 e.2).fabric.commit = none) ∧
    ({ home with subCopy := [95] }).subCopy.contains 95 = true := by decide +kernel
theorem witness_array :
    coreOfArray (coreUid 0) = some 0 ∧ coreOfArray (sliceUid 0) = none ∧ sliceOfArray (sliceUid 0) = some 0 ∧
    serving home (coreUid 0) = true ∧ serving home (sliceUid 0) = true ∧
    (getC (held .m .l2) 0).lines.any (fun e => e.1 == 0x80 && inArray 2 0x80 e) = true := by decide +kernel
theorem witness_way :
    bcUp home = true ∧ 3 < (wayField 0).2 ∧ (countWay home (coreUid 0) 0 3).2 = false ∧
    (let s := { home with mgmt := { home.mgmt with wayErrs := List.replicate 7 (coreUid 0, 0, 3, 0) } }
     (countWay s (coreUid 0) 0 3).2 = true) ∧
    (home.getF (rCoreCacheWays (coreUid 0)) (wayField 2).1).testBit 7 = false ∧
    2 < (wayField 2).2 - bitCount (home.getF (rCoreCacheWays (coreUid 0)) (wayField 2).1) (wayField 2).2 ∧
    ({ home with scratchNew := some 8 }).scratchNew = some 8 ∧ blockUp unstarted uidBaseCamp = true := by decide +kernel

/-! ### The statements about the fabric, memory channels and host ports -/

/-- Base camp up and no stop in service. -/
def bare : State := { State.reset with mgmt := { State.reset.mgmt with bcA := .active } }
theorem witness_route :
    bcUp bare = true ∧ bare.fabric.commit = none ∧ routeCheck bare [] = none ∧
    (let s := { bare with fabric := { bare.fabric with commit := some ⟨[], 0⟩ } }
     s.fabric.commit = some ⟨[], 0⟩ ∧ s.fabric.packets = []) ∧
    (routeCheck base []).isSome = true ∧ altApplies base = false ∧ bcUp base = true ∧ base.fabric.commit = none ∧
    altsGood bare [] = true := by decide +kernel
theorem witness_reroute :
    (let f := { bare.fabric with altsOk := true, alts := [(.link 0 1, []), (.stop 5, [])] }
     let s := ({ bare with fabric := f }).putF (linkReg 0 1) FabLinkStatus.lstate 1
     let s := (s.putF (rUnitState (stateUidOfStop 5)) UnitState.state 7).putF (rUnitState (stateUidOfStop 5)) UnitState.cause 7
     s.fabric.altsOk = true ∧ linkUp s (1 / 4) (1 % 4) = false ∧ (s.fabric.alts.find? (fun e => e.1 == Loss.link (1 / 4) (1 % 4))).isSome = true ∧
       stateOf s (stateUidOfStop 5) = 7 ∧ s.getF (rUnitState (stateUidOfStop 5)) UnitState.cause = 0x07 ∧ (s.fabric.alts.find? (fun e => e.1 == Loss.stop 5)).isSome = true) := by decide +kernel
theorem witness_link :
    linkUp bare 127 3 = true ∧
    (let s := { bare with time := 10000 }
     mget 0 s.fabric.token (linkKey 127 3) + 10000 ≤ s.time) ∧
    (let s := { bare with fabric := { bare.fabric with window := mput [] [] (linkKey 0 0) (List.replicate 1000 5) } }
     bcUp s = true ∧ (mget [] s.fabric.window (linkKey 0 0))[999]? = some 5 ∧ s.time ≤ 5 + 1000000000 ∧ linkUsed s 0 0 = false) := by
  decide +kernel
def packet (stop : Nat) (route : Word) (flying : Bool) : Packet := ⟨stop, .rdS, 0, 0, 0, 0, false, false, none, 4, [], none, flying, route⟩
def withPacket (stop : Nat) (route : Word) (flying : Bool) : State :=
  { base with fabric := { base.fabric with packets := [packet stop route flying] } }
theorem witness_packet :
    (let st := stopOfTile 0
     fieldHeld base (fieldOfStop st) = false ∧ stopUp base st = true ∧
       base.getB (rFabRouteSel (fabUidOfStop st)) FabRouteSel.quiet = false ∧ base.fabric.reqs = []) ∧
    msgPlane .snpS = .fwd ∧ msgPlane .data = .rsp ∧ msgPlane .rdS = .req ∧
    (let s := withPacket 0 0 false
     s.fabric.packets[0]? = some (packet 0 0 false) ∧ fieldHeld s (fieldOfStop 0) = false ∧ stopUp s 0 = true ∧ stopQuiet s 0 = false ∧
       atHead s 0 (packet 0 0 false) = true ∧ hopsOf (packet 0 0 false).route = 0) := by decide +kernel
/-- A virtual channel's buffer holds at least the two flits of a message (Config.vcSpare is what it holds beyond them), so an empty one
has room. -/
theorem witness_hop :
    let p := packet 0 (BitVec.ofNat 64 (2 ^ 56)) false
    let s := withPacket 0 (BitVec.ofNat 64 (2 ^ 56)) false
    hopsOf p.route ≠ 0 ∧ linkUp s 0 p.out = true ∧ hasCredit s p = true ∧ itsTurn s p = true := by
  refine ⟨by decide +kernel, by decide +kernel, ?_, by decide +kernel⟩
  have h : vcFill (withPacket 0 (BitVec.ofNat 64 (2 ^ 56)) false) (packet 0 (BitVec.ofNat 64 (2 ^ 56)) false) +
      (packet 0 (BitVec.ofNat 64 (2 ^ 56)) false).flits ≤ 2 := by decide +kernel
  unfold hasCredit
  rw [Bool.and_eq_true]
  exact ⟨decide_eq_true (Nat.le_trans h (Nat.le_add_left 2 _)), by decide +kernel⟩
theorem witness_hop_landed :
    (let r : Word := BitVec.ofNat 64 (2 ^ 56)
     let s := withPacket 0 r true
     s.fabric.packets[0]? = some (packet 0 r true) ∧ (packet 0 r true).flying = true ∧ firstFlying s 0 (packet 0 r true) = true) ∧
    (let r : Word := BitVec.ofNat 64 (2 ^ 56)
     let s := (withPacket 0 r false).putF (linkReg 0 (packet 0 r false).out) FabLinkStatus.lstate 1
     linkUp s 0 (packet 0 r false).out = false ∧ stopUp s 0 = true) := by decide +kernel
theorem witness_request_timeout :
    (let e (n : Nat) : EReq := ⟨tileFabUid 0, 1, tileFabUid 0, 0x2000, n, 0, .rdS, [], none, none⟩
     let s := { base with fabric := { base.fabric with reqs := [e 7, e 8] }, time := 100000 }
     s.fabric.reqs[0]? = some (e 7) ∧ s.fabric.reqs[1]? = some (e 8) ∧ timersHeld s = false ∧ heldAtSource s (e 7).line = false ∧
       s.getB (rFabRouteSel (fabUidOfStop (stopOfUid (e 7).src))) FabRouteSel.quiet = false ∧ (e 7).since + reqLimit s (e 7) ≤ s.time) ∧
    (let d : DoneRec := ⟨0, 0, 0, 5, false, none⟩
     let s := { base with fabric := { base.fabric with recs := [d] }, time := 5 }
     s.fabric.recs[0]? = some d ∧ 5 ≤ s.time) := by decide +kernel

/-- Channel 0 with one read and one write waiting, its modules of two ranks and a spare. -/
def mcReq : McReq := ⟨0, 0x2000, 0, 0, 0, 0, 0, 0, 100, 0, false⟩
def mcState : State :=
  let s := { base with dimms := [(0, dimm)] }
  updM s 0 (fun m => m.setSub false { m.sub false with reads := [mcReq], writes := [mcReq] })
def mcMeets (a : DramCmd) : Bool :=
  let y := updM mcState 0 (fun m => m.setSub false (drainFix (m.sub false)))
  let x := (getM y 0).sub false
  mcRuns mcState 0 && cmdBest y 0 x [a] == some a && (inWrites x)[0]? == some mcReq && (inReads x)[0]? == some mcReq &&
    urgency y 0 mcReq != 3 && !mcReq.home
theorem witness_mc_command :
    mcMeets (.read 0) = true ∧ mcMeets (.write 0) = true := by decide +kernel
theorem witness_mc_refresh :
    (let s := { updM mcState 0 (fun m => { m with owed := [(0, 8)], lastRef := [] }) with time := 1950 }
     mget 0 (getM s 0).lastRef 3 + 1950 ≤ s.time ∧ chanUp s 0 = true ∧ (getM s 0).freq = false ∧ cmdBest s 0 ((getM s 0).sub false) [.refresh 0] = some (.refresh 0)) ∧
    (let s := updM mcState 0 (fun m => m.setSub false { m.sub false with nref := [(0, none)] })
     cmdBest s 0 ((getM s 0).sub false) [.neighbour] = some .neighbour) := by decide +kernel
theorem witness_mc_drift :
    (let s := { mcState with time := 100000000 }
     bcUp s = true ∧ chanUp s 0 = true ∧ (getM s 0).driftAt + 100000000 ≤ s.time) := by decide +kernel
theorem witness_mc_frequency :
    (let v := setFld 0 McFreqCtrl.go 1
     bcUp mcState = true ∧ chanUp mcState 0 = true ∧ mayChange mcState 0 = true ∧ fldB v McFreqCtrl.go = true ∧
       fldB v McFreqCtrl.refused = false ∧ mcState.getB (rMcMigrStatus (mcUid 0)) McMigrStatus.active = false ∧
       mcState.getB (rMcFreqCtrl (mcUid 0)) McFreqCtrl.busy = false) ∧
    (mcState.putF (rMcFreqCtrl (mcUid 0)) McFreqCtrl.busy 1).getB (rMcFreqCtrl (mcUid 0)) McFreqCtrl.busy = true := by decide +kernel

/-- A migration of rank 0 to spare rank 1 at line `a`. -/
def migrating (a : Nat) : State :=
  let s := updM mcState 0 (fun m => { m with ranks := [0], spareOf := [1], migrAt := a })
  s.putR (rMcMigrStatus (mcUid 0)) ([(McMigrStatus.active, 1), (McMigrStatus.src_rank, 0), (McMigrStatus.spare_rank, 1)].foldl
    (fun w (f, n) => setFld w f n) 0)
theorem witness_migration :
    (let s := updM mcState 0 (fun m => { m with ranks := [0], spareOf := [1] })
     bcUp s = true ∧ chanUp s 0 = true ∧ s.getB (rMcMigrStatus (mcUid 0)) McMigrStatus.active = false ∧ (getM s 0).spareOf = 1 :: [] ∧
       (getM s 0).ranks.findIdx? (· == 0) = some 0) ∧
    (let s := migrating 0
     fldB (s.getR (rMcMigrStatus (mcUid 0))) McMigrStatus.active = true ∧ mcRuns s 0 = true ∧ readFree s 0 (getM s 0).migrAt = true ∧
       (getM s 0).migrAt < 1 * rankSize s 0) ∧
    (let s := migrating (8 * 2 ^ 30)
     (getM s 0).ranks.findIdx? (· == fld (s.getR (rMcMigrStatus (mcUid 0))) McMigrStatus.src_rank) = some 0 ∧
       (0 + 1) * rankSize s 0 ≤ (getM s 0).migrAt ∧ s.mgmt.mirrorBroken = []) := by decide +kernel
theorem witness_gleaner :
    (let s := (updM mcState 0 (fun m => { m with ranks := [0], spareOf := [1] })).putF (rMcGleanCfg (mcUid 0)) McGleanCfg.en 1
     mcRuns s 0 = true ∧ s.getB (rMcGleanCfg (mcUid 0)) McGleanCfg.en = true ∧
       s.getB (rMcMigrStatus (mcUid 0)) McMigrStatus.active = false ∧ 0 < chanBytes s 0 ∧ readFree s 0 (getM s 0).glean = true ∧
       gleanDue { s.putR rBcMemInit 1 with time := 64 } 0 = true ∧ (getM s 0).spareOf = 1 :: [] ∧ (getM s 0).spareTested = false) := by decide +kernel
theorem witness_expansion :
    (let s := base.putR (rBcCxlWin 0) (setFld (setFld 0 BcCxlWin.valid 1) BcCxlWin.link 3)
     mget false s.cxlLost 3 = false ∧ windowsOf s 3 ≠ []) ∧
    (let s := (base.putF (rHpOctCfg (octUid 0)) HpOctCfg.mode 3).putF (rHpOctCfg (octUid 0)) HpOctCfg.xlink 3
     s.getF (rHpOctCfg (octUid 0)) HpOctCfg.mode = 3 ∧ s.getF (rHpOctCfg (octUid 0)) HpOctCfg.width ≠ 2 ∧
       mget false s.cxlLost (s.getF (rHpOctCfg (octUid 0)) HpOctCfg.xlink) = false ∧ mget false ({ s with cxlLost := [(3, true)] }).cxlLost 3 = true) ∧
    (getM (updM base 0 (fun m => { m with resilver := some 5 })) 0).resilver = some 5 := by decide +kernel

/-- A host read under a tag, one without, and a tag in quarantine. -/
def hostReq (tag : Option Nat) : HostReq := ⟨tag, 0, .core 0, 0x1000, 16, 0, 50, [1, 2], none, false, none⟩
def withReqs : State := { updP portState 0 (fun x => { x with reqs := [hostReq (some 5), hostReq none], quar := [⟨9, 7, 0, 0⟩] }) with time := 10 ^ 9 }
theorem witness_host_request :
    (getP withReqs 0).reqs.findIdx? (fun r => r.tag == some 5) = some 0 ∧ (getP withReqs 0).reqs[0]? = some (hostReq (some 5)) ∧
    cplAgrees (hostReq (some 5)) 14 2 14 = true ∧ cplAgrees (hostReq (some 5)) 14 2 1 = true ∧
    overdue withReqs (hostReq (some 5)) = true ∧ overdue { withReqs with time := 50500 } (hostReq (some 5)) = false ∧ 50 * 1000 ≤ withReqs.time ∧
    (getP withReqs 0).quar.find? (fun q => q.tag == 9) = some ⟨9, 7, 0, 0⟩ ∧ 7 ≤ withReqs.time ∧
    (getP withReqs 0).reqs[1]? = some (hostReq none) ∧ 0 + cplTimeoutUs withReqs 0 * 1000 < withReqs.time ∧
    hostPortMode withReqs 0 = true ∧ mget false (getP withReqs 0).busy 0 = false := by decide +kernel
theorem witness_port :
    hostPortMode portState 0 = true ∧ mget false (getP portState 0).busy 7 = false ∧ 7 < (getP portState 0).share ∧
    mget false (getP (updP portState 0 (fun x => { x with busy := [(7, true)] })) 0).busy 7 = true ∧
    ((getP withReqs 0).reqs ≠ [] ∧ (getP withReqs 0).progress + 1000000 ≤ withReqs.time) ∧
    blockUp portState (portUid 0) = true ∧ notHost .baseCamp = true ∧
    (let s := (updP portState 0 (fun x => { x with perst := false })).putF rBcBootStatus BcBootStatus.stage 3
     (getP s 0).perst = false ∧ 3 ≤ s.getF rBcBootStatus BcBootStatus.stage ∧ portLinkUp s 0 = false ∧ widthOk s 0 8 = true) ∧
    (getP (updP portState 0 (fun x => { x with perst := true })) 0).perst = true := by decide +kernel
theorem witness_port_frozen :
    (let s := ((portState.putF (rHpPortStatus (portUid 0)) HpPortStatus.frozen 1).putF (rHpPortStatus (portUid 0)) HpPortStatus.link_up 1).putF
        (rHpPortCtrl (portUid 0)) HpPortCtrl.auto_release 1
     let s := updP s 0 (fun x => { x with autoArmed := true })
     portFrozen s 0 = true ∧ portLinkUp s 0 = true ∧ heldInFabric s 0 = false ∧ (getP s 0).autoArmed = true ∧
       s.getB (rHpPortCtrl (portUid 0)) HpPortCtrl.auto_release = true) := by decide +kernel
theorem witness_function :
    (let s := updP portState 0 (fun x => { x.setFn 0 { x.fn 0 with bme := true, msixEn := true, fmask := false, pba := [(1023, true)], table := [(1023, ⟨0, 0, false⟩)] }
        with cfgReady := true })
     mget false ((getP s 0).fn 0).pba 1023 = true ∧ msixCanSend s 0 0 1023 = true ∧ (getP s 0).cfgReady = true ∧
       ((getP s 0).fn 0).resetting = false) := by decide +kernel

/-! ### The statements about keys, the bridge, the trusted world, management and monitoring -/

/-- A key descriptor of operation `op` with an open key, on the field's key engine; its premises that the model evaluates. Those of the
operations whose keys and points a constant of Config judges rest on that constant. -/
def keyState (d : Desc) : State := updCh (serve [engUid 0 true 0] base) 4096 (fun c => { c with state := 2, flight := [d] })
def keyDesc (op n : Nat) : Desc :=
  { desc op 0 0 0 with words := [setFld 0 Desc.opcode op, 0x3000, 0x4000, BitVec.ofNat 64 (n + 64 * 2 ^ 32), setFld 0 ⟨63, 63⟩ 1, 0x5000, 0, 0] }
def keyMeets (op n : Nat) : Bool :=
  let d := keyDesc op n
  let s := keyState d
  running? s 4096 0 op == some d && !noEngine s 4096 d && (keyBefore d).isNone &&
    holds (withUnit s 4096 d) (fun y => holds (slotKeys y.1 4096 d) (fun k =>
      let d' := { d with keys := some k }
      goes (gather (updDesc (keepOpen y.1 4096 d) 4096 0 (fun x => { x with keys := some k })) 4096 d' y.2
        ([(d.num 1, kSrcLen d)] ++ (if kOpen d ∧ d.op ≠ 0x68 then [(d.num 5, openLen d)] else []))) (fun z => holds z.2 (fun bs =>
          !publicBad d' (bs.drop (kSrcLen d)) (bs.take (kSrcLen d)) true && !keyRefused d' (bs.drop (kSrcLen d)) (bs.take (kSrcLen d))))))
theorem witness_key_operation :
    keyMeets 0x40 16 = true ∧ keyMeets 0x41 16 = true ∧ keyMeets 0x44 0 = true := by decide +kernel
theorem witness_key_end :
    (let d := { keyDesc 0x40 16 with stage := 3, outs := [1, 2] }
     let s := keyState d
     descAt s 4096 0 = some d ∧ isKeyOp d.op = true ∧ holds (withUnit s 4096 d) (fun y =>
       goes (scatter y.1 4096 y.2 none [(d.num 2, d.outs.length)] d.outs) (fun _ => true)) = true) := by decide +kernel

/-- A thread of the active trusted group: tile 0's core 0 in the trusted world. -/
def trustedState : State :=
  let s := serve [uidVault, engUid 0 true 0] (base.putB (rBcVcoreMap 0) BcVcoreMap.world true)
  { (s.putF rVltTwStatus VltTwStatus.act_now 0) with vault := { s.vault with active := true } }
theorem witness_engine :
    (let u := engUid 0 true 1
     let s := (putSt u 7 base).putF (rUnitState u) UnitState.cause 4
     bcUp s = true ∧ stateOf s u = usFailed ∧ s.getF (rUnitState u) UnitState.cause = 0x04 ∧ serving s (esUid 0) = true ∧ s.mgmt.engRestart.contains u = false) ∧
    (let u := engUid 0 true 1
     let s := putSt u 3 base
     let s := { s with mgmt := { s.mgmt with engRestart := [u] } }
     stateOf s u = usStarting ∧ s.mgmt.engRestart.contains u = true ∧ holdersUp s u = true) ∧
    mayUcode trustedState (.thread 0) (engUid 0 true 0) = true ∧ (getU trustedState (engUid 0 true 0)).pending = none ∧
    (let v := setFld (setFld 0 KeUcodeCtrl.commit 1) KeUcodeCtrl.len_words 8192
     fldB v KeUcodeCtrl.commit = true ∧ fldB v KeUcodeCtrl.discard = false ∧ fld v KeUcodeCtrl.len_words = 8192) ∧
    (getU (updU base (engUid 0 true 0) (fun x => { x with check := true })) (engUid 0 true 0)).check = true ∧
    (let s := updU base (engUid 0 true 0) (fun x => { x with pending := some [] })
     (getU s (engUid 0 true 0)).pending = some [] ∧ engBusy s (engUid 0 true 0) = false) := by decide +kernel

/-- Bridge port 0 up, on lane 0. -/
def netState : State :=
  let s := serve [ioUid 0, octUid 0] base
  let s := (s.putF (rHpOctCfg (octUid 0)) HpOctCfg.mode 2).putF (rNetOctLanes (octUid 0)) ⟨3, 0⟩ 1
  (s.putF (rPortCfg 0) NetPortCfg.en 1).putF (rPortStatus 0) NetPortStatus.link_up 1
def frame (out : Nat) : Frame × Nat := (⟨0, List.replicate 60 0, 1, 3, false, false, 5, 0, 0, false⟩, out)
theorem witness_fdb :
    (let s := { netState with bridge := { netState.bridge with learns := [(9, 0)], changes := [(0, [⟨9, none, true⟩])] } }
     s.bridge.learns = (9, 0) :: [] ∧ masterUp s = true ∧ mfind s.bridge.fdb 9 = none ∧ s.bridge.fdb.length < 262144 ∧
       mget [] s.bridge.changes 0 = ⟨9, none, true⟩ :: []) ∧
    (let s := { netState.putF rNetBrCfg NetBrCfg.age_s 1 with bridge := { netState.bridge with fdb := [(fdbKey 1 2, ⟨0, false, 0, 0, 0, false⟩)] }, time := 1000000000 }
     (mfind s.bridge.fdb (fdbKey 1 2)).isSome = true ∧ masterUp s = true ∧ s.getF rNetBrCfg NetBrCfg.age_s ≠ 0 ∧
       0 + s.getF rNetBrCfg NetBrCfg.age_s * 1000000000 ≤ s.time) ∧
    fdbMay netState .baseCamp = true ∧ fldB 0 NetFdbCmd.refused = false ∧ netState.getB rNetFdbCmd NetFdbCmd.busy = false ∧
    (let s := { netState with bridge := { netState.bridge with lost := true } }
     s.bridge.lost = true ∧ stateOf s (esUid 0) = usInService) := by decide +kernel
theorem witness_bridge_port :
    portUp netState 0 = true ∧
    (let s := netState.putF (rPortCfg 0) NetPortCfg.pause_en 1
     portCfg (netCount s 0 8 1) 0 NetPortCfg.pause_en = 1 ∧ portCfg (netCount s 0 8 1) 0 NetPortCfg.pfc_mask = 0) ∧
    (let s := { netState with bridge := { netState.bridge with queue := [frame 0] } }
     nextFrame s 0 (fun i => (mfind (getNet s 0).stopped i).isNone) = some (frame 0).1) ∧
    (let s := updNet netState 0 (fun x => { x with xoff := [7], stopped := [(7, 5)] })
     (getNet s 0).xoff.contains 7 = true ∧ heldFor s 0 7 < 80 * 1024 ∧ heldBack s 0 7 = false ∧ mfind (getNet s 0).stopped 7 = some 5 ∧ 5 ≤ ({ s with time := 5 }).time) ∧
    netLane netState 0 = some 0 ∧ (0 / 1000 + 1) * 1000 ≤ ({ netState with time := 1000 }).time ∧
    portStat netState 0 NetPortStatus.link_up ≠ 0 ∧ blockUp netState (ioUid (stopOfNet netState 0)) = true ∧
    (let s := netState.putF (rPortStatus 0) NetPortStatus.holding 1
     portHolding s 0 = true ∧ (getNet s 0).holdAt ≤ s.time) := by decide +kernel

/-- Virtual port 0 with its transmit channel 4,096 and receive channel 4,097. -/
def vpState (d : Desc) : State :=
  let s := netState.putR (rNetVport0 0) (setFld (setFld (setFld 0 NetVport0.en 1) NetVport0.tx_chan 4096) NetVport0.rx_chan 4097)
  let s := updCh s 4096 (fun c => { c with state := 2, flight := [d] })
  updCh s 4097 (fun c => { c with state := 2, subTail := 3, words := [setFld 0 ChControl.kinds 8, setFld 0 ChRing.log2 4, setFld 0 ChRing.log2 4]
                                  fetch := [.ready [setFld 0 Desc.opcode 0x91, 0x3000, 0, 0, 0, 0, 0, 0]] })
theorem witness_transmit :
    (let d := desc 0x90 0x3000 0 60
     let s := vpState d
     vportsOf s 4096 false = 0 :: [] ∧ esRuns s (servingEs s 4096) = true ∧ running? s 4096 0 0x90 = some d ∧
       txLength (fld (d.word 3) ⟨13, 0⟩) = true ∧ wraps (d.num 1) 60 = false ∧
       goes (gather s 4096 d (chUid 0) [(d.num 1, 60)]) (fun r => r.2.isSome) = true) := by decide +kernel
theorem witness_transmit_list :
    (let d := desc 0x92 0x3000 0 (setFld 0 ⟨47, 32⟩ 1)
     let s := writeBytes (vpState d) 0x3000 (toBytes 8 0x4000 ++ toBytes 4 60)
     running? s 4096 0 0x92 = some d ∧ dEntries d = 1 ∧ wraps (d.num 1) 16 = false ∧
       goes (gather s 4096 d (chUid 0) [(d.num 1, 16)]) (fun r => holds r.2 (fun bs =>
         (listEntries bs 1).all entryGood && !(listEntries bs 1).any (fun e => wraps e.1 e.2.1) &&
           txLength (((listEntries bs 1).map (fun e => e.2.1)).foldl (· + ·) 0))) = true) ∧
    (let d := { desc 0x92 0x3000 0 0 with list := [(0x4000, 60)] }
     goes (gather (vpState d) 4096 d (chUid 0) d.list) (fun r => r.2.isSome) = true) := by decide +kernel
theorem witness_receive :
    (let s := { vpState (desc 0 0 0 0) with bridge := { netState.bridge with queue := [frame 64] } }
     running? s 4097 0 0x91 = none ∧ vportsOf s 4097 true ≠ [] ∧ rxOpen s 4097 = true ∧
       (0 + (getCh s 4097).subSize - (getCh s 4097).subHead) % (getCh s 4097).subSize < (getCh s 4097).waitingSlots ∧
       vpB s 0 NetVport0.en = true ∧ nextFrame s 64 (fun _ => true) = some (frame 64).1 ∧ rxOpen (fetchUpTo 1 1 s 4097) 4097 = true ∧
       1 ≤ (freeBuffers (getCh (fetchUpTo 1 1 s 4097) 4097)).length ∧ 1 ≤ (getCh (fetchUpTo 1 1 s 4097) 4097).cplFree) ∧
    (let s := { (vpState (desc 0 0 0 0)).putF (rNetVport0 0) NetVport0.pfc_mask 8 with bridge := { netState.bridge with queue := [frame 64] }, time := 100000000 }
     s.bridge.queue.find? (fun e => e.2 == 64 && losslessAt s 64 e.1.pcp && decide (e.1.since + 100000000 ≤ s.time)) = some (frame 64)) := by
  decide +kernel

/-- TrustedWorldCompletes: a switch that nothing forbids and its end, the vault's commands, a failed group and its restart. -/
theorem witness_world_switch :
    (let v := setFld (setFld 0 VltWorldCmd.go 1) VltWorldCmd.to_world 1
     let s := serve [uidVault] base
     blockUp s uidVault = true ∧ fldB v VltWorldCmd.refused = false ∧ fldB v VltWorldCmd.go = true ∧
       switchReason s (trusted s 0) (fld v VltWorldCmd.vcore) (fldB v VltWorldCmd.to_world) = none) ∧
    (let s := { base with vault := { base.vault with sw := some (0, true) } }
     s.vault.sw = some (0, true) ∧ [0, 1].any (fun n => (getT s (tidOf n)).hostWait.isSome) = false) := by decide +kernel
theorem witness_vault :
    mayVault trustedState (.thread 0) = true ∧ blockUp trustedState uidVault = true ∧
    trustedState.getR (rVltCounter 15) ≠ 0xFFFFFFFFFFFFFFFF ∧ (base.vault.vbat = true ∨ base.board.pwrgdStby = true ∨ 2000 ≤ base.vault.hold) := by
  decide +kernel
theorem witness_trusted_group :
    (let s := { trustedState with time := 300000 }
     s.vault.active = true ∧ bcUp s = true ∧ s.vault.activeFailed = false ∧ s.vault.lastBeat + beatLimit s ≤ s.time) ∧
    (let s := putSt (coreUid 1) 7 trustedState
     groupLost s (trustedTiles s) = true) ∧
    (let s := serve [tileUid 1, tileFabUid 1, coreUid 2, coreUid 3, tileUid 2, tileFabUid 2] trustedState
     let s := ((putSt (coreUid 4) 7 s).putF rVltTwStatus VltTwStatus.stby_now 2).putF rVltTwStatus VltTwStatus.stby_state 2
     s.time < s.vault.lastBeat + beatLimit s ∧ groupLost s (trustedTiles s) = false ∧ s.getF rVltTwStatus VltTwStatus.stby_state = 2 ∧
       groupLost s (standbyTiles s) = true) ∧
    (let s := (trustedState.putF rVltTwStatus VltTwStatus.stby_state 0)
     let s := { s with vault := { s.vault with activeFailed := true } }
     s.getF rVltTwStatus VltTwStatus.stby_state = 0 ∧ s.vault.activeFailed = true) ∧
    (trustedState.putF rVltTwStatus VltTwStatus.stby_state 1).getF rVltTwStatus VltTwStatus.stby_state = 1 := by decide +kernel

/-- KeySlotCompletes: the vault idle, the type valid, with the master key and without it. -/
theorem witness_key_slot :
    (let s := { trustedState with vault := { trustedState.vault with mkValid := true, busyTill := 0 } }
     let s := s.putB rVltWatermark VltWatermark.valid true
     s.vault.busyTill ≤ s.time ∧ fldB 0 VltSlotCmd.refused = false ∧ slotTypes.contains 1 = true ∧ s.vault.mkValid = true ∧
       s.getB rVltDbgEn VltDbgEn.sec_inv = false ∧ (secureBuffer s (slotAddr s) (slotKeyLen 1)).isSome = true ∧
       slotKeyBad 1 (readBytes s (slotAddr s) (slotKeyLen 1)) = false) ∧
    ({ trustedState with vault := { trustedState.vault with mkValid := false } }).vault.mkValid = false := by decide +kernel

/-- BaseCampCompletes: the active core and its standby. -/
def pairState : State := { base with mgmt := { base.mgmt with bcA := .active, bcB := .standby } }
theorem witness_base_camp :
    bcUp pairState = true ∧ bcUp (configEval pairState) = true ∧ pairState.mgmt.lastBeat + 100000 ≤ ({ pairState with time := 100000 }).time ∧
    pairState.mgmt.core (!activeB pairState) = .standby ∧
    (let s := { base with mgmt := { base.mgmt with bcB := .fenced } }
     s.mgmt.core (!activeB s) = .fenced) ∧ pairState.mgmt.caps = [] ∧ ({ pairState with mgmt := { pairState.mgmt with caps := [(0, 9)] } }).mgmt.caps ≠ [] ∧
    ({ pairState with board := { pairState.board with pwrBrake := true } }).board.pwrBrake = true ∧ pairState.board.pwrBrake = false ∧
    bcUp (configEval (setFlash pairState true (fun f => { f with reads := false }))) = true := by
  decide +kernel
def logRec : LogRec := ⟨0, 0, 0, 0, 0, false, 0, false, 0, 0, 0, 0, 0⟩
def logState : State :=
  let s := base.putR rBcLogRing (setFld (setFld 0 BcLogRing.en 1) PmSampleRing.base 1)
  { s with log := { s.log with next := 1, records := [logRec], ringNext := 0, flashNext := 0 }
           mgmt := { s.mgmt with running := some { image with logRegion := true } } }
theorem witness_log :
    fldB (logState.getR rBcLogRing) BcLogRing.en = true ∧ logState.log.ringNext < logState.log.next ∧
    ringSecure logState (logState.getR rBcLogRing) 64 = false ∧ recordOf logState logState.log.ringNext = some logRec ∧
    (fld (logState.getR rBcLogPtr) BcLogPtr.tail + 1) % ringSize (logState.getR rBcLogRing) ≠ fld (logState.getR rBcLogPtr) BcLogPtr.head ∧
    logState.log.flashNext < logState.log.next ∧ recordOf logState logState.log.flashNext = some logRec ∧
    logState.log.flash.length < 262144 := by decide +kernel
theorem witness_flash :
    (let s := (pairState.putF rBcBootStatus BcBootStatus.stage 7)
     let fa : Flash := { s.mgmt.flashA with reads := true, image := some image }
     let fb : Flash := { s.mgmt.flashB with reads := true, image := none }
     let s := { s with mgmt := { s.mgmt with running := some image, update := .none, flashA := fa, flashB := fb } }
     servicesUp s = true ∧ updating s = false ∧ flashValid s s.mgmt.flashB = false ∧ flashValid s s.mgmt.flashA = true ∧ s.mgmt.update = .none) := by
  decide +kernel

/-- ManagementRequestCompletes: the transports served, and a token for the nonce drawn. -/
def token : List Byte :=
  toBytes 8 tokenMagic ++ toBytes 2 1 ++ [0, 0] ++ List.replicate 12 0 ++ toBytes 8 (base.getF rBcFuseId BcFuseId.serial) ++ List.replicate 32 7
theorem witness_request :
    served base .i3c = true ∧
    (let s := (portState.putF (rHpPortStatus (portUid 0)) HpPortStatus.link_up 1)
     served s (.vdm 0) = true) ∧
    mfind ({ base with mgmt := { base.mgmt with sensors := [(5, 1, 2, 3)] } }).mgmt.sensors 5 = some (1, 2, 3) ∧
    (coreUid 0) ≠ uidDevice ∧
    tokenOk { base with mgmt := { base.mgmt with nonce := some (List.replicate 32 7) } } token true true = true ∧
    (let s := { base with mgmt := { base.mgmt with tokenEnd := some 5 }, time := 5 }
     s.mgmt.tokenEnd = some 5 ∧ 5 ≤ s.time) := by decide +kernel

/-- UpdateCompletes: the pair in order and an image it accepts, an applied one, a staged component. -/
theorem witness_update :
    (let s := { pairState with mgmt := { pairState.mgmt with running := some image, update := .none } }
     let s := setFlash s false (fun f => { f with reads := true, image := some image })
     served s .i3c = true ∧ flashValid s s.mgmt.flashA = true ∧ imageOk s image = true ∧ bcPair s = true ∧ image.accepts ≤ runVersion s ∧ s.mgmt.update = .none ∧
       [s.mgmt.patch].contains s.mgmt.patch = true) ∧
    (let s := { pairState with mgmt := { pairState.mgmt with update := .firmware image, loadedAt := 0 } }
     s.mgmt.update = .firmware image ∧ s.time < s.mgmt.loadedAt + 60000000000) ∧
    (let s := trustedState.putR rBcTwStage (setFld (setFld 0 BcTwStage.valid 1) BcTwStage.addr 0x10)
     fldB (s.getR rBcTwStage) BcTwStage.valid = true ∧ (linesOf 0x10000 4).any (fun l => isSecure s (l * 64) || physClass s (l * 64) != .dram) = false ∧
       lowestThread s (trustedTiles s) = some 0) ∧
    (let s := { base with mgmt := { base.mgmt with update := .trusted 3 1 0, twOutcome := some 0 }, time := 60000000000 }
     s.mgmt.update = .trusted 3 1 0 ∧ s.mgmt.twOutcome = some 0 ∧ 0 + 60000000000 ≤ s.time) := by decide +kernel

/-- UnitRequestCompletes: requests that change the unit's word. -/
theorem witness_unit_request :
    (let u := coreUid 9
     let s := putSt u 1 base
     served s .i3c = true ∧ isStateUnit u = true ∧ s.getF (rUnitState u) UnitState.seq = (0 : BitVec 8).toNat ∧
       (configEval (askUnit s u .start)).getR (rUnitState u) ≠ s.getR (rUnitState u)) ∧
    (let s := putSt (coreUid 9) 2 (putSt (tileUid 4) 2 base)
     stateOf s (coreUid 9) = usBivouac ∧ s.mgmt.reserved.contains 9 = false ∧
       (configEval (setUnit (setUnit s (tileUid 4) usStarting 0x01) (coreUid 9) usStarting 0x01)).getR (rUnitState (coreUid 9)) ≠
         s.getR (rUnitState (coreUid 9))) ∧
    (let s := putSt (coreUid 9) 4 base
     stateOf s (coreUid 9) = usInService ∧ vcoreOfCore s 9 = none ∧
       (configEval (setUnit (setUnit (gateCore (emptyCaches (setUnit s (coreUid 9) usDraining 0x01) 9) 9) (coreUid 9) usOff 0x03) (coreUid 9) usBivouac 0x01)).getR
         (rUnitState (coreUid 9)) ≠ s.getR (rUnitState (coreUid 9))) := by decide +kernel
theorem witness_unit_request_more :
    (let s := putSt (coreUid 8) 1 (putSt (coreUid 9) 1 (putSt (tileUid 4) 1 base))
     stateOf s (tileUid 4) = usOff ∧ stateOf s (coreUid 8) = usOff ∧ stateOf s (coreUid 9) = usOff ∧
       (configEval ([tileUid 4, coreUid 8, coreUid 9].foldl (fun s u => setUnit s u usBivouac 0x01) s)).getR (rUnitState (tileUid 4)) ≠
         s.getR (rUnitState (tileUid 4))) ∧
    (let s := { base with mgmt := { base.mgmt with appends := [(coreUid 9, true, 0)] } }
     s.mgmt.appends = (coreUid 9, true, 0) :: []) ∧
    (let s := putSt (coreUid 9) 6 base
     s.getF (rUnitState (coreUid 9)) UnitState.state = usWithdrawn) ∧
    (let s := (putSt (mcUid 3) 7 base).putF (rUnitState (mcUid 3)) UnitState.cause 6
     stateOf s (mcUid 3) = usFailed ∧ restartAllowed s (mcUid 3) = true ∧
       (getM s 3).gone.length + (if (getM s 3).spareOf.isEmpty then 0 else 1) < (getM s 3).ranks.length + (getM s 3).spareOf.length) := by
  decide +kernel

/-- MonitorDebugCompletes: windows of each kind of block, a sample and a trace record admitted, pins. -/
theorem witness_window :
    (let s := { base.putF (rPmWin (coreUid 0 + 1)) PmWin.windowed 1 with time := 10 ^ 9 }
     unitKind (coreUid 0) = .core 0 ∧ atWindow s (coreUid 0) (s.getR (rPmWin (coreUid 0 + 1))) = true) ∧
    (let s := { base.putF (rPmUwin (ssUid 0 + 2)) PmWin.windowed 1 with time := 10 ^ 9 }
     unitKind (ssUid 0) = .service 0 ∧ atWindow s (ssUid 0) (s.getR (rPmUwin (ssUid 0 + 2))) = true) ∧
    (let a := (mcUid 0 + 2) * 0x100000 + 0xC0
     let s := { base.putF a PmWin.windowed 1 with time := 10 ^ 9 }
     unitKind (mcUid 0) = .mem 0 ∧ atWindow s (mcUid 0) (s.getR a) = true) ∧
    (let a := (ioUid 0 + 2) * 0x100000 + 0xC0
     let s := { base.putF a PmWin.windowed 1 with time := 10 ^ 9 }
     unitKind (ioUid 0) = .io 0 ∧ atWindow s (ioUid 0) (s.getR a) = true) := by decide +kernel
theorem witness_sample :
    (let u := coreUid 0 + 1
     let s := (base.putR (rPmSampleCfg u) (setFld 0 PmSampleCfg.en 1)).putR (rPmSampleRing u) (setFld (setFld 0 PmSampleRing.en 1) PmSampleRing.base 1)
     fldB (s.getR (rPmSampleCfg u)) PmSampleCfg.en = true ∧ threadSel s (fld (s.getR (rPmSampleCfg u)) PmSampleCfg.thread) 0 = true ∧
       fldB (s.getR (rPmSampleRing u)) PmSampleRing.en = true ∧ trusted s 0 = false ∧ ringSecure s (s.getR (rPmSampleRing u)) 64 = false ∧
       fldB (s.getR (rPmSampleCfg u)) PmSampleCfg.irq_en = false) ∧
    (let s := ((base.putB rDbgAccess DbgAccess.trace_en true).putB rVltDbgEn VltDbgEn.norm_noninv true).putR rDbgTraceRing
        (setFld (setFld 0 PmSampleRing.en 1) PmSampleRing.base 1)
     let s := (s.putR (rDbgTraceCtrl (coreUid 0 + 2)) (setFld 0 DbgTraceCtrl.en 1)).putB rDbgAccess DbgAccess.obs_en true
     s.getB rDbgAccess DbgAccess.trace_en = true ∧ s.getB rDbgAccess DbgAccess.obs_en = true ∧
       fldB (s.getR (rDbgTraceCtrl (coreUid 0 + 2))) DbgTraceCtrl.en = true ∧ threadSel s 3 0 = true ∧
       threadSel s (fld (s.getR (rDbgTraceCtrl (coreUid 0 + 2))) DbgTraceCtrl.thread) 0 = true ∧ s.getB rVltDbgEn VltDbgEn.norm_noninv = true ∧
       fldB (s.getR rDbgTraceRing) PmSampleRing.en = true ∧ ringSecure s (s.getR rDbgTraceRing) 32 = false) ∧
    (base.board.tapHold = false ∧ base.getF rBcBootStatus BcBootStatus.stage ≤ 2 ∧ base.board.stopped = false) ∧
    ({ base with board := { base.board with tapHold := true } }).board.tapHold = true := by decide +kernel

/-- SpeculationCompletes: a predicted branch, a clear under way, roots with and without an access outstanding. -/
theorem witness_speculation :
    atBoundary base 0 = true ∧ wasPredicted base 0 (.cond true) = true ∧
    (let s := updC (updT base 0 (fun x => { x with clearing := true })) 0 (fun c => { c with clearEnd := 20 })
     (getT s 0).clearing = true ∧ (getC s (coreOf s 0)).clearEnd ≠ 0) ∧
    notHost .baseCamp = true ∧ blockUp unstarted uidBaseCamp = true ∧ (getT base 0).hostWait = none ∧ (getT base 0).replay = [] ∧ (getT base 0).rootReq = [] ∧
    (getT (updT base 0 (fun x => { x with hostWait := some 0 })) 0).hostWait.isSome = true := by decide +kernel
theorem witness_prefetch :
    (let s := updC home 0 (fun c => { c with pages := [(2, false)] })
     coreRuns s 0 = true ∧ (match xlat s (xctx s 0) .load 0x2040 with
       | .ok ⟨x, none⟩ => prefetchable s x && (getC s (coreOf s 0)).pages.contains (x.pa / 4096, false) && !(getC s (coreOf s 0)).pages.contains (x.pa / 4096, true) &&
           (lineOf s (coreOf s 0) (x.pa / 64)).isNone && admits s .normal false x.pa &&
           (mfind (getC s (coreOf s 0)).misses (x.pa / 64)).isNone && homeUp s (x.pa / 64)
       | _ => false) = true ∧ (getD s (sheafOfCore 0)).paused = false ∧ (getD s (sheafOfCore 0)).stopped = false) := by decide +kernel
/-- A first-stage root whose one leaf maps the whole space. -/
def pagedState : State :=
  let s := ra.putR (rBcXlatRoot1 0) (setFld (setFld 0 BcXlatRoot1.en 1) BcXlatRoot1.node 0x10)
  let leaf := [(Leaf.v, 1), (Leaf.leaf, 1), (Leaf.r, 1), (Leaf.w, 1), (Leaf.sz, 27)].foldl (fun w (f, n) => setFld w f n) 0
  writeBytes s 0x10000 (toBytes 8 leaf.toNat)
theorem witness_page_walk :
    coreRuns pagedState 0 = true ∧ capReaches pagedState 0 false 0x2000 1 = true ∧ (usedEntry pagedState 0 0x2000).isNone = true ∧
    (match xlat pagedState (xctxFor pagedState 0 .load) .load 0x2000 with
     | .ok ⟨_, some (e, _)⟩ => (casLeaves (drainLeaves pagedState 0 e) (.core (coreOf pagedState 0)) e Leaf.a).isSome
     | _ => false) = true := by decide +kernel

/-- UnitRequestCompletes: a memory test of a channel with no secure range, one with, and its end. -/
theorem witness_memory_test :
    (let s := (putSt (mcUid 3) 4 base).putF (rMcProt (mcUid 3)) McProt.mode 0
     let r := rVltWatermark
     unitKind (mcUid 3) = .mem 3 ∧ testOk (s.putF r VltWatermark.sec_wm_gib 0) 3 true = true ∧
       secureLimit (s.putF r VltWatermark.sec_wm_gib 0) = 0 ∧ testOk (s.putF r VltWatermark.sec_wm_gib 4) 3 true = true ∧
       secureLimit (s.putF r VltWatermark.sec_wm_gib 4) ≠ 0 ∧ testOk (s.putF (rMcProt (mcUid 3)) McProt.mode 1) 3 false = true) := by
  decide +kernel

/-! ### Well-formed commands: an ill-formed term for each check, and its well-formed neighbour -/

theorem test_wf_limm : (Instr.addi 0 [1, 2, 3, 4] 1 2 3).wf = false ∧ (Instr.addi 0 [1, 2, 3] 1 2 3).wf = true := by decide
theorem test_wf_line : (Instr.rdO 0 (2 ^ 46)).wf = false ∧ (Instr.rdO 0 (2 ^ 46 - 1)).wf = true := by decide
theorem test_wf_part :
    partOk 0 0 = false ∧ partOk 32 33 = false ∧ partOk (2 ^ 52) 1 = false ∧ partOk 32 32 = true := by decide
theorem test_wf_atom : atomOk 4 false = false ∧ atomOk 8 true = false ∧ atomOk (2 ^ 52) false = false ∧ atomOk 16 true = true := by decide

/-! ### Units and identities: the worked example of R14 -/

theorem test_core_2410 : coreUid 130 = 0xA200 ∧ coreOfUid 0xA200 = 130 ∧ rUnitState 0xA200 = 0xA20000000 := by decide +kernel
theorem test_slice_2410 : sliceUid 65 = 0xA281 ∧ stopOfTile 65 = 89 ∧ buddyOf 65 = 17 ∧ stopOfTile 17 = 81 := by decide +kernel
/-- Memory channel 5: the second of field 1 (R13). -/
theorem test_mc_uid : mcUid 5 = 0x7900 := by decide

/-! ### Words and instructions (R97 to R103): words written out from the formats -/

/-- ADD x11, x9, x10 in format REG: opcode 7 bits, rd, ra, rb 5 bits each, fn 10 bits. -/
theorem test_word_reg : decodeWords 0 [0b0000010_01011_01001_01010_0000000000] = some (.add 0 11 9 10) := by decide +kernel
/-- AMO swap at 64 bits (fn bit 7 clear), order 1. -/
theorem test_word_amo : decodeWords 0 [0b1000100_00001_00010_00011_01_0_0001_000] = some (.amoSwap 0 1 2 3 1 false 0) := by decide +kernel
theorem test_word_cap : decodeWords 0 [0b1010000_00001_00010_00011_0000000111] = some (.cxbound 0 1 2 3) := by decide +kernel
/-- ADDI with a negative immediate. -/
theorem test_word_imm : decodeWords 0 [0b0000011_00001_00010_111111111111111] = some (.addi 0 [] 1 2 0x7FFF) := by decide +kernel
/-- CXBOUNDI with one LIMM word. -/
theorem test_word_limm :
    decodeWords 0 [0b0000001_0000000000000000010011000, 0b1010010_00001_00010_100101101000000] =
      some (.cxboundi 0 [0x98] 1 2 0x4B40) := by decide +kernel
/-- ST.V with am 6 and +32, of the ring example after R91. -/
theorem test_word_mem : decodeWords 0 [0b0110110_00100_00001_110_000000100000] = some (.stV 0 4 1 6 32) := by decide +kernel
/-- LDX.W of the bit-reversal example after R91: s = 2, w = 8, m = 0, x = 1. -/
theorem test_word_mix : decodeWords 0 [0b0111010_00001_00010_00011_010_01000_0_1] = some (.ldxW 0 1 2 3 2 8 false true) := by decide +kernel
theorem test_word_branch : decodeWords 0 [0b0011000_00001_00010_111111111111111] = some (.beq 0 1 2 0x7FFF) := by decide +kernel
theorem test_word_jump : decodeWords 0 [0b0100000_0000000000000000000000100] = some (.call 0 4) := by decide +kernel
/-- Opcode 0, a reserved fn of ALU, of FENCE and of TLBI, am 3's neighbour CMO with rd 3, RET with a register, and three LIMM words. -/
theorem test_words_illegal :
    wordsIllegal [0] = true ∧ wordsIllegal [0b0000010_00001_00010_00011_0000010101] = true ∧
    wordsIllegal [0b1000110_00000_00000_00000_0000000101] = true ∧ wordsIllegal [0b1011101_00000_00000_00000_0000000111] = true ∧
    wordsIllegal [0b1001011_00011_00001_000_000000000000] = true ∧ wordsIllegal [0b0100010_00000_00001_00000_0000000000] = true ∧
    wordsIllegal [0b0000001 <<< 25, 0b0000001 <<< 25, 0b0000001 <<< 25] = true ∧
    wordsIllegal [0b0000010_00001_00010_00011_0000010100] = false := by decide +kernel

/-! ### Addressing and capabilities: the worked examples of R91 and R132 -/

/-- The submission ring: the last half of slot 255 wraps the cursor to the base. -/
theorem test_ring_wrap :
    effAddr 6 0x40000000 0x40004000 0x40003F80 32 = some (0x40003F80, some 0x40003FA0) ∧
    effAddr 6 0x40000000 0x40004000 0x40003FE0 32 = some (0x40003FE0, some 0x40000000) := by decide +kernel
/-- The 256-point transform. -/
theorem test_bit_reversed :
    effAddr 3 0x8123400 0x8123800 0x8123400 (indexDisp 6 2 8) = some (0x8123580, none) ∧
    effAddr 3 0x8123400 0x8123800 0x8123400 (indexDisp 255 2 8) = some (0x81237FC, none) ∧
    effAddr 3 0x8123400 0x8123800 0x8123400 (indexDisp 1 2 8) = some (0x8123600, none) := by decide +kernel

/-- The source of R132's example: its bounds cover the range. -/
def l1 : GReg := ⟨capPack 0xA1B 0 47 0 0x1FFFF 0x40123450, true⟩
def l2 : GReg := ⟨capPack 0xA1B 0 6 0x48D1 0x1312D 0x40123450, true⟩
theorem test_bound_fields : setBounds l1 5000000 = some l2 ∧ l2.data.toNat / 2 ^ 64 = 0xA1B0001891A3312D := by decide +kernel
theorem test_bound_fit :
    (fitBounds 0x40123450 5000000).2 = (0x40123440, 0x405E7FC0) ∧ 0x405E7FC0 - 0x40123440 = 5000064 ∧
    boundsExact l1 5000000 = false ∧ boundsOf l2 = (0x40123440, 0x405E7FC0) := by decide +kernel
/-- CXBOUNDX of the request raises 0x14; CXBOUND does not. -/
theorem test_bound_exact :
    (match boundOp false l1 5000000 true false with | .error f => f == 0x14 | .ok _ => false) = true ∧
    goes (boundOp false l1 5000000 false false) (fun g => g == l2) = true := by decide +kernel
/-- The cursors of the example's second table. -/
theorem test_bound_cursor :
    (moveCursor l2 0x405E7FC0).tag = true ∧ (moveCursor l2 0x40123400).tag = false ∧ (moveCursor l2 0x40923440).tag = false := by
  decide +kernel

/-! ### Translation: the 64 KiB page after R238 -/

/-- Four nodes at 0x10000 to 0x13000 and leaves 16 to 31. -/
def paged : State :=
  let s := base.putR (rBcXlatRoot1 0) (setFld (setFld 0 BcXlatRoot1.node (0x10000 / 4096)) BcXlatRoot1.en 1)
  let put (s : State) (a n : Nat) : State := writeBytes s a (toBytes 8 n)
  let s := put (put (put s (0x10000 + 8 * 254) 0x11001) (0x11000 + 8 * 233) 0x12001) (0x12000 + 8 * 225) 0x13001
  (List.range 16).foldl (fun s i => put s (0x13000 + 8 * (16 + i)) 0x100001234567000F) s

theorem test_page_load :
    (match xlate 4 paged 0 .load 0x7F3A5C213468 with
     | .ok (x, s) => x.pa == 0x12345673468 && ofBytes (readBytes s 0x13098 8) == 0x100001234567020F &&
         ofBytes (readBytes s 0x13090 8) == 0x100001234567000F
     | .error _ => false) = true := by decide +kernel

/-! ### Homes, routes and channels: the worked examples of R254, R290 and R313 -/

theorem test_home_index : homeIdx 0x1234567880 = 25 ∧ stopOfTile 25 = 21 ∧ buddyOf 25 = 73 ∧ stopOfTile 73 = 29 := by decide +kernel
theorem test_default_route : defaultRoute 89 1 = 0x0B000000002A5555 := by decide +kernel

/-- Sixteen channels, one mirrored region of 1,024 GiB. -/
def mirroredMap : State :=
  let s := serve ((List.range 16).map mcUid) State.reset
  let s := (List.range 4).foldl (fun (s : State) i => s.putR (rBcChanMap i) 0xFEDCBA9876543210) s
  s.putR (rBcDramRgn 0) (setFld (setFld (setFld 0 BcDramRgn.valid 1) BcDramRgn.mirror 1) BcDramRgn.size 1024)

theorem test_channel_of : primaryChan mirroredMap 0x2468ACE0 = 1 ∧ mirrorChan 1 = 9 := by decide +kernel
theorem test_local_address : localAddr mirroredMap 0x2468ACE0 = 0x48D10E0 := by decide +kernel
/-- Row 291, bank group 2, bank 1, rank 0. -/
theorem test_bank : rowOf mirroredMap 1 0x48D10E0 = 291 ∧ bankOf mirroredMap 1 0x48D10E0 = 2 * 4 + 1 := by decide +kernel

/-! ### Records and checksums -/

/-- The check value of CRC-32C. -/
theorem test_crc32c : crc32c ("123456789".toList.map (fun c => BitVec.ofNat 8 c.toNat)) = 0xE3069283 := by decide +kernel
/-- The words of the sparing record of the example after R463. -/
theorem test_record_words :
    ofBytes ((recHead ⟨0, 0xE8D4A5ED18, 0xA200, 0x11, 1, false, 0, false, 4, 0x0001007EAE00A200, 0, 0, 0⟩).drop 16 |>.take 8) =
      0xA200111004000000 ∧ coreUid 126 ≠ 0xAE00 ∧ 0xA200 + 0xAE00 * 2 ^ 16 + 126 * 2 ^ 32 + 1 * 2 ^ 48 = 0x0001007EAE00A200 := by
  decide +kernel

/-! ### One step each -/

/-- The queue is first in, first out, and a command leaves it. -/
theorem test_step_queue :
    (match step { ra with pending := [.add 0 11 9 10, .sub 0 12 10 9] } with
     | .next s => s.pending == [.sub 0 12 10 9] && (getT s 0).int 11 == 12
     | _ => false) = true := by decide +kernel
/-- Division by zero gives all ones, and the remainder the dividend (R105). -/
theorem test_div_zero : divS 5 0 = 0xFFFFFFFFFFFFFFFF ∧ remS 5 0 = 5 ∧ divS 0x8000000000000000 0xFFFFFFFFFFFFFFFF = 0x8000000000000000 := by
  decide +kernel
/-- A load through an untagged base enters the handler or stops the thread: with no FSTACK the thread stops with reason 1 (R164). -/
theorem test_untagged_stop :
    after (.ldD 0 11 9 0 0) ra (fun y => after (.faultEntry 0 .pending) y (fun z =>
      (getT z 0).run == .stopped && z.getF (rBcThreadStop 0) BcThreadStop.cause == 0x10 &&
      z.getF (rBcThreadStop 0) BcThreadStop.reason == 1)) = true := by decide +kernel
/-- A store and a load back, signed. -/
theorem test_store_load :
    after (.stB 0 9 8 0 5) (withRegs [(8, cap 0x2000), (9, int 0xFF)]) (fun z =>
      after (.ldB 0 11 8 0 5) z (fun y => (getT y 0).int 11 == 0xFFFFFFFFFFFFFFFF)) = true := by decide +kernel
/-- The table gives its rows no bits, so no word spells a command. -/
theorem test_command_word : decodeTableWord 32 0 = none ∧ (State.withFetchWord State.reset 32 0) = State.reset := by decide +kernel

end Sys2Proof.Tests
end

/-! PROOFS. The scope of chapter 0: what a step is, that it always answers a next state in canonical form (O1, O3), and what a write of a
register and an interrupt message do (O35). -/

namespace Sys2Proof.Machine

/-! ### A step (R6) -/

theorem step_of_front {s : State} {c : Instr} {q : List Instr} (h : s.pending = c :: q) : step s = exec c { s with pending := q } := by
  simp only [step, h]

theorem step_of_empty {s : State} (h : s.pending = []) : step s = .next (idleTick s) := by
  simp only [step, h]

/-- Settles O1, by the two cases of the queue. -/
theorem stepRunsTheFrontCommand : Obligations.StepRunsTheFrontCommand :=
  ⟨fun _ _ _ h => step_of_front h, fun _ h => step_of_empty h⟩

/-! ### Every command answers a next state

A command's meaning is `.next` of a state, but for three shapes that choose between two such answers: an instruction that is a report
point, a block instruction (whole, or one element before a root write), and the SYNC that waits. -/

/-- The outcome is a next state, no fault and no refusal. -/
def Answers (o : Host.Outcome State Fault Refusal) : Prop := ∃ z, o = .next z

theorem answers_next (s : State) : Answers (.next s) := ⟨s, rfl⟩

theorem answers_ite {p : Prop} [Decidable p] {a b : Host.Outcome State Fault Refusal} (ha : Answers a) (hb : Answers b) :
    Answers (if p then a else b) := by
  split
  · exact ha
  · exact hb

theorem atReportPoint_answers {s : State} {t : Tid} {run : State → Host.Outcome State Fault Refusal} (h : ∀ u, Answers (run u)) :
    Answers (atReportPoint s t run) :=
  answers_ite (answers_ite (h _) (answers_next _)) (answers_next _)

theorem wrtr_answers (s : State) (t : Tid) (n : Nat) (auth : Bool) (rd ra rb : RegNo) (rsv : BitVec 6)
    (f : State → GReg → R State) : Answers (wrtr s t n auth rd ra rb rsv f) :=
  atReportPoint_answers fun _ => answers_next _

theorem blkInstr_answers (s : State) (t : Tid) (op : BlkOp) (rd ra rb : RegNo) : Answers (blkInstr s t op rd ra rb) :=
  answers_ite (answers_next _) (answers_next _)

theorem execTlbiSync_answers (t : Tid) (rd ra rb : RegNo) (pkg : Bool) (rsv : BitVec 5) (s : State) :
    Answers (execTlbiSync t rd ra rb pkg rsv s) :=
  answers_ite (answers_next _) (answers_next _)

/-- No command stops the block: none faults, and none is refused (R18, R22). -/
theorem exec_answers (c : Instr) (s : State) : Answers (exec c s) := by
  cases c with
  | call | callr | ret | trap | fret | abar =>
    simp only [exec_call, exec_callr, exec_ret, exec_trap, exec_fret, exec_abar]
    exact atReportPoint_answers fun _ => answers_next _
  | wrtrWstack | wrtrFstack | wrtrFgate | wrtrGatetab | wrtrTctrl | wrtrTstatus =>
    simp only [exec_wrtrWstack, exec_wrtrFstack, exec_wrtrFgate, exec_wrtrGatetab, exec_wrtrTctrl, exec_wrtrTstatus]
    exact wrtr_answers ..
  | blkmove | blkfill | blkcmp | crcrange | nttpass =>
    simp only [exec_blkmove, exec_blkfill, exec_blkcmp, exec_crcrange, exec_nttpass]
    exact blkInstr_answers ..
  | tlbiSync => exact execTlbiSync_answers ..
  | _ => exact answers_next _

/-- Taking a command off the queue leaves the sparse data as they are. -/
theorem inv_popped {s : State} (q : List Instr) (h : Inv s) : Inv { s with pending := q } := inv_same h rfl rfl rfl rfl

/-- Settles O3, by the two cases of the queue: a command answers a next state and keeps the canonical form, and so does a nanosecond of
idling. -/
theorem stepKeepsTheInvariant : Obligations.StepKeepsTheInvariant := by
  intro s hs
  cases hq : s.pending with
  | nil => exact ⟨idleTick s, step_of_empty hq, idleTick_keeps s hs⟩
  | cons c q =>
    obtain ⟨z, hz⟩ := exec_answers c { s with pending := q }
    exact ⟨z, (step_of_front hq).trans hz, inv_next hz (exec_keeps c _ (inv_popped q hs))⟩

/-! ### A register after a write, bit by bit (R7) -/

theorem plainValue_getLsbD (s : State) (a : Nat) (x : RegRow) (v : Word) {i : Nat} (hi : i < 64) :
    (plainValue s a x v).getLsbD i =
      ((x.w1s.testBit i && v.getLsbD i) ||
        (!(x.w1c.testBit i && v.getLsbD i) &&
          (if (setMask s a x).getLsbD i then v.getLsbD i else (s.getR a).getLsbD i))) := by
  simp only [plainValue, BitVec.getLsbD_or, BitVec.getLsbD_and, BitVec.getLsbD_not, BitVec.getLsbD_ofNat, hi, decide_true, Bool.true_and]
  cases (setMask s a x).getLsbD i <;> simp [Bool.or_comm, Bool.and_comm]

theorem getR_plainWrite_same (s : State) (a : Nat) (x : RegRow) (v : Word) : (plainWrite s a x v).getR a = plainValue s a x v :=
  getR_putR_same ..

theorem getR_plainWrite_other (s : State) {a b : Nat} (x : RegRow) (v : Word) (h : b ≠ a) : (plainWrite s a x v).getR b = s.getR b :=
  getR_putR_other _ _ h

/-- The low half of a word is replaced by a write of it. -/
theorem halfWord_low_getLsbD (old v : Word) {i : Nat} (hi : i < 32) : (halfWord old v false).getLsbD i = v.getLsbD i := by
  have h1 : (0xFFFFFFFF00000000 : Word).getLsbD i = false := by decide +revert
  have h2 : (0xFFFFFFFF : Word).getLsbD i = true := by decide +revert
  simp only [halfWord, Bool.false_eq_true, if_false, BitVec.getLsbD_or, BitVec.getLsbD_and, h1, h2, Bool.and_false, Bool.and_true,
    Bool.false_or]

/-! ### Where a write of control space goes (R19 to R22) -/

theorem lt_of_isStateUnit {u : Nat} (h : isStateUnit u = true) : u < 0x10000 := by
  unfold isStateUnit at h
  split at h
  · cases h
  · simp only [Bool.and_eq_true, decide_eq_true_eq] at h
    exact h.2

theorem lt_of_unitKind_ne_other {u : Nat} (h : unitKind u ≠ .other) : u < 0x10000 := by
  by_cases hs : isStateUnit u = true
  · exact lt_of_isStateUnit hs
  · exact absurd (by simp [unitKind, hs]) h

section Route
variable {s : State} {r : Requester} {a u : Nat} {x : RegRow}

/-- A block other than base camp's resolves to itself: only base camp's holds the counters by virtual core (R507). -/
theorem resolveCtrl_of_ne (hau : a / 0x100000 = u) (hb : u ≠ uidBaseCamp) : resolveCtrl s a = some a := by
  simp [resolveCtrl, hau, hb]

/-- An 8-byte write of a requester its row admits, to a block that answers. -/
theorem ctrlWriteWord_wide (hi : Bool) (v : Word) (hau : a / 0x100000 = u) (ha : a < 0x1000000000) (hb : u ≠ uidBaseCamp)
    (hu : blockUp s u = true) (hx : regRow a = some x) (ho : ownerOk s r x = true) :
    ctrlWriteWord s r a true hi v = ctrlApply s r a true x v := by
  simp [ctrlWriteWord, resolveCtrl_of_ne hau hb, Nat.not_le.2 ha, hau, hu, hx, ho, expand]

/-- A 4-byte write of the low half, of a register that is no channel's command and holds its value: an 8-byte write of the bytes written
and the writable bits of the other half as they are (R20). -/
theorem ctrlWriteWord_low (v : Word) (hau : a / 0x100000 = u) (ha : a < 0x1000000000) (hb : u ≠ uidBaseCamp)
    (hu : blockUp s u = true) (hx : regRow a = some x) (ho : ownerOk s r x = true)
    (hc : ∀ f, arrIdx a (rChCmd (chUid f) 0) 8 8192 = none) (hs : soonHeld s a = s.getR a) :
    ctrlWriteWord s r a false false v =
      ctrlApply s r a false x (halfWord (s.getR a &&& (BitVec.ofNat 64 x.rw ||| BitVec.ofNat 64 x.rwl)) v false) := by
  simp [ctrlWriteWord, resolveCtrl_of_ne hau hb, Nat.not_le.2 ha, hau, hu, hx, ho, hc, hs, expand]

theorem ctrlWriteWord_of_down (wide hi : Bool) (v : Word) (hau : a / 0x100000 = u) (hb : u ≠ uidBaseCamp) (hu : blockUp s u = false) :
    ctrlWriteWord s r a wide hi v = s := by
  simp [ctrlWriteWord, resolveCtrl_of_ne hau hb, hau, hu]

/-- An address in the block of a core, a sheaf or a slice, at none of its registers whose write does more (R58, R208, R249). -/
def PlainPlace (u a : Nat) : Prop :=
  (∃ k, unitKind u = .core k ∧ a ≠ rCoreCheckInject u ∧ a ≠ rCoreCacheWays u) ∨
    (∃ h, unitKind u = .sheaf h ∧ a ≠ rShfBcLimits u) ∨ (∃ i, unitKind u = .slice i ∧ a ≠ rTileL3Ways u)

theorem PlainPlace.lt (h : PlainPlace u a) : u < 0x10000 := by
  apply lt_of_unitKind_ne_other
  rcases h with ⟨k, hk, -⟩ | ⟨h, hk, -⟩ | ⟨i, hk, -⟩ <;> simp [hk]

/-- A write at a plain place applies the access codes of the register and does nothing else. -/
theorem ctrlApply_plain (wide : Bool) (v : Word) (hau : a / 0x100000 = u) (hb : u ≠ uidBaseCamp) (hv : u ≠ uidVault)
    (hk : PlainPlace u a) :
    ctrlApply s r a wide x v = plainWrite s a x v := by
  subst hau
  rcases hk with ⟨k, hk, h1, h2⟩ | ⟨h, hk, h1⟩ | ⟨i, hk, h1⟩
  · simp only [ctrlApply, if_neg hb, if_neg hv, hk, if_neg h1, if_neg h2]
  · simp only [ctrlApply, if_neg hb, if_neg hv, hk, if_neg h1]
  · simp only [ctrlApply, if_neg hb, if_neg hv, hk, if_neg h1]

end Route

theorem ctrlWrite_of_notHost (s : State) {r : Requester} (h : notHost r = true) (a : Nat) (wide : Bool) (v : Word) :
    ctrlWrite s r a wide v = ctrlWriteWord s r (a / 8 * 8) wide (!wide && a % 8 == 4) v := by
  cases r with
  | baseCamp | thread => rfl
  | host => cases h

/-- The BARs of a host lie above control space (R340). -/
theorem hostCtrlWrite_of_below (s : State) (p i : Nat) {a : Nat} (ha : a < 0x1000000000) (wide hi : Bool) (v : Word) :
    hostCtrlWrite s p i a wide hi v = s := by
  have h0 : ¬ bar0Base p i ≤ a := by unfold bar0Base; omega
  have h2 : ¬ bar2Base p i ≤ a := by unfold bar2Base; omega
  have h4 : ¬ bar4Base p ≤ a := by unfold bar4Base; omega
  simp [hostCtrlWrite, h0, h2, h4]

/-! ### CORE_PACE_REQ, whose writes may be of 4 bytes (R55) -/

/-- The row of CORE_PACE_REQ: a rate of ten writable bits, of any requester. -/
def corePaceReqRow : RegRow := ⟨0x100, [], 0x0, 0x3FF, 0x0, 0x0, 0x0, 0x0, none, .open_, 0x0, 0x3FF⟩

theorem coreUid_bits (k : Fin 192) : coreUid k % 0x100 = 0 ∧ coreUid k / 0x800 % 8 < 6 ∧ coreUid k < 0x10000 := by
  unfold coreUid tileBits
  omega

theorem blockRows_coreUid (k : Fin 192) : blockRows (coreUid k) = regsAnyState ++ regsCore := by
  obtain ⟨hsub, hsheaf, _⟩ := coreUid_bits k
  have h7 : coreUid k / 0x800 % 8 ≠ 7 := by omega
  have h6 : coreUid k / 0x800 % 8 ≠ 6 := by omega
  simp only [blockRows, hsub, if_neg h7, if_neg h6, if_true]

theorem unitKind_coreUid (k : Fin 192) : unitKind (coreUid k) = .core (coreOfUid (coreUid k)) := by
  obtain ⟨hsub, hsheaf, hlt⟩ := coreUid_bits k
  have h7 : coreUid k / 0x800 % 8 ≠ 7 := by omega
  have hs : isStateUnit (coreUid k) = true := by simp [isStateUnit, blockRows_coreUid, regsAnyState, hlt]
  simp [unitKind, hs, hsub, h7]

theorem rCorePaceReq_unit (k : Fin 192) : rCorePaceReq (coreUid k) / 0x100000 = coreUid k := by
  unfold rCorePaceReq
  omega

theorem rCorePaceReq_lt (k : Fin 192) : rCorePaceReq (coreUid k) < 0x1000000000 := by
  obtain ⟨-, -, hlt⟩ := coreUid_bits k
  unfold rCorePaceReq
  omega

theorem rCorePaceReq_aligned (u : Nat) : rCorePaceReq u % 8 = 0 := by
  unfold rCorePaceReq
  omega

theorem regRow_rCorePaceReq (k : Fin 192) : regRow (rCorePaceReq (coreUid k)) = some corePaceReqRow := by
  have ho : rCorePaceReq (coreUid k) / 8 * 8 % 0x100000 = 0x100 := by
    unfold rCorePaceReq
    omega
  rw [regRow, if_pos (rCorePaceReq_lt k), rCorePaceReq_unit, blockRows_coreUid, ho]
  rfl

theorem arrIdx_eq_none {a base st n : Nat} (hst : 0 < st) (h : a < base ∨ base + n * st ≤ a) : arrIdx a base st n = none := by
  refine if_neg ?_
  rintro ⟨hle, -, hlt⟩
  rw [Nat.div_lt_iff_lt_mul hst] at hlt
  omega

/-- A register of a core's block is no channel's command register (R367). -/
theorem arrIdx_chCmd_of_core (k : Fin 192) (f : Nat) : arrIdx (rCorePaceReq (coreUid k)) (rChCmd (chUid f) 0) 8 8192 = none := by
  obtain ⟨hsub, -, -⟩ := coreUid_bits k
  refine arrIdx_eq_none (by decide) ?_
  simp only [rCorePaceReq, rChCmd, chUid, esUid]
  omega

/-- Writes wait for translation roots and training values alone (R222, R319): a register of a core's block reads what it holds. -/
theorem soonHeld_of_core (s : State) {a c : Nat} (h1 : arrIdx a (rBcXlatRoot1 0) 32 384 = none)
    (h2 : arrIdx a (rBcXlatRoot2 0) 32 384 = none) (hk : unitKind (a / 0x100000) = .core c) : soonHeld s a = s.getR a := by
  simp only [soonHeld, h1, h2, hk, Option.getD_none]

theorem soonHeld_rCorePaceReq (s : State) (k : Fin 192) :
    soonHeld s (rCorePaceReq (coreUid k)) = s.getR (rCorePaceReq (coreUid k)) := by
  obtain ⟨hsub, -, -⟩ := coreUid_bits k
  have h1 : arrIdx (rCorePaceReq (coreUid k)) (rBcXlatRoot1 0) 32 384 = none :=
    arrIdx_eq_none (by decide) (by simp only [rCorePaceReq, rBcXlatRoot1]; omega)
  have h2 : arrIdx (rCorePaceReq (coreUid k)) (rBcXlatRoot2 0) 32 384 = none :=
    arrIdx_eq_none (by decide) (by simp only [rCorePaceReq, rBcXlatRoot2]; omega)
  exact soonHeld_of_core s h1 h2 (by rw [rCorePaceReq_unit, unitKind_coreUid])

/-- A 4-byte write of CORE_PACE_REQ applies its access codes. -/
theorem ctrlWriteWord_rCorePaceReq (s : State) {r : Requester} (hr : notHost r = true) (k : Fin 192) (hu : blockUp s (coreUid k) = true)
    (v : Word) :
    ctrlWriteWord s r (rCorePaceReq (coreUid k)) false false v =
      plainWrite s (rCorePaceReq (coreUid k)) corePaceReqRow (halfWord (s.getR (rCorePaceReq (coreUid k)) &&& 0x3FF) v false) := by
  obtain ⟨hsub, -, -⟩ := coreUid_bits k
  have hb : coreUid k ≠ uidBaseCamp := by unfold uidBaseCamp; omega
  have hv : coreUid k ≠ uidVault := by unfold uidVault; omega
  have hi : rCorePaceReq (coreUid k) ≠ rCoreCheckInject (coreUid k) := by unfold rCorePaceReq rCoreCheckInject; omega
  have hw : rCorePaceReq (coreUid k) ≠ rCoreCacheWays (coreUid k) := by unfold rCorePaceReq rCoreCacheWays; omega
  rw [ctrlWriteWord_low v (rCorePaceReq_unit k) (rCorePaceReq_lt k) hb hu (regRow_rCorePaceReq k) hr (arrIdx_chCmd_of_core k)
    (soonHeld_rCorePaceReq s k)]
  exact ctrlApply_plain false _ (rCorePaceReq_unit k) hb hv (.inl ⟨_, unitKind_coreUid k, hi, hw⟩)

/-- The rate reads as it was written. -/
theorem fld_plainValue_corePaceReq (s : State) (a : Nat) (old v : Word) :
    fld (plainValue s a corePaceReqRow (halfWord old v false)) CorePaceReq.req_rate = fld v CorePaceReq.req_rate := by
  apply Nat.eq_of_testBit_eq
  intro i
  rw [fld_testBit, fld_testBit]
  by_cases hi : i < 10
  · have hm : (setMask s a corePaceReqRow).getLsbD i = true := by
      have h3 : (0x3FF : Word).getLsbD i = true := by decide +revert
      simpa [setMask, rowLocked, corePaceReqRow] using h3
    have hlo : CorePaceReq.req_rate.lo + i = i := Nat.zero_add i
    rw [hlo, plainValue_getLsbD _ _ _ _ (by omega), halfWord_low_getLsbD _ _ (by omega), hm]
    simp [corePaceReqRow]
  · have hw : ¬ i < CorePaceReq.req_rate.width := hi
    simp [hw]

/-! ### The interrupt router (R171, R173) -/

/-- The map of virtual cores lies below the pending bits (R30, R173). -/
theorem rBcVcoreMap_ne_rBcIrqPend (n : Nat) : rBcVcoreMap (n / 2) ≠ rBcIrqPend n := by
  unfold rBcVcoreMap rBcIrqPend
  omega

/-- A message of a bound thread sets its pending bit, and no more. -/
theorem routeIrq_of_bound {s : State} {m : IrqMsg} (hsw : s.vault.sw = none) (ha : threadAssigned s m.thread = true)
    (hb : vmapB s (m.thread / 2) BcVcoreMap.bound = true) : routeIrq s m = s.putF (rBcIrqPend m.thread) ⟨m.vector, m.vector⟩ 1 := by
  have hb' : vmapB (s.putF (rBcIrqPend m.thread) ⟨m.vector, m.vector⟩ 1) (m.thread / 2) BcVcoreMap.bound = true := by
    simpa only [vmapB, State.getB, getF_putF_other s _ _ _ (.inl (rBcVcoreMap_ne_rBcIrqPend m.thread))] using hb
  simp [routeIrq, hsw, ha, hb']

/-- A message of an unassigned thread is discarded and counted, and recorded where its source is another than base camp. -/
theorem routeIrq_of_unassigned {s : State} {m : IrqMsg} (ha : threadAssigned s m.thread = false) :
    routeIrq s m =
      if m.source = uidBaseCamp then { s with irqDiscards := s.irqDiscards + 1 }
      else logRecord { s with irqDiscards := s.irqDiscards + 1 } 0x15 uidDevice 0 (m.thread % 512 + m.vector * 1024) m.source 0 0 := by
  simp [routeIrq, ha]

/-- Setting one bit leaves the others. -/
theorem setFld_bit_getLsbD (w : Word) (k i : Nat) (hi : i < 64) :
    (setFld w ⟨k, k⟩ 1).getLsbD i = if i = k then true else w.getLsbD i := by
  rw [setFld_getLsbD _ _ _ _ hi]
  have hc : (k ≤ i ∧ i - k < (⟨k, k⟩ : Fld).width) ↔ i = k := by
    simp only [Fld.width]
    omega
  simp only [hc]
  split
  · next h => simp [h]
  · rfl

/-! ### The statement's clauses -/

theorem execRegisterWrite_notHost {r : Requester} (hr : notHost r = true) (a : BitVec 40) (wide : Bool) (v : Word) (s : State)
    (h8 : a.toNat % 8 = 0) : execRegisterWrite r a wide v s = .next (ctrlWriteWord s r a.toNat wide false v) := by
  have hal : a.toNat % (if wide then 8 else 4) = 0 := by split <;> omega
  have hdiv : a.toNat / 8 * 8 = a.toNat := by omega
  have hhi : (!wide && a.toNat % 8 == 4) = false := by simp [h8]
  rw [execRegisterWrite, if_pos hal, ctrlWrite_of_notHost s hr, hdiv, hhi]

/-- A write of a host below its BARs, or to a unit that is down, changes nothing. -/
theorem ctrlWrite_ignored {s : State} {r : Requester} {a : Nat} (ha : a < 0x1000000000) (hb : a / 0x100000 ≠ uidBaseCamp)
    (h : notHost r = false ∨ blockUp s (a / 0x100000) = false) (wide : Bool) (v : Word) : ctrlWrite s r a wide v = s := by
  have hlt : a / 8 * 8 < 0x1000000000 := by omega
  have hunit : a / 8 * 8 / 0x100000 = a / 0x100000 := by omega
  cases r with
  | host p i => exact hostCtrlWrite_of_below s p i hlt _ _ v
  | baseCamp | thread =>
    rw [ctrlWrite_of_notHost s rfl]
    exact ctrlWriteWord_of_down _ _ v hunit hb (h.resolve_left (by simp [notHost]))

theorem exec_registerWrite_plain (s : State) (r : Requester) (a : BitVec 40) (x : RegRow) (v : Word) (hr : notHost r = true)
    (h8 : a.toNat % 8 = 0) (hb : a.toNat / 0x100000 ≠ uidBaseCamp) (hv : a.toNat / 0x100000 ≠ uidVault)
    (hu : blockUp s (a.toNat / 0x100000) = true) (hx : regRow a.toNat = some x) (ho : ownerOk s r x = true)
    (hk : PlainPlace (a.toNat / 0x100000) a.toNat) :
    exec (.registerWrite r a true v) s = .next (plainWrite s a.toNat x v) := by
  have hlt := hk.lt
  rw [exec_registerWrite, execRegisterWrite_notHost hr a true v s h8, ctrlWriteWord_wide false v rfl (by omega) hb hu hx ho,
    ctrlApply_plain true v rfl hb hv hk]

theorem exec_registerWrite_rCorePaceReq (s : State) {r : Requester} (hr : notHost r = true) (k : Fin 192)
    (hu : blockUp s (coreUid k) = true) (v : Word) :
    exec (.registerWrite r (BitVec.ofNat 40 (rCorePaceReq (coreUid k))) false v) s =
      .next (plainWrite s (rCorePaceReq (coreUid k)) corePaceReqRow (halfWord (s.getR (rCorePaceReq (coreUid k)) &&& 0x3FF) v false)) := by
  have hn : (BitVec.ofNat 40 (rCorePaceReq (coreUid k))).toNat = rCorePaceReq (coreUid k) := by
    have hlt := rCorePaceReq_lt k
    rw [BitVec.toNat_ofNat]
    exact Nat.mod_eq_of_lt (by omega)
  rw [exec_registerWrite, execRegisterWrite_notHost hr _ false v s (hn.symm ▸ rCorePaceReq_aligned _), hn,
    ctrlWriteWord_rCorePaceReq s hr k hu v]

theorem exec_registerWrite_ignored (s : State) (r : Requester) (a : BitVec 40) (wide : Bool) (v : Word) (ha : a.toNat < 0x1000000000)
    (hb : a.toNat / 0x100000 ≠ uidBaseCamp) (h : notHost r = false ∨ blockUp s (a.toNat / 0x100000) = false) :
    exec (.registerWrite r a wide v) s = .next s := by
  rw [exec_registerWrite, execRegisterWrite, ctrlWrite_ignored ha hb h, ite_self]

theorem exec_interruptMessage_routes {s : State} {k : Nat} {m : IrqMsg} (hm : s.irqMsgs[k]? = some m) :
    exec (.interruptMessage k) s = .next (routeIrq { s with irqMsgs := s.irqMsgs.eraseIdx k } m) := by
  simp only [exec_interruptMessage, execInterruptMessage, hm]

theorem exec_irqSend_queues (s : State) {r : Requester} (t : Tid) (v : BitVec 6) (hr : ∀ p i, r ≠ .host p i)
    (hu : blockUp s uidBaseCamp = true) : exec (.irqSend r t v) s = .next (sendIrq s t.val v.toNat (requesterUid s r)) := by
  cases r with
  | host p i => exact absurd rfl (hr p i)
  | baseCamp | thread => simp only [exec_irqSend, execIrqSend, hu, if_true]

/-- Settles O35, by the place a write goes to: the access codes alone, none, or the router. -/
theorem registerAndInterruptCompletes : Obligations.RegisterAndInterruptCompletes := by
  refine ⟨?_, ?_, exec_registerWrite_ignored, ?_, ?_⟩
  · intro s r a x v hr h8 u hb hv hu hx ho hk
    refine ⟨_, exec_registerWrite_plain s r a x v hr h8 hb hv hu hx ho hk, fun i hi => ?_, fun b hne => getR_plainWrite_other s x v hne,
      rfl, rfl, rfl⟩
    rw [getR_plainWrite_same, plainValue_getLsbD s a.toNat x v hi]
  · intro s r k v hr hu a
    refine ⟨_, exec_registerWrite_rCorePaceReq s hr k hu v, ?_, fun b hne => getR_plainWrite_other s _ _ hne⟩
    rw [State.getF, getR_plainWrite_same, fld_plainValue_corePaceReq]
  · intro s k m hm hv hsw
    refine ⟨fun ha hb => ?_, fun ha => ?_⟩
    · have hz := exec_interruptMessage_routes hm
      rw [routeIrq_of_bound (s := { s with irqMsgs := s.irqMsgs.eraseIdx k }) hsw ha hb] at hz
      refine ⟨_, hz, ?_, fun v hne => ?_, fun b hne => getR_putR_other _ _ hne, rfl, rfl, rfl⟩
      · rw [State.putF, getR_putR_same, setFld_bit_getLsbD _ _ _ hv, if_pos rfl]
      · rw [State.putF, getR_putR_same]
        by_cases h64 : v < 64
        · rw [setFld_bit_getLsbD _ _ _ h64, if_neg hne]
          rfl
        · rw [BitVec.getLsbD_of_ge _ _ (by omega), BitVec.getLsbD_of_ge _ _ (by omega)]
    · have hz := exec_interruptMessage_routes hm
      rw [routeIrq_of_unassigned (s := { s with irqMsgs := s.irqMsgs.eraseIdx k }) ha] at hz
      refine ⟨_, hz, ?_⟩
      split
      · exact ⟨rfl, rfl, rfl, fun _ => ⟨rfl, rfl⟩⟩
      · next hsrc => exact ⟨by simp, by simp, by simp, fun h => absurd h hsrc⟩
  · intro s r t v hr hu
    exact ⟨_, exec_irqSend_queues s t v hr hu, rfl, rfl, rfl, rfl⟩

end Sys2Proof.Machine

/-! PROOFS. Units, identities and address spaces (chapter 1): where the units of a tile lie (O7), how units move (O29), what the answers of
the home protocol do (O40), and what base camp does in service (O55). -/

namespace Sys2Proof.Machine

/-! ### The place of a tile in its unit ID (R11, R12) -/

section Places
variable {f h t : Nat}

theorem tileIndex_lt (hf : f < 4) (hh : h < 6) (ht : t < 4) : 24 * f + 4 * h + t < 96 := by omega

/-- The bits of a tile's unit ID are its field, sheaf and tile. -/
theorem tileBits_tileIndex (hh : h < 6) (ht : t < 4) : tileBits (24 * f + 4 * h + t) = f * 0x4000 + h * 0x800 + t * 0x200 := by
  have hfield : (24 * f + 4 * h + t) / 24 = f := by omega
  have hsheaf : (24 * f + 4 * h + t) / 4 % 6 = h := by omega
  have htile : (24 * f + 4 * h + t) % 4 = t := by omega
  rw [tileBits, hfield, hsheaf, htile]

/-- Field, sheaf and tile of any block of a tile, `b` being the block's place in it, lead back to the tile's index. -/
theorem tileOfUid_block {b : Nat} (hh : h < 6) (ht : t < 4) (hb : b < 0x200) :
    tileOfUid (f * 0x4000 + h * 0x800 + t * 0x200 + b) = 24 * f + 4 * h + t := by
  unfold tileOfUid
  omega

/-- The buddy lies two fields on, at the same sheaf and tile. -/
theorem buddyOf_tileIndex (hh : h < 6) (ht : t < 4) :
    buddyOf (24 * f + 4 * h + t) = 24 * ((f + 2) % 4) + 4 * h + t := by
  unfold buddyOf
  omega

end Places

/-- Every index below 96 is that of the tile at its quotient by 24, the quotient of the rest by 4, and what remains. -/
theorem exists_tileIndex (i : Fin 96) : ∃ (f : Fin 4) (h : Fin 6) (t : Fin 4), i.val = 24 * f.val + 4 * h.val + t.val :=
  ⟨⟨i / 24, by omega⟩, ⟨i / 4 % 6, by omega⟩, ⟨i % 4, by omega⟩, by simp only; omega⟩

/-- Settles O7, by the quotients and remainders that take an index apart. -/
theorem unitPlaces : Obligations.UnitPlaces := by
  refine ⟨fun f h t => ?_, exists_tileIndex⟩
  have htile : tileUid (24 * f.val + 4 * h.val + t.val) = f * 0x4000 + h * 0x800 + t * 0x200 + 0x80 := by
    rw [tileUid, tileBits_tileIndex h.isLt t.isLt]
  have hslice : sliceUid (24 * f.val + 4 * h.val + t.val) = f * 0x4000 + h * 0x800 + t * 0x200 + 0x81 := by
    rw [sliceUid, tileBits_tileIndex h.isLt t.isLt]
  refine ⟨tileIndex_lt f.isLt h.isLt t.isLt, htile, hslice, ?_, ?_, rfl, buddyOf_tileIndex h.isLt t.isLt⟩
  · rw [htile]
    exact tileOfUid_block h.isLt t.isLt (by decide)
  · rw [hslice]
    exact tileOfUid_block h.isLt t.isLt (by decide)

/-! ### Responses of the home protocol (R262, R263, R280) -/

section Responses
variable {s y z : State} {m k : Nat} {r : Rsp} {kind : RspKind}

theorem takeRsp_kind (h : takeRsp s m kind = some (r, y)) : r.kind = kind := by
  unfold takeRsp at h
  split at h
  · split at h
    · next hc =>
      cases h
      exact hc.1
    · cases h
  · cases h

/-- The answer to a snoop goes to the transaction that waits for it. -/
theorem atHome_of_rdS (s : State) (h : r.what = .rdS) : atHome s r = snoopDone s r.line r.src (r.kind == .data) r.dirty := by
  simp only [atHome, h]

/-- The buddy's answer to a directory duplicate. -/
theorem atHome_of_rdOnce (s : State) (h : r.what = .rdOnce) (hr : r.refusal = false) : atHome s r = buddyDone s r.line := by
  simp [atHome, h, hr]

/-- The answer to a stash tells by its kind whether the line was taken. -/
theorem atHome_of_wrLine (s : State) {h : Option Hint} (hw : r.what = .wrLine h) :
    atHome s r = offered s r.line r.src (r.kind == .ack) := by
  simp only [atHome, hw]

theorem granted_of_install {g : Moesi} (hw : r.who = .core k) (hg : r.grant = some g) (hi : install y k r.line g = some z) :
    granted y r = some z := by
  simp only [granted, hw, hg, hi]

/-- A write-back that was sent: a retry leaves its entry to be sent again, any other answer ends it. -/
theorem released_of_sent {c : CLine} (hw : r.who = .core k) (hb : r.what = .wb) (hc : lineOf y k r.line = some c)
    (hp : c.place = .sent) :
    released y r = if r.kind = .retry then setLine y k r.line { c with place := .evict } else dropLine y k r.line := by
  simp [released, hw, hb, hc, hp]

/-- A request that is no write-back is kept on a retry (R256). -/
theorem released_of_retry (y : State) (hk : r.kind = .retry) (hb : r.what ≠ .wb) :
    released y r = holdReq y ⟨r.what, r.who, r.line, r.bytes⟩ := by
  cases hw : r.who <;> simp [released, hw, hk, hb]

/-- On any other answer its core frees the miss's buffer (R280). -/
theorem released_of_miss (y : State) (hw : r.who = .core k) (hk : r.kind ≠ .retry) (hb : r.what ≠ .wb) :
    released y r = updC y k (fun c => { c with misses := mdel c.misses r.line }) := by
  simp [released, hw, hk, hb]

/-- Base camp keeps nothing of a request that has ended. -/
theorem released_of_baseCamp (y : State) (hw : r.who = .baseCamp) (hk : r.kind ≠ .retry) : released y r = y := by
  simp [released, hw, hk]

theorem exec_data_atHome (h : takeRsp s m .data = some (r, y)) (hh : r.home = true) : exec (.data m) s = .next (atHome y r) := by
  simp [execData, h, hh]

theorem exec_data_granted (h : takeRsp s m .data = some (r, y)) (hh : r.home = false) (hw : r.who = .core k)
    (hz : granted y r = some z) : exec (.data m) s = .next z := by
  simp [execData, h, hh, hw, hz]

/-- Poisoned data end an engine's descriptor (R253). -/
theorem exec_data_poisoned {u : Nat} (h : takeRsp s m .data = some (r, y)) (hh : r.home = false) (hw : r.who = .engine u)
    (hp : r.poison = true) : exec (.data m) s = .next (endUnit y u 0x0201) := by
  simp [execData, h, hh, hw, hp]

theorem exec_ack_atHome (h : takeRsp s m .ack = some (r, y)) (hh : r.home = true) : exec (.ack m) s = .next (atHome y r) := by
  simp [execAck, h, hh]

theorem exec_ack_granted (h : takeRsp s m .ack = some (r, y)) (hh : r.home = false) (hz : granted y r = some z) :
    exec (.ack m) s = .next z := by
  simp [execAck, h, hh, hz]

theorem exec_nack_atHome (h : takeRsp s m .nack = some (r, y)) (hh : r.home = true) : exec (.nack m) s = .next (atHome y r) := by
  simp [execNack, h, hh]

theorem exec_stale_released (h : takeRsp s m .stale = some (r, y)) : exec (.stale m) s = .next (released y r) := by
  simp only [exec_stale, execStale, h]

theorem exec_retry_released (h : takeRsp s m .retry = some (r, y)) : exec (.retry m) s = .next (released y r) := by
  simp only [exec_retry, execRetry, h]

/-- A core's request that no target answers leaves no record. -/
theorem exec_noTarget_core (h : takeRsp s m .noTarget = some (r, y)) (hw : r.who = .core k) :
    exec (.noTarget m) s = .next (released y r) := by
  simp [execNoTarget, h, hw]

/-- Base camp's write that no target answers, and that was no refusal, is recorded. -/
theorem exec_noTarget_baseCamp (h : takeRsp s m .noTarget = some (r, y)) (hw : r.who = .baseCamp) (ho : r.what ≠ .rdOnce)
    (hr : r.refusal = false) :
    exec (.noTarget m) s = .next (logRecord (released y r) 0x35 uidDevice 0 (r.line * 64) (partyUid r.who) 0 0) := by
  cases hq : r.what with
  | rdOnce => exact absurd hq ho
  | _ => simp [execNoTarget, h, hw, hq, hr]

end Responses

/-- Settles O40, by the message and by who takes it: the home, or the requester. -/
theorem coherenceResponseCompletes : Obligations.CoherenceResponseCompletes := by
  refine fun s y m r => ⟨fun h => ⟨fun hh hw => ?_, fun k g z hh hk hg hz => ?_, fun u hh hu hp => ?_⟩,
    fun h => ⟨fun hh hw hr => ?_, fun hh hw => ?_, fun w hh hw => ?_, fun k g z hh hk hg hz => ?_⟩, fun h w hh hw => ?_,
    fun h k c hk hw hc hp => ?_, fun h => ⟨fun hw => ?_, fun k c hk hw hc hp => ?_⟩, fun h => ⟨fun k hk hw => ?_, fun hk hw hr => ?_⟩⟩
  · rw [exec_data_atHome h hh, atHome_of_rdS y hw, takeRsp_kind h]
    rfl
  · exact exec_data_granted h hh hk (granted_of_install hk hg hz)
  · exact exec_data_poisoned h hh hu hp
  · rw [exec_ack_atHome h hh, atHome_of_rdOnce y hw hr]
  · rw [exec_ack_atHome h hh, atHome_of_rdS y hw, takeRsp_kind h]
    rfl
  · rw [exec_ack_atHome h hh, atHome_of_wrLine y hw, takeRsp_kind h]
    rfl
  · exact exec_ack_granted h hh (granted_of_install hk hg hz)
  · rw [exec_nack_atHome h hh, atHome_of_wrLine y hw, takeRsp_kind h]
    rfl
  · rw [exec_stale_released h, released_of_sent hk hw hc hp, takeRsp_kind h, if_neg (by decide)]
  · rw [exec_retry_released h, released_of_retry y (takeRsp_kind h) hw]
  · rw [exec_retry_released h, released_of_sent hk hw hc hp, if_pos (takeRsp_kind h)]
  · rw [exec_noTarget_core h hk, released_of_miss y hk (by simp [takeRsp_kind h]) hw]
  · rw [exec_noTarget_baseCamp h hk hw hr, released_of_baseCamp y hk (by simp [takeRsp_kind h])]

/-! ### Transitions of units (R25 to R28) -/

section Transitions
variable {s : State} {u : Uid}

/-- A command of base camp on a unit in the state it starts from. -/
theorem commandUnit_of_from {s : State} {u a dst cause : Nat} (hb : bcUp s = true) (hu : isStateUnit u = true) (hs : stateOf s u = a) :
    commandUnit s u a dst cause = setUnit s u dst cause := by
  simp [commandUnit, hb, hu, hs]

theorem exec_unitStartCommand_off (hb : bcUp s = true) (hu : isStateUnit u.toNat = true) (hs : stateOf s u.toNat = usOff) :
    exec (.unitStartCommand u) s = .next (setUnit s u.toNat usStarting 0x01) := by
  rw [exec_unitStartCommand, execUnitStartCommand, commandUnit_of_from hb hu hs]

theorem exec_placeSpare_off (hb : bcUp s = true) (hu : isStateUnit u.toNat = true) (hs : stateOf s u.toNat = usOff)
    (hm : mayBivouac s u.toNat = true) : exec (.placeSpare u) s = .next (configEval (setUnit s u.toNat usBivouac 0x01)) := by
  rw [exec_placeSpare, execPlaceSpare, if_pos hm, commandUnit_of_from hb hu hs]

theorem exec_bivouacPowerDown_bivouac (hb : bcUp s = true) (hu : isStateUnit u.toNat = true) (hs : stateOf s u.toNat = usBivouac) :
    exec (.bivouacPowerDown u) s = .next (configEval (setUnit s u.toNat usOff 0x01)) := by
  rw [exec_bivouacPowerDown, execBivouacPowerDown, commandUnit_of_from hb hu hs]

theorem drainUnit_of_inService {s : State} {u : Nat} (hb : bcUp s = true) (hu : isStateUnit u = true)
    (hs : stateOf s u = usInService) :
    drainUnit s u = match unitKind u with
      | .core k => drainCore s k
      | .slice i => drainSlice s i
      | _ => setUnit s u usDraining 0x01 :=
  if_neg (by simp [hb, hu, hs])

/-- A failed unit whose sparing or retirement has ended joins the withdrawal list. -/
theorem exec_containmentWithdraw_failed (hb : bcUp s = true) (hu : isStateUnit u.toNat = true)
    (hs : stateOf s u.toNat = usFailed) (hd : drained s u.toNat = true) :
    exec (.containmentWithdraw u) s = .next (configEval (withdrawUnit s u.toNat)) := by
  simp [execContainmentWithdraw, hb, hu, hs, hd]

theorem restartUnit_of_failed {s : State} {u : Nat} (hb : bcUp s = true) (hs : stateOf s u = usFailed)
    (hr : restartAllowed s u = true) :
    restartUnit s u = match unitKind u with
      | .core k => gateCore (noteRestart (setUnit s u usOff 0x01) u) k
      | _ => noteRestart (setUnit s u usOff 0x01) u :=
  if_pos (by simp [hb, hs, hr])

/-- A start sequence completes where the units it depends on serve and a core's supply has settled (R26, R50). -/
theorem startDone_of_starting {s : State} {u : Nat} (hu : isStateUnit u = true) (hs : stateOf s u = usStarting)
    (hh : holdersUp s u = true) (hr : ∀ k, unitKind u = .core k → coreRaised s k = true) :
    startDone s u = match unitKind u with
      | .core k => if s.mgmt.reserved.contains k then s else configEval (numberCore (coreStarts (setUnit s u usInService 0x02) k) k)
      | .mem c => if (getM s c).lastFail.isSome then startResilver (setUnit s u usInService 0x02) c else setUnit s u usInService 0x02
      | _ => setUnit s u usInService 0x02 := by
  unfold startDone
  cases hk : unitKind u with
  | core k => simp [hu, hs, hh, hr k hk]
  | _ => simp [hu, hs, hh]

theorem exec_startSequenceError_starting (hu : isStateUnit u.toNat = true) (hs : stateOf s u.toNat = usStarting) :
    exec (.startSequenceError u) s = .next (
      let z := setUnit s u.toNat usFailed 0x06
      match unitKind u.toNat with
      | .mem c => if (getM z c).lastFail.isSome && bcUp z then withdrawUnit z u.toNat else z
      | .core k => spareLost z k
      | _ => z) :=
  congrArg Host.Outcome.next (if_neg (by simp [hu, hs]))

theorem drainEnds_of_drained {s : State} {u : Nat} (hu : isStateUnit u = true) (hs : stateOf s u = usDraining)
    (hd : drained s u = true) (retire : Bool) :
    drainEnds s u retire =
      let z := match unitKind u with
        | .core k => emptyCaches s k
        | _ => s
      if retire then (if bcUp z then withdrawUnit z u else z)
      else
        match unitKind u with
        | .core k => gateCore (setUnit z u usOff 0x03) k
        | _ => setUnit z u usOff 0x03 :=
  if_neg (by simp [hu, hs, hd])

/-- A drain that is no sparing and no retirement is cancelled at any time. -/
theorem cancelDrain_of_other {s : State} {u : Nat} (hb : bcUp s = true) (hu : isStateUnit u = true) (hs : stateOf s u = usDraining)
    (hh : holdersUp s u = true) (hc : ∀ k, unitKind u ≠ .core k) (hl : ∀ i, unitKind u ≠ .slice i) :
    cancelDrain s u = setUnit s u usInService 0x0A := by
  unfold cancelDrain
  cases hk : unitKind u with
  | core k => exact absurd hk (hc k)
  | slice i => exact absurd hk (hl i)
  | _ => simp [hb, hu, hs, hh]

/-- Base camp's table takes the message of a unit unless it holds a later one (R27). -/
theorem exec_stateMessage_taken {k : Nat} {m : StateMsg} (hm : s.stateMsgs[k]? = some m) (hb : bcUp s = true) :
    exec (.stateMessage k) s = .next (stateRecord { s with
      stateMsgs := s.stateMsgs.eraseIdx k
      bcTable := if ((mfind s.bcTable m.unit).map (fun o => o.time)).getD 0 ≤ m.time then mins s.bcTable m.unit m else s.bcTable } m) := by
  have hb' : bcUp { s with stateMsgs := s.stateMsgs.eraseIdx k } = true := hb
  simp only [exec_stateMessage, execStateMessage, hm, hb', Bool.not_true, Bool.false_eq_true, if_false]
  split <;> rfl

end Transitions

/-- Settles O29, a clause for each transition. -/
theorem unitTransitionCompletes : Obligations.UnitTransitionCompletes := by
  refine ⟨fun s u why _ => ?_, fun s f _ => rfl,
    fun s u hb hu => ⟨exec_unitStartCommand_off hb hu, exec_placeSpare_off hb hu, exec_bivouacPowerDown_bivouac hb hu, fun hs => ?_,
      exec_containmentWithdraw_failed hb hu, fun hs hr => ?_⟩,
    fun s u hu hs => ⟨fun hh hr => ?_, exec_startSequenceError_starting hu hs⟩,
    fun s u hu hs => ⟨fun hd _ => ?_, fun hd => ?_, fun hb hh hc hl => ?_⟩, fun s k m hm hb => exec_stateMessage_taken hm hb⟩
  · cases why <;> rfl
  · rw [exec_drainCommand, execDrainCommand, drainUnit_of_inService hb hu hs]
    rfl
  · rw [exec_failedRestart, execFailedRestart, restartUnit_of_failed hb hs hr]
    rfl
  · rw [exec_startSequenceComplete, execStartSequenceComplete, startDone_of_starting hu hs hh hr]
    rfl
  · rw [exec_drainComplete, execDrainComplete, drainEnds_of_drained hu hs hd]
    rfl
  · rw [exec_drainComplete, execDrainComplete, drainEnds_of_drained hu hs hd]
    cases unitKind u.toNat <;> rfl
  · rw [exec_drainCancelled, execDrainCancelled, cancelDrain_of_other hb hu hs hh hc hl]
    rfl

/-! ### Polls leave memory as it is (R459) -/

/-- Steps that leave memory as it is leave it so however many of them there are. -/
theorem foldl_mem_same {α : Type} {f : State → α → State} (hf : ∀ s a, (f s a).mem = s.mem) (l : List α) (s : State) :
    (l.foldl f s).mem = s.mem :=
  l.foldlRecOn f (motive := fun z => z.mem = s.mem) rfl fun z hz a _ => (hf z a).trans hz

@[simp] theorem configEval_mem (s : State) : (configEval s).mem = s.mem := by
  unfold configEval
  split
  · rfl
  · dsimp only
    split
    · rfl
    · rfl

@[simp] theorem askLoad_mem (s : State) (d w : Nat) : (askLoad s d w).mem = s.mem := rfl

@[simp] theorem setFlash_mem (s : State) (b : Bool) (f : Flash → Flash) : (setFlash s b f).mem = s.mem := rfl

@[simp] theorem flashFails_mem (s : State) (b : Bool) : (flashFails s b).mem = s.mem := by
  rw [flashFails, apply_ite State.mem, setFlash_mem, ite_self]

@[simp] theorem throttleDom_mem (s : State) (d t : Nat) : (throttleDom s d t).mem = s.mem := by
  unfold throttleDom
  dsimp only
  split
  · rfl
  · rfl

/-- A poll that finds no lost phase leaves every byte of memory as it was. -/
theorem exec_sensorPoll_mem {s : State} {x : Polled} (h : x.phases = []) : ∃ z, exec (.sensorPoll x) s = .next z ∧ z.mem = s.mem := by
  refine ⟨_, rfl, ?_⟩
  have hloads : ∀ (s : State) (e : DomId × Nat),
      (if e.1.val < 24 || !(getD s e.1).powered || (getD s e.1).stopped then s else askLoad s e.1 e.2).mem = s.mem := fun s e => by
    rw [apply_ite State.mem, askLoad_mem, ite_self]
  rw [apply_ite State.mem, updG_mem, ite_self, foldl_mem_same fun s (e : DomId × Nat) => throttleDom_mem s e.1 e.2,
    configEval_mem, foldl_mem_same flashFails_mem, h, List.bind_eq_flatMap, List.flatMap_nil, List.foldl_nil, foldl_mem_same hloads]

/-! ### Base camp's own commands (R455 to R460) -/

section BaseCamp
variable {s : State}

theorem exec_bcHeartbeat_up (hb : bcUp s = true) : exec .bcHeartbeat s = .next (updG s (fun m => { m with lastBeat := s.time })) := by
  rw [exec_bcHeartbeat, execBcHeartbeat, if_pos hb]

theorem exec_viewSweep_up (hb : bcUp s = true) : exec .viewSweep s = .next (sweep s) := by
  rw [exec_viewSweep, execViewSweep, if_pos hb]

/-- A poll of readings alone notes them. -/
theorem exec_sensorPoll_readings {x : Polled} (hb : bcUp (configEval s) = true) (hl : x.loads = []) (hp : x.phases = [])
    (hf : x.flashes = []) (ht : x.temps = []) :
    exec (.sensorPoll x) s =
      .next (updG (configEval s) (fun m => { m with sensors := x.readings.foldl noteReading m.sensors })) := by
  simp only [exec_sensorPoll, execSensorPoll, hl, hp, hf, ht, List.bind_eq_flatMap, List.flatMap_nil, List.foldl_nil, hb, if_true]

/-- A poll that finds one flash to fail takes its row of R1 away. -/
theorem exec_sensorPoll_flash {b : Bool} (hb : bcUp s = true)
    (hy : bcUp (configEval (setFlash s b (fun f => { f with reads := false }))) = true) :
    exec (.sensorPoll ⟨[], [], [], [b], []⟩) s = .next (configEval (setFlash s b (fun f => { f with reads := false }))) := by
  simp only [exec_sensorPoll, execSensorPoll, List.bind_eq_flatMap, List.flatMap_nil, List.foldl_nil, List.foldl_cons, flashFails, hb, if_true, hy]
  rfl

/-- A heartbeat 100 µs overdue: the standby takes over, and the failure is noted (R456). -/
theorem exec_bcTakeover_overdue (hb : bcUp s = true) (ht : s.mgmt.lastBeat + 100000 ≤ s.time)
    (hs : s.mgmt.core (!activeB s) = .standby) :
    exec (.bcTakeover .heartbeat) s =
      .next (failover (updG s (fun m => { m with fails := (activeB s, s.time) :: m.fails })) (takeoverCode .heartbeat) .fenced) := by
  have hs' : (updG s (fun m => { m with fails := (activeB s, s.time) :: m.fails })).mgmt.core (!activeB s) = .standby := hs
  simp [execBcTakeover, hb, ht, hs, hs']

/-- A planned takeover leaves the other core to restart (R458). -/
theorem exec_bcTakeover_planned (hb : bcUp s = true) (hs : s.mgmt.core (!activeB s) = .standby) :
    exec (.bcTakeover .planned) s = .next (failover s (takeoverCode .planned) .restarting) := by
  simp [execBcTakeover, hb, hs]

/-- The core that is out rejoins, or is withdrawn (R458). -/
theorem exec_bcCoreRejoin_out (hb : bcUp s = true)
    (hc : s.mgmt.core (!activeB s) = .fenced ∨ s.mgmt.core (!activeB s) = .restarting) (ok : Bool) :
    exec (.bcCoreRejoin ok) s = .next (
      let late := (s.mgmt.fails.filter (fun f => f.1 == !activeB s && decide (s.time < f.2 + 3600000000000))).length
      configEval (showCores (updG s (fun m => m.setCore (!activeB s)
        (if ok && decide (late ≤ 1) then .standby else .withdrawn))))) :=
  congrArg Host.Outcome.next (if_neg (by rcases hc with hc | hc <;> simp [hb, hc]))

/-- PWR_BRAKE_N goes low (R460). -/
theorem exec_powerBrake_on (hb : bcUp s = true) (hc : s.mgmt.caps = []) (hp : s.board.pwrBrake = true) :
    exec .powerBrake s = .next (
      let y := updG s (fun m => { m with
        caps := allSheaves.map (fun h => (h, BitVec.ofNat 64 (s.getF (rShfBcLimits (sheafUid h)) ShfBcLimits.bc_power_cap))) })
      let w := s.getF rBcPkgPower BcPkgPower.brake_w
      ((capsFit (min (w * 8) (sheafBudget y)) (allSheaves.map (Config.brakeCap w))).zipIdx).foldl (fun s (n, h) => putCap s h n) y) := by
  rw [exec_powerBrake, execPowerBrake, if_pos hp]
  exact congrArg Host.Outcome.next (if_neg (by simp [hb, hc]))

/-- PWR_BRAKE_N is released while caps are held (R460). -/
theorem exec_powerBrakeRelease_held (hb : bcUp s = true) (hp : s.board.pwrBrake = false) (hc : s.mgmt.caps ≠ []) :
    exec .powerBrakeRelease s =
      .next (updG (((capsFit (sheafBudget s) (s.mgmt.caps.map (fun e => e.2.toNat))).zip (s.mgmt.caps.map (·.1))).foldl
        (fun s e => putCap s e.2 e.1) s) (fun m => { m with caps := [] })) := by
  simp [execPowerBrakeRelease, brakeOff, hb, hp, hc]

/-- While the brake holds the caps, a distribution notes the package's power and base camp's allowance alone. -/
theorem exec_powerDistribution_braked (hb : bcUp s = true) (hp : s.board.pwrBrake = true) (now other : Nat) (means : List Nat) :
    exec (.powerDistribution now other ⟨means, []⟩) s =
      .next (updG (s.putF rBcPkgPower BcPkgPower.power_now (min now 0xFFF)) (fun m => { m with allowance := (other * 11 + 9) / 10 })) := by
  simp [execPowerDistribution, hb, hp]

/-- With the brake released, what the limit leaves is divided among the sheaves (R56). -/
theorem exec_powerDistribution_divides (hb : bcUp s = true) (now other : Nat) (means : List Nat) (sets : List (DomId × Nat × Nat))
    {y : State}
    (hy : y = updG (sets.foldl (fun s e => setDomain s e.1 e.2.1 e.2.2) (s.putF rBcPkgPower BcPkgPower.power_now (min now 0xFFF)))
      (fun m => { m with allowance := (other * 11 + 9) / 10 }))
    (hp : y.board.pwrBrake = false) :
    exec (.powerDistribution now other ⟨means, sets⟩) s = .next (
      let ms := allSheaves.map (fun h => means.getD h 0)
      ((capsFit (sheafBudget y) (if ms.all (· == 0) then allSheaves.map (Config.idleCap (sheafBudget y))
        else shares (allSheaves.map (fun h => !(sheafCores y h).isEmpty)) 24 (sheafBudget y) (allSheaves.map (fun _ => none))
          ms)).zipIdx).foldl (fun s (n, h) => putCap s h n) y) := by
  subst hy
  rw [exec_powerDistribution, execPowerDistribution, if_neg (by simp [hb])]
  exact congrArg Host.Outcome.next (if_neg (by simp only [hp, Bool.false_eq_true, not_false_eq_true]))

/-- The next record goes to a ring that has room and lies in normal memory (R464). -/
theorem exec_logRingCopy_room {r : LogRec} (hb : bcUp s = true) (he : fldB (s.getR rBcLogRing) BcLogRing.en = true)
    (hn : s.log.ringNext < s.log.next) (hs : ringSecure s (s.getR rBcLogRing) 64 = false) (hr : recordOf s s.log.ringNext = some r)
    (hroom : (fld (s.getR rBcLogPtr) BcLogPtr.tail + 1) % ringSize (s.getR rBcLogRing) ≠ fld (s.getR rBcLogPtr) BcLogPtr.head) :
    exec .logRingCopy s = .next (
      let y := ringAdd s rBcLogRing rBcLogPtr (recBytes r)
      { y with log := { y.log with ringNext := y.log.ringNext + 1 } }) := by
  simp [execLogRingCopy, hb, he, hn, hs, hr, hroom]

/-- The next record goes to the log flash, which has room (R465). -/
theorem exec_logFlashAppend_room {r : LogRec} {i : Image} (hb : bcUp s = true) (hi : s.mgmt.running = some i) (hl : i.logRegion = true)
    (hn : s.log.flashNext < s.log.next) (hr : recordOf s s.log.flashNext = some r) (hroom : s.log.flash.length < 262144) :
    exec .logFlashAppend s =
      .next { s with log := { s.log with flash := r :: s.log.flash, flashNext := s.log.flashNext + 1 } } := by
  simp [execLogFlashAppend, hb, hi, hl, Nat.not_le.2 hn, hr, Nat.not_le.2 hroom]

/-- An absent host freezes its port with cause 3 (R475). -/
theorem exec_hostPresenceLoss_hostPort {p : Fin 16} (hp : hostPortMode s p = true) :
    exec (.hostPresenceLoss p) s =
      .next (portFreeze { s with board := { s.board with prsnt := s.board.prsnt.filter (· != p.val) } } p 3) :=
  congrArg Host.Outcome.next (if_pos hp)

/-- With no update under way, the flash to rewrite is the one that does not verify. -/
theorem rewriteB_of_invalid {b : Bool} (hu : updateSettles s = false)
    (hf : flashValid s (if b then s.mgmt.flashB else s.mgmt.flashA) = false)
    (ho : flashValid s (if b then s.mgmt.flashA else s.mgmt.flashB) = true) : rewriteB s = b := by
  cases b with
  | true => simpa [rewriteB, hu] using ho
  | false => simpa [rewriteB, hu] using hf

/-- A flash that does not verify is written from the other, which does (R484). -/
theorem exec_flashRewrite_invalid {i : Image} {b : Bool} (hi : s.mgmt.running = some i) (hb : bcUp s = true)
    (hs : servicesUp s = true) (hu : s.mgmt.update = .none)
    (hf : flashValid s (if b then s.mgmt.flashB else s.mgmt.flashA) = false)
    (ho : flashValid s (if b then s.mgmt.flashA else s.mgmt.flashB) = true) :
    exec .flashRewrite s = .next (configEval (updG (writeFlash s b
      ((if b then s.mgmt.flashA else s.mgmt.flashB).image.getD i)) (fun m => { m with update := m.update }))) := by
  have hsettles : updateSettles s = false := by simp [updateSettles, hu]
  have hupdating : updating s = false := by simp [updating, hu]
  simp [execFlashRewrite, hi, rewriteB_of_invalid hsettles hf ho, hsettles, hupdating, hb, hs, hf, ho]

end BaseCamp

/-- Settles O55, a clause for each command. -/
theorem baseCampCompletes : Obligations.BaseCampCompletes := by
  refine ⟨fun s hb => ⟨exec_bcHeartbeat_up hb, exec_viewSweep_up hb, fun x => ⟨exec_sensorPoll_readings, exec_sensorPoll_mem⟩,
      fun b hy => exec_sensorPoll_flash hb hy, exec_bcTakeover_overdue hb, exec_bcTakeover_planned hb, exec_bcCoreRejoin_out hb,
      exec_powerBrake_on hb, exec_powerBrakeRelease_held hb, fun now other means hp => exec_powerDistribution_braked hb hp now other means⟩,
    fun s now other means sets hb hp => exec_powerDistribution_divides hb now other means sets rfl hp,
    fun s r hb he hn hs hr hroom => exec_logRingCopy_room hb he hn hs hr hroom,
    fun s r i hb hi hl hn hr hroom => exec_logFlashAppend_room hb hi hl hn hr hroom,
    fun s p hp => exec_hostPresenceLoss_hostPort hp,
    fun s i b hi hb hs _ hf ho hu => exec_flashRewrite_invalid hi hb hs hu hf ho⟩

end Sys2Proof.Machine

/-! PROOFS. Pace, timebase and power, resets and start-up (chapters 2 and 22): the commands that spare programs (O11), the instructions of
time, fences and invalidation (O20), and what the commands of power (O28), reset (O31) and start-up (O32) lead to. -/

namespace Sys2Proof.Machine

/-! ### What programs run on, and the operations that leave it as it is -/

/-- Nothing that programs run on differs in `z` from `s`: memory with its tags and poison marks, the threads, the channels, the commands
that wait, and the time. -/
structure Spared (s z : State) : Prop where
  mem : z.mem = s.mem
  tags : z.tags = s.tags
  poison : z.poison = s.poison
  threads : z.threads = s.threads
  chans : z.chans = s.chans
  pending : z.pending = s.pending
  time : z.time = s.time

section Spared
variable {s y : State}

theorem Spared.refl (s : State) : Spared s s := ⟨rfl, rfl, rfl, rfl, rfl, rfl, rfl⟩

theorem Spared.orElse {p : Prop} [Decidable p] {a b : State} (ha : Spared s a) (hb : Spared s b) : Spared s (if p then a else b) := by
  split
  · exact ha
  · exact hb

theorem Spared.foldl {α : Type} {f : State → α → State} (hf : ∀ z a, Spared s z → Spared s (f z a)) (l : List α) (h : Spared s y) :
    Spared s (l.foldl f y) :=
  l.foldlRecOn f (motive := Spared s) h fun z hz a _ => hf z a hz

/-- A step that leaves each part of what programs run on as it is. -/
theorem Spared.same {z : State} (h : Spared s y) (hmem : z.mem = y.mem := by rfl) (htags : z.tags = y.tags := by rfl)
    (hpoison : z.poison = y.poison := by rfl) (hthreads : z.threads = y.threads := by rfl) (hchans : z.chans = y.chans := by rfl)
    (hpending : z.pending = y.pending := by rfl) (htime : z.time = y.time := by rfl) : Spared s z :=
  ⟨hmem.trans h.mem, htags.trans h.tags, hpoison.trans h.poison, hthreads.trans h.threads, hchans.trans h.chans,
    hpending.trans h.pending, htime.trans h.time⟩

theorem Spared.putR (a : Nat) (v : Word) (h : Spared s y) : Spared s (y.putR a v) := h.same
theorem Spared.putF (a : Nat) (f : Fld) (n : Nat) (h : Spared s y) : Spared s (y.putF a f n) := h.putR _ _
theorem Spared.putB (a : Nat) (f : Fld) (b : Bool) (h : Spared s y) : Spared s (y.putB a f b) := h.putR _ _
theorem Spared.updM (c : Nat) (f : Mc → Mc) (h : Spared s y) : Spared s (updM y c f) := h.same
theorem Spared.updD (d : Nat) (f : Dom → Dom) (h : Spared s y) : Spared s (updD y d f) := h.same
theorem Spared.updP (p : Nat) (f : Port → Port) (h : Spared s y) : Spared s (updP y p f) := h.same
theorem Spared.updG (f : Mgmt → Mgmt) (h : Spared s y) : Spared s (updG y f) := h.same
theorem Spared.updFab (f : Fabric → Fabric) (h : Spared s y) : Spared s (updFab y f) := h.same
theorem Spared.updNet (b : Nat) (f : NetPort → NetPort) (h : Spared s y) : Spared s (updNet y b f) :=
  h.same
theorem Spared.bridge (b : Bridge) (h : Spared s y) : Spared s { y with bridge := b } := h.same
theorem Spared.board (b : Board) (h : Spared s y) : Spared s { y with board := b } := h.same
theorem Spared.mgmt (m : Mgmt) (h : Spared s y) : Spared s { y with mgmt := m } := h.same
theorem Spared.vault (v : Vault) (h : Spared s y) : Spared s { y with vault := v } := h.same
theorem Spared.log (l : Logbook) (h : Spared s y) : Spared s { y with log := l } := h.same
theorem Spared.sendIrq (thread vector source : Nat) (h : Spared s y) : Spared s (sendIrq y thread vector source) :=
  h.same
theorem Spared.notify (r : Nat) (h : Spared s y) : Spared s (notify y r) := h.same
theorem Spared.logRecord (type unit cause p0 p1 p2 p3 : Nat) (b : Bool) (h : Spared s y) :
    Spared s (logRecord y type unit cause p0 p1 p2 p3 b) := h.same

/-! Memory controllers, domains and base camp -/

theorem Spared.refreshRank (c r : Nat) (h : Spared s y) : Spared s (refreshRank y c r) := by
  unfold Machine.refreshRank
  exact (Spared.foldl (fun _ _ h => h.putR _ _) _ h).updM _ _

theorem Spared.askLoad (d w : Nat) (h : Spared s y) : Spared s (askLoad y d w) := h.updD _ _

theorem Spared.throttleDom (d t : Nat) (h : Spared s y) : Spared s (throttleDom y d t) := h.orElse (h.updD _ _)

theorem Spared.flashFails (b : Bool) (h : Spared s y) : Spared s (flashFails y b) := (h.updG _).orElse h

theorem Spared.configEval (h : Spared s y) : Spared s (configEval y) := by
  unfold Machine.configEval
  extract_lets old new mode z lost m w
  have hw : Spared s w := ((h.putF _ _ _).putF _ _ _).mgmt _
  exact h.orElse (hw.orElse ((hw.logRecord ..).notify _))

theorem Spared.brakeOn (h : Spared s y) : Spared s (brakeOn y) :=
  h.orElse (Spared.foldl (fun _ _ h => h.putF _ _ _) _ (h.updG _))

theorem Spared.brakeOff (h : Spared s y) : Spared s (brakeOff y) :=
  h.orElse (h.orElse ((Spared.foldl (fun _ _ h => h.putF _ _ _) _ h).updG _))

theorem Spared.incCounter (k : Nat) (h : Spared s y) : Spared s (incCounter y k) := h.orElse (h.putR _ _)

/-- A request served spares programs where its action does. -/
theorem Spared.serve (x : Transport) {f : State → State × Reply} (hf : Spared s (f y).1) (h : Spared s y) : Spared s (serve y x f) :=
  (hf.mgmt _).orElse h

theorem Spared.setEnables (dbg access : Nat) (forever : Bool) (till : Option Nat) (h : Spared s y) :
    Spared s (setEnables y dbg access forever till) :=
  ((((h.putF _ _ _).board _).putF _ _ _).putB _ _ _).mgmt _

theorem Spared.tapDrive (i : TapInstr) (h : Spared s y) : Spared s (tapDrive y i) :=
  (h.board _).orElse (((h.board _).board _).orElse (h.board _))

/-! The bridge -/

theorem Spared.fdbSet (op : Bool) (key : Nat) (e : Option FdbEnt) (h : Spared s y) : Spared s (fdbSet y op key e) :=
  (h.bridge _).putF _ _ _

theorem Spared.fdbFlush (op : Bool) (port : Nat) (h : Spared s y) : Spared s (fdbFlush y op port) :=
  Spared.foldl (fun _ _ h => h.fdbSet _ _ _) _ h

theorem Spared.relearn (key port : Nat) (e : FdbEnt) (h : Spared s y) : Spared s (relearn y key port e) := by
  unfold Machine.relearn
  extract_lets n hit act z w
  have hw : Spared s w := (h.fdbSet _ _ _).putR _ _
  exact h.orElse ((h.fdbSet _ _ _).orElse (h.orElse (((hw.sendIrq ..).orElse hw |>.orElse hw).orElse (h.fdbSet _ _ _))))

theorem Spared.learnKey (key port : Nat) (h : Spared s y) : Spared s (learnKey y key port) := by
  unfold Machine.learnKey
  split
  · exact h.relearn _ _ _
  · exact (h.fdbSet _ _ _).orElse (h.putR _ _)

/-- An op of the forwarding database that is accepted spares programs where its change does. -/
theorem Spared.fdbAccept (v : Word) {f : State → State} (hf : ∀ z, Spared s z → Spared s (f z)) (h : Spared s y) :
    Spared s (fdbAccept y v f) := (hf _ (h.putF _ _ _)).putB _ _ _

theorem Spared.fdbOp (op : Nat) (v : Word) (h : Spared s y) : Spared s (fdbOp y op v) := by
  unfold Machine.fdbOp
  extract_lets z key port
  have hz : Spared s z := (h.putB _ _ _).orElse h
  refine (hz.putF _ _ _).orElse ((hz.putB _ _ _).orElse ?_)
  split
  · exact (hz.putB _ _ _).orElse (hz.fdbAccept _ fun _ h => h.fdbSet _ _ _)
  · exact hz.fdbAccept _ fun _ h => h.fdbSet _ _ _
  · exact hz.fdbAccept _ fun _ h => (h.fdbSet _ _ _).orElse h
  · exact hz.fdbAccept _ fun _ h => h.fdbFlush _ _
  · exact hz.fdbAccept _ fun _ h => h.bridge _
  · exact hz.putB _ _ _

theorem Spared.fdbCommand (r : Requester) (op : Nat) (v : Word) (h : Spared s y) : Spared s (fdbCommand y r op v) := (h.fdbOp _ _).orElse h

theorem Spared.setPortStat (b : Nat) (f : Fld) (n : Nat) (h : Spared s y) : Spared s (setPortStat y b f n) := by
  unfold Machine.setPortStat
  split
  · exact h.putF _ _ _
  · exact h

theorem Spared.holdEnds (b : Nat) (h : Spared s y) : Spared s (holdEnds y b) := by
  unfold Machine.holdEnds
  extract_lets n b z w
  have hz : Spared s z := (h.bridge _).updNet _ _
  exact ((hz.fdbFlush _ _).orElse hz).setPortStat _ _ _

theorem Spared.netDown (b : Nat) (h : Spared s y) : Spared s (netDown y b) := by
  unfold Machine.netDown
  extract_lets z w ms
  have hw : Spared s w := (h.setPortStat _ _ _).setPortStat _ _ _
  exact h.orElse ((hw.holdEnds _).orElse ((hw.setPortStat _ _ _).updNet _ _))

end Spared

/-! ### Commands that spare programs -/

/-- The command, carried out in `s`, leaves what programs run on as it was. -/
def Spares (s : State) (c : Instr) : Prop := ∀ z, exec c s = .next z → Spared s z

section Commands
variable {s : State}

theorem spares_of {c : Instr} {y : State} (h : exec c s = .next y) (hy : Spared s y) : Spares s c := fun z hz => by
  rw [h, Host.Outcome.next.injEq] at hz
  exact hz ▸ hy

/-- What a command that spares programs leaves, field by field. -/
theorem Spares.leaves {c : Instr} {z : State} (h : Spares s c) (hz : exec c s = .next z) :
    (∀ a, readByte z a = readByte s a) ∧ z.tags = s.tags ∧ z.poison = s.poison ∧ z.threads = s.threads ∧ z.chans = s.chans ∧
      z.pending = s.pending ∧ z.time = s.time := by
  obtain ⟨hmem, htags, hpoison, hthreads, hchans, hpending, htime⟩ := h z hz
  exact ⟨readByte_congr hmem, htags, hpoison, hthreads, hchans, hpending, htime⟩

/-- VBAT is lost, and the island runs on (R64). -/
theorem setBattery_none_of_supplied (h : s.board.pwrgdStby = true ∨ 2000 ≤ s.vault.hold) :
    setBattery s none = { s with vault := { s.vault with vbat := false } } := if_pos h

theorem vbatLoss_spares (h : s.board.pwrgdStby = true ∨ 2000 ≤ s.vault.hold) : Spares s .vbatLoss := by
  refine spares_of (exec_vbatLoss s) ?_
  rw [setBattery_none_of_supplied h]
  exact (Spared.refl s).vault _

theorem livenessToken_spares (t : Fin 128) (d : Fin 4) : Spares s (.livenessToken t d) :=
  spares_of rfl (((Spared.refl s).updFab _).orElse (.refl s))

theorem refreshDue_spares (c : Fin 16) (rank : Fin 4) (hot : Bool) : Spares s (.refreshDue c rank hot) :=
  spares_of rfl ((Spared.refl s).orElse ((((Spared.refl s).refreshRank _ _).orElse (.refl s)).updM _ _))

theorem driftTracking_spares (c : Fin 16) (ws : List (Nat × Nat × BitVec 64)) : Spares s (.driftTracking c ws) :=
  spares_of rfl ((Spared.refl s).orElse ((Spared.refl s).updM _ _))

theorem perstDeassertion_spares (p : Fin 16) : Spares s (.perstDeassertion p) :=
  spares_of rfl (((Spared.refl s).updP _ _).orElse (.refl s))

theorem portReady_spares (p : Fin 16) : Spares s (.portReady p) :=
  spares_of rfl ((Spared.refl s).orElse ((Spared.refl s).updP _ _))

theorem learn_spares : Spares s .learn := by
  refine spares_of rfl ?_
  split
  · exact .refl s
  · exact (((Spared.refl s).bridge _).learnKey _ _).orElse ((Spared.refl s).bridge _)

theorem fdbChange_spares (n : Fin 8) : Spares s (.fdbChange n) := by
  refine spares_of rfl ?_
  split
  · exact .refl s
  · exact ((Spared.refl s).bridge _).orElse (((Spared.refl s).bridge _).putB _ _ _)

theorem fdbAging_spares (vid : BitVec 12) (mac : BitVec 48) : Spares s (.fdbAging vid mac) := by
  refine spares_of rfl ?_
  split
  · exact .refl s
  · exact (Spared.refl s).orElse ((Spared.refl s).fdbSet _ _ _)

theorem masterReload_spares : Spares s .masterReload :=
  spares_of rfl ((((Spared.refl s).bridge _).putF _ _ _).orElse (.refl s))

theorem frameTransmit_spares (b : Fin 64) : Spares s (.frameTransmit b) := by
  refine spares_of rfl ((Spared.refl s).orElse ?_)
  split
  · exact .refl s
  · exact ((((Spared.refl s).bridge _).updNet _ _).updNet _ _).updNet _ _

theorem pfcXon_spares (b : Fin 64) (prio : Fin 8) : Spares s (.pfcXon b prio) :=
  spares_of rfl (((Spared.refl s).updNet _ _).orElse (.refl s))

theorem pauseExpiry_spares (b : Fin 64) (prio : Fin 8) : Spares s (.pauseExpiry b prio) := by
  refine spares_of rfl ?_
  split
  · exact ((Spared.refl s).updNet _ _).orElse (.refl s)
  · exact .refl s

theorem networkLinkUp_spares (b : Fin 64) : Spares s (.networkLinkUp b) :=
  spares_of rfl ((((Spared.refl s).setPortStat _ _ _).setPortStat _ _ _).orElse (.refl s))

theorem downHoldExpiry_spares (b : Fin 64) : Spares s (.downHoldExpiry b) :=
  spares_of rfl (((Spared.refl s).holdEnds _).orElse (.refl s))

theorem losslessHoldExpiry_spares (v : Fin 960) : Spares s (.losslessHoldExpiry v) := by
  refine spares_of rfl ?_
  split
  · exact ((Spared.refl s).bridge _).putR _ _
  · exact .refl s

theorem heartbeat_spares (r : Requester) (v : Word) : Spares s (.heartbeat r v) :=
  spares_of rfl (((Spared.refl s).vault _).orElse (.refl s))

theorem counterIncrement_spares (r : Requester) (v : Word) : Spares s (.counterIncrement r v) :=
  spares_of rfl (((Spared.refl s).incCounter _).orElse (.refl s))

theorem bcHeartbeat_spares : Spares s .bcHeartbeat := spares_of rfl (((Spared.refl s).updG _).orElse (.refl s))

/-- A poll that finds no lost phase (R459). -/
theorem sensorPoll_spares {x : Polled} (hx : x.phases = []) : Spares s (.sensorPoll x) := by
  refine spares_of rfl ?_
  rw [hx, List.bind_eq_flatMap, List.flatMap_nil]
  have hloads := Spared.foldl (f := fun s (e : DomId × Nat) =>
    if e.1.val < 24 || !(getD s e.1).powered || (getD s e.1).stopped then s else askLoad s e.1 e.2)
    (fun _ _ h => h.orElse (h.askLoad _ _)) x.loads (.refl s)
  have hflashes := (Spared.foldl (f := flashFails) (fun _ _ h => h.flashFails _) x.flashes hloads).configEval
  have htemps := Spared.foldl (fun _ (e : DomId × Nat) h => h.throttleDom e.1 e.2) x.temps hflashes
  exact (htemps.updG _).orElse htemps

theorem powerBrake_spares : Spares s .powerBrake := spares_of rfl ((Spared.refl s).brakeOn.orElse (.refl s))

theorem powerBrakeRelease_spares : Spares s .powerBrakeRelease := spares_of rfl ((Spared.refl s).orElse (Spared.refl s).brakeOff)

theorem logFlashAppend_spares : Spares s .logFlashAppend := by
  refine spares_of (exec_logFlashAppend s) ((Spared.refl s).orElse ?_)
  dsimp only
  split
  · exact (Spared.refl s).log _
  · exact (Spared.refl s).log _

theorem logbookRead_spares (x : Transport) (seq count : Nat) : Spares s (.logbookRead x seq count) :=
  spares_of rfl (Spared.serve x (.refl s) (.refl s))

theorem nonceRequest_spares (x : Transport) : Spares s (.nonceRequest x) :=
  spares_of rfl (Spared.serve x (Spared.refl s).same (.refl s))

theorem debugClear_spares (x : Transport) : Spares s (.debugClear x) :=
  spares_of rfl (Spared.serve x ((Spared.refl s).setEnables _ _ _ _) (.refl s))

theorem tokenExpiry_spares : Spares s .tokenExpiry := by
  refine spares_of rfl ?_
  split
  · exact ((Spared.refl s).setEnables _ _ _ _).orElse (.refl s)
  · exact .refl s

theorem Spared.spdmReply (x : Transport) (what a b c : Nat) (signed : Bool) (body : List Byte) :
    Spared s (spdmReply s x what a b c signed body) := Spared.serve x (.refl s) (.refl s)

theorem tapPreload_spares (x : TapScan) : Spares s (.tapPreload x) :=
  spares_of rfl ((Spared.foldl (fun _ _ h => h.board _) x.segs ((Spared.refl s).board _)).board _)

theorem observeSelect_spares (r : Requester) (k : Fin 32) (v : Word) : Spares s (.observeSelect r k v) :=
  spares_of rfl (((Spared.refl s).putR _ _).orElse (.refl s))

end Commands

/-- Settles O11, a lemma for each command of the list. -/
theorem commandFrame : Obligations.CommandFrame := by
  intro s z p c b n d t r v x prio rank hot vp vid mac bits ls loads bad temps scan k seq count core ws i hi hv hz
  refine Spares.leaves ?_ hz
  clear hz
  revert i
  have h0 := Spared.refl s
  simp only [List.forall_mem_cons]
  exact ⟨fun h => vbatLoss_spares (h trivial), fun _ => livenessToken_spares t d, fun _ => refreshDue_spares c rank hot,
    fun _ => driftTracking_spares c ws, fun _ => perstDeassertion_spares p, fun _ => portReady_spares p, fun _ => learn_spares,
    fun _ => fdbChange_spares n, fun _ => fdbAging_spares vid mac, fun _ => spares_of rfl (h0.fdbCommand r 1 v),
    fun _ => spares_of rfl (h0.fdbCommand r 2 v), fun _ => spares_of rfl (h0.fdbCommand r 3 v),
    fun _ => spares_of rfl (h0.fdbCommand r 4 v), fun _ => spares_of rfl (h0.fdbCommand r 5 v), fun _ => masterReload_spares,
    fun _ => frameTransmit_spares b, fun _ => pfcXon_spares b prio, fun _ => pauseExpiry_spares b prio,
    fun _ => spares_of rfl (h0.netDown b), fun _ => networkLinkUp_spares b, fun _ => downHoldExpiry_spares b,
    fun _ => losslessHoldExpiry_spares vp, fun _ => heartbeat_spares r v, fun _ => counterIncrement_spares r v,
    fun _ => bcHeartbeat_spares, fun _ => sensorPoll_spares rfl, fun _ => powerBrake_spares, fun _ => powerBrakeRelease_spares,
    fun _ => logFlashAppend_spares, fun _ => spares_of rfl (h0.updG _), fun _ => logbookRead_spares x seq count,
    fun _ => spares_of rfl (.spdmReply x _ _ _ _ _ _), fun _ => spares_of rfl (.spdmReply x _ _ _ _ _ _),
    fun _ => spares_of rfl (.spdmReply x _ _ _ _ _ _), fun _ => spares_of rfl (.spdmReply x _ _ _ _ _ _),
    fun _ => nonceRequest_spares x, fun _ => debugClear_spares x, fun _ => tokenExpiry_spares, fun _ => spares_of rfl (h0.board _),
    fun _ => spares_of rfl ((h0.board _).board _), fun _ => spares_of rfl ((h0.board _).board _), fun _ => tapPreload_spares scan,
    fun _ => spares_of rfl (h0.tapDrive _), fun _ => spares_of rfl (h0.tapDrive _), fun _ => spares_of rfl (h0.tapDrive _),
    fun _ => observeSelect_spares r k v, List.forall_mem_nil _⟩

/-! ### Time, fences and invalidation (R41, R105, R116 to R119, R233, R234) -/

section System
variable {s u q : State} {t : Tid} {rd ra rb : RegNo} {pkg : Bool}

theorem fetched_hostWait {ws : List (BitVec 32)} (h : fetched s t ws = some u) : (getT u t).hostWait = none := by
  obtain ⟨-, -, -, -, hw⟩ := fetched_spec h
  exact hw

/-- An instruction that writes one integer result retires with it. -/
theorem instrNext_putInt {ws : List (BitVec 32)} {w : Word} {body : State → R State} (h : fetched s t ws = some u)
    (hb : body u = .ok (putInt (useRegs u t [rd]) t rd w)) :
    instrNext s t ws body = .next (done s (putInt (useRegs u t [rd]) t rd w) t ws) :=
  instrNext_done h hb (by rw [putInt_hostWait, useRegs_hostWait, fetched_hostWait h])

theorem exec_feat_done {imm : BitVec 15} (h : fetched s t [wIMM 0x5C rd 0 imm] = some u) :
    exec (.feat t [] rd 0 imm) s =
      .next (done s (putInt (useRegs u t [rd]) t rd (if imm = 0 then featureW u else 0)) t [wIMM 0x5C rd 0 imm]) :=
  instrNext_putInt h (by simp)

/-- ABAR at a report point with nothing outstanding only advances (R119). -/
theorem exec_abar_done (hq : quiet s t = some q) (h : fetched q t [wREG 0x4A 0 0 0 0] = some u) :
    exec (.abar t) s = .next (done q u t [wREG 0x4A 0 0 0 0]) :=
  (atReportPoint_quiet (run := fun s => instrNext s t [wREG 0x4A 0 0 0 0] fun s => .ok s) hq).trans
    (instrNext_done h rfl (fetched_hostWait h))

/-- A prefetch in a mode of format MEM asks for its line, and raises nothing. -/
theorem exec_prf_done {am : BitVec 3} {imm : BitVec 12} (h : fetched s t [wMEM 0x4C 0 ra am imm] = some u) (h3 : am ≠ 3) (h7 : am ≠ 7)
    (hw : (getT (prefetchLine u t am ra imm) t).hostWait = none) :
    exec (.prf t ra am imm) s = .next (done s (prefetchLine u t am ra imm) t [wMEM 0x4C 0 ra am imm]) :=
  instrNext_done h (if_neg (not_or.2 ⟨h3, h7⟩)) hw

/-- The word whose authority a TLBI needs: the root of the second stage for the kinds that name it, otherwise that of the first (R142). -/
def tlbiWord (t : Tid) (kind : Nat) : Nat := if 4 ≤ kind ∧ kind ≤ 6 then rBcXlatRoot2 t.val else rBcXlatRoot1 t.val

/-- The state once the stores before a TLBI are performed and what its kind selects is removed. -/
def tlbiDone (v : State) (t : Tid) (pkg : Bool) (kind : Nat) (ra rb : RegNo) : State :=
  updT (tlbiAll (drainAll v t) t pkg kind (xctx (drainAll v t) t).vmid ((getT v t).int ra).toNat ((getT v t).int rb).toNat) t
    (fun x => { x with tlbiWide := x.tlbiWide || pkg })

theorem tlbi_done {kind : Nat} (hk : kind ≠ 8)
    (h : fetched s t [wREG 0x5D rd ra rb ((0 : BitVec 5) ++ BitVec.ofBool pkg ++ BitVec.ofNat 4 kind)] = some u)
    (ha : authorityCause (trusted (useRegs u t [rd, ra, rb]) t) ((getT (useRegs u t [rd, ra, rb]) t).greg rd) (tlbiWord t kind) = none)
    (hw : (getT (tlbiDone (useRegs u t [rd, ra, rb]) t pkg kind ra rb) t).hostWait = none) :
    tlbi s t kind rd ra rb pkg 0 = .next (done s (tlbiDone (useRegs u t [rd, ra, rb]) t pkg kind ra rb) t
      [wREG 0x5D rd ra rb ((0 : BitVec 5) ++ BitVec.ofBool pkg ++ BitVec.ofNat 4 kind)]) := by
  refine instrNext_done h ?_ hw
  unfold tlbiWord at ha
  simp only [ne_eq, not_true, if_false, ha, guardCap, bind, Except.bind, if_neg hk]
  rfl

/-- A SYNC whose scope has nothing left to be performed completes the store queues there (R234). -/
theorem exec_tlbiSync_done
    (h : fetched s t [wREG 0x5D rd ra rb ((0 : BitVec 5) ++ BitVec.ofBool pkg ++ BitVec.ofNat 4 8)] = some u)
    (ha : authorityCause (trusted (useRegs u t [rd, ra, rb]) t) ((getT (useRegs u t [rd, ra, rb]) t).greg rd) (rBcXlatRoot1 t.val) = none)
    (hc : syncClear s t pkg = true)
    (hw : (getT (updT (syncDrain (drainAll (useRegs u t [rd, ra, rb]) t) t pkg) t (fun x => { x with tlbiWide := false })) t).hostWait =
      none) :
    exec (.tlbiSync t rd ra rb pkg 0) s = .next (done s
      (updT (syncDrain (drainAll (useRegs u t [rd, ra, rb]) t) t pkg) t (fun x => { x with tlbiWide := false })) t
      [wREG 0x5D rd ra rb ((0 : BitVec 5) ++ BitVec.ofBool pkg ++ BitVec.ofNat 4 8)]) := by
  rw [exec_tlbiSync, execTlbiSync, if_neg (by simp [hc])]
  refine instrNext_done h ?_ hw
  simp [ha, guardCap, bind, Except.bind]

end System

/-- Settles O20, a clause for each instruction: its body succeeds, and it retires with the body's state. -/
theorem systemCompletes : Obligations.SystemCompletes := by
  refine ⟨fun s u t rd h => instrNext_putInt h rfl, fun s u t rd imm h => exec_feat_done h, fun s u t => ?_,
    fun s q u t => exec_abar_done, fun s u t ra am imm => exec_prf_done, fun s u t rd ra rb pkg => ?_,
    fun s u t rd ra rb pkg => exec_tlbiSync_done⟩
  · simp only [List.forall_mem_cons]
    exact ⟨fun h => instrNext_done h rfl, fun h => instrNext_done h rfl, fun h => instrNext_done h rfl,
      fun h => instrNext_done h rfl, fun h => instrNext_done h rfl, fun h => instrNext_done h rfl, List.forall_mem_nil _⟩
  · simp only [List.forall_mem_cons]
    exact ⟨tlbi_done (by decide), tlbi_done (by decide), tlbi_done (by decide), tlbi_done (by decide), tlbi_done (by decide),
      tlbi_done (by decide), tlbi_done (by decide), List.forall_mem_nil _⟩

/-! ### Writes of registers alone -/

/-- Writing a list of registers changes registers and nothing else. -/
theorem foldl_putR_eq (w : Nat → Word) (l : List Nat) (s : State) :
    l.foldl (fun t r => t.putR r (w r)) s = { s with regs := (l.foldl (fun t r => t.putR r (w r)) s).regs } := by
  induction l generalizing s with
  | nil => rfl
  | cons r l ih => exact ih (s.putR r (w r))

/-- A register of the list reads what was written, any other as it did. -/
theorem getR_foldl_putR (w : Nat → Word) (l : List Nat) (s : State) (a : Nat) :
    (l.foldl (fun t r => t.putR r (w r)) s).getR a = if a ∈ l then w a else s.getR a := by
  induction l generalizing s with
  | nil => simp
  | cons r l ih =>
    rw [List.foldl_cons, ih]
    by_cases hl : a ∈ l
    · simp [hl]
    · by_cases hr : a = r
      · simp [hr]
      · simp [hl, hr, getR_putR_other s _ hr]

theorem rVltCounter_mem_islandRegs (n : Fin 16) : rVltCounter n ∈ islandRegs :=
  List.mem_append_right _ (List.mem_map.2 ⟨n, List.mem_range.2 n.isLt, rfl⟩)

/-! ### The vault island without its supply (R65, R450) -/

section Island
variable (s : State)

theorem setDbgEn_getR (bits : Nat) {a : Nat} (h : a ≠ rVltDbgEn) : (setDbgEn s bits).getR a = s.getR a := getR_putR_other s _ h

/-- A tamper leaves the key and the slots cleared; with main power present its record is written at once. -/
theorem tamper_vault (cause : Nat) :
    (tamper s cause).vault =
      { s.vault with mkValid := false, slots := [], opened := [], unlogged := !s.board.pwrgdMain } := by
  unfold tamper
  dsimp only
  split
  · next h => rw [show s.board.pwrgdMain = true from h]; rfl
  · next h => rw [show s.board.pwrgdMain = false from Bool.eq_false_iff.2 h]; rfl

theorem tamper_log_flash (cause : Nat) : (tamper s cause).log.flash = s.log.flash := by
  unfold tamper
  dsimp only
  split
  · unfold tamperRecord logRecord
    dsimp only
    split <;> rfl
  · rfl

theorem tamper_fuses (cause : Nat) : (tamper s cause).fuses = s.fuses := by
  unfold tamper
  dsimp only
  split <;> rfl

theorem tamper_getR_rVltTamper (cause : Nat) :
    (tamper s cause).getR rVltTamper =
      setFld (setFld (setFld (s.getR rVltTamper) VltTamper.latched 1) VltTamper.cause cause) VltTamper.tamper_time
        (s.getF rVltRtc VltRtc.ticks / 32768) := by
  unfold tamper
  dsimp only
  split
  · have h1 : rVltTamper ≠ rVltDbgEn := by decide
    have h2 : rVltTamper ≠ rDbgAccess := by decide
    refine Eq.trans (setDbgEn_getR _ 0 h1) ((getR_putR_other _ _ h2).trans ?_)
    exact getR_putR_same ..
  · exact getR_putR_same ..

theorem islandOut_eq : islandOut s = { tamper s 0x40 with regs := (islandOut s).regs } :=
  foldl_putR_eq Config.islandWord (islandRegs.drop 1) (tamper s 0x40)

theorem islandOut_vault :
    (islandOut s).vault = { s.vault with mkValid := false, slots := [], opened := [], unlogged := !s.board.pwrgdMain } := by
  rw [islandOut_eq, ← tamper_vault s 0x40]

theorem islandOut_log_flash : (islandOut s).log.flash = s.log.flash := by rw [islandOut_eq, ← tamper_log_flash s 0x40]

theorem islandOut_fuses : (islandOut s).fuses = s.fuses := by rw [islandOut_eq, ← tamper_fuses s 0x40]

/-- The latch of the tamper outlives the island's logic. -/
theorem islandOut_getR_rVltTamper : (islandOut s).getR rVltTamper = (tamper s 0x40).getR rVltTamper :=
  (getR_foldl_putR Config.islandWord (islandRegs.drop 1) (tamper s 0x40) rVltTamper).trans (if_neg (by decide))

end Island

/-! ### Device resets (R503, R504) -/

section DeviceReset
variable (s : State)

/-- What is empty after a device reset, and what outlives it. -/
def ResetFrom (s z : State) (cause : Nat) : Prop :=
  z.threads = [] ∧ z.cores = [] ∧ z.mem = [] ∧ z.tags = [] ∧ z.dir = [] ∧ z.chans = [] ∧ z.txns = [] ∧ z.irqMsgs = [] ∧
    z.getF rBcBootStatus BcBootStatus.stage = 0 ∧ z.getF rBcBootStatus BcBootStatus.reset_cause = cause ∧ z.fuses = s.fuses ∧
    z.dimms = s.dimms ∧ z.hostMem = s.hostMem ∧ z.log = s.log ∧ z.vault.mkValid = s.vault.mkValid ∧ z.vault.slots = [] ∧
    z.getR rVltTamper = s.getR rVltTamper ∧ z.getR rVltRtc = s.getR rVltRtc ∧
    (∀ n : Fin 16, z.getR (rVltCounter n) = s.getR (rVltCounter n)) ∧ z.board.thermTrip = s.board.thermTrip ∧ z.pending = s.pending

theorem freshState_empty :
    (freshState s).threads = [] ∧ (freshState s).cores = [] ∧ (freshState s).mem = [] ∧ (freshState s).tags = [] ∧
      (freshState s).dir = [] ∧ (freshState s).chans = [] ∧ (freshState s).txns = [] ∧ (freshState s).irqMsgs = [] := by
  unfold freshState
  dsimp only
  rw [foldl_putR_eq]
  exact ⟨rfl, rfl, rfl, rfl, rfl, rfl, rfl, rfl⟩

theorem freshState_kept :
    (freshState s).fuses = s.fuses ∧ (freshState s).dimms = s.dimms ∧ (freshState s).hostMem = s.hostMem ∧ (freshState s).log = s.log ∧
      (freshState s).vault = islandVault s.vault ∧ (freshState s).pending = s.pending := by
  unfold freshState
  dsimp only
  rw [foldl_putR_eq]
  exact ⟨rfl, rfl, rfl, rfl, rfl, rfl⟩

/-- The island's registers stay; every other register has its reset value. -/
theorem freshState_getR (a : Nat) : (freshState s).getR a = if a ∈ islandRegs then s.getR a else resetVal a := by
  unfold freshState
  dsimp only
  rw [getR_foldl_putR]
  rfl

theorem keepRefs_getR (t : State) {a : Nat} (h : a ≠ rBcTbStatus) : (keepRefs s t).getR a = t.getR a := by
  simp only [keepRefs, tbSet, State.putB, State.putF, getR_putR_other _ _ h]

theorem deviceReset_eq (cause : Nat) :
    ∃ R, deviceReset s cause = { freshState s with board := freshBoard s.board, regs := R } := by
  unfold deviceReset
  generalize freshState s = f
  exact ⟨_, rfl⟩

theorem deviceReset_getR {a : Nat} (cause : Nat) (hb : a ≠ rBcBootStatus) (ht : a ≠ rBcTbStatus) :
    (deviceReset s cause).getR a = (freshState s).getR a := by
  rw [deviceReset]
  generalize freshState s = f
  rw [State.putF, getR_putR_other _ _ hb, keepRefs_getR s _ ht]
  rfl

theorem deviceReset_island {a : Nat} (cause : Nat) (ha : a ∈ islandRegs) : (deviceReset s cause).getR a = s.getR a := by
  have hb : a ≠ rBcBootStatus := fun h => absurd (h ▸ ha) (by decide)
  have ht : a ≠ rBcTbStatus := fun h => absurd (h ▸ ha) (by decide)
  rw [deviceReset_getR s cause hb ht, freshState_getR, if_pos ha]

theorem deviceReset_stage (cause : Nat) : (deviceReset s cause).getF rBcBootStatus BcBootStatus.stage = 0 := by
  have hreset : fld (resetVal rBcBootStatus) BcBootStatus.stage = 0 := by decide
  have hfresh : (freshState s).getR rBcBootStatus = resetVal rBcBootStatus := (freshState_getR s _).trans (if_neg (by decide))
  rw [← hfresh] at hreset
  rw [deviceReset]
  generalize freshState s = f at *
  rw [getF_putF_other _ _ _ _ (.inr (by decide)), State.getF, keepRefs_getR s _ (by decide)]
  exact hreset

theorem deviceReset_cause {cause : Nat} (h : cause < 16) : (deviceReset s cause).getF rBcBootStatus BcBootStatus.reset_cause = cause :=
  (getF_putF_same _ _ _ _ (by decide)).trans (Nat.mod_eq_of_lt h)

theorem deviceReset_resetFrom {cause : Nat} (h : cause < 16) : ResetFrom s (deviceReset s cause) cause := by
  obtain ⟨hthreads, hcores, hmem, htags, hdir, hchans, htxns, hirq⟩ := freshState_empty s
  obtain ⟨hfuses, hdimms, hhost, hlog, hvault, hpending⟩ := freshState_kept s
  have hkey : (freshState s).vault.mkValid = s.vault.mkValid := by rw [hvault, islandVault]
  have hslots : (freshState s).vault.slots = [] := by rw [hvault]; rfl
  have hstage := deviceReset_stage s cause
  have hcause := deviceReset_cause s h
  have hisland := fun a => deviceReset_island s (a := a) cause
  obtain ⟨R, hR⟩ := deviceReset_eq s cause
  rw [hR] at hstage hcause hisland ⊢
  generalize freshState s = f at *
  exact ⟨hthreads, hcores, hmem, htags, hdir, hchans, htxns, hirq, hstage, hcause, hfuses, hdimms, hhost,
    hlog, hkey, hslots, hisland _ (by decide), hisland _ (by decide), fun n => hisland _ (rVltCounter_mem_islandRegs n), rfl, hpending⟩

/-- A change of board signals after a reset, or before it, touches nothing else of what the reset leaves. -/
theorem ResetFrom.updB {s z : State} {cause : Nat} (g : Board → Board) (hg : (g z.board).thermTrip = z.board.thermTrip)
    (h : ResetFrom s z cause) : ResetFrom s (updB z g) cause := by
  obtain ⟨hthreads, hcores, hmem, htags, hdir, hchans, htxns, hirq, hstage, hcause, hfuses, hdimms, hhost, hlog, hkey, hslots, htamper,
    hrtc, hcounters, htrip, hpending⟩ := h
  exact ⟨hthreads, hcores, hmem, htags, hdir, hchans, htxns, hirq, (getF_congr rfl _ _).trans hstage, (getF_congr rfl _ _).trans hcause,
    hfuses, hdimms, hhost, hlog, hkey, hslots, (getR_congr rfl _).trans htamper, (getR_congr rfl _).trans hrtc,
    fun n => (getR_congr rfl _).trans (hcounters n), hg.trans htrip, hpending⟩

theorem ResetFrom.ofUpdB {s z : State} {cause : Nat} (g : Board → Board) (hg : (g s.board).thermTrip = s.board.thermTrip)
    (h : ResetFrom (Machine.updB s g) z cause) : ResetFrom s z cause := by
  obtain ⟨hthreads, hcores, hmem, htags, hdir, hchans, htxns, hirq, hstage, hcause, hfuses, hdimms, hhost, hlog, hkey, hslots, htamper,
    hrtc, hcounters, htrip, hpending⟩ := h
  exact ⟨hthreads, hcores, hmem, htags, hdir, hchans, htxns, hirq, hstage, hcause, hfuses, hdimms, hhost, hlog, hkey, hslots,
    htamper.trans (getR_congr rfl _), hrtc.trans (getR_congr rfl _), fun n => (hcounters n).trans (getR_congr rfl _), htrip.trans hg,
    hpending⟩

end DeviceReset

/-! ### Standby power (R506) -/

section Standby
variable (s : State)

/-- What stands as the island's supply fails: the state as it was on the battery or a charged capacitor, otherwise the island out (R65). -/
def islandAt (s : State) : State := if s.vault.vbat ∨ 2000 ≤ s.vault.hold then s else islandOut s

theorem islandAt_fuses : (islandAt s).fuses = s.fuses := by
  unfold islandAt
  split
  · rfl
  · exact islandOut_fuses s

theorem islandAt_log_flash : (islandAt s).log.flash = s.log.flash := by
  unfold islandAt
  split
  · rfl
  · exact islandOut_log_flash s

theorem islandAt_hold : (islandAt s).vault.hold = s.vault.hold := by
  unfold islandAt
  split
  · rfl
  · rw [islandOut_vault]

/-- Losing VDD_STBY leaves of the device what a reset does, but for the board's signals, base camp's queues and the logbook outside its
flash (R461, R506). -/
theorem standbyLoss_eq :
    ∃ m b, standbyLoss s = { freshState (islandAt s) with
        log := { Logbook.init with flash := (islandAt s).log.flash }, mgmt := m, board := b } ∧
      b.pwrgdStby = false ∧ b.pwrEnMain = false ∧ b.thermTrip = false := by
  unfold standbyLoss
  rw [← islandAt]
  exact ⟨_, _, rfl, rfl, rfl, rfl⟩

end Standby

/-- What the loss of VDD_STBY leaves (R461, R506). -/
theorem standbyLoss_leaves (s : State) :
    (standbyLoss s).board.pwrgdStby = false ∧ (standbyLoss s).board.pwrEnMain = false ∧ (standbyLoss s).board.thermTrip = false ∧
      (standbyLoss s).threads = [] ∧ (standbyLoss s).mem = [] ∧ (standbyLoss s).log.flash = s.log.flash ∧
      (standbyLoss s).vault.hold = s.vault.hold ∧ (standbyLoss s).fuses = s.fuses ∧
      ((s.vault.vbat = true ∨ 2000 ≤ s.vault.hold) → (standbyLoss s).vault.mkValid = s.vault.mkValid ∧
        ∀ n : Fin 16, (standbyLoss s).getR (rVltCounter n) = s.getR (rVltCounter n)) ∧
      (s.vault.vbat = false → s.vault.hold < 2000 → (standbyLoss s).vault.mkValid = false) := by
  obtain ⟨m, b, heq, hstby, hmain, htrip⟩ := standbyLoss_eq s
  obtain ⟨hthreads, -, hmem, -, -, -, -, -⟩ := freshState_empty (islandAt s)
  obtain ⟨hfuses, -, -, -, hvault, -⟩ := freshState_kept (islandAt s)
  have hreg := freshState_getR (islandAt s)
  have hhold : (freshState (islandAt s)).vault.hold = s.vault.hold := by rw [hvault, ← islandAt_hold s, islandVault]
  have hkey : (freshState (islandAt s)).vault.mkValid = (islandAt s).vault.mkValid := by rw [hvault, islandVault]
  rw [heq]
  generalize freshState (islandAt s) = f at *
  refine ⟨hstby, hmain, htrip, hthreads, hmem, islandAt_log_flash s, hhold, hfuses.trans (islandAt_fuses s), fun h => ?_, fun hb hc => ?_⟩
  · have hat : islandAt s = s := if_pos h
    rw [hat] at hreg hkey
    exact ⟨hkey, fun n => (hreg _).trans (if_pos (rVltCounter_mem_islandRegs n))⟩
  · have hat : islandAt s = islandOut s := if_neg (by simp [hb, hc])
    rw [hat, islandOut_vault] at hkey
    exact hkey

/-- A PLDM request for a reset (R467). -/
theorem exec_pldmResetRequest_reset {s : State} (x : Transport) (hb : bcUp s = true) :
    exec (.pldmResetRequest x false) s = .next (deviceReset (serve s x (fun s => (s, .done 0))) 3) := by
  simp [execPldmResetRequest, hb]

theorem exec_pldmResetRequest_powerDown {s : State} (x : Transport) (hb : bcUp s = true) :
    exec (.pldmResetRequest x true) s =
      .next (updB (serve s x (fun s => (s, .done 0))) (fun b => { b with powerOff := true })) := by
  simp [execPldmResetRequest, hb]

/-- A stage S4 that reinstates a channel appends its entries and resets the device (R474). -/
theorem exec_stageS4_replaced {s : State} {i : Image} (hm : mayStage s 4 = true) (hb : bcUp s = true) (hp : anyPowered s = true)
    (hi : s.mgmt.running = some i) (hr : replaced (toStage s 4) ≠ []) : ∃ y, exec .stageS4 s = .next (deviceReset y 4) := by
  obtain ⟨c, cs, hcs⟩ := List.exists_cons_of_ne_nil hr
  rw [exec_stageS4, execStageS4, if_neg (by simp [hm, hb, hp])]
  simp only [hi, hcs]
  exact ⟨_, rfl⟩

theorem exec_stageS4_same {s : State} {i : Image} (hm : mayStage s 4 = true) (hb : bcUp s = true) (hp : anyPowered s = true)
    (hi : s.mgmt.running = some i) (hr : replaced (toStage s 4) = []) : exec .stageS4 s = .next (stageS4Work (toStage s 4) i) := by
  rw [exec_stageS4, execStageS4, if_neg (by simp [hm, hb, hp])]
  simp only [hi, hr]

/-! ### The board's signals (R475, R476) -/

theorem Spared.syncTimers {s y : State} (h : Spared s y) : Spared s (syncTimers y) := by
  unfold Machine.syncTimers
  split
  · exact h.same
  · exact h.same
  · exact h

theorem Spared.softStop {s y : State} (d : Nat) (h : Spared s y) : Spared s (softStop y d) := by
  unfold Machine.softStop
  extract_lets x z w
  have hw : Spared s w := ((h.orElse (h.updD _ _)).updD _ _).syncTimers.askLoad _ _
  exact ((hw.putF _ _ _).putF _ _ _).orElse hw

theorem Spared.powerRecord {s y : State} (d event reading : Nat) (h : Spared s y) : Spared s (powerRecord y d event reading) :=
  h.logRecord ..

theorem Spared.packageCritical {s y : State} (d reading : Nat) (h : Spared s y) : Spared s (packageCritical y d reading) :=
  ((Spared.foldl (fun _ _ h => h.softStop _) _ h).board _).powerRecord _ _ _

theorem Spared.mainPower {s y : State} (level : Bool) (h : Spared s y) : Spared s (mainPower y level) :=
  ((h.board _).packageCritical _ _).orElse (h.board _)

theorem syncTimers_board (s : State) : (syncTimers s).board = s.board := by
  unfold syncTimers
  split <;> rfl

theorem softStop_board (s : State) (d : Nat) : (softStop s d).board = s.board := by
  unfold softStop
  extract_lets x z w
  have hz : z.board = s.board := (apply_ite State.board _ _ _).trans (ite_self _)
  have hw : w.board = s.board := (syncTimers_board _).trans hz
  rw [apply_ite State.board, State.putF_board, State.putF_board, ite_self]
  exact hw

/-- Steps that leave the board's signals as they are leave them so however many of them there are. -/
theorem foldl_board_same {α : Type} {f : State → α → State} (hf : ∀ s a, (f s a).board = s.board) (l : List α) (s : State) :
    (l.foldl f s).board = s.board :=
  l.foldlRecOn f (motive := fun z => z.board = s.board) rfl fun z hz a _ => (hf z a).trans hz

theorem packageCritical_board (s : State) (d reading : Nat) :
    (packageCritical s d reading).board = { s.board with critical := true } := by
  rw [packageCritical, powerRecord, logRecord_board]
  dsimp only
  rw [foldl_board_same softStop_board]

theorem mainPower_pwrgdMain (s : State) (level : Bool) : (mainPower s level).board.pwrgdMain = level := by
  unfold mainPower
  dsimp only
  split
  · rw [packageCritical_board]
    rfl
  · rfl

/-- Main power that falls after S3 while it is asked for is a package critical (R475). -/
theorem mainPower_critical {s : State} (hm : s.board.pwrgdMain = true) (he : s.board.pwrEnMain = true) (hs : 3 ≤ stageOf s) :
    (mainPower s false).board.critical = true := by
  unfold mainPower
  extract_lets fell y
  have hen : y.board.pwrEnMain = true := he
  have hst : 3 ≤ stageOf y := hs
  split
  · rw [packageCritical_board]
  · next h => simpa [fell, hm, hen, hst] using h

/-- S0 starts the timebase (R40). -/
theorem powerGood_of_off {s : State} (h : s.board.pwrgdStby = false) :
    (powerGood s).board.pwrgdStby = true ∧ (powerGood s).time = 0 ∧ (powerGood s).tb.counting = true := by
  rw [powerGood, if_neg (by simp [h])]
  exact ⟨rfl, rfl, rfl⟩

theorem powerGood_of_on {s : State} (h : s.board.pwrgdStby = true) : powerGood s = s := if_pos h

/-! ### Resets below device level (R503, R505) -/

/-- The resets of blocks from `s` to `z`: memory and the interrupt messages stay, empty caches stay empty, and a reset memory controller
stays as it is. -/
structure Cools (s z : State) : Prop where
  mem : z.mem = s.mem
  irqMsgs : z.irqMsgs = s.irqMsgs
  lines : ∀ k, (getC s k).lines = [] → (getC z k).lines = []
  mcs : ∀ c, getM s c = Mc.init → getM z c = Mc.init

section Cools
variable {s y z : State}

theorem Cools.refl (s : State) : Cools s s := ⟨rfl, rfl, fun _ h => h, fun _ h => h⟩

theorem Cools.trans (h : Cools s y) (h' : Cools y z) : Cools s z :=
  ⟨h'.mem.trans h.mem, h'.irqMsgs.trans h.irqMsgs, fun k hk => h'.lines k (h.lines k hk), fun c hc => h'.mcs c (h.mcs c hc)⟩

/-- A step that leaves memory, messages, cores and controllers as they are. -/
theorem Cools.same (h : Cools s y) (hmem : z.mem = y.mem) (hirq : z.irqMsgs = y.irqMsgs) (hcores : z.cores = y.cores)
    (hmcs : z.mcs = y.mcs) : Cools s z :=
  h.trans ⟨hmem, hirq, fun k hk => by rw [getC_congr hcores, hk], fun c hc => by rwa [getM, hmcs]⟩

theorem Cools.foldl {α : Type} {f : State → α → State} (hf : ∀ y a, Cools s y → Cools s (f y a)) (l : List α) (h : Cools s y) :
    Cools s (l.foldl f y) :=
  l.foldlRecOn f (motive := Cools s) h fun y hy a _ => hf y a hy

/-- Of a run of steps each of which keeps `P`, one that brings `P` about leaves it standing at the end. -/
theorem foldl_establishes {α : Type} {f : State → α → State} {P : State → Prop} {l : List α} {a : α} (hm : a ∈ l)
    (hk : ∀ y b, P y → P (f y b)) (ha : ∀ y, P (f y a)) (s : State) : P (l.foldl f s) := by
  induction l generalizing s with
  | nil => cases hm
  | cons b l ih =>
    rcases List.mem_cons.1 hm with rfl | hl
    · exact l.foldlRecOn f (motive := P) (ha s) fun y hy b _ => hk y b hy
    · exact ih hl (f s b)

theorem Cools.putR (a : Nat) (v : Word) (h : Cools s y) : Cools s (y.putR a v) := h.same rfl rfl rfl rfl
theorem Cools.putF (a : Nat) (f : Fld) (n : Nat) (h : Cools s y) : Cools s (y.putF a f n) := h.same rfl rfl rfl rfl
theorem Cools.updD (d : Nat) (f : Dom → Dom) (h : Cools s y) : Cools s (updD y d f) := h.same rfl rfl rfl rfl
theorem Cools.putT (t : Tid) (x : Thread) (h : Cools s y) : Cools s (putT y t x) := h.same rfl rfl rfl rfl

theorem Cools.orElse {p : Prop} [Decidable p] {a b : State} (ha : Cools s a) (hb : Cools s b) : Cools s (if p then a else b) := by
  split
  · exact ha
  · exact hb

theorem Cools.softReset (u : Nat) (keep : List Nat) (h : Cools s y) : Cools s (softReset y u keep) := by
  unfold Machine.softReset
  exact Cools.foldl (fun _ r h => h.orElse (Cools.foldl (fun _ o h => h.orElse (h.putR _ _)) (rowOffs r) h)) _ h

/-- A core's record replaced by one whose caches are empty. -/
theorem Cools.putC {k : Nat} {x : Core} (hx : x.lines = []) (h : Cools s y) : Cools s (putC y k x) :=
  h.trans ⟨rfl, rfl, fun j hj => by
    by_cases hjk : j = k
    · rw [hjk, getC_putC_same, hx]
    · rw [getC_putC_other y x hjk, hj], fun _ hc => hc⟩

theorem Cools.dropLine (k line : Nat) (h : Cools s y) : Cools s (dropLine y k line) :=
  h.trans ⟨rfl, rfl, fun j hj => by
    by_cases hjk : j = k
    · subst hjk
      rw [Machine.dropLine, getC_updC_same, hj]
      rfl
    · rw [Machine.dropLine, updC, getC_putC_other _ _ hjk, hj], fun _ hc => hc⟩

/-- A memory controller put back to its reset state. -/
theorem Cools.resetMc (c : Nat) (h : Cools s y) : Cools s (updM y c (fun _ => Mc.init)) :=
  h.trans ⟨rfl, rfl, fun _ hk => hk, fun d hd => by
    by_cases hdc : d = c
    · rw [hdc, getM, updM, mget_mput_same]
    · rw [getM, updM, mget_mput_other _ _ _ _ hdc]
      exact hd⟩

theorem Cools.gateCore (k : Nat) (h : Cools s y) : Cools s (gateCore y k) := by
  unfold Machine.gateCore
  extract_lets u y1 y2 y3
  have h1 : Cools s y1 := Cools.foldl (fun _ _ h => h.softReset _ _) _ h
  have h2 : Cools s y2 := Cools.foldl (fun _ _ h => h.dropLine _ _) _ h1
  exact (h2.putC rfl).updD _ _

/-- A thread of a core under reset is halted, unless it never started. -/
def haltThread (s : State) (n : Nat) : State :=
  if (getT s (tidOf n)).run == .unstarted then s else putT s (tidOf n) { Thread.init with run := .halted }

/-- A core's reset gates it, and halts the threads of the virtual core it carries, if it carries one. -/
theorem resetCore_cases (s : State) (k : Nat) :
    resetCore s k = gateCore s k ∨ ∃ v, resetCore s k = [2 * v, 2 * v + 1].foldl haltThread (gateCore s k) := by
  unfold resetCore
  dsimp only
  split
  · exact .inl rfl
  · exact .inr ⟨_, rfl⟩

theorem Cools.resetCore (k : Nat) (h : Cools s y) : Cools s (resetCore y k) := by
  rcases resetCore_cases y k with hr | ⟨v, hr⟩
  · exact hr ▸ h.gateCore k
  · exact hr ▸ Cools.foldl (fun _ _ h => h.orElse (h.putT _ _)) _ (h.gateCore k)

theorem Cools.resetSlice (i : Nat) (h : Cools s y) : Cools s (resetSlice y i) :=
  (h.softReset (sliceUid i) []).same rfl rfl rfl rfl

theorem Cools.resetTile (i : Nat) (h : Cools s y) : Cools s (resetTile y i) :=
  (((h.softReset _ _).resetCore _).resetCore _).resetSlice _

/-- After its tiles, a sheaf's reset turns to its regulator and governor. -/
theorem Cools.resetSheaf_tiles (s : State) (h : Nat) :
    Cools ([0, 1, 2, 3].foldl (fun s j => Machine.resetTile s (4 * h + j)) s) (resetSheaf s h) := by
  unfold resetSheaf
  extract_lets y1 y2 old y3 y4
  have h3 : Cools y1 y3 := ((Cools.refl y1).updD _ _).softReset _ _
  exact ((h3.putF _ _ _).orElse h3).updD _ _

theorem Cools.resetSheaf (j : Nat) (h : Cools s y) : Cools s (resetSheaf y j) :=
  (Cools.foldl (fun _ _ h => h.resetTile _) _ h).trans (Cools.resetSheaf_tiles y j)

end Cools

theorem Spared.softReset {s y : State} (u : Nat) (keep : List Nat) (h : Spared s y) : Spared s (softReset y u keep) := by
  unfold Machine.softReset
  exact Spared.foldl (fun _ r h => h.orElse (Spared.foldl (fun _ o h => h.orElse (h.putR _ _)) (rowOffs r) h)) _ h

theorem Spared.putC {s y : State} (k : Nat) (x : Core) (h : Spared s y) : Spared s (putC y k x) := h.same

theorem Spared.gateCore {s y : State} (k : Nat) (h : Spared s y) : Spared s (gateCore y k) := by
  unfold Machine.gateCore
  extract_lets u y1 y2 y3
  have h1 : Spared s y1 := Spared.foldl (fun _ _ h => h.softReset _ _) _ h
  have h2 : Spared s y2 := Spared.foldl (fun _ _ h => h.putC _ _) _ h1
  exact (h2.putC _ _).updD _ _

/-! The core that is reset -/

section Core
variable (s : State) (k : Nat)

theorem askLoad_cores (d w : Nat) : (askLoad s d w).cores = s.cores := rfl

theorem getC_gateCore : ∃ y, getC (gateCore s k) k = freshCore y k := by
  rw [gateCore, getC_congr (askLoad_cores _ _ _), getC_putC_same]
  exact ⟨_, rfl⟩

theorem resetCore_cores : (resetCore s k).cores = (gateCore s k).cores := by
  rcases resetCore_cases s k with hr | ⟨v, hr⟩
  · rw [hr]
  · rw [hr]
    refine List.foldlRecOn _ haltThread (motive := fun z => z.cores = (gateCore s k).cores) rfl fun z hz n _ => ?_
    rw [haltThread, apply_ite State.cores, putT_cores, ite_self, hz]

/-- A core after its reset stands as its fuses leave it. -/
theorem getC_resetCore : ∃ y, getC (resetCore s k) k = freshCore y k := by
  rw [getC_congr (resetCore_cores s k)]
  exact getC_gateCore s k

theorem resetCore_lines : (getC (resetCore s k) k).lines = [] := by
  obtain ⟨y, hy⟩ := getC_resetCore s k
  rw [hy, freshCore]
  rfl

theorem haltThread_run (n : Nat) (t : Tid) : (getT (haltThread s n) t).run = (getT s t).run ∨ (getT (haltThread s n) t).run = .halted := by
  unfold haltThread
  split
  · exact .inl rfl
  · by_cases ht : t = tidOf n
    · exact .inr (by rw [ht, getT_putT_same])
    · exact .inl (by rw [getT_putT_other _ _ ht])

/-- A core's reset leaves each thread as it ran, or halted. -/
theorem resetCore_run (t : Tid) : (getT (resetCore s k) t).run = (getT s t).run ∨ (getT (resetCore s k) t).run = .halted := by
  have hgate : getT (gateCore s k) t = getT s t := getT_congr ((Spared.refl s).gateCore k).threads t
  rcases resetCore_cases s k with hr | ⟨v, hr⟩
  · exact .inl (by rw [hr, hgate])
  · rw [hr, ← hgate]
    refine List.foldlRecOn _ haltThread
      (motive := fun z => (getT z t).run = (getT (gateCore s k) t).run ∨ (getT z t).run = .halted) (.inl rfl) fun z hz n _ => ?_
    rcases haltThread_run z n t with h | h
    · exact h ▸ hz
    · exact .inr h

end Core

/-! Tiles, sheaves and fields -/

section Blocks
variable (s : State)

theorem resetTile_lines (i : Nat) {j : Nat} (hj : j < 2) : (getC (resetTile s i) (2 * i + j)).lines = [] := by
  have hafter : ∀ y, Cools y (resetSlice (resetCore y (2 * i + 1)) i) := fun y => ((Cools.refl y).resetCore _).resetSlice _
  obtain rfl | rfl : j = 0 ∨ j = 1 := by omega
  · exact (hafter _).lines _ (resetCore_lines _ _)
  · exact ((Cools.refl _).resetSlice i).lines _ (resetCore_lines _ _)

theorem resetSheaf_lines (h : Nat) {j : Nat} (hj : j < 8) : (getC (resetSheaf s h) (8 * h + j)).lines = [] := by
  have hplace : 8 * h + j = 2 * (4 * h + j / 2) + j % 2 := by omega
  have htile : j / 2 ∈ [0, 1, 2, 3] := by
    have : j / 2 < 4 := by omega
    interval_cases j / 2 <;> decide
  refine (Cools.resetSheaf_tiles s h).lines _ (foldl_establishes (P := fun z => (getC z (8 * h + j)).lines = []) htile
    (fun y b hy => ((Cools.refl y).resetTile _).lines _ hy) (fun y => ?_) s)
  rw [hplace]
  exact resetTile_lines y _ (Nat.mod_lt _ (by decide))

theorem getD_updD_same (d : Nat) (f : Dom → Dom) : getD (updD s d f) d = f (getD s d) := by rw [getD, updD, mget_mput_same]

theorem resetSheaf_stopped (h : Nat) : (getD (resetSheaf s h) h).stopped = false := by
  rw [resetSheaf, getD_updD_same]

/-- The resets of a field's sheaves, of its stops, of its memory controllers, and of the rest of its blocks follow each other. -/
theorem resetField_parts (f : Nat) :
    ∃ y, Cools ((List.range 6).foldl (fun s j => resetSheaf s (6 * f + j)) s) y ∧
      Cools ((List.range 4).foldl (fun s j => updM (softReset s (mcUid (4 * f + j)) []) (4 * f + j) (fun _ => Mc.init)) y)
        (resetField s f) := by
  unfold resetField
  extract_lets y1 stops y2 y3 blocks y4 bar
  have h2 : Cools y1 y2 :=
    Cools.foldl (fun _ st h => Cools.foldl (fun _ _ h => h.putF _ _ _) [0, 1, 2, 3] (h.softReset _ _)) stops (.refl y1)
  have h4 : Cools y3 y4 := Cools.foldl (fun _ _ h => h.softReset _ _) blocks (.refl y3)
  exact ⟨y2, h2, h4.same rfl rfl rfl rfl⟩

theorem resetField_mem (f : Nat) : (resetField s f).mem = s.mem := by
  obtain ⟨y, hsheaves, hrest⟩ := resetField_parts s f
  have h1 : Cools s y := (Cools.foldl (fun _ _ h => h.resetSheaf _) _ (.refl s)).trans hsheaves
  exact ((Cools.foldl (fun _ _ h => (h.softReset _ _).resetMc _) _ h1).trans hrest).mem

theorem resetField_lines (f : Nat) {j : Nat} (hj : j < 48) : (getC (resetField s f) (48 * f + j)).lines = [] := by
  obtain ⟨y, hsheaves, hrest⟩ := resetField_parts s f
  have hplace : 48 * f + j = 8 * (6 * f + j / 8) + j % 8 := by omega
  have hmcs := Cools.foldl (fun _ (j : Nat) h => (h.softReset (mcUid (4 * f + j)) []).resetMc (4 * f + j)) (List.range 4) (.refl y)
  refine hrest.lines _ (hmcs.lines _ (hsheaves.lines _ (foldl_establishes (P := fun z => (getC z (48 * f + j)).lines = [])
    (List.mem_range.2 (show j / 8 < 6 by omega)) (fun y b hy => ((Cools.refl y).resetSheaf _).lines _ hy) (fun y => ?_) s)))
  rw [hplace]
  exact resetSheaf_lines y _ (Nat.mod_lt _ (by decide))

theorem resetField_mcs (f : Nat) {j : Nat} (hj : j < 4) : getM (resetField s f) (4 * f + j) = Mc.init := by
  obtain ⟨y, -, hrest⟩ := resetField_parts s f
  refine hrest.mcs _ (foldl_establishes (P := fun z => getM z (4 * f + j) = Mc.init) (List.mem_range.2 hj)
    (fun y b hy => (((Cools.refl y).softReset _ _).resetMc _).mcs _ hy) (fun y => ?_) y)
  rw [getM, updM, mget_mput_same]

end Blocks

/-! ### The commands of reset -/

section Resets
variable {s : State}

theorem exec_deviceReset_due {c : BitVec 4} (h : resetDue s c.toNat = true) :
    exec (.deviceReset c) s = .next (deviceReset s c.toNat) := by
  rw [exec_deviceReset, execDeviceReset, if_pos h]

theorem exec_powerDown_asked (hp : s.board.powerOff = true) (hd : s.board.down = false) :
    exec .powerDown s = .next (deviceReset s 3) := by
  rw [exec_powerDown, execPowerDown, if_pos (by simp [hp, hd])]

/-- A power-down takes main power away (R504). -/
theorem deviceReset_pwrEnMain (cause : Nat) (hp : s.board.powerOff = true) : (deviceReset s cause).board.pwrEnMain = false := by
  obtain ⟨R, hR⟩ := deviceReset_eq s cause
  rw [hR, freshBoard, hp]
  simp

/-- RESET_IN_N low on a device that has standby power. -/
theorem exec_boardInputChange_resetInLow (hs : s.board.pwrgdStby = true) :
    exec (.boardInputChange .resetIn false) s =
      .next (updB (deviceReset (updB s (fun b => { b with resetIn := false })) 2) (fun b => { b with powerOff := false })) := by
  rw [exec_boardInputChange, execBoardInputChange, resetInput, if_neg (by simp [updB, hs])]

/-- The change of RESET_IN_N before a reset and the end of a power-down request after it touch nothing else of what a reset leaves. -/
theorem resetFrom_resetInLow (s : State) :
    ResetFrom s (updB (deviceReset (updB s (fun b => { b with resetIn := false })) 2) (fun b => { b with powerOff := false })) 2 :=
  ((deviceReset_resetFrom (updB s fun b => { b with resetIn := false }) (cause := 2) (by decide)).ofUpdB _ rfl).updB _ rfl

theorem resetIn_after_resetInLow (s : State) (cause : Nat) :
    (deviceReset (updB s (fun b => { b with resetIn := false })) cause).board.resetIn = false := by
  obtain ⟨R, hR⟩ := deviceReset_eq (updB s fun b => { b with resetIn := false }) cause
  rw [hR]
  rfl

theorem Spared.served {s : State} (x : Transport) : Spared s (Machine.serve s x (fun s => (s, .done 0))) :=
  Spared.serve x (.refl s) (.refl s)

theorem serve_regs (s : State) (x : Transport) : (serve s x (fun s => (s, .done 0))).regs = s.regs := by
  rw [serve, apply_ite State.regs]
  exact ite_self _

theorem exec_standbyPowerLoss_on (hs : s.board.pwrgdStby = true) : exec .standbyPowerLoss s = .next (standbyLoss s) := by
  rw [exec_standbyPowerLoss, execStandbyPowerLoss, if_pos hs]

theorem exec_coreReset_off {k : Fin 192} (hb : bcUp s = true) (hk : coreResetOk s k = true) :
    exec (.coreReset k) s = .next (resetCore s k) := by
  rw [exec_coreReset, execCoreReset, if_neg (by simp [hb]), if_pos hk]

theorem exec_coreReset_refused {k : Fin 192} (hb : bcUp s = true) (hk : coreResetOk s k = false) :
    exec (.coreReset k) s = .next (setupRefusal s (coreUid k)) := by
  rw [exec_coreReset, execCoreReset, if_neg (by simp [hb]), if_neg (by simp [hk])]

theorem exec_tileReset_out {i : Fin 96} (hb : bcUp s = true) (ht : (outState s (tileUid i) && outState s (sliceUid i)) = true) :
    exec (.tileReset i) s = .next (resetTile s i) := by
  rw [exec_tileReset, execTileReset, if_neg (by simp [hb]), if_pos ht]

theorem exec_tileReset_refused {i : Fin 96} (hb : bcUp s = true) (ht : (outState s (tileUid i) && outState s (sliceUid i)) = false) :
    exec (.tileReset i) s = .next (setupRefusal s (tileUid i)) := by
  rw [exec_tileReset, execTileReset, if_neg (by simp [hb]), if_neg (by simp [ht])]

theorem exec_sheafReset_out {h : Fin 24} (hb : bcUp s = true) (hc : ∀ j < 8, isUp s (coreUid (8 * h.val + j)) = false) :
    exec (.sheafReset h) s = .next (resetSheaf s h) := by
  rw [exec_sheafReset, execSheafReset, if_neg (by simp [hb]), if_pos]
  simpa using hc

theorem exec_sheafReset_refused {h : Fin 24} (hb : bcUp s = true) (hc : ∃ j < 8, isUp s (coreUid (8 * h.val + j)) = true) :
    exec (.sheafReset h) s = .next (setupRefusal s (sheafUid h)) := by
  rw [exec_sheafReset, execSheafReset, if_neg (by simp [hb]), if_neg]
  simpa using hc

theorem exec_fieldReset_out {f : Fin 4} (hb : bcUp s = true) (hu : ∀ u ∈ unitsOfField f, stateOf s u ≠ 4) :
    exec (.fieldReset f) s = .next (resetField s f) := by
  rw [exec_fieldReset, execFieldReset, if_neg (by simp [hb]), if_pos]
  exact List.all_eq_true.2 fun u hm => bne_iff_ne.2 (hu u hm)

theorem exec_fieldReset_refused {f : Fin 4} (hb : bcUp s = true) (hu : ∃ u ∈ unitsOfField f, stateOf s u = 4) :
    exec (.fieldReset f) s = .next (setupRefusal s (ssUid f)) := by
  rw [exec_fieldReset, execFieldReset, if_neg (by simp [hb]), if_neg]
  obtain ⟨u, hm, h4⟩ := hu
  exact fun h => bne_iff_ne.1 (List.all_eq_true.1 h u hm) h4

theorem putCap_board (s : State) (h n : Nat) : (putCap s h n).board = s.board := by rw [putCap, State.putF_board]

theorem brakeOn_board (s : State) : (brakeOn s).board = s.board := by
  unfold brakeOn
  split
  · rfl
  · exact (foldl_board_same (fun s (e : Nat × Nat) => putCap_board s e.2 e.1) _ _).trans (updG_board ..)

theorem brakeOff_board (s : State) : (brakeOff s).board = s.board := by
  unfold brakeOff
  split
  · rfl
  · split
    · rfl
    · exact (updG_board ..).trans (foldl_board_same (fun s (e : Nat × Nat) => putCap_board s e.2 e.1) _ s)

/-- The brake's signal moves the power caps alone (R460). -/
theorem exec_boardInputChange_pwrBrake (s : State) (level : Bool) :
    ∃ z, exec (.boardInputChange .pwrBrake level) s = .next z ∧ z.board.pwrBrake = !level ∧ z.mem = s.mem ∧ z.threads = s.threads := by
  have hy := (Spared.refl s).board { s.board with pwrBrake := !level }
  have hz := hy.brakeOff.orElse (p := level) hy.brakeOn
  refine ⟨_, rfl, ?_, hz.mem, hz.threads⟩
  rw [apply_ite State.board, brakeOff_board, brakeOn_board, ite_self]
  rfl

/-- Standby power is seen, and where it was not seen before the timebase starts. -/
theorem powerGood_leaves (s : State) :
    (powerGood s).board.pwrgdStby = true ∧ (s.board.pwrgdStby = false → (powerGood s).time = 0 ∧ (powerGood s).tb.counting = true) := by
  cases hs : s.board.pwrgdStby with
  | true => exact ⟨(congrArg (·.board.pwrgdStby) (powerGood_of_on hs)).trans hs, fun h => nomatch h⟩
  | false =>
    obtain ⟨hstby, htime, htb⟩ := powerGood_of_off hs
    exact ⟨hstby, fun _ => ⟨htime, htb⟩⟩

end Resets

/-- Settles O31, a clause for each reset, request and input of the board. -/
theorem resetCompletes : Obligations.ResetCompletes := by
  refine ⟨fun s => ⟨fun c hc => ?_, fun hp hd => ?_, fun hs => ?_⟩,
    fun s x hb => ⟨?_, ⟨_, exec_pldmResetRequest_powerDown x hb, rfl, (Spared.served x).threads, (Spared.served x).mem, serve_regs s x⟩⟩,
    fun s i hm hb hp hi => ⟨exec_stageS4_same hm hb hp hi, fun hr => ?_⟩,
    fun s hs => ⟨_, exec_standbyPowerLoss_on hs, standbyLoss_leaves s⟩,
    fun s level => ⟨⟨_, rfl, rfl, rfl, rfl, rfl⟩,
      ⟨_, rfl, mainPower_pwrgdMain s level, ((Spared.refl s).mainPower level).mem, fun hm hl he hst => hl ▸ mainPower_critical hm he hst⟩,
      exec_boardInputChange_pwrBrake s level, ⟨_, rfl, powerGood_leaves s⟩, ⟨_, rfl, rfl, rfl, rfl⟩⟩,
    fun s k hb => ⟨fun hk => ?_, exec_coreReset_refused hb⟩,
    fun s i hb => ⟨fun ht hl => ?_, exec_tileReset_refused hb⟩, fun s h hb => ⟨fun hc => ?_, exec_sheafReset_refused hb⟩,
    fun s f hb => ⟨fun hu => ?_, exec_fieldReset_refused hb⟩⟩
  · exact ⟨_, exec_deviceReset_due hc, deviceReset_resetFrom s c.isLt⟩
  · exact ⟨_, exec_powerDown_asked hp hd, deviceReset_resetFrom s (by decide), deviceReset_pwrEnMain 3 hp⟩
  · exact ⟨_, exec_boardInputChange_resetInLow hs, resetFrom_resetInLow s, resetIn_after_resetInLow s 2, rfl⟩
  · obtain ⟨hthreads, hcores, hmem, -, -, -, -, -, -, hcause, -⟩ :=
      deviceReset_resetFrom (serve s x (fun s => (s, .done 0))) (cause := 3) (by decide)
    exact ⟨_, exec_pldmResetRequest_reset x hb, hthreads, hmem, hcores, hcause⟩
  · obtain ⟨y, hy⟩ := exec_stageS4_replaced hm hb hp hi hr
    obtain ⟨hthreads, -, hmem, -, -, -, -, -, hstage, hcause, -⟩ := deviceReset_resetFrom y (cause := 4) (by decide)
    exact ⟨_, hy, hthreads, hmem, hstage, hcause⟩
  · obtain ⟨y, hy⟩ := getC_resetCore s k
    have hcool := (Cools.refl s).resetCore k
    exact ⟨_, exec_coreReset_off hb hk, resetCore_lines s k, by rw [hy]; rfl, by rw [hy]; rfl, hcool.mem, hcool.irqMsgs,
      fun t ht => (resetCore_run s k t).resolve_left ht⟩
  · exact ⟨_, exec_tileReset_out hb (by rw [ht, hl]; rfl), resetTile_lines s i (j := 0) (by decide),
      resetTile_lines s i (j := 1) (by decide), ((Cools.refl s).resetTile i).mem⟩
  · exact ⟨_, exec_sheafReset_out hb hc, resetSheaf_stopped s h, fun j hj => resetSheaf_lines s h hj, ((Cools.refl s).resetSheaf h).mem⟩
  · exact ⟨_, exec_fieldReset_out hb hu, fun j hj => resetField_lines s f hj, fun j hj => resetField_mcs s f hj, resetField_mem s f⟩

/-! ### Droops, references and voltages (R36, R42 to R44, R49) -/

theorem getD_congr {s z : State} (h : z.doms = s.doms) (d : Nat) : getD z d = getD s d := by simp only [getD, h]

theorem syncTimers_doms (s : State) : (syncTimers s).doms = s.doms := by
  unfold syncTimers
  split <;> rfl

theorem powerRecord_doms (s : State) (d event reading : Nat) : (powerRecord s d event reading).doms = s.doms := logRecord_doms ..

section Power
variable {s : State}

theorem exec_droopPause_low {d : DomId} {mv : Nat} (hmv : mv < 520) (hp : (getD s d).powered = true) (hd : (getD s d).paused = false) :
    ∃ z, exec (.droopPause d mv) s = .next z ∧ (getD z d).paused = true ∧ (getD z d).droops = (getD s d).droops + 1 := by
  rw [exec_droopPause, execDroopPause, if_neg (by simp [hp, hd, hmv])]
  refine ⟨_, rfl, ?_⟩
  have hdoms : ∀ y : State, ∀ w : Word,
      (syncTimers (powerRecord (if d.val < 24 then y.putR (rShfGovStatus (sheafUid d)) w else y) d 5 0)).doms = y.doms := fun y w => by
    rw [syncTimers_doms, powerRecord_doms, apply_ite State.doms, State.putR_doms, ite_self]
  rw [getD_congr (hdoms _ _), getD_updD_same]
  exact ⟨rfl, rfl⟩

theorem exec_droopResume_high {d : DomId} {mv : Nat} (h : 540 < mv) :
    exec (.droopResume d mv) s = .next (domMoves (updD s d (fun x => { x with paused := false })) d) := by
  rw [exec_droopResume, execDroopResume, if_pos h]

/-- The reference that is lost drove the timebase, and the other takes over or the count goes into holdover; or it did not. -/
theorem exec_referenceLoss_ok {r : RefClk} (h : s.getB rBcTbStatus (refOk r) = true) :
    exec (.referenceLoss r) s = .next (
      let s1 := (s.putB rBcTbStatus (refOk r) false).putB rBcTbStatus BcTbStatus.lost_seen true
      configEval (tbRecord (
        if !s1.getB rBcTbStatus BcTbStatus.holdover && s1.getB rBcTbStatus BcTbStatus.active == r then
          if s1.getB rBcTbStatus (refOk (!r)) then tbSwitch s1 (!r)
          else (s1.putB rBcTbStatus BcTbStatus.holdover true).putB rBcTbStatus BcTbStatus.slewing false
        else s1))) := by
  rw [exec_referenceLoss, execReferenceLoss, if_neg (by simp [h])]
  have hturn : ∀ (drove : Bool) (x y : State), (if !drove then x else y) = if drove then y else x := fun drove _ _ => by
    cases drove <;> rfl
  exact congrArg (fun y => Host.Outcome.next (configEval (tbRecord y))) (hturn _ _ _)

theorem exec_referenceReturn_lost {r : RefClk} (h : s.getB rBcTbStatus (refOk r) = false) :
    exec (.referenceReturn r) s = .next (
      let s0 : State := { s with tb := { s.tb with okSince := if r then (s.tb.okSince.1, s.time) else (s.time, s.tb.okSince.2) } }
      let s1 := s0.putB rBcTbStatus (refOk r) true
      configEval (
        if s1.getB rBcTbStatus BcTbStatus.holdover then
          ((s1.putB rBcTbStatus BcTbStatus.holdover false).putB rBcTbStatus BcTbStatus.slewing true).putB rBcTbStatus
            BcTbStatus.active r
        else s1)) := by
  rw [exec_referenceReturn, execReferenceReturn, if_neg (by simp [h])]
  rfl

theorem exec_revertSwitch_due (hr : s.getB rBcTbCtrl BcTbCtrl.revert = true)
    (ho : s.getB rBcTbStatus (refOk (s.getB rBcTbCtrl BcTbCtrl.preferred)) = true) (hh : s.getB rBcTbStatus BcTbStatus.holdover = false)
    (ha : s.getB rBcTbStatus BcTbStatus.active ≠ s.getB rBcTbCtrl BcTbCtrl.preferred)
    (ht : (if s.getB rBcTbCtrl BcTbCtrl.preferred then s.tb.okSince.2 else s.tb.okSince.1) + 1000000 ≤ s.time) :
    exec .revertSwitch s = .next (tbSwitch s (s.getB rBcTbCtrl BcTbCtrl.preferred)) := by
  rw [exec_revertSwitch, execRevertSwitch]
  exact congrArg Host.Outcome.next (if_pos (by simp [hr, ho, hh, ha, ht]))

/-- A step of the output towards its set point (R49). -/
theorem exec_voltageStep_due {d : DomId} (hp : (getD s d).powered = true) (hm : (getD s d).mv ≠ (getD s d).setMv)
    (ht : (getD s d).lastStep + 500 ≤ s.time) :
    ∃ z, exec (.voltageStep d) s = .next z ∧ (getD z d).lastStep = s.time ∧
      (getD z d).mv = if (getD s d).mv < (getD s d).setMv then min (getD s d).setMv ((getD s d).mv + 5)
        else max (getD s d).setMv ((getD s d).mv - 5) := by
  rw [exec_voltageStep, execVoltageStep]
  refine ⟨_, congrArg Host.Outcome.next (if_neg (by simp [hp, hm, ht])), ?_⟩
  have hdoms : ∀ (y : State) (n : Nat),
      (if d.val < 24 then y.putF (rShfGovStatus (sheafUid d)) ShfGovStatus.vnow_code n else y).doms = y.doms := fun y n => by
    rw [apply_ite State.doms, State.putF_doms, ite_self]
  rw [getD_congr (hdoms _ _), getD_updD_same]
  exact ⟨rfl, rfl⟩

/-! ### Power, heat and the supply (R53, R57, R61 to R65) -/

theorem exec_powerWindow_due {h : Fin 24} (mean : BitVec 12) (ht : (getD s h).window + 100000 ≤ s.time) :
    exec (.powerWindow h mean) s = .next ((updD (askLoad s h (getD s h).want) h (fun x => { x with
      window := s.time, burnt := 0 })).putF (rShfGovStatus (sheafUid h)) ShfGovStatus.power_now
        (min 0xFFF (mean.toNat + ballastMean s h))) := by
  rw [exec_powerWindow, execPowerWindow, if_neg (by omega)]

theorem exec_sensorSelfCheckFail_good {h : Fin 24} {k : Fin 4}
    (hk : (fld (s.getR (rShfTherm (sheafUid h))) ShfTherm.sensor_bad).testBit k = false) :
    exec (.sensorSelfCheckFail h k) s = .next (
      let w := s.getR (rShfTherm (sheafUid h))
      let ts := [fld w ShfTherm.t0, fld w ShfTherm.t1, fld w ShfTherm.t2, fld w ShfTherm.t3]
      let bad := fld w ShfTherm.sensor_bad ||| 2 ^ k.val
      configEval (powerRecord (s.putR (rShfTherm (sheafUid h))
        (setFld (setFld w ShfTherm.sensor_bad bad) ShfTherm.t_max (tMax bad ts))) h 4 (ts.getD k 0))) := by
  rw [exec_sensorSelfCheckFail, execSensorSelfCheckFail]
  exact congrArg Host.Outcome.next (if_neg (by simp [hk]))

theorem exec_domainTrip_hot {d : DomId} {x : BitVec 10} (hx : 600 ≤ x.toNat) (hp : (getD s d).powered = true)
    (hs : (getD s d).stopped = false) : exec (.domainTrip d x) s = .next (powerRecord (softStop s d) d 1 x.toNat) := by
  rw [exec_domainTrip, execDomainTrip, if_neg (by simp [hp, hs, hx, tripLevel])]

/-- Every reading 10 °C below the threshold: the domain ramps up and resumes (R62). -/
theorem exec_softStopResume_cool {d : DomId} {xs : List (BitVec 10)} (hs : (getD s d).stopped = true) (hc : s.board.critical = false)
    (hne : xs ≠ []) (hx : ∀ x ∈ xs, x.toNat < 560) :
    exec (.softStopResume d xs) s = .next (
      let y := updD s d (fun x => { x with stopped := false, setMv := if d.val < 24 then x.setMv else x.wasMv })
      let y := domMoves (askLoad y d (getD y d).wasWant) d
      powerRecord (if d.val < 24 then
        y.putF (rShfGovStatus (sheafUid d)) ShfGovStatus.soft_stopped 0 else y) d 2 ((xs.map BitVec.toNat).foldl max 0)) := by
  have hany : xs.any (fun r => decide (tripLevel - 40 ≤ r.toNat)) = false :=
    List.any_eq_false.2 fun x hm h => absurd (of_decide_eq_true h) (Nat.not_le.2 (hx x hm))
  rw [exec_softStopResume, execSoftStopResume, if_neg]
  simp only [hs, hc, hany, List.isEmpty_iff, hne, Bool.not_true, Bool.false_eq_true, or_self, not_false_eq_true]

theorem exec_packageCritical_hot {d : DomId} {x : BitVec 10} (hx : 640 ≤ x.toNat) (hc : s.board.critical = false)
    (hp : (getD s d).powered = true) : exec (.packageCritical d x) s = .next (packageCritical s d x.toNat) := by
  rw [exec_packageCritical, execPackageCritical, if_neg (by simp [hp, hc, hx, criticalLevel])]

theorem exec_thermTrip_ramped (hc : s.board.critical = true) (hr : rampedDown s = true) :
    exec .thermTrip s = .next { s with board := { s.board with thermTrip := true } } := by
  rw [exec_thermTrip, execThermTrip, if_pos (by simp [hc, hr])]

/-- The island's end latches a tamper of cause 0x40 (R65, R450). -/
theorem islandOut_tamper (s : State) :
    (islandOut s).getF rVltTamper VltTamper.latched = 1 ∧ (islandOut s).getF rVltTamper VltTamper.cause = 0x40 := by
  simp only [State.getF, islandOut_getR_rVltTamper, tamper_getR_rVltTamper]
  constructor
  · rw [fld_setFld_other _ _ _ _ (by decide), fld_setFld_other _ _ _ _ (by decide), fld_setFld_same _ _ _ (by decide)]
    decide
  · rw [fld_setFld_other _ _ _ _ (by decide), fld_setFld_same _ _ _ (by decide)]
    decide

theorem exec_vbatLoss_supplied (h : s.board.pwrgdStby = true ∨ 2000 ≤ s.vault.hold) :
    exec .vbatLoss s = .next { s with vault := { s.vault with vbat := false } } := by
  rw [exec_vbatLoss, execVbatLoss, setBattery_none_of_supplied h]

/-- VBAT is lost where the capacitor is spent: the island's vault is tampered with. -/
theorem exec_vbatLoss_spent (hs : s.board.pwrgdStby = false) (hh : s.vault.hold < 2000) :
    exec .vbatLoss s = .next (islandOut { s with vault := { s.vault with vbat := false } }) := by
  rw [exec_vbatLoss, execVbatLoss, setBattery, if_neg (by simp [hs, hh])]

theorem exec_holdoverCapacitorLow_alone {mv : Nat} (hv : s.vault.vbat = false) (hs : s.board.pwrgdStby = false) (hm : mv < 2000)
    (hh : 2000 ≤ s.vault.hold) :
    exec (.holdoverCapacitorLow mv) s = .next (islandOut { s with vault := { s.vault with hold := mv } }) := by
  rw [exec_holdoverCapacitorLow, execHoldoverCapacitorLow, if_neg (by simp [hv, hs, hm, hh])]

end Power

/-! ### The governor's evaluation (R52) -/

/-- A load asked of a domain, if at all, leaves its output where it is. -/
theorem askLoad_unless_mv (b : Bool) (y : State) (h load : Nat) :
    (getD (if b then y else askLoad y h load) h).mv = (getD y h).mv := by
  cases b with
  | true => rfl
  | false => rw [if_neg Bool.false_ne_true, askLoad, getD_updD_same]

/-- What an evaluation does with its choice `c`: the domain's set point and its unmet wishes, the status, the interrupt and the records,
which come when a wish is first unmet. -/
def govActs (y : State) (h tmax : Nat) (c : GovChoice) (floorLow paceLow : Bool) : State :=
  let old := getD y h
  let s := updD y h (fun x => { x with setMv := 550 + 5 * c.code, floorLow := floorLow, paceLow := paceLow, capLow := c.unmet })
  let r := rShfGovStatus (sheafUid h)
  let s := (s.putF r ShfGovStatus.vset_code c.code).putF r ShfGovStatus.limit c.limit
  let s := if floorLow then s.putF r ShfGovStatus.floor_unmet 1 else s
  let s := if paceLow then s.putF r ShfGovStatus.target_unmet 1 else s
  let s := govIrq s h ((floorLow && !old.floorLow) || (paceLow && !old.paceLow))
  let s := if floorLow && !old.floorLow then powerRecord s h 3 tmax else s
  if c.unmet && !old.capLow then capRecord s h tmax else s

theorem govIrq_doms (s : State) (h : Nat) (b : Bool) : (govIrq s h b).doms = s.doms := rfl

theorem govActs_doms (y : State) (h tmax : Nat) (c : GovChoice) (floorLow paceLow : Bool) :
    (govActs y h tmax c floorLow paceLow).doms =
      (updD y h (fun x => { x with setMv := 550 + 5 * c.code, floorLow := floorLow, paceLow := paceLow, capLow := c.unmet })).doms := by
  simp only [govActs, capRecord, apply_ite State.doms, powerRecord_doms, govIrq_doms, State.putF_doms, ite_self]

theorem getD_govActs (y : State) (h tmax : Nat) (c : GovChoice) (floorLow paceLow : Bool) :
    getD (govActs y h tmax c floorLow paceLow) h =
      { getD y h with setMv := 550 + 5 * c.code, floorLow := floorLow, paceLow := paceLow, capLow := c.unmet } :=
  (getD_congr (govActs_doms ..) h).trans (getD_updD_same ..)

theorem Spared.govActs {s y : State} (h tmax : Nat) (c : GovChoice) (floorLow paceLow : Bool) (hy : Spared s y) :
    Spared s (govActs y h tmax c floorLow paceLow) := by
  unfold Machine.govActs
  extract_lets old y1 r y2 y3 y4 y5 y6
  have h2 : Spared s y2 := ((hy.updD _ _).putF _ _ _).putF _ _ _
  have h3 : Spared s y3 := (h2.putF _ _ _).orElse h2
  have h4 : Spared s y4 := (h3.putF _ _ _).orElse h3
  have h5 : Spared s y5 := h4.same
  have h6 : Spared s y6 := (h5.powerRecord _ _ _).orElse h5
  exact (h6.powerRecord _ _ _).orElse h6

/-- Settles O28, a clause for each command. -/
theorem paceTimebaseCompletes : Obligations.PaceTimebaseCompletes := by
  refine ⟨fun s d mv => exec_droopPause_low, fun s d mv => exec_droopResume_high, fun s r => exec_referenceLoss_ok,
    fun s r => exec_referenceReturn_lost, fun s => exec_revertSwitch_due, fun s => rfl, fun s d => exec_voltageStep_due,
    fun s h => exec_powerWindow_due, fun s h k => exec_sensorSelfCheckFail_good, fun s h pace t0 t1 t2 t3 load hp => ?_,
    fun s d x => exec_domainTrip_hot, fun s d xs => exec_softStopResume_cool, fun s d x => exec_packageCritical_hot,
    fun s => exec_thermTrip_ramped, fun s => ⟨exec_vbatLoss_supplied, fun hs hh => ⟨_, exec_vbatLoss_spent hs hh, ?_⟩⟩, fun s mv => rfl,
    fun s mv hv hs hm hh => ⟨_, exec_holdoverCapacitorLow_alone hv hs hm hh, ?_⟩⟩
  · extract_lets u tmax y1 y2 y3 now idle floor req floorCode reqCode want c
    have hdoms : y2.doms = s.doms := (State.putF_doms ..).trans (State.putR_doms ..)
    have hpowered : (getD y2 h).powered = true := (congrArg Dom.powered (getD_congr hdoms h)).trans hp
    have hmv : (getD y3 h).mv = (getD s h).mv := (askLoad_unless_mv _ y2 h load).trans (congrArg Dom.mv (getD_congr hdoms h))
    have hnow : now = codeOfMv (getD y3 h).mv := congrArg codeOfMv hmv.symm
    clear_value now
    subst hnow
    have h2 : Spared s y2 := ((Spared.refl s).putR _ _).putF _ _ _
    have h3 : Spared s y3 := h2.orElse (h2.askLoad _ _)
    let floorLow := decide (floor ≠ 0) && (decide (pace < floor) ||
      decide (y3.getF (rShfPacePolicy u) ShfPacePolicy.pace_cap < floor))
    let paceLow := decide (pace < req) || c.unmet
    have hexec : exec (.governorEvaluation h ⟨pace, load⟩ t0 t1 t2 t3) s = .next (govActs y3 h tmax c floorLow paceLow) :=
      congrArg Host.Outcome.next (if_neg (ne_true_of_eq_false (congrArg Bool.not hpowered)))
    have hdom := getD_govActs y3 h tmax c floorLow paceLow
    have hacts := h3.govActs h tmax c floorLow paceLow
    exact ⟨_, hexec, congrArg Dom.setMv hdom, congrArg Dom.paceLow hdom, congrArg Dom.capLow hdom, congrArg Dom.floorLow hdom, hacts.mem,
      hacts.threads⟩
  · obtain ⟨hlatched, hcause⟩ := islandOut_tamper { s with vault := { s.vault with vbat := false } }
    refine ⟨?_, ?_, hlatched, hcause⟩ <;> rw [islandOut_vault]
  · obtain ⟨hlatched, hcause⟩ := islandOut_tamper { s with vault := { s.vault with hold := mv } }
    refine ⟨?_, ?_, ?_, hlatched, hcause⟩ <;> rw [islandOut_vault]

/-! ### The stages of start-up (R491 to R501) -/

section Stages
variable {s : State} {i : Image}

theorem exec_stageS1_may (hm : mayS1 s = true) :
    exec .stageS1 s = .next (
      let y := updB s (fun b => { b with down := false })
      let y := toStage { y with tb := { y.tb with counting := true } } 1
      if s.fuses.ok then allSlices.foldl fixGeneral (allUnits.foldl loadState (loadFuses y))
      else updB (stopAt y 1) (fun b => { b with fuseOwed := true })) := by
  rw [exec_stageS1, execStageS1, if_neg (by simp [hm])]
  cases hf : s.fuses.ok with
  | true => exact congrArg Host.Outcome.next (if_neg (ne_true_of_eq_false (congrArg Bool.not hf)))
  | false => exact congrArg Host.Outcome.next (if_pos (congrArg Bool.not hf))

section Boot
variable {a b fromB : Bool}

/-- The state in which S2 looks at the flashes' images: management cores tested, base camp's table read, owed records written. -/
def imagesReady (s : State) (a b : Bool) : State := oweRecords (readTable (bootCores (toStage s 2) a b))

/-- The image of flash A, and whether base camp accepts it. -/
def candidateA (z : State) : Option (Image × Bool) := candidate z z.mgmt.flashA

/-- The image of flash B, which base camp looks at with BOOT_SEL high alone. -/
def candidateB (z : State) : Option (Image × Bool) := if z.board.bootSel then candidate z z.mgmt.flashB else none

theorem exec_stageS2_noCore (hm : mayStage s 2 = true) (hb : bcUp (bootCores (toStage s 2) a b) = false) :
    exec (.stageS2 a b) s = .next (stopAt (bootCores (toStage s 2) a b) 2) := by
  rw [exec_stageS2, execStageS2, if_neg (by simp [hm])]
  exact congrArg Host.Outcome.next (if_pos (congrArg Bool.not hb))

/-- With no image to run, start-up stops. -/
theorem exec_stageS2_noImage (hm : mayStage s 2 = true) (hb : bcUp (bootCores (toStage s 2) a b) = true)
    (hc : chooseImage (candidateA (imagesReady s a b)) (candidateB (imagesReady s a b)) = none) :
    exec (.stageS2 a b) s = .next (stopAt (refuseImages (imagesReady s a b)
      [candidateA (imagesReady s a b), candidateB (imagesReady s a b)]) 2) := by
  rw [exec_stageS2, execStageS2, if_neg (by simp [hm])]
  refine congrArg Host.Outcome.next ((if_neg (ne_true_of_eq_false (congrArg Bool.not hb))).trans ?_)
  unfold imagesReady candidateA candidateB at hc
  simp only [hc]
  rfl

/-- The image chosen runs, where none of a higher version was passed over. -/
theorem exec_stageS2_image (hm : mayStage s 2 = true) (hb : bcUp (bootCores (toStage s 2) a b) = true)
    (hc : chooseImage (candidateA (imagesReady s a b)) (candidateB (imagesReady s a b)) = some (i, fromB))
    (hp : passedOver (candidateA (imagesReady s a b)) (candidateB (imagesReady s a b)) = none) :
    exec (.stageS2 a b) s = .next (runBoot (refuseImages (imagesReady s a b)
      [candidateA (imagesReady s a b), candidateB (imagesReady s a b)]) i fromB) := by
  rw [exec_stageS2, execStageS2, if_neg (by simp [hm])]
  refine congrArg Host.Outcome.next ((if_neg (ne_true_of_eq_false (congrArg Bool.not hb))).trans ?_)
  unfold imagesReady candidateA candidateB at hc hp
  simp only [hc, hp]
  rfl

end Boot

/-- S3 asks for main power, and goes on at once where that is good already. -/
theorem exec_stageS3_may {doms : List DomId} {units : List Uid} (hm : mayStage s 3 = true) (hb : bcUp s = true) :
    exec (.stageS3 doms units) s = .next (
      let y := updB (toStage s 3) (fun b => { b with pwrEnMain := true, enSince := if b.pwrEnMain then b.enSince else s.time })
      if s.board.pwrgdMain then rampAll y (doms.map (·.val)) (units.map (·.toNat)) else y) := by
  rw [exec_stageS3, execStageS3]
  exact congrArg Host.Outcome.next (if_pos (by simp [hm, hb]))

theorem exec_mainPowerTimeout_late (h3 : stageOf s = 3) (hs : s.board.stopped = false) (he : s.board.pwrEnMain = true)
    (hg : s.board.pwrgdMain = false) (hb : bcUp s = true) (ht : s.board.enSince + 20000000 ≤ s.time) :
    exec .mainPowerTimeout s = .next (stopAt (updB s (fun b => { b with pwrEnMain := false })) 3) := by
  rw [exec_mainPowerTimeout, execMainPowerTimeout, if_pos (by simp [h3, hs, he, hg, hb, ht])]

theorem exec_stageS5_may (g : Bool) (hb : bcUp s = true) (hi : s.mgmt.running = some i) (hm : mayStage s 5 = true) :
    exec (.stageS5 g) s = .next (
      let y := updG (secureMemory (toStage s 5) i) (fun m => { m with patch := i.patch.getD 0 })
      if i.trusted.isSome then startTrusted y g else y) := by
  rw [exec_stageS5, execStageS5, if_neg (by simp [hm, hb])]
  simp only [hi]

theorem exec_stageS6_may (hb : bcUp s = true) (hi : s.mgmt.running = some i) (hm : mayStage s 6 = true) :
    exec .stageS6 s =
      .next (writeBytes (applySettings (toStage s 6) i (fun r => settingStage r == 6)) i.boot.load i.boot.bytes) := by
  rw [exec_stageS6, execStageS6, if_neg (by simp [hm, hb])]
  simp only [hi]

theorem exec_stageS7_may (hb : bcUp s = true) (hi : s.mgmt.running = some i) (hm : mayStage s 7 = true) :
    exec .stageS7 s = .next (
      let y := toStage s 7
      let y := gleanBegins (setLimit y (firstLimit (y.getF rBcMemInit BcMemInit.total_gib)
        (y.getF rVltWatermark VltWatermark.sec_wm_gib)))
      releaseBoot (startGroups (configEval (numberAll ([0, 1, 2, 3].foldl placeReserve y)))) i.boot) := by
  rw [exec_stageS7, execStageS7, if_neg (by simp [hm, hb])]
  simp only [hi]

theorem exec_memoryTranche_due (h7 : stageOf s = 7) (hb : bcUp s = true) (hd : s.getB rBcMemInit BcMemInit.done = false) :
    exec .memoryTranche s = .next (notify (gleanBegins (setLimit s
      (min (s.getF rBcMemInit BcMemInit.total_gib) (s.getF rBcMemInit BcMemInit.limit_gib + 64)))) rBcMemInitNotify) := by
  rw [exec_memoryTranche, execMemoryTranche, if_neg (by simp [h7, hb, hd])]

/-- min_svn is burnt where the image has run for 60 s with no failover (R496). -/
theorem exec_minSvnBurn_due (hi : s.mgmt.running = some i) (hb : bcUp s = true) (hn : i.burn = true)
    (ht : s.mgmt.loadedAt + 60000000000 ≤ s.time) (hf : s.mgmt.fails = []) (hv : s.getF rBcFuseOpt BcFuseOpt.min_svn < i.svn) :
    ∃ z, exec .minSvnBurn s = .next z ∧ z.regs = (s.putF rBcFuseOpt BcFuseOpt.min_svn i.svn).regs := by
  rw [exec_minSvnBurn, execMinSvnBurn]
  simp only [hi]
  rw [if_neg (by simp [hb, hn, ht, hf, hv])]
  exact ⟨_, rfl, rfl⟩

/-- A start write that finds its thread startable and its block in order (R501). -/
theorem exec_threadStart_go {r : Requester} {t : Tid} {v : Word} (hb : blockUp s uidBaseCamp = true)
    (hg : fldB v BcThreadStart.go = true) (hr : fldB v BcThreadStart.refused = false) (hs : startable s t = true)
    (ho : blockOk s (writerWorld s r) (fld v BcThreadStart.block * 128) = true)
    (hw : worldOk (trusted s t) (blockCaps s (fld v BcThreadStart.block * 128)) = true) :
    exec (.threadStart r t v) s = .next (
      let a := fld v BcThreadStart.block * 128
      ((startThread s t (blockCaps s a) []).putR (rBcXlatRoot1 t.val)
        (read64 s (a + 0x50) &&& 0xFFFFFFFFFFFFFF03)).putR (rBcXlatRoot2 t.val)
        (read64 s (a + 0x58) &&& 0xFFFFFFFFFFFFFF03)) := by
  rw [exec_threadStart, execThreadStart, if_pos hb, writeThreadStart]
  simp [hg, hr, hs, ho, hw]

end Stages

/-- Settles O32, a clause for each command of start-up. -/
theorem startUpCompletes : Obligations.StartUpCompletes := by
  refine ⟨fun s hs => ⟨_, rfl, powerGood_of_off hs⟩, fun s => exec_stageS1_may,
    fun s a b hm => ⟨exec_stageS2_noCore hm, exec_stageS2_noImage hm, fun i fromB => exec_stageS2_image hm⟩,
    fun s doms units => exec_stageS3_may, fun s => exec_mainPowerTimeout_late,
    fun s i hb hi => ⟨fun g => exec_stageS5_may g hb hi, exec_stageS6_may hb hi, exec_stageS7_may hb hi⟩,
    fun s => exec_memoryTranche_due, fun s i => exec_minSvnBurn_due, fun s r t v hb hg hr => exec_threadStart_go hb hg hr⟩

end Sys2Proof.Machine

/-! PROOFS. Registers, windows and addressing (chapter 3): bytes that read back (O4), division and wrapped addresses (O6), what a faulting
load, an integer instruction and a store that leaves keep as it was (O8 to O10), and where the instructions of the thread lead: the ALU,
immediates and capabilities (O12, O13, O15), calls and thread registers (O17, O19), loads and stores (O21, O22), vectors and floating point
(O26, O27), and speculation (O60). -/

namespace Sys2Proof.Machine

/-! ### Bytes and tags after a write (R68, R85, R135) -/

theorem mget_writeCells_outside (m : List Host.Cell) (bs : List Byte) {pa a : Nat} (h : a < pa ∨ pa + bs.length ≤ a) :
    mget 0 (writeCells m pa bs) a = mget 0 m a := by
  induction bs generalizing m pa with
  | nil => rfl
  | cons b bs ih =>
    rw [List.length_cons] at h
    rw [writeCells, ih _ (by omega), mget_mput_other _ _ _ _ (by omega)]

theorem mget_writeCells_inside (m : List Host.Cell) (bs : List Byte) (pa : Nat) {i : Nat} (h : i < bs.length) :
    mget 0 (writeCells m pa bs) (pa + i) = bs.getD i 0 := by
  induction bs generalizing m pa i with
  | nil => cases h
  | cons b bs ih =>
    rw [writeCells]
    cases i with
    | zero => rw [mget_writeCells_outside _ _ (.inl (by omega)), Nat.add_zero, mget_mput_same]; rfl
    | succ i =>
      have hi : i < bs.length := by simpa using h
      rw [show pa + (i + 1) = pa + 1 + i by omega, ih _ _ hi]
      rfl

theorem readByte_writeBytes_inside (s : State) (pa : Nat) (bs : List Byte) {i : Nat} (h : i < bs.length) :
    readByte (writeBytes s pa bs) (pa + i) = bs.getD i 0 := mget_writeCells_inside s.mem bs pa h

theorem readByte_writeBytes_outside (s : State) {pa a : Nat} (bs : List Byte) (h : a < pa ∨ pa + bs.length ≤ a) :
    readByte (writeBytes s pa bs) a = readByte s a := mget_writeCells_outside s.mem bs h

theorem mem_granules {pa n g : Nat} : g ∈ granules pa n ↔ pa / 16 ≤ g ∧ g < (pa + n + 15) / 16 := by
  simp only [granules, List.mem_map, List.mem_range]
  constructor
  · rintro ⟨i, hi, rfl⟩
    omega
  · exact fun h => ⟨g - pa / 16, by omega, by omega⟩

/-- A mark cleared over a list of keys is clear there, and as it was elsewhere. -/
theorem mget_foldl_clear (l : List Nat) (m : SMap Bool) (k : Nat) :
    mget false (l.foldl (fun m g => mput false m g false) m) k = if k ∈ l then false else mget false m k := by
  induction l generalizing m with
  | nil => simp
  | cons g l ih =>
    rw [List.foldl_cons, ih]
    by_cases hk : k = g
    · simp [hk]
    · simp [hk, mget_mput_other]

theorem readTag_writeBytes (s : State) (pa a : Nat) (bs : List Byte) :
    readTag (writeBytes s pa bs) a = if a / 16 ∈ granules pa bs.length then false else readTag s a :=
  mget_foldl_clear (granules pa bs.length) s.tags (a / 16)

/-- Settles O4, by what a write leaves in the cells it names and in the granules it touches. -/
theorem memoryReadsBack : Obligations.MemoryReadsBack := by
  refine fun s pa bs => ⟨fun i hi => readByte_writeBytes_inside s pa bs hi, fun a ha => readByte_writeBytes_outside s bs ha,
    fun a hne hlo hhi => ?_, fun a ha => ?_⟩
  · have hpos : 0 < bs.length := List.length_pos_iff.2 hne
    rw [readTag_writeBytes, if_pos (mem_granules.2 (by omega))]
  · rw [readTag_writeBytes, if_neg (fun h => by have := mem_granules.1 h; omega)]

/-! ### Quotients, remainders and wrapped addresses (R90, R91, R104) -/

theorem divU_mul_add_remU (a b : Word) : divU a b * b + remU a b = a := by
  by_cases hb : b = 0
  · simp [divU, remU, hb]
  · apply BitVec.eq_of_toNat_eq
    have hq : a.toNat / b.toNat < 2 ^ 64 := lt_of_le_of_lt (Nat.div_le_self _ _) a.isLt
    have hr : a.toNat % b.toNat < 2 ^ 64 := lt_of_le_of_lt (Nat.mod_le _ _) a.isLt
    simp only [divU, remU, if_neg hb, BitVec.toNat_add, BitVec.toNat_mul, BitVec.toNat_ofNat, Nat.mod_add_mod,
      Nat.mod_mul_mod, Nat.add_mod_mod]
    rw [Nat.mul_comm, Nat.div_add_mod, Nat.mod_eq_of_lt a.isLt]

theorem divS_mul_add_remS (a b : Word) : divS a b * b + remS a b = a := by
  by_cases hb : b = 0
  · simp [divS, remS, hb]
  · have h : BitVec.ofInt 64 (Int.tdiv a.toInt b.toInt * b.toInt + Int.tmod a.toInt b.toInt) = a := by
      rw [Int.mul_comm, Int.mul_tdiv_add_tmod, BitVec.ofInt_toInt]
    rw [divS, remS, if_neg hb, if_neg hb]
    rwa [BitVec.ofInt_add, BitVec.ofInt_mul, BitVec.ofInt_toInt] at h

theorem toNat_remU_lt (a : Word) {b : Word} (hb : b ≠ 0) : (remU a b).toNat < b.toNat := by
  have hpos : 0 < b.toNat := Nat.pos_of_ne_zero fun h => hb (BitVec.eq_of_toNat_eq h)
  rw [remU, if_neg hb, BitVec.toNat_ofNat]
  exact lt_of_le_of_lt (Nat.mod_le _ _) (Nat.mod_lt _ hpos)

theorem toInt_ne_zero {b : Word} (hb : b ≠ 0) : b.toInt ≠ 0 := fun h =>
  hb (BitVec.eq_of_toInt_eq h)

/-- The remainder is the exact one: its magnitude is below the divisor's. -/
theorem toInt_remS (a : Word) {b : Word} (hb : b ≠ 0) : (remS a b).toInt = Int.tmod a.toInt b.toInt := by
  have hlt : (Int.tmod a.toInt b.toInt).natAbs < b.toInt.natAbs := by
    rw [Int.natAbs_tmod]
    exact Nat.mod_lt _ (Int.natAbs_pos.2 (toInt_ne_zero hb))
  have hlo := b.le_two_mul_toInt
  have hhi := b.two_mul_toInt_lt
  rw [remS, if_neg hb, BitVec.toInt_ofInt]
  exact Int.bmod_eq_of_le (by omega) (by omega)

theorem natAbs_remS_lt (a : Word) {b : Word} (hb : b ≠ 0) : (remS a b).toInt.natAbs < b.toInt.natAbs := by
  rw [toInt_remS a hb, Int.natAbs_tmod]
  exact Nat.mod_lt _ (Int.natAbs_pos.2 (toInt_ne_zero hb))

theorem remS_sign (a : Word) {b : Word} (hb : b ≠ 0) : (remS a b).toInt = 0 ∨ ((remS a b).toInt < 0 ↔ a.toInt < 0) := by
  rw [toInt_remS a hb]
  rcases lt_or_ge a.toInt 0 with h | h
  · have hneg := Int.tmod_nonneg b.toInt (a := -a.toInt) (by omega)
    rw [Int.neg_tmod] at hneg
    omega
  · have hpos := Int.tmod_nonneg b.toInt h
    omega

/-- What an address that wraps at most once answers: the offset from the base lies below the length, and is the exact one, less or plus the
length once. -/
theorem wrapAddr_spec {base top : Nat} {cur d a : Word} (h : wrapAddr base top cur d = some a) :
    ∃ off : Int, 0 ≤ off ∧ off < (top : Int) - base ∧ a = BitVec.ofInt 64 ((base : Int) + off) ∧
      (off = (cur - BitVec.ofNat 64 base).toInt + d.toInt ∨
        off = (cur - BitVec.ofNat 64 base).toInt + d.toInt - ((top : Int) - base) ∨
        off = (cur - BitVec.ofNat 64 base).toInt + d.toInt + ((top : Int) - base)) := by
  unfold wrapAddr at h
  split at h
  · cases h
  · extract_lets len raw off at h
    split at h
    · cases h
    · next hoff =>
      have hraw : off = raw ∨ off = raw - len ∨ off = raw + len := by omega
      rw [Option.some.injEq] at h
      exact ⟨off, by omega, by omega, h.symm, hraw⟩

theorem toNat_wrapAddr {base top : Nat} {cur d a : Word} (ht : top ≤ 18446744073709551616) (h : wrapAddr base top cur d = some a) :
    base ≤ a.toNat ∧ a.toNat < top := by
  obtain ⟨off, h0, hlt, rfl, -⟩ := wrapAddr_spec h
  rw [BitVec.toNat_ofInt]
  omega

theorem wrapAddr_wraps_once {base top : Nat} {cur d a : Word} (hbt : base ≤ top) (h : wrapAddr base top cur d = some a) :
    a = cur + d ∨ a = cur + d - BitVec.ofNat 64 (top - base) ∨ a = cur + d + BitVec.ofNat 64 (top - base) := by
  obtain ⟨off, -, -, rfl, hoff⟩ := wrapAddr_spec h
  have hcur : BitVec.ofInt 64 ((base : Int) + ((cur - BitVec.ofNat 64 base).toInt + d.toInt)) = cur + d := by
    rw [BitVec.ofInt_add, BitVec.ofInt_add, BitVec.ofInt_toInt, BitVec.ofInt_toInt, BitVec.ofInt_natCast]
    ring
  have hlen : BitVec.ofInt 64 ((top : Int) - base) = BitVec.ofNat 64 (top - base) := by
    rw [← BitVec.ofInt_natCast, Nat.cast_sub hbt]
  rcases hoff with rfl | rfl | rfl
  · exact .inl hcur
  · right; left
    rw [← hcur, ← hlen, ← Int.add_sub_assoc, Int.sub_eq_add_neg, BitVec.ofInt_add, BitVec.ofInt_neg, ← BitVec.sub_eq_add_neg]
  · right; right
    rw [← hcur, ← hlen, ← Int.add_assoc, BitVec.ofInt_add]

/-- Settles O6: the exact laws of Int and Nat, cut to 64 bits. -/
theorem divisionAndWrapLaws : Obligations.DivisionAndWrapLaws := by
  refine ⟨fun a b => ⟨divU_mul_add_remU a b, divS_mul_add_remS a b,
    fun hb => ⟨toNat_remU_lt a hb, natAbs_remS_lt a hb, remS_sign a hb⟩, fun hb => ?_⟩, fun base top cur d a ht h => ?_⟩
  · simp [divU, divS, remU, remS, hb]
  · obtain ⟨hlo, hhi⟩ := toNat_wrapAddr ht h
    exact ⟨hlo, hhi, wrapAddr_wraps_once (by omega) h⟩

/-! ### What ends an instruction leaves as it is (R165, R206, R222, R510)

Between the state an instruction's body leaves and the state after it has retired, counters count, predictors learn, checks pass and root
writes that waited take effect. None of that reaches memory, or what its program sees of the thread. -/

/-- What a program sees of its thread is the same: registers, PCC, thread registers, store queue, fault and predictor. -/
structure SameThread (x y : Thread) : Prop where
  regs : y.regs = x.regs
  vregs : y.vregs = x.vregs
  pcc : y.pcc = x.pcc
  wstack : y.wstack = x.wstack
  fstack : y.fstack = x.fstack
  fgate : y.fgate = x.fgate
  gatetab : y.gatetab = x.gatetab
  wstate : y.wstate = x.wstate
  tctrl : y.tctrl = x.tctrl
  tstatus : y.tstatus = x.tstatus
  stores : y.stores = x.stores
  fault : y.fault = x.fault
  run : y.run = x.run
  pred : y.pred = x.pred

theorem SameThread.refl (x : Thread) : SameThread x x := by constructor <;> rfl

theorem SameThread.trans {x y z : Thread} (h : SameThread x y) (h' : SameThread y z) : SameThread x z where
  regs := h'.regs.trans h.regs
  vregs := h'.vregs.trans h.vregs
  pcc := h'.pcc.trans h.pcc
  wstack := h'.wstack.trans h.wstack
  fstack := h'.fstack.trans h.fstack
  fgate := h'.fgate.trans h.fgate
  gatetab := h'.gatetab.trans h.gatetab
  wstate := h'.wstate.trans h.wstate
  tctrl := h'.tctrl.trans h.tctrl
  tstatus := h'.tstatus.trans h.tstatus
  stores := h'.stores.trans h.stores
  fault := h'.fault.trans h.fault
  run := h'.run.trans h.run
  pred := h'.pred.trans h.pred

theorem SameThread.greg {x y : Thread} (h : SameThread x y) (r : RegNo) : y.greg r = x.greg r := by
  have hcwp : y.cwp = x.cwp := congrArg (fld · Wstate.cwp) h.wstate
  rw [Thread.greg, Thread.greg, hcwp, Thread.at_, Thread.at_, h.regs]

/-- Memory, the vault, the log, directories, interrupts and the time are the same, and so is thread `t` as its program sees it. -/
structure Quietly (t : Tid) (s z : State) : Prop where
  mem : z.mem = s.mem
  tags : z.tags = s.tags
  poison : z.poison = s.poison
  vault : z.vault = s.vault
  log : z.log = s.log
  dir : z.dir = s.dir
  l3 : z.l3 = s.l3
  irqMsgs : z.irqMsgs = s.irqMsgs
  time : z.time = s.time
  thread : SameThread (getT s t) (getT z t)

section Quietly
variable {t : Tid} {s y : State}

theorem Quietly.refl (t : Tid) (s : State) : Quietly t s s := ⟨rfl, rfl, rfl, rfl, rfl, rfl, rfl, rfl, rfl, .refl _⟩

theorem Quietly.trans {z : State} (h : Quietly t s y) (h' : Quietly t y z) : Quietly t s z :=
  ⟨h'.mem.trans h.mem, h'.tags.trans h.tags, h'.poison.trans h.poison, h'.vault.trans h.vault, h'.log.trans h.log, h'.dir.trans h.dir,
    h'.l3.trans h.l3, h'.irqMsgs.trans h.irqMsgs, h'.time.trans h.time, h.thread.trans h'.thread⟩

theorem Quietly.orElse {p : Prop} [Decidable p] {a b : State} (ha : Quietly t s a) (hb : Quietly t s b) :
    Quietly t s (if p then a else b) := by
  split
  · exact ha
  · exact hb

theorem Quietly.foldl {α : Type} {f : State → α → State} (hf : ∀ z a, Quietly t s z → Quietly t s (f z a)) (l : List α)
    (h : Quietly t s y) : Quietly t s (l.foldl f y) :=
  l.foldlRecOn f (motive := Quietly t s) h fun z hz a _ => hf z a hz

theorem Quietly.putR (a : Nat) (v : Word) (h : Quietly t s y) : Quietly t s (y.putR a v) :=
  h.trans ⟨rfl, rfl, rfl, rfl, rfl, rfl, rfl, rfl, rfl, .refl _⟩

theorem Quietly.putF (a : Nat) (f : Fld) (n : Nat) (h : Quietly t s y) : Quietly t s (y.putF a f n) := h.putR _ _

theorem Quietly.updC (k : Nat) (f : Core → Core) (h : Quietly t s y) : Quietly t s (updC y k f) :=
  h.trans ⟨rfl, rfl, rfl, rfl, rfl, rfl, rfl, rfl, rfl, .refl _⟩

/-- A change of any thread that its program does not see. -/
theorem Quietly.updT (u : Tid) {f : Thread → Thread} (hf : ∀ x, SameThread x (f x)) (h : Quietly t s y) : Quietly t s (updT y u f) := by
  refine h.trans ⟨rfl, rfl, rfl, rfl, rfl, rfl, rfl, rfl, rfl, ?_⟩
  by_cases hu : t = u
  · rw [hu, getT_updT_same]
    exact hf _
  · rw [getT_updT_other _ _ hu]
    exact .refl _

theorem Quietly.pmAdd (ctr win i n : Nat) (h : Quietly t s y) : Quietly t s (pmAdd y ctr win i n) :=
  Quietly.orElse ((h.putR _ _).putR _ _) (h.putR _ _)

theorem Quietly.pmEvent (u : Tid) (code : Nat) (addr : Option Nat) (n : Nat) (h : Quietly t s y) :
    Quietly t s (pmEvent y u code addr n) :=
  Quietly.foldl (fun _ _ hz => (hz.pmAdd _ _ _ _).orElse hz) _ h

theorem Quietly.startClear (u : Tid) (h : Quietly t s y) : Quietly t s (startClear y u) :=
  Quietly.foldl (fun _ _ hz => ((hz.updT _ fun _ => by constructor <;> rfl).putR _ _).pmEvent _ _ _ _) _ (h.updC _ _)

theorem Quietly.takeRoots (u : Tid) (h : Quietly t s y) : Quietly t s (takeRoots y u) :=
  Quietly.foldl (fun _ _ hz => (hz.putR _ _).startClear _) _ (h.updT _ fun _ => by constructor <;> rfl)

theorem Quietly.checkAddrs (u : Tid) (n : Nat) (h : Quietly t s y) : Quietly t s (checkAddrs y u n) := h.orElse (h.updC _ _)

theorem Quietly.checkRetired (u : Tid) (pc : Word) (ws : List (BitVec 32)) (h : Quietly t s y) :
    Quietly t s (checkRetired y u pc ws) :=
  ((((h.putF _ _ _).updC _ _).orElse h).checkAddrs _ _).updT _ fun _ => by constructor <;> rfl

theorem Quietly.retire (u : Tid) (pc : Word) (h : Quietly t s y) : Quietly t s (retire y u pc) :=
  ((((h.updC _ _).updT _ fun _ => by constructor <;> rfl).pmEvent _ _ _ _).pmEvent _ _ _ _).takeRoots _

end Quietly

/-- Once an instruction's effect stands, its retirement is quiet. -/
theorem jumped_quietly (s z : State) (t : Tid) (ws : List (BitVec 32)) : Quietly t z (jumped s z t ws) :=
  ((Quietly.refl t z).checkRetired _ _ _).retire _ _

theorem done_quietly (s z : State) (t : Tid) (ws : List (BitVec 32)) : Quietly t (stepPc z t ws.length) (done s z t ws) :=
  jumped_quietly s _ t ws

/-- Where no root write waits, taking them changes nothing but that none waits. -/
theorem takeRoots_of_none {s : State} {t : Tid} (h : (getT s t).rootReq = []) :
    takeRoots s t = updT s t (fun x => { x with rootReq := [] }) := by
  rw [takeRoots, h, List.foldl_nil]

/-! ### A load into its own base (R93) -/

/-- An instruction whose body finds a fault raises it. -/
theorem instrNext_raises {s u z : State} {t : Tid} {ws : List (BitVec 32)} {body : State → R State} {f : Flt}
    (h : fetched s t ws = some u) (hb : body u = .error (f, z)) (hf : f ≠ notYet) :
    instrNext s t ws body = .next (raise z t ws f) := by
  obtain ⟨hr, hdue, hinj, hfetch, hw⟩ := fetched_spec h
  simp [instrNext, instr, instrIf, thenNext, hr, hdue, hinj, hfetch, hw, hb, hf, bind, Except.bind]

/-- An illegal form raises 0x01 and does nothing else (R100). -/
theorem instrNext_illegal {s u : State} {t : Tid} {ws : List (BitVec 32)} {body : State → R State} (h : fetched s t ws = some u)
    (hb : body u = illegal u) : instrNext s t ws body = .next (raise u t ws ⟨0x01, 0, none, GReg.zero, none⟩) :=
  instrNext_raises h hb (by decide)

theorem memLoad_writesBack_illegal {s u : State} {t : Tid} {op : Nat} {k : LdKind} {rd : RegNo} {am : BitVec 3} {imm : BitVec 12}
    (ham : amWrites am.toNat = true) (hk : k ≠ .vec) (h : fetched s t [wMEM op rd rd am imm] = some u) :
    memLoad s t op k rd rd am imm = .next (raise u t [wMEM op rd rd am imm] ⟨0x01, 0, none, GReg.zero, none⟩) :=
  instrNext_illegal h (if_pos (by simp [ham, hk]))

/-- The thread that holds a fault, what it had under way given up. -/
def faulted (ws : List (BitVec 32)) (f : Flt) (x : Thread) : Thread :=
  { x with
    replay := []
    fetchAns := []
    inFetch := false
    heldX := []
    inFlight := false
    fault := some ⟨f.cause, f.detail, x.pc, f.acc, f.cap, ws, f.noTgt⟩ }

theorem raise_eq (u : State) (t : Tid) (ws : List (BitVec 32)) (f : Flt) : raise u t ws f = takeRoots (updT u t (faulted ws f)) t := rfl

/-- What the thread and the machine keep where a fault is raised. -/
theorem raise_leaves (u : State) (t : Tid) (ws : List (BitVec 32)) (f : Flt) :
    (∀ r, (getT (raise u t ws f) t).greg r = (getT u t).greg r) ∧ (getT (raise u t ws f) t).pcc = (getT u t).pcc ∧
      (∀ a, readByte (raise u t ws f) a = readByte u a) ∧ (raise u t ws f).tags = u.tags ∧
      ((getT u t).rootReq = [] → (∀ x, x ≠ t → getT (raise u t ws f) x = getT u x) ∧ (raise u t ws f).regs = u.regs) := by
  rw [raise_eq]
  have hq := (Quietly.refl t (updT u t (faulted ws f))).takeRoots t
  have hx : getT (updT u t (faulted ws f)) t = faulted ws f (getT u t) := getT_updT_same ..
  refine ⟨fun r => (hq.thread.greg r).trans ?_, hq.thread.pcc.trans ?_, readByte_congr hq.mem, hq.tags, fun hroot => ?_⟩
  · rw [hx]
    rfl
  · rw [hx]
    rfl
  · rw [takeRoots_of_none (by rw [hx]; exact hroot)]
    exact ⟨fun x hne => by rw [getT_updT_other _ _ hne, getT_updT_other _ _ hne], rfl⟩

/-- Settles O8: each of the loads is an illegal form, and a fault raised leaves the rest as it was. -/
theorem writebackIntoBaseFaults : Obligations.WritebackIntoBaseFaults := by
  intro s u t rd am imm ham
  have hw : amWrites am.toNat = true := by rcases ham with rfl | rfl | rfl | rfl <;> rfl
  simp only [List.forall_mem_cons]
  refine ⟨?_, ?_, ?_, ?_, ?_, ?_, ?_, ?_, List.forall_mem_nil _⟩ <;>
    exact fun h => ⟨memLoad_writesBack_illegal hw nofun h, raise_leaves _ _ _ ⟨0x01, 0, none, GReg.zero, none⟩⟩

/-! ### Integer instructions (R68, R101, R103, R104, R111) -/

section Integer
variable {s u : State} {t : Tid} {rd ra rb rc : RegNo}

/-- An integer operation of two registers retires with its result in rd. -/
theorem regOp_done {op : Nat} {fn : BitVec 10} {f : Word → Word → Word} (h : fetched s t [wREG op rd ra rb fn] = some u) :
    regOp s t op rd ra rb fn f = .next (done s (putInt (useRegs u t [rd, ra, rb]) t rd
      (f ((getT (useRegs u t [rd, ra, rb]) t).int ra) ((getT (useRegs u t [rd, ra, rb]) t).int rb))) t [wREG op rd ra rb fn]) :=
  instrNext_done h rfl (by rw [putInt_hostWait, useRegs_hostWait, fetched_hostWait h])

/-- An integer operation of a register and an immediate whose LIMM words, if any, are sound (R101). -/
theorem immOp_done {op : Nat} {limm : Limm} {imm : BitVec 15} {i : Word} {f : Word → Word → Word}
    (h : fetched s t (wGroup limm (wIMM op rd ra imm)) = some u) (hi : immOf limm imm = some i) :
    immOp s t op limm rd ra imm f = .next (done s (putInt (useRegs u t [rd, ra]) t rd
      (f ((getT (useRegs u t [rd, ra]) t).int ra) i)) t (wGroup limm (wIMM op rd ra imm))) :=
  instrNext_done h (by simp only [hi]) (by rw [putInt_hostWait, useRegs_hostWait, fetched_hostWait h])

theorem beq_zero_eq_toInt (v : Word) : (v == 0) = (v.toInt == 0) := by
  rw [Bool.eq_iff_iff, beq_iff_eq, beq_iff_eq, ← BitVec.toInt_inj]
  rfl

/-- The conditions that the codes of SEL and CMOV name, as R111 tells them. -/
def selTests : List (BitVec 3 × (Word → Bool)) :=
  [(0, fun v => v.toInt == 0), (1, fun v => v.toInt != 0), (2, fun v => decide (v.toInt < 0)), (3, fun v => decide (v.toInt ≥ 0)),
    (4, fun v => decide (v.toInt > 0)), (5, fun v => decide (v.toInt ≤ 0))]

theorem selCond_of_mem_selTests {c : BitVec 3 × (Word → Bool)} (hc : c ∈ selTests) (v : Word) : selCond c.1 v = some (c.2 v) := by
  revert c
  simp only [selTests, List.forall_mem_cons]
  exact ⟨congrArg some (beq_zero_eq_toInt v), congrArg (fun b => some (!b)) (beq_zero_eq_toInt v), rfl, rfl, rfl, rfl,
    List.forall_mem_nil _⟩

theorem sel_done {c : BitVec 3} {b : Bool} (h : fetched s t [wSEL 0x10 rd ra rb rc (c ++ (0 : BitVec 2))] = some u)
    (hb : selCond c ((getT (useRegs u t [rd, ra, rb, rc]) t).int rc) = some b) :
    exec (.sel t rd ra rb rc c 0) s = .next (done s (updT (useRegs u t [rd, ra, rb, rc]) t (fun x => x.setGreg rd
      (if b then (getT (useRegs u t [rd, ra, rb, rc]) t).greg ra else (getT (useRegs u t [rd, ra, rb, rc]) t).greg rb))) t
      [wSEL 0x10 rd ra rb rc (c ++ (0 : BitVec 2))]) := by
  rw [exec_sel]
  exact instrNext_done h (by simp only [if_true, hb]) (by simp [fetched_hostWait h])

theorem cmov_done {c : BitVec 3} {b : Bool} (h : fetched s t [wSEL 0x11 rd ra 0 rc (c ++ (0 : BitVec 2))] = some u)
    (hb : selCond c ((getT (useRegs u t [rd, ra, rc]) t).int rc) = some b) :
    exec (.cmov t rd ra 0 rc c 0) s = .next (done s (updT (useRegs u t [rd, ra, rc]) t
      (fun x => if b then x.setGreg rd (x.greg ra) else x)) t [wSEL 0x11 rd ra 0 rc (c ++ (0 : BitVec 2))]) := by
  rw [exec_cmov]
  refine instrNext_done h ?_ ?_
  · simp only [and_self, if_true, hb, updT]
  · rw [getT_updT_same]
    cases b <;> simp [fetched_hostWait h]

end Integer

/-- Settles O12: the register forms by the one lemma of their shape, SEL and CMOV by the condition their code selects. -/
theorem aluCompletes : Obligations.AluCompletes := by
  refine ⟨fun s u t rd ra rb => ?_, fun s u t rd ra rb rc => ?_⟩
  · intro c hc w h
    have hc : exec c.1 s = regOp s t 0x02 rd ra rb c.2.1 c.2.2 := by
      clear w h
      revert c
      simp only [List.forall_mem_cons]
      exact ⟨rfl, rfl, rfl, rfl, rfl, rfl, rfl, rfl, rfl, rfl, rfl, rfl, rfl, rfl, rfl, rfl, rfl, rfl, rfl, rfl, rfl, List.forall_mem_nil _⟩
    exact hc.trans (regOp_done h)
  · exact fun c hc => ⟨fun h => sel_done h (selCond_of_mem_selTests hc _), fun h => cmov_done h (selCond_of_mem_selTests hc _)⟩

/-- The three parts of an immediate of SHI: the shift, bits that are zero, and the count (R103). -/
theorem shiOp_of_fields (c : BitVec 3) (n : BitVec 6) (a : Word) :
    shiOp (c ++ (0 : BitVec 6) ++ n) a =
      match c.toNat with
      | 0 => some (a <<< n.toNat)
      | 1 => some (a >>> n.toNat)
      | 2 => some (a.sshiftRight n.toNat)
      | 3 => some (a.rotateLeft n.toNat)
      | 4 => some (a.rotateRight n.toNat)
      | _ => none := by
  have hn := n.isLt
  have himm : (c ++ (0 : BitVec 6) ++ n).toNat = c.toNat * 4096 + n.toNat := by
    rw [BitVec.toNat_append, BitVec.toNat_append, ← Nat.shiftLeft_add_eq_or_of_lt n.isLt,
      ← Nat.shiftLeft_add_eq_or_of_lt (0 : BitVec 6).isLt]
    have hz : (0 : BitVec 6).toNat = 0 := rfl
    rw [hz, Nat.shiftLeft_eq, Nat.shiftLeft_eq]
    omega
  have hcount : shAmt (BitVec.ofNat 64 (n.toNat % 64)) = n.toNat := by
    rw [shAmt, BitVec.toNat_ofNat]
    omega
  have hop : (c.toNat * 4096 + n.toNat) / 4096 = c.toNat := by omega
  have hlow : (c.toNat * 4096 + n.toNat) % 64 = n.toNat % 64 := by omega
  rw [shiOp, himm, if_neg (by omega), hop, hlow]
  simp only [sllW, srlW, sraW, rolW, rorW, hcount] <;> rfl

section Immediate
variable {s u : State} {t : Tid} {rd ra : RegNo} {imm : BitVec 15}

theorem shi_done {w : Word} (h : fetched s t [wIMM 0x07 rd ra imm] = some u)
    (hw : shiOp imm ((getT (useRegs u t [rd, ra]) t).int ra) = some w) :
    exec (.shi t [] rd ra imm) s =
      .next (done s (putInt (useRegs u t [rd, ra]) t rd w) t [wIMM 0x07 rd ra imm]) := by
  rw [exec_shi]
  exact instrNext_done h (by simp only [List.isEmpty_nil, if_true, hw])
    (by rw [putInt_hostWait, useRegs_hostWait, fetched_hostWait h])

theorem bitf_done {b : Bitf} (h : fetched s t [wIMM 0x12 rd ra imm] = some u) (hb : Config.bitfDecode imm = some b) :
    exec (.bitf t [] rd ra imm) s = .next (done s (putInt (useRegs u t [rd, ra]) t rd
      (bitfOp b ((getT (useRegs u t [rd, ra]) t).int rd) ((getT (useRegs u t [rd, ra]) t).int ra))) t [wIMM 0x12 rd ra imm]) := by
  rw [exec_bitf]
  exact instrNext_done h (by simp only [List.isEmpty_nil, if_true, hb])
    (by rw [putInt_hostWait, useRegs_hostWait, fetched_hostWait h])

end Immediate

/-- Settles O13: the widened immediates by the lemma of their shape, SHI and BITF by what their immediates select. -/
theorem immediateCompletes : Obligations.ImmediateCompletes := by
  refine ⟨fun s u t limm rd ra imm i c hc h hi => ?_, fun s u t rd ra n => ?_, fun s u t rd ra imm b h hb => bitf_done h hb⟩
  · have hform : exec c.1 s = immOp s t c.2.1 limm rd ra imm c.2.2 := by
      clear h
      revert c
      simp only [List.forall_mem_cons]
      exact ⟨rfl, rfl, rfl, rfl, rfl, rfl, List.forall_mem_nil _⟩
    exact hform.trans (immOp_done h hi)
  · simp only [List.forall_mem_cons]
    exact ⟨fun h => shi_done h (shiOp_of_fields 0 n _), fun h => shi_done h (shiOp_of_fields 1 n _),
      fun h => shi_done h (shiOp_of_fields 2 n _), fun h => shi_done h (shiOp_of_fields 3 n _),
      fun h => shi_done h (shiOp_of_fields 4 n _), List.forall_mem_nil _⟩

/-! ### Capability instructions (R131, R132, R138 to R140) -/

section Capability
variable {s u : State} {t : Tid} {rd ra rb : RegNo} {g : GReg}

/-- A capability operation whose operands raise no cause writes its result, all 129 bits of it. -/
theorem capOp_done {fn : BitVec 10} {f : Bool → GReg → GReg → Except Nat GReg} (h : fetched s t [wREG 0x50 rd ra rb fn] = some u)
    (hg : f (trusted (useRegs u t [rd, ra, rb]) t) ((getT (useRegs u t [rd, ra, rb]) t).greg ra)
      ((getT (useRegs u t [rd, ra, rb]) t).greg rb) = .ok g) :
    capOp s t rd ra rb fn f =
      .next (done s (updT (useRegs u t [rd, ra, rb]) t (fun x => x.setGreg rd g)) t [wREG 0x50 rd ra rb fn]) :=
  instrNext_done h (by simp only [hg]) (by rw [getT_updT_same, setGreg_hostWait, useRegs_hostWait, fetched_hostWait h])

theorem capImm_done {op : Nat} {limm : Limm} {imm : BitVec 15} {i : Word} {f : Bool → GReg → Word → Except Nat GReg}
    (h : fetched s t (wGroup limm (wIMM op rd ra imm)) = some u) (hi : immOf limm imm = some i)
    (hg : f (trusted (useRegs u t [rd, ra]) t) ((getT (useRegs u t [rd, ra]) t).greg ra) i = .ok g) :
    capImm s t op limm rd ra imm f =
      .next (done s (updT (useRegs u t [rd, ra]) t (fun x => x.setGreg rd g)) t (wGroup limm (wIMM op rd ra imm))) :=
  instrNext_done h (by simp only [hi, hg]) (by rw [getT_updT_same, setGreg_hostWait, useRegs_hostWait, fetched_hostWait h])

end Capability

/-- Settles O15: each instruction is the capability operation of its function, and the inspecting ones raise no cause. -/
theorem capabilityCompletes : Obligations.CapabilityCompletes := by
  refine ⟨fun s u t rd ra rb c hc h => ?_, fun s u t rd ra rb g c hc h hg => ?_,
    fun s u t limm rd ra imm i g c hc h hi hg => ?_⟩
  · have hform : exec c.1 s = capOp s t rd ra rb c.2.1 (fun _ a b => .ok (c.2.2 a b)) := by
      clear h
      revert c
      simp only [List.forall_mem_cons]
      exact ⟨rfl, rfl, rfl, rfl, rfl, rfl, rfl, rfl, rfl, List.forall_mem_nil _⟩
    exact hform.trans (capOp_done h rfl)
  · have hform : exec c.1 s = capOp s t rd ra rb c.2.1 c.2.2 := by
      clear h hg
      revert c
      simp only [List.forall_mem_cons]
      exact ⟨rfl, rfl, rfl, rfl, rfl, rfl, List.forall_mem_nil _⟩
    exact hform.trans (capOp_done h hg)
  · have hform : ∃ f, exec c.1 s = capImm s t c.2.1 limm rd ra imm f ∧ ∀ tw a, f tw a i = c.2.2 tw a := by
      clear h hg
      revert c
      simp only [List.forall_mem_cons]
      exact ⟨⟨fun tw a j => moveOp tw a (a.int + j), exec_cxaddi .., fun _ _ => rfl⟩,
        ⟨fun tw a j => boundOp tw a j.toNat false (j.slt 0), exec_cxboundi .., fun _ _ => rfl⟩, List.forall_mem_nil _⟩
    obtain ⟨f, hf, hc⟩ := hform
    exact hf.trans (capImm_done h hi ((hc _ _).trans hg))

/-! ### Registers named by an instruction (R67 to R71, R169) -/

theorem cwp_lt (x : Thread) : x.cwp < 16 := Nat.mod_lt _ (by decide)

/-- The register fields of an instruction lead to different places (R70). -/
theorem place_injective {c : Nat} (hc : c < 16) {r q : RegNo} (h : place c r = place c q) : r = q := by
  have hr := r.isLt
  have hq := q.isLt
  apply BitVec.eq_of_toNat_eq
  simp only [place] at h
  split_ifs at h <;> omega

/-- A write of a place changes the general registers alone. -/
theorem setAt_eq (x : Thread) (p : Nat) (g : GReg) : x.setAt p g = { x with regs := (x.setAt p g).regs } := by
  unfold Thread.setAt
  split <;> rfl

theorem setGreg_eq (x : Thread) (r : RegNo) (g : GReg) : x.setGreg r g = { x with regs := (x.setGreg r g).regs } := setAt_eq ..

theorem at_setAt_other (x : Thread) {p q : Nat} (g : GReg) (h : q ≠ p ∨ p = 0) : (x.setAt p g).at_ q = x.at_ q := by
  unfold Thread.setAt
  split
  · rfl
  · next hp =>
    rw [Thread.at_, Thread.at_, mget_mput_other _ _ _ _ (h.resolve_right hp)]

/-- A register other than the one written, and every one where that is g0, reads as it did (R69). -/
theorem greg_setGreg_other (x : Thread) {r q : RegNo} (g : GReg) (h : q ≠ r ∨ r = 0) : (x.setGreg r g).greg q = x.greg q := by
  have hcwp : (x.setGreg r g).cwp = x.cwp := by rw [setGreg_eq]; rfl
  rw [Thread.greg, hcwp]
  refine at_setAt_other x g (h.imp (fun hne he => hne (place_injective (cwp_lt x) he)) fun h0 => ?_)
  rw [h0]
  rfl

/-! The long operations that an instruction waits for leave the root writes that wait for it. -/

@[simp] theorem applyLong_rootReq (x : Thread) (o : LongOp) : (applyLong x o).rootReq = x.rootReq := by
  unfold applyLong
  cases o.dest with
  | general p => dsimp only; rw [setAt_eq]
  | vector n => rfl

@[simp] theorem settleAll_rootReq (x : Thread) : (settleAll x).rootReq = x.rootReq :=
  x.longOps.foldlRecOn applyLong (motive := fun y : Thread => y.rootReq = x.rootReq) rfl fun _ hy _ _ => (applyLong_rootReq _ _).trans hy

@[simp] theorem settle_rootReq (x : Thread) (d : Dest) : (settle x d).rootReq = x.rootReq := by
  unfold settle
  split
  · exact settleAll_rootReq x
  · rfl

@[simp] theorem useRegs_rootReq (s : State) (t : Tid) (rs : List RegNo) : (getT (useRegs s t rs) t).rootReq = (getT s t).rootReq := by
  rw [useRegs, getT_updT_same]
  exact rs.foldlRecOn _ (motive := fun y : Thread => y.rootReq = (getT s t).rootReq) rfl fun _ hy _ _ => (settle_rootReq _ _).trans hy

/-! ### What an instruction that retires changes beside its thread (R206, R507, R510) -/

/-- The control registers that count what core `k` does: its check status and its performance counters. -/
def CountsOf (k a : Nat) : Prop :=
  a = rCoreCheckStatus (coreUid k) ∨ a = rPmWin (coreUid k + 1) ∨ ∃ i, i < 8 ∧ a = rPmCtr (coreUid k + 1) i

theorem coreUid_low (k : Nat) : coreUid k % 0x100 = 0 := by
  unfold coreUid tileBits
  omega

/-- The map of virtual cores is none of them: it stands in base camp's block (R30). -/
theorem not_countsOf_rBcVcoreMap (k : Nat) {v : Nat} (hv : v < 192) : ¬ CountsOf k (rBcVcoreMap v) := by
  have hlow := coreUid_low k
  rintro (h | h | ⟨i, hi, h⟩)
  · unfold rBcVcoreMap rCoreCheckStatus at h
    omega
  · unfold rBcVcoreMap rPmWin at h
    omega
  · unfold rBcVcoreMap rPmCtr at h
    omega

/-- The other threads are the same, and every control register but those that count what the thread's core does; the root writes that wait
for thread `t` wait on. -/
structure Alone (t : Tid) (s z : State) : Prop where
  others : ∀ x, x ≠ t → getT z x = getT s x
  regs : ∀ a, ¬ CountsOf (coreOf s t) a → z.getR a = s.getR a
  roots : (getT z t).rootReq = (getT s t).rootReq

section Alone
variable {t : Tid} {s y : State}

theorem Alone.refl (t : Tid) (s : State) : Alone t s s := ⟨fun _ _ => rfl, fun _ _ => rfl, rfl⟩

theorem Alone.orElse {p : Prop} [Decidable p] {a b : State} (ha : Alone t s a) (hb : Alone t s b) : Alone t s (if p then a else b) := by
  split
  · exact ha
  · exact hb

/-- The thread stays on its core. -/
theorem Alone.coreOf (h : Alone t s y) : coreOf y t = coreOf s t := by
  have hv : vcoreOf t < 192 := by
    have ht := t.isLt
    unfold vcoreOf
    omega
  rw [Machine.coreOf, State.getF, h.regs _ (not_countsOf_rBcVcoreMap _ hv)]
  rfl

theorem Alone.putR {a : Nat} (ha : CountsOf (Machine.coreOf s t) a) (v : Word) (h : Alone t s y) : Alone t s (y.putR a v) :=
  ⟨h.others, fun b hb => (getR_putR_other _ _ fun he => hb (by rw [he]; exact ha)).trans (h.regs b hb), h.roots⟩

theorem Alone.updC (k : Nat) (f : Core → Core) (h : Alone t s y) : Alone t s (updC y k f) := ⟨h.others, h.regs, h.roots⟩

theorem Alone.updT {f : Thread → Thread} (h : Alone t s y) (hf : ∀ x, (f x).rootReq = x.rootReq := by intro x; rfl) :
    Alone t s (updT y t f) :=
  ⟨fun x hx => (getT_updT_other _ _ hx).trans (h.others x hx), h.regs, by rw [getT_updT_same, hf, h.roots]⟩

theorem Alone.pmEvent (code : Nat) (addr : Option Nat) (n : Nat) (h : Alone t s y) : Alone t s (pmEvent y t code addr n) := by
  unfold Machine.pmEvent
  rw [h.coreOf]
  refine (List.range 8).foldlRecOn _ (motive := Alone t s) h fun z hz i hi => ?_
  have hi8 : i < 8 := List.mem_range.1 hi
  have hctr := hz.putR (.inr (.inr ⟨i, hi8, rfl⟩))
  exact Alone.orElse (Alone.orElse ((hctr _).putR (.inr (.inl rfl)) _) (hctr _)) hz

theorem Alone.checkAddrs (n : Nat) (h : Alone t s y) : Alone t s (checkAddrs y t n) := h.orElse (h.updC _ _)

theorem Alone.checkRetired (pc : Word) (ws : List (BitVec 32)) (h : Alone t s y) : Alone t s (checkRetired y t pc ws) := by
  have hput := h.putR (a := rCoreCheckStatus (coreUid (Machine.coreOf y t))) (.inl (by rw [h.coreOf]))
  exact ((((hput _).updC _ _).orElse h).checkAddrs _).updT

theorem Alone.takeRoots (hr : (getT s t).rootReq = []) (h : Alone t s y) : Alone t s (takeRoots y t) := by
  rw [takeRoots_of_none (h.roots.trans hr)]
  exact ⟨fun x hx => (getT_updT_other _ _ hx).trans (h.others x hx), h.regs, by rw [getT_updT_same, hr]⟩

theorem Alone.retire (pc : Word) (hr : (getT s t).rootReq = []) (h : Alone t s y) : Alone t s (retire y t pc) :=
  ((((h.updC _ _).updT).pmEvent _ _ _).pmEvent _ _ _).takeRoots hr

theorem Alone.done (ws : List (BitVec 32)) (u : State) (hr : (getT s t).rootReq = []) (h : Alone t s y) : Alone t s (done u y t ws) :=
  ((h.updT).checkRetired _ _).retire _ hr

end Alone

/-- An instruction that does no more than write `g` to rd, once long operations on the registers it names have completed. -/
def writesReg (u : State) (t : Tid) (rs : List RegNo) (rd : RegNo) (g : GReg) : State :=
  updT (useRegs u t rs) t (fun x => x.setGreg rd g)

/-- The thread once such an instruction is past. -/
theorem getT_writesReg_stepPc (u : State) (t : Tid) (rs : List RegNo) (rd : RegNo) (g : GReg) (n : Nat) :
    ∃ m c, getT (stepPc (writesReg u t rs rd g) t n) t = { getT (useRegs u t rs) t with regs := m, pcc := c } := by
  rw [stepPc, writesReg, getT_updT_same, getT_updT_same, setGreg_eq]
  exact ⟨_, _, rfl⟩

theorem greg_writesReg_other {u : State} {t : Tid} {rs : List RegNo} {rd r : RegNo} (g : GReg) (n : Nat) (h : r ≠ rd ∨ rd = 0) :
    (getT (stepPc (writesReg u t rs rd g) t n) t).greg r = (getT (useRegs u t rs) t).greg r := by
  rw [stepPc, writesReg, getT_updT_same, getT_updT_same]
  exact greg_setGreg_other _ g h

theorem writesReg_alone {u : State} {t : Tid} (rs : List RegNo) (rd : RegNo) (g : GReg) : Alone t u (writesReg u t rs rd g) :=
  ⟨fun x hx => by rw [writesReg, useRegs, getT_updT_other _ _ hx, getT_updT_other _ _ hx], fun _ _ => rfl, by
    rw [writesReg, getT_updT_same, setGreg_eq]
    exact useRegs_rootReq u t rs⟩

/-- Such an instruction, and the step past it, leave the rest of the machine. -/
theorem writesReg_stepPc_rest (u : State) (t : Tid) (rs : List RegNo) (rd : RegNo) (g : GReg) (n : Nat) :
    let y := stepPc (writesReg u t rs rd g) t n
    y.mem = u.mem ∧ y.tags = u.tags ∧ y.poison = u.poison ∧ y.vault = u.vault ∧ y.log = u.log ∧ y.dir = u.dir ∧ y.l3 = u.l3 ∧
      y.irqMsgs = u.irqMsgs ∧ y.time = u.time := by
  simp [stepPc, writesReg, useRegs]

/-- The forms of the frame: an integer operation of the ALU, or a capability operation that raises no cause. -/
theorem exec_writesReg {s u z : State} {t : Tid} {rd ra rb : RegNo} {c : Instr} {op : Nat} {fn : BitVec 10}
    (hform : (∃ f, exec c s = regOp s t op rd ra rb fn f) ∨
      (op = 0x50 ∧ ∃ f : GReg → GReg → GReg, exec c s = capOp s t rd ra rb fn (fun _ a b => .ok (f a b))))
    (h : fetched s t [wREG op rd ra rb fn] = some u) (hz : exec c s = .next z) :
    ∃ g, z = done s (writesReg u t [rd, ra, rb] rd g) t [wREG op rd ra rb fn] := by
  rcases hform with ⟨f, hf⟩ | ⟨rfl, f, hf⟩
  · rw [hf, regOp_done h, Host.Outcome.next.injEq] at hz
    exact ⟨_, hz.symm⟩
  · rw [hf, capOp_done h rfl, Host.Outcome.next.injEq] at hz
    exact ⟨_, hz.symm⟩

/-- Settles O9: what ends the instruction is quiet and alone, and the instruction itself writes rd. -/
theorem integerFrame : Obligations.IntegerFrame := by
  intro s u z t rd ra rb c hc h hz hr
  have hform : (∃ f, exec c.1 s = regOp s t c.2.1 rd ra rb c.2.2 f) ∨
      (c.2.1 = 0x50 ∧ ∃ f : GReg → GReg → GReg, exec c.1 s = capOp s t rd ra rb c.2.2 (fun _ a b => .ok (f a b))) := by
    clear h hz
    revert c
    simp only [List.forall_mem_cons]
    exact ⟨.inl ⟨_, exec_add ..⟩, .inl ⟨_, exec_sub ..⟩, .inl ⟨_, exec_and ..⟩, .inl ⟨_, exec_or ..⟩, .inl ⟨_, exec_xor ..⟩,
      .inl ⟨_, exec_andn ..⟩, .inl ⟨_, exec_sll ..⟩, .inl ⟨_, exec_srl ..⟩, .inl ⟨_, exec_sra ..⟩, .inl ⟨_, exec_rol ..⟩,
      .inl ⟨_, exec_ror ..⟩, .inl ⟨_, exec_clz ..⟩, .inl ⟨_, exec_ctz ..⟩, .inl ⟨_, exec_popc ..⟩, .inl ⟨_, exec_bswap ..⟩,
      .inl ⟨_, exec_slt ..⟩, .inl ⟨_, exec_sltu ..⟩, .inl ⟨_, exec_min ..⟩, .inl ⟨_, exec_max ..⟩, .inl ⟨_, exec_minu ..⟩,
      .inl ⟨_, exec_maxu ..⟩, .inr ⟨trivial, _, exec_cxbase ..⟩, .inr ⟨trivial, _, exec_cxlen ..⟩, .inr ⟨trivial, _, exec_cxperm ..⟩,
      .inr ⟨trivial, _, exec_cxtype ..⟩, .inr ⟨trivial, _, exec_cxtag ..⟩, .inr ⟨trivial, _, exec_cxstrip ..⟩,
      .inr ⟨trivial, _, exec_cxwithin ..⟩,
      .inr ⟨trivial, _, exec_cxfitlen ..⟩, .inr ⟨trivial, _, exec_cxfitbase ..⟩, List.forall_mem_nil _⟩
  obtain ⟨g, rfl⟩ := exec_writesReg hform h hz
  have hq := done_quietly s (writesReg u t [rd, ra, rb] rd g) t [wREG c.2.1 rd ra rb c.2.2]
  have ha := (writesReg_alone [rd, ra, rb] rd g).done [wREG c.2.1 rd ra rb c.2.2] s hr
  obtain ⟨m, p, hx⟩ := getT_writesReg_stepPc u t [rd, ra, rb] rd g [wREG c.2.1 rd ra rb c.2.2].length
  obtain ⟨hmem, htags, hpoison, hvault, hlog, hdir, hl3, hirq, htime⟩ :=
    writesReg_stepPc_rest u t [rd, ra, rb] rd g [wREG c.2.1 rd ra rb c.2.2].length
  have hw := hq.thread
  rw [hx] at hw
  refine ⟨fun r hne => (hq.thread.greg r).trans (greg_writesReg_other g _ hne), hw.vregs, hw.wstack, hw.fstack, hw.fgate, hw.gatetab,
    hw.wstate, hw.tctrl, hw.tstatus, hw.stores, hw.fault, hw.run, hw.pred, ha.others, readByte_congr (hq.mem.trans hmem),
    hq.tags.trans htags, hq.poison.trans hpoison,
    fun a h1 h2 h3 => ha.regs a ?_, hq.vault.trans hvault, hq.log.trans hlog, hq.dir.trans hdir,
    hq.l3.trans hl3, hq.irqMsgs.trans hirq, hq.time.trans htime⟩
  rintro (h | h | ⟨i, hi, h⟩)
  · exact h1 h
  · exact h2 h
  · exact h3 i hi h

/-! ### Thread registers (R84 to R88, R138, R165) -/

section ThreadRegisters
variable {s q u z : State} {t : Tid} {rd ra rb : RegNo} {g : GReg}

theorem rdtr_done {fn : BitVec 10} (hfn : fn.toNat < 16) (h : fetched s t [wREG 0x59 rd 0 0 fn] = some u)
    (hg : threadReg (useRegs u t [rd]) t fn.toNat = some g) :
    exec (.rdtr t rd 0 0 fn) s = .next (done s (updT (useRegs u t [rd]) t (fun x => x.setGreg rd g)) t [wREG 0x59 rd 0 0 fn]) := by
  rw [exec_rdtr]
  exact instrNext_done h (by simp only [hfn, and_self, if_true, hg])
    (by rw [getT_updT_same, setGreg_hostWait, useRegs_hostWait, fetched_hostWait h])

/-- A WRTR that asks for no authority, at a report point with nothing outstanding. -/
theorem wrtr_plain_done {n : Nat} {f : State → GReg → R State} (hq : quiet s t = some q)
    (h : fetched q t [wREG 0x5A 0 ra 0 ((0 : BitVec 6) ++ BitVec.ofNat 4 n)] = some u)
    (hworld : (((getT (useRegs u t [ra]) t).greg ra).tag && hasPerm ((getT (useRegs u t [ra]) t).greg ra) pWORLD &&
      !trusted (useRegs u t [ra]) t && decide (n ≤ 4)) = false)
    (hf : f (useRegs u t [ra]) ((getT (useRegs u t [ra]) t).greg ra) = .ok z) (hw : (getT z t).hostWait = none) :
    wrtr s t n false 0 ra 0 0 f = .next (done q z t [wREG 0x5A 0 ra 0 ((0 : BitVec 6) ++ BitVec.ofNat 4 n)]) := by
  refine (atReportPoint_quiet hq).trans (instrNext_done h ?_ hw)
  simpa [hworld] using hf

/-- A WRTR under the authority R87 asks for. -/
theorem wrtr_authorised_done {n : Nat} {f : State → GReg → R State} (hq : quiet s t = some q)
    (h : fetched q t [wREG 0x5A 0 ra rb ((0 : BitVec 6) ++ BitVec.ofNat 4 n)] = some u)
    (hauth : authorityCause (trusted (useRegs u t [ra, rb]) t) ((getT (useRegs u t [ra, rb]) t).greg rb) (tauthAddr t n) = none)
    (hworld : (((getT (useRegs u t [ra, rb]) t).greg ra).tag && hasPerm ((getT (useRegs u t [ra, rb]) t).greg ra) pWORLD &&
      !trusted (useRegs u t [ra, rb]) t) = false)
    (hf : f (useRegs u t [ra, rb]) ((getT (useRegs u t [ra, rb]) t).greg ra) = .ok z) (hw : (getT z t).hostWait = none) :
    wrtr s t n true 0 ra rb 0 f = .next (done q z t [wREG 0x5A 0 ra rb ((0 : BitVec 6) ++ BitVec.ofNat 4 n)]) := by
  refine (atReportPoint_quiet hq).trans (instrNext_done h ?_ hw)
  simpa [hworld, hauth, guardCap, bind, Except.bind] using hf

theorem wrtrWstack_done (hq : quiet s t = some q) (h : fetched q t [wREG 0x5A 0 ra 0 1] = some u)
    (hworld : (((getT (useRegs u t [ra]) t).greg ra).tag && hasPerm ((getT (useRegs u t [ra]) t).greg ra) pWORLD &&
      !trusted (useRegs u t [ra]) t) = false)
    (hcause : wstackCause ((getT (useRegs u t [ra]) t).greg ra) = none)
    (hz : replaceWstack (useRegs u t [ra]) t ((getT (useRegs u t [ra]) t).greg ra) = .ok z) (hw : (getT z t).hostWait = none) :
    exec (.wrtrWstack t 0 ra 0 0) s = .next (done q z t [wREG 0x5A 0 ra 0 1]) :=
  (exec_wrtrWstack ..).trans (wrtr_plain_done hq h (by rw [hworld, Bool.false_and])
    (by simp only [hcause, guardCap, bind, Except.bind, hz]) hw)

end ThreadRegisters

/-- Settles O19: each WRTR is the shared operation on its register, whose checks the premises pass. -/
theorem threadRegisterCompletes : Obligations.ThreadRegisterCompletes := by
  refine ⟨fun s u t rd fn g hfn h hg => rdtr_done hfn h hg, fun s q u t ra hq => ?_, fun s q u t ra rb hq => ?_,
    fun s q u z t ra hq h hworld hcause hz hw => wrtrWstack_done hq h hworld hcause hz hw⟩
  · simp only [List.forall_mem_cons]
    exact ⟨fun h => (exec_wrtrTctrl ..).trans (wrtr_plain_done hq h (Bool.and_false _) rfl
        (by rw [getT_updT_same, useRegs_hostWait, fetched_hostWait h])),
      fun h => (exec_wrtrTstatus ..).trans (wrtr_plain_done hq h (Bool.and_false _) rfl
        (by rw [getT_updT_same, useRegs_hostWait, fetched_hostWait h])), List.forall_mem_nil _⟩
  · simp only [List.forall_mem_cons]
    exact ⟨fun h hauth hworld => (exec_wrtrFstack ..).trans (wrtr_authorised_done hq h hauth hworld rfl
        (by rw [getT_updT_same, useRegs_hostWait, fetched_hostWait h])),
      fun h hauth hworld => (exec_wrtrFgate ..).trans (wrtr_authorised_done hq h hauth hworld rfl
        (by rw [getT_updT_same, useRegs_hostWait, fetched_hostWait h])),
      fun h hauth hworld => (exec_wrtrGatetab ..).trans (wrtr_authorised_done hq h hauth hworld rfl
        (by rw [getT_updT_same, useRegs_hostWait, fetched_hostWait h])), List.forall_mem_nil _⟩

/-! ### Vector instructions (R85, R103, R126, R152, R169) -/

section Vector
variable {s u : State} {t : Tid} {vd va vb vc : RegNo}

theorem vecOpD_done {op form : Nat} {f : Vec → Vec → Vec → Vec} (h : fetched s t [vecWord op vd va vb form] = some u) :
    vecOpD s t op vd va vb form f = .next (done s (putVec (useVecs u t [vd, va, vb]) t vd
      (f ((getT (useVecs u t [vd, va, vb]) t).vec vd) ((getT (useVecs u t [vd, va, vb]) t).vec va)
        ((getT (useVecs u t [vd, va, vb]) t).vec vb))) t [vecWord op vd va vb form]) :=
  instrNext_done h rfl (by rw [putVec_hostWait, useVecs_hostWait, fetched_hostWait h])

theorem vmodma_done {y : State} {r : List Nat} (hy : useVecs u t [vd, va, vb, vc] = y)
    (h : fetched s t [wSEL 0x6F vd va vb vc ((Config.vecFn 0x6F 0).setWidth 5)] = some u)
    (hr : modLanes (lanesOf 32 ((getT y t).vec va)) (lanesOf 32 ((getT y t).vec vb)) (lanesOf 32 ((getT y t).vec vd))
      (lanesOf 32 ((getT y t).vec vc)) = some r) :
    exec (.vmodma t vd va vb vc) s =
      .next (done s (putVec y t vd (packLanes 32 r)) t [wSEL 0x6F vd va vb vc ((Config.vecFn 0x6F 0).setWidth 5)]) := by
  subst hy
  rw [exec_vmodma]
  exact instrNext_done h (by simp only [hr]) (by rw [putVec_hostWait, useVecs_hostWait, fetched_hostWait h])

end Vector

/-- Settles O26: each instruction's body is total once its operands are read, VMODMA's under its premise. -/
theorem vectorCompletes : Obligations.VectorCompletes := by
  refine ⟨fun s u t vd va vb iop mop lop pop aop w => ?_, fun s u t vd va vb s2 s3 rnd => ⟨fun h => ?_, fun h => ?_⟩,
    fun s u t vd va vb vc w r => ⟨fun h hr => vmodma_done rfl h hr, fun h => ?_⟩,
    fun s u t rd ra w i => ⟨fun h => ?_, fun h => ?_, fun h => ?_⟩, fun s u t vd va op w h => ?_⟩
  · intro y c hc ws h
    have hform : exec c.1 s = vecOpD s t c.2.1 vd va vb c.2.2.1 (fun _ a b => c.2.2.2 a b) := by
      clear h ws
      revert c
      simp only [List.forall_mem_cons]
      exact ⟨rfl, rfl, rfl, rfl, rfl, rfl, List.forall_mem_nil _⟩
    exact hform.trans (vecOpD_done h)
  · exact (exec_vsha2 ..).trans (vecOpD_done h)
  · exact (exec_vsha3 ..).trans (vecOpD_done h)
  · exact (exec_vsel ..).trans (instrNext_done h rfl (by rw [putVec_hostWait, useVecs_hostWait, fetched_hostWait h]))
  · exact (exec_vmov ..).trans (instrNext_done h rfl (by rw [putVec_hostWait, useVecs_hostWait, useRegs_hostWait, fetched_hostWait h]))
  · exact (exec_vmov ..).trans (instrNext_done h rfl (by rw [putInt_hostWait, useVecs_hostWait, useRegs_hostWait, fetched_hostWait h]))
  · exact (exec_vmov ..).trans (instrNext_done h rfl (by rw [putVec_hostWait, useVecs_hostWait, fetched_hostWait h]))
  · exact (exec_vred ..).trans (instrNext_done h rfl (by rw [arith_hostWait, useVecs_hostWait, fetched_hostWait h]))

/-! ### Floating point (R85, R88, R152, R165 to R169) -/

/-- A floating-point operation retires with its lanes' results and the conditions they met. -/
theorem fpOp_done {s u : State} {t : Tid} {vd va vb : RegNo} {op form : Nat} {w : FpW} {scalar long : Bool} {f : Nat → Nat → Nat → FpRes}
    (h : fetched s t [vecWord op vd va vb (form * 4 + w.ctorIdx * 2 + ofBool scalar)] = some u) :
    let y := useVecs u t [vd, va, vb]
    let r := fpPack (FpBits w) scalar (List.zipWith (f (fld (getT y t).tctrl Tctrl.rm)) (lanesOf (FpBits w) ((getT y t).vec va))
      (lanesOf (FpBits w) ((getT y t).vec vb)))
    fpOp s t op vd va vb form w scalar long f = .next (done s (arith y t [vecWord op vd va vb (form * 4 + w.ctorIdx * 2 + ofBool scalar)]
      (.vector vd.toNat) GReg.zero r.1 r.2 long) t [vecWord op vd va vb (form * 4 + w.ctorIdx * 2 + ofBool scalar)]) :=
  instrNext_done h rfl (by rw [arith_hostWait, useVecs_hostWait, fetched_hostWait h])

/-- Settles O27: no operand value stops a floating-point instruction. -/
theorem floatCompletes : Obligations.FloatCompletes := by
  refine ⟨fun s u t vd va vb aop dop w scalar c hc h => ?_, fun s u t vd va vb vc w scalar h => ?_, fun s u t vd va op scalar h => ?_⟩
  · have hform : exec c.1 s = fpOp s t c.2.1 vd va vb c.2.2.1 w scalar c.2.2.2.1 c.2.2.2.2 := by
      clear h
      revert c
      simp only [List.forall_mem_cons]
      exact ⟨rfl, rfl, rfl, List.forall_mem_nil _⟩
    exact hform.trans (fpOp_done h)
  · exact (exec_fma ..).trans (instrNext_done h rfl (by rw [arith_hostWait, useVecs_hostWait, fetched_hostWait h]))
  · exact (exec_fcvt ..).trans (instrNext_done h rfl (by rw [arith_hostWait, useVecs_hostWait, fetched_hostWait h]))

/-! ### Loads and stores (R85, R90 to R94, R99, R103, R117, R133, R136, R137) -/

section Accesses
variable {s u z y : State} {t : Tid} {rd ra rb : RegNo} {ws : List (BitVec 32)} {v : GReg} {a : Word} {wb : Option Word}

/-- A load in a legal form, whose capability allows it and whose bytes are there, writes its base and its destination. -/
theorem loadOp_done {k : LdKind} {more : List RegNo} {bad : Bool} {am : Nat} {disp : Thread → Word} {bs : List Byte} {g : Bool}
    (h : fetched s t ws = some u) (hbad : bad = false) (hown : (amWrites am && k != .vec && rd == ra) = false)
    (hy : useRegs (useData u t (k == .vec) rd) t (ra :: more) = y) (hv : (getT y t).greg ra = v)
    (hea : effAddr am (boundsOf v).1 (boundsOf v).2 v.int (disp (getT y t)) = some (a, wb))
    (huse : useAt (trusted y t) v [pLOAD] (k != .vec) (some a) k.size = none)
    (hld : loadBytes y t v a k.size (k == .cap) = .ok (some (bs, g), z)) (hw : (getT z t).hostWait = none) :
    loadOp s t ws k rd ra more bad am disp = .next (done s (putLoad (baseBack z t am ra wb) t v k rd bs g) t ws) := by
  refine instrNext_done h ?_ (by rw [putLoad_hostWait, baseBack_hostWait, hw])
  simp [hbad, hown, hy, hv, hea, huse, hld, guardCap, bind, Except.bind]

/-- A store in a legal form, whose capability allows the access and the tag it stores, writes its bytes and its base. -/
theorem storeOp_done {k : StKind} {more : List RegNo} {bad : Bool} {am : Nat} {disp : Thread → Word} {b : List Byte × Option Bool}
    (h : fetched s t ws = some u) (hbad : bad = false)
    (hy : useRegs (useData u t (k == .vec) rd) t (ra :: more) = y) (hv : (getT y t).greg ra = v) (hb : storeValue (getT y t) k rd = b)
    (hea : effAddr am (boundsOf v).1 (boundsOf v).2 v.int (disp (getT y t)) = some (a, wb))
    (huse : useAt (trusted y t) v (storePerms b.2) (k != .vec) (some a) b.1.length = none)
    (hlocal : localCause v ((getT y t).greg rd) b.2 = none)
    (hst : storeBytes y t v a b.1 (k == .cap) b.2 false = .ok z) (hw : (getT z t).hostWait = none) :
    storeOp s t ws k rd ra more bad am disp = .next (done s (baseBack z t am ra wb) t ws) := by
  refine instrNext_done h ?_ (by rw [baseBack_hostWait, hw])
  simp [hbad, hy, hv, hb, hea, huse, hlocal, hst, guardCap, bind, Except.bind]

/-- The modes of format MEM (R99). -/
theorem memMode_ok {am : BitVec 3} (h3 : am ≠ 3) (h7 : am ≠ 7) : (am == 3 || am == 7) = false := by
  rw [beq_eq_false_iff_ne.2 h3, beq_eq_false_iff_ne.2 h7, Bool.or_false]

/-- The fields of format MIX (R90, R103). -/
theorem mixBad_ok {sh : BitVec 3} {w : BitVec 5} (hs : sh.toNat ≤ 4) (hw : w.toNat ≤ 24) : mixBad sh w = false := by
  simp only [mixBad, Bool.or_eq_false_iff, decide_eq_false_iff_not]
  omega

theorem lda_done {size : BitVec 3} {k : LdKind} {bs : List Byte} {g : Bool}
    (hk : (if size = 4 then LdKind.cap else .zext (2 ^ size.toNat)) = k)
    (h : fetched s t [wREG 0x47 rd ra 0 ((0 : BitVec 7) ++ size)] = some u) (hsize : size.toNat ≤ 4)
    (hy : useRegs u t [rd, ra] = y) (hv : (getT y t).greg ra = v)
    (huse : useAt (trusted y t) v [pLOAD] true (some v.int) k.size = none)
    (hld : loadBytes (drainRel y t) t v v.int k.size true = .ok (some (bs, g), z)) (hw : (getT z t).hostWait = none) :
    exec (.lda t rd ra size 0) s =
      .next (done s (putLoad z t v k rd bs g) t [wREG 0x47 rd ra 0 ((0 : BitVec 7) ++ size)]) := by
  have hlegal : ¬ 5 ≤ size.toNat := by omega
  rw [exec_lda]
  refine instrNext_done h ?_ (by rw [putLoad_hostWait, hw])
  simp only [ne_eq, not_true, false_or, if_neg hlegal, hk, hy, hv, huse, hld, guardCap, bind, Except.bind]

theorem strel_done {size : BitVec 3} {k : StKind} {b : List Byte × Option Bool}
    (hk : (if size = 4 then StKind.cap else .int (2 ^ size.toNat)) = k)
    (h : fetched s t [wREG 0x48 rd ra 0 ((0 : BitVec 7) ++ size)] = some u) (hsize : size.toNat ≤ 4)
    (hy : useRegs u t [rd, ra] = y) (hv : (getT y t).greg ra = v) (hb : storeValue (getT y t) k rd = b)
    (huse : useAt (trusted y t) v (storePerms b.2) true (some v.int) b.1.length = none)
    (hlocal : localCause v ((getT y t).greg rd) b.2 = none)
    (hst : storeBytes y t v v.int b.1 true b.2 true = .ok z) (hw : (getT z t).hostWait = none) :
    exec (.strel t rd ra size 0) s = .next (done s z t [wREG 0x48 rd ra 0 ((0 : BitVec 7) ++ size)]) := by
  have hlegal : ¬ 5 ≤ size.toNat := by omega
  rw [exec_strel]
  refine instrNext_done h ?_ hw
  simp only [ne_eq, not_true, false_or, if_neg hlegal, hk, hy, hv, hb, huse, hlocal, hst, guardCap, bind, Except.bind]

end Accesses

/-- Settles O21: the loads of a format are one operation in their opcode and kind. -/
theorem loadCompletes : Obligations.LoadCompletes := by
  refine ⟨fun s u z t rd ra am imm a wb bs g c hc h h3 h7 hown hea huse hld hw => ?_,
    fun s u z t rd ra rb sh w m x a wb bs g c hc h hs hw' hx hea huse hld hw => ?_,
    fun s u z t rd ra size bs g h hsize huse hld hw => lda_done rfl h hsize rfl rfl huse hld hw⟩
  · have hform : exec c.1 s = memLoad s t c.2.1 c.2.2 rd ra am imm := by
      clear h hown huse hld hea
      revert c
      simp only [List.forall_mem_cons]
      exact ⟨rfl, rfl, rfl, rfl, rfl, rfl, rfl, rfl, rfl, List.forall_mem_nil _⟩
    exact hform.trans (loadOp_done h (memMode_ok h3 h7) hown rfl rfl hea huse hld hw)
  · have hform : ∃ xr, exec c.1 s = mixLoad s t c.2.1 c.2.2.1 rd ra rb sh w m x xr ∧ (xr && x) = !c.2.2.2 := by
      clear h hx huse hld hea
      revert c
      simp only [List.forall_mem_cons]
      exact ⟨⟨false, rfl, rfl⟩, ⟨false, rfl, rfl⟩, ⟨false, rfl, rfl⟩, ⟨true, rfl, (Bool.not_not x).symm⟩,
        ⟨true, rfl, (Bool.not_not x).symm⟩,
        ⟨true, rfl, (Bool.not_not x).symm⟩, List.forall_mem_nil _⟩
    obtain ⟨xr, hform, hxr⟩ := hform
    have hbad : (mixBad sh w || (xr && x)) = false := by rw [mixBad_ok hs hw', hxr, hx]; rfl
    have hown : (amWrites (mixMode m) && c.2.2.1 != .vec && rd == ra) = false := by cases m <;> rfl
    exact hform.trans (loadOp_done h hbad hown rfl rfl hea huse hld hw)

/-- Settles O22: the stores of a format are one operation in their opcode and kind. -/
theorem storeCompletes : Obligations.StoreCompletes := by
  refine ⟨fun s u z t rd ra am imm a wb c hc h h3 h7 hea huse hlocal hst hw => ?_,
    fun s u z t rd ra rb sh w m a wb c hc h hs hw' hea huse hlocal hst hw => ?_,
    fun s u z t rd ra size h hsize huse hlocal hst hw => strel_done rfl h hsize rfl rfl rfl huse hlocal hst hw⟩
  · have hform : exec c.1 s = memStore s t c.2.1 c.2.2 rd ra am imm := by
      clear h huse hlocal hst hea
      revert c
      simp only [List.forall_mem_cons]
      exact ⟨rfl, rfl, rfl, rfl, rfl, rfl, List.forall_mem_nil _⟩
    exact hform.trans (storeOp_done h (memMode_ok h3 h7) rfl rfl rfl hea huse hlocal hst hw)
  · have hform : exec c.1 s = mixStore s t c.2.1 c.2.2 rd ra rb sh w m false := by
      clear h huse hlocal hst hea
      revert c
      simp only [List.forall_mem_cons]
      exact ⟨rfl, rfl, rfl, rfl, rfl, rfl, List.forall_mem_nil _⟩
    have hbad : (mixBad sh w || false) = false := by rw [mixBad_ok hs hw']; rfl
    exact hform.trans (storeOp_done h hbad rfl rfl rfl hea huse hlocal hst hw)

/-- What each step of a fold keeps, the fold keeps. -/
theorem foldl_keeps_value {α β γ : Type} (p : β → γ) {f : β → α → β} (hf : ∀ y x, p (f y x) = p y) (l : List α) :
    ∀ y, p (l.foldl f y) = p y := by
  induction l with
  | nil => exact fun _ => rfl
  | cons x l ih => exact fun y => (ih (f y x)).trans (hf y x)

/-! ### Calls, returns and gates (R71 to R74, R109, R110, R145, R161, R162)

No step of a transfer waits for a host: what was not awaited before it is not awaited after it. -/

@[simp] theorem pmAdd_threads (s : State) (ctr win i n : Nat) : (pmAdd s ctr win i n).threads = s.threads := by
  unfold pmAdd
  dsimp only
  split <;> rfl

@[simp] theorem pmEvent_threads (s : State) (t : Tid) (code : Nat) (addr : Option Nat) (n : Nat) :
    (pmEvent s t code addr n).threads = s.threads := by
  unfold pmEvent
  refine foldl_keeps_value State.threads (fun z i => ?_) _ s
  split
  · exact pmAdd_threads ..
  · rfl

@[simp] theorem getT_pmEvent (s : State) (t u : Tid) (code : Nat) (addr : Option Nat) (n : Nat) :
    getT (pmEvent s t code addr n) u = getT s u := getT_congr (pmEvent_threads ..) u

theorem updT_hostWait (s : State) (t u : Tid) {f : Thread → Thread} (hf : ∀ x, (f x).hostWait = x.hostWait) :
    (getT (updT s t f) u).hostWait = (getT s u).hostWait := by
  by_cases hu : u = t
  · rw [hu, getT_updT_same, hf]
  · rw [getT_updT_other s f hu]

@[simp] theorem startClear_hostWait (s : State) (t u : Tid) : (getT (startClear s t) u).hostWait = (getT s u).hostWait := by
  unfold startClear
  refine foldl_keeps_value (fun z : State => (getT z u).hostWait) (fun z x => ?_) _ _
  dsimp only
  rw [getT_pmEvent]
  exact updT_hostWait z x u (f := fun y => { y with clearing := true, inFlight := x != t }) fun _ => rfl

@[simp] theorem clearWhen_hostWait (s : State) (t u : Tid) (b : Bool) : (getT (clearWhen s t b) u).hostWait = (getT s u).hostWait := by
  cases b with
  | true => exact startClear_hostWait s t u
  | false => rfl

@[simp] theorem setPcc_hostWait (s : State) (t : Tid) (v : GReg) (a : Word) : (getT (setPcc s t v a) t).hostWait = (getT s t).hostWait := by
  rw [setPcc, getT_updT_same]

@[simp] theorem transferred_hostWait (s : State) (t : Tid) (b : Bool) : (getT (transferred s t b) t).hostWait = (getT s t).hostWait := by
  rw [transferred, getT_pmEvent, getT_updT_same]

@[simp] theorem pushReturn_hostWait (s : State) (t : Tid) (a : Word) : (getT (pushReturn s t a) t).hostWait = (getT s t).hostWait := by
  rw [pushReturn, getT_updT_same]

@[simp] theorem popReturn_hostWait (s : State) (t : Tid) : (getT (popReturn s t) t).hostWait = (getT s t).hostWait := by
  rw [popReturn, getT_updT_same]

@[simp] theorem advance_hostWait (x : Thread) : (advance x).hostWait = x.hostWait := by
  unfold advance
  dsimp only
  exact foldl_keeps_value Thread.hostWait (fun y i => by rw [setAt_hostWait, setAt_hostWait]) _ x

@[simp] theorem retreat_hostWait (x : Thread) : (retreat x).hostWait = x.hostWait := rfl

@[simp] theorem shallower_hostWait (s : State) (t : Tid) : (getT (shallower s t) t).hostWait = (getT s t).hostWait := rfl

@[simp] theorem putF_hostWait (s : State) (t : Tid) (a : Nat) (f : Fld) (n : Nat) :
    (getT (s.putF a f n) t).hostWait = (getT s t).hostWait := rfl

@[simp] theorem foldl_setGreg_hostWait (r : Nat → RegNo) (g : Nat → GReg) (l : List Nat) (x : Thread) :
    (l.foldl (fun y i => y.setGreg (r i) (g i)) x).hostWait = x.hostWait :=
  foldl_keeps_value Thread.hostWait (fun _ _ => setGreg_hostWait ..) l x

@[simp] theorem doCall_hostWait (s : State) (t : Tid) (n o : Nat) (v : GReg) (a : Word) :
    (getT (doCall s t n o v a) t).hostWait = (getT s t).hostWait := by
  simp [doCall]

section Transfers
variable {s q u v w : State} {t : Tid} {ra : RegNo}

/-- A transfer at a report point with nothing outstanding retires with its body's state. -/
theorem transfer_done {ws : List (BitVec 32)} {body : State → R State} {z : State} (hq : quiet s t = some q)
    (h : fetched q t ws = some u) (hb : body u = .ok z) (hw : (getT z t).hostWait = none) :
    atReportPoint s t (fun s => instrJump s t ws body) = .next (jumped q z t ws) :=
  (atReportPoint_quiet hq).trans (instrJump_jumped h hb hw)

theorem call_done {disp : BitVec 25} (hq : quiet s t = some q) (h : fetched q t [wJMP 0x20 disp] = some u)
    (htgt : targetCause (getT u t).pcc ((getT u t).pc + (disp.signExtend 64 <<< 2)) = none) (hfree : waitFree u t 2 = .ok v)
    (hw : (getT v t).hostWait = none) :
    exec (.call t disp) s = .next (jumped q (doCall v t 1 0 (getT u t).pcc ((getT u t).pc + (disp.signExtend 64 <<< 2))) t
      [wJMP 0x20 disp]) := by
  rw [exec_call]
  exact transfer_done hq h (by simp only [relTarget, htgt, guardCap, bind, Except.bind, hfree]) ((doCall_hostWait ..).trans hw)

theorem callr_done {g : GReg} {y : State} (hy : useRegs u t [ra] = y) (hg : (getT y t).greg ra = g) (hq : quiet s t = some q)
    (h : fetched q t [wREG 0x21 0 ra 0 0] = some u) (hc : callCause (trusted y t) g = none) (htgt : targetCause g g.int = none)
    (hfree : waitFree y t 2 = .ok v) (hw : (getT v t).hostWait = none) :
    let z := doCall v t 1 (if capOtype g == 4095 then 4094 else 0) (setOtype g 0) g.int
    exec (.callr t ra) s = .next (jumped q (clearWhen z t (capOtype g == 4095 && z.getB (rBcPredCtrl t.val) BcPredCtrl.clr_gates)) t
      [wREG 0x21 0 ra 0 0]) := by
  rw [exec_callr]
  exact transfer_done hq h (by simp only [hy, hg, hc, htgt, guardCap, bind, Except.bind, hfree])
    (by rw [clearWhen_hostWait, doCall_hostWait, hw])

theorem ret_done {g : GReg} (hg : (getT u t).greg e7 = g) (hq : quiet s t = some q) (h : fetched q t [wREG 0x22 0 0 0 0] = some u)
    (hc : retCause (trusted u t) g = none) (htgt : targetCause g g.int = none) (hfill : fillForReturn u t = .ok v)
    (hw : (getT v t).hostWait = none) :
    let z := popReturn (setPcc (updT v t retreat) t (setOtype g 0) g.int) t
    exec (.ret t) s = .next (jumped q (clearWhen (transferred z t true) t
      (capOtype g == 4093 || (capOtype g == 4094 && z.getB (rBcPredCtrl t.val) BcPredCtrl.clr_gates))) t [wREG 0x22 0 0 0 0]) := by
  rw [exec_ret]
  exact transfer_done hq h (by simp only [hg, hc, htgt, guardCap, bind, Except.bind, hfill]) (by simp [hw])

/-- TRAP through a gate that has no window stack of its own (R145). -/
theorem trap_done {n : BitVec 15} {d : List GReg} {gt : GReg} (hgt : (getT u t).gatetab = gt) (hq : quiet s t = some q)
    (h : fetched q t (wGroup [] (wIMM 0x23 0 0 n)) = some u) (hworld : (gt.tag && hasPerm gt pWORLD && !trusted u t) = false)
    (hok : gatetabOk gt n.toNat = true) (hd : loadLine u t gt (BitVec.ofInt 64 (capBase gt + 64 * n.toNat)) = .ok (some d, v))
    (hgate : gateOk d = true) (hstack : (d.getD 1 GReg.zero).tag = false)
    (htgt : targetCause (d.getD 0 GReg.zero) (d.getD 0 GReg.zero).int = none) (hfree : waitFree v t 2 = .ok w)
    (hw : (getT w t).hostWait = none) :
    let e := d.getD 0 GReg.zero
    let iso := (d.getD 2 GReg.zero).data.getLsbD 1
    let y := updT w t (fun x => advance (x.setGreg x7 (returnCap x 1 (if iso then 4093 else 4094))))
    let z := transferred (pushReturn (setPcc y t (setOtype e 0) e.int) t ((getT w t).pc + 4)) t true
    exec (.trap t [] n) s = .next (jumped q (clearWhen z t (iso || z.getB (rBcPredCtrl t.val) BcPredCtrl.clr_gates)) t
      (wGroup [] (wIMM 0x23 0 0 n))) := by
  rw [exec_trap]
  refine transfer_done hq h ?_ (by simp [hw])
  simp only [List.isEmpty_nil, Bool.not_true, Bool.false_eq_true, if_false, hgt, hworld, hok, hd, hgate, hstack, htgt, guardCap, bind,
    Except.bind, hfree]

/-- FRET from a well-formed frame (R162). -/
theorem fret_done {g : List GReg} {k : Nat} {fs pc : GReg} {info : Word} (hfs : (getT u t).fstack = fs) (hpc : g.getD 0 GReg.zero = pc)
    (hinfo : (g.getD 1 GReg.zero).int = info) (hq : quiet s t = some q)
    (h : fetched q t [(BitVec.ofNat 7 0x24 ++ (0 : BitVec 25) : BitVec 32)] = some u) (hstack : fstackOk fs fs.int = true)
    (hg : loadGranules u t fs fs.int 0 32 = .ok (some g, k, v)) (hok : infoOk info = true) (htag : pc.tag = true)
    (hseal : sealed pc = false) (hperm : hasPerm pc pEXEC = true) (htgt : targetCause pc pc.int = none)
    (hfill : fillForReturn v t = .ok w) (hw : (getT w t).hostWait = none) :
    let y := updT w t (fun x =>
      let x := (List.range 8).foldl (fun x i => x.setGreg (BitVec.ofNat 5 (24 + i)) (g.getD (16 + i) GReg.zero)) (retreat x)
      let x := (List.range 7).foldl (fun x i => x.setGreg (BitVec.ofNat 5 (1 + i)) (g.getD (8 + i) GReg.zero)) x
      { x with fstack := moveCursor x.fstack (x.fstack.int + 512) })
    let y := y.putF (rBcIrqCtrl t.val) BcIrqCtrl.run_pri (fld info ⟨50, 46⟩)
    let z := shallower (transferred (popReturn (setPcc y t pc pc.int) t) t true) t
    exec (.fret t 0) s = .next (jumped q (clearWhen z t (z.getB (rBcPredCtrl t.val) BcPredCtrl.clr_fault)) t
      [(BitVec.ofNat 7 0x24 ++ (0 : BitVec 25) : BitVec 32)]) := by
  rw [exec_fret]
  refine transfer_done hq h ?_ ?_
  · simp only [ne_eq, not_true, if_false, hfs, hstack, Bool.not_true, Bool.false_eq_true, hg, hpc, hinfo, hok, htag, hseal, hperm,
      Bool.or_self, htgt, guardCap, bind, Except.bind, hfill]
  · simp only [clearWhen_hostWait, shallower_hostWait, transferred_hostWait, popReturn_hostWait, setPcc_hostWait, putF_hostWait]
    rw [getT_updT_same]
    simp only [foldl_setGreg_hostWait, retreat_hostWait, hw]

end Transfers

/-- The spill engine's next spill, where it has one to do (R74). -/
theorem spill_done {s v : State} {t : Tid} (hc : coreRuns s t = true) (hr : 13 < (getT s t).res)
    (hb : fldB (getT s t).wstate Wstate.spill_blocked = false) (hs : spillOne s t = .ok v) : exec (.spill t) s = .next v := by
  have hwork : ¬((getT s t).res ≤ 13 ∨ fldB (getT s t).wstate Wstate.spill_blocked = true) := by
    rw [hb]
    simp only [Bool.false_eq_true, or_false, not_le, hr]
  rw [exec_spill, execSpill, if_pos hc, spillEngine, if_neg hwork, hs]
  rfl

/-- A fill that is read whole makes the caller's frame resident (R75). -/
theorem windowFill_done {s v : State} {t : Tid} (hc : coreRuns s t = true) (hr : (getT s t).res = 1) (hs : fillOne s t = .ok (true, v)) :
    exec (.windowFill t) s = .next v := by
  rw [exec_windowFill, execWindowFill, if_pos ⟨hc, .inl hr⟩, hs]

/-- Settles O17: each transfer retires with its body's state, and each step of the window engines with what it moves. -/
theorem callReturnCompletes : Obligations.CallReturnCompletes :=
  ⟨fun _ _ _ _ _ _ hq h htgt hfree hw => call_done hq h htgt hfree hw,
    fun _ _ _ _ _ _ hq h hc htgt hfree hw => callr_done rfl rfl hq h hc htgt hfree hw,
    fun _ _ _ _ _ hq h hc htgt hfill hw => ret_done rfl hq h hc htgt hfill hw,
    fun _ _ _ _ _ _ _ _ hq h hworld hok hd hgate hstack htgt hfree hw => trap_done rfl hq h hworld hok hd hgate hstack htgt hfree hw,
    fun _ _ _ _ _ _ _ _ hq h hstack hg hok htag hseal hperm htgt hfill hw =>
      fret_done rfl rfl rfl hq h hstack hg hok htag hseal hperm htgt hfill hw,
    fun _ _ _ => spill_done, fun _ _ _ => windowFill_done⟩

/-! ### Speculation and retired stores (R183 to R198, R222, R273) -/

/-- A store that may go leaves, its next piece performed and the rest of it kept at its place (R191, R273). -/
theorem storeRelease_done {s : State} {t : Tid} {k : Nat} {e : StoreEnt} (he : (getT s t).stores[k]? = some e)
    (hmay : mayRelease (getT s t).stores k = true) (hserves : serving s (coreUid (coreOf s t)) = true)
    (hruns : sheafRuns s (coreOf s t) = true) (hidle : (linesOf e.cut.1.span.1 e.cut.1.span.2).all (lineIdle s) = true) :
    exec (.storeRelease t k) s = .next (performStore (setStores s t ((getT s t).stores.take k ++ e.cut.2 ++
      (getT s t).stores.drop (k + 1))) t e.cut.1 e.cut.2.isEmpty) := by
  rw [exec_storeRelease, execStoreRelease, he]
  simp only [hmay, hserves, hruns, hidle, Bool.not_true, Bool.or_self, Bool.false_eq_true, if_false]

theorem mispredictRecovery_done {s : State} {t : Tid} {b : PathOp} {path : List PathOp} (hat : atBoundary s t = true)
    (hp : wasPredicted s t b = true) :
    exec (.mispredictRecovery ⟨t, b, path⟩) s =
      .next (pmEvent (updT (updC s (coreOf s t) (fun c => { c with lost := [] })) t (fun x => { x with
        pred := x.pred.restore ((b :: path.take (checkpoints s t - 1)).foldl (Pred.follow (returnSlots s t)) x.pred) })) t 0x04) := by
  rw [exec_mispredictRecovery, execMispredictRecovery]
  exact congrArg Host.Outcome.next (if_pos (by rw [hat, hp]; rfl))

theorem bulkClear_done {s : State} {t : Tid} (hc : (getT s t).clearing = true) :
    exec (.bulkClear t) s = .next (clearPredictors s t) := by
  rw [exec_bulkClear, execBulkClear, hc]
  rfl

theorem bulkClearDone_done {s : State} {t : Tid} (hc : (getT s t).clearing = true) (hend : (getC s (coreOf s t)).clearEnd ≠ 0) :
    exec (.bulkClearDone t) s = .next (
      let y := (clearScope s t).foldl (fun s u => updT s u (fun x => { x with clearing := false })) s
      updC y (coreOf y t) (fun c => { c with clearEnd := 0 })) := by
  rw [exec_bulkClearDone, execBulkClearDone, hc, beq_eq_false_iff_ne.mpr hend]
  rfl

/-- Only a host's write of PRED_CTRL is dropped. -/
theorem predClearWrite_done {s : State} {r : Requester} (t : Tid) (v : Word) (hr : notHost r = true)
    (hup : blockUp s uidBaseCamp = true) : exec (.predClearWrite r t v) s = .next (writePredCtrl s t v) := by
  cases r with
  | host => cases hr
  | _ => exact (exec_predClearWrite ..).trans (congrArg Host.Outcome.next (if_pos hup))

/-- Only a host's write of a root is dropped. -/
theorem rootWrite_done {s : State} {r : Requester} (t : Tid) (b : Bool) (v : Word) (hr : notHost r = true)
    (hup : blockUp s uidBaseCamp = true) : exec (.rootWrite r t b v) s = .next (writeRoot s t b v) := by
  cases r with
  | host => cases hr
  | _ => exact (exec_rootWrite ..).trans (congrArg Host.Outcome.next (if_pos hup))

/-- No access under way and no earlier write waiting: a root is written at once (R222). -/
theorem writeRoot_now {s : State} {t : Tid} (b : Bool) (v : Word) (hw : (getT s t).hostWait = none) (hr : (getT s t).replay = [])
    (hq : (getT s t).rootReq = []) : writeRoot s t b v = putRoot s t b v := by
  unfold writeRoot
  simp only [hw, hr, hq, Option.isSome_none, List.isEmpty_nil, Bool.not_true, Bool.or_self, Bool.false_eq_true, if_false]

/-- An access under way, or an earlier write: a write of a root waits for the boundary (R222). -/
theorem writeRoot_waits {s : State} {t : Tid} (b : Bool) (v : Word)
    (h : (getT s t).hostWait.isSome = true ∨ (getT s t).replay ≠ [] ∨ (getT s t).rootReq ≠ []) :
    writeRoot s t b v = updT s t (fun x => { x with rootReq := x.rootReq ++ [(b, v)] }) :=
  if_pos (by simpa only [Bool.or_eq_true, Bool.not_eq_true', List.isEmpty_eq_false_iff, or_assoc] using h)

section Prefetch
variable {s : State} {t : Tid} {x : Xl} {w : Bool}

/-- A core that may ask sends its request to the home, a buffer reserved (R280). -/
theorem coreAsks_sends {k line : Nat} (m : Miss) (kind : ReqKind) (hserves : serving s (coreUid k) = true)
    (hp : (getD s (sheafOfCore k)).paused = false) (hs : (getD s (sheafOfCore k)).stopped = false)
    (hm : mfind (getC s k).misses line = none) (hup : homeUp s line = true) :
    coreAsks s k line m kind = toHome (updC s k (fun c => { c with misses := mins c.misses line m })) ⟨kind, .core k, line, []⟩ :=
  if_neg (by simp only [domUp, hserves, hp, hs, hm, hup]; decide)

/-- A line that may be prefetched, that the core does not hold and that the home admits is asked for. -/
theorem prefetchAt_asks (hpre : prefetchable s x = true) (hl : lineOf s (coreOf s t) (x.pa / 64) = none)
    (ha : admits s (if w then .trusted else .normal) false x.pa = true) :
    prefetchAt s t w x = coreAsks s (coreOf s t) (x.pa / 64) .prefetch .rdS :=
  if_neg (by simp only [hpre, hl, ha]; decide)

/-- A prefetch in a trained page, with WORLD where an access with it trained the page (R194, R437). -/
theorem hardwarePrefetch_done {va : Word} (hc : coreRuns s t = true) (hx : xlat s (xctx s t) .load va.toNat = .ok ⟨x, none⟩)
    (hpage : (getC s (coreOf s t)).pages.contains (x.pa / 4096, w) = true)
    (hworld : w = false → (getC s (coreOf s t)).pages.contains (x.pa / 4096, true) = false) :
    exec (.hardwarePrefetch t va) s = .next (prefetchAt s t w x) := by
  rw [exec_hardwarePrefetch, execHardwarePrefetch, hc, hx]
  cases w with
  | true => simp only [hpage, Bool.not_true, Bool.false_eq_true, if_false, if_true]
  | false => simp only [hpage, hworld rfl, Bool.not_true, Bool.false_eq_true, if_false, if_true]

end Prefetch

/-- A walk that finds a mapping, and whose accessed bits are set at the first try. -/
theorem xlate_walked {s y : State} {t : Tid} {k : XKind} {va n : Nat} {x : Xl} {e : TlbEnt} {ws : List WalkEnt}
    (hu : usedEntry s t va = none) (hx : xlat s (xctxFor s t k) k va = .ok ⟨x, some (e, ws)⟩)
    (hcas : casLeaves (drainLeaves s t e) (.core (coreOf s t)) e Leaf.a = some y) :
    xlate (n + 1) s t k va = .ok ({ x with ent := some (e.withBit Leaf.a) },
      walkEvents (fillTlb (checkAddrs y t (ws.length + (e.at1.toList ++ e.at2.toList).length)) (coreOf s t) k (e.withBit Leaf.a) ws)
        t va) := by
  simp only [xlate, hu, xlateGo, hx, hcas]

theorem pageWalk_done {s y : State} {t : Tid} {va : Word} {x : Xl} (hc : coreRuns s t = true)
    (hr : capReaches s t false va.toNat 1 = true) (hx : xlate 4 s t .load va.toNat = .ok (x, y)) :
    exec (.pageWalk t va) s = .next y := by
  rw [exec_pageWalk, execPageWalk, hc, hr, hx]
  rfl

/-- Settles O60: each command's guard stands, so that it leaves what its definition says. -/
theorem speculationCompletes : Obligations.SpeculationCompletes :=
  ⟨fun _ _ _ _ => mispredictRecovery_done,
    fun _ _ hc => ⟨bulkClear_done hc, bulkClearDone_done hc⟩,
    fun _ _ t v hr hup => ⟨predClearWrite_done t v hr hup,
      fun hw hrep hq =>
        ⟨(rootWrite_done t false v hr hup).trans (congrArg _ (writeRoot_now _ _ hw hrep hq)),
          (rootWrite_done t true v hr hup).trans (congrArg _ (writeRoot_now _ _ hw hrep hq))⟩,
      fun b h => (rootWrite_done t b v hr hup).trans (congrArg _ (writeRoot_waits b v h))⟩,
    fun _ _ _ _ _ hc hx hpre hpage hworld hl ha hserves hp hs hm hup =>
      (hardwarePrefetch_done hc hx hpage hworld).trans
        (congrArg _ ((prefetchAt_asks hpre hl ha).trans (coreAsks_sends .prefetch .rdS hserves hp hs hm hup))),
    fun _ _ _ _ _ _ _ hc hr hu hx hcas => pageWalk_done hc hr (xlate_walked hu hx hcas),
    fun _ _ _ _ he hmay hserves hruns hidle => storeRelease_done he hmay hserves hruns (List.all_eq_true.mpr hidle)⟩

/-! ### The frame of a store that leaves, and of a load (R90, R190, R191, R273, R275) -/

theorem cut_pa (e : StoreEnt) : e.cut.1.pa = e.pa := by
  unfold StoreEnt.cut
  split <;> rfl

theorem cut_kind (e : StoreEnt) : e.cut.1.kind = e.kind := by
  unfold StoreEnt.cut
  split <;> rfl

theorem cut_cached (e : StoreEnt) : e.cut.1.cached = e.cached := by
  unfold StoreEnt.cut
  split <;> rfl

theorem cut_world (e : StoreEnt) : e.cut.1.world = e.world := by
  unfold StoreEnt.cut
  split <;> rfl

/-- What decodes an address, and what refuses a requester, lies outside the threads. -/
theorem physClass_setStores (s : State) (t : Tid) (q : List StoreEnt) (pa : Nat) : physClass (setStores s t q) pa = physClass s pa := rfl

theorem admits_setStores (s : State) (t : Tid) (q : List StoreEnt) (c : ReqClass) (w : Bool) (pa : Nat) :
    admits (setStores s t q) c w pa = admits s c w pa := rfl

section Store
variable {s : State} {t : Tid} {e : StoreEnt}

/-- A cached store of data that its home takes writes its bytes: no writing request is served meanwhile, so that owning its lines changes
no byte and no thread. -/
theorem performStore_cached (last : Bool) (hk : e.kind = .data) (hc : e.cached = true) (hm : (physClass s e.pa).isMem = true)
    (ha : admits s (if e.world then .trusted else .normal) true e.pa = true) (hq : ∀ r ∈ s.homeQ, r.kind.writes = false)
    (hx : ∀ x ∈ s.txns, x.2.req.kind.writes = false) :
    (performStore s t e last).mem = writeCells s.mem e.pa e.bytes ∧ (performStore s t e last).threads = s.threads := by
  have hown : Calm s.mem s.threads ((linesOf e.pa e.bytes.length).foldl (fun y l => ownLine y (coreOf s t) l) s) :=
    Calm.foldl _ (fun _ l hy => hy.ownLine _ l) _ ⟨rfl, rfl, hq, hx⟩
  have hadm : admits s (if e.world then .trusted else .normal) (SqKind.data != .clean && SqKind.data != .flush) e.pa = true := ha
  unfold performStore
  simp only [hm, hk, hadm, hc, Bool.not_true, Bool.false_eq_true, if_false, if_true]
  generalize (linesOf e.pa e.bytes.length).foldl (fun y l => ownLine y (coreOf s t) l) s = y at hown ⊢
  have htag : ∀ z : State, z.mem = writeCells s.mem e.pa e.bytes ∧ z.threads = s.threads → ∀ b : Bool,
      (if b then poisonedStoreRecord z t e.pa else z).mem = writeCells s.mem e.pa e.bytes ∧
        (if b then poisonedStoreRecord z t e.pa else z).threads = s.threads := by
    intro z hz b
    cases b with
    | false => exact hz
    | true => exact ⟨(logRecord_mem ..).trans hz.1, (logRecord_threads ..).trans hz.2⟩
  have hwrite : (writeBytes y e.pa e.bytes).mem = writeCells s.mem e.pa e.bytes ∧ (writeBytes y e.pa e.bytes).threads = s.threads :=
    ⟨congrArg (writeCells · e.pa e.bytes) hown.mem, (writeBytes_threads ..).trans hown.threads⟩
  apply htag
  cases e.tag with
  | none => exact hwrite
  | some g => exact ⟨(setTag_mem ..).trans hwrite.1, (setTag_threads ..).trans hwrite.2⟩

/-- A piece of a store that leaves: its bytes read back, every other byte is as it was, and only the thread's queue changed. -/
theorem performStore_piece {q : List StoreEnt} (last : Bool) (hk : e.kind = .data) (hc : e.cached = true)
    (hm : (physClass s e.pa).isMem = true) (ha : admits s (if e.world then .trusted else .normal) true e.pa = true)
    (hq : ∀ r ∈ s.homeQ, r.kind.writes = false) (hx : ∀ x ∈ s.txns, x.2.req.kind.writes = false) :
    let z := performStore (setStores s t q) t e last
    (∀ i, i < e.bytes.length → readByte z (e.pa + i) = e.bytes.getD i 0) ∧
      (∀ a, (a < e.pa ∨ e.pa + e.bytes.length ≤ a) → readByte z a = readByte s a) ∧
        (getT z t).stores = q ∧ (∀ x, x ≠ t → getT z x = getT s x) := by
  intro z
  obtain ⟨hmem, hth⟩ := performStore_cached (s := setStores s t q) (t := t) last hk hc
    ((congrArg PClass.isMem (physClass_setStores ..)).trans hm) ((admits_setStores ..).trans ha) hq hx
  have hread : ∀ a, readByte z a = mget 0 (writeCells s.mem e.pa e.bytes) a := fun a => congrArg (mget 0 · a) hmem
  refine ⟨fun i hi => (hread _).trans (mget_writeCells_inside _ _ _ hi), fun a ho => (hread a).trans (mget_writeCells_outside _ _ ho),
    ?_, fun x hne => ?_⟩
  · rw [getT_congr hth, setStores, getT_updT_same]
  · rw [getT_congr hth, setStores, getT_updT_other _ _ hne]

end Store

section Load
variable (s : State) (t : Tid) (am : Nat) (rd ra : RegNo) (wb : Option Word) (v : GReg) (k : LdKind) (bs : List Byte) (g : Bool)

/-- The base of a writing mode is a general register: nothing else changes. -/
theorem baseBack_leaves : (baseBack s t am ra wb).mem = s.mem ∧ (baseBack s t am ra wb).tags = s.tags ∧
    (∃ m, getT (baseBack s t am ra wb) t = { getT s t with regs := m }) ∧
    ∀ r, r ≠ ra → (getT (baseBack s t am ra wb) t).greg r = (getT s t).greg r := by
  unfold baseBack
  cases wb with
  | none => exact ⟨rfl, rfl, ⟨_, rfl⟩, fun _ _ => rfl⟩
  | some c =>
    refine ⟨updT_mem .., updT_tags .., ⟨_, (getT_updT_same ..).trans (setGreg_eq ..)⟩, fun r hr => ?_⟩
    rw [getT_updT_same]
    exact greg_setGreg_other _ _ (.inl hr)

/-- The destination of a load is a general or a vector register: nothing else changes. -/
theorem putLoad_leaves : (putLoad s t v k rd bs g).mem = s.mem ∧ (putLoad s t v k rd bs g).tags = s.tags ∧
    (∃ m n, getT (putLoad s t v k rd bs g) t = { getT s t with regs := m, vregs := n }) ∧
    ∀ r, r ≠ rd ∨ k = .vec → (getT (putLoad s t v k rd bs g) t).greg r = (getT s t).greg r := by
  have hgeneral : ∀ w : GReg, (updT s t (·.setGreg rd w)).mem = s.mem ∧ (updT s t (·.setGreg rd w)).tags = s.tags ∧
      (∃ m n, getT (updT s t (·.setGreg rd w)) t = { getT s t with regs := m, vregs := n }) ∧
      ∀ r, r ≠ rd → (getT (updT s t (·.setGreg rd w)) t).greg r = (getT s t).greg r := fun w =>
    ⟨updT_mem .., updT_tags .., ⟨_, _, (getT_updT_same ..).trans (setGreg_eq ..)⟩, fun r hr => by
      rw [getT_updT_same]
      exact greg_setGreg_other _ _ (.inl hr)⟩
  have hrest : k ≠ .vec → ∀ r, r ≠ rd ∨ k = .vec → r ≠ rd := fun hk r h => h.resolve_right hk
  unfold putLoad
  cases k with
  | vec =>
    refine ⟨updT_mem .., updT_tags .., ⟨_, _, getT_updT_same ..⟩, fun r _ => ?_⟩
    dsimp only
    rw [getT_updT_same]
    rfl
  | cap =>
    obtain ⟨hmem, htags, hx, hr⟩ := hgeneral (tagSeen s t v (BitVec.ofNat 128 (ofBytes bs)) g)
    exact ⟨hmem, htags, hx, fun r h => hr r (hrest nofun r h)⟩
  | sext n =>
    obtain ⟨hmem, htags, hx, hr⟩ := hgeneral (GReg.ofInt (BitVec.ofInt 64 (sextNat (8 * n) (ofBytes bs))))
    exact ⟨hmem, htags, hx, fun r h => hr r (hrest nofun r h)⟩
  | zext n =>
    obtain ⟨hmem, htags, hx, hr⟩ := hgeneral (GReg.ofInt (BitVec.ofNat 64 (ofBytes bs)))
    exact ⟨hmem, htags, hx, fun r h => hr r (hrest nofun r h)⟩

/-- The step past an instruction, and its retiring, leave memory, TSTATUS, the store queue and the general registers. -/
theorem done_leaves (u : State) (ws : List (BitVec 32)) : (done u s t ws).mem = s.mem ∧ (done u s t ws).tags = s.tags ∧
    (getT (done u s t ws) t).tstatus = (getT s t).tstatus ∧ (getT (done u s t ws) t).stores = (getT s t).stores ∧
      ∀ r, (getT (done u s t ws) t).greg r = (getT s t).greg r := by
  have hq := done_quietly u s t ws
  have hstep : getT (stepPc s t ws.length) t = { getT s t with pcc := (getT (stepPc s t ws.length) t).pcc } := by
    rw [stepPc, getT_updT_same]
  have hw := hq.thread
  rw [hstep] at hw
  refine ⟨?_, ?_, hw.tstatus, hw.stores, fun r => hw.greg r⟩
  · rw [hq.mem, stepPc, updT_mem]
  · rw [hq.tags, stepPc, updT_tags]

/-- A load that writes its base and its destination, and retires, leaves memory, TSTATUS, the store queue and every other general
register. -/
theorem loaded_leaves (u : State) (ws : List (BitVec 32)) :
    let y := done u (putLoad (baseBack s t am ra wb) t v k rd bs g) t ws
    (∀ b, readByte y b = readByte s b) ∧ y.tags = s.tags ∧ (getT y t).tstatus = (getT s t).tstatus ∧
      (getT y t).stores = (getT s t).stores ∧ (∀ r, r ≠ ra → (r ≠ rd ∨ k = .vec) → (getT y t).greg r = (getT s t).greg r) := by
  obtain ⟨hmem, htags, ⟨m, hbase⟩, hgreg⟩ := baseBack_leaves s t am ra wb
  obtain ⟨hmem', htags', ⟨m', n, hdest⟩, hgreg'⟩ := putLoad_leaves (baseBack s t am ra wb) t rd v k bs g
  obtain ⟨hmem'', htags'', htstatus, hstores, hgreg''⟩ := done_leaves (putLoad (baseBack s t am ra wb) t v k rd bs g) t u ws
  rw [hdest, hbase] at htstatus hstores
  exact ⟨readByte_congr (hmem''.trans (hmem'.trans hmem)), htags''.trans (htags'.trans htags), htstatus, hstores,
    fun r hne hdst => (hgreg'' r).trans ((hgreg' r hdst).trans (hgreg r hne))⟩

end Load

/-- Settles O10: a store that leaves is one cached write of its piece, a load writes registers alone. -/
theorem storeReleaseFrame : Obligations.StoreReleaseFrame := by
  refine ⟨fun s t k e he hmay hserves hruns hidle => ⟨storeRelease_done he hmay hserves hruns hidle,
      fun hk hc hm ha hq hx z hz => ?_⟩,
    fun s u z y t rd ra am imm a wb bs g c hc h h3 h7 hown hea huse hld hw hy => ?_⟩
  · rw [storeRelease_done he hmay hserves hruns hidle, Host.Outcome.next.injEq] at hz
    subst hz
    rw [← cut_pa e] at hm ha ⊢
    rw [← cut_world e] at ha
    exact performStore_piece _ ((cut_kind e).trans hk) ((cut_cached e).trans hc) hm ha hq hx
  · have hform : exec c.1 s = memLoad s t c.2.1 c.2.2 rd ra am imm := by
      clear h hown huse hld hea hy
      revert c
      simp only [List.forall_mem_cons]
      exact ⟨rfl, rfl, rfl, rfl, rfl, rfl, rfl, rfl, rfl, List.forall_mem_nil _⟩
    rw [hform.trans (loadOp_done h (memMode_ok h3 h7) hown rfl rfl hea huse hld hw), Host.Outcome.next.injEq] at hy
    subst hy
    exact loaded_leaves z t am.toNat rd ra wb _ c.2.2 bs g s _

end Sys2Proof.Machine

/-! PROOFS. The instruction set (chapter 4): where multiplication, division and trapping arithmetic lead (O14), branches and jumps (O16),
entries and WAIT (O18), atomics (O23) and block instructions (O25). -/

namespace Sys2Proof.Machine

/-! ### Multiply, divide and trapping arithmetic (R104, R112, R165, R167, R169) -/

section Arithmetic
variable {s u : State} {t : Tid} {rd ra rb : RegNo}

/-- The exact sum, difference or product cut to 64 bits is the wrapped one: what a trapping instruction writes (R112). -/
theorem trapW_add (a b : Word) :
    trapW (a.toInt + b.toInt) = (a + b, if sOverflow (a.toInt + b.toInt) then [.intOv] else []) := by
  rw [trapW, BitVec.ofInt_add, BitVec.ofInt_toInt, BitVec.ofInt_toInt]

theorem trapW_sub (a b : Word) :
    trapW (a.toInt - b.toInt) = (a - b, if sOverflow (a.toInt - b.toInt) then [.intOv] else []) := by
  rw [trapW, Int.sub_eq_add_neg, BitVec.ofInt_add, BitVec.ofInt_neg, BitVec.ofInt_toInt, BitVec.ofInt_toInt, BitVec.sub_eq_add_neg]

theorem trapW_mul (a b : Word) :
    trapW (a.toInt * b.toInt) = (a * b, if sOverflow (a.toInt * b.toInt) then [.intOv] else []) := by
  rw [trapW, BitVec.ofInt_mul, BitVec.ofInt_toInt, BitVec.ofInt_toInt]

/-- An instruction that meets no condition, in a thread of precise arithmetic: rd is written as it retires (R167). -/
theorem arithOp_plain_now {op : Nat} {fn : BitVec 10} {f : Word → Word → Word} (h : fetched s t [wREG op rd ra rb fn] = some u)
    (hp : fldB (getT (useRegs u t [rd, ra, rb]) t).tctrl Tctrl.precise_arith = true) :
    arithOp s t op rd ra rb fn true (fun a b => (f a b, [])) = .next (done s (putInt (useRegs u t [rd, ra, rb]) t rd
      (f ((getT (useRegs u t [rd, ra, rb]) t).int ra) ((getT (useRegs u t [rd, ra, rb]) t).int rb))) t [wREG op rd ra rb fn]) := by
  rw [arithOp_done h, arith_plain (.inl hp)]

/-- Otherwise a long operation holds its result (R169). -/
theorem arithOp_plain_later {op : Nat} {fn : BitVec 10} {f : Word → Word → Word} (h : fetched s t [wREG op rd ra rb fn] = some u)
    (hp : fldB (getT (useRegs u t [rd, ra, rb]) t).tctrl Tctrl.precise_arith = false) :
    arithOp s t op rd ra rb fn true (fun a b => (f a b, [])) = .next (done s (updT (useRegs u t [rd, ra, rb]) t (fun y => { y with
      longOps := y.longOps ++ [⟨.general (place (getT (useRegs u t [rd, ra, rb]) t).cwp rd), GReg.ofInt
        (f ((getT (useRegs u t [rd, ra, rb]) t).int ra) ((getT (useRegs u t [rd, ra, rb]) t).int rb)), 0, [], 0⟩] })) t
      [wREG op rd ra rb fn]) := by
  rw [arithOp_done h, arith_later rfl hp]
  rfl

theorem longOpComplete_done {k : Nat} {o : LongOp} (hc : coreRuns s t = true) (ho : (getT s t).longOps[k]? = some o) :
    exec (.longOpComplete t k) s = .next (updT s t (fun x => { applyLong x o with longOps := x.longOps.eraseIdx k })) := by
  rw [exec_longOpComplete, execLongOpComplete, hc]
  simp only [updT, ho, Bool.not_true, Bool.false_eq_true, if_false]

end Arithmetic

/-- Settles O14: each instruction is the shared arithmetic operation in its function, whose result is written at once or later as the lemmas
about `arith` say. -/
theorem multiplyDivideCompletes : Obligations.MultiplyDivideCompletes := by
  refine ⟨fun s u t rd ra rb h => (exec_mulLow ..).trans (regOp_done h), fun s u t rd ra rb c hc => ?_,
    fun s u t rd ra rb c hc => ?_, fun _ _ _ _ => longOpComplete_done⟩
  · have hform : exec c.1 s = arithOp s t c.2.1 rd ra rb c.2.2.1 true (fun a b => (c.2.2.2 a b, [])) := by
      revert c
      simp only [List.forall_mem_cons]
      exact ⟨rfl, rfl, rfl, rfl, rfl, rfl, rfl, List.forall_mem_nil _⟩
    exact fun h => ⟨fun hp => hform.trans (arithOp_plain_now h hp), fun hp => hform.trans (arithOp_plain_later h hp)⟩
  · have hform : exec c.1 s = arithOp s t c.2.1 rd ra rb c.2.2.1 c.2.2.2.1 c.2.2.2.2 := by
      revert c
      simp only [List.forall_mem_cons, ← trapW_add, ← trapW_sub, ← trapW_mul]
      exact ⟨rfl, rfl, rfl, rfl, rfl, List.forall_mem_nil _⟩
    refine fun h => ⟨fun hnone => ⟨fun hp => ?_, fun hp => ?_⟩, fun _ => hform.trans (arithOp_done h)⟩
    · rw [hform, arithOp_done h, arith_now hnone hp]
    · rw [hform, arithOp_done h, hp.2, arith_later hnone hp.1]

/-! ### Branches and jumps (R97, R107, R108, R182, R510) -/

section Branches
variable {s u : State} {t : Tid} {ra rb : RegNo}

/-- A branch whose condition holds goes to its target, where PCC allows it. -/
theorem branch_taken {op : Nat} {disp : BitVec 15} {f : Word → Word → Bool} {y : State} {a : Word}
    (hy : useRegs u t [ra, rb] = y) (ha : relTarget (getT y t) (disp.signExtend 64) = a) (h : fetched s t [wBR op ra rb disp] = some u)
    (hf : f ((getT y t).int ra) ((getT y t).int rb) = true) (htgt : targetCause (getT y t).pcc a = none) :
    branch s t op ra rb disp f = .next (jumped s (transferred (setPcc y t (getT y t).pcc a) t true) t [wBR op ra rb disp]) := by
  refine instrJump_jumped h ?_ ?_
  · simp only [hy, ha, hf, htgt, if_true, guardCap, bind, Except.bind]
  · rw [transferred_hostWait, setPcc_hostWait, ← hy, useRegs_hostWait, fetched_hostWait h]

/-- A branch whose condition fails goes on behind itself. -/
theorem branch_notTaken {op : Nat} {disp : BitVec 15} {f : Word → Word → Bool} {y : State}
    (hy : useRegs u t [ra, rb] = y) (h : fetched s t [wBR op ra rb disp] = some u)
    (hf : f ((getT y t).int ra) ((getT y t).int rb) = false) :
    branch s t op ra rb disp f = .next (jumped s (transferred (stepPc y t 1) t false) t [wBR op ra rb disp]) := by
  refine instrJump_jumped h ?_ ?_
  · simp only [hy, hf, Bool.false_eq_true, if_false]
  · rw [transferred_hostWait, stepPc_hostWait, ← hy, useRegs_hostWait, fetched_hostWait h]

theorem j_done {disp : BitVec 25} {a : Word} (ha : relTarget (getT u t) (disp.signExtend 64) = a)
    (h : fetched s t [wJMP 0x1E disp] = some u) (htgt : targetCause (getT u t).pcc a = none) :
    exec (.j t disp) s = .next (jumped s (transferred (setPcc u t (getT u t).pcc a) t true) t [wJMP 0x1E disp]) := by
  rw [exec_j]
  refine instrJump_jumped h ?_ ?_
  · simp only [ha, htgt, guardCap, bind, Except.bind]
  · rw [transferred_hostWait, setPcc_hostWait, fetched_hostWait h]

theorem jr_done {y : State} {g : GReg} (hy : useRegs u t [ra] = y) (hg : (getT y t).greg ra = g)
    (h : fetched s t [wREG 0x1F 0 ra 0 0] = some u) (hc : pccCause (trusted y t) g = none) (htgt : targetCause g g.int = none) :
    exec (.jr t ra) s = .next (jumped s (transferred (setPcc y t g g.int) t true) t [wREG 0x1F 0 ra 0 0]) := by
  rw [exec_jr]
  refine instrJump_jumped h ?_ ?_
  · simp only [hy, hg, hc, htgt, guardCap, bind, Except.bind]
  · rw [transferred_hostWait, setPcc_hostWait, ← hy, useRegs_hostWait, fetched_hostWait h]

end Branches

/-- Settles O16: the six branches are one operation in their condition. -/
theorem branchCompletes : Obligations.BranchCompletes := by
  refine ⟨fun s u t ra rb disp c hc h => ?_, fun _ _ _ _ h htgt => j_done rfl h htgt,
    fun _ _ _ _ h hc htgt => jr_done rfl rfl h hc htgt⟩
  have hform : exec c.1 s = branch s t c.2.1 ra rb disp c.2.2 := by
    clear h
    revert c
    simp only [List.forall_mem_cons]
    exact ⟨rfl, rfl, rfl, rfl, rfl, rfl, List.forall_mem_nil _⟩
  exact ⟨fun hf htgt => hform.trans (branch_taken rfl rfl h hf htgt), fun hf => hform.trans (branch_notTaken rfl h hf)⟩

/-! ### Entries and WAIT (R107, R154, R155, R158, R163, R165, R166, R172, R176) -/

section Entries
variable {s u : State} {t : Tid} {ra : RegNo}

/-- A fault is taken where nothing is outstanding before it, or where it is itself one raised after its instruction (R167). -/
theorem pendingFault_entered {f : FaultInfo} (hat : atBoundary s t = true) (hf : (getT s t).fault = some f)
    (hfirst : (settleAll (getT s t)).excs = [] ∨ arithCause f.cause = true) :
    exec (.faultEntry t .pending) s = .next (enter (takenRecord s t f) t (faultEntryOf f)) := by
  have hnow : ((settleAll (getT s t)).excs.isEmpty || arithCause f.cause) = true := by
    rw [Bool.or_eq_true, List.isEmpty_iff]
    exact hfirst
  rw [exec_faultEntry, execFaultEntry]
  simp only [hat, hf, hnow, Bool.not_true, Bool.false_eq_true, if_false, if_true]

/-- Words that no instruction spells, once fetched, are entered as fault 0x01. -/
theorem illegalWords_entered {ws : List (BitVec 32)} (hr : ready s t = true) (hws : wordsIllegal ws = true)
    (hquiet : (settleAll (getT s t)).excs = []) (hfetch : fetchCheck s t ws.length = .ok u) :
    exec (.faultEntry t (.words ws)) s =
      .next (enter u t (faultEntryOf ⟨0x01, 0, (getT u t).pc, none, GReg.zero, ws, none⟩)) := by
  rw [exec_faultEntry, execFaultEntry]
  simp only [hr, hws, hquiet, hfetch, List.isEmpty_nil, Bool.not_true, Bool.or_self, Bool.false_eq_true, if_false]

/-- The report of the oldest exception, the others in its mask, whatever long operations had still to complete. -/
theorem reportExcs_eq {y : State} {o : ArithExc} {more : List ArithExc} (hy : updT s t settleAll = y)
    (he : (getT y t).excs = o :: more) :
    reportExcs s t = enter (updT y t (fun x => { x with excs := [] })) t
      ⟨1, o.cause, 0, BitVec.ofNat 64 (excMask (more.map (·.cause))), (getT y t).lastPc, if o.known then some o.orig else none,
        none, (getT y t).lastWords, GReg.zero⟩ := by
  rw [reportExcs, hy]
  simp only [he]

/-- It is due once a later instruction has retired (R165). -/
theorem impreciseReport_reports (hat : atBoundary s t = true) (hf : (getT s t).fault = none)
    (hage : (settleAll (getT s t)).excs.any (fun e => decide (2 ≤ e.age)) = true) :
    exec (.impreciseReport t) s = .next (reportExcs s t) := by
  rw [exec_impreciseReport, execImpreciseReport, if_pos ⟨hat, by rw [hf]; rfl, hage⟩]

/-- The interrupt of highest priority is taken, a WAIT ended and its pending bit cleared. -/
theorem interrupt_entered {v : Nat} (hc : coreRuns s t = true) (hrun : (getT s t).run = .running ∨ (getT s t).run = .waiting)
    (hw : (getT s t).hostWait = none) (hf : afterFault (getT s t) = false) (hquiet : (settleAll (getT s t)).excs = [])
    (hv : nextVector s t = some v) :
    exec (.interruptEntry t) s = .next (enter ((updT s t (fun x =>
      { x with run := .running, deadline := none, fault := none })).putF (rBcIrqPend t.val) ⟨v, v⟩ 0) t
      ⟨2, 0, v, 0, (getT s t).pc, none, none, [], GReg.zero⟩) := by
  have halive : ((getT s t).run != .running && (getT s t).run != .waiting) = false := by
    rcases hrun with h | h <;> rw [h] <;> rfl
  rw [exec_interruptEntry, execInterruptEntry]
  simp only [hc, halive, hw, hf, hv, hquiet, List.isEmpty_nil, Option.isSome_none, Bool.not_true, Bool.or_self, Bool.false_eq_true,
    if_false]

/-- A WAIT whose deadline has come, or beside a deliverable interrupt, ends at once. -/
theorem wait_ends {v : State} {d : Nat} (hv : useRegs u t [ra] = v) (hd : ((getT v t).int ra).toNat = d)
    (h : fetchedIf (readyWait s t) s t [wREG 0x25 0 ra 0 0] = some u) (hend : (d ≠ 0 ∧ d ≤ v.time) ∨ (nextVector v t).isSome) :
    exec (.wait t ra) s = .next (done s v t [wREG 0x25 0 ra 0 0]) := by
  obtain ⟨-, -, -, -, hw⟩ := fetchedIf_spec h
  rw [exec_wait, execWait]
  refine congrArg Host.Outcome.next (instrIf_done h ?_ ?_)
  · simp only [hv, hd, if_pos hend]
  · rw [← hv, useRegs_hostWait, hw]

/-- Any other suspends the thread, with the deadline it names. -/
theorem wait_suspends {v : State} {d : Nat} (hv : useRegs u t [ra] = v) (hd : ((getT v t).int ra).toNat = d)
    (h : fetchedIf (readyWait s t) s t [wREG 0x25 0 ra 0 0] = some u) (hlate : d = 0 ∨ v.time < d) (hirq : nextVector v t = none) :
    exec (.wait t ra) s = .next (done s (updT v t (fun x =>
      { x with run := .waiting, deadline := if d = 0 then none else some d })) t [wREG 0x25 0 ra 0 0]) := by
  obtain ⟨-, -, -, -, hw⟩ := fetchedIf_spec h
  have hstays : ¬((d ≠ 0 ∧ d ≤ v.time) ∨ (nextVector v t).isSome) := by
    rw [hirq]
    simp only [Option.isSome_none, Bool.false_eq_true, or_false]
    omega
  rw [exec_wait, execWait]
  refine congrArg Host.Outcome.next (instrIf_done h ?_ ?_)
  · simp only [hv, hd, if_neg hstays]
  · rw [getT_updT_same, ← hv, useRegs_hostWait, hw]

theorem waitDeadline_wakes {d : Nat} (hrun : (getT s t).run = .waiting) (hd : (getT s t).deadline = some d) (hdue : d ≤ s.time) :
    exec (.waitDeadline t) s = .next (updT s t (fun x => { x with run := .running, deadline := none })) := by
  rw [exec_waitDeadline, execWaitDeadline]
  simp only [updT, hrun, hd, if_pos hdue]

end Entries

/-- Settles O18: the premises of each clause pass the guards of its command, which then enters, reports, waits or wakes. -/
theorem entriesComplete : Obligations.EntriesComplete := by
  refine ⟨fun _ _ _ => pendingFault_entered, fun _ _ _ _ => illegalWords_entered, fun s t o more hat hf he hage => ?_,
    fun _ _ _ => interrupt_entered, fun _ _ _ _ h => ⟨wait_ends rfl rfl h, wait_suspends rfl rfl h⟩,
    fun _ _ _ => waitDeadline_wakes⟩
  rw [getT_updT_same] at hage
  rw [impreciseReport_reports hat hf hage, reportExcs_eq rfl he]

/-! ### Atomics (R113 to R115, R271, R272) -/

/-- A tag that is not stored needs no leave (R137). -/
theorem localCause_untagged (v g : GReg) : localCause v g (some false) = none := if_neg (by simp)

/-- No class of address is both memory and a host aperture. -/
theorem hostAp_not_isMem {c : PClass} {i off : Nat} (hc : c = .hostAp i off) : c.isMem = false := by
  rw [hc]
  rfl

section Atomics
variable {s u y p q z : State} {t : Tid} {rd ra rb : RegNo} {ws : List (BitVec 32)} {bad tag : Bool} {order : BitVec 2} {n : Nat}
  {f : Thread → AmoF} {fin : GReg → GReg} {v old : GReg} {x : Xl} {again : State → R (Xl × State)}

/-- An atomic whose capability and place allow it, in memory: the old value to rd, the new one where `amoMem` performs it. -/
theorem amoOp_memory_done {host : Option (Thread → HostAtom)} {onHost stores : Bool} (h : fetched s t ws = some u)
    (hbad : bad = false) (hhost : host.isSome = onHost) (hy : useRegs u t [rd, ra, rb] = y) (hv : (getT y t).greg ra = v)
    (hst : (tag && ((getT y t).greg rb).tag) = stores)
    (hagain : (fun w => reachP w t .atomic v v.int n true stores (cannotAtomic onHost)) = again)
    (hq : drainBefore (if order.getLsbD 0 then drainRel p t else p) t x.pa n (order.getLsbD 1) = q)
    (huse : useAt (trusted y t) v ([pLOAD, pSTORE, pATOMIC] ++ if stores then [pSTORECAP] else []) false (some v.int) n = none)
    (hlocal : localCause v ((getT y t).greg rb) (some stores) = none) (hreach : again y = .ok (x, p))
    (hm : (physClass q x.pa).isMem = true) (hamo : amoMem q t v v.int x n (f (getT y t)) again = .ok (old, z))
    (hw : (getT z t).hostWait = none) :
    amoOp s t ws rd ra rb bad order n tag host f fin = .next (done s (updT z t (fun w => w.setGreg rd (fin old))) t ws) := by
  subst hagain
  refine instrNext_done h ?_ (by rw [getT_updT_same, setGreg_hostWait, hw])
  simp only [hbad, hhost, hy, hv, hst, huse, hlocal, hreach, hq, hm, guardCap, bind, Except.bind, Bool.false_eq_true, if_false,
    Bool.true_or, if_true]
  split
  · next hc => exact absurd hm (by rw [hostAp_not_isMem hc]; decide)
  · simp only [hamo]

/-- An atomic that moves no tags, on a host aperture, once the host has answered with the old value. -/
theorem amoOp_host_done {host : Thread → HostAtom} {x' : Xl} {d : State} {i off : Nat} (h : fetched s t ws = some u)
    (hbad : bad = false) (htag : tag = false) (hy : useRegs u t [rd, ra, rb] = y) (hv : (getT y t).greg ra = v)
    (hagain : (fun w => reachP w t .atomic v v.int n true false (cannotAtomic true)) = again)
    (hd : drainBefore (if order.getLsbD 0 then drainRel p t else p) t x.pa n (order.getLsbD 1) = d)
    (huse : useAt (trusted y t) v [pLOAD, pSTORE, pATOMIC] false (some v.int) n = none)
    (hreach : again y = .ok (x, p)) (hm : (physClass d x.pa).isMem = false)
    (hdirty : (if turnedAway d t x then .ok (x, d) else settleDirty again t v v.int 4 d x) = .ok (x', q))
    (hc : physClass q x'.pa = .hostAp i off)
    (hamo : amoHost q t v v.int i off n (host (getT y t)) x'.ent = .ok (some old, z)) (hw : (getT z t).hostWait = none) :
    amoOp s t ws rd ra rb bad order n tag (some host) f fin =
      .next (done s (updT z t (fun w => w.setGreg rd (fin old))) t ws) := by
  subst hagain
  refine instrNext_done h ?_ (by rw [getT_updT_same, setGreg_hostWait, hw])
  simp only [hbad, htag, hy, hv, huse, localCause_untagged, hreach, hd, hm, hdirty, hc, hamo, guardCap, bind, Except.bind,
    Bool.false_eq_true, if_false, Bool.false_and, Bool.false_or, Option.isSome_some, List.append_nil]

end Atomics

/-- Settles O23: AMO and CAS are the shared atomic operation in what they make of the old value. -/
theorem atomicCompletes : Obligations.AtomicCompletes := by
  refine ⟨fun s u p z t rd ra rb order wide x old c hc => ?_,
    fun s u p z t rd ra rb order width x old h hwidth huse hlocal hreach hm hamo hw => ?_,
    fun s u p q z t rd ra rb order x x' old i off c hc => ?_⟩
  · have hform : exec c.1 s = amo s t c.2.1 c.2.2 rd ra rb order wide 0 := by
      revert c
      simp only [List.forall_mem_cons]
      exact ⟨rfl, rfl, rfl, rfl, rfl, rfl, rfl, rfl, rfl, List.forall_mem_nil _⟩
    rw [hform, amo]
    exact fun h huse hlocal hreach hm hamo hw => amoOp_memory_done h rfl (Bool.eq_iff_iff.2 Option.isSome_ite) rfl rfl rfl rfl
      rfl huse hlocal hreach hm hamo hw
  · have hlegal : ((0 : BitVec 6) != 0 || width == 3) = false := by
      rw [beq_false_of_ne hwidth]
      rfl
    rw [exec_cas, execCas]
    exact amoOp_memory_done h hlegal (by rw [Bool.eq_iff_iff, Option.isSome_ite', bne_iff_ne, beq_iff_eq]) rfl rfl rfl rfl rfl huse hlocal
      hreach hm hamo hw
  · have hform : ∃ f, exec c.1 s = amoOp s t [c.2.1] rd ra rb false order c.2.2.1 false (some c.2.2.2) f untagged := by
      revert c
      simp only [List.forall_mem_cons, exec_amoFadd, execAmoFadd, exec_amoSwap, execAmoSwap, amo, exec_cas, execCas]
      exact ⟨⟨_, rfl⟩, ⟨_, rfl⟩, ⟨_, rfl⟩, ⟨_, rfl⟩, List.forall_mem_nil _⟩
    obtain ⟨f, hform⟩ := hform
    exact fun h huse hreach hm hdirty hclass hamo hw =>
      hform.trans (amoOp_host_done h rfl rfl rfl rfl rfl rfl huse hreach hm hdirty hclass hamo hw)

/-! ### Block instructions (R120 to R126, R222) -/

section Block
variable {s u y z : State} {t : Tid} {op : BlkOp} {rd ra rb : RegNo}

/-- A root write waits for the boundary: a block instruction performs one element (R222). -/
theorem blkInstr_element (h : (getT s t).rootReq ≠ []) :
    blkInstr s t op rd ra rb = exec (.blockElement t op rd ra rb) s :=
  if_neg (by simpa only [List.isEmpty_iff] using h)

/-- No root write waits: it performs all its elements. -/
theorem blkInstr_whole (h : (getT s t).rootReq = []) : blkInstr s t op rd ra rb = blkWhole s t op rd ra rb :=
  if_pos (List.isEmpty_iff.mpr h)

/-- Work that is complete already is all that is done. -/
theorem blkWhole_idle (h : fetched s t (blkWords op rd ra rb) = some u) (hs : blkStart u t op rd ra rb = .ok (z, true))
    (hw : (getT z t).hostWait = none) : blkWhole s t op rd ra rb = .next (done s z t (blkWords op rd ra rb)) :=
  instrNext_done h (by simp only [hs, bind, Except.bind, if_true]) hw

/-- Elements that all succeed retire the instruction. -/
theorem blkWhole_loop (h : fetched s t (blkWords op rd ra rb) = some u) (hs : blkStart u t op rd ra rb = .ok (y, false))
    (hl : blkLoop t op rd ra rb (blkFuel op ((getT y t).int rb)) y = .ok z) (hw : (getT z t).hostWait = none) :
    blkWhole s t op rd ra rb = .next (done s z t (blkWords op rd ra rb)) :=
  instrNext_done h (by simp only [hs, hl, bind, Except.bind, Bool.false_eq_true, if_false]) hw

theorem blkWords_length (op : BlkOp) (rd ra rb : RegNo) : (blkWords op rd ra rb).length = 1 := by
  cases op <;> rfl

/-- An element of an instruction that is fetched: complete before it, or as the element itself ends. -/
def elementBody (u : State) (t : Tid) (op : BlkOp) (rd ra rb : RegNo) : R (State × Blk) := do
  let (y, fin) ← blkStart u t op rd ra rb
  if fin then .ok (y, .done) else blkElem y t op rd ra rb

theorem elementBody_idle (hs : blkStart u t op rd ra rb = .ok (z, true)) : elementBody u t op rd ra rb = .ok (z, .done) := by
  simp only [elementBody, hs, bind, Except.bind, if_true]

theorem elementBody_elem (hs : blkStart u t op rd ra rb = .ok (y, false)) :
    elementBody u t op rd ra rb = blkElem y t op rd ra rb := by
  simp only [elementBody, hs, bind, Except.bind, Bool.false_eq_true, if_false]

/-- How the state ends an element: the last retires the instruction, any other keeps the PCC, and its boundary takes the root writes that
waited (R222). -/
def afterElement (s z : State) (t : Tid) (ws : List (BitVec 32)) : Blk → State
  | .done => done s z t ws
  | .more => takeRoots (updT (checkElement z t (getT s t).pc ws) t (fun x => { x with fetchAns := [], inFlight := false })) t
  | .wait => z

theorem blockElement_ends {e : Blk} (h : fetched s t (blkWords op rd ra rb) = some u)
    (hb : elementBody u t op rd ra rb = .ok (z, e)) :
    exec (.blockElement t op rd ra rb) s = .next (afterElement s z t (blkWords op rd ra rb) e) := by
  obtain ⟨hr, hdue, hinj, hfetch, hw⟩ := fetched_spec h
  have hone := blkWords_length op rd ra rb
  rw [hone] at hfetch
  rw [elementBody] at hb
  rw [exec_blockElement, execBlockElement, elementStep]
  simp only [hr, hdue, hinj, hfetch, hw, Option.isSome_none, Bool.not_true, Bool.false_eq_true, if_false, bind, Except.bind] at hb ⊢
  rw [hb]
  cases e with
  | done => simp only [afterElement, done, jumped, hone]
  | more => rfl
  | wait => rfl

end Block

/-- Settles O25: the five instructions are one operation in their function, whose start says whether there is work to do. -/
theorem blockInstructionCompletes : Obligations.BlockInstructionCompletes := by
  refine ⟨fun s u y z t rd ra rb fn c hc => ?_, fun s u y z t op rd ra rb h => ⟨fun hs => blockElement_ends h (elementBody_idle hs),
    fun hs => ⟨fun he => blockElement_ends h ((elementBody_elem hs).trans he),
      fun he => blockElement_ends h ((elementBody_elem hs).trans he)⟩⟩⟩
  have hform : exec c.1 s = blkInstr s t c.2.1 rd ra rb ∧ blkWords c.2.1 rd ra rb = [wREG c.2.2 rd ra rb fn] := by
    revert c
    simp only [List.forall_mem_cons]
    exact ⟨⟨rfl, rfl⟩, ⟨rfl, rfl⟩, ⟨rfl, rfl⟩, ⟨rfl, rfl⟩, ⟨rfl, rfl⟩, List.forall_mem_nil _⟩
  obtain ⟨hexec, hws⟩ := hform
  rw [hexec, ← hws]
  refine ⟨blkInstr_element, fun hroot h hw => ?_⟩
  rw [blkInstr_whole hroot]
  exact ⟨fun hs => blkWhole_idle h hs hw, fun hs hl => blkWhole_loop h hs hl hw⟩

end Sys2Proof.Machine

/-! PROOFS. Capabilities, gates and authority (chapter 5): no derivation widens (O5). -/

namespace Sys2Proof.Machine

/-! ### The fields of a packed capability (R128) -/

/-- The low part of a concatenation has its own digits. -/
theorem toNat_append_add {m k : Nat} (x : BitVec m) (y : BitVec k) : (x ++ y).toNat = x.toNat * 2 ^ k + y.toNat := by
  rw [BitVec.toNat_append, ← Nat.shiftLeft_add_eq_or_of_lt y.isLt, Nat.shiftLeft_eq]

section Fields
variable (p o e b n : Nat) (c : Word) (tag : Bool)

/-- The fields are digits of one number. -/
theorem toNat_capPack : (capPack p o e b n c).toNat =
    ((((p % 4096 * 4096 + o % 4096) * 64 + e % 64) * 131072 + b % 131072) * 131072 + n % 131072) * 18446744073709551616 +
      c.toNat := by
  simp only [capPack, toNat_append_add, BitVec.toNat_ofNat, Nat.reducePow]

theorem capPerms_capPack : capPerms ⟨capPack p o e b n c, tag⟩ = p % 4096 := by
  have hc := c.isLt
  rw [capPerms, BitVec.toNat_ushiftRight, Nat.shiftRight_eq_div_pow, toNat_capPack]
  omega

theorem capE_capPack : capE ⟨capPack p o e b n c, tag⟩ = e % 64 := by
  have hc := c.isLt
  rw [capE, BitVec.toNat_ushiftRight, Nat.shiftRight_eq_div_pow, toNat_capPack]
  omega

theorem capB_capPack : capB ⟨capPack p o e b n c, tag⟩ = b % 131072 := by
  have hc := c.isLt
  rw [capB, BitVec.toNat_ushiftRight, Nat.shiftRight_eq_div_pow, toNat_capPack]
  omega

theorem capT_capPack : capT ⟨capPack p o e b n c, tag⟩ = n % 131072 := by
  have hc := c.isLt
  rw [capT, BitVec.toNat_ushiftRight, Nat.shiftRight_eq_div_pow, toNat_capPack]
  omega

theorem int_capPack : GReg.int ⟨capPack p o e b n c, tag⟩ = c := by
  have hc := c.isLt
  apply BitVec.eq_of_toNat_eq
  rw [GReg.int, BitVec.toNat_setWidth, toNat_capPack]
  omega

end Fields

section Capability
variable {v g w : GReg} {p o n : Nat} {c : Word} {tw : Bool}

theorem capPerms_lt (v : GReg) : capPerms v < 4096 := Nat.mod_lt _ (by decide)
theorem capE_lt (v : GReg) : capE v < 64 := Nat.mod_lt _ (by decide)
theorem capB_lt (v : GReg) : capB v < 131072 := Nat.mod_lt _ (by decide)
theorem capT_lt (v : GReg) : capT v < 131072 := Nat.mod_lt _ (by decide)

/-! ### What determines bounds and well-formedness (R129, R130) -/

/-- Two values have the same E, B and T, from which a cursor gives the bounds. -/
def SameShape (v g : GReg) : Prop := capE g = capE v ∧ capB g = capB v ∧ capT g = capT v

theorem wholeSpace_congr (h : SameShape v g) : wholeSpace g = wholeSpace v := by
  obtain ⟨hE, hB, hT⟩ := h
  rw [wholeSpace, wholeSpace, hE, hB, hT]

/-- The base is decoded from the shape and the cursor (R129). -/
theorem capBase_congr (h : SameShape v g) (hi : g.int = v.int) : capBase g = capBase v := by
  obtain ⟨hE, hB, -⟩ := h
  rw [capBase, capBase, hE, hB, hi]

theorem capTop_congr (h : SameShape v g) (hbase : capBase g = capBase v) : capTop g = capTop v := by
  obtain ⟨hE, -, hT⟩ := h
  rw [capTop, capTop, hbase, hE, hT]

theorem capWf_congr (h : SameShape v g) (hbase : capBase g = capBase v) : capWf g = capWf v := by
  have hwhole := wholeSpace_congr h
  have htop := capTop_congr h hbase
  obtain ⟨hE, -, hT⟩ := h
  rw [capWf, capWf, hwhole, htop, hbase, hE, hT]

/-- The capability of the whole space has one base, wherever its cursor stands. -/
theorem capBase_of_wholeSpace (h : wholeSpace v = true) : capBase v = 0 := by
  simp only [wholeSpace, Bool.and_eq_true, beq_iff_eq] at h
  obtain ⟨⟨-, hE⟩, hB⟩ := h
  have hcursor : v.int.toNat / 2 ^ (47 + 17) = 0 := Nat.div_eq_of_lt v.int.isLt
  simp only [capBase, hE, hB, alignDown, hcursor, Nat.not_lt_zero, if_false, Nat.cast_zero, zero_mul, add_zero, sub_zero]

theorem capTop_le_of_capWf (h : capWf v = true) : capTop v ≤ 18446744073709551616 := by
  simp only [capWf, Bool.and_eq_true, decide_eq_true_eq] at h
  obtain ⟨⟨-, htop⟩, -⟩ := h
  exact htop

/-! ### Narrowing (R140) -/

/-- What the statement asks of a tagged result `g` of a derivation from `v`. -/
def Narrows (v g : GReg) : Prop :=
  capBase v ≤ capBase g ∧ capTop g ≤ capTop v ∧ capPerms g &&& capPerms v = capPerms g ∧ capWf g = true

/-- A result of the source's shape and base narrows the source if it gains no permission. -/
theorem narrows_of_sameShape (hv : capWf v = true) (h : SameShape v g) (hbase : capBase g = capBase v)
    (hperms : capPerms g &&& capPerms v = capPerms g) : Narrows v g :=
  ⟨hbase.ge, (capTop_congr h hbase).le, hperms, (capWf_congr h hbase).trans hv⟩

theorem Narrows.wellFormed (h : Narrows v g) : capWf g = true := by
  obtain ⟨-, -, -, hwf⟩ := h
  exact hwf

theorem Narrows.trans (h : Narrows v g) (k : Narrows g w) : Narrows v w := by
  obtain ⟨hbase, htop, hperms, -⟩ := h
  obtain ⟨kbase, ktop, kperms, kwf⟩ := k
  refine ⟨hbase.trans kbase, ktop.trans htop, ?_, kwf⟩
  rw [← kperms, Nat.and_assoc, hperms]

/-! ### Permissions and otypes (R139, R140) -/

theorem sameShape_capPack (v : GReg) (p o : Nat) (c : Word) (tag : Bool) :
    SameShape v ⟨capPack p o (capE v) (capB v) (capT v) c, tag⟩ :=
  ⟨(capE_capPack ..).trans (Nat.mod_eq_of_lt (capE_lt v)), (capB_capPack ..).trans (Nat.mod_eq_of_lt (capB_lt v)),
    (capT_capPack ..).trans (Nat.mod_eq_of_lt (capT_lt v))⟩

theorem narrows_setPerms (hv : capWf v = true) (p : Nat) : Narrows v (setPerms v (capPerms v &&& p)) := by
  have hshape := sameShape_capPack v (capPerms v &&& p) (capOtype v) v.int v.tag
  refine narrows_of_sameShape hv hshape (capBase_congr hshape (int_capPack ..)) ?_
  have hlt : capPerms v &&& p < 4096 := Nat.and_le_left.trans_lt (capPerms_lt v)
  rw [setPerms, capPerms_capPack, Nat.mod_eq_of_lt hlt, Nat.and_right_comm, Nat.and_self]

theorem narrows_setOtype (hv : capWf v = true) (o : Nat) : Narrows v (setOtype v o) := by
  have hshape := sameShape_capPack v (capPerms v) o v.int v.tag
  refine narrows_of_sameShape hv hshape (capBase_congr hshape (int_capPack ..)) ?_
  rw [setOtype, capPerms_capPack, Nat.mod_eq_of_lt (capPerms_lt v), Nat.and_self]

theorem sealOp_ok (h : sealOp tw v w = .ok g) : ∃ o, g = setOtype v o := by
  simp only [sealOp] at h
  split_ifs at h
  exact ⟨_, (Except.ok.inj h).symm⟩

theorem openOp_ok (h : openOp tw v w = .ok g) :
    g = setOtype v 0 ∨ g = setPerms (setOtype v 0) (capPerms (setOtype v 0) &&& 0x7FF) := by
  simp only [openOp] at h
  split_ifs at h
  · exact .inl (Except.ok.inj h).symm
  · exact .inr (Except.ok.inj h).symm

/-! ### A moved cursor (R131) -/

/-- A moved cursor leaves the bits above it. -/
theorem setCursor_high (v : GReg) (c : Word) : (v.setCursor c).data >>> 64 = v.data >>> 64 := by
  have hmask : (0xFFFFFFFFFFFFFFFF : Quad) = (BitVec.allOnes 64).setWidth 128 := by decide
  apply BitVec.eq_of_getLsbD_eq
  intro i hi
  have hge : ¬ 64 + i < 64 := by omega
  rw [GReg.setCursor, hmask]
  simp only [BitVec.getLsbD_ushiftRight, BitVec.getLsbD_or, BitVec.getLsbD_and, BitVec.getLsbD_not, BitVec.getLsbD_setWidth,
    BitVec.getLsbD_allOnes, BitVec.getLsbD_of_ge c (64 + i) (by omega), hge, decide_false, Bool.and_false, Bool.not_false,
    Bool.or_false, Bool.and_true, Bool.and_eq_left_iff_imp]
  exact fun h => decide_eq_true (BitVec.lt_of_getLsbD h)

theorem capPerms_setCursor (v : GReg) (c : Word) : capPerms (v.setCursor c) = capPerms v := by
  rw [capPerms, capPerms, BitVec.shiftRight_add _ 64 52, setCursor_high, ← BitVec.shiftRight_add]

theorem sameShape_setCursor (v : GReg) (c : Word) : SameShape v (v.setCursor c) := by
  have h := setCursor_high v c
  refine ⟨?_, ?_, ?_⟩
  · rw [capE, capE, BitVec.shiftRight_add _ 64 34, h, ← BitVec.shiftRight_add]
  · rw [capB, capB, BitVec.shiftRight_add _ 64 17, h, ← BitVec.shiftRight_add]
  · rw [capT, capT, h]

/-- Where the result keeps its tag, the new cursor is representable: the source's base is decoded from it. -/
theorem capBase_setCursor_of_tag (h : (moveCursor v c).tag = true) : capBase (v.setCursor c) = capBase v := by
  simp only [moveCursor, Bool.and_eq_true, Bool.or_eq_true, beq_iff_eq] at h
  obtain ⟨-, hwhole | ⟨hbase, -⟩⟩ := h
  · rw [capBase_of_wholeSpace hwhole, capBase_of_wholeSpace ((wholeSpace_congr (sameShape_setCursor v c)).trans hwhole)]
  · exact hbase

theorem narrows_moveCursor (hv : capWf v = true) (h : (moveCursor v c).tag = true) : Narrows v (moveCursor v c) := by
  refine narrows_of_sameShape hv (sameShape_setCursor v c) (capBase_setCursor_of_tag h) ?_
  have hperms : capPerms (moveCursor v c) = capPerms v := capPerms_setCursor v c
  rw [hperms, Nat.and_self]

theorem moveOp_ok (h : moveOp tw v c = .ok g) : g = moveCursor v c := by
  simp only [moveOp] at h
  split at h
  · cases h
  · exact (Except.ok.inj h).symm

theorem moveCursor_tag_of_untagged (h : v.tag = false) : (moveCursor v c).tag = false := by
  simp only [moveCursor, h, Bool.false_and]

/-! ### Bounds set at the cursor (R132) -/

/-- The loop ends at an exponent whose rounded range it answers, and before the last one only where the range fits. -/
theorem fitLoop_spec (rb rt k e : Nat) (hk : e + k = 47) :
    ∃ f ≤ 47, fitLoop rb rt k e = (f, roundBounds rb rt f) ∧
      (f = 47 ∨ ((roundBounds rb rt f).2 - (roundBounds rb rt f).1) / 2 ^ f ≤ 0x1FFFF) := by
  induction k generalizing e with
  | zero => exact ⟨e, by omega, rfl, .inl hk⟩
  | succ k ih =>
    by_cases hfit : ((roundBounds rb rt e).2 - (roundBounds rb rt e).1) / 2 ^ e ≤ 0x1FFFF
    · exact ⟨e, by omega, if_pos hfit, .inr hfit⟩
    · obtain ⟨f, hf, hloop, hlast⟩ := ih (e + 1) (by omega)
      exact ⟨f, hf, (if_neg hfit).trans hloop, hlast⟩

/-- The bounds that a length takes at a cursor: whole granules from the one that holds the cursor on, at most 2^17 − 1 of them below the
last exponent. -/
theorem fitBounds_spec (c n : Nat) : ∃ e ≤ 47, ∃ u, c / 2 ^ e < u ∧ fitBounds c n = (e, c / 2 ^ e * 2 ^ e, u * 2 ^ e) ∧
    (e = 47 ∨ u - c / 2 ^ e ≤ 0x1FFFF) := by
  obtain ⟨e, he, hfit, hlast⟩ := fitLoop_spec c (if n = 0 then c + 1 else c + n) 47 0 rfl
  have hpos : 0 < 2 ^ e := Nat.two_pow_pos e
  refine ⟨e, he, _, ?_, hfit, ?_⟩
  · calc c / 2 ^ e < c / 2 ^ e + 1 := Nat.lt_succ_self _
      _ = (c + 2 ^ e) / 2 ^ e := (Nat.add_div_right c hpos).symm
      _ ≤ _ := Nat.div_le_div_right (by split <;> omega)
  · simpa only [roundBounds, alignUp, alignDown, ← Nat.sub_mul, Nat.mul_div_cancel _ hpos] using hlast

/-- A base field taken from the cursor itself decodes to the cursor's granule (R129). -/
theorem capBase_capPack_cursor {e : Nat} (he : e < 64) (p o n : Nat) (c : Word) (tag : Bool) :
    capBase ⟨capPack p o e (c.toNat / 2 ^ e) n c, tag⟩ = (c.toNat / 2 ^ e * 2 ^ e : Nat) := by
  have hwin : c.toNat / 2 ^ (e + 17) = c.toNat / 2 ^ e / 131072 := by rw [pow_add, ← Nat.div_div_eq_div_mul]; rfl
  simp only [capBase, capE_capPack, capB_capPack, int_capPack, Nat.mod_eq_of_lt he, alignDown, hwin, lt_irrefl, if_false]
  rw [pow_add]
  have hdigits := Nat.div_add_mod (c.toNat / 2 ^ e) 131072
  generalize c.toNat / 2 ^ e = q at hdigits ⊢
  push_cast
  zify at hdigits
  linear_combination (2 : Int) ^ e * hdigits

theorem capTop_capPack_cursor {e u : Nat} (he : e < 64) (p o : Nat) (c : Word) (tag : Bool) (hlt : c.toNat / 2 ^ e < u)
    (hle : u - c.toNat / 2 ^ e ≤ 131072) :
    capTop ⟨capPack p o e (c.toNat / 2 ^ e) (u - c.toNat / 2 ^ e - 1) c, tag⟩ = (u * 2 ^ e : Nat) := by
  rw [capTop, capBase_capPack_cursor he, capE_capPack, capT_capPack, Nat.mod_eq_of_lt he, Nat.mod_eq_of_lt (by omega)]
  obtain ⟨k, rfl⟩ := Nat.exists_eq_add_of_lt hlt
  rw [show c.toNat / 2 ^ e + k + 1 - c.toNat / 2 ^ e - 1 = k by omega]
  push_cast
  ring

theorem tagIf_of_tag {d : Quad} {b : Bool} (h : (tagIf d b).tag = true) : tagIf d b = ⟨d, true⟩ ∧ capWf ⟨d, true⟩ = true := by
  have hwf := h
  simp only [tagIf, Bool.and_eq_true] at hwf
  exact ⟨congrArg (GReg.mk d) h, hwf.2⟩

/-- The rounded bounds are those that the fields decode to: the count of granules fits its field, since the top fits 2^64. -/
theorem narrows_setBounds (hv : capWf v = true) (h : setBounds v n = some g) (htag : g.tag = true) : Narrows v g := by
  obtain ⟨e, he, u, hlt, hfit, hcount⟩ := fitBounds_spec v.int.toNat n
  simp only [setBounds, hfit] at h
  split_ifs at h with hwide
  obtain ⟨hbase, htop⟩ := not_or.mp hwide
  have hle : u - v.int.toNat / 2 ^ e ≤ 131072 := by
    obtain rfl | hcount := hcount
    · have := capTop_le_of_capWf hv
      omega
    · exact hcount.trans (by decide)
  rw [← Nat.sub_mul, Nat.mul_div_cancel _ (Nat.two_pow_pos e), Nat.mul_div_cancel _ (Nat.two_pow_pos e)] at h
  obtain rfl := Option.some.inj h
  obtain ⟨hg, hwf⟩ := tagIf_of_tag htag
  rw [hg]
  refine ⟨?_, ?_, ?_, hwf⟩
  · rw [capBase_capPack_cursor (by omega)]
    exact not_lt.mp hbase
  · rw [capTop_capPack_cursor (by omega) _ _ _ _ hlt hle]
    exact not_lt.mp htop
  · rw [capPerms_capPack, Nat.mod_eq_of_lt (capPerms_lt v), Nat.and_self]

theorem boundOp_ok {exact neg : Bool} (h : boundOp tw v n exact neg = .ok g) : setBounds v n = some g := by
  simp only [boundOp] at h
  split at h
  · cases h
  · split_ifs at h
    split at h
    · cases h
    · next hset => exact hset.trans (congrArg some (Except.ok.inj h))

end Capability

/-- Settles O5: a derivation keeps the source's shape and base, or sets bounds that it compares with the source's. -/
theorem noDerivationWidens : Obligations.NoDerivationWidens := by
  refine ⟨fun tw v g w c n p exact neg _ hv h htag => ?_, fun tw v g c hv h => ?_⟩
  · change Narrows v g
    obtain h | h | rfl | h | h := h
    · obtain rfl := moveOp_ok h
      exact narrows_moveCursor hv htag
    · exact narrows_setBounds hv (boundOp_ok h) htag
    · exact narrows_setPerms hv p
    · obtain ⟨o, rfl⟩ := sealOp_ok h
      exact narrows_setOtype hv o
    · have hopen := narrows_setOtype hv 0
      obtain rfl | rfl := openOp_ok h
      · exact hopen
      · exact hopen.trans (narrows_setPerms hopen.wellFormed 0x7FF)
  · obtain rfl := moveOp_ok h
    exact moveCursor_tag_of_untagged hv

end Sys2Proof.Machine

/-! PROOFS. Roped and solo execution (chapter 8): what mismatches, injection and the steps of a sparing sequence lead to (O30), and that the
append of a withdrawal entry to a full store keeps what the entries of other units answer, which O58 denies. -/

namespace Sys2Proof.Machine

/-! ### Slips, falls and solo errors (R204 to R208, R217, R218) -/

section Mismatches
variable {s : State} {t : Tid} {k : Fin 192}

theorem mismatch_first (h : replayed s t = false) (c : SlipClass) (inj : Bool) : mismatch s t c inj = slip s t c inj :=
  if_neg (by simp [h])

theorem mismatch_replayed (h : replayed s t = true) (c : SlipClass) : mismatch s t c false =
    failCore (updC s (coreOf s t) (fun x => { x with mism := [] })) (coreOf s t) 0x04 false :=
  if_pos h

theorem exec_slip_roped (hat : atBoundary s t = true) (hr : soloThread s t = false) (c : SlipClass) :
    exec (.slip t c) s = .next (mismatch s t c false) :=
  congrArg Host.Outcome.next (if_neg (by simp [hat, hr]))

theorem exec_fall_replayed (hat : atBoundary s t = true) (hr : soloThread s t = false) (h : replayed s t = true) (c : SlipClass) :
    exec (.fall t c) s = .next (mismatch s t c false) :=
  congrArg Host.Outcome.next (if_neg (by simp [hat, hr, h]))

/-- A core whose slips within the window meet a limit that is not 0 fails by error threshold (R207). -/
theorem exec_slipLimitReached_met (hpos : 0 < s.getF rBcSlipLimit BcSlipLimit.limit)
    (hmet : s.getF rBcSlipLimit BcSlipLimit.limit ≤ slipsIn s k) (hb : bcUp s = true) :
    exec (.slipLimitReached k) s =
      .next (failCore (logRecord s 0x13 (coreUid k) 0x05 (slipsIn s k) (slipWindowNs s / 1000000) 0 0) k 0x05) :=
  congrArg Host.Outcome.next (if_neg (by simp [hpos.ne', Nat.not_lt.2 hmet, hb]))

/-- Of the values of the field, 1 and 2 arm as many mismatches (R208). -/
theorem writeCheckInject_arms {k n : Nat} {v : Word} (hs : serving s (coreUid k) = true)
    (hd : s.getB rVltDbgEn VltDbgEn.norm_inv = true) (hv : fld v CoreCheckInject.inject = n) (hn : n = 1 ∨ n = 2) :
    writeCheckInject s k v = updC s k (fun x => { x with inject := n }) := by
  rw [writeCheckInject, if_neg (by simp [hs, hd]), hv]
  obtain rfl | rfl := hn
  · rfl
  · rfl

/-- The record of a solo core's array error is a slip's, after log entry 59. -/
theorem exec_soloArrayError_solo (hat : atBoundary s t = true) (hs : soloThread s t = true) :
    exec (.soloArrayError t) s = .next (logRecord (updC s (coreOf s t) (fun x => { x with slips := s.time :: x.slips }))
      0x10 (coreUid (coreOf s t)) 0 (getT s t).pc.toNat 0 0 0) :=
  congrArg Host.Outcome.next (if_neg (by simp [hat, hs]))

/-- A solo core that carries a virtual core stops its two threads and is not spared (R218). -/
theorem exec_soloUncorrectable_bound {v : Nat} (hs : serving s (coreUid k) = true)
    (hsolo : s.getB (rShfCheckMode (sheafUid (sheafOfCore k))) ShfCheckMode.solo = true)
    (hv : vcoreOfCore (setUnit s (coreUid k) usFailed 0x06) k = some v) :
    exec (.soloUncorrectable k) s = .next (
      let y := [2 * v, 2 * v + 1].foldl (fun s n => updT s (tidOf n) (fun x => { x with run := .halted, fault := none }))
        (setUnit s (coreUid k) usFailed 0x06)
      if bcUp y then leaveUnbound (y.putB (rBcVcoreMap v) BcVcoreMap.bound false) v k else y) := by
  rw [exec_soloUncorrectable, execSoloUncorrectable, if_neg (by simp [hs, hsolo])]
  simp only [hv]

end Mismatches

/-! ### The steps of a sparing sequence (R209 to R211) -/

section Sequence
variable {s : State} {k : Fin 192} {q : Sparing} {c : Nat}

/-- Step 2: the first of the order is reserved and starts, with its tile where that is in bivouac. -/
theorem exec_spareChoose_first {cs : List Nat} (hq : sparingOf s k = some q) (hn : q.spare = none) (hb : bcUp s = true)
    (ho : spareOrder s k = c :: cs) :
    exec (.spareChoose k) s = .next (
      let y := updSparing s k (fun q => { q with spare := some c })
      let y : State := { y with mgmt := { y.mgmt with reserved := y.mgmt.reserved ++ [c] } }
      setUnit (if stateOf s (tileUid (c / 2)) = usBivouac then setUnit y (tileUid (c / 2)) usStarting 0x01 else y)
        (coreUid c) usStarting 0x01) := by
  rw [exec_spareChoose, execSpareChoose, hq]
  simp only [hn, hb, ho]
  rfl

/-- Step 3. -/
theorem exec_spareRaiseDone_raised (hq : sparingOf s k = some q) (hc : q.spare = some c) (hn : q.raised = false)
    (hs : stateOf s (coreUid c) = usStarting) (hr : coreRaised s c = true) :
    exec (.spareRaiseDone k true) s = .next (updSparing s k (fun q => { q with raised := true })) := by
  simp [execSpareRaiseDone, hq, hc, hn, hs, hr]

/-- Step 4. -/
theorem exec_captureDone_first (hq : sparingOf s k = some q) (hn : q.captured = false) :
    exec (.captureDone k) s =
      .next (updSparing ((vthreads s q.vcore).foldl captureThread s) k (fun q => { q with captured := true })) := by
  simp [execCaptureDone, hq, hn]

/-- Step 5, which needs step 4. -/
theorem exec_flushDone_captured (hq : sparingOf s k = some q) (h4 : q.captured = true) (hn : q.flushed = false) :
    exec (.flushDone k) s = .next (updSparing (emptyCaches s k) k (fun q => { q with flushed := true })) := by
  simp [execFlushDone, hq, h4, hn]

/-- Step 6, which needs steps 3 and 4. -/
theorem exec_stateLoadDone_captured (hq : sparingOf s k = some q) (hc : q.spare = some c) (h3 : q.raised = true)
    (h4 : q.captured = true) (hn : q.loaded = false) :
    exec (.stateLoadDone k) s = .next (
      let y := copyBlock s (coreUid k + 1) (coreUid c + 1)
      let y := y.putR (rCorePaceReq (coreUid c)) (y.getR (rCorePaceReq (coreUid k)))
      let y := (vthreads y q.vcore).foldl (fun s t => updT s t (fun x => { x with pred := Pred.init })) y
      updSparing (putC y c (freshCore y c)) k (fun q => { q with loaded := true })) := by
  simp [execStateLoadDone, hq, hc, h3, h4, hn]

/-- Step 7, which needs steps 5 and 6. -/
theorem exec_rebindDone_loaded (hq : sparingOf s k = some q) (hc : q.spare = some c) (h5 : q.flushed = true)
    (h6 : q.loaded = true) (hn : q.rebound = false) :
    exec (.rebindDone k) s = .next (
      let y := copyBlock s (coreUid k + 1) (coreUid c + 1)
      updSparing (y.putR (rBcVcoreMap q.vcore) (setFld (setFld
        (wrapInc (y.getR (rBcVcoreMap q.vcore)) BcVcoreMap.gen) BcVcoreMap.phys_unit (coreUid c)) BcVcoreMap.bound 1)) k
        (fun q => { q with rebound := true })) := by
  simp [execRebindDone, hq, hc, h5, h6, hn]

/-- The spare's tile has entered service, where it was starting and the units it depends on serve. -/
def tileEnters (s : State) (c : Nat) : State :=
  if stateOf s (tileUid (c / 2)) = usStarting && holdersUp s (tileUid (c / 2)) then setUnit s (tileUid (c / 2)) usInService 0x02 else s

/-- Step 8, which needs step 7, a spare that may enter service and a sheaf that runs. -/
theorem exec_spareResume_rebound (hq : sparingOf s k = some q) (hc : q.spare = some c) (h7 : q.rebound = true)
    (hs : stateOf (tileEnters s c) (coreUid c) = usStarting) (hh : holdersUp (tileEnters s c) (coreUid c) = true)
    (hr : (getD (tileEnters s c) (sheafOfCore c)).stopped = false) :
    exec (.spareResume k) s = .next (
      let y := setUnit (coreStarts (tileEnters s c) c) (coreUid c) usInService 0x02
      let gen := y.getF (rBcVcoreMap q.vcore) BcVcoreMap.gen
      let y := y.putR rBcSpareStatus (satInc (y.getR rBcSpareStatus) BcSpareStatus.sparings 1)
      let y : State := { y with mgmt := { y.mgmt with reserved := y.mgmt.reserved.filter (· != c) } }
      let y := logRecord y 0x11 (coreUid k) q.cause (coreUid k + coreUid c * 2 ^ 16 + q.vcore * 2 ^ 32 + gen * 2 ^ 48) q.since
        ((y.time - q.since) % 2 ^ 32 + q.company * 2 ^ 32) (getT y (tidOf (2 * q.vcore))).pc.toNat q.inject
      endSparing (configEval (notify y rBcSpareNotify)) k) := by
  rw [exec_spareResume, execSpareResume, hq]
  simp only [hc]
  have hgo : (!q.rebound || stateOf (tileEnters s c) (coreUid c) != usStarting || !holdersUp (tileEnters s c) (coreUid c) ||
      (getD (tileEnters s c) (sheafOfCore c)).stopped) = false := by simp [h7, hs, hh, hr]
  exact congrArg Host.Outcome.next (if_neg (Bool.eq_false_iff.1 hgo))

end Sequence

/-- Settles O30, a clause for each mismatch, injection and step of a sequence. -/
theorem sparingCompletes : Obligations.SparingCompletes := by
  refine ⟨fun s t c hat hr => ⟨fun h => ?_, fun h => ?_⟩,
    fun s k hpos hmet hb => exec_slipLimitReached_met hpos hmet hb,
    fun s k v n hs hd hv hn => congrArg Host.Outcome.next (writeCheckInject_arms hs hd hv hn),
    fun s t hat hs => exec_soloArrayError_solo hat hs,
    fun s k v hs hsolo hv => exec_soloUncorrectable_bound hs hsolo hv,
    fun s k q hq => ⟨fun hn hb c cs ho => exec_spareChoose_first hq hn hb ho, exec_captureDone_first hq, exec_flushDone_captured hq,
      fun c hc => ⟨exec_spareRaiseDone_raised hq hc, exec_stateLoadDone_captured hq hc, exec_rebindDone_loaded hq hc,
        exec_spareResume_rebound hq hc⟩⟩⟩
  · rw [exec_slip_roped hat hr, mismatch_first h]
  · rw [exec_fall_replayed hat hr h, mismatch_replayed h]

/-! ### The withdrawal store (R474) -/

/-- What a full store that is rewritten holds of a unit on the list: the entry of flash A that withdrew it, as it stood. -/
def keptEntry (s : State) (rec0 v : Nat) : Nat × Bool × Nat × Nat :=
  (s.mgmt.flashA.store.find? (fun e => e.1 == v && e.2.1)).getD (v, true, entrySerial s v, rec0)

theorem updG_mgmt (s : State) (f : Mgmt → Mgmt) : (updG s f).mgmt = f s.mgmt := rfl

theorem flashA_setFlash_true (s : State) (f : Flash → Flash) : (setFlash s true f).mgmt.flashA = s.mgmt.flashA := rfl

theorem flashA_setFlash_false (s : State) (f : Flash → Flash) : (setFlash s false f).mgmt.flashA = f s.mgmt.flashA := rfl

theorem storeAppend_full {l : List (Nat × Bool × Nat × Nat)} (h : 2048 ≤ l.length) (e : Nat × Bool × Nat × Nat)
    (units : List (Nat × Bool × Nat × Nat)) : storeAppend l e units = e :: units :=
  if_pos h

theorem appendNext_full {s : State} {u rec0 : Nat} {w : Bool} {rest : List (Nat × Bool × Nat)}
    (ha : s.mgmt.appends = (u, w, rec0) :: rest) (hf : 2048 ≤ s.mgmt.flashA.store.length) :
    (appendNext s).mgmt.flashA.store =
      (u, w, entrySerial s u, rec0) :: (s.withdrawn.filter (· != u)).map (keptEntry s rec0) := by
  rw [appendNext, ha]
  exact storeAppend_full hf _ _

/-- A machine whose stores are full, with core 1 withdrawn under record 1, and core 0 to be withdrawn under record 2. -/
def fullStores : State :=
  { State.reset with
    withdrawn := [coreUid 1]
    mgmt := { Mgmt.init with
      bcA := .active, appends := [(coreUid 0, true, 2)]
      flashA := ⟨none, true, List.replicate 2048 (coreUid 1, true, 0, 1)⟩
      flashB := ⟨none, true, List.replicate 2048 (coreUid 1, true, 0, 1)⟩ } }

theorem fullStores_full : 2048 ≤ fullStores.mgmt.flashA.store.length := List.length_replicate.ge

/-- The withdrawal of core 1 keeps the record it answers. -/
theorem appendNext_fullStores :
    (appendNext fullStores).mgmt.flashA.store = [(coreUid 0, true, 0, 2), (coreUid 1, true, 0, 1)] := by
  rw [appendNext_full rfl fullStores_full]
  decide

/-- Refutes O58: the statement has a full store rewritten with entries that all answer the record of the new entry, and the entry of a
unit withdrawn before keeps its own (R474). -/
theorem not_unitRequestCompletes : ¬ Obligations.UnitRequestCompletes := by
  rintro ⟨-, -, -, -, happend, -, -⟩
  have h := happend fullStores (coreUid 0) 2 true [] rfl rfl
  rw [exec_withdrawalStoreAppend, execWithdrawalStoreAppend, if_pos (show bcUp fullStores = true from rfl)] at h
  have hstore := congrArg (·.mgmt.flashA.store) (Host.Outcome.next.inj h)
  simp only [appendNext_fullStores, logRecord_mgmt, updG_mgmt, flashA_setFlash_true, flashA_setFlash_false,
    storeAppend_full fullStores_full] at hstore
  exact absurd hstore (by decide)

end Sys2Proof.Machine

/-! PROOFS. Caches and scratch (chapter 10): where CMO leads (O24), what write-backs, notices and forwarded messages do at the caches
(O39), and what slices, arrays, ways and scratch come to (O41). -/

namespace Sys2Proof.Machine

/-! ### Cache maintenance (R230, R246, R247) -/

section Maintenance
variable {s u y p q z : State} {t : Tid} {ra : RegNo} {imm : BitVec 12} {kind : Nat} {fn : BitVec 5} {k : SqKind} {ps : List Nat}
  {xk : XKind} {v : GReg} {a : Word} {x x' : Xl}

/-- A CMO whose capability allows it and whose address translates, a ZERO's leaf dirty, acts where the address leads. -/
theorem cmo_done (hfn : BitVec.ofNat 5 kind = fn) (h : fetched s t [wMEM 0x4B fn ra 0 imm] = some u) (hy : useRegs u t [ra] = y)
    (hv : (getT y t).greg ra = v)
    (ha : (if k == .zero then (v.int + imm.signExtend 64) &&& 0xFFFFFFFFFFFFFFC0 else v.int + imm.signExtend 64) = a)
    (huse : useAt (trusted y t) v ps false (some a) (if k == .zero then 64 else 1) = none)
    (hx : translate y t xk a v = .ok (x, p))
    (hd : (if k == .zero then settleDirty (fun w => translate w t xk a v) t v a 4 p x else .ok (x, p)) = .ok (x', q))
    (hact : cmoAct q t k v a x' = .ok z) (hw : (getT z t).hostWait = none) :
    cmo s t kind k ps xk ra 0 imm = .next (done s z t [wMEM 0x4B fn ra 0 imm]) := by
  subst hfn
  refine instrNext_done h ?_ hw
  simp only [ne_eq, not_true, if_false, hy, hv, ha, huse, hx, hd, hact, guardCap, bind, Except.bind]

/-- Only a ZERO is a store, and marks the page dirty as one (R230, R247). -/
theorem zeroSettles_ok {d : R (Xl × State)} (hne : k ≠ .zero → x' = x ∧ q = p) (hz : k = .zero → d = .ok (x', q)) :
    (if k == .zero then d else .ok (x, p)) = .ok (x', q) := by
  by_cases hk : k = .zero
  · rw [if_pos (beq_iff_eq.2 hk), hz hk]
  · obtain ⟨rfl, rfl⟩ := hne hk
    exact if_neg (mt beq_iff_eq.1 hk)

end Maintenance

/-- Settles O24: the three instructions are one operation in their function, its permissions and the access it translates for. -/
theorem cacheMaintenanceCompletes : Obligations.CacheMaintenanceCompletes := by
  intro s u p q z t ra imm x x' c hc
  have hform : ∃ n, BitVec.ofNat 5 n = c.2.1 ∧ exec c.1 s = cmo s t n c.2.2.1 c.2.2.2.1 c.2.2.2.2 ra 0 imm := by
    revert c
    simp only [List.forall_mem_cons]
    exact ⟨⟨0, rfl, rfl⟩, ⟨1, rfl, rfl⟩, ⟨2, rfl, rfl⟩, List.forall_mem_nil _⟩
  obtain ⟨n, hn, hform⟩ := hform
  exact fun h huse hx hne hz hact hw => hform.trans (cmo_done hn h rfl rfl rfl huse hx (zeroSettles_ok hne hz) hact hw)

/-! ### Write-backs, notices and the messages of plane FWD (R241, R262 to R269) -/

/-- A home that takes the request admits it; a write-back and a notice need no leave (R18, R256, R264). -/
theorem toHome_admits {s : State} {q : HomeReq} {write : Bool}
    (hwrite : q.kind = .wb ∨ q.kind = .notice ∨ (q.kind.writes || q.kind == .rdO || q.kind == .upg) = write)
    (h : homeTakes s q write = true) : toHome s q = admitReq s q := by
  rw [homeTakes, Bool.and_eq_true, Bool.and_eq_true, Bool.and_eq_true] at h
  obtain ⟨⟨⟨hmem, hstop⟩, hopen⟩, hleave⟩ := h
  have hadmits : (q.kind != .wb && q.kind != .notice &&
      !admits s (partyClass s q.who) (q.kind.writes || q.kind == .rdO || q.kind == .upg) (q.line * 64)) = false := by
    obtain hk | hk | hk := hwrite
    · simp [hk]
    · simp [hk]
    · simp only [hk, bne, ← Bool.not_or, hleave, Bool.not_true]
  simp only [toHome, hmem, hstop, hopen, hadmits, Bool.not_true, Bool.false_and, Bool.false_eq_true, if_false]

section Leaving
variable {s : State} {k : Fin 192} {line : Nat} {c : CLine}

/-- A dirty line leaves through the eviction buffer, whose entry stands until the home answers (R243, R281). -/
theorem exec_wb_sends (hl : lineOf s k line = some c) (hd : c.dirty = true) (hp : c.place ≠ .sent)
    (hm : mfind (getC s k).misses line = none) (ht : coreTakes s k = true) (hu : homeUp s line = true)
    (hfree : c.place = .l2 → (evictions s k).length < 16) :
    exec (.wb k line) s = .next (toHome (buffer s k line { c with place := .sent }) ⟨.wb, .core k, line, []⟩) := by
  have hleaves : (!c.dirty || c.place == .sent || (mfind (getC s k).misses line).isSome || !coreTakes s k || !homeUp s line) = false := by
    simp [hd, hp, hm, ht, hu]
  have hroom : (c.place == .l2 && decide (16 ≤ (evictions s k).length)) = false := by
    simpa using hfree
  rw [exec_wb, execWb, hl]
  simp only [hleaves, hroom, Bool.false_eq_true, if_false]

/-- A clean exclusive line leaves with its notice (R243). -/
theorem exec_notice_sends (hl : lineOf s k line = some c) (he : c.st = .e) (hm : mfind (getC s k).misses line = none)
    (ht : coreTakes s k = true) (hu : homeUp s line = true) :
    exec (.notice k line) s = .next (toHome (dropLine s k line) ⟨.notice, .core k, line, []⟩) := by
  rw [exec_notice, execNotice, hl]
  exact congrArg Host.Outcome.next (if_neg (by simp [he, hm, ht, hu]))

end Leaving

section Messages
variable {s y : State} {m : Nat} {f : Fwd}

theorem exec_snpS_taken (h : takeFwd s m .snpS = some (f, y)) : exec (.snpS m) s = .next (snpS y f) := by
  rw [exec_snpS, execSnpS, h]

theorem exec_snpO_taken (h : takeFwd s m .snpO = some (f, y)) : exec (.snpO m) s = .next (snpO y f) := by
  rw [exec_snpO, execSnpO, h]

theorem exec_snpInv_taken (h : takeFwd s m .snpInv = some (f, y)) : exec (.snpInv m) s = .next (snpInv y f) := by
  rw [exec_snpInv, execSnpInv, h]

theorem exec_stash_taken {k : Fin 192} (h : takeFwd s m .stash = some (f, y)) (hk : f.target = k) :
    exec (.stash m k) s = .next (stash y f) := by
  rw [exec_stash, execStash, h]
  exact congrArg Host.Outcome.next (if_neg (by simp [hk]))

theorem exec_dupUpd_taken (h : takeFwd s m .dupUpd = some (f, y)) : exec (.dupUpd m) s = .next (dupUpd y f) := by
  rw [exec_dupUpd, execDupUpd, h]

/-- The copy that is on its way to its owner is downgraded there (R280). -/
theorem snpS_granted {g : Moesi} (h : grantTo y f.target f.line = some g) :
    snpS y f = ackFwd (regrant y f.target f.line (some (downgraded g))) f .data (g == .m || g == .o) := by
  simp only [snpS, h]

/-- The copy that stands in its owner's caches is downgraded there (R263). -/
theorem snpS_held {c : CLine} (hg : grantTo y f.target f.line = none) (hl : lineOf y f.target f.line = some c) :
    snpS y f = ackFwd (setLine y f.target f.line { c with st := downgraded c.st }) f .data c.dirty := by
  simp only [snpS, hg, hl]

theorem snpO_held (h : (copyOf y f.target f.line).isSome = true) : snpO y f = ackFwd y f .data := by
  rw [snpO, if_pos h]

/-- A core in service that finds a way for the line takes it in E (R268). -/
theorem stash_takes {z : State} (h : stateOf y (coreUid f.target) = usInService) (hz : enterL2 y f.target f.line .e = some z) :
    stash y f = ackOf z f .ack (.wrLine none) := by
  simp only [stash, h, hz, bne_self_eq_false, Bool.false_eq_true, if_false]

/-- One that finds none declines it (R242). -/
theorem stash_declines (h : stateOf y (coreUid f.target) = usInService) (hn : enterL2 y f.target f.line .e = none) :
    stash y f = ackOf y f .nack (.wrLine none) := by
  simp only [stash, h, hn, bne_self_eq_false, Bool.false_eq_true, if_false]

end Messages

/-- Settles O39, by what leaves a core and by the message that arrives. -/
theorem coherenceSnoopCompletes : Obligations.CoherenceSnoopCompletes := by
  refine ⟨fun s k line c hl hd hp hm ht hu hfree hh => ?_, fun s k line c hl he hm ht hu hh => ?_,
    fun s y m f => ⟨fun h => ⟨fun g hg => ?_, fun c hg hl => ?_⟩, fun h hc => ?_, fun h => exec_snpInv_taken h,
      fun h k hk hs => ⟨fun z hz => ?_, fun hn => ?_⟩, fun h => exec_dupUpd_taken h⟩⟩
  · rw [exec_wb_sends hl hd hp hm ht hu hfree, toHome_admits (.inl rfl) hh]
  · rw [exec_notice_sends hl he hm ht hu, toHome_admits (.inr (.inl rfl)) hh]
  · rw [exec_snpS_taken h, snpS_granted hg]
    rfl
  · rw [exec_snpS_taken h, snpS_held hg hl]
    rfl
  · rw [exec_snpO_taken h, snpO_held hc]
  · rw [exec_stash_taken h hk, stash_takes hs hz]
  · rw [exec_stash_taken h hk, stash_declines hs hn]

/-! ### What a controller's queue leaves alone (R314, R321)

A write that leaves the L3 moves through a controller's queue and is counted; its bytes stand in memory already, and the retirements under
way wait for no queue. -/

/-- Memory's bytes and the retirements under way. -/
def bytesAndRetires (s : State) : List Host.Cell × List Retire := (s.mem, s.retires)

theorem pmAdd_bytesAndRetires (s : State) (ctr win i n : Nat) : bytesAndRetires (pmAdd s ctr win i n) = bytesAndRetires s := by
  unfold pmAdd
  dsimp only
  split <;> rfl

theorem pmUncore_bytesAndRetires (s : State) (stop code : Nat) (w : Bool) (req : Option (Nat × Nat)) (n : Nat) :
    bytesAndRetires (pmUncore s stop code w req n) = bytesAndRetires s := by
  unfold pmUncore
  refine foldl_keeps_value bytesAndRetires (fun z i => ?_) _ s
  dsimp only
  rw [apply_ite bytesAndRetires, pmAdd_bytesAndRetires, ite_self]

theorem updM_bytesAndRetires (s : State) (c : Nat) (f : Mc → Mc) : bytesAndRetires (updM s c f) = bytesAndRetires s := rfl

theorem burst_bytesAndRetires (s : State) (c : Nat) (e : McReq) (write : Bool) :
    bytesAndRetires (burst s c e write) = bytesAndRetires s := by
  rw [burst, pmUncore_bytesAndRetires]
  rfl

theorem openRow_bytesAndRetires (s : State) (c : Nat) (b : Bool) (e : McReq) (draw : Nat) :
    bytesAndRetires (openRow s c b e draw) = bytesAndRetires s := by
  unfold openRow
  dsimp only
  split
  · rfl
  · exact pmUncore_bytesAndRetires ..

theorem issueWrite_bytesAndRetires (s : State) (c : Nat) (b : Bool) (i draw : Nat) :
    bytesAndRetires (issueWrite s c b i draw) = bytesAndRetires s := by
  unfold issueWrite
  split
  · rfl
  · rw [burst_bytesAndRetires, updM_bytesAndRetires, openRow_bytesAndRetires]

theorem acceptWrite_bytesAndRetires (s : State) (c : Nat) (b : Bool) (e : McReq) :
    bytesAndRetires (acceptWrite s c b e) = bytesAndRetires s := by
  unfold acceptWrite
  dsimp only
  split
  · exact issueWrite_bytesAndRetires s c b 0 _
  · rfl

theorem mcWrite_bytesAndRetires (s : State) (pa cls : Nat) : bytesAndRetires (mcWrite s pa cls) = bytesAndRetires s :=
  foldl_keeps_value bytesAndRetires (fun _ _ => acceptWrite_bytesAndRetires ..) _ s

theorem l3Out_bytesAndRetires (s : State) (cls line : Nat) : bytesAndRetires (l3Out s cls line) = bytesAndRetires s := by
  unfold l3Out
  split
  · rfl
  · dsimp only
    split
    · exact mcWrite_bytesAndRetires ..
    · rfl

/-! ### Slice retirement and buddy copies (R255 to R259, R266) -/

/-- What a draining slice has written back before its lines are dropped; a failed one writes nothing (R256). -/
def writtenOut (s : State) (i : Nat) (drain : Bool) : State :=
  if drain then ((s.l3.filter (fun e => homeSlice s (e.1 * 64) == i)).map (·.1)).foldl (fun s l => l3Out s 4 l) s else s

theorem writtenOut_bytesAndRetires (s : State) (i : Nat) (drain : Bool) :
    bytesAndRetires (writtenOut s i drain) = bytesAndRetires s := by
  unfold writtenOut
  split
  · exact foldl_keeps_value bytesAndRetires (fun _ _ => l3Out_bytesAndRetires ..) _ s
  · rfl

theorem configEval_subCopy (s : State) : (configEval s).subCopy = s.subCopy := by
  unfold configEval
  split
  · rfl
  · dsimp only
    split
    · rfl
    · rfl

section Retirement
variable {s : State} {i : Fin 96} {r : Retire}

/-- The directory moves once, and memory stays as it is (R256). -/
theorem exec_directoryTransferDone_moves (hr : retireOf s i = some r) (hm : r.moved = false) :
    ∃ z, exec (.directoryTransferDone i) s = .next z ∧ z.mem = s.mem ∧
      z.retires = (updRetire s i (fun r => { r with moved := true })).retires := by
  have hmem : (writtenOut s i r.drain).mem = s.mem := congrArg Prod.fst (writtenOut_bytesAndRetires ..)
  have hret : (writtenOut s i r.drain).retires = s.retires := congrArg Prod.snd (writtenOut_bytesAndRetires ..)
  rw [exec_directoryTransferDone, execDirectoryTransferDone, hr]
  exact ⟨_, congrArg Host.Outcome.next (if_neg (by simp [hm])), hmem, congrArg (List.map _) hret⟩

/-- A home that has copied its directory waits for no copy (R266). -/
theorem exec_substituteBuddyCopyDone_ends {h : Fin 96} (hc : s.subCopy.contains h.val = true) :
    ∃ z, exec (.substituteBuddyCopyDone h) s = .next z ∧ z.subCopy = s.subCopy.filter (· != h.val) :=
  ⟨_, congrArg Host.Outcome.next (if_neg (by simp only [hc]; decide)), configEval_subCopy _⟩

end Retirement

/-! ### Array errors and ways (R248, R249) -/

section Arrays
variable {s : State} {u : Uid} {k i set line : Nat} {lost : List Nat}

/-- Of a set of the L1I nothing is lost: its ways are invalidated, the lines stay in the L2 (R248). -/
theorem recoverCore_l1i (s : State) (k set : Nat) (lost : List Nat) :
    recoverCore s k 0 set lost = logRecord (updC s k (fun x => { x with
      lines := x.lines.map (fun e => if inArray 0 set e then (e.1, { e.2 with l1i := none }) else e) })) 0x28 (coreUid k) 0
      (0 + set % 4096 * 16) 0 0 0 := by
  have hgone : ((getC s k).lines.filter (inArray 0 set)).filter (fun e => decide (2 ≤ 0) && e.2.dirty && lost.contains e.1) = [] := by
    simp
  unfold recoverCore
  dsimp only
  rw [hgone]
  rfl

theorem exec_tagRecovery_core {a : Fin 5} (hs : serving s u.toNat = true) (hk : coreOfArray u.toNat = some k) (ha : a.val ≠ 3) :
    exec (.tagRecovery u a set (.tag lost)) s = .next (replayAccess (recoverCore s k a set lost) k) := by
  simp [execTagRecovery, hs, hk, ha]

theorem exec_tagRecovery_slice (hs : serving s u.toNat = true) (hk : coreOfArray u.toNat = none)
    (hi : sliceOfArray u.toNat = some i) : exec (.tagRecovery u 3 set (.tag lost)) s = .next (recoverSlice s i set lost) := by
  simp [execTagRecovery, hs, hk, hi]

/-- Data of a core's array that cannot be corrected poison the line (R248). -/
theorem exec_tagRecovery_data {a : Fin 5} (hs : serving s u.toNat = true) (hk : coreOfArray u.toNat = some k) (ha : a.val ≠ 3)
    (hl : (getC s k).lines.any (fun e => e.1 == line && inArray a set e) = true) :
    exec (.tagRecovery u a set (.data line)) s = .next (setPoison s line true) := by
  rw [exec_tagRecovery]
  unfold execTagRecovery
  simp only [hs, hk, Bool.not_true, Bool.false_eq_true, if_false]
  exact congrArg Host.Outcome.next (if_pos ⟨ha, hl⟩)

/-- A way of a core's array: management disables it; a correctable error is counted, and past the threshold disables it too, or at the
third of its cache fails the core. -/
theorem exec_wayDisable_core {a : Fin 4} {way : Fin 12} (m : Bool) (hb : bcUp s = true) (hs : serving s u.toNat = true)
    (hk : coreOfArray u.toNat = some k) (ha : a.val ≠ 3) (hw : way.val < (wayField a).2) :
    exec (.wayDisable u a way m) s = .next (
      let c := countWay s u.toNat a way
      if m then coreWayOff s k a way
      else if !c.2 then c.1
      else if wayThird c.1 u.toNat a then failCore c.1 k 0x05
      else coreWayOff c.1 k a way) := by
  simp [execWayDisable, hb, hs, hk, ha, Nat.not_le.2 hw]

/-- A way that is enabled, with more than two enabled, goes off once its lines have left. -/
theorem coreWayOff_enabled {a w : Nat} (hw : w < (wayField a).2)
    (hon : (s.getF (rCoreCacheWays (coreUid k)) (wayField a).1).testBit w = false)
    (htwo : 2 < (wayField a).2 - bitCount (s.getF (rCoreCacheWays (coreUid k)) (wayField a).1) (wayField a).2) :
    coreWayOff s k a w = wayRecord (emptyWays (s.putF (rCoreCacheWays (coreUid k)) (wayField a).1
      (s.getF (rCoreCacheWays (coreUid k)) (wayField a).1 + 2 ^ w)) k) (coreUid k) a w := by
  simp [coreWayOff, hon, Nat.not_le.2 hw, Nat.not_le.2 htwo]

end Arrays

/-! ### Scratch (R252, R253) -/

/-- Software's write of BC_SCRATCH_CFG, base camp's block answering; a host has no access. -/
theorem exec_scratchCfgWrite_software {s : State} {r : Requester} (v : Word) (hr : ∀ p i, r ≠ .host p i)
    (hu : blockUp s uidBaseCamp = true) : exec (.scratchCfgWrite r v) s = .next (writeScratchCfg s v) := by
  cases r with
  | host p i => exact absurd rfl (hr p i)
  | _ => exact (exec_scratchCfgWrite ..).trans (congrArg Host.Outcome.next (if_pos hu))

theorem exec_scratchChangeDone_pending {s : State} {n : Nat} (hn : s.scratchNew = some n) :
    exec .scratchChangeDone s = .next (
      let old := (allSlices.map (fun i => s.getF (rTileL3Ways (sliceUid i)) TileL3Ways.scratch_ways)).foldl max 0
      (applyScratch { (if old < n then clearScratch s old else s) with scratchNew := none } n).putF rBcScratchCfg BcScratchCfg.busy 0) := by
  rw [exec_scratchChangeDone, execScratchChangeDone, hn]

/-- Settles O41, a clause for each step of a retirement, each array error, way and change of scratch. -/
theorem sliceAndCacheCompletes : Obligations.SliceAndCacheCompletes := by
  refine ⟨fun s i => ⟨rfl, rfl⟩,
    fun s i r hr => ⟨fun hm => exec_directoryTransferDone_moves hr hm, fun hm hn hc => ?_, fun hm => ?_⟩,
    fun s h hc => exec_substituteBuddyCopyDone_ends hc,
    fun s u k set lost hs hk => ⟨?_, ?_, fun a line ha hl => exec_tagRecovery_data hs hk ha hl⟩,
    fun s u i set lost hs hk hi => exec_tagRecovery_slice hs hk hi,
    fun s u k way hb hs hk => ⟨fun a ha hw => ⟨exec_wayDisable_core true hb hs hk ha hw, fun y hy => ?_, fun y hy => ?_⟩,
      fun hw hon htwo => ?_⟩,
    fun s r v hr hu => exec_scratchCfgWrite_software v hr hu,
    fun s n hn => exec_scratchChangeDone_pending hn⟩
  · rw [exec_sliceMapCommit, execSliceMapCommit, hr]
    exact congrArg Host.Outcome.next (if_neg (by simp [hm, hn, hc]))
  · rw [exec_sliceRelease, execSliceRelease, hr]
    exact congrArg Host.Outcome.next (if_neg (by simp [hm]))
  · exact (exec_tagRecovery_core hs hk (by decide)).trans (by rw [← recoverCore_l1i]; rfl)
  · exact exec_tagRecovery_core hs hk (by decide)
  · rw [exec_wayDisable_core false hb hs hk ha hw, hy]
    rfl
  · rw [exec_wayDisable_core false hb hs hk ha hw, hy]
    rfl
  · rw [exec_wayDisable_core true hb hs hk (by decide) hw]
    exact congrArg Host.Outcome.next (coreWayOff_enabled hw hon htwo)

end Sys2Proof.Machine

/-! PROOFS. Coherence (chapter 11): the requests that come to a line's home (O38). -/

namespace Sys2Proof.Machine

/-! ### Requests of the home protocol (R261 to R265, R268, R271, R280) -/

section Cores
variable {s : State} {k : Fin 192} {line : Nat} {m : Miss} {kind : ReqKind} {write : Bool}

/-- A core that may ask comes to a home that takes its request (R280). -/
theorem coreAsks_admits (hserves : serving s (coreUid k) = true) (hd : domUp s (sheafOfCore k) = true) (hup : homeUp s line = true)
    (hm : mfind (getC s k).misses line = none) (hwrite : (kind.writes || kind == .rdO || kind == .upg) = write)
    (hh : homeTakes (updC s k (fun c => { c with misses := mins c.misses line m })) ⟨kind, .core k, line, []⟩ write = true) :
    coreAsks s k line m kind =
      admitReq (updC s k (fun c => { c with misses := mins c.misses line m })) ⟨kind, .core k, line, []⟩ := by
  obtain ⟨hp, hs⟩ : (getD s (sheafOfCore k)).paused = false ∧ (getD s (sheafOfCore k)).stopped = false := by
    simpa [domUp] using hd
  rw [coreAsks_sends m kind hserves hp hs hm hup, toHome_admits (.inr (.inr hwrite)) hh]

/-- A core without the line asks to read what it may touch (R192, R261). -/
theorem exec_rdS_asks (p f e : Bool) (hl : lineOf s k line = none) (hmem : (physClass s (line * 64)).isMem = true)
    (ht : mayTouch s k line = true) :
    exec (.rdS k line p ⟨f, e⟩) s = .next (coreAsks (if e then cxlPoison s line else s) k line
      (if f then .fetch else if p then .prefetch else .read) .rdS) :=
  (exec_rdS ..).trans (congrArg Host.Outcome.next (if_neg (by simp [hl, hmem, ht])))

/-- A core without the line asks to own it for a store that waits (R191). -/
theorem exec_rdO_asks (hl : lineOf s k line = none) (hw : storeWaits s k line = true) :
    exec (.rdO k line) s = .next (coreAsks s k line .own .rdO) :=
  (exec_rdO ..).trans (congrArg Host.Outcome.next (if_neg (by simp [hl, hw])))

/-- A core with a shared copy asks to upgrade it for a store that waits (R191). -/
theorem exec_upg_asks {c : CLine} (hl : lineOf s k line = some c) (hc : c.st = .s ∨ c.st = .o) (hw : storeWaits s k line = true) :
    exec (.upg k line) s = .next (coreAsks s k line .upgrade .upg) := by
  rw [exec_upg, execUpg, hl]
  exact congrArg Host.Outcome.next (if_pos ⟨hc, hw⟩)

end Cores

/-- The readers that may read a line once, each as its own party; the trace collector needs norm_noninv (R530). -/
theorem exec_rdOnce_reads {s : State} {line : Nat} {c : Fin 16} (hup : homeUp s line = true) :
    ∀ e ∈ ([(.rdOnce .baseCamp line, .baseCamp), (.rdOnce (.migration c) line, .migration c),
        (.rdOnce (.gleaner c) line, .gleaner c), (.rdOnce .trace line, .trace)] : List (Instr × Party)),
      (e.2 = .trace → s.getB rVltDbgEn VltDbgEn.norm_noninv = true) → exec e.1 s = .next (toHome s ⟨.rdOnce, e.2, line, []⟩) := by
  simp only [List.forall_mem_cons, List.not_mem_nil, false_imp_iff, implies_true, and_true, exec_rdOnce, execRdOnce, hup,
    Bool.not_true, Bool.false_eq_true, if_false]
  exact ⟨trivial, trivial, trivial, fun hdbg => congrArg Host.Outcome.next (if_pos (hdbg trivial))⟩

section Writes
variable {s : State} {w : Writer}

theorem exec_wrLine_sends {line : Nat} (bs : Vector (BitVec 8) 64) (h : HintArg) (hup : homeUp s line = true) :
    exec (.wrLine w line bs h) s = .next (toHome s ⟨.wrLine (hintOf h), writerParty w, line, bs.toList⟩) :=
  (exec_wrLine ..).trans (congrArg Host.Outcome.next (if_pos hup))

/-- Some bytes, none of them beyond their line. -/
theorem exec_wrPart_sends {pa : Nat} {bs : List (BitVec 8)} (hne : bs ≠ []) (hin : pa % 64 + bs.length ≤ 64)
    (hup : homeUp s (pa / 64) = true) :
    exec (.wrPart w pa bs) s = .next (toHome s ⟨.wrPart (pa % 64), writerParty w, pa / 64, bs⟩) :=
  (exec_wrPart ..).trans (congrArg Host.Outcome.next (if_neg (by simp [hne, hup]; omega)))

/-! The device range begins and ends at a line, so that a home takes no request for a byte of it (R16). -/

theorem physClass_device_bounds {pa off : Nat} (h : physClass s pa = .device off) : 0x200000000000 ≤ pa ∧ pa < 0x300000000000 := by
  unfold physClass at h
  dsimp only at h
  repeat' split at h
  all_goals simp only [PClass.device.injEq, reduceCtorEq] at h
  omega

theorem physClass_in_device_range {pa : Nat} (hlo : 0x200000000000 ≤ pa) (hhi : pa < 0x300000000000) :
    physClass s pa = .device (pa - 0x200000000000) := by
  unfold physClass
  rw [if_neg (by omega), if_neg (by omega), if_neg (by omega), if_pos hhi]

theorem physClass_ne_device_of_isMem_line {pa : Nat} (h : (physClass s (pa / 64 * 64)).isMem = true) (off : Nat) :
    physClass s pa ≠ .device off := by
  intro hdev
  obtain ⟨hlo, hhi⟩ := physClass_device_bounds hdev
  rw [physClass_in_device_range (by omega) (by omega)] at h
  cases h

/-- An aligned atomic that does not lead to the device range goes to the line's home (R271). -/
theorem exec_atom_sends {pa : Nat} (op : HomeAtomic) (wide : Bool) (v : BitVec 128) (ha : pa % (if wide then 16 else 8) = 0)
    (hup : homeUp s (pa / 64) = true) (hdev : ∀ off, physClass s pa ≠ .device off) :
    exec (.atom w pa op wide v) s = .next (toHome s
      ⟨.atom op (pa % 64) (if wide then 16 else 8), writerParty w, pa / 64, toBytes (if wide then 16 else 8) v.toNat⟩) := by
  rw [exec_atom]
  unfold execAtom
  refine congrArg Host.Outcome.next ((if_neg (by simp [ha, hup])).trans ?_)
  cases hc : physClass s pa with
  | device off => exact absurd hc (hdev off)
  | _ => rfl

/-- An engine's atomic on the device range ends its descriptor (R271). -/
theorem exec_atom_device {u : Uid} {pa off : Nat} (op : HomeAtomic) (wide : Bool) (v : BitVec 128)
    (ha : pa % (if wide then 16 else 8) = 0) (hup : homeUp s (pa / 64) = true) (hdev : physClass s pa = .device off) :
    exec (.atom (.engine u) pa op wide v) s = .next (endUnit s u.toNat 0x0204) := by
  rw [exec_atom]
  unfold execAtom
  rw [hdev]
  exact congrArg Host.Outcome.next (if_neg (by simp [ha, hup]))

end Writes

theorem homeTakes_isMem {s : State} {kind : ReqKind} {who : Party} {line : Nat} {bs : List Byte} {write : Bool}
    (h : homeTakes s ⟨kind, who, line, bs⟩ write = true) : (physClass s (line * 64)).isMem = true := by
  simp only [homeTakes, Bool.and_eq_true] at h
  obtain ⟨⟨⟨hmem, -⟩, -⟩, -⟩ := h
  exact hmem

/-- Settles O38: each request comes to its line's home, and a home that takes it admits it. -/
theorem coherenceRequestCompletes : Obligations.CoherenceRequestCompletes := by
  refine ⟨fun s k line p f e hl hmem ht hserves hd hup hm hh => ?_,
    fun s k line hserves hd hup hm => ⟨fun hl hw hh => ?_, fun c hl hc hw hh => ?_⟩,
    fun s line c hup e he hdbg hh => ?_, fun s w line bs h hup hh => ?_, fun s w pa bs hne hin hup hh => ?_,
    fun s w pa op wide v ha hup => ⟨fun u off hw hdev => ?_, fun hh => ?_⟩⟩
  · rw [exec_rdS_asks p f e hl hmem ht, coreAsks_admits hserves hd hup hm rfl hh]
  · rw [exec_rdO_asks hl hw, coreAsks_admits hserves hd hup hm rfl hh]
  · rw [exec_upg_asks hl hc hw, coreAsks_admits hserves hd hup hm rfl hh]
  · rw [exec_rdOnce_reads hup e he hdbg, toHome_admits (.inr (.inr rfl)) hh]
  · rw [exec_wrLine_sends bs h hup, toHome_admits (.inr (.inr rfl)) hh]
  · rw [exec_wrPart_sends hne hin hup, toHome_admits (.inr (.inr rfl)) hh]
  · rw [hw, exec_atom_device op wide v ha hup hdev]
  · have hmem : (physClass s (pa / 64 * 64)).isMem = true := homeTakes_isMem hh
    rw [exec_atom_sends op wide v ha hup (physClass_ne_device_of_isMem_line hmem), toHome_admits (.inr (.inr rfl)) hh]

end Sys2Proof.Machine

/-! PROOFS. The fabric (chapter 12): packets from stop to stop, requests sent again, and completers' records (O43). -/

namespace Sys2Proof.Machine

/-! ### Counting changes nothing of the fabric (R511) -/

@[simp] theorem pmAdd_fabric (s : State) (ctr win i n : Nat) : (pmAdd s ctr win i n).fabric = s.fabric := by
  unfold pmAdd
  dsimp only
  split <;> simp only [State.putR_fabric]

@[simp] theorem pmUncore_fabric (s : State) (stop code : Nat) (w : Bool) (req : Option (Nat × Nat)) (n : Nat) :
    (pmUncore s stop code w req n).fabric = s.fabric := by
  unfold pmUncore
  refine foldl_keeps_value State.fabric (fun z i => ?_) _ s
  dsimp only
  rw [apply_ite State.fabric, pmAdd_fabric, ite_self]

/-! ### Injection (R257, R284, R296, R297) -/

section Injection
variable {s : State} {i : Inject}

theorem exec_packetHop_injects (k : Nat) (hf : fieldHeld s (fieldOfStop i.stop) = false) :
    exec (.packetHop k (some i)) s = .next (injectNew s i) :=
  (exec_packetHop ..).trans (congrArg Host.Outcome.next (if_neg (by simp [hf])))

variable (hu : stopUp s i.stop = true) (hq : stopQuiet s i.stop = false)
include hu hq

theorem injectNew_fwd (hp : msgPlane i.msg = .fwd) :
    injectNew s i = inject s i.stop i.msg i.dest.toNat i.src.toNat i.tag.toNat 0 i.payload
      (i.orig.map (fun o => (o.1.toNat, o.2.toNat))) := by
  simp [injectNew, hu, hq, hp]

/-- A response enters its completer's record (R297). -/
theorem injectNew_rsp (hp : msgPlane i.msg = .rsp) :
    injectNew s i = inject (recordResp s i.stop i.dest.toNat i.tag.toNat i.msg i.payload) i.stop i.msg i.dest.toNat i.src.toNat
      i.tag.toNat 0 i.payload none := by
  simp [injectNew, hu, hq, hp]

/-- A request whose tag is free is kept until its response, or held at its source (R257, R296). -/
theorem injectNew_req (hp : msgPlane i.msg = .req)
    (hfree : s.fabric.reqs.any (fun e => e.src == i.src.toNat && e.tag == i.tag.toNat) = false) :
    injectNew s i =
      let orig := i.orig.map (fun o => (o.1.toNat, o.2.toNat))
      let line := memLine s i.dest.toNat i.addr
      let e : EReq := ⟨i.src.toNat, i.tag.toNat, i.dest.toNat, i.addr, 0, s.time, i.msg, i.payload, orig, line⟩
      if heldAtSource s line then updFab s (fun f => { f with held := f.held ++ [e] })
      else inject (updFab s (fun f => { f with reqs := f.reqs ++ [e] })) i.stop i.msg i.dest.toNat i.src.toNat i.tag.toNat 0
        i.payload orig := by
  simp [injectNew, hu, hq, hp, hfree]

end Injection

/-! ### A packet's next step (R283 to R289, R294) -/

section Hop
variable {s : State} {k : Nat} {p : Packet}

/-- A packet whose route has ended is delivered at a stop that is not quiet (R292). -/
theorem takeOut_delivers (hq : stopQuiet s p.stop = false) :
    takeOut s k p = deliver (updFab s (fun f => { f with packets := f.packets.eraseIdx k })) p :=
  if_neg (by simp [hq])

/-- A packet sent stands in its link's replay buffer until the receiver has it (R294). -/
theorem sendHop_packets (s : State) (k : Nat) (p : Packet) :
    (sendHop s k p).fabric.packets = s.fabric.packets.eraseIdx k ++ [{ p with flying := true }] := by
  simp only [sendHop, pmUncore_fabric, updFab]

theorem landHop_packets (s : State) (k : Nat) (p : Packet) :
    (landHop s k p).fabric.packets = s.fabric.packets.eraseIdx k ++ [p.landed] := rfl

/-- A packet that arrives is as good as a liveness token (R295). -/
theorem landHop_token (s : State) (k : Nat) (p : Packet) :
    mget 0 (landHop s k p).fabric.token (linkKey p.stop p.out) = s.time :=
  mget_mput_same ..

variable (hp : s.fabric.packets[k]? = some p) (hf : fieldHeld s (fieldOfStop p.stop) = false) (hu : stopUp s p.stop = true)
include hp hf hu

/-- The oldest packet of its plane on a link arrives. -/
theorem exec_packetHop_lands (hfly : p.flying = true) (hfirst : firstFlying s k p = true) :
    exec (.packetHop k none) s = .next (landHop s k p) := by
  simp [execPacketHop, hp, hf, hu, hfly, hfirst]

/-- The packet at the head of its queue leaves it: delivered, lost or sent. -/
theorem exec_packetHop_head (hfly : p.flying = false) (hhead : atHead s k p = true) :
    exec (.packetHop k none) s = .next (
      if hopsOf p.route = 0 then takeOut s k p
      else if !linkUp s p.stop p.out then dropPacket (updFab s (fun f => { f with packets := f.packets.eraseIdx k })) p
      else if hasCredit s p && itsTurn s p then sendHop s k p else s) := by
  simp [execPacketHop, hp, hf, hu, hfly, hhead]

end Hop

/-! ### Requests sent again, and records (R296 to R298) -/

section Retry
variable {s : State} {k : Nat}

/-- A request past its limit, no timer held, at a stop that may send. -/
theorem exec_requestTimeout_due {e : EReq} (he : s.fabric.reqs[k]? = some e) (ht : timersHeld s = false)
    (hh : heldAtSource s e.line = false) (hq : stopQuiet s (stopOfUid e.src) = false) (hd : e.since + reqLimit s e ≤ s.time) :
    exec (.requestTimeout k) s = .next (
      if 8 ≤ e.attempt then abandon (updFab s (fun f => { f with reqs := f.reqs.eraseIdx k })) e
      else
        let e' := { e with attempt := e.attempt + 1, since := s.time, dest := destOf s e }
        inject (updFab s (fun f => { f with reqs := f.reqs.set k e' })) (stopOfUid e.src) e.msg e'.dest e.src e.tag e'.attempt
          e.payload e.orig) := by
  rw [exec_requestTimeout, execRequestTimeout, he]
  exact congrArg Host.Outcome.next (if_neg (by simp [ht, hh, hq, hd]))

theorem exec_completerRecordExpiry_due {r : DoneRec} (hr : s.fabric.recs[k]? = some r) (hd : r.till ≤ s.time) :
    exec (.completerRecordExpiry k) s = .next (updFab s (fun f => { f with recs := f.recs.eraseIdx k })) := by
  rw [exec_completerRecordExpiry, execCompleterRecordExpiry, hr]
  exact congrArg Host.Outcome.next (if_pos hd)

end Retry

/-- Settles O43, by the plane of what enters, by where a packet stands, and by how often a request was sent. -/
theorem fabricPacketCompletes : Obligations.FabricPacketCompletes := by
  refine ⟨fun s k i hf hu hq => ⟨fun hp => ?_, fun hp => ?_, fun hp hfree => ?_⟩,
    fun s k p hp hf hu => ⟨fun hfly hhead => ⟨fun h0 hq => ?_, fun h0 hl hc ht => ?_, fun h0 hl => ?_⟩, fun hfly hfirst => ?_⟩,
    fun s k e he ht hh hq hd => ⟨fun h8 => ?_, fun h8 => ?_⟩, fun s k r => exec_completerRecordExpiry_due⟩
  · rw [exec_packetHop_injects k hf, injectNew_fwd hu hq hp]
  · rw [exec_packetHop_injects k hf, injectNew_rsp hu hq hp]
  · rw [exec_packetHop_injects k hf, injectNew_req hu hq hp hfree]
  · rw [exec_packetHop_head hp hf hu hfly hhead, if_pos h0, takeOut_delivers hq]
  · refine ⟨sendHop s k p, ?_, sendHop_packets s k p⟩
    rw [exec_packetHop_head hp hf hu hfly hhead, if_neg h0, if_neg (by simp [hl]), if_pos (by simp [hc, ht])]
  · rw [exec_packetHop_head hp hf hu hfly hhead, if_neg h0, if_pos (by simp [hl])]
  · exact ⟨landHop s k p, exec_packetHop_lands hp hf hu hfly hfirst, landHop_packets s k p, landHop_token s k p⟩
  · rw [exec_requestTimeout_due he ht hh hq hd, if_pos h8]
  · rw [exec_requestTimeout_due he ht hh hq hd, if_neg (Nat.not_le.2 h8)]

end Sys2Proof.Machine

/-! PROOFS. The fabric (chapter 12): routes, their commits and alternatives, and the states of links (O42). -/

namespace Sys2Proof.Machine

/-! ### Route sets (R291 to R293, R301, R302) -/

section Routes
variable {s : State}

/-- A valid route set is written to the inactive banks, and the fabric goes quiet (R292). -/
theorem startCommit_valid {ch : RouteSet} (hb : bcUp s = true) (hc : s.fabric.commit = none) (hv : routeCheck s ch = none) :
    startCommit s ch =
      let y := (ch.map (·.1)).eraseDups.foldl (fun s a =>
        let dst := 1 - activeBank s a
        (List.range 128).foldl (fun s b => s.putR (bankReg a dst b) (routeIn s ch a b)) s) s
      let z := setQuiet y true
      { z with fabric := { z.fabric with commit := some ⟨ch, z.time⟩ } } := by
  unfold startCommit
  rw [if_neg (by simp [hb, hc]), hv]

/-- Once the fabric has drained, or 20 µs after the commit began, the banks switch (R292). -/
theorem exec_quietDrained_switches {c : Commit} (hb : bcUp s = true) (hc : s.fabric.commit = some c)
    (hd : s.fabric.packets = [] ∨ c.since + 20000 ≤ s.time) :
    exec .quietDrained s = .next (
      let y := (c.changes.map (·.1)).eraseDups.foldl (fun s a =>
        let r := rFabRouteSel (fabUidOfStop a)
        (s.putF r FabRouteSel.active (1 - activeBank s a)).putF r FabRouteSel.gen (s.getF r FabRouteSel.gen + 1))
        (s.fabric.packets.foldl dropPacket s)
      let z := setQuiet y false
      let z : State := { z with fabric := { z.fabric with packets := [], commit := none, altsOk := false, alts := [] } }
      releaseHeld (sendNotices (logRecord z 0x31 uidDevice 0
        (z.getF (rFabRouteSel (fabUidOfStop 0)) FabRouteSel.gen) (z.time - c.since) 0 0))) := by
  have hdone : ¬(!s.fabric.packets.isEmpty && decide (s.time < c.since + 20000)) = true := by
    simpa [List.isEmpty_iff, or_iff_not_imp_left] using hd
  rw [exec_quietDrained, execQuietDrained, hc]
  exact congrArg Host.Outcome.next ((if_neg (by simp [hb])).trans (if_neg hdone))

/-- Alternatives that cover every link and stop in service are kept (R293). -/
theorem exec_alternativesReady_kept {ls ss : List (Nat × RouteSet)} (hb : bcUp s = true) (hc : s.fabric.commit = none)
    (hg : altsGood s (altsOf ls ss) = true) :
    exec (.alternativesReady ls ss) s = .next { s with fabric := { s.fabric with altsOk := true, alts := altsOf ls ss } } :=
  (exec_alternativesReady ..).trans (congrArg Host.Outcome.next (if_neg (by simp [hb, hc, hg])))

/-- What a kept alternative stands for is lost, and the alternative is committed (R301). -/
theorem exec_reroute_commits {isStop : Bool} {n : Nat} {l : Loss} {ch : RouteSet} (hk : s.fabric.altsOk = true)
    (hl : lossGone s (if isStop then Loss.stop n else Loss.link (n / 4) (n % 4)) = true)
    (hf : s.fabric.alts.find? (fun e => e.1 == if isStop then Loss.stop n else Loss.link (n / 4) (n % 4)) = some (l, ch)) :
    exec (.reroute isStop n) s = .next (startCommit s ch) := by
  simp [execReroute, hk, hl, hf]

/-- The routes no longer serve and no alternative does: they are computed afresh (R302). -/
theorem exec_routeRecompute_computes (hb : bcUp s = true) (hc : s.fabric.commit = none) (hr : (routeCheck s []).isSome = true)
    (ha : altApplies s = false) : exec .routeRecompute s = .next (recomputeGo 128 s) := by
  have hbad : (routeCheck s []).isNone = false := by
    rw [Option.isNone_eq_false_iff]
    exact hr
  exact (exec_routeRecompute s).trans (congrArg Host.Outcome.next (if_neg (by simp [hb, hc, hbad, ha])))

end Routes

/-! ### Links (R294, R295) -/

section Links
variable {s : State} {st : Fin 128} {d : Fin 4} (hl : linkUp s st d = true)
include hl

/-- A replay is counted; the eighth in a row takes the link down (R294, R295). -/
theorem exec_linkReplay_counts :
    exec (.linkReplay st d) s = .next (
      let y := pmUncore (s.putR (linkReg st d) (satInc (s.getR (linkReg st d)) FabLinkStatus.retries 1)) st 0x113 false none
      let w := (y.time :: mget [] y.fabric.window (linkKey st d)).take 1000
      let n := mget 0 y.fabric.replays (linkKey st d) + 1
      let z := updFab y (fun f => { f with
        replays := mput 0 f.replays (linkKey st d) n
        window := mput [] f.window (linkKey st d) w })
      if 8 ≤ n then takeDown z st d 1 else z) :=
  (exec_linkReplay ..).trans (congrArg Host.Outcome.next (if_neg (by simp [hl])))

theorem exec_livenessToken_noted :
    exec (.livenessToken st d) s = .next (updFab s (fun f => { f with token := mput 0 f.token (linkKey st d) s.time })) :=
  (exec_livenessToken ..).trans (congrArg Host.Outcome.next (if_pos hl))

/-- A link goes down at a loss of lock, or with no token for 10 µs (R295). -/
theorem exec_linkDown_down {lock : Bool} (hd : lock = true ∨ mget 0 s.fabric.token (linkKey st d) + 10000 ≤ s.time) :
    exec (.linkDown st d lock) s = .next (takeDown s st d 1) :=
  (exec_linkDown ..).trans (congrArg Host.Outcome.next (if_pos (by simpa [hl] using hd)))

/-- A link that no route uses goes out of service at 1,000 replays within a second (R295). -/
theorem exec_linkOutOfService_out {a : Nat} (hb : bcUp s = true)
    (hw : (mget [] s.fabric.window (linkKey st d))[999]? = some a) (ha : s.time ≤ a + 1000000000)
    (hu : linkUsed s st d = false) : exec (.linkOutOfService st d) s = .next (takeDown s st d 2) :=
  (exec_linkOutOfService ..).trans (congrArg Host.Outcome.next (if_pos (by simp [hb, hl, hw, ha, hu])))

end Links

/-- Settles O42, by a route set's commit and switch, by what alternatives are for, and by what befalls a link. -/
theorem fabricRouteCompletes : Obligations.FabricRouteCompletes := by
  refine ⟨fun s ch hb hc hv => ?_, fun s c => exec_quietDrained_switches, fun s ls ss => exec_alternativesReady_kept,
    fun s n l ch hk => ⟨fun hl hf => ?_, fun hs hcause hf => ?_⟩, fun s => exec_routeRecompute_computes,
    fun s st d hl => ⟨exec_linkReplay_counts hl, exec_livenessToken_noted hl, exec_linkDown_down hl (.inl rfl),
      fun ht => exec_linkDown_down hl (.inr ht), fun a => exec_linkOutOfService_out hl⟩⟩
  · exact (exec_routeCommit ..).trans (congrArg Host.Outcome.next (startCommit_valid hb hc hv))
  · exact exec_reroute_commits (isStop := false) hk (by simp [lossGone, hl]) hf
  · exact exec_reroute_commits (isStop := true) hk (by simp [lossGone, hs, hcause]) hf

end Sys2Proof.Machine

/-! PROOFS. Memory channels (chapter 13): a controller's commands, refresh, training and frequency (O44). -/

namespace Sys2Proof.Machine

/-! ### A controller's state -/

@[simp] theorem getM_updM_same (s : State) (c : Nat) (f : Mc → Mc) : getM (updM s c f) c = f (getM s c) := mget_mput_same ..

@[simp] theorem getM_putF (s : State) (a : Nat) (f : Fld) (n c : Nat) : getM (s.putF a f n) c = getM s c :=
  congrArg (mget Mc.init · c) (State.putF_mcs ..)

/-! ### Commands to the modules (R314 to R318) -/

/-- A write in the queue goes to its open row and leaves the queue. -/
theorem issueWrite_queued {s : State} {c i draw : Nat} {sub : Bool} {q : McReq}
    (hq : (inWrites ((getM s c).sub sub))[i]? = some q) :
    issueWrite s c sub i draw =
      let z := openRow s c sub q draw
      let z := updM z c (fun m => m.setSub sub (drainFix { m.sub sub with writes := leaveQueue z c 48 i (m.sub sub).writes }))
      pmUncore (busTime (bwAdd z (mcUid c) 8 64) c) (stopOfMc c) 0x121 (isSecure z q.pa) (some (mcSource z c q, q.pa)) := by
  rw [issueWrite, hq]
  rfl

/-! A controller settles whether it drains its writes, and chooses its command in the state `y` that this leaves (R316). -/

section Commands
variable {s y : State} {c : Fin 16} {sub : Bool} {al : List DramCmd} {i : Nat} {q : McReq} (ecc mir : ErrPat) (draw : BitVec 16)
  (hr : mcRuns s c = true) (hy : updM s c (fun m => m.setSub sub (drainFix (m.sub sub))) = y)
include hr hy

theorem exec_mcCommandIssue_refresh {r : Nat} (hb : cmdBest y c ((getM y c).sub sub) al = some (.refresh r)) :
    exec (.mcCommandIssue c sub al ecc mir draw) s = .next (refreshRank y c r) := by
  simp only [exec_mcCommandIssue, execMcCommandIssue, hy, hr, hb, Bool.not_true, Bool.false_eq_true, if_false]

/-- A neighbour refresh that is issued is due no longer (R318). -/
theorem exec_mcCommandIssue_neighbour (hb : cmdBest y c ((getM y c).sub sub) al = some .neighbour) :
    exec (.mcCommandIssue c sub al ecc mir draw) s = .next (pmUncore (updM y c (fun m =>
      m.setSub sub { m.sub sub with nref := (m.sub sub).nref.tail })) (stopOfMc c) 0x123 false none) := by
  simp only [exec_mcCommandIssue, execMcCommandIssue, hy, hr, hb, Bool.not_true, Bool.false_eq_true, if_false]

theorem exec_mcCommandIssue_write (hb : cmdBest y c ((getM y c).sub sub) al = some (.write i)) :
    exec (.mcCommandIssue c sub al ecc mir draw) s = .next (issueWrite y c sub i draw.toNat) := by
  simp only [exec_mcCommandIssue, execMcCommandIssue, hy, hr, hb, Bool.not_true, Bool.false_eq_true, if_false]

/-- A read before urgency 3, not a home's own, leaves the queue, and its line is checked (R308). -/
theorem exec_mcCommandIssue_read (hb : cmdBest y c ((getM y c).sub sub) al = some (.read i))
    (hq : (inReads ((getM y c).sub sub))[i]? = some q) (hu : urgency y c q ≠ 3) (hh : q.home = false) :
    exec (.mcCommandIssue c sub al ecc mir draw) s = .next (
      let z := openRow y c sub q draw.toNat
      let z := updM z c (fun m => m.setSub sub { m.sub sub with reads := leaveQueue z c 64 i (m.sub sub).reads })
      let z := pmUncore (busTime (bwAdd z (mcUid c) 0 64) c) (stopOfMc c) 0x120 (isSecure z q.pa) (some (mcSource z c q, q.pa))
      readError z c (q.line * 64) (eccOf z c ecc) (eccOf z (mirrorChan c) mir)) := by
  simp only [exec_mcCommandIssue, execMcCommandIssue, hy, hr, hb, hq, hu, hh, Bool.not_true, Bool.false_eq_true,
    if_false]
  rfl

end Commands

/-! ### Refresh, training and frequency (R317, R319, R320) -/

section Upkeep
variable {s : State} {c : Fin 16}

/-- A refresh falls due and is owed; where eight are owed already, one is done first (R317). -/
theorem exec_refreshDue_owed {rank : Fin 4} {hot : Bool} (hu : chanUp s c = true) (hf : (getM s c).freq = false)
    (ht : mget 0 (getM s c).lastRef rank + (if hot then 975 else 1950) ≤ s.time) :
    exec (.refreshDue c rank hot) s = .next (
      updM (if 8 ≤ mget 0 (getM s c).owed rank then refreshRank s c rank else s) c (fun m => { m with
        hot := mput false m.hot rank hot
        lastRef := mput 0 m.lastRef rank s.time
        owed := mput 0 m.owed rank (mget 0 m.owed rank + 1) })) :=
  (exec_refreshDue ..).trans (congrArg Host.Outcome.next (if_neg (by simpa [hu, hf] using ht)))

/-- New training values wait for their rank's next refresh (R319). -/
theorem exec_driftTracking_holds {ws : List (Nat × Nat × BitVec 64)} (hb : bcUp s = true) (hu : chanUp s c = true)
    (ht : (getM s c).driftAt + 100000000 ≤ s.time) :
    exec (.driftTracking c ws) s = .next (updM s c (fun m => { m with driftAt := s.time, heldTrain := m.heldTrain ++
      (ws.filter (fun w => decide (w.1 < 4) && decide (w.2.1 < 80))).map (fun w =>
        (w.1, rMcTrain (mcUid c) (s.getF (rMcFreqCtrl (mcUid c)) McFreqCtrl.active) w.1 w.2.1, w.2.2 &&& 0x7F07FF07FF)) })) :=
  (exec_driftTracking ..).trans (congrArg Host.Outcome.next (if_neg (by simpa [hb, hu] using ht)))

/-- A change that may begin drains refresh and holds the channel (R320). -/
theorem writeFreqCtrl_begins {v : Word} (hm : mayChange s c = true) (hgo : fldB v McFreqCtrl.go = true)
    (hrefused : fldB v McFreqCtrl.refused = false) (hmig : s.getB (rMcMigrStatus (mcUid c)) McMigrStatus.active = false)
    (hbusy : s.getB (rMcFreqCtrl (mcUid c)) McFreqCtrl.busy = false) :
    writeFreqCtrl s c v = updM (((List.range 4).foldl (fun s k => refreshRank s c k) s).putF (rMcFreqCtrl (mcUid c))
      McFreqCtrl.busy 1) c (fun m => { m with freq := true, owed := [] }) := by
  simp [writeFreqCtrl, hm, hgo, hrefused, hmig, hbusy]

theorem exec_frequencyChange_baseCamp {v : Word} (hb : bcUp s = true) (hu : chanUp s c = true) (hm : mayChange s c = true) :
    exec (.frequencyChange .baseCamp c v) s = .next (writeFreqCtrl s c v) :=
  (exec_frequencyChange ..).trans (congrArg Host.Outcome.next (if_pos ⟨rfl, hb, hu, .inr hm⟩))

/-- At the end of a change the other set is active at the new rate, and no row is open (R320). -/
def freqChanged (s : State) (c rate : Nat) : State :=
  let r := rMcFreqCtrl (mcUid c)
  let set := 1 - s.getF r McFreqCtrl.active
  updM (((s.putF r McFreqCtrl.busy 0).putF r McFreqCtrl.active set).putF r McFreqCtrl.rate_mts_div rate) c (fun m => { m with
    freq := false
    rates := mput 0 m.rates set rate
    sub0 := { m.sub0 with rows := [], hits := [] }
    sub1 := { m.sub1 with rows := [], hits := [] } })

theorem exec_frequencyChangeDone_busy {rate : BitVec 12} (hbusy : s.getB (rMcFreqCtrl (mcUid c)) McFreqCtrl.busy = true) :
    exec (.frequencyChangeDone c rate) s = .next (freqChanged s c rate.toNat) :=
  (exec_frequencyChangeDone ..).trans (congrArg Host.Outcome.next (if_neg (by simp [hbusy])))

theorem freqChanged_freq (s : State) (c rate : Nat) : (getM (freqChanged s c rate) c).freq = false := by
  simp [freqChanged]

theorem freqChanged_rates (s : State) (c rate : Nat) : (getM (freqChanged s c rate) c).rates =
    mput 0 (getM s c).rates (1 - s.getF (rMcFreqCtrl (mcUid c)) McFreqCtrl.active) rate := by
  simp [freqChanged]

theorem freqChanged_rate (s : State) (c : Nat) (rate : BitVec 12) :
    (freqChanged s c rate.toNat).getF (rMcFreqCtrl (mcUid c)) McFreqCtrl.rate_mts_div = rate.toNat := by
  have hlt : rate.toNat < 2 ^ McFreqCtrl.rate_mts_div.width := rate.isLt
  rw [freqChanged, getF_congr (updM_regs ..), getF_putF_same _ _ _ _ (by decide), Nat.mod_eq_of_lt hlt]

end Upkeep

/-- Settles O44, by the command chosen and by what befalls the channel. -/
theorem memoryChannelCompletes : Obligations.MemoryChannelCompletes := by
  refine ⟨fun s c sub al ecc mir draw hr => ⟨fun r => exec_mcCommandIssue_refresh ecc mir draw hr rfl,
      exec_mcCommandIssue_neighbour ecc mir draw hr rfl, fun i q hb hq => ?_,
      fun i q => exec_mcCommandIssue_read ecc mir draw hr rfl⟩,
    fun s c rank hot => exec_refreshDue_owed, fun s c ws => exec_driftTracking_holds,
    fun s c v hb hu hm hgo hrefused hmig hbusy => ?_,
    fun s c rate hbusy => ⟨freqChanged s c rate.toNat, exec_frequencyChangeDone_busy hbusy, freqChanged_freq .., freqChanged_rates ..,
      freqChanged_rate ..⟩,
    fun s c => rfl⟩
  · exact (exec_mcCommandIssue_write ecc mir draw hr rfl hb).trans (congrArg Host.Outcome.next (issueWrite_queued hq))
  · rw [exec_frequencyChange_baseCamp hb hu hm, writeFreqCtrl_begins hm hgo hrefused hmig hbusy]

end Sys2Proof.Machine

/-! PROOFS. Memory channels (chapter 13): a rank's migration, the gleaner, expansion links and resilvering (O45). -/

namespace Sys2Proof.Machine

@[simp] theorem getM_putR (s : State) (a : Nat) (v : Word) (c : Nat) : getM (s.putR a v) c = getM s c :=
  congrArg (mget Mc.init · c) (State.putR_mcs ..)

@[simp] theorem getM_logRecord (s : State) (type unit cause p0 p1 p2 p3 : Nat) (b : Bool) (c : Nat) :
    getM (logRecord s type unit cause p0 p1 p2 p3 b) c = getM s c :=
  congrArg (mget Mc.init · c) (logRecord_mcs ..)

/-! ### A rank's migration (R323 to R325) -/

section Migration
variable {s : State} {c : Fin 16} {l : Nat}

/-- A rank that serves moves to the channel's spare, under the recovery set of R440. -/
theorem startMigration_starts {rank sp : Nat} {more : List Nat} (hb : bcUp s = true) (hu : chanUp s c = true)
    (ha : s.getB (rMcMigrStatus (mcUid c)) McMigrStatus.active = false) (hs : (getM s c).spareOf = sp :: more)
    (hl : (getM s c).ranks.findIdx? (· == rank) = some l) :
    startMigration s c rank =
      let w := [(McMigrStatus.active, 1), (McMigrStatus.src_rank, rank), (McMigrStatus.spare_rank, sp),
        (McMigrStatus.pointer, l * rankSize s c / 0x1000000)].foldl (fun w (f, n) => setFld w f n) (s.getR (rMcMigrStatus (mcUid c)))
      let y := recoverySet (updM (s.putR (rMcMigrStatus (mcUid c)) w) c (fun m => { m with
        migrLeft := 0, migrAt := l * rankSize s c })) c
      if rankMirrored y c l then configEval (mirrorRecord (setBroken y c true) (mcUid c) c true) else y := by
  have hidle : fldB (s.getR (rMcMigrStatus (mcUid c))) McMigrStatus.active = false := ha
  simp only [startMigration, hidle, hb, hu, hs, hl, Bool.not_true, Bool.or_self, Bool.false_eq_true, if_false]

/-- A line read without an error is written to the spare, and the pointer moves on (R324). -/
theorem exec_migrationCopy_clean {mir : ErrPat} (ha : fldB (s.getR (rMcMigrStatus (mcUid c))) McMigrStatus.active = true)
    (hr : mcRuns s c = true) (hf : readFree s c (getM s c).migrAt = true)
    (hlt : (getM s c).migrAt < (((getM s c).ranks.findIdx?
      (· == fld (s.getR (rMcMigrStatus (mcUid c))) McMigrStatus.src_rank)).getD 0 + 1) * rankSize s c) :
    exec (.migrationCopy c .none mir) s = .next (
      let y := updM (ownAccess s c (getM s c).migrAt 5 false) c (fun x => { x with migrAt := (getM s c).migrAt + 64 })
      remapRanks ((ownAccess y c (getM s c).migrAt 5 true).putR (rMcMigrStatus (mcUid c))
        (setFld (s.getR (rMcMigrStatus (mcUid c))) McMigrStatus.pointer (((getM s c).migrAt + 64) / 0x1000000))) c) := by
  refine (exec_migrationCopy ..).trans (congrArg Host.Outcome.next ((if_neg (by simp [ha, hr, hf, hlt])).trans ?_))
  cases paOfLocal s c (getM s c).migrAt <;> rfl

/-! A remapping changes the coordinates of waiting requests alone. -/

theorem remapRanks_ranks (s : State) (c : Nat) : (getM (remapRanks s c) c).ranks = (getM s c).ranks := by
  simp [remapRanks]

theorem remapRanks_spareOf (s : State) (c : Nat) : (getM (remapRanks s c) c).spareOf = (getM s c).spareOf := by
  simp [remapRanks]

theorem remapRanks_mgmt (s : State) (c : Nat) : (remapRanks s c).mgmt = s.mgmt := by
  simp [remapRanks]

/-- A channel after its copy: the spare `sp` serves logical rank `l`, and the source is withdrawn (R324). -/
def spareServes (s : State) (c l src sp : Nat) : State :=
  let y := updM s c (fun m => { m with
    ranks := m.ranks.set l sp
    gone := m.gone ++ [src]
    spareOf := []
    errs := m.errs.filter (fun e => e.1 != src) })
  let w := [(McMigrStatus.active, 0), (McMigrStatus.done, 1), (McMigrStatus.spare_rank, 0xF)].foldl
    (fun w (f, n) => setFld w f n) (s.getR (rMcMigrStatus (mcUid c)))
  remapRanks ((y.putR (rMcMigrStatus (mcUid c)) w).putF (rMcProt (mcUid c)) McProt.mode 0) c

theorem spareServes_ranks (s : State) (c l src sp : Nat) :
    (getM (spareServes s c l src sp) c).ranks = (getM s c).ranks.set l sp := by
  simp [spareServes, remapRanks_ranks]

theorem spareServes_spareOf (s : State) (c l src sp : Nat) : (getM (spareServes s c l src sp) c).spareOf = [] := by
  simp [spareServes, remapRanks_spareOf]

theorem spareServes_mgmt (s : State) (c l src sp : Nat) : (spareServes s c l src sp).mgmt = s.mgmt := by
  simp [spareServes, remapRanks_mgmt]

/-- A copy that has reached the rank's end is recorded with what it left uncorrected, and no mirror was broken to be restored (R324). -/
theorem exec_migrationDone_ends
    (hl : (getM s c).ranks.findIdx? (· == fld (s.getR (rMcMigrStatus (mcUid c))) McMigrStatus.src_rank) = some l)
    (ha : fldB (s.getR (rMcMigrStatus (mcUid c))) McMigrStatus.active = true) (hat : (l + 1) * rankSize s c ≤ (getM s c).migrAt)
    (hm : s.mgmt.mirrorBroken = []) :
    let src := fld (s.getR (rMcMigrStatus (mcUid c))) McMigrStatus.src_rank
    let sp := fld (s.getR (rMcMigrStatus (mcUid c))) McMigrStatus.spare_rank
    let y := spareServes s c l src sp
    exec (.migrationDone c) s = .next (logRecord y 0x21 (mcUid c) 0 (src + sp * 16 + 256) (getM y c).migrLeft 0 0) := by
  intro src sp y
  have hwhole : (logRecord y 0x21 (mcUid c) 0 (src + sp * 16 + 256) (getM y c).migrLeft 0 0).mgmt.mirrorBroken.contains c.val = false := by
    simp [y, spareServes_mgmt, hm]
  simp only [exec_migrationDone, execMigrationDone, hl]
  exact congrArg Host.Outcome.next ((if_neg (by simp [ha, hat])).trans (if_neg (Bool.eq_false_iff.mp hwhole)))

end Migration

/-! ### The gleaner and the spare's test (R327) -/

section Gleaner
variable {s : State} {c : Fin 16}

/-- A read due on an idle channel finds no error: the gleaner goes to the next line, or ends its pass. -/
theorem exec_gleanerRead_clean (hr : mcRuns s c = true) (hen : s.getB (rMcGleanCfg (mcUid c)) McGleanCfg.en = true)
    (ha : s.getB (rMcMigrStatus (mcUid c)) McMigrStatus.active = false) (hn : 0 < chanBytes s c)
    (hf : readFree s c (getM s c).glean = true) (hd : gleanDue s c = true) :
    exec (.gleanerRead c .none .none) s = .next (
      let y := readError (ownAccess (gleanStamp s c) c (getM s c).glean 4 false) c (getM s c).glean .good .good
      if (getM s c).glean + 64 < chanBytes y c then updM y c (fun m => { m with glean := (getM s c).glean + 64 })
      else
        let z := y.putR (rMcGleanStatus (mcUid c)) (satInc (y.getR (rMcGleanStatus (mcUid c))) McGleanStatus.passes 1)
        updM z c (fun m => { m with glean := 0, spareTested := false })) :=
  (exec_gleanerRead ..).trans (congrArg Host.Outcome.next (if_neg (by simp [hr, hen, ha, hn.ne', hf, hd])))

/-- A spare not yet tested in this pass is, and one that fails is withdrawn. -/
theorem exec_spareRankTest_tests {good : Bool} {sp : Nat} {more : List Nat} (hs : (getM s c).spareOf = sp :: more)
    (hr : mcRuns s c = true) (ht : (getM s c).spareTested = false)
    (ha : s.getB (rMcMigrStatus (mcUid c)) McMigrStatus.active = false) :
    exec (.spareRankTest c good) s = .next (
      let y := updM s c (fun m => { m with spareTested := true })
      if good then y
      else memoryRecord ((updM y c (fun m => { m with spareOf := [], gone := m.gone ++ [sp] })).putF
        (rMcMigrStatus (mcUid c)) McMigrStatus.spare_rank 0xF) c 0 sp 0xFF true false 0) := by
  simp only [exec_spareRankTest, execSpareRankTest, hs, hr, ht, ha, Bool.not_true, Bool.or_self, Bool.false_eq_true, if_false]

end Gleaner

/-! ### Expansion links (R328, R329, R356) and resilvering (R485) -/

section Mirrors
variable {s : State}

theorem exec_cxlLinkLoss_breaks {l : Fin 16} (hl : mget false s.cxlLost l = false) (hw : windowsOf s l ≠ []) :
    exec (.cxlLinkLoss l) s = .next (configEval (mirrorRecord { s with cxlLost := mput false s.cxlLost l true }
      (ioUid (linkIo s l)) l true)) :=
  (exec_cxlLinkLoss ..).trans (congrArg Host.Outcome.next (if_neg (by simp [hl, hw])))

/-- A link in mode X trains on its octet, the leading one of a pair; where it was lost, its mirror is restored. -/
theorem exec_cxlLinkTrain_trains {o : Fin 32} (hm : s.getF (rHpOctCfg (octUid o)) HpOctCfg.mode = 3)
    (hw : s.getF (rHpOctCfg (octUid o)) HpOctCfg.width ≠ 2) :
    exec (.cxlLinkTrain o true) s = .next (
      let l := s.getF (rHpOctCfg (octUid o)) HpOctCfg.xlink
      let y : State := { s with cxlUp := mput false s.cxlUp l true }
      if mget false y.cxlLost l then
        configEval (mirrorRecord { y with cxlLost := mput false y.cxlLost l false } (ioUid (o / 4)) l false)
      else configEval y) :=
  (exec_cxlLinkTrain ..).trans (congrArg Host.Outcome.next (if_neg (by simp [hm, hw])))

theorem exec_resilverDone_restores {c : Fin 16} {n : Nat} (hn : (getM s c).resilver = some n) :
    exec (.resilverDone c) s = .next (configEval (mirrorRecord (setBroken ((updM s c (fun m => { m with resilver := none })).putF
      (rMcProt (mcUid c)) McProt.mode 0) c false) (mcUid c) c false)) := by
  simp only [exec_resilverDone, execResilverDone, hn]

end Mirrors

/-- Settles O45, by the stages of a migration, the gleaner's round, and how a mirror breaks and is restored. -/
theorem memoryRepairCompletes : Obligations.MemoryRepairCompletes := by
  refine ⟨fun s c rank sp l more hb hu ha hs hl => ?_, fun s c mir => exec_migrationCopy_clean, fun s c l hl ha hat hm => ?_,
    fun s c => exec_gleanerRead_clean, fun s c sp more hs hr ht ha => ⟨exec_spareRankTest_tests hs hr ht ha,
      exec_spareRankTest_tests hs hr ht ha⟩, fun s l => exec_cxlLinkLoss_breaks, fun s o hm hw => ⟨fun hl => ?_, fun hl => ?_⟩,
    fun s c n => exec_resilverDone_restores⟩
  · exact (exec_rankMigrationStart ..).trans (congrArg Host.Outcome.next (startMigration_starts hb hu ha hs hl))
  · exact ⟨_, exec_migrationDone_ends hl ha hat hm, by simp [spareServes_ranks], by simp [spareServes_spareOf]⟩
  · exact (exec_cxlLinkTrain_trains hm hw).trans (congrArg Host.Outcome.next (if_pos hl))
  · exact (exec_cxlLinkTrain_trains hm hw).trans (congrArg Host.Outcome.next (if_neg (Bool.eq_false_iff.mp hl)))

end Sys2Proof.Machine

/-! PROOFS. Flex lanes and host ports (chapter 14): how requests to a host end (O46), and how functions and ports reset, freeze and come
back (O47). -/

namespace Sys2Proof.Machine

/-! ### Requests to a host (R343 to R347) -/

section Requests
variable {s : State} {p : Fin 16} {tag : Fin 1024} {k : Nat} {r : HostReq}

/-- A completion that finds its request is the request's own, unless the port has detected its timeout (R344, R345). -/
theorem exec_hostCompletion_found {count : Nat} {lower : BitVec 7} {c : Cpl}
    (hk : (getP s p).reqs.findIdx? (fun r => r.tag == some tag.val) = some k) (hr : (getP s p).reqs[k]? = some r) :
    exec (.hostCompletion p tag count lower c) s = .next (if overdue s r then strayCompletion (timeOut s p k r) p tag
      else match c with
        | .malformed => finishReq (aer s p r.inst 4) p k r (.error 0x0304)
        | .data bs =>
          if !cplAgrees r count lower.toNat bs.length then unexpected s p r.inst
          else if (r.got ++ bs).length = r.len then
            finishReq (updP s p (fun x => { x with progress := s.time })) p k r (.ok (r.got ++ bs))
          else updP (updP s p (fun x => { x with progress := s.time })) p
            (fun x => { x with reqs := x.reqs.set k { r with got := r.got ++ bs } })
        | .error =>
          if !cplAgrees r count lower.toNat 1 then unexpected s p r.inst else finishReq s p k r (.error 0x0304)
        | .poisoned =>
          if !cplAgrees r count lower.toNat 1 then unexpected s p r.inst
          else finishReq (errCount s p HpErrCount.poisoned_cpl) p k r (.error 0x0201)) := by
  cases c <;> simp only [exec_hostCompletion, execHostCompletion, hk, hr]

theorem exec_completionTimeout_found (hk : (getP s p).reqs.findIdx? (fun r => r.tag == some tag.val) = some k)
    (hr : (getP s p).reqs[k]? = some r) (ht : r.since + r.limit * 1000 ≤ s.time) :
    exec (.completionTimeout p tag) s = .next (timeOut s p k r) := by
  simp only [exec_completionTimeout, execCompletionTimeout, hk, hr, if_neg (Nat.not_lt.mpr ht)]

theorem exec_quarantineExpiry_due {q : QTag} (hq : (getP s p).quar.find? (fun q => q.tag == tag.val) = some q)
    (ht : q.till ≤ s.time) :
    exec (.quarantineExpiry p tag) s = .next (assignTags (updP (setQuar s p ((getP s p).quar.filter (fun q =>
      q.tag != tag.val))) p (fun x => { x with spent := x.spent ++ [q] })) p) := by
  simp only [exec_quarantineExpiry, execQuarantineExpiry, hq, if_neg (Nat.not_lt.mpr ht)]

theorem exec_tagWaitTimeout_due (hr : (getP s p).reqs[k]? = some r) (htag : r.tag = none)
    (ht : r.since + cplTimeoutUs s p * 1000 < s.time) :
    exec (.tagWaitTimeout p k) s = .next (answerReq (dropReq s p k) p r (.error 0x0302)) := by
  simp only [exec_tagWaitTimeout, execTagWaitTimeout, hr, htag, Option.isSome_none, Bool.false_or, decide_eq_true_eq,
    if_neg (Nat.not_le.mpr ht)]

end Requests

/-- Settles O46, by the request that a completion finds. -/
theorem hostRequestCompletes : Obligations.HostRequestCompletes := by
  refine ⟨fun s p tag count k lower r hk hr => ⟨fun c ho => ?_, fun ho => ?_, fun bs ho ha => ?_, fun ho ha => ⟨?_, ?_⟩,
      exec_completionTimeout_found hk hr⟩, fun s p tag q => exec_quarantineExpiry_due, fun s p k r => exec_tagWaitTimeout_due,
    fun s p i hm => ⟨?_, fun hb => ?_⟩⟩
  · rw [exec_hostCompletion_found hk hr, if_pos ho]
  · simp only [exec_hostCompletion_found hk hr, ho, Bool.false_eq_true, if_false]
  · simp only [exec_hostCompletion_found hk hr, ho, ha, Bool.not_true, Bool.false_eq_true, if_false]
  · simp only [exec_hostCompletion_found hk hr, ho, ha, Bool.not_true, Bool.false_eq_true, if_false]
  · simp only [exec_hostCompletion_found hk hr, ho, ha, Bool.not_true, Bool.false_eq_true, if_false]
  · exact congrArg Host.Outcome.next (if_neg (by simp [hm]))
  · exact congrArg Host.Outcome.next (if_neg (by simp [hm, hb]))

/-! ### Resets of functions (R348) -/

section Resets
variable {s : State} {p : Fin 16} {i : Fin 64}

theorem exec_functionLevelReset_begins (hm : hostPortMode s p = true) (hb : mget false (getP s p).busy i = false)
    (hi : i.val < (getP s p).share) :
    exec (.functionLevelReset p i false) s = .next ((resetSet s p i).foldl (fun s k => resetInst (setBusy s p k true) p k) s) :=
  congrArg Host.Outcome.next ((if_neg (by simp [hm])).trans ((if_neg Bool.false_ne_true).trans (if_neg (by simp [hb, hi]))))

/-- The reset of a function other than 0 ends for it alone. -/
theorem exec_functionLevelReset_ends (hm : hostPortMode s p = true) (hi : i.val ≠ 0) (hb : mget false (getP s p).busy i = true) :
    exec (.functionLevelReset p i true) s =
      .next (updP (setBusy s p i false) p (fun x => x.setFn i { x.fn i with resetting := false })) := by
  simp only [exec_functionLevelReset, execFunctionLevelReset, hm, hb, hi, Bool.not_true, Bool.false_eq_true, if_false, if_true,
    List.foldl_cons, List.foldl_nil]

end Resets

/-! ### Freezes, readiness and links (R349 to R355) -/

section Links
variable {s : State} {p : Fin 16}

theorem exec_outboundStall_freezes (hm : hostPortMode s p = true) (hr : (getP s p).reqs ≠ [])
    (ht : (getP s p).progress + 1000000 ≤ s.time) : exec (.outboundStall p) s = .next (portFreeze s p 4) := by
  have hstalls : (hostPortMode s p && (heldInFabric s p || !(getP s p).reqs.isEmpty) &&
      decide ((getP s p).progress + 1000000 ≤ s.time)) = true := by simp [hm, hr, ht]
  simp only [exec_outboundStall, execOutboundStall, hstalls, if_true]

/-- A link that may come up does, with its width, speed and tag mode (R336, R337, R353). -/
theorem exec_dataLinkUp_comes {width : Fin 32} {speed : Fin 8} {flit : Bool} (hm : hostPortMode s p = true)
    (hp : (getP s p).perst = false) (hl : portLinkUp s p = false) (hw : widthOk s p width = true) (h1 : 1 ≤ speed.val)
    (h6 : speed.val ≤ 6) (hf : speed.val = 6 → flit = true) :
    exec (.dataLinkUp p width speed flit) s = .next (updP (s.putR (rHpPortStatus (portUid p)) (setFld (setFld (setFld
      (setFld (s.getR (rHpPortStatus (portUid p))) HpPortStatus.width width) HpPortStatus.speed speed) HpPortStatus.flit
      (if flit then 1 else 0)) HpPortStatus.link_up 1)) p (fun x => { x with
        tagMode := if flit then .flit else if x.tagMode = .ten then .ten else .eight, progress := s.time
        autoArmed := x.autoArmed && s.getB (rHpPortCtrl (portUid p)) HpPortCtrl.auto_release })) := by
  have hs : speed.val ≠ 0 ∧ speed.val ≠ 7 := by omega
  have hfree : ¬(!hostPortMode s p || (getP s p).perst || portLinkUp s p || !widthOk s p width || speed.val = 0 || speed.val = 7 ||
      (speed.val = 6 && !flit)) = true := by
    simpa [hm, hp, hl, hw, hs] using hf
  simp only [exec_dataLinkUp, execDataLinkUp, if_neg hfree, ofBool, State.putR_time]

/-- A function that answers configuration writes and exists takes them. -/
theorem configuration_open {i : Fin 64} (hm : hostPortMode s p = true) (hc : (getP s p).cfgReady = true)
    (hr : ((getP s p).fn i).resetting = false) (hi : i.val < (getP s p).share) :
    ¬(!hostPortMode s p || !(getP s p).cfgReady || ((getP s p).fn i).resetting || (i.val ≠ 0 && (getP s p).share ≤ i.val)) = true := by
  simp [hm, hc, hr, hi]

end Links

/-- Settles O47, by the resets of functions, the freezes and the link's return. -/
theorem hostPortCompletes : Obligations.HostPortCompletes := by
  refine ⟨fun s p i hm => ⟨exec_functionLevelReset_begins hm, exec_functionLevelReset_ends hm⟩,
    fun s p hm => ⟨?_, ?_, ?_, exec_outboundStall_freezes hm, fun r hr hb => ?_, fun why => ?_, fun hp hst => ?_,
      fun width speed flit => exec_dataLinkUp_comes hm⟩,
    fun s r p hr hb hf hl hh => ?_, fun s p hf ha hl hc => ?_, fun s p hp => ?_, fun s p i v hv hs => ?_,
    fun s p i b hm hc hr hi => ?_⟩
  · exact congrArg Host.Outcome.next (if_neg (by simp [hm]))
  · exact congrArg Host.Outcome.next (if_neg (by simp [hm]))
  · exact congrArg Host.Outcome.next (if_neg (by simp [hm]))
  · exact congrArg Host.Outcome.next (if_pos (by simp [hm, hr, hb]))
  · exact congrArg Host.Outcome.next (if_pos hm)
  · exact congrArg Host.Outcome.next (if_neg (by simp [hm, hp, hst]))
  · refine congrArg Host.Outcome.next ((if_pos (by simp [hr, hb])).trans ((if_neg (by simp [hf])).trans (if_pos ?_)))
    simp [hl, hh]
  · exact congrArg Host.Outcome.next ((if_neg (by simp [hf, ha, hl])).trans (if_pos hc))
  · exact congrArg Host.Outcome.next (if_pos hp)
  · exact congrArg Host.Outcome.next (if_pos (by simp [hv, hs]))
  · have hopen := configuration_open hm hc hr hi
    exact ⟨congrArg Host.Outcome.next (if_neg hopen), fun c h => congrArg Host.Outcome.next ((if_neg hopen).trans (if_pos h)),
      fun c h => congrArg Host.Outcome.next ((if_neg hopen).trans (if_pos h)), congrArg Host.Outcome.next (if_neg hopen)⟩

end Sys2Proof.Machine

/-! PROOFS. Channels, rings and doorbells (chapter 15): commands, doorbells, and descriptors from their start to their completion (O33, O34). -/

namespace Sys2Proof.Machine

/-! ### Channel commands (R347, R367) -/

section Commands
variable {s : State} {r : Requester} {g cmd : Nat}

/-- While the stop's domain passes no handshake, a command is held there. -/
theorem command_held (hm : mayCommand s r g = true) (hp : esPasses s (servingEs s g) = false) :
    command s r g cmd = updCh s g (fun x => { x with heldCmds := x.heldCmds ++ [(cmd, true)] }) := by
  simp only [command, hm, if_true, chanCommand, hp, Bool.false_eq_true, if_false]

theorem command_acts (hm : mayCommand s r g = true) (hp : esPasses s (servingEs s g) = true) :
    command s r g cmd = chanAct s g cmd true := by
  simp only [command, hm, if_true, chanCommand, hp]

/-- The channel after a command has been counted. -/
def cmdCounted (s : State) (g : Nat) : State := updCh s g (fun c => { c with cmdSeq := (c.cmdSeq + 1) % 256 })

theorem cmdCounted_state (s : State) (g : Nat) : (getCh (cmdCounted s g) g).state = (getCh s g).state := by
  simp only [cmdCounted, getCh_updCh_same]

/-- What a counted command does where the channel's state allows it (R367). -/
def cmdEffect (y : State) (g cmd : Nat) : State :=
  match cmd with
  | 1 => refreshChan y g
  | 2 => checkDoorbell (chanSet y g 2 2) g
  | 3 => chanSet y g 3 3
  | 4 =>
    let z := cutAll y g 0x0106
    chanSet z g (if (getCh z g).flight.all (fun d => d.status.isSome) then 1 else 3) 4
  | 5 => flushGo ((getCh y g).subSize + 1) (updCh y g (fun c => { c with
      cause := 5, flushTo := some ((getCh y g).tail % (getCh y g).subSize) })) g
  | _ => updCh (resetIndices y g) g (fun c => { c with cause := 6 })

theorem chanAct_allowed (h : cmdAllowed cmd (getCh s g).state = true) :
    chanAct s g cmd true = cmdEffect (cmdCounted s g) g cmd := by
  have hc : ¬(!true || !cmdAllowed cmd (getCh (cmdCounted s g) g).state) = true := by simp [cmdCounted_state, h]
  exact (if_neg hc).trans rfl

/-- An entry that can be read and passes REFRESH is loaded (R368). -/
theorem refreshChan_loads {ws : List Word} (hw : entryWords s g = some ws) :
    let z := updCh (dropFetch s g) g (fun c => { c with words := ws, pollAt := (dropFetch s g).time, pollEvery := 100, ranBefore := false })
    entryOk z g ws = true → refreshChan s g = chanSet z g (if fldB (ws.getD 0 0) ChControl.en then 1 else 0) 1 := by
  intro z hz
  simp only [refreshChan, hw, Option.elim_some]
  refine (if_neg (by simp [z, hz])).trans ?_
  split <;> rfl

end Commands

/-- A polled channel's due poll of memory reads its word (R365). -/
theorem exec_doorbellPoll_reads {s z : State} {g : Fin 8192} {pa : Nat} {h : Bool} {bs : List Byte}
    (hp : esPasses s (servingEs s g) = true) (hd : (getCh s g).polled = true) (hn : (getCh s g).polling = false)
    (ht : (getCh s g).pollAt ≤ s.time) (hst : (getCh s g).state = 2 ∨ (getCh s g).state = 3) (ha : chanAwake s g = true)
    (hx : engXlat s g (chUid (servingEs s g)) false (fld ((getCh s g).word 3) ChPollAddr.addr * 8) = .ok (z, .mem pa h))
    (hr : readPlace z (.mem pa h) 8 = .ok bs) :
    exec (.doorbellPoll g) s = .next (pollDone z g (some (ofBytes bs))) := by
  refine (exec_doorbellPoll ..).trans (congrArg Host.Outcome.next ((if_neg ?_).trans ?_))
  · rcases hst with hst | hst <;> simp [hp, hd, hn, ht, hst, ha]
  · simp only [hx, hr]

/-- Settles O33, by the commands held and counted, and the doorbell's poll. -/
theorem channelCommandCompletes : Obligations.ChannelCommandCompletes := by
  refine ⟨fun s r g hm => ⟨fun hp => ?_, fun hp => ?_⟩, fun s g hst hf => ?_, fun s r g off wide v hm => ?_,
    fun s z g pa h bs => exec_doorbellPoll_reads⟩
  · simp only [List.mem_cons, List.not_mem_nil, or_false]
    rintro c (rfl | rfl | rfl | rfl | rfl | rfl) <;> exact congrArg Host.Outcome.next (command_held hm hp)
  · have act {cmd : Nat} (h : cmdAllowed cmd (getCh s g).state = true) := (command_acts hm hp).trans (chanAct_allowed h)
    refine ⟨fun ws hst hw hz => ?_, fun hst => ?_, fun hst => ?_, fun hst => ?_, fun hst => ?_, fun hst => ?_⟩
    · exact congrArg Host.Outcome.next ((act (by rcases hst with h | h | h <;> simp [cmdAllowed, h])).trans (refreshChan_loads hw hz))
    · exact congrArg Host.Outcome.next (act (cmd := 2) (by rcases hst with h | h <;> simp [cmdAllowed, h]))
    · exact congrArg Host.Outcome.next (act (cmd := 3) (by simp [cmdAllowed, hst]))
    · exact congrArg Host.Outcome.next (act (cmd := 4) (by rcases hst with h | h | h <;> simp [cmdAllowed, h]))
    · exact congrArg Host.Outcome.next (act (cmd := 5) (by rcases hst with h | h <;> simp [cmdAllowed, h]))
    · exact congrArg Host.Outcome.next (act (cmd := 6) (by rcases hst with h | h | h <;> simp [cmdAllowed, h]))
  · exact congrArg Host.Outcome.next (if_pos ⟨hst, by simpa using hf⟩)
  · exact congrArg Host.Outcome.next (if_pos hm)

/-! ### The start and the end of a descriptor (R361, R370 to R376) -/

theorem running?_eq_some {s : State} {g slot op : Nat} {d : Desc} :
    running? s g slot op = some d ↔
      descAt s g slot = some d ∧ d.op = op ∧ d.status = none ∧ esPasses s (servingEs s g) = true := by
  unfold running?
  cases descAt s g slot with
  | none => simp
  | some e =>
    simp only [Option.ite_none_right_eq_some, Option.some.injEq]
    constructor
    · rintro ⟨h, rfl⟩; exact ⟨rfl, h⟩
    · rintro ⟨rfl, h⟩; exact ⟨h, rfl⟩

section Descriptors
variable {s : State} {g : Fin 8192} {slot : Fin 32768} {d : Desc}

/-- The scheduler starts the next descriptor of the channel it picks, once that has been read (R366, R376). -/
theorem exec_descriptorStart_starts {f : Fin 4} {c : Nat} (hs : serving s (esUid f) = true) (hp : esPasses s f = true) :
    let y := markWanted ((s.chans.map (·.1)).foldl (fun s g => if servingEs s g = f.val then checkDoorbell s g else s) s) f
    let z := if (getCh y c).fetch.isEmpty then fetchNext y c else y
    pickChan y f = some c → (getCh z c).fetch.head? ≠ some .asked → descReady z f c = true →
      exec (.descriptorStart f) s = .next (startDesc (takeTurn z c) f c) := by
  intro y z hc ha hr
  refine congrArg Host.Outcome.next ((if_neg (by simp [hs, hp])).trans ?_)
  simp only [y] at hc
  simp only [hc]
  exact if_neg (not_or.mpr ⟨ha, Bool.eq_false_iff.mp (congrArg not hr)⟩)

/-- The oldest descriptor has ended. -/
theorem completeOne_quiet {c : Nat} {ds : List Desc} {st res : Nat} (hf : (getCh s c).flight = d :: ds)
    (hst : d.status = some (st, res)) (hq : st = 0 ∧ fldB (d.word 0) Desc.quiet = true) :
    completeOne s c = countCompletion s c st false none := by
  simp only [completeOne, hf, hst]
  exact if_pos (by simp [hq])

/-- A resident channel's entry is written, and its interrupt may follow (R370, R371). -/
theorem completeOne_writes {c : Nat} {ds : List Desc} {st res : Nat} {z : State} (hf : (getCh s c).flight = d :: ds)
    (hst : d.status = some (st, res)) (hh : isHostChan c = false) (hq : ¬(st = 0 ∧ fldB (d.word 0) Desc.quiet = true))
    (hn : d.noEntry = false) (hfull : (getCh s c).cplFull = false) (hw : writeEntry s c (cplEntry (getCh s c) d st res) = .ok z) :
    completeOne s c = entryIrq (countCompletion z c st true none) c st (fldB (d.word 0) Desc.irq) := by
  simp only [completeOne, hf, hst]
  refine (if_neg (by simpa using hq)).trans ((if_neg (by simp [hn, hh])).trans ((if_neg (by simp [hfull, hh])).trans ?_))
  simp only [hw]

theorem exec_descriptorComplete_passes (hp : esPasses s (servingEs s g) = true) :
    exec (.descriptorComplete g) s = .next (completeOne s g) :=
  congrArg Host.Outcome.next (if_pos hp)

theorem exec_irqTimeTrigger_due (he : fldB ((getCh s g).word 4) ChIrq.irq_en = true) (ht : fld ((getCh s g).word 4) ChIrq.irq_time ≠ 0)
    (hc : (getCh s g).sinceIrq ≠ 0) (hp : esPasses s (servingEs s g) = true)
    (hd : (getCh s g).firstAt + fld ((getCh s g).word 4) ChIrq.irq_time * 1000 ≤ s.time) :
    exec (.irqTimeTrigger g) s = .next (chanIrq s g) :=
  congrArg Host.Outcome.next (if_pos (by simp [he, ht, hc, hp, hd]))

theorem exec_descFence_met (h : running? s g slot 0x01 = some d) (hw : waitMet s g d = some true)
    (hf : (getCh s g).flight.head? = some d) : exec (.descFence g slot) s = .next (endDesc s g d.slot 0 0) := by
  simp only [exec_descFence, execDescFence, h, hw, hf, beq_self_eq_true, Bool.and_self, if_true]

theorem exec_descWait_met (h : running? s g slot 0x02 = some d) (ht : fldB (d.word 1) ⟨63, 63⟩ = true)
    (hw : waitMet s g d = some true) : exec (.descWait g slot) s = .next (endDesc s g d.slot 0 0) := by
  simp only [exec_descWait, execDescWait, h, ht, hw, Bool.not_true, Bool.false_eq_true, if_false, if_true]

/-- A descriptor past its limit is cut, a FENCE or WAIT with its own status (R375). -/
theorem exec_executionTimeout_due {n : Nat} (hd : descAt s g slot = some d) (hl : descLimit (getCh s g) d = some n)
    (hst : d.status = none) (ht : d.started + n ≤ s.time) (hp : esPasses s (servingEs s g) = true) :
    exec (.executionTimeout g slot) s =
      .next (if d.op = 1 ∨ d.op = 2 then endDesc s g d.slot 0x0105 0 else cutDesc s g d 0x0108) := by
  simp only [exec_executionTimeout, execExecutionTimeout, hd, hl]
  exact congrArg Host.Outcome.next (if_neg (by simp [hst, ht, hp]))

end Descriptors

/-- Settles O34, by the scheduler's start of a descriptor and the oldest one's completion. -/
theorem descriptorCompletes : Obligations.DescriptorCompletes := by
  refine ⟨fun s f g hs hp => exec_descriptorStart_starts hs hp, fun s z g d ds st res hf hst hh hp => ⟨fun hq => ?_, fun hq hn hfull hw => ?_⟩,
    fun s g => exec_irqTimeTrigger_due, fun s g hm ha hpo hp => ?_, fun s g slot d => ⟨fun h => ?_, exec_descFence_met, exec_descWait_met,
      fun n => exec_executionTimeout_due⟩⟩
  · rw [exec_descriptorComplete_passes hp, completeOne_quiet hf hst hq]
  · rw [exec_descriptorComplete_passes hp, completeOne_writes hf hst hh hq hn hfull hw]
  · exact congrArg Host.Outcome.next (if_pos (by simp [hm, ha, hpo, hp]))
  · simp only [exec_descNop, execDescNop, h]

end Sys2Proof.Machine

/-! PROOFS. Move and key engines (chapter 16): messages, moves and mismatches (O37), key operations (O48), and the engines' restarts and
microprograms (O49). -/

namespace Sys2Proof.Machine

/-! ### Messages (R385 to R387) -/

section Messages
variable {s y z : State} {g : Fin 8192} {slot : Fin 32768} {d : Desc}

/-- A message of a stop that runs ends as its attempt does. -/
theorem msgRun_attempts {op : Nat} (hr : running? s g slot op = some d) (hes : esRuns s (servingEs s g) = true) :
    msgRun s g slot op = orEnd g d (msgAttempt s g d) := by
  simp only [msgRun, hr, hes, Bool.not_true, Bool.false_eq_true, if_false]

theorem exec_msg_sends {bs : List Byte} (hes : esRuns s (servingEs s g) = true) (hn : msgLen d ≠ 0)
    (hr : running? s g slot 0x80 = some d) (hl : msgLen d ≤ (queueOf s d.base (msgQueue d)).esize - 16)
    (hw : wraps (d.num 2) (msgLen d) = false)
    (hg : gather s g d (chUid (servingEs s g)) [(d.num 2, msgLen d)] = .ok (y, some bs)) (hm : sendMessage y g d bs = .ok z) :
    exec (.msg g slot) s = .next z := by
  obtain ⟨-, hop, -⟩ := running?_eq_some.mp hr
  refine congrArg Host.Outcome.next ((msgRun_attempts hr hes).trans ?_)
  have ha : msgAttempt s g d = .ok z := by
    refine (if_neg (by simp [hop, hn, hl])).trans ((if_neg (by simp [hop])).trans ((if_neg (by simp [hw])).trans ?_))
    simp only [hg, bind, Except.bind, hm]
  simp only [ha, orEnd]

theorem exec_msgi_sends (hes : esRuns s (servingEs s g) = true) (hn : msgLen d ≠ 0) (hr : running? s g slot 0x81 = some d)
    (hl : msgLen d ≤ 48) (hm : sendMessage s g d ((inlineBytes d).take (msgLen d)) = .ok z) :
    exec (.msgi g slot) s = .next z := by
  obtain ⟨-, hop, -⟩ := running?_eq_some.mp hr
  refine congrArg Host.Outcome.next ((msgRun_attempts hr hes).trans ?_)
  have ha : msgAttempt s g d = .ok z :=
    (if_neg (by simp [hop, hn, hl])).trans ((if_pos hop).trans hm)
  simp only [ha, orEnd]

end Messages

/-! ### Moves (R380 to R384) -/

section Moves
variable {s y w z : State} {g slot u : Nat} {d : Desc} {bs : List Byte}

/-- What an element does with the bytes it has read (R381). -/
def elementActs (s : State) (g : Nat) (d : Desc) (u : Nat) (bs : List Byte) : E State :=
  let e := nextElement d
  let put := scatter s g u (hintOfWord (d.word 6)) e.writes
  match d.op with
  | 0x14 => .ok (elementDone s g d.slot e.len (crcFold (dKind d) (crcNow d) bs))
  | 0x15 => .ok (match firstDiff (bs.take e.len) (bs.drop e.len) 0 with
      | some i => endDesc s g d.slot 0 (d.done + i)
      | none => elementDone s g d.slot e.len 0)
  | 0x13 => (put (fillBytes d (dDst d + d.done) e.len)).map (fun v => elementDone v g d.slot e.len 0)
  | 0x16 => (put bs).map (fun v => elementDone v g d.slot e.len (crcFold (dKind d) (crcNow d) bs))
  | _ => (put bs).map (fun v => elementDone v g d.slot e.len 0)

theorem moveElement_acts (hl : isListOp d.op = true → d.list ≠ []) (hc : moveCheck d = none)
    (hg : gather s g d u (nextElement d).reads = .ok (w, some bs)) : moveElement s g d u = elementActs w g d u bs := by
  unfold moveElement
  rw [if_neg (by simpa using hl)]
  simp only [hc, hg, bind, Except.bind, elementActs, Except.map]
  cases firstDiff (bs.take (nextElement d).len) (bs.drop (nextElement d).len) 0 <;> rfl

theorem moveStep_steps (hd : descAt s g slot = some d) (hst : d.status = none) (hm : isMoveOp d.op = true) (hn : noEngine s g d = false)
    (hu : withUnit s g d = some (y, u)) : moveStep s g slot = orEnd g d (moveElement y g d u) := by
  simp only [moveStep, hd, hst, hm, hn, hu, Option.isSome_none, Bool.not_true, Bool.or_self, Bool.false_eq_true, if_false]

/-- A run stops at a descriptor that has ended. -/
theorem moveGo_ended (h : ∀ e, descAt z g slot = some e → e.status.isSome = true) : ∀ n, moveGo n z g slot = z
  | 0 => rfl
  | n + 1 => by
    cases hd : descAt z g slot with
    | none => simp only [moveGo, hd]
    | some e => simp only [moveGo, hd, h e hd, Bool.true_or, if_true]

/-- A move whose next element is its last runs it and has ended. -/
theorem moveRun_last {op : Nat} (hr : running? s g slot op = some d) (hm : isMoveOp op = true) (hw : ¬(d.stage = 1 ∧ d.waits ≠ 0))
    (hn : noEngine s g d = false) (hu : withUnit s g d = some (y, u)) (ha : moveElement y g d u = .ok z)
    (hz : ∀ e, descAt z g slot = some e → e.status.isSome = true) : moveRun s g slot op = z := by
  obtain ⟨hd, hop, hst, -⟩ := running?_eq_some.mp hr
  have hstep : moveStep s g slot = z := by
    rw [moveStep_steps hd hst (hop ▸ hm) hn hu, ha, orEnd]
  have hgo (n : Nat) : moveGo (n + 1) s g slot = z := by
    simp only [moveGo, hd]
    rw [if_neg (by simpa [hst] using hw), hstep, moveGo_ended hz]
  simp only [moveRun, hr]
  exact hgo _

end Moves

/-- Settles O37, by the message's attempt and the element's act. -/
theorem messageAndMoveCompletes : Obligations.MessageAndMoveCompletes := by
  refine ⟨fun s g slot d => ⟨fun y z bs hes hn => ⟨exec_msg_sends hes hn, exec_msgi_sends hes hn⟩,
      fun y w z u bs c hc hr hw hn hu hl hk hg hz hend => ?_, fun y u hd hst hm hn hu => ?_⟩,
    fun s f q e g slot d hq hd hc => ?_, fun s r f q v hr hb he => ?_, fun s f key k g d hd => ?_⟩
  · have acts := moveElement_acts hl hk hg
    obtain ⟨-, hop, -⟩ := running?_eq_some.mp hr
    simp only [List.mem_cons, List.not_mem_nil, or_false] at hc
    rcases hc with rfl | rfl | rfl | rfl | rfl | rfl | rfl <;>
      exact congrArg Host.Outcome.next (moveRun_last hr rfl hw hn hu (acts.trans (by simp only [elementActs, hop]; exact hz)) hend)
  · exact congrArg Host.Outcome.next (moveStep_steps hd hst hm hn hu)
  · simp only [exec_queueHeadRecheck, execQueueHeadRecheck, hq, hd, hc, if_true]
  · exact congrArg Host.Outcome.next (if_pos (by simp [hr, hb, he]))
  · simp only [exec_engineMismatch, execEngineMismatch, hd]

/-! ### Key operations (R388 to R392) -/

section KeyOperations
variable {s y z : State} {g slot u : Nat} {d : Desc} {k : List Byte × List Byte} {bs : List Byte}

theorem keyRun_attempts {op : Nat} (hr : running? s g slot op = some d) (hn : noEngine s g d = false)
    (hu : withUnit s g d = some (y, u)) : keyRun s g slot op = keyAttempt y g d u := by
  simp only [keyRun, hr, hn, hu, Bool.false_eq_true, if_false]

/-- What the read of an operation's inputs leads to: the end with its status, the wait for the host, or the computation (R391). -/
def inputsRead (g : Nat) (d : Desc) : E (State × Option (List Byte)) → State
  | .error (st, s) => updDesc s g d.slot (fun d => { d with stage := 3, waits := 0, result := st, verdict := 0, outs := [] })
  | .ok (s, none) => s
  | .ok (s, some bs) => keyCompute s g d (bs.take (kSrcLen d)) (bs.drop (kSrcLen d))

/-- An operation that begins, its operands and slots good, reads its inputs. -/
theorem keyAttempt_begins (hst : d.stage = 0) (hb : keyBefore d = none) (hk : slotKeys y g d = some k) :
    keyAttempt y g d u = inputsRead g { d with keys := some k } (gather (updDesc (keepOpen y g d) g d.slot
      (fun x => { x with keys := some k })) g { d with keys := some k } u
        ([(d.num 1, kSrcLen d)] ++ (if kOpen d ∧ d.op ≠ 0x68 then [(d.num 5, openLen d)] else []))) := by
  unfold keyAttempt
  rw [if_neg (by simp [hst])]
  simp only [if_pos hst, hb, hk]
  rfl

/-- Inputs that pass give result 0, the verdict, and the outputs held until the end (R391, R392). -/
theorem keyCompute_passes {d : Desc} {src opened : List Byte} (hk : d.keys = some k) :
    let key := if kOpen d then opened else k.1
    publicBad d key src true = false → keyRefused d key src = false →
      let ok := Config.keyVerdict d.op (kVar d) (kAux d) key src
      let out := keyOutput z d ((outLen d).getD 0) key k.2 src
      keyCompute z g d src opened = updDesc
        (if drawsRandom d.op then { z with vault := { z.vault with drbg := z.vault.drbg + 1 } } else z) g d.slot (fun x => { x with
          stage := 3
          waits := 0
          result := 0
          verdict := ofBool (verifies d && ok)
          outs := if d.op = 0x43 ∧ kDec d ∧ !ok then List.replicate ((outLen d).getD 0) 0 else out }) := by
  intro key hp hr
  simp only [keyCompute, hk, Option.isSome_some, Option.getD_some]
  exact (if_neg (Bool.eq_false_iff.mp hp)).trans (if_neg (Bool.eq_false_iff.mp hr))

/-- An operation whose result is good writes its outputs and completes. -/
theorem keyEnd_writes (hr : d.result = 0) (he : d.endAs = none)
    (hw : scatter y g u none [(d.num 2, d.outs.length)] d.outs = .ok z) :
    keyEnd y g d u = endDesc z g d.slot 0 (d.outs.length + d.verdict * 0x100000000) := by
  simp only [keyEnd, hr, he, hw, Option.getD_none, Option.isSome_none, Bool.false_eq_true, false_and, ne_eq, not_true, or_self, if_false]

end KeyOperations

/-- Settles O48, by the computation on inputs that pass, and the end that writes it. -/
theorem keyOperationCompletes : Obligations.KeyOperationCompletes := by
  refine ⟨fun s y z g slot d u k bs c hc hr hn hu hst hb hk hg hp hrf => ?_,
    fun s y z g slot d u hd hst hop hsg hu hr he hw => ?_⟩
  · have computes := ((keyRun_attempts hr hn hu).trans (keyAttempt_begins hst hb hk)).trans
      ((congrArg (inputsRead g { d with keys := some k }) hg).trans (keyCompute_passes rfl hp hrf))
    simp only [List.mem_cons, List.not_mem_nil, or_false] at hc
    rcases hc with rfl | rfl | rfl | rfl | rfl | rfl | rfl | rfl | rfl | rfl | rfl | rfl | rfl | rfl | rfl | rfl | rfl | rfl |
      rfl | rfl | rfl | rfl | rfl <;> exact congrArg Host.Outcome.next computes
  · simp only [exec_keyOperationEnd, execKeyOperationEnd, hd, hst, hop, hsg, hu, Option.isSome_none, Bool.not_true, Bool.or_self,
      ne_eq, not_true, decide_false, Bool.false_eq_true, if_false, keyEnd_writes hr he hw]

/-! ### Engine restarts and microprograms (R394 to R396, R484) -/

section Restarts
variable {s : State} {f : Fin 4} {key : Bool} {k : Fin 2}

/-- A failed engine restarts, once. -/
theorem exec_engineRestart_restarts (hb : bcUp s = true) (hst : stateOf s (engUid f key k) = usFailed)
    (hc : s.getF (rUnitState (engUid f key k)) UnitState.cause = 0x04) (hs : serving s (esUid f) = true)
    (hn : s.mgmt.engRestart.contains (engUid f key k) = false) :
    exec (.engineRestart f key k none) s = .next (setUnit (setUnit { s with mgmt := { s.mgmt with
      engRestart := s.mgmt.engRestart ++ [engUid f key k] } } (engUid f key k) usOff 0x01) (engUid f key k) usStarting 0x01) :=
  congrArg Host.Outcome.next ((if_neg (by simp [hb, hst, hc, hs])).trans (if_neg (Bool.eq_false_iff.mp hn)))

/-- A restarted engine's self test ends in service or in withdrawal. -/
theorem exec_engineRestart_tested {ok : Bool} (hst : stateOf s (engUid f key k) = usStarting)
    (hc : s.mgmt.engRestart.contains (engUid f key k) = true) :
    exec (.engineRestart f key k (some ok)) s = .next (
      if ok && holdersUp s (engUid f key k) then setUnit s (engUid f key k) usInService 0x02
      else addWithdrawn (setUnit (setUnit s (engUid f key k) usFailed 0x06) (engUid f key k) usWithdrawn 0x01) (engUid f key k)) :=
  congrArg Host.Outcome.next (if_neg (by rw [hc, hst]; decide))

/-- A commit alone, of a length the store holds, starts the check. -/
theorem writeUcodeCtrl_commits {u : Nat} {v : Word} (hc : fldB v KeUcodeCtrl.commit = true) (hd : fldB v KeUcodeCtrl.discard = false)
    (h0 : fld v KeUcodeCtrl.len_words ≠ 0) (hl : fld v KeUcodeCtrl.len_words ≤ 8192) :
    writeUcodeCtrl s u v = updU (s.putR (rKeUcodeCtrl u) (v &&& 0xFFFFFFFF3FFF0004)) u (fun x => { x with check := true }) := by
  simp only [writeUcodeCtrl, hc, hd, Bool.not_true, Bool.false_eq_true, if_false, h0, Nat.not_lt.mpr hl, or_self]

theorem writeUcodeCtrl_discards {u : Nat} {v : Word} (hd : fldB v KeUcodeCtrl.discard = true) (hc : fldB v KeUcodeCtrl.commit = false) :
    writeUcodeCtrl s u v = ucodeDiscard (s.putR (rKeUcodeCtrl u) (v &&& 0xFFFFFFFF3FFF0004)) u := by
  simp only [writeUcodeCtrl, hc, hd, Bool.not_false, if_true]

/-! The application of a program leaves the control word, and so the version it names, as it is. -/

theorem takeProgram_getR_ctrl (t : State) (u e n : Nat) (ws : List Word) :
    (takeProgram t e n ws).getR (rKeUcodeCtrl u) = t.getR (rKeUcodeCtrl u) :=
  (getR_putR_other _ _ (by unfold rKeUcodeCtrl rKeUcodeStatus; omega)).trans (getR_congr rfl _)

theorem ucodeDiscard_getR_ctrl (t : State) (u : Nat) : (ucodeDiscard t u).getR (rKeUcodeCtrl u) = t.getR (rKeUcodeCtrl u) :=
  (getR_putR_other _ _ (by unfold rKeUcodeCtrl rKeUcodeStatus; omega)).trans (getR_congr rfl _)

theorem measExtend_getR_ctrl (t : State) (u event : Nat) (digest : List Byte) :
    (measExtend t 4 event digest).getR (rKeUcodeCtrl u) = t.getR (rKeUcodeCtrl u) := by
  refine (getR_congr rfl _).trans ((List.range 6).foldlRecOn _ (motive := fun (z : State) => z.getR (rKeUcodeCtrl u) = t.getR (rKeUcodeCtrl u))
    rfl fun z hz w hw => ?_)
  have := List.mem_range.mp hw
  exact (getR_putR_other _ _ (by unfold rKeUcodeCtrl rVltMeas; omega)).trans hz

/-- A value that no step changes may be read before all of them. -/
theorem foldl_read_first {α β : Type} {f : State → α → β → State} {r : State → β} (hf : ∀ t a b, r (f t a b) = r t) (l : List α)
    (t : State) : l.foldl (fun t a => f t a (r t)) t = l.foldl (fun z a => f z a (r t)) t := by
  induction l generalizing t with
  | nil => rfl
  | cons a l ih => simp only [List.foldl_cons, ih, hf]

/-- A program is applied once its engines are idle (R396). -/
theorem exec_ucodeApply_applies {ws : List Word} :
    let u := engUid f true k
    let us := if s.getB (rKeUcodeCtrl u) KeUcodeCtrl.apply_both then [engUid f true 0, engUid f true 1] else [u]
    (getU s u).pending = some ws → us.any (engBusy s) = false →
      exec (.ucodeApply f k) s = .next (us.foldl (fun t e => measExtend (takeProgram t e
        (t.getF (rKeUcodeCtrl u) KeUcodeCtrl.version) ws) 4 4 (Config.sha384 (wordsBytes ws))) (ucodeDiscard s u)) := by
  intro u us hp hb
  have hversion : (ucodeDiscard s u).getF (rKeUcodeCtrl u) KeUcodeCtrl.version = s.getF (rKeUcodeCtrl u) KeUcodeCtrl.version := by
    simp only [State.getF, ucodeDiscard_getR_ctrl]
  rw [foldl_read_first (f := fun t e n => measExtend (takeProgram t e n ws) 4 4 (Config.sha384 (wordsBytes ws)))
    (r := fun t => t.getF (rKeUcodeCtrl u) KeUcodeCtrl.version)
    (fun t e n => by simp only [State.getF, measExtend_getR_ctrl, takeProgram_getR_ctrl]), hversion]
  simp only [us, u] at hb
  simp only [exec_ucodeApply, execUcodeApply, u, us, hp, hb, Bool.false_eq_true, if_false]

end Restarts

/-- Settles O49, by the writes of the control word and the ends of restart, check and application. -/
theorem engineProgramCompletes : Obligations.EngineProgramCompletes := by
  refine ⟨fun s f key k => ⟨exec_engineRestart_restarts, fun hst hc => ⟨fun hu => ?_, ?_⟩⟩,
    fun s r f k hm => ⟨fun w v hp => ?_, fun v hc hd h0 hl => ?_, fun v hd hc => ?_⟩, fun s f k hc => ?_, fun s f k ws => exec_ucodeApply_applies⟩
  · exact (exec_engineRestart_tested hst hc).trans (congrArg Host.Outcome.next (if_pos hu))
  · exact (exec_engineRestart_tested hst hc).trans (congrArg Host.Outcome.next (if_neg Bool.false_ne_true))
  · exact congrArg Host.Outcome.next ((if_pos hm).trans (if_neg (by simp [hp])))
  · exact congrArg Host.Outcome.next ((if_pos (by simp [hm, hc])).trans (writeUcodeCtrl_commits hc hd h0 hl))
  · exact congrArg Host.Outcome.next ((if_pos (by simp [hm, hd])).trans (writeUcodeCtrl_discards hd hc))
  · exact congrArg Host.Outcome.next (if_neg (by simp [hc]))

end Sys2Proof.Machine

/-! PROOFS. Host instances (chapter 17): mailboxes, the manager's commands, the floors' window and the write log (O36). -/

namespace Sys2Proof.Machine

@[simp] theorem getP_putF (s : State) (a : Nat) (f : Fld) (n p : Nat) : getP (s.putF a f n) p = getP s p :=
  congrArg (mget Port.init · p) (State.putF_ports ..)

/-! ### Mailboxes (R402 to R404) -/

section Mailboxes
variable {s : State} {p : Fin 16} {i : Fin 64} {r : Requester}

theorem exec_mbxSend_sends (hw : instWrites s p i = true) (hf : s.getB (rHpMbxCtrl p i) HpMbxCtrl.out_full = false)
    (hi : i = 0 → mgrRes s p = true) :
    exec (.mbxSend p i) s = .next (
      let y := copyBuffer s (bar0Base p i + 0x1000) (winBase p i)
      let y := (y.putB (rHpMbxCtrl p i) HpMbxCtrl.out_full true).putB (rHpMbxMgrCtrl (portUid p) i) HpMbxMgrCtrl.in_full true
      mgrNotify (instCount (y.putF (rHpMbxPend (portUid p)) ⟨i, i⟩ 1) p i 5 1) p) := by
  have hsends : ¬(s.getB (rHpMbxCtrl p i) HpMbxCtrl.out_full || (i.val == 0 && !mgrRes s p)) = true := by
    simpa [hf] using fun h => hi (Fin.ext h)
  exact congrArg Host.Outcome.next ((if_pos hw).trans (if_neg hsends))

theorem exec_mbxAck_acks (hw : instWrites s p i = true) (hf : s.getB (rHpMbxCtrl p i) HpMbxCtrl.in_full = true) :
    exec (.mbxAck p i) s = .next (mgrNotify ((s.putB (rHpMbxCtrl p i) HpMbxCtrl.in_full false).putB
      (rHpMbxMgrCtrl (portUid p) i) HpMbxMgrCtrl.out_full false) p) :=
  congrArg Host.Outcome.next ((if_pos hw).trans (if_neg (by simp [hf])))

theorem exec_mgrSend_sends (hm : isManager s r p i = true) (hf : s.getB (rHpMbxMgrCtrl (portUid p) i) HpMbxMgrCtrl.out_full = false) :
    exec (.mgrSend r p i) s = .next (
      let y := copyBuffer s (winBase p i + 0x40) (bar0Base p i + 0x1040)
      instNotify (instCount ((y.putB (rHpMbxMgrCtrl (portUid p) i) HpMbxMgrCtrl.out_full true).putB (rHpMbxCtrl p i)
        HpMbxCtrl.in_full true) p i 5 1) p i) :=
  congrArg Host.Outcome.next ((if_pos hm).trans (if_neg (Bool.eq_false_iff.mp hf)))

theorem exec_mgrAck_acks (hm : isManager s r p i = true) (hf : s.getB (rHpMbxMgrCtrl (portUid p) i) HpMbxMgrCtrl.in_full = true) :
    exec (.mgrAck r p i) s = .next (instNotify (((s.putB (rHpMbxMgrCtrl (portUid p) i) HpMbxMgrCtrl.in_full false).putB
      (rHpMbxCtrl p i) HpMbxCtrl.out_full false).putF (rHpMbxPend (portUid p)) ⟨i, i⟩ 0) p i) :=
  congrArg Host.Outcome.next ((if_pos hm).trans (if_neg (by simp [hf])))

end Mailboxes

/-! ### Commands of the manager (R405 to R413) -/

section Commands
variable {s : State} {r : Requester} {p : Fin 16} {i : Fin 64} {cmd : Nat} {d : BitVec 2}

/-- A command that R405 allows in the present state is carried out on the state that holds its drain mode. -/
theorem instOrder_does (hm : isManager s r p i = true) (hi : i.val < (getP s p).share) (hb : mget false (getP s p).busy i = false) :
    let y := s.putF (rHpInstMgmt (portUid p) i) HpInstMgmt.drain d.toNat
    cmdReason cmd (instState y p i) d.toNat = none → instOrder s r p i cmd d = instDo y p i cmd d.toNat := by
  intro y hc
  have hby : mget false (getP y p).busy i = false := by rw [getP_putF, hb]
  simp only [y] at hc hby
  simp only [instOrder, hm, hi, decide_true, Bool.and_self, if_true, instCommand, hby, Bool.false_eq_true, if_false, hc, y]

theorem saveInst_saves {z : State} (hz : mgrWrite s p (imgAddr s p i) (saveImage s p i) = some z) : saveInst s p i = z := by
  simp only [saveInst, hz]

/-- An image in the manager's memory that can be read and fits the port's shares is loaded (R413). -/
theorem restoreInst_loads :
    let a := imgAddr s p i
    let n := 4096 + 256 * imgChans (readBytes s a 4096)
    let b := readBytes s a n
    mgrRes s p = true →
    (∀ m, m = 4096 ∨ m = n → (linesOf a m).all (fun l => physClass s (l * 64) == .dram && admits s .normal false (l * 64) &&
      !poisoned s (l * 64)) = true) →
    imageOkay b = true → imgNum b 0x10 4 = 256 / (getP s p).share → imgNum b 0x14 2 = vecCount (getP s p) →
      restoreInst s p i = loadImage (setInstState s p i 2) p i b := by
  intro a n b hm hr hok hn hv
  have h1 := hr 4096 (.inl rfl)
  have h2 := hr n (.inr rfl)
  simp only [a, n, b] at h1 h2 hok hn hv
  simp only [restoreInst, hm, h1, h2, restoreWith, hok, hn, hv, Bool.not_true, Bool.false_eq_true, if_true, if_false, ne_eq,
    not_true, or_self, a, n, b]

end Commands

/-! ### The write log (R410) -/

/-- A page not in the filter enters a log that has room. -/
theorem logPage_enters {s : State} {p i page : Nat} :
    let b := s.getR (rHpWlogBase (portUid p) i)
    let w := s.getR (rHpWlogPtr (portUid p) i)
    let tail := fld w HpWlogPtr.tail
    let e := toBytes 8 (page * 4096 + ofBool (getI s p i).wphase)
    let at_ := fld b HpWlogBase.base * 4096 + 8 * tail
    fldB b HpWlogBase.en = true → (getI s p i).filter.contains page = false → fldB w HpWlogPtr.overflow = false →
    (tail + 1) % 2 ^ fld b HpWlogBase.log2 ≠ fld w HpWlogPtr.head →
      logPage s p i page = updI ((logEntry s p at_ e).putR (rHpWlogPtr (portUid p) i)
        (setFld w HpWlogPtr.tail ((tail + 1) % 2 ^ fld b HpWlogBase.log2))) p i (fun x => { x with
          filter := (page :: x.filter).take 64, wphase := if tail + 1 = 2 ^ fld b HpWlogBase.log2 then !x.wphase else x.wphase }) := by
  intro b w tail e at_ hen hfil hov hroom
  refine (if_neg ?_).trans (if_neg hroom)
  simp only [b, w] at hen hov
  simp only [hen, hfil, hov, Bool.not_true, Bool.or_self, Bool.false_eq_true, not_false_iff]

/-- An entry goes to the manager's memory, where that admits it (R403). -/
theorem logEntry_written {s : State} {p at_ : Nat} {e : List Byte}
    (h : mgrRes s p = true → physClass s at_ = .dram ∧ admits s .normal true at_ = true) :
    logEntry s p at_ e = if mgrRes s p then homeWrite s at_ e else writeHost s p at_ e := by
  unfold logEntry
  split
  · next hm => exact if_pos (by simp [h hm])
  · rfl

/-! ### The floors' window (R400) -/

theorem exec_floorWindow_ends {s : State} {p : Fin 16} (ht : (getP s p).winAt + 100000 ≤ s.time) :
    ∃ z, exec (.floorWindow p) s = .next z ∧ (getP z p).winAt = s.time := by
  refine ⟨_, congrArg Host.Outcome.next (if_neg (Nat.not_lt.mpr ht)), ?_⟩
  simp only [updP, getP_putP_same]
  refine (List.range (getP s p).share).foldlRecOn _ (motive := fun (z : State) => z.time = s.time) rfl fun z hz i _ => ?_
  simp only [updI, updP, putP_time]
  split <;> simp [instCount, hz]

/-- Settles O36, by the mailboxes, the commands R405 allows, and the write log. -/
theorem instanceCompletes : Obligations.InstanceCompletes := by
  refine ⟨fun s p i hw => ⟨exec_mbxSend_sends hw, exec_mbxAck_acks hw⟩,
    fun s r p i v hm => ⟨exec_mgrSend_sends hm, exec_mgrAck_acks hm, congrArg Host.Outcome.next (if_pos hm)⟩,
    fun s r p i d hm hi hb => ?_, fun s p i hq => ⟨fun hst => ?_, fun hst => ?_⟩,
    fun s p i page hen hfil hov hroom hmem => ?_, fun s p => exec_floorWindow_ends⟩
  · have does {cmd : Nat} := instOrder_does (cmd := cmd) (d := d) hm hi hb
    refine ⟨fun hst => ?_, fun hst => ?_, fun hst => ?_, fun z hst hz => ?_, fun hst h6 hres hr hok hn hv => ?_, fun hst => ?_⟩
    · exact congrArg Host.Outcome.next ((does (cmd := 1) (by simp [cmdReason, hst])).trans (by simp only [instDo, hst, if_true]))
    · exact congrArg Host.Outcome.next (does (cmd := 2) (by simp [cmdReason, hst]))
    · exact congrArg Host.Outcome.next (does (cmd := 3) (by simp [cmdReason, hst]))
    · rw [exec_save, execSave, does (cmd := 4) (by simp [cmdReason, hst]), instDo, saveInst_saves hz]
    · rw [exec_restore, execRestore, if_neg h6, does (cmd := 5) (by simp [cmdReason, hst]), instDo,
        restoreInst_loads hres hr hok hn hv]
    · exact congrArg Host.Outcome.next (does (cmd := 6) (by simp [cmdReason, hst]))
  · exact congrArg Host.Outcome.next (if_pos ⟨hst, hq⟩)
  · simp only [exec_freezeDone, execFreezeDone, hst, hq, and_self, if_true, State.putB_time]
  · rw [exec_writeLogEntry, execWriteLogEntry, logPage_enters hen hfil hov hroom, logEntry_written hmem]

end Sys2Proof.Machine

/-! PROOFS. The network bridge (chapter 18): the forwarding table (O50), external ports (O51), and virtual ports (O52). -/

namespace Sys2Proof.Machine

/-! ### The forwarding table (R422 to R425) -/

section Table
variable {s : State} {r : Requester} {v : Word}

/-- An address that is not there is learned while the table has room (R422, R424). -/
theorem exec_learn_enters {key port : Nat} {rest : List (Nat × Nat)} (hl : s.bridge.learns = (key, port) :: rest)
    (hm : masterUp s = true) (hf : mfind s.bridge.fdb key = none) (hn : s.bridge.fdb.length < 262144) :
    exec .learn s = .next (fdbSet { s with bridge := { s.bridge with learns := rest } } false key
      (some ⟨port, false, s.time, 0, 0, false⟩)) := by
  have hup : masterUp { s with bridge := { s.bridge with learns := rest } } = true := hm
  simp only [exec_learn, execLearn, hl, hup, if_true, learnKey, hf, hn]

/-- A replica applies its oldest change, and the command in flight ends with the last one's (R424). -/
theorem exec_fdbChange_applies {io : Fin 8} {c : FdbChange} {rest : List FdbChange}
    (h : mget [] s.bridge.changes io.val = c :: rest) :
    let t := mget [] s.bridge.replicas io.val
    let y := { s with bridge := { s.bridge with
      replicas := mput [] s.bridge.replicas io.val (match c.ent with
        | some e => mins t c.key e
        | none => mdel t c.key)
      changes := mput [] s.bridge.changes io.val rest } }
    exec (.fdbChange io) s = .next (if y.bridge.changes.any (fun e => e.2.any (fun c => c.op)) then y
      else y.putB rNetFdbCmd NetFdbCmd.busy false) := by
  rcases c with ⟨key, _ | e, op⟩ <;> simp only [exec_fdbChange, execFdbChange, h]

theorem exec_fdbAging_leaves {vid : BitVec 12} {mac : BitVec 48} {e : FdbEnt}
    (he : mfind s.bridge.fdb (fdbKey vid.toNat mac.toNat) = some e) (hm : masterUp s = true) (hs : e.static = false)
    (ha : s.getF rNetBrCfg NetBrCfg.age_s ≠ 0) (ht : e.last + s.getF rNetBrCfg NetBrCfg.age_s * 1000000000 ≤ s.time) :
    exec (.fdbAging vid mac) s = .next (fdbSet s false (fdbKey vid.toNat mac.toNat) none) := by
  have hage : (s.getF rNetBrCfg NetBrCfg.age_s == 0) = false := beq_false_of_ne ha
  simp only [exec_fdbAging, execFdbAging, he, hm, hs, hage, Nat.not_lt.mpr ht, decide_false, Bool.not_true, Bool.or_self,
    Bool.false_eq_true, if_false]

end Table

/-- Settles O50, by the learning, the replicas' changes, aging and the five commands. -/
theorem forwardingTableCompletes : Obligations.ForwardingTableCompletes := by
  refine ⟨fun s key port rest => exec_learn_enters, fun s io c rest => exec_fdbChange_applies, fun s vid mac e => exec_fdbAging_leaves,
    fun s r v hm hr hb => ?_, fun s hl hst => ?_⟩
  · have taken (op : Nat) : fdbCommand s r op v = fdbOp s op v := if_pos hm
    refine ⟨fun hn => ?_, fun e he => ⟨?_, ?_⟩, ?_, ?_⟩
    · simp only [exec_fdbAddStatic, execFdbAddStatic, taken, fdbOp, hr, hb, Nat.not_le.mpr hn, Bool.false_eq_true, if_false, one_ne_zero]
    · simp only [exec_fdbDelete, execFdbDelete, taken, fdbOp, hr, hb, he, Bool.false_eq_true, if_false, OfNat.ofNat_ne_zero]
    · simp only [exec_fdbUnlock, execFdbUnlock, taken, fdbOp, hr, hb, he, Bool.false_eq_true, if_false, OfNat.ofNat_ne_zero]
    · simp only [exec_fdbFlushPort, execFdbFlushPort, taken, fdbOp, hr, hb, Bool.false_eq_true, if_false, OfNat.ofNat_ne_zero]
    · simp only [exec_vlanReload, execVlanReload, taken, fdbOp, hr, hb, Bool.false_eq_true, if_false, OfNat.ofNat_ne_zero]
  · exact congrArg Host.Outcome.next (if_pos (by simp [hl, hst]))

/-! ### External ports (R417 to R421, R426, R431) -/

section Ports
variable {s : State} {b : Fin 64}

/-- What a port that is up does with a good frame. -/
theorem exec_frameReceive_data {bytes : List Byte} (hu : portUp s b = true) (hlo : 64 ≤ bytes.length) (hhi : bytes.length ≤ 9216) :
    exec (.frameReceive b (.data bytes) true) s =
      .next (receive (netCount (netCount s b 0 1) b 1 bytes.length) b (bytes.take (bytes.length - 4))) := by
  simp only [exec_frameReceive, execFrameReceive, hu, Bool.not_true, Bool.false_eq_true, if_false, Nat.not_lt.mpr hlo,
    Nat.not_lt.mpr hhi, or_self]

theorem exec_frameReceive_pause {ns : Nat} (hu : portUp s b = true) (hen : portCfg (netCount s b 8 1) b NetPortCfg.pause_en = 1)
    (hpfc : portCfg (netCount s b 8 1) b NetPortCfg.pfc_mask = 0) :
    exec (.frameReceive b (.pause ns) true) s =
      .next ((List.range 8).foldl (fun s i => pauseQueue s b i ns) (netCount s b 8 1)) := by
  simp only [exec_frameReceive, execFrameReceive, hu, hen, hpfc, Bool.not_true, Bool.false_eq_true, if_false, beq_self_eq_true,
    Bool.and_self, if_true]

theorem exec_frameTransmit_sends {f : Frame} (hu : portUp s b = true)
    (hf : nextFrame s b (fun i => (mfind (getNet s b).stopped i).isNone) = some f) :
    let bs := f.out (vlanUntagged s f.vid b)
    exec (.frameTransmit b) s = .next (netCount (netCount (updNet (unqueue s f b) b
      (fun x => { x with sent := bs :: x.sent })) b 2 1) b 3 (bs.length + 4)) := by
  simp only [exec_frameTransmit, execFrameTransmit, hu, hf, Bool.not_true, Bool.false_eq_true, if_false]

/-- A window's counts go to their registers and restart (R419). -/
theorem exec_statisticsWindow_latches {l : Nat} (hl : netLane s b = some l) :
    let n := 10 ^ min 6 (portCfg s b NetPortCfg.win) * 1000
    ((getNet s b).boundary / n + 1) * n ≤ s.time →
      let r (k : Nat) : Nat := rNetPortCount (octUid (l / 8)) (l % 8) k
      let y := (List.range 9).foldl (fun s' k => s'.putR (r k) (BitVec.ofNat 64 ((getNet s b).counts.getD k 0))) s
      exec (.statisticsWindow b) s = .next (updNet (y.putR (r 9) (y.getR (r 9) + 1)) b (fun x => { x with
        counts := [], boundary := y.time })) := by
  intro n ht r y
  simp only [n] at ht
  simp only [exec_statisticsWindow, execStatisticsWindow, hl, if_neg (Nat.not_lt.mpr ht), State.putR_time, r, y]

/-- A port that was up falls, and holds or ends its hold at once (R431). -/
theorem netDown_falls {b : Nat} (h : portStat s b NetPortStatus.link_up ≠ 0) :
    let y := setPortStat s b NetPortStatus.link_up 0
    let z := setPortStat y b NetPortStatus.link_downs (min 255 (portStat y b NetPortStatus.link_downs + 1))
    let ms := min 100 (portCfg z b NetPortCfg.down_hold_ms)
    netDown s b = if ms = 0 then holdEnds z b
      else updNet (setPortStat z b NetPortStatus.holding 1) b (fun x => { x with holdAt := z.time + ms * 1000000 }) :=
  if_neg h

end Ports

/-- Settles O51, by the frames received and sent, the windows and the holds. -/
theorem bridgePortCompletes : Obligations.BridgePortCompletes := by
  refine ⟨fun s b hu => ⟨fun x => ?_, fun bytes => exec_frameReceive_data hu, fun ns => exec_frameReceive_pause hu, fun times => ?_,
      fun f => exec_frameTransmit_sends hu⟩, fun s b prio hx hn hb => ?_, fun s b prio n hn ht => ?_,
    fun s b l => exec_statisticsWindow_latches, fun s b h => congrArg Host.Outcome.next (netDown_falls h),
    fun s b he hb => ?_, fun s b hh ht => ?_⟩
  · exact congrArg Host.Outcome.next ((if_neg (by simp [hu])).trans (if_pos rfl))
  · exact congrArg Host.Outcome.next ((if_neg (by simp [hu])).trans (if_neg Bool.false_ne_true))
  · exact congrArg Host.Outcome.next (if_pos (by rw [hx, hb, decide_eq_true hn]; rfl))
  · simp only [exec_pauseExpiry, execPauseExpiry, hn, ht, if_true]
  · exact congrArg Host.Outcome.next (if_pos ⟨he, hb⟩)
  · simp only [exec_downHoldExpiry, execDownHoldExpiry, hh, ht, decide_true, Bool.and_self, if_true]

/-! ### Virtual ports (R427 to R430) -/

section Sending
variable {s z : State} {g : Fin 8192} {slot : Fin 32768} {d : Desc} {v : Nat} {vs : List Nat} {bs : List Byte}

theorem txPort_bound (hv : vportsOf s g false = v :: vs) : txPort s g = .ok v := by
  unfold txPort
  rw [hv]

/-- A send in flight on the transmit channel of a virtual port, its stop running, ends as its step does. -/
theorem txRun_steps {op : Nat} {f : State → Desc → Nat → Nat → E State} (hv : vportsOf s g false = v :: vs)
    (hes : esRuns s (servingEs s g) = true) (hr : running? s g slot op = some d)
    (hf : f s d (chUid (servingEs s g)) v = .ok z) : txRun s g slot op f = z := by
  simp only [txRun, hr, txPort_bound hv, hes, if_true, hf, orEnd]

theorem txFrame_sends {u : Nat} {rs : List (Nat × Nat)} (hg : gather s g d u rs = .ok (z, some bs)) :
    txFrame s g d u v rs = .ok (sendFrame z g d v bs) := by
  simp only [txFrame, hg, bind, Except.bind]

theorem txStep_sends {u : Nat} (hl : txLength (fld (d.word 3) ⟨13, 0⟩) = true) (hw : wraps (d.num 1) (fld (d.word 3) ⟨13, 0⟩) = false)
    (hg : gather s g d u [(d.num 1, fld (d.word 3) ⟨13, 0⟩)] = .ok (z, some bs)) :
    txStep s g d u v = .ok (sendFrame z g d v bs) :=
  (if_neg (by simp [hl])).trans ((if_neg (by simp [hw])).trans (txFrame_sends hg))

/-- TXSG keeps a list of good pieces for its frame (R382, R428). -/
theorem txsgStep_lists {u : Nat} (hd : d.list = []) (h1 : 1 ≤ dEntries d) (h8 : dEntries d ≤ 8)
    (hw : wraps (d.num 1) (16 * dEntries d) = false) (hg : gather s g d u [(d.num 1, 16 * dEntries d)] = .ok (z, some bs)) :
    let es := listEntries bs (dEntries d)
    es.all entryGood = true → es.any (fun e => wraps e.1 e.2.1) = false →
    txLength ((es.map (fun e => e.2.1)).foldl (· + ·) 0) = true →
      txsgStep s g d u v = .ok (updDesc z g d.slot (fun d => { d with list := es.map (fun e => (e.1, e.2.1)), stage := 0 })) := by
  intro es hgood hnw hlen
  refine (if_pos (by simp [hd])).trans ((if_neg (by omega)).trans ((if_neg (by simp [hw])).trans ?_))
  simp only [es] at hgood hnw hlen
  simp only [hg, bind, Except.bind, hgood, hnw, hlen, Bool.not_true, Bool.false_eq_true, if_false, es]

theorem txsgStep_sends {u : Nat} (hd : d.list ≠ []) (hg : gather s g d u d.list = .ok (z, some bs)) :
    txsgStep s g d u v = .ok (sendFrame z g d v bs) :=
  (if_neg (by simp [hd])).trans (txFrame_sends hg)

end Sending

/-- A held frame goes into the free buffers where enough are free (R429, R430). -/
theorem exec_frameDeliver_delivers {s : State} {v : Fin 960} {f : Frame} :
    let b := 64 + v.val
    let g := vpF s v NetVport0.rx_chan
    let bs := f.out (vlanUntagged s f.vid b)
    let k := (bs.length + 2047) / 2048
    let y := fetchUpTo k k s g
    vpB s v NetVport0.en = true → nextFrame s b (fun _ => true) = some f → rxOpen s g = true → rxOpen y g = true →
    k ≤ (freeBuffers (getCh y g)).length → k ≤ (getCh y g).cplFree →
      exec (.frameDeliver v) s =
        .next (completeAll (deliverTo (unqueue y f b) g f bs ((freeBuffers (getCh y g)).take k)) g) := by
  intro b g bs k y hen hf hs hy hbuf hcpl
  simp only [b] at hf
  simp only [g] at hs
  simp only [y, k, bs, b, g] at hy hbuf hcpl
  simp only [exec_frameDeliver, execFrameDeliver, hen, hf, hs, hy, hbuf, hcpl, Bool.not_true, Bool.false_eq_true, if_false, if_true,
    decide_true, Bool.and_self, y, k, bs, b, g]

/-- Settles O52, by the steps of a send, the buffers read, and the frame's delivery. -/
theorem virtualPortCompletes : Obligations.VirtualPortCompletes := by
  refine ⟨fun s z g slot d v vs bs hv hes => ⟨fun hr hl hw hg => ?_, fun hr hd h1 h8 hw hg hgood hnw hlen => ?_, fun hr hd hg => ?_⟩,
    fun s g slot hr hv ho hi => ?_, fun s v f => exec_frameDeliver_delivers, fun s v e he => ?_⟩
  · exact congrArg Host.Outcome.next (txRun_steps hv hes hr (txStep_sends hl hw hg))
  · exact congrArg Host.Outcome.next (txRun_steps hv hes hr (txsgStep_lists hd h1 h8 hw hg hgood hnw hlen))
  · exact congrArg Host.Outcome.next (txRun_steps hv hes hr (txsgStep_sends hd hg))
  · simp only [exec_rxbuf, execRxbuf, hr]
    exact congrArg Host.Outcome.next (if_pos (by simp [hv, ho, hi]))
  · simp only [exec_losslessHoldExpiry, execLosslessHoldExpiry, he]

end Sys2Proof.Machine

/-! PROOFS. The trusted world and the vault (chapter 19): world switches and the trusted pair (O53), and key slots (O54). -/

namespace Sys2Proof.Machine

/-! ### World switches (R434 to R436) -/

section Switches
variable {s : State}

/-- A switch that nothing forbids keeps its fields, is busy, and stops the core's threads. -/
theorem exec_worldSwitch_stops {t : Tid} {v : Word} (hb : blockUp s uidVault = true) (hr : fldB v VltWorldCmd.refused = false)
    (hg : fldB v VltWorldCmd.go = true)
    (hn : switchReason s (trusted s t) (fld v VltWorldCmd.vcore) (fldB v VltWorldCmd.to_world) = none) :
    let y := [VltWorldCmd.notify_thread, VltWorldCmd.notify_vector, VltWorldCmd.vcore, VltWorldCmd.to_world].foldl
      (fun s f => sw s f (fld v f)) s
    let z := sw y VltWorldCmd.busy 1
    exec (.worldSwitch (.thread t) v) s = .next (switchStops { z with vault := { z.vault with
      sw := some (fld v VltWorldCmd.vcore, fldB v VltWorldCmd.to_world) } } (fld v VltWorldCmd.vcore)) := by
  intro y z
  simp only [exec_worldSwitch, execWorldSwitch, hb, if_true, writeWorldCmd, hr, hg, writerWorld, hn, Bool.not_true, Bool.false_eq_true,
    if_false, y, z]

theorem dropFill_regs (s : State) (t : Tid) : (dropFill s t).regs = s.regs := by
  unfold dropFill
  split <;> rfl

/-- A switch's core, its threads' host accesses drained, is cleared and changes its world (R436). -/
theorem exec_worldSwitchDone_clears {v : Nat} {dst : Bool} (hs : s.vault.sw = some (v, dst))
    (hw : [2 * v, 2 * v + 1].any (fun n => (getT s (tidOf n)).hostWait.isSome) = false) :
    let k := coreOfUid (s.getF (rBcVcoreMap v) BcVcoreMap.phys_unit)
    let y := [2 * v, 2 * v + 1].foldl (fun s n => dropFill s (tidOf n)) s
    let y := emptyCaches ([2 * v, 2 * v + 1].foldl (fun s n => drainAll s (tidOf n)) y) k
    let y := clearPredictors (startClear y (tidOf (2 * v))) (tidOf (2 * v))
    let y := [2 * v, 2 * v + 1].foldl clearThread (updC y k (fun x => { x.keepTlb (fun _ => false) with walks := [], clearEnd := 0 }))
    let y := sheafTrusted ((resetBlock y (coreUid k + 1)).putB (rBcVcoreMap v) BcVcoreMap.world dst) (k / 8)
    let y := sw { y with vault := { y.vault with sw := none } } VltWorldCmd.busy 0
    let n := y.getF rVltWorldCmd VltWorldCmd.notify_thread
    exec .worldSwitchDone s =
      .next (if n ≤ 383 then sendIrq y n (y.getF rVltWorldCmd VltWorldCmd.notify_vector) uidVault else y) := by
  intro k
  have hk : coreOfUid (([2 * v, 2 * v + 1].foldl (fun s n => dropFill s (tidOf n)) s).getF (rBcVcoreMap v) BcVcoreMap.phys_unit) = k :=
    congrArg coreOfUid (getF_congr (by simp only [List.foldl_cons, List.foldl_nil, dropFill_regs]) _ _)
  simp only [exec_worldSwitchDone, execWorldSwitchDone, hs, hw, Bool.false_eq_true, if_false, hk]

end Switches

/-! ### The trusted pair (R443 to R445) -/

section Pair
variable {s : State}

/-- The active group is found failed: by its heartbeat, or by a unit of it (R444). -/
theorem exec_trustedGroupFailure_takes (ha : s.vault.active = true) (hb : bcUp s = true) (hf : s.vault.activeFailed = false)
    (h : s.vault.lastBeat + beatLimit s ≤ s.time ∨ groupLost s (trustedTiles s) = true) :
    exec .trustedGroupFailure s = .next (takeover s) :=
  congrArg Host.Outcome.next ((if_neg (by simp [ha, hb])).trans (if_pos (by simp [hf, h])))

/-- A standby that is ready and has failed is contained (R444). -/
theorem exec_trustedGroupFailure_contains (ha : s.vault.active = true) (hb : bcUp s = true)
    (ht : s.time < s.vault.lastBeat + beatLimit s) (hl : groupLost s (trustedTiles s) = false)
    (hst : s.getF rVltTwStatus VltTwStatus.stby_state = 2) (hg : groupLost s (standbyTiles s) = true) :
    exec .trustedGroupFailure s =
      .next (configEval ((contain s (standbyTiles s)).putF rVltTwStatus VltTwStatus.stby_state 0)) :=
  congrArg Host.Outcome.next ((if_neg (by simp [ha, hb])).trans
    ((if_neg (by simp [hl, ht])).trans (if_pos (by simp [hst, hg]))))

end Pair

/-- Settles O53, by the switch and its end, and the pair's failure and restart. -/
theorem trustedWorldCompletes : Obligations.TrustedWorldCompletes := by
  refine ⟨fun s t v => exec_worldSwitch_stops, fun s v dst => exec_worldSwitchDone_clears,
    fun s r v hm hb => ⟨?_, fun h5 h7 => ?_, fun hc => ?_⟩,
    fun s ha hb => ⟨fun hf hl => exec_trustedGroupFailure_takes ha hb hf (.inl hl),
      fun hf hg => exec_trustedGroupFailure_takes ha hb hf (.inr hg), exec_trustedGroupFailure_contains ha hb⟩,
    fun s ha hb hst hf => ?_, fun s hst hb => ?_, fun s cause hc hi => ?_⟩
  · exact congrArg Host.Outcome.next (if_pos (by simp [hm, hb]))
  · exact congrArg Host.Outcome.next ((if_pos (by simp [hm, hb])).trans (if_pos ⟨h5, h7⟩))
  · exact congrArg Host.Outcome.next ((if_pos (by simp [hm, hb])).trans (if_neg hc))
  · exact congrArg Host.Outcome.next (if_neg (by rcases hf with h | h <;> simp [ha, hb, hst, h]))
  · exact congrArg Host.Outcome.next (if_neg (by simp [hst, hb]))
  · exact congrArg Host.Outcome.next (if_neg (not_or.mpr ⟨hc, by rcases hi with h | h | h <;> simp [h]⟩))

/-! ### Key slots (R448, R449, R453) -/

section Slots
variable {s : State} {r : Requester} {v : Word}

/-- The vault once it has accepted a slot command of operation `op`: its fields kept, and busy for the operation's time. -/
def slotTaken (s : State) (v : Word) (op : Nat) : State :=
  let y := [VltSlotCmd.slot, VltSlotCmd.type, VltSlotCmd.usage].foldl
    (fun s f => s.putF rVltSlotCmd f (fld (setFld v VltSlotCmd.op op) f)) s
  { y with vault := { y.vault with busyTill := y.time + Config.slotTime op (fld v VltSlotCmd.type) } }

theorem slotTaken_mkValid (op : Nat) : (slotTaken s v op).vault.mkValid = s.vault.mkValid := by
  simp [slotTaken]

/-- A slot command of the active group that the vault may perform has its effect (R449). -/
theorem slotCommand_effect {op : Nat} (hm : mayVault s r = true) (hb : blockUp s uidVault = true) (hi : s.vault.busyTill ≤ s.time)
    (hr : fldB v VltSlotCmd.refused = false) (ht : slotTypes.contains (fld v VltSlotCmd.type) = true) (h0 : op ≠ 0) (h5 : op ≤ 5)
    (hd : (slotTaken s v op).getB rVltDbgEn VltDbgEn.sec_inv = false) (hk : s.vault.mkValid ≠ (op == 5)) {z : State}
    (he : slotEffect (slotTaken s v op) op (fld v VltSlotCmd.slot) (fld v VltSlotCmd.type) (fld v VltSlotCmd.usage) = some z) :
    slotCommand s r op v = z := by
  have kept (f : Fld) (h : 3 < f.lo) : fld (setFld v VltSlotCmd.op op) f = fld v f := fld_setFld_other v VltSlotCmd.op f op (.inr h)
  have hop : fld (setFld v VltSlotCmd.op op) VltSlotCmd.op = op := by
    rw [fld_setFld_same _ _ _ (by decide)]
    exact Nat.mod_eq_of_lt (by simp [Fld.width, VltSlotCmd.op]; omega)
  have hr' : fldB (setFld v VltSlotCmd.op op) VltSlotCmd.refused = false := by
    rw [fldB, kept _ (by decide)]; exact hr
  refine (if_pos (by simp [hm, hb])).trans ?_
  simp only [writeSlotCmd, hr', hop, kept VltSlotCmd.type (by decide), Bool.false_eq_true, if_false, Nat.not_lt.mpr hi, h0,
    Nat.not_lt.mpr h5]
  have hfree : (!slotTypes.contains (fld v VltSlotCmd.type) || (slotTaken s v op).getB rVltDbgEn VltDbgEn.sec_inv ||
      (slotTaken s v op).vault.mkValid == (op == 5)) = false := by
    rw [slotTaken_mkValid, ht, hd]; simpa using hk
  refine (if_neg (Bool.eq_false_iff.mp hfree)).trans ?_
  simp only [kept VltSlotCmd.slot (by decide), kept VltSlotCmd.usage (by decide)]
  exact congrArg (Option.getD · _) he

theorem slotEffect_publicPart {n t usage : Nat} {k : Slot} (hk : openSlot s n = some k) (h8 : 8 ≤ k.type)
    (hmem : (linesOf (slotAddr s) (Config.publicPart k.type k.key).length).all (fun l => (physClass s (l * 64)).isMem) = true) :
    slotEffect s 4 n t usage = some (homeWrite s (slotAddr s) (Config.publicPart k.type k.key)) := by
  simp only [slotEffect, hk, h8, hmem, if_true]

end Slots

/-- Settles O54, by the effect of each operation the vault may perform. -/
theorem keySlotCompletes : Obligations.KeySlotCompletes := by
  intro s r v hm hb hi hr n t usage go ht hd
  have does {op : Nat} {z : State} (h0 : op ≠ 0) (h5 : op ≤ 5) (hk : s.vault.mkValid ≠ (op == 5))
      (he : slotEffect (slotTaken s v op) op n t usage = some z) : slotCommand s r op v = z :=
    slotCommand_effect hm hb hi hr ht h0 h5 (hd op h5) hk he
  refine ⟨fun hmk => ⟨fun key hkey hbad => ?_, ?_, ?_, fun k hk h8 hmem => ?_⟩, fun hmk => ?_⟩
  · exact congrArg Host.Outcome.next (does (op := 1) (by decide) (by decide) (by simp [hmk])
      ((congrArg (Option.bind · _) hkey).trans (if_neg (Bool.eq_false_iff.mp hbad))))
  · exact congrArg Host.Outcome.next (does (op := 2) (by decide) (by decide) (by simp [hmk]) rfl)
  · exact congrArg Host.Outcome.next (does (op := 3) (by decide) (by decide) (by simp [hmk]) rfl)
  · exact congrArg Host.Outcome.next (does (op := 4) (by decide) (by decide) (by simp [hmk]) (slotEffect_publicPart hk h8 hmem))
  · exact congrArg Host.Outcome.next (does (op := 5) (by decide) (by decide) (by simp [hmk]) rfl)

end Sys2Proof.Machine

/-! PROOFS. Base camp's management interfaces (chapters 20 and 24): requests and debug tokens (O56), and updates (O57). -/

namespace Sys2Proof.Machine

/-! ### Requests (R462 to R468, R475, R524 to R527) -/

section Requests
variable {s : State} {x : Transport}

/-- A request on a transport that base camp serves is acted on and answered (R466, R468). -/
theorem serve_served (h : served s x = true) (f : State → State × Reply) : serve s x f = reply (f s).1 x (f s).2 := by
  simp only [serve, h, if_true]

theorem spdmReply_unsigned (h : served s x = true) (what a b c : Nat) :
    spdmReply s x what a b c false [] = reply s x (.bytes what (Config.spdm what a b c)) := by
  simp only [spdmReply, serve_served h, Bool.false_eq_true, if_false, List.append_nil]

theorem spdmReply_signed (h : served s x = true) (what a b c : Nat) (body : List Byte) :
    spdmReply s x what a b c true body =
      reply s x (.bytes what (Config.spdm what a b c ++ body ++ Config.spdmSign (Config.spdm what a b c ++ body))) := by
  simp only [spdmReply, serve_served h, if_true]

theorem exec_mctpControl_answers (h : served s x = true) (body : List Byte) :
    exec (.mctpControl x 0 body) s = .next (
      reply (match Config.mctpEid body with
        | some e => updG s (fun m => { m with eids := (x, e) :: m.eids.filter (fun p => p.1 != x) })
        | none => s) x (.bytes 0 (Config.mctpReply body))) := by
  cases he : Config.mctpEid body <;> simp only [exec_mctpControl, execMctpControl, serve_served h, if_true, he]

theorem exec_pldmRequest_answers (h : served s x = true) (q : PldmQuery) :
    exec (.pldmRequest x q) s = .next (reply (pldmAnswer s q).1 x (pldmAnswer s q).2) :=
  congrArg Host.Outcome.next (serve_served h _)

theorem tokenOk_nonce {body : List Byte} {sigOk keysOk : Bool} (h : tokenOk s body sigOk keysOk = true) :
    s.mgmt.nonce = some (body.drop 0x20) := by
  simp only [tokenOk, Bool.and_eq_true, beq_iff_eq] at h
  obtain ⟨⟨⟨⟨-, hn⟩, -⟩, -⟩, -⟩ := h
  exact hn

/-- A token that checks opens its enables, and its nonce is spent (R525). -/
theorem exec_debugToken_opens (h : served s x = true) {body : List Byte} {sigOk keysOk : Bool} (ht : tokenOk s body sigOk keysOk = true) :
    let y := applyToken { s with mgmt := { s.mgmt with nonce := none } } body
    exec (.debugToken x body sigOk keysOk) s = .next (reply (logRecord y 0x51 uidDevice 0 (y.getR rVltDbgEn).toNat
      (tokenField body 0x10 8) 0 0) x (.done 0)) := by
  simp only [exec_debugToken, execDebugToken, serve_served h, ht, tokenOk_nonce ht, beq_self_eq_true, if_true, Bool.not_true, ofBool,
    Bool.false_eq_true, if_false]

end Requests

/-- Settles O56, by the answer of a served transport. -/
theorem managementRequestCompletes : Obligations.ManagementRequestCompletes := by
  refine ⟨fun s x h => ⟨exec_mctpControl_answers h, fun seq count => ?_, fun id v lo hi hs => ?_, ?_, fun u hu => ?_, fun w => ?_, ?_, ?_,
    ?_, ?_, ?_, fun slot offset length => ?_, fun slot nonce => ?_, fun block nonce => ?_, fun n hn => ?_,
    fun body sigOk keysOk => exec_debugToken_opens h, ?_⟩, fun s n hn hb ht => ?_⟩
  · exact congrArg Host.Outcome.next (serve_served h _)
  · simp only [exec_pldmRequest_answers h, pldmAnswer, hs]
  · exact (exec_pldmRequest_answers h _).trans (by rw [pldmAnswer, if_pos (by decide)])
  · simp only [exec_pldmRequest_answers h, pldmAnswer, hu, if_false]
  · exact exec_pldmRequest_answers h _
  · exact exec_pldmRequest_answers h _
  · exact congrArg Host.Outcome.next (spdmReply_unsigned h ..)
  · exact congrArg Host.Outcome.next (spdmReply_unsigned h ..)
  · exact congrArg Host.Outcome.next (spdmReply_unsigned h ..)
  · exact congrArg Host.Outcome.next (spdmReply_unsigned h ..)
  · exact congrArg Host.Outcome.next (spdmReply_unsigned h ..)
  · exact congrArg Host.Outcome.next (spdmReply_signed h ..)
  · exact congrArg Host.Outcome.next (spdmReply_signed h ..)
  · subst hn
    exact congrArg Host.Outcome.next (serve_served h _)
  · exact congrArg Host.Outcome.next (serve_served h _)
  · simp only [exec_tokenExpiry, execTokenExpiry, hn, hb, ht, decide_true, Bool.and_self, if_true]

/-! ### Updates (R456, R467 to R471) -/

section Updates
variable {s : State} {x : Transport}

theorem updating_false (h : s.mgmt.update = .none) : updating s = false := by
  simp [updating, h]

/-- An image that verifies and that the standby accepts is applied by a planned takeover (R469). -/
theorem exec_firmwareUpdate_applies {image was : Image} (h : served s x = true) (hu : s.mgmt.update = .none)
    (hr : s.mgmt.running = some was) (hi : imageOk s image = true) (hp : bcPair s = true) (ha : image.accepts ≤ runVersion s)
    (hf : flashValid s s.mgmt.flashA = true ∨ flashValid s s.mgmt.flashB = true) :
    let b := !s.mgmt.fromB
    let y := failover (writeFlash s b image) 4 .standby
    let z := runImage (updG y (fun m => { m with update := .firmware was })) image b
    exec (.firmwareUpdate x image) s =
      .next (reply (configEval (updateRecord (showCores z) 1 (runVersion s) image.fwVersion 0)) x (.done 0)) := by
  have hgood : (!imageOk s image || !bcPair s || !(flashValid s s.mgmt.flashA || flashValid s s.mgmt.flashB)) = false := by
    rcases hf with hf | hf <;> simp [hi, hp, hf]
  simp only [exec_firmwareUpdate, execFirmwareUpdate, serve_served h, updating_false hu, hr, hgood, Nat.not_lt.mpr ha,
    Bool.false_eq_true, if_false]

/-- Within 60 s both cores may go back to the image before (R469). -/
theorem exec_updateRollback_returns {old : Image} (hu : s.mgmt.update = .firmware old) (hb : bcUp s = true)
    (ht : s.time < s.mgmt.loadedAt + 60000000000) :
    let y := setFlash (failover s 2 .standby) s.mgmt.fromB (fun f => { f with image := some old })
    let z := runImage (updG y (fun m => { m with update := .none })) old (!s.mgmt.fromB)
    exec .updateRollback s = .next (configEval (updateRecord (showCores z) 1 old.fwVersion (runVersion s) 2)) := by
  simp only [exec_updateRollback, execUpdateRollback, hu, hb, Nat.not_le.mpr ht, decide_false, Bool.not_true, Bool.or_self,
    Bool.false_eq_true, if_false]

/-- A compatible patch set that verifies is stored in both flashes and applied (R470). -/
theorem exec_patchSetLoad_stores {version : Nat} {comp : List Nat} (h : served s x = true) (hu : s.mgmt.update = .none)
    (hc : comp.contains s.mgmt.patch = true) :
    let store (f : Flash) : Flash := { f with image := f.image.map (fun i => { i with patch := some version }) }
    let y := setFlash (setFlash s false store) true store
    let cores := (List.range 192).filter (fun k => stateOf y (coreUid k) == usInService)
    exec (.patchSetLoad x version true comp) s = .next (reply (updateRecord (updG y (fun m => { m with
      patch := version, patched := cores, running := m.running.map (fun i => { i with patch := some version }) }))
      2 s.mgmt.patch version 0) x (.done 0)) := by
  simp only [exec_patchSetLoad, execPatchSetLoad, serve_served h, updating_false hu, hc, Bool.not_true, Bool.or_self,
    Bool.false_eq_true, if_false]

/-- A trusted component is staged in normal memory and announced (R471). -/
theorem exec_trustedComponentStage_announces {cls version n : Nat} {body : List Byte} :
    let a := fld (s.getR rBcTwStage) BcTwStage.addr * 4096
    let y := updG (homeWrite s a body) (fun m => { m with update := .trusted cls version (homeWrite s a body).time, twOutcome := none })
    served s x = true → s.mgmt.update = .none → fldB (s.getR rBcTwStage) BcTwStage.valid = true → (cls = 3 ∨ cls = 4) →
    (linesOf a body.length).any (fun l => isSecure s (l * 64) || physClass s (l * 64) != .dram) = false →
    lowestThread y (trustedTiles y) = some n →
      exec (.trustedComponentStage x cls version body) s = .next (reply (sendIrq y n 62 uidBaseCamp) x (.value 0)) := by
  intro a y h hu hv hc hl hn
  have hcls : (cls == 3 || cls == 4) = true := by simpa using hc
  simp only [a] at hl
  simp only [y, a] at hn
  simp only [exec_trustedComponentStage, execTrustedComponentStage, serve_served h, updating_false hu, hv, hcls, hl, hn, Bool.not_true,
    Bool.or_self, Bool.false_eq_true, if_false, y, a]

/-- The trusted world's outcome ends the update (R471). -/
theorem exec_trustedOutcome_ends {cls version since : Nat} (hu : s.mgmt.update = .trusted cls version since) (hb : bcUp s = true) :
    let old := (mfind s.mgmt.versions cls).getD (Config.componentVersion cls)
    let y (n : Nat) : State := updG s (fun m => { m with
      update := .none, twOutcome := none, versions := if n = 0 then mins m.versions cls version else m.versions })
    (∀ n, s.mgmt.twOutcome = some n → exec .trustedOutcome s =
      .next (reply (updateRecord (y n) cls old version (min n 1)) .i3c (.done n))) ∧
    (s.mgmt.twOutcome = none → since + 60000000000 ≤ s.time → exec .trustedOutcome s =
      .next (reply (updateRecord (y 1) cls old version 1) .i3c (.done 1))) := by
  refine ⟨fun n hn => ?_, fun hn ht => ?_⟩
  · simp only [exec_trustedOutcome, execTrustedOutcome, hu, hb, hn, Bool.not_true, Bool.false_eq_true, if_false]
  · simp only [exec_trustedOutcome, execTrustedOutcome, hu, hb, hn, ht, Bool.not_true, Bool.false_eq_true, if_false, if_true,
      Nat.min_self]

end Updates

/-- Settles O57, by the updates of each component class. -/
theorem updateCompletes : Obligations.UpdateCompletes := by
  refine ⟨fun s x image was => exec_firmwareUpdate_applies, fun s old => exec_updateRollback_returns,
    fun s x version comp => exec_patchSetLoad_stores, fun s k => rfl, fun s x cls version body n => exec_trustedComponentStage_announces,
    fun s cls version since => exec_trustedOutcome_ends⟩

end Sys2Proof.Machine

/-! PROOFS. Monitoring, debug and test access (chapters 23 and 24): windows, samples, traces and the test access port (O59), and the state
after reset (O2). -/

namespace Sys2Proof.Machine

/-! ### Windows, samples and traces (R513 to R519, R528, R529) -/

section Monitoring
variable {s : State} {t : Tid}

/-- A tagged µop of a selected thread of the normal world goes to the core's ring, no interrupt being asked for (R516, R517). -/
theorem exec_sampleRecord_adds {x : Sampled} :
    let u := coreUid (coreOf s t) + 1
    let c := s.getR (rPmSampleCfg u)
    let w := s.getR (rPmSampleRing u)
    fldB c PmSampleCfg.en = true → threadSel s (fld c PmSampleCfg.thread) t = true → fldB w PmSampleRing.en = true →
    trusted s t = false → ringSecure s w 64 = false → fldB c PmSampleCfg.irq_en = false →
      exec (.sampleRecord t x) s = .next (ringAdd s (rPmSampleRing u) (rPmSamplePtr u) (sampleBytes s t x)) := by
  intro u c w hen hsel hring hworld hsec hirq
  simp only [c, w, u] at hen hsel hring hsec hirq
  simp only [exec_sampleRecord, execSampleRecord, hen, hsel, hring, hworld, hsec, hirq, Bool.not_true, Bool.or_self, Bool.false_and,
    Bool.false_eq_true, if_false, u]

/-- An event of a traced thread, its world's enable set, goes to the trace ring (R519, R528). -/
theorem exec_traceRecord_adds {x : Traced} :
    let c := s.getR (rDbgTraceCtrl (coreUid (coreOf s t) + 2))
    let w := s.getR rDbgTraceRing
    s.getB rDbgAccess DbgAccess.trace_en = true → fldB c DbgTraceCtrl.en = true →
    threadSel s (fld c DbgTraceCtrl.thread) t = true →
    s.getB rVltDbgEn (if trusted s t then VltDbgEn.sec_noninv else VltDbgEn.norm_noninv) = true →
    fldB w PmSampleRing.en = true → ringSecure s w 32 = false →
      exec (.traceRecord t x true) s = .next (ringAdd s rDbgTraceRing rDbgTracePtr (traceBytes s t x)) := by
  intro c w hacc hen hsel hworld hring hsec
  simp only [c, w] at hen hsel hring hsec
  simp only [exec_traceRecord, execTraceRecord, hacc, hen, hsel, hworld, hring, hsec, Bool.not_true, Bool.or_self, Bool.false_eq_true,
    if_false, if_true]

end Monitoring

/-! ### The test access port (R520 to R522) -/

theorem tapDrive_held {s : State} {i : TapInstr} (h : s.board.tapHold = true) : tapDrive s i = tapLoad s i :=
  if_pos h

/-- Up to stage S2 an instruction that drives contacts holds start-up. -/
theorem tapDrive_holds {s : State} {i : TapInstr} (h : s.board.tapHold = false) (hst : s.getF rBcBootStatus BcBootStatus.stage ≤ 2)
    (hs : s.board.stopped = false) : tapDrive s i = tapLoad { s with board := { s.board with tapHold := true } } i :=
  (if_neg (Bool.eq_false_iff.mp h)).trans (if_pos ⟨hst, by simp [hs]⟩)

/-- Settles O59, by the windows' boundaries, the rings, and the instructions of the port. -/
theorem monitorDebugCompletes : Obligations.MonitorDebugCompletes := by
  refine ⟨fun s u => ⟨fun k hk ht => ?_, fun k hk ht => ?_, fun k hk ht => ?_, fun k hk ht => ?_⟩, fun s t x => exec_sampleRecord_adds,
    fun s t x => exec_traceRecord_adds, fun s => ⟨rfl, rfl, fun pins => rfl, fun x => rfl, fun c hc => ?_⟩, fun s k v ho => ?_⟩
  · simp only [exec_counterWindow, execCounterWindow, hk, ht, if_true]
  · simp only [exec_counterWindow, execCounterWindow, hk, ht, if_true]
  · simp only [exec_counterWindow, execCounterWindow, hk, ht, if_true]
  · simp only [exec_counterWindow, execCounterWindow, hk, ht, if_true]
  · simp only [List.mem_cons, List.not_mem_nil, or_false] at hc
    rcases hc with rfl | rfl | rfl | rfl | rfl <;>
      exact ⟨fun h => congrArg Host.Outcome.next (tapDrive_held h),
        fun h hst hs => congrArg Host.Outcome.next (tapDrive_holds h hst hs)⟩
  · exact congrArg Host.Outcome.next (if_pos ⟨rfl, ho⟩)

/-! ### The state after reset (R500, R503) -/

/-- A map that lists nothing is in canonical form. -/
theorem mwf_nil {β : Type} [DecidableEq β] (d : Nat → β) : mwf d [] = true := rfl

theorem getT_reset (t : Tid) : getT State.reset t = Thread.init := rfl

/-- Settles O2: every map of the reset state is empty. -/
theorem resetMeetsTheInvariant : Obligations.ResetMeetsTheInvariant :=
  ⟨⟨mwf_nil _, mwf_nil _, mwf_nil _, mwf_nil _⟩, rfl, rfl, fun t => by rw [getT_reset]; rfl⟩

end Sys2Proof.Machine
